-- ==== Sys2Proof/Word.lean ====
section
/-! DEFINITION. The word, byte and index types of the KQJ-7680. -/

namespace Sys2Proof

/-- A 64-bit scalar register, address or literal (R28, R359). -/
abbrev Word := BitVec 64

/-- One byte; every multi-byte field is little-endian (R5). -/
abbrev Byte := BitVec 8

/-- A core of the package: die * 128 + `ID.CORE` (R2, R235). -/
abbrev CoreId := Fin 1024

/-- A context slot of a core: 0 the control context, 1 to 10 the helpers (R244). -/
abbrev SlotId := Fin 11

/-- A compute die of the package (R2). -/
abbrev DieId := Fin 8

/-- A torus direction as `xmit` and `imux` code it: 0 north, 1 south, 2 west, 3 east (R227). -/
abbrev Dir := Fin 4

end Sys2Proof
end

