-- ==== Sys2Proof/Syntax.lean ====
section
/-! DEFINITION. The syntax of the KQJ-7680's steps: operand forms (R19, R22), types, scopes, and `Instr`, one
constructor per row of spec/opcode_table.json. Rows without a word of their own are the part's indivisible steps
(spec/95_what_each_step_holds.md); their arguments name the party that moves and what the outside world supplies. -/

namespace Sys2Proof

/-- A scalar source operand (R19). `imm k` stands for the value k - 8. -/
inductive Src where
  | w (n : Fin 24) | g (n : Fin 8) | o (n : Fin 8) | lat | zero | lit | imm (k : Fin 16)
  deriving DecidableEq, Repr

/-- A scalar destination operand (R19). -/
inductive Dst where
  | w (n : Fin 24) | g (n : Fin 8) | o (n : Fin 8) | zero
  deriving DecidableEq, Repr

/-- A scalar register named by a code 0 to 40 (R93). -/
inductive RegName where
  | w (n : Fin 24) | g (n : Fin 8) | o (n : Fin 8) | lat
  deriving DecidableEq, Repr

/-- The counter of `loop`: a register that is read and written, codes 0 to 39 (R100). -/
inductive CtrReg where
  | w (n : Fin 24) | g (n : Fin 8) | o (n : Fin 8)
  deriving DecidableEq, Repr

/-- A vector source: a vector register or a broadcast operand (R22). -/
inductive VSrc where
  | v (n : Fin 16) | o (n : Fin 8) | lat | zero | lit | imm (k : Fin 16)
  deriving DecidableEq, Repr

/-- A broadcast code 32 to 63 read as a scalar value in a vector class (R163). -/
inductive VScal where
  | o (n : Fin 8) | lat | zero | lit | imm (k : Fin 16)
  deriving DecidableEq, Repr

/-- The operand of `symt`, `symw` and `symx` (R93). -/
inductive SymArg where
  | num (n : Fin 64) | reg (r : RegName)
  deriving DecidableEq, Repr

/-- TYPE (R13); TYPE 0 is written `none`. -/
inductive Ty where
  | i8 | i16 | i32 | i64 | z8 | z16 | z32 | z64 | f32 | f16 | bf16 | e4m3 | e5m2
  deriving DecidableEq, Repr

/-- The access type of a load, FN[2:0] (R32). -/
inductive LdTy where
  | i8 | i16 | i32 | i64 | z8 | z16 | z32 | z64
  deriving DecidableEq, Repr

/-- The access type of a store, FN[1:0] (R33). -/
inductive StTy where
  | i8 | i16 | i32 | i64
  deriving DecidableEq, Repr

/-- SCOPE (R12). -/
inductive Scope where
  | thr | core | clu | die | pkg | sys
  deriving DecidableEq, Repr

/-- ORD (R12). -/
inductive Ord where
  | none | acq | rel | ar
  deriving DecidableEq, Repr

/-- WIN (R12). -/
inductive Win where
  | glob | W | A | C | G
  deriving DecidableEq, Repr

/-- RND (R13, R47). -/
inductive Rnd where
  | dyn | rne | rtz | rup | rdn | sr
  deriving DecidableEq, Repr

/-- An integer condition, codes 0 to 9 (R32, R86). -/
inductive Cond where
  | eq | ne | lt | le | gt | ge | ltz | lez | gtz | gez
  deriving DecidableEq, Repr

/-- A floating condition (R90). -/
inductive FCond where
  | eq | ne | lt | le | gt | ge | un | ord
  deriving DecidableEq, Repr

/-- A condition of `vcmp`, codes 0 to 11 (R171). -/
inductive VCond where
  | eq | ne | lt | le | gt | ge | ltz | lez | gtz | gez | un | ord
  deriving DecidableEq, Repr

/-- The operation of `atom` (R137). -/
inductive AtomOp where
  | add | and | or | xor | min | minz | max | maxz | swap | cas | fadd | badd
  deriving DecidableEq, Repr

/-- The operation of `red` (R137). -/
inductive RedOp where
  | add | and | or | xor | min | minz | max | maxz | fadd | badd
  deriving DecidableEq, Repr

/-- The operation of `vred` (R175). -/
inductive VredOp where
  | add | min | max | and | or | xor
  deriving DecidableEq, Repr

/-- The operation of `vscan` (R176). -/
inductive VscanOp where
  | add | min | max
  deriving DecidableEq, Repr

/-- The control registers of R235. -/
inductive CReg where
  | idCtx | idCore | idClu | idDie | idLcore | idNcore | idPart | idLaunch
  | fpMode | symMode | symSel | symRes | spillBase | spillDepth | trapVec | trapEpc
  | ssr (n : Fin 4) | msgRing | deadl
  deriving DecidableEq, Repr

/-- The length and literal of an `_X` row: LEN 0b01, 0b10 or 0b11 (R10). -/
inductive Form where
  | l (v : Word) | x | xl (v : Word)
  deriving DecidableEq, Repr

/-- MEN and MSEL (R13). -/
structure MaskSel where
  en : Bool := false
  sel : Fin 8 := 0
  deriving DecidableEq, Repr

/-- The privilege modes (R373). -/
inductive Mode where
  | u | h | s | m
  deriving DecidableEq, Repr

/-- The partition modes (R4). -/
inductive PartMode where
  | pm1 | pm2 | pm8
  deriving DecidableEq, Repr

/-- Where a communicator's rank is reached (R319). -/
inductive Route where
  | self | part (p : Nat) | port (j : Nat) | rails
  deriving DecidableEq, Repr

/-- What the runtime supplies when it creates a communicator (R319). -/
structure CommSpec where
  launch : Nat
  comm : Nat
  n : Nat
  rank : Nat
  vc : Nat
  cbase : Nat
  ccnt : Nat
  routes : List (Nat × Route)
  node : Nat
  loc : Nat
  /-- The runtime's name of the communicator, the same at every rank (R401). -/
  gid : Nat
  deriving DecidableEq, Repr

/-- One chunk of a message of the sower as it travels (R313, R315): which transfer it belongs to, the length of
the whole transfer, the offset of this chunk, its bytes, and for each byte whether its granule was poisoned (none listed: none was);
between packages, its place in the sequence of what the sending rank sends the receiver, and, where a third device of the node is
to pass it on, the rank that it is for (R402). -/
structure ChunkMsg where
  total : Nat
  off : Nat
  data : List Byte
  bad : List Bool := []
  rank : Nat := 0
  seq : Nat := 0
  dest : Option Nat := none
  deriving DecidableEq, Repr

/-- A PUT or ATOM as it reaches the peer (R313), with its place in the sequence and the rank that it is for, as a chunk's. -/
structure PutMsg where
  dst : Word
  data : List Byte
  atomic : Bool
  last : Bool
  pctr : Option Nat
  bad : List Bool := []
  seq : Nat := 0
  dest : Option Nat := none
  deriving DecidableEq, Repr

/-- A firmware image (R443): its header's security version, the two parts and the signature. -/
structure FwImage where
  version : BitVec 16
  header : List Byte
  root : List Byte
  sched : List Byte
  sig : List Byte
  deriving DecidableEq, Repr

/-- What the command processor and the runtime choose when they bind a launch (R345, R347, R348, R365): the origin
of a shape without PLACE, the addresses of the images, spill areas, descriptor table, save regions and counter
window, the first counter of the allotment, and the page-table entries the runtime writes. -/
structure BindPlan where
  die : Nat
  x0 : Nat
  y0 : Nat
  codeVa : Word
  codePa : Nat
  dataVa : Word
  dataPa : Nat
  spillVa : Word
  spillStride : Nat
  bdtPa : Nat
  savePa : Nat
  cwVa : Word
  ctrBase : Nat
  /-- The descriptor table's address in the launch's space (R365). -/
  bdtVa : Word := 0
  /-- The queue extensions' address in the launch's space and in device memory (R365). -/
  extVa : Word := 0
  extPa : Nat := 0
  /-- The save regions' address in the launch's space (R386). -/
  saveVa : Word := 0
  /-- The ranges of device memory that the root firmware grants to mode S for the launch, as first byte and length (R442). -/
  grants : List (Nat × Nat) := []
  tables : List (Nat × Word)
  deriving DecidableEq, Repr

/-- A register of the host's queue pages or of headland space whose write has no row of its own (R7, R396, R421,
R439). -/
inductive DevReg where
  | sqBase (q : Nat) | cqBase (q : Nat) | qSize (q : Nat) | qSqHead (q : Nat) | qCqTail (q : Nat)
  | ckptCtl | ckptDst | ras (d : DieId) | other (pa : Nat)
  /-- What only the root firmware may write, beside CKPT.DST and the translation roots: a partition-isolation register, an IDE
  key, the repair table (R442). -/
  | isolation | ideKey | repairTable
  /-- n bytes at an offset of the page of queue q of the function of partition p, in BAR2 (R395). -/
  | queuePage (p q off n : Nat)
  deriving DecidableEq, Repr

/-- What the host answers to a request for a host line (R399): the state granted and the line's bytes; for a CXL.io read the
bytes alone, and none for a zero-length read. -/
inductive HostGrant where
  | shared (data : List Byte) | exclusive (data : List Byte) | owned (data : List Byte) | accepted | io (data : List Byte)
  deriving DecidableEq, Repr

/-- What a patrol scrub finds in a granule (R434). -/
inductive ScrubResult where
  | clean | corrected | uncorrectable
  deriving DecidableEq, Repr

/-- Whose write was outstanding on a link that has lost it, with the address that its report names: a context, by its core and slot, its
launch with its rank there, and its generation; a drill job, a core's matrix unit, a triggered entry, or the host (R435, R437). -/
inductive Writer where
  | ctx (c : CoreId) (k : SlotId) (launch rank : Nat) (gen : BitVec 16) (va : Word)
  | job (c : CoreId) (id : BitVec 16) (va : Word)
  | harrow (c : CoreId) (va : Word)
  | sower (h : Fin 16384) (va : Word)
  | host (pa : Nat)
  deriving DecidableEq, Repr

/-- What a runtime service answers: the value, the tags that it has set in the partition's device memory, by address, and the
entries that it has written in the launch's descriptor table, by index, with their 32 bytes (R238, R369, R370). -/
structure Answer where
  value : Word
  tags : List (Nat × Nat) := []
  descs : List (Nat × List Byte) := []
  deriving DecidableEq, Repr

/-- A transfer that reaches a core, and whether its end-to-end check does not match its data (R430, R431). -/
structure Landing where
  core : CoreId
  bad : Bool := false
  deriving DecidableEq, Repr

/-- What a die's link has met (R428, R430, R435): how many flits it has retried, whether retry has given up on a control flit, the
lines that the lost flit named, and the granules whose data a lost data flit carried. -/
structure FlitLoss where
  lines : List Nat := []
  granules : List Nat := []
  retried : Nat := 0
  control : Bool := true
  deriving DecidableEq, Repr

/-- A failing lane of a die's link, in the direction out of the die or into it (R438). -/
structure LaneFault where
  die : DieId
  out : Bool := true
  deriving DecidableEq, Repr

/-- A read of a die's register, and the mode of the party that makes it (R421). -/
structure RegRead where
  die : DieId
  mode : Mode := .s
  deriving DecidableEq, Repr

/-- A PTP message on a rail port (R423): the master's time, or what the best-master choice compares, the rank of the data set that
the port's master announces, the better the lower, and none once its announcements have stopped. -/
inductive PtpMsg where
  | sync (port : Fin 8) (tai : Nat)
  | announce (port : Fin 8) (rank : Option Nat)
  deriving DecidableEq, Repr

/-- What fails of the Ongeoz links (R402): a port of this device, and with it the chunks of some communicators, each with its entry's
handle; the in-node link between two other devices, by local index; or, on a link that stays up, a chunk alone. -/
inductive OngeozLoss where
  | port (p : Fin 16) (lost : List (Nat × Nat))
  | between (a b : Fin 8)
  | chunk (cm : Nat) (h : Nat)
  deriving DecidableEq, Repr

/-- What comes back up of the Ongeoz links: a port of this device, or the link between two others of its node (R402). -/
inductive OngeozLink where
  | port (p : Fin 16)
  | between (a b : Fin 8)
  deriving DecidableEq, Repr

/-- A host port that has trained, and whether it did so below 32 GT/s (R393, R394). -/
structure PortRate where
  port : Fin 2
  slow : Bool := false
  deriving DecidableEq, Repr

/-- The steps of the KQJ-7680, one constructor per row of spec/opcode_table.json. -/
inductive Instr where
  /-- The all-zero word traps ZERO_WORD in every position and mode (R31). -/
  | trapz
  /-- 32-bit add of B and C into A, folding integer symbolic forms; add w0,w0,w0 cannot use this form (R81). -/
  | add (d : Dst) (x : Src) (y : Src)
  /-- Extended or literal form of add (R81). -/
  | addX (f : Form) (ty : Option Ty) (d : Dst) (x : Src) (y : Src)
  /-- 32-bit subtract C from B into A (R81). -/
  | sub (d : Dst) (x : Src) (y : Src)
  /-- Extended or literal form of sub (R81). -/
  | subX (f : Form) (ty : Option Ty) (d : Dst) (x : Src) (y : Src)
  /-- 32-bit negate of B into A (R81). -/
  | neg (d : Dst) (x : Src)
  /-- Extended or literal form of neg (R81). -/
  | negX (f : Form) (ty : Option Ty) (d : Dst) (x : Src)
  /-- 32-bit absolute value of B into A (R81). -/
  | abs (d : Dst) (x : Src)
  /-- Extended or literal form of abs (R81). -/
  | absX (f : Form) (ty : Option Ty) (d : Dst) (x : Src)
  /-- 32-bit signed minimum of B and C into A (R81). -/
  | min (d : Dst) (x : Src) (y : Src)
  /-- Extended or literal form of min (R81). -/
  | minX (f : Form) (ty : Option Ty) (d : Dst) (x : Src) (y : Src)
  /-- 32-bit unsigned minimum of B and C into A (R81). -/
  | minz (d : Dst) (x : Src) (y : Src)
  /-- Extended or literal form of minz (R81). -/
  | minzX (f : Form) (ty : Option Ty) (d : Dst) (x : Src) (y : Src)
  /-- 32-bit signed maximum of B and C into A (R81). -/
  | max (d : Dst) (x : Src) (y : Src)
  /-- Extended or literal form of max (R81). -/
  | maxX (f : Form) (ty : Option Ty) (d : Dst) (x : Src) (y : Src)
  /-- 32-bit unsigned maximum of B and C into A (R81). -/
  | maxz (d : Dst) (x : Src) (y : Src)
  /-- Extended or literal form of maxz (R81). -/
  | maxzX (f : Form) (ty : Option Ty) (d : Dst) (x : Src) (y : Src)
  /-- 32-bit lea, equal to add with no shift or displacement (R85). -/
  | lea (d : Dst) (x : Src) (y : Src)
  /-- Extended lea computing base plus shifted index plus sign-extended IMM24 (R85). -/
  | leaX (f : Form) (d : Dst) (x : Src) (y : Src) (sh : BitVec 3) (imm : BitVec 24)
  /-- 32-bit multiply giving the low N bits (R81). -/
  | mul (d : Dst) (x : Src) (y : Src)
  /-- Extended or literal form of mul (R81). -/
  | mulX (f : Form) (ty : Option Ty) (d : Dst) (x : Src) (y : Src)
  /-- 32-bit signed high-half multiply (R81). -/
  | mulh (d : Dst) (x : Src) (y : Src)
  /-- Extended or literal form of mulh (R81). -/
  | mulhX (f : Form) (ty : Option Ty) (d : Dst) (x : Src) (y : Src)
  /-- 32-bit unsigned high-half multiply (R81). -/
  | mulhz (d : Dst) (x : Src) (y : Src)
  /-- Extended or literal form of mulhz (R81). -/
  | mulhzX (f : Form) (ty : Option Ty) (d : Dst) (x : Src) (y : Src)
  /-- 32-bit signed divide, with fixed results and EV.10 for zero divisor or overflow (R82). -/
  | div (d : Dst) (x : Src) (y : Src)
  /-- Extended or literal form of div (R82). -/
  | divX (f : Form) (ty : Option Ty) (d : Dst) (x : Src) (y : Src)
  /-- 32-bit unsigned divide (R82). -/
  | divz (d : Dst) (x : Src) (y : Src)
  /-- Extended or literal form of divz (R82). -/
  | divzX (f : Form) (ty : Option Ty) (d : Dst) (x : Src) (y : Src)
  /-- 32-bit signed remainder (R82). -/
  | rem (d : Dst) (x : Src) (y : Src)
  /-- Extended or literal form of rem (R82). -/
  | remX (f : Form) (ty : Option Ty) (d : Dst) (x : Src) (y : Src)
  /-- 32-bit unsigned remainder (R82). -/
  | remz (d : Dst) (x : Src) (y : Src)
  /-- Extended or literal form of remz (R82). -/
  | remzX (f : Form) (ty : Option Ty) (d : Dst) (x : Src) (y : Src)
  /-- 32-bit bitwise and (R81). -/
  | and (d : Dst) (x : Src) (y : Src)
  /-- Extended or literal form of and (R81). -/
  | andX (f : Form) (ty : Option Ty) (d : Dst) (x : Src) (y : Src)
  /-- 32-bit bitwise or (R81). -/
  | or (d : Dst) (x : Src) (y : Src)
  /-- Extended or literal form of or (R81). -/
  | orX (f : Form) (ty : Option Ty) (d : Dst) (x : Src) (y : Src)
  /-- 32-bit bitwise exclusive or (R81). -/
  | xor (d : Dst) (x : Src) (y : Src)
  /-- Extended or literal form of xor (R81). -/
  | xorX (f : Form) (ty : Option Ty) (d : Dst) (x : Src) (y : Src)
  /-- 32-bit B and not C (R81). -/
  | andn (d : Dst) (x : Src) (y : Src)
  /-- Extended or literal form of andn (R81). -/
  | andnX (f : Form) (ty : Option Ty) (d : Dst) (x : Src) (y : Src)
  /-- 32-bit bitwise not of B (R81). -/
  | not (d : Dst) (x : Src)
  /-- Extended or literal form of not (R81). -/
  | notX (f : Form) (ty : Option Ty) (d : Dst) (x : Src)
  /-- 32-bit shift left by amount mod N (R83). -/
  | shl (d : Dst) (x : Src) (y : Src)
  /-- Extended or literal form of shl (R83). -/
  | shlX (f : Form) (ty : Option Ty) (d : Dst) (x : Src) (y : Src)
  /-- 32-bit logical shift right (R83). -/
  | shr (d : Dst) (x : Src) (y : Src)
  /-- Extended or literal form of shr (R83). -/
  | shrX (f : Form) (ty : Option Ty) (d : Dst) (x : Src) (y : Src)
  /-- 32-bit arithmetic shift right (R83). -/
  | sra (d : Dst) (x : Src) (y : Src)
  /-- Extended or literal form of sra (R83). -/
  | sraX (f : Form) (ty : Option Ty) (d : Dst) (x : Src) (y : Src)
  /-- 32-bit rotate left (R83). -/
  | rotl (d : Dst) (x : Src) (y : Src)
  /-- Extended or literal form of rotl (R83). -/
  | rotlX (f : Form) (ty : Option Ty) (d : Dst) (x : Src) (y : Src)
  /-- 32-bit count of leading zeros (R83). -/
  | clz (d : Dst) (x : Src)
  /-- Extended or literal form of clz (R83). -/
  | clzX (f : Form) (ty : Option Ty) (d : Dst) (x : Src)
  /-- 32-bit count of trailing zeros (R83). -/
  | ctz (d : Dst) (x : Src)
  /-- Extended or literal form of ctz (R83). -/
  | ctzX (f : Form) (ty : Option Ty) (d : Dst) (x : Src)
  /-- 32-bit population count (R83). -/
  | popc (d : Dst) (x : Src)
  /-- Extended or literal form of popc (R83). -/
  | popcX (f : Form) (ty : Option Ty) (d : Dst) (x : Src)
  /-- 32-bit bit-field extract (R84). -/
  | bext (d : Dst) (x : Src) (y : Src)
  /-- Extended or literal form of bext (R84). -/
  | bextX (f : Form) (d : Dst) (x : Src) (y : Src)
  /-- 32-bit bit-field insert into A (R84). -/
  | bins (d : Dst) (x : Src) (y : Src)
  /-- Extended or literal form of bins with D as the field source (R84). -/
  | binsX (f : Form) (d : Dst) (x : Src) (y : Src) (z : Src)
  /-- 32-bit sign extension from n bits (R84). -/
  | sext (d : Dst) (x : Src) (y : Src)
  /-- Extended or literal form of sext (R84). -/
  | sextX (f : Form) (d : Dst) (x : Src) (y : Src)
  /-- 32-bit zero extension from n bits (R84). -/
  | zext (d : Dst) (x : Src) (y : Src)
  /-- Extended or literal form of zext (R84). -/
  | zextX (f : Form) (d : Dst) (x : Src) (y : Src)
  /-- 32-bit compare under the condition in FN, writing 1 or 0 (R86). -/
  | cmp (cond : Cond) (d : Dst) (x : Src) (y : Src)
  /-- Extended or literal form of cmp (R86). -/
  | cmpX (f : Form) (cond : Cond) (ty : Option Ty) (d : Dst) (x : Src) (y : Src)
  /-- 32-bit select of t or f by c, with A as the false operand and destination (R87). -/
  | sel (d : Dst) (x : Src) (y : Src)
  /-- Extended or literal form of sel with D as the false operand (R87). -/
  | selX (f : Form) (d : Dst) (x : Src) (y : Src) (z : Src)
  /-- 32-bit copy of B, copying symbolic forms unchanged at 64-bit types (R88). -/
  | mov (d : Dst) (x : Src)
  /-- Extended or literal form of mov (R88). -/
  | movX (f : Form) (ty : Option Ty) (d : Dst) (x : Src)
  /-- Writes the 64-bit literal into A (R88). -/
  | movl (long : Bool) (d : Dst) (v : Word)
  /-- 32-bit FP add, logging symbolic sources (R89). -/
  | fadd (d : Dst) (x : Src) (y : Src)
  /-- Extended or literal form of fadd, including .fa (R89). -/
  | faddX (f : Form) (ty : Option Ty) (rnd : Rnd) (fa : Bool) (d : Dst) (x : Src) (y : Src)
  /-- 32-bit FP subtract (R89). -/
  | fsub (d : Dst) (x : Src) (y : Src)
  /-- Extended or literal form of fsub (R89). -/
  | fsubX (f : Form) (ty : Option Ty) (rnd : Rnd) (fa : Bool) (d : Dst) (x : Src) (y : Src)
  /-- 32-bit FP multiply (R89). -/
  | fmul (d : Dst) (x : Src) (y : Src)
  /-- Extended or literal form of fmul (R89). -/
  | fmulX (f : Form) (ty : Option Ty) (rnd : Rnd) (fa : Bool) (d : Dst) (x : Src) (y : Src)
  /-- 32-bit fused multiply-add with A as addend and destination (R89). -/
  | fma (d : Dst) (x : Src) (y : Src)
  /-- Extended or literal form of fma with D as addend (R89). -/
  | fmaX (f : Form) (ty : Option Ty) (rnd : Rnd) (fa : Bool) (d : Dst) (x : Src) (y : Src) (z : Src)
  /-- 32-bit FP divide (R89). -/
  | fdiv (d : Dst) (x : Src) (y : Src)
  /-- Extended or literal form of fdiv (R89). -/
  | fdivX (f : Form) (ty : Option Ty) (rnd : Rnd) (d : Dst) (x : Src) (y : Src)
  /-- 32-bit FP square root (R89). -/
  | fsqrt (d : Dst) (x : Src)
  /-- Extended or literal form of fsqrt (R89). -/
  | fsqrtX (f : Form) (ty : Option Ty) (rnd : Rnd) (d : Dst) (x : Src)
  /-- 32-bit FP minimum (R89). -/
  | fmin (d : Dst) (x : Src) (y : Src)
  /-- Extended or literal form of fmin (R89). -/
  | fminX (f : Form) (ty : Option Ty) (d : Dst) (x : Src) (y : Src)
  /-- 32-bit FP maximum (R89). -/
  | fmax (d : Dst) (x : Src) (y : Src)
  /-- Extended or literal form of fmax (R89). -/
  | fmaxX (f : Form) (ty : Option Ty) (d : Dst) (x : Src) (y : Src)
  /-- 32-bit FP sign clear (R89). -/
  | fabs (d : Dst) (x : Src)
  /-- Extended or literal form of fabs (R89). -/
  | fabsX (f : Form) (ty : Option Ty) (d : Dst) (x : Src)
  /-- 32-bit FP sign inversion (R89). -/
  | fneg (d : Dst) (x : Src)
  /-- Extended or literal form of fneg (R89). -/
  | fnegX (f : Form) (ty : Option Ty) (d : Dst) (x : Src)
  /-- 32-bit FP compare under the condition in FN (R90). -/
  | fcmp (cond : FCond) (d : Dst) (x : Src) (y : Src)
  /-- Extended or literal form of fcmp (R90). -/
  | fcmpX (f : Form) (cond : FCond) (ty : Option Ty) (d : Dst) (x : Src) (y : Src)
  /-- Extended-only conversion between the source type in SUB and the destination type in TYPE (R91). -/
  | fcvt (lit : Option Word) (dst : Ty) (src : Ty) (rnd : Rnd) (d : Dst) (x : Src)
  /-- 32-bit FP classification into a one-hot value (R92). -/
  | fcls (d : Dst) (x : Src)
  /-- Extended or literal form of fcls (R92). -/
  | fclsX (f : Form) (ty : Option Ty) (d : Dst) (x : Src)
  /-- Writes the current state code of a symbol (R94). -/
  | symt (d : Dst) (s : SymArg)
  /-- Extended form of symt (R94). -/
  | symtX (d : Dst) (s : SymArg)
  /-- Waits while a symbol is PENDING, then writes its state code (R94). -/
  | symw (d : Dst) (s : SymArg)
  /-- Extended form of symw (R94). -/
  | symwX (d : Dst) (s : SymArg)
  /-- Writes a symbol's prior state and cancels it if PENDING (R94). -/
  | symx (d : Dst) (s : SymArg)
  /-- Extended form of symx (R94). -/
  | symxX (d : Dst) (s : SymArg)
  /-- 32-bit direct branch by an 18-bit word offset (R99). -/
  | br (off : BitVec 18)
  /-- Extended branch by the IMM24 word offset (R99). -/
  | brX (imm : BitVec 24)
  /-- Extended-only compare and branch by IMM24 (R99). -/
  | bcmp (lit : Option Word) (cond : Cond) (ty : Option Ty) (x : Src) (y : Src) (imm : BitVec 24)
  /-- 32-bit call pushing a frame, or trapping SPILL with eight frames resident (R102). -/
  | call (off : BitVec 18)
  /-- Extended call by IMM24 (R102). -/
  | callX (imm : BitVec 24)
  /-- Returns to the frame below, or traps FILL or RET_EMPTY (R103). -/
  | ret
  /-- Bounded jump through a table entry to a landing pad (R111). -/
  | jtb (lit : Option Word) (tbl : Src) (idx : Src) (len : Src) (imm : BitVec 24) (label : BitVec 12)
  /-- Bounded call through a table entry to a landing pad (R111). -/
  | jtc (lit : Option Word) (tbl : Src) (idx : Src) (len : Src) (imm : BitVec 24) (label : BitVec 12)
  /-- Landing pad with a 12-bit label, executing as nop (R112). -/
  | land (label : BitVec 12)
  /-- 32-bit decrement of the counter and branch by a 12-bit offset if nonzero (R100). -/
  | loop (x : CtrReg) (off : BitVec 12)
  /-- Extended loop with an IMM24 offset (R100). -/
  | loopX (x : CtrReg) (imm : BitVec 24)
  /-- Handler spill of the oldest resident frame to the spill area (R107). -/
  | spillw
  /-- Handler refill of a frame from the spill area (R108). -/
  | fillw
  /-- Returns the handler's context to mode U at TRAP.EPC (R110). -/
  | hret
  /-- Stalls the context while a peer lags by more than dist (R114). -/
  | realign (lit : Option Word) (dist : Src)
  /-- 32-bit no-operation (R115). -/
  | nop
  /-- 12-byte no-operation (R115). -/
  | nopX
  /-- Ends the context after its vector and replay queues drain (R117). -/
  | fin
  /-- Starts a helper in the lowest free permitted slot (R116). -/
  | start (d : Dst) (imm : BitVec 24)
  /-- 32-bit atomic decrement of a join count that pushes its continuation record at zero (R118). -/
  | join (d : Dst) (base : Src)
  /-- Extended join with IMM24 displacement (R118). -/
  | joinX (f : Form) (d : Dst) (base : Src) (imm : BitVec 24)
  /-- Makes the context ineligible until other ready contexts have issued (R119). -/
  | yield
  /-- 32-bit repeated acquire load until the value differs from the comparand (R120). -/
  | wait (d : Dst) (base : Src) (v : Src)
  /-- Extended wait with scope, window, type and displacement (R120). -/
  | waitX (f : Form) (sc : Scope) (win : Win) (ty : Option Ty) (d : Dst) (base : Src) (v : Src) (imm : BitVec 24)
  /-- 32-bit plain load of the FN access type (R128). -/
  | ld (t : LdTy) (d : Dst) (base : Src) (idx : Src)
  /-- Extended or literal plain load with window and displacement (R128). -/
  | ldX (f : Form) (t : LdTy) (win : Win) (imm : BitVec 24) (ef : Bool) (d : Dst) (base : Src) (idx : Src)
  /-- 32-bit plain store of access type 0-3 (R128). -/
  | st (t : StTy) (v : Src) (base : Src) (idx : Src)
  /-- Extended or literal plain store (R128). -/
  | stX (f : Form) (t : StTy) (win : Win) (imm : BitVec 24) (ef : Bool) (v : Src) (base : Src) (idx : Src)
  /-- 32-bit deferred load allocating a symbol (R131). -/
  | ldd (t : LdTy) (d : Dst) (base : Src) (idx : Src)
  /-- Extended or literal deferred load (R131). -/
  | lddX (f : Form) (t : LdTy) (win : Win) (imm : BitVec 24) (ef : Bool) (d : Dst) (base : Src) (idx : Src)
  /-- Acquire load at SCOPE (R132). -/
  | ldacq (lit : Option Word) (t : LdTy) (sc : Scope) (win : Win) (imm : BitVec 24) (ef : Bool) (d : Dst) (base : Src) (idx : Src)
  /-- Release store at SCOPE (R132). -/
  | strel (lit : Option Word) (t : StTy) (sc : Scope) (win : Win) (imm : BitVec 24) (v : Src) (base : Src) (idx : Src)
  /-- 32-bit linked load setting the context's link (R133). -/
  | lld (t : LdTy) (d : Dst) (base : Src) (idx : Src)
  /-- Extended or literal linked load (R133). -/
  | lldX (f : Form) (t : LdTy) (win : Win) (imm : BitVec 24) (d : Dst) (base : Src) (idx : Src)
  /-- Conditional linked store writing success to D (R133). -/
  | lst (lit : Option Word) (t : StTy) (win : Win) (imm : BitVec 24) (v : Src) (base : Src) (idx : Src) (res : Dst)
  /-- 32-bit bounds-checked load through a buffer descriptor (R134). -/
  | ldb (t : LdTy) (d : Dst) (base : Src) (idx : Src)
  /-- Extended or literal bounds-checked load (R134). -/
  | ldbX (f : Form) (t : LdTy) (imm : BitVec 24) (ef : Bool) (d : Dst) (base : Src) (idx : Src)
  /-- 32-bit bounds-checked store through a buffer descriptor (R134). -/
  | stb (t : StTy) (v : Src) (base : Src) (idx : Src)
  /-- Extended or literal bounds-checked store (R134). -/
  | stbX (f : Form) (t : StTy) (imm : BitVec 24) (ef : Bool) (v : Src) (base : Src) (idx : Src)
  /-- Stores a payload then updates a flag as a release (R136). -/
  | stsig (lit : Option Word) (sc : Scope) (win : Win) (ty : Option Ty) (addf : Bool) (imm : BitVec 24) (v : Src) (base : Src) (flag : Src) (sig : Src)
  /-- 32-bit set of one granule's memory tag (R135). -/
  | stg (tag : Src) (base : Src)
  /-- Extended tag set of SUB+1 granules (R135). -/
  | stgX (f : Form) (n : BitVec 6) (imm : BitVec 24) (tag : Src) (base : Src)
  /-- 32-bit read of a granule's memory tag (R135). -/
  | ldg (d : Dst) (base : Src)
  /-- Extended or literal form of ldg (R135). -/
  | ldgX (f : Form) (imm : BitVec 24) (d : Dst) (base : Src)
  /-- Sleeps until n slots are filled and returns the oldest filled slot offset (R145). -/
  | cbwaitF (lit : Option Word) (d : Dst) (h : Fin 8) (n : Src)
  /-- Sleeps until n slots are free and returns the first free slot offset (R145). -/
  | cbwaitE (lit : Option Word) (d : Dst) (h : Fin 8) (n : Src)
  /-- Advances the consumer head by n as a release (R145). -/
  | cbadvF (lit : Option Word) (h : Fin 8) (n : Src)
  /-- Advances the producer tail by n as a release (R145). -/
  | cbadvE (lit : Option Word) (h : Fin 8) (n : Src)
  /-- Swaps the visible and shadow copies of a buffer as a release (R147). -/
  | publ (lit : Option Word) (sc : Scope) (pair : Bool) (buf : Src)
  /-- 32-bit declaration of a tile owned by the issuing core (R148). -/
  | tdecl (base : Src) (shape : Src)
  /-- Extended or literal form of tdecl (R148). -/
  | tdeclX (f : Form) (imm : BitVec 24) (base : Src) (shape : Src)
  /-- 32-bit dissolution of the tile at an address (R150). -/
  | tfree (base : Src)
  /-- Extended or literal form of tfree (R150). -/
  | tfreeX (f : Form) (imm : BitVec 24) (base : Src)
  /-- 32-bit push of a tile into another die's L2 (R150). -/
  | tfwd (base : Src) (rank : Src)
  /-- Extended or literal form of tfwd (R150). -/
  | tfwdX (f : Form) (imm : BitVec 24) (base : Src) (rank : Src)
  /-- 32-bit prefetch hint (R151). -/
  | pref (base : Src) (idx : Src)
  /-- Extended or literal prefetch hint (R151). -/
  | prefX (f : Form) (l2 : Bool) (imm : BitVec 24) (base : Src) (idx : Src)
  /-- 32-bit evict hint (R151). -/
  | evict (base : Src) (idx : Src)
  /-- Extended or literal evict hint (R151). -/
  | evictX (f : Form) (imm : BitVec 24) (base : Src) (idx : Src)
  /-- Claims a retention register and L2 ways for a range (R152). -/
  | pin (lit : Option Word) (ways : BitVec 4) (d : Dst) (base : Src) (len : Src)
  /-- Releases a retention register the launch holds (R152). -/
  | unpin (lit : Option Word) (idx : Src)
  /-- 32-bit initialisation of a byte-count barrier (R155). -/
  | barinit (base : Src) (n : Src)
  /-- Extended or literal form of barinit (R155). -/
  | barinitX (f : Form) (sc : Scope) (win : Win) (imm : BitVec 24) (base : Src) (n : Src)
  /-- 32-bit addition of expected bytes to a barrier (R155). -/
  | barexp (base : Src) (n : Src)
  /-- Extended or literal form of barexp (R155). -/
  | barexpX (f : Form) (win : Win) (imm : BitVec 24) (base : Src) (n : Src)
  /-- 32-bit barrier arrival adding bytes and decrementing LEFT (R155). -/
  | bararr (d : Dst) (base : Src) (n : Src)
  /-- Extended or literal form of bararr (R155). -/
  | bararrX (f : Form) (sc : Scope) (win : Win) (imm : BitVec 24) (d : Dst) (base : Src) (n : Src)
  /-- 32-bit sleep until the barrier phase flips (R155). -/
  | barwait (d : Dst) (base : Src) (n : Src)
  /-- Extended or literal barwait, optionally checked (R155). -/
  | barwaitX (f : Form) (sc : Scope) (win : Win) (chk : Bool) (imm : BitVec 24) (d : Dst) (base : Src) (n : Src)
  /-- 32-bit atomic read-modify-write of the op in FN, returning the old value (R137). -/
  | atom (op : AtomOp) (d : Dst) (base : Src) (v : Src)
  /-- Extended or literal atomic with scope, order, window, type and D (R137). -/
  | atomX (f : Form) (op : AtomOp) (sc : Scope) (ord : Ord) (win : Win) (ty : Option Ty) (imm : BitVec 24) (d : Dst) (base : Src) (v : Src) (e : Src)
  /-- 32-bit atomic reduction without return (R137). -/
  | red (op : RedOp) (base : Src) (v : Src)
  /-- Extended or literal reduction (R137). -/
  | redX (f : Form) (op : RedOp) (sc : Scope) (rel : Bool) (win : Win) (ty : Option Ty) (imm : BitVec 24) (base : Src) (v : Src)
  /-- Orders the context's accesses by acquire, release or both at SCOPE (R143). -/
  | fence (sc : Scope) (ord : Ord)
  /-- Discards fetched instruction words and refetches (R144). -/
  | isync
  /-- 32-bit vector add, enqueued to the dispatch queue (R166). -/
  | vadd (d : Fin 16) (x : VSrc) (y : VSrc)
  /-- Extended or literal vector add (R166). -/
  | vaddX (f : Form) (ty : Option Ty) (rnd : Rnd) (mk : MaskSel) (d : Fin 16) (x : VSrc) (y : VSrc)
  /-- 32-bit vector subtract (R166). -/
  | vsub (d : Fin 16) (x : VSrc) (y : VSrc)
  /-- Extended or literal vector subtract (R166). -/
  | vsubX (f : Form) (ty : Option Ty) (rnd : Rnd) (mk : MaskSel) (d : Fin 16) (x : VSrc) (y : VSrc)
  /-- 32-bit vector multiply (R166). -/
  | vmul (d : Fin 16) (x : VSrc) (y : VSrc)
  /-- Extended or literal vector multiply (R166). -/
  | vmulX (f : Form) (ty : Option Ty) (rnd : Rnd) (mk : MaskSel) (d : Fin 16) (x : VSrc) (y : VSrc)
  /-- 32-bit vector fused multiply-add with A as addend (R166). -/
  | vfma (d : Fin 16) (x : VSrc) (y : VSrc)
  /-- Extended or literal vfma with D as addend (R166). -/
  | vfmaX (f : Form) (ty : Option Ty) (rnd : Rnd) (mk : MaskSel) (d : Fin 16) (x : VSrc) (y : VSrc) (z : VSrc)
  /-- 32-bit vector minimum (R166). -/
  | vmin (d : Fin 16) (x : VSrc) (y : VSrc)
  /-- Extended or literal vector minimum (R166). -/
  | vminX (f : Form) (ty : Option Ty) (rnd : Rnd) (mk : MaskSel) (d : Fin 16) (x : VSrc) (y : VSrc)
  /-- 32-bit vector maximum (R166). -/
  | vmax (d : Fin 16) (x : VSrc) (y : VSrc)
  /-- Extended or literal vector maximum (R166). -/
  | vmaxX (f : Form) (ty : Option Ty) (rnd : Rnd) (mk : MaskSel) (d : Fin 16) (x : VSrc) (y : VSrc)
  /-- 32-bit vector absolute value (R166). -/
  | vabs (d : Fin 16) (x : VSrc)
  /-- Extended or literal vabs (R166). -/
  | vabsX (f : Form) (ty : Option Ty) (mk : MaskSel) (d : Fin 16) (x : VSrc)
  /-- 32-bit vector negation (R166). -/
  | vneg (d : Fin 16) (x : VSrc)
  /-- Extended or literal vneg (R166). -/
  | vnegX (f : Form) (ty : Option Ty) (mk : MaskSel) (d : Fin 16) (x : VSrc)
  /-- 32-bit vector reciprocal (R167). -/
  | vrcp (d : Fin 16) (x : VSrc)
  /-- Extended or literal vrcp (R167). -/
  | vrcpX (f : Form) (ty : Option Ty) (rnd : Rnd) (mk : MaskSel) (d : Fin 16) (x : VSrc)
  /-- 32-bit vector reciprocal square root (R167). -/
  | vrsq (d : Fin 16) (x : VSrc)
  /-- Extended or literal vrsq (R167). -/
  | vrsqX (f : Form) (ty : Option Ty) (rnd : Rnd) (mk : MaskSel) (d : Fin 16) (x : VSrc)
  /-- 32-bit vector exponential (R167). -/
  | vexp (d : Fin 16) (x : VSrc)
  /-- Extended or literal vexp (R167). -/
  | vexpX (f : Form) (ty : Option Ty) (rnd : Rnd) (mk : MaskSel) (d : Fin 16) (x : VSrc)
  /-- 32-bit vector natural logarithm (R167). -/
  | vlog (d : Fin 16) (x : VSrc)
  /-- Extended or literal vlog (R167). -/
  | vlogX (f : Form) (ty : Option Ty) (rnd : Rnd) (mk : MaskSel) (d : Fin 16) (x : VSrc)
  /-- 32-bit vector hyperbolic tangent (R167). -/
  | vtanh (d : Fin 16) (x : VSrc)
  /-- Extended or literal vtanh (R167). -/
  | vtanhX (f : Form) (ty : Option Ty) (rnd : Rnd) (mk : MaskSel) (d : Fin 16) (x : VSrc)
  /-- Extended-only vector conversion of one part between types (R168). -/
  | vcvt (lit : Option Word) (dst : Ty) (src : Ty) (part : Fin 8) (rnd : Rnd) (mk : MaskSel) (d : Fin 16) (x : VSrc)
  /-- 32-bit quantisation of FP32 elements times a multiplier to 8-bit part 0 (R169). -/
  | vquant (d : Fin 16) (x : VSrc) (y : VSrc)
  /-- Extended or literal vquant with part and rounding (R169). -/
  | vquantX (f : Form) (ty : Option Ty) (part : Fin 4) (rnd : Rnd) (mk : MaskSel) (d : Fin 16) (x : VSrc) (y : VSrc)
  /-- 32-bit dequantisation of 8-bit elements to FP32 (R170). -/
  | vdeq (d : Fin 16) (x : VSrc) (y : VSrc)
  /-- Extended or literal vdeq (R170). -/
  | vdeqX (f : Form) (ty : Option Ty) (part : Fin 4) (rnd : Rnd) (mk : MaskSel) (d : Fin 16) (x : VSrc) (y : VSrc)
  /-- 32-bit vector compare into a mask under the condition in FN (R171). -/
  | vcmp (cond : VCond) (d : Fin 8) (x : VSrc) (y : VSrc)
  /-- Extended or literal vcmp (R171). -/
  | vcmpX (f : Form) (cond : VCond) (ty : Option Ty) (mk : MaskSel) (d : Fin 8) (x : VSrc) (y : VSrc)
  /-- 32-bit vector select by mask, with A as false source (R172). -/
  | vsel (d : Fin 16) (m : Fin 8) (x : VSrc)
  /-- Extended or literal vsel with D as false source (R172). -/
  | vselX (f : Form) (ty : Option Ty) (mk : MaskSel) (d : Fin 16) (m : Fin 8) (x : VSrc) (y : VSrc)
  /-- 32-bit vector and (R173). -/
  | vand (d : Fin 16) (x : VSrc) (y : VSrc)
  /-- Extended or literal vand (R173). -/
  | vandX (f : Form) (ty : Option Ty) (mk : MaskSel) (d : Fin 16) (x : VSrc) (y : VSrc)
  /-- 32-bit vector or (R173). -/
  | vor (d : Fin 16) (x : VSrc) (y : VSrc)
  /-- Extended or literal vor (R173). -/
  | vorX (f : Form) (ty : Option Ty) (mk : MaskSel) (d : Fin 16) (x : VSrc) (y : VSrc)
  /-- 32-bit vector exclusive or (R173). -/
  | vxor (d : Fin 16) (x : VSrc) (y : VSrc)
  /-- Extended or literal vxor (R173). -/
  | vxorX (f : Form) (ty : Option Ty) (mk : MaskSel) (d : Fin 16) (x : VSrc) (y : VSrc)
  /-- 32-bit vector not (R173). -/
  | vnot (d : Fin 16) (x : VSrc)
  /-- Extended or literal vnot (R173). -/
  | vnotX (f : Form) (ty : Option Ty) (mk : MaskSel) (d : Fin 16) (x : VSrc)
  /-- 32-bit vector shift left (R173). -/
  | vshl (d : Fin 16) (x : VSrc) (y : VSrc)
  /-- Extended or literal vshl (R173). -/
  | vshlX (f : Form) (ty : Option Ty) (mk : MaskSel) (d : Fin 16) (x : VSrc) (y : VSrc)
  /-- 32-bit vector logical shift right (R173). -/
  | vshr (d : Fin 16) (x : VSrc) (y : VSrc)
  /-- Extended or literal vshr (R173). -/
  | vshrX (f : Form) (ty : Option Ty) (mk : MaskSel) (d : Fin 16) (x : VSrc) (y : VSrc)
  /-- 32-bit vector arithmetic shift right (R173). -/
  | vsra (d : Fin 16) (x : VSrc) (y : VSrc)
  /-- Extended or literal vsra (R173). -/
  | vsraX (f : Form) (ty : Option Ty) (mk : MaskSel) (d : Fin 16) (x : VSrc) (y : VSrc)
  /-- 32-bit vector permute by index vector (R174). -/
  | vperm (d : Fin 16) (x : Fin 16) (y : Fin 16)
  /-- Extended vperm (R174). -/
  | vpermX (ty : Option Ty) (mk : MaskSel) (d : Fin 16) (x : Fin 16) (y : Fin 16)
  /-- 32-bit broadcast of element k (R174). -/
  | vbcast (d : Fin 16) (x : Fin 16) (k : VScal)
  /-- Extended or literal vbcast (R174). -/
  | vbcastX (f : Form) (ty : Option Ty) (mk : MaskSel) (d : Fin 16) (x : Fin 16) (k : VScal)
  /-- 32-bit index sequence start plus i times step (R174). -/
  | vidx (d : Fin 16) (x : VScal) (y : VScal)
  /-- Extended or literal vidx (R174). -/
  | vidxX (f : Form) (ty : Option Ty) (mk : MaskSel) (d : Fin 16) (x : VScal) (y : VScal)
  /-- 32-bit vector move or broadcast (R174). -/
  | vmov (d : Fin 16) (x : VSrc)
  /-- Extended or literal vmov (R174). -/
  | vmovX (f : Form) (ty : Option Ty) (mk : MaskSel) (d : Fin 16) (x : VSrc)
  /-- 32-bit insertion of a scalar at element k (R174). -/
  | vins (d : Fin 16) (x : VScal) (k : VScal)
  /-- Extended or literal vins (R174). -/
  | vinsX (f : Form) (ty : Option Ty) (d : Fin 16) (x : VScal) (k : VScal)
  /-- 32-bit extraction of element k as a symbolic scalar result (R174). -/
  | vext (d : Dst) (x : Fin 16) (k : VScal)
  /-- Extended or literal vext (R174). -/
  | vextX (f : Form) (ty : Option Ty) (d : Dst) (x : Fin 16) (k : VScal)
  /-- 32-bit pairwise-tree reduction of the op in FN to a symbolic scalar (R175). -/
  | vred (op : VredOp) (d : Dst) (x : Fin 16)
  /-- Extended vred with type, rounding and mask (R175). -/
  | vredX (ty : Option Ty) (rnd : Rnd) (mk : MaskSel) (op : VredOp) (d : Dst) (x : Fin 16)
  /-- 32-bit inclusive prefix scan of the op in FN (R176). -/
  | vscan (op : VscanOp) (d : Fin 16) (x : Fin 16)
  /-- Extended vscan (R176). -/
  | vscanX (ty : Option Ty) (rnd : Rnd) (mk : MaskSel) (op : VscanOp) (d : Fin 16) (x : Fin 16)
  /-- 32-bit contiguous vector load, checked before the context proceeds (R177). -/
  | vld (d : Fin 16) (base : VScal) (idx : VScal)
  /-- Extended or literal vld (R177). -/
  | vldX (f : Form) (win : Win) (ty : Option Ty) (imm : BitVec 24) (ef : Bool) (mk : MaskSel) (d : Fin 16) (base : VScal) (idx : VScal)
  /-- 32-bit contiguous vector store (R177). -/
  | vst (d : Fin 16) (base : VScal) (idx : VScal)
  /-- Extended or literal vst (R177). -/
  | vstX (f : Form) (win : Win) (ty : Option Ty) (imm : BitVec 24) (ef : Bool) (mk : MaskSel) (d : Fin 16) (base : VScal) (idx : VScal)
  /-- 32-bit vector gather by index vector (R178). -/
  | vgth (d : Fin 16) (base : VScal) (x : Fin 16)
  /-- Extended or literal vgth (R178). -/
  | vgthX (f : Form) (win : Win) (ty : Option Ty) (imm : BitVec 24) (sh : BitVec 2) (ef : Bool) (mk : MaskSel) (d : Fin 16) (base : VScal) (x : Fin 16)
  /-- 32-bit vector scatter by index vector (R178). -/
  | vsct (d : Fin 16) (base : VScal) (x : Fin 16)
  /-- Extended or literal vsct (R178). -/
  | vsctX (f : Form) (win : Win) (ty : Option Ty) (imm : BitVec 24) (sh : BitVec 2) (ef : Bool) (mk : MaskSel) (d : Fin 16) (base : VScal) (x : Fin 16)
  /-- Bitwise and of two masks (R180). -/
  | mand (d : Fin 8) (x : Fin 8) (y : Fin 8)
  /-- Bitwise or of two masks (R180). -/
  | mor (d : Fin 8) (x : Fin 8) (y : Fin 8)
  /-- Bitwise exclusive or of two masks (R180). -/
  | mxor (d : Fin 8) (x : Fin 8) (y : Fin 8)
  /-- Inversion of a mask (R180). -/
  | mnot (d : Fin 8) (x : Fin 8)
  /-- 32-bit count of set mask bits as a symbolic scalar (R180). -/
  | mpop (d : Dst) (x : Fin 8)
  /-- Extended mpop counting elements of a TYPE width (R180). -/
  | mpopX (ty : Option Ty) (d : Dst) (x : Fin 8)
  /-- 32-bit submission of a 64-byte harrow command record, returning a symbol (R184). -/
  | mcmd (d : Dst) (base : Src) (idx : Src)
  /-- Extended or literal mcmd with window and displacement (R184). -/
  | mcmdX (f : Form) (win : Win) (imm : BitVec 24) (d : Dst) (base : Src) (idx : Src)
  /-- Reads harrow state by selector, sel 3 clearing a halt when the queue is empty; a LEN 0b01 form takes a literal (R187). -/
  | mqry (lit : Option Word) (d : Dst) (q : Src)
  /-- 32-bit submission of a drill layout record, returning a symbol (R215). -/
  | djob (d : Dst) (base : Src)
  /-- Extended or literal djob (R215). -/
  | djobX (f : Form) (win : Win) (imm : BitVec 24) (d : Dst) (base : Src)
  /-- 32-bit binding of a layout record to an absent LM range (R217). -/
  | rbind (d : Dst) (base : Src) (range : Src)
  /-- Extended or literal rbind (R217). -/
  | rbindX (f : Form) (win : Win) (imm : BitVec 24) (d : Dst) (base : Src) (range : Src)
  /-- Releases a region-table entry (R218). -/
  | rfree (lit : Option Word) (idx : Src)
  /-- 32-bit send of a 64-byte payload on an outbound channel (R220). -/
  | msend (base : Src) (ch : Fin 16)
  /-- Extended msend with scope, window and .chk (R220). -/
  | msendX (f : Form) (sc : Scope) (win : Win) (imm : BitVec 24) (chk : Bool) (base : Src) (ch : Fin 16)
  /-- 32-bit blocking receive of the oldest message of an inbound channel (R223). -/
  | mrecv (d : Dst) (base : Src) (ch : Fin 16)
  /-- Extended mrecv, including the deferred .d form (R223). -/
  | mrecvX (f : Form) (sc : Scope) (win : Win) (imm : BitVec 24) (dv : Bool) (d : Dst) (base : Src) (ch : Fin 16)
  /-- Counts unclaimed arrived messages of a channel (R224). -/
  | mprobe (d : Dst) (ch : Fin 16)
  /-- Sends a 64-bit word to a torus neighbour's input latch (R227). -/
  | xmit (v : Src) (dir : Dir)
  /-- Reads the input latch of a direction (R227). -/
  | imux (d : Dst) (dir : Dir)
  /-- 32-bit join of a hardware barrier of a sub-grid, XP 0 (R225). -/
  | hbar (grp : Src)
  /-- Extended hbar whose XP bit opens a transfer phase (R226). -/
  | hbarX (f : Form) (xp : Bool) (grp : Src)
  /-- 32-bit post of a triggered-entry record to the sower (R228). -/
  | trgPost (d : Dst) (base : Src)
  /-- Extended or literal trg.post (R228). -/
  | trgPostX (f : Form) (win : Win) (imm : BitVec 24) (d : Dst) (base : Src)
  /-- 32-bit release and raise of a trigger counter (R229). -/
  | trgInc (ctr : Src) (n : Src)
  /-- Extended or literal trg.inc with scope (R229). -/
  | trgIncX (f : Form) (sc : Scope) (ctr : Src) (n : Src)
  /-- 32-bit acquire read of a trigger counter (R229). -/
  | trgRd (d : Dst) (ctr : Src)
  /-- Extended or literal trg.rd with scope (R229). -/
  | trgRdX (f : Form) (sc : Scope) (d : Dst) (ctr : Src)
  /-- Cancels an unfired triggered entry (R230). -/
  | trgCancel (lit : Option Word) (d : Dst) (h : Src)
  /-- Reads STIME (R231). -/
  | rdtime (d : Dst)
  /-- Reads the package and system time error bounds (R231). -/
  | rderr (d : Dst)
  /-- Reads an event counter (R232). -/
  | evrd (d : Dst) (k : Fin 16)
  /-- Clears one or all event counters (R232). -/
  | evclr (k : Fin 17)
  /-- 32-bit contribution of the event counters to a launch-wide gather (R233). -/
  | evgath (base : Src)
  /-- Extended or literal evgath (R233). -/
  | evgathX (f : Form) (imm : BitVec 24) (base : Src)
  /-- Reads a control register (R234). -/
  | crd (d : Dst) (r : CReg)
  /-- Writes a control register (R234). -/
  | cwr (lit : Option Word) (r : CReg) (v : Src)
  /-- Requests a runtime service and blocks for the reply (R238). -/
  | trap (lit : Option Word) (d : Dst) (svc : BitVec 12) (arg : Src)
  /-- Breakpoint stopping the context when debugging is enabled, else nop (R239). -/
  | brk (code : BitVec 12)
  /-- Returns and clears the event latch, sleeping while it is empty (R240). -/
  | wfe (d : Dst)
  /-- Stops issue on the core until a launch is bound or it is signalled (R241). -/
  | idle
  /-- The vector unit serves the next queue round-robin and performs one queued instruction (R158). -/
  | vectorIssue (c : CoreId)
  /-- The cluster fetch port delivers one block to every same-launch request for it (R259). -/
  | fetchPortServe (c : CoreId) (block : Word)
  /-- A deferred read is performed and its value or fault goes to the symbol (R131). -/
  | deferredLoadComplete (c : CoreId) (k : SlotId)
  /-- A replay log finishes replaying its FP operations after resolution (R76). -/
  | logReplay (c : CoreId) (k : SlotId)
  /-- A free permitted helper slot takes the newest queued continuation record (R249). -/
  | recordPop (c : CoreId)
  /-- A core with empty queue and free slot sweeps victims and takes half their takeable records, repeating after 512 cycles (R252). -/
  | stealSweep (c : CoreId)
  /-- A sleeping wait reloads its location after 4,096 core cycles (R120). -/
  | waitTimeout (c : CoreId) (k : SlotId)
  /-- A write or invalidation of the watched block wakes a sleeping wait, barwait or cbwait (R120). -/
  | sleepWake (c : CoreId) (k : SlotId)
  /-- A realign stall ends after 256 core cycles (R114). -/
  | realignTimeout (c : CoreId) (k : SlotId)
  /-- An xmit word lands in the neighbour's input latch 2 or 3 cycles after issue (R227). -/
  | torusWordLand (c : CoreId) (dir : Dir)
  /-- When all contributions arrive the summed counter record is written to each core (R233). -/
  | gatherComplete (l : Nat)
  /-- A buffered message leaves its source once a receive slot is granted (R221). -/
  | messageSend (c : CoreId) (ch : Fin 16)
  /-- A message arrives at its destination slot or becomes a dead letter (R222). -/
  | messageArrival (m : Landing) (ch : Fin 16)
  /-- A negative acknowledgement sets the channel's NAK bit and may write a ring record (R222). -/
  | nakArrival (c : CoreId) (ch : Fin 16)
  /-- A pending mrecv.d takes an arrived message and its symbol is delivered (R223). -/
  | deferredReceive (c : CoreId) (k : SlotId)
  /-- Once a page is mapped, its parked stores and atomics replay in program order (R130). -/
  | parkedReplay (c : CoreId) (k : SlotId)
  /-- The runtime rejects a mapping and the context traps TRANSLATION, discarding that page's entries (R130). -/
  | mappingRejected (c : CoreId) (k : SlotId) (va : Word)
  /-- A runtime service reply lands in the destination of the waiting trap (R238). -/
  | serviceReply (c : CoreId) (k : SlotId) (v : Answer)
  /-- The debugger resumes a context stopped by brk or ends it (R239). -/
  | debuggerResume (c : CoreId) (k : SlotId) (ends : Bool)
  /-- A communicator failure or faulted write is reported as an asynchronous trap at the next boundary (R378). -/
  | asyncTrap
  /-- Loads weights, scales and format from W into the inactive bank (R191). -/
  | mldw (c : CoreId)
  /-- Makes the inactive bank active at a swap point between rows (R192). -/
  | mswap (c : CoreId)
  /-- Streams activation rows through the array into C accumulators (R195). -/
  | mmul (c : CoreId)
  /-- Multiplies, then sends weights north and rows west within a sub-grid (R198). -/
  | mrot (c : CoreId)
  /-- Converts accumulator rows to the output format, writes them and optionally signals (R201). -/
  | mepi (c : CoreId)
  /-- Writes +0 into accumulator rows (R204). -/
  | mzero (c : CoreId)
  /-- Exports accumulator rows as block-integer messages to a reduction region (R206). -/
  | mred (c : CoreId)
  /-- Opens and clears a reduction region with a running exponent (R205). -/
  | mracc (c : CoreId)
  /-- Waits for EXPECT rows then writes FP32 results and closes the region (R207). -/
  | mrfin (c : CoreId)
  /-- Waits for earlier commands and optionally for ROTIN to reach N (R208). -/
  | msync (c : CoreId)
  /-- A command completes and its symbol is delivered with tag and rows done (R185). -/
  | harrowComplete (c : CoreId)
  /-- A running command faults, halting the harrow and faulting queued symbols (R186). -/
  | harrowFault (c : CoreId)
  /-- The last row tagged with a draining bank leaves the array and the bank becomes LOADED (R192). -/
  | bankDrained (c : CoreId)
  /-- An inbound rotated bank finishes landing, becomes ARRIVED and increments ROTIN (R198). -/
  | rotationBankArrived (m : Landing)
  /-- All rotated rows of one MROT land in the receiver's A window and ROTIN increments (R198). -/
  | rotationRowsLanded (m : Landing)
  /-- An MRED message is added to its region cells or refused with a negative acknowledgement (R206). -/
  | mredArrival (m : Landing)
  /-- A core's next accepted job starts when its previous job ends and any buffer wait is met (R268). -/
  | drillJobStart (c : CoreId)
  /-- The drill moves one 4 KiB chunk of the next core in rotation (R268). -/
  | drillChunk (m : Landing)
  /-- A job ends without fault, updating barriers, flag, buffer, ring and symbol in order (R274). -/
  | drillJobComplete (c : CoreId)
  /-- A job faults, stops at the chunk and writes a FAULT record and symbol (R274). -/
  | drillJobFault (c : CoreId)
  /-- A live entry whose counter or STIME meets its threshold fires once (R310). -/
  | triggerFire (h : Fin 16384)
  /-- A fired SEND sends LEN bytes to its peer for matching (R313). -/
  | send (h : Fin 16384)
  /-- A fired RECV takes the next matched data from its peer, optionally reducing at home (R313). -/
  | recv (h : Fin 16384)
  /-- A fired RRS combines incoming data with local data and may forward the result (R313). -/
  | rrs (h : Fin 16384)
  /-- A fired COPY copies LEN bytes locally (R313). -/
  | copy (h : Fin 16384)
  /-- A fired WAIT moves no data and completes (R313). -/
  | sowerWait (h : Fin 16384)
  /-- A fired PUT writes bytes into the peer's space and raises PCTR there (R313). -/
  | put (h : Fin 16384)
  /-- A fired ATOM performs an 8-byte atomic add at the peer and raises PCTR (R313). -/
  | sowerAtom (h : Fin 16384)
  /-- A fired PROG reads its step array and runs the collective program (R324). -/
  | prog (h : Fin 16384)
  /-- A fired A2A runs a two-stage all-to-all over rails and in-node links (R325). -/
  | a2a (h : Fin 16384)
  /-- The program runner starts its next step once ordering and the 64-step limit allow (R324). -/
  | progStepStart (h : Fin 16384)
  /-- A free sower output chooses the next ready chunk by VC, rotation and age (R321). -/
  | chunkStart (out : Nat)
  /-- A staging slot at the next hop is granted to a waiting chunk (R316). -/
  | stagingGrant (t : Nat)
  /-- A chunk arrives and is matched to the receive that started first (R315). -/
  | chunkArrival (cm : Nat) (src : Nat) (ext : Option ChunkMsg)
  /-- PUT or ATOM data is performed at the peer and PCTR is raised (R313). -/
  | putArrival (cm : Nat) (src : Nat) (ext : Option PutMsg)
  /-- An entry completes and raises RCTR0 and RCTR1 as a release at .sys (R313). -/
  | sowerEntryComplete (h : Fin 16384)
  /-- A rank's sower forwards aggregated rail blocks over in-node links (R325). -/
  | a2aForward (cm : Nat) (src : Nat) (dst : Nat) (msg : ChunkMsg)
  /-- A run-time fault puts a communicator into FAILED and notifies its members (R318). -/
  | communicatorFail (cm : Nat)
  /-- A member's failure notice arrives and the local communicator becomes FAILED (R318). -/
  | failureNotice (cm : Nat) (cause : Byte)
  /-- A device read request is served at the line's home slice (R294). -/
  | homeRead (d : DieId) (clu : Fin 16) (pa : Nat) (mode : Fin 3)
  /-- A device store request moves the line to M or is performed at home (R294). -/
  | homeStore (d : DieId) (clu : Fin 16) (pa : Nat) (mode : Fin 3)
  /-- An atomic or non-commutative reduction is performed at the home slice (R294). -/
  | homeAtomic (d : DieId) (clu : Fin 16) (pa : Nat) (mode : Fin 3)
  /-- An integer red.add or red.badd puts the line in state C or adds to a partial (R301). -/
  | homeReduction (d : DieId) (clu : Fin 16) (pa : Nat) (mode : Fin 3) (badd : Bool) (wide : Bool)
  /-- A holder receives a merge request and returns and clears its partial (R302). -/
  | mergeRequest (pa : Nat)
  /-- The home adds returned partials, moves the line to I and handles the triggering access (R302). -/
  | mergeResponse (pa : Nat)
  /-- An evicted partial sum drains into the die or home value (R301). -/
  | partialDrain (d : DieId) (clu : Fin 16) (pa : Nat)
  /-- A cache evicts a line, clearing links and dropping or writing back tiles (R296). -/
  | cacheEviction (d : DieId) (clu : Fin 16) (pa : Nat)
  /-- Automatic-mode page counters clear every 2^22 loop cycles (R299). -/
  | pageCounterClear (d : DieId)
  /-- A release token is acknowledged after every write ahead of it is performed (R289). -/
  | releaseTokenAck (d : DieId)
  /-- An acquire's token returns and later accesses of its context proceed (R289). -/
  | acquireTokenReturn (d : DieId)
  /-- The host answers a back-invalidation snoop and the waiting device access proceeds (R304). -/
  | bisnpResponse (pa : Nat) (data : Option (List Byte))
  /-- A host CXL.mem read of device memory is served at the home (R294); from 2^52 on, a read of a queue's page in BAR2 (R395). -/
  | hostRead (p : Nat) (pa : Nat) (n : Nat)
  /-- A host write or ownership request puts the line in HO after invalidations (R294); from 2^52 on, a write of a queue's page
  in BAR2 (R395). -/
  | hostWrite (p : Nat) (pa : Nat) (data : List Byte) (poison : Bool)
  /-- A host SnpInv is answered by the line's home slice (R399). -/
  | snpinv (pa : Nat)
  /-- A host SnpData is answered by the line's home slice (R399). -/
  | snpdata (pa : Nat)
  /-- A host SnpCur is answered by the line's home slice (R399). -/
  | snpcur (pa : Nat)
  /-- The host answers a device RdShared, RdOwn or write request for a host line (R399). -/
  | cxlCacheResponse (pa : Nat) (ans : HostGrant) (poison : Bool)
  /-- A runtime shootdown invalidates translation caches of a space and completes after in-flight accesses (R367). -/
  | shootdown (p : Nat) (space : Nat) (tables : List (Nat × Word))
  /-- A LAUNCH entry is read and its descriptor checked (R342). -/
  | launch (q : Nat)
  /-- A CANCEL entry ends the named launch with status CANCELLED (R342). -/
  | cancel (q : Nat)
  /-- A due launch is granted cores and allotments, pre-empting lower classes (R349). -/
  | launchGrant (l : Nat) (plan : BindPlan)
  /-- Every 1,600 headland cycles the idle bits and message sums of a live launch are combined (R355). -/
  | launchSweep (l : Nat)
  /-- The launch's time limit expires and it ends with status LIMIT (R357). -/
  | tlimitExpiry (l : Nat)
  /-- A completion record is written once the completion ring has room, then the tail and MSI-X (R397). -/
  | cqRecordWrite (q : Nat)
  /-- A whole launch is stopped and saved on every bound core (R381). -/
  | preempt (l : Nat)
  /-- A pre-empted launch is restored on cores and restarts issue (R384). -/
  | resume (l : Nat) (plan : BindPlan)
  /-- An MEPI stalled by back-pressure for 20 µs stops at its row cursor (R390). -/
  | epilogueStallTimeout (c : CoreId)
  /-- A former occupant's write packet is performed and DRAIN decreases (R391). -/
  | strayWritePerformed (c : CoreId)
  /-- A host write of Q.SQTAIL makes entries readable or sets ERR on overflow (R397). -/
  | doorbell (q : Nat) (tail : BitVec 32)
  /-- A write of Q.CTL enables or disables a queue, clears ERR and zeroes counters (R396). -/
  | qCtlWrite (q : Nat) (v : Word)
  /-- The host's write of Q.CQHEAD frees completion-ring slots (R396). -/
  | qCqheadWrite (q : Nat) (head : BitVec 32)
  /-- A write to a register without behaviour of its own, ignored if the mode may not write it (R7). -/
  | registerWrite (r : DevReg) (mode : Mode) (v : Word)
  /-- A write of TGT in CLK.FREQ requests a die frequency change (R420). -/
  | clkFreqWrite (d : DieId) (mode : Mode) (v : Word)
  /-- A write of PMW in LNK.CTL requests a power-management width (R428). -/
  | lnkCtlWrite (d : DieId) (mode : Mode) (v : Word)
  /-- A read of LNK.CTL returns and clears CRCERR (R428). -/
  | lnkCtlRead (r : RegRead)
  /-- A change sequence holds new cross-die orders and waits for token acknowledgements (R426). -/
  | linkDrain (d : DieId)
  /-- The mainband stops accepting flits and a frequency change stops the core clock (R426). -/
  | linkQuiesce (d : DieId)
  /-- The core clock relocks at the target frequency (R426). -/
  | linkLock (d : DieId)
  /-- The link trains at the narrower of forced and PMW width (R427). -/
  | linkRetrain (d : DieId)
  /-- Traffic resumes and waiting releases and acquires proceed (R426). -/
  | linkRelease (d : DieId)
  /-- A failing lane is replaced by a spare or forces a narrower width (R438). -/
  | laneError (e : LaneFault)
  /-- A die link goes down, ending its die's contexts with fatal POISON (R438). -/
  | linkDown (d : DieId) (lines : List Nat) (writers : List Writer)
  /-- Retry gives up on a control flit and affected lines go to Q (R435), or on a data flit, whose granules are poisoned (R431);
flits that it has retried are counted (R428). -/
  | uncorrectableFlit (d : DieId) (loss : FlitLoss) (writers : List Writer)
  /-- A runtime repair writes a quarantined line and returns it to I (R436). -/
  | lineRepair (pa : Nat) (data : List Byte)
  /-- A register or queue parity error ends the context with fatal POISON (R431). -/
  | parityError (c : CoreId) (k : SlotId)
  /-- The patrol scrubber reads a granule, correcting it or setting poison (R434). -/
  | patrolScrub (d : DieId) (pa : Nat) (r : ScrubResult)
  /-- A read of RAS returns and clears the error counts (R434). -/
  | rasRead (r : RegRead)
  /-- A CXL port goes down and its outstanding requests complete poisoned (R394). -/
  | portDown (p : Fin 2)
  /-- A PTP message on the slave rail port disciplines or first sets STIME (R424). -/
  | ptpMessage (m : PtpMsg) (bound : BitVec 32)
  /-- No PTP message for 4 s starts holdover and the bound grows (R424). -/
  | ptpHoldover (ms : Nat)
  /-- After 60 s of holdover the system bound becomes unknown and STIME runs free (R424). -/
  | ptpFreeRun
  /-- Every 1 µs the headland refreshes each die's STIME copy over the sideband (R425). -/
  | stimeRefresh (dt : Nat) (skew : List Int)
  /-- A GO write starts a checkpoint or is refused with ERR (R439). -/
  | ckptGo (mode : Mode) (pmask : Byte)
  /-- After pre-emption and write-back every page is marked CUT and launches resume (R440). -/
  | ckptCut
  /-- The streamer writes one page record to the destination and clears its mark (R441). -/
  | streamPage (ok : Bool)
  /-- Power-good starts bring-up from the security core's ROM (R446). -/
  | powerGood (img : Option FwImage)
  /-- A mode S trap stops the command processor, reloads the scheduler and cancels live launches (R447). -/
  | modeSTrap (img : FwImage)
  /-- A mode M trap resets the whole device cold (R447). -/
  | modeMTrap
  /-- A nonce request returns a signed measurement report (R445). -/
  | attestationRequest (nonce : List Byte)
  /-- The host supplies a firmware image through the mailbox in recovery (R443). -/
  | imageSupply (img : FwImage)
  /-- A host command raises the fused minimum security version to the running one (R443). -/
  | fusedMinimumRaise
  /-- The security core sets and locks a translation root and extends MEAS.3 (R361). -/
  | translationRootSet (space : Nat) (p : Nat) (root : Nat)
  /-- The root firmware retires a core from binding (R438). -/
  | coreRetire (c : CoreId)
  /-- The partition mode changes with caches written back and sower and directories reset (R352). -/
  | partitionModeSet (pm : PartMode)
  /-- Every 10 ms above 105 °C TGT falls by 50 MHz, rising back below 95 °C (R448). -/
  | thermalThrottleStep (d : DieId) (hot : Bool)
  /-- At 115 °C or 1 s of lost flow the module powers off (R448). -/
  | thermalTrip
  /-- A fetched word whose MAJ is reserved, or whose FN is unassigned under its MAJ, traps ILLEGAL_OP (R32). -/
  | illegalOp (w : BitVec 32)
  /-- An Ongeoz port goes down, so rails drop out of rotation and in-node chunks are relayed or fail the communicator (R402). -/
  | ongeozPortDown (e : OngeozLoss)
  /-- An Ongeoz port that comes back up takes new chunks from the next chunk boundary and rejoins the rail rotation and the PTP best-master choice (R402). -/
  | ongeozPortUp (e : OngeozLink)
  /-- A CXL host port trains again, and traffic returns to the 2-way interleave by host address bit 12 (R394); `slow` says that it
trained below 32 GT/s, where it carries CXL.io only (R393). -/
  | hostPortUp (p : PortRate)
  /-- The runtime creates a communicator in mode S, setting its members, rank, VC, counter range and routes, and binding its ranks, so that staging for its peers exists (R319). -/
  | communicatorCreate (spec : CommSpec)
  /-- The command processor signals a core that is stopped by idle, and the core resumes issue (R241). -/
  | commandProcessorSignal (c : CoreId)
  deriving DecidableEq, Repr

end Sys2Proof
end

