-- ==== Sys2Proof/Machine/Fields.lean ====
section
/-! DEFINITION. The numbers behind the fields of an instruction word and which values each form accepts: operand codes
(R19, R22, R23), TYPE, SCOPE, WIN, ORD and RND codes (R12, R13), type lists (R79, R138, R164), literals (R20, R21),
assigned MAJ and FN values (R32) and control register numbers (R235). -/

namespace Sys2Proof

/-! ## Operand codes -/

/-- The code of a scalar source (R19). -/
def Src.code : Src → BitVec 6
  | .w n => BitVec.ofNat 6 n.val
  | .g n => BitVec.ofNat 6 (24 + n.val)
  | .o n => BitVec.ofNat 6 (32 + n.val)
  | .lat => 40
  | .zero => 41
  | .lit => 42
  | .imm k => BitVec.ofNat 6 (48 + k.val)

/-- The scalar source of a code; 43 to 47 are reserved (R19). -/
def Src.ofCode (b : BitVec 6) : Option Src :=
  let n := b.toNat
  if h : n < 24 then some (.w ⟨n, h⟩)
  else if n < 32 then some (.g (Fin.ofNat 8 (n - 24)))
  else if n < 40 then some (.o (Fin.ofNat 8 (n - 32)))
  else if n = 40 then some .lat
  else if n = 41 then some .zero
  else if n = 42 then some .lit
  else if n < 48 then none
  else some (.imm (Fin.ofNat 16 (n - 48)))

/-- The code of a scalar destination (R19). -/
def Dst.code : Dst → BitVec 6
  | .w n => BitVec.ofNat 6 n.val
  | .g n => BitVec.ofNat 6 (24 + n.val)
  | .o n => BitVec.ofNat 6 (32 + n.val)
  | .zero => 41

/-- The scalar destination of a code; `lat`, `lit`, reserved and immediate codes name none (R19). -/
def Dst.ofCode (b : BitVec 6) : Option Dst :=
  let n := b.toNat
  if h : n < 24 then some (.w ⟨n, h⟩)
  else if n < 32 then some (.g (Fin.ofNat 8 (n - 24)))
  else if n < 40 then some (.o (Fin.ofNat 8 (n - 32)))
  else if n = 41 then some .zero
  else none

/-- The code of the counter of `loop`. -/
def CtrReg.code : CtrReg → BitVec 6
  | .w n => BitVec.ofNat 6 n.val
  | .g n => BitVec.ofNat 6 (24 + n.val)
  | .o n => BitVec.ofNat 6 (32 + n.val)

/-- The counter register of a code; 40 to 63 name none (R100). -/
def CtrReg.ofCode (b : BitVec 6) : Option CtrReg :=
  let n := b.toNat
  if h : n < 24 then some (.w ⟨n, h⟩)
  else if n < 32 then some (.g (Fin.ofNat 8 (n - 24)))
  else if n < 40 then some (.o (Fin.ofNat 8 (n - 32)))
  else none

/-- The code of a register named by a symbol instruction. -/
def RegName.code : RegName → BitVec 6
  | .w n => BitVec.ofNat 6 n.val
  | .g n => BitVec.ofNat 6 (24 + n.val)
  | .o n => BitVec.ofNat 6 (32 + n.val)
  | .lat => 40

/-- The register of a code 0 to 40 (R93). -/
def RegName.ofCode (b : BitVec 6) : Option RegName :=
  let n := b.toNat
  if h : n < 24 then some (.w ⟨n, h⟩)
  else if n < 32 then some (.g (Fin.ofNat 8 (n - 24)))
  else if n < 40 then some (.o (Fin.ofNat 8 (n - 32)))
  else if n = 40 then some .lat
  else none

/-- Field B of a symbol instruction (R93). -/
def SymArg.bCode : SymArg → BitVec 6
  | .num n => BitVec.ofNat 6 n.val
  | .reg _ => 0

/-- Field C of a symbol instruction (R93). -/
def SymArg.cCode : SymArg → BitVec 6
  | .num _ => 41
  | .reg r => r.code

/-- The code of a vector source (R22). -/
def VSrc.code : VSrc → BitVec 6
  | .v n => BitVec.ofNat 6 n.val
  | .o n => BitVec.ofNat 6 (32 + n.val)
  | .lat => 40
  | .zero => 41
  | .lit => 42
  | .imm k => BitVec.ofNat 6 (48 + k.val)

/-- The vector source of a code; 16 to 31 and 43 to 47 are reserved (R22). -/
def VSrc.ofCode (b : BitVec 6) : Option VSrc :=
  let n := b.toNat
  if h : n < 16 then some (.v ⟨n, h⟩)
  else if n < 32 then none
  else if n < 40 then some (.o (Fin.ofNat 8 (n - 32)))
  else if n = 40 then some .lat
  else if n = 41 then some .zero
  else if n = 42 then some .lit
  else if n < 48 then none
  else some (.imm (Fin.ofNat 16 (n - 48)))

/-- The code of a scalar operand of a vector class (R163). -/
def VScal.code : VScal → BitVec 6
  | .o n => BitVec.ofNat 6 (32 + n.val)
  | .lat => 40
  | .zero => 41
  | .lit => 42
  | .imm k => BitVec.ofNat 6 (48 + k.val)

/-- The scalar operand of a vector class named by a code 32 to 63 (R163). -/
def VScal.ofCode (b : BitVec 6) : Option VScal :=
  let n := b.toNat
  if n < 32 then none
  else if n < 40 then some (.o (Fin.ofNat 8 (n - 32)))
  else if n = 40 then some .lat
  else if n = 41 then some .zero
  else if n = 42 then some .lit
  else if n < 48 then none
  else some (.imm (Fin.ofNat 16 (n - 48)))

/-- A vector register named by codes 0 to 15 (R22). -/
def vecOfCode (b : BitVec 6) : Option (Fin 16) :=
  if h : b.toNat < 16 then some ⟨b.toNat, h⟩ else none

/-- A mask register or a circular-buffer handle, codes 0 to 7 (R22, R23). -/
def maskOfCode (b : BitVec 6) : Option (Fin 8) :=
  if h : b.toNat < 8 then some ⟨b.toNat, h⟩ else none

def Src.isLit (s : Src) : Bool := s == .lit
def VSrc.isLit (s : VSrc) : Bool := s == .lit
def VScal.isLit (s : VScal) : Bool := s == .lit

/-! ## Extended fields -/

/-- TYPE numbers (R13). -/
def Ty.code : Ty → BitVec 4
  | .i8 => 1 | .i16 => 2 | .i32 => 3 | .i64 => 4 | .z8 => 5 | .z16 => 6 | .z32 => 7 | .z64 => 8
  | .f32 => 9 | .f16 => 10 | .bf16 => 11 | .e4m3 => 12 | .e5m2 => 13

/-- TYPE, with 0 for the instruction's default. -/
def tyCode : Option Ty → BitVec 4
  | none => 0
  | some t => t.code

/-- The type of a TYPE number 1 to 13. -/
def Ty.ofCode (b : BitVec 4) : Option Ty :=
  match b.toNat with
  | 1 => some .i8 | 2 => some .i16 | 3 => some .i32 | 4 => some .i64
  | 5 => some .z8 | 6 => some .z16 | 7 => some .z32 | 8 => some .z64
  | 9 => some .f32 | 10 => some .f16 | 11 => some .bf16 | 12 => some .e4m3 | 13 => some .e5m2
  | _ => none

/-- The width E of a type in bytes (R29). -/
def Ty.bytes : Ty → Nat
  | .i8 | .z8 | .e4m3 | .e5m2 => 1
  | .i16 | .z16 | .f16 | .bf16 => 2
  | .i32 | .z32 | .f32 => 4
  | .i64 | .z64 => 8

/-- Whether a type is a floating format. -/
def Ty.isFloat : Ty → Bool
  | .f32 | .f16 | .bf16 | .e4m3 | .e5m2 => true
  | _ => false

/-- Whether a type is a signed integer type `.iN`. -/
def Ty.isSigned : Ty → Bool
  | .i8 | .i16 | .i32 | .i64 => true
  | _ => false

def LdTy.code : LdTy → BitVec 3
  | .i8 => 0 | .i16 => 1 | .i32 => 2 | .i64 => 3 | .z8 => 4 | .z16 => 5 | .z32 => 6 | .z64 => 7

def LdTy.ofCode (b : BitVec 3) : LdTy :=
  match b.toNat with
  | 0 => .i8 | 1 => .i16 | 2 => .i32 | 3 => .i64 | 4 => .z8 | 5 => .z16 | 6 => .z32 | _ => .z64

/-- The type of a load (R32). -/
def LdTy.ty : LdTy → Ty
  | .i8 => .i8 | .i16 => .i16 | .i32 => .i32 | .i64 => .i64
  | .z8 => .z8 | .z16 => .z16 | .z32 => .z32 | .z64 => .z64

def StTy.code : StTy → BitVec 2
  | .i8 => 0 | .i16 => 1 | .i32 => 2 | .i64 => 3

def StTy.ofCode (b : BitVec 2) : StTy :=
  match b.toNat with
  | 0 => .i8 | 1 => .i16 | 2 => .i32 | _ => .i64

/-- The width of a store in bytes. -/
def StTy.bytes : StTy → Nat
  | .i8 => 1 | .i16 => 2 | .i32 => 4 | .i64 => 8

def Scope.code : Scope → BitVec 3
  | .thr => 0 | .core => 1 | .clu => 2 | .die => 3 | .pkg => 4 | .sys => 5

def Scope.ofCode (b : BitVec 3) : Option Scope :=
  match b.toNat with
  | 0 => some .thr | 1 => some .core | 2 => some .clu | 3 => some .die | 4 => some .pkg | 5 => some .sys
  | _ => none

def Ord.code : Ord → BitVec 2
  | .none => 0 | .acq => 1 | .rel => 2 | .ar => 3

def Ord.ofCode (b : BitVec 2) : Ord :=
  match b.toNat with
  | 0 => .none | 1 => .acq | 2 => .rel | _ => .ar

def Win.code : Win → BitVec 3
  | .glob => 0 | .W => 1 | .A => 2 | .C => 3 | .G => 4

def Win.ofCode (b : BitVec 3) : Option Win :=
  match b.toNat with
  | 0 => some .glob | 1 => some .W | 2 => some .A | 3 => some .C | 4 => some .G
  | _ => none

def Rnd.code : Rnd → BitVec 3
  | .dyn => 0 | .rne => 1 | .rtz => 2 | .rup => 3 | .rdn => 4 | .sr => 5

def Rnd.ofCode (b : BitVec 3) : Option Rnd :=
  match b.toNat with
  | 0 => some .dyn | 1 => some .rne | 2 => some .rtz | 3 => some .rup | 4 => some .rdn | 5 => some .sr
  | _ => none

def Cond.code : Cond → BitVec 6
  | .eq => 0 | .ne => 1 | .lt => 2 | .le => 3 | .gt => 4 | .ge => 5 | .ltz => 6 | .lez => 7 | .gtz => 8 | .gez => 9

def Cond.ofFn : Nat → Option Cond
  | 0 => some .eq | 1 => some .ne | 2 => some .lt | 3 => some .le | 4 => some .gt | 5 => some .ge
  | 6 => some .ltz | 7 => some .lez | 8 => some .gtz | 9 => some .gez
  | _ => none

def FCond.code : FCond → BitVec 6
  | .eq => 0 | .ne => 1 | .lt => 2 | .le => 3 | .gt => 4 | .ge => 5 | .un => 10 | .ord => 11

def FCond.ofFn : Nat → Option FCond
  | 0 => some .eq | 1 => some .ne | 2 => some .lt | 3 => some .le | 4 => some .gt | 5 => some .ge
  | 10 => some .un | 11 => some .ord
  | _ => none

def VCond.code : VCond → BitVec 6
  | .eq => 0 | .ne => 1 | .lt => 2 | .le => 3 | .gt => 4 | .ge => 5 | .ltz => 6 | .lez => 7 | .gtz => 8 | .gez => 9
  | .un => 10 | .ord => 11

def VCond.ofFn : Nat → Option VCond
  | 0 => some .eq | 1 => some .ne | 2 => some .lt | 3 => some .le | 4 => some .gt | 5 => some .ge
  | 6 => some .ltz | 7 => some .lez | 8 => some .gtz | 9 => some .gez | 10 => some .un | 11 => some .ord
  | _ => none

def AtomOp.code : AtomOp → BitVec 6
  | .add => 0 | .and => 1 | .or => 2 | .xor => 3 | .min => 4 | .minz => 5 | .max => 6 | .maxz => 7
  | .swap => 8 | .cas => 9 | .fadd => 10 | .badd => 11

def AtomOp.ofFn : Nat → Option AtomOp
  | 0 => some .add | 1 => some .and | 2 => some .or | 3 => some .xor | 4 => some .min | 5 => some .minz
  | 6 => some .max | 7 => some .maxz | 8 => some .swap | 9 => some .cas | 10 => some .fadd | 11 => some .badd
  | _ => none

def RedOp.code : RedOp → BitVec 6
  | .add => 0 | .and => 1 | .or => 2 | .xor => 3 | .min => 4 | .minz => 5 | .max => 6 | .maxz => 7
  | .fadd => 10 | .badd => 11

def RedOp.ofFn : Nat → Option RedOp
  | 0 => some .add | 1 => some .and | 2 => some .or | 3 => some .xor | 4 => some .min | 5 => some .minz
  | 6 => some .max | 7 => some .maxz | 10 => some .fadd | 11 => some .badd
  | _ => none

/-- The `atom` operation a reduction performs without its result (R137). -/
def RedOp.atom : RedOp → AtomOp
  | .add => .add | .and => .and | .or => .or | .xor => .xor | .min => .min | .minz => .minz
  | .max => .max | .maxz => .maxz | .fadd => .fadd | .badd => .badd

def VredOp.code : VredOp → BitVec 6
  | .add => 0 | .min => 1 | .max => 2 | .and => 3 | .or => 4 | .xor => 5

def VredOp.ofFn : Nat → Option VredOp
  | 0 => some .add | 1 => some .min | 2 => some .max | 3 => some .and | 4 => some .or | 5 => some .xor
  | _ => none

def VscanOp.code : VscanOp → BitVec 6
  | .add => 16 | .min => 17 | .max => 18

def VscanOp.ofFn : Nat → Option VscanOp
  | 16 => some .add | 17 => some .min | 18 => some .max
  | _ => none

/-- The number of a control register (R235). -/
def CReg.number : CReg → BitVec 24
  | .idCtx => 0x000 | .idCore => 0x001 | .idClu => 0x002 | .idDie => 0x003 | .idLcore => 0x004 | .idNcore => 0x005
  | .idPart => 0x006 | .idLaunch => 0x007 | .fpMode => 0x010 | .symMode => 0x011 | .symSel => 0x012
  | .symRes => 0x013 | .spillBase => 0x014 | .spillDepth => 0x015 | .trapVec => 0x016 | .trapEpc => 0x017
  | .ssr n => BitVec.ofNat 24 (0x020 + n.val) | .msgRing => 0x030 | .deadl => 0x031

/-- The control register of a number; every other number is unassigned (R234, R235). -/
def CReg.ofFn : Nat → Option CReg
  | 0x000 => some .idCtx | 0x001 => some .idCore | 0x002 => some .idClu | 0x003 => some .idDie
  | 0x004 => some .idLcore | 0x005 => some .idNcore | 0x006 => some .idPart | 0x007 => some .idLaunch
  | 0x010 => some .fpMode | 0x011 => some .symMode | 0x012 => some .symSel | 0x013 => some .symRes
  | 0x014 => some .spillBase | 0x015 => some .spillDepth | 0x016 => some .trapVec | 0x017 => some .trapEpc
  | 0x020 => some (.ssr 0) | 0x021 => some (.ssr 1) | 0x022 => some (.ssr 2) | 0x023 => some (.ssr 3)
  | 0x030 => some .msgRing | 0x031 => some .deadl
  | _ => none

/-- One bit of a word. -/
def bit (b : Bool) : BitVec 1 := if b then 1 else 0

def MaskSel.enBit (m : MaskSel) : BitVec 1 := bit m.en
def MaskSel.selBits (m : MaskSel) : BitVec 3 := BitVec.ofNat 3 m.sel.val

/-! ## Which types a form accepts -/

/-- TYPE 0 or 1 to 8 (R79). -/
def tyInt : Option Ty → Bool
  | none => true
  | some t => !t.isFloat

/-- TYPE 0, `.f32`, `.f16` or `.bf16` (R79). -/
def tyFp : Option Ty → Bool
  | none | some .f32 | some .f16 | some .bf16 => true
  | _ => false

/-- TYPE 0 or any floating format (R79, `fcls`). -/
def tyFp8 : Option Ty → Bool
  | none => true
  | some t => t.isFloat

/-- TYPE 0 (`.f32`) or `.f32`, which the `.fa` variant needs (R77). -/
def tyF32 : Option Ty → Bool
  | none | some .f32 => true
  | _ => false

/-- TYPE 0 or 1 to 4, the payloads of `stsig` (R122). -/
def tySig : Option Ty → Bool
  | none | some .i8 | some .i16 | some .i32 | some .i64 => true
  | _ => false

/-- TYPE 0 or 1 to 11 (R164). -/
def tyVec : Option Ty → Bool
  | some .e4m3 | some .e5m2 => false
  | _ => true

/-- TYPE 0, 1, 12 or 13: `vquant` and `vdeq` (R164). -/
def tyQuant : Option Ty → Bool
  | none | some .i8 | some .e4m3 | some .e5m2 => true
  | _ => false

/-- The types an atomic operation accepts (R138). -/
def AtomOp.tyOk (op : AtomOp) (ty : Option Ty) : Bool :=
  match op with
  | .fadd => tyFp ty
  | .badd => ty.isNone
  | _ =>
    match ty with
    | none | some .i32 | some .i64 | some .z32 | some .z64 => true
    | _ => false

/-- The types a reduction accepts (R138). -/
def RedOp.tyOk (op : RedOp) (ty : Option Ty) : Bool := op.atom.tyOk ty

/-- The types a vector reduction accepts (R164). -/
def VredOp.tyOk (op : VredOp) (ty : Option Ty) : Bool :=
  match op with
  | .add | .min | .max => tyVec ty
  | .and | .or | .xor => tyInt ty

/-- Whether `vcmp` has this condition for this type, TYPE 0 meaning `.f32` (R171). -/
def VCond.tyOk (c : VCond) (ty : Option Ty) : Bool :=
  match c with
  | .eq | .ne | .lt | .le | .gt | .ge => true
  | .ltz | .lez | .gtz | .gez => match ty with | none => false | some t => !t.isFloat
  | .un | .ord => match ty with | none => true | some t => t.isFloat

/-- The rounding a vector arithmetic form accepts: never stochastic, and only dynamic for an integer type (R164). -/
def vrnd (ty : Option Ty) (r : Rnd) : Bool :=
  r != .sr && (match ty with | some t => t.isFloat || r == .dyn | none => true)

/-- The types and rounding of `fcvt` and `vcvt` (R91, R168). -/
def cvtOk (dst src : Ty) (r : Rnd) : Bool :=
  (dst.isFloat || src.isFloat) && (r != .sr || dst == .e4m3 || dst == .e5m2)

/-- `part` of `vcvt` lies below the ratio of the widths (R168). -/
def vcvtPart (dst src : Ty) (part : Fin 8) : Bool :=
  decide (part.val < max (src.bytes / dst.bytes) (dst.bytes / src.bytes))

/-- Stochastic rounding of `vquant` only to an FP8 format (R164). -/
def quantRnd (ty : Option Ty) (r : Rnd) : Bool :=
  r != .sr || ty != some .i8

/-! ## Lengths and literals -/

/-- LEN of an `_X` form (R10). -/
def Form.len : Form → BitVec 2
  | .l _ => 1
  | .x => 2
  | .xl _ => 3

/-- The literal of a form, 0 where it has none. -/
def Form.value : Form → Word
  | .l v => v
  | .x => 0
  | .xl v => v

/-- A literal is consumed exactly when the form has one (R20). -/
def Form.consumes (f : Form) (lits : List Bool) : Bool :=
  match f with
  | .x => !lits.any id
  | _ => lits.any id

/-- LEN 0b01 has no words 1 and 2, so every extended field is 0 (R10). -/
def Form.plain (f : Form) (d : Bool) : Bool :=
  match f with
  | .l _ => d
  | _ => true

/-- A literal read in a floating format of `bits` bits has zero bits above it (R21). -/
def litFits (v : Word) (bits : Option Nat) : Bool :=
  match bits with
  | none => true
  | some n => v >>> n == 0

/-- R21 for every literal of a form whose operands are all read in one format. -/
def Form.fpLit (f : Form) (bits : Option Nat) : Bool := litFits f.value bits

/-- No operand holds code 42 (R20, LEN 0b00). -/
def noLit (lits : List Bool) : Bool := !lits.any id

/-- LEN of a form with LEN 0b00 or 0b01. -/
def litLen : Option Word → BitVec 2
  | none => 0
  | some _ => 1

/-- LEN of a form with LEN 0b10 or 0b11. -/
def litLenX : Option Word → BitVec 2
  | none => 2
  | some _ => 3

/-- The literal, 0 where there is none. -/
def litVal : Option Word → Word
  | none => 0
  | some v => v

/-- The literal is consumed exactly when present (R20). -/
def litConsumed (lit : Option Word) (lits : List Bool) : Bool :=
  match lit with
  | none => !lits.any id
  | some _ => lits.any id

/-- The bits of the floating format that TYPE gives, TYPE 0 meaning `.f32` (R79). -/
def fpBits : Option Ty → Option Nat
  | none => some 32
  | some t => if t.isFloat then some (8 * t.bytes) else none

/-- As `fpBits`, for the vector forms whose TYPE 0 means `.f32` (R164, R165). -/
def vfpBits (ty : Option Ty) : Option Nat := fpBits ty

/-- As `fpBits`, for the forms whose TYPE 0 means `.i32` (R164, R165). -/
def bitsFp : Option Ty → Option Nat
  | none => none
  | some t => if t.isFloat then some (8 * t.bytes) else none

/-- The literal of a conversion, read in the source type (R21). -/
def fpLitOpt (lit : Option Word) (src : Ty) : Bool := litFits (litVal lit) (fpBits (some src))

/-- `vquant` reads both operands as FP32 (R169). -/
def quantLit (v : Word) (lits : List Bool) : Bool := !lits.any id || litFits v (some 32)

/-- `vdeq` reads B in the source type and C as FP32 (R170). -/
def deqLit (ty : Option Ty) (v : Word) (x y : VSrc) : Bool :=
  (!x.isLit || ty == some .i8 || litFits v (some 8)) && (!y.isLit || litFits v (some 32))

/-- The operand of `atom.fadd` is read in the type's format (R21, R137). -/
def atomLit (op : AtomOp) (ty : Option Ty) (w : Word) (v : Src) : Bool :=
  !(v.isLit && op == .fadd) || litFits w (fpBits ty)

/-- The operand of `red.fadd` is read in the type's format (R21, R137). -/
def redLit (op : RedOp) (ty : Option Ty) (w : Word) (v : Src) : Bool := atomLit op.atom ty w v

/-- `add w0, w0, w0` has no 32-bit encoding: its word is `trapz` (R31). -/
def isTrapz (d : Dst) (x y : Src) : Bool := d == .w 0 && x == .w 0 && y == .w 0

/-! ## Assigned values of MAJ and FN -/

/-- R32: whether FN is assigned under MAJ. Stores with access types 4 to 7 count as unassigned (R33). -/
def assigned (maj fn : Nat) : Bool :=
  match maj with
  | 0x00 => fn ≤ 0x08
  | 0x01 => fn ≤ 0x06
  | 0x02 => fn ≤ 0x04
  | 0x03 => fn ≤ 0x0A
  | 0x04 => fn ≤ 0x09 || (0x10 ≤ fn && fn ≤ 0x12)
  | 0x10 => fn ≤ 0x09
  | 0x11 => fn ≤ 0x05 || fn == 0x0A || fn == 0x0B || fn == 0x10 || fn == 0x11
  | 0x12 => fn ≤ 0x02
  | 0x18 => fn == 0x00 || (0x10 ≤ fn && fn ≤ 0x19)
  | 0x19 => fn ≤ 0x04
  | 0x1A => fn ≤ 0x05
  | 0x1B => fn ≤ 0x04
  | 0x20 => fn ≤ 0x0B || (0x10 ≤ fn && fn ≤ 0x23) || (0x28 ≤ fn && fn ≤ 0x33)
  | 0x21 => fn ≤ 0x0B
  | 0x22 => fn ≤ 0x02
  | 0x23 => fn ≤ 0x03
  | 0x24 => fn ≤ 0x03
  | 0x25 => fn ≤ 0x03
  | 0x26 => fn ≤ 0x03
  | 0x2C => fn ≤ 0x0B
  | 0x2D => fn ≤ 0x07 || fn == 0x0A || fn == 0x0B
  | 0x2E => fn ≤ 0x01
  | 0x30 => fn ≤ 0x07
  | 0x31 => fn ≤ 0x04
  | 0x32 => fn ≤ 0x02
  | 0x33 => fn ≤ 0x0B || fn == 0x10
  | 0x34 => fn ≤ 0x06
  | 0x35 => fn ≤ 0x05
  | 0x36 => fn ≤ 0x05 || (0x10 ≤ fn && fn ≤ 0x12)
  | 0x37 => fn ≤ 0x03
  | 0x38 => fn ≤ 0x04
  | 0x3C => fn ≤ 0x01
  | 0x3D => fn ≤ 0x08
  | 0x3E => fn ≤ 0x08
  | 0x3F => fn ≤ 0x05
  | _ => false

/-- A nonzero word 0 whose MAJ is reserved or whose FN is unassigned under its MAJ (R32). -/
def illegalMajFn (w : BitVec 32) : Bool :=
  w != 0 && !assigned (w.extractLsb' 2 6).toNat (w.extractLsb' 26 6).toNat

end Sys2Proof
end

