-- ==== Sys2Proof/WellFormed.lean ====
section
/-! DEFINITION. Which instruction terms have words of their own: what a decoder accepts beyond the shape of the
syntax (R10, R15, R20, R21, R31, R79, R122, R163, R213). Step rows have no words and are always well formed. -/

namespace Sys2Proof

/-- The well-formedness check of an instruction. -/
def Instr.wf (i : Instr) : Bool :=
  match i with
  | .trapz => true
  | .add d x y => noLit [x.isLit, y.isLit] && !isTrapz d x y
  | .addX f ty _ x y => f.consumes [x.isLit, y.isLit] && f.plain (ty.isNone) && tyInt ty
  | .sub _ x y => noLit [x.isLit, y.isLit]
  | .subX f ty _ x y => f.consumes [x.isLit, y.isLit] && f.plain (ty.isNone) && tyInt ty
  | .neg _ x => noLit [x.isLit]
  | .negX f ty _ x => f.consumes [x.isLit] && f.plain (ty.isNone) && tyInt ty
  | .abs _ x => noLit [x.isLit]
  | .absX f ty _ x => f.consumes [x.isLit] && f.plain (ty.isNone) && tyInt ty
  | .min _ x y => noLit [x.isLit, y.isLit]
  | .minX f ty _ x y => f.consumes [x.isLit, y.isLit] && f.plain (ty.isNone) && tyInt ty
  | .minz _ x y => noLit [x.isLit, y.isLit]
  | .minzX f ty _ x y => f.consumes [x.isLit, y.isLit] && f.plain (ty.isNone) && tyInt ty
  | .max _ x y => noLit [x.isLit, y.isLit]
  | .maxX f ty _ x y => f.consumes [x.isLit, y.isLit] && f.plain (ty.isNone) && tyInt ty
  | .maxz _ x y => noLit [x.isLit, y.isLit]
  | .maxzX f ty _ x y => f.consumes [x.isLit, y.isLit] && f.plain (ty.isNone) && tyInt ty
  | .lea _ x y => noLit [x.isLit, y.isLit]
  | .leaX f _ x y sh imm => f.consumes [x.isLit, y.isLit] && f.plain (imm == 0 && sh == 0)
  | .mul _ x y => noLit [x.isLit, y.isLit]
  | .mulX f ty _ x y => f.consumes [x.isLit, y.isLit] && f.plain (ty.isNone) && tyInt ty
  | .mulh _ x y => noLit [x.isLit, y.isLit]
  | .mulhX f ty _ x y => f.consumes [x.isLit, y.isLit] && f.plain (ty.isNone) && tyInt ty
  | .mulhz _ x y => noLit [x.isLit, y.isLit]
  | .mulhzX f ty _ x y => f.consumes [x.isLit, y.isLit] && f.plain (ty.isNone) && tyInt ty
  | .div _ x y => noLit [x.isLit, y.isLit]
  | .divX f ty _ x y => f.consumes [x.isLit, y.isLit] && f.plain (ty.isNone) && tyInt ty
  | .divz _ x y => noLit [x.isLit, y.isLit]
  | .divzX f ty _ x y => f.consumes [x.isLit, y.isLit] && f.plain (ty.isNone) && tyInt ty
  | .rem _ x y => noLit [x.isLit, y.isLit]
  | .remX f ty _ x y => f.consumes [x.isLit, y.isLit] && f.plain (ty.isNone) && tyInt ty
  | .remz _ x y => noLit [x.isLit, y.isLit]
  | .remzX f ty _ x y => f.consumes [x.isLit, y.isLit] && f.plain (ty.isNone) && tyInt ty
  | .and _ x y => noLit [x.isLit, y.isLit]
  | .andX f ty _ x y => f.consumes [x.isLit, y.isLit] && f.plain (ty.isNone) && tyInt ty
  | .or _ x y => noLit [x.isLit, y.isLit]
  | .orX f ty _ x y => f.consumes [x.isLit, y.isLit] && f.plain (ty.isNone) && tyInt ty
  | .xor _ x y => noLit [x.isLit, y.isLit]
  | .xorX f ty _ x y => f.consumes [x.isLit, y.isLit] && f.plain (ty.isNone) && tyInt ty
  | .andn _ x y => noLit [x.isLit, y.isLit]
  | .andnX f ty _ x y => f.consumes [x.isLit, y.isLit] && f.plain (ty.isNone) && tyInt ty
  | .not _ x => noLit [x.isLit]
  | .notX f ty _ x => f.consumes [x.isLit] && f.plain (ty.isNone) && tyInt ty
  | .shl _ x y => noLit [x.isLit, y.isLit]
  | .shlX f ty _ x y => f.consumes [x.isLit, y.isLit] && f.plain (ty.isNone) && tyInt ty
  | .shr _ x y => noLit [x.isLit, y.isLit]
  | .shrX f ty _ x y => f.consumes [x.isLit, y.isLit] && f.plain (ty.isNone) && tyInt ty
  | .sra _ x y => noLit [x.isLit, y.isLit]
  | .sraX f ty _ x y => f.consumes [x.isLit, y.isLit] && f.plain (ty.isNone) && tyInt ty
  | .rotl _ x y => noLit [x.isLit, y.isLit]
  | .rotlX f ty _ x y => f.consumes [x.isLit, y.isLit] && f.plain (ty.isNone) && tyInt ty
  | .clz _ x => noLit [x.isLit]
  | .clzX f ty _ x => f.consumes [x.isLit] && f.plain (ty.isNone) && tyInt ty
  | .ctz _ x => noLit [x.isLit]
  | .ctzX f ty _ x => f.consumes [x.isLit] && f.plain (ty.isNone) && tyInt ty
  | .popc _ x => noLit [x.isLit]
  | .popcX f ty _ x => f.consumes [x.isLit] && f.plain (ty.isNone) && tyInt ty
  | .bext _ x y => noLit [x.isLit, y.isLit]
  | .bextX f _ x y => f.consumes [x.isLit, y.isLit]
  | .bins _ x y => noLit [x.isLit, y.isLit]
  | .binsX f _ x y z => f.consumes [x.isLit, y.isLit, z.isLit] && f.plain (z == .w 0)
  | .sext _ x y => noLit [x.isLit, y.isLit]
  | .sextX f _ x y => f.consumes [x.isLit, y.isLit]
  | .zext _ x y => noLit [x.isLit, y.isLit]
  | .zextX f _ x y => f.consumes [x.isLit, y.isLit]
  | .cmp _ _ x y => noLit [x.isLit, y.isLit]
  | .cmpX f _ ty _ x y => f.consumes [x.isLit, y.isLit] && f.plain (ty.isNone) && tyInt ty
  | .sel _ x y => noLit [x.isLit, y.isLit]
  | .selX f _ x y z => f.consumes [x.isLit, y.isLit, z.isLit] && f.plain (z == .w 0)
  | .mov _ x => noLit [x.isLit]
  | .movX f ty _ x => f.consumes [x.isLit] && f.plain (ty.isNone) && tyInt ty
  | .movl _ _ _ => true
  | .fadd _ x y => noLit [x.isLit, y.isLit]
  | .faddX f ty rnd fa _ x y => f.consumes [x.isLit, y.isLit] && f.plain (ty.isNone && rnd == .dyn && !fa) && tyFp ty && rnd != .sr && (!fa || tyF32 ty) && f.fpLit (fpBits ty)
  | .fsub _ x y => noLit [x.isLit, y.isLit]
  | .fsubX f ty rnd fa _ x y => f.consumes [x.isLit, y.isLit] && f.plain (ty.isNone && rnd == .dyn && !fa) && tyFp ty && rnd != .sr && (!fa || tyF32 ty) && f.fpLit (fpBits ty)
  | .fmul _ x y => noLit [x.isLit, y.isLit]
  | .fmulX f ty rnd fa _ x y => f.consumes [x.isLit, y.isLit] && f.plain (ty.isNone && rnd == .dyn && !fa) && tyFp ty && rnd != .sr && (!fa || tyF32 ty) && f.fpLit (fpBits ty)
  | .fma _ x y => noLit [x.isLit, y.isLit]
  | .fmaX f ty rnd fa _ x y z => f.consumes [x.isLit, y.isLit, z.isLit] && f.plain (ty.isNone && rnd == .dyn && !fa && z == .w 0) && tyFp ty && rnd != .sr && (!fa || tyF32 ty) && f.fpLit (fpBits ty)
  | .fdiv _ x y => noLit [x.isLit, y.isLit]
  | .fdivX f ty rnd _ x y => f.consumes [x.isLit, y.isLit] && f.plain (ty.isNone && rnd == .dyn) && tyFp ty && rnd != .sr && f.fpLit (fpBits ty)
  | .fsqrt _ x => noLit [x.isLit]
  | .fsqrtX f ty rnd _ x => f.consumes [x.isLit] && f.plain (ty.isNone && rnd == .dyn) && tyFp ty && rnd != .sr && f.fpLit (fpBits ty)
  | .fmin _ x y => noLit [x.isLit, y.isLit]
  | .fminX f ty _ x y => f.consumes [x.isLit, y.isLit] && f.plain (ty.isNone) && tyFp ty && f.fpLit (fpBits ty)
  | .fmax _ x y => noLit [x.isLit, y.isLit]
  | .fmaxX f ty _ x y => f.consumes [x.isLit, y.isLit] && f.plain (ty.isNone) && tyFp ty && f.fpLit (fpBits ty)
  | .fabs _ x => noLit [x.isLit]
  | .fabsX f ty _ x => f.consumes [x.isLit] && f.plain (ty.isNone) && tyFp ty && f.fpLit (fpBits ty)
  | .fneg _ x => noLit [x.isLit]
  | .fnegX f ty _ x => f.consumes [x.isLit] && f.plain (ty.isNone) && tyFp ty && f.fpLit (fpBits ty)
  | .fcmp _ _ x y => noLit [x.isLit, y.isLit]
  | .fcmpX f _ ty _ x y => f.consumes [x.isLit, y.isLit] && f.plain (ty.isNone) && tyFp ty && f.fpLit (fpBits ty)
  | .fcvt lit dst src rnd _ x => litConsumed lit [x.isLit] && cvtOk dst src rnd && fpLitOpt lit src
  | .fcls _ x => noLit [x.isLit]
  | .fclsX f ty _ x => f.consumes [x.isLit] && f.plain (ty.isNone) && tyFp8 ty && f.fpLit (fpBits ty)
  | .symt _ _ => true
  | .symtX _ _ => true
  | .symw _ _ => true
  | .symwX _ _ => true
  | .symx _ _ => true
  | .symxX _ _ => true
  | .br _ => true
  | .brX _ => true
  | .bcmp lit _ ty x y _ => litConsumed lit [x.isLit, y.isLit] && tyInt ty
  | .call _ => true
  | .callX _ => true
  | .ret => true
  | .jtb lit tbl idx len _ _ => litConsumed lit [tbl.isLit, idx.isLit, len.isLit]
  | .jtc lit tbl idx len _ _ => litConsumed lit [tbl.isLit, idx.isLit, len.isLit]
  | .land _ => true
  | .loop _ _ => true
  | .loopX _ _ => true
  | .spillw => true
  | .fillw => true
  | .hret => true
  | .realign lit dist => litConsumed lit [dist.isLit]
  | .nop => true
  | .nopX => true
  | .fin => true
  | .start _ _ => true
  | .join _ base => noLit [base.isLit]
  | .joinX f _ base imm => f.consumes [base.isLit] && f.plain (imm == 0)
  | .yield => true
  | .wait _ base v => noLit [base.isLit, v.isLit]
  | .waitX f sc win ty _ base v imm => f.consumes [base.isLit, v.isLit] && f.plain (sc == .thr && win == .glob && ty.isNone && imm == 0) && tyInt ty
  | .ld _ _ base idx => noLit [base.isLit, idx.isLit]
  | .ldX f _ win imm ef _ base idx => f.consumes [base.isLit, idx.isLit] && f.plain (win == .glob && imm == 0 && !ef)
  | .st _ v base idx => noLit [v.isLit, base.isLit, idx.isLit]
  | .stX f _ win imm ef v base idx => f.consumes [v.isLit, base.isLit, idx.isLit] && f.plain (win == .glob && imm == 0 && !ef)
  | .ldd _ _ base idx => noLit [base.isLit, idx.isLit]
  | .lddX f _ win imm ef _ base idx => f.consumes [base.isLit, idx.isLit] && f.plain (win == .glob && imm == 0 && !ef)
  | .ldacq lit _ _ _ _ _ _ base idx => litConsumed lit [base.isLit, idx.isLit]
  | .strel lit _ _ _ _ v base idx => litConsumed lit [v.isLit, base.isLit, idx.isLit]
  | .lld _ _ base idx => noLit [base.isLit, idx.isLit]
  | .lldX f _ win imm _ base idx => f.consumes [base.isLit, idx.isLit] && f.plain (win == .glob && imm == 0)
  | .lst lit _ _ _ v base idx _ => litConsumed lit [v.isLit, base.isLit, idx.isLit]
  | .ldb _ _ base idx => noLit [base.isLit, idx.isLit]
  | .ldbX f _ imm ef _ base idx => f.consumes [base.isLit, idx.isLit] && f.plain (imm == 0 && !ef)
  | .stb _ v base idx => noLit [v.isLit, base.isLit, idx.isLit]
  | .stbX f _ imm ef v base idx => f.consumes [v.isLit, base.isLit, idx.isLit] && f.plain (imm == 0 && !ef)
  | .stsig lit _ _ ty _ _ v base flag sig => litConsumed lit [v.isLit, base.isLit, flag.isLit, sig.isLit] && tySig ty
  | .stg tag base => noLit [tag.isLit, base.isLit]
  | .stgX f n imm tag base => f.consumes [tag.isLit, base.isLit] && f.plain (n == 0 && imm == 0)
  | .ldg _ base => noLit [base.isLit]
  | .ldgX f imm _ base => f.consumes [base.isLit] && f.plain (imm == 0)
  | .cbwaitF lit _ _ n => litConsumed lit [n.isLit]
  | .cbwaitE lit _ _ n => litConsumed lit [n.isLit]
  | .cbadvF lit _ n => litConsumed lit [n.isLit]
  | .cbadvE lit _ n => litConsumed lit [n.isLit]
  | .publ lit _ _ buf => litConsumed lit [buf.isLit]
  | .tdecl base shape => noLit [base.isLit, shape.isLit]
  | .tdeclX f imm base shape => f.consumes [base.isLit, shape.isLit] && f.plain (imm == 0)
  | .tfree base => noLit [base.isLit]
  | .tfreeX f imm base => f.consumes [base.isLit] && f.plain (imm == 0)
  | .tfwd base rank => noLit [base.isLit, rank.isLit]
  | .tfwdX f imm base rank => f.consumes [base.isLit, rank.isLit] && f.plain (imm == 0)
  | .pref base idx => noLit [base.isLit, idx.isLit]
  | .prefX f l2 imm base idx => f.consumes [base.isLit, idx.isLit] && f.plain (!l2 && imm == 0)
  | .evict base idx => noLit [base.isLit, idx.isLit]
  | .evictX f imm base idx => f.consumes [base.isLit, idx.isLit] && f.plain (imm == 0)
  | .pin lit _ _ base len => litConsumed lit [base.isLit, len.isLit]
  | .unpin lit idx => litConsumed lit [idx.isLit]
  | .barinit base n => noLit [base.isLit, n.isLit]
  | .barinitX f sc win imm base n => f.consumes [base.isLit, n.isLit] && f.plain (sc == .thr && win == .glob && imm == 0)
  | .barexp base n => noLit [base.isLit, n.isLit]
  | .barexpX f win imm base n => f.consumes [base.isLit, n.isLit] && f.plain (win == .glob && imm == 0)
  | .bararr _ base n => noLit [base.isLit, n.isLit]
  | .bararrX f sc win imm _ base n => f.consumes [base.isLit, n.isLit] && f.plain (sc == .thr && win == .glob && imm == 0)
  | .barwait _ base n => noLit [base.isLit, n.isLit]
  | .barwaitX f sc win chk imm _ base n => f.consumes [base.isLit, n.isLit] && f.plain (sc == .thr && win == .glob && !chk && imm == 0)
  | .atom _ _ base v => noLit [base.isLit, v.isLit]
  | .atomX f op sc ord win ty imm _ base v e => f.consumes [base.isLit, v.isLit, e.isLit] && f.plain (sc == .thr && ord == .none && win == .glob && ty.isNone && imm == 0 && e == .w 0) && op.tyOk ty && (op == .cas || e == .w 0) && atomLit op ty f.value v
  | .red _ base v => noLit [base.isLit, v.isLit]
  | .redX f op sc rel win ty imm base v => f.consumes [base.isLit, v.isLit] && f.plain (sc == .thr && !rel && win == .glob && ty.isNone && imm == 0) && op.tyOk ty && redLit op ty f.value v
  | .fence _ ord => ord != .none
  | .isync => true
  | .vadd _ x y => noLit [x.isLit, y.isLit]
  | .vaddX f ty rnd mk _ x y => f.consumes [x.isLit, y.isLit] && f.plain (ty.isNone && rnd == .dyn && mk == {}) && tyVec ty && vrnd ty rnd && f.fpLit (vfpBits ty)
  | .vsub _ x y => noLit [x.isLit, y.isLit]
  | .vsubX f ty rnd mk _ x y => f.consumes [x.isLit, y.isLit] && f.plain (ty.isNone && rnd == .dyn && mk == {}) && tyVec ty && vrnd ty rnd && f.fpLit (vfpBits ty)
  | .vmul _ x y => noLit [x.isLit, y.isLit]
  | .vmulX f ty rnd mk _ x y => f.consumes [x.isLit, y.isLit] && f.plain (ty.isNone && rnd == .dyn && mk == {}) && tyVec ty && vrnd ty rnd && f.fpLit (vfpBits ty)
  | .vfma _ x y => noLit [x.isLit, y.isLit]
  | .vfmaX f ty rnd mk _ x y z => f.consumes [x.isLit, y.isLit, z.isLit] && f.plain (ty.isNone && rnd == .dyn && mk == {} && z == .v 0) && tyVec ty && vrnd ty rnd && f.fpLit (vfpBits ty)
  | .vmin _ x y => noLit [x.isLit, y.isLit]
  | .vminX f ty rnd mk _ x y => f.consumes [x.isLit, y.isLit] && f.plain (ty.isNone && rnd == .dyn && mk == {}) && tyVec ty && vrnd ty rnd && f.fpLit (vfpBits ty)
  | .vmax _ x y => noLit [x.isLit, y.isLit]
  | .vmaxX f ty rnd mk _ x y => f.consumes [x.isLit, y.isLit] && f.plain (ty.isNone && rnd == .dyn && mk == {}) && tyVec ty && vrnd ty rnd && f.fpLit (vfpBits ty)
  | .vabs _ x => noLit [x.isLit]
  | .vabsX f ty mk _ x => f.consumes [x.isLit] && f.plain (ty.isNone && mk == {}) && tyVec ty && f.fpLit (vfpBits ty)
  | .vneg _ x => noLit [x.isLit]
  | .vnegX f ty mk _ x => f.consumes [x.isLit] && f.plain (ty.isNone && mk == {}) && tyVec ty && f.fpLit (vfpBits ty)
  | .vrcp _ x => noLit [x.isLit]
  | .vrcpX f ty rnd mk _ x => f.consumes [x.isLit] && f.plain (ty.isNone && rnd == .dyn && mk == {}) && tyFp ty && vrnd ty rnd && f.fpLit (vfpBits ty)
  | .vrsq _ x => noLit [x.isLit]
  | .vrsqX f ty rnd mk _ x => f.consumes [x.isLit] && f.plain (ty.isNone && rnd == .dyn && mk == {}) && tyFp ty && vrnd ty rnd && f.fpLit (vfpBits ty)
  | .vexp _ x => noLit [x.isLit]
  | .vexpX f ty rnd mk _ x => f.consumes [x.isLit] && f.plain (ty.isNone && rnd == .dyn && mk == {}) && tyFp ty && vrnd ty rnd && f.fpLit (vfpBits ty)
  | .vlog _ x => noLit [x.isLit]
  | .vlogX f ty rnd mk _ x => f.consumes [x.isLit] && f.plain (ty.isNone && rnd == .dyn && mk == {}) && tyFp ty && vrnd ty rnd && f.fpLit (vfpBits ty)
  | .vtanh _ x => noLit [x.isLit]
  | .vtanhX f ty rnd mk _ x => f.consumes [x.isLit] && f.plain (ty.isNone && rnd == .dyn && mk == {}) && tyFp ty && vrnd ty rnd && f.fpLit (vfpBits ty)
  | .vcvt lit dst src part rnd _ _ x => litConsumed lit [x.isLit] && cvtOk dst src rnd && vcvtPart dst src part && fpLitOpt lit src
  | .vquant _ x y => noLit [x.isLit, y.isLit]
  | .vquantX f ty part rnd mk _ x y => f.consumes [x.isLit, y.isLit] && f.plain (ty.isNone && part == 0 && rnd == .dyn && mk == {}) && tyQuant ty && quantRnd ty rnd && quantLit f.value [x.isLit, y.isLit]
  | .vdeq _ x y => noLit [x.isLit, y.isLit]
  | .vdeqX f ty part rnd mk _ x y => f.consumes [x.isLit, y.isLit] && f.plain (ty.isNone && part == 0 && rnd == .dyn && mk == {}) && tyQuant ty && rnd != .sr && deqLit ty f.value x y
  | .vcmp cond _ x y => noLit [x.isLit, y.isLit] && cond.tyOk none
  | .vcmpX f cond ty mk _ x y => f.consumes [x.isLit, y.isLit] && f.plain (ty.isNone && mk == {}) && tyVec ty && cond.tyOk ty && f.fpLit (vfpBits ty)
  | .vsel _ _ x => noLit [x.isLit]
  | .vselX f ty mk _ _ x y => f.consumes [x.isLit, y.isLit] && f.plain (ty.isNone && mk == {} && y == .v 0) && f.fpLit (bitsFp ty)
  | .vand _ x y => noLit [x.isLit, y.isLit]
  | .vandX f ty mk _ x y => f.consumes [x.isLit, y.isLit] && f.plain (ty.isNone && mk == {}) && tyInt ty
  | .vor _ x y => noLit [x.isLit, y.isLit]
  | .vorX f ty mk _ x y => f.consumes [x.isLit, y.isLit] && f.plain (ty.isNone && mk == {}) && tyInt ty
  | .vxor _ x y => noLit [x.isLit, y.isLit]
  | .vxorX f ty mk _ x y => f.consumes [x.isLit, y.isLit] && f.plain (ty.isNone && mk == {}) && tyInt ty
  | .vnot _ x => noLit [x.isLit]
  | .vnotX f ty mk _ x => f.consumes [x.isLit] && f.plain (ty.isNone && mk == {}) && tyInt ty
  | .vshl _ x y => noLit [x.isLit, y.isLit]
  | .vshlX f ty mk _ x y => f.consumes [x.isLit, y.isLit] && f.plain (ty.isNone && mk == {}) && tyInt ty
  | .vshr _ x y => noLit [x.isLit, y.isLit]
  | .vshrX f ty mk _ x y => f.consumes [x.isLit, y.isLit] && f.plain (ty.isNone && mk == {}) && tyInt ty
  | .vsra _ x y => noLit [x.isLit, y.isLit]
  | .vsraX f ty mk _ x y => f.consumes [x.isLit, y.isLit] && f.plain (ty.isNone && mk == {}) && tyInt ty
  | .vperm _ _ _ => true
  | .vpermX _ _ _ _ _ => true
  | .vbcast _ _ k => noLit [k.isLit]
  | .vbcastX f ty mk _ _ k => f.consumes [k.isLit] && f.plain (ty.isNone && mk == {})
  | .vidx _ x y => noLit [x.isLit, y.isLit]
  | .vidxX f ty mk _ x y => f.consumes [x.isLit, y.isLit] && f.plain (ty.isNone && mk == {}) && tyInt ty
  | .vmov _ x => noLit [x.isLit]
  | .vmovX f ty mk _ x => f.consumes [x.isLit] && f.plain (ty.isNone && mk == {}) && f.fpLit (bitsFp ty)
  | .vins _ x k => noLit [x.isLit, k.isLit]
  | .vinsX f ty _ x k => f.consumes [x.isLit, k.isLit] && f.plain (ty.isNone)
  | .vext _ _ k => noLit [k.isLit]
  | .vextX f ty _ _ k => f.consumes [k.isLit] && f.plain (ty.isNone)
  | .vred _ _ _ => true
  | .vredX ty rnd _ op _ _ => op.tyOk ty && (op == .add || rnd == .dyn) && vrnd ty rnd
  | .vscan _ _ _ => true
  | .vscanX ty rnd _ op _ _ => tyVec ty && (op == .add || rnd == .dyn) && vrnd ty rnd
  | .vld _ base idx => noLit [base.isLit, idx.isLit]
  | .vldX f win ty imm ef mk _ base idx => f.consumes [base.isLit, idx.isLit] && f.plain (win == .glob && ty.isNone && imm == 0 && !ef && mk == {})
  | .vst _ base idx => noLit [base.isLit, idx.isLit]
  | .vstX f win ty imm ef mk _ base idx => f.consumes [base.isLit, idx.isLit] && f.plain (win == .glob && ty.isNone && imm == 0 && !ef && mk == {})
  | .vgth _ base _ => noLit [base.isLit]
  | .vgthX f win ty imm sh ef mk _ base _ => f.consumes [base.isLit] && f.plain (win == .glob && ty.isNone && imm == 0 && sh == 0 && !ef && mk == {})
  | .vsct _ base _ => noLit [base.isLit]
  | .vsctX f win ty imm sh ef mk _ base _ => f.consumes [base.isLit] && f.plain (win == .glob && ty.isNone && imm == 0 && sh == 0 && !ef && mk == {})
  | .mand _ _ _ => true
  | .mor _ _ _ => true
  | .mxor _ _ _ => true
  | .mnot _ _ => true
  | .mpop _ _ => true
  | .mpopX _ _ _ => true
  | .mcmd _ base idx => noLit [base.isLit, idx.isLit]
  | .mcmdX f _ _ _ base idx => f == .x && noLit [base.isLit, idx.isLit]
  | .mqry lit _ q => litConsumed lit [q.isLit]
  | .djob _ base => noLit [base.isLit]
  | .djobX f win imm _ base => f.consumes [base.isLit] && f.plain (win == .glob && imm == 0)
  | .rbind _ base range => noLit [base.isLit, range.isLit]
  | .rbindX f win imm _ base range => f.consumes [base.isLit, range.isLit] && f.plain (win == .glob && imm == 0)
  | .rfree lit idx => litConsumed lit [idx.isLit]
  | .msend base _ => noLit [base.isLit]
  | .msendX f sc win imm chk base _ => f.consumes [base.isLit] && f.plain (sc == .thr && win == .glob && imm == 0 && !chk)
  | .mrecv _ base _ => noLit [base.isLit]
  | .mrecvX f sc win imm dv _ base _ => f.consumes [base.isLit] && f.plain (sc == .thr && win == .glob && imm == 0 && !dv)
  | .mprobe _ _ => true
  | .xmit v _ => noLit [v.isLit]
  | .imux _ _ => true
  | .hbar grp => noLit [grp.isLit]
  | .hbarX f xp grp => f.consumes [grp.isLit] && f.plain (!xp)
  | .trgPost _ base => noLit [base.isLit]
  | .trgPostX f win imm _ base => f.consumes [base.isLit] && f.plain (win == .glob && imm == 0)
  | .trgInc ctr n => noLit [ctr.isLit, n.isLit]
  | .trgIncX f sc ctr n => f.consumes [ctr.isLit, n.isLit] && f.plain (sc == .thr)
  | .trgRd _ ctr => noLit [ctr.isLit]
  | .trgRdX f sc _ ctr => f.consumes [ctr.isLit] && f.plain (sc == .thr)
  | .trgCancel lit _ h => litConsumed lit [h.isLit]
  | .rdtime _ => true
  | .rderr _ => true
  | .evrd _ _ => true
  | .evclr _ => true
  | .evgath base => noLit [base.isLit]
  | .evgathX f imm base => f.consumes [base.isLit] && f.plain (imm == 0)
  | .crd _ _ => true
  | .cwr lit _ v => litConsumed lit [v.isLit]
  | .trap lit _ _ arg => litConsumed lit [arg.isLit]
  | .brk _ => true
  | .wfe _ => true
  | .idle => true
  | .vectorIssue _ => true
  | .fetchPortServe _ _ => true
  | .deferredLoadComplete _ _ => true
  | .logReplay _ _ => true
  | .recordPop _ => true
  | .stealSweep _ => true
  | .waitTimeout _ _ => true
  | .sleepWake _ _ => true
  | .realignTimeout _ _ => true
  | .torusWordLand _ _ => true
  | .gatherComplete _ => true
  | .messageSend _ _ => true
  | .messageArrival _ _ => true
  | .nakArrival _ _ => true
  | .deferredReceive _ _ => true
  | .parkedReplay _ _ => true
  | .mappingRejected _ _ _ => true
  | .serviceReply _ _ _ => true
  | .debuggerResume _ _ _ => true
  | .asyncTrap => true
  | .mldw _ => true
  | .mswap _ => true
  | .mmul _ => true
  | .mrot _ => true
  | .mepi _ => true
  | .mzero _ => true
  | .mred _ => true
  | .mracc _ => true
  | .mrfin _ => true
  | .msync _ => true
  | .harrowComplete _ => true
  | .harrowFault _ => true
  | .bankDrained _ => true
  | .rotationBankArrived _ => true
  | .rotationRowsLanded _ => true
  | .mredArrival _ => true
  | .drillJobStart _ => true
  | .drillChunk _ => true
  | .drillJobComplete _ => true
  | .drillJobFault _ => true
  | .triggerFire _ => true
  | .send _ => true
  | .recv _ => true
  | .rrs _ => true
  | .copy _ => true
  | .sowerWait _ => true
  | .put _ => true
  | .sowerAtom _ => true
  | .prog _ => true
  | .a2a _ => true
  | .progStepStart _ => true
  | .chunkStart _ => true
  | .stagingGrant _ => true
  | .chunkArrival _ _ _ => true
  | .putArrival _ _ _ => true
  | .sowerEntryComplete _ => true
  | .a2aForward _ _ _ _ => true
  | .communicatorFail _ => true
  | .failureNotice _ _ => true
  | .homeRead _ _ _ _ => true
  | .homeStore _ _ _ _ => true
  | .homeAtomic _ _ _ _ => true
  | .homeReduction _ _ _ _ _ _ => true
  | .mergeRequest _ => true
  | .mergeResponse _ => true
  | .partialDrain _ _ _ => true
  | .cacheEviction _ _ _ => true
  | .pageCounterClear _ => true
  | .releaseTokenAck _ => true
  | .acquireTokenReturn _ => true
  | .bisnpResponse _ _ => true
  | .hostRead _ _ _ => true
  | .hostWrite _ _ _ _ => true
  | .snpinv _ => true
  | .snpdata _ => true
  | .snpcur _ => true
  | .cxlCacheResponse _ _ _ => true
  | .shootdown _ _ _ => true
  | .launch _ => true
  | .cancel _ => true
  | .launchGrant _ _ => true
  | .launchSweep _ => true
  | .tlimitExpiry _ => true
  | .cqRecordWrite _ => true
  | .preempt _ => true
  | .resume _ _ => true
  | .epilogueStallTimeout _ => true
  | .strayWritePerformed _ => true
  | .doorbell _ _ => true
  | .qCtlWrite _ _ => true
  | .qCqheadWrite _ _ => true
  | .registerWrite _ _ _ => true
  | .clkFreqWrite _ _ _ => true
  | .lnkCtlWrite _ _ _ => true
  | .lnkCtlRead _ => true
  | .linkDrain _ => true
  | .linkQuiesce _ => true
  | .linkLock _ => true
  | .linkRetrain _ => true
  | .linkRelease _ => true
  | .laneError _ => true
  | .linkDown _ _ _ => true
  | .uncorrectableFlit _ _ _ => true
  | .lineRepair _ _ => true
  | .parityError _ _ => true
  | .patrolScrub _ _ _ => true
  | .rasRead _ => true
  | .portDown _ => true
  | .ptpMessage _ _ => true
  | .ptpHoldover _ => true
  | .ptpFreeRun => true
  | .stimeRefresh _ _ => true
  | .ckptGo _ _ => true
  | .ckptCut => true
  | .streamPage _ => true
  | .powerGood _ => true
  | .modeSTrap _ => true
  | .modeMTrap => true
  | .attestationRequest _ => true
  | .imageSupply _ => true
  | .fusedMinimumRaise => true
  | .translationRootSet _ _ _ => true
  | .coreRetire _ => true
  | .partitionModeSet _ => true
  | .thermalThrottleStep _ _ => true
  | .thermalTrip => true
  | .illegalOp w => illegalMajFn w
  | .ongeozPortDown _ => true
  | .ongeozPortUp _ => true
  | .hostPortUp _ => true
  | .communicatorCreate _ => true
  | .commandProcessorSignal _ => true

end Sys2Proof
end

