-- ==== Sys2Proof/Decode.lean ====
section
/-! DEFINITION. The decoder: from bytes to an instruction or a named refusal (R9 to R23, R30 to R35), and the encoder,
from the same tables. -/

namespace Sys2Proof

/-- Why bytes are no instruction: order 5 of R30, order 6 of R30, or too few bytes for the length LEN gives. -/
inductive DecodeError where
  | illegalOp | illegalOperand | truncated
  deriving DecidableEq, Repr

/-- The fields of words 1 and 2 (R12, R13); `rsv` is [16:12] of word 2. -/
structure Ext where
  scope : BitVec 3 := 0
  ord : BitVec 2 := 0
  win : BitVec 3 := 0
  imm : BitVec 24 := 0
  ef : BitVec 1 := 0
  dv : BitVec 1 := 0
  fa : BitVec 1 := 0
  chk : BitVec 1 := 0
  rnd : BitVec 3 := 0
  ty : BitVec 4 := 0
  men : BitVec 1 := 0
  msel : BitVec 3 := 0
  rsv : BitVec 5 := 0
  sub : BitVec 6 := 0
  d : BitVec 6 := 0
  deriving DecidableEq, Repr

/-- The fields of an instruction (R9, R10). -/
structure Raw where
  fn : BitVec 6
  c : BitVec 6
  b : BitVec 6
  a : BitVec 6
  maj : BitVec 6
  len : BitVec 2 := 0
  ext : Ext := {}
  lit : Word := 0
  deriving DecidableEq, Repr

/-- Word 0 of the fields (R9). -/
def Raw.word0 (r : Raw) : BitVec 32 := r.fn ++ r.c ++ r.b ++ r.a ++ r.maj ++ r.len

/-- The fields of a word 0 with nothing after it (R9). -/
def Raw.ofWord0 (w : BitVec 32) : Raw :=
  { fn := w.extractLsb' 26 6, c := w.extractLsb' 20 6, b := w.extractLsb' 14 6, a := w.extractLsb' 8 6,
    maj := w.extractLsb' 2 6, len := w.extractLsb' 0 2 }

/-- Word 1 (R12). -/
def Ext.word1 (e : Ext) : BitVec 32 := e.scope ++ e.ord ++ e.win ++ e.imm

/-- Word 2 (R13). -/
def Ext.word2 (e : Ext) : BitVec 32 :=
  e.ef ++ e.dv ++ e.fa ++ e.chk ++ e.rnd ++ e.ty ++ e.men ++ e.msel ++ e.rsv ++ e.sub ++ e.d

/-- The fields of words 1 and 2 (R12, R13). -/
def Ext.ofWords (w1 w2 : BitVec 32) : Ext :=
  { scope := w1.extractLsb' 29 3, ord := w1.extractLsb' 27 2, win := w1.extractLsb' 24 3, imm := w1.extractLsb' 0 24,
    ef := w2.extractLsb' 31 1, dv := w2.extractLsb' 30 1, fa := w2.extractLsb' 29 1, chk := w2.extractLsb' 28 1,
    rnd := w2.extractLsb' 25 3, ty := w2.extractLsb' 21 4, men := w2.extractLsb' 20 1, msel := w2.extractLsb' 17 3,
    rsv := w2.extractLsb' 12 5, sub := w2.extractLsb' 6 6, d := w2.extractLsb' 0 6 }

/-- The number of words LEN gives (R10). -/
def lenWords (len : BitVec 2) : Nat :=
  match len.toNat with
  | 0 => 1
  | 3 => 5
  | _ => 3

/-- The words of the fields in ascending address order (R10). -/
def Raw.words (r : Raw) : List (BitVec 32) :=
  match r.len.toNat with
  | 0 => [r.word0]
  | 1 => [r.word0, r.lit.extractLsb' 0 32, r.lit.extractLsb' 32 32]
  | 2 => [r.word0, r.ext.word1, r.ext.word2]
  | _ => [r.word0, r.ext.word1, r.ext.word2, r.lit.extractLsb' 0 32, r.lit.extractLsb' 32 32]

/-- The fields of words in ascending address order, none where LEN asks for more words (R10). -/
def Raw.ofWords (ws : List (BitVec 32)) : Option Raw :=
  match ws with
  | [] => none
  | w0 :: rest =>
    let r := Raw.ofWord0 w0
    match r.len.toNat, rest with
    | 0, _ => some r
    | 1, lo :: hi :: _ => some { r with lit := hi ++ lo }
    | 2, w1 :: w2 :: _ => some { r with ext := Ext.ofWords w1 w2 }
    | 3, w1 :: w2 :: lo :: hi :: _ => some { r with ext := Ext.ofWords w1 w2, lit := hi ++ lo }
    | _, _ => none

/-- The four bytes of a word, lowest address first (R5). -/
def wordBytes (w : BitVec 32) : List Byte :=
  [w.extractLsb' 0 8, w.extractLsb' 8 8, w.extractLsb' 16 8, w.extractLsb' 24 8]

/-- The whole words at the front of a list of bytes. -/
def bytesWords (bs : List Byte) : List (BitVec 32) :=
  match bs with
  | b0 :: b1 :: b2 :: b3 :: rest => (b3 ++ b2 ++ b1 ++ b0) :: bytesWords rest
  | _ => []

/-- The answer of a decoder. -/
abbrev Dec (α : Type) := Except DecodeError α

/-- A check of order 5 of R30. -/
def op5 (ok : Bool) : Dec Unit := if ok then .ok () else .error .illegalOp

/-- A field of order 5 of R30 that must name something. -/
def op5? (x : Option α) : Dec α :=
  match x with
  | some v => .ok v
  | none => .error .illegalOp

/-- A check of order 6 of R30. -/
def op6 (ok : Bool) : Dec Unit := if ok then .ok () else .error .illegalOperand

/-- An operand field, order 6 of R30. -/
def op6? (x : Option α) : Dec α :=
  match x with
  | some v => .ok v
  | none => .error .illegalOperand

/-- LEN must be one the form permits (order 5 of R30). -/
def lens (r : Raw) (l : List Nat) : Dec Unit := op5 (l.contains r.len.toNat)

/-- TYPE 0, or a TYPE 1 to 13 (R13). -/
def tyField (b : BitVec 4) : Dec (Option Ty) :=
  if b == 0 then .ok none else
  match Ty.ofCode b with
  | some t => .ok (some t)
  | none => .error .illegalOp

/-- A field that holds a plain number below `n` (R22, R23). -/
def finCode (n : Nat) (b : BitVec 6) : Option (Fin n) :=
  if h : b.toNat < n then some ⟨b.toNat, h⟩ else none

/-- Whether LEN brings a literal (R10). -/
def Raw.hasLit (r : Raw) : Bool := r.len.getLsbD 0

/-- The literal is consumed exactly when present (R20). -/
def litOk (r : Raw) (lits : List Bool) : Dec Unit := op6 (r.hasLit == lits.any id)

/-- The literal of a form, if LEN brings one. -/
def Raw.litOpt (r : Raw) : Option Word := if r.hasLit then some r.lit else none

/-- The form of an `_X` row; none is the 32-bit form. -/
def Raw.form (r : Raw) : Option Form :=
  match r.len.toNat with
  | 0 => none
  | 1 => some (.l r.lit)
  | 2 => some .x
  | _ => some (.xl r.lit)

/-- The operand of a symbol instruction: C = 41 with B the number, or C a register code with B = 0 (R93). -/
def symArg (r : Raw) : Dec SymArg :=
  if r.c == 41 then .ok (.num (Fin.ofNat 64 r.b.toNat)) else do
    op5 (r.b == 0)
    let n ← op6? (RegName.ofCode r.c)
    .ok (.reg n)

-- `Instr` has more constructors than Lean's runtime has object tags (245), so nothing that builds one compiles to code.
-- The definitions below are ordinary total functions that the kernel evaluates.
noncomputable section


/-- The fields of an instruction's words (R9 to R13); a step row and `illegalOp` have no fields of their own. -/
def Instr.raw (i : Instr) : Option Raw :=
  match i with
  | .trapz => some { maj := 0, fn := 0, a := 0, b := 0, c := 0 }
  | .add d x y => some { maj := 0x00, fn := 0, a := d.code, b := x.code, c := y.code }
  | .addX f ty d x y => some { maj := 0x00, fn := 0, a := d.code, b := x.code, c := y.code, len := f.len, lit := f.value, ext := { ty := tyCode ty } }
  | .sub d x y => some { maj := 0x00, fn := 1, a := d.code, b := x.code, c := y.code }
  | .subX f ty d x y => some { maj := 0x00, fn := 1, a := d.code, b := x.code, c := y.code, len := f.len, lit := f.value, ext := { ty := tyCode ty } }
  | .neg d x => some { maj := 0x00, fn := 2, a := d.code, b := x.code, c := 0 }
  | .negX f ty d x => some { maj := 0x00, fn := 2, a := d.code, b := x.code, c := 0, len := f.len, lit := f.value, ext := { ty := tyCode ty } }
  | .abs d x => some { maj := 0x00, fn := 3, a := d.code, b := x.code, c := 0 }
  | .absX f ty d x => some { maj := 0x00, fn := 3, a := d.code, b := x.code, c := 0, len := f.len, lit := f.value, ext := { ty := tyCode ty } }
  | .min d x y => some { maj := 0x00, fn := 4, a := d.code, b := x.code, c := y.code }
  | .minX f ty d x y => some { maj := 0x00, fn := 4, a := d.code, b := x.code, c := y.code, len := f.len, lit := f.value, ext := { ty := tyCode ty } }
  | .minz d x y => some { maj := 0x00, fn := 5, a := d.code, b := x.code, c := y.code }
  | .minzX f ty d x y => some { maj := 0x00, fn := 5, a := d.code, b := x.code, c := y.code, len := f.len, lit := f.value, ext := { ty := tyCode ty } }
  | .max d x y => some { maj := 0x00, fn := 6, a := d.code, b := x.code, c := y.code }
  | .maxX f ty d x y => some { maj := 0x00, fn := 6, a := d.code, b := x.code, c := y.code, len := f.len, lit := f.value, ext := { ty := tyCode ty } }
  | .maxz d x y => some { maj := 0x00, fn := 7, a := d.code, b := x.code, c := y.code }
  | .maxzX f ty d x y => some { maj := 0x00, fn := 7, a := d.code, b := x.code, c := y.code, len := f.len, lit := f.value, ext := { ty := tyCode ty } }
  | .lea d x y => some { maj := 0x00, fn := 8, a := d.code, b := x.code, c := y.code }
  | .leaX f d x y sh imm => some { maj := 0x00, fn := 8, a := d.code, b := x.code, c := y.code, len := f.len, lit := f.value, ext := { imm := imm, sub := sh.zeroExtend 6 } }
  | .mul d x y => some { maj := 0x01, fn := 0, a := d.code, b := x.code, c := y.code }
  | .mulX f ty d x y => some { maj := 0x01, fn := 0, a := d.code, b := x.code, c := y.code, len := f.len, lit := f.value, ext := { ty := tyCode ty } }
  | .mulh d x y => some { maj := 0x01, fn := 1, a := d.code, b := x.code, c := y.code }
  | .mulhX f ty d x y => some { maj := 0x01, fn := 1, a := d.code, b := x.code, c := y.code, len := f.len, lit := f.value, ext := { ty := tyCode ty } }
  | .mulhz d x y => some { maj := 0x01, fn := 2, a := d.code, b := x.code, c := y.code }
  | .mulhzX f ty d x y => some { maj := 0x01, fn := 2, a := d.code, b := x.code, c := y.code, len := f.len, lit := f.value, ext := { ty := tyCode ty } }
  | .div d x y => some { maj := 0x01, fn := 3, a := d.code, b := x.code, c := y.code }
  | .divX f ty d x y => some { maj := 0x01, fn := 3, a := d.code, b := x.code, c := y.code, len := f.len, lit := f.value, ext := { ty := tyCode ty } }
  | .divz d x y => some { maj := 0x01, fn := 4, a := d.code, b := x.code, c := y.code }
  | .divzX f ty d x y => some { maj := 0x01, fn := 4, a := d.code, b := x.code, c := y.code, len := f.len, lit := f.value, ext := { ty := tyCode ty } }
  | .rem d x y => some { maj := 0x01, fn := 5, a := d.code, b := x.code, c := y.code }
  | .remX f ty d x y => some { maj := 0x01, fn := 5, a := d.code, b := x.code, c := y.code, len := f.len, lit := f.value, ext := { ty := tyCode ty } }
  | .remz d x y => some { maj := 0x01, fn := 6, a := d.code, b := x.code, c := y.code }
  | .remzX f ty d x y => some { maj := 0x01, fn := 6, a := d.code, b := x.code, c := y.code, len := f.len, lit := f.value, ext := { ty := tyCode ty } }
  | .and d x y => some { maj := 0x02, fn := 0, a := d.code, b := x.code, c := y.code }
  | .andX f ty d x y => some { maj := 0x02, fn := 0, a := d.code, b := x.code, c := y.code, len := f.len, lit := f.value, ext := { ty := tyCode ty } }
  | .or d x y => some { maj := 0x02, fn := 1, a := d.code, b := x.code, c := y.code }
  | .orX f ty d x y => some { maj := 0x02, fn := 1, a := d.code, b := x.code, c := y.code, len := f.len, lit := f.value, ext := { ty := tyCode ty } }
  | .xor d x y => some { maj := 0x02, fn := 2, a := d.code, b := x.code, c := y.code }
  | .xorX f ty d x y => some { maj := 0x02, fn := 2, a := d.code, b := x.code, c := y.code, len := f.len, lit := f.value, ext := { ty := tyCode ty } }
  | .andn d x y => some { maj := 0x02, fn := 3, a := d.code, b := x.code, c := y.code }
  | .andnX f ty d x y => some { maj := 0x02, fn := 3, a := d.code, b := x.code, c := y.code, len := f.len, lit := f.value, ext := { ty := tyCode ty } }
  | .not d x => some { maj := 0x02, fn := 4, a := d.code, b := x.code, c := 0 }
  | .notX f ty d x => some { maj := 0x02, fn := 4, a := d.code, b := x.code, c := 0, len := f.len, lit := f.value, ext := { ty := tyCode ty } }
  | .shl d x y => some { maj := 0x03, fn := 0, a := d.code, b := x.code, c := y.code }
  | .shlX f ty d x y => some { maj := 0x03, fn := 0, a := d.code, b := x.code, c := y.code, len := f.len, lit := f.value, ext := { ty := tyCode ty } }
  | .shr d x y => some { maj := 0x03, fn := 1, a := d.code, b := x.code, c := y.code }
  | .shrX f ty d x y => some { maj := 0x03, fn := 1, a := d.code, b := x.code, c := y.code, len := f.len, lit := f.value, ext := { ty := tyCode ty } }
  | .sra d x y => some { maj := 0x03, fn := 2, a := d.code, b := x.code, c := y.code }
  | .sraX f ty d x y => some { maj := 0x03, fn := 2, a := d.code, b := x.code, c := y.code, len := f.len, lit := f.value, ext := { ty := tyCode ty } }
  | .rotl d x y => some { maj := 0x03, fn := 3, a := d.code, b := x.code, c := y.code }
  | .rotlX f ty d x y => some { maj := 0x03, fn := 3, a := d.code, b := x.code, c := y.code, len := f.len, lit := f.value, ext := { ty := tyCode ty } }
  | .clz d x => some { maj := 0x03, fn := 4, a := d.code, b := x.code, c := 0 }
  | .clzX f ty d x => some { maj := 0x03, fn := 4, a := d.code, b := x.code, c := 0, len := f.len, lit := f.value, ext := { ty := tyCode ty } }
  | .ctz d x => some { maj := 0x03, fn := 5, a := d.code, b := x.code, c := 0 }
  | .ctzX f ty d x => some { maj := 0x03, fn := 5, a := d.code, b := x.code, c := 0, len := f.len, lit := f.value, ext := { ty := tyCode ty } }
  | .popc d x => some { maj := 0x03, fn := 6, a := d.code, b := x.code, c := 0 }
  | .popcX f ty d x => some { maj := 0x03, fn := 6, a := d.code, b := x.code, c := 0, len := f.len, lit := f.value, ext := { ty := tyCode ty } }
  | .bext d x y => some { maj := 0x03, fn := 7, a := d.code, b := x.code, c := y.code }
  | .bextX f d x y => some { maj := 0x03, fn := 7, a := d.code, b := x.code, c := y.code, len := f.len, lit := f.value }
  | .bins d x y => some { maj := 0x03, fn := 8, a := d.code, b := x.code, c := y.code }
  | .binsX f d x y z => some { maj := 0x03, fn := 8, a := d.code, b := x.code, c := y.code, len := f.len, lit := f.value, ext := { d := z.code } }
  | .sext d x y => some { maj := 0x03, fn := 9, a := d.code, b := x.code, c := y.code }
  | .sextX f d x y => some { maj := 0x03, fn := 9, a := d.code, b := x.code, c := y.code, len := f.len, lit := f.value }
  | .zext d x y => some { maj := 0x03, fn := 10, a := d.code, b := x.code, c := y.code }
  | .zextX f d x y => some { maj := 0x03, fn := 10, a := d.code, b := x.code, c := y.code, len := f.len, lit := f.value }
  | .cmp cond d x y => some { maj := 0x04, fn := cond.code, a := d.code, b := x.code, c := y.code }
  | .cmpX f cond ty d x y => some { maj := 0x04, fn := cond.code, a := d.code, b := x.code, c := y.code, len := f.len, lit := f.value, ext := { ty := tyCode ty } }
  | .sel d x y => some { maj := 0x04, fn := 16, a := d.code, b := x.code, c := y.code }
  | .selX f d x y z => some { maj := 0x04, fn := 16, a := d.code, b := x.code, c := y.code, len := f.len, lit := f.value, ext := { d := z.code } }
  | .mov d x => some { maj := 0x04, fn := 17, a := d.code, b := x.code, c := 0 }
  | .movX f ty d x => some { maj := 0x04, fn := 17, a := d.code, b := x.code, c := 0, len := f.len, lit := f.value, ext := { ty := tyCode ty } }
  | .movl long d v => some { maj := 0x04, fn := 18, a := d.code, b := 0, c := 0, len := (if long then 3 else 1), lit := v }
  | .fadd d x y => some { maj := 0x10, fn := 0, a := d.code, b := x.code, c := y.code }
  | .faddX f ty rnd fa d x y => some { maj := 0x10, fn := 0, a := d.code, b := x.code, c := y.code, len := f.len, lit := f.value, ext := { ty := tyCode ty, rnd := rnd.code, fa := bit fa } }
  | .fsub d x y => some { maj := 0x10, fn := 1, a := d.code, b := x.code, c := y.code }
  | .fsubX f ty rnd fa d x y => some { maj := 0x10, fn := 1, a := d.code, b := x.code, c := y.code, len := f.len, lit := f.value, ext := { ty := tyCode ty, rnd := rnd.code, fa := bit fa } }
  | .fmul d x y => some { maj := 0x10, fn := 2, a := d.code, b := x.code, c := y.code }
  | .fmulX f ty rnd fa d x y => some { maj := 0x10, fn := 2, a := d.code, b := x.code, c := y.code, len := f.len, lit := f.value, ext := { ty := tyCode ty, rnd := rnd.code, fa := bit fa } }
  | .fma d x y => some { maj := 0x10, fn := 3, a := d.code, b := x.code, c := y.code }
  | .fmaX f ty rnd fa d x y z => some { maj := 0x10, fn := 3, a := d.code, b := x.code, c := y.code, len := f.len, lit := f.value, ext := { ty := tyCode ty, rnd := rnd.code, fa := bit fa, d := z.code } }
  | .fdiv d x y => some { maj := 0x10, fn := 4, a := d.code, b := x.code, c := y.code }
  | .fdivX f ty rnd d x y => some { maj := 0x10, fn := 4, a := d.code, b := x.code, c := y.code, len := f.len, lit := f.value, ext := { ty := tyCode ty, rnd := rnd.code } }
  | .fsqrt d x => some { maj := 0x10, fn := 5, a := d.code, b := x.code, c := 0 }
  | .fsqrtX f ty rnd d x => some { maj := 0x10, fn := 5, a := d.code, b := x.code, c := 0, len := f.len, lit := f.value, ext := { ty := tyCode ty, rnd := rnd.code } }
  | .fmin d x y => some { maj := 0x10, fn := 6, a := d.code, b := x.code, c := y.code }
  | .fminX f ty d x y => some { maj := 0x10, fn := 6, a := d.code, b := x.code, c := y.code, len := f.len, lit := f.value, ext := { ty := tyCode ty } }
  | .fmax d x y => some { maj := 0x10, fn := 7, a := d.code, b := x.code, c := y.code }
  | .fmaxX f ty d x y => some { maj := 0x10, fn := 7, a := d.code, b := x.code, c := y.code, len := f.len, lit := f.value, ext := { ty := tyCode ty } }
  | .fabs d x => some { maj := 0x10, fn := 8, a := d.code, b := x.code, c := 0 }
  | .fabsX f ty d x => some { maj := 0x10, fn := 8, a := d.code, b := x.code, c := 0, len := f.len, lit := f.value, ext := { ty := tyCode ty } }
  | .fneg d x => some { maj := 0x10, fn := 9, a := d.code, b := x.code, c := 0 }
  | .fnegX f ty d x => some { maj := 0x10, fn := 9, a := d.code, b := x.code, c := 0, len := f.len, lit := f.value, ext := { ty := tyCode ty } }
  | .fcmp cond d x y => some { maj := 0x11, fn := cond.code, a := d.code, b := x.code, c := y.code }
  | .fcmpX f cond ty d x y => some { maj := 0x11, fn := cond.code, a := d.code, b := x.code, c := y.code, len := f.len, lit := f.value, ext := { ty := tyCode ty } }
  | .fcvt lit dst src rnd d x => some { maj := 0x11, fn := 16, a := d.code, b := x.code, c := 0, len := litLenX lit, lit := litVal lit, ext := { ty := dst.code, sub := src.code.zeroExtend 6, rnd := rnd.code } }
  | .fcls d x => some { maj := 0x11, fn := 17, a := d.code, b := x.code, c := 0 }
  | .fclsX f ty d x => some { maj := 0x11, fn := 17, a := d.code, b := x.code, c := 0, len := f.len, lit := f.value, ext := { ty := tyCode ty } }
  | .symt d s => some { maj := 0x12, fn := 0, a := d.code, b := s.bCode, c := s.cCode }
  | .symtX d s => some { maj := 0x12, fn := 0, a := d.code, b := s.bCode, c := s.cCode, len := 2 }
  | .symw d s => some { maj := 0x12, fn := 1, a := d.code, b := s.bCode, c := s.cCode }
  | .symwX d s => some { maj := 0x12, fn := 1, a := d.code, b := s.bCode, c := s.cCode, len := 2 }
  | .symx d s => some { maj := 0x12, fn := 2, a := d.code, b := s.bCode, c := s.cCode }
  | .symxX d s => some { maj := 0x12, fn := 2, a := d.code, b := s.bCode, c := s.cCode, len := 2 }
  | .br off => some { maj := 0x18, fn := 0, a := off.extractLsb' 0 6, b := off.extractLsb' 6 6, c := off.extractLsb' 12 6 }
  | .brX imm => some { maj := 0x18, fn := 0, a := 0, b := 0, c := 0, len := 2, ext := { imm := imm } }
  | .bcmp lit cond ty x y imm => some { maj := 0x18, fn := 0x10 + cond.code, a := 0, b := x.code, c := y.code, len := litLenX lit, lit := litVal lit, ext := { ty := tyCode ty, imm := imm } }
  | .call off => some { maj := 0x19, fn := 0, a := off.extractLsb' 0 6, b := off.extractLsb' 6 6, c := off.extractLsb' 12 6 }
  | .callX imm => some { maj := 0x19, fn := 0, a := 0, b := 0, c := 0, len := 2, ext := { imm := imm } }
  | .ret => some { maj := 0x19, fn := 1, a := 0, b := 0, c := 0 }
  | .jtb lit tbl idx len imm label => some { maj := 0x19, fn := 2, a := tbl.code, b := idx.code, c := len.code, len := litLenX lit, lit := litVal lit, ext := { imm := imm, d := label.extractLsb' 0 6, sub := label.extractLsb' 6 6 } }
  | .jtc lit tbl idx len imm label => some { maj := 0x19, fn := 3, a := tbl.code, b := idx.code, c := len.code, len := litLenX lit, lit := litVal lit, ext := { imm := imm, d := label.extractLsb' 0 6, sub := label.extractLsb' 6 6 } }
  | .land label => some { maj := 0x19, fn := 4, a := 0, b := label.extractLsb' 0 6, c := label.extractLsb' 6 6 }
  | .loop x off => some { maj := 0x1A, fn := 0, a := x.code, b := off.extractLsb' 0 6, c := off.extractLsb' 6 6 }
  | .loopX x imm => some { maj := 0x1A, fn := 0, a := x.code, b := 0, c := 0, len := 2, ext := { imm := imm } }
  | .spillw => some { maj := 0x1A, fn := 1, a := 0, b := 0, c := 0 }
  | .fillw => some { maj := 0x1A, fn := 2, a := 0, b := 0, c := 0 }
  | .hret => some { maj := 0x1A, fn := 3, a := 0, b := 0, c := 0 }
  | .realign lit dist => some { maj := 0x1A, fn := 4, a := 0, b := dist.code, c := 0, len := litLen lit, lit := litVal lit }
  | .nop => some { maj := 0x1A, fn := 5, a := 0, b := 0, c := 0 }
  | .nopX => some { maj := 0x1A, fn := 5, a := 0, b := 0, c := 0, len := 2 }
  | .fin => some { maj := 0x1B, fn := 0, a := 0, b := 0, c := 0 }
  | .start d imm => some { maj := 0x1B, fn := 1, a := d.code, b := 0, c := 0, len := 2, ext := { imm := imm } }
  | .join d base => some { maj := 0x1B, fn := 2, a := d.code, b := base.code, c := 0 }
  | .joinX f d base imm => some { maj := 0x1B, fn := 2, a := d.code, b := base.code, c := 0, len := f.len, lit := f.value, ext := { imm := imm } }
  | .yield => some { maj := 0x1B, fn := 3, a := 0, b := 0, c := 0 }
  | .wait d base v => some { maj := 0x1B, fn := 4, a := d.code, b := base.code, c := v.code }
  | .waitX f sc win ty d base v imm => some { maj := 0x1B, fn := 4, a := d.code, b := base.code, c := v.code, len := f.len, lit := f.value, ext := { scope := sc.code, win := win.code, ty := tyCode ty, imm := imm } }
  | .ld t d base idx => some { maj := 0x20, fn := 0 + t.code.zeroExtend 6, a := d.code, b := base.code, c := idx.code }
  | .ldX f t win imm ef d base idx => some { maj := 0x20, fn := 0 + t.code.zeroExtend 6, a := d.code, b := base.code, c := idx.code, len := f.len, lit := f.value, ext := { win := win.code, imm := imm, ef := bit ef } }
  | .st t v base idx => some { maj := 0x20, fn := 8 + t.code.zeroExtend 6, a := v.code, b := base.code, c := idx.code }
  | .stX f t win imm ef v base idx => some { maj := 0x20, fn := 8 + t.code.zeroExtend 6, a := v.code, b := base.code, c := idx.code, len := f.len, lit := f.value, ext := { win := win.code, imm := imm, ef := bit ef } }
  | .ldd t d base idx => some { maj := 0x20, fn := 16 + t.code.zeroExtend 6, a := d.code, b := base.code, c := idx.code }
  | .lddX f t win imm ef d base idx => some { maj := 0x20, fn := 16 + t.code.zeroExtend 6, a := d.code, b := base.code, c := idx.code, len := f.len, lit := f.value, ext := { win := win.code, imm := imm, ef := bit ef } }
  | .ldacq lit t sc win imm ef d base idx => some { maj := 0x20, fn := 24 + t.code.zeroExtend 6, a := d.code, b := base.code, c := idx.code, len := litLenX lit, lit := litVal lit, ext := { scope := sc.code, win := win.code, imm := imm, ef := bit ef } }
  | .strel lit t sc win imm v base idx => some { maj := 0x20, fn := 32 + t.code.zeroExtend 6, a := v.code, b := base.code, c := idx.code, len := litLenX lit, lit := litVal lit, ext := { scope := sc.code, win := win.code, imm := imm } }
  | .lld t d base idx => some { maj := 0x20, fn := 40 + t.code.zeroExtend 6, a := d.code, b := base.code, c := idx.code }
  | .lldX f t win imm d base idx => some { maj := 0x20, fn := 40 + t.code.zeroExtend 6, a := d.code, b := base.code, c := idx.code, len := f.len, lit := f.value, ext := { win := win.code, imm := imm } }
  | .lst lit t win imm v base idx res => some { maj := 0x20, fn := 48 + t.code.zeroExtend 6, a := v.code, b := base.code, c := idx.code, len := litLenX lit, lit := litVal lit, ext := { win := win.code, imm := imm, d := res.code } }
  | .ldb t d base idx => some { maj := 0x21, fn := 0 + t.code.zeroExtend 6, a := d.code, b := base.code, c := idx.code }
  | .ldbX f t imm ef d base idx => some { maj := 0x21, fn := 0 + t.code.zeroExtend 6, a := d.code, b := base.code, c := idx.code, len := f.len, lit := f.value, ext := { imm := imm, ef := bit ef } }
  | .stb t v base idx => some { maj := 0x21, fn := 8 + t.code.zeroExtend 6, a := v.code, b := base.code, c := idx.code }
  | .stbX f t imm ef v base idx => some { maj := 0x21, fn := 8 + t.code.zeroExtend 6, a := v.code, b := base.code, c := idx.code, len := f.len, lit := f.value, ext := { imm := imm, ef := bit ef } }
  | .stsig lit sc win ty addf imm v base flag sig => some { maj := 0x22, fn := 0, a := v.code, b := base.code, c := flag.code, len := litLenX lit, lit := litVal lit, ext := { scope := sc.code, win := win.code, ty := tyCode ty, sub := if addf then 1 else 0, imm := imm, d := sig.code } }
  | .stg tag base => some { maj := 0x22, fn := 1, a := tag.code, b := base.code, c := 0 }
  | .stgX f n imm tag base => some { maj := 0x22, fn := 1, a := tag.code, b := base.code, c := 0, len := f.len, lit := f.value, ext := { imm := imm, sub := n } }
  | .ldg d base => some { maj := 0x22, fn := 2, a := d.code, b := base.code, c := 0 }
  | .ldgX f imm d base => some { maj := 0x22, fn := 2, a := d.code, b := base.code, c := 0, len := f.len, lit := f.value, ext := { imm := imm } }
  | .cbwaitF lit d h n => some { maj := 0x23, fn := 0, a := d.code, b := BitVec.ofNat 6 h.val, c := n.code, len := litLen lit, lit := litVal lit }
  | .cbwaitE lit d h n => some { maj := 0x23, fn := 1, a := d.code, b := BitVec.ofNat 6 h.val, c := n.code, len := litLen lit, lit := litVal lit }
  | .cbadvF lit h n => some { maj := 0x23, fn := 2, a := 0, b := BitVec.ofNat 6 h.val, c := n.code, len := litLen lit, lit := litVal lit }
  | .cbadvE lit h n => some { maj := 0x23, fn := 3, a := 0, b := BitVec.ofNat 6 h.val, c := n.code, len := litLen lit, lit := litVal lit }
  | .publ lit sc pair buf => some { maj := 0x24, fn := 0, a := 0, b := buf.code, c := 0, len := litLenX lit, lit := litVal lit, ext := { scope := sc.code, sub := if pair then 1 else 0 } }
  | .tdecl base shape => some { maj := 0x24, fn := 1, a := 0, b := base.code, c := shape.code }
  | .tdeclX f imm base shape => some { maj := 0x24, fn := 1, a := 0, b := base.code, c := shape.code, len := f.len, lit := f.value, ext := { imm := imm } }
  | .tfree base => some { maj := 0x24, fn := 2, a := 0, b := base.code, c := 0 }
  | .tfreeX f imm base => some { maj := 0x24, fn := 2, a := 0, b := base.code, c := 0, len := f.len, lit := f.value, ext := { imm := imm } }
  | .tfwd base rank => some { maj := 0x24, fn := 3, a := 0, b := base.code, c := rank.code }
  | .tfwdX f imm base rank => some { maj := 0x24, fn := 3, a := 0, b := base.code, c := rank.code, len := f.len, lit := f.value, ext := { imm := imm } }
  | .pref base idx => some { maj := 0x25, fn := 0, a := 0, b := base.code, c := idx.code }
  | .prefX f l2 imm base idx => some { maj := 0x25, fn := 0, a := 0, b := base.code, c := idx.code, len := f.len, lit := f.value, ext := { imm := imm, sub := if l2 then 1 else 0 } }
  | .evict base idx => some { maj := 0x25, fn := 1, a := 0, b := base.code, c := idx.code }
  | .evictX f imm base idx => some { maj := 0x25, fn := 1, a := 0, b := base.code, c := idx.code, len := f.len, lit := f.value, ext := { imm := imm } }
  | .pin lit ways d base len => some { maj := 0x25, fn := 2, a := d.code, b := base.code, c := len.code, len := litLenX lit, lit := litVal lit, ext := { sub := ways.zeroExtend 6 } }
  | .unpin lit idx => some { maj := 0x25, fn := 3, a := 0, b := idx.code, c := 0, len := litLen lit, lit := litVal lit }
  | .barinit base n => some { maj := 0x26, fn := 0, a := 0, b := base.code, c := n.code }
  | .barinitX f sc win imm base n => some { maj := 0x26, fn := 0, a := 0, b := base.code, c := n.code, len := f.len, lit := f.value, ext := { scope := sc.code, win := win.code, imm := imm } }
  | .barexp base n => some { maj := 0x26, fn := 1, a := 0, b := base.code, c := n.code }
  | .barexpX f win imm base n => some { maj := 0x26, fn := 1, a := 0, b := base.code, c := n.code, len := f.len, lit := f.value, ext := { win := win.code, imm := imm } }
  | .bararr d base n => some { maj := 0x26, fn := 2, a := d.code, b := base.code, c := n.code }
  | .bararrX f sc win imm d base n => some { maj := 0x26, fn := 2, a := d.code, b := base.code, c := n.code, len := f.len, lit := f.value, ext := { scope := sc.code, win := win.code, imm := imm } }
  | .barwait d base n => some { maj := 0x26, fn := 3, a := d.code, b := base.code, c := n.code }
  | .barwaitX f sc win chk imm d base n => some { maj := 0x26, fn := 3, a := d.code, b := base.code, c := n.code, len := f.len, lit := f.value, ext := { scope := sc.code, win := win.code, chk := bit chk, imm := imm } }
  | .atom op d base v => some { maj := 0x2C, fn := op.code, a := d.code, b := base.code, c := v.code }
  | .atomX f op sc ord win ty imm d base v e => some { maj := 0x2C, fn := op.code, a := d.code, b := base.code, c := v.code, len := f.len, lit := f.value, ext := { scope := sc.code, ord := ord.code, win := win.code, ty := tyCode ty, imm := imm, d := e.code } }
  | .red op base v => some { maj := 0x2D, fn := op.code, a := 0, b := base.code, c := v.code }
  | .redX f op sc rel win ty imm base v => some { maj := 0x2D, fn := op.code, a := 0, b := base.code, c := v.code, len := f.len, lit := f.value, ext := { scope := sc.code, ord := if rel then 2 else 0, win := win.code, ty := tyCode ty, imm := imm } }
  | .fence sc ord => some { maj := 0x2E, fn := 0, a := 0, b := 0, c := 0, len := 2, ext := { scope := sc.code, ord := ord.code } }
  | .isync => some { maj := 0x2E, fn := 1, a := 0, b := 0, c := 0 }
  | .vadd d x y => some { maj := 0x30, fn := 0, a := BitVec.ofNat 6 d.val, b := x.code, c := y.code }
  | .vaddX f ty rnd mk d x y => some { maj := 0x30, fn := 0, a := BitVec.ofNat 6 d.val, b := x.code, c := y.code, len := f.len, lit := f.value, ext := { ty := tyCode ty, rnd := rnd.code, men := mk.enBit, msel := mk.selBits } }
  | .vsub d x y => some { maj := 0x30, fn := 1, a := BitVec.ofNat 6 d.val, b := x.code, c := y.code }
  | .vsubX f ty rnd mk d x y => some { maj := 0x30, fn := 1, a := BitVec.ofNat 6 d.val, b := x.code, c := y.code, len := f.len, lit := f.value, ext := { ty := tyCode ty, rnd := rnd.code, men := mk.enBit, msel := mk.selBits } }
  | .vmul d x y => some { maj := 0x30, fn := 2, a := BitVec.ofNat 6 d.val, b := x.code, c := y.code }
  | .vmulX f ty rnd mk d x y => some { maj := 0x30, fn := 2, a := BitVec.ofNat 6 d.val, b := x.code, c := y.code, len := f.len, lit := f.value, ext := { ty := tyCode ty, rnd := rnd.code, men := mk.enBit, msel := mk.selBits } }
  | .vfma d x y => some { maj := 0x30, fn := 3, a := BitVec.ofNat 6 d.val, b := x.code, c := y.code }
  | .vfmaX f ty rnd mk d x y z => some { maj := 0x30, fn := 3, a := BitVec.ofNat 6 d.val, b := x.code, c := y.code, len := f.len, lit := f.value, ext := { ty := tyCode ty, rnd := rnd.code, men := mk.enBit, msel := mk.selBits, d := z.code } }
  | .vmin d x y => some { maj := 0x30, fn := 4, a := BitVec.ofNat 6 d.val, b := x.code, c := y.code }
  | .vminX f ty rnd mk d x y => some { maj := 0x30, fn := 4, a := BitVec.ofNat 6 d.val, b := x.code, c := y.code, len := f.len, lit := f.value, ext := { ty := tyCode ty, rnd := rnd.code, men := mk.enBit, msel := mk.selBits } }
  | .vmax d x y => some { maj := 0x30, fn := 5, a := BitVec.ofNat 6 d.val, b := x.code, c := y.code }
  | .vmaxX f ty rnd mk d x y => some { maj := 0x30, fn := 5, a := BitVec.ofNat 6 d.val, b := x.code, c := y.code, len := f.len, lit := f.value, ext := { ty := tyCode ty, rnd := rnd.code, men := mk.enBit, msel := mk.selBits } }
  | .vabs d x => some { maj := 0x30, fn := 6, a := BitVec.ofNat 6 d.val, b := x.code, c := 0 }
  | .vabsX f ty mk d x => some { maj := 0x30, fn := 6, a := BitVec.ofNat 6 d.val, b := x.code, c := 0, len := f.len, lit := f.value, ext := { ty := tyCode ty, men := mk.enBit, msel := mk.selBits } }
  | .vneg d x => some { maj := 0x30, fn := 7, a := BitVec.ofNat 6 d.val, b := x.code, c := 0 }
  | .vnegX f ty mk d x => some { maj := 0x30, fn := 7, a := BitVec.ofNat 6 d.val, b := x.code, c := 0, len := f.len, lit := f.value, ext := { ty := tyCode ty, men := mk.enBit, msel := mk.selBits } }
  | .vrcp d x => some { maj := 0x31, fn := 0, a := BitVec.ofNat 6 d.val, b := x.code, c := 0 }
  | .vrcpX f ty rnd mk d x => some { maj := 0x31, fn := 0, a := BitVec.ofNat 6 d.val, b := x.code, c := 0, len := f.len, lit := f.value, ext := { ty := tyCode ty, rnd := rnd.code, men := mk.enBit, msel := mk.selBits } }
  | .vrsq d x => some { maj := 0x31, fn := 1, a := BitVec.ofNat 6 d.val, b := x.code, c := 0 }
  | .vrsqX f ty rnd mk d x => some { maj := 0x31, fn := 1, a := BitVec.ofNat 6 d.val, b := x.code, c := 0, len := f.len, lit := f.value, ext := { ty := tyCode ty, rnd := rnd.code, men := mk.enBit, msel := mk.selBits } }
  | .vexp d x => some { maj := 0x31, fn := 2, a := BitVec.ofNat 6 d.val, b := x.code, c := 0 }
  | .vexpX f ty rnd mk d x => some { maj := 0x31, fn := 2, a := BitVec.ofNat 6 d.val, b := x.code, c := 0, len := f.len, lit := f.value, ext := { ty := tyCode ty, rnd := rnd.code, men := mk.enBit, msel := mk.selBits } }
  | .vlog d x => some { maj := 0x31, fn := 3, a := BitVec.ofNat 6 d.val, b := x.code, c := 0 }
  | .vlogX f ty rnd mk d x => some { maj := 0x31, fn := 3, a := BitVec.ofNat 6 d.val, b := x.code, c := 0, len := f.len, lit := f.value, ext := { ty := tyCode ty, rnd := rnd.code, men := mk.enBit, msel := mk.selBits } }
  | .vtanh d x => some { maj := 0x31, fn := 4, a := BitVec.ofNat 6 d.val, b := x.code, c := 0 }
  | .vtanhX f ty rnd mk d x => some { maj := 0x31, fn := 4, a := BitVec.ofNat 6 d.val, b := x.code, c := 0, len := f.len, lit := f.value, ext := { ty := tyCode ty, rnd := rnd.code, men := mk.enBit, msel := mk.selBits } }
  | .vcvt lit dst src part rnd mk d x => some { maj := 0x32, fn := 0, a := BitVec.ofNat 6 d.val, b := x.code, c := 0, len := litLenX lit, lit := litVal lit, ext := { ty := dst.code, sub := src.code.zeroExtend 6, imm := BitVec.ofNat 24 part.val, rnd := rnd.code, men := mk.enBit, msel := mk.selBits } }
  | .vquant d x y => some { maj := 0x32, fn := 1, a := BitVec.ofNat 6 d.val, b := x.code, c := y.code }
  | .vquantX f ty part rnd mk d x y => some { maj := 0x32, fn := 1, a := BitVec.ofNat 6 d.val, b := x.code, c := y.code, len := f.len, lit := f.value, ext := { ty := tyCode ty, imm := BitVec.ofNat 24 part.val, rnd := rnd.code, men := mk.enBit, msel := mk.selBits } }
  | .vdeq d x y => some { maj := 0x32, fn := 2, a := BitVec.ofNat 6 d.val, b := x.code, c := y.code }
  | .vdeqX f ty part rnd mk d x y => some { maj := 0x32, fn := 2, a := BitVec.ofNat 6 d.val, b := x.code, c := y.code, len := f.len, lit := f.value, ext := { ty := tyCode ty, imm := BitVec.ofNat 24 part.val, rnd := rnd.code, men := mk.enBit, msel := mk.selBits } }
  | .vcmp cond d x y => some { maj := 0x33, fn := cond.code, a := BitVec.ofNat 6 d.val, b := x.code, c := y.code }
  | .vcmpX f cond ty mk d x y => some { maj := 0x33, fn := cond.code, a := BitVec.ofNat 6 d.val, b := x.code, c := y.code, len := f.len, lit := f.value, ext := { ty := tyCode ty, men := mk.enBit, msel := mk.selBits } }
  | .vsel d m x => some { maj := 0x33, fn := 16, a := BitVec.ofNat 6 d.val, b := BitVec.ofNat 6 m.val, c := x.code }
  | .vselX f ty mk d m x y => some { maj := 0x33, fn := 16, a := BitVec.ofNat 6 d.val, b := BitVec.ofNat 6 m.val, c := x.code, len := f.len, lit := f.value, ext := { ty := tyCode ty, men := mk.enBit, msel := mk.selBits, d := y.code } }
  | .vand d x y => some { maj := 0x34, fn := 0, a := BitVec.ofNat 6 d.val, b := x.code, c := y.code }
  | .vandX f ty mk d x y => some { maj := 0x34, fn := 0, a := BitVec.ofNat 6 d.val, b := x.code, c := y.code, len := f.len, lit := f.value, ext := { ty := tyCode ty, men := mk.enBit, msel := mk.selBits } }
  | .vor d x y => some { maj := 0x34, fn := 1, a := BitVec.ofNat 6 d.val, b := x.code, c := y.code }
  | .vorX f ty mk d x y => some { maj := 0x34, fn := 1, a := BitVec.ofNat 6 d.val, b := x.code, c := y.code, len := f.len, lit := f.value, ext := { ty := tyCode ty, men := mk.enBit, msel := mk.selBits } }
  | .vxor d x y => some { maj := 0x34, fn := 2, a := BitVec.ofNat 6 d.val, b := x.code, c := y.code }
  | .vxorX f ty mk d x y => some { maj := 0x34, fn := 2, a := BitVec.ofNat 6 d.val, b := x.code, c := y.code, len := f.len, lit := f.value, ext := { ty := tyCode ty, men := mk.enBit, msel := mk.selBits } }
  | .vnot d x => some { maj := 0x34, fn := 3, a := BitVec.ofNat 6 d.val, b := x.code, c := 0 }
  | .vnotX f ty mk d x => some { maj := 0x34, fn := 3, a := BitVec.ofNat 6 d.val, b := x.code, c := 0, len := f.len, lit := f.value, ext := { ty := tyCode ty, men := mk.enBit, msel := mk.selBits } }
  | .vshl d x y => some { maj := 0x34, fn := 4, a := BitVec.ofNat 6 d.val, b := x.code, c := y.code }
  | .vshlX f ty mk d x y => some { maj := 0x34, fn := 4, a := BitVec.ofNat 6 d.val, b := x.code, c := y.code, len := f.len, lit := f.value, ext := { ty := tyCode ty, men := mk.enBit, msel := mk.selBits } }
  | .vshr d x y => some { maj := 0x34, fn := 5, a := BitVec.ofNat 6 d.val, b := x.code, c := y.code }
  | .vshrX f ty mk d x y => some { maj := 0x34, fn := 5, a := BitVec.ofNat 6 d.val, b := x.code, c := y.code, len := f.len, lit := f.value, ext := { ty := tyCode ty, men := mk.enBit, msel := mk.selBits } }
  | .vsra d x y => some { maj := 0x34, fn := 6, a := BitVec.ofNat 6 d.val, b := x.code, c := y.code }
  | .vsraX f ty mk d x y => some { maj := 0x34, fn := 6, a := BitVec.ofNat 6 d.val, b := x.code, c := y.code, len := f.len, lit := f.value, ext := { ty := tyCode ty, men := mk.enBit, msel := mk.selBits } }
  | .vperm d x y => some { maj := 0x35, fn := 0, a := BitVec.ofNat 6 d.val, b := BitVec.ofNat 6 x.val, c := BitVec.ofNat 6 y.val }
  | .vpermX ty mk d x y => some { maj := 0x35, fn := 0, a := BitVec.ofNat 6 d.val, b := BitVec.ofNat 6 x.val, c := BitVec.ofNat 6 y.val, len := 2, ext := { ty := tyCode ty, men := mk.enBit, msel := mk.selBits } }
  | .vbcast d x k => some { maj := 0x35, fn := 1, a := BitVec.ofNat 6 d.val, b := BitVec.ofNat 6 x.val, c := k.code }
  | .vbcastX f ty mk d x k => some { maj := 0x35, fn := 1, a := BitVec.ofNat 6 d.val, b := BitVec.ofNat 6 x.val, c := k.code, len := f.len, lit := f.value, ext := { ty := tyCode ty, men := mk.enBit, msel := mk.selBits } }
  | .vidx d x y => some { maj := 0x35, fn := 2, a := BitVec.ofNat 6 d.val, b := x.code, c := y.code }
  | .vidxX f ty mk d x y => some { maj := 0x35, fn := 2, a := BitVec.ofNat 6 d.val, b := x.code, c := y.code, len := f.len, lit := f.value, ext := { ty := tyCode ty, men := mk.enBit, msel := mk.selBits } }
  | .vmov d x => some { maj := 0x35, fn := 3, a := BitVec.ofNat 6 d.val, b := x.code, c := 0 }
  | .vmovX f ty mk d x => some { maj := 0x35, fn := 3, a := BitVec.ofNat 6 d.val, b := x.code, c := 0, len := f.len, lit := f.value, ext := { ty := tyCode ty, men := mk.enBit, msel := mk.selBits } }
  | .vins d x k => some { maj := 0x35, fn := 4, a := BitVec.ofNat 6 d.val, b := x.code, c := k.code }
  | .vinsX f ty d x k => some { maj := 0x35, fn := 4, a := BitVec.ofNat 6 d.val, b := x.code, c := k.code, len := f.len, lit := f.value, ext := { ty := tyCode ty } }
  | .vext d x k => some { maj := 0x35, fn := 5, a := d.code, b := BitVec.ofNat 6 x.val, c := k.code }
  | .vextX f ty d x k => some { maj := 0x35, fn := 5, a := d.code, b := BitVec.ofNat 6 x.val, c := k.code, len := f.len, lit := f.value, ext := { ty := tyCode ty } }
  | .vred op d x => some { maj := 0x36, fn := op.code, a := d.code, b := BitVec.ofNat 6 x.val, c := 0 }
  | .vredX ty rnd mk op d x => some { maj := 0x36, fn := op.code, a := d.code, b := BitVec.ofNat 6 x.val, c := 0, len := 2, ext := { ty := tyCode ty, rnd := rnd.code, men := mk.enBit, msel := mk.selBits } }
  | .vscan op d x => some { maj := 0x36, fn := op.code, a := BitVec.ofNat 6 d.val, b := BitVec.ofNat 6 x.val, c := 0 }
  | .vscanX ty rnd mk op d x => some { maj := 0x36, fn := op.code, a := BitVec.ofNat 6 d.val, b := BitVec.ofNat 6 x.val, c := 0, len := 2, ext := { ty := tyCode ty, rnd := rnd.code, men := mk.enBit, msel := mk.selBits } }
  | .vld d base idx => some { maj := 0x37, fn := 0, a := BitVec.ofNat 6 d.val, b := base.code, c := idx.code }
  | .vldX f win ty imm ef mk d base idx => some { maj := 0x37, fn := 0, a := BitVec.ofNat 6 d.val, b := base.code, c := idx.code, len := f.len, lit := f.value, ext := { win := win.code, ty := tyCode ty, imm := imm, ef := bit ef, men := mk.enBit, msel := mk.selBits } }
  | .vst d base idx => some { maj := 0x37, fn := 1, a := BitVec.ofNat 6 d.val, b := base.code, c := idx.code }
  | .vstX f win ty imm ef mk d base idx => some { maj := 0x37, fn := 1, a := BitVec.ofNat 6 d.val, b := base.code, c := idx.code, len := f.len, lit := f.value, ext := { win := win.code, ty := tyCode ty, imm := imm, ef := bit ef, men := mk.enBit, msel := mk.selBits } }
  | .vgth d base x => some { maj := 0x37, fn := 2, a := BitVec.ofNat 6 d.val, b := base.code, c := BitVec.ofNat 6 x.val }
  | .vgthX f win ty imm sh ef mk d base x => some { maj := 0x37, fn := 2, a := BitVec.ofNat 6 d.val, b := base.code, c := BitVec.ofNat 6 x.val, len := f.len, lit := f.value, ext := { win := win.code, ty := tyCode ty, imm := imm, sub := sh.zeroExtend 6, ef := bit ef, men := mk.enBit, msel := mk.selBits } }
  | .vsct d base x => some { maj := 0x37, fn := 3, a := BitVec.ofNat 6 d.val, b := base.code, c := BitVec.ofNat 6 x.val }
  | .vsctX f win ty imm sh ef mk d base x => some { maj := 0x37, fn := 3, a := BitVec.ofNat 6 d.val, b := base.code, c := BitVec.ofNat 6 x.val, len := f.len, lit := f.value, ext := { win := win.code, ty := tyCode ty, imm := imm, sub := sh.zeroExtend 6, ef := bit ef, men := mk.enBit, msel := mk.selBits } }
  | .mand d x y => some { maj := 0x38, fn := 0, a := BitVec.ofNat 6 d.val, b := BitVec.ofNat 6 x.val, c := BitVec.ofNat 6 y.val }
  | .mor d x y => some { maj := 0x38, fn := 1, a := BitVec.ofNat 6 d.val, b := BitVec.ofNat 6 x.val, c := BitVec.ofNat 6 y.val }
  | .mxor d x y => some { maj := 0x38, fn := 2, a := BitVec.ofNat 6 d.val, b := BitVec.ofNat 6 x.val, c := BitVec.ofNat 6 y.val }
  | .mnot d x => some { maj := 0x38, fn := 3, a := BitVec.ofNat 6 d.val, b := BitVec.ofNat 6 x.val, c := 0 }
  | .mpop d x => some { maj := 0x38, fn := 4, a := d.code, b := BitVec.ofNat 6 x.val, c := 0 }
  | .mpopX ty d x => some { maj := 0x38, fn := 4, a := d.code, b := BitVec.ofNat 6 x.val, c := 0, len := 2, ext := { ty := tyCode ty } }
  | .mcmd d base idx => some { maj := 0x3C, fn := 0, a := d.code, b := base.code, c := idx.code }
  | .mcmdX f win imm d base idx => some { maj := 0x3C, fn := 0, a := d.code, b := base.code, c := idx.code, len := f.len, lit := f.value, ext := { win := win.code, imm := imm } }
  | .mqry lit d q => some { maj := 0x3C, fn := 1, a := d.code, b := q.code, c := 0, len := litLen lit, lit := litVal lit }
  | .djob d base => some { maj := 0x3D, fn := 0, a := d.code, b := base.code, c := 0 }
  | .djobX f win imm d base => some { maj := 0x3D, fn := 0, a := d.code, b := base.code, c := 0, len := f.len, lit := f.value, ext := { win := win.code, imm := imm } }
  | .rbind d base range => some { maj := 0x3D, fn := 1, a := d.code, b := base.code, c := range.code }
  | .rbindX f win imm d base range => some { maj := 0x3D, fn := 1, a := d.code, b := base.code, c := range.code, len := f.len, lit := f.value, ext := { win := win.code, imm := imm } }
  | .rfree lit idx => some { maj := 0x3D, fn := 2, a := 0, b := idx.code, c := 0, len := litLen lit, lit := litVal lit }
  | .msend base ch => some { maj := 0x3D, fn := 3, a := 0, b := base.code, c := BitVec.ofNat 6 ch.val }
  | .msendX f sc win imm chk base ch => some { maj := 0x3D, fn := 3, a := 0, b := base.code, c := BitVec.ofNat 6 ch.val, len := f.len, lit := f.value, ext := { scope := sc.code, win := win.code, imm := imm, chk := bit chk } }
  | .mrecv d base ch => some { maj := 0x3D, fn := 4, a := d.code, b := base.code, c := BitVec.ofNat 6 ch.val }
  | .mrecvX f sc win imm dv d base ch => some { maj := 0x3D, fn := 4, a := d.code, b := base.code, c := BitVec.ofNat 6 ch.val, len := f.len, lit := f.value, ext := { scope := sc.code, win := win.code, imm := imm, dv := bit dv } }
  | .mprobe d ch => some { maj := 0x3D, fn := 5, a := d.code, b := 0, c := BitVec.ofNat 6 ch.val }
  | .xmit v dir => some { maj := 0x3D, fn := 6, a := 0, b := v.code, c := BitVec.ofNat 6 dir.val }
  | .imux d dir => some { maj := 0x3D, fn := 7, a := d.code, b := 0, c := BitVec.ofNat 6 dir.val }
  | .hbar grp => some { maj := 0x3D, fn := 8, a := 0, b := grp.code, c := 0 }
  | .hbarX f xp grp => some { maj := 0x3D, fn := 8, a := 0, b := grp.code, c := 0, len := f.len, lit := f.value, ext := { sub := if xp then 1 else 0 } }
  | .trgPost d base => some { maj := 0x3E, fn := 0, a := d.code, b := base.code, c := 0 }
  | .trgPostX f win imm d base => some { maj := 0x3E, fn := 0, a := d.code, b := base.code, c := 0, len := f.len, lit := f.value, ext := { win := win.code, imm := imm } }
  | .trgInc ctr n => some { maj := 0x3E, fn := 1, a := 0, b := ctr.code, c := n.code }
  | .trgIncX f sc ctr n => some { maj := 0x3E, fn := 1, a := 0, b := ctr.code, c := n.code, len := f.len, lit := f.value, ext := { scope := sc.code } }
  | .trgRd d ctr => some { maj := 0x3E, fn := 2, a := d.code, b := ctr.code, c := 0 }
  | .trgRdX f sc d ctr => some { maj := 0x3E, fn := 2, a := d.code, b := ctr.code, c := 0, len := f.len, lit := f.value, ext := { scope := sc.code } }
  | .trgCancel lit d h => some { maj := 0x3E, fn := 3, a := d.code, b := h.code, c := 0, len := litLen lit, lit := litVal lit }
  | .rdtime d => some { maj := 0x3E, fn := 4, a := d.code, b := 0, c := 0 }
  | .rderr d => some { maj := 0x3E, fn := 5, a := d.code, b := 0, c := 0 }
  | .evrd d k => some { maj := 0x3E, fn := 6, a := d.code, b := BitVec.ofNat 6 k.val, c := 0 }
  | .evclr k => some { maj := 0x3E, fn := 7, a := 0, b := BitVec.ofNat 6 k.val, c := 0 }
  | .evgath base => some { maj := 0x3E, fn := 8, a := 0, b := base.code, c := 0 }
  | .evgathX f imm base => some { maj := 0x3E, fn := 8, a := 0, b := base.code, c := 0, len := f.len, lit := f.value, ext := { imm := imm } }
  | .crd d r => some { maj := 0x3F, fn := 0, a := d.code, b := 0, c := 0, len := 2, ext := { imm := r.number } }
  | .cwr lit r v => some { maj := 0x3F, fn := 1, a := 0, b := v.code, c := 0, len := litLenX lit, lit := litVal lit, ext := { imm := r.number } }
  | .trap lit d svc arg => some { maj := 0x3F, fn := 2, a := d.code, b := arg.code, c := 0, len := litLenX lit, lit := litVal lit, ext := { imm := svc.zeroExtend 24 } }
  | .brk code => some { maj := 0x3F, fn := 3, a := 0, b := code.extractLsb' 0 6, c := code.extractLsb' 6 6 }
  | .wfe d => some { maj := 0x3F, fn := 4, a := d.code, b := 0, c := 0 }
  | .idle => some { maj := 0x3F, fn := 5, a := 0, b := 0, c := 0 }
  | .vectorIssue _ => none
  | .fetchPortServe _ _ => none
  | .deferredLoadComplete _ _ => none
  | .logReplay _ _ => none
  | .recordPop _ => none
  | .stealSweep _ => none
  | .waitTimeout _ _ => none
  | .sleepWake _ _ => none
  | .realignTimeout _ _ => none
  | .torusWordLand _ _ => none
  | .gatherComplete _ => none
  | .messageSend _ _ => none
  | .messageArrival _ _ => none
  | .nakArrival _ _ => none
  | .deferredReceive _ _ => none
  | .parkedReplay _ _ => none
  | .mappingRejected _ _ _ => none
  | .serviceReply _ _ _ => none
  | .debuggerResume _ _ _ => none
  | .asyncTrap => none
  | .mldw _ => none
  | .mswap _ => none
  | .mmul _ => none
  | .mrot _ => none
  | .mepi _ => none
  | .mzero _ => none
  | .mred _ => none
  | .mracc _ => none
  | .mrfin _ => none
  | .msync _ => none
  | .harrowComplete _ => none
  | .harrowFault _ => none
  | .bankDrained _ => none
  | .rotationBankArrived _ => none
  | .rotationRowsLanded _ => none
  | .mredArrival _ => none
  | .drillJobStart _ => none
  | .drillChunk _ => none
  | .drillJobComplete _ => none
  | .drillJobFault _ => none
  | .triggerFire _ => none
  | .send _ => none
  | .recv _ => none
  | .rrs _ => none
  | .copy _ => none
  | .sowerWait _ => none
  | .put _ => none
  | .sowerAtom _ => none
  | .prog _ => none
  | .a2a _ => none
  | .progStepStart _ => none
  | .chunkStart _ => none
  | .stagingGrant _ => none
  | .chunkArrival _ _ _ => none
  | .putArrival _ _ _ => none
  | .sowerEntryComplete _ => none
  | .a2aForward _ _ _ _ => none
  | .communicatorFail _ => none
  | .failureNotice _ _ => none
  | .homeRead _ _ _ _ => none
  | .homeStore _ _ _ _ => none
  | .homeAtomic _ _ _ _ => none
  | .homeReduction _ _ _ _ _ _ => none
  | .mergeRequest _ => none
  | .mergeResponse _ => none
  | .partialDrain _ _ _ => none
  | .cacheEviction _ _ _ => none
  | .pageCounterClear _ => none
  | .releaseTokenAck _ => none
  | .acquireTokenReturn _ => none
  | .bisnpResponse _ _ => none
  | .hostRead _ _ _ => none
  | .hostWrite _ _ _ _ => none
  | .snpinv _ => none
  | .snpdata _ => none
  | .snpcur _ => none
  | .cxlCacheResponse _ _ _ => none
  | .shootdown _ _ _ => none
  | .launch _ => none
  | .cancel _ => none
  | .launchGrant _ _ => none
  | .launchSweep _ => none
  | .tlimitExpiry _ => none
  | .cqRecordWrite _ => none
  | .preempt _ => none
  | .resume _ _ => none
  | .epilogueStallTimeout _ => none
  | .strayWritePerformed _ => none
  | .doorbell _ _ => none
  | .qCtlWrite _ _ => none
  | .qCqheadWrite _ _ => none
  | .registerWrite _ _ _ => none
  | .clkFreqWrite _ _ _ => none
  | .lnkCtlWrite _ _ _ => none
  | .lnkCtlRead _ => none
  | .linkDrain _ => none
  | .linkQuiesce _ => none
  | .linkLock _ => none
  | .linkRetrain _ => none
  | .linkRelease _ => none
  | .laneError _ => none
  | .linkDown _ _ _ => none
  | .uncorrectableFlit _ _ _ => none
  | .lineRepair _ _ => none
  | .parityError _ _ => none
  | .patrolScrub _ _ _ => none
  | .rasRead _ => none
  | .portDown _ => none
  | .ptpMessage _ _ => none
  | .ptpHoldover _ => none
  | .ptpFreeRun => none
  | .stimeRefresh _ _ => none
  | .ckptGo _ _ => none
  | .ckptCut => none
  | .streamPage _ => none
  | .powerGood _ => none
  | .modeSTrap _ => none
  | .modeMTrap => none
  | .attestationRequest _ => none
  | .imageSupply _ => none
  | .fusedMinimumRaise => none
  | .translationRootSet _ _ _ => none
  | .coreRetire _ => none
  | .partitionModeSet _ => none
  | .thermalThrottleStep _ _ => none
  | .thermalTrip => none
  | .illegalOp _ => none
  | .ongeozPortDown _ => none
  | .ongeozPortUp _ => none
  | .hostPortUp _ => none
  | .communicatorCreate _ => none
  | .commandProcessorSignal _ => none

/-- Decodes `ADD`. -/
def decAdd (r : Raw) : Dec Instr := do
  lens r [0, 1, 2, 3]
  let ty ← tyField r.ext.ty
  op5 (r.ext == { ty := tyCode ty } && tyInt ty)
  let d ← op6? (Dst.ofCode r.a)
  let x ← op6? (Src.ofCode r.b)
  let y ← op6? (Src.ofCode r.c)
  litOk r [x.isLit, y.isLit]
  match r.form with
  | none => .ok (.add d x y)
  | some f => .ok (.addX f ty d x y)

/-- Decodes `SUB`. -/
def decSub (r : Raw) : Dec Instr := do
  lens r [0, 1, 2, 3]
  let ty ← tyField r.ext.ty
  op5 (r.ext == { ty := tyCode ty } && tyInt ty)
  let d ← op6? (Dst.ofCode r.a)
  let x ← op6? (Src.ofCode r.b)
  let y ← op6? (Src.ofCode r.c)
  litOk r [x.isLit, y.isLit]
  match r.form with
  | none => .ok (.sub d x y)
  | some f => .ok (.subX f ty d x y)

/-- Decodes `NEG`. -/
def decNeg (r : Raw) : Dec Instr := do
  lens r [0, 1, 2, 3]
  let ty ← tyField r.ext.ty
  op5 (r.ext == { ty := tyCode ty } && r.c == 0 && tyInt ty)
  let d ← op6? (Dst.ofCode r.a)
  let x ← op6? (Src.ofCode r.b)
  litOk r [x.isLit]
  match r.form with
  | none => .ok (.neg d x)
  | some f => .ok (.negX f ty d x)

/-- Decodes `ABS`. -/
def decAbs (r : Raw) : Dec Instr := do
  lens r [0, 1, 2, 3]
  let ty ← tyField r.ext.ty
  op5 (r.ext == { ty := tyCode ty } && r.c == 0 && tyInt ty)
  let d ← op6? (Dst.ofCode r.a)
  let x ← op6? (Src.ofCode r.b)
  litOk r [x.isLit]
  match r.form with
  | none => .ok (.abs d x)
  | some f => .ok (.absX f ty d x)

/-- Decodes `MIN`. -/
def decMin (r : Raw) : Dec Instr := do
  lens r [0, 1, 2, 3]
  let ty ← tyField r.ext.ty
  op5 (r.ext == { ty := tyCode ty } && tyInt ty)
  let d ← op6? (Dst.ofCode r.a)
  let x ← op6? (Src.ofCode r.b)
  let y ← op6? (Src.ofCode r.c)
  litOk r [x.isLit, y.isLit]
  match r.form with
  | none => .ok (.min d x y)
  | some f => .ok (.minX f ty d x y)

/-- Decodes `MINZ`. -/
def decMinz (r : Raw) : Dec Instr := do
  lens r [0, 1, 2, 3]
  let ty ← tyField r.ext.ty
  op5 (r.ext == { ty := tyCode ty } && tyInt ty)
  let d ← op6? (Dst.ofCode r.a)
  let x ← op6? (Src.ofCode r.b)
  let y ← op6? (Src.ofCode r.c)
  litOk r [x.isLit, y.isLit]
  match r.form with
  | none => .ok (.minz d x y)
  | some f => .ok (.minzX f ty d x y)

/-- Decodes `MAX`. -/
def decMax (r : Raw) : Dec Instr := do
  lens r [0, 1, 2, 3]
  let ty ← tyField r.ext.ty
  op5 (r.ext == { ty := tyCode ty } && tyInt ty)
  let d ← op6? (Dst.ofCode r.a)
  let x ← op6? (Src.ofCode r.b)
  let y ← op6? (Src.ofCode r.c)
  litOk r [x.isLit, y.isLit]
  match r.form with
  | none => .ok (.max d x y)
  | some f => .ok (.maxX f ty d x y)

/-- Decodes `MAXZ`. -/
def decMaxz (r : Raw) : Dec Instr := do
  lens r [0, 1, 2, 3]
  let ty ← tyField r.ext.ty
  op5 (r.ext == { ty := tyCode ty } && tyInt ty)
  let d ← op6? (Dst.ofCode r.a)
  let x ← op6? (Src.ofCode r.b)
  let y ← op6? (Src.ofCode r.c)
  litOk r [x.isLit, y.isLit]
  match r.form with
  | none => .ok (.maxz d x y)
  | some f => .ok (.maxzX f ty d x y)

/-- Decodes `LEA`. -/
def decLea (r : Raw) : Dec Instr := do
  lens r [0, 1, 2, 3]
  let imm := r.ext.imm
  let sh := r.ext.sub.setWidth 3
  op5 (r.ext == { imm := imm, sub := sh.zeroExtend 6 })
  let d ← op6? (Dst.ofCode r.a)
  let x ← op6? (Src.ofCode r.b)
  let y ← op6? (Src.ofCode r.c)
  litOk r [x.isLit, y.isLit]
  match r.form with
  | none => .ok (.lea d x y)
  | some f => .ok (.leaX f d x y sh imm)

/-- Decodes `MUL`. -/
def decMul (r : Raw) : Dec Instr := do
  lens r [0, 1, 2, 3]
  let ty ← tyField r.ext.ty
  op5 (r.ext == { ty := tyCode ty } && tyInt ty)
  let d ← op6? (Dst.ofCode r.a)
  let x ← op6? (Src.ofCode r.b)
  let y ← op6? (Src.ofCode r.c)
  litOk r [x.isLit, y.isLit]
  match r.form with
  | none => .ok (.mul d x y)
  | some f => .ok (.mulX f ty d x y)

/-- Decodes `MULH`. -/
def decMulh (r : Raw) : Dec Instr := do
  lens r [0, 1, 2, 3]
  let ty ← tyField r.ext.ty
  op5 (r.ext == { ty := tyCode ty } && tyInt ty)
  let d ← op6? (Dst.ofCode r.a)
  let x ← op6? (Src.ofCode r.b)
  let y ← op6? (Src.ofCode r.c)
  litOk r [x.isLit, y.isLit]
  match r.form with
  | none => .ok (.mulh d x y)
  | some f => .ok (.mulhX f ty d x y)

/-- Decodes `MULHZ`. -/
def decMulhz (r : Raw) : Dec Instr := do
  lens r [0, 1, 2, 3]
  let ty ← tyField r.ext.ty
  op5 (r.ext == { ty := tyCode ty } && tyInt ty)
  let d ← op6? (Dst.ofCode r.a)
  let x ← op6? (Src.ofCode r.b)
  let y ← op6? (Src.ofCode r.c)
  litOk r [x.isLit, y.isLit]
  match r.form with
  | none => .ok (.mulhz d x y)
  | some f => .ok (.mulhzX f ty d x y)

/-- Decodes `DIV`. -/
def decDiv (r : Raw) : Dec Instr := do
  lens r [0, 1, 2, 3]
  let ty ← tyField r.ext.ty
  op5 (r.ext == { ty := tyCode ty } && tyInt ty)
  let d ← op6? (Dst.ofCode r.a)
  let x ← op6? (Src.ofCode r.b)
  let y ← op6? (Src.ofCode r.c)
  litOk r [x.isLit, y.isLit]
  match r.form with
  | none => .ok (.div d x y)
  | some f => .ok (.divX f ty d x y)

/-- Decodes `DIVZ`. -/
def decDivz (r : Raw) : Dec Instr := do
  lens r [0, 1, 2, 3]
  let ty ← tyField r.ext.ty
  op5 (r.ext == { ty := tyCode ty } && tyInt ty)
  let d ← op6? (Dst.ofCode r.a)
  let x ← op6? (Src.ofCode r.b)
  let y ← op6? (Src.ofCode r.c)
  litOk r [x.isLit, y.isLit]
  match r.form with
  | none => .ok (.divz d x y)
  | some f => .ok (.divzX f ty d x y)

/-- Decodes `REM`. -/
def decRem (r : Raw) : Dec Instr := do
  lens r [0, 1, 2, 3]
  let ty ← tyField r.ext.ty
  op5 (r.ext == { ty := tyCode ty } && tyInt ty)
  let d ← op6? (Dst.ofCode r.a)
  let x ← op6? (Src.ofCode r.b)
  let y ← op6? (Src.ofCode r.c)
  litOk r [x.isLit, y.isLit]
  match r.form with
  | none => .ok (.rem d x y)
  | some f => .ok (.remX f ty d x y)

/-- Decodes `REMZ`. -/
def decRemz (r : Raw) : Dec Instr := do
  lens r [0, 1, 2, 3]
  let ty ← tyField r.ext.ty
  op5 (r.ext == { ty := tyCode ty } && tyInt ty)
  let d ← op6? (Dst.ofCode r.a)
  let x ← op6? (Src.ofCode r.b)
  let y ← op6? (Src.ofCode r.c)
  litOk r [x.isLit, y.isLit]
  match r.form with
  | none => .ok (.remz d x y)
  | some f => .ok (.remzX f ty d x y)

/-- Decodes `AND`. -/
def decAnd (r : Raw) : Dec Instr := do
  lens r [0, 1, 2, 3]
  let ty ← tyField r.ext.ty
  op5 (r.ext == { ty := tyCode ty } && tyInt ty)
  let d ← op6? (Dst.ofCode r.a)
  let x ← op6? (Src.ofCode r.b)
  let y ← op6? (Src.ofCode r.c)
  litOk r [x.isLit, y.isLit]
  match r.form with
  | none => .ok (.and d x y)
  | some f => .ok (.andX f ty d x y)

/-- Decodes `OR`. -/
def decOr (r : Raw) : Dec Instr := do
  lens r [0, 1, 2, 3]
  let ty ← tyField r.ext.ty
  op5 (r.ext == { ty := tyCode ty } && tyInt ty)
  let d ← op6? (Dst.ofCode r.a)
  let x ← op6? (Src.ofCode r.b)
  let y ← op6? (Src.ofCode r.c)
  litOk r [x.isLit, y.isLit]
  match r.form with
  | none => .ok (.or d x y)
  | some f => .ok (.orX f ty d x y)

/-- Decodes `XOR`. -/
def decXor (r : Raw) : Dec Instr := do
  lens r [0, 1, 2, 3]
  let ty ← tyField r.ext.ty
  op5 (r.ext == { ty := tyCode ty } && tyInt ty)
  let d ← op6? (Dst.ofCode r.a)
  let x ← op6? (Src.ofCode r.b)
  let y ← op6? (Src.ofCode r.c)
  litOk r [x.isLit, y.isLit]
  match r.form with
  | none => .ok (.xor d x y)
  | some f => .ok (.xorX f ty d x y)

/-- Decodes `ANDN`. -/
def decAndn (r : Raw) : Dec Instr := do
  lens r [0, 1, 2, 3]
  let ty ← tyField r.ext.ty
  op5 (r.ext == { ty := tyCode ty } && tyInt ty)
  let d ← op6? (Dst.ofCode r.a)
  let x ← op6? (Src.ofCode r.b)
  let y ← op6? (Src.ofCode r.c)
  litOk r [x.isLit, y.isLit]
  match r.form with
  | none => .ok (.andn d x y)
  | some f => .ok (.andnX f ty d x y)

/-- Decodes `NOT`. -/
def decNot (r : Raw) : Dec Instr := do
  lens r [0, 1, 2, 3]
  let ty ← tyField r.ext.ty
  op5 (r.ext == { ty := tyCode ty } && r.c == 0 && tyInt ty)
  let d ← op6? (Dst.ofCode r.a)
  let x ← op6? (Src.ofCode r.b)
  litOk r [x.isLit]
  match r.form with
  | none => .ok (.not d x)
  | some f => .ok (.notX f ty d x)

/-- Decodes `SHL`. -/
def decShl (r : Raw) : Dec Instr := do
  lens r [0, 1, 2, 3]
  let ty ← tyField r.ext.ty
  op5 (r.ext == { ty := tyCode ty } && tyInt ty)
  let d ← op6? (Dst.ofCode r.a)
  let x ← op6? (Src.ofCode r.b)
  let y ← op6? (Src.ofCode r.c)
  litOk r [x.isLit, y.isLit]
  match r.form with
  | none => .ok (.shl d x y)
  | some f => .ok (.shlX f ty d x y)

/-- Decodes `SHR`. -/
def decShr (r : Raw) : Dec Instr := do
  lens r [0, 1, 2, 3]
  let ty ← tyField r.ext.ty
  op5 (r.ext == { ty := tyCode ty } && tyInt ty)
  let d ← op6? (Dst.ofCode r.a)
  let x ← op6? (Src.ofCode r.b)
  let y ← op6? (Src.ofCode r.c)
  litOk r [x.isLit, y.isLit]
  match r.form with
  | none => .ok (.shr d x y)
  | some f => .ok (.shrX f ty d x y)

/-- Decodes `SRA`. -/
def decSra (r : Raw) : Dec Instr := do
  lens r [0, 1, 2, 3]
  let ty ← tyField r.ext.ty
  op5 (r.ext == { ty := tyCode ty } && tyInt ty)
  let d ← op6? (Dst.ofCode r.a)
  let x ← op6? (Src.ofCode r.b)
  let y ← op6? (Src.ofCode r.c)
  litOk r [x.isLit, y.isLit]
  match r.form with
  | none => .ok (.sra d x y)
  | some f => .ok (.sraX f ty d x y)

/-- Decodes `ROTL`. -/
def decRotl (r : Raw) : Dec Instr := do
  lens r [0, 1, 2, 3]
  let ty ← tyField r.ext.ty
  op5 (r.ext == { ty := tyCode ty } && tyInt ty)
  let d ← op6? (Dst.ofCode r.a)
  let x ← op6? (Src.ofCode r.b)
  let y ← op6? (Src.ofCode r.c)
  litOk r [x.isLit, y.isLit]
  match r.form with
  | none => .ok (.rotl d x y)
  | some f => .ok (.rotlX f ty d x y)

/-- Decodes `CLZ`. -/
def decClz (r : Raw) : Dec Instr := do
  lens r [0, 1, 2, 3]
  let ty ← tyField r.ext.ty
  op5 (r.ext == { ty := tyCode ty } && r.c == 0 && tyInt ty)
  let d ← op6? (Dst.ofCode r.a)
  let x ← op6? (Src.ofCode r.b)
  litOk r [x.isLit]
  match r.form with
  | none => .ok (.clz d x)
  | some f => .ok (.clzX f ty d x)

/-- Decodes `CTZ`. -/
def decCtz (r : Raw) : Dec Instr := do
  lens r [0, 1, 2, 3]
  let ty ← tyField r.ext.ty
  op5 (r.ext == { ty := tyCode ty } && r.c == 0 && tyInt ty)
  let d ← op6? (Dst.ofCode r.a)
  let x ← op6? (Src.ofCode r.b)
  litOk r [x.isLit]
  match r.form with
  | none => .ok (.ctz d x)
  | some f => .ok (.ctzX f ty d x)

/-- Decodes `POPC`. -/
def decPopc (r : Raw) : Dec Instr := do
  lens r [0, 1, 2, 3]
  let ty ← tyField r.ext.ty
  op5 (r.ext == { ty := tyCode ty } && r.c == 0 && tyInt ty)
  let d ← op6? (Dst.ofCode r.a)
  let x ← op6? (Src.ofCode r.b)
  litOk r [x.isLit]
  match r.form with
  | none => .ok (.popc d x)
  | some f => .ok (.popcX f ty d x)

/-- Decodes `BEXT`. -/
def decBext (r : Raw) : Dec Instr := do
  lens r [0, 1, 2, 3]
  op5 (r.ext == {})
  let d ← op6? (Dst.ofCode r.a)
  let x ← op6? (Src.ofCode r.b)
  let y ← op6? (Src.ofCode r.c)
  litOk r [x.isLit, y.isLit]
  match r.form with
  | none => .ok (.bext d x y)
  | some f => .ok (.bextX f d x y)

/-- Decodes `BINS`. -/
def decBins (r : Raw) : Dec Instr := do
  lens r [0, 1, 2, 3]
  op5 (r.ext == { d := r.ext.d })
  let d ← op6? (Dst.ofCode r.a)
  let x ← op6? (Src.ofCode r.b)
  let y ← op6? (Src.ofCode r.c)
  let z ← op6? (Src.ofCode r.ext.d)
  litOk r [x.isLit, y.isLit, z.isLit]
  match r.form with
  | none => .ok (.bins d x y)
  | some f => .ok (.binsX f d x y z)

/-- Decodes `SEXT`. -/
def decSext (r : Raw) : Dec Instr := do
  lens r [0, 1, 2, 3]
  op5 (r.ext == {})
  let d ← op6? (Dst.ofCode r.a)
  let x ← op6? (Src.ofCode r.b)
  let y ← op6? (Src.ofCode r.c)
  litOk r [x.isLit, y.isLit]
  match r.form with
  | none => .ok (.sext d x y)
  | some f => .ok (.sextX f d x y)

/-- Decodes `ZEXT`. -/
def decZext (r : Raw) : Dec Instr := do
  lens r [0, 1, 2, 3]
  op5 (r.ext == {})
  let d ← op6? (Dst.ofCode r.a)
  let x ← op6? (Src.ofCode r.b)
  let y ← op6? (Src.ofCode r.c)
  litOk r [x.isLit, y.isLit]
  match r.form with
  | none => .ok (.zext d x y)
  | some f => .ok (.zextX f d x y)

/-- Decodes `CMP`. -/
def decCmp (r : Raw) : Dec Instr := do
  lens r [0, 1, 2, 3]
  let cond ← op5? (Cond.ofFn r.fn.toNat)
  let ty ← tyField r.ext.ty
  op5 (r.ext == { ty := tyCode ty } && tyInt ty)
  let d ← op6? (Dst.ofCode r.a)
  let x ← op6? (Src.ofCode r.b)
  let y ← op6? (Src.ofCode r.c)
  litOk r [x.isLit, y.isLit]
  match r.form with
  | none => .ok (.cmp cond d x y)
  | some f => .ok (.cmpX f cond ty d x y)

/-- Decodes `SEL`. -/
def decSel (r : Raw) : Dec Instr := do
  lens r [0, 1, 2, 3]
  op5 (r.ext == { d := r.ext.d })
  let d ← op6? (Dst.ofCode r.a)
  let x ← op6? (Src.ofCode r.b)
  let y ← op6? (Src.ofCode r.c)
  let z ← op6? (Src.ofCode r.ext.d)
  litOk r [x.isLit, y.isLit, z.isLit]
  match r.form with
  | none => .ok (.sel d x y)
  | some f => .ok (.selX f d x y z)

/-- Decodes `MOV`. -/
def decMov (r : Raw) : Dec Instr := do
  lens r [0, 1, 2, 3]
  let ty ← tyField r.ext.ty
  op5 (r.ext == { ty := tyCode ty } && r.c == 0 && tyInt ty)
  let d ← op6? (Dst.ofCode r.a)
  let x ← op6? (Src.ofCode r.b)
  litOk r [x.isLit]
  match r.form with
  | none => .ok (.mov d x)
  | some f => .ok (.movX f ty d x)

/-- Decodes `MOVL`. -/
def decMovl (r : Raw) : Dec Instr := do
  lens r [1, 3]
  op5 (r.ext == {} && r.b == 0 && r.c == 0)
  let d ← op6? (Dst.ofCode r.a)
  .ok (.movl (r.len == 3) d r.lit)

/-- Decodes `FADD`. -/
def decFadd (r : Raw) : Dec Instr := do
  lens r [0, 1, 2, 3]
  let ty ← tyField r.ext.ty
  let rnd ← op5? (Rnd.ofCode r.ext.rnd)
  let fa := r.ext.fa == 1
  op5 (r.ext == { ty := tyCode ty, rnd := rnd.code, fa := bit fa } && tyFp ty && rnd != .sr && (!fa || tyF32 ty))
  let d ← op6? (Dst.ofCode r.a)
  let x ← op6? (Src.ofCode r.b)
  let y ← op6? (Src.ofCode r.c)
  litOk r [x.isLit, y.isLit]
  op6 (litFits r.lit (fpBits ty))
  match r.form with
  | none => .ok (.fadd d x y)
  | some f => .ok (.faddX f ty rnd fa d x y)

/-- Decodes `FSUB`. -/
def decFsub (r : Raw) : Dec Instr := do
  lens r [0, 1, 2, 3]
  let ty ← tyField r.ext.ty
  let rnd ← op5? (Rnd.ofCode r.ext.rnd)
  let fa := r.ext.fa == 1
  op5 (r.ext == { ty := tyCode ty, rnd := rnd.code, fa := bit fa } && tyFp ty && rnd != .sr && (!fa || tyF32 ty))
  let d ← op6? (Dst.ofCode r.a)
  let x ← op6? (Src.ofCode r.b)
  let y ← op6? (Src.ofCode r.c)
  litOk r [x.isLit, y.isLit]
  op6 (litFits r.lit (fpBits ty))
  match r.form with
  | none => .ok (.fsub d x y)
  | some f => .ok (.fsubX f ty rnd fa d x y)

/-- Decodes `FMUL`. -/
def decFmul (r : Raw) : Dec Instr := do
  lens r [0, 1, 2, 3]
  let ty ← tyField r.ext.ty
  let rnd ← op5? (Rnd.ofCode r.ext.rnd)
  let fa := r.ext.fa == 1
  op5 (r.ext == { ty := tyCode ty, rnd := rnd.code, fa := bit fa } && tyFp ty && rnd != .sr && (!fa || tyF32 ty))
  let d ← op6? (Dst.ofCode r.a)
  let x ← op6? (Src.ofCode r.b)
  let y ← op6? (Src.ofCode r.c)
  litOk r [x.isLit, y.isLit]
  op6 (litFits r.lit (fpBits ty))
  match r.form with
  | none => .ok (.fmul d x y)
  | some f => .ok (.fmulX f ty rnd fa d x y)

/-- Decodes `FMA`. -/
def decFma (r : Raw) : Dec Instr := do
  lens r [0, 1, 2, 3]
  let ty ← tyField r.ext.ty
  let rnd ← op5? (Rnd.ofCode r.ext.rnd)
  let fa := r.ext.fa == 1
  op5 (r.ext == { ty := tyCode ty, rnd := rnd.code, fa := bit fa, d := r.ext.d } && tyFp ty && rnd != .sr && (!fa || tyF32 ty))
  let d ← op6? (Dst.ofCode r.a)
  let x ← op6? (Src.ofCode r.b)
  let y ← op6? (Src.ofCode r.c)
  let z ← op6? (Src.ofCode r.ext.d)
  litOk r [x.isLit, y.isLit, z.isLit]
  op6 (litFits r.lit (fpBits ty))
  match r.form with
  | none => .ok (.fma d x y)
  | some f => .ok (.fmaX f ty rnd fa d x y z)

/-- Decodes `FDIV`. -/
def decFdiv (r : Raw) : Dec Instr := do
  lens r [0, 1, 2, 3]
  let ty ← tyField r.ext.ty
  let rnd ← op5? (Rnd.ofCode r.ext.rnd)
  op5 (r.ext == { ty := tyCode ty, rnd := rnd.code } && tyFp ty && rnd != .sr)
  let d ← op6? (Dst.ofCode r.a)
  let x ← op6? (Src.ofCode r.b)
  let y ← op6? (Src.ofCode r.c)
  litOk r [x.isLit, y.isLit]
  op6 (litFits r.lit (fpBits ty))
  match r.form with
  | none => .ok (.fdiv d x y)
  | some f => .ok (.fdivX f ty rnd d x y)

/-- Decodes `FSQRT`. -/
def decFsqrt (r : Raw) : Dec Instr := do
  lens r [0, 1, 2, 3]
  let ty ← tyField r.ext.ty
  let rnd ← op5? (Rnd.ofCode r.ext.rnd)
  op5 (r.ext == { ty := tyCode ty, rnd := rnd.code } && r.c == 0 && tyFp ty && rnd != .sr)
  let d ← op6? (Dst.ofCode r.a)
  let x ← op6? (Src.ofCode r.b)
  litOk r [x.isLit]
  op6 (litFits r.lit (fpBits ty))
  match r.form with
  | none => .ok (.fsqrt d x)
  | some f => .ok (.fsqrtX f ty rnd d x)

/-- Decodes `FMIN`. -/
def decFmin (r : Raw) : Dec Instr := do
  lens r [0, 1, 2, 3]
  let ty ← tyField r.ext.ty
  op5 (r.ext == { ty := tyCode ty } && tyFp ty)
  let d ← op6? (Dst.ofCode r.a)
  let x ← op6? (Src.ofCode r.b)
  let y ← op6? (Src.ofCode r.c)
  litOk r [x.isLit, y.isLit]
  op6 (litFits r.lit (fpBits ty))
  match r.form with
  | none => .ok (.fmin d x y)
  | some f => .ok (.fminX f ty d x y)

/-- Decodes `FMAX`. -/
def decFmax (r : Raw) : Dec Instr := do
  lens r [0, 1, 2, 3]
  let ty ← tyField r.ext.ty
  op5 (r.ext == { ty := tyCode ty } && tyFp ty)
  let d ← op6? (Dst.ofCode r.a)
  let x ← op6? (Src.ofCode r.b)
  let y ← op6? (Src.ofCode r.c)
  litOk r [x.isLit, y.isLit]
  op6 (litFits r.lit (fpBits ty))
  match r.form with
  | none => .ok (.fmax d x y)
  | some f => .ok (.fmaxX f ty d x y)

/-- Decodes `FABS`. -/
def decFabs (r : Raw) : Dec Instr := do
  lens r [0, 1, 2, 3]
  let ty ← tyField r.ext.ty
  op5 (r.ext == { ty := tyCode ty } && r.c == 0 && tyFp ty)
  let d ← op6? (Dst.ofCode r.a)
  let x ← op6? (Src.ofCode r.b)
  litOk r [x.isLit]
  op6 (litFits r.lit (fpBits ty))
  match r.form with
  | none => .ok (.fabs d x)
  | some f => .ok (.fabsX f ty d x)

/-- Decodes `FNEG`. -/
def decFneg (r : Raw) : Dec Instr := do
  lens r [0, 1, 2, 3]
  let ty ← tyField r.ext.ty
  op5 (r.ext == { ty := tyCode ty } && r.c == 0 && tyFp ty)
  let d ← op6? (Dst.ofCode r.a)
  let x ← op6? (Src.ofCode r.b)
  litOk r [x.isLit]
  op6 (litFits r.lit (fpBits ty))
  match r.form with
  | none => .ok (.fneg d x)
  | some f => .ok (.fnegX f ty d x)

/-- Decodes `FCMP`. -/
def decFcmp (r : Raw) : Dec Instr := do
  lens r [0, 1, 2, 3]
  let cond ← op5? (FCond.ofFn r.fn.toNat)
  let ty ← tyField r.ext.ty
  op5 (r.ext == { ty := tyCode ty } && tyFp ty)
  let d ← op6? (Dst.ofCode r.a)
  let x ← op6? (Src.ofCode r.b)
  let y ← op6? (Src.ofCode r.c)
  litOk r [x.isLit, y.isLit]
  op6 (litFits r.lit (fpBits ty))
  match r.form with
  | none => .ok (.fcmp cond d x y)
  | some f => .ok (.fcmpX f cond ty d x y)

/-- Decodes `FCVT`. -/
def decFcvt (r : Raw) : Dec Instr := do
  lens r [2, 3]
  let dst ← op5? (Ty.ofCode r.ext.ty)
  let src ← op5? (Ty.ofCode (r.ext.sub.setWidth 4))
  let rnd ← op5? (Rnd.ofCode r.ext.rnd)
  op5 (r.ext == { ty := dst.code, sub := src.code.zeroExtend 6, rnd := rnd.code } && r.c == 0 && cvtOk dst src rnd)
  let d ← op6? (Dst.ofCode r.a)
  let x ← op6? (Src.ofCode r.b)
  litOk r [x.isLit]
  op6 (litFits r.lit (fpBits (some src)))
  .ok (.fcvt r.litOpt dst src rnd d x)

/-- Decodes `FCLS`. -/
def decFcls (r : Raw) : Dec Instr := do
  lens r [0, 1, 2, 3]
  let ty ← tyField r.ext.ty
  op5 (r.ext == { ty := tyCode ty } && r.c == 0 && tyFp8 ty)
  let d ← op6? (Dst.ofCode r.a)
  let x ← op6? (Src.ofCode r.b)
  litOk r [x.isLit]
  op6 (litFits r.lit (fpBits ty))
  match r.form with
  | none => .ok (.fcls d x)
  | some f => .ok (.fclsX f ty d x)

/-- Decodes `SYMT`. -/
def decSymt (r : Raw) : Dec Instr := do
  lens r [0, 2]
  op5 (r.ext == {})
  op5 (r.c == 41 || r.b == 0)
  let d ← op6? (Dst.ofCode r.a)
  let s ← symArg r
  if r.len == 0 then .ok (.symt d s) else .ok (.symtX d s)

/-- Decodes `SYMW`. -/
def decSymw (r : Raw) : Dec Instr := do
  lens r [0, 2]
  op5 (r.ext == {})
  op5 (r.c == 41 || r.b == 0)
  let d ← op6? (Dst.ofCode r.a)
  let s ← symArg r
  if r.len == 0 then .ok (.symw d s) else .ok (.symwX d s)

/-- Decodes `SYMX`. -/
def decSymx (r : Raw) : Dec Instr := do
  lens r [0, 2]
  op5 (r.ext == {})
  op5 (r.c == 41 || r.b == 0)
  let d ← op6? (Dst.ofCode r.a)
  let s ← symArg r
  if r.len == 0 then .ok (.symx d s) else .ok (.symxX d s)

/-- Decodes `BR`. -/
def decBr (r : Raw) : Dec Instr := do
  lens r [0, 2]
  let imm := r.ext.imm
  op5 (r.len == 0 || r.a == 0 && r.b == 0 && r.c == 0)
  op5 (r.ext == { imm := imm })
  if r.len == 0 then .ok (.br (r.c ++ r.b ++ r.a)) else .ok (.brX imm)

/-- Decodes `BCMP`. -/
def decBcmp (r : Raw) : Dec Instr := do
  lens r [2, 3]
  let cond ← op5? (Cond.ofFn (r.fn.toNat - 0x10))
  let ty ← tyField r.ext.ty
  let imm := r.ext.imm
  op5 (r.ext == { ty := tyCode ty, imm := imm } && r.a == 0 && tyInt ty)
  let x ← op6? (Src.ofCode r.b)
  let y ← op6? (Src.ofCode r.c)
  litOk r [x.isLit, y.isLit]
  .ok (.bcmp r.litOpt cond ty x y imm)

/-- Decodes `CALL`. -/
def decCall (r : Raw) : Dec Instr := do
  lens r [0, 2]
  let imm := r.ext.imm
  op5 (r.len == 0 || r.a == 0 && r.b == 0 && r.c == 0)
  op5 (r.ext == { imm := imm })
  if r.len == 0 then .ok (.call (r.c ++ r.b ++ r.a)) else .ok (.callX imm)

/-- Decodes `RET`. -/
def decRet (r : Raw) : Dec Instr := do
  lens r [0]
  op5 (r.ext == {} && r.a == 0 && r.b == 0 && r.c == 0)
  .ok (.ret)

/-- Decodes `JTB`. -/
def decJtb (r : Raw) : Dec Instr := do
  lens r [2, 3]
  let imm := r.ext.imm
  let label := r.ext.sub ++ r.ext.d
  op5 (r.ext == { imm := imm, d := label.extractLsb' 0 6, sub := label.extractLsb' 6 6 })
  let tbl ← op6? (Src.ofCode r.a)
  let idx ← op6? (Src.ofCode r.b)
  let len ← op6? (Src.ofCode r.c)
  litOk r [tbl.isLit, idx.isLit, len.isLit]
  .ok (.jtb r.litOpt tbl idx len imm label)

/-- Decodes `JTC`. -/
def decJtc (r : Raw) : Dec Instr := do
  lens r [2, 3]
  let imm := r.ext.imm
  let label := r.ext.sub ++ r.ext.d
  op5 (r.ext == { imm := imm, d := label.extractLsb' 0 6, sub := label.extractLsb' 6 6 })
  let tbl ← op6? (Src.ofCode r.a)
  let idx ← op6? (Src.ofCode r.b)
  let len ← op6? (Src.ofCode r.c)
  litOk r [tbl.isLit, idx.isLit, len.isLit]
  .ok (.jtc r.litOpt tbl idx len imm label)

/-- Decodes `LAND`. -/
def decLand (r : Raw) : Dec Instr := do
  lens r [0]
  let label := r.c ++ r.b
  op5 (r.ext == {} && r.a == 0)
  .ok (.land label)

/-- Decodes `LOOP`. -/
def decLoop (r : Raw) : Dec Instr := do
  lens r [0, 2]
  let imm := r.ext.imm
  op5 (r.len == 0 || r.b == 0 && r.c == 0)
  op5 (r.ext == { imm := imm })
  let x ← op6? (CtrReg.ofCode r.a)
  if r.len == 0 then .ok (.loop x (r.c ++ r.b)) else .ok (.loopX x imm)

/-- Decodes `SPILLW`. -/
def decSpillw (r : Raw) : Dec Instr := do
  lens r [0]
  op5 (r.ext == {} && r.a == 0 && r.b == 0 && r.c == 0)
  .ok (.spillw)

/-- Decodes `FILLW`. -/
def decFillw (r : Raw) : Dec Instr := do
  lens r [0]
  op5 (r.ext == {} && r.a == 0 && r.b == 0 && r.c == 0)
  .ok (.fillw)

/-- Decodes `HRET`. -/
def decHret (r : Raw) : Dec Instr := do
  lens r [0]
  op5 (r.ext == {} && r.a == 0 && r.b == 0 && r.c == 0)
  .ok (.hret)

/-- Decodes `REALIGN`. -/
def decRealign (r : Raw) : Dec Instr := do
  lens r [0, 1]
  op5 (r.ext == {} && r.a == 0 && r.c == 0)
  let dist ← op6? (Src.ofCode r.b)
  litOk r [dist.isLit]
  .ok (.realign r.litOpt dist)

/-- Decodes `NOP`. -/
def decNop (r : Raw) : Dec Instr := do
  lens r [0, 2]
  op5 (r.ext == {} && r.a == 0 && r.b == 0 && r.c == 0)
  if r.len == 0 then .ok (.nop) else .ok (.nopX)

/-- Decodes `FIN`. -/
def decFin (r : Raw) : Dec Instr := do
  lens r [0]
  op5 (r.ext == {} && r.a == 0 && r.b == 0 && r.c == 0)
  .ok (.fin)

/-- Decodes `START`. -/
def decStart (r : Raw) : Dec Instr := do
  lens r [2]
  let imm := r.ext.imm
  op5 (r.ext == { imm := imm } && r.b == 0 && r.c == 0)
  let d ← op6? (Dst.ofCode r.a)
  .ok (.start d imm)

/-- Decodes `JOIN`. -/
def decJoin (r : Raw) : Dec Instr := do
  lens r [0, 1, 2, 3]
  let imm := r.ext.imm
  op5 (r.ext == { imm := imm } && r.c == 0)
  let d ← op6? (Dst.ofCode r.a)
  let base ← op6? (Src.ofCode r.b)
  litOk r [base.isLit]
  match r.form with
  | none => .ok (.join d base)
  | some f => .ok (.joinX f d base imm)

/-- Decodes `YIELD`. -/
def decYield (r : Raw) : Dec Instr := do
  lens r [0]
  op5 (r.ext == {} && r.a == 0 && r.b == 0 && r.c == 0)
  .ok (.yield)

/-- Decodes `WAIT`. -/
def decWait (r : Raw) : Dec Instr := do
  lens r [0, 1, 2, 3]
  let sc ← op5? (Scope.ofCode r.ext.scope)
  let win ← op5? (Win.ofCode r.ext.win)
  let ty ← tyField r.ext.ty
  let imm := r.ext.imm
  op5 (r.ext == { scope := sc.code, win := win.code, ty := tyCode ty, imm := imm } && tyInt ty)
  let d ← op6? (Dst.ofCode r.a)
  let base ← op6? (Src.ofCode r.b)
  let v ← op6? (Src.ofCode r.c)
  litOk r [base.isLit, v.isLit]
  match r.form with
  | none => .ok (.wait d base v)
  | some f => .ok (.waitX f sc win ty d base v imm)

/-- Decodes `LD`. -/
def decLd (r : Raw) : Dec Instr := do
  lens r [0, 1, 2, 3]
  let t := LdTy.ofCode (r.fn.setWidth 3)
  let win ← op5? (Win.ofCode r.ext.win)
  let imm := r.ext.imm
  let ef := r.ext.ef == 1
  op5 (r.ext == { win := win.code, imm := imm, ef := bit ef })
  let d ← op6? (Dst.ofCode r.a)
  let base ← op6? (Src.ofCode r.b)
  let idx ← op6? (Src.ofCode r.c)
  litOk r [base.isLit, idx.isLit]
  match r.form with
  | none => .ok (.ld t d base idx)
  | some f => .ok (.ldX f t win imm ef d base idx)

/-- Decodes `ST`. -/
def decSt (r : Raw) : Dec Instr := do
  lens r [0, 1, 2, 3]
  let t := StTy.ofCode (r.fn.setWidth 2)
  let win ← op5? (Win.ofCode r.ext.win)
  let imm := r.ext.imm
  let ef := r.ext.ef == 1
  op5 (r.ext == { win := win.code, imm := imm, ef := bit ef })
  let v ← op6? (Src.ofCode r.a)
  let base ← op6? (Src.ofCode r.b)
  let idx ← op6? (Src.ofCode r.c)
  litOk r [v.isLit, base.isLit, idx.isLit]
  match r.form with
  | none => .ok (.st t v base idx)
  | some f => .ok (.stX f t win imm ef v base idx)

/-- Decodes `LDD`. -/
def decLdd (r : Raw) : Dec Instr := do
  lens r [0, 1, 2, 3]
  let t := LdTy.ofCode (r.fn.setWidth 3)
  let win ← op5? (Win.ofCode r.ext.win)
  let imm := r.ext.imm
  let ef := r.ext.ef == 1
  op5 (r.ext == { win := win.code, imm := imm, ef := bit ef })
  let d ← op6? (Dst.ofCode r.a)
  let base ← op6? (Src.ofCode r.b)
  let idx ← op6? (Src.ofCode r.c)
  litOk r [base.isLit, idx.isLit]
  match r.form with
  | none => .ok (.ldd t d base idx)
  | some f => .ok (.lddX f t win imm ef d base idx)

/-- Decodes `LDACQ`. -/
def decLdacq (r : Raw) : Dec Instr := do
  lens r [2, 3]
  let t := LdTy.ofCode (r.fn.setWidth 3)
  let sc ← op5? (Scope.ofCode r.ext.scope)
  let win ← op5? (Win.ofCode r.ext.win)
  let imm := r.ext.imm
  let ef := r.ext.ef == 1
  op5 (r.ext == { scope := sc.code, win := win.code, imm := imm, ef := bit ef })
  let d ← op6? (Dst.ofCode r.a)
  let base ← op6? (Src.ofCode r.b)
  let idx ← op6? (Src.ofCode r.c)
  litOk r [base.isLit, idx.isLit]
  .ok (.ldacq r.litOpt t sc win imm ef d base idx)

/-- Decodes `STREL`. -/
def decStrel (r : Raw) : Dec Instr := do
  lens r [2, 3]
  let t := StTy.ofCode (r.fn.setWidth 2)
  let sc ← op5? (Scope.ofCode r.ext.scope)
  let win ← op5? (Win.ofCode r.ext.win)
  let imm := r.ext.imm
  op5 (r.ext == { scope := sc.code, win := win.code, imm := imm })
  let v ← op6? (Src.ofCode r.a)
  let base ← op6? (Src.ofCode r.b)
  let idx ← op6? (Src.ofCode r.c)
  litOk r [v.isLit, base.isLit, idx.isLit]
  .ok (.strel r.litOpt t sc win imm v base idx)

/-- Decodes `LLD`. -/
def decLld (r : Raw) : Dec Instr := do
  lens r [0, 1, 2, 3]
  let t := LdTy.ofCode (r.fn.setWidth 3)
  let win ← op5? (Win.ofCode r.ext.win)
  let imm := r.ext.imm
  op5 (r.ext == { win := win.code, imm := imm })
  let d ← op6? (Dst.ofCode r.a)
  let base ← op6? (Src.ofCode r.b)
  let idx ← op6? (Src.ofCode r.c)
  litOk r [base.isLit, idx.isLit]
  match r.form with
  | none => .ok (.lld t d base idx)
  | some f => .ok (.lldX f t win imm d base idx)

/-- Decodes `LST`. -/
def decLst (r : Raw) : Dec Instr := do
  lens r [2, 3]
  let t := StTy.ofCode (r.fn.setWidth 2)
  let win ← op5? (Win.ofCode r.ext.win)
  let imm := r.ext.imm
  op5 (r.ext == { win := win.code, imm := imm, d := r.ext.d })
  let v ← op6? (Src.ofCode r.a)
  let base ← op6? (Src.ofCode r.b)
  let idx ← op6? (Src.ofCode r.c)
  let res ← op6? (Dst.ofCode r.ext.d)
  litOk r [v.isLit, base.isLit, idx.isLit]
  .ok (.lst r.litOpt t win imm v base idx res)

/-- Decodes `LDB`. -/
def decLdb (r : Raw) : Dec Instr := do
  lens r [0, 1, 2, 3]
  let t := LdTy.ofCode (r.fn.setWidth 3)
  let imm := r.ext.imm
  let ef := r.ext.ef == 1
  op5 (r.ext == { imm := imm, ef := bit ef })
  let d ← op6? (Dst.ofCode r.a)
  let base ← op6? (Src.ofCode r.b)
  let idx ← op6? (Src.ofCode r.c)
  litOk r [base.isLit, idx.isLit]
  match r.form with
  | none => .ok (.ldb t d base idx)
  | some f => .ok (.ldbX f t imm ef d base idx)

/-- Decodes `STB`. -/
def decStb (r : Raw) : Dec Instr := do
  lens r [0, 1, 2, 3]
  let t := StTy.ofCode (r.fn.setWidth 2)
  let imm := r.ext.imm
  let ef := r.ext.ef == 1
  op5 (r.ext == { imm := imm, ef := bit ef })
  let v ← op6? (Src.ofCode r.a)
  let base ← op6? (Src.ofCode r.b)
  let idx ← op6? (Src.ofCode r.c)
  litOk r [v.isLit, base.isLit, idx.isLit]
  match r.form with
  | none => .ok (.stb t v base idx)
  | some f => .ok (.stbX f t imm ef v base idx)

/-- Decodes `STSIG`. -/
def decStsig (r : Raw) : Dec Instr := do
  lens r [2, 3]
  let sc ← op5? (Scope.ofCode r.ext.scope)
  let win ← op5? (Win.ofCode r.ext.win)
  let ty ← tyField r.ext.ty
  let addf := r.ext.sub == 1
  let imm := r.ext.imm
  op5 (r.ext == { scope := sc.code, win := win.code, ty := tyCode ty, sub := if addf then 1 else 0, imm := imm, d := r.ext.d } && tySig ty)
  let v ← op6? (Src.ofCode r.a)
  let base ← op6? (Src.ofCode r.b)
  let flag ← op6? (Src.ofCode r.c)
  let sig ← op6? (Src.ofCode r.ext.d)
  litOk r [v.isLit, base.isLit, flag.isLit, sig.isLit]
  .ok (.stsig r.litOpt sc win ty addf imm v base flag sig)

/-- Decodes `STG`. -/
def decStg (r : Raw) : Dec Instr := do
  lens r [0, 1, 2, 3]
  let imm := r.ext.imm
  let n := r.ext.sub
  op5 (r.ext == { imm := imm, sub := n } && r.c == 0)
  let tag ← op6? (Src.ofCode r.a)
  let base ← op6? (Src.ofCode r.b)
  litOk r [tag.isLit, base.isLit]
  match r.form with
  | none => .ok (.stg tag base)
  | some f => .ok (.stgX f n imm tag base)

/-- Decodes `LDG`. -/
def decLdg (r : Raw) : Dec Instr := do
  lens r [0, 1, 2, 3]
  let imm := r.ext.imm
  op5 (r.ext == { imm := imm } && r.c == 0)
  let d ← op6? (Dst.ofCode r.a)
  let base ← op6? (Src.ofCode r.b)
  litOk r [base.isLit]
  match r.form with
  | none => .ok (.ldg d base)
  | some f => .ok (.ldgX f imm d base)

/-- Decodes `CBWAIT_F`. -/
def decCbwaitF (r : Raw) : Dec Instr := do
  lens r [0, 1]
  op5 (r.ext == {})
  let d ← op6? (Dst.ofCode r.a)
  let h ← op6? (finCode 8 r.b)
  let n ← op6? (Src.ofCode r.c)
  litOk r [n.isLit]
  .ok (.cbwaitF r.litOpt d h n)

/-- Decodes `CBWAIT_E`. -/
def decCbwaitE (r : Raw) : Dec Instr := do
  lens r [0, 1]
  op5 (r.ext == {})
  let d ← op6? (Dst.ofCode r.a)
  let h ← op6? (finCode 8 r.b)
  let n ← op6? (Src.ofCode r.c)
  litOk r [n.isLit]
  .ok (.cbwaitE r.litOpt d h n)

/-- Decodes `CBADV_F`. -/
def decCbadvF (r : Raw) : Dec Instr := do
  lens r [0, 1]
  op5 (r.ext == {} && r.a == 0)
  let h ← op6? (finCode 8 r.b)
  let n ← op6? (Src.ofCode r.c)
  litOk r [n.isLit]
  .ok (.cbadvF r.litOpt h n)

/-- Decodes `CBADV_E`. -/
def decCbadvE (r : Raw) : Dec Instr := do
  lens r [0, 1]
  op5 (r.ext == {} && r.a == 0)
  let h ← op6? (finCode 8 r.b)
  let n ← op6? (Src.ofCode r.c)
  litOk r [n.isLit]
  .ok (.cbadvE r.litOpt h n)

/-- Decodes `PUBL`. -/
def decPubl (r : Raw) : Dec Instr := do
  lens r [2, 3]
  let sc ← op5? (Scope.ofCode r.ext.scope)
  let pair := r.ext.sub == 1
  op5 (r.ext == { scope := sc.code, sub := if pair then 1 else 0 } && r.a == 0 && r.c == 0)
  let buf ← op6? (Src.ofCode r.b)
  litOk r [buf.isLit]
  .ok (.publ r.litOpt sc pair buf)

/-- Decodes `TDECL`. -/
def decTdecl (r : Raw) : Dec Instr := do
  lens r [0, 1, 2, 3]
  let imm := r.ext.imm
  op5 (r.ext == { imm := imm } && r.a == 0)
  let base ← op6? (Src.ofCode r.b)
  let shape ← op6? (Src.ofCode r.c)
  litOk r [base.isLit, shape.isLit]
  match r.form with
  | none => .ok (.tdecl base shape)
  | some f => .ok (.tdeclX f imm base shape)

/-- Decodes `TFREE`. -/
def decTfree (r : Raw) : Dec Instr := do
  lens r [0, 1, 2, 3]
  let imm := r.ext.imm
  op5 (r.ext == { imm := imm } && r.a == 0 && r.c == 0)
  let base ← op6? (Src.ofCode r.b)
  litOk r [base.isLit]
  match r.form with
  | none => .ok (.tfree base)
  | some f => .ok (.tfreeX f imm base)

/-- Decodes `TFWD`. -/
def decTfwd (r : Raw) : Dec Instr := do
  lens r [0, 1, 2, 3]
  let imm := r.ext.imm
  op5 (r.ext == { imm := imm } && r.a == 0)
  let base ← op6? (Src.ofCode r.b)
  let rank ← op6? (Src.ofCode r.c)
  litOk r [base.isLit, rank.isLit]
  match r.form with
  | none => .ok (.tfwd base rank)
  | some f => .ok (.tfwdX f imm base rank)

/-- Decodes `PREF`. -/
def decPref (r : Raw) : Dec Instr := do
  lens r [0, 1, 2, 3]
  let imm := r.ext.imm
  let l2 := r.ext.sub == 1
  op5 (r.ext == { imm := imm, sub := if l2 then 1 else 0 } && r.a == 0)
  let base ← op6? (Src.ofCode r.b)
  let idx ← op6? (Src.ofCode r.c)
  litOk r [base.isLit, idx.isLit]
  match r.form with
  | none => .ok (.pref base idx)
  | some f => .ok (.prefX f l2 imm base idx)

/-- Decodes `EVICT`. -/
def decEvict (r : Raw) : Dec Instr := do
  lens r [0, 1, 2, 3]
  let imm := r.ext.imm
  op5 (r.ext == { imm := imm } && r.a == 0)
  let base ← op6? (Src.ofCode r.b)
  let idx ← op6? (Src.ofCode r.c)
  litOk r [base.isLit, idx.isLit]
  match r.form with
  | none => .ok (.evict base idx)
  | some f => .ok (.evictX f imm base idx)

/-- Decodes `PIN`. -/
def decPin (r : Raw) : Dec Instr := do
  lens r [2, 3]
  let ways := r.ext.sub.setWidth 4
  op5 (r.ext == { sub := ways.zeroExtend 6 })
  let d ← op6? (Dst.ofCode r.a)
  let base ← op6? (Src.ofCode r.b)
  let len ← op6? (Src.ofCode r.c)
  litOk r [base.isLit, len.isLit]
  .ok (.pin r.litOpt ways d base len)

/-- Decodes `UNPIN`. -/
def decUnpin (r : Raw) : Dec Instr := do
  lens r [0, 1]
  op5 (r.ext == {} && r.a == 0 && r.c == 0)
  let idx ← op6? (Src.ofCode r.b)
  litOk r [idx.isLit]
  .ok (.unpin r.litOpt idx)

/-- Decodes `BARINIT`. -/
def decBarinit (r : Raw) : Dec Instr := do
  lens r [0, 1, 2, 3]
  let sc ← op5? (Scope.ofCode r.ext.scope)
  let win ← op5? (Win.ofCode r.ext.win)
  let imm := r.ext.imm
  op5 (r.ext == { scope := sc.code, win := win.code, imm := imm } && r.a == 0)
  let base ← op6? (Src.ofCode r.b)
  let n ← op6? (Src.ofCode r.c)
  litOk r [base.isLit, n.isLit]
  match r.form with
  | none => .ok (.barinit base n)
  | some f => .ok (.barinitX f sc win imm base n)

/-- Decodes `BAREXP`. -/
def decBarexp (r : Raw) : Dec Instr := do
  lens r [0, 1, 2, 3]
  let win ← op5? (Win.ofCode r.ext.win)
  let imm := r.ext.imm
  op5 (r.ext == { win := win.code, imm := imm } && r.a == 0)
  let base ← op6? (Src.ofCode r.b)
  let n ← op6? (Src.ofCode r.c)
  litOk r [base.isLit, n.isLit]
  match r.form with
  | none => .ok (.barexp base n)
  | some f => .ok (.barexpX f win imm base n)

/-- Decodes `BARARR`. -/
def decBararr (r : Raw) : Dec Instr := do
  lens r [0, 1, 2, 3]
  let sc ← op5? (Scope.ofCode r.ext.scope)
  let win ← op5? (Win.ofCode r.ext.win)
  let imm := r.ext.imm
  op5 (r.ext == { scope := sc.code, win := win.code, imm := imm })
  let d ← op6? (Dst.ofCode r.a)
  let base ← op6? (Src.ofCode r.b)
  let n ← op6? (Src.ofCode r.c)
  litOk r [base.isLit, n.isLit]
  match r.form with
  | none => .ok (.bararr d base n)
  | some f => .ok (.bararrX f sc win imm d base n)

/-- Decodes `BARWAIT`. -/
def decBarwait (r : Raw) : Dec Instr := do
  lens r [0, 1, 2, 3]
  let sc ← op5? (Scope.ofCode r.ext.scope)
  let win ← op5? (Win.ofCode r.ext.win)
  let chk := r.ext.chk == 1
  let imm := r.ext.imm
  op5 (r.ext == { scope := sc.code, win := win.code, chk := bit chk, imm := imm })
  let d ← op6? (Dst.ofCode r.a)
  let base ← op6? (Src.ofCode r.b)
  let n ← op6? (Src.ofCode r.c)
  litOk r [base.isLit, n.isLit]
  match r.form with
  | none => .ok (.barwait d base n)
  | some f => .ok (.barwaitX f sc win chk imm d base n)

/-- Decodes `ATOM`. -/
def decAtom (r : Raw) : Dec Instr := do
  lens r [0, 1, 2, 3]
  let op ← op5? (AtomOp.ofFn r.fn.toNat)
  let sc ← op5? (Scope.ofCode r.ext.scope)
  let ord := Ord.ofCode r.ext.ord
  let win ← op5? (Win.ofCode r.ext.win)
  let ty ← tyField r.ext.ty
  let imm := r.ext.imm
  op5 (r.ext == { scope := sc.code, ord := ord.code, win := win.code, ty := tyCode ty, imm := imm, d := r.ext.d } && op.tyOk ty && (op == .cas || r.ext.d == 0))
  let d ← op6? (Dst.ofCode r.a)
  let base ← op6? (Src.ofCode r.b)
  let v ← op6? (Src.ofCode r.c)
  let e ← op6? (Src.ofCode r.ext.d)
  litOk r [base.isLit, v.isLit, e.isLit]
  op6 (atomLit op ty r.lit v)
  match r.form with
  | none => .ok (.atom op d base v)
  | some f => .ok (.atomX f op sc ord win ty imm d base v e)

/-- Decodes `RED`. -/
def decRed (r : Raw) : Dec Instr := do
  lens r [0, 1, 2, 3]
  let op ← op5? (RedOp.ofFn r.fn.toNat)
  let sc ← op5? (Scope.ofCode r.ext.scope)
  let rel := r.ext.ord == 2
  let win ← op5? (Win.ofCode r.ext.win)
  let ty ← tyField r.ext.ty
  let imm := r.ext.imm
  op5 (r.ext == { scope := sc.code, ord := if rel then 2 else 0, win := win.code, ty := tyCode ty, imm := imm } && r.a == 0 && op.tyOk ty)
  let base ← op6? (Src.ofCode r.b)
  let v ← op6? (Src.ofCode r.c)
  litOk r [base.isLit, v.isLit]
  op6 (redLit op ty r.lit v)
  match r.form with
  | none => .ok (.red op base v)
  | some f => .ok (.redX f op sc rel win ty imm base v)

/-- Decodes `FENCE`. -/
def decFence (r : Raw) : Dec Instr := do
  lens r [2]
  let sc ← op5? (Scope.ofCode r.ext.scope)
  let ord := Ord.ofCode r.ext.ord
  op5 (r.ext == { scope := sc.code, ord := ord.code } && r.a == 0 && r.b == 0 && r.c == 0 && ord != .none)
  .ok (.fence sc ord)

/-- Decodes `ISYNC`. -/
def decIsync (r : Raw) : Dec Instr := do
  lens r [0]
  op5 (r.ext == {} && r.a == 0 && r.b == 0 && r.c == 0)
  .ok (.isync)

/-- Decodes `VADD`. -/
def decVadd (r : Raw) : Dec Instr := do
  lens r [0, 1, 2, 3]
  let ty ← tyField r.ext.ty
  let rnd ← op5? (Rnd.ofCode r.ext.rnd)
  let mk : MaskSel := ⟨r.ext.men == 1, Fin.ofNat 8 r.ext.msel.toNat⟩
  op5 (r.ext == { ty := tyCode ty, rnd := rnd.code, men := mk.enBit, msel := mk.selBits } && tyVec ty && vrnd ty rnd)
  let d ← op6? (finCode 16 r.a)
  let x ← op6? (VSrc.ofCode r.b)
  let y ← op6? (VSrc.ofCode r.c)
  litOk r [x.isLit, y.isLit]
  op6 (litFits r.lit (vfpBits ty))
  match r.form with
  | none => .ok (.vadd d x y)
  | some f => .ok (.vaddX f ty rnd mk d x y)

/-- Decodes `VSUB`. -/
def decVsub (r : Raw) : Dec Instr := do
  lens r [0, 1, 2, 3]
  let ty ← tyField r.ext.ty
  let rnd ← op5? (Rnd.ofCode r.ext.rnd)
  let mk : MaskSel := ⟨r.ext.men == 1, Fin.ofNat 8 r.ext.msel.toNat⟩
  op5 (r.ext == { ty := tyCode ty, rnd := rnd.code, men := mk.enBit, msel := mk.selBits } && tyVec ty && vrnd ty rnd)
  let d ← op6? (finCode 16 r.a)
  let x ← op6? (VSrc.ofCode r.b)
  let y ← op6? (VSrc.ofCode r.c)
  litOk r [x.isLit, y.isLit]
  op6 (litFits r.lit (vfpBits ty))
  match r.form with
  | none => .ok (.vsub d x y)
  | some f => .ok (.vsubX f ty rnd mk d x y)

/-- Decodes `VMUL`. -/
def decVmul (r : Raw) : Dec Instr := do
  lens r [0, 1, 2, 3]
  let ty ← tyField r.ext.ty
  let rnd ← op5? (Rnd.ofCode r.ext.rnd)
  let mk : MaskSel := ⟨r.ext.men == 1, Fin.ofNat 8 r.ext.msel.toNat⟩
  op5 (r.ext == { ty := tyCode ty, rnd := rnd.code, men := mk.enBit, msel := mk.selBits } && tyVec ty && vrnd ty rnd)
  let d ← op6? (finCode 16 r.a)
  let x ← op6? (VSrc.ofCode r.b)
  let y ← op6? (VSrc.ofCode r.c)
  litOk r [x.isLit, y.isLit]
  op6 (litFits r.lit (vfpBits ty))
  match r.form with
  | none => .ok (.vmul d x y)
  | some f => .ok (.vmulX f ty rnd mk d x y)

/-- Decodes `VFMA`. -/
def decVfma (r : Raw) : Dec Instr := do
  lens r [0, 1, 2, 3]
  let ty ← tyField r.ext.ty
  let rnd ← op5? (Rnd.ofCode r.ext.rnd)
  let mk : MaskSel := ⟨r.ext.men == 1, Fin.ofNat 8 r.ext.msel.toNat⟩
  op5 (r.ext == { ty := tyCode ty, rnd := rnd.code, men := mk.enBit, msel := mk.selBits, d := r.ext.d } && tyVec ty && vrnd ty rnd)
  let d ← op6? (finCode 16 r.a)
  let x ← op6? (VSrc.ofCode r.b)
  let y ← op6? (VSrc.ofCode r.c)
  let z ← op6? (VSrc.ofCode r.ext.d)
  litOk r [x.isLit, y.isLit, z.isLit]
  op6 (litFits r.lit (vfpBits ty))
  match r.form with
  | none => .ok (.vfma d x y)
  | some f => .ok (.vfmaX f ty rnd mk d x y z)

/-- Decodes `VMIN`. -/
def decVmin (r : Raw) : Dec Instr := do
  lens r [0, 1, 2, 3]
  let ty ← tyField r.ext.ty
  let rnd ← op5? (Rnd.ofCode r.ext.rnd)
  let mk : MaskSel := ⟨r.ext.men == 1, Fin.ofNat 8 r.ext.msel.toNat⟩
  op5 (r.ext == { ty := tyCode ty, rnd := rnd.code, men := mk.enBit, msel := mk.selBits } && tyVec ty && vrnd ty rnd)
  let d ← op6? (finCode 16 r.a)
  let x ← op6? (VSrc.ofCode r.b)
  let y ← op6? (VSrc.ofCode r.c)
  litOk r [x.isLit, y.isLit]
  op6 (litFits r.lit (vfpBits ty))
  match r.form with
  | none => .ok (.vmin d x y)
  | some f => .ok (.vminX f ty rnd mk d x y)

/-- Decodes `VMAX`. -/
def decVmax (r : Raw) : Dec Instr := do
  lens r [0, 1, 2, 3]
  let ty ← tyField r.ext.ty
  let rnd ← op5? (Rnd.ofCode r.ext.rnd)
  let mk : MaskSel := ⟨r.ext.men == 1, Fin.ofNat 8 r.ext.msel.toNat⟩
  op5 (r.ext == { ty := tyCode ty, rnd := rnd.code, men := mk.enBit, msel := mk.selBits } && tyVec ty && vrnd ty rnd)
  let d ← op6? (finCode 16 r.a)
  let x ← op6? (VSrc.ofCode r.b)
  let y ← op6? (VSrc.ofCode r.c)
  litOk r [x.isLit, y.isLit]
  op6 (litFits r.lit (vfpBits ty))
  match r.form with
  | none => .ok (.vmax d x y)
  | some f => .ok (.vmaxX f ty rnd mk d x y)

/-- Decodes `VABS`. -/
def decVabs (r : Raw) : Dec Instr := do
  lens r [0, 1, 2, 3]
  let ty ← tyField r.ext.ty
  let mk : MaskSel := ⟨r.ext.men == 1, Fin.ofNat 8 r.ext.msel.toNat⟩
  op5 (r.ext == { ty := tyCode ty, men := mk.enBit, msel := mk.selBits } && r.c == 0 && tyVec ty)
  let d ← op6? (finCode 16 r.a)
  let x ← op6? (VSrc.ofCode r.b)
  litOk r [x.isLit]
  op6 (litFits r.lit (vfpBits ty))
  match r.form with
  | none => .ok (.vabs d x)
  | some f => .ok (.vabsX f ty mk d x)

/-- Decodes `VNEG`. -/
def decVneg (r : Raw) : Dec Instr := do
  lens r [0, 1, 2, 3]
  let ty ← tyField r.ext.ty
  let mk : MaskSel := ⟨r.ext.men == 1, Fin.ofNat 8 r.ext.msel.toNat⟩
  op5 (r.ext == { ty := tyCode ty, men := mk.enBit, msel := mk.selBits } && r.c == 0 && tyVec ty)
  let d ← op6? (finCode 16 r.a)
  let x ← op6? (VSrc.ofCode r.b)
  litOk r [x.isLit]
  op6 (litFits r.lit (vfpBits ty))
  match r.form with
  | none => .ok (.vneg d x)
  | some f => .ok (.vnegX f ty mk d x)

/-- Decodes `VRCP`. -/
def decVrcp (r : Raw) : Dec Instr := do
  lens r [0, 1, 2, 3]
  let ty ← tyField r.ext.ty
  let rnd ← op5? (Rnd.ofCode r.ext.rnd)
  let mk : MaskSel := ⟨r.ext.men == 1, Fin.ofNat 8 r.ext.msel.toNat⟩
  op5 (r.ext == { ty := tyCode ty, rnd := rnd.code, men := mk.enBit, msel := mk.selBits } && r.c == 0 && tyFp ty && vrnd ty rnd)
  let d ← op6? (finCode 16 r.a)
  let x ← op6? (VSrc.ofCode r.b)
  litOk r [x.isLit]
  op6 (litFits r.lit (vfpBits ty))
  match r.form with
  | none => .ok (.vrcp d x)
  | some f => .ok (.vrcpX f ty rnd mk d x)

/-- Decodes `VRSQ`. -/
def decVrsq (r : Raw) : Dec Instr := do
  lens r [0, 1, 2, 3]
  let ty ← tyField r.ext.ty
  let rnd ← op5? (Rnd.ofCode r.ext.rnd)
  let mk : MaskSel := ⟨r.ext.men == 1, Fin.ofNat 8 r.ext.msel.toNat⟩
  op5 (r.ext == { ty := tyCode ty, rnd := rnd.code, men := mk.enBit, msel := mk.selBits } && r.c == 0 && tyFp ty && vrnd ty rnd)
  let d ← op6? (finCode 16 r.a)
  let x ← op6? (VSrc.ofCode r.b)
  litOk r [x.isLit]
  op6 (litFits r.lit (vfpBits ty))
  match r.form with
  | none => .ok (.vrsq d x)
  | some f => .ok (.vrsqX f ty rnd mk d x)

/-- Decodes `VEXP`. -/
def decVexp (r : Raw) : Dec Instr := do
  lens r [0, 1, 2, 3]
  let ty ← tyField r.ext.ty
  let rnd ← op5? (Rnd.ofCode r.ext.rnd)
  let mk : MaskSel := ⟨r.ext.men == 1, Fin.ofNat 8 r.ext.msel.toNat⟩
  op5 (r.ext == { ty := tyCode ty, rnd := rnd.code, men := mk.enBit, msel := mk.selBits } && r.c == 0 && tyFp ty && vrnd ty rnd)
  let d ← op6? (finCode 16 r.a)
  let x ← op6? (VSrc.ofCode r.b)
  litOk r [x.isLit]
  op6 (litFits r.lit (vfpBits ty))
  match r.form with
  | none => .ok (.vexp d x)
  | some f => .ok (.vexpX f ty rnd mk d x)

/-- Decodes `VLOG`. -/
def decVlog (r : Raw) : Dec Instr := do
  lens r [0, 1, 2, 3]
  let ty ← tyField r.ext.ty
  let rnd ← op5? (Rnd.ofCode r.ext.rnd)
  let mk : MaskSel := ⟨r.ext.men == 1, Fin.ofNat 8 r.ext.msel.toNat⟩
  op5 (r.ext == { ty := tyCode ty, rnd := rnd.code, men := mk.enBit, msel := mk.selBits } && r.c == 0 && tyFp ty && vrnd ty rnd)
  let d ← op6? (finCode 16 r.a)
  let x ← op6? (VSrc.ofCode r.b)
  litOk r [x.isLit]
  op6 (litFits r.lit (vfpBits ty))
  match r.form with
  | none => .ok (.vlog d x)
  | some f => .ok (.vlogX f ty rnd mk d x)

/-- Decodes `VTANH`. -/
def decVtanh (r : Raw) : Dec Instr := do
  lens r [0, 1, 2, 3]
  let ty ← tyField r.ext.ty
  let rnd ← op5? (Rnd.ofCode r.ext.rnd)
  let mk : MaskSel := ⟨r.ext.men == 1, Fin.ofNat 8 r.ext.msel.toNat⟩
  op5 (r.ext == { ty := tyCode ty, rnd := rnd.code, men := mk.enBit, msel := mk.selBits } && r.c == 0 && tyFp ty && vrnd ty rnd)
  let d ← op6? (finCode 16 r.a)
  let x ← op6? (VSrc.ofCode r.b)
  litOk r [x.isLit]
  op6 (litFits r.lit (vfpBits ty))
  match r.form with
  | none => .ok (.vtanh d x)
  | some f => .ok (.vtanhX f ty rnd mk d x)

/-- Decodes `VCVT`. -/
def decVcvt (r : Raw) : Dec Instr := do
  lens r [2, 3]
  let dst ← op5? (Ty.ofCode r.ext.ty)
  let src ← op5? (Ty.ofCode (r.ext.sub.setWidth 4))
  let part := Fin.ofNat 8 r.ext.imm.toNat
  let rnd ← op5? (Rnd.ofCode r.ext.rnd)
  let mk : MaskSel := ⟨r.ext.men == 1, Fin.ofNat 8 r.ext.msel.toNat⟩
  op5 (r.ext == { ty := dst.code, sub := src.code.zeroExtend 6, imm := BitVec.ofNat 24 part.val, rnd := rnd.code, men := mk.enBit, msel := mk.selBits } && r.c == 0 && cvtOk dst src rnd && vcvtPart dst src part)
  let d ← op6? (finCode 16 r.a)
  let x ← op6? (VSrc.ofCode r.b)
  litOk r [x.isLit]
  op6 (litFits r.lit (fpBits (some src)))
  .ok (.vcvt r.litOpt dst src part rnd mk d x)

/-- Decodes `VQUANT`. -/
def decVquant (r : Raw) : Dec Instr := do
  lens r [0, 1, 2, 3]
  let ty ← tyField r.ext.ty
  let part := Fin.ofNat 4 r.ext.imm.toNat
  let rnd ← op5? (Rnd.ofCode r.ext.rnd)
  let mk : MaskSel := ⟨r.ext.men == 1, Fin.ofNat 8 r.ext.msel.toNat⟩
  op5 (r.ext == { ty := tyCode ty, imm := BitVec.ofNat 24 part.val, rnd := rnd.code, men := mk.enBit, msel := mk.selBits } && tyQuant ty && quantRnd ty rnd)
  let d ← op6? (finCode 16 r.a)
  let x ← op6? (VSrc.ofCode r.b)
  let y ← op6? (VSrc.ofCode r.c)
  litOk r [x.isLit, y.isLit]
  op6 (quantLit r.lit [x.isLit, y.isLit])
  match r.form with
  | none => .ok (.vquant d x y)
  | some f => .ok (.vquantX f ty part rnd mk d x y)

/-- Decodes `VDEQ`. -/
def decVdeq (r : Raw) : Dec Instr := do
  lens r [0, 1, 2, 3]
  let ty ← tyField r.ext.ty
  let part := Fin.ofNat 4 r.ext.imm.toNat
  let rnd ← op5? (Rnd.ofCode r.ext.rnd)
  let mk : MaskSel := ⟨r.ext.men == 1, Fin.ofNat 8 r.ext.msel.toNat⟩
  op5 (r.ext == { ty := tyCode ty, imm := BitVec.ofNat 24 part.val, rnd := rnd.code, men := mk.enBit, msel := mk.selBits } && tyQuant ty && rnd != .sr)
  let d ← op6? (finCode 16 r.a)
  let x ← op6? (VSrc.ofCode r.b)
  let y ← op6? (VSrc.ofCode r.c)
  litOk r [x.isLit, y.isLit]
  op6 (deqLit ty r.lit x y)
  match r.form with
  | none => .ok (.vdeq d x y)
  | some f => .ok (.vdeqX f ty part rnd mk d x y)

/-- Decodes `VCMP`. -/
def decVcmp (r : Raw) : Dec Instr := do
  lens r [0, 1, 2, 3]
  let cond ← op5? (VCond.ofFn r.fn.toNat)
  let ty ← tyField r.ext.ty
  let mk : MaskSel := ⟨r.ext.men == 1, Fin.ofNat 8 r.ext.msel.toNat⟩
  op5 (r.ext == { ty := tyCode ty, men := mk.enBit, msel := mk.selBits } && tyVec ty && cond.tyOk ty)
  let d ← op6? (finCode 8 r.a)
  let x ← op6? (VSrc.ofCode r.b)
  let y ← op6? (VSrc.ofCode r.c)
  litOk r [x.isLit, y.isLit]
  op6 (litFits r.lit (vfpBits ty))
  match r.form with
  | none => .ok (.vcmp cond d x y)
  | some f => .ok (.vcmpX f cond ty mk d x y)

/-- Decodes `VSEL`. -/
def decVsel (r : Raw) : Dec Instr := do
  lens r [0, 1, 2, 3]
  let ty ← tyField r.ext.ty
  let mk : MaskSel := ⟨r.ext.men == 1, Fin.ofNat 8 r.ext.msel.toNat⟩
  op5 (r.ext == { ty := tyCode ty, men := mk.enBit, msel := mk.selBits, d := r.ext.d })
  let d ← op6? (finCode 16 r.a)
  let m ← op6? (finCode 8 r.b)
  let x ← op6? (VSrc.ofCode r.c)
  let y ← op6? (VSrc.ofCode r.ext.d)
  litOk r [x.isLit, y.isLit]
  op6 (litFits r.lit (bitsFp ty))
  match r.form with
  | none => .ok (.vsel d m x)
  | some f => .ok (.vselX f ty mk d m x y)

/-- Decodes `VAND`. -/
def decVand (r : Raw) : Dec Instr := do
  lens r [0, 1, 2, 3]
  let ty ← tyField r.ext.ty
  let mk : MaskSel := ⟨r.ext.men == 1, Fin.ofNat 8 r.ext.msel.toNat⟩
  op5 (r.ext == { ty := tyCode ty, men := mk.enBit, msel := mk.selBits } && tyInt ty)
  let d ← op6? (finCode 16 r.a)
  let x ← op6? (VSrc.ofCode r.b)
  let y ← op6? (VSrc.ofCode r.c)
  litOk r [x.isLit, y.isLit]
  match r.form with
  | none => .ok (.vand d x y)
  | some f => .ok (.vandX f ty mk d x y)

/-- Decodes `VOR`. -/
def decVor (r : Raw) : Dec Instr := do
  lens r [0, 1, 2, 3]
  let ty ← tyField r.ext.ty
  let mk : MaskSel := ⟨r.ext.men == 1, Fin.ofNat 8 r.ext.msel.toNat⟩
  op5 (r.ext == { ty := tyCode ty, men := mk.enBit, msel := mk.selBits } && tyInt ty)
  let d ← op6? (finCode 16 r.a)
  let x ← op6? (VSrc.ofCode r.b)
  let y ← op6? (VSrc.ofCode r.c)
  litOk r [x.isLit, y.isLit]
  match r.form with
  | none => .ok (.vor d x y)
  | some f => .ok (.vorX f ty mk d x y)

/-- Decodes `VXOR`. -/
def decVxor (r : Raw) : Dec Instr := do
  lens r [0, 1, 2, 3]
  let ty ← tyField r.ext.ty
  let mk : MaskSel := ⟨r.ext.men == 1, Fin.ofNat 8 r.ext.msel.toNat⟩
  op5 (r.ext == { ty := tyCode ty, men := mk.enBit, msel := mk.selBits } && tyInt ty)
  let d ← op6? (finCode 16 r.a)
  let x ← op6? (VSrc.ofCode r.b)
  let y ← op6? (VSrc.ofCode r.c)
  litOk r [x.isLit, y.isLit]
  match r.form with
  | none => .ok (.vxor d x y)
  | some f => .ok (.vxorX f ty mk d x y)

/-- Decodes `VNOT`. -/
def decVnot (r : Raw) : Dec Instr := do
  lens r [0, 1, 2, 3]
  let ty ← tyField r.ext.ty
  let mk : MaskSel := ⟨r.ext.men == 1, Fin.ofNat 8 r.ext.msel.toNat⟩
  op5 (r.ext == { ty := tyCode ty, men := mk.enBit, msel := mk.selBits } && r.c == 0 && tyInt ty)
  let d ← op6? (finCode 16 r.a)
  let x ← op6? (VSrc.ofCode r.b)
  litOk r [x.isLit]
  match r.form with
  | none => .ok (.vnot d x)
  | some f => .ok (.vnotX f ty mk d x)

/-- Decodes `VSHL`. -/
def decVshl (r : Raw) : Dec Instr := do
  lens r [0, 1, 2, 3]
  let ty ← tyField r.ext.ty
  let mk : MaskSel := ⟨r.ext.men == 1, Fin.ofNat 8 r.ext.msel.toNat⟩
  op5 (r.ext == { ty := tyCode ty, men := mk.enBit, msel := mk.selBits } && tyInt ty)
  let d ← op6? (finCode 16 r.a)
  let x ← op6? (VSrc.ofCode r.b)
  let y ← op6? (VSrc.ofCode r.c)
  litOk r [x.isLit, y.isLit]
  match r.form with
  | none => .ok (.vshl d x y)
  | some f => .ok (.vshlX f ty mk d x y)

/-- Decodes `VSHR`. -/
def decVshr (r : Raw) : Dec Instr := do
  lens r [0, 1, 2, 3]
  let ty ← tyField r.ext.ty
  let mk : MaskSel := ⟨r.ext.men == 1, Fin.ofNat 8 r.ext.msel.toNat⟩
  op5 (r.ext == { ty := tyCode ty, men := mk.enBit, msel := mk.selBits } && tyInt ty)
  let d ← op6? (finCode 16 r.a)
  let x ← op6? (VSrc.ofCode r.b)
  let y ← op6? (VSrc.ofCode r.c)
  litOk r [x.isLit, y.isLit]
  match r.form with
  | none => .ok (.vshr d x y)
  | some f => .ok (.vshrX f ty mk d x y)

/-- Decodes `VSRA`. -/
def decVsra (r : Raw) : Dec Instr := do
  lens r [0, 1, 2, 3]
  let ty ← tyField r.ext.ty
  let mk : MaskSel := ⟨r.ext.men == 1, Fin.ofNat 8 r.ext.msel.toNat⟩
  op5 (r.ext == { ty := tyCode ty, men := mk.enBit, msel := mk.selBits } && tyInt ty)
  let d ← op6? (finCode 16 r.a)
  let x ← op6? (VSrc.ofCode r.b)
  let y ← op6? (VSrc.ofCode r.c)
  litOk r [x.isLit, y.isLit]
  match r.form with
  | none => .ok (.vsra d x y)
  | some f => .ok (.vsraX f ty mk d x y)

/-- Decodes `VPERM`. -/
def decVperm (r : Raw) : Dec Instr := do
  lens r [0, 2]
  let ty ← tyField r.ext.ty
  let mk : MaskSel := ⟨r.ext.men == 1, Fin.ofNat 8 r.ext.msel.toNat⟩
  op5 (r.ext == { ty := tyCode ty, men := mk.enBit, msel := mk.selBits })
  let d ← op6? (finCode 16 r.a)
  let x ← op6? (finCode 16 r.b)
  let y ← op6? (finCode 16 r.c)
  if r.len == 0 then .ok (.vperm d x y) else .ok (.vpermX ty mk d x y)

/-- Decodes `VBCAST`. -/
def decVbcast (r : Raw) : Dec Instr := do
  lens r [0, 1, 2, 3]
  let ty ← tyField r.ext.ty
  let mk : MaskSel := ⟨r.ext.men == 1, Fin.ofNat 8 r.ext.msel.toNat⟩
  op5 (r.ext == { ty := tyCode ty, men := mk.enBit, msel := mk.selBits })
  let d ← op6? (finCode 16 r.a)
  let x ← op6? (finCode 16 r.b)
  let k ← op6? (VScal.ofCode r.c)
  litOk r [k.isLit]
  match r.form with
  | none => .ok (.vbcast d x k)
  | some f => .ok (.vbcastX f ty mk d x k)

/-- Decodes `VIDX`. -/
def decVidx (r : Raw) : Dec Instr := do
  lens r [0, 1, 2, 3]
  let ty ← tyField r.ext.ty
  let mk : MaskSel := ⟨r.ext.men == 1, Fin.ofNat 8 r.ext.msel.toNat⟩
  op5 (r.ext == { ty := tyCode ty, men := mk.enBit, msel := mk.selBits } && tyInt ty)
  let d ← op6? (finCode 16 r.a)
  let x ← op6? (VScal.ofCode r.b)
  let y ← op6? (VScal.ofCode r.c)
  litOk r [x.isLit, y.isLit]
  match r.form with
  | none => .ok (.vidx d x y)
  | some f => .ok (.vidxX f ty mk d x y)

/-- Decodes `VMOV`. -/
def decVmov (r : Raw) : Dec Instr := do
  lens r [0, 1, 2, 3]
  let ty ← tyField r.ext.ty
  let mk : MaskSel := ⟨r.ext.men == 1, Fin.ofNat 8 r.ext.msel.toNat⟩
  op5 (r.ext == { ty := tyCode ty, men := mk.enBit, msel := mk.selBits } && r.c == 0)
  let d ← op6? (finCode 16 r.a)
  let x ← op6? (VSrc.ofCode r.b)
  litOk r [x.isLit]
  op6 (litFits r.lit (bitsFp ty))
  match r.form with
  | none => .ok (.vmov d x)
  | some f => .ok (.vmovX f ty mk d x)

/-- Decodes `VINS`. -/
def decVins (r : Raw) : Dec Instr := do
  lens r [0, 1, 2, 3]
  let ty ← tyField r.ext.ty
  op5 (r.ext == { ty := tyCode ty })
  let d ← op6? (finCode 16 r.a)
  let x ← op6? (VScal.ofCode r.b)
  let k ← op6? (VScal.ofCode r.c)
  litOk r [x.isLit, k.isLit]
  match r.form with
  | none => .ok (.vins d x k)
  | some f => .ok (.vinsX f ty d x k)

/-- Decodes `VEXT`. -/
def decVext (r : Raw) : Dec Instr := do
  lens r [0, 1, 2, 3]
  let ty ← tyField r.ext.ty
  op5 (r.ext == { ty := tyCode ty })
  let d ← op6? (Dst.ofCode r.a)
  let x ← op6? (finCode 16 r.b)
  let k ← op6? (VScal.ofCode r.c)
  litOk r [k.isLit]
  match r.form with
  | none => .ok (.vext d x k)
  | some f => .ok (.vextX f ty d x k)

/-- Decodes `VRED`. -/
def decVred (r : Raw) : Dec Instr := do
  lens r [0, 2]
  let op ← op5? (VredOp.ofFn r.fn.toNat)
  let ty ← tyField r.ext.ty
  let rnd ← op5? (Rnd.ofCode r.ext.rnd)
  let mk : MaskSel := ⟨r.ext.men == 1, Fin.ofNat 8 r.ext.msel.toNat⟩
  op5 (r.ext == { ty := tyCode ty, rnd := rnd.code, men := mk.enBit, msel := mk.selBits } && r.c == 0 && op.tyOk ty && (op == .add || rnd == .dyn) && vrnd ty rnd)
  let d ← op6? (Dst.ofCode r.a)
  let x ← op6? (finCode 16 r.b)
  if r.len == 0 then .ok (.vred op d x) else .ok (.vredX ty rnd mk op d x)

/-- Decodes `VSCAN`. -/
def decVscan (r : Raw) : Dec Instr := do
  lens r [0, 2]
  let op ← op5? (VscanOp.ofFn r.fn.toNat)
  let ty ← tyField r.ext.ty
  let rnd ← op5? (Rnd.ofCode r.ext.rnd)
  let mk : MaskSel := ⟨r.ext.men == 1, Fin.ofNat 8 r.ext.msel.toNat⟩
  op5 (r.ext == { ty := tyCode ty, rnd := rnd.code, men := mk.enBit, msel := mk.selBits } && r.c == 0 && tyVec ty && (op == .add || rnd == .dyn) && vrnd ty rnd)
  let d ← op6? (finCode 16 r.a)
  let x ← op6? (finCode 16 r.b)
  if r.len == 0 then .ok (.vscan op d x) else .ok (.vscanX ty rnd mk op d x)

/-- Decodes `VLD`. -/
def decVld (r : Raw) : Dec Instr := do
  lens r [0, 1, 2, 3]
  let win ← op5? (Win.ofCode r.ext.win)
  let ty ← tyField r.ext.ty
  let imm := r.ext.imm
  let ef := r.ext.ef == 1
  let mk : MaskSel := ⟨r.ext.men == 1, Fin.ofNat 8 r.ext.msel.toNat⟩
  op5 (r.ext == { win := win.code, ty := tyCode ty, imm := imm, ef := bit ef, men := mk.enBit, msel := mk.selBits })
  let d ← op6? (finCode 16 r.a)
  let base ← op6? (VScal.ofCode r.b)
  let idx ← op6? (VScal.ofCode r.c)
  litOk r [base.isLit, idx.isLit]
  match r.form with
  | none => .ok (.vld d base idx)
  | some f => .ok (.vldX f win ty imm ef mk d base idx)

/-- Decodes `VST`. -/
def decVst (r : Raw) : Dec Instr := do
  lens r [0, 1, 2, 3]
  let win ← op5? (Win.ofCode r.ext.win)
  let ty ← tyField r.ext.ty
  let imm := r.ext.imm
  let ef := r.ext.ef == 1
  let mk : MaskSel := ⟨r.ext.men == 1, Fin.ofNat 8 r.ext.msel.toNat⟩
  op5 (r.ext == { win := win.code, ty := tyCode ty, imm := imm, ef := bit ef, men := mk.enBit, msel := mk.selBits })
  let d ← op6? (finCode 16 r.a)
  let base ← op6? (VScal.ofCode r.b)
  let idx ← op6? (VScal.ofCode r.c)
  litOk r [base.isLit, idx.isLit]
  match r.form with
  | none => .ok (.vst d base idx)
  | some f => .ok (.vstX f win ty imm ef mk d base idx)

/-- Decodes `VGTH`. -/
def decVgth (r : Raw) : Dec Instr := do
  lens r [0, 1, 2, 3]
  let win ← op5? (Win.ofCode r.ext.win)
  let ty ← tyField r.ext.ty
  let imm := r.ext.imm
  let sh := r.ext.sub.setWidth 2
  let ef := r.ext.ef == 1
  let mk : MaskSel := ⟨r.ext.men == 1, Fin.ofNat 8 r.ext.msel.toNat⟩
  op5 (r.ext == { win := win.code, ty := tyCode ty, imm := imm, sub := sh.zeroExtend 6, ef := bit ef, men := mk.enBit, msel := mk.selBits })
  let d ← op6? (finCode 16 r.a)
  let base ← op6? (VScal.ofCode r.b)
  let x ← op6? (finCode 16 r.c)
  litOk r [base.isLit]
  match r.form with
  | none => .ok (.vgth d base x)
  | some f => .ok (.vgthX f win ty imm sh ef mk d base x)

/-- Decodes `VSCT`. -/
def decVsct (r : Raw) : Dec Instr := do
  lens r [0, 1, 2, 3]
  let win ← op5? (Win.ofCode r.ext.win)
  let ty ← tyField r.ext.ty
  let imm := r.ext.imm
  let sh := r.ext.sub.setWidth 2
  let ef := r.ext.ef == 1
  let mk : MaskSel := ⟨r.ext.men == 1, Fin.ofNat 8 r.ext.msel.toNat⟩
  op5 (r.ext == { win := win.code, ty := tyCode ty, imm := imm, sub := sh.zeroExtend 6, ef := bit ef, men := mk.enBit, msel := mk.selBits })
  let d ← op6? (finCode 16 r.a)
  let base ← op6? (VScal.ofCode r.b)
  let x ← op6? (finCode 16 r.c)
  litOk r [base.isLit]
  match r.form with
  | none => .ok (.vsct d base x)
  | some f => .ok (.vsctX f win ty imm sh ef mk d base x)

/-- Decodes `MAND`. -/
def decMand (r : Raw) : Dec Instr := do
  lens r [0]
  op5 (r.ext == {})
  let d ← op6? (finCode 8 r.a)
  let x ← op6? (finCode 8 r.b)
  let y ← op6? (finCode 8 r.c)
  .ok (.mand d x y)

/-- Decodes `MOR`. -/
def decMor (r : Raw) : Dec Instr := do
  lens r [0]
  op5 (r.ext == {})
  let d ← op6? (finCode 8 r.a)
  let x ← op6? (finCode 8 r.b)
  let y ← op6? (finCode 8 r.c)
  .ok (.mor d x y)

/-- Decodes `MXOR`. -/
def decMxor (r : Raw) : Dec Instr := do
  lens r [0]
  op5 (r.ext == {})
  let d ← op6? (finCode 8 r.a)
  let x ← op6? (finCode 8 r.b)
  let y ← op6? (finCode 8 r.c)
  .ok (.mxor d x y)

/-- Decodes `MNOT`. -/
def decMnot (r : Raw) : Dec Instr := do
  lens r [0]
  op5 (r.ext == {} && r.c == 0)
  let d ← op6? (finCode 8 r.a)
  let x ← op6? (finCode 8 r.b)
  .ok (.mnot d x)

/-- Decodes `MPOP`. -/
def decMpop (r : Raw) : Dec Instr := do
  lens r [0, 2]
  let ty ← tyField r.ext.ty
  op5 (r.ext == { ty := tyCode ty } && r.c == 0)
  let d ← op6? (Dst.ofCode r.a)
  let x ← op6? (finCode 8 r.b)
  if r.len == 0 then .ok (.mpop d x) else .ok (.mpopX ty d x)

/-- Decodes `MCMD`. -/
def decMcmd (r : Raw) : Dec Instr := do
  lens r [0, 2]
  let win ← op5? (Win.ofCode r.ext.win)
  let imm := r.ext.imm
  op5 (r.ext == { win := win.code, imm := imm })
  let d ← op6? (Dst.ofCode r.a)
  let base ← op6? (Src.ofCode r.b)
  let idx ← op6? (Src.ofCode r.c)
  litOk r [base.isLit, idx.isLit]
  match r.form with
  | none => .ok (.mcmd d base idx)
  | some f => .ok (.mcmdX f win imm d base idx)

/-- Decodes `MQRY`. -/
def decMqry (r : Raw) : Dec Instr := do
  lens r [0, 1]
  op5 (r.ext == {} && r.c == 0)
  let d ← op6? (Dst.ofCode r.a)
  let q ← op6? (Src.ofCode r.b)
  litOk r [q.isLit]
  .ok (.mqry r.litOpt d q)

/-- Decodes `DJOB`. -/
def decDjob (r : Raw) : Dec Instr := do
  lens r [0, 1, 2, 3]
  let win ← op5? (Win.ofCode r.ext.win)
  let imm := r.ext.imm
  op5 (r.ext == { win := win.code, imm := imm } && r.c == 0)
  let d ← op6? (Dst.ofCode r.a)
  let base ← op6? (Src.ofCode r.b)
  litOk r [base.isLit]
  match r.form with
  | none => .ok (.djob d base)
  | some f => .ok (.djobX f win imm d base)

/-- Decodes `RBIND`. -/
def decRbind (r : Raw) : Dec Instr := do
  lens r [0, 1, 2, 3]
  let win ← op5? (Win.ofCode r.ext.win)
  let imm := r.ext.imm
  op5 (r.ext == { win := win.code, imm := imm })
  let d ← op6? (Dst.ofCode r.a)
  let base ← op6? (Src.ofCode r.b)
  let range ← op6? (Src.ofCode r.c)
  litOk r [base.isLit, range.isLit]
  match r.form with
  | none => .ok (.rbind d base range)
  | some f => .ok (.rbindX f win imm d base range)

/-- Decodes `RFREE`. -/
def decRfree (r : Raw) : Dec Instr := do
  lens r [0, 1]
  op5 (r.ext == {} && r.a == 0 && r.c == 0)
  let idx ← op6? (Src.ofCode r.b)
  litOk r [idx.isLit]
  .ok (.rfree r.litOpt idx)

/-- Decodes `MSEND`. -/
def decMsend (r : Raw) : Dec Instr := do
  lens r [0, 1, 2, 3]
  let sc ← op5? (Scope.ofCode r.ext.scope)
  let win ← op5? (Win.ofCode r.ext.win)
  let imm := r.ext.imm
  let chk := r.ext.chk == 1
  op5 (r.ext == { scope := sc.code, win := win.code, imm := imm, chk := bit chk } && r.a == 0)
  let base ← op6? (Src.ofCode r.b)
  let ch ← op6? (finCode 16 r.c)
  litOk r [base.isLit]
  match r.form with
  | none => .ok (.msend base ch)
  | some f => .ok (.msendX f sc win imm chk base ch)

/-- Decodes `MRECV`. -/
def decMrecv (r : Raw) : Dec Instr := do
  lens r [0, 1, 2, 3]
  let sc ← op5? (Scope.ofCode r.ext.scope)
  let win ← op5? (Win.ofCode r.ext.win)
  let imm := r.ext.imm
  let dv := r.ext.dv == 1
  op5 (r.ext == { scope := sc.code, win := win.code, imm := imm, dv := bit dv })
  let d ← op6? (Dst.ofCode r.a)
  let base ← op6? (Src.ofCode r.b)
  let ch ← op6? (finCode 16 r.c)
  litOk r [base.isLit]
  match r.form with
  | none => .ok (.mrecv d base ch)
  | some f => .ok (.mrecvX f sc win imm dv d base ch)

/-- Decodes `MPROBE`. -/
def decMprobe (r : Raw) : Dec Instr := do
  lens r [0]
  op5 (r.ext == {} && r.b == 0)
  let d ← op6? (Dst.ofCode r.a)
  let ch ← op6? (finCode 16 r.c)
  .ok (.mprobe d ch)

/-- Decodes `XMIT`. -/
def decXmit (r : Raw) : Dec Instr := do
  lens r [0]
  op5 (r.ext == {} && r.a == 0)
  let v ← op6? (Src.ofCode r.b)
  let dir ← op6? (finCode 4 r.c)
  litOk r [v.isLit]
  .ok (.xmit v dir)

/-- Decodes `IMUX`. -/
def decImux (r : Raw) : Dec Instr := do
  lens r [0]
  op5 (r.ext == {} && r.b == 0)
  let d ← op6? (Dst.ofCode r.a)
  let dir ← op6? (finCode 4 r.c)
  .ok (.imux d dir)

/-- Decodes `HBAR`. -/
def decHbar (r : Raw) : Dec Instr := do
  lens r [0, 1, 2, 3]
  let xp := r.ext.sub == 1
  op5 (r.ext == { sub := if xp then 1 else 0 } && r.a == 0 && r.c == 0)
  let grp ← op6? (Src.ofCode r.b)
  litOk r [grp.isLit]
  match r.form with
  | none => .ok (.hbar grp)
  | some f => .ok (.hbarX f xp grp)

/-- Decodes `TRG_POST`. -/
def decTrgPost (r : Raw) : Dec Instr := do
  lens r [0, 1, 2, 3]
  let win ← op5? (Win.ofCode r.ext.win)
  let imm := r.ext.imm
  op5 (r.ext == { win := win.code, imm := imm } && r.c == 0)
  let d ← op6? (Dst.ofCode r.a)
  let base ← op6? (Src.ofCode r.b)
  litOk r [base.isLit]
  match r.form with
  | none => .ok (.trgPost d base)
  | some f => .ok (.trgPostX f win imm d base)

/-- Decodes `TRG_INC`. -/
def decTrgInc (r : Raw) : Dec Instr := do
  lens r [0, 1, 2, 3]
  let sc ← op5? (Scope.ofCode r.ext.scope)
  op5 (r.ext == { scope := sc.code } && r.a == 0)
  let ctr ← op6? (Src.ofCode r.b)
  let n ← op6? (Src.ofCode r.c)
  litOk r [ctr.isLit, n.isLit]
  match r.form with
  | none => .ok (.trgInc ctr n)
  | some f => .ok (.trgIncX f sc ctr n)

/-- Decodes `TRG_RD`. -/
def decTrgRd (r : Raw) : Dec Instr := do
  lens r [0, 1, 2, 3]
  let sc ← op5? (Scope.ofCode r.ext.scope)
  op5 (r.ext == { scope := sc.code } && r.c == 0)
  let d ← op6? (Dst.ofCode r.a)
  let ctr ← op6? (Src.ofCode r.b)
  litOk r [ctr.isLit]
  match r.form with
  | none => .ok (.trgRd d ctr)
  | some f => .ok (.trgRdX f sc d ctr)

/-- Decodes `TRG_CANCEL`. -/
def decTrgCancel (r : Raw) : Dec Instr := do
  lens r [0, 1]
  op5 (r.ext == {} && r.c == 0)
  let d ← op6? (Dst.ofCode r.a)
  let h ← op6? (Src.ofCode r.b)
  litOk r [h.isLit]
  .ok (.trgCancel r.litOpt d h)

/-- Decodes `RDTIME`. -/
def decRdtime (r : Raw) : Dec Instr := do
  lens r [0]
  op5 (r.ext == {} && r.b == 0 && r.c == 0)
  let d ← op6? (Dst.ofCode r.a)
  .ok (.rdtime d)

/-- Decodes `RDERR`. -/
def decRderr (r : Raw) : Dec Instr := do
  lens r [0]
  op5 (r.ext == {} && r.b == 0 && r.c == 0)
  let d ← op6? (Dst.ofCode r.a)
  .ok (.rderr d)

/-- Decodes `EVRD`. -/
def decEvrd (r : Raw) : Dec Instr := do
  lens r [0]
  op5 (r.ext == {} && r.c == 0)
  let d ← op6? (Dst.ofCode r.a)
  let k ← op6? (finCode 16 r.b)
  .ok (.evrd d k)

/-- Decodes `EVCLR`. -/
def decEvclr (r : Raw) : Dec Instr := do
  lens r [0]
  op5 (r.ext == {} && r.a == 0 && r.c == 0)
  let k ← op6? (finCode 17 r.b)
  .ok (.evclr k)

/-- Decodes `EVGATH`. -/
def decEvgath (r : Raw) : Dec Instr := do
  lens r [0, 1, 2, 3]
  let imm := r.ext.imm
  op5 (r.ext == { imm := imm } && r.a == 0 && r.c == 0)
  let base ← op6? (Src.ofCode r.b)
  litOk r [base.isLit]
  match r.form with
  | none => .ok (.evgath base)
  | some f => .ok (.evgathX f imm base)

/-- Decodes `CRD`. -/
def decCrd (r : Raw) : Dec Instr := do
  lens r [2]
  let cr ← op5? (CReg.ofFn r.ext.imm.toNat)
  op5 (r.ext == { imm := r.ext.imm } && r.b == 0 && r.c == 0)
  let d ← op6? (Dst.ofCode r.a)
  .ok (.crd d cr)

/-- Decodes `CWR`. -/
def decCwr (r : Raw) : Dec Instr := do
  lens r [2, 3]
  let cr ← op5? (CReg.ofFn r.ext.imm.toNat)
  op5 (r.ext == { imm := r.ext.imm } && r.a == 0 && r.c == 0)
  let v ← op6? (Src.ofCode r.b)
  litOk r [v.isLit]
  .ok (.cwr r.litOpt cr v)

/-- Decodes `TRAP`. -/
def decTrap (r : Raw) : Dec Instr := do
  lens r [2, 3]
  let svc := r.ext.imm.setWidth 12
  op5 (r.ext == { imm := svc.zeroExtend 24 } && r.c == 0)
  let d ← op6? (Dst.ofCode r.a)
  let arg ← op6? (Src.ofCode r.b)
  litOk r [arg.isLit]
  .ok (.trap r.litOpt d svc arg)

/-- Decodes `BRK`. -/
def decBrk (r : Raw) : Dec Instr := do
  lens r [0]
  let code := r.c ++ r.b
  op5 (r.ext == {} && r.a == 0)
  .ok (.brk code)

/-- Decodes `WFE`. -/
def decWfe (r : Raw) : Dec Instr := do
  lens r [0]
  op5 (r.ext == {} && r.b == 0 && r.c == 0)
  let d ← op6? (Dst.ofCode r.a)
  .ok (.wfe d)

/-- Decodes `IDLE`. -/
def decIdle (r : Raw) : Dec Instr := do
  lens r [0]
  op5 (r.ext == {} && r.a == 0 && r.b == 0 && r.c == 0)
  .ok (.idle)

/-- Decodes the fields of an instruction whose MAJ and FN are assigned (R32). -/
def decodeRaw (r : Raw) : Dec Instr :=
  match r.maj.toNat with
  | 0x00 =>
    match r.fn.toNat with
    | 0 => decAdd r
    | 1 => decSub r
    | 2 => decNeg r
    | 3 => decAbs r
    | 4 => decMin r
    | 5 => decMinz r
    | 6 => decMax r
    | 7 => decMaxz r
    | 8 => decLea r
    | _ => .error .illegalOp
  | 0x01 =>
    match r.fn.toNat with
    | 0 => decMul r
    | 1 => decMulh r
    | 2 => decMulhz r
    | 3 => decDiv r
    | 4 => decDivz r
    | 5 => decRem r
    | 6 => decRemz r
    | _ => .error .illegalOp
  | 0x02 =>
    match r.fn.toNat with
    | 0 => decAnd r
    | 1 => decOr r
    | 2 => decXor r
    | 3 => decAndn r
    | 4 => decNot r
    | _ => .error .illegalOp
  | 0x03 =>
    match r.fn.toNat with
    | 0 => decShl r
    | 1 => decShr r
    | 2 => decSra r
    | 3 => decRotl r
    | 4 => decClz r
    | 5 => decCtz r
    | 6 => decPopc r
    | 7 => decBext r
    | 8 => decBins r
    | 9 => decSext r
    | 10 => decZext r
    | _ => .error .illegalOp
  | 0x04 =>
    match r.fn.toNat with
    | 16 => decSel r
    | 17 => decMov r
    | 18 => decMovl r
    | _ => decCmp r
  | 0x10 =>
    match r.fn.toNat with
    | 0 => decFadd r
    | 1 => decFsub r
    | 2 => decFmul r
    | 3 => decFma r
    | 4 => decFdiv r
    | 5 => decFsqrt r
    | 6 => decFmin r
    | 7 => decFmax r
    | 8 => decFabs r
    | 9 => decFneg r
    | _ => .error .illegalOp
  | 0x11 =>
    match r.fn.toNat with
    | 16 => decFcvt r
    | 17 => decFcls r
    | _ => decFcmp r
  | 0x12 =>
    match r.fn.toNat with
    | 0 => decSymt r
    | 1 => decSymw r
    | 2 => decSymx r
    | _ => .error .illegalOp
  | 0x18 =>
    match r.fn.toNat with
    | 0 => decBr r
    | _ => decBcmp r
  | 0x19 =>
    match r.fn.toNat with
    | 0 => decCall r
    | 1 => decRet r
    | 2 => decJtb r
    | 3 => decJtc r
    | 4 => decLand r
    | _ => .error .illegalOp
  | 0x1A =>
    match r.fn.toNat with
    | 0 => decLoop r
    | 1 => decSpillw r
    | 2 => decFillw r
    | 3 => decHret r
    | 4 => decRealign r
    | 5 => decNop r
    | _ => .error .illegalOp
  | 0x1B =>
    match r.fn.toNat with
    | 0 => decFin r
    | 1 => decStart r
    | 2 => decJoin r
    | 3 => decYield r
    | 4 => decWait r
    | _ => .error .illegalOp
  | 0x20 =>
    match r.fn.toNat / 8 with
    | 0 => decLd r
    | 1 => decSt r
    | 2 => decLdd r
    | 3 => decLdacq r
    | 4 => decStrel r
    | 5 => decLld r
    | 6 => decLst r
    | _ => .error .illegalOp
  | 0x21 =>
    match r.fn.toNat / 8 with
    | 0 => decLdb r
    | 1 => decStb r
    | _ => .error .illegalOp
  | 0x22 =>
    match r.fn.toNat with
    | 0 => decStsig r
    | 1 => decStg r
    | 2 => decLdg r
    | _ => .error .illegalOp
  | 0x23 =>
    match r.fn.toNat with
    | 0 => decCbwaitF r
    | 1 => decCbwaitE r
    | 2 => decCbadvF r
    | 3 => decCbadvE r
    | _ => .error .illegalOp
  | 0x24 =>
    match r.fn.toNat with
    | 0 => decPubl r
    | 1 => decTdecl r
    | 2 => decTfree r
    | 3 => decTfwd r
    | _ => .error .illegalOp
  | 0x25 =>
    match r.fn.toNat with
    | 0 => decPref r
    | 1 => decEvict r
    | 2 => decPin r
    | 3 => decUnpin r
    | _ => .error .illegalOp
  | 0x26 =>
    match r.fn.toNat with
    | 0 => decBarinit r
    | 1 => decBarexp r
    | 2 => decBararr r
    | 3 => decBarwait r
    | _ => .error .illegalOp
  | 0x2C =>
    match r.fn.toNat with
    | _ => decAtom r
  | 0x2D =>
    match r.fn.toNat with
    | _ => decRed r
  | 0x2E =>
    match r.fn.toNat with
    | 0 => decFence r
    | 1 => decIsync r
    | _ => .error .illegalOp
  | 0x30 =>
    match r.fn.toNat with
    | 0 => decVadd r
    | 1 => decVsub r
    | 2 => decVmul r
    | 3 => decVfma r
    | 4 => decVmin r
    | 5 => decVmax r
    | 6 => decVabs r
    | 7 => decVneg r
    | _ => .error .illegalOp
  | 0x31 =>
    match r.fn.toNat with
    | 0 => decVrcp r
    | 1 => decVrsq r
    | 2 => decVexp r
    | 3 => decVlog r
    | 4 => decVtanh r
    | _ => .error .illegalOp
  | 0x32 =>
    match r.fn.toNat with
    | 0 => decVcvt r
    | 1 => decVquant r
    | 2 => decVdeq r
    | _ => .error .illegalOp
  | 0x33 =>
    match r.fn.toNat with
    | 16 => decVsel r
    | _ => decVcmp r
  | 0x34 =>
    match r.fn.toNat with
    | 0 => decVand r
    | 1 => decVor r
    | 2 => decVxor r
    | 3 => decVnot r
    | 4 => decVshl r
    | 5 => decVshr r
    | 6 => decVsra r
    | _ => .error .illegalOp
  | 0x35 =>
    match r.fn.toNat with
    | 0 => decVperm r
    | 1 => decVbcast r
    | 2 => decVidx r
    | 3 => decVmov r
    | 4 => decVins r
    | 5 => decVext r
    | _ => .error .illegalOp
  | 0x36 =>
    match r.fn.toNat with
    | _ => if r.fn.toNat < 16 then decVred r else decVscan r
  | 0x37 =>
    match r.fn.toNat with
    | 0 => decVld r
    | 1 => decVst r
    | 2 => decVgth r
    | 3 => decVsct r
    | _ => .error .illegalOp
  | 0x38 =>
    match r.fn.toNat with
    | 0 => decMand r
    | 1 => decMor r
    | 2 => decMxor r
    | 3 => decMnot r
    | 4 => decMpop r
    | _ => .error .illegalOp
  | 0x3C =>
    match r.fn.toNat with
    | 0 => decMcmd r
    | 1 => decMqry r
    | _ => .error .illegalOp
  | 0x3D =>
    match r.fn.toNat with
    | 0 => decDjob r
    | 1 => decRbind r
    | 2 => decRfree r
    | 3 => decMsend r
    | 4 => decMrecv r
    | 5 => decMprobe r
    | 6 => decXmit r
    | 7 => decImux r
    | 8 => decHbar r
    | _ => .error .illegalOp
  | 0x3E =>
    match r.fn.toNat with
    | 0 => decTrgPost r
    | 1 => decTrgInc r
    | 2 => decTrgRd r
    | 3 => decTrgCancel r
    | 4 => decRdtime r
    | 5 => decRderr r
    | 6 => decEvrd r
    | 7 => decEvclr r
    | 8 => decEvgath r
    | _ => .error .illegalOp
  | 0x3F =>
    match r.fn.toNat with
    | 0 => decCrd r
    | 1 => decCwr r
    | 2 => decTrap r
    | 3 => decBrk r
    | 4 => decWfe r
    | 5 => decIdle r
    | _ => .error .illegalOp
  | _ => .error .illegalOp

/-- The instruction of the fields: the zero word first, then MAJ and FN, then the form (R30, R31, R32). -/
def decodeFields (r : Raw) : Dec Instr :=
  if r.word0 == 0 then .ok .trapz
  else if illegalMajFn r.word0 then .ok (.illegalOp r.word0)
  else decodeRaw r

/-- The instruction at the front of a list of words. The zero word and a word with an unassigned MAJ or FN are
instructions by word 0 alone. -/
def decodeWords (ws : List (BitVec 32)) : Dec Instr :=
  match ws with
  | [] => .error .truncated
  | w0 :: _ =>
    if w0 == 0 then .ok .trapz
    else if illegalMajFn w0 then .ok (.illegalOp w0)
    else
      match Raw.ofWords ws with
      | none => .error .truncated
      | some r => decodeFields r

/-- The length in bytes of the instruction whose word 0 this is (R10). -/
def instrBytes (w0 : BitVec 32) : Nat := 4 * lenWords (w0.extractLsb' 0 2)

/-- The instruction at the front of a list of bytes, and the bytes after it. -/
def decode (bs : List Byte) : Dec (Instr × List Byte) :=
  match bytesWords bs with
  | [] => .error .truncated
  | w0 :: rest => do
    let i ← decodeWords (w0 :: rest)
    .ok (i, bs.drop (instrBytes w0))

/-- The words of an instruction; none for a step row. -/
def encode (i : Instr) : Option (List (BitVec 32)) :=
  match i with
  | .illegalOp w => some [w]
  | _ => i.raw.map Raw.words

/-- The instruction read from words numbered as spec/opcode_table.json numbers their bits: bit 0 is the least
significant bit of word 0, and the bits above `nbits` are 0. -/
def decodeTableWord (nbits w : Nat) : Option Instr :=
  let v : BitVec 160 := BitVec.ofNat 160 (w % 2 ^ nbits)
  let ws := [v.extractLsb' 0 32, v.extractLsb' 32 32, v.extractLsb' 64 32, v.extractLsb' 96 32, v.extractLsb' 128 32]
  match decode (ws.flatMap wordBytes) with
  | .ok (i, _) => some i
  | .error _ => none

end

end Sys2Proof
end

