-- ==== Sys2Proof/Config.lean ====
section
/-! DEFINITION. The free values: what the spec leaves open and does not bound. Each is a constant without a body, so that
no proof can use a value of it (notes/assumptions 1). -/

namespace Sys2Proof.Config

/-- A byte of an activation record that lies past the A window or in a hidden range (R194 gives it no content): the
command's serial number, and the byte's number in the command. -/
opaque openByte : Nat → Nat → Byte

/-- Whether a signature of SLH-DSA over a digest verifies under the public key that is fused at manufacture (R443): the
spec gives neither the key nor the algorithm's steps. -/
opaque signatureOk : List Byte → List Byte → Bool

/-- The device's SLH-DSA signature of a report (R445): the key never leaves the security core. -/
opaque sign : List Byte → List Byte

/-- The device serial of a report (R445). -/
opaque deviceSerial : BitVec 64

/-- The bytes whose digest MEAS.2 is extended with, for a partition mode, the retired cores, the repair table and the fused
minimum (R444 gives them no encoding). -/
opaque configBytes : Nat → List Nat → List Byte → Nat → List Byte

/-- The bytes whose digest MEAS.3 is extended with, for a space, a partition and its root (R444 gives them no encoding). -/
opaque rootBytes : Nat → Nat → Nat → List Byte

/-- Whether, at a step of the engines, the load that stands behind a barrier arrival of the same context starts its first-touch copy before
the arrival has been performed (R340 allows both orders). -/
opaque overtakes : Nat → Bool

/-- How many pages the shadow reserve of a checkpoint holds (R440 gives it no size). -/
opaque reservePages : Nat

end Sys2Proof.Config
end

