-- ==== Sys2Proof/Machine/Float.lean ====
section
/-! DEFINITION. Number formats, exact arithmetic and rounding (R43 to R64, R449). A floating value is a sign, a natural
number and a power of two; an operation is exact, and one rounding packs it into a format. -/

namespace Sys2Proof.Machine

/-- A floating-point format (R44, R45): exponent bits, fraction bits, bias, and whether it has infinities. -/
structure Fmt where
  xb : Nat
  fb : Nat
  bias : Nat
  hasInf : Bool
  deriving DecidableEq, Repr

def Fmt.f32 : Fmt := ⟨8, 23, 127, true⟩
def Fmt.f16 : Fmt := ⟨5, 10, 15, true⟩
def Fmt.bf16 : Fmt := ⟨8, 7, 127, true⟩
def Fmt.e4m3 : Fmt := ⟨4, 3, 7, false⟩
def Fmt.e5m2 : Fmt := ⟨5, 2, 15, true⟩

/-- The format of a floating TYPE; an integer type has none and reads as FP32. -/
def Fmt.ofTy : Ty → Fmt
  | .f16 => .f16
  | .bf16 => .bf16
  | .e4m3 => .e4m3
  | .e5m2 => .e5m2
  | _ => .f32

/-- Width in bits. -/
def Fmt.width (f : Fmt) : Nat := 1 + f.xb + f.fb

/-- The FP8 formats, whose overflow R55 gives. -/
def Fmt.isFp8 (f : Fmt) : Bool := f.width == 8

/-- The canonical NaN (R45). -/
def Fmt.nan (f : Fmt) : Nat :=
  if f.hasInf then (2 ^ f.xb - 1) * 2 ^ f.fb + 2 ^ (f.fb - 1) else 0x7F

/-- The encoding of a sign, exponent field and fraction field. -/
def Fmt.enc (f : Fmt) (neg : Bool) (x fr : Nat) : Nat :=
  (if neg then 2 ^ (f.xb + f.fb) else 0) + x * 2 ^ f.fb + fr

/-- The infinity of a sign. -/
def Fmt.inf (f : Fmt) (neg : Bool) : Nat := f.enc neg (2 ^ f.xb - 1) 0

/-- The largest finite value of a sign (R45). -/
def Fmt.maxFin (f : Fmt) (neg : Bool) : Nat :=
  if f.hasInf then f.enc neg (2 ^ f.xb - 2) (2 ^ f.fb - 1) else f.enc neg (2 ^ f.xb - 1) (2 ^ f.fb - 2)

/-- A floating value, exact: NaN, an infinity, or (-1)^neg * m * 2^e. -/
inductive FpVal where
  | nan
  | inf (neg : Bool)
  | fin (neg : Bool) (m : Nat) (e : Int)
  deriving DecidableEq, Repr

/-- The value of an encoding (R44, R45). -/
def Fmt.val (f : Fmt) (b : Nat) : FpVal :=
  let fr := b % 2 ^ f.fb
  let x := b / 2 ^ f.fb % 2 ^ f.xb
  let neg := b / 2 ^ (f.fb + f.xb) % 2 == 1
  if x = 2 ^ f.xb - 1 ∧ f.hasInf then (if fr = 0 then .inf neg else .nan)
  else if x = 2 ^ f.xb - 1 ∧ fr = 2 ^ f.fb - 1 then .nan
  else if x = 0 then .fin neg fr (1 - (f.bias : Int) - f.fb)
  else .fin neg (2 ^ f.fb + fr) ((x : Int) - f.bias - f.fb)

/-- Whether an encoding is subnormal (R44). -/
def Fmt.isSub (f : Fmt) (b : Nat) : Bool :=
  b % 2 ^ f.fb != 0 && b / 2 ^ f.fb % 2 ^ f.xb == 0

/-- The zero with an encoding's sign (R53). -/
def Fmt.flush (f : Fmt) (b : Nat) : Nat := b / 2 ^ (f.fb + f.xb) % 2 * 2 ^ (f.fb + f.xb)

/-- An effective rounding mode (R47). -/
inductive RMode where
  | rne | rtz | rup | rdn | sr
  deriving DecidableEq, Repr

/-- What a floating result counts (R65). -/
inductive FpEvent where
  | nan | overflow | saturate | fp8Nan | underflow
  deriving DecidableEq, Repr

/-- The counter of an event of a scalar result (R65). -/
def FpEvent.scalar : FpEvent → Nat
  | .nan => 0 | .overflow => 1 | .saturate => 5 | .fp8Nan => 6 | .underflow => 12

/-- The counter of an event of a vector result (R65). -/
def FpEvent.vector : FpEvent → Nat
  | .nan => 2 | .overflow => 3 | .saturate => 5 | .fp8Nan => 6 | .underflow => 12

/-- A magnitude m / 2^k rounded to a natural number, and whether bits were lost (R47, R51). `r` is the stochastic
generator's number. -/
def roundShift (mode : RMode) (neg : Bool) (r : Nat) (m k : Nat) : Nat × Bool :=
  let n := m / 2 ^ k
  let rest := m % 2 ^ k
  let up : Bool :=
    match mode with
    | .rne => 2 * rest > 2 ^ k || (2 * rest == 2 ^ k && n % 2 == 1)
    | .rtz => false
    | .rup => rest != 0 && !neg
    | .rdn => rest != 0 && neg
    | .sr => rest * 2 ^ 16 / 2 ^ k + r ≥ 2 ^ 16
  (if up then n + 1 else n, rest != 0)

/-- The overflow result of a finite value (R54, R55). -/
def Fmt.overflow (f : Fmt) (mode : RMode) (neg ovf8 : Bool) : Nat × List FpEvent :=
  if f.isFp8 then
    if ovf8 then (f.nan, [.fp8Nan]) else (f.maxFin neg, [.saturate])
  else
    match mode, neg with
    | .rtz, _ => (f.maxFin neg, [.overflow])
    | .rup, true => (f.maxFin neg, [.overflow])
    | .rdn, false => (f.maxFin neg, [.overflow])
    | _, _ => (f.inf neg, [.overflow])

/-- One rounding of an exact value into a format, and what it counts (R46, R47, R54, R55, R449). -/
def Fmt.pack (f : Fmt) (mode : RMode) (ovf8 : Bool) (r : Nat) (v : FpVal) : Nat × List FpEvent :=
  match v with
  | .nan => (f.nan, [.nan])
  | .inf neg => if f.hasInf then (f.inf neg, []) else f.overflow mode neg ovf8
  | .fin neg m e =>
    if m = 0 then (f.enc neg 0 0, []) else
    let top : Int := (Nat.log2 m : Int) + e
    let q : Int := max top (1 - (f.bias : Int)) - f.fb
    let (n, lost) := if q ≤ e then (m * 2 ^ (e - q).toNat, false) else roundShift mode neg r m (q - e).toNat
    let (n, q) := if n ≥ 2 ^ (f.fb + 1) then (n / 2, q + 1) else (n, q)
    if n < 2 ^ f.fb then (f.enc neg 0 n, if lost then [.underflow] else [])
    else
      let x := (q + f.fb + f.bias).toNat
      let fr := n - 2 ^ f.fb
      let top := if f.hasInf then 2 ^ f.xb - 1 else 2 ^ f.xb
      if x ≥ top || (!f.hasInf && x + 1 == top && fr == 2 ^ f.fb - 1) then f.overflow mode neg ovf8
      else (f.enc neg x fr, [])

/-- Rounding to nearest even in FP32 (the harrow's rne32). -/
def rne32 (v : FpVal) : Nat := (Fmt.f32.pack .rne false 0 v).1

def FpVal.neg : FpVal → FpVal
  | .nan => .nan
  | .inf s => .inf (!s)
  | .fin s m e => .fin (!s) m e

def FpVal.abs : FpVal → FpVal
  | .nan => .nan
  | .inf _ => .inf false
  | .fin _ m e => .fin false m e

def FpVal.isNan : FpVal → Bool
  | .nan => true
  | _ => false

def FpVal.isInf : FpVal → Bool
  | .inf _ => true
  | _ => false

def FpVal.isFin : FpVal → Bool
  | .fin .. => true
  | _ => false

/-- The value of a natural number with a sign. -/
def FpVal.ofInt (i : Int) : FpVal := .fin (i < 0) i.natAbs 0

/-- m * 2^e as an integer multiple of 2^d, for d ≤ e. -/
def scaled (neg : Bool) (m : Nat) (e d : Int) : Int :=
  let v : Int := (m * 2 ^ (e - d).toNat : Nat)
  if neg then -v else v

/-- The exact sum; an exact zero from operands of unlike sign is -0 only toward -∞ (IEEE 754-2019, R89). -/
def FpVal.add (mode : RMode) (a b : FpVal) : FpVal :=
  match a, b with
  | .nan, _ => .nan
  | _, .nan => .nan
  | .inf s, .inf t => if s = t then .inf s else .nan
  | .inf s, _ => .inf s
  | _, .inf t => .inf t
  | .fin s m e, .fin t n g =>
    let d := min e g
    let v := scaled s m e d + scaled t n g d
    if v = 0 then .fin (if s = t then s else mode == .rdn) 0 0 else .fin (v < 0) v.natAbs d

def FpVal.sub (mode : RMode) (a b : FpVal) : FpVal := FpVal.add mode a b.neg

/-- The exact product. -/
def FpVal.mul (a b : FpVal) : FpVal :=
  match a, b with
  | .nan, _ => .nan
  | _, .nan => .nan
  | .inf s, .inf t => .inf (s != t)
  | .inf s, .fin t n _ => if n = 0 then .nan else .inf (s != t)
  | .fin s m _, .inf t => if m = 0 then .nan else .inf (s != t)
  | .fin s m e, .fin t n g => .fin (s != t) (m * n) (e + g)

/-- The exact x * y + z, for one rounding. -/
def FpVal.fma (mode : RMode) (a b c : FpVal) : FpVal := FpVal.add mode (FpVal.mul a b) c

/-- x / y to at least 69 significant bits, the last one set where bits are lost below it, so that one rounding of the
answer is one rounding of the quotient. -/
def FpVal.div (a b : FpVal) : FpVal :=
  match a, b with
  | .nan, _ => .nan
  | _, .nan => .nan
  | .inf _, .inf _ => .nan
  | .inf s, .fin t _ _ => .inf (s != t)
  | .fin s _ _, .inf t => .fin (s != t) 0 0
  | .fin s m e, .fin t n g =>
    if n = 0 then (if m = 0 then .nan else .inf (s != t))
    else if m = 0 then .fin (s != t) 0 0
    else
      let k := Nat.log2 n + 70
      let q := m * 2 ^ k / n
      .fin (s != t) (2 * q + (if m * 2 ^ k % n = 0 then 0 else 1)) (e - g - k - 1)

/-- The integer square root, bit by bit from bit `i - 1`. -/
def isqrt (i n r : Nat) : Nat :=
  match i with
  | 0 => r
  | i + 1 => if (r + 2 ^ i) * (r + 2 ^ i) ≤ n then isqrt i n (r + 2 ^ i) else isqrt i n r

/-- √x to at least 70 significant bits, the last one set where bits are lost below it (R89). -/
def FpVal.sqrt (a : FpVal) : FpVal :=
  match a with
  | .nan => .nan
  | .inf s => if s then .nan else .inf false
  | .fin s m e =>
    if m = 0 then .fin s 0 0 else
    if s then .nan else
    let (m, e) := if e % 2 = 0 then (m, e) else (2 * m, e - 1)
    let n := m * 2 ^ 140
    let r := isqrt (Nat.log2 n / 2 + 1) n 0
    .fin false (2 * r + (if r * r = n then 0 else 1)) (e / 2 - 71)

/-- 1 / √x, as `FpVal.sqrt` (R167). -/
def FpVal.rsqrt (a : FpVal) : FpVal :=
  match a with
  | .nan => .nan
  | .inf s => if s then .nan else .fin false 0 0
  | .fin s m e =>
    if m = 0 then .inf s else
    if s then .nan else
    let (m, e) := if e % 2 = 0 then (m, e) else (2 * m, e - 1)
    let k := Nat.log2 m / 2 + 71
    let n := 2 ^ (2 * k)
    let r := isqrt (k + 1) (n / m) 0
    .fin false (2 * r + (if r * r * m = n then 0 else 1)) (-(e / 2) - k - 1)

/-- x < y between values that are not NaN; -0 equals +0. -/
def FpVal.lt (a b : FpVal) : Bool :=
  match a, b with
  | .nan, _ => false
  | _, .nan => false
  | .inf s, .inf t => s && !t
  | .inf s, .fin .. => s
  | .fin .., .inf t => !t
  | .fin s m e, .fin t n g => let d := min e g; decide (scaled s m e d < scaled t n g d)

/-- x = y between values that are not NaN. -/
def FpVal.eq (a b : FpVal) : Bool :=
  match a, b with
  | .nan, _ => false
  | _, .nan => false
  | .inf s, .inf t => s == t
  | .fin s m e, .fin t n g => let d := min e g; decide (scaled s m e d = scaled t n g d)
  | _, _ => false

/-- The sign of a value that is not NaN. -/
def FpVal.signBit : FpVal → Bool
  | .nan => false
  | .inf s => s
  | .fin s _ _ => s

/-- The smaller value, -0 below +0, a NaN only if both are (R89). -/
def FpVal.min2 (a b : FpVal) : FpVal :=
  if a.isNan then b else if b.isNan then a
  else if a.lt b then a else if b.lt a then b else if a.signBit then a else b

/-- The larger value, -0 below +0, a NaN only if both are (R89). -/
def FpVal.max2 (a b : FpVal) : FpVal :=
  if a.isNan then b else if b.isNan then a
  else if b.lt a then a else if a.lt b then b else if a.signBit then b else a

/-- A floating comparison (R90). -/
def fcondEval (c : FCond) (a b : FpVal) : Bool :=
  let un := a.isNan || b.isNan
  match c with
  | .eq => a.eq b
  | .ne => un || !a.eq b
  | .lt => a.lt b
  | .le => !un && (a.lt b || a.eq b)
  | .gt => b.lt a
  | .ge => !un && (b.lt a || a.eq b)
  | .un => un
  | .ord => !un

/-- The one-hot class of an encoding (R92). -/
def Fmt.cls (f : Fmt) (b : Nat) : Nat :=
  match f.val b with
  | .nan => 2 ^ 8
  | .inf neg => if neg then 2 ^ 0 else 2 ^ 7
  | .fin neg m _ =>
    if m = 0 then (if neg then 2 ^ 3 else 2 ^ 4)
    else if f.isSub b then (if neg then 2 ^ 2 else 2 ^ 5)
    else (if neg then 2 ^ 1 else 2 ^ 6)

/-- The least and greatest value of an integer type (R43). -/
def intMin (t : Ty) : Int := if t.isSigned then -(2 ^ (8 * t.bytes - 1) : Nat) else 0
def intMax (t : Ty) : Int := if t.isSigned then (2 ^ (8 * t.bytes - 1) : Nat) - 1 else (2 ^ (8 * t.bytes) : Nat) - 1

/-- The N-bit pattern of an integer. -/
def intBits (n : Nat) (i : Int) : Nat := (i % (2 ^ n : Nat)).toNat

/-- The value of an N-bit pattern, signed or unsigned. -/
def bitsInt (signed : Bool) (n b : Nat) : Int :=
  let u := b % 2 ^ n
  if signed && 2 ^ (n - 1) ≤ u then (u : Int) - (2 ^ n : Nat) else u

/-- A value rounded to an integer and held to the range [lo, hi]; NaN gives 0 (R56). -/
def FpVal.toInt (mode : RMode) (lo hi : Int) (v : FpVal) : Int × List FpEvent :=
  match v with
  | .nan => (0, [.saturate])
  | .inf neg => (if neg then lo else hi, [.saturate])
  | .fin neg m e =>
    let n := if 0 ≤ e then m * 2 ^ e.toNat else (roundShift mode neg 0 m (-e).toNat).1
    let i : Int := if neg then -(n : Int) else n
    if i < lo then (lo, [.saturate]) else if hi < i then (hi, [.saturate]) else (i, [])

/-- The exact value of the low bits of a register read in a type (R28). -/
def tyVal (t : Ty) (b : Nat) : FpVal :=
  if t.isFloat then (Fmt.ofTy t).val (b % 2 ^ (8 * t.bytes)) else FpVal.ofInt (bitsInt t.isSigned (8 * t.bytes) b)

/-- One conversion between two types, at least one of them floating: the destination's bits and what it counts
(R54 to R57, R91). -/
def convert (mode : RMode) (ovf8 : Bool) (r : Nat) (dst src : Ty) (b : Nat) : Nat × List FpEvent :=
  let v := tyVal src b
  if dst.isFloat then (Fmt.ofTy dst).pack mode ovf8 r v
  else
    let (i, ev) := v.toInt mode (intMin dst) (intMax dst)
    (intBits (8 * dst.bytes) i, ev)

/-! ## The stochastic generator -/

/-- One step of a generator: the new state, whose upper 16 bits are the number drawn (R50). -/
def genStep (x : BitVec 32) : BitVec 32 :=
  let x := x ^^^ (x <<< 13)
  let x := x ^^^ (x >>> 17)
  x ^^^ (x <<< 5)

/-- The number a generator's step draws (R50). -/
def genDraw (x : BitVec 32) : Nat := (genStep x).toNat / 2 ^ 16

/-- The seeded state of generator j (R50). -/
def genSeed (seed : BitVec 32) (j : Nat) : BitVec 32 :=
  let s := seed ^^^ BitVec.ofNat 32 ((j + 1) * 0x9E3779B9)
  if s = 0 then 0x6A09E667 else s

/-! ## Block integers -/

/-- The 32-bit patterns (M, e) of an FP32 element (R63). -/
def blockOf (b : Nat) : BitVec 32 × BitVec 32 :=
  match Fmt.f32.val b with
  | .nan => (0, 0x7FFFFFFF)
  | .inf neg => (if neg then BitVec.ofInt 32 (-1) else 1, 0x7FFFFFFF)
  | .fin neg m e => (BitVec.ofInt 32 (if neg then -(m : Int) else m), BitVec.ofInt 32 e)

/-- Round half to even of an integer over 2^k (R64). -/
def roundHalfEven (m : Int) (k : Nat) : Int :=
  let n := (roundShift .rne (m < 0) 0 m.natAbs k).1
  if m < 0 then -(n : Int) else n

/-- Saturation to an n-bit signed range. -/
def satInt (n : Nat) (i : Int) : Int :=
  let hi : Int := (2 ^ (n - 1) : Nat) - 1
  if i < -hi - 1 then -hi - 1 else if hi < i then hi else i

/-- A block-integer mantissa aligned to the running exponent (R64), and whether it saturated. -/
def blockAlign (E : Int) (m e : Int) : Int × Bool :=
  let k := E - e
  -- Shifts past 64 places leave 0 or saturate, whatever the distance (R64).
  let a := if 0 ≤ k then (if k > 64 then 0 else roundHalfEven m k.toNat)
           else (if k < -64 then m * 2 ^ 64 else m * 2 ^ (-k).toNat)
  (satInt 64 a, satInt 64 a != a)

end Sys2Proof.Machine
end

