-- ==== Sys2Proof/Machine/CtxState.lean ====
section
/-! DEFINITION. The state of one context slot: register states (R67), the register classes of R25, and what a context
waits for. -/

namespace Sys2Proof.Machine

/-- A symbol number s0 to s63. -/
abbrev Sym := Fin 64

/-- One entry of a replay log (R75): the operation's FN, the position the symbolic value fills, TYPE, the effective
rounding mode and the other operands in order. -/
structure LogEntry where
  fn : Fin 4
  pos : Fin 3
  ty : Ty
  rnd : RMode
  k1 : Word
  k2 : Word
  deriving DecidableEq, Repr

/-- The state of a scalar register (R67). `replay` is a log whose symbol is resolved and whose replay has not finished
(R76). -/
inductive Reg where
  | value (v : Word)
  | int (s : Sym) (a b : Word)
  | log (s : Sym) (l : List LogEntry)
  | aff (s : Sym) (a b : BitVec 32)
  | replay (x : Word) (l : List LogEntry)
  deriving DecidableEq, Repr

/-- The symbol a register's state names (R68). -/
def Reg.sym : Reg → Option Sym
  | .value _ => none
  | .int s _ _ => some s
  | .log s _ => some s
  | .aff s _ _ => some s
  | .replay .. => none

/-- A trap cause (R380). -/
inductive Cause where
  | illegalOp | illegalOperand | placement | zeroWord | jtRange | jtFetch | landMismatch | retEmpty | spill | fill
  | translation | permission | tag | bounds | align | window | unsupportedAtomic | poison | tileOverlap
  | symCancelled | symFault | symExhausted | barrierOverrun | cbError | deadLetter | matrixCmd | encodingHash
  | trigXcomm
  deriving DecidableEq, Repr

/-- The codes of R380. -/
def Cause.code : Cause → Nat
  | .illegalOp => 0x01 | .illegalOperand => 0x02 | .placement => 0x03 | .zeroWord => 0x04
  | .jtRange => 0x08 | .jtFetch => 0x09 | .landMismatch => 0x0A | .retEmpty => 0x0B | .spill => 0x0C | .fill => 0x0D
  | .translation => 0x10 | .permission => 0x11 | .tag => 0x12 | .bounds => 0x13 | .align => 0x14 | .window => 0x15
  | .unsupportedAtomic => 0x16 | .poison => 0x17 | .tileOverlap => 0x18
  | .symCancelled => 0x20 | .symFault => 0x21 | .symExhausted => 0x22 | .barrierOverrun => 0x28 | .cbError => 0x29
  | .deadLetter => 0x30 | .matrixCmd => 0x38 | .encodingHash => 0x40 | .trigXcomm => 0x41

/-- What a trap reports: its cause, the address its rule names, the symbol of SYM_FAULT and SYM_CANCELLED, and the
PC where the rule names another than the instruction's own (R376). -/
structure TrapInfo where
  cause : Cause
  addr : Word := 0
  sym : Option Sym := none
  pc : Option Word := none
  /-- The sower entry handle of an asynchronous trap (R378). -/
  async : Option Nat := none
  /-- No fetch was made at the PC, so WORD0 is 0 (R247). -/
  noWord : Bool := false
  /-- Fatal whatever the mode (R161, R379). -/
  fatal : Bool := false
  deriving DecidableEq, Repr

/-- A symbol as its source names it: the entry and the serial number of its allocation, so that a delivery after a
cancel and a new allocation finds no one (R68, R94). -/
structure SymRef where
  s : Sym
  serial : Nat
  deriving DecidableEq, Repr

/-- What a deferred load will deliver (R129, R131): the value read, the address of the fault met, or the bytes of an LM
range whose first-touch copy has not ended. -/
inductive DRes where
  | value (v : Word)
  | fault (addr : Word)
  | touch (entry : Fin 16) (win : Win) (off : Nat) (t : Ty)
  deriving DecidableEq, Repr

/-- A deferred load that has issued and not delivered, its address, and the dies other than its own that it has asked (R131, R438). -/
structure DLoad where
  ref : SymRef
  res : DRes
  ea : Word := 0
  far : List Nat := []
  deriving DecidableEq, Repr

/-- A deferred receive that has issued and not taken its message (R223). -/
structure DRecv where
  ref : SymRef
  ch : Fin 16
  sc : Scope := .thr
  win : Win
  ea : Word
  deriving DecidableEq, Repr

/-- What a parked access does (R389). -/
inductive ParkKind where
  | store
  | atomic (op : AtomOp)
  | reduction (op : RedOp)
  deriving DecidableEq, Repr

/-- An entry of the replay queue (R130, R389). -/
structure Parked where
  va : Word
  data : Word
  cmp : Word
  kind : ParkKind
  maj : Nat
  fn : Nat
  ty : Option Ty
  bytes : Nat
  sc : Scope
  ord : Ord
  win : Win
  ref : Option SymRef
  deriving DecidableEq, Repr

/-- An operand of a queued vector instruction: a vector register, or a value captured at enqueue (R24, R157). -/
inductive VArg where
  | reg (n : Fin 16)
  | val (w : Word)
  deriving DecidableEq, Repr

/-- The operation of a queued vector instruction (R166 to R180). -/
inductive VecOp where
  | add | sub | mul | fma | min | max | abs | neg
  | rcp | rsq | exp | log | tanh
  | cvt | quant | deq
  | cmp (c : VCond) | sel (m : Fin 8)
  | and | or | xor | not | shl | shr | sra
  | perm | bcast | idx | mov | ins | ext
  | red (op : VredOp) | scan (op : VscanOp)
  | ld | st | gth | sct
  | mand | mor | mxor | mnot | mpop
  deriving DecidableEq, Repr

/-- What a physical address names (R360, R265). -/
inductive Place where
  | dev (key : Nat)
  | host (pa : Nat)
  | head (off : Nat)
  /-- A trigger counter, by its number in the sower (R309). -/
  | ctr (n : Nat)
  | lm (c : CoreId) (w : Option Win) (off : Nat)
  | hole
  deriving DecidableEq, Repr

/-- A checked access: where its bytes lie, and what kind of memory that is. -/
structure Acc where
  keys : List Nat
  place : Place
  coh : Bool := false
  /-- The page is TAGGED (R364, R371). -/
  tagged : Bool := false
  mode : Nat := 0
  /-- The partition whose space the access is made in (R353). -/
  part : Nat := 0
  /-- The lines of the table entries that the walk read (R363). -/
  walked : List Nat := []
  /-- The access is to headland space through a page with UA = 1, by which no device register is reached (R421). -/
  headUa : Bool := false
  deriving DecidableEq, Repr

/-- One element's checked access in a queued vector memory instruction, and the address a fault found while it runs
names (R161). -/
structure VPlace where
  elem : Nat
  acc : Acc
  addr : Word
  deriving DecidableEq, Repr

/-- A queued vector instruction with its captured operands (R157, R161). -/
structure VOp where
  op : VecOp
  ty : Ty
  bits : Bool := false
  src : Ty := .f32
  part : Nat := 0
  rnd : RMode := .rne
  ftz : Bool := false
  ovf8 : Bool := false
  mask : MaskSel := {}
  dst : Nat := 0
  x : VArg := .val 0
  y : VArg := .val 0
  z : VArg := .val 0
  ref : Option SymRef := none
  places : List VPlace := []
  pc : Word := 0
  deriving DecidableEq, Repr

/-- Why a context is not issuing. `blocked` marks an instruction that had to wait: it had no effect and is tried again
(R71); `asleep` the same for `wait`, `barwait`, `cbwait` and `mrecv` (R120), and `listening` for `wfe` (R240). The others end by steps of their own. -/
inductive Run where
  | ready
  | blocked
  | asleep
  | listening
  /-- The instruction waits, and has started a first-touch copy (R129). -/
  | touching
  /-- A checked transfer on a TAGGED page waits for its turn of the vector unit (R158, R161, R371). -/
  | vturn
  | yielding (others : List SlotId)
  | realign (next : Word)
  | service (d : Dst) (next : Word)
  | stopped (next : Word)
  /-- Arrived at a hardware barrier; `seq` orders the arrivals of one core (R225). -/
  | hbar (grp : Nat) (xp : Bool) (next : Word) (seq : Nat)
  /-- Contributed to a gather: the record's offset and the counters as read (R233). -/
  | gather (off : Nat) (next : Word) (seq : Nat) (counts : List Nat)
  /-- Left a barrier in a core cycle: it issues again from the next one (R225, R226). -/
  | leaving (cycle : Nat)
  /-- `publ` waits for the jobs and commands that were accepted before `mark` (R147). -/
  | publishing (mark : Nat)
  /-- A trap waits until its record can be written at its home (R294, R304, R376). -/
  | trapping (t : TrapInfo)
  deriving DecidableEq, Repr

/-- A context slot (R25, R104, R235, R244). -/
structure Ctx where
  live : Bool := false
  mode : Mode := .u
  pc : Word := 0
  pos : Fin 8 := 0
  stack : Vector Reg 136 := Vector.replicate 136 (.value 0)
  ras : Vector (Option Word) 8 := Vector.replicate 8 none
  g : Vector Reg 8 := Vector.replicate 8 (.value 0)
  o : Vector Reg 8 := Vector.replicate 8 (.value 0)
  lat : Reg := .value 0
  hw : Vector Reg 24 := Vector.replicate 24 (.value 0)
  hlat : Reg := .value 0
  v : Vector (BitVec 1024) 16 := Vector.replicate 16 0
  m : Vector (BitVec 128) 8 := Vector.replicate 8 (BitVec.allOnes 128)
  gens : List (BitVec 32) := (List.range 33).map (genSeed 1)
  seed : BitVec 32 := 1
  ftz : Bool := false
  ovf8 : Bool := false
  rm : RMode := .rne
  quota : BitVec 6 := 0
  nolog : Bool := false
  nofold : Bool := false
  selErr : Bool := false
  selSym : Sym := 0
  spillBase : BitVec 56 := 0
  spillLimit : BitVec 16 := 0
  spillDepth : BitVec 16 := 0
  epc : Word := 0
  gen : BitVec 16 := 0
  replayQ : List Parked := []
  /-- Mappings of parked pages that the runtime rejected while the context was away, oldest first (R389). -/
  rejected : List Word := []
  vq : List VOp := []
  dloads : List DLoad := []
  drecvs : List DRecv := []
  latch : BitVec 5 := 0
  run : Run := .ready
  waitCount : Nat := 0
  phase : Bool := false
  firstRelease : Bool := false
  firstFin : Bool := false
  /-- Dies whose links carried writes of this context since its last release at `.pkg` or wider (R289). -/
  wrote : List Nat := []
  /-- Tokens of a waiting release not yet acknowledged (R289). -/
  relWait : Nat := 0
  /-- An acquire's token has not returned: every later access waits (R289). -/
  acqWait : Bool := false
  /-- Host ports that carried non-coherent writes since the last release at `.sys`, and the zero-length reads that a waiting
  one has sent (R399). -/
  ncWrote : List Nat := []
  ncWait : Nat := 0
  deriving DecidableEq, Repr

end Sys2Proof.Machine
end

