-- ==== Sys2Proof/Machine/Topology.lean ====
section
/-! DEFINITION. Where a core sits in the package: die, cluster, torus column and row (R183, R235, R242). -/

namespace Sys2Proof

/-- The die of a core. -/
def CoreId.die (c : CoreId) : DieId := ⟨c.val / 128, by have := c.isLt; omega⟩

/-- `ID.CORE` of a core (R235). -/
def CoreId.local (c : CoreId) : Nat := c.val % 128

/-- The cluster of a core on its die, `ID.CLU` (R235). -/
def CoreId.clu (c : CoreId) : Nat := c.val % 128 / 8

/-- The cluster of a core in the package, 0 to 127. -/
def CoreId.cluster (c : CoreId) : Nat := c.val / 8

/-- The torus column of a core: `ID.CORE` div 8 (R183). -/
def CoreId.col (c : CoreId) : Nat := c.val % 128 / 8

/-- The torus row of a core: `ID.CORE` mod 8 (R183). -/
def CoreId.row (c : CoreId) : Nat := c.val % 8

/-- The core of a die at a torus column and row, both taken cyclically (R183). -/
def CoreId.ofGrid (d : DieId) (col row : Nat) : CoreId :=
  ⟨d.val * 128 + (col % 16) * 8 + row % 8, by have := d.isLt; omega⟩

/-- The torus neighbour of a core in a direction: row - 1, row + 1, column - 1, column + 1 (R227). -/
def CoreId.neighbour (c : CoreId) (dir : Dir) : CoreId :=
  match dir with
  | 0 => CoreId.ofGrid c.die c.col (c.row + 7)
  | 1 => CoreId.ofGrid c.die c.col (c.row + 1)
  | 2 => CoreId.ofGrid c.die (c.col + 15) c.row
  | 3 => CoreId.ofGrid c.die (c.col + 1) c.row

/-- Whether the step from a core in a direction uses a wrap link: column 15 to 0, or row 7 to 0 (R183). -/
def CoreId.wraps (c : CoreId) (dir : Dir) : Bool :=
  match dir with
  | 0 => c.row == 0
  | 1 => c.row == 7
  | 2 => c.col == 0
  | 3 => c.col == 15

/-- The opposite direction: the latch that a word sent in `dir` lands in (R227). -/
def Dir.opposite (dir : Dir) : Dir :=
  match dir with
  | 0 => 1
  | 1 => 0
  | 2 => 3
  | 3 => 2

/-- Core cycles from an `xmit` to its word's landing: 2, or 3 over a wrap link (R227). -/
def CoreId.hopCycles (c : CoreId) (dir : Dir) : Nat := if c.wraps dir then 3 else 2

end Sys2Proof
end

