-- ==== Sys2Proof/Machine/EngineState.lean ====
section
/-! DEFINITION. The state of a core outside its contexts and its harrow: symbol table, counters, regions, channels,
drill jobs, circular buffers, shadow pairs, latches and queues (R65, R68, R145, R215 to R240, R248, R268, R277). -/

namespace Sys2Proof.Machine

/-- The state of a symbol-table entry (R68). A PENDING entry knows its allocation's serial number and the slot of the
context that sourced it, none once that context has ended (R73, R117, R240). -/
inductive SymState where
  | free
  | pending (serial : Nat) (owner : Option SlotId)
  | resolved (x : Word)
  | fault (addr : Word)
  | cancelled
  deriving DecidableEq, Repr

/-- The state code that `symt` writes (R93). -/
def SymState.code : SymState → Nat
  | .resolved _ => 0
  | .pending .. => 1
  | .fault _ => 2
  | .cancelled => 3
  | .free => 4

/-- The state of a region-table entry (R217, R218). -/
inductive RegionPhase where
  | free | absent | copying | present
  | fault (cause : Cause) (addr : Word)
  deriving DecidableEq, Repr

/-- A region-table entry: the bound LM range and its layout record (R217). `freeAfter` is an `rfree` that waits for the
copy to end (R218). -/
structure Region where
  phase : RegionPhase := .free
  win : Win := .glob
  off : Nat := 0
  len : Nat := 0
  record : List Byte := []
  freeAfter : Bool := false
  deriving DecidableEq, Repr

/-- A message: its payload and what its header holds (R219). `src` and `srcCh` name the sender, for the negative
acknowledgement; `lcore` and `srcSlot` are what the receiver is told (R223). -/
structure Message where
  payload : List Byte
  src : Nat
  srcCh : Fin 16
  lcore : Nat
  srcSlot : SlotId
  launch : Nat
  slot : SlotId
  gen : BitVec 16
  /-- Its payload arrived without matching its check (R431). -/
  bad : Bool := false
  deriving DecidableEq, Repr

/-- The state of an outbound channel: its NAK bit, the buffered messages, those that have left and not arrived, oldest
first, and the receive slots it holds at the destination, granted and not yet freed (R219 to R222). -/
structure Channel where
  nak : Bool := false
  buffer : List Message := []
  flight : List Message := []
  inUse : Nat := 0
  deriving DecidableEq, Repr

/-- A word on a torus wire to a core: the direction it was sent in, its value, the core cycle in which it lands, and
the sender's launch (R227). -/
structure TorusWord where
  dir : Dir
  v : Word
  lands : Nat
  launch : Option Nat
  deriving DecidableEq, Repr

/-- A continuation record (R245) with its origin core (R252). -/
structure Record where
  code : Word
  frame : Word
  join : Word
  flags : Word
  origin : Nat
  deriving DecidableEq, Repr

/-- A layout record (R269). -/
structure Layout where
  dist : Bool
  mcast : Bool
  bar : Bool
  sig : Bool
  cbp : Bool
  cbc : Bool
  srcSp : Nat
  dstSp : Nat
  rlen : Nat
  src : Word
  dst : Word
  spitch : Nat
  dpitch : Nat
  rows : Nat
  didx : Nat
  grp : Nat
  cbh : Fin 8
  blk : Nat
  list : List Nat
  ncy : Nat
  ring : Nat
  barOff : Nat
  sigScope : Scope
  sigAdd : Bool
  sigv : Nat
  flag : Nat
  deriving DecidableEq, Repr

/-- A poisoned granule that an operation of an engine has written in part: which of its 32 bytes, as the bits of a number
(R433). -/
structure Covered where
  granule : Nat
  bytes : Nat
  deriving DecidableEq, Repr

/-- How far a drill job has come: accepted, running with its next chunk, copied, or faulted (R268, R274). -/
inductive JobPhase where
  | queued
  | running (chunk : Nat)
  | copied
  | faulted (cause : Cause) (addr : Word)
  deriving DecidableEq, Repr

/-- A drill job (R215, R216). `slot` is none for a first-touch job, whose region entry is `region`. -/
structure Job where
  id : BitVec 16
  layout : Layout
  record : List Byte
  slot : Option SlotId
  ref : Option SymRef
  region : Option (Fin 16)
  phase : JobPhase := .queued
  bytes : Nat := 0
  poisoned : Bool := false
  cbSlot : Nat := 0
  /-- When the job was accepted, in the order of the core's allocations (R147). -/
  serial : Nat := 0
  /-- Dies whose links carried its writes, and once its signal's release has begun, its tokens still out (R289). -/
  wrote : List Nat := []
  relWait : Option Nat := none
  /-- Host ports that carried its non-coherent writes, and poisoned granules that it has written in part (R399, R433). -/
  ncWrote : List Nat := []
  covered : List Covered := []
  deriving DecidableEq, Repr

/-- The counters of a circular buffer (R145). -/
structure CbState where
  head : BitVec 32 := 0
  tail : BitVec 32 := 0
  deriving DecidableEq, Repr

/-- A negative acknowledgement on its way to a core (R222). -/
structure Nak where
  dst : Nat
  ch : Fin 16
  launch : Nat
  deriving DecidableEq, Repr

/-- A write packet that a former occupant issued and that has not been performed, with the space it was translated in (R367,
R391). -/
structure Stray where
  acc : Acc
  data : List Byte
  space : Nat := 0
  deriving DecidableEq, Repr

/-- A fetched block in a core's fetch buffer: its virtual address, its eight words, and whether its granule is poisoned (R260,
R432). -/
structure FetchBlock where
  va : Nat
  words : List (BitVec 32)
  bad : Bool := false
  deriving DecidableEq, Repr

end Sys2Proof.Machine
end

