-- ==== Sys2Proof/Machine/HarrowState.lean ====
section
/-! DEFINITION. The state of a core's matrix unit (R182, R186, R188, R190, R205, R206). -/

namespace Sys2Proof.Machine

/-- The state of a bank as the inactive bank (R190). -/
inductive BankState where
  | empty | loaded | filling | draining | arrived
  deriving DecidableEq, Repr

/-- The state code of `mqry` selector 0 (R190). -/
def BankState.code : BankState → Nat
  | .empty => 0 | .loaded => 1 | .filling => 2 | .draining => 3 | .arrived => 4

/-- A weight bank: weights as MLDW lays them, row by row and little-endian, 512 scales, the format, and the poisoned granules among
the bytes of weights and scales, numbered from 0 (R182, R191, R430). -/
structure Bank where
  weights : List Byte := []
  scales : List (BitVec 32) := []
  fmt : Option Ty := none
  poison : List Nat := []
  deriving DecidableEq, Repr

/-- A queued command: the 64-byte record, its symbol, and the FP.MODE.RM and launch it was submitted with (R184). -/
structure HCmd where
  record : List Byte
  ref : SymRef
  rm : RMode
  /-- Writes of `SSR` that stand between the command before and this one (R196). -/
  ssr : List (Fin 4 × Word) := []
  deriving DecidableEq, Repr

/-- A row of an epilogue that has been issued and not performed: the generators before it, and its write packets (R390). -/
structure RowFlight where
  row : Nat
  gens : List (BitVec 32)
  packets : List Stray
  deriving DecidableEq, Repr

/-- A command that has left the queue: at work, or issued and waiting to complete or to fault (R185, R186). -/
structure HRun where
  cmd : HCmd
  serial : Nat
  /-- What the command does once, before its first row, is done. -/
  begun : Bool := false
  /-- The row cursor (R187, R209), and within a row the next message of MRED. -/
  row : Nat := 0
  part : Nat := 0
  /-- Slab positions of the row (R197). -/
  slabs : List Nat := []
  /-- The bank that tags the command's rows while they are in the array (R192). -/
  bank : Option Bool := none
  /-- Outbound transfers or exported messages not yet landed (R185). -/
  pending : Nat := 0
  /-- MROT: the records read so far, to be sent west (R198). MRED: the second half of a block that has been read (R189). -/
  data : List Byte := []
  failed : Option (Nat × Word) := none
  /-- MLDW: the state of the bank before it began to fill it (R190). -/
  was : BankState := .empty
  /-- MEPI: it has stopped under back-pressure (R390). -/
  stalled : Bool := false
  /-- MROT: a pre-emption stopped its weights before the receiver took them; they are sent again, to this core (R209). -/
  resend : Option (Nat × Bank) := none
  /-- MEPI: dies whose links carried its writes, and once its signal's release has begun, its tokens still out (R289). -/
  wrote : List Nat := []
  relWait : Option Nat := none
  /-- MEPI: host ports that carried its non-coherent writes, and poisoned granules that it has written in part (R399, R433). -/
  ncWrote : List Nat := []
  covered : List Covered := []
  /-- MEPI: rows issued whose writes are held back on their way, oldest first (R390). -/
  flight : List RowFlight := []
  deriving DecidableEq, Repr

/-- A reduction region; its cells lie in the C window (R182, R205). -/
structure HRegion where
  isOpen : Bool := false
  /-- An MRFIN has waited for its rows: it takes no more (R207). -/
  ended : Bool := false
  roff : Nat := 0
  rows : Nat := 0
  exp : Int := 0
  received : Nat := 0
  deriving DecidableEq, Repr

/-- A message of MRED or a rotation on its way between harrows, with the sending core and command (R198, R206). -/
inductive HFlight where
  /-- MROT: a bank sent north; `taken` says that its first beat has been accepted. -/
  | bank (b : Bank) (src : Nat) (serial : Nat) (taken : Bool)
  /-- MROT: rows sent west, to an A-window offset. -/
  | rows (data : List Byte) (off : Nat) (src : Nat) (serial : Nat)
  /-- MRED: eight pairs of a row, from element 8 * part on, to a region. -/
  | mred (region : Fin 4) (row part : Nat) (pairs : List (BitVec 32 × BitVec 32)) (src : Nat) (serial : Nat)
  deriving DecidableEq, Repr

/-- The state of a harrow (R182). -/
structure Harrow where
  bank0 : Bank := {}
  bank1 : Bank := {}
  active : Bool := false
  inactive : BankState := .empty
  queue : List HCmd := []
  running : Option HRun := none
  /-- Commands that have issued all their rows or met a fault, oldest first. -/
  retiring : List HRun := []
  haltStatus : Option Nat := none
  haltTag : BitVec 32 := 0
  lastTag : BitVec 32 := 0
  cursor : BitVec 32 := 0
  gens : List (BitVec 32) := (List.range 32).map (genSeed 1)
  regions : Vector HRegion 4 := Vector.replicate 4 {}
  rotin : BitVec 32 := 0
  /-- ROWS of the last MRACC accepted for each region (R207). -/
  accRows : Vector (Option Nat) 4 := Vector.replicate 4 none
  /-- Messages and rotations that have left their senders for this harrow, oldest first. -/
  inbound : List HFlight := []
  deriving DecidableEq, Repr

end Sys2Proof.Machine
end

