-- ==== Sys2Proof/Machine/LaunchState.lean ====
section
/-! DEFINITION. The state of launches and work queues (R341 to R358, R365, R396). -/

namespace Sys2Proof.Machine

/-- An outbound channel declaration (R38, R219). -/
structure ChanDecl where
  ch : Fin 16
  rank : Nat
  slot : SlotId
  slots : Nat
  deriving DecidableEq, Repr

/-- A circular-buffer declaration (R38, R278). -/
structure CbDecl where
  cb : Fin 8
  win : Win
  base : Nat
  slots : Nat
  size : Nat
  deriving DecidableEq, Repr

/-- A multicast group: member ranks (R38, R273). -/
structure GroupDecl where
  grp : Nat
  members : List Nat
  deriving DecidableEq, Repr

/-- A shadow pair's declaration (R277). -/
structure PairDecl where
  pair : Fin 16
  win : Win
  noff : Nat
  hoff : Nat
  len : Nat
  deriving DecidableEq, Repr

/-- The window sizes of a launch in bytes (R262). -/
structure Split where
  w : Nat := 256 * 1024
  a : Nat := 384 * 1024
  c : Nat := 256 * 1024
  g : Nat := 128 * 1024
  deriving DecidableEq, Repr

/-- The size of a window. -/
def Split.size (p : Split) : Win → Nat
  | .glob => 0
  | .W => p.w
  | .A => p.a
  | .C => p.c
  | .G => p.g

/-- The fields of a launch descriptor (R344). -/
structure Desc where
  code : Word := 0
  args : Word := 0
  creq : BitVec 32 := 0
  prio : Nat := 0
  weight : Nat := 1
  xsteal : Bool := false
  nosteal : Bool := false
  dbg : Bool := false
  serial : Bool := false
  place : Bool := false
  hl : Nat := 0
  lmsplit : List Nat := [0, 0, 0, 0]
  qx : Nat := 0
  trapv : Word := 0
  sptab : Word := 0
  bdt : Word := 0
  initrec : Word := 0
  initn : Nat := 0
  spillf : Nat := 0
  retmax : Nat := 0
  tent : Nat := 0
  tctr : Nat := 0
  tcomm : Nat := 0
  cwarg : Nat := 0xFFFFFFFF
  tlimit : Nat := 0
  deriving DecidableEq, Repr

/-- Where a launch stands (R349, R351, R357). -/
inductive LaunchPhase where
  | due | live | preempted
  deriving DecidableEq, Repr

/-- What the sums of a sweep found (R355, R356). -/
structure Sweep where
  idle : Bool
  sent : Word
  rcvd : Word
  deriving DecidableEq, Repr

/-- A relocation (R38): its field's offset and image, the image it points into, and its kind. -/
structure Reloc where
  off : Nat
  inData : Bool
  toData : Bool
  kind : Nat
  deriving DecidableEq, Repr

/-- What the command processor has read of a launch when its checks pass (R346): the images, relocations, descriptor table
entries, and initial records with their origin ranks. -/
structure Image where
  code : List Byte := []
  data : List Byte := []
  entry : Nat := 0
  relocs : List Reloc := []
  bufs : List (Nat × List Byte) := []
  inits : List (Nat × Record) := []
  deriving DecidableEq, Repr

/-- A launch from its admission to its end. -/
structure Launch where
  id : Nat
  part : Nat := 0
  queue : Nat := 0
  entry : Nat := 0
  /-- The enabling of the queue that its entry index belongs to (R342). -/
  epoch : Nat := 0
  tag : BitVec 32 := 0
  desc : Desc := {}
  phase : LaunchPhase := .due
  /-- Order in which launches became due (R349). -/
  dueAt : Option Nat := none
  image : Image := {}
  /-- Bound cores in rank order. -/
  cores : List Nat := []
  /-- Address of the translation root in the partition's device memory (R361). -/
  root : Nat := 0
  /-- The submitting process's space (R361). -/
  space : Nat := 0
  trapVec : Word := 0
  split : Split := {}
  chans : List ChanDecl := []
  cbufs : List CbDecl := []
  groups : List GroupDecl := []
  pairs : List PairDecl := []
  /-- The descriptor table's place in memory (R368). -/
  bdt : Nat := 0
  /-- The descriptor table's address in the launch's space, where it is mapped without user access (R365, R369). -/
  bdtVa : Word := 0
  savePa : Nat := 0
  /-- The save regions' address in the launch's space, where they are mapped without user access (R386). -/
  saveVa : Word := 0
  /-- The ranges of device memory that the root firmware has granted to mode S for the launch (R442). -/
  grants : List (Nat × Nat) := []
  spillVa : Word := 0
  spillStride : Nat := 0
  cwVa : Word := 0
  /-- The queue extensions of the bound cores, by rank: their address in the launch's space and in device memory (R248, R365). -/
  extVa : Word := 0
  extPa : Nat := 0
  /-- The first of the partition's counters that the runtime has chosen for the launch, and where the launch's counters stand
  in the sower's list: they go on while the launch is away and another has the allotment (R308, R349, R383). -/
  ctrAt : Nat := 0
  ctrBase : Nat := 0
  /-- The code and data images in the partition's device memory (R348). -/
  codePa : Nat := 0
  dataPa : Nat := 0
  entryVa : Word := 0
  fatal : Nat := 0
  /-- STIME of the first binding (R357), and the order of the last one (R349). -/
  boundAt : Option Nat := none
  boundSeq : Nat := 0
  lastSweep : Option Sweep := none
  /-- Issue has stopped on every core, and the launch comes to its pre-emption points (R381); STIME at the stop. -/
  stopping : Bool := false
  stoppedAt : Nat := 0
  /-- Whether the stop is a pre-emption's, which saves; and the status with which a CANCEL or the time limit ends the launch, once its
  save is complete or, without one, its engines stand at their pre-emption points (R351, R357). -/
  saving : Bool := false
  ending : Option Nat := none
  /-- Retention registers held, as (die, register) (R152). -/
  pins : List (Nat × Nat) := []
  deriving DecidableEq, Repr

end Sys2Proof.Machine
end

