-- ==== Sys2Proof/Machine/FabricState.lean ====
section
/-! DEFINITION. The state of the fabric: directories of the home slices (R293 to R305), die links, clocks and error
registers (R289, R420 to R429, R434), work queues (R396), firmware (R442 to R448) and the checkpoint (R439 to R441). -/

namespace Sys2Proof.Machine

/-! ## Directories -/

/-- The class of a line in commutative update (R301). -/
inductive RedClass where
  | add32 | add64 | badd
  deriving DecidableEq, Repr

/-- The state of a device-memory line at its home (R293); `t` names the tile by its first line. -/
inductive LineSt where
  | i | s | e | m | ho | c (k : RedClass) | t (tile : Nat) | q
  deriving DecidableEq, Repr

/-- A line's entry: its state and its sharers, home-die clusters, remote dies and the host (R293). -/
structure Line where
  st : LineSt := .i
  clusters : List Nat := []
  dies : List Nat := []
  host : Bool := false
  deriving DecidableEq, Repr

/-- The states of a tile (R295). -/
inductive TileSt where
  | te | tm | ts
  deriving DecidableEq, Repr

/-- A tile's entry: its lines in ascending order, the first being its base (R295). `used` orders entries for
replacement (R149). -/
structure Tile where
  va : Word
  launch : Nat
  part : Nat
  lines : List Nat
  owner : Nat
  st : TileSt := .te
  dies : List Nat := []
  used : Nat := 0
  deriving DecidableEq, Repr

/-- Who holds a partial sum: a core's cluster or a die's L2 (R301). -/
inductive Holder where
  | cluster (n : Nat) | die (n : Nat)
  deriving DecidableEq, Repr

/-- A partial sum: what has been added at each offset of the line and not yet merged (R301). -/
structure Partial where
  line : Nat
  holder : Holder
  sums : List (Nat × Nat) := []
  deriving DecidableEq, Repr

/-- The counters of an automatic page and its current mode (R299). -/
structure PageCtr where
  rr : Nat := 0
  wr : Nat := 0
  replicated : Bool := false
  deriving DecidableEq, Repr

/-- The device's MESI state of a host line (R305, R399). -/
inductive HostSt where
  | s | e | m
  deriving DecidableEq, Repr

/-- A request to the host that is not answered: the line's key (`Sys2Proof.Machine.hostKey`), whether ownership is asked, the
port that carries it, whether it is a CXL.io read of a non-coherent page, whether it is an ItoMWr for a whole line, and the core
whose access asks (R394, R399). -/
structure HostReq where
  line : Nat
  own : Bool
  port : Nat
  io : Bool := false
  whole : Bool := false
  core : Option Nat := none
  deriving DecidableEq, Repr

/-- A host line that the host has granted for a device write that has not been performed: its key, whether the write is of the
whole line, and the core whose access asked (R399). -/
structure Granted where
  line : Nat
  whole : Bool
  core : Option Nat
  deriving DecidableEq, Repr

/-- What a snoop of the host asks (R399). -/
inductive HostSnoop where
  | inv | data | cur
  deriving DecidableEq, Repr

/-- Whose release emitted a token or a zero-length read: a context by core and slot, or a drill job or an epilogue by core and
serial number (R284, R289, R399). -/
inductive Releaser where
  | ctx (core slot : Nat)
  | job (core serial : Nat)
  | epilogue (core serial : Nat)
  deriving DecidableEq, Repr

/-- The core that a token's release belongs to. -/
def Releaser.core (r : Releaser) : Nat :=
  match r with
  | .ctx c _ => c
  | .job c _ => c
  | .epilogue c _ => c

/-- A back-invalidation snoop that is not answered: the line, whether it invalidates, and its port (R304, R394). -/
structure Snoop where
  line : Nat
  inval : Bool
  port : Nat
  deriving DecidableEq, Repr

/-- The home slices' directories. Absent lines are in I; partial sums are also counted in memory, whose bytes are those
a merge would leave. -/
structure Dir where
  lines : List (Nat × Line) := []
  tiles : List Tile := []
  partials : List Partial := []
  /-- Merge requests sent and not answered by every holder (R302). -/
  merging : List Nat := []
  pages : List (Nat × PageCtr) := []
  /-- The state of the host lines that a partition's device holds, by their keys (R305). -/
  hosts : List (Nat × HostSt) := []
  wants : List HostReq := []
  snoops : List Snoop := []
  /-- Lines of non-coherent pages whose CXL.io read has been answered and not yet used (R399). -/
  answered : List Nat := []
  /-- Lines granted for device writes that are still to come, and the host's snoops that wait for them (R399). -/
  granted : List Granted := []
  hostSnoops : List (Nat × HostSnoop) := []
  /-- Zero-length reads of releases at `.sys`, oldest first, and their ports (R399). -/
  flushes : List (Releaser × Nat) := []
  /-- Claims of declarations in progress: core, slot, and the lines claimed (R298). -/
  claims : List (Nat × Nat × List Nat) := []
  clock : Nat := 0
  deriving DecidableEq, Repr

/-! ## Dies -/

/-- A retention register that is held (R152). -/
structure Retention where
  launch : Nat
  part : Nat
  base : Word
  len : Nat
  ways : Nat
  deriving DecidableEq, Repr

/-- The steps of a change sequence (R426). -/
inductive SeqStep where
  | drain | quiesce | lock | retrain
  deriving DecidableEq, Repr

/-- A change sequence: the step it is in; for a frequency change the target. -/
structure LinkSeq where
  step : SeqStep := .drain
  freq : Option Nat := none
  deriving DecidableEq, Repr

/-- A compute die (R289, R420, R428, R434, R438, R448, R152). -/
structure DieState where
  cur : Nat := 70
  tgt : Nat := 70
  freqErr : Bool := false
  /-- A frequency change that is queued. -/
  freqDue : Option Nat := none
  width : Nat := 0
  forced : Nat := 0
  forcedDue : Bool := false
  pmwDue : Bool := false
  /-- Spare lanes left in the direction out of the die, and in the direction into it (R438). -/
  spares : Nat := 8
  sparesIn : Nat := 8
  crcErr : Nat := 0
  pmw : Nat := 0
  seq : Option LinkSeq := none
  /-- Tokens of releases, and of acquires by core and slot, on this die's link, oldest first (R289). -/
  relTokens : List Releaser := []
  acqTokens : List (Nat × Nat) := []
  ue : Nat := 0
  ce : Nat := 0
  errKind : Nat := 0
  errLine : Nat := 0
  dead : Bool := false
  retained : Vector (Option Retention) 4 := Vector.replicate 4 none
  /-- The runtime's last value of TGT, which a throttled die returns to (R448). -/
  wantTgt : Nat := 70
  /-- The die's copy of STIME less the headland's, in units (R425). -/
  skew : Int := 0
  /-- Core cycles of the die's own clock (R6); whether one is in progress; and, in units of 10 MHz, how far the next has
  come on a clock of 840 MHz. -/
  cycle : Nat := 0
  ticks : Bool := true
  credit : Nat := 0
  deriving DecidableEq, Repr

/-! ## Work queues -/

/-- A completion record waiting for its ring (R343, R397). -/
structure CqRec where
  status : Nat
  cause : Nat
  tag : BitVec 32
  launch : Nat
  fatal : Nat
  ncore : Nat
  deriving DecidableEq, Repr

/-- A work queue's page (R396). -/
structure WQueue where
  sqBase : Word := 0
  cqBase : Word := 0
  cqLog : Nat := 4
  sqLog : Nat := 4
  vec : Nat := 0
  ien : Bool := false
  err : Bool := false
  en : Bool := false
  sqTail : BitVec 32 := 0
  sqHead : BitVec 32 := 0
  cqTail : BitVec 32 := 0
  cqHead : BitVec 32 := 0
  records : List CqRec := []
  /-- How many times EN has been set: entry indices of one enabling mean nothing in another (R342). -/
  epoch : Nat := 0
  /-- The space of the process that the runtime has assigned the queue to (R341). No step of the table assigns a queue: the
  assignment stands as the runtime left it. -/
  space : Nat := 0
  deriving DecidableEq, Repr

/-! ## Time, firmware and checkpoint -/

/-- The time master (R423, R424). -/
structure TimeMaster where
  /-- Whether it has synchronised since reset. -/
  synced : Bool := false
  bound : BitVec 32 := 0xFFFFFFFF
  /-- Milliseconds of holdover. -/
  holdover : Nat := 0
  /-- The rank of the data set that the master on a rail port announces, by port: the lower, the better (R423). -/
  announced : List (Nat × Nat) := []
  /-- Units that STIME still stands still for, until TAI has caught up with it (R424). -/
  hold : Nat := 0
  deriving DecidableEq, Repr

/-- The root firmware's state (R361, R442 to R447). -/
structure Firmware where
  meas : Vector (BitVec 256) 4 := Vector.replicate 4 0
  image : Option FwImage := none
  version : Nat := 0
  fusedMin : Nat := 0
  refused : Nat := 0
  recovery : Bool := false
  /-- The scheduler part is stopped and waits for its reload (R447). -/
  stopped : Bool := false
  /-- The repair table: which rows and columns of SRAM are replaced at reset (R438). No step of the table writes it, and what it
  holds shows in MEAS.2 alone. -/
  repair : List Byte := []
  /-- Translation roots: space, partition, root. -/
  roots : List (Nat × Nat × Nat) := []
  deriving DecidableEq, Repr

/-- The checkpoint (R439 to R441). `next` is the next page of the package's device memory to stream, `last` the end. -/
structure Ckpt where
  busy : Bool := false
  err : Bool := false
  status : Nat := 0
  pmask : Byte := 0
  /-- The partitions that the checkpoint in progress includes. -/
  parts : Byte := 0
  dst : Word := 0
  next : Nat := 0
  cut : Bool := false
  cutTime : Nat := 0
  sent : Nat := 0
  /-- Bytes written to the destination. -/
  off : Nat := 0
  /-- Pages of the shadow reserve: page, its memory, tags and poison at the cut. -/
  shadow : List (Nat × List Host.Cell × List (Nat × Nat) × List Nat) := []
  /-- Launches that the checkpoint pre-empted (R440). -/
  held : List (Nat × Nat) := []
  deriving DecidableEq, Repr

/-! ## The sower -/

/-- The fields of a triggered-entry record (R312). -/
structure ERec where
  op : Nat
  perChunk : Bool
  home : Bool
  comm : Nat
  redTy : Nat
  rop : Nat
  ctr : Nat
  thresh : Word
  peer : Int
  peer2 : Int
  src : Word
  dst : Word
  len : Nat
  chunk : Nat
  rctr0 : Nat
  rctr1 : Nat
  pctr : Nat
  /-- PROG and A2A: bytes 16 to 47 as they stand. -/
  body : List Byte
  deriving DecidableEq, Repr

/-- How far an entry has come: unfired; met, with its place in the firing order; fired; begun (R310, R313). -/
inductive EntryPhase where
  | unfired
  | met (order : Nat)
  | fired (order : Nat)
  | running
  deriving DecidableEq, Repr

/-- A program step (R323). -/
structure PStep where
  kind : Nat
  overlap : Bool
  fromD : Bool
  home : Bool
  redTy : Nat
  rop : Nat
  peer : Nat
  peer2 : Int
  sidx : BitVec 32
  didx : BitVec 32
  len : Nat
  thresh : Word
  deriving DecidableEq, Repr

/-- A running program: its steps, loop counters and next step (R322, R324). -/
structure Prog where
  steps : List PStep
  i0 : Nat := 0
  i1 : Nat := 0
  next : Nat := 0
  deriving DecidableEq, Repr

/-- A posted entry (R310 to R312). Counters are numbered in the sower here; none is STIME for `ctr`. -/
structure Entry where
  handle : Nat
  part : Nat
  launch : Nat
  rec_ : ERec
  ctr : Option Nat
  r0 : Option Nat
  r1 : Option Nat
  phase : EntryPhase := .unfired
  prog : Option Prog := none
  deriving DecidableEq, Repr

/-- What a started entry or step does (R313, R324, R325). -/
inductive XferOp where
  | send | recv | recvHome | rrs | copy | wait | put | atom | a2a | relay
  deriving DecidableEq, Repr

/-- A message between ranks. -/
inductive SMsg where
  | chunk (m : ChunkMsg)
  | put (m : PutMsg)
  /-- A block of A2A for rank `dst`, from rank `m.rank`. -/
  | block (dst : Nat) (m : ChunkMsg)
  deriving DecidableEq, Repr

/-- A message that a device of the node passes on, a block of A2A or a chunk whose sender's link to the receiver is down: the
communicator's serial number, the rank it came from, the rank it is for, and the message (R325, R402). -/
structure Relay where
  serial : Nat
  src : Nat
  dst : Nat
  msg : SMsg
  deriving DecidableEq, Repr

/-- A started entry or step, or a block that is forwarded (R313, R315, R324, R325). Lower identifiers started earlier. -/
structure Xfer where
  id : Nat
  handle : Nat
  op : XferOp
  peer : Nat := 0
  peer2 : Option Nat := none
  src : Word := 0
  dst : Word := 0
  len : Nat := 0
  chunk : Nat := 65536
  redTy : Nat := 0
  rop : Nat := 0
  ctr : Option Nat := none
  thresh : Word := 0
  pctr : Option Nat := none
  /-- Bytes that have left, and whether the sending half has ended. -/
  out : Nat := 0
  outDone : Bool := false
  /-- Bytes received or performed, whether the receiving half has ended, and poisoned granules written in part (R433). -/
  inn : Nat := 0
  inDone : Bool := false
  covered : List Covered := []
  /-- RRS: results computed that have not left. -/
  results : List Byte := []
  /-- A2A: its table, the rank whose block leaves next, and the blocks that have arrived: source, bytes, and whether
  whole (R325). -/
  tab : Word := 0
  next : Nat := 0
  blocks : List (Nat × Nat × Bool) := []
  /-- A block that is forwarded; its handle names no entry. -/
  fwd : Option Relay := none
  /-- The next chunk has a staging slot at its next hop (R316). -/
  granted : Bool := false
  /-- Times its ready chunk has been passed over (R321). -/
  passed : Nat := 0
  deriving DecidableEq, Repr

/-- A message in flight to a rank of the package: its sender's rank, the transfer it belongs to, and its content. -/
structure SFlight where
  src : Nat
  xfer : Nat
  msg : SMsg
  deriving DecidableEq, Repr

/-- A communicator at one rank (R319). -/
structure Comm where
  serial : Nat
  gid : Nat
  part : Nat
  launch : Nat
  comm : Nat
  n : Nat
  rank : Nat
  vc : Nat
  cbase : Nat
  ccnt : Nat
  routes : List (Nat × Route)
  node : Nat
  loc : Nat
  /-- A fault met and not yet taken, and the fault of a FAILED communicator: cause, entry handle, address (R318). -/
  fault : Option (Nat × Nat × Word) := none
  failed : Option (Nat × Nat × Word) := none
  /-- A failure notice from a member of the package, not yet taken. -/
  notice : Option Nat := none
  /-- In flight from ranks of the package, oldest first. -/
  flight : List SFlight := []
  /-- Arrived and not yet matched, by source rank, oldest first: chunks, and blocks of A2A. -/
  staged : List (Nat × ChunkMsg) := []
  blocks : List (Nat × ChunkMsg) := []
  /-- The rail that takes the communicator's next chunk (R402). -/
  rail : Nat := 0
  /-- By rank outside the package: how many chunks and PUTs have been sent to it, and how many have been heard from it in sequence
  (R402); and by source the poisoned granules that its PUT has written in part (R433). -/
  sent : List (Nat × Nat) := []
  heard : List (Nat × Nat) := []
  covered : List (Nat × List Covered) := []
  deriving DecidableEq, Repr

/-- The sower (R308). -/
structure Sower where
  counters : List (Nat × Word) := []
  entries : List Entry := []
  comms : List Comm := []
  xfers : List Xfer := []
  order : Nat := 0
  nextXfer : Nat := 0
  /-- For each output and virtual channel, the communicator last served (R321). -/
  lastServed : List (Nat × Nat) := []
  deriving DecidableEq, Repr

/-- An asynchronous trap that has not been delivered: the context, what the record holds (R378, R437). -/
structure AsyncRep where
  part : Nat
  launch : Nat
  rank : Nat
  slot : SlotId
  gen : BitVec 16
  cause : Cause
  handle : Nat
  addr : Word
  deriving DecidableEq, Repr

/-- What leaves the package or reaches the runtime. -/
inductive OutMsg where
  | chunk (comm dst port : Nat) (m : SMsg)
  | notice (comm : Nat) (cause : Nat)
  | msix (q vec : Nat)
  | hostData (addr : Nat) (data : List Byte) (poison : Bool)
  | mapRequest (launch : Nat) (va : Word)
  | service (core slot : Nat) (n : Nat) (arg : Word)
  /-- A service call in mode S, which the root firmware takes (R238). -/
  | rootService (core slot : Nat) (n : Nat) (arg : Word)
  | debug (core slot : Nat) (code : Nat) (pc : Word)
  | failure (comm cause handle : Nat) (addr : Word)
  | attestation (report : List Byte)
  | register (v : Word)
  | trap (record : List Byte)
  deriving DecidableEq, Repr

end Sys2Proof.Machine
end

