-- ==== Sys2Proof/Machine/State.lean ====
section
/-! DEFINITION. The state of the package (R1 to R8, R25, R235, R360), its faults and refusals, and the state after
reset. Every field is plain data. -/

namespace Sys2Proof.Machine

/-- Memory: (address, byte) pairs with strictly rising addresses and no byte 0, which is what an unlisted address reads
as (R262, R446). Addresses are those of `Sys2Proof.Machine.devKey`, host physical addresses and the LM aperture. -/
abbrev Memory := List Host.Cell

/-- Whether memory has its canonical form, with every address at or above a bound. -/
def Memory.wfFrom (lo : Nat) (m : Memory) : Bool :=
  match m with
  | [] => true
  | (a, b) :: rest => decide (lo ≤ a) && b != 0 && Memory.wfFrom (a + 1) rest

/-- Whether memory has its canonical form. -/
def Memory.wf (m : Memory) : Bool := m.wfFrom 0

/-- A core outside the package's sparse tables (R25, R182, R235). -/
structure Core where
  ctxs : Vector Ctx 11 := Vector.replicate 11 {}
  syms : Vector SymState 64 := Vector.replicate 64 .free
  ev : Vector (BitVec 32) 16 := Vector.replicate 16 0
  ssr : Vector Word 4 := Vector.replicate 4 0
  msgRing : Word := 0
  deadl : BitVec 32 := 0
  regions : Vector Region 16 := Vector.replicate 16 {}
  vis : Vector Bool 16 := Vector.replicate 16 false
  cbs : Vector CbState 8 := Vector.replicate 8 {}
  chans : Vector Channel 16 := Vector.replicate 16 {}
  /-- Occupied receive slots, oldest first (R219). -/
  inbox : List (Fin 16 × Message) := []
  /-- Continuation queue, oldest first, and its extension (R248). -/
  queue : List Record := []
  ext : List Record := []
  lastHelper : SlotId := 0
  lastVec : SlotId := 0
  /-- The core cycle from which the next sweep may start, after one that found nothing (R252). -/
  stealAt : Option Nat := none
  latches : Vector Word 4 := Vector.replicate 4 0
  wires : List TorusWord := []
  harrow : Harrow := {}
  jobs : List Job := []
  sent : Word := 0
  rcvd : Word := 0
  strays : List Stray := []
  /-- `ID.LAUNCH` of the bound launch and the core's rank in it. -/
  launch : Option Nat := none
  rank : Nat := 0
  idle : Bool := false
  retired : Bool := false
  /-- The fetched blocks, at most two, newest first (R260). -/
  fetched : List FetchBlock := []
  /-- The context that the core fetches for and the address of the block it needs; the last one fetched for (R259). -/
  fetching : Option (SlotId × Word) := none
  lastFetch : SlotId := 0
  /-- Writes of `SSR` that wait for the commands already queued (R196). -/
  ssrNext : List (Fin 4 × Word) := []
  deriving DecidableEq, Repr

/-- Why the machine stops. -/
inductive Fault where
  /-- The module has powered itself off (R448): no step of the part exists. Raised by every step once the thermal trip
  has happened. Safe: the hardware does nothing either. -/
  | poweredOff
  deriving DecidableEq, Repr

/-- Why an instruction has no meaning. -/
inductive Refusal where
  /-- The instruction has no meaning in this model yet. Raised by `exec`'s arms alone. Safe: nothing is claimed. -/
  | notModelled (mnemonic : String)
  deriving DecidableEq, Repr

/-- The package. -/
structure State where
  cores : Vector Core 1024 := Vector.replicate 1024 {}
  mem : Memory := []
  /-- Granules (address / 32) with a tag other than 0, rising (R370). -/
  tags : List (Nat × Nat) := []
  /-- Poisoned granules, rising (R431). -/
  poison : List Nat := []
  /-- Links set by `lld`: core, slot, line (R133). -/
  links : List (Nat × Nat × Nat) := []
  pm : PartMode := .pm1
  launches : List Launch := []
  nextLaunch : List Nat := List.replicate 8 1
  /-- Negative acknowledgements in flight (R222). -/
  naks : List Nak := []
  dir : Dir := {}
  dies : Vector DieState 8 := Vector.replicate 8 {}
  sower : Sower := {}
  queues : List (Nat × WQueue) := []
  /-- The turn of the grant rotation, by partition * 8 + class: its queue, and the launches granted in it (R350). -/
  turns : List (Nat × (Nat × Nat)) := []
  /-- Save areas of pre-empted launches: partition, launch, and each core in rank order (R386 to R389). -/
  saves : List (Nat × Nat × List Core) := []
  time : TimeMaster := {}
  firmware : Firmware := {}
  ckpt : Ckpt := {}
  hostDown : List Nat := []
  /-- Host ports that trained below 32 GT/s: they carry CXL.io only (R393). -/
  hostIo : List Nat := []
  ongeozDown : List Nat := []
  /-- In-node links between two other devices that are down, the lower local index first (R402). -/
  farDown : List (Nat × Nat) := []
  /-- What has left the package or reached the runtime, newest first (R130, R238, R239, R318, R379, R397, R445). -/
  out : List OutMsg := []
  /-- Asynchronous traps not yet delivered, oldest first (R378, R437). -/
  asyncs : List AsyncRep := []
  /-- Next drill job identifier of each cluster (R216). -/
  jobIds : Vector (BitVec 16) 128 := Vector.replicate 128 0
  /-- The core of each cluster whose job was served last (R268). -/
  drillLast : Vector (Fin 8) 128 := Vector.replicate 128 7
  /-- The core of each cluster whose request the fetch port chose last (R260). -/
  portLast : Vector (Fin 8) 128 := Vector.replicate 128 7
  stime : Nat := 0
  serial : Nat := 0
  powered : Bool := true
  /-- The context that `exec` of an instruction row acts on. -/
  cur : CoreId := 0
  slot : SlotId := 0
  inputs : List Instr := []
  /-- What has come from outside must wait; and all that waits so, which comes again. -/
  again : Bool := false
  held : List Instr := []
  turn : CoreId := 0
  steps : Nat := 0
  /-- Where the engines' rotation of steps stands. -/
  rotor : Nat := 0
  deriving DecidableEq, Repr

/-- The machine right after reset: bring-up is done, no launch is bound (R446). -/
def State.reset : State := {}

end Sys2Proof.Machine
end

