-- ==== Sys2Proof/Machine/Ops.lean ====
section
/-! DEFINITION. The named operations over the state: cores, contexts, registers, symbols, memory, translation, and
taking a trap. -/

namespace Sys2Proof.Machine

/-! ## Cores and contexts -/

def State.core (s : State) (c : CoreId) : Core := s.cores.get c

def State.setCore (s : State) (c : CoreId) (x : Core) : State := { s with cores := s.cores.set c.val x c.isLt }

def State.modCore (s : State) (c : CoreId) (f : Core → Core) : State := s.setCore c (f (s.core c))

def Core.ctx (x : Core) (k : SlotId) : Ctx := x.ctxs.get k

def Core.setCtx (x : Core) (k : SlotId) (t : Ctx) : Core := { x with ctxs := x.ctxs.set k.val t k.isLt }

def State.ctx (s : State) (c : CoreId) (k : SlotId) : Ctx := (s.core c).ctx k

def State.setCtx (s : State) (c : CoreId) (k : SlotId) (t : Ctx) : State := s.setCore c ((s.core c).setCtx k t)

def State.modCtx (s : State) (c : CoreId) (k : SlotId) (f : Ctx → Ctx) : State := s.setCtx c k (f (s.ctx c k))

/-- The context that executes. -/
def State.me (s : State) : Ctx := s.ctx s.cur s.slot

def State.setMe (s : State) (t : Ctx) : State := s.setCtx s.cur s.slot t

def State.modMe (s : State) (f : Ctx → Ctx) : State := s.setMe (f s.me)

/-- The core that executes. -/
def State.myCore (s : State) : Core := s.core s.cur

/-- The core cycle of a core's die (R6). -/
def State.cycleOf (s : State) (c : CoreId) : Nat := (s.dies.get c.die).cycle

/-- A core number held as a natural number. -/
def coreOf (n : Nat) : CoreId := Fin.ofNat 1024 n

/-- A context applied to every slot of a core. -/
def Core.mapCtx (x : Core) (f : Ctx → Ctx) : Core := { x with ctxs := x.ctxs.map f }

/-- The launch with an identifier in a partition. -/
def State.findLaunch (s : State) (part id : Nat) : Option Launch :=
  s.launches.find? fun l => l.id == id && l.part == part

/-- The number of partitions (R4). -/
def partCount : PartMode → Nat
  | .pm1 => 1
  | .pm2 => 2
  | .pm8 => 8

/-- The partition of a die (R352). -/
def partOfDie (pm : PartMode) (die : Nat) : Nat := die * partCount pm / 8

/-- Device memory of one partition in bytes (R352). -/
def partSize : PartMode → Nat
  | .pm1 => 768 * 2 ^ 30
  | .pm2 => 384 * 2 ^ 30
  | .pm8 => 96 * 2 ^ 30

/-- The partition of a core (R352). -/
def State.partOf (s : State) (c : CoreId) : Nat := partOfDie s.pm c.die.val

/-- The launch bound to a core. -/
def State.launchOf (s : State) (c : CoreId) : Option Launch :=
  match (s.core c).launch with
  | none => none
  | some id => s.findLaunch (s.partOf c) id

/-- A launch changed in place. -/
def State.modLaunch (s : State) (part id : Nat) (f : Launch → Launch) : State :=
  { s with launches := s.launches.map fun l => if l.id == id && l.part == part then f l else l }

/-- The live launch of the executing core; a core without one has no launch settings. -/
def State.myLaunch (s : State) : Launch := (s.launchOf s.cur).getD { id := 0 }

/-! ## Event counters -/

/-- One counter raised by n, stopping at 0xFFFF_FFFF (R65). -/
def satAdd32 (x : BitVec 32) (n : Nat) : BitVec 32 := BitVec.ofNat 32 (min (x.toNat + n) 0xFFFFFFFF)

def Core.count (x : Core) (k n : Nat) : Core :=
  if h : k < 16 then { x with ev := x.ev.set k (satAdd32 (x.ev.get ⟨k, h⟩) n) h } else x

def Core.countAll (x : Core) (ks : List Nat) : Core := ks.foldl (fun x k => x.count k 1) x

def State.countAll (s : State) (c : CoreId) (ks : List Nat) : State :=
  match ks with
  | [] => s
  | _ => s.modCore c fun x => x.countAll ks

/-! ## How an instruction ends other than by completing -/

/-- Why an instruction does not complete: it traps, at the state it started in or at one it has reached, or it waits. -/
inductive Stop where
  | trap (t : TrapInfo)
  | trapAt (t : TrapInfo) (s : State)
  | wait
  | sleep
  /-- It waits, and has started a first-touch copy or sent a request (R129, R304). -/
  | touch (s : State)
  /-- It waits, with what it has sent, as the context's `run` then says. -/
  | hold (s : State) (r : Run)

abbrev Res (α : Type) := Except Stop α

def trap (c : Cause) (addr : Word := 0) : Res α := .error (.trap { cause := c, addr })

def wait : Res α := .error .wait

/-- A check that traps where it fails. -/
def check (ok : Bool) (c : Cause) (addr : Word := 0) : Res Unit := if ok then .ok () else trap c addr

/-- A condition the context waits for. -/
def waitFor (ok : Bool) : Res Unit := if ok then .ok () else wait

/-! ## Registers -/

/-- Where register w_n of the current window lies on the register stack (R26). -/
def stackIdx (pos : Fin 8) (n : Fin 24) : Fin 136 := ⟨16 * pos.val + n.val, by omega⟩

/-- A register of the executing window; mode H has a window and a `lat` of its own (R377). -/
def Ctx.reg (t : Ctx) (r : RegName) : Reg :=
  match r with
  | .w n => if t.mode = .h then t.hw.get n else t.stack.get (stackIdx t.pos n)
  | .g n => t.g.get n
  | .o n => t.o.get n
  | .lat => if t.mode = .h then t.hlat else t.lat

def Ctx.setReg (t : Ctx) (r : RegName) (x : Reg) : Ctx :=
  match r with
  | .w n =>
    if t.mode = .h then { t with hw := t.hw.set n.val x n.isLt }
    else { t with stack := t.stack.set (stackIdx t.pos n).val x (stackIdx t.pos n).isLt }
  | .g n => { t with g := t.g.set n.val x n.isLt }
  | .o n => { t with o := t.o.set n.val x n.isLt }
  | .lat => if t.mode = .h then { t with hlat := x } else { t with lat := x }

/-- INT with a = 0 is VALUE b (R67). -/
def Reg.norm (r : Reg) : Reg :=
  match r with
  | .int s a b => if a = 0 then .value b else .int s a b
  | _ => r

/-- A scalar result: written to the destination and to `lat` in the same state; `zero` discards it (R19, R27). -/
def Ctx.put (t : Ctx) (d : Dst) (x : Reg) : Ctx :=
  let t := t.setReg .lat x
  match d with
  | .w n => t.setReg (.w n) x
  | .g n => t.setReg (.g n) x
  | .o n => t.setReg (.o n) x
  | .zero => t

def State.put (s : State) (d : Dst) (x : Reg) : State := s.modMe fun t => t.put d x

def State.putV (s : State) (d : Dst) (v : Word) : State := s.put d (.value v)

/-- The value of an immediate code (R19). -/
def immVal (k : Fin 16) : Word := BitVec.ofInt 64 ((k.val : Int) - 8)

/-- The state of a scalar source (R19). -/
def Ctx.src (t : Ctx) (lit : Word) (x : Src) : Reg :=
  match x with
  | .w n => t.reg (.w n)
  | .g n => t.reg (.g n)
  | .o n => t.reg (.o n)
  | .lat => t.reg .lat
  | .zero => .value 0
  | .lit => .value lit
  | .imm k => .value (immVal k)

/-- The state of a scalar operand of a vector class (R163). -/
def Ctx.vscal (t : Ctx) (lit : Word) (x : VScal) : Reg :=
  match x with
  | .o n => t.reg (.o n)
  | .lat => t.reg .lat
  | .zero => .value 0
  | .lit => .value lit
  | .imm k => .value (immVal k)

/-- A destination read as the fourth operand of a 32-bit form (R14). -/
def Ctx.dstReg (t : Ctx) (d : Dst) : Reg :=
  match d with
  | .w n => t.reg (.w n)
  | .g n => t.reg (.g n)
  | .o n => t.reg (.o n)
  | .zero => .value 0

/-- Whether a register's symbol has failed: the trap of R71. -/
def Core.badSym (x : Core) (r : Reg) : Option TrapInfo :=
  match r.sym with
  | none => none
  | some s =>
    match x.syms.get s with
    | .fault a => some { cause := .symFault, addr := a, sym := some s }
    | .cancelled => some { cause := .symCancelled, sym := some s }
    | _ => none

/-- A blocking use of registers, given in the field order B, C, D, A (R71, R72): a failed symbol traps, a pending one or
an unfinished replay waits. -/
def State.need (s : State) (rs : List Reg) : Res Unit :=
  match rs.findSome? s.myCore.badSym with
  | some t => .error (.trap t)
  | none => if rs.all (fun r => match r with | .value _ => true | _ => false) then .ok () else wait

/-- The value of a register that `need` has passed. -/
def Reg.val (r : Reg) : Word :=
  match r with
  | .value v => v
  | _ => 0

/-- A blocking use of one source. -/
def State.use1 (s : State) (lit : Word) (x : Src) : Res Word := do
  let r := s.me.src lit x
  s.need [r]
  .ok r.val

/-- A blocking use of two sources. -/
def State.use2 (s : State) (lit : Word) (x y : Src) : Res (Word × Word) := do
  let r := s.me.src lit x
  let q := s.me.src lit y
  s.need [r, q]
  .ok (r.val, q.val)

/-- A blocking use of three sources. -/
def State.use3 (s : State) (lit : Word) (x y z : Src) : Res (Word × Word × Word) := do
  let r := s.me.src lit x
  let q := s.me.src lit y
  let p := s.me.src lit z
  s.need [r, q, p]
  .ok (r.val, q.val, p.val)

/-- Issue goes on at an address. -/
def State.goto (s : State) (pc : Word) : State := s.modMe fun t => { t with pc := pc, run := .ready }

/-- Issue goes on after an instruction of `len` bytes. -/
def State.advance (s : State) (len : Nat) : State :=
  s.modMe fun t => { t with pc := t.pc + BitVec.ofNat 64 len, run := .ready }

/-- The length in bytes of a form. -/
def formBytes : Form → Nat
  | .l _ => 12
  | .x => 12
  | .xl _ => 20

/-- The length of a form with LEN 0b00 or 0b01. -/
def litBytes : Option Word → Nat
  | none => 4
  | some _ => 12

/-- The length of a form with LEN 0b10 or 0b11. -/
def litBytesX : Option Word → Nat
  | none => 12
  | some _ => 20

/-! ## Replay logs -/

/-- The exact value of one FP operation of R75, FN 0 to 3. -/
def fpOp (mode : RMode) (fn : Nat) (x y z : FpVal) : FpVal :=
  match fn with
  | 0 => FpVal.add mode x y
  | 1 => FpVal.sub mode x y
  | 2 => FpVal.mul x y
  | _ => FpVal.fma mode x y z

/-- One eager FP operation of R89: the result's bits and what it counts. -/
def fpEager (ty : Ty) (mode : RMode) (fn : Nat) (x y z : Word) : Word × List Nat :=
  let f := Fmt.ofTy ty
  let v (w : Word) : FpVal := tyVal ty w.toNat
  let (b, ev) := f.pack mode false 0 (fpOp mode fn (v x) (v y) (v z))
  (BitVec.ofNat 64 b, ev.map FpEvent.scalar)

/-- One entry replayed on a value (R76). -/
def LogEntry.replay (e : LogEntry) (x : Word) : Word × List Nat :=
  match e.pos with
  | 0 => fpEager e.ty e.rnd e.fn.val x e.k1 e.k2
  | 1 => fpEager e.ty e.rnd e.fn.val e.k1 x e.k2
  | 2 => fpEager e.ty e.rnd e.fn.val e.k1 e.k2 x

/-- A log replayed in entry order (R76). -/
def replayLog (l : List LogEntry) (x : Word) : Word × List Nat :=
  match l with
  | [] => (x, [])
  | e :: rest =>
    let (y, ev) := e.replay x
    let (z, ev') := replayLog rest y
    (z, ev ++ ev')

/-- The FP32 value of an AFF form (R78). -/
def affVal (a b : BitVec 32) (x : Word) : Word × List Nat :=
  let f := Fmt.f32
  let (r, ev) := f.pack .rne false 0
    (FpVal.fma .rne (f.val a.toNat) (f.val (x.toNat % 2 ^ 32)) (f.val b.toNat))
  (BitVec.ofNat 64 r, ev.map FpEvent.scalar)

/-! ## Symbols -/

/-- What a register becomes when symbol s delivers x, and the events counted (R70). -/
def Reg.resolve (s : Sym) (x : Word) (r : Reg) : Reg × List Nat :=
  match r with
  | .int t a b => if t = s then (.value (a * x + b), []) else (r, [])
  | .log t l => if t = s then (.replay x l, []) else (r, [])
  | .aff t a b => if t = s then ((fun p => (.value p.1, p.2)) (affVal a b x)) else (r, [])
  | _ => (r, [])

/-- Every register of a context, changed one by one. -/
def Ctx.mapRegs (t : Ctx) (f : Reg → Reg) : Ctx :=
  { t with stack := t.stack.map f, g := t.g.map f, o := t.o.map f, lat := f t.lat, hw := t.hw.map f, hlat := f t.hlat }

/-- Every register of a context. -/
def Ctx.regs (t : Ctx) : List Reg :=
  t.stack.toList ++ t.g.toList ++ t.o.toList ++ [t.lat] ++ t.hw.toList ++ [t.hlat]

/-- Symbol s of a core becomes RESOLVED with x, and every holder takes its value (R70). -/
def Core.resolve (x : Core) (s : Sym) (v : Word) : Core :=
  let evs := x.ctxs.toList.flatMap fun t => t.regs.flatMap fun r => (r.resolve s v).2
  let x := { x with syms := x.syms.set s.val (.resolved v) s.isLt }
  let x := x.mapCtx fun t => t.mapRegs fun r => (r.resolve s v).1
  x.countAll evs

/-- The event latch bit k of a context (R240). -/
def Core.latchBit (x : Core) (k : SlotId) (bit : Nat) : Core :=
  let t := x.ctx k
  if t.live then x.setCtx k { t with latch := t.latch ||| BitVec.ofNat 5 (2 ^ bit) } else x

/-- The event latch of the context that sourced a symbol, if it has not ended (R240). -/
def Core.latchOwner (x : Core) (k : Option SlotId) (bit : Nat) : Core :=
  match k with
  | some k => x.latchBit k bit
  | none => x

/-- A source delivers a value to the symbol it allocated; a cancelled or re-used entry takes nothing (R68, R94). -/
def Core.deliver (x : Core) (r : SymRef) (v : Word) : Core :=
  match x.syms.get r.s with
  | .pending n k => if n = r.serial then (x.resolve r.s v).latchOwner k 1 else x
  | _ => x

/-- A source reports a fault to the symbol it allocated (R68). -/
def Core.faultSym (x : Core) (r : SymRef) (addr : Word) : Core :=
  match x.syms.get r.s with
  | .pending n k =>
    if n = r.serial then ({ x with syms := x.syms.set r.s.val (.fault addr) r.s.isLt }).latchOwner k 1 else x
  | _ => x

def State.deliver (s : State) (c : CoreId) (r : SymRef) (v : Word) : State := s.modCore c fun x => x.deliver r v

def State.faultSym (s : State) (c : CoreId) (r : SymRef) (addr : Word) : State := s.modCore c fun x => x.faultSym r addr

/-- PENDING symbols that the context in a slot has sourced (R69, R73). -/
def Core.pendingOf (x : Core) (k : SlotId) : Nat :=
  x.syms.toList.countP fun e => match e with | .pending _ j => j == some k | _ => false

/-- A slot's context ends: the symbols it sourced stay and belong to no context (R117). -/
def Core.disown (x : Core) (k : SlotId) : Core :=
  { x with syms := x.syms.map fun e => match e with | .pending n (some j) => if j = k then .pending n none else e | _ => e }

/-- Whether any entry is PENDING. -/
def Core.anyPending (x : Core) : Bool :=
  x.syms.toList.any fun e => match e with | .pending .. => true | _ => false

/-- The lowest entry that a test accepts. -/
def Core.findSym (x : Core) (p : SymState → Bool) : Option Sym :=
  (List.finRange 64).find? fun i => p (x.syms.get i)

/-- The entry that a symbol source takes, if one can be allocated now (R69). -/
def Core.freeSym (x : Core) (k : SlotId) : Option Sym :=
  let q := (x.ctx k).quota.toNat
  if q ≠ 0 ∧ q ≤ x.pendingOf k then none
  else
    match x.findSym (· == .free) with
    | some s => some s
    | none => x.findSym fun e => match e with | .resolved _ => true | _ => false

/-- A symbol is allocated for the executing context: the lowest FREE entry, or the lowest RESOLVED one (R69). -/
def State.alloc (s : State) : Res (State × SymRef) :=
  match s.myCore.freeSym s.slot with
  | some i =>
    let r : SymRef := ⟨i, s.serial⟩
    .ok ({ s.modCore s.cur (fun x => { x with syms := x.syms.set i.val (.pending s.serial (some s.slot)) i.isLt }) with
            serial := s.serial + 1 }, r)
  | none => if s.myCore.anyPending then wait else trap .symExhausted

/-- A symbol source that reads a record waits until one can be allocated, before it reads anything (R69, R184, R215). -/
def State.symGate (s : State) : Res Unit :=
  match s.myCore.freeSym s.slot with
  | some _ => .ok ()
  | none => if s.myCore.anyPending then wait else trap .symExhausted

/-- The pure form of a symbol (R67). -/
def SymRef.pure (r : SymRef) : Reg := .int r.s 1 0

/-- Whether any register of the core names a symbol. -/
def Core.refers (x : Core) (s : Sym) : Bool :=
  x.ctxs.toList.any fun t => t.live && t.regs.any fun r => r.sym == some s

/-- FAULT and CANCELLED entries that no register names become FREE (R68). An entry that reaches such a state when no register
names it goes FREE at the core's next settling, a choice of notes/assumptions 67. -/
def Core.settle (x : Core) : Core :=
  if x.syms.toList.any (fun e => match e with | .fault _ => true | .cancelled => true | _ => false) then
    { x with syms := Vector.ofFn fun i =>
        match x.syms.get i with
        | .fault a => if x.refers i then .fault a else .free
        | .cancelled => if x.refers i then .cancelled else .free
        | e => e }
  else x

/-- `Core.settle` of one core. -/
def State.settle (s : State) (c : CoreId) : State := s.modCore c Core.settle

/-! ## Memory -/

/-- The byte at an address. -/
def Memory.get (m : Memory) (a : Nat) : Byte :=
  match m with
  | [] => 0
  | (k, b) :: rest => if k = a then b else if a < k then 0 else Memory.get rest a

/-- A byte written; writing 0 removes the entry. -/
def Memory.set (m : Memory) (a : Nat) (b : Byte) : Memory :=
  match m with
  | [] => if b = 0 then [] else [(a, b)]
  | (k, v) :: rest =>
    if k = a then (if b = 0 then rest else (a, b) :: rest)
    else if a < k then (if b = 0 then (k, v) :: rest else (a, b) :: (k, v) :: rest)
    else (k, v) :: Memory.set rest a b

/-- Bytes written at addresses, one after another. -/
def Memory.setAll (m : Memory) (l : List (Nat × Byte)) : Memory := l.foldl (fun m p => m.set p.1 p.2) m

/-- The addresses of a range cleared to 0 (R262). -/
def Memory.clear (m : Memory) (lo n : Nat) : Memory :=
  m.filter fun p => !(decide (lo ≤ p.1) && decide (p.1 < lo + n))

/-- The number that bytes make, the first least significant (R5). -/
def leNat (bs : List Byte) : Nat :=
  match bs with
  | [] => 0
  | b :: rest => b.toNat + 256 * leNat rest

/-- The n bytes of a number, the least significant first (R5). -/
def leBytes (n v : Nat) : List Byte :=
  match n with
  | 0 => []
  | n + 1 => BitVec.ofNat 8 v :: leBytes n (v / 256)

/-- Consecutive addresses. -/
def range (a n : Nat) : List Nat := (List.range n).map (a + ·)

def State.bytesAt (s : State) (ks : List Nat) : List Byte := ks.map s.mem.get

/-- The place of a partition's device-memory address in the package's memory (R360). -/
def devKey (pm : PartMode) (p pa : Nat) : Nat := p * partSize pm + pa

/-- The first address of host memory (R360). -/
def hostBase : Nat := 0x8000000000000
/-- The first address of headland space (R360). -/
def headBase : Nat := 0xFFFE000000000
/-- The first address of the LM aperture (R265, R360). -/
def apBase : Nat := 0xFFFF000000000

/-- The aperture address of a window offset of a core (R265). -/
def lmKey (c : CoreId) (w : Win) (off : Nat) : Nat :=
  apBase + c.die.val * 2 ^ 30 + c.local * 2 ^ 23 + w.code.toNat * 2 ^ 20 + off

/-- The place of a 52-bit physical address of partition p. -/
def placeOf (pm : PartMode) (p pa : Nat) : Place :=
  if pa < partSize pm then .dev (devKey pm p pa)
  else if pa < hostBase then .hole
  else if pa < headBase then .host pa
  else if pa < apBase then .head (pa - headBase)
  else if pa / 2 ^ 33 % 8 ≠ 0 then .hole
  else .lm (coreOf (pa / 2 ^ 30 % 8 * 128 + pa / 2 ^ 23 % 128))
    (match Win.ofCode (BitVec.ofNat 3 (pa / 2 ^ 20 % 8)) with | some .glob => none | w => w) (pa % 2 ^ 20)

/-- Whether any granule of the bytes at these addresses is poisoned (R127, R432). -/
def State.poisoned (s : State) (ks : List Nat) : Bool := ks.any fun k => s.poison.contains (k / 32)

/-- The tag of the granule of an address (R370). -/
def State.tagAt (s : State) (k : Nat) : Nat := ((s.tags.find? fun p => p.1 == k / 32).map (·.2)).getD 0

/-! ## Shadow pairs and windows -/

/-- A window range of a core under its launch's shadow pairs: the addresses of its bytes, or none where it leaves the
window or reaches a hidden range (R263, R277). -/
def State.windowKeys (s : State) (c : CoreId) (l : Launch) (w : Win) (off n : Nat) : Option (List Nat) :=
  if l.split.size w < off + n then none else
  let ps := l.pairs.filter (·.win == w)
  if ps.any (fun p => decide (off < p.hoff + p.len) && decide (p.hoff < off + n)) then none
  else some <| (range off n).map fun o =>
    match ps.find? (fun p => decide (p.noff ≤ o) && decide (o < p.noff + p.len)) with
    | some p => lmKey c w (if (s.core c).vis.get p.pair then o - p.noff + p.hoff else o)
    | none => lmKey c w o

/-- The addresses of a pair's half h at an offset in the pair (R277). -/
def pairKeys (c : CoreId) (p : PairDecl) (h : Bool) (off n : Nat) : List Nat :=
  range (lmKey c p.win ((if h then p.hoff else p.noff) + off)) n

/-! ## Directory entries -/

/-- A list of key and value pairs with rising keys, changed at a key. -/
def assocSet (l : List (Nat × α)) (k : Nat) (v : α) : List (Nat × α) :=
  match l with
  | [] => [(k, v)]
  | (j, w) :: rest => if j = k then (k, v) :: rest else if k < j then (k, v) :: (j, w) :: rest else (j, w) :: assocSet rest k v

def assocGet (l : List (Nat × α)) (k : Nat) : Option α := (l.find? fun p => p.1 == k).map (·.2)

def assocDel (l : List (Nat × α)) (k : Nat) : List (Nat × α) := l.filter fun p => p.1 != k

/-- A line's entry; a line that is not listed is in I. -/
def Dir.line (d : Dir) (n : Nat) : Line := (assocGet d.lines n).getD {}

/-- A line's entry set; an entry of a line in I without sharers is dropped. -/
def Dir.setLine (d : Dir) (n : Nat) (x : Line) : Dir :=
  { d with lines := if x = {} then assocDel d.lines n else assocSet d.lines n x }

/-- The tile that covers a line (R295). -/
def Dir.tileOf (d : Dir) (n : Nat) : Option Tile := d.tiles.find? fun t => t.lines.contains n

/-- The partial sums of a line are merged or dropped with the line's state C (R302). -/
def Dir.merge (d : Dir) (n : Nat) : Dir :=
  { d with partials := d.partials.filter (fun p => p.line != n), merging := d.merging.filter (· != n) }

/-- The state each line of a tile takes at a demotion or dissolution (R296, R297). -/
def Tile.demoted (t : Tile) : Line :=
  match t.st with
  | .te => { st := .e, clusters := [t.owner / 8] }
  | .tm => { st := .m, clusters := [t.owner / 8] }
  | .ts => { st := .s, clusters := [t.owner / 8], dies := t.dies }

/-- A tile's entry goes, and every line takes its state in one step (R297). -/
def Dir.demote (d : Dir) (t : Tile) : Dir :=
  t.lines.foldl (fun d n => d.setLine n t.demoted) { d with tiles := d.tiles.filter (· != t) }

/-- A tile's entry changed. -/
def Dir.setTile (d : Dir) (t t' : Tile) : Dir := { d with tiles := d.tiles.map fun x => if x = t then t' else x }

/-! ## Homes -/

/-- The home die and L2 slice of a physical address of partition p (R353), of a host address too (R403). -/
def sliceAt (pm : PartMode) (p pa : Nat) : Nat × Nat :=
  (match pm with
    | .pm1 => (pa / 2 ^ 16 % 8) ^^^ (pa / 2 ^ 19 % 8)
    | .pm2 => 4 * (p % 2) + ((pa / 2 ^ 16 % 4) ^^^ (pa / 2 ^ 18 % 4))
    | .pm8 => p % 8,
   (pa / 2 ^ 6 % 64) ^^^ (pa / 2 ^ 24 % 64))

/-- The die that homes a device-memory address (R353). -/
def homeDie (pm : PartMode) (key : Nat) : Nat := (sliceAt pm (key / partSize pm) (key % partSize pm)).1

/-- The die that holds the storage of an address: a line's home, or a core's die for LM (R265, R353). -/
def keyDie (pm : PartMode) (key : Nat) : Option Nat :=
  if key < hostBase then some (homeDie pm key)
  else if apBase ≤ key then some (key / 2 ^ 30 % 8)
  else none

/-- A die of the package. -/
def State.die (s : State) (d : Nat) : DieState := s.dies.get (Fin.ofNat 8 d)

def State.modDie (s : State) (d : Nat) (f : DieState → DieState) : State :=
  { s with dies := s.dies.set (Fin.ofNat 8 d).val (f (s.die d)) (Fin.ofNat 8 d).isLt }

/-- Whether a line in Q lies under the bytes, or a die that is down holds them (R436, R438). -/
def State.quarantined (s : State) (ks : List Nat) : Bool :=
  (s.dir.lines.any fun p => p.2.st == .q && ks.any fun k => k / 64 == p.1)
    || (s.dies.toList.any (·.dead) && ks.any fun k => match keyDie s.pm k with | some d => (s.die d).dead | none => false)

/-! ## Translation -/

/-- A page found by a walk (R362). -/
structure Leaf where
  pa : Nat
  bits : Nat
  fg : Bool
  tagged : Bool
  coh : Bool
  xn : Bool
  ro : Bool
  ua : Bool
  mode : Nat
  /-- The lines of the entries that the walk read. -/
  walked : List Nat := []
  deriving DecidableEq, Repr

/-- What a walk or a check finds wrong: a page that is not present, a cause with the address it names, or a table's line of
which the host holds the current copy, so that the walk waits for it (R304). -/
inductive AccErr where
  | notPresent (addr : Word)
  | fault (c : Cause) (addr : Word)
  | snoop (line : Nat)
  deriving DecidableEq, Repr

/-- Bits of an entry. -/
def bitsOf (e hi lo : Nat) : Nat := e / 2 ^ lo % 2 ^ (hi - lo + 1)

/-- Whether a leaf entry is malformed at a level whose pages have `bits` address bits (R363). -/
def badLeaf (pm : PartMode) (p e bits : Nat) : Bool :=
  let pa := bitsOf e 51 16 * 2 ^ 16
  let dev := match placeOf pm p pa with | .dev _ => true | _ => false
  let host := match placeOf pm p pa with | .host _ => true | _ => false
  bitsOf e 63 60 != 0 || bitsOf e 15 2 != 0 || bitsOf e 57 56 == 3 || pa % 2 ^ bits != 0
    || (match placeOf pm p pa with | .hole => true | _ => false)
    || (bitsOf e 58 58 == 1 && !dev) || (bitsOf e 57 56 != 0 && !dev) || (bitsOf e 55 55 == 1 && !host)

/-- Whether a table pointer is malformed: reserved bits, alignment, or outside device memory (R361, R363). -/
def badTable (pm : PartMode) (e align : Nat) : Bool :=
  let pa := bitsOf e 51 8 * 2 ^ 8
  bitsOf e 63 52 != 0 || bitsOf e 7 2 != 0 || pa % align != 0 || decide (partSize pm ≤ pa)

/-- The levels below the root: index bits, bits of a leaf's page (none at L0), and the alignment of the next table
(R361). -/
def walkLevels : List (Nat × Nat × Option Nat × Nat) :=
  [(55, 42, none, 2 ^ 16), (41, 29, some 29, 2 ^ 11), (28, 21, some 21, 2 ^ 8), (20, 16, some 16, 1)]

/-- A walk of the remaining levels from table t (R363). `addr` is what a fault reports. -/
def walkFrom (s : State) (p va : Nat) (addr : Word) (levels : List (Nat × Nat × Option Nat × Nat)) (t : Nat) :
    Except AccErr Leaf :=
  match levels with
  | [] => .error (.fault .translation addr)
  | (hi, lo, leaf, align) :: rest =>
    let ks := range (devKey s.pm p (t + 8 * bitsOf va hi lo)) 8
    let e := leNat (s.bytesAt ks)
    let n := ks.headD 0 / 64
    if (s.dir.line n).st = .ho then .error (.snoop n)
    else if s.poisoned ks || s.quarantined ks then .error (.fault .poison addr)
    else if e % 2 = 0 then .error (.notPresent addr)
    else if e / 2 % 2 = 1 then
      match leaf with
      | none => .error (.fault .translation addr)
      | some bits =>
        if badLeaf s.pm p e bits then .error (.fault .translation addr)
        else .ok { pa := bitsOf e 51 16 * 2 ^ 16, bits, fg := bitsOf e 59 59 == 1, tagged := bitsOf e 58 58 == 1,
                   coh := bitsOf e 55 55 == 1, xn := bitsOf e 54 54 == 1, ro := bitsOf e 53 53 == 1,
                   ua := bitsOf e 52 52 == 1, mode := bitsOf e 57 56, walked := [n] }
    else if badTable s.pm e align || rest.isEmpty then .error (.fault .translation addr)
    else (walkFrom s p va addr rest (bitsOf e 51 8 * 2 ^ 8)).map fun f => { f with walked := n :: f.walked }

/-- The page of a virtual address in a launch's space; bits [63:60] must be zero (R359, R363). -/
def State.walk (s : State) (l : Launch) (va : Word) : Except AccErr Leaf :=
  if va.toNat / 2 ^ 60 ≠ 0 then .error (.fault .translation va)
  else walkFrom s l.part (va.toNat % 2 ^ 56) va walkLevels l.root

/-- The physical address of a virtual address in its page. -/
def Leaf.addr (f : Leaf) (va : Word) : Nat := f.pa + va.toNat % 2 ^ f.bits

/-! ## Access checks -/

/-- What an access does, for the tables of R125 and R364. -/
inductive AKind where
  | load | store | atomic | barrier | spill | fill | vload | vstore
  /-- The flag of `stsig`, set and added to (R136, R309). -/
  | sigset | sigadd
  /-- `barwait` (R155). -/
  | barrierRead
  /-- Reads and writes of the drill, the harrow and the sower (R263). -/
  | dread | dwrite | hwrite | sread | swrite | satom
  deriving DecidableEq, Repr

def AKind.writes : AKind → Bool
  | .load | .vload | .fill | .barrierRead | .dread | .sread => false
  | _ => true

/-- Which windows accept an access (R125, R177, R263). -/
def AKind.window (k : AKind) (w : Win) : Bool :=
  match w with
  | .glob => true
  | .W => match k with | .load | .vload | .dwrite => true | _ => false
  | .A => match k with | .barrier => false | .barrierRead => false | _ => true
  | .C => match k with | .vload | .vstore | .dread => true | _ => false
  | .G => true

/-- The page's own refusals (R364). -/
def Leaf.allows (f : Leaf) (k : AKind) (mode : Mode := .u) : Bool :=
  (f.ua || mode == .s || mode == .m) && !(k.writes && (f.ro || (f.fg && k != .spill)))

/-- The trigger counter whose word of the counter window lies at an address: none outside the window, and
`some none` for a word at or beyond the launch's counters, or an access that the window refuses (R309, R365). -/
def Launch.windowCtr (l : Launch) (k : AKind) (va : Word) (n : Nat) : Option (Option Nat) :=
  let a := va.toNat % 2 ^ 56
  let b := l.cwVa.toNat % 2 ^ 56
  if k = .barrier ∨ k = .barrierRead ∨ l.desc.tctr = 0 ∨ a < b ∨ b / 2 ^ 16 * 2 ^ 16 + (b % 2 ^ 16 + 8 * l.desc.tctr + 65535) / 65536 * 65536 ≤ a then none
  else
    let i := (a - b) / 8
    let okKind := match k with | .load => true | .store => true | .sigadd => true | _ => false
    if n == 8 && okKind && decide (i < l.desc.tctr) then some (some (l.ctrBase + i)) else some none

/-- The owning core's checks of an aperture access (R266). -/
def State.apertureKeys (s : State) (l : Launch) (k : AKind) (c : CoreId) (w : Option Win) (off n : Nat) (va : Word) :
    Except AccErr (List Nat) :=
  match w with
  | none => .error (.fault .window va)
  | some w =>
    if (s.core c).launch ≠ some l.id ∨ s.partOf c ≠ l.part then .error (.fault .translation va)
    else if !k.window w then .error (.fault .window va)
    else
      match s.windowKeys c l w off n with
      | none => .error (.fault .window va)
      | some ks => .ok ks

/-- The dies whose slices are the device's agents for an access to coherent host memory (R305, R403). -/
def agentDies (pm : PartMode) (p : Nat) (pl : Place) (coh : Bool) (ks : List Nat) : List Nat :=
  match pl with
  | .host _ => if coh then (ks.map fun k => (sliceAt pm p k).1).dedup else []
  | _ => []

/-- Whether a die that is down is the agent of an access to host memory (R403, R438). -/
def State.agentDead (s : State) (p : Nat) (pl : Place) (coh : Bool) (ks : List Nat) : Bool :=
  (agentDies s.pm p pl coh ks).any fun d => (s.die d).dead

/-- Whether an access reads its granules, and so meets their poison (R127). The copies of the drill and the
sower carry poison along instead (R432). A barrier's every access counts as a read of its word, that of `barinit` too, a choice of
notes/assumptions 90. -/
def AKind.reads (k : AKind) : Bool :=
  match k with
  | .store | .spill | .vstore | .sigset | .dread | .dwrite | .hwrite | .sread | .swrite => false
  | _ => true

/-- A vector access, which meets poison only during its transfer (R161). -/
def AKind.vector (k : AKind) : Bool := k == .vload || k == .vstore

/-- The key of a host line in a partition's directory: each partition's device is an agent of its own (R305). -/
def hostKey (part n : Nat) : Nat := part * 2 ^ 46 + n

/-- Whether the bytes stored here for an access are the current copy, so that their poison counts: of a line that the host
holds, and of a host line that the device does not hold, it is the copy that the access asks for (R294, R304, R394, R399). -/
def State.current (s : State) (part : Nat) (pl : Place) (coh : Bool) (ks : List Nat) : Bool :=
  match pl with
  | .dev _ => ks.all fun k => (s.dir.line (k / 64)).st != .ho
  | .host _ => coh && ks.all fun k => (assocGet s.dir.hosts (hostKey part (k / 64))).isSome
  | _ => true

/-- Orders 5 to 9 of R127 for an access to global memory, in that order. `atomOk` is the test of order 7. -/
def State.global (s : State) (l : Launch) (k : AKind) (va : Word) (n : Nat)
    (atomOk : Place → Bool → Bool := fun _ _ => true) (mode : Mode := .u) : Except AccErr Acc := do
  let f ← s.walk l va
  if !f.allows k mode then .error (.fault .permission va)
  let pl := placeOf s.pm l.part (f.addr va)
  let (ks, pl) ← (match pl with
    | .dev a => .ok (range a n, pl)
    | .host a => .ok (range a n, pl)
    | .head _ =>
      match l.windowCtr k va n with
      | some (some c) => .ok ([], .ctr c)
      | some none => .error (.fault .permission va)
      | none => .ok ([], pl)
    | .ctr _ => .ok ([], pl)
    | .lm c w off => do
      let ks ← s.apertureKeys l k c w off n va
      .ok (ks, pl)
    | .hole => .error (.fault .translation va))
  if (k == .barrier || k == .barrierRead) && !(match pl with | .lm .. => true | _ => false) then .error (.fault .window va)
  if !atomOk pl f.coh then .error (.fault .unsupportedAtomic va)
  if f.tagged && !(k == .spill || k == .fill) && ks.any (fun a => s.tagAt a != va.toNat / 2 ^ 56 % 16) then .error (.fault .tag va)
  if !k.vector && ((k.reads && s.current l.part pl f.coh ks && s.poisoned ks) || s.quarantined ks
      || s.agentDead l.part pl f.coh ks) then .error (.fault .poison va)
  .ok { keys := ks, place := pl, coh := f.coh, tagged := f.tagged, mode := f.mode, part := l.part, walked := f.walked,
        headUa := f.ua && (match pl with | .head _ => true | _ => false) }

/-- Orders 1 and 3 of R127 for an access to a window of the executing core. -/
def State.ownWindow (s : State) (l : Launch) (k : AKind) (w : Win) (ea : Word) (n align : Nat) : Except AccErr Acc :=
  let off := ea.toNat
  if !k.window w || l.split.size w ≤ off then .error (.fault .window ea)
  else if (s.windowKeys s.cur l w off (min n (l.split.size w - off))).isNone then .error (.fault .window ea)
  else if off % align ≠ 0 then .error (.fault .align ea)
  else
    match s.windowKeys s.cur l w off n with
    | none => .error (.fault .window ea)
    | some ks => .ok { keys := ks, place := .lm s.cur (some w) off }

/-- The checks of one access of the executing context, in the order of R127, but for poison in the core's own windows,
which is met only once the range is present (R129). -/
def State.resolve (s : State) (k : AKind) (w : Win) (ea : Word) (n align : Nat)
    (atomOk : Place → Bool → Bool := fun _ _ => true) : Except AccErr Acc :=
  let l := s.myLaunch
  match w with
  | .glob =>
    if ea.toNat % align ≠ 0 then .error (.fault .align ea) else s.global l k ea n atomOk s.me.mode
  | _ => s.ownWindow l k w ea n align

/-! ## Requests -/

/-- A request at a line's home (R294). `perform` is an atomic or a reduction of the atomics' row. -/
inductive Req where
  | read | store | perform | red (k : RedClass) | hostRead | hostWrite
  deriving DecidableEq, Repr

def Req.writes (r : Req) : Bool :=
  match r with
  | .read => false
  | .hostRead => false
  | _ => true

/-- Who makes a request: a die, a cluster of the package, and the core whose accesses they are, if any (R282, R295). A
walker keeps no copy of what it reads. -/
structure From where
  die : Nat
  cluster : Nat
  core : Option Nat := none
  copies : Bool := true
  /-- An engine, whose write of a whole host line takes no copy (R399). -/
  engine : Bool := false
  deriving DecidableEq, Repr

/-- The executing core as a requester. -/
def From.ofCore (c : CoreId) : From := { die := c.die.val, cluster := c.cluster, core := some c.val }

/-- The walker of the requester's die (R363, R366). -/
def From.walker (f : From) : From := { f with core := none, copies := false }

/-- The sower, the command processor and the runtime as requesters: they are on no die. -/
def From.ofHeadland : From := { die := 8, cluster := 128, engine := true }

def addOnce (x : Nat) (l : List Nat) : List Nat := if l.contains x then l else l ++ [x]

/-- A line request that no tile covers (R294). `home` is the line's home die and `repl` says that its page is
replicated. -/
def Dir.lineRequest (d : Dir) (home : Nat) (f : From) (r : Req) (repl : Bool) (n : Nat) : Dir :=
  let x := d.line n
  let isC := match x.st with | .c _ => true | _ => false
  let own := f.copies && x.clusters == [f.cluster]
  if x.st = .q then d else
  match r with
  | .read =>
    if (x.st = .e ∨ x.st = .m) ∧ own = true then d
    else if f.die = home ∧ f.copies = true then
      if x.st = .i ∨ isC = true then (d.merge n).setLine n { st := .e, clusters := [f.cluster] }
      else d.setLine n { x with st := .s, clusters := addOnce f.cluster x.clusters, host := x.host || x.st == .ho }
    else if repl = true ∧ f.die < 8 ∧ f.die ≠ home ∧ f.copies = true then
      (d.merge n).setLine n { x with st := .s, dies := addOnce f.die x.dies, host := x.host || x.st == .ho }
    else if x.st = .i ∨ isC = true then (d.merge n).setLine n {}
    else d.setLine n { x with st := .s, host := x.host || x.st == .ho }
  | .store =>
    if f.die = home then (d.merge n).setLine n { st := .m, clusters := [f.cluster] }
    else (d.merge n).setLine n {}
  | .perform => (d.merge n).setLine n {}
  | .red k => if x.st = .c k then d else (d.merge n).setLine n { st := .c k }
  | .hostRead => if x.st = .ho then d else (d.merge n).setLine n { x with st := .s, host := true }
  | .hostWrite => (d.merge n).setLine n { st := .ho, host := true }

/-- A request at a line's home: the tile rules first (R296), then the line's. -/
def Dir.request (d : Dir) (home : Nat) (f : From) (r : Req) (repl : Bool) (n : Nat) : Dir :=
  match d.tileOf n with
  | some t =>
    if f.core = some t.owner then
      if r.writes then d.setTile t { t with st := .tm, dies := [], used := d.clock } else d.setTile t { t with used := d.clock }
    else (d.demote t).lineRequest home f r repl n
  | none => d.lineRequest home f r repl n

/-- A page's replicas are invalidated (R299). -/
def Dir.dropReplicas (d : Dir) (page : Nat) : Dir :=
  { d with lines := (d.lines.map fun p =>
      if p.1 / 1024 = page then
        (p.1, if p.2.clusters.isEmpty ∧ !p.2.host ∧ p.2.st = .s then ({} : Line) else { p.2 with dies := [] })
      else p).filter fun p => p.2 != {} }

def sat16 (x : Nat) : Nat := min x 65535

/-- The counters of an automatic page, and the switches they make (R299). -/
def Dir.countPage (d : Dir) (home : Nat) (f : From) (r : Req) (page : Nat) : Dir :=
  let p := (assocGet d.pages page).getD {}
  let p := if r.writes then { p with wr := sat16 (p.wr + 1) }
    else if f.die ≠ home then { p with rr := sat16 (p.rr + 1) } else p
  if !p.replicated && decide (1024 ≤ p.rr) && p.wr == 0 then { d with pages := assocSet d.pages page { replicated := true } }
  else if p.replicated && decide (16 ≤ p.wr) then
    { d with pages := assocSet d.pages page {} }.dropReplicas page
  else { d with pages := assocSet d.pages page p }

/-- The lines under some bytes. -/
def linesOf (ks : List Nat) : List Nat := (ks.map (· / 64)).dedup

/-- Whether a cluster holds a line, alone, shared or in a tile (R293, R295). -/
def Dir.held (d : Dir) (cluster n : Nat) : Bool :=
  match d.tileOf n with
  | some t => t.owner / 8 == cluster
  | none => (d.line n).clusters.contains cluster

/-- The links that stay when the directory changes: one goes with its line's copy in the context's cluster (R133). -/
def keptLinks (old new : Dir) (links : List (Nat × Nat × Nat)) : List (Nat × Nat × Nat) :=
  links.filter fun x => !(old.held (x.1 / 8) x.2.2 && !new.held (x.1 / 8) x.2.2)

/-- The directory changed, and links on lines that have left their clusters cleared (R133). -/
def State.setDir (s : State) (d : Dir) : State := { s with dir := d, links := keptLinks s.dir d s.links }

/-- One request for a line of device memory at its home. A page that the home knows as automatic counts every party's
accesses, whatever mapping they come through (R299). -/
def State.homeLine (s : State) (f : From) (r : Req) (mode : Nat) (d : Dir) (n : Nat) : Dir :=
  let home := homeDie s.pm (n * 64)
  let d := { d with clock := d.clock + 1 }
  let auto := mode == 2 || (mode == 0 && r.writes && (assocGet d.pages (n / 1024)).isSome)
  let d := if auto then d.countPage home f r (n / 1024) else d
  let repl := mode == 1 || (auto && ((assocGet d.pages (n / 1024)).getD {}).replicated)
  d.request home f r repl n

/-- Requests for the lines of an access to device memory reach their homes (R294, R299). -/
def State.toHome (s : State) (f : From) (r : Req) (mode : Nat) (lines : List Nat) : State :=
  s.setDir (lines.foldl (s.homeLine f r mode) s.dir)

/-- Whether a request for a line waits for the host's copy (R304). -/
def Dir.needsSnoop (d : Dir) (r : Req) (n : Nat) : Bool :=
  let x := d.line n
  match r with
  | .hostRead => false
  | .hostWrite => false
  | .read => x.st == .ho
  | _ => x.st == .ho || x.host

/-- Whether the device holds a host line as an access needs it (R399). -/
def Dir.holdsHost (d : Dir) (r : Req) (k : Nat) : Bool :=
  match assocGet d.hosts k with
  | none => false
  | some .s => !r.writes
  | some _ => true

/-- Whether a die's core clock stands still (R422, R426). -/
def DieState.clockStopped (x : DieState) : Bool :=
  match x.seq with
  | some q => q.freq.isSome && q.step != .drain
  | none => false

/-- Whether a core's die has its clock stopped (R422). -/
def State.frozen (s : State) (c : CoreId) : Bool := (s.dies.get c.die).clockStopped

/-- Whether a die's link takes no flits (R426). A requester of the headland, which is on no die, has the number 8. -/
def State.linkHeld (s : State) (d : Nat) : Bool :=
  decide (d < 8) &&
    match (s.die d).seq with
    | some q => q.step != .drain
    | none => false

/-- Whether what goes between two cores of different dies waits for a change sequence of either (R426). -/
def State.pathHeld (s : State) (a b : CoreId) : Bool := a.die != b.die && (s.linkHeld a.die.val || s.linkHeld b.die.val)

/-- Whether a cross-die request waits for a change sequence of either die (R426). -/
def State.crossHeld (s : State) (f : From) (ks : List Nat) : Bool :=
  ks.any fun k =>
    match keyDie s.pm k with
    | some d => d != f.die && (s.linkHeld d || s.linkHeld f.die)
    | none => s.linkHeld f.die

/-- Whether an access to the headland or through it to the host waits for a change sequence of the requester's die, or of the die
that is the device's agent for a host line (R403, R426). -/
def State.headHeld (s : State) (f : From) (a : Acc) : Bool :=
  match a.place with
  | .host _ => s.linkHeld f.die || (agentDies s.pm a.part a.place a.coh a.keys).any s.linkHeld
  | .ctr _ => s.linkHeld f.die
  | .head _ => s.linkHeld f.die
  | _ => false

/-- Whether a host port takes CXL.io traffic, or CXL.cache and CXL.mem traffic, which a slow port does not carry (R393). -/
def State.portOpen (s : State) (io : Bool) (p : Nat) : Bool := !s.hostDown.contains p && (io || !s.hostIo.contains p)

/-- Whether any host port takes such traffic. -/
def State.anyPort (s : State) (io : Bool) : Bool := s.portOpen io 0 || s.portOpen io 1

/-- The port that carries a host address now (R393, R394). -/
def State.hostPort (s : State) (io : Bool) (addr : Nat) : Nat :=
  let p := addr / 2 ^ 12 % 2
  if s.portOpen io p then p else 1 - p

/-- Snoops sent for lines that have none outstanding, while a port carries CXL.mem; an address of device memory goes by its port
(R304, R393, R394). -/
def State.sendSnoops (s : State) (lines : List Nat) (inval : Bool) : State :=
  let new := if s.anyPort false then lines.filter fun n => !(s.dir.snoops.any fun p => p.line == n) else []
  { s with dir := { s.dir with
      snoops := s.dir.snoops ++ new.map fun n => { line := n, inval, port := s.hostPort false (n * 64 % partSize s.pm) } } }

/-- Requests sent to the host for lines that have none outstanding (R399). -/
def State.sendWants (s : State) (part : Nat) (lines : List Nat) (own io : Bool) (core : Option Nat := none) (whole : Bool := false) :
    State :=
  let new := lines.filter fun n =>
    !(s.dir.wants.any fun p => p.line == hostKey part n && p.io == io && p.whole == whole && (p.own || !own))
  { s with dir := { s.dir with
      wants := s.dir.wants ++ new.map fun n =>
        { line := hostKey part n, own, port := s.hostPort io (n * 64), io, whole, core } } }

/-- The lines that an engine's write covers whole, which it asks for without their bytes (R399). -/
def wholeLines (f : From) (r : Req) (ks : List Nat) : List Nat :=
  if f.engine && r == .store then (linesOf ks).filter fun n => (ks.countP fun k => k / 64 == n) == 64 else []

/-- Whether the host has granted a device write of a whole line that is still to come (R399). -/
def Dir.grantedWhole (d : Dir) (k : Nat) : Bool := d.granted.any fun g => g.line == k && g.whole

/-- The 64 KiB page of device memory that holds an address. -/
def pageOf (k : Nat) : Nat := k / 65536

/-- Whether a page carries the CUT mark and has no copy in the shadow reserve (R440). -/
def State.cutPage (s : State) (pg : Nat) : Bool :=
  s.ckpt.cut && decide (s.ckpt.next ≤ pg) && decide (pg * 65536 < 768 * 2 ^ 30)
    && s.ckpt.parts.getLsbD (pg * 65536 / partSize s.pm) && !(s.ckpt.shadow.any fun e => e.1 == pg)

/-- Whether a write of some pages waits for room in the shadow reserve, whose size is `Config.reservePages` (R440). -/
def State.reserveFull (s : State) (pgs : List Nat) : Bool :=
  s.ckpt.cut && pgs.any s.cutPage && decide (Config.reservePages < s.ckpt.shadow.length + pgs.dedup.countP s.cutPage)

/-- What an access waits for before it can be performed: none, or the state with the requests it sends. A read of a
non-coherent page asks the host each time; a write of one is posted (R399). -/
def State.demand (s : State) (f : From) (a : Acc) (r : Req) : Option State :=
  if s.crossHeld f a.keys || s.headHeld f a || (r.writes && s.reserveFull (a.keys.map pageOf)) then some s else
  match a.place with
  | .dev _ =>
    let need := (linesOf a.keys).filter (s.dir.needsSnoop r)
    if need.isEmpty then none else some (s.sendSnoops need r.writes)
  | .host _ =>
    if !s.anyPort (!a.coh) then some s
    else if a.coh then
      let whole := wholeLines f r a.keys
      let need := (linesOf a.keys).filter fun n =>
        !(s.dir.holdsHost r (hostKey a.part n) || (whole.contains n && s.dir.grantedWhole (hostKey a.part n)))
      if need.isEmpty then none
      else
        let s := s.sendWants a.part (need.filter whole.contains) true false f.core true
        some (s.sendWants a.part (need.filter fun n => !whole.contains n) r.writes false f.core)
    else if r.writes then none
    else
      let need := (linesOf a.keys).filter fun n => !s.dir.answered.contains (hostKey a.part n)
      if need.isEmpty then none else some (s.sendWants a.part need false true f.core)
  | _ => none

/-- The walk of an access has read its tables at their homes (R294, R363, R366). -/
def State.walked (s : State) (f : From) (a : Acc) : State :=
  if a.walked.isEmpty then s else s.toHome f.walker .read 0 a.walked

/-- An access reaches its home, and the walk before it has reached its tables': the directories move (R294, R363, R399). -/
def State.arrive (s : State) (f : From) (a : Acc) (r : Req) : State :=
  let s := s.walked f a
  match a.place with
  | .dev _ => s.toHome f r a.mode (linesOf a.keys)
  | .host _ =>
    let ks := (linesOf a.keys).map (hostKey a.part)
    if a.coh && r.writes then
      let whole := (wholeLines f r a.keys).map (hostKey a.part)
      { s with dir := { s.dir with
          hosts := ks.foldl (fun h n => if whole.contains n then assocDel h n else assocSet h n .m) s.dir.hosts
          granted := s.dir.granted.filter fun g => !ks.contains g.line } }
    else if a.coh then s
    else { s with dir := { s.dir with answered := s.dir.answered.filter fun n => !ks.contains n } }
  | _ => s

/-- The lines of a range of device memory that a directory lists. -/
def Dir.listed (d : Dir) (lo n : Nat) : List Nat :=
  ((d.lines.map (·.1) ++ d.tiles.flatMap (·.lines)).filter fun i => decide (lo < (i + 1) * 64) && decide (i * 64 < lo + n)).dedup

/-- The pages of a range of device memory. -/
def rangePages (lo n : Nat) : List Nat := if n = 0 then [] else range (pageOf lo) (pageOf (lo + n - 1) + 1 - pageOf lo)

/-- What an access of the headland to a whole range of device memory waits for (R304, R426, R440). A line that no directory lists is
in I and needs no snoop. -/
def State.rangeDemand (s : State) (r : Req) (lo n : Nat) : Option State :=
  if (rangePages lo n).any (fun pg => s.linkHeld (homeDie s.pm (pg * 65536))) || (r.writes && s.reserveFull (rangePages lo n)) then some s
  else
    let need := (s.dir.listed lo n).filter (s.dir.needsSnoop r)
    if need.isEmpty then none else some (s.sendSnoops need r.writes)

/-- Such an access reaches the homes of its lines (R294); a write counts on the pages that their homes know as automatic, once for
each line (R299). -/
def State.rangeArrive (s : State) (r : Req) (lo n : Nat) : State :=
  let count (d : Dir) (pg : Nat) : Dir :=
    let first := max (lo / 64) (pg * 1024)
    let last := min ((lo + n + 63) / 64) (pg * 1024 + 1024)
    (List.range (last - first)).foldl (fun d _ => d.countPage (homeDie s.pm (pg * 65536)) .ofHeadland r pg) d
  let d := if r.writes then (s.dir.pages.map (·.1)).foldl count s.dir else s.dir
  s.setDir ((s.dir.listed lo n).foldl (fun d i => d.request (homeDie s.pm (i * 64)) .ofHeadland r false i) d)

/-- A snoop sent for a line that a walk waits for, or the wait for one that is on its way (R304). -/
def State.walkWait (s : State) (n : Nat) : Res α :=
  if s.dir.snoops.any (fun p => p.line == n) || !s.anyPort false then wait else .error (.touch (s.sendSnoops [n] false))

/-- What has come from outside must wait: it comes again (notes/assumptions 98). -/
def State.comeAgain (s : State) : State := { s with again := true }

/-- Whether Memory_Active is set: bring-up has gone past the check of the image (R446). -/
def State.memActive (s : State) : Bool := !s.firmware.recovery || s.firmware.image.isSome

/-- Whether the scheduler part runs on the command processor (R443, R447). -/
def State.scheduling (s : State) : Bool := s.memActive && !s.firmware.stopped

/-- A refusal becomes the precise trap of R127; a page that is not present traps TRANSLATION (R363). -/
def State.precise (s : State) (r : Except AccErr α) : Res α :=
  match r with
  | .ok a => .ok a
  | .error (.notPresent a) => trap .translation a
  | .error (.fault c a) => trap c a
  | .error (.snoop n) => s.walkWait n

/-! ## Writing memory -/

/-- Links of other contexts on a written line are cleared (R133). -/
def clearLinks (links : List (Nat × Nat × Nat)) (self : Option (Nat × Nat)) (ks : List Nat) :
    List (Nat × Nat × Nat) :=
  links.filter fun x => some (x.1, x.2.1) == self || !ks.any fun k => k / 64 == x.2.2

/-- The entries of memory in a range of addresses. -/
def Memory.slice (m : Memory) (lo n : Nat) : Memory := m.filter fun p => decide (lo ≤ p.1) && decide (p.1 < lo + n)

/-- A first write to a CUT page copies the page (R440). -/
def State.keepCut (s : State) (ks : List Nat) : State :=
  if s.ckpt.cut then
    (ks.map pageOf).dedup.foldl (fun s pg =>
      if s.cutPage pg then
        { s with ckpt := { s.ckpt with shadow := s.ckpt.shadow ++
          [(pg, s.mem.slice (pg * 65536) 65536, s.tags.filter (fun t => t.1 / 2048 == pg),
            s.poison.filter (fun g => g / 2048 == pg))] } }
      else s) s
  else s

/-- Bytes written at addresses by a context, or by another party (none). -/
def State.write (s : State) (self : Option (Nat × Nat)) (ks : List Nat) (bs : List Byte) : State :=
  let s := s.keepCut ks
  { s with mem := s.mem.setAll (ks.zip bs), links := clearLinks s.links self ks }

/-- Granules set poisoned, kept rising and once each. -/
def insertNat (x : Nat) (l : List Nat) : List Nat :=
  match l with
  | [] => [x]
  | y :: rest => if x = y then y :: rest else if x < y then x :: y :: rest else y :: insertNat x rest

def State.poisonGranules (s : State) (gs : List Nat) : State :=
  { s with poison := gs.foldl (fun l g => insertNat g l) s.poison }

/-- A write by an engine: a granule that it covers whole loses its poison and takes the poison of what is written
(R431 to R433). `bad` says which of the bytes come from poisoned granules. Headland
space takes nothing, nor does a line in Q or memory of a die that is down (R436, R438). -/
def State.engineWrite (s : State) (ks : List Nat) (bs : List Byte) (bad : List Bool) : State :=
  let lost := s.quarantined ks
  let ps := (ks.zip bs).filter fun p =>
    !(decide (headBase ≤ p.1) && decide (p.1 < apBase)) && !(lost && s.quarantined [p.1])
  let s := s.write none (ps.map (·.1)) (ps.map (·.2))
  let gs := (ps.map (·.1 / 32)).dedup
  let whole := gs.filter fun g => (ps.countP fun p => p.1 / 32 == g) == 32
  let dirty := gs.filter fun g => (ks.zip bad).any fun p => p.2 && p.1 / 32 == g
  ({ s with poison := s.poison.filter fun g => !whole.contains g }).poisonGranules dirty

/-- A granule that was poisoned before a part of an operation wrote these bytes of it: once the parts have covered it, its poison
goes (R433). -/
def State.coverGranule (p : State × List Covered) (g bytes : Nat) : State × List Covered :=
  let rest := p.2.filter (·.granule != g)
  let all := bytes ||| ((p.2.find? (·.granule == g)).map (·.bytes)).getD 0
  if all = 2 ^ 32 - 1 then ({ p.1 with poison := p.1.poison.filter (· != g) }, rest)
  else (p.1, { granule := g, bytes := all } :: rest)

/-- A write that is one part of an engine's operation, with the granules that the operation has covered in part: those that it
covers whole in several parts, none of them from poisoned bytes, lose their poison too (R433). -/
def State.partWrite (s : State) (cov : List Covered) (ks : List Nat) (bs : List Byte) (bad : List Bool) : State × List Covered :=
  let t := s.engineWrite ks bs bad
  let dirty := (((ks.zip bad).filter (·.2)).map (·.1 / 32)).dedup
  let gs := ((ks.map (· / 32)).dedup.filter fun g => t.poison.contains g && s.poison.contains g && !s.quarantined [32 * g])
  let part (g : Nat) : Nat := ks.foldl (fun n k => if k / 32 = g then n ||| 2 ^ (k % 32) else n) 0
  (gs.filter fun g => !dirty.contains g).foldl (fun p g => State.coverGranule p g (part g)) (t, cov.filter fun c => !dirty.contains c.granule)

/-- The executing context, as a party. -/
def State.self (s : State) : Option (Nat × Nat) := some (s.cur.val, s.slot.val)

/-- A context's link cleared (R133). -/
def State.unlink (s : State) (c : CoreId) (k : SlotId) : State :=
  { s with links := s.links.filter fun x => !(x.1 == c.val && x.2.1 == k.val) }

/-! ## Fetching -/

/-- Where n bytes of code at an address lie, or the fault of order 2 of R30 (R267, R359, R364). -/
def State.fetchAcc (s : State) (c : CoreId) (va : Word) (n : Nat) : Except AccErr Acc :=
  match s.launchOf c with
  | none => .error (.fault .translation va)
  | some l => do
    -- The PC's pointer tag is ignored (R359).
    let f ← s.walk l va
    if !f.ua || f.xn then .error (.fault .permission va)
    let pl := placeOf s.pm l.part (f.addr va)
    let acc (ks : List Nat) : Acc := { keys := ks, place := pl, coh := f.coh, mode := f.mode, part := l.part, walked := f.walked }
    match pl with
    | .dev a => .ok (acc (range a n))
    | .host a => .ok (acc (range a n))
    | .head _ => .error (.fault .permission va)
    | .ctr _ => .error (.fault .permission va)
    | .lm c' w off =>
      if c' = c ∧ w = some .G then
        match s.windowKeys c l .G off n with
        | some ks => .ok (acc ks)
        | none => .error (.fault .window va)
      else .error (.fault .permission va)
    | .hole => .error (.fault .translation va)

/-- The places of n bytes of code. -/
def State.fetchKeys (s : State) (c : CoreId) (va : Word) (n : Nat) : Except AccErr (List Nat) := (s.fetchAcc c va n).map (·.keys)

/-- The address of the 32-byte block that holds an address (R16, R259). -/
def blockOf32 (va : Word) : Nat := va.toNat / 32 * 32

/-- A core's copy of the block that holds an address (R260). -/
def Core.fetchedBlock (x : Core) (va : Word) : Option FetchBlock := x.fetched.find? (·.va == blockOf32 va)

/-- The 32-bit word of code at an address: from the core's fetch buffer if it holds the block, else from memory (R144,
R260). -/
def State.fetchWord (s : State) (c : CoreId) (va : Word) : Except AccErr (BitVec 32) := do
  let ks ← s.fetchKeys c va 4
  match (s.core c).fetchedBlock va with
  | some b => if b.bad then .error (.fault .poison va) else .ok (b.words.getD (va.toNat % 32 / 4) 0)
  | none => if s.poisoned ks || s.quarantined ks then .error (.fault .poison va) else .ok (BitVec.ofNat 32 (leNat (s.bytesAt ks)))

/-! ## Contexts start and end -/

/-- Virtual address of the spill area of a slot: the trap block lies in the 64 bytes below it (R347, R376). -/
def Launch.spillArea (l : Launch) (rank : Nat) (k : SlotId) : Word :=
  l.spillVa + l.spillStride * BitVec.ofNat 64 (rank * 11 + k.val)

/-- A slot filled with a context in mode U (R25, R49, R105, R244). -/
def Core.start (x : Core) (l : Launch) (k : SlotId) (pc : Word) : Core :=
  x.setCtx k { live := true, pc, gen := (x.ctx k).gen + 1, dloads := (x.ctx k).dloads, spillBase := (l.spillArea x.rank k).extractLsb' 4 56,
               spillLimit := BitVec.ofNat 16 l.desc.spillf, firstRelease := !x.strays.isEmpty,
               firstFin := !x.strays.isEmpty }

/-- The receive slot that a message held is freed at its source (R221). -/
def State.freeSlot (s : State) (m : Message) : State :=
  let c := coreOf m.src
  if (s.core c).launch = some m.launch then
    s.modCore c fun x =>
      let h := x.chans.get m.srcCh
      { x with chans := x.chans.set m.srcCh.val { h with inUse := h.inUse - 1 } m.srcCh.isLt }
  else s

/-- A message becomes a dead letter at a core: its receive slot is freed, `DEADL` rises and a negative acknowledgement
leaves (R222, R354). -/
def State.deadLetter (s : State) (c : CoreId) (m : Message) : State :=
  let s := s.freeSlot m
  let s := s.modCore c fun x => { x with deadl := satAdd32 x.deadl 1, sent := x.sent + 1 }
  { s with naks := s.naks ++ [{ dst := m.src, ch := m.srcCh, launch := m.launch }] }

/-- Messages that wait for a context become dead letters (R222). -/
def State.dropInbox (s : State) (c : CoreId) (k : SlotId) : State :=
  let (gone, kept) := (s.core c).inbox.partition fun p => p.2.slot == k
  let s := s.modCore c fun x => { x with inbox := kept }
  gone.foldl (fun s p => s.deadLetter c p.2) s

/-- A slot whose context has ended: registers keep their values and symbolic forms are dropped; nothing of its queues, its
parked stores or its waits stays, but for the deferred loads on their way (R117, R339, R379). -/
def Ctx.ended (t : Ctx) : Ctx :=
  let t := t.mapRegs fun r => match r with | .value v => .value v | _ => .value 0
  { t with live := false, replayQ := [], vq := [], drecvs := [], latch := 0, run := .ready, waitCount := 0, phase := false,
           firstRelease := false, firstFin := false, wrote := [], relWait := 0, acqWait := false, ncWrote := [], ncWait := 0 }

/-- A declaration in progress gives up its claims (R298). -/
def State.unclaim (s : State) (c : CoreId) (k : SlotId) : State :=
  { s with dir := { s.dir with claims := s.dir.claims.filter fun p => !(p.1 == c.val && p.2.1 == k.val) } }

/-- A core's device writes that were granted and will not come no longer hold the host's snoops (R399; notes/assumptions 91). -/
def State.ungrant (s : State) (c : Option Nat) : State :=
  { s with dir := { s.dir with granted := s.dir.granted.filter fun g => g.core != c } }

/-- A context ends: its slot frees, its references, queue, parked stores, claims and link go, and messages waiting for it
become dead letters (R117, R222, R298, R379). -/
def State.endCtx (s : State) (c : CoreId) (k : SlotId) : State :=
  let s := s.dropInbox c k
  let s := s.modCore c fun x =>
    { (x.setCtx k (x.ctx k).ended).disown k with
      fetching := if x.fetching.map (·.1) = some k then none else x.fetching }
  (((s.unclaim c k).ungrant (some c.val)).unlink c k).settle c

/-! ## Traps -/

/-- STIME as a core reads it (R231, R425). -/
def State.timeAt (s : State) (c : CoreId) : Nat := ((s.stime : Int) + (s.dies.get c.die).skew).toNat

/-- The trap record of R376. -/
def trapRecord (s : State) (t : TrapInfo) (fatal : Bool) (pc : Word) : List Byte :=
  let c := s.cur
  let me := s.me
  let symv := match t.sym with | some _ => 8 | none => 0
  let flags := (if fatal then 1 else 0) + (if t.async.isSome then 2 else 0) + (if me.mode = .h then 4 else 0) + symv
  let word0 : Nat :=
    if t.noWord then 0 else
    match s.fetchWord c pc with
    | .ok w => w.toNat
    | .error _ => 0
  let num (n v : Nat) : List Byte := leBytes n v
  num 1 t.cause.code ++ num 1 flags ++ num 1 s.slot.val ++ num 1 ((t.sym.map Fin.val).getD 0)
    ++ num 2 me.gen.toNat ++ num 1 c.die.val ++ num 1 (s.partOf c) ++ num 2 c.local ++ num 2 0
    ++ num 4 (s.myCore.rank) ++ num 8 (s.myCore.launch.getD 0) ++ num 8 pc.toNat ++ num 8 t.addr.toNat
    ++ num 4 word0 ++ num 4 (t.async.getD 0) ++ num 8 (s.timeAt c) ++ num 8 0

/-- The address of the executing slot's trap block (R376). -/
def State.trapVa (s : State) : Word := s.myLaunch.spillArea s.myCore.rank s.slot - 64

/-- The trap block of the executing slot, or what refuses the write of its record: the mapping, the page's own refusals but
for FG, or poison (R364, R376). -/
def State.trapBlock (s : State) : Except AccErr Acc := do
  let l := s.myLaunch
  let va := s.trapVa
  let f ← s.walk l va
  if f.ro || !f.ua then .error (.fault .permission va)
  match placeOf s.pm l.part (f.addr va) with
  | .dev a =>
    if s.poisoned (range a 64) || s.quarantined (range a 64) then .error (.fault .poison va)
    else .ok { keys := range a 64, place := .dev a, mode := f.mode, part := l.part, walked := f.walked }
  | _ => .error (.fault .translation va)

/-- A trap record written at its home (R294, R376). -/
def State.putRecord (s : State) (a : Acc) (rec' : List Byte) : State :=
  (s.arrive (.ofCore s.cur) a .store).write none a.keys rec'

/-- A fatal trap: the record is written where it can be, the runtime receives it, FATAL counts, and the context ends
(R343, R379). -/
def State.fatalTrap (s : State) (t : TrapInfo) (pc : Word) (block : Option Acc) : State :=
  let rec' := trapRecord s t true pc
  let s := match block with
    | some a => s.putRecord a rec'
    | none => s
  let s := { s with out := .trap rec' :: s.out }
  let s := match s.myCore.launch with
    | some id => s.modLaunch (s.partOf s.cur) id fun l => { l with fatal := l.fatal + 1 }
    | none => s
  s.endCtx s.cur s.slot

/-- The handler is entered: the record is written, and mode, PC, `TRAP.EPC` and the handler's window are set (R375 to
R377). -/
def State.enterHandler (s : State) (t : TrapInfo) (pc : Word) (a : Acc) : State :=
  let va := s.trapVa
  let vec := s.myLaunch.trapVec
  let s := s.putRecord a (trapRecord s t false pc)
  let symv : Word := match t.sym with | some i => BitVec.ofNat 64 i.val | none => BitVec.ofInt 64 (-1)
  let hw := (((Vector.replicate 24 (Reg.value 0)).set 0 (.value va)).set 1
    (.value (BitVec.ofNat 64 t.cause.code))).set 2 (.value t.addr) |>.set 3 (.value symv)
  ((s.modMe fun c => { c with mode := .h, epc := pc, hw := hw, hlat := .value 0, pc := vec, phase := false,
                              run := .ready }).unlink s.cur s.slot |>.unclaim s.cur s.slot).ungrant (some s.cur.val)

/-- Whether a trap is fatal though its record can be written (R379). -/
def State.fatal (s : State) (t : TrapInfo) : Bool :=
  t.cause == .retEmpty || t.fatal || s.myLaunch.trapVec == 0 || s.me.mode == .h

/-- A trap that waits until its record can be written (R294, R304). -/
def State.holdTrap (s : State) (t : TrapInfo) : State := s.modMe fun c => { c with run := .trapping t }

/-- An asynchronous trap that no context can take: its record goes to the runtime only, and the context goes on (R378). -/
def State.runtimeOnly (s : State) (t : TrapInfo) (pc : Word) : State :=
  { s.modMe (fun c => match c.run with | .trapping _ => { c with run := .ready } | _ => c) with
    out := .trap (trapRecord s t false pc) :: s.out }

/-- A trap without a handler to enter: fatal, but for an asynchronous one (R378, R379). -/
def State.unhandled (s : State) (t : TrapInfo) (pc : Word) (block : Option Acc) : State :=
  if t.async.isSome then s.runtimeOnly t pc else s.fatalTrap t pc block

/-- Taking a trap (R375 to R379). The record's write waits for the host's copy of its line or of a table's line as any store
does. -/
def State.takeTrap (s : State) (t : TrapInfo) : State :=
  let pc := t.pc.getD s.me.pc
  match s.trapBlock with
  | .error (.snoop n) => (s.sendSnoops [n] false).holdTrap t
  | .error _ => s.unhandled t pc none
  | .ok a =>
    match s.demand (.ofCore s.cur) a .store with
    | some s' => s'.holdTrap t
    | none => if s.fatal t then s.unhandled t pc (some a) else s.enterHandler t pc a

/-- Returning from a trap: mode U at `TRAP.EPC`; the handler's window and `lat` are discarded (R110, R377). -/
def State.returnFromTrap (s : State) : State :=
  (s.modMe fun t => { t with mode := .u, pc := t.epc, hw := Vector.replicate 24 (.value 0), hlat := .value 0,
                             run := .ready }).settle s.cur

/-- The answer of an instruction that completes, traps or waits. -/
def complete (s : State) (r : Res State) : Host.Outcome State Fault Refusal :=
  match r with
  | .ok s' => .next s'
  | .error (.trap t) => .next (s.takeTrap t)
  | .error (.trapAt t s') => .next (s'.takeTrap t)
  | .error .wait => .next (s.modMe fun t => { t with run := .blocked })
  | .error .sleep => .next (s.modMe fun t => { t with run := .asleep })
  | .error (.touch s') => .next (s'.modMe fun t => { t with run := .touching })
  | .error (.hold s' r) => .next (s'.modMe fun t => { t with run := r })

end Sys2Proof.Machine
end

