-- ==== Sys2Proof/Machine/Flags.lean ====
section
/-! DEFINITION. What results count: the event counters are the part's only flags (R65, R80). -/

namespace Sys2Proof.Machine

/-- The answer of an instruction row. -/
abbrev Out := Host.Outcome State Fault Refusal

/-- A scalar result with the events it counts (R27, R65). -/
def State.result (s : State) (d : Dst) (v : Word) (evs : List Nat) (len : Nat) : State :=
  ((s.putV d v).countAll s.cur evs).advance len

/-- Bits [lo + n - 1 : lo] of a word as a number. -/
def wbits (w : Word) (lo n : Nat) : Nat := w.toNat / 2 ^ lo % 2 ^ n

/-- A word of a number. -/
def word (n : Nat) : Word := BitVec.ofNat 64 n

/-- IMM24 sign-extended (R12). -/
def sext24 (imm : BitVec 24) : Word := imm.signExtend 64

/-- The low N bits of a number written to a register: sign-extended for `.iN`, zero-extended for every other type
(R28). -/
def extend (t : Ty) (v : Nat) : Word := BitVec.ofInt 64 (bitsInt t.isSigned (8 * t.bytes) v)

/-- The type that TYPE names for an integer instruction, `.i64` by default (R79). -/
def intTy (ty : Option Ty) : Ty := ty.getD .i64

/-- The type that TYPE names for a floating instruction, `.f32` by default (R79). -/
def fpTy (ty : Option Ty) : Ty := ty.getD .f32

/-- An integer type of 64 bits (R74). -/
def is64 (ty : Option Ty) : Bool := ty.isNone || ty == some .i64 || ty == some .z64

end Sys2Proof.Machine
end

