-- ==== Sys2Proof/Machine/Operands.lean ====
section
/-! DEFINITION. Operand forms: floating sources (R21), symbolic folding (R74), replay logs (R75) and fold-affine forms
(R77), effective rounding (R47, R48) and effective addresses (R124). -/

namespace Sys2Proof.Machine

/-- A small integer in a floating format, exactly (R21). -/
def fpImm (ty : Ty) (k : Fin 16) : Word :=
  BitVec.ofNat 64 ((Fmt.ofTy ty).pack .rne false 0 (FpVal.ofInt ((k.val : Int) - 8))).1

/-- A source read in a type: an immediate converts exactly to a floating format (R21). -/
def Ctx.srcTy (t : Ctx) (ty : Ty) (lit : Word) (x : Src) : Reg :=
  match x with
  | .imm k => if ty.isFloat then .value (fpImm ty k) else .value (immVal k)
  | _ => t.src lit x

/-- A scalar operand of a vector class read in a type (R21). -/
def vscalTy (t : Ctx) (ty : Ty) (lit : Word) (x : VSrc) : Reg :=
  match x with
  | .imm k => if ty.isFloat then .value (fpImm ty k) else .value (immVal k)
  | .o n => t.reg (.o n)
  | .lat => t.reg .lat
  | .lit => .value lit
  | .zero => .value 0
  | .v _ => .value 0

/-- The effective mode of an instruction whose result is not an FP8 conversion: dynamic takes FP.MODE.RM, and stochastic
there rounds RNE (R47). -/
def Ctx.mode' (t : Ctx) (r : Rnd) : RMode :=
  match r with
  | .rne => .rne
  | .rtz => .rtz
  | .rup => .rup
  | .rdn => .rdn
  | .sr => .rne
  | .dyn => if t.rm = .sr then .rne else t.rm

/-- The effective mode of a conversion to a type: stochastic holds for FP8 destinations only (R47). -/
def Ctx.cvtMode (t : Ctx) (dst : Ty) (r : Rnd) : RMode :=
  if dst == .e4m3 || dst == .e5m2 then
    match r with
    | .sr => .sr
    | .dyn => t.rm
    | _ => t.mode' r
  else t.mode' r

/-- A source as a·X + b over at most one symbol (R74). -/
def Reg.affine (r : Reg) : Option (Option Sym × Word × Word) :=
  match r with
  | .value c => some (none, 0, c)
  | .int s a b => some (some s, a, b)
  | _ => none

/-- Two sources over one symbol, at least one of them symbolic (R74). -/
def affine2 (x y : Reg) : Option (Sym × (Word × Word) × (Word × Word)) :=
  match x.affine, y.affine with
  | some (some s, a, b), some (none, c, d) => some (s, (a, b), (c, d))
  | some (none, a, b), some (some s, c, d) => some (s, (a, b), (c, d))
  | some (some s, a, b), some (some t, c, d) => if s = t then some (s, (a, b), (c, d)) else none
  | _, _ => none

def foldAdd (x y : Reg) : Option Reg :=
  (affine2 x y).map fun (s, p, q) => (Reg.int s (p.1 + q.1) (p.2 + q.2)).norm

def foldSub (x y : Reg) : Option Reg :=
  (affine2 x y).map fun (s, p, q) => (Reg.int s (p.1 - q.1) (p.2 - q.2)).norm

/-- `mul` folds where one source is a VALUE (R74). -/
def foldMul (x y : Reg) : Option Reg :=
  match x, y with
  | .int s a b, .value c => some (Reg.int s (a * c) (b * c)).norm
  | .value c, .int s a b => some (Reg.int s (a * c) (b * c)).norm
  | _, _ => none

/-- `shl` folds where the amount is a VALUE (R74). -/
def foldShl (x y : Reg) : Option Reg :=
  match x, y with
  | .int s a b, .value k => some (Reg.int s (a <<< (k.toNat % 64)) (b <<< (k.toNat % 64))).norm
  | _, _ => none

/-- `lea` folds its base with its shifted index and adds the displacement (R74). -/
def foldLea (sh : Nat) (disp : Word) (x y : Reg) : Option Reg :=
  if (match x, y with | .int s _ _, .int t _ _ => s != t | _, _ => false) then none else
  let y' : Reg :=
    match y with
    | .int s a b => (Reg.int s (a <<< sh) (b <<< sh)).norm
    | .value c => .value (c <<< sh)
    | r => r
  match x, y' with
  | .value _, .value c =>
    -- The index folded to a VALUE: the base is a VALUE too.
    match y with
    | .int .. => (match x with | .value b => some (.value (b + c + disp)) | _ => none)
    | _ => none
  | _, _ =>
    match foldAdd x y' with
    | some (.int s a b) => some (.int s a (b + disp))
    | some (.value v) => some (.value (v + disp))
    | r => r

/-- Whether a register holds a form (or a replay that has not finished). -/
def Reg.symbolic (r : Reg) : Bool :=
  match r with
  | .value _ => false
  | _ => true

/-- An AFF form of a source of a `.fa` instruction: the pure form starts from 1.0 and -0.0 (R77). -/
def Reg.aff' (r : Reg) : Option (Sym × BitVec 32 × BitVec 32) :=
  match r with
  | .int s a b => if a = 1 ∧ b = 0 then some (s, 0x3F800000, 0x80000000) else none
  | .aff s a b => some (s, a, b)
  | _ => none

/-- FP32 operations that round RNE (R77). -/
def f32v (b : BitVec 32) : FpVal := Fmt.f32.val b.toNat
def r32 (v : FpVal) : BitVec 32 := BitVec.ofNat 32 (rne32 v)
def lo32 (w : Word) : BitVec 32 := w.setWidth 32

/-- One composition step of R77: FN, the position of the symbolic value, its a and b, and the known operands in order. -/
def affStep (fn : Nat) (pos : Nat) (a b c d : BitVec 32) : BitVec 32 × BitVec 32 :=
  match fn, pos with
  | 0, _ => (a, r32 (FpVal.add .rne (f32v b) (f32v c)))
  | 1, 0 => (a, r32 (FpVal.sub .rne (f32v b) (f32v c)))
  | 1, _ => (r32 (f32v a).neg, r32 (FpVal.sub .rne (f32v c) (f32v b)))
  | 2, _ => (r32 (FpVal.mul (f32v a) (f32v c)), r32 (FpVal.mul (f32v b) (f32v c)))
  | _, 2 => (a, r32 (FpVal.fma .rne (f32v c) (f32v d) (f32v b)))
  | _, _ => (r32 (FpVal.mul (f32v a) (f32v c)), r32 (FpVal.fma .rne (f32v b) (f32v c) (f32v d)))

/-- A log that takes one more entry: the pure form, or a log with fewer than three (R75). -/
def Reg.logged (r : Reg) : Option (Sym × List LogEntry) :=
  match r with
  | .int s a b => if a = 1 ∧ b = 0 then some (s, []) else none
  | .log s l => if l.length < 3 then some (s, l) else none
  | _ => none

/-- The form that an FP instruction with one symbolic source writes, or none where the use blocks (R75, R77). `rs` are
the sources in operand order. -/
def foldFp (fn : Nat) (fa : Bool) (ty : Ty) (mode : RMode) (rs : List Reg) : Option Reg :=
  let known := rs.filter fun r => !r.symbolic
  if known.length + 1 ≠ rs.length then none else
  let pos := rs.findIdx Reg.symbolic
  let r := rs.getD pos (.value 0)
  let k1 := (known.getD 0 (.value 0)).val
  let k2 := (known.getD 1 (.value 0)).val
  if fa then
    match r.aff' with
    | some (s, a, b) => let p := affStep fn pos a b (lo32 k1) (lo32 k2); some (.aff s p.1 p.2)
    | none => none
  else
    match r.logged with
    | some (s, l) => some (.log s (l ++ [{ fn := Fin.ofNat 4 fn, pos := Fin.ofNat 3 pos, ty, rnd := mode, k1, k2 }]))
    | none => none

/-- EA with an index: B + C + sext(IMM24) (R124). -/
def ea3 (b c : Word) (imm : BitVec 24) : Word := b + c + sext24 imm

/-- EA without an index (R124). -/
def ea2 (b : Word) (imm : BitVec 24) : Word := b + sext24 imm

end Sys2Proof.Machine
end

