-- ==== Sys2Proof/Machine/Coherence.lean ====
section
/-! DEFINITION. Requests of the executing context at the home slices and to the host (R294, R304, R305, R399), and the gates
of releases and acquires (R130, R132, R179, R289, R391). -/

namespace Sys2Proof.Machine

/-! ## Performing a request -/

/-- The dies whose links a write of a core, or of an engine for it, uses (R289). -/
def State.linksOf (s : State) (c : CoreId) (a : Acc) : List Nat :=
  let own := c.die.val
  let far := (a.keys.filterMap (keyDie s.pm)).dedup.filter (· != own)
  match a.place with
  | .host _ => own :: (agentDies s.pm a.part a.place a.coh a.keys).filter (· != own)
  | .ctr _ => [own]
  | _ => if far.isEmpty then [] else own :: far

/-- The dies whose links a write of the executing context uses (R289). -/
def State.linksUsed (s : State) (a : Acc) : List Nat := s.linksOf s.cur a

/-- Whether a state has sent requests that another has not: the attempt is worth keeping. -/
def State.asked (s' s : State) : Bool :=
  s'.dir.snoops.length != s.dir.snoops.length || s'.dir.wants.length != s.dir.wants.length

/-- The wait for what a demand has asked. -/
def State.await (s s' : State) : Res α := if s'.asked s then .error (.touch s') else wait

/-- The host ports that a non-coherent write uses (R399). -/
def State.ncPorts (s : State) (a : Acc) : List Nat :=
  match a.place with | .host pa => if a.coh then [] else [s.hostPort true pa] | _ => []

/-- The links and ports that a write of the executing context uses, noted for its next release (R289, R399). -/
def State.noteWrite (s : State) (a : Acc) : State :=
  let nc := s.ncPorts a
  s.modMe fun t => { t with wrote := (s.linksUsed a).foldl (fun l d => addOnce d l) t.wrote,
                            ncWrote := nc.foldl (fun l p => addOnce p l) t.ncWrote }

/-- An access of the executing context that waits for nothing is performed at its home (R294, R399). -/
def State.performAcc (s : State) (a : Acc) (r : Req) : State :=
  let s := s.arrive (.ofCore s.cur) a r
  if r.writes then s.noteWrite a else s

/-- An access of the executing context is performed at its home, or waits for what it needs (R294, R304, R399). -/
def State.request (s : State) (a : Acc) (r : Req) : Res State :=
  match s.demand (.ofCore s.cur) a r with
  | some s' => s.await s'
  | none => .ok (s.performAcc a r)

/-- Accesses of the executing context performed at their homes together, once none of them waits. -/
def State.requests (s : State) (l : List Acc) (r : Req) : Res State :=
  match l.findSome? fun a => s.demand (.ofCore s.cur) a r with
  | some s' => s.await s'
  | none => .ok (l.foldl (fun s a => s.performAcc a r) s)

/-! ## Host lines -/

def State.modDir (s : State) (f : Dir → Dir) : State := { s with dir := f s.dir }

/-- The addresses of a host line's bytes, by its key in a partition's directory (R305). -/
def hostBytes (k : Nat) : List Nat := range (k % 2 ^ 46 * 64) 64

/-- What a host snoop finds: the line's bytes leave if it is modified (R399). -/
def State.snoopData (s : State) (k : Nat) : State :=
  match assocGet s.dir.hosts k with
  | some HostSt.m => { s with out := .hostData (k % 2 ^ 46 * 64) (s.bytesAt (hostBytes k)) (s.poisoned (hostBytes k)) :: s.out }
  | _ => s

/-- The device no longer holds a host line: its copy goes, with its poison and the links on it (R133, R394, R399). -/
def State.dropHost (s : State) (k : Nat) : State :=
  let n := k % 2 ^ 46
  { s.modDir (fun d => { d with hosts := assocDel d.hosts k }) with
    links := s.links.filter fun x => x.2.2 != n
    poison := s.poison.filter fun g => g / 2 != n }

/-- A host line leaves the device, its bytes to the host if it is modified (R399). -/
def State.returnHost (s : State) (k : Nat) : State :=
  if (assocGet s.dir.hosts k).isNone then s else (s.snoopData k).dropHost k

/-! ## Releases and acquires -/

/-- Whether a scope reaches beyond the die (R281). -/
def scopeWide (sc : Scope) : Bool := sc == .pkg || sc == .sys

/-- Whether a queued vector instruction accesses memory (R161). -/
def VOp.isMem (o : VOp) : Bool :=
  match o.op with
  | .ld => true
  | .st => true
  | .gth => true
  | .sct => true
  | _ => false

/-- Whether a release or an acquire at a scope exchanges tokens: at `.pkg` and `.sys`, but in PM8 not at `.pkg` (R289, R352). -/
def State.tokens (s : State) (sc : Scope) : Bool := sc == .sys || (sc == .pkg && s.pm != .pm8)

/-- The tokens of a release leave on some links, and zero-length reads on some ports (R289, R399). -/
def State.sendTokens (s : State) (t : Releaser) (dies ports : List Nat) : State :=
  let s := dies.foldl (fun s d => s.modDie d fun x => { x with relTokens := x.relTokens ++ [t] }) s
  { s with dir := { s.dir with flushes := s.dir.flushes ++ ports.map fun p => (t, p) } }

/-- The tokens of the executing context's release leave on the links that its earlier writes used, and at `.sys` zero-length reads on
the ports that carried non-coherent ones (R289, R399). -/
def State.emitTokens (s : State) (dies ports : List Nat) : State :=
  (s.sendTokens (.ctx s.cur.val s.slot.val) dies ports).modMe fun t =>
    { t with wrote := if dies.isEmpty then t.wrote else [], relWait := dies.length,
             ncWrote := if ports.isEmpty then t.ncWrote else [], ncWait := ports.length }

/-- A release at a scope: it waits until every earlier access of the context has been performed (R130, R132, R179, R391),
and at `.pkg` and `.sys` for the tokens it emits (R289, R399, R426). -/
def State.release (s : State) (sc : Scope) : Res State := do
  let t := s.me
  waitFor (t.replayQ.isEmpty && !(t.vq.any VOp.isMem))
  waitFor (!t.firstRelease || s.myCore.strays.isEmpty)
  let s := s.modMe fun t => { t with firstRelease := false }
  if s.tokens sc then
    waitFor ((addOnce s.cur.die.val t.wrote).all fun d => (s.die d).seq.isNone)
    waitFor (t.relWait == 0 && t.ncWait == 0)
    let ports := if sc = .sys then t.ncWrote else []
    if t.wrote.isEmpty ∧ ports.isEmpty then .ok s else .error (.touch (s.emitTokens t.wrote ports))
  else .ok s

/-- Whether an acquire of a core at a scope waits while its die's link drains and changes (R426). -/
def State.drainHolds (s : State) (c : CoreId) (sc : Scope) : Bool := s.tokens sc && (s.die c.die.val).seq.isSome

/-- An acquire at `.pkg` or `.sys` waits while its die's link drains (R426). -/
def State.acquireGate (s : State) (sc : Scope) : Res Unit := waitFor (!s.drainHolds s.cur sc)

/-- An acquire has read its value: at `.pkg` and `.sys` its token leaves, and the context's later accesses wait for it
(R289). -/
def State.acquired (s : State) (sc : Scope) : State :=
  if s.tokens sc then
    (s.modDie s.cur.die.val fun x => { x with acqTokens := x.acqTokens ++ [(s.cur.val, s.slot.val)] }).modMe
      fun t => { t with acqWait := true }
  else s

/-- Whether an entry of the replay queue is an atomic that acquires. -/
def Parked.acquires (p : Parked) : Bool :=
  match p.kind with
  | .atomic _ => p.ord == .acq || p.ord == .ar
  | _ => false

/-- Every access waits for the token of an earlier acquire, and for an earlier atomic that acquires and is parked
(R142, R289). -/
def State.accessGate (s : State) : Res Unit :=
  waitFor (!s.me.acqWait && !(s.me.replayQ.any Parked.acquires))

end Sys2Proof.Machine
end

