-- ==== Sys2Proof/Machine/Registers.lean ====
section
/-! DEFINITION. The registers of headland space: what they read as and what writing them does (R420, R421, R428, R434, R439). -/

namespace Sys2Proof.Machine

/-- Whether a mode reaches headland registers (R421). -/
def privileged (mode : Mode) : Bool := mode == .s || mode == .m

/-! ## Dies -/

/-- A request for a frequency (R420). -/
def DieState.askFreq (x : DieState) (t : Nat) : DieState := { x with tgt := t, freqDue := if t = x.cur then none else some t }

/-- CLK.FREQ written (R420). -/
def DieState.writeFreq (x : DieState) (v : Word) : DieState :=
  let t := wbits v 0 8
  let x := { x with freqErr := x.freqErr && wbits v 62 1 == 0 }
  if 35 ≤ t ∧ t ≤ 84 then { x.askFreq t with wantTgt := t } else { x with freqErr := true }

/-- LNK.CTL written (R428). -/
def DieState.writeLink (x : DieState) (v : Word) : DieState :=
  let p := wbits v 1 2
  if p = 3 then x else { x with pmw := p, pmwDue := x.pmwDue || p != x.pmw }

/-- Whether a sequence of a die is in progress or queued (R420, R428). -/
def DieState.linkBusy (x : DieState) : Bool := x.seq.isSome || x.forcedDue || x.freqDue.isSome || x.pmwDue

/-- CLK.FREQ as it is read (R420). -/
def DieState.freqWord (x : DieState) : Nat :=
  (if x.linkBusy then 2 ^ 63 else 0) + (if x.freqErr then 2 ^ 62 else 0) + x.cur * 2 ^ 48 + x.tgt

/-- LNK.CTL as it is read (R428). SPARES shows the direction with fewer spare lanes left, a choice of notes/assumptions 97. -/
def DieState.linkWord (x : DieState) : Nat :=
  (if x.linkBusy then 2 ^ 63 else 0) + x.width * 2 ^ 60 + x.forced * 2 ^ 58 + min x.spares x.sparesIn * 2 ^ 32 + x.crcErr * 2 ^ 16 + x.pmw * 2

/-- RAS as it is read (R434). -/
def DieState.rasWord (x : DieState) : Nat := x.ue * 2 ^ 48 + x.ce * 2 ^ 32 + x.errKind * 2 ^ 30 + x.errLine

/-! ## The checkpoint -/

/-- Bytes of a page's record at most: header, tags, poison map, data (R441). -/
def maxRecord : Nat := 64 + 1024 + 256 + 65536

/-- Bytes that a checkpoint of some partitions could need (R439, R441). -/
def ckptNeed (pm : PartMode) (pmask : Byte) : Nat :=
  ((List.range (partCount pm)).countP fun p => pmask.getLsbD p) * (partSize pm / 65536) * maxRecord + 64

/-- GO (R439). PMASK is written as any write of the register does; a checkpoint in progress keeps the partitions it began
with. -/
def State.ckptGo (s : State) (mode : Mode) (pmask : Byte) : State :=
  if !privileged mode then s else
  let k := { s.ckpt with pmask }
  let bad := k.busy || pmask == 0 || decide (2 ^ partCount s.pm ≤ pmask.toNat)
    || decide (wbits k.dst 52 12 * 2 ^ 30 < ckptNeed s.pm pmask)
  { s with ckpt := if bad then { k with err := true }
                   else { k with parts := pmask, busy := true, status := 0, cut := false, next := 0, sent := 0, off := 0,
                                 shadow := [], held := [] } }

/-- CKPT.CTL written (R439). -/
def State.writeCkptCtl (s : State) (mode : Mode) (v : Word) : State :=
  let k := { s.ckpt with err := s.ckpt.err && wbits v 62 1 == 0 }
  let pmask := BitVec.ofNat 8 (wbits v 0 8)
  if wbits v 8 1 = 1 then { s with ckpt := k : State }.ckptGo mode pmask else { s with ckpt := { k with pmask } }

/-- CKPT.CTL as it is read (R439). -/
def Ckpt.ctlWord (k : Ckpt) : Nat :=
  (if k.busy then 2 ^ 63 else 0) + (if k.err then 2 ^ 62 else 0) + k.status % 4 * 2 ^ 60 + k.pmask.toNat

/-- A mode S write that only mode M may make is ignored and counted (R442). -/
def State.refuse (s : State) : State := { s with firmware := { s.firmware with refused := s.firmware.refused + 1 } }

/-- CKPT.DST written (R439, R442). -/
def State.writeCkptDst (s : State) (mode : Mode) (v : Word) : State :=
  match mode with
  | .m => { s with ckpt := { s.ckpt with dst := v &&& 0xFFFFFFFFFFFFF000 } }
  | .s => s.refuse
  | _ => s

/-! ## Headland space -/

/-- A register of headland space (R421). -/
inductive HeadReg where
  | freq (d : DieId) | link (d : DieId) | ras (d : DieId) | ckptCtl | ckptDst
  deriving DecidableEq, Repr

/-- The register at an offset in headland space (R421). -/
def headReg (off : Nat) : Option HeadReg :=
  let i := off - 0xF00001000
  if off < 0xF00001000 ∨ off % 8 ≠ 0 then none
  else if i < 0x40 then some (.freq (Fin.ofNat 8 (i / 8)))
  else if i < 0x80 then some (.link (Fin.ofNat 8 (i / 8)))
  else if i < 0xC0 then some (.ras (Fin.ofNat 8 (i / 8)))
  else if i = 0xC0 then some .ckptCtl
  else if i = 0xC8 then some .ckptDst
  else none

/-- The register that an access of the executing context reaches: an aligned one of 8 bytes in mode S or M (R421). -/
def State.reachedReg (s : State) (off n : Nat) : Option HeadReg := if n = 8 ∧ privileged s.me.mode = true then headReg off else none

/-- What a register reads as (R7, R420, R428, R434, R439). -/
def State.headWord (s : State) (r : HeadReg) : Word :=
  match r with
  | .freq d => word (s.dies.get d).freqWord
  | .link d => word (s.dies.get d).linkWord
  | .ras d => word (s.dies.get d).rasWord
  | .ckptCtl => word s.ckpt.ctlWord
  | .ckptDst => s.ckpt.dst

/-- What reading a register clears (R7, R428, R434). -/
def State.headTaken (s : State) (r : HeadReg) : State :=
  match r with
  | .link d => s.modDie d.val fun x => { x with crcErr := 0 }
  | .ras d => s.modDie d.val fun x => { x with ue := 0, ce := 0 }
  | _ => s

/-- A register written in mode S or M (R7, R420, R428, R439, R442). -/
def State.headPut (s : State) (r : HeadReg) (mode : Mode) (v : Word) : State :=
  match r with
  | .freq d => s.modDie d.val fun x => x.writeFreq v
  | .link d => s.modDie d.val fun x => x.writeLink v
  | .ras _ => s
  | .ckptCtl => s.writeCkptCtl mode v
  | .ckptDst => s.writeCkptDst mode v

end Sys2Proof.Machine
end

