-- ==== Sys2Proof/Machine/Layout.lean ====
section
/-! DEFINITION. Layout records and their checks (R269, R270), acceptance of drill jobs (R215, R216), and first touch of
bound ranges (R129, R218). -/

namespace Sys2Proof.Machine

/-- A field of a record: n bytes at an offset, little-endian. -/
def field (rec : List Byte) (off n : Nat) : Nat := leNat ((rec.drop off).take n)

/-- A field read as a signed number. -/
def fieldInt (rec : List Byte) (off n : Nat) : Int :=
  let v := field rec off n
  if v < 2 ^ (8 * n - 1) then v else (v : Int) - 2 ^ (8 * n)

/-- Bits of a field. -/
def fieldBit (rec : List Byte) (off bit : Nat) : Bool := field rec off 8 / 2 ^ bit % 2 == 1

/-- SCOPE codes (R12). -/
def scopeOf (n : Nat) : Scope :=
  match n with
  | 0 => .thr | 1 => .core | 2 => .clu | 3 => .die | 4 => .pkg | _ => .sys

/-- The window that a space code of a record names; 0 is global (R269). -/
def winOf (n : Nat) : Win :=
  match n with
  | 1 => .W | 2 => .A | 3 => .C | 4 => .G | _ => .glob

/-- The fields of a layout record (R269). -/
def parseLayout (r : List Byte) : Layout where
  dist := fieldBit r 1 0
  mcast := fieldBit r 1 1
  bar := fieldBit r 1 2
  sig := fieldBit r 1 3
  cbp := fieldBit r 1 4
  cbc := fieldBit r 1 5
  srcSp := field r 2 1
  dstSp := field r 3 1
  rlen := field r 4 4
  src := BitVec.ofNat 64 (field r 8 8)
  dst := BitVec.ofNat 64 (field r 16 8)
  spitch := field r 24 4
  dpitch := field r 28 4
  rows := field r 32 2
  didx := field r 34 2
  grp := field r 36 1
  cbh := Fin.ofNat 8 (field r 37 1)
  blk := field r 38 2
  list := (List.range 8).map fun i => field r 40 3 / 8 ^ i % 8
  ncy := field r 43 1
  ring := field r 44 4
  barOff := field r 48 4
  sigScope := scopeOf (field r 52 1 % 8)
  sigAdd := fieldBit r 52 3
  sigv := field r 56 4
  flag := field r 60 4

/-- Bytes of the whole stream. -/
def Layout.total (x : Layout) : Nat := x.rows * x.rlen

/-- Whether a window range reaches no hidden range (R277). -/
def Launch.unhidden (l : Launch) (w : Win) (off n : Nat) : Bool :=
  !(l.pairs.any fun p => p.win == w && decide (off < p.hoff + p.len) && decide (p.hoff < off + n))

/-- Whether a window range lies in the window and reaches no hidden range (R263, R277). -/
def Launch.rangeOk (l : Launch) (w : Win) (off n : Nat) : Bool := decide (off + n ≤ l.split.size w) && l.unhidden w off n

/-- The bytes from the first of some rows to the last one's end (R270). -/
def extent (rlen pitch rows : Nat) : Nat := if rows = 0 then 0 else (rows - 1) * pitch + rlen

/-- Whether the extent of some rows lies in a window outside the hidden ranges, what lies between the rows too (R210, R270). -/
def Launch.rowsOk (l : Launch) (w : Win) (off rlen pitch rows : Nat) : Bool := l.rangeOk w off (extent rlen pitch rows)

/-- The blocks of the distributor's deal to each core are contiguous from DST: how many bytes each place of LIST takes
(R272). -/
def Layout.share (x : Layout) (place : Nat) : Nat :=
  let b := 64 * x.blk
  let full := x.total / b
  let rest := x.total % b
  let whole := if place < full % x.ncy then full / x.ncy + 1 else full / x.ncy
  whole * b + (if full % x.ncy = place then rest else 0)

/-- The core that an entry of LIST names (R269). -/
def Layout.listCore (x : Layout) (c : CoreId) (i : Nat) : CoreId := coreOf (c.val / 8 * 8 + x.list.getD i 0)

/-- The pair with a number (R277). -/
def Launch.pair (l : Launch) (n : Nat) : Option PairDecl := l.pairs.find? fun p => p.pair.val == n

/-- The declaration of a circular buffer (R278). -/
def Launch.cbDecl (l : Launch) (h : Fin 8) : Option CbDecl := l.cbufs.find? fun d => d.cb == h

/-- The members of a multicast group, as cores (R273). -/
def Launch.group (l : Launch) (g : Nat) : Option (List CoreId) :=
  (l.groups.find? fun d => d.grp == g).map fun d => d.members.map fun r => coreOf (l.cores.getD r 0)

/-- Whether a core is bound to a launch. -/
def State.boundTo (s : State) (c : CoreId) (l : Launch) : Bool := (s.core c).launch == some l.id && s.partOf c == l.part

/-- Whether fields that the record's flags do not use are zero (R269, R270). -/
def unusedZero (r : List Byte) (x : Layout) : Bool :=
  (x.dist || (field r 38 2 == 0 && field r 40 3 == 0 && field r 43 1 == 0))
    && (x.mcast || field r 36 1 == 0) && (x.cbp || x.cbc || field r 37 1 == 0)
    && (x.bar || field r 48 4 == 0) && (x.sig || (field r 52 1 == 0 && field r 56 8 == 0))
    && (x.dstSp == 5 || x.dstSp == 6 || x.didx == 0)

/-- The checks of a layout record submitted by a core of a launch (R270). -/
def State.layoutOk (s : State) (c : CoreId) (l : Launch) (r : List Byte) : Bool :=
  let x := parseLayout r
  let srcW := winOf x.srcSp
  let dstW := winOf x.dstSp
  field r 0 1 == 1 && field r 1 1 / 64 == 0 && [0, 2, 3, 4].contains x.srcSp && [0, 1, 2, 4, 5, 6].contains x.dstSp
    && field r 53 3 == 0 && field r 52 1 / 16 == 0 && decide (field r 52 1 % 8 ≤ 5) && unusedZero r x
    && decide (1 ≤ x.rlen) && decide (x.rlen ≤ 2 ^ 24) && decide (1 ≤ x.rows)
    && (x.rows == 1 || (decide (x.rlen ≤ x.spitch) && (x.dist || decide (x.rlen ≤ x.dpitch))))
    && (!x.dist || (decide (1 ≤ x.blk) && decide (x.blk ≤ 16384) && decide (1 ≤ x.ncy) && decide (x.ncy ≤ 8)))
    && decide (x.grp ≤ 63) && decide (field r 37 1 ≤ 7)
    && !(x.dist && x.mcast) && (!(x.dist || x.mcast) || x.dstSp == 1 || x.dstSp == 2 || x.dstSp == 4)
    && !(x.cbp && x.cbc)
    && x.ring % 64 == 0 && l.rangeOk .G x.ring 64
    && (!x.bar || (x.barOff % 8 == 0 && l.rangeOk .G x.barOff 8))
    && (!x.sig || (x.flag % 8 == 0 && l.rangeOk .G x.flag 8))
    && (x.srcSp == 0 || x.cbc
        || (decide (x.src.toNat < 2 ^ 20) && l.rowsOk srcW x.src.toNat x.rlen x.spitch x.rows))
    && (!(x.dstSp == 1 || x.dstSp == 2 || x.dstSp == 4) || (x.cbp && !x.dist && !x.mcast)
        || (decide (x.dst.toNat < 2 ^ 20) &&
            (if x.dist then (List.range x.ncy).all fun i => l.rangeOk dstW x.dst.toNat (x.share i)
             else l.rowsOk dstW x.dst.toNat x.rlen x.dpitch x.rows)))
    && (x.dstSp != 5 || (decide (x.didx ≤ 15) &&
        (match l.pair x.didx with
         | some p => decide (x.dst.toNat + (x.rows - 1) * x.dpitch + x.rlen ≤ p.len)
         | none => false)))
    && (x.dstSp != 6 || decide (x.didx ≤ 1023))
    && (!x.dist || (List.range x.ncy).all fun i => s.boundTo (x.listCore c i) l)
    && (!x.mcast || (l.group x.grp).isSome)
    && (!(x.cbp || x.cbc) ||
        (match l.cbDecl x.cbh with
         | some d => decide (x.total ≤ d.size) && (!x.cbc || x.src == 0) && (!x.cbp || x.dst == 0)
         | none => false))

/-- A continuation record's 32 bytes (R245). -/
def Record.bytes (r : Record) : List Byte := [r.code, r.frame, r.join, r.flags].flatMap fun w => leBytes 8 w.toNat

/-- A continuation record read from its 32 bytes (R245). -/
def recordOf (b : List Byte) (origin : Nat) : Record :=
  { code := BitVec.ofNat 64 (field b 0 8), frame := BitVec.ofNat 64 (field b 8 8), join := BitVec.ofNat 64 (field b 16 8),
    flags := BitVec.ofNat 64 (field b 24 8), origin }

/-! ## Jobs -/

/-- Whether a core has room for one more job (R215). -/
def Core.jobRoom (x : Core) : Bool := decide (x.jobs.length < 32)

/-- The drill accepts a job: it takes the cluster's next identifier, and SENT rises (R216, R354). -/
def State.acceptJob (s : State) (c : CoreId) (rec : List Byte) (slot : Option SlotId) (ref : Option SymRef)
    (region : Option (Fin 16)) : State :=
  let cl : Fin 128 := Fin.ofNat 128 c.cluster
  let id := s.jobIds.get cl
  let job : Job := { id, layout := parseLayout rec, record := rec, slot, ref, region, serial := s.serial }
  let s := { s with jobIds := s.jobIds.set cl.val (id + 1) cl.isLt, serial := s.serial + 1 }
  s.modCore c fun x => { x with jobs := x.jobs ++ [job], sent := x.sent + 1 }

/-! ## First touch -/

/-- What an access meets in the region table (R218). -/
inductive Touch where
  | clear
  | absent (i : Fin 16)
  | copying (i : Fin 16)
  | failed (c : Cause) (addr : Word)
  deriving DecidableEq, Repr

/-- The entry that a window range touches, the lowest first. -/
def Core.touched (x : Core) (w : Win) (off n : Nat) : Touch :=
  match (List.finRange 16).find? fun i =>
      let r := x.regions.get i
      (r.phase == .absent || r.phase == .copying || (match r.phase with | .fault .. => true | _ => false))
        && r.win == w && decide (off < r.off + r.len) && decide (r.off < off + n) with
  | none => .clear
  | some i =>
    match (x.regions.get i).phase with
    | .absent => .absent i
    | .copying => .copying i
    | .fault c a => .failed c a
    | _ => .clear

/-- A region-table entry changed. -/
def Core.modRegion (x : Core) (i : Fin 16) (f : Region → Region) : Core :=
  { x with regions := x.regions.set i.val (f (x.regions.get i)) i.isLt }

/-- The first touch of a range: the entry is COPYING and its job is accepted (R218). -/
def State.startCopy (s : State) (c : CoreId) (i : Fin 16) : State :=
  let rec' := ((s.core c).regions.get i).record
  (s.modCore c fun x => x.modRegion i fun r => { r with phase := .copying }).acceptJob c rec' none none (some i)

/-- An access of the executing context that is no plain load meets the region table: it waits for the copy, starting
it if need be, and a failed copy traps it (R129, R218). Aperture and global accesses touch nothing. -/
def State.touchGate (s : State) (w : Win) (ea : Word) (n : Nat) : Res Unit :=
  match w with
  | .glob => .ok ()
  | _ =>
    match s.myCore.touched w ea.toNat n with
    | .clear => .ok ()
    | .absent i => if s.myCore.jobRoom then .error (.touch (s.startCopy s.cur i)) else wait
    | .copying _ => wait
    | .failed c a => trap c a

end Sys2Proof.Machine
end

