-- ==== Sys2Proof/Machine/Access.lean ====
section
/-! DEFINITION. What every memory access of a context shares: performing it, and the replay queue of stores to pages that
are not present (R127 to R130, R179, R309). -/

namespace Sys2Proof.Machine

/-- Whether an address has the bits that no translation accepts (R124, R359). -/
def badBits (va : Word) : Bool := va.toNat / 2 ^ 60 != 0

/-- Whether a parked store of the executing context writes any byte of [va, va + n) (R130). -/
def Ctx.parkedOn (t : Ctx) (va : Word) (n : Nat) : Bool :=
  let a := va.toNat % 2 ^ 56
  !badBits va && t.replayQ.any fun p => decide (p.va.toNat % 2 ^ 56 < a + n) && decide (a < p.va.toNat % 2 ^ 56 + p.bytes)

/-! ## Performing an access -/

/-- A trigger counter (R309). -/
def State.counter (s : State) (c : Nat) : Word := (assocGet s.sower.counters c).getD 0

/-- Whether a value has met a threshold (R310). -/
def thresholdMet (value thresh : Word) : Bool := (value - thresh).toNat < 2 ^ 63

/-- A granule's tag set: 0 is not listed (R370). -/
def State.setTag (s : State) (g tag : Nat) : State :=
  { s with tags := if tag % 16 = 0 then assocDel s.tags g else assocSet s.tags g (tag % 16) }

/-- An unfired entry that waits on counter c becomes met at value v; entries met at once are in ascending handle order
(R310). -/
def meetEntries (c : Nat) (v : Word) (order : Nat) (l : List Entry) : List Entry × Nat :=
  match l with
  | [] => ([], order)
  | e :: rest =>
    let hit := e.phase == .unfired && e.ctr == some c && thresholdMet v e.rec_.thresh
    let r := meetEntries c v (if hit then order + 1 else order) rest
    ((if hit then { e with phase := .met order } else e) :: r.1, r.2)

/-- The headland cycle, of 10 units of STIME, in which an entry on STIME that is met at time t was met: the first that begins at or after
its threshold (R6, R310; notes/assumptions 100). -/
def Entry.metCycle (t : Word) (e : Entry) : Int := ((t.toNat : Int) + (e.rec_.thresh - t).toInt + 9) / 10

/-- Whether an entry waits on STIME and fires before another such entry (R310): by the cycle in which it was met, then by its handle. -/
def Entry.timeBefore (t : Word) (e f : Entry) : Bool :=
  decide (e.metCycle t < f.metCycle t) || (e.metCycle t == f.metCycle t && decide (e.handle < f.handle))

/-- Whether an unfired entry on STIME is met at time t (R310). -/
def Entry.timeMet (t : Word) (e : Entry) : Bool := e.phase == .unfired && e.ctr.isNone && thresholdMet t e.rec_.thresh

/-- Unfired entries on STIME that are met at time t take their places in the firing order (R310). -/
def meetTimes (t : Word) (fuel order : Nat) (l : List Entry) : List Entry × Nat :=
  match fuel with
  | 0 => (l, order)
  | fuel + 1 =>
    match l.find? fun e => e.timeMet t && !(l.any fun x => x.timeMet t && x.timeBefore t e) with
    | none => (l, order)
    | some e => meetTimes t fuel (order + 1) (l.map fun x => if x.handle = e.handle then { x with phase := .met order } else x)

/-- What waits on STIME and is met by now is met before what a later event meets (R310). -/
def State.meetClock (s : State) : State :=
  let w := s.sower
  let r := meetTimes (BitVec.ofNat 64 s.stime) w.entries.length w.order w.entries
  { s with sower := { w with entries := r.1, order := r.2 } }

/-- A WAIT step on counter c becomes met at value v (R324). -/
def Xfer.meet (c : Nat) (v : Word) (x : Xfer) : Xfer :=
  if x.op == .wait && x.ctr == some c && thresholdMet v x.thresh then { x with outDone := true, inDone := true } else x

/-- A trigger counter raised modulo 2^64; the sower tests what waits on it (R309, R310). Entries stand in ascending handle
order. -/
def State.raise (s : State) (c : Nat) (v : Word) : State :=
  let x := s.counter c + v
  let w := s.meetClock.sower
  let l := w.counters
  let r := meetEntries c x w.order w.entries
  { s with sower := { w with counters := if x = 0 then assocDel l c else assocSet l c x, entries := r.1, order := r.2,
                             xfers := w.xfers.map (Xfer.meet c x) } }

/-- The device register that a checked access of n bytes reaches (R420, R421). -/
def State.accReg (s : State) (a : Acc) (n : Nat) : Option HeadReg :=
  match a.place with
  | .head off => if a.headUa then none else s.reachedReg off n
  | _ => none

/-- The n bytes of a checked access: a counter's value in the counter window, a register's in headland space (R309, R421). -/
def State.readAcc (s : State) (a : Acc) (n : Nat) : List Byte :=
  match a.place with
  | .ctr c => leBytes n (s.counter c).toNat
  | .head _ =>
    match s.accReg a n with
    | some r => leBytes n (s.headWord r).toNat
    | none => List.replicate n 0
  | _ => s.bytesAt a.keys

/-- The value of a checked access. -/
def State.valAcc (s : State) (a : Acc) (n : Nat) : Nat := leNat (s.readAcc a n)

/-- A load has taken its value: a headland register may be cleared by it (R7). -/
def State.tookAcc (s : State) (a : Acc) (n : Nat) : State :=
  match s.accReg a n with
  | some r => s.headTaken r
  | none => s

/-- A checked access written; a store to the counter window raises the counter (R309, R421). -/
def State.writeAcc (s : State) (a : Acc) (n v : Nat) : State :=
  match a.place with
  | .ctr c => s.raise c (word v)
  | .head _ => match s.accReg a n with | some r => s.headPut r s.me.mode (word v) | none => s
  | _ => s.write s.self a.keys (leBytes n v)

/-- Whether a queued vector memory instruction of the context touches a line of the bytes (R179). -/
def Ctx.vqTouches (t : Ctx) (ks : List Nat) : Bool :=
  t.vq.any fun o => o.places.any fun p => p.acc.keys.any fun a => ks.any fun b => a / 64 == b / 64

/-- Order 1 of R127 for an offset in a window of the executing core. -/
def State.windowGate (s : State) (k : AKind) (w : Win) (ea : Word) : Res Unit :=
  check (w == .glob || (k.window w && decide (ea.toNat < s.myLaunch.split.size w))) .window ea

/-- Whether an access reaches a non-coherent page of the host (R399). -/
def Acc.ncHost (a : Acc) : Bool := !a.coh && (match a.place with | .host _ => true | _ => false)

/-- What every checked access meets before it is performed: earlier acquires, region bindings, queued vector accesses,
parked stores to bytes it reads, poison in its own window, and its home (R127, R129, R130, R179, R289). -/
def State.access (s : State) (k : AKind) (w : Win) (ea : Word) (n : Nat) (r : Req) (a : Acc) : Res State := do
  s.touchGate w ea n
  waitFor (!s.me.vqTouches a.keys && !(w == .glob && k.reads && s.me.parkedOn ea n))
  check (w == .glob || !k.reads || !s.poisoned a.keys) .poison ea
  let s ← s.request a r
  -- An answer of the host that came poisoned has been used (R394, R399).
  if k.reads && a.ncHost && s.poisoned a.keys then .error (.trapAt { cause := .poison, addr := ea } s) else .ok s

/-- A younger load of bytes that a parked store writes blocks until the store has been replayed, whether or not its page
is present (R130). The alignment check comes before (R127). -/
def State.parkGate (s : State) (w : Win) (ea : Word) (n align : Nat) : Res Unit :=
  waitFor (!(w == .glob && ea.toNat % align == 0 && s.me.parkedOn ea n))

/-- A load's access: its checks in the order of R127, and what it waits for. -/
def State.loadAcc (s : State) (w : Win) (ea : Word) (n : Nat) : Res (State × Acc) := do
  s.accessGate
  s.parkGate w ea n n
  let a ← s.precise (s.resolve .load w ea n n)
  let s ← s.access .load w ea n .read a
  .ok (s, a)

/-- A store's access. -/
def State.storeAcc (s : State) (k : AKind) (w : Win) (ea : Word) (n : Nat) : Res (State × Acc) := do
  s.accessGate
  let a ← s.precise (s.resolve k w ea n n)
  let s ← s.access k w ea n .store a
  .ok (s, a)

/-! ## The replay queue -/

/-- The 64 KiB page of a virtual address, by which parked entries are grouped. The spec does not say how large the page of an
entry is while no leaf maps it, nor after a larger one does; this is the model's choice (notes/assumptions 68). -/
def vaPage (va : Word) : Nat := va.toNat % 2 ^ 56 / 65536

/-- Whether the replay queue holds an entry for the page of an address (R130). -/
def Ctx.parkedPage (t : Ctx) (va : Word) : Bool := !badBits va && t.replayQ.any fun p => vaPage p.va == vaPage va

/-- Whether a page is not present (R130, R363). -/
def State.absentPage (s : State) (va : Word) : Bool :=
  match s.walk s.myLaunch va with
  | .error (.notPresent _) => true
  | _ => false

/-- Whether a store meets a line in Q or memory of a die that is down, which it traps on and is not parked behind (R436). -/
def State.lostAt (s : State) (ea : Word) (n : Nat) : Bool :=
  match s.walk s.myLaunch ea with
  | .ok f =>
    match placeOf s.pm s.myLaunch.part (f.addr ea) with
    | .dev a => s.quarantined (range a n)
    | _ => false
  | .error _ => false

/-- Whether an aligned global store, atomic or reduction is parked (R130, R436). -/
def State.mustPark (s : State) (w : Win) (ea : Word) (n : Nat) : Bool :=
  w == .glob && ea.toNat % n == 0 && (s.absentPage ea || (s.me.parkedPage ea && !s.lostAt ea n))

/-- Whether a queued vector memory instruction of the context touches a line of [va, va + n) by its virtual addresses (R179). -/
def Ctx.vqNear (t : Ctx) (va : Word) (n : Nat) : Bool :=
  t.vq.any fun o => o.places.any fun p => (range (va.toNat % 2 ^ 56) n).any fun b => p.addr.toNat % 2 ^ 56 / 64 == b / 64

/-- An entry joins the replay queue, behind the queued vector accesses of its bytes; a ninth one blocks. The runtime is asked to map
the page (R130, R179). -/
def State.park (s : State) (p : Parked) : Res State := do
  waitFor (decide (s.me.replayQ.length < 8) && !s.me.vqNear p.va p.bytes)
  let s := if s.me.parkedPage p.va then s else { s with out := .mapRequest s.myLaunch.id p.va :: s.out }
  .ok (s.modMe fun t => { t with replayQ := t.replayQ ++ [p] })

end Sys2Proof.Machine
end

