-- ==== Sys2Proof/Machine/Atomics.lean ====
section
/-! DEFINITION. Atomics, reductions and the replay of parked accesses (R130, R137 to R142). -/

namespace Sys2Proof.Machine

/-- What an atomic works on: its width in bytes and the type its operands are read in (R138). -/
def atomTy (op : AtomOp) (ty : Option Ty) : Ty :=
  match op with
  | .fadd => fpTy ty
  | _ => intTy ty

def atomBytes (op : AtomOp) (ty : Option Ty) : Nat :=
  match op with
  | .badd => 16
  | _ => (atomTy op ty).bytes

/-- The new value of an atomic on N-bit patterns: x in memory, v the operand, e the comparand (R137). `fadd` rounds once
RNE in the element's format and counts nothing (R139). -/
def atomEval (op : AtomOp) (t : Ty) (n x v e : Nat) : Nat :=
  let sx := bitsInt true n x
  let sv := bitsInt true n v
  match op with
  | .add => (x + v) % 2 ^ n
  | .and => x &&& v
  | .or => x ||| v
  | .xor => x ^^^ v
  | .min => if sx ≤ sv then x else v
  | .minz => if x ≤ v then x else v
  | .max => if sx ≤ sv then v else x
  | .maxz => if x ≤ v then v else x
  | .swap => v
  | .cas => if x = e then v else x
  | .fadd => ((Fmt.ofTy t).pack .rne false 0 (FpVal.add .rne (tyVal t x) (tyVal t v))).1
  | .badd => (x + v) % 2 ^ n

/-- Whether an atomic can be performed at a target (R138). -/
def atomAt (op : AtomOp) (ty : Option Ty) (p : Place) (coh : Bool) : Bool :=
  match p with
  | .host _ =>
    coh && (match op with | .badd => false | .fadd => fpTy ty == .f32 | _ => true)
  | .head _ => false
  | _ => true

/-- What an atomic returns: the old value extended, or the low 64 bits of a cell (R28, R137). -/
def atomResult (op : AtomOp) (ty : Option Ty) (x : Nat) : Word :=
  match op with
  | .badd => BitVec.ofNat 64 x
  | _ => extend (atomTy op ty) x

/-- The aligned value that a block-integer pair adds to a cell of exponent E, and whether EV.9 counts (R140). -/
def baddValue (E : Int) (v : Word) : Int × Bool :=
  let e := bitsInt true 32 (v.toNat / 2 ^ 32)
  if v.toNat / 2 ^ 32 = 0x7FFFFFFF then (0, true) else blockAlign E (bitsInt true 32 (v.toNat % 2 ^ 32)) e

/-- The request of an atomic or a reduction at its home (R294, R301). -/
def atomReq (isRed : Bool) (op : AtomOp) (n : Nat) : Req :=
  if isRed then
    match op with
    | .add => if n = 4 then .red .add32 else .red .add64
    | .badd => .red .badd
    | _ => .perform
  else .perform

/-- A reduction of a line in C is counted in the core's partial sum (R301). -/
def Dir.addPartial (d : Dir) (cluster line off v : Nat) (bits : Nat) : Dir :=
  let h := Holder.cluster cluster
  let p := (d.partials.find? fun p => p.line == line && p.holder == h).getD { line, holder := h }
  let old := (assocGet p.sums off).getD 0
  let p' := { p with sums := assocSet p.sums off ((old + v) % 2 ^ bits) }
  { d with partials := d.partials.filter (fun q => !(q.line == line && q.holder == h)) ++ [p'] }

/-- Whether the home has placed a line in state C (R301); a tile's lines are in none of the line states. -/
def Dir.commutes (d : Dir) (n : Nat) : Bool :=
  (d.tileOf n).isNone && (match (d.line n).st with | .c _ => true | _ => false)

/-- The partial sum's share of a reduction that its home took in state C (R141, R301). -/
def State.addPartial (s : State) (a : Acc) (r : Req) (n v : Nat) : State :=
  match a.place, r with
  | .dev k, .red _ => if !s.dir.commutes (k / 64) then s else { s with dir := s.dir.addPartial s.cur.cluster (k / 64) (k % 64) v (8 * n) }
  | _, _ => s

/-- A checked atomic performed: the state after it, and the old value (R137). `v` is the operand's N bits, the aligned
value for `badd`. -/
def State.performAtomic (s : State) (op : AtomOp) (ty : Option Ty) (isRed : Bool) (a : Acc) (v e : Nat) : State × Nat :=
  let n := atomBytes op ty
  let x := s.valAcc a n
  let s := s.addPartial a (atomReq isRed op n) n v
  (s.writeAcc a n (atomEval op (atomTy op ty) (8 * n) x v e), x)

/-- The operand of `badd` at issue, and whether EV.9 counts: the exponent word lies after the cell (R140). The spec gives no
consequence where the two do not lie in one page: the word is then read through its own page (notes/assumptions 73). -/
def State.baddOperand (s : State) (w : Win) (ea : Word) (v : Word) : Res (State × Nat × Bool) := do
  let (s, b) ← s.loadAcc w (ea + 16) 4
  let (a, ev) := baddValue (bitsInt true 32 (s.valAcc b 4)) v
  .ok (s, intBits 128 a, ev)

/-- The pieces of an `atom` or `red`. -/
structure AtomArgs where
  op : AtomOp
  isRed : Bool
  ty : Option Ty
  sc : Scope
  ord : Ord
  w : Win
  ea : Word
  v : Word
  e : Word
  d : Dst
  deriving DecidableEq, Repr

/-- An atomic whose page is present, or which acts on a window (R137 to R141). -/
def State.atomNow (s : State) (x : AtomArgs) : Res (State × Nat) := do
  let n := atomBytes x.op x.ty
  let a ← s.precise (s.resolve .atomic x.w x.ea n n (atomAt x.op x.ty))
  let (s, v, ev) ← (match x.op with
    | .badd => s.baddOperand x.w x.ea x.v
    | _ => .ok (s, x.v.toNat % 2 ^ (8 * n), false))
  let s ← s.access .atomic x.w x.ea n (atomReq x.isRed x.op n) a
  let s := if ev then s.countAll s.cur [9] else s
  .ok (s.performAtomic x.op x.ty x.isRed a v (x.e.toNat % 2 ^ (8 * n)))

/-- An atomic or reduction that joins the replay queue; an atomic's result is a symbol (R130). -/
def State.parkAtomic (s : State) (x : AtomArgs) (len : Nat) : Res State := do
  let n := atomBytes x.op x.ty
  let p : Parked := { va := x.ea, data := x.v, cmp := if x.op = .cas then x.e else 0, kind := .atomic x.op,
                      maj := if x.isRed then 0x2D else 0x2C, fn := x.op.code.toNat, ty := x.ty, bytes := n, sc := x.sc,
                      ord := x.ord, win := x.w, ref := none }
  waitFor (decide (s.me.replayQ.length < 8))
  if x.isRed then
    let s ← s.park { p with kind := .reduction (match RedOp.ofFn x.op.code.toNat with | some r => r | none => .add) }
    .ok (s.advance len)
  else
    let (s, r) ← s.alloc
    let s ← s.park { p with ref := some r }
    .ok ((s.put x.d r.pure).advance len)

/-- `atom` and `red` (R137 to R142). -/
def State.atomOp (s : State) (x : AtomArgs) (len : Nat) : Res State := do
  let s ← if ordRel' x.ord then s.release x.sc else .ok s
  if ordAcq' x.ord then s.acquireGate x.sc
  s.accessGate
  if s.mustPark x.w x.ea (atomBytes x.op x.ty) then s.parkAtomic x len
  else
    let (s, old) ← s.atomNow x
    let s := if x.isRed then s.advance len else s.result x.d (atomResult x.op x.ty old) [] len
    .ok (if ordAcq' x.ord then s.acquired x.sc else s)
where
  ordAcq' (o : Ord) : Bool := o == .acq || o == .ar
  ordRel' (o : Ord) : Bool := o == .rel || o == .ar

/-- The operands of an atomic in the order B, C, D (R72); only `cas` reads D (R137). -/
def State.atomAt' (s : State) (op : AtomOp) (isRed : Bool) (sc : Scope) (ord : Ord) (w : Win) (ty : Option Ty)
    (imm : BitVec 24) (d : Dst) (base v e : Src) (lit : Word) (len : Nat) : Res State := do
  let t := s.me
  let rb := t.src lit base
  let rv := t.srcTy (atomTy op ty) lit v
  let re := if op = .cas then t.src lit e else .value 0
  s.need [rb, rv, re]
  s.atomOp { op, isRed, ty, sc, ord, w, ea := ea2 rb.val imm, v := rv.val, e := re.val, d } len

def execAtom (op : AtomOp) (d : Dst) (base v : Src) (s : State) : Out :=
  complete s (s.atomAt' op false .thr .none .glob none 0 d base v (.w 0) 0 4)

def execAtomX (f : Form) (op : AtomOp) (sc : Scope) (ord : Ord) (w : Win) (ty : Option Ty) (imm : BitVec 24) (d : Dst)
    (base v e : Src) (s : State) : Out :=
  complete s (s.atomAt' op false sc ord w ty imm d base v e f.value (formBytes f))

def execRed (op : RedOp) (base v : Src) (s : State) : Out :=
  complete s (s.atomAt' op.atom true .thr .none .glob none 0 .zero base v (.w 0) 0 4)

def execRedX (f : Form) (op : RedOp) (sc : Scope) (rel : Bool) (w : Win) (ty : Option Ty) (imm : BitVec 24)
    (base v : Src) (s : State) : Out :=
  complete s (s.atomAt' op.atom true sc (if rel then .rel else .none) w ty imm .zero base v (.w 0) f.value (formBytes f))

/-! ## Replay (R130) -/

/-- An entry and every younger one on its page are discarded, their symbols go to FAULT, and the context traps at its
oldest unissued instruction (R130). -/
def State.rejectPage (s : State) (cause : Cause) (va : Word) : State :=
  let c := s.cur
  let (gone, kept) := s.me.replayQ.partition fun p => vaPage p.va == vaPage va
  let s := s.modMe fun t => { t with replayQ := kept }
  let s := gone.foldl (fun s p => match p.ref with | some r => s.faultSym c r p.va | none => s) s
  s.takeTrap { cause, addr := va }

/-- The oldest entry of the executing context's queue is performed, if its page is present now; a fault of orders 6 to
9 rejects it (R130, R389). It waits behind queued vector accesses of its bytes (R179), and an atomic that acquires while its die's link
drains (R426). -/
def State.replayOldest (s : State) : State :=
  match s.me.replayQ with
  | [] => s
  | p :: rest =>
    if p.acquires && s.drainHolds s.cur p.sc then s else
    let drop (s : State) : State := s.modMe fun t => { t with replayQ := rest }
    let finish (r : Res State) : State :=
      match r with
      | .ok s => s
      | .error (.trap t) => s.rejectPage t.cause p.va
      | .error (.trapAt t _) => s.rejectPage t.cause p.va
      | .error (.touch s') => s'
      | .error _ => s
    match p.kind with
    | .store =>
      match s.resolve .store p.win p.va p.bytes p.bytes with
      | .error (.notPresent _) => s
      | .error (.fault c _) => s.rejectPage c p.va
      | .error (.snoop n) => finish (s.walkWait n)
      | .ok a =>
        finish (do
          waitFor (!s.me.vqTouches a.keys)
          let s ← s.request a .store
          .ok ((drop s).writeAcc a p.bytes (p.data.toNat % 2 ^ (8 * p.bytes))))
    | .atomic op => perform s p op false drop finish
    | .reduction op => perform s p op.atom true drop finish
where
  perform (s : State) (p : Parked) (op : AtomOp) (isRed : Bool) (drop : State → State) (finish : Res State → State) : State :=
    let n := p.bytes
    match s.resolve .atomic p.win p.va n n (atomAt op p.ty) with
    | .error (.notPresent _) => s
    | .error (.fault c _) => s.rejectPage c p.va
    | .error (.snoop n) => finish (s.walkWait n)
    | .ok a =>
      finish (do
        waitFor (!s.me.vqTouches a.keys)
        let (s, v, ev) ← (match op with
          | .badd => do
            let b ← s.precise (s.resolve .load p.win (p.va + 16) 4 4)
            let s ← s.request b .read
            let (x, ev) := baddValue (bitsInt true 32 (s.valAcc b 4)) p.data
            .ok (s, intBits 128 x, ev)
          | _ => .ok (s, p.data.toNat % 2 ^ (8 * n), false))
        let s ← s.request a (atomReq isRed op n)
        let s := if ev then s.countAll s.cur [9] else s
        let (s, old) := (drop s).performAtomic op p.ty isRed a v (p.cmp.toNat % 2 ^ (8 * n))
        let s := match p.ref with | some r => s.deliver s.cur r (atomResult op p.ty old) | none => s
        .ok (if p.acquires then s.acquired p.sc else s))

/-- A state with another executing context. -/
def State.focus (s : State) (c : CoreId) (k : SlotId) : State := { s with cur := c, slot := k }

/-- A step of another context, after which the machine's attention returns. -/
def State.within (s : State) (c : CoreId) (k : SlotId) (f : State → State) : State :=
  (f (s.focus c k)).focus s.cur s.slot

def execParkedReplay (c : CoreId) (k : SlotId) (s : State) : Out := .next (s.within c k State.replayOldest)

/-- The runtime rejects the mapping of a page: the oldest parked entry on it names the trap's address (R130). -/
def State.mappingRejected (s : State) (va : Word) : State :=
  match s.me.replayQ.find? fun p => vaPage p.va == vaPage va with
  | some p => s.rejectPage .translation p.va
  | none => s

end Sys2Proof.Machine
end

