-- ==== Sys2Proof/Machine/Memory.lean ====
section
/-! DEFINITION. Loads and stores, bounds-checked and tag instructions, write then signal, fences (R122 to R136, R143,
R144). -/

namespace Sys2Proof.Machine

/-! ## Loads -/

/-- A symbol allocated for a deferred load with what it will deliver, for an address and the other dies that have been asked (R131). -/
def State.deferLoad (s : State) (d : Dst) (f : DRes) (len : Nat) (ea : Word := 0) (far : List Nat := []) : Res State := do
  let (s, r) ← s.alloc
  .ok (((s.modMe fun t => { t with dloads := t.dloads ++ [{ ref := r, res := f, ea, far }] }).put d r.pure).advance len)

/-- A load of a range whose copy failed: its symbol is in FAULT at once (R218). -/
def State.failLoad (s : State) (d : Dst) (addr : Word) (len : Nat) : Res State := do
  let (s, r) ← s.alloc
  let s := s.modCore s.cur fun x => { x with syms := x.syms.set r.s.val (.fault addr) r.s.isLt }
  .ok ((s.put d r.pure).advance len)

/-- A load that meets a bound range: it allocates a symbol and starts the copy if need be (R129, R218). -/
def State.touchLoad (s : State) (d : Dst) (w : Win) (ea : Word) (t : LdTy) (len : Nat) : Res State :=
  let off := ea.toNat
  match s.myCore.touched w off t.ty.bytes with
  | .failed _ a => s.failLoad d a len
  | .absent i => do
    waitFor s.myCore.jobRoom
    let s ← s.deferLoad d (.touch i w off t.ty) len
    .ok (s.startCopy s.cur i)
  | .copying i => s.deferLoad d (.touch i w off t.ty) len
  | .clear => .ok s

/-- Whether a window range touches a bound range that is not present. -/
def State.touches (s : State) (w : Win) (ea : Word) (n : Nat) : Bool :=
  w != .glob && s.myCore.touched w ea.toNat n != .clear

/-- `ld` (R128, R129). -/
def State.ldOp (s : State) (d : Dst) (t : LdTy) (w : Win) (ea : Word) (len : Nat) : Res State := do
  let n := t.ty.bytes
  s.accessGate
  s.parkGate w ea n n
  let a ← s.precise (s.resolve .load w ea n n)
  if s.touches w ea n then s.touchLoad d w ea t len
  else
    let s ← s.access .load w ea n .read a
    .ok ((s.tookAcc a n).result d (extend t.ty (s.valAcc a n)) [] len)

/-- The effective address of a form with an index: base, index and displacement (R124). -/
def State.ea3 (s : State) (lit : Word) (base idx : Src) (imm : BitVec 24) : Res Word := do
  let (b, c) ← s.use2 lit base idx
  .ok (Machine.ea3 b c imm)

def State.ldAt (s : State) (t : LdTy) (w : Win) (imm : BitVec 24) (d : Dst) (base idx : Src) (lit : Word) (len : Nat) :
    Res State := do
  let ea ← s.ea3 lit base idx imm
  s.ldOp d t w ea len

def execLd (t : LdTy) (d : Dst) (base idx : Src) (s : State) : Out := complete s (s.ldAt t .glob 0 d base idx 0 4)

def execLdX (f : Form) (t : LdTy) (w : Win) (imm : BitVec 24) (_ef : Bool) (d : Dst) (base idx : Src) (s : State) : Out :=
  complete s (s.ldAt t w imm d base idx f.value (formBytes f))

/-- `ldd`: orders 1 to 4 are precise, a refusal by the aperture's owner among them; a later fault goes to the symbol (R131,
R266). -/
def State.lddOp (s : State) (d : Dst) (t : LdTy) (w : Win) (ea : Word) (len : Nat) : Res State := do
  let n := t.ty.bytes
  s.accessGate
  s.parkGate w ea n n
  match s.resolve .load w ea n n with
  | .error (.notPresent a) => s.deferLoad d (.fault a) len
  | .error (.snoop n) => s.walkWait n
  | .error (.fault c a) => if c == .window || c == .align then trap c a else s.deferLoad d (.fault a) len
  | .ok a =>
    if s.touches w ea n then s.touchLoad d w ea t len
    else if w != .glob && s.poisoned a.keys then s.deferLoad d (.fault ea) len
    else
      match s.access .load w ea n .read a with
      | .error (.trapAt t s) => s.deferLoad d (.fault t.addr) len
      | .error e => .error e
      | .ok s => (s.tookAcc a n).deferLoad d (.value (extend t.ty (s.valAcc a n))) len ea ((s.linksUsed a).filter (· != s.cur.die.val))

def State.lddAt (s : State) (t : LdTy) (w : Win) (imm : BitVec 24) (d : Dst) (base idx : Src) (lit : Word) (len : Nat) :
    Res State := do
  let ea ← s.ea3 lit base idx imm
  s.lddOp d t w ea len

def execLdd (t : LdTy) (d : Dst) (base idx : Src) (s : State) : Out := complete s (s.lddAt t .glob 0 d base idx 0 4)

def execLddX (f : Form) (t : LdTy) (w : Win) (imm : BitVec 24) (_ef : Bool) (d : Dst) (base idx : Src) (s : State) : Out :=
  complete s (s.lddAt t w imm d base idx f.value (formBytes f))

/-- `ldacq`: a load, then what an acquire holds back (R132, R289). -/
def State.ldacqOp (s : State) (d : Dst) (t : LdTy) (sc : Scope) (w : Win) (ea : Word) (len : Nat) : Res State := do
  s.acquireGate sc
  let (s, a) ← s.loadAcc w ea t.ty.bytes
  .ok (((s.tookAcc a t.ty.bytes).result d (extend t.ty (s.valAcc a t.ty.bytes)) [] len).acquired sc)

def State.ldacqAt (s : State) (t : LdTy) (sc : Scope) (w : Win) (imm : BitVec 24) (d : Dst) (base idx : Src)
    (lit : Word) (len : Nat) : Res State := do
  let ea ← s.ea3 lit base idx imm
  s.ldacqOp d t sc w ea len

def execLdacq (lit : Option Word) (t : LdTy) (sc : Scope) (w : Win) (imm : BitVec 24) (_ef : Bool) (d : Dst)
    (base idx : Src) (s : State) : Out :=
  complete s (s.ldacqAt t sc w imm d base idx (litVal lit) (litBytesX lit))

/-- `lld`: a load that sets the context's link on its line (R133). -/
def State.lldOp (s : State) (d : Dst) (t : LdTy) (w : Win) (ea : Word) (len : Nat) : Res State := do
  let (s, a) ← s.loadAcc w ea t.ty.bytes
  let s' := (s.tookAcc a t.ty.bytes).unlink s.cur s.slot
  let s' := match a.keys with
    | k :: _ => { s' with links := s'.links ++ [(s.cur.val, s.slot.val, k / 64)] }
    | [] => s'
  .ok (s'.result d (extend t.ty (s.valAcc a t.ty.bytes)) [] len)

def State.lldAt (s : State) (t : LdTy) (w : Win) (imm : BitVec 24) (d : Dst) (base idx : Src) (lit : Word) (len : Nat) :
    Res State := do
  let ea ← s.ea3 lit base idx imm
  s.lldOp d t w ea len

def execLld (t : LdTy) (d : Dst) (base idx : Src) (s : State) : Out := complete s (s.lldAt t .glob 0 d base idx 0 4)

def execLldX (f : Form) (t : LdTy) (w : Win) (imm : BitVec 24) (d : Dst) (base idx : Src) (s : State) : Out :=
  complete s (s.lldAt t w imm d base idx f.value (formBytes f))

/-! ## Stores -/

/-- A store at an address, performed or parked (R128, R130). `maj` and `fn` are what a saved entry records (R389). -/
def State.stOp (s : State) (maj fn : Nat) (n : Nat) (sc : Scope) (w : Win) (ea v : Word) : Res State := do
  s.accessGate
  if s.mustPark w ea n then
    s.park { va := ea, data := v, cmp := 0, kind := .store, maj, fn, ty := none, bytes := n, sc, ord := .none, win := w,
             ref := none }
  else
    let (s, a) ← s.storeAcc .store w ea n
    .ok (s.writeAcc a n (v.toNat % 2 ^ (8 * n)))

/-- The effective address and data of a store, read in the order B, C, A (R72). -/
def State.stOperands (s : State) (lit : Word) (v base idx : Src) (imm : BitVec 24) : Res (Word × Word) := do
  let (b, c, x) ← s.use3 lit base idx v
  .ok (Machine.ea3 b c imm, x)

def State.stAt (s : State) (t : StTy) (w : Win) (imm : BitVec 24) (v base idx : Src) (lit : Word) (len : Nat) :
    Res State := do
  let (ea, x) ← s.stOperands lit v base idx imm
  let s ← s.stOp 0x20 (8 + t.code.toNat) t.bytes .thr w ea x
  .ok (s.advance len)

def execSt (t : StTy) (v base idx : Src) (s : State) : Out := complete s (s.stAt t .glob 0 v base idx 0 4)

def execStX (f : Form) (t : StTy) (w : Win) (imm : BitVec 24) (_ef : Bool) (v base idx : Src) (s : State) : Out :=
  complete s (s.stAt t w imm v base idx f.value (formBytes f))

/-- `strel`: a release, then the store (R132). -/
def State.strelAt (s : State) (t : StTy) (sc : Scope) (w : Win) (imm : BitVec 24) (v base idx : Src) (lit : Word)
    (len : Nat) : Res State := do
  let (ea, x) ← s.stOperands lit v base idx imm
  let s ← s.release sc
  let s ← s.stOp 0x20 (0x20 + t.code.toNat) t.bytes sc w ea x
  .ok (s.advance len)

def execStrel (lit : Option Word) (t : StTy) (sc : Scope) (w : Win) (imm : BitVec 24) (v base idx : Src) (s : State) : Out :=
  complete s (s.strelAt t sc w imm v base idx (litVal lit) (litBytesX lit))

/-- Whether the executing context's link names the line of an access (R133). -/
def State.linked (s : State) (a : Acc) : Bool :=
  match a.keys with
  | k :: _ => s.links.contains (s.cur.val, s.slot.val, k / 64)
  | [] => false

/-- `lst`: it stores only if the link stands; it is never parked (R133). -/
def State.lstAt (s : State) (t : StTy) (w : Win) (imm : BitVec 24) (v base idx : Src) (res : Dst) (lit : Word)
    (len : Nat) : Res State := do
  let (ea, x) ← s.stOperands lit v base idx imm
  let n := t.bytes
  s.accessGate
  if s.mustPark w ea n then .ok ((s.unlink s.cur s.slot).result res 0 [] len)
  else
    let a ← s.precise (s.resolve .store w ea n n)
    if s.linked a then
      let s ← s.access .store w ea n .store a
      .ok (((s.writeAcc a n (x.toNat % 2 ^ (8 * n))).unlink s.cur s.slot).result res 1 [] len)
    else .ok ((s.unlink s.cur s.slot).result res 0 [] len)

def execLst (lit : Option Word) (t : StTy) (w : Win) (imm : BitVec 24) (v base idx : Src) (res : Dst) (s : State) : Out :=
  complete s (s.lstAt t w imm v base idx res (litVal lit) (litBytesX lit))

/-! ## Bounds-checked instructions -/

/-- A buffer descriptor (R368). -/
structure BufDesc where
  base : Word
  shadow : Word
  length : Nat
  tag : Nat
  rd : Bool
  wr : Bool
  deriving DecidableEq, Repr

/-- A descriptor's 32 bytes in the launch's table, which no walk reaches (R368, R369). -/
def State.descAcc (s : State) (l : Launch) (i : Nat) : Acc :=
  let a := devKey s.pm l.part (l.bdt + 32 * i)
  { keys := range a 32, place := .dev a, part := l.part }

/-- A descriptor read as one unit (R369). -/
def State.desc (s : State) (l : Launch) (i : Nat) : BufDesc :=
  let b := s.bytesAt (s.descAcc l i).keys
  { base := BitVec.ofNat 64 (field b 0 8), shadow := BitVec.ofNat 64 (field b 8 8), length := field b 16 8,
    tag := field b 24 1 % 16, rd := fieldBit b 25 0, wr := fieldBit b 25 1 }

/-- An address with its pointer tag replaced (R134). -/
def withTag (va : Word) (tag : Nat) : Word :=
  BitVec.ofNat 64 (va.toNat / 2 ^ 60 * 2 ^ 60 + tag % 16 * 2 ^ 56 + va.toNat % 2 ^ 56)

/-- The checks of orders 2 to 4 of `ldb` and `stb`, and the effective address; the descriptor is read at the table's home
(R127, R134, R294, R369). That a poisoned descriptor traps POISON with address 0, before what it says is looked at, is a
choice (notes/assumptions 71). -/
def State.descEa (s : State) (i off : Word) (n : Nat) : Res (State × BufDesc × Word) := do
  check (decide (i.toNat < 1024)) .bounds
  let x := s.descAcc s.myLaunch i.toNat
  let s ← s.request x .read
  check (!s.poisoned x.keys && !s.quarantined x.keys) .poison
  let d := s.desc s.myLaunch i.toNat
  let ea := withTag (d.base + off) d.tag
  check (ea.toNat % n == 0) .align ea
  check (decide (off.toNat ≤ d.length) && decide (n ≤ d.length - off.toNat)) .bounds ea
  .ok (s, d, ea)

/-- The descriptor's permission comes with order 6, after translation (R127). -/
def descPerm (ok : Bool) (ea : Word) (r : Except AccErr Acc) : Except AccErr Acc :=
  match r with
  | .error (.fault .translation a) => .error (.fault .translation a)
  | .error (.notPresent a) => .error (.notPresent a)
  | .error (.snoop n) => .error (.snoop n)
  | r => if ok then r else .error (.fault .permission ea)

def State.ldbAt (s : State) (t : LdTy) (imm : BitVec 24) (d : Dst) (base idx : Src) (lit : Word) (len : Nat) :
    Res State := do
  let (i, c) ← s.use2 lit base idx
  let n := t.ty.bytes
  s.accessGate
  let (s, b, ea) ← s.descEa i (ea2 c imm) n
  s.parkGate .glob ea n n
  let a ← s.precise (descPerm b.rd ea (s.resolve .load .glob ea n n))
  let s ← s.access .load .glob ea n .read a
  .ok ((s.tookAcc a n).result d (extend t.ty (s.valAcc a n)) [] len)

def execLdb (t : LdTy) (d : Dst) (base idx : Src) (s : State) : Out := complete s (s.ldbAt t 0 d base idx 0 4)

def execLdbX (f : Form) (t : LdTy) (imm : BitVec 24) (_ef : Bool) (d : Dst) (base idx : Src) (s : State) : Out :=
  complete s (s.ldbAt t imm d base idx f.value (formBytes f))

def State.stbAt (s : State) (t : StTy) (imm : BitVec 24) (v base idx : Src) (lit : Word) (len : Nat) : Res State := do
  let (i, c, x) ← s.use3 lit base idx v
  let n := t.bytes
  s.accessGate
  let (s, b, ea) ← s.descEa i (ea2 c imm) n
  if s.mustPark .glob ea n then
    check b.wr .permission ea
    let s ← s.stOp 0x21 (8 + t.code.toNat) n .thr .glob ea x
    .ok (s.advance len)
  else
    let a ← s.precise (descPerm b.wr ea (s.resolve .store .glob ea n n))
    let s ← s.access .store .glob ea n .store a
    .ok ((s.writeAcc a n (x.toNat % 2 ^ (8 * n))).advance len)

def execStb (t : StTy) (v base idx : Src) (s : State) : Out := complete s (s.stbAt t 0 v base idx 0 4)

def execStbX (f : Form) (t : StTy) (imm : BitVec 24) (_ef : Bool) (v base idx : Src) (s : State) : Out :=
  complete s (s.stbAt t imm v base idx f.value (formBytes f))

/-! ## Write then signal -/

/-- `stsig`: both addresses are checked before either write; the flag's update follows the payload's store (R136). Every check of the
payload comes before the first of the flag, a choice of notes/assumptions 103. -/
def State.stsigAt (s : State) (sc : Scope) (w : Win) (n : Nat) (addf : Bool) (imm : BitVec 24) (v base flag sig : Src)
    (lit : Word) (len : Nat) : Res State := do
  let t := s.me
  let rb := t.src lit base
  let rf := t.src lit flag
  let rs := t.src lit sig
  let rv := t.src lit v
  s.need [rb, rf, rs, rv]
  let ea := ea2 rb.val imm
  let fa := rf.val
  let s ← s.release sc
  s.accessGate
  let k : AKind := if addf then .sigadd else .sigset
  let a ← s.precise (s.resolve .store w ea n n)
  let b ← s.precise (s.resolve k w fa 8 8 fun p coh => !addf || (match p with | .host _ => coh | _ => true))
  s.touchGate w ea n
  s.touchGate w fa 8
  waitFor (!s.me.vqTouches (a.keys ++ b.keys))
  check (w == .glob || !addf || !s.poisoned b.keys) .poison fa
  let s ← s.request a .store
  let s ← s.request b (if addf then .perform else .store)
  let s := s.writeAcc a n (rv.val.toNat % 2 ^ (8 * n))
  let new : Word :=
    match b.place with
    | .ctr _ => rs.val
    | _ => if addf then BitVec.ofNat 64 (s.valAcc b 8) + rs.val else rs.val
  .ok ((s.writeAcc b 8 new.toNat).advance len)

/-- The payload width of `stsig`: TYPE 0 is `.i64` (R122). -/
def sigBytes (ty : Option Ty) : Nat := (intTy ty).bytes

def execStsig (lit : Option Word) (sc : Scope) (w : Win) (ty : Option Ty) (addf : Bool) (imm : BitVec 24)
    (v base flag sig : Src) (s : State) : Out :=
  complete s (s.stsigAt sc w (sigBytes ty) addf imm v base flag sig (litVal lit) (litBytesX lit))

/-! ## Memory tags -/

/-- The granules of a `stg` and their pages: translation faults come first, in address order (R127, R135). A page that is not
present traps TRANSLATION: `stg` is none of the accesses that R130 parks (notes/assumptions 72). -/
def State.tagPages (s : State) (ea : Word) (n : Nat) : Res (List (Word × Leaf)) :=
  (List.range n).mapM fun i => do
    let va := ea + word (32 * i)
    let f ← s.precise (s.walk s.myLaunch va)
    .ok (va, f)

/-- `stg`: all granules are checked before any tag changes (R135). -/
def State.stgAt (s : State) (n : Nat) (imm : BitVec 24) (tag base : Src) (lit : Word) (len : Nat) : Res State := do
  let (b, v) ← s.use2 lit base tag
  let ea := ea2 b imm
  s.accessGate
  check (ea.toNat % 32 == 0) .align ea
  waitFor (!s.me.parkedOn ea (32 * (n + 1)))
  let ps ← s.tagPages ea (n + 1)
  check (ps.all fun p => p.2.tagged && p.2.allows .store s.me.mode) .permission ea
  let accs := ps.map fun (va, f) =>
    let k := devKey s.pm s.myLaunch.part (f.addr va) / 32 * 32
    ({ keys := [k], place := .dev k, mode := f.mode, part := s.myLaunch.part, walked := f.walked } : Acc)
  let ks := accs.flatMap (·.keys)
  check (!s.quarantined ks) .poison ea
  let s ← s.requests accs .store
  let s := s.keepCut ks
  .ok ((ks.foldl (fun s k => s.setTag (k / 32) (v.toNat % 16)) s).advance len)

def execStg (tag base : Src) (s : State) : Out := complete s (s.stgAt 0 0 tag base 0 4)

def execStgX (f : Form) (n : BitVec 6) (imm : BitVec 24) (tag base : Src) (s : State) : Out :=
  complete s (s.stgAt n.toNat imm tag base f.value (formBytes f))

/-- `ldg`: the tag of the granule that holds EA, 0 on a page without TAGGED (R135). -/
def State.ldgAt (s : State) (imm : BitVec 24) (d : Dst) (base : Src) (lit : Word) (len : Nat) : Res State := do
  let b ← s.use1 lit base
  let ea := ea2 b imm
  s.accessGate
  let f ← s.precise (s.walk s.myLaunch ea)
  check (f.allows .load s.me.mode) .permission ea
  if f.tagged then
    let k := devKey s.pm s.myLaunch.part (f.addr ea)
    check (!s.quarantined [k]) .poison ea
    let s ← s.request { keys := [k], place := .dev k, mode := f.mode, part := s.myLaunch.part, walked := f.walked } .read
    .ok (s.result d (word (s.tagAt k)) [] len)
  else .ok (s.result d 0 [] len)

def execLdg (d : Dst) (base : Src) (s : State) : Out := complete s (s.ldgAt 0 d base 0 4)

def execLdgX (f : Form) (imm : BitVec 24) (d : Dst) (base : Src) (s : State) : Out :=
  complete s (s.ldgAt imm d base f.value (formBytes f))

/-! ## Fences -/

def ordAcq (o : Ord) : Bool := o == .acq || o == .ar
def ordRel (o : Ord) : Bool := o == .rel || o == .ar

/-- Whether a vector load of the context has not been performed. -/
def Ctx.vLoads (t : Ctx) : Bool := t.vq.any fun o => o.isMem

/-- `fence` (R143): the release half waits as a release does, the acquire half until every earlier load and atomic read
has been performed. -/
def State.fenceOp (s : State) (sc : Scope) (o : Ord) : Res State := do
  let s ← if ordRel o then s.release sc else .ok s
  if ordAcq o then
    s.accessGate
    s.acquireGate sc
    waitFor (!s.me.vLoads && !(s.me.replayQ.any fun p => match p.kind with | .atomic _ => true | _ => false))
    .ok ((s.advance 12).acquired sc)
  else .ok (s.advance 12)

def execFence (sc : Scope) (o : Ord) (s : State) : Out := complete s (s.fenceOp sc o)

/-- `isync`: fetched blocks are dropped, and issue goes on with what memory holds (R144, R260). -/
def execIsync (s : State) : Out := complete s (.ok ((s.modCore s.cur fun x => { x with fetched := [] }).advance 4))

end Sys2Proof.Machine
end

