-- ==== Sys2Proof/Machine/Buffers.lean ====
section
/-! DEFINITION. Circular buffers, publish, tiles, cache control, retention and byte-count barriers (R145 to R155). -/

namespace Sys2Proof.Machine

/-! ## Circular buffers (R145) -/

def CbState.filled (x : CbState) : Nat := (x.tail - x.head).toNat

/-- The window offset of the slot that a count names (R145). -/
def CbDecl.slotAt (d : CbDecl) (n : BitVec 32) : Nat := d.base + n.toNat % d.slots * d.size

def Core.setCb (x : Core) (h : Fin 8) (b : CbState) : Core := { x with cbs := x.cbs.set h.val b h.isLt }

/-- The declaration of a handle, or CB_ERROR (R145). -/
def State.cbDecl (s : State) (h : Fin 8) : Res CbDecl :=
  match s.myLaunch.cbDecl h with
  | some d => .ok d
  | none => trap .cbError

/-- `cbwait.f` and `cbwait.e`: it sleeps until the slots are there (R145). -/
def State.cbWait (s : State) (full : Bool) (d : Dst) (h : Fin 8) (n : Src) (lit : Word) (len : Nat) : Res State := do
  let k ← s.use1 lit n
  let c ← s.cbDecl h
  check (decide (k.toNat ≤ c.slots)) .cbError
  s.accessGate
  let b := s.myCore.cbs.get h
  let have_ := if full then b.filled else c.slots - b.filled
  if decide (k.toNat ≤ have_) then
    .ok (s.result d (word (c.slotAt (if full then b.head else b.tail))) [] len)
  else .error .sleep

def execCbwaitF (lit : Option Word) (d : Dst) (h : Fin 8) (n : Src) (s : State) : Out :=
  complete s (s.cbWait true d h n (litVal lit) (litBytes lit))

def execCbwaitE (lit : Option Word) (d : Dst) (h : Fin 8) (n : Src) (s : State) : Out :=
  complete s (s.cbWait false d h n (litVal lit) (litBytes lit))

/-- `cbadv.f` and `cbadv.e`, releases at `.core` (R145). -/
def State.cbAdvance (s : State) (full : Bool) (h : Fin 8) (n : Src) (lit : Word) (len : Nat) : Res State := do
  let k ← s.use1 lit n
  let c ← s.cbDecl h
  if k = 0 then .ok (s.advance len) else
  let b := s.myCore.cbs.get h
  let have_ := if full then b.filled else c.slots - b.filled
  check (decide (k.toNat ≤ have_)) .cbError
  s.accessGate
  let s ← s.release .core
  let m := BitVec.ofNat 32 k.toNat
  let b' := if full then { b with head := b.head + m } else { b with tail := b.tail + m }
  .ok ((s.modCore s.cur fun x => x.setCb h b').advance len)

def execCbadvF (lit : Option Word) (h : Fin 8) (n : Src) (s : State) : Out :=
  complete s (s.cbAdvance true h n (litVal lit) (litBytes lit))

def execCbadvE (lit : Option Word) (h : Fin 8) (n : Src) (s : State) : Out :=
  complete s (s.cbAdvance false h n (litVal lit) (litBytes lit))

/-! ## Publish (R147) -/

/-- Whether a drill job or an epilogue of the core that was accepted before `mark` writes the shadow of a descriptor or pair
(R147). -/
def Core.shadowBusy (x : Core) (mark : Nat) (pair : Bool) (i : Nat) : Bool :=
  (x.jobs.any fun j => decide (j.serial < mark) && j.layout.dstSp == (if pair then 5 else 6) && j.layout.didx == i)
    || (x.harrow.queue ++ (x.harrow.running.map (·.cmd)).toList).any fun q =>
        decide (q.ref.serial < mark) && field q.record 0 1 == 5 && field q.record 42 1 == (if pair then 2 else 3)
          && field q.record 44 2 == i

/-- A descriptor's base and shadow base are exchanged in one step at the table's home (R369). A poisoned descriptor is
exchanged like any other, a choice of notes/assumptions 71. -/
def State.swapDesc (s : State) (l : Launch) (i : Nat) : State :=
  let ks := (s.descAcc l i).keys
  let b := s.bytesAt ks
  s.write none ks ((b.drop 8).take 8 ++ b.take 8 ++ b.drop 16)

/-- What a `publ` waits for, once it has issued: it remembers when that was (R147). -/
def State.heldPubl (s : State) (mark : Nat) (r : Res State) : Res State :=
  match r with
  | .error .wait => .error (.hold s (.publishing mark))
  | .error (.touch s') => .error (.hold s' (.publishing mark))
  | r => r

/-- The serial number that stood when the context's `publ` issued. -/
def State.publMark (s : State) : Nat := match s.me.run with | .publishing m => m | _ => s.serial

/-- A shadow pair's halves exchanged (R277). -/
def Core.flip (x : Core) (i : Nat) : Core :=
  { x with vis := Vector.ofFn fun j => if j.val = i then !x.vis.get j else x.vis.get j }

def State.publOp (s : State) (sc : Scope) (pair : Bool) (buf : Src) (lit : Word) (len : Nat) : Res State := do
  let b ← s.use1 lit buf
  let i := b.toNat
  let mark := s.publMark
  if pair then check (decide (i < 16) && (s.myLaunch.pair i).isSome) .bounds
  else check (decide (i < 1024)) .bounds
  s.heldPubl mark (do
    s.accessGate
    let s ← s.release sc
    waitFor (!s.myCore.shadowBusy mark pair i)
    if pair then .ok ((s.modCore s.cur fun x => x.flip i).advance len)
    else
      let s ← s.request (s.descAcc s.myLaunch i) .perform
      .ok ((s.swapDesc s.myLaunch i).advance len))

def execPubl (lit : Option Word) (sc : Scope) (pair : Bool) (buf : Src) (s : State) : Out :=
  complete s (s.publOp sc pair buf (litVal lit) (litBytesX lit))

/-! ## Tiles (R148 to R150) -/

/-- A tile's line and the table lines that its walk read: a device-memory page that the context may write (R148). -/
def State.tileLine (s : State) (va : Word) : Res (Nat × List Nat) := do
  let f ← s.precise (s.walk s.myLaunch va)
  match placeOf s.pm s.myLaunch.part (f.addr va) with
  | .dev k => if f.allows .store s.me.mode then .ok (k / 64, f.walked) else trap .permission va
  | _ => trap .permission va

/-- The slice that homes a line: die and slice number (R353). -/
def sliceOf (pm : PartMode) (line : Nat) : Nat × Nat := sliceAt pm (line * 64 / partSize pm) (line * 64 % partSize pm)

/-- The tile of a slice whose last use is oldest (R149). -/
def oldestTile (l : List Tile) : Option Tile :=
  l.foldl (fun (b : Option Tile) t => match b with | some u => if t.used < u.used then some t else some u | none => some t) none

/-- A tile is recorded: its lines in C are merged, other copies go, and a full directory demotes its least recently used
tile (R149, R297). -/
def State.declareTile (s : State) (va : Word) (lines : List Nat) : State :=
  let me := s.cur
  let d := s.dir
  let held := d.tiles.filter fun t => sliceOf s.pm (t.lines.headD 0) == sliceOf s.pm (lines.headD 0)
  let d := if 256 ≤ held.length then (match oldestTile held with | some t => d.demote t | none => d) else d
  let dirty := lines.any fun n => (d.line n).st == .m && (d.line n).clusters == [me.cluster]
  let d := lines.foldl (fun d n => (d.merge n).setLine n { st := .t (lines.headD 0) }) d
  s.setDir { d with
      clock := d.clock + 1
      tiles := d.tiles ++ [{ va, launch := s.myLaunch.id, part := s.partOf me, lines, owner := me.val,
                             st := if dirty then .tm else .te, used := d.clock }] }

/-- Whether a line is refused to a declaration: it lies in a recorded tile, or another declaration in progress has claimed it
(R298). -/
def State.lineClaimed (s : State) (n : Nat) : Bool :=
  (s.dir.tileOf n).isSome || s.dir.claims.any fun p => !(p.1 == s.cur.val && p.2.1 == s.slot.val) && p.2.2.contains n

/-- The executing context's declaration holds the claims of its lines while it waits (R298). -/
def State.claim (s : State) (lines : List Nat) : State :=
  let s := s.unclaim s.cur s.slot
  { s with dir := { s.dir with claims := s.dir.claims ++ [(s.cur.val, s.slot.val, lines)] } }

def State.tdeclOp (s : State) (imm : BitVec 24) (base shape : Src) (lit : Word) (len : Nat) : Res State := do
  let (b, sh) ← s.use2 lit base shape
  let ea := ea2 b imm
  let pitch := wbits sh 24 24
  let cols := wbits sh 16 6 + 1
  let rows := wbits sh 8 8 + 1
  s.accessGate
  check (wbits sh 48 16 == 0 && wbits sh 22 2 == 0 && wbits sh 0 8 == 0 && (rows == 1 || decide (cols ≤ pitch))
    && decide (rows * cols ≤ 1024)) .bounds ea
  check (ea.toNat % 64 == 0) .align ea
  let ps ← ((List.range rows).flatMap fun r => (List.range cols).map fun c => r * pitch + c).mapM fun i =>
    s.tileLine (ea + word (64 * i))
  let lines := ps.map (·.1)
  if lines.any s.lineClaimed then .error (.trapAt { cause := .tileOverlap, addr := ea } (s.unclaim s.cur s.slot)) else
  check (!s.quarantined (lines.map (· * 64))) .poison ea
  let f := From.ofCore s.cur
  let a : Acc := { keys := lines.map (· * 64), place := .dev (lines.headD 0 * 64), part := s.myLaunch.part,
                   walked := (ps.flatMap (·.2)).dedup }
  match s.demand f a .store with
  | some s' => .error (.touch (s'.claim lines))
  | none => .ok ((((s.unclaim s.cur s.slot).walked f a).declareTile ea lines).advance len)

def execTdecl (base shape : Src) (s : State) : Out := complete s (s.tdeclOp 0 base shape 0 4)

def execTdeclX (f : Form) (imm : BitVec 24) (base shape : Src) (s : State) : Out :=
  complete s (s.tdeclOp imm base shape f.value (formBytes f))

/-- The tile that begins at an address (R150). -/
def State.tileAt (s : State) (va : Word) (line : Nat) : Option Tile :=
  if va.toNat % 64 = 0 then s.dir.tiles.find? fun t => t.lines.headD 0 == line && !t.lines.isEmpty else none

/-- `tfree` (R150). The launch that declared the tile is not asked for: a core of another launch whose page maps the tile's first line
dissolves it too, a choice of notes/assumptions 93. -/
def State.tfreeOp (s : State) (imm : BitVec 24) (base : Src) (lit : Word) (len : Nat) : Res State := do
  let b ← s.use1 lit base
  let ea := ea2 b imm
  s.accessGate
  let f ← s.precise (s.walk s.myLaunch ea)
  check (f.allows .load s.me.mode) .permission ea
  match placeOf s.pm s.myLaunch.part (f.addr ea) with
  | .dev k =>
    let s := s.walked (.ofCore s.cur) { keys := [k], place := .dev k, part := s.myLaunch.part, walked := f.walked }
    match s.tileAt ea (k / 64) with
    | some t => .ok ((s.setDir (s.dir.demote t)).advance len)
    | none => .ok (s.advance len)
  | _ => .ok (s.advance len)

def execTfree (base : Src) (s : State) : Out := complete s (s.tfreeOp 0 base 0 4)

def execTfreeX (f : Form) (imm : BitVec 24) (base : Src) (s : State) : Out :=
  complete s (s.tfreeOp imm base f.value (formBytes f))

/-- The die of a launch's core by rank. -/
def Launch.dieOf (l : Launch) (rank : Nat) : Nat := (coreOf (l.cores.getD rank 0)).die.val

/-- A line that no tile covers is pushed into a die's L2: its partial sums are merged, a modified copy is written back, and
another die takes a copy (R150, R302). -/
def Dir.push (d : Dir) (home die n : Nat) : Dir :=
  let x := d.line n
  match x.st with
  | .q => d
  | .c _ => (d.merge n).setLine n (if die = home then {} else { st := .s, dies := [die] })
  | st =>
    if die = home then d.setLine n { x with st := if st = .m then .e else st }
    else d.setLine n { x with st := .s, dies := addOnce die x.dies, host := x.host || st == .ho }

/-- What `tfwd` pushes: the tile that begins at EA, or the one line that holds it (R150, R296). A line inside a tile is pushed too: the
tile's entry, which names dies for the whole tile, takes the die (R295; notes/assumptions 74). -/
def State.pushAt (s : State) (ea : Word) (key die : Nat) : State :=
  match (s.tileAt ea (key / 64)).orElse fun _ => s.dir.tileOf (key / 64) with
  | some t => s.setDir (s.dir.setTile t { t with st := .ts, dies := addOnce die t.dies })
  | none => s.setDir (s.dir.push (homeDie s.pm key) die (key / 64))

/-- `tfwd`: a push that faults is dropped (R150, R296). -/
def State.tfwdOp (s : State) (imm : BitVec 24) (base rank : Src) (lit : Word) (len : Nat) : Res State := do
  let (b, r) ← s.use2 lit base rank
  let ea := ea2 b imm
  check (decide (r.toNat < s.myLaunch.cores.length)) .bounds ea
  s.accessGate
  match s.walk s.myLaunch ea with
  | .error (.snoop n) => s.walkWait n
  | .error _ => .ok (s.advance len)
  | .ok f =>
    if !f.allows .load s.me.mode then .ok (s.advance len) else
    match placeOf s.pm s.myLaunch.part (f.addr ea) with
    | .dev k =>
      let a : Acc := { keys := [k], place := .dev k, part := s.myLaunch.part, walked := f.walked }
      match s.demand (.ofCore s.cur) a .read with
      | some s' => s.await s'
      | none => .ok (((s.walked (.ofCore s.cur) a).pushAt ea k (s.myLaunch.dieOf r.toNat)).advance len)
    | _ => .ok (s.advance len)

def execTfwd (base rank : Src) (s : State) : Out := complete s (s.tfwdOp 0 base rank 0 4)

def execTfwdX (f : Form) (imm : BitVec 24) (base rank : Src) (s : State) : Out :=
  complete s (s.tfwdOp imm base rank f.value (formBytes f))

/-! ## Cache control and retention (R151, R152) -/

/-- What a hint does at the line that holds EA: one that fails a check, or that would have to wait, is dropped, but for the request it
has sent (R151; notes/assumptions 94). -/
def State.hinted (s : State) (ea : Word) (act : State → Acc → State) : State :=
  match s.resolve .load .glob ea 1 1 with
  | .error _ => s
  | .ok a =>
    match s.demand (.ofCore s.cur) a .read with
    | some s' => s'
    | none => act (s.walked (.ofCore s.cur) a) a

/-- `pref`: the line comes into the cluster L1, or only into the die's L2: there a copy is kept only of another die's line on a
replicated page, as a read keeps one (R151, R294). -/
def State.prefetch (l2 : Bool) (s : State) (a : Acc) : State :=
  match a.place with
  | .dev k => if l2 && homeDie s.pm k == s.cur.die.val then s else s.arrive (.ofCore s.cur) { a with walked := [] } .read
  | _ => s

/-- A dirty line of the cluster is written back, a tile as one unit; that the line goes first at the next replacement shows in no
state (R151, R296). -/
def Dir.clean (d : Dir) (cluster n : Nat) : Dir :=
  match d.tileOf n with
  | some t => if t.owner / 8 = cluster ∧ t.st = .tm then d.setTile t { t with st := .te } else d
  | none =>
    let x := d.line n
    if x.st = .m ∧ x.clusters = [cluster] then d.setLine n { x with st := .e } else d

/-- `evict`'s write-back, of a host line too, which the device then holds no more (R151, R399). -/
def State.writeLineBack (s : State) (a : Acc) : State :=
  match a.place with
  | .dev k => s.setDir (s.dir.clean s.cur.cluster (k / 64))
  | .host pa =>
    let k := hostKey a.part (pa / 64)
    if (assocGet s.dir.hosts k) == some HostSt.m && s.anyPort false then s.returnHost k else s
  | _ => s

/-- `pref` and `evict` are hints: they wait for nothing but their operands, and trap for no check of the address (R151). -/
def State.hintOp (s : State) (act : State → Acc → State) (base idx : Src) (imm : BitVec 24) (lit : Word) (len : Nat) : Res State := do
  let ea ← s.ea3 lit base idx imm
  .ok ((s.hinted ea act).advance len)

def execPref (base idx : Src) (s : State) : Out := complete s (s.hintOp (State.prefetch false) base idx 0 0 4)

def execPrefX (f : Form) (l2 : Bool) (imm : BitVec 24) (base idx : Src) (s : State) : Out :=
  complete s (s.hintOp (State.prefetch l2) base idx imm f.value (formBytes f))

def execEvict (base idx : Src) (s : State) : Out := complete s (s.hintOp State.writeLineBack base idx 0 0 4)

def execEvictX (f : Form) (imm : BitVec 24) (base idx : Src) (s : State) : Out :=
  complete s (s.hintOp State.writeLineBack base idx imm f.value (formBytes f))

/-- Whether a launch holds a retention register. -/
def heldBy (l : Launch) (r : Option Retention) : Bool :=
  match r with
  | some x => x.launch == l.id && x.part == l.part
  | none => false

/-- `pin` (R152). -/
def State.pinOp (s : State) (ways : BitVec 4) (d : Dst) (base n : Src) (lit : Word) (len : Nat) : Res State := do
  let (b, k) ← s.use2 lit base n
  check (decide (1 ≤ ways.toNat) && decide (ways.toNat ≤ 8) && k != 0 && k.toNat % 65536 == 0) .bounds b
  check (b.toNat % 65536 == 0) .align b
  let die := s.die s.cur.die.val
  let l := s.myLaunch
  let held := die.retained.toList.countP (heldBy l)
  match (List.finRange 4).find? fun i => (die.retained.get i).isNone with
  | some i =>
    if l.desc.retmax ≤ held then .ok (s.result d (BitVec.ofInt 64 (-1)) [] len)
    else
      let r : Retention := { launch := l.id, part := l.part, base := b, len := k.toNat, ways := ways.toNat }
      .ok ((s.modDie s.cur.die.val fun x => { x with retained := x.retained.set i.val (some r) i.isLt }).result d (word i.val) [] len)
  | none => .ok (s.result d (BitVec.ofInt 64 (-1)) [] len)

def execPin (lit : Option Word) (ways : BitVec 4) (d : Dst) (base n : Src) (s : State) : Out :=
  complete s (s.pinOp ways d base n (litVal lit) (litBytesX lit))

/-- `unpin` (R152). -/
def State.unpinOp (s : State) (idx : Src) (lit : Word) (len : Nat) : Res State := do
  let i ← s.use1 lit idx
  let l := s.myLaunch
  let free (x : DieState) : Vector (Option Retention) 4 := Vector.ofFn fun j =>
    if j.val == i.toNat && heldBy l (x.retained.get j) then none else x.retained.get j
  .ok ((s.modDie s.cur.die.val fun x => { x with retained := free x }).advance len)

def execUnpin (lit : Option Word) (idx : Src) (s : State) : Out :=
  complete s (s.unpinOp idx (litVal lit) (litBytes lit))

/-! ## Byte-count barriers (R153 to R155) -/

/-- A barrier word's fields (R153). -/
structure Bar where
  pend : Int
  phase : Bool
  err : Bool
  expect : Nat
  left : Nat
  deriving DecidableEq, Repr

def Bar.ofNat (v : Nat) : Bar where
  pend := bitsInt true 32 (v / 2 ^ 32)
  phase := v / 2 ^ 31 % 2 == 1
  err := v / 2 ^ 30 % 2 == 1
  expect := v / 2 ^ 15 % 2 ^ 15
  left := v % 2 ^ 15

def Bar.toNat (b : Bar) : Nat :=
  intBits 32 b.pend * 2 ^ 32 + (if b.phase then 2 ^ 31 else 0) + (if b.err then 2 ^ 30 else 0) + b.expect * 2 ^ 15 + b.left

/-- The test after every update, and whether the phase overran (R154). -/
def Bar.test (b : Bar) : Bar × Bool :=
  if b.pend < 0 then ({ b with err := true, phase := !b.phase, left := b.expect, pend := 0 }, true)
  else if b.left = 0 ∧ b.pend = 0 then ({ b with err := false, phase := !b.phase, left := b.expect }, false)
  else (b, false)

/-- A barrier's place: the core's G window, or another G window through the aperture; anywhere else traps WINDOW
(R125, R153). -/
def State.barAcc (s : State) (k : AKind) (w : Win) (ea : Word) : Res (State × Acc) := do
  s.accessGate
  let a ← s.precise (s.resolve k w ea 8 8)
  let s ← s.access k w ea 8 (if k.writes then .store else .read) a
  match a.place with
  | .lm .. => .ok (s, a)
  | _ => trap .window ea

/-- The core whose port performs a barrier's update. -/
def Acc.owner (a : Acc) (c : CoreId) : CoreId :=
  match a.place with
  | .lm o _ _ => o
  | _ => c

/-- A barrier word written after its test; an overrun counts EV.11 at the owner (R154). -/
def State.putBar (s : State) (a : Acc) (b : Bar) : State :=
  let (b', ran) := b.test
  let s := s.writeAcc a 8 b'.toNat
  if ran then s.countAll (a.owner s.cur) [11] else s

/-- The window's checks of order 1, then a bound of order 2 (R127). -/
def State.barBounds (s : State) (w : Win) (ea : Word) (ok : Bool) : Res Unit := do
  s.windowGate .barrier w ea
  check ok .bounds ea

def State.barinitOp (s : State) (sc : Scope) (w : Win) (imm : BitVec 24) (base n : Src) (lit : Word) (len : Nat) :
    Res State := do
  let (b, k) ← s.use2 lit base n
  let ea := ea2 b imm
  s.barBounds w ea (decide (1 ≤ k.toNat) && decide (k.toNat ≤ 32767))
  let s ← s.release sc
  let (s, a) ← s.barAcc .barrier w ea
  .ok ((s.putBar a { pend := 0, phase := false, err := false, expect := k.toNat, left := k.toNat }).advance len)

def execBarinit (base n : Src) (s : State) : Out := complete s (s.barinitOp .thr .glob 0 base n 0 4)

def execBarinitX (f : Form) (sc : Scope) (w : Win) (imm : BitVec 24) (base n : Src) (s : State) : Out :=
  complete s (s.barinitOp sc w imm base n f.value (formBytes f))

def State.barexpOp (s : State) (w : Win) (imm : BitVec 24) (base n : Src) (lit : Word) (len : Nat) : Res State := do
  let (b, k) ← s.use2 lit base n
  let ea := ea2 b imm
  s.barBounds w ea (decide (k.toNat < 2 ^ 31))
  let (s, a) ← s.barAcc .barrier w ea
  let x := Bar.ofNat (s.valAcc a 8)
  check (decide (x.pend + k.toNat < 2 ^ 31)) .bounds ea
  .ok ((s.putBar a { x with pend := x.pend + k.toNat }).advance len)

def execBarexp (base n : Src) (s : State) : Out := complete s (s.barexpOp .glob 0 base n 0 4)

def execBarexpX (f : Form) (w : Win) (imm : BitVec 24) (base n : Src) (s : State) : Out :=
  complete s (s.barexpOp w imm base n f.value (formBytes f))

def State.bararrOp (s : State) (sc : Scope) (w : Win) (imm : BitVec 24) (d : Dst) (base n : Src) (lit : Word)
    (len : Nat) : Res State := do
  let (b, k) ← s.use2 lit base n
  let ea := ea2 b imm
  s.barBounds w ea (decide (k.toNat < 2 ^ 31))
  let s ← s.release sc
  let (s, a) ← s.barAcc .barrier w ea
  let v := s.valAcc a 8
  let x := Bar.ofNat v
  check (x.left != 0 && decide (x.pend + k.toNat < 2 ^ 31)) .bounds ea
  .ok ((s.putBar a { x with pend := x.pend + k.toNat, left := x.left - 1 }).result d (word v) [] len)

def execBararr (d : Dst) (base n : Src) (s : State) : Out := complete s (s.bararrOp .thr .glob 0 d base n 0 4)

def execBararrX (f : Form) (sc : Scope) (w : Win) (imm : BitVec 24) (d : Dst) (base n : Src) (s : State) : Out :=
  complete s (s.bararrOp sc w imm d base n f.value (formBytes f))

/-- `barwait`: it sleeps while the phase is the one given (R155). -/
def State.barwaitOp (s : State) (sc : Scope) (w : Win) (chk : Bool) (imm : BitVec 24) (d : Dst) (base ph : Src)
    (lit : Word) (len : Nat) : Res State := do
  let (b, p) ← s.use2 lit base ph
  let ea := ea2 b imm
  s.acquireGate sc
  let (s, a) ← s.barAcc .barrierRead w ea
  let v := s.valAcc a 8
  let x := Bar.ofNat v
  if x.phase == (wbits p 0 1 == 1) then .error .sleep
  else
    check (!(chk && x.err)) .barrierOverrun ea
    .ok ((s.result d (word v) [] len).acquired sc)

def execBarwait (d : Dst) (base ph : Src) (s : State) : Out :=
  complete s (s.barwaitOp .thr .glob false 0 d base ph 0 4)

def execBarwaitX (f : Form) (sc : Scope) (w : Win) (chk : Bool) (imm : BitVec 24) (d : Dst) (base ph : Src) (s : State) : Out :=
  complete s (s.barwaitOp sc w chk imm d base ph f.value (formBytes f))

end Sys2Proof.Machine
end

