-- ==== Sys2Proof/Machine/Integer.lean ====
section
/-! DEFINITION. Integer arithmetic, logic, shifts, bit fields, compare, select and move: majors 0x00 to 0x04 (R79 to
R88). -/

namespace Sys2Proof.Machine

/-! ## Operations on N-bit patterns (R80 to R83); each answers a pattern and the events it counts -/

/-- A two-source integer operation. -/
inductive IntOp where
  | add | sub | min | minz | max | maxz | mul | mulh | mulhz | div | divz | rem | remz
  | and | or | xor | andn | shl | shr | sra | rotl
  deriving DecidableEq, Repr

/-- A one-source integer operation. -/
inductive IntOp1 where
  | neg | abs | not | clz | ctz | popc
  deriving DecidableEq, Repr

/-- Quotient, remainder and events of a division (R82). -/
def divide (signed : Bool) (n x y : Nat) : Nat × Nat × List Nat :=
  let a := bitsInt signed n x
  let b := bitsInt signed n y
  if b = 0 then (2 ^ n - 1, x, [10])
  else if signed && a == -(2 ^ (n - 1) : Nat) && b == -1 then (x, 0, [10])
  else (intBits n (a.tdiv b), intBits n (a.tmod b), [])

/-- The result of a two-source operation on N-bit patterns x and y. -/
def IntOp.eval (op : IntOp) (n x y : Nat) : Nat × List Nat :=
  let sx := bitsInt true n x
  let sy := bitsInt true n y
  let k := y % n
  match op with
  | .add => ((x + y) % 2 ^ n, [])
  | .sub => (intBits n ((x : Int) - y), [])
  | .min => (if sx ≤ sy then x else y, [])
  | .minz => (if x ≤ y then x else y, [])
  | .max => (if sx ≤ sy then y else x, [])
  | .maxz => (if x ≤ y then y else x, [])
  | .mul => (x * y % 2 ^ n, [])
  | .mulh => (intBits n (sx * sy / (2 ^ n : Nat)), [])
  | .mulhz => (x * y / 2 ^ n, [])
  | .div => let r := divide true n x y; (r.1, r.2.2)
  | .divz => let r := divide false n x y; (r.1, r.2.2)
  | .rem => let r := divide true n x y; (r.2.1, r.2.2)
  | .remz => let r := divide false n x y; (r.2.1, r.2.2)
  | .and => (x &&& y, [])
  | .or => (x ||| y, [])
  | .xor => (x ^^^ y, [])
  | .andn => (x &&& (2 ^ n - 1 - y), [])
  | .shl => (x * 2 ^ k % 2 ^ n, [])
  | .shr => (x / 2 ^ k, [])
  | .sra => (intBits n (sx / (2 ^ k : Nat)), [])
  | .rotl => (x * 2 ^ k % 2 ^ n + x / 2 ^ (n - k) % 2 ^ n, [])

/-- Leading zeros of an N-bit pattern (R83). -/
def clzOf (n x : Nat) : Nat := if x = 0 then n else n - 1 - Nat.log2 x

/-- Trailing zeros of an N-bit pattern (R83). -/
def ctzOf (n x : Nat) : Nat :=
  match n with
  | 0 => 0
  | n + 1 => if x % 2 = 1 then 0 else 1 + ctzOf n (x / 2)

/-- One bits of an N-bit pattern (R83). -/
def popOf (n x : Nat) : Nat :=
  match n with
  | 0 => 0
  | n + 1 => x % 2 + popOf n (x / 2)

/-- The result of a one-source operation on an N-bit pattern. -/
def IntOp1.eval (op : IntOp1) (n x : Nat) : Nat :=
  match op with
  | .neg => intBits n (-(x : Int))
  | .abs => intBits n (bitsInt true n x).natAbs
  | .not => 2 ^ n - 1 - x
  | .clz => clzOf n x
  | .ctz => ctzOf n x
  | .popc => popOf n x

/-- The symbolic result of a two-source operation, where R74 folds it. -/
def IntOp.fold (op : IntOp) (x y : Reg) : Option Reg :=
  match op with
  | .add => foldAdd x y
  | .sub => foldSub x y
  | .mul => foldMul x y
  | .shl => foldShl x y
  | _ => none

/-- The symbolic result of a one-source operation, where R74 folds it. -/
def IntOp1.fold (op : IntOp1) (x : Reg) : Option Reg :=
  match op, x with
  | .neg, .int s a b => some (Reg.int s (-a) (-b)).norm
  | _, _ => none

/-- A scalar result in any state, with its events. -/
def State.finish (s : State) (d : Dst) (r : Reg) (evs : List Nat) (len : Nat) : State :=
  ((s.put d r).countAll s.cur evs).advance len

/-- A two-source integer instruction (R74, R80, R81). -/
def State.int2 (s : State) (op : IntOp) (ty : Option Ty) (d : Dst) (x y : Src) (lit : Word) (len : Nat) : Res State :=
  let rx := s.me.src lit x
  let ry := s.me.src lit y
  match (if is64 ty && !s.me.nofold then op.fold rx ry else none) with
  | some r => .ok (s.finish d r [] len)
  | none => do
    s.need [rx, ry]
    let t := intTy ty
    let n := 8 * t.bytes
    let (v, evs) := op.eval n (rx.val.toNat % 2 ^ n) (ry.val.toNat % 2 ^ n)
    .ok (s.finish d (.value (extend t v)) evs len)

/-- A one-source integer instruction (R74, R80, R81, R83). -/
def State.int1 (s : State) (op : IntOp1) (ty : Option Ty) (d : Dst) (x : Src) (lit : Word) (len : Nat) : Res State :=
  let rx := s.me.src lit x
  match (if is64 ty && !s.me.nofold then op.fold rx else none) with
  | some r => .ok (s.finish d r [] len)
  | none => do
    s.need [rx]
    let t := intTy ty
    let n := 8 * t.bytes
    .ok (s.finish d (.value (extend t (op.eval n (rx.val.toNat % 2 ^ n)))) [] len)

/-- `lea` (R85). -/
def State.leaOp (s : State) (d : Dst) (x y : Src) (sh : Nat) (imm : BitVec 24) (lit : Word) (len : Nat) : Res State :=
  let rx := s.me.src lit x
  let ry := s.me.src lit y
  match (if s.me.nofold then none else foldLea sh (sext24 imm) rx ry) with
  | some r => .ok (s.finish d r [] len)
  | none => do
    s.need [rx, ry]
    .ok (s.finish d (.value (rx.val + (ry.val <<< sh) + sext24 imm)) [] len)

/-- `bext` on 64 bits (R84). -/
def bextOf (x ctl : Word) : Word :=
  let pos := wbits ctl 0 6
  let m := min (min (wbits ctl 6 7) 64) (64 - pos)
  word (x.toNat / 2 ^ pos % 2 ^ m)

/-- `bins` on 64 bits (R84). -/
def binsOf (x ctl f : Word) : Word :=
  let pos := wbits ctl 0 6
  let m := min (min (wbits ctl 6 7) 64) (64 - pos)
  let mask : Word := word ((2 ^ m - 1) * 2 ^ pos)
  (f &&& ~~~mask) ||| ((x <<< pos) &&& mask)

/-- `sext` and `zext` on 64 bits (R84). -/
def extOf (signed : Bool) (x n : Word) : Word :=
  if n = 0 then 0
  else if 64 ≤ n.toNat then x
  else BitVec.ofInt 64 (bitsInt signed n.toNat x.toNat)

/-- A two-source instruction on all 64 bits that never folds (R84). -/
def State.raw2 (s : State) (f : Word → Word → Word) (d : Dst) (x y : Src) (lit : Word) (len : Nat) : Res State := do
  let (a, b) ← s.use2 lit x y
  .ok (s.result d (f a b) [] len)

/-- A three-source instruction on all 64 bits that never folds; `z` is a source already read. -/
def State.raw3 (s : State) (f : Word → Word → Word → Word) (d : Dst) (x y : Src) (z : Reg) (lit : Word) (len : Nat) :
    Res State := do
  let rx := s.me.src lit x
  let ry := s.me.src lit y
  s.need [rx, ry, z]
  .ok (s.result d (f rx.val ry.val z.val) [] len)

/-- The fourth operand: D in an extended form, the destination in a form without words 1 and 2 (R14). That a literal changes
nothing in this is a choice (notes/assumptions 69). -/
def Ctx.fourth (t : Ctx) (f : Form) (d : Dst) (z : Src) : Reg :=
  match f with
  | .l _ => t.dstReg d
  | _ => t.src f.value z

/-- A condition between N-bit patterns (R86). -/
def condHolds (c : Cond) (n x y : Nat) : Bool :=
  let sx := bitsInt true n x
  let sy := bitsInt true n y
  match c with
  | .eq => x == y
  | .ne => x != y
  | .lt => decide (sx < sy)
  | .le => decide (sx ≤ sy)
  | .gt => decide (sy < sx)
  | .ge => decide (sy ≤ sx)
  | .ltz => decide (x < y)
  | .lez => decide (x ≤ y)
  | .gtz => decide (y < x)
  | .gez => decide (y ≤ x)

/-- The condition of a compare at the width TYPE gives (R80, R86). -/
def cmpWords (c : Cond) (ty : Option Ty) (x y : Word) : Bool :=
  let n := 8 * (intTy ty).bytes
  condHolds c n (x.toNat % 2 ^ n) (y.toNat % 2 ^ n)

/-- `cmp` (R86). -/
def State.cmpOp (s : State) (c : Cond) (ty : Option Ty) (d : Dst) (x y : Src) (lit : Word) (len : Nat) : Res State := do
  let (a, b) ← s.use2 lit x y
  .ok (s.result d (if cmpWords c ty a b then 1 else 0) [] len)

/-- `mov`: a form is copied at 64-bit types; a narrower type narrows and extends (R88). -/
def State.movOp (s : State) (ty : Option Ty) (d : Dst) (x : Src) (lit : Word) (len : Nat) : Res State :=
  let r := s.me.src lit x
  match r with
  | .int .. | .log .. | .aff .. =>
    if is64 ty then .ok (s.finish d r [] len) else do
      s.need [r]
      wait
  | _ => do
    s.need [r]
    .ok (s.result d (extend (intTy ty) r.val.toNat) [] len)

/-- `add`, 32-bit form (R81). -/
def execAdd (d : Dst) (x y : Src) (s : State) : Out :=
  complete s (s.int2 .add none d x y 0 4)

/-- `add`, extended and literal forms (R81). -/
def execAddX (f : Form) (ty : Option Ty) (d : Dst) (x y : Src) (s : State) : Out :=
  complete s (s.int2 .add ty d x y f.value (formBytes f))

/-- `sub`, 32-bit form (R81). -/
def execSub (d : Dst) (x y : Src) (s : State) : Out :=
  complete s (s.int2 .sub none d x y 0 4)

/-- `sub`, extended and literal forms (R81). -/
def execSubX (f : Form) (ty : Option Ty) (d : Dst) (x y : Src) (s : State) : Out :=
  complete s (s.int2 .sub ty d x y f.value (formBytes f))

/-- `min`, 32-bit form (R81). -/
def execMin (d : Dst) (x y : Src) (s : State) : Out :=
  complete s (s.int2 .min none d x y 0 4)

/-- `min`, extended and literal forms (R81). -/
def execMinX (f : Form) (ty : Option Ty) (d : Dst) (x y : Src) (s : State) : Out :=
  complete s (s.int2 .min ty d x y f.value (formBytes f))

/-- `minz`, 32-bit form (R81). -/
def execMinz (d : Dst) (x y : Src) (s : State) : Out :=
  complete s (s.int2 .minz none d x y 0 4)

/-- `minz`, extended and literal forms (R81). -/
def execMinzX (f : Form) (ty : Option Ty) (d : Dst) (x y : Src) (s : State) : Out :=
  complete s (s.int2 .minz ty d x y f.value (formBytes f))

/-- `max`, 32-bit form (R81). -/
def execMax (d : Dst) (x y : Src) (s : State) : Out :=
  complete s (s.int2 .max none d x y 0 4)

/-- `max`, extended and literal forms (R81). -/
def execMaxX (f : Form) (ty : Option Ty) (d : Dst) (x y : Src) (s : State) : Out :=
  complete s (s.int2 .max ty d x y f.value (formBytes f))

/-- `maxz`, 32-bit form (R81). -/
def execMaxz (d : Dst) (x y : Src) (s : State) : Out :=
  complete s (s.int2 .maxz none d x y 0 4)

/-- `maxz`, extended and literal forms (R81). -/
def execMaxzX (f : Form) (ty : Option Ty) (d : Dst) (x y : Src) (s : State) : Out :=
  complete s (s.int2 .maxz ty d x y f.value (formBytes f))

/-- `mul`, 32-bit form (R81). -/
def execMul (d : Dst) (x y : Src) (s : State) : Out :=
  complete s (s.int2 .mul none d x y 0 4)

/-- `mul`, extended and literal forms (R81). -/
def execMulX (f : Form) (ty : Option Ty) (d : Dst) (x y : Src) (s : State) : Out :=
  complete s (s.int2 .mul ty d x y f.value (formBytes f))

/-- `mulh`, 32-bit form (R81). -/
def execMulh (d : Dst) (x y : Src) (s : State) : Out :=
  complete s (s.int2 .mulh none d x y 0 4)

/-- `mulh`, extended and literal forms (R81). -/
def execMulhX (f : Form) (ty : Option Ty) (d : Dst) (x y : Src) (s : State) : Out :=
  complete s (s.int2 .mulh ty d x y f.value (formBytes f))

/-- `mulhz`, 32-bit form (R81). -/
def execMulhz (d : Dst) (x y : Src) (s : State) : Out :=
  complete s (s.int2 .mulhz none d x y 0 4)

/-- `mulhz`, extended and literal forms (R81). -/
def execMulhzX (f : Form) (ty : Option Ty) (d : Dst) (x y : Src) (s : State) : Out :=
  complete s (s.int2 .mulhz ty d x y f.value (formBytes f))

/-- `div`, 32-bit form (R82). -/
def execDiv (d : Dst) (x y : Src) (s : State) : Out :=
  complete s (s.int2 .div none d x y 0 4)

/-- `div`, extended and literal forms (R82). -/
def execDivX (f : Form) (ty : Option Ty) (d : Dst) (x y : Src) (s : State) : Out :=
  complete s (s.int2 .div ty d x y f.value (formBytes f))

/-- `divz`, 32-bit form (R82). -/
def execDivz (d : Dst) (x y : Src) (s : State) : Out :=
  complete s (s.int2 .divz none d x y 0 4)

/-- `divz`, extended and literal forms (R82). -/
def execDivzX (f : Form) (ty : Option Ty) (d : Dst) (x y : Src) (s : State) : Out :=
  complete s (s.int2 .divz ty d x y f.value (formBytes f))

/-- `rem`, 32-bit form (R82). -/
def execRem (d : Dst) (x y : Src) (s : State) : Out :=
  complete s (s.int2 .rem none d x y 0 4)

/-- `rem`, extended and literal forms (R82). -/
def execRemX (f : Form) (ty : Option Ty) (d : Dst) (x y : Src) (s : State) : Out :=
  complete s (s.int2 .rem ty d x y f.value (formBytes f))

/-- `remz`, 32-bit form (R82). -/
def execRemz (d : Dst) (x y : Src) (s : State) : Out :=
  complete s (s.int2 .remz none d x y 0 4)

/-- `remz`, extended and literal forms (R82). -/
def execRemzX (f : Form) (ty : Option Ty) (d : Dst) (x y : Src) (s : State) : Out :=
  complete s (s.int2 .remz ty d x y f.value (formBytes f))

/-- `and`, 32-bit form (R81). -/
def execAnd (d : Dst) (x y : Src) (s : State) : Out :=
  complete s (s.int2 .and none d x y 0 4)

/-- `and`, extended and literal forms (R81). -/
def execAndX (f : Form) (ty : Option Ty) (d : Dst) (x y : Src) (s : State) : Out :=
  complete s (s.int2 .and ty d x y f.value (formBytes f))

/-- `or`, 32-bit form (R81). -/
def execOr (d : Dst) (x y : Src) (s : State) : Out :=
  complete s (s.int2 .or none d x y 0 4)

/-- `or`, extended and literal forms (R81). -/
def execOrX (f : Form) (ty : Option Ty) (d : Dst) (x y : Src) (s : State) : Out :=
  complete s (s.int2 .or ty d x y f.value (formBytes f))

/-- `xor`, 32-bit form (R81). -/
def execXor (d : Dst) (x y : Src) (s : State) : Out :=
  complete s (s.int2 .xor none d x y 0 4)

/-- `xor`, extended and literal forms (R81). -/
def execXorX (f : Form) (ty : Option Ty) (d : Dst) (x y : Src) (s : State) : Out :=
  complete s (s.int2 .xor ty d x y f.value (formBytes f))

/-- `andn`, 32-bit form (R81). -/
def execAndn (d : Dst) (x y : Src) (s : State) : Out :=
  complete s (s.int2 .andn none d x y 0 4)

/-- `andn`, extended and literal forms (R81). -/
def execAndnX (f : Form) (ty : Option Ty) (d : Dst) (x y : Src) (s : State) : Out :=
  complete s (s.int2 .andn ty d x y f.value (formBytes f))

/-- `shl`, 32-bit form (R83). -/
def execShl (d : Dst) (x y : Src) (s : State) : Out :=
  complete s (s.int2 .shl none d x y 0 4)

/-- `shl`, extended and literal forms (R83). -/
def execShlX (f : Form) (ty : Option Ty) (d : Dst) (x y : Src) (s : State) : Out :=
  complete s (s.int2 .shl ty d x y f.value (formBytes f))

/-- `shr`, 32-bit form (R83). -/
def execShr (d : Dst) (x y : Src) (s : State) : Out :=
  complete s (s.int2 .shr none d x y 0 4)

/-- `shr`, extended and literal forms (R83). -/
def execShrX (f : Form) (ty : Option Ty) (d : Dst) (x y : Src) (s : State) : Out :=
  complete s (s.int2 .shr ty d x y f.value (formBytes f))

/-- `sra`, 32-bit form (R83). -/
def execSra (d : Dst) (x y : Src) (s : State) : Out :=
  complete s (s.int2 .sra none d x y 0 4)

/-- `sra`, extended and literal forms (R83). -/
def execSraX (f : Form) (ty : Option Ty) (d : Dst) (x y : Src) (s : State) : Out :=
  complete s (s.int2 .sra ty d x y f.value (formBytes f))

/-- `rotl`, 32-bit form (R83). -/
def execRotl (d : Dst) (x y : Src) (s : State) : Out :=
  complete s (s.int2 .rotl none d x y 0 4)

/-- `rotl`, extended and literal forms (R83). -/
def execRotlX (f : Form) (ty : Option Ty) (d : Dst) (x y : Src) (s : State) : Out :=
  complete s (s.int2 .rotl ty d x y f.value (formBytes f))

/-- `neg`, 32-bit form (R81). -/
def execNeg (d : Dst) (x : Src) (s : State) : Out :=
  complete s (s.int1 .neg none d x 0 4)

/-- `neg`, extended and literal forms (R81). -/
def execNegX (f : Form) (ty : Option Ty) (d : Dst) (x : Src) (s : State) : Out :=
  complete s (s.int1 .neg ty d x f.value (formBytes f))

/-- `abs`, 32-bit form (R81). -/
def execAbs (d : Dst) (x : Src) (s : State) : Out :=
  complete s (s.int1 .abs none d x 0 4)

/-- `abs`, extended and literal forms (R81). -/
def execAbsX (f : Form) (ty : Option Ty) (d : Dst) (x : Src) (s : State) : Out :=
  complete s (s.int1 .abs ty d x f.value (formBytes f))

/-- `not`, 32-bit form (R81). -/
def execNot (d : Dst) (x : Src) (s : State) : Out :=
  complete s (s.int1 .not none d x 0 4)

/-- `not`, extended and literal forms (R81). -/
def execNotX (f : Form) (ty : Option Ty) (d : Dst) (x : Src) (s : State) : Out :=
  complete s (s.int1 .not ty d x f.value (formBytes f))

/-- `clz`, 32-bit form (R83). -/
def execClz (d : Dst) (x : Src) (s : State) : Out :=
  complete s (s.int1 .clz none d x 0 4)

/-- `clz`, extended and literal forms (R83). -/
def execClzX (f : Form) (ty : Option Ty) (d : Dst) (x : Src) (s : State) : Out :=
  complete s (s.int1 .clz ty d x f.value (formBytes f))

/-- `ctz`, 32-bit form (R83). -/
def execCtz (d : Dst) (x : Src) (s : State) : Out :=
  complete s (s.int1 .ctz none d x 0 4)

/-- `ctz`, extended and literal forms (R83). -/
def execCtzX (f : Form) (ty : Option Ty) (d : Dst) (x : Src) (s : State) : Out :=
  complete s (s.int1 .ctz ty d x f.value (formBytes f))

/-- `popc`, 32-bit form (R83). -/
def execPopc (d : Dst) (x : Src) (s : State) : Out :=
  complete s (s.int1 .popc none d x 0 4)

/-- `popc`, extended and literal forms (R83). -/
def execPopcX (f : Form) (ty : Option Ty) (d : Dst) (x : Src) (s : State) : Out :=
  complete s (s.int1 .popc ty d x f.value (formBytes f))

/-- `lea`, 32-bit form (R85). -/
def execLea (d : Dst) (x y : Src) (s : State) : Out :=
  complete s (s.leaOp d x y 0 0 0 4)

/-- `lea`, extended and literal forms (R85). -/
def execLeaX (f : Form) (d : Dst) (x y : Src) (sh : BitVec 3) (imm : BitVec 24) (s : State) : Out :=
  complete s (s.leaOp d x y sh.toNat imm f.value (formBytes f))

/-- `bext`, 32-bit form (R84). -/
def execBext (d : Dst) (x y : Src) (s : State) : Out :=
  complete s (s.raw2 bextOf d x y 0 4)

/-- `bext`, extended and literal forms (R84). -/
def execBextX (f : Form) (d : Dst) (x y : Src) (s : State) : Out :=
  complete s (s.raw2 bextOf d x y f.value (formBytes f))

/-- `sext`, 32-bit form (R84). -/
def execSext (d : Dst) (x y : Src) (s : State) : Out :=
  complete s (s.raw2 (extOf true) d x y 0 4)

/-- `sext`, extended and literal forms (R84). -/
def execSextX (f : Form) (d : Dst) (x y : Src) (s : State) : Out :=
  complete s (s.raw2 (extOf true) d x y f.value (formBytes f))

/-- `zext`, 32-bit form (R84). -/
def execZext (d : Dst) (x y : Src) (s : State) : Out :=
  complete s (s.raw2 (extOf false) d x y 0 4)

/-- `zext`, extended and literal forms (R84). -/
def execZextX (f : Form) (d : Dst) (x y : Src) (s : State) : Out :=
  complete s (s.raw2 (extOf false) d x y f.value (formBytes f))

/-- `bins`, 32-bit form: the field goes into the destination (R84). -/
def execBins (d : Dst) (x y : Src) (s : State) : Out :=
  complete s (s.raw3 binsOf d x y (s.me.dstReg d) 0 4)

/-- `bins`, extended and literal forms (R84). -/
def execBinsX (f : Form) (d : Dst) (x y z : Src) (s : State) : Out :=
  complete s (s.raw3 binsOf d x y (s.me.fourth f d z) f.value (formBytes f))

/-- `cmp`, 32-bit form (R86). -/
def execCmp (c : Cond) (d : Dst) (x y : Src) (s : State) : Out :=
  complete s (s.cmpOp c none d x y 0 4)

/-- `cmp`, extended and literal forms (R86). -/
def execCmpX (f : Form) (c : Cond) (ty : Option Ty) (d : Dst) (x y : Src) (s : State) : Out :=
  complete s (s.cmpOp c ty d x y f.value (formBytes f))

/-- `sel` on its three sources c, t and f (R87). -/
def selOf (c t f : Word) : Word := if c ≠ 0 then t else f

/-- `sel`, 32-bit form: f is the destination (R87). -/
def execSel (d : Dst) (x y : Src) (s : State) : Out :=
  complete s (s.raw3 selOf d x y (s.me.dstReg d) 0 4)

/-- `sel`, extended and literal forms (R87). -/
def execSelX (f : Form) (d : Dst) (x y z : Src) (s : State) : Out :=
  complete s (s.raw3 selOf d x y (s.me.fourth f d z) f.value (formBytes f))

/-- `mov`, 32-bit form (R88). -/
def execMov (d : Dst) (x : Src) (s : State) : Out :=
  complete s (s.movOp none d x 0 4)

/-- `mov`, extended and literal forms (R88). -/
def execMovX (f : Form) (ty : Option Ty) (d : Dst) (x : Src) (s : State) : Out :=
  complete s (s.movOp ty d x f.value (formBytes f))

/-- `movl` (R88). -/
def execMovl (long : Bool) (d : Dst) (v : Word) (s : State) : Out :=
  complete s (.ok (s.result d v [] (if long then 20 else 12)))

end Sys2Proof.Machine
end

