-- ==== Sys2Proof/Machine/FpScalar.lean ====
section
/-! DEFINITION. Scalar floating-point instructions (R89 to R92) and the symbol instructions (R93, R94). -/

namespace Sys2Proof.Machine

/-- An FP arithmetic instruction that may log or fold: FN 0 to 3, its sources in operand order (R75, R77, R89). -/
def State.fpLog (s : State) (fn : Nat) (ty : Option Ty) (rnd : Rnd) (fa : Bool) (d : Dst) (rs : List Reg) (len : Nat) :
    Res State :=
  let t := fpTy ty
  let me := s.me
  let mode := me.mode' rnd
  match (if me.nofold || me.nolog then none else foldFp fn fa t mode rs) with
  | some r => .ok (s.finish d r [] len)
  | none => do
    s.need rs
    let v (i : Nat) : Word := (rs.getD i (.value 0)).val
    let (b, evs) := fpEager t mode fn (v 0) (v 1) (v 2)
    .ok (s.result d b evs len)

/-- The two sources of an FP instruction (R21). -/
def State.fpSrc2 (s : State) (ty : Option Ty) (x y : Src) (lit : Word) : List Reg :=
  [s.me.srcTy (fpTy ty) lit x, s.me.srcTy (fpTy ty) lit y]

/-- The fourth operand of `fma` (R14, R21). A form with a literal and no words 1 and 2 reads it from A, a choice of
notes/assumptions 69. -/
def State.fpFourth (s : State) (f : Form) (ty : Option Ty) (d : Dst) (z : Src) : Reg :=
  match f with
  | .l _ => s.me.dstReg d
  | _ => s.me.srcTy (fpTy ty) f.value z

/-- An FP instruction that blocks on symbolic sources and rounds once (R89). -/
def State.fpBlock (s : State) (ty : Option Ty) (rnd : Rnd) (op : RMode → List FpVal → FpVal) (d : Dst) (rs : List Reg)
    (len : Nat) : Res State := do
  s.need rs
  let t := fpTy ty
  let mode := s.me.mode' rnd
  let (b, evs) := (Fmt.ofTy t).pack mode false 0 (op mode (rs.map fun r => tyVal t r.val.toNat))
  .ok (s.result d (word b) (evs.map FpEvent.scalar) len)

def fpDivOp (_ : RMode) (vs : List FpVal) : FpVal := FpVal.div (vs.getD 0 .nan) (vs.getD 1 .nan)
def fpSqrtOp (_ : RMode) (vs : List FpVal) : FpVal := FpVal.sqrt (vs.getD 0 .nan)
def fpMinOp (_ : RMode) (vs : List FpVal) : FpVal := FpVal.min2 (vs.getD 0 .nan) (vs.getD 1 .nan)
def fpMaxOp (_ : RMode) (vs : List FpVal) : FpVal := FpVal.max2 (vs.getD 0 .nan) (vs.getD 1 .nan)
def fpAbsOp (_ : RMode) (vs : List FpVal) : FpVal := (vs.getD 0 .nan).abs
def fpNegOp (_ : RMode) (vs : List FpVal) : FpVal := (vs.getD 0 .nan).neg

/-- `fcmp` (R90). -/
def State.fcmpOp (s : State) (c : FCond) (ty : Option Ty) (d : Dst) (rs : List Reg) (len : Nat) : Res State := do
  s.need rs
  let v (i : Nat) : FpVal := tyVal (fpTy ty) (rs.getD i (.value 0)).val.toNat
  .ok (s.result d (if fcondEval c (v 0) (v 1) then 1 else 0) [] len)

/-- `fcls` (R92). -/
def State.fclsOp (s : State) (ty : Option Ty) (d : Dst) (x : Src) (lit : Word) (len : Nat) : Res State := do
  let r := s.me.srcTy (fpTy ty) lit x
  s.need [r]
  let f := Fmt.ofTy (fpTy ty)
  .ok (s.result d (word (f.cls (r.val.toNat % 2 ^ f.width))) [] len)

/-- A generator of the executing context steps (R50). -/
def Ctx.stepGen (t : Ctx) (j : Nat) : Ctx := { t with gens := t.gens.modify j genStep }

/-- The number that a generator's next step draws (R50). -/
def Ctx.draw (t : Ctx) (j : Nat) : Nat := genDraw (t.gens.getD j 0)

/-- `fcvt`: stochastic rounding steps generator 32 once (R52, R91). -/
def State.fcvtOp (s : State) (dst src : Ty) (rnd : Rnd) (d : Dst) (x : Src) (lit : Word) (len : Nat) : Res State := do
  let r := s.me.srcTy src lit x
  s.need [r]
  let mode := s.me.cvtMode dst rnd
  let (b, evs) := convert mode s.me.ovf8 (s.me.draw 32) dst src r.val.toNat
  let s := if mode = .sr then s.modMe fun t => t.stepGen 32 else s
  .ok (s.result d (if dst.isFloat then word b else extend dst b) (evs.map FpEvent.scalar) len)

/-- The symbol that a symbol instruction names, if any (R93). -/
def State.symOf (s : State) (a : SymArg) : Option Sym :=
  match a with
  | .num n => some n
  | .reg r => (s.me.reg r).sym

/-- The state code of what a symbol instruction names (R93). -/
def State.symCode (s : State) (a : SymArg) : Nat :=
  match s.symOf a with
  | some i => (s.myCore.syms.get i).code
  | none => 0

/-- `symt` (R94). -/
def State.symtOp (s : State) (d : Dst) (a : SymArg) (len : Nat) : Res State :=
  .ok (s.result d (word (s.symCode a)) [] len)

/-- `symw` (R94). -/
def State.symwOp (s : State) (d : Dst) (a : SymArg) (len : Nat) : Res State := do
  waitFor (s.symCode a != 1)
  .ok (s.result d (word (s.symCode a)) [] len)

/-- A PENDING entry becomes CANCELLED; it leaves PENDING, which its source's latch records (R94, R240). -/
def Core.cancel (x : Core) (i : Sym) : Core :=
  match x.syms.get i with
  | .pending _ k => ({ x with syms := x.syms.set i.val .cancelled i.isLt }).latchOwner k 1
  | _ => x

/-- `symx` (R94). -/
def State.symxOp (s : State) (d : Dst) (a : SymArg) (len : Nat) : Res State :=
  let code := s.symCode a
  let s := match s.symOf a with
    | some i => s.modCore s.cur fun x => x.cancel i
    | none => s
  .ok (s.result d (word code) [] len)

/-- `fadd`, 32-bit form (R89). -/
def execFadd (d : Dst) (x y : Src) (s : State) : Out :=
  complete s (s.fpLog 0 none .dyn false d (s.fpSrc2 none x y 0) 4)

/-- `fadd`, extended and literal forms (R77, R89). -/
def execFaddX (f : Form) (ty : Option Ty) (rnd : Rnd) (fa : Bool) (d : Dst) (x y : Src) (s : State) : Out :=
  complete s (s.fpLog 0 ty rnd fa d (s.fpSrc2 ty x y f.value) (formBytes f))

/-- `fsub`, 32-bit form (R89). -/
def execFsub (d : Dst) (x y : Src) (s : State) : Out :=
  complete s (s.fpLog 1 none .dyn false d (s.fpSrc2 none x y 0) 4)

/-- `fsub`, extended and literal forms (R77, R89). -/
def execFsubX (f : Form) (ty : Option Ty) (rnd : Rnd) (fa : Bool) (d : Dst) (x y : Src) (s : State) : Out :=
  complete s (s.fpLog 1 ty rnd fa d (s.fpSrc2 ty x y f.value) (formBytes f))

/-- `fmul`, 32-bit form (R89). -/
def execFmul (d : Dst) (x y : Src) (s : State) : Out :=
  complete s (s.fpLog 2 none .dyn false d (s.fpSrc2 none x y 0) 4)

/-- `fmul`, extended and literal forms (R77, R89). -/
def execFmulX (f : Form) (ty : Option Ty) (rnd : Rnd) (fa : Bool) (d : Dst) (x y : Src) (s : State) : Out :=
  complete s (s.fpLog 2 ty rnd fa d (s.fpSrc2 ty x y f.value) (formBytes f))

/-- `fma`, 32-bit form: the addend is the destination (R14, R89). -/
def execFma (d : Dst) (x y : Src) (s : State) : Out :=
  complete s (s.fpLog 3 none .dyn false d (s.fpSrc2 none x y 0 ++ [s.me.dstReg d]) 4)

/-- `fma`, extended and literal forms (R77, R89). -/
def execFmaX (f : Form) (ty : Option Ty) (rnd : Rnd) (fa : Bool) (d : Dst) (x y z : Src) (s : State) : Out :=
  complete s (s.fpLog 3 ty rnd fa d (s.fpSrc2 ty x y f.value ++ [s.fpFourth f ty d z]) (formBytes f))

/-- `fdiv`, 32-bit form (R89). -/
def execFdiv (d : Dst) (x y : Src) (s : State) : Out :=
  complete s (s.fpBlock none .dyn fpDivOp d (s.fpSrc2 none x y 0) 4)

/-- `fdiv`, extended and literal forms (R89). -/
def execFdivX (f : Form) (ty : Option Ty) (rnd : Rnd) (d : Dst) (x y : Src) (s : State) : Out :=
  complete s (s.fpBlock ty rnd fpDivOp d (s.fpSrc2 ty x y f.value) (formBytes f))

/-- `fsqrt`, 32-bit form (R89). -/
def execFsqrt (d : Dst) (x : Src) (s : State) : Out :=
  complete s (s.fpBlock none .dyn fpSqrtOp d [s.me.srcTy .f32 0 x] 4)

/-- `fsqrt`, extended and literal forms (R89). -/
def execFsqrtX (f : Form) (ty : Option Ty) (rnd : Rnd) (d : Dst) (x : Src) (s : State) : Out :=
  complete s (s.fpBlock ty rnd fpSqrtOp d [s.me.srcTy (fpTy ty) f.value x] (formBytes f))

/-- `fmin`, 32-bit form (R89). -/
def execFmin (d : Dst) (x y : Src) (s : State) : Out :=
  complete s (s.fpBlock none .rne fpMinOp d (s.fpSrc2 none x y 0) 4)

/-- `fmin`, extended and literal forms (R89). -/
def execFminX (f : Form) (ty : Option Ty) (d : Dst) (x y : Src) (s : State) : Out :=
  complete s (s.fpBlock ty .rne fpMinOp d (s.fpSrc2 ty x y f.value) (formBytes f))

/-- `fmax`, 32-bit form (R89). -/
def execFmax (d : Dst) (x y : Src) (s : State) : Out :=
  complete s (s.fpBlock none .rne fpMaxOp d (s.fpSrc2 none x y 0) 4)

/-- `fmax`, extended and literal forms (R89). -/
def execFmaxX (f : Form) (ty : Option Ty) (d : Dst) (x y : Src) (s : State) : Out :=
  complete s (s.fpBlock ty .rne fpMaxOp d (s.fpSrc2 ty x y f.value) (formBytes f))

/-- `fabs`, 32-bit form (R89). -/
def execFabs (d : Dst) (x : Src) (s : State) : Out :=
  complete s (s.fpBlock none .rne fpAbsOp d [s.me.srcTy .f32 0 x] 4)

/-- `fabs`, extended and literal forms (R89). -/
def execFabsX (f : Form) (ty : Option Ty) (d : Dst) (x : Src) (s : State) : Out :=
  complete s (s.fpBlock ty .rne fpAbsOp d [s.me.srcTy (fpTy ty) f.value x] (formBytes f))

/-- `fneg`, 32-bit form (R89). -/
def execFneg (d : Dst) (x : Src) (s : State) : Out :=
  complete s (s.fpBlock none .rne fpNegOp d [s.me.srcTy .f32 0 x] 4)

/-- `fneg`, extended and literal forms (R89). -/
def execFnegX (f : Form) (ty : Option Ty) (d : Dst) (x : Src) (s : State) : Out :=
  complete s (s.fpBlock ty .rne fpNegOp d [s.me.srcTy (fpTy ty) f.value x] (formBytes f))

/-- `fcmp`, 32-bit form (R90). -/
def execFcmp (c : FCond) (d : Dst) (x y : Src) (s : State) : Out :=
  complete s (s.fcmpOp c none d (s.fpSrc2 none x y 0) 4)

/-- `fcmp`, extended and literal forms (R90). -/
def execFcmpX (f : Form) (c : FCond) (ty : Option Ty) (d : Dst) (x y : Src) (s : State) : Out :=
  complete s (s.fcmpOp c ty d (s.fpSrc2 ty x y f.value) (formBytes f))

/-- `fcvt` (R91). -/
def execFcvt (lit : Option Word) (dst src : Ty) (rnd : Rnd) (d : Dst) (x : Src) (s : State) : Out :=
  complete s (s.fcvtOp dst src rnd d x (litVal lit) (litBytesX lit))

/-- `fcls`, 32-bit form (R92). -/
def execFcls (d : Dst) (x : Src) (s : State) : Out :=
  complete s (s.fclsOp none d x 0 4)

/-- `fcls`, extended and literal forms (R92). -/
def execFclsX (f : Form) (ty : Option Ty) (d : Dst) (x : Src) (s : State) : Out :=
  complete s (s.fclsOp ty d x f.value (formBytes f))

/-- `symt`, 32-bit form (R94). -/
def execSymt (d : Dst) (a : SymArg) (s : State) : Out :=
  complete s (s.symtOp d a 4)

/-- `symt`, extended form (R94). -/
def execSymtX (d : Dst) (a : SymArg) (s : State) : Out :=
  complete s (s.symtOp d a 12)

/-- `symw`, 32-bit form (R94). -/
def execSymw (d : Dst) (a : SymArg) (s : State) : Out :=
  complete s (s.symwOp d a 4)

/-- `symw`, extended form (R94). -/
def execSymwX (d : Dst) (a : SymArg) (s : State) : Out :=
  complete s (s.symwOp d a 12)

/-- `symx`, 32-bit form (R94). -/
def execSymx (d : Dst) (a : SymArg) (s : State) : Out :=
  complete s (s.symxOp d a 4)

/-- `symx`, extended form (R94). -/
def execSymxX (d : Dst) (a : SymArg) (s : State) : Out :=
  complete s (s.symxOp d a 12)

end Sys2Proof.Machine
end

