-- ==== Sys2Proof/Machine/Control.lean ====
section
/-! DEFINITION. Control flow: branches, calls and windows, jump tables, spill and refill, realign and padding
(R97 to R115). -/

namespace Sys2Proof.Machine

/-- A branch target: the address of word 0 plus 4 times the offset (R34, R99). -/
def target (pc off : Word) : Word := pc + (off <<< 2)

/-- `br` (R99). -/
def State.brOp (s : State) (off : Word) : Res State := .ok (s.goto (target s.me.pc off))

def execBr (off : BitVec 18) (s : State) : Out := complete s (s.brOp (off.signExtend 64))

def execBrX (imm : BitVec 24) (s : State) : Out := complete s (s.brOp (sext24 imm))

/-- `bcmp` (R99). -/
def State.bcmpOp (s : State) (c : Cond) (ty : Option Ty) (x y : Src) (imm : BitVec 24) (lit : Word) (len : Nat) :
    Res State := do
  let (a, b) ← s.use2 lit x y
  .ok (if cmpWords c ty a b then s.goto (target s.me.pc (sext24 imm)) else s.advance len)

def execBcmp (lit : Option Word) (c : Cond) (ty : Option Ty) (x y : Src) (imm : BitVec 24) (s : State) : Out :=
  complete s (s.bcmpOp c ty x y imm (litVal lit) (litBytesX lit))

/-- The effects of a call but for the jump: the store entry, the next window position and a clean upper frame (R102). -/
def Ctx.push (t : Ctx) (ret : Word) : Ctx :=
  let top := 16 * (t.pos.val + 1)
  { t with
    ras := t.ras.set t.pos.val (some ret) t.pos.isLt
    pos := t.pos + 1
    stack := Vector.ofFn fun i => if top + 8 ≤ i.val ∧ i.val < top + 24 then .value 0 else t.stack.get i }

/-- `call` (R102, R104). -/
def State.callOp (s : State) (off : Word) (len : Nat) : Res State := do
  let t := s.me
  check (t.mode != .h) .permission
  check (t.pos != 7) .spill
  .ok ((s.modMe fun t => t.push (t.pc + word len)).goto (target t.pc off))

def execCall (off : BitVec 18) (s : State) : Out := complete s (s.callOp (off.signExtend 64) 4)

def execCallX (imm : BitVec 24) (s : State) : Out := complete s (s.callOp (sext24 imm) 12)

/-- `ret` (R17, R103, R104). -/
def State.retOp (s : State) : Res State := do
  let t := s.me
  check (t.mode != .h) .permission
  if t.pos = 0 then
    if t.spillDepth = 0 then trap .retEmpty else trap .fill
  else
    let below := t.pos - 1
    let dest := (t.ras.get below).getD 0
    check (wbits dest 0 2 == 0) .align dest
    .ok ((s.modMe fun t => { t with pos := below, ras := t.ras.set below.val none below.isLt }).goto dest)

def execRet (s : State) : Out := complete s s.retOp

/-- The word of `land` with a label (R97, R112). -/
def landWord (label : BitVec 12) : BitVec 32 :=
  BitVec.ofNat 32 (4 * 2 ^ 26 + label.toNat / 64 * 2 ^ 20 + label.toNat % 64 * 2 ^ 14 + 0x19 * 4)

/-- The fetch of a branch's target word at its home, where the core does not hold its block (R294, R306). -/
def State.landFetch (s : State) (e : Word) : Res State :=
  if (s.myCore.fetchedBlock e).isSome then .ok s else
  match s.fetchAcc s.cur e 4 with
  | .error (.snoop n) => s.walkWait n
  | .error _ => .ok s
  | .ok a => s.request a .read

/-- The landing check of R112: it comes after the branch's effects, at the target's address. -/
def landCheck (s : State) (br : Word) (label : BitVec 12) : Res State :=
  let e := s.me.pc
  match s.fetchWord s.cur e with
  | .ok w => if w = landWord label then .ok s else .error (.trapAt { cause := .landMismatch, addr := br } s)
  | .error (.fault c a) => .error (.trapAt { cause := c, addr := a } s)
  | .error (.notPresent a) => .error (.trapAt { cause := .translation, addr := a } s)
  | .error (.snoop n) => s.walkWait n

/-- `jtb` and `jtc` (R111). -/
def State.jumpTable (s : State) (isCall : Bool) (tbl idx len : Src) (imm : BitVec 24) (label : BitVec 12) (lit : Word)
    (bytes : Nat) : Res State := do
  let t := s.me
  if isCall then check (t.mode != .h) .permission
  let ri := t.src lit idx
  let rl := t.src lit len
  let rt : Reg := if tbl = .zero then .value t.pc else t.src lit tbl
  s.need [ri, rl, rt]
  let base := rt.val + sext24 imm
  if isCall then check (t.pos != 7) .spill
  check (decide (ri.val.toNat < rl.val.toNat)) .jtRange
  check (wbits base 0 3 == 0) .align base
  let ea := base + (ri.val <<< 3)
  match s.loadAcc .glob ea 8 with
  | .error (.trap _) => trap .jtFetch ea
  | .error (.trapAt _ s') => .error (.trapAt { cause := .jtFetch, addr := ea } s')
  | .error e => .error e
  | .ok (s, a) =>
    let e := word (s.valAcc a 8)
    check (wbits e 0 2 == 0) .align e
    let s ← s.landFetch e
    let s' := if isCall then s.modMe fun t => t.push (t.pc + word bytes) else s
    landCheck (s'.goto e) t.pc label

def execJtb (lit : Option Word) (tbl idx len : Src) (imm : BitVec 24) (label : BitVec 12) (s : State) : Out :=
  complete s (s.jumpTable false tbl idx len imm label (litVal lit) (litBytesX lit))

def execJtc (lit : Option Word) (tbl idx len : Src) (imm : BitVec 24) (label : BitVec 12) (s : State) : Out :=
  complete s (s.jumpTable true tbl idx len imm label (litVal lit) (litBytesX lit))

/-- `land` executes as `nop` (R112). -/
def execLand (_label : BitVec 12) (s : State) : Out := complete s (.ok (s.advance 4))

/-- The counter of `loop` as a destination. -/
def ctrDst (x : CtrReg) : Dst :=
  match x with
  | .w n => .w n
  | .g n => .g n
  | .o n => .o n

/-- `loop` (R100). -/
def State.loopOp (s : State) (x : CtrReg) (off : Word) (len : Nat) : Res State := do
  let r := s.me.dstReg (ctrDst x)
  s.need [r]
  let n := r.val - 1
  let s' := s.putV (ctrDst x) n
  .ok (if n ≠ 0 then s'.goto (target s.me.pc off) else s'.advance len)

def execLoop (x : CtrReg) (off : BitVec 12) (s : State) : Out := complete s (s.loopOp x (off.signExtend 64) 4)

def execLoopX (x : CtrReg) (imm : BitVec 24) (s : State) : Out := complete s (s.loopOp x (sext24 imm) 12)

/-- `SPILL.BASE` as an address (R105). -/
def Ctx.spillAddr (t : Ctx) : Word := (t.spillBase ++ (0 : BitVec 4)).zeroExtend 64

/-- The accesses of the 18 words of a spill record: checked in ascending order, then brought home together (R106, R109). Parked stores
to the record come before (R109, R130). -/
def State.recordAccs (s : State) (k : AKind) (r : Req) (va : Word) : Res (State × List Nat) := do
  s.accessGate
  waitFor (!s.me.parkedOn va 144)
  let as ← (List.range 18).mapM fun i => s.precise (s.resolve k .glob (va + word (8 * i)) 8 8)
  let ks := as.flatMap (·.keys)
  waitFor (!s.me.vqTouches ks)
  let s ← s.requests as r
  -- An answer of the host that came poisoned has been used (R394, R399).
  match (List.range 18).find? fun i => k.reads && (as.getD i { keys := [], place := .hole }).ncHost
      && s.poisoned (as.getD i { keys := [], place := .hole }).keys with
  | some i => .error (.trapAt { cause := .poison, addr := va + word (8 * i) } s)
  | none => .ok (s, ks)

/-- `spillw` (R35, R107, R109). -/
def State.spillOp (s : State) : Res State := do
  let t := s.me
  check (t.mode != .u) .permission
  if t.pos = 0 then .ok (s.advance 4) else
  let va := t.spillAddr + word (144 * t.spillDepth.toNat)
  check (decide (t.spillDepth.toNat < t.spillLimit.toNat)) .bounds va
  let regs := t.stack.toList.take 16
  s.need regs
  let (s, ks) ← s.recordAccs .spill .store va
  let bs := regs.flatMap (fun r => leBytes 8 r.val.toNat) ++ leBytes 8 ((t.ras.get 0).getD 0).toNat ++ leBytes 8 0
  let s := s.write s.self ks bs
  .ok ((s.modMe fun t => { t with
    spillDepth := t.spillDepth + 1
    pos := t.pos - 1
    stack := Vector.ofFn fun i => if h : i.val + 16 < 136 then t.stack.get ⟨i.val + 16, h⟩ else .value 0
    ras := Vector.ofFn fun i => if h : i.val + 1 < 8 then t.ras.get ⟨i.val + 1, h⟩ else none }).advance 4)

def execSpillw (s : State) : Out := complete s s.spillOp

/-- `fillw` (R35, R108, R109). -/
def State.fillOp (s : State) : Res State := do
  let t := s.me
  check (t.mode != .u) .permission
  if t.spillDepth = 0 ∨ t.pos = 7 then .ok (s.advance 4) else
  let va := t.spillAddr + word (144 * (t.spillDepth.toNat - 1))
  let (s, ks) ← s.recordAccs .fill .read va
  let bs := s.bytesAt ks
  let wd (i : Nat) : Word := word (leNat ((bs.drop (8 * i)).take 8))
  .ok ((s.modMe fun t => { t with
    spillDepth := t.spillDepth - 1
    pos := t.pos + 1
    stack := Vector.ofFn fun i =>
      if i.val < 16 then .value (wd i.val) else t.stack.get ⟨i.val - 16, by have := i.isLt; omega⟩
    ras := Vector.ofFn fun i =>
      if i.val = 0 then some (wd 16) else t.ras.get ⟨i.val - 1, by have := i.isLt; omega⟩ }).advance 4)

def execFillw (s : State) : Out := complete s s.fillOp

/-- `hret` (R17, R35, R110). -/
def State.hretOp (s : State) : Res State := do
  let t := s.me
  check (t.mode != .u) .permission
  check (wbits t.epc 0 2 == 0) .align t.epc
  .ok s.returnFromTrap

def execHret (s : State) : Out := complete s s.hretOp

/-- The other cores of a core's cluster. -/
def clusterPeers (c : CoreId) : List CoreId :=
  ((List.range 8).map fun i => coreOf (c.val / 8 * 8 + i)).filter (· != c)

/-- Whether a peer holds the executing context at `realign` (R114). -/
def State.lags (s : State) (dist : Word) : Bool :=
  let own := s.me.pc.toNat
  decide (dist.toNat < own) && (clusterPeers s.cur).any fun c =>
    let t := s.ctx c s.slot
    t.live && (s.core c).launch.isSome && (s.core c).launch == s.myCore.launch
      && s.partOf c == s.partOf s.cur && decide (t.pc.toNat < own - dist.toNat)

/-- `realign`: the stall ends when no peer lags, or by a timeout (R114). -/
def State.realignOp (s : State) (dist : Src) (lit : Word) (len : Nat) : Res State := do
  let d ← s.use1 lit dist
  .ok (if s.lags d then s.modMe fun t => { t with run := .realign (t.pc + word len) } else s.advance len)

def execRealign (lit : Option Word) (dist : Src) (s : State) : Out :=
  complete s (s.realignOp dist (litVal lit) (litBytes lit))

/-- `nop`, 32-bit form (R115). -/
def execNop (s : State) : Out := complete s (.ok (s.advance 4))

/-- `nop`, 12-byte form (R115). -/
def execNopX (s : State) : Out := complete s (.ok (s.advance 12))

/-- `trapz`: the all-zero word (R31). -/
def execTrapz (s : State) : Out := complete s (trap .zeroWord)

/-- A word whose MAJ is reserved or whose FN is unassigned (R32). -/
def execIllegalOp (_w : BitVec 32) (s : State) : Out := complete s (trap .illegalOp)

end Sys2Proof.Machine
end

