-- ==== Sys2Proof/Machine/Contexts.lean ====
section
/-! DEFINITION. Contexts, continuation queues and stealing: `start`, `fin`, `join`, `yield`, `wait` and the steps of file
09 (R116 to R120, R242 to R261). -/

namespace Sys2Proof.Machine

/-- The helper slots that a launch's limit allows, ascending (R244). -/
def helperSlots (hl : Nat) : List SlotId := (List.finRange 11).filter fun k => decide (1 ≤ k.val) && decide (k.val ≤ hl)

/-- The lowest free permitted helper slot (R116, R249). -/
def Core.freeHelper (x : Core) (hl : Nat) : Option SlotId := (helperSlots hl).find? fun k => !(x.ctx k).live

/-! ## start and fin -/

/-- `start` (R116). -/
def State.startOp (s : State) (d : Dst) (imm : BitVec 24) : Res State := do
  let me := s.me
  let l := s.myLaunch
  match s.myCore.freeHelper l.desc.hl with
  | none => .ok (s.result d 0 [] 12)
  | some k =>
    let s := s.modCore s.cur fun x => x.start l k (target me.pc (sext24 imm))
    let w : Vector Reg 136 := Vector.ofFn fun i => if h : i.val < 8 then me.o.get ⟨i.val, h⟩ else .value 0
    let s := s.modCtx s.cur k fun t => { t with stack := w, g := me.g }
    .ok (s.result d (word k.val) [] 12)

def execStart (d : Dst) (imm : BitVec 24) (s : State) : Out := complete s (s.startOp d imm)

/-- `fin` (R117, R391). -/
def State.finOp (s : State) : Res State := do
  let t := s.me
  waitFor (t.vq.isEmpty && t.replayQ.isEmpty && (!t.firstFin || s.myCore.strays.isEmpty))
  .ok (s.endCtx s.cur s.slot)

def execFin (s : State) : Out := complete s s.finOp

/-! ## The continuation queue -/

/-- A push at the newest end; a full on-chip part first moves its 16 oldest to the extension, as far as there is room
(R248 to R250). None where no record can move out. -/
def Core.push (x : Core) (qx : Nat) (r : Record) : Option Core :=
  if x.queue.length < 64 then some { x with queue := x.queue ++ [r], stealAt := none }
  else
    let n := min 16 (qx - x.ext.length)
    if n = 0 then none
    else some { x with ext := x.ext ++ x.queue.take n, queue := x.queue.drop n ++ [r], stealAt := none }

/-- A queue under 16 records takes back the 16 newest of the extension (R248). -/
def Core.refill (x : Core) : Core :=
  if x.queue.length < 16 ∧ !x.ext.isEmpty then
    let n := x.ext.length - 16
    { x with queue := x.ext.drop n ++ x.queue, ext := x.ext.take n }
  else x

/-- Bytes of a core's queue extension: whole pages (R248, R365). -/
def Launch.extBytes (l : Launch) : Nat := (32 * l.desc.qx + 65535) / 65536 * 65536

/-- The access to a core's queue extension that a change of its records makes: a move out writes it, a move back reads it (R248,
R294). -/
def State.extAcc (s : State) (c : CoreId) (x : Core) : Option (Acc × Req) :=
  let old := (s.core c).ext
  if x.ext = old then none else
  (s.launchOf c).map fun l =>
    let ks := range (devKey s.pm l.part (l.extPa + x.rank * l.extBytes)) (32 * max old.length x.ext.length)
    ({ keys := ks, place := .dev (ks.headD 0), part := l.part }, if old.length < x.ext.length then .store else .read)

/-- What a change of a core's queue waits for (R294, R304). -/
def State.queueWait (s : State) (c : CoreId) (x : Core) : Option State :=
  match s.extAcc c x with
  | some (a, r) => s.demand (.ofCore c) a r
  | none => none

/-- A core's queue with what its extension in device memory holds (R248). -/
def State.setQueue (s : State) (c : CoreId) (x : Core) : State :=
  match s.extAcc c x with
  | none => s.setCore c x
  | some (a, r) =>
    let bs := x.ext.flatMap Record.bytes
    ((s.arrive (.ofCore c) a r).setCore c x).write none (a.keys.take bs.length) bs

/-- The record that a `join` at count 0 loads, by the address after the count (R118, R246). -/
def State.joinRecord (s : State) (j : Word) : Res (State × Word × Record) := do
  let p ← s.precise (s.resolve .load .glob (j + 8) 8 8)
  let s ← s.access .load .glob (j + 8) 8 .read p
  let rec' := word (s.valAcc p 8)
  let q ← s.precise (s.resolve .load .glob rec' 32 32)
  let s ← s.access .load .glob rec' 32 .read q
  .ok (s, rec', recordOf (s.readAcc q 32) s.cur.val)

/-- The record of a `join` is loaded, and its push waits for nothing (R118, R248, R250). -/
def State.joinReady (s : State) (j : Word) : Res Unit := do
  let (s, _, r) ← s.joinRecord j
  match (s.myCore.push s.myLaunch.desc.qx r).bind (s.queueWait s.cur) with
  | some s' => s.await s'
  | none => .ok ()

/-- What an attempt waits for, if it waits. -/
def Res.pause (r : Res α) : Res Unit :=
  match r with
  | .ok _ => .ok ()
  | .error (.trap _) => .ok ()
  | .error (.trapAt ..) => .ok ()
  | .error e => .error e

/-- `join` (R118, R246, R250): the decrement, then the destination, then at 0 the record, of which a fault leaves both done. What
the record's load must wait for is waited for before, so that a wait leaves the count unchanged. -/
def State.joinOp (s : State) (d : Dst) (base : Src) (imm : BitVec 24) (lit : Word) (len : Nat) : Res State := do
  let b ← s.use1 lit base
  let j := ea2 b imm
  check (j.toNat % 16 == 0) .align j
  let s ← s.release .pkg
  s.accessGate
  let a ← s.precise (s.resolve .atomic .glob j 8 8 (atomAt .add none))
  let s ← s.access .atomic .glob j 8 .perform a
  let n := BitVec.ofNat 64 (s.valAcc a 8) - 1
  if n ≠ 0 then .ok (((s.writeAcc a 8 n.toNat).result d n [] len).acquired .pkg)
  else
    (s.joinReady j).pause
    let s := s.writeAcc a 8 n.toNat
    let counted := (s.putV d n).acquired .pkg
    match s.joinRecord j with
    | .error (.trap t) => .error (.trapAt t counted)
    | .error (.trapAt t s) => .error (.trapAt t ((s.putV d n).acquired .pkg))
    | .error e => .error e
    | .ok (s, at_, r) =>
      match s.myCore.push s.myLaunch.desc.qx r with
      | none => .error (.trapAt { cause := .bounds, addr := at_ } ((s.putV d n).acquired .pkg))
      | some x => .ok (((s.setQueue s.cur x).result d n [] len).acquired .pkg)

def execJoin (d : Dst) (base : Src) (s : State) : Out := complete s (s.joinOp d base 0 0 4)

def execJoinX (f : Form) (d : Dst) (base : Src) (imm : BitVec 24) (s : State) : Out :=
  complete s (s.joinOp d base imm f.value (formBytes f))

/-- The live slots of a core but one. -/
def Core.others (x : Core) (k : SlotId) : List SlotId := (List.finRange 11).filter fun j => (x.ctx j).live && j != k

/-- `yield`: the slots that must issue first are those ready at the `yield`, which the step narrows down (R119). -/
def execYield (s : State) : Out :=
  complete s (.ok ((s.advance 4).modMe fun t => { t with run := .yielding (s.myCore.others s.slot) }))

/-- `wait`: an acquire load, repeated until the value differs (R120). -/
def State.waitOp (s : State) (sc : Scope) (w : Win) (ty : Option Ty) (d : Dst) (base v : Src) (imm : BitVec 24)
    (lit : Word) (len : Nat) : Res State := do
  let (b, c) ← s.use2 lit base v
  let t := intTy ty
  let n := t.bytes
  s.acquireGate sc
  let (s, a) ← s.loadAcc w (ea2 b imm) n
  let x := s.valAcc a n
  let s := s.tookAcc a n
  -- Each test is a load that has been performed (R120, R399).
  if x = c.toNat % 2 ^ (8 * n) then .error (.hold s .asleep)
  else .ok ((s.result d (extend t x) [] len).acquired sc)

def execWait (d : Dst) (base v : Src) (s : State) : Out := complete s (s.waitOp .thr .glob none d base v 0 0 4)

def execWaitX (f : Form) (sc : Scope) (w : Win) (ty : Option Ty) (d : Dst) (base v : Src) (imm : BitVec 24) (s : State) : Out :=
  complete s (s.waitOp sc w ty d base v imm f.value (formBytes f))

/-! ## The steps of queues and sleeps -/

/-- A record popped into the lowest free slot that `may` allows: the helper's registers, and the trap of a bad FLAGS word before any
fetch (R247, R249). The pop acquires at `.pkg`, so it waits while the die's link drains (R426). -/
def State.popRecord (s : State) (c : CoreId) (may : SlotId → Bool := fun _ => true) : State :=
  match s.launchOf c with
  | none => s
  | some l =>
    let x := s.core c
    if l.phase != .live || s.drainHolds c .pkg then s else
    match (helperSlots l.desc.hl).find? (fun k => !(x.ctx k).live && may k), x.queue.getLast? with
    | some k, some r =>
      let x := ({ x with queue := x.queue.dropLast }).refill
      match s.queueWait c x with
      | some s' => s'
      | none =>
      let s := s.setQueue c (x.start l k r.code)
      let s := s.modCtx c k fun t => { t with stack := ((t.stack.set 0 (.value r.frame)).set 1 (.value r.join)).set 2 (.value r.flags) }
      s.within c k fun s =>
        let bad := wbits r.flags 0 2 != 0 || wbits r.flags 4 12 != 0
        if bad then s.takeTrap { cause := .bounds, noWord := true } else s.acquired .pkg
    | _, _ => s

def execRecordPop (c : CoreId) (s : State) : Out := .next (s.popRecord c)

/-- The victims of a thief in order: its cluster, its die, the other dies (R251). -/
def victims (c : CoreId) (xsteal : Bool) : List CoreId :=
  let own := c.val
  let clu (k : Nat) : List Nat := (List.range 8).map fun i => k * 8 + i
  let first := (List.range 7).map fun i => own / 8 * 8 + (own + i + 1) % 8
  let die := (List.range 15).flatMap fun i => clu (own / 128 * 16 + (own / 8 + i + 1) % 16)
  let rest := if xsteal then (List.range 7).flatMap fun i => (List.range 128).map fun j => (own / 128 + i + 1) % 8 * 128 + j else []
  (first ++ die ++ rest).map coreOf

/-- Whether a thief's position lets it take a record (R245, R252). -/
def Record.takeable (r : Record) (thief : CoreId) : Bool :=
  match wbits r.flags 2 2 with
  | 0 => true
  | 1 => r.origin / 128 == thief.val / 128
  | 2 => r.origin / 8 == thief.val / 8
  | _ => false

/-- The oldest records of a list that a test accepts, at most n, and those that stay. -/
def takeOldest (p : Record → Bool) (n : Nat) (l : List Record) : List Record × List Record :=
  match l with
  | [] => ([], [])
  | r :: rest =>
    match n with
    | 0 => ([], l)
    | m + 1 =>
      if p r then let q := takeOldest p m rest; (r :: q.1, q.2)
      else let q := takeOldest p (m + 1) rest; (q.1, r :: q.2)

/-- Records move from a victim to a thief (R252, R254). -/
def State.steal (s : State) (thief victim : CoreId) : State :=
  if s.pathHeld thief victim then s else
  let v := s.core victim
  let n := (v.ext ++ v.queue).countP fun r => r.takeable thief
  let want := min 32 ((n + 1) / 2)
  let (a, ext) := takeOldest (fun r => r.takeable thief) want v.ext
  let (b, queue) := takeOldest (fun r => r.takeable thief) (want - a.length) v.queue
  let got := a ++ b
  let left := ({ v with ext, queue, sent := v.sent + word got.length }).refill
  match s.queueWait victim left with
  | some s' => s'
  | none =>
  let s := s.setQueue victim left
  s.modCore thief fun x => { x with queue := x.queue ++ got, rcvd := x.rcvd + word got.length, stealAt := none }

/-- Whether a core's next sweep may start: 512 core cycles after one that found nothing (R252). -/
def State.sweepDue (s : State) (c : CoreId) : Bool :=
  match (s.core c).stealAt with
  | some n => decide (n ≤ s.cycleOf c)
  | none => true

/-- A sweep of the permitted victims (R251, R252). -/
def State.stealSweep (s : State) (c : CoreId) : State :=
  match s.launchOf c with
  | none => s
  | some l =>
    let x := s.core c
    if l.phase != .live || l.stopping || l.desc.nosteal || !x.queue.isEmpty || !x.ext.isEmpty || (x.freeHelper l.desc.hl).isNone || !s.sweepDue c then s
    else
      match (victims c l.desc.xsteal).find? fun v =>
          s.boundTo v l && ((s.core v).ext ++ (s.core v).queue).any fun r => r.takeable c with
      | some v => s.steal c v
      | none => s.modCore c fun x => { x with stealAt := some (s.cycleOf c + 512) }

def execStealSweep (c : CoreId) (s : State) : Out := .next (s.stealSweep c)

/-- A sleeping context is ready again: the place it watches was written, or its event came (R120, R145, R240). -/
def Ctx.wake (t : Ctx) : Ctx :=
  match t.run with
  | .asleep => { t with run := .ready }
  | .listening => { t with run := .ready }
  | _ => t

def execSleepWake (c : CoreId) (k : SlotId) (s : State) : Out := .next (s.modCtx c k Ctx.wake)

/-- 4,096 core cycles of sleep have passed (R120), which none do while the die's clock stands still (R422); a `wfe` latches event 3 at
it, and no other sleep does (R240). -/
def execWaitTimeout (c : CoreId) (k : SlotId) (s : State) : Out :=
  .next <| if s.frozen c then s else match (s.ctx c k).run with
    | .listening => (s.modCore c fun x => x.latchBit k 3).modCtx c k Ctx.wake
    | .asleep => s.modCtx c k Ctx.wake
    | _ => s

/-- 256 core cycles of `realign` have passed: the context goes on (R114, R422). -/
def execRealignTimeout (c : CoreId) (k : SlotId) (s : State) : Out :=
  .next <| if s.frozen c then s else match (s.ctx c k).run with
    | .realign next => s.modCtx c k fun t => { t with pc := next, run := .ready }
    | _ => s

end Sys2Proof.Machine
end

