-- ==== Sys2Proof/Machine/Rings.lean ====
section
/-! DEFINITION. Completion rings (R275, R276). -/

namespace Sys2Proof.Machine

/-- A completion record (R276). -/
def completionRecord (status cause job slot bytes : Nat) (addr : Word) (stamp : Nat) : List Byte :=
  leBytes 1 status ++ leBytes 1 cause ++ leBytes 2 job ++ leBytes 1 slot ++ leBytes 3 0 ++ leBytes 8 (bytes % 2 ^ 48)
    ++ leBytes 8 addr.toNat ++ leBytes 8 stamp

/-- The 64-bit number at addresses. -/
def State.num (s : State) (ks : List Nat) : Nat := leNat (s.bytesAt ks)

/-- The n addresses from place i of a list. -/
def cut (ks : List Nat) (i n : Nat) : List Nat := (ks.drop i).take n

/-- A record added to the ring whose header lies at an offset of a core's G window, or counted in LOST; a header that
cannot be read takes nothing (R237, R275). -/
def State.ringAdd (s : State) (c : CoreId) (off : Nat) (rec : List Byte) : State :=
  match s.launchOf c with
  | none => s
  | some l =>
    match s.windowKeys c l .G off 64 with
    | none => s
    | some h =>
      if s.poisoned h then s else
      let base := s.num (cut h 0 4)
      let slots := s.num (cut h 4 4)
      let prod := s.num (cut h 8 8)
      let cons := s.num (cut h 16 8)
      let lost (s : State) : State := s.write none (cut h 24 8) (leBytes 8 (s.num (cut h 24 8) + 1))
      let ok := decide ((prod + 2 ^ 64 - cons) % 2 ^ 64 < slots) && decide (1 ≤ slots) && decide (slots ≤ 4096)
        && base % 32 == 0 && l.rangeOk .G base (32 * slots)
      if !ok then lost s
      else
        match s.windowKeys c l .G (base + 32 * (prod % slots)) 32 with
        | none => lost s
        | some ks =>
          let s := s.engineWrite ks rec []
          let s := s.write none (cut h 8 8) (leBytes 8 (prod + 1))
          s.modCore c fun x => (List.finRange 11).foldl (fun x k => x.latchBit k 2) x

end Sys2Proof.Machine
end

