-- ==== Sys2Proof/Machine/Messages.lean ====
section
/-! DEFINITION. Channels and messages (R219 to R224). -/

namespace Sys2Proof.Machine

/-- The declaration of an outbound channel, which every core of the launch applies (R219). -/
def Launch.chan (l : Launch) (ch : Fin 16) : Option ChanDecl := l.chans.find? fun d => d.ch == ch

/-- Whether an inbound channel is declared at a rank: some core's outbound channel of that number names it (R219). -/
def Launch.inbound (l : Launch) (ch : Fin 16) (rank : Nat) : Bool := l.chans.any fun d => d.ch == ch && d.rank == rank

/-- Whether the owner of an aperture refuses an access of 64 bytes under order 1 (R127, R266). -/
def State.apertureWindow (s : State) (k : AKind) (ea : Word) : Bool :=
  let l := s.myLaunch
  match s.walk l ea with
  | .ok f =>
    match placeOf s.pm l.part (f.addr ea) with
    | .lm c w off => (match s.apertureKeys l k c w off 64 ea with | .error (.fault c _) => c == .window | _ => false)
    | _ => false
  | .error _ => false

/-- Order 1 of R127 for the 64 bytes of a payload or a record: W and C are refused, as are the hidden range of a shadow pair and what an
aperture's owner refuses (R215, R220, R223, R228, R266, R277). -/
def State.messageWindow (s : State) (k : AKind) (w : Win) (ea : Word) : Res Unit :=
  let l := s.myLaunch
  let off := ea.toNat
  check (if w = .glob then !s.apertureWindow k ea
    else (w == .A || w == .G) && decide (off < l.split.size w)
      && (s.windowKeys s.cur l w off (min 64 (l.split.size w - off))).isSome) .window ea

/-- The 64 bytes that an instruction reads at EA: W and C are refused, the access is checked under orders 1 to 9
(R215, R220, R228). -/
def State.read64 (s : State) (w : Win) (ea : Word) : Res (State × List Byte) := do
  s.messageWindow .load w ea
  let (s, a) ← s.loadAcc w ea 64
  .ok (s, s.readAcc a 64)

def Core.modChan (x : Core) (ch : Fin 16) (f : Channel → Channel) : Core :=
  { x with chans := x.chans.set ch.val (f (x.chans.get ch)) ch.isLt }

/-- `msend` (R220). -/
def State.msendOp (s : State) (sc : Scope) (w : Win) (imm : BitVec 24) (chk : Bool) (base : Src) (ch : Fin 16) (lit : Word)
    (len : Nat) : Res State := do
  let b ← s.use1 lit base
  s.messageWindow .load w (ea2 b imm)
  let l := s.myLaunch
  match l.chan ch with
  | none => trap .bounds (ea2 b imm)
  | some d => do
    let h := s.myCore.chans.get ch
    if chk && h.nak then
      .error (.trapAt { cause := .deadLetter } (s.modCore s.cur fun x => x.modChan ch fun h => { h with nak := false }))
    else
      waitFor (decide (h.buffer.length < 4))
      let s ← s.release sc
      let (s, data) ← s.read64 w (ea2 b imm)
      let m : Message := { payload := data, src := s.cur.val, srcCh := ch, lcore := s.myCore.rank, srcSlot := s.slot,
                           launch := s.myCore.launch.getD 0, slot := d.slot, gen := 0 }
      .ok ((s.modCore s.cur fun x => x.modChan ch fun h => { h with buffer := h.buffer ++ [m] }).advance len)

def execMsend (base : Src) (ch : Fin 16) (s : State) : Out := complete s (s.msendOp .thr .glob 0 false base ch 0 4)

def execMsendX (f : Form) (sc : Scope) (w : Win) (imm : BitVec 24) (chk : Bool) (base : Src) (ch : Fin 16) (s : State) : Out :=
  complete s (s.msendOp sc w imm chk base ch f.value (formBytes f))

/-- The core that an outbound channel of a core names. -/
def State.chanDst (s : State) (c : CoreId) (ch : Fin 16) : Option (CoreId × ChanDecl) :=
  match s.launchOf c with
  | none => none
  | some l =>
    match l.chan ch with
    | none => none
    | some d => (l.cores[d.rank]?).map fun n => (coreOf n, d)

/-- The oldest buffered message of a core's outbound channel leaves, once a receive slot is granted; it takes the
destination slot's generation (R221). One to another die waits for a change sequence of either (R426). -/
def State.sendMessage (s : State) (c : CoreId) (ch : Fin 16) : State :=
  let h := (s.core c).chans.get ch
  match s.chanDst c ch, h.buffer with
  | some (dst, d), m :: rest =>
    if h.inUse < d.slots ∧ s.pathHeld c dst = false then
      let m := { m with gen := ((s.core dst).ctx d.slot).gen }
      s.modCore c fun x =>
        { x.modChan ch (fun h => { h with buffer := rest, flight := h.flight ++ [m], inUse := h.inUse + 1 }) with
          sent := x.sent + 1 }
    else s
  | _, _ => s

def execMessageSend (c : CoreId) (ch : Fin 16) (s : State) : Out := .next (s.sendMessage c ch)

/-- The oldest message in flight of a core's outbound channel arrives, or is a dead letter (R221, R222, R240); `bad` says that its
payload does not match its check (R431). -/
def State.arriveMessage (s : State) (c : CoreId) (ch : Fin 16) (bad : Bool := false) : State :=
  let h := (s.core c).chans.get ch
  match s.chanDst c ch, h.flight with
  | some (dst, _), m :: rest =>
    let s := s.modCore c fun x => x.modChan ch fun h => { h with flight := rest }
    let s := s.modCore dst fun x => { x with rcvd := x.rcvd + 1 }
    let x := s.core dst
    let t := x.ctx m.slot
    if t.live && t.gen == m.gen && x.launch == some m.launch then
      s.modCore dst fun x => ({ x with inbox := x.inbox ++ [(ch, { m with bad := m.bad || bad })] }).latchBit m.slot 0
    else s.deadLetter dst m
  | _, _ => s

def execMessageArrival (m : Landing) (ch : Fin 16) (s : State) : Out := .next (s.arriveMessage m.core ch m.bad)

/-- A negative acknowledgement arrives: it sets the NAK bit, and writes a record where `MSG.RING` is enabled (R222,
R237). -/
def State.arriveNak (s : State) (c : CoreId) (ch : Fin 16) : State :=
  -- One for a pre-empted launch waits (R383).
  let away (n : Nak) : Bool := (s.findLaunch (s.partOf c) n.launch).any (·.phase == .preempted)
  match s.naks.find? fun n => n.dst == c.val && n.ch == ch && !away n with
  | none => s
  | some n =>
    let s := { s with naks := s.naks.erase n }
    if (s.core c).launch ≠ some n.launch then s
    else
      let s := s.modCore c fun x => { x.modChan ch (fun h => { h with nak := true }) with rcvd := x.rcvd + 1 }
      let r := (s.core c).msgRing
      if wbits r 63 1 = 1 then
        s.ringAdd c (wbits r 0 20) (completionRecord 3 0 ch.val 0 0 0 (s.timeAt c))
      else s

def execNakArrival (c : CoreId) (ch : Fin 16) (s : State) : Out := .next (s.arriveNak c ch)

/-! ## Receiving -/

/-- The oldest message of an inbound channel for a slot. -/
def Core.nextMessage (x : Core) (ch : Fin 16) (k : SlotId) : Option (Fin 16 × Message) :=
  x.inbox.find? fun p => p.1 == ch && p.2.slot == k

/-- What a receive writes to its destination (R223). -/
def Message.sender (m : Message) : Word := word (m.lcore * 256 + m.srcSlot.val)

/-- A message leaves its receive slot (R221, R223). -/
def State.takeMessage (s : State) (c : CoreId) (p : Fin 16 × Message) : State :=
  (s.modCore c fun x => { x with inbox := x.inbox.erase p }).freeSlot p.2

/-- A payload written by a receive; one that came bad leaves its granules poisoned (R223, R431). -/
def State.putPayload (s : State) (a : Acc) (m : Message) : State :=
  let t := s.write s.self a.keys m.payload
  if m.bad then t.poisonGranules (a.keys.map (· / 32)).dedup else t

/-- The executing context takes a message: orders 1 to 9 of its payload's store, then the write (R223). -/
def State.storeMessage (s : State) (w : Win) (ea : Word) (p : Fin 16 × Message) : Res State := do
  let (s, a) ← s.storeAcc .store w ea 64
  .ok ((match a.place with
    | .dev _ => s.putPayload a p.2
    | .host _ => s.putPayload a p.2
    | .lm .. => s.putPayload a p.2
    | _ => s).takeMessage s.cur p)

/-- Orders 1 to 4 of R127 at the issue of a receive, the channel's among them (R219, R223). -/
def State.recvCheck (s : State) (w : Win) (ea : Word) (ch : Fin 16) : Res Unit := do
  s.messageWindow .store w ea
  check (s.myLaunch.inbound ch s.myCore.rank) .bounds ea
  match w with
  | .glob => check (ea.toNat % 64 == 0) .align ea
  | _ => do
    let _ ← s.precise (s.ownWindow s.myLaunch .store w ea 64 64)
    .ok ()

/-- `mrecv`: receives take messages in program order, so one without `.d` waits for every earlier one (R223). -/
def State.mrecvOp (s : State) (sc : Scope) (w : Win) (imm : BitVec 24) (dv : Bool) (d : Dst) (base : Src) (ch : Fin 16)
    (lit : Word) (len : Nat) : Res State := do
  let b ← s.use1 lit base
  let ea := ea2 b imm
  s.recvCheck w ea ch
  if dv then do
    let (s, r) ← s.alloc
    .ok (((s.modMe fun t => { t with drecvs := t.drecvs ++ [{ ref := r, ch, sc, win := w, ea }] }).put d r.pure).advance len)
  else do
    s.acquireGate sc
    if !s.me.drecvs.isEmpty then .error .sleep else
    match s.myCore.nextMessage ch s.slot with
    | none => .error .sleep
    | some p => do
      let s ← s.storeMessage w ea p
      .ok ((s.result d p.2.sender [] len).acquired sc)

def execMrecv (d : Dst) (base : Src) (ch : Fin 16) (s : State) : Out := complete s (s.mrecvOp .thr .glob 0 false d base ch 0 4)

def execMrecvX (f : Form) (sc : Scope) (w : Win) (imm : BitVec 24) (dv : Bool) (d : Dst) (base : Src) (ch : Fin 16)
    (s : State) : Out :=
  complete s (s.mrecvOp sc w imm dv d base ch f.value (formBytes f))

/-- The oldest deferred receive of the executing context takes its message, once one has arrived, and is then an acquire (R223). -/
def State.deferredReceive (s : State) : State :=
  match s.me.drecvs with
  | [] => s
  | r :: _ =>
    match s.myCore.nextMessage r.ch s.slot with
    | none => s
    | some p =>
      let drop (s : State) : State := s.modMe fun t => { t with drecvs := t.drecvs.erase r }
      let fail (a : Word) : State :=
        let s := (drop s).modCore s.cur fun x => { x with inbox := x.inbox.erase p }
        (s.deadLetter s.cur p.2).faultSym s.cur r.ref a
      match (do s.acquireGate r.sc; s.storeMessage r.win r.ea p : Res State) with
      | .ok s' => ((drop s').deliver s'.cur r.ref p.2.sender).acquired r.sc
      | .error (.trap t) => fail t.addr
      | .error (.trapAt t _) => fail t.addr
      | .error (.touch s') => s'
      | .error _ => s

def execDeferredReceive (c : CoreId) (k : SlotId) (s : State) : Out := .next (s.within c k State.deferredReceive)

/-- `mprobe` (R224). -/
def State.mprobeOp (s : State) (d : Dst) (ch : Fin 16) : Res State := do
  check (s.myLaunch.inbound ch s.myCore.rank) .bounds
  let n := s.myCore.inbox.countP fun p => p.1 == ch && p.2.slot == s.slot
  let claimed := s.me.drecvs.countP fun r => r.ch == ch
  .ok (s.result d (word (n - claimed)) [] 4)

def execMprobe (d : Dst) (ch : Fin 16) (s : State) : Out := complete s (s.mprobeOp d ch)

end Sys2Proof.Machine
end

