-- ==== Sys2Proof/Machine/Drill.lean ====
section
/-! DEFINITION. Drill jobs: `djob`, `rbind`, `rfree` and the steps of the drill (R215 to R218, R268 to R279). -/

namespace Sys2Proof.Machine

/-! ## Submitting -/

/-- `djob` (R215). -/
def State.djobOp (s : State) (w : Win) (imm : BitVec 24) (d : Dst) (base : Src) (lit : Word) (len : Nat) : Res State := do
  let b ← s.use1 lit base
  let ea := ea2 b imm
  waitFor s.myCore.jobRoom
  s.symGate
  let s ← s.release .clu
  let (s, rec') ← s.read64 w ea
  check (s.layoutOk s.cur s.myLaunch rec') .bounds ea
  let (s, r) ← s.alloc
  .ok (((s.acceptJob s.cur rec' (some s.slot) (some r) none).put d r.pure).advance len)

def execDjob (d : Dst) (base : Src) (s : State) : Out := complete s (s.djobOp .glob 0 d base 0 4)

def execDjobX (f : Form) (w : Win) (imm : BitVec 24) (d : Dst) (base : Src) (s : State) : Out :=
  complete s (s.djobOp w imm d base f.value (formBytes f))

/-- Whether a range overlaps an entry that is not FREE (R217). -/
def Core.regionOverlap (x : Core) (w : Win) (off n : Nat) : Bool :=
  x.regions.toList.any fun r => r.phase != .free && r.win == w && decide (off < r.off + r.len) && decide (r.off < off + n)

/-- `rbind`: checks 1 to 4 of R217, then the lowest FREE entry. -/
def State.rbindOp (s : State) (w : Win) (imm : BitVec 24) (d : Dst) (base range : Src) (lit : Word) (len : Nat) : Res State := do
  let (b, r) ← s.use2 lit base range
  let ea := ea2 b imm
  let n := wbits r 24 20
  let off := wbits r 0 20
  let win := winOf (wbits r 20 3)
  check (wbits r 44 20 == 0 && wbits r 23 1 == 0 && n != 0 && n % 64 == 0 && off % 64 == 0 && win != .glob) .bounds
  check (win != .C && decide (off + n ≤ s.myLaunch.split.size win)) .window
  check (!s.myCore.regionOverlap win off n) .bounds
  let s ← s.release .clu
  let (s, rec') ← s.read64 w ea
  check (s.layoutOk s.cur s.myLaunch rec') .bounds ea
  match (List.finRange 16).find? fun i => (s.myCore.regions.get i).phase == .free with
  | none => .ok (s.result d (BitVec.ofInt 64 (-1)) [] len)
  | some i =>
    let s := s.modCore s.cur fun x => x.modRegion i fun _ => { phase := .absent, win, off, len := n, record := rec' }
    .ok (s.result d (word i.val) [] len)

def execRbind (d : Dst) (base range : Src) (s : State) : Out := complete s (s.rbindOp .glob 0 d base range 0 4)

def execRbindX (f : Form) (w : Win) (imm : BitVec 24) (d : Dst) (base range : Src) (s : State) : Out :=
  complete s (s.rbindOp w imm d base range f.value (formBytes f))

/-- An entry of the region table released: at once, or when its job has ended (R218). -/
def Region.released (r : Region) : Region :=
  match r.phase with
  | .copying => { r with freeAfter := true }
  | _ => {}

/-- `rfree` (R218). -/
def State.rfreeOp (s : State) (idx : Src) (lit : Word) (len : Nat) : Res State := do
  let i ← s.use1 lit idx
  if h : i.toNat < 16 then .ok ((s.modCore s.cur fun x => x.modRegion ⟨i.toNat, h⟩ Region.released).advance len)
  else trap .bounds

def execRfree (lit : Option Word) (idx : Src) (s : State) : Out := complete s (s.rfreeOp idx (litVal lit) (litBytes lit))

/-! ## Places of a stream -/

/-- A run of the source stream inside one row: its offset in the stream, its row, its place in the row and its length. -/
structure Seg where
  at_ : Nat
  row : Nat
  col : Nat
  n : Nat
  deriving DecidableEq, Repr

/-- The runs of n bytes of the stream from an offset, cut at row ends; `fuel` bounds their number. -/
def Layout.segs (x : Layout) (fuel lo n : Nat) : List Seg :=
  match fuel with
  | 0 => []
  | fuel + 1 =>
    if n = 0 then [] else
    let col := lo % x.rlen
    let m := min n (x.rlen - col)
    { at_ := lo, row := lo / x.rlen, col, n := m } :: x.segs fuel (lo + m) (n - m)

/-- A range of addresses cut at multiples of 32: offset in the range, and length. -/
def granuleCuts (fuel a i n : Nat) : List (Nat × Nat) :=
  match fuel with
  | 0 => []
  | fuel + 1 =>
    if n = 0 then [] else
    let m := min n (32 - a % 32)
    (i, m) :: granuleCuts fuel (a + m) (i + m) (n - m)

/-- Checked accesses to n bytes of global memory by an engine (R127, R266, R371). -/
def State.globalRuns (s : State) (l : Launch) (k : AKind) (va : Word) (n : Nat)
    (chk : Word → Except AccErr Acc → Except AccErr Acc := fun _ r => r) : Except AccErr (List Acc) :=
  (granuleCuts n va.toNat 0 n).foldlM (fun l' p => do
    let a := va + word p.1
    let acc ← chk a (s.global l k a p.2)
    -- Headland registers hold no bytes of memory: they read 0 and take nothing.
    .ok (l' ++ [{ acc with keys := if acc.keys.isEmpty then List.replicate p.2 headBase else acc.keys }])) []

/-- Bytes of a window of a core that an engine reaches; a hidden range is refused with WINDOW (R277). -/
def State.windowRun (s : State) (l : Launch) (c : CoreId) (w : Win) (off n : Nat) : Except AccErr (List Acc) :=
  match s.windowKeys c l w off n with
  | some ks => .ok [{ keys := ks, place := .lm c (some w) off }]
  | none => .error (.fault .window (word off))

/-- Where a run of the source stream lies (R269, R278). -/
def State.srcRuns (s : State) (l : Launch) (c : CoreId) (j : Job) (g : Seg) : Except AccErr (List Acc) :=
  let x := j.layout
  if x.cbc then
    match l.cbDecl x.cbh with
    | some d => s.windowRun l c d.win (j.cbSlot + g.at_) g.n
    | none => .error (.fault .window 0)
  else if x.srcSp = 0 then s.globalRuns l .dread (x.src + word (g.row * x.spitch + g.col)) g.n
  else s.windowRun l c (winOf x.srcSp) (x.src.toNat + g.row * x.spitch + g.col) g.n

/-- A run cut at the distributor's blocks (R272): offset in the run, and length. -/
def blockCuts (fuel b a i n : Nat) : List (Nat × Nat) :=
  match fuel with
  | 0 => []
  | fuel + 1 =>
    if n = 0 then [] else
    let m := min n (b - a % b)
    (i, m) :: blockCuts fuel b (a + m) (i + m) (n - m)

/-- Where a run of the stream is written, once for each receiver, in order; each place names the run's bytes it takes, as
an offset and a length (R269 to R273, R277, R278). -/
def State.dstRuns (s : State) (l : Launch) (c : CoreId) (j : Job) (g : Seg) : Except AccErr (List (Nat × List Acc)) :=
  let x := j.layout
  let off := x.dst.toNat + g.row * x.dpitch + g.col
  if x.dist then
    let b := 64 * x.blk
    (blockCuts g.n b g.at_ 0 g.n).foldlM (fun out p => do
      let o := g.at_ + p.1
      let blk := o / b
      let as ← s.windowRun l (x.listCore c (blk % x.ncy)) (winOf x.dstSp) (x.dst.toNat + blk / x.ncy * b + o % b) p.2
      .ok (out ++ [(p.1, as)])) []
  else if x.mcast then
    match l.group x.grp with
    | none => .ok []
    | some m => m.foldlM (fun out k => do
        let as ← s.windowRun l k (winOf x.dstSp) off g.n
        .ok (out ++ [(0, as)])) []
  else if x.cbp then
    match l.cbDecl x.cbh with
    | some d => (s.windowRun l c d.win (j.cbSlot + g.at_) g.n).map fun as => [(0, as)]
    | none => .error (.fault .window 0)
  else
    match x.dstSp with
    | 0 => (s.globalRuns l .dwrite (x.dst + word (g.row * x.dpitch + g.col)) g.n).map fun as => [(0, as)]
    | 5 =>
      match l.pair x.didx with
      | some p =>
        .ok [(0, [{ keys := pairKeys c p (!(s.core c).vis.get p.pair) off g.n, place := .lm c (some p.win) off }])]
      | none => .error (.fault .window 0)
    | 6 =>
      if s.poisoned (s.descAcc l x.didx).keys then .error (.fault .poison (l.bdtVa + word (32 * x.didx))) else
      let d := s.desc l x.didx
      let va := withTag (d.shadow + word off) d.tag
      if d.length < off + g.n then .error (.fault .bounds va)
      else (s.globalRuns l .dwrite va g.n fun a r => descPerm d.wr a r).map fun as => [(0, as)]
    | _ => (s.windowRun l c (winOf x.dstSp) off g.n).map fun as => [(0, as)]

/-! ## Steps of the drill -/

def Core.modJob (x : Core) (f : Job → Job) : Core :=
  match x.jobs with
  | [] => x
  | j :: rest => { x with jobs := f j :: rest }

/-- The next job of a core starts; with CBP it waits for a free slot, with CBC for a filled one (R268, R278). -/
def State.jobStart (s : State) (c : CoreId) : State :=
  match (s.core c).jobs, s.launchOf c with
  | j :: _, some l =>
    if j.phase != .queued || l.phase != .live then s
    else
      let b := (s.core c).cbs.get j.layout.cbh
      match (if j.layout.cbp || j.layout.cbc then l.cbDecl j.layout.cbh else none) with
      | none => s.modCore c fun x => x.modJob fun j => { j with phase := .running 0 }
      | some d =>
        if j.layout.cbp && decide (b.filled < d.slots) then
          s.modCore c fun x => x.modJob fun j => { j with phase := .running 0, cbSlot := d.slotAt b.tail }
        else if j.layout.cbc && decide (1 ≤ b.filled) then
          s.modCore c fun x => x.modJob fun j => { j with phase := .running 0, cbSlot := d.slotAt b.head }
        else s
  | _, _ => s

def execDrillJobStart (c : CoreId) (s : State) : Out := .next (s.jobStart c)

/-- The drill or the harrow of a core as a requester at home slices: its accesses are the core's (R282). -/
def From.ofEngine (c : CoreId) : From := { From.ofCore c with engine := true }

/-- The requests that engine accesses need and have not been granted: none, or the state with them sent (R304, R399). -/
def State.engineDemand (s : State) (f : From) (as : List Acc) (r : Req) : Option State :=
  let need := as.filter fun a => (s.demand f a r).isSome
  if need.isEmpty then none else some (need.foldl (fun s a => (s.demand f a r).getD s) s)

/-- The coherent host lines that a list of accesses covers whole. -/
def wholeHostLines (as : List Acc) : List Nat :=
  let ks := as.flatMap fun a => match a.place with | .host _ => if a.coh then a.keys else [] | _ => []
  (linesOf ks).filter fun n => (List.range 64).all fun i => ks.contains (64 * n + i)

/-- Engine accesses reach their homes. A host line that the engine writes whole is not kept (R399). -/
def State.engineArrive (s : State) (f : From) (as : List Acc) (r : Req) : State :=
  let s := as.foldl (fun s a => s.arrive f a r) s
  if r.writes then { s with dir := { s.dir with hosts := (wholeHostLines as).foldl assocDel s.dir.hosts } } else s

/-- The first job of a core changes its phase. -/
def State.jobPhase (s : State) (c : CoreId) (p : JobPhase) : State := s.modCore c fun x => x.modJob fun j => { j with phase := p }

/-- A refusal that a job's access meets: it waits for the host's copy of a table's line, or faults (R274, R276, R304). -/
def State.jobRefused (s : State) (c : CoreId) (e : AccErr) : State :=
  match e with
  | .snoop n => s.sendSnoops [n] false
  | .notPresent a => s.jobPhase c (.faulted .translation a)
  | .fault k a => s.jobPhase c (.faulted k a)

/-- The descriptor that a job writes through, read at its table's home (R294, R369). -/
def State.jobDesc (s : State) (l : Launch) (x : Layout) : List Acc := if x.dstSp = 6 then [s.descAcc l x.didx] else []

/-- A chunk's reads and writes reach their homes, and its bytes move: in full read before any is written (R271). A chunk that fails its
check arrives poisoned (R431). -/
def State.copyChunk (s : State) (c : CoreId) (l : Launch) (j : Job) (src : List (List Acc)) (dst : List (List (Nat × List Acc)))
    (next : JobPhase) (spoiled : Bool := false) : State :=
  let f := From.ofEngine c
  let writes := dst.flatMap fun d => d.flatMap (·.2)
  let data := src.map fun as => as.flatMap fun a => s.bytesAt a.keys
  let bad := src.map fun as => as.flatMap fun a => a.keys.map fun k => s.poison.contains (k / 32)
  let s := (s.engineArrive f (s.jobDesc l j.layout ++ src.flatten) .read).engineArrive f writes .store
  let outs : List (List Nat × List Byte × List Bool) := ((dst.zip data).zip bad).flatMap fun q =>
    q.1.1.map fun d =>
      let ks := d.2.flatMap (·.keys)
      (ks, (q.1.2.drop d.1).take ks.length, (q.2.drop d.1).take ks.length)
  let ks := outs.flatMap (·.1)
  let links := writes.flatMap (s.linksOf c)
  let ports := writes.flatMap s.ncPorts
  let (s, cov) := s.partWrite j.covered ks (outs.flatMap (·.2.1)) (if spoiled then List.replicate ks.length true else outs.flatMap (·.2.2))
  s.modCore c fun x => x.modJob fun j =>
    { j with bytes := j.bytes + ks.length, poisoned := j.poisoned || spoiled || bad.any (·.any id), phase := next, covered := cov,
             wrote := links.foldl (fun l d => addOnce d l) j.wrote, ncWrote := ports.foldl (fun l p => addOnce p l) j.ncWrote }

/-- One chunk of the running job of a core: it is read in full, and written once every place has been checked (R271). -/
def State.moveChunk (s : State) (c : CoreId) (l : Launch) (j : Job) (i : Nat) (spoiled : Bool := false) : State :=
  let lo := 4096 * i
  let n := min 4096 (j.layout.total - lo)
  let segs := j.layout.segs n lo n
  let f := From.ofEngine c
  match s.engineDemand f (s.jobDesc l j.layout) .read with
  | some s' => s'
  | none =>
    match segs.mapM (s.srcRuns l c j), segs.mapM (s.dstRuns l c j) with
    | .error e, _ => s.jobRefused c e
    | _, .error e => s.jobRefused c e
    | .ok src, .ok dst =>
      match s.engineDemand f src.flatten .read, s.engineDemand f (dst.flatMap fun d => d.flatMap (·.2)) .store with
      | some s', _ => s'
      | none, some s' => s'
      | none, none => s.copyChunk c l j src dst (if lo + n < j.layout.total then .running (i + 1) else .copied) spoiled

/-- The core of a cluster whose job moves next: rotation from the core after the one last served (R268). -/
def State.drillNext (s : State) (cl : Fin 128) : Option CoreId :=
  ((List.range 8).map fun i => coreOf (cl.val * 8 + ((s.drillLast.get cl).val + 1 + i) % 8)).find? fun c =>
    match (s.core c).jobs with
    | j :: _ => (match j.phase with | .running _ => true | _ => false) && (match s.launchOf c with | some l => l.phase == .live && !l.stopping | none => false)
    | [] => false

/-- The drill of a core's cluster moves one chunk (R268). -/
def State.drillChunk (s : State) (c : CoreId) (spoiled : Bool := false) : State :=
  let cl : Fin 128 := Fin.ofNat 128 c.cluster
  match s.drillNext cl with
  | none => s
  | some c =>
    let s := { s with drillLast := s.drillLast.set cl.val (Fin.ofNat 8 c.val) cl.isLt }
    match (s.core c).jobs, s.launchOf c with
    | j :: _, some l => (match j.phase with | .running i => s.moveChunk c l j i spoiled | _ => s)
    | _, _ => s

def execDrillChunk (m : Landing) (s : State) : Out := .next (s.drillChunk m.core m.bad)

/-! ## Ends of jobs -/

/-- What a deferred load of a bound range delivers once its copy has ended (R129). -/
def State.settleTouch (s : State) (c : CoreId) (l : Launch) (i : Fin 16) (failed : Option Word) : State :=
  s.modCore c fun x => x.mapCtx fun t => { t with dloads := t.dloads.map fun q =>
    match q.res with
    | .touch e w off ty =>
      if e ≠ i then q else
      match failed with
      | some a => { q with res := .fault a }
      | none =>
        match s.windowKeys c l w off ty.bytes with
        | some ks => { q with res := if s.poisoned ks then .fault (word off) else .value (extend ty (s.num ks)) }
        | none => { q with res := .fault (word off) }
    | _ => q }

/-- A job leaves the drill: its completion record, its region entry, its symbol, and RCVD (R216, R218, R274, R354). -/
def State.endJob (s : State) (c : CoreId) (l : Launch) (j : Job) (status cause : Nat) (failed : Option (Cause × Word)) : State :=
  let addr := (failed.map (·.2)).getD 0
  let slot := match j.slot with | some k => k.val | none => 255
  let s := s.ringAdd c j.layout.ring (completionRecord status cause j.id.toNat slot j.bytes addr (s.timeAt c))
  let s := s.modCore c fun x => { x with jobs := x.jobs.tail, rcvd := x.rcvd + 1 }
  let s := match j.region with
    | none => s
    | some i =>
      let s := s.settleTouch c l i (failed.map (·.2))
      s.modCore c fun x => x.modRegion i fun r =>
        if r.freeAfter then {} else { r with phase := match failed with | some (k, a) => .fault k a | none => .present }
  match j.ref with
  | none => s
  | some r =>
    match failed with
    | some (_, a) => s.faultSym c r a
    | none => s.deliver c r (word (j.id.toNat * 2 ^ 48 + j.bytes % 2 ^ 48))

/-- The barriers that a job updates: core and bytes (R279). -/
def Layout.barriers (x : Layout) (l : Launch) (c : CoreId) : List (CoreId × Nat) :=
  if x.dist then
    ((List.range x.ncy).map (x.listCore c)).dedup.map fun k =>
      (k, ((List.range x.ncy).filter fun i => x.listCore c i == k).foldl (fun n i => n + x.share i) 0)
  else if x.mcast then
    match l.group x.grp with
    | some m => m.map fun k => (k, x.total)
    | none => []
  else [(c, x.total)]

/-- One barrier update; true says that it overran. A poisoned word faults the job (R274, R279). -/
def State.subBarrier (s : State) (l : Launch) (off : Nat) (p : CoreId × Nat) : Except (Cause × Word) (State × Bool) :=
  match s.windowKeys p.1 l .G off 8 with
  | none => .error (.window, word off)
  | some ks =>
    if s.poisoned ks then .error (.poison, word off) else
    let b := Bar.ofNat (s.num ks)
    let (b, ran) := ({ b with pend := b.pend - p.2 } : Bar).test
    let s := s.write none ks (leBytes 8 b.toNat)
    .ok (if ran then s.countAll p.1 [11] else s, ran)

/-- The barrier updates in order; those made before a fault stay made (R274). -/
def State.subBarriers (s : State) (l : Launch) (off : Nat) (ps : List (CoreId × Nat)) (ran : Bool) :
    State × Bool × Option (Cause × Word) :=
  match ps with
  | [] => (s, ran, none)
  | p :: rest =>
    match s.subBarrier l off p with
    | .error e => (s, ran, some e)
    | .ok (s', r) => s'.subBarriers l off rest (ran || r)

/-- The job's flag (R274). An addition reads the flag, and so meets its poison. -/
def State.jobSignal (s : State) (c : CoreId) (l : Launch) (x : Layout) : Except (Cause × Word) State :=
  if !x.sig then .ok s else
  match s.windowKeys c l .G x.flag 8 with
  | none => .error (.window, word x.flag)
  | some ks =>
    if x.sigAdd && s.poisoned ks then .error (.poison, word x.flag)
    else .ok (s.write none ks (leBytes 8 ((if x.sigAdd then s.num ks else 0) + x.sigv)))

/-- Whether a job's signal still has to wait, as a release at `.pkg` or `.sys`, for the tokens behind its writes and, at `.sys`, for the
zero-length reads behind non-coherent ones; and the state with them sent (R274, R289, R399, R426). -/
def State.jobTokens (s : State) (c : CoreId) (j : Job) : Option State :=
  if !j.layout.sig || !s.tokens j.layout.sigScope then none else
  match j.relWait with
  | some 0 => none
  | some _ => some s
  | none =>
    let ports := if j.layout.sigScope = .sys then j.ncWrote else []
    if (addOnce c.die.val j.wrote).any fun d => (s.die d).seq.isSome then some s
    else if j.wrote.isEmpty && ports.isEmpty then none
    else
      some ((s.sendTokens (.job c.val j.serial) j.wrote ports).modCore c fun x => x.modJob fun j =>
        { j with wrote := [], ncWrote := [], relWait := some (j.wrote.length + ports.length) })

/-- A job that has copied ends in the steps of R274, or becomes faulted at step 2 or 3. -/
def State.jobComplete (s : State) (c : CoreId) : State :=
  match (s.core c).jobs, s.launchOf c with
  | j :: _, some l =>
    if j.phase != .copied then s else
    match s.jobTokens c j with
    | some s' => s'
    | none =>
    let x := j.layout
    let (s, ran, err) := if x.bar then s.subBarriers l x.barOff (x.barriers l c) false else (s, false, none)
    match err with
    | some e => s.jobPhase c (.faulted e.1 e.2)
    | none =>
      match s.jobSignal c l x with
      | .error e => s.jobPhase c (.faulted e.1 e.2)
      | .ok s =>
        let s := s.modCore c fun y =>
          let b := y.cbs.get x.cbh
          if x.cbp then y.setCb x.cbh { b with tail := b.tail + 1 }
          else if x.cbc then y.setCb x.cbh { b with head := b.head + 1 } else y
        s.endJob c l j (if ran then 1 else 0) (if j.poisoned then 0x17 else 0) none
  | _, _ => s

def execDrillJobComplete (c : CoreId) (s : State) : Out := .next (s.jobComplete c)

/-- A faulted job ends: its data so far stays, and its record carries FAULT (R274, R276). -/
def State.jobFault (s : State) (c : CoreId) : State :=
  match (s.core c).jobs, s.launchOf c with
  | j :: _, some l =>
    match j.phase with
    | .faulted k a => s.endJob c l j 2 k.code (some (k, a))
    | _ => s
  | _, _ => s

def execDrillJobFault (c : CoreId) (s : State) : Out := .next (s.jobFault c)

end Sys2Proof.Machine
end

