-- ==== Sys2Proof/Machine/HarrowMath.lean ====
section
/-! DEFINITION. The arithmetic of the matrix unit (R58 to R64, R195, R201). -/

namespace Sys2Proof.Machine

/-- What a row counts: EV.7, EV.8 and EV.14 (R65). -/
structure MCount where
  nan : Nat := 0
  ovf : Nat := 0
  placed : Nat := 0
  deriving DecidableEq, Repr

def MCount.add (x y : MCount) : MCount := ⟨x.nan + y.nan, x.ovf + y.ovf, x.placed + y.placed⟩

/-- The exponent of the slab register's least significant bit (R58). -/
def slabExp (fa fw : Fmt) : Int :=
  if fa == .e5m2 && fw == .e5m2 then -4 else if fa == .e5m2 || fw == .e5m2 then -11 else -18

/-- A finite product on the slab's grid, and whether placement changed it (R58). -/
def placeProduct (l : Int) (v : FpVal) : Int × Bool :=
  match v with
  | .fin neg m e =>
    let (n, lost) := if l ≤ e then (m * 2 ^ (e - l).toNat, false) else roundShift .rne neg 0 m (l - e).toNat
    (if neg then -(n : Int) else n, lost)
  | _ => (0, false)

/-- q of a slab of FP8 products, and the products that placement changed; a slab with a special operand or product is
not placed (R58 to R60). -/
def slabFp8 (fa fw : Fmt) (l : List (Nat × Nat)) : Nat × Nat :=
  let vs := l.map fun p => (fa.val p.1, fw.val p.2)
  let ps := vs.map fun p => FpVal.mul p.1 p.2
  let inf (s : Bool) : Bool := ps.any fun p => p == .inf s
  if vs.any (fun p => p.1.isNan || p.2.isNan) || ps.any FpVal.isNan || (inf false && inf true) then (Fmt.f32.nan, 0)
  else if inf false then (Fmt.f32.inf false, 0)
  else if inf true then (Fmt.f32.inf true, 0)
  else
    let g := slabExp fa fw
    let placed := ps.map (placeProduct g)
    let sum := (placed.map (·.1)).sum
    (rne32 (.fin (sum < 0) sum.natAbs g), placed.countP (·.2))

/-- One FP32 operation rounded RNE. -/
def add32 (x y : Nat) : Nat := rne32 (FpVal.add .rne (Fmt.f32.val x) (Fmt.f32.val y))
def mul32 (x y : Nat) : Nat := rne32 (FpVal.mul (Fmt.f32.val x) (Fmt.f32.val y))

/-- One level of the pairwise tree (R61). -/
def treeLevel (l : List Nat) : List Nat :=
  match l with
  | a :: b :: rest => add32 a b :: treeLevel rest
  | l => l

/-- q of a slab of BF16 products, and how many overflow (R61). -/
def slabBf16 (l : List (Nat × Nat)) : Nat × Nat :=
  let ps := l.map fun p => Fmt.f32.pack .rne false 0 (FpVal.mul (Fmt.bf16.val p.1) (Fmt.bf16.val p.2))
  ((treeLevel (treeLevel (treeLevel (treeLevel (treeLevel (ps.map (·.1))))))).headD 0, ps.countP fun p => p.2.contains .overflow)

/-- A slab promoted into acc, and whether acc became infinite from finite inputs (R59, R60). A scale that is not finite gives
NaN whatever q is, as R60 says. -/
def promote (q sa sw acc : Nat) : Nat × Bool :=
  let f := Fmt.f32
  if !(f.val sa).isFin || !(f.val sw).isFin then (f.nan, false) else
  let p := mul32 sa sw
  let r := rne32 (FpVal.fma .rne (f.val q) (f.val p) (f.val acc))
  (r, (f.val r).isInf && (f.val q).isFin && (f.val p).isFin && (f.val acc).isFin)

/-- A slab of one column: its products' operand pairs, activation first, and its two scales. -/
structure Slab where
  prods : List (Nat × Nat)
  sa : Nat
  sw : Nat

/-- One output element from its start value (R58 to R62). `a` and `w` are the formats. -/
def column (a w : Ty) (slabs : List Slab) (acc : Nat) : Nat × MCount :=
  let r := slabs.foldl (fun (x : Nat × MCount) sl =>
    if w == .i8 then
      let sum := (sl.prods.map fun p => bitsInt true 8 p.1 * bitsInt true 8 p.2).sum
      let v := bitsInt true 32 x.1 + sum
      (intBits 32 (satInt 32 v), x.2.add { ovf := if satInt 32 v = v then 0 else 1 })
    else
      let q := if w == .bf16 then slabBf16 sl.prods else slabFp8 (Fmt.ofTy a) (Fmt.ofTy w) sl.prods
      let p := promote q.1 sl.sa sl.sw x.1
      (p.1, x.2.add { ovf := (if w == .bf16 then q.2 else 0) + (if p.2 then 1 else 0), placed := if w == .bf16 then 0 else q.2 }))
    (acc, {})
  (r.1, r.2.add { nan := if w != .i8 && (Fmt.f32.val r.1).isNan then 1 else 0 })

/-- A byte of an array; past its end 0, which no caller reads. -/
def byteAt (x : Array Byte) (i : Nat) : Nat := (x.getD i 0).toNat

def halfAt (x : Array Byte) (i : Nat) : Nat := byteAt x i + 256 * byteAt x (i + 1)

def wordAt (x : Array Byte) (i : Nat) : Nat := halfAt x i + 65536 * halfAt x (i + 2)

/-- A row of 128 output elements (R194, R195): the record, the slab position of each array slab, the offset of the
scales, the bank and the start values. -/
def rowResult (a : Ty) (b : Bank) (rec : Array Byte) (slabs : List Nat) (asof : Nat) (start : List Nat) : List Nat × MCount :=
  let w := b.fmt.getD .i8
  let ws := b.weights.toArray
  let scales := b.scales.toArray
  let wide := w == .bf16
  (List.range 128).foldr (fun n (out : List Nat × MCount) =>
    let col := (List.range slabs.length).map fun j =>
      let p := slabs.getD j 0
      let prods := (List.range 32).map fun k =>
        if wide then (halfAt rec (64 * p + 2 * k), halfAt ws ((32 * j + k) * 256 + 2 * n))
        else (byteAt rec (32 * p + k), byteAt ws ((32 * j + k) * 128 + n))
      ({ prods, sa := wordAt rec (asof + 4 * p), sw := (scales.getD (128 * j + n) 0).toNat } : Slab)
    let r := column a w col (start.getD n 0)
    (r.1 :: out.1, out.2.add r.2)) ([], {})

/-- What the epilogue does to one element before its conversion (R201): `cint` says that C holds INT32. -/
def epiElement (cint : Bool) (scale bias : Option Nat) (act lo hi c : Nat) : Nat :=
  let f := Fmt.f32
  let x := if cint then rne32 (FpVal.ofInt (bitsInt true 32 c)) else c
  let x := match scale with | some k => mul32 x k | none => x
  let x := match bias with | some k => add32 x k | none => x
  let v := f.val x
  if v.isNan then x
  else if act = 1 then (if FpVal.lt (.fin false 0 0) v then x else 0)
  else if act = 2 then rne32 (FpVal.min2 (FpVal.max2 v (f.val lo)) (f.val hi))
  else x

/-- Whether a conversion of the epilogue counts EV.13 (R201). -/
def epiCounts (ev : List FpEvent) : Bool := ev.any fun e => e == .nan || e == .saturate || e == .fp8Nan

/-! ## Reduction cells -/

/-- A cell of a reduction region (R205). -/
structure Cell where
  t : Int
  nan : Bool
  posInf : Bool
  negInf : Bool
  excess : Bool
  n : Nat
  deriving DecidableEq, Repr

def Cell.ofBytes (bs : List Byte) : Cell where
  t := bitsInt true 80 (leNat (bs.take 10))
  nan := (bs.getD 10 0).getLsbD 0
  posInf := (bs.getD 10 0).getLsbD 1
  negInf := (bs.getD 10 0).getLsbD 2
  excess := (bs.getD 10 0).getLsbD 3
  n := leNat ((bs.drop 11).take 3)

def Cell.bytes (c : Cell) : List Byte :=
  leBytes 10 (intBits 80 c.t) ++
  [BitVec.ofNat 8 ((if c.nan then 1 else 0) + (if c.posInf then 2 else 0) + (if c.negInf then 4 else 0) + (if c.excess then 8 else 0))]
    ++ leBytes 3 c.n ++ [0, 0]

/-- An arrival applied to a cell, and whether it counts EV.9 (R64). -/
def Cell.arrive (c : Cell) (E : Int) (m e : BitVec 32) : Cell × Bool :=
  if e = 0x7FFFFFFF then
    if c.nan then (c, false)
    else if m = 1 then (if c.negInf then { c with nan := true, negInf := false } else { c with posInf := true }, false)
    else if m = BitVec.ofInt 32 (-1) then (if c.posInf then { c with nan := true, posInf := false } else { c with negInf := true }, false)
    else ({ c with nan := true, posInf := false, negInf := false }, false)
  else
    let (a, sat) := blockAlign E m.toInt e.toInt
    let n := c.n + 1
    let c := { c with n := min n (2 ^ 24 - 1) }
    if 65536 < n then ({ c with excess := true }, sat) else ({ c with t := c.t + a }, sat)

/-- The FP32 result of a cell and the counter it raises (R64). Exponents past ±400 overflow or vanish alike. -/
def Cell.result (c : Cell) (E : Int) : Nat × List Nat :=
  let f := Fmt.f32
  let num (t : Int) : Nat × List FpEvent := f.pack .rne false 0 (.fin (t < 0) t.natAbs (max (-400) (min 400 E)))
  if c.excess then (f.nan, [9])
  else if c.nan then (f.nan, [7])
  else if c.posInf then (f.inf false, [])
  else if c.negInf then (f.inf true, [])
  else if satInt 64 c.t ≠ c.t then ((num (satInt 64 c.t)).1, [9])
  else
    let r := num c.t
    (r.1, if r.2.contains .overflow then [8] else [])

end Sys2Proof.Machine
end

