-- ==== Sys2Proof/Machine/HarrowCmd.lean ====
section
/-! DEFINITION. Command records of the matrix unit: their checks, `mcmd` and `mqry` (R184, R187, R188, R210). -/

namespace Sys2Proof.Machine

def Core.modHarrow (x : Core) (f : Harrow → Harrow) : Core := { x with harrow := f x.harrow }

def State.modHarrow (s : State) (c : CoreId) (f : Harrow → Harrow) : State := s.modCore c fun x => x.modHarrow f

/-- A TYPE code (R13). -/
def tyCode (n : Nat) : Option Ty := Ty.ofCode (BitVec.ofNat 4 n)

/-- Whether a code is one of those listed. -/
def oneOf (n : Nat) (l : List Nat) : Bool := l.contains n

/-- The runs of bytes 8 to 63 that each command defines (R188). -/
def cmdBytes (op : Nat) : List (Nat × Nat) :=
  match op with
  | 1 => [(8, 9)]
  | 3 => [(8, 13), (24, 6), (32, 4)]
  | 4 => [(8, 13), (24, 6), (32, 4), (40, 8)]
  | 5 => [(8, 38), (48, 16)]
  | 6 => [(8, 8)]
  | 7 => [(8, 13), (22, 2)]
  | 8 => [(8, 7), (16, 4)]
  | 9 => [(8, 7), (16, 4)]
  | 10 => [(8, 4)]
  | _ => []

/-- The FLAGS bits that each command defines, as a number of low bits (R188). -/
def cmdFlagBits (op : Nat) : Nat :=
  match op with
  | 3 => 4
  | 4 => 4
  | 5 => 2
  | 10 => 1
  | _ => 0

/-- A header that R188 accepts. -/
def headerOk (r : List Byte) : Bool :=
  let op := field r 0 1
  decide (1 ≤ op) && decide (op ≤ 10) && field r 1 1 / 2 ^ cmdFlagBits op == 0 && field r 2 2 == 0
    && (List.range 56).all fun i =>
        r.getD (8 + i) 0 == 0 || (cmdBytes op).any fun p => decide (p.1 ≤ 8 + i) && decide (8 + i < p.1 + p.2)

/-- Rows of 128 elements of four bytes in the C window (R193, R200). -/
def Launch.cRows (l : Launch) (off pitch rows : Nat) : Bool :=
  off % 64 == 0 && decide (off < 2 ^ 20) && pitch % 64 == 0 && decide (512 ≤ pitch) && decide (1 ≤ rows)
    && decide (rows ≤ 4096) && l.rowsOk .C off 512 pitch rows

/-- MLDW (R191). -/
def Launch.mldwOk (l : Launch) (r : List Byte) : Bool :=
  let f := field r 16 1
  oneOf f [1, 11, 12, 13] && field r 8 4 % 64 == 0 && decide (field r 8 4 < 2 ^ 20)
    && l.rangeOk .W (field r 8 4) (if f = 11 then 32768 else 16384)
    && (f == 1 || (field r 12 4 % 64 == 0 && decide (field r 12 4 < 2 ^ 20) && l.rangeOk .W (field r 12 4) 2048))

/-- MMUL and MROT (R193). -/
def Launch.mmulOk (l : Launch) (c : CoreId) (r : List Byte) (rot : Bool) : Bool :=
  let aoff := field r 8 4
  let ap := field r 12 2
  let asof := field r 14 2
  let rows := field r 16 2
  let f := field r 18 1
  let gath := fieldBit r 1 1
  let skip := fieldBit r 1 2
  let cb := fieldBit r 1 3
  oneOf f [1, 11, 12, 13] && ap % 16 == 0 && decide (16 ≤ ap) && decide (ap ≤ 4096)
    && (f == 1 || (asof % 16 == 0 && decide (asof + 16 ≤ ap)))
    && l.cRows (field r 24 4) (field r 28 2) rows
    && (if cb then decide (field r 19 1 ≤ 7) else field r 19 1 == 0)
    && (if skip then decide (field r 20 1 ≤ 3) else field r 20 1 == 0)
    && !(gath && cb)
    && (cb || decide (aoff < 2 ^ 20))
    && (gath || cb || l.rowsOk .A aoff ap ap rows)
    && (if gath then field r 32 4 % 4 == 0 && decide (field r 32 4 < 2 ^ 20) && l.rangeOk .G (field r 32 4) (4 * rows)
        else field r 32 4 == 0)
    && (!cb ||
        (match l.cbDecl (Fin.ofNat 8 (field r 19 1)) with
         | some d => d.win == .A && decide (1 ≤ d.size / ap) && rows % (d.size / ap) == 0
         | none => false))
    && (!rot ||
        (!cb && decide (field r 44 1 ≤ 15) && decide (1 ≤ field r 45 1) && decide (field r 45 1 ≤ 16)
          && decide (field r 46 1 ≤ 7) && decide (1 ≤ field r 47 1) && decide (field r 47 1 ≤ 8)
          && decide ((c.col + 16 - field r 44 1) % 16 < field r 45 1) && decide ((c.row + 8 - field r 46 1) % 8 < field r 47 1)
          && decide (field r 40 4 < 2 ^ 20) && l.rangeOk .A (field r 40 4) (rows * ap)))

/-- MEPI (R200). -/
def Launch.mepiOk (l : Launch) (r : List Byte) : Bool :=
  let rows := field r 14 2
  let o := field r 16 1
  let act := field r 17 1
  let rnd := field r 18 1
  let eb := field r 19 1
  let dm := field r 42 1
  let sig := field r 43 1
  let size := match tyCode o with | some t => t.bytes | none => 1
  let lo := Fmt.f32.val (field r 28 4)
  let hi := Fmt.f32.val (field r 32 4)
  let flag := field r 48 8
  l.cRows (field r 8 4) (field r 12 2) rows && oneOf o [1, 3, 9, 10, 11, 12, 13] && decide (act ≤ 2)
    && (decide (rnd ≤ 4) || (rnd == 5 && (o == 12 || o == 13))) && decide (eb < 8)
    && (if act = 2 then !lo.isNan && !hi.isNan && !hi.lt lo else field r 28 8 == 0)
    && (if fieldBit r 1 0 then field r 20 4 % 4 == 0 && decide (field r 20 4 < 2 ^ 20) && l.rangeOk .G (field r 20 4) 512
        else field r 20 4 == 0)
    && (if fieldBit r 1 1 then field r 24 4 % 4 == 0 && decide (field r 24 4 < 2 ^ 20) && l.rangeOk .G (field r 24 4) 512
        else field r 24 4 == 0)
    && decide (dm ≤ 3) && field r 40 2 % 64 == 0 && decide (128 * size ≤ field r 40 2)
    && (dm == 3 || decide (field r 36 4 < 2 ^ 20))
    && (decide (2 ≤ dm) || l.rowsOk (if dm = 0 then .A else .G) (field r 36 4) (128 * size) (field r 40 2) rows)
    && (match dm with
        | 2 =>
          match l.pair (field r 44 2) with
          | some p => l.unhidden p.win (field r 36 4) (extent (128 * size) (field r 40 2) rows)
          | none => false
        | 3 => decide (field r 44 2 ≤ 1023)
        | _ => field r 44 2 == 0)
    && (if fieldBit r 43 3 then
          decide (sig < 64) && decide (sig % 8 ≤ 5) && flag % 8 == 0
            && (fieldBit r 43 5 || (decide (flag < 2 ^ 20) && l.rangeOk .G flag 8))
        else sig == 0 && flag == 0 && field r 56 4 == 0)
    && (fieldBit r 19 1 || field r 60 4 == 0)

/-- The checks of a command record (R210). -/
def State.mcmdOk (s : State) (c : CoreId) (l : Launch) (r : List Byte) : Bool :=
  headerOk r &&
  match field r 0 1 with
  | 1 => l.mldwOk r
  | 2 => true
  | 3 => l.mmulOk c r false
  | 4 => l.mmulOk c r true
  | 5 => l.mepiOk r
  | 6 => l.cRows (field r 8 4) (field r 12 2) (field r 14 2)
  | 7 => l.cRows (field r 8 4) (field r 12 2) (field r 14 2) && decide (field r 16 4 < l.cores.length) && decide (field r 20 1 ≤ 3)
  | 8 => field r 8 4 % 64 == 0 && decide (field r 8 4 < 2 ^ 20) && decide (1 ≤ field r 12 2) && decide (field r 12 2 ≤ 128)
      && decide (field r 14 1 ≤ 3) && l.rangeOk .C (field r 8 4) (2048 * field r 12 2)
  | 9 => field r 8 4 % 64 == 0 && decide (field r 8 4 < 2 ^ 20) && field r 12 2 % 64 == 0 && decide (512 ≤ field r 12 2)
      && decide (field r 14 1 ≤ 3) && decide (1 ≤ field r 16 4) && decide (field r 16 4 ≤ 2 ^ 24)
      && (match (s.core c).harrow.accRows.get (Fin.ofNat 4 (field r 14 1)) with
          | some n => l.rowsOk .C (field r 8 4) 512 (field r 12 2) n
          | none => true)
  | 10 => true
  | _ => false

/-- A command joins the queue, with the writes of SSR that stand before it; an MRACC gives its region's rows (R184, R196,
R207). -/
def Core.queueCmd (x : Core) (q : HCmd) : Core :=
  let h := x.harrow
  let r := q.record
  let acc := if field r 0 1 = 8 then
      (let i := Fin.ofNat 4 (field r 14 1); h.accRows.set i.val (some (field r 12 2)) i.isLt) else h.accRows
  { x with harrow := { h with queue := h.queue ++ [{ q with ssr := x.ssrNext }], accRows := acc }, ssrNext := [] }

/-- Entries of the command queue in use: a command holds its entry until it has completed, so that the sixteen records of R388
hold them all (notes/assumptions 79). -/
def Harrow.entries (h : Harrow) : Nat := h.queue.length + h.running.toList.length + h.retiring.length

/-- `mcmd` (R184). -/
def State.mcmdOp (s : State) (w : Win) (imm : BitVec 24) (d : Dst) (base idx : Src) (lit : Word) (len : Nat) : Res State := do
  let ea ← s.ea3 lit base idx imm
  waitFor (decide (s.myCore.harrow.entries < 16))
  s.symGate
  let s ← s.release .core
  let (s, rec') ← s.read64 w ea
  check (s.mcmdOk s.cur s.myLaunch rec') .matrixCmd ea
  let (s, r) ← s.alloc
  let s := s.put d r.pure
  let s := if s.myCore.harrow.haltStatus.isSome then s.faultSym s.cur r 0
    else s.modCore s.cur fun x => x.queueCmd { record := rec', ref := r, rm := s.me.rm }
  .ok (s.advance len)

def execMcmd (d : Dst) (base idx : Src) (s : State) : Out := complete s (s.mcmdOp .glob 0 d base idx 0 4)

def execMcmdX (f : Form) (w : Win) (imm : BitVec 24) (d : Dst) (base idx : Src) (s : State) : Out :=
  complete s (s.mcmdOp w imm d base idx f.value (formBytes f))

/-- The TYPE code of a bank's format; 0 is EMPTY (R187). -/
def Bank.code (b : Bank) : Nat := match b.fmt with | some t => t.code.toNat | none => 0

def Harrow.activeBank (h : Harrow) : Bank := if h.active then h.bank1 else h.bank0

def Harrow.inactiveBank (h : Harrow) : Bank := if h.active then h.bank0 else h.bank1

/-- A command's header tag (R188). -/
def HCmd.tag (q : HCmd) : Nat := field q.record 4 4

/-- The command that runs: the last that has left the queue and not completed (R187). -/
def Harrow.current (h : Harrow) : Option HRun := match h.running with | some r => some r | none => h.retiring.getLast?

/-- What `mqry` reads (R187). -/
def Harrow.query (h : Harrow) (sel : Nat) : Nat :=
  let bit (b : Bool) (n : Nat) : Nat := if b then 2 ^ n else 0
  match sel with
  | 0 => h.queue.length + bit h.current.isSome 5 + bit h.haltStatus.isSome 6 + bit h.active 7 + h.inactive.code * 2 ^ 8
      + h.activeBank.code * 2 ^ 16 + h.inactiveBank.code * 2 ^ 24
  | 1 => (match h.current with
      | some r => r.cmd.tag * 2 ^ 32 + r.row
      | none => h.lastTag.toNat * 2 ^ 32 + h.cursor.toNat)
  | 2 => h.rotin.toNat
  | 3 => (h.haltStatus.getD 0) + bit h.haltStatus.isSome 8 + h.haltTag.toNat * 2 ^ 32
  | n =>
    let g := h.regions.get (Fin.ofNat 4 n)
    g.received + bit g.isOpen 32

/-- `mqry`; selector 3 with an empty queue ends the halt (R187). -/
def State.mqryOp (s : State) (d : Dst) (sel : Src) (lit : Word) (len : Nat) : Res State := do
  let k ← s.use1 lit sel
  check (decide (k.toNat < 8)) .bounds
  let h := s.myCore.harrow
  let s := if k = 3 ∧ h.haltStatus.isSome ∧ h.queue.isEmpty then
      s.modCore s.cur fun x => { x with harrow := { x.harrow with haltStatus := none, haltTag := 0 } }
    else s
  .ok (s.result d (word (h.query k.toNat)) [] len)

def execMqry (lit : Option Word) (d : Dst) (sel : Src) (s : State) : Out :=
  complete s (s.mqryOp d sel (litVal lit) (litBytes lit))

end Sys2Proof.Machine
end

