-- ==== Sys2Proof/Machine/Homes.lean ====
section
/-! DEFINITION. Steps of the home slices, the caches, the tokens of the die links, the host and the translation caches
(R289, R294 to R305, R367, R394, R395, R399). An address of device memory here is its place in the package's memory
(`Sys2Proof.Machine.devKey`), but for the host's own requests, which name a function and a device address (R395). -/

namespace Sys2Proof.Machine

/-! ## Requests -/

/-- A cluster of a die as a requester. -/
def From.ofCluster (d : DieId) (clu : Fin 16) : From := { die := d.val, cluster := d.val * 16 + clu.val }

/-- The access that a request for the line of an address makes, on a page of a MODE. -/
def lineAcc (key mode : Nat) : Acc := { keys := range (key / 64 * 64) 64, place := .dev (key / 64 * 64), mode }

/-- Whether a place is device memory of a die's partition. -/
def State.ofPartition (s : State) (d : DieId) (key : Nat) : Bool :=
  decide (key < 768 * 2 ^ 30) && key / partSize s.pm == partOfDie s.pm d.val

/-- A request of a cluster is served at its line's home, as it stands alone: a store's or an atomic's bytes are those of
the instruction whose step this is, and that instruction's meaning writes them. A request that needs the host's copy
sends a snoop and is made again (R294, R304). -/
def State.homeRequest (s : State) (d : DieId) (clu : Fin 16) (key mode : Nat) (r : Req) : State :=
  if !s.ofPartition d key then s else
  let a := lineAcc key mode
  let f := From.ofCluster d clu
  match s.demand f a r with
  | some s' => s'
  | none =>
    if (s.dir.line (key / 64)).st = .q then s else
    let s := if r.writes then { s.keepCut a.keys with links := clearLinks s.links none a.keys } else s
    s.arrive f a r

def execHomeRead (d : DieId) (clu : Fin 16) (pa : Nat) (mode : Fin 3) (s : State) : Out := .next (s.homeRequest d clu pa mode.val .read)

def execHomeStore (d : DieId) (clu : Fin 16) (pa : Nat) (mode : Fin 3) (s : State) : Out := .next (s.homeRequest d clu pa mode.val .store)

def execHomeAtomic (d : DieId) (clu : Fin 16) (pa : Nat) (mode : Fin 3) (s : State) : Out :=
  .next (s.homeRequest d clu pa mode.val .perform)

/-- The class of a reduction (R301). -/
def redClass (badd wide : Bool) : RedClass := if badd then .badd else if wide then .add64 else .add32

def execHomeReduction (d : DieId) (clu : Fin 16) (pa : Nat) (mode : Fin 3) (badd wide : Bool) (s : State) : Out :=
  .next (s.homeRequest d clu pa mode.val (.red (redClass badd wide)))

/-! ## Commutative update -/

/-- Whether a line is in state C. -/
def Line.inC (x : Line) : Bool := match x.st with | .c _ => true | _ => false

/-- The next holder of a partial of a line in C receives the merge request and returns its partial (R302). Memory already
holds the sum. -/
def Dir.mergeRequest (d : Dir) (n : Nat) : Dir :=
  if !(d.line n).inC then d else
  { d with merging := addOnce n d.merging,
           partials := match d.partials.find? fun p => p.line == n with | some p => d.partials.erase p | none => d.partials }

def execMergeRequest (pa : Nat) (s : State) : Out := .next (s.modDir fun d => d.mergeRequest (pa / 64))

/-- Every holder has answered: the line moves to I (R302). -/
def Dir.mergeResponse (d : Dir) (n : Nat) : Dir :=
  if d.merging.contains n ∧ (d.line n).inC ∧ !(d.partials.any fun p => p.line == n) then (d.merge n).setLine n {} else d

def execMergeResponse (pa : Nat) (s : State) : Out := .next (s.modDir fun d => d.mergeResponse (pa / 64))

/-- The width of a class's words or cells (R301). -/
def RedClass.bits (k : RedClass) : Nat :=
  match k with
  | .add32 => 32
  | .add64 => 64
  | .badd => 128

/-- The width in which a line's partials are summed (R301). -/
def Line.sumBits (x : Line) : Nat := match x.st with | .c k => k.bits | _ => 128

/-- Two partials of a line in one, word by word, modulo 2^bits (R301). -/
def addSums (bits : Nat) (xs ys : List (Nat × Nat)) : List (Nat × Nat) :=
  ys.foldl (fun l p => assocSet l p.1 ((((assocGet l p.1).getD 0) + p.2) % 2 ^ bits)) xs

/-- A cluster's partial drains into its die's, or on the home die into the home value (R301). -/
def State.partialDrain (s : State) (d : DieId) (clu : Fin 16) (key : Nat) : State :=
  let n := key / 64
  let h := Holder.cluster (d.val * 16 + clu.val)
  match s.dir.partials.find? fun p => p.line == n && p.holder == h with
  | none => s
  | some p => s.modDir fun x =>
    let rest := x.partials.erase p
    if homeDie s.pm key = d.val then { x with partials := rest }
    else
      let old := (rest.find? fun q => q.line == n && q.holder == .die d.val).getD { line := n, holder := .die d.val }
      { x with partials := rest.filter (fun q => !(q.line == n && q.holder == .die d.val)) ++
          [{ old with sums := addSums (x.line n).sumBits old.sums p.sums }] }

def execPartialDrain (d : DieId) (clu : Fin 16) (pa : Nat) (s : State) : Out := .next (s.partialDrain d clu pa)

/-! ## Caches -/

/-- A cluster's copy of a line goes; an M line is written back (R294). -/
def Dir.dropCopy (d : Dir) (cluster n : Nat) : Dir :=
  let x := d.line n
  if !x.clusters.contains cluster then d else
  let cs := x.clusters.filter (· != cluster)
  let st := match x.st with
    | .e => LineSt.i
    | .m => .i
    | .s => if cs.isEmpty && x.dies.isEmpty && !x.host then .i else .s
    | st => st
  d.setLine n { x with st, clusters := cs }

/-- What an eviction of a line does to its tile, if its owner's cluster evicts it (R296). -/
def Tile.evicted (t : Tile) : Tile := match t.st with | .tm => { t with st := .te } | _ => t

/-- A cluster's caches evict a line: its links go, and a dirty host line returns to the host (R133, R296, R399). -/
def State.evictLine (s : State) (d : DieId) (clu : Fin 16) (key : Nat) : State :=
  let n := key / 64
  let cl := d.val * 16 + clu.val
  let s := { s with links := s.links.filter fun x => !(x.1 / 8 == cl && x.2.2 == n) }
  if hostBase ≤ key then
    let k := hostKey (partOfDie s.pm d.val) n
    -- A dirty line needs a port that carries CXL.cache (R393).
    if !s.anyPort false && (assocGet s.dir.hosts k) == some HostSt.m then s else s.returnHost k
  else
    match s.dir.tileOf n with
    | some t => if t.owner / 8 = cl then s.modDir fun x => x.setTile t t.evicted else s
    | none => s.modDir fun x => x.dropCopy cl n

def execCacheEviction (d : DieId) (clu : Fin 16) (pa : Nat) (s : State) : Out := .next (s.evictLine d clu pa)

/-- The counters of the pages that a die homes clear (R299). A page stays known to its home as automatic. -/
def State.clearPages (s : State) (d : DieId) : State := s.modDir fun x =>
  { x with pages := (x.pages.map fun p =>
      if homeDie s.pm (p.1 * 65536) = d.val then (p.1, { p.2 with rr := 0, wr := 0 }) else p) }

def execPageCounterClear (d : DieId) (s : State) : Out := .next (s.clearPages d)

/-! ## Tokens -/

/-- A token of a release has been acknowledged: its releaser waits for one less (R289). -/
def State.acknowledged (s : State) (t : Releaser) : State :=
  match t with
  | .ctx c k => s.modCtx (coreOf c) (Fin.ofNat 11 k) fun x => { x with relWait := x.relWait - 1 }
  | .job c n => s.modCore (coreOf c) fun x =>
      { x with jobs := x.jobs.map fun j => if j.serial = n then { j with relWait := j.relWait.map (· - 1) } else j }
  | .epilogue c n => s.modHarrow (coreOf c) fun h =>
      { h with running := h.running.map fun r => if r.serial = n then { r with relWait := r.relWait.map (· - 1) } else r }

/-- The oldest release token of a link is acknowledged (R289). -/
def State.releaseAck (s : State) (d : DieId) : State :=
  if s.linkHeld d.val then s else
  match (s.die d.val).relTokens with
  | [] => s
  | t :: rest => (s.modDie d.val fun x => { x with relTokens := rest }).acknowledged t

def execReleaseTokenAck (d : DieId) (s : State) : Out := .next (s.releaseAck d)

/-- The oldest acquire token of a link returns (R289). -/
def State.acquireReturn (s : State) (d : DieId) : State :=
  if s.linkHeld d.val then s else
  match (s.die d.val).acqTokens with
  | [] => s
  | t :: rest =>
    (s.modDie d.val fun x => { x with acqTokens := rest }).modCtx (coreOf t.1) (Fin.ofNat 11 t.2)
      fun c => { c with acqWait := false }

def execAcquireTokenReturn (d : DieId) (s : State) : Out := .next (s.acquireReturn d)

/-! ## The host -/

/-- A line after the host has answered a snoop (R304). -/
def Line.snooped (x : Line) (inval : Bool) : Line :=
  if inval then
    let st := match x.st with
      | .ho => LineSt.i
      | .s => if x.clusters.isEmpty && x.dies.isEmpty then .i else .s
      | st => st
    { x with st, host := false }
  else { x with st := if x.st = .ho then .s else x.st, host := true }

/-- The host answers a snoop, with the line's bytes if it held the line modified (R304). -/
def State.snoopAnswer (s : State) (key : Nat) (data : Option (List Byte)) : State :=
  let n := key / 64
  match s.dir.snoops.find? fun p => p.line == n with
  | none => s
  | some p =>
    let x := s.dir.line n
    let ks := range (n * 64) 64
    let s := match data with
      | some bs => if x.st = LineSt.ho ∧ bs.length = 64 then s.engineWrite ks bs [] else s
      | none => s
    s.modDir fun d => { d.setLine n (x.snooped p.inval) with snoops := d.snoops.erase p }

def execBisnpResponse (pa : Nat) (data : Option (List Byte)) (s : State) : Out := .next (s.snoopAnswer pa data)

/-- The place of a device address that the host names through a function, by a port that carries CXL.mem, once memory is active
(R393, R395, R446). -/
def State.hdmKey (s : State) (p pa n : Nat) : Option Nat :=
  if p < partCount s.pm ∧ pa + n ≤ partSize s.pm ∧ s.anyPort false = true ∧ s.memActive = true then some (devKey s.pm p pa) else none

/-- The host as a requester: it is no core and no cluster. -/
def From.ofHost : From := { die := 8, cluster := 128 }

/-- Whether a host write waits: for a change sequence of its home's die, or for room in the shadow reserve (R426, R440). -/
def State.hostHeld (s : State) (p pa n : Nat) : Bool :=
  match s.hdmKey p pa n with
  | some k => s.crossHeld .ofHost (range k n) || s.reserveFull (rangePages k n)
  | none => false

/-- A host read of device memory is served (R294, R395). -/
def State.hostReads (s : State) (p pa n : Nat) : State :=
  match s.hdmKey p pa n with
  | none => s
  | some k =>
    let ks := range k n
    let bad := s.poisoned ks || s.quarantined ks
    let data := s.bytesAt ks
    let s := s.toHome .ofHost .hostRead 0 (linesOf ks)
    { s with out := .hostData pa data bad :: s.out }

/-- Which bytes of a host write leave their granules poisoned: all of them under the marker, and those of a line that is not
written whole where the granule is poisoned already (R433). -/
def State.hostMarks (s : State) (k n : Nat) (bad : Bool) : List Bool :=
  (range k n).map fun a => bad || (!(decide (k ≤ a / 64 * 64) && decide (a / 64 * 64 + 64 ≤ k + n)) && s.poison.contains (a / 32))

/-- A host write, or with no bytes a request for ownership of the line (R294, R304, R433). -/
def State.hostWrites (s : State) (p pa : Nat) (data : List Byte) (bad : Bool) : State :=
  match s.hdmKey p pa data.length with
  | none => s
  | some k =>
    let ks := range k data.length
    -- A line in Q takes no write, and the host receives a poisoned response (R436).
    if s.quarantined (range (k / 64 * 64) 64) || s.quarantined ks then { s with out := .hostData pa [] true :: s.out } else
    let s := s.toHome .ofHost .hostWrite 0 (linesOf (k :: ks))
    s.engineWrite ks data (s.hostMarks k data.length bad)

/-! Host snoops and answers name a line of host memory by 64 times its key: bits [51:0] are the host address, and above them
stands the partition whose function the host addresses (R305, R393). -/

/-- SnpData: the device's copy becomes shared (R399). -/
def State.snpData (s : State) (k : Nat) : State :=
  if (assocGet s.dir.hosts k).isNone then s else (s.snoopData k).modDir fun d => { d with hosts := assocSet d.hosts k .s }

/-- What a host snoop does once no device write to its line is pending: SnpInv takes the device's copy, with the links on it, SnpData
leaves it shared, and SnpCur takes the current bytes alone (R133, R399). -/
def State.takeSnoop (s : State) (k : Nat) (w : HostSnoop) : State :=
  match w with
  | .inv => s.returnHost k
  | .data => s.snpData k
  | .cur => s.snoopData k

/-- Whether a device write to a host line has been granted and not performed (R399). -/
def Dir.writePending (d : Dir) (k : Nat) : Bool := d.granted.any (·.line == k)

/-- A snoop of the host, by a port that carries CXL.cache (R393). One that meets a pending device write waits until it has been
performed (R399). -/
def State.hostSnoop (s : State) (k : Nat) (w : HostSnoop) : State :=
  if !s.anyPort false then s
  else if s.dir.writePending k then s.modDir fun d =>
    { d with hostSnoops := if d.hostSnoops.contains (k, w) then d.hostSnoops else d.hostSnoops ++ [(k, w)] }
  else (s.modDir fun d => { d with hostSnoops := d.hostSnoops.erase (k, w) }).takeSnoop k w

def execSnpinv (pa : Nat) (s : State) : Out := .next (s.hostSnoop (pa / 64) .inv)

def execSnpdata (pa : Nat) (s : State) : Out := .next (s.hostSnoop (pa / 64) .data)

def execSnpcur (pa : Nat) (s : State) : Out := .next (s.hostSnoop (pa / 64) .cur)

/-- Bytes that the host has sent for one of its lines, poisoned where they come so (R394, R399). -/
def State.storeHost (s : State) (k : Nat) (bs : List Byte) (bad : Bool) : State :=
  if bs.length = 64 then s.engineWrite (hostBytes k) bs (List.replicate 64 bad) else s

/-- The device writes that a set of requests was made for are granted (R399). -/
def Dir.grantWrites (d : Dir) (l : List HostReq) : Dir :=
  { d with granted := d.granted ++ (l.filter (·.own)).map fun w => { line := w.line, whole := w.whole, core := w.core } }

/-- A line granted in a state; its bytes are stored if the device did not hold it (R399). -/
def State.grantHost (s : State) (k : Nat) (data : List Byte) (st : HostSt) (bad : Bool) : State :=
  let met (p : HostReq) : Bool := p.line == k && !p.io && !p.whole && (!p.own || st != .s)
  if !(s.dir.wants.any fun p => p.line == k && !p.io && !p.whole) then s else
  let s := if (assocGet s.dir.hosts k).isNone then s.storeHost k data bad else s
  s.modDir fun d => { d.grantWrites (d.wants.filter met) with
    wants := d.wants.filter fun p => !met p, hosts := assocSet d.hosts k st }

/-- The write of a whole line granted without its bytes: the device holds no copy (R399). -/
def State.grantWhole (s : State) (k : Nat) : State :=
  let met (p : HostReq) : Bool := p.line == k && p.whole
  s.modDir fun d => { d.grantWrites (d.wants.filter met) with wants := d.wants.filter fun p => !met p }

/-- A zero-length read on a port has been answered: the oldest release that waits for one there waits for one less (R399). -/
def State.flushed (s : State) (port : Nat) : State :=
  match s.dir.flushes.find? fun p => p.2 == port with
  | none => s
  | some p =>
    let s := s.modDir fun d => { d with flushes := d.flushes.erase p }
    match p.1 with
    | .ctx c k => s.modCtx (coreOf c) (Fin.ofNat 11 k) fun x => { x with ncWait := x.ncWait - 1 }
    | t => s.acknowledged t

/-- A CXL.io read has been answered: the line's bytes are there for one access, or a zero-length read has ended (R399). -/
def State.ioAnswer (s : State) (k : Nat) (data : List Byte) (bad : Bool) : State :=
  if data.isEmpty then s.flushed (s.hostPort true (k * 64))
  else if !(s.dir.wants.any fun p => p.line == k && p.io) then s
  else (s.storeHost k data bad).modDir fun d => { d with
    wants := d.wants.filter (fun p => !(p.line == k && p.io)), answered := addOnce k d.answered }

/-- The host answers a request (R399): `accepted` answers an ItoMWr. -/
def State.hostGrant (s : State) (k : Nat) (a : HostGrant) (bad : Bool) : State :=
  match a with
  | .shared bs => s.grantHost k bs .s bad
  | .exclusive bs => s.grantHost k bs .e bad
  | .owned bs => s.grantHost k bs .m bad
  | .accepted => s.grantWhole k
  | .io bs => s.ioAnswer k bs bad

def execCxlCacheResponse (pa : Nat) (ans : HostGrant) (poison : Bool) (s : State) : Out := .next (s.hostGrant (pa / 64) ans poison)

/-- A request that was outstanding on a port that has gone down completes poisoned (R394). -/
def State.poisonWant (s : State) (w : HostReq) : State :=
  let n := w.line % 2 ^ 46
  let s := s.poisonGranules [2 * n, 2 * n + 1]
  s.modDir fun d =>
    let d := { d with wants := d.wants.erase w }
    if w.io then { d with answered := addOnce w.line d.answered }
    else if w.whole then d.grantWrites [w]
    else { d.grantWrites [w] with hosts := assocSet d.hosts w.line (if w.own then .m else .s) }

/-- A snoop that was outstanding on a port that has gone down: what the host held is lost, and its line poisoned (R394). -/
def State.poisonSnoop (s : State) (w : Snoop) : State :=
  let s := if (s.dir.line w.line).st = .ho then s.poisonGranules [2 * w.line, 2 * w.line + 1] else s
  s.modDir fun d => { d.setLine w.line ((d.line w.line).snooped w.inval) with snoops := d.snoops.erase w }

/-- What a port carried completes poisoned; a zero-length read brings nothing that could be (R394, R399). -/
def State.dropPort (s : State) (p : Nat) (io : Bool) : State :=
  let wants := s.dir.wants.filter fun w => w.port == p && (io || !w.io)
  let snoops := s.dir.snoops.filter fun w => w.port == p
  let n := if io then s.dir.flushes.countP fun f => f.2 == p else 0
  let s := wants.foldl State.poisonWant s
  let s := snoops.foldl State.poisonSnoop s
  (List.replicate n p).foldl State.flushed s

/-- A host port goes down: its outstanding requests complete poisoned (R394). -/
def State.portDown (s : State) (p : Fin 2) : State :=
  if s.hostDown.contains p.val then s else { s.dropPort p.val true with hostDown := addOnce p.val s.hostDown }

def execPortDown (p : Fin 2) (s : State) : Out := .next (s.portDown p)

/-- A host port trains again and takes its share of the interleave (R394); below 32 GT/s of CXL.io traffic only (R393). -/
def execHostPortUp (p : PortRate) (s : State) : Out :=
  .next { s with hostDown := s.hostDown.filter (· != p.port.val)
                 hostIo := if p.slow then addOnce p.port.val s.hostIo else s.hostIo.filter (· != p.port.val) }

/-! ## Shootdown -/

/-- Whether a context holds an access that it has translated and not performed. -/
def Ctx.holdsTranslation (t : Ctx) : Bool := t.vq.any fun o => !o.places.isEmpty

/-- The size of the largest page that can begin at an address (R361). -/
def pageAt (pa : Nat) : Nat := if pa % 2 ^ 29 = 0 then 2 ^ 29 else if pa % 2 ^ 21 = 0 then 2 ^ 21 else 2 ^ 16

/-- The pages of device memory in a range go to memory-side mode, as at a switch: their replicas go, and their counters start
again (R299, R367). -/
def Dir.dropRange (d : Dir) (lo n : Nat) : Dir :=
  { d with
    lines := (d.lines.map fun p =>
      if lo ≤ p.1 * 64 ∧ p.1 * 64 < lo + n then
        (p.1, if p.2.clusters.isEmpty ∧ !p.2.host ∧ p.2.st = .s then ({} : Line) else { p.2 with dies := [] })
      else p).filter fun p => p.2 != {}
    pages := d.pages.map fun p => if lo ≤ p.1 * 65536 ∧ p.1 * 65536 < lo + n then (p.1, {}) else p }

/-- The access that writes an entry of a translation table in a partition's memory (R367). -/
def State.entryAcc (s : State) (p a : Nat) : Acc :=
  let ks := range (devKey s.pm p a) 8
  { keys := ks, place := .dev (ks.headD 0), part := p }

/-- What the writes of some table entries wait for: none, or the state with the snoops they send (R304, R367). -/
def State.entriesWait (s : State) (p : Nat) (tables : List (Nat × Word)) : Option State :=
  tables.findSome? fun e => s.demand .ofHeadland (s.entryAcc p e.1) .store

/-- One entry of a translation table written by the runtime, at the entry's home (R294, R367). A changed leaf may give its pages
another MODE. What pages lie under a changed table is not looked up: every page of the partition is then treated so, which changes no
value (notes/assumptions 78). -/
def State.writeEntry (s : State) (p : Nat) (e : Nat × Word) : State :=
  let a := s.entryAcc p e.1
  let old := leNat (s.bytesAt a.keys)
  let s := (s.arrive .ofHeadland a .store).engineWrite a.keys (leBytes 8 e.2.toNat) []
  if old % 4 = 3 ∧ bitsOf old 57 56 ≠ wbits e.2 56 2 then
    let pa := bitsOf old 51 16 * 2 ^ 16
    s.modDir fun d => d.dropRange (devKey s.pm p pa) (pageAt pa)
  else if old % 4 = 1 ∧ old ≠ e.2.toNat then s.modDir fun d => d.dropRange (devKey s.pm p 0) (partSize s.pm)
  else s

/-- Whether any access translated in a space of a partition has not been performed: a queued vector access, or a write packet that a
former occupant of a core has left there (R367, R391). -/
def State.spaceBusy (s : State) (p space : Nat) : Bool :=
  (s.cores.toList.any fun x => x.strays.any fun w => w.acc.part == p && w.space == space)
    || s.launches.any fun l => l.part == p && l.space == space && l.cores.any fun c =>
      let x := s.core (coreOf c)
      x.launch == some l.id && x.ctxs.toList.any fun t => t.live && t.holdsTranslation

/-- Whether a range lies in one of a list of ranges. -/
def inRanges (rs : List (Nat × Nat)) (a n : Nat) : Bool := rs.any fun r => decide (r.1 ≤ a) && decide (a + n ≤ r.1 + r.2)

/-- Whether mode S may write an entry of a table at a place: the root firmware has granted it for a launch of the space that is bound
(R442). -/
def State.entryGranted (s : State) (p space : Nat) (more : List (Nat × Nat)) (a : Nat) : Bool :=
  inRanges more a 8 || s.launches.any fun l => l.part == p && l.space == space && inRanges l.grants a 8

/-- A shootdown of a space of a partition, which the command processor makes: the runtime's entries stand, in tables that are granted
to it, and every access translated before has been performed (R367, R442, R447). No translation is cached here: every access walks. -/
def State.shootdown (s : State) (p space : Nat) (tables : List (Nat × Word)) : State :=
  if s.spaceBusy p space || !s.scheduling || decide (partCount s.pm ≤ p)
    || tables.any (fun e => decide (partSize s.pm < e.1 + 8) || !s.entryGranted p space [] e.1) then s
  else
    match s.entriesWait p tables with
    | some s' => s'
    | none => tables.foldl (fun s e => s.writeEntry p e) s

def execShootdown (p space : Nat) (tables : List (Nat × Word)) (s : State) : Out := .next (s.shootdown p space tables)

end Sys2Proof.Machine
end

