-- ==== Sys2Proof/Machine/Links.lean ====
section
/-! DEFINITION. Die clocks, die links and synchronised time (R419 to R429), and thermal throttling (R448). -/

namespace Sys2Proof.Machine

/-! ## Requests -/

def execClkFreqWrite (d : DieId) (mode : Mode) (v : Word) (s : State) : Out :=
  .next (if privileged mode then s.modDie d.val fun x => x.writeFreq v else s)

def execLnkCtlWrite (d : DieId) (mode : Mode) (v : Word) (s : State) : Out :=
  .next (if privileged mode then s.modDie d.val fun x => x.writeLink v else s)

/-- A read of LNK.CTL returns it and clears CRCERR (R428); of a party in no such mode it reads 0 and clears nothing (R421). -/
def State.readLink (s : State) (r : RegRead) : State :=
  if privileged r.mode then { s.headTaken (.link r.die) with out := .register (word (s.die r.die.val).linkWord) :: s.out }
  else { s with out := .register 0 :: s.out }

def execLnkCtlRead (r : RegRead) (s : State) : Out := .next (s.readLink r)

/-- A failing lane of one direction: a spare of that direction takes its place; without one the forced width narrows, down to a quarter
(R427, R438). -/
def DieState.laneError (x : DieState) (out : Bool) : DieState :=
  if out ∧ 0 < x.spares then { x with spares := x.spares - 1 }
  else if !out ∧ 0 < x.sparesIn then { x with sparesIn := x.sparesIn - 1 }
  else if x.forced < 2 then { x with forced := x.forced + 1, forcedDue := true } else x

def execLaneError (e : LaneFault) (s : State) : Out := .next (s.modDie e.die.val fun x => x.laneError e.out)

/-! ## The change sequence -/

/-- The next sequence of a die begins its Drain, in the order of R427. -/
def DieState.drain (x : DieState) : DieState :=
  if x.seq.isSome || x.dead then x
  else if x.forcedDue then { x with seq := some {}, forcedDue := false }
  else if x.freqDue.isSome then { x with seq := some { freq := x.freqDue }, freqDue := none }
  else if x.pmwDue then { x with seq := some {} }
  else x

/-- Whether a launch with a core on a die is being pre-empted (R429). -/
def State.savesOn (s : State) (d : DieId) : Bool :=
  s.launches.any fun l => l.stopping && l.cores.any fun c => c / 128 == d.val

/-- A sequence that is asked for during a pre-emption waits until the save is complete (R429). -/
def execLinkDrain (d : DieId) (s : State) : Out := .next (if s.savesOn d then s else s.modDie d.val DieState.drain)

/-- A die's sequence goes from one step to the next. -/
def DieState.advance (x : DieState) (q : LinkSeq) (step : SeqStep) : DieState := { x with seq := some { q with step } }

/-- Quiesce, once every token has been acknowledged (R426). -/
def DieState.quiesce (x : DieState) : DieState :=
  match x.seq with
  | some q => if q.step = .drain ∧ x.relTokens = [] ∧ x.acqTokens = [] then x.advance q .quiesce else x
  | none => x

def execLinkQuiesce (d : DieId) (s : State) : Out := .next (s.modDie d.val DieState.quiesce)

/-- Lock: the core clock runs at the target (R426). -/
def DieState.lock (x : DieState) : DieState :=
  match x.seq with
  | some q =>
    match q.freq with
    | some t => if q.step = .quiesce then { x.advance q .lock with cur := t } else x
    | none => x
  | none => x

def execLinkLock (d : DieId) (s : State) : Out := .next (s.modDie d.val DieState.lock)

/-- Retrain at the narrower of the forced width and PMW (R426, R427). -/
def DieState.retrain (x : DieState) : DieState :=
  match x.seq with
  | some q =>
    if q.step = (if q.freq.isSome then SeqStep.lock else .quiesce) then
      { x.advance q .retrain with width := max x.forced x.pmw, pmwDue := false }
    else x
  | none => x

def execLinkRetrain (d : DieId) (s : State) : Out := .next (s.modDie d.val DieState.retrain)

/-- Release (R426). -/
def DieState.release (x : DieState) : DieState :=
  match x.seq with
  | some q => if q.step = .retrain then { x with seq := none } else x
  | none => x

def execLinkRelease (d : DieId) (s : State) : Out := .next (s.modDie d.val DieState.release)

/-- A step of throttling or of restoring (R448). -/
def DieState.throttle (x : DieState) (hot : Bool) : DieState :=
  if hot then x.askFreq (max 35 (x.tgt - 5))
  else if x.tgt < x.wantTgt then x.askFreq (min x.wantTgt (x.tgt + 5)) else x

def execThermalThrottleStep (d : DieId) (hot : Bool) (s : State) : Out := .next (s.modDie d.val fun x => x.throttle hot)

/-! ## Time -/

/-- The system bound while nothing is known of the grandmaster (R424). -/
def unknownBound : BitVec 32 := 0xFFFFFFFF

/-- What the best-master choice compares of a rail port: the rank that its master announces, while the port is up (R400, R423). -/
def State.railRank (s : State) (p : Nat) : Option Nat :=
  if s.ongeozDown.contains p then none else assocGet s.time.announced p

/-- The better of two ports by rank, the first where they tie. -/
def betterPort (a b : Option (Nat × Nat)) : Option (Nat × Nat) :=
  match a, b with
  | some x, some y => if y.2 < x.2 then b else a
  | none, _ => b
  | _, none => a

/-- The slave port: of the rail ports 0 to 7 that are up and hear a master, the one whose master is best, the lowest of those that tie. The
others are passive (R400, R423; notes/assumptions 99). -/
def State.slavePort (s : State) : Option Nat :=
  ((List.range 8).foldl (fun b p => betterPort b ((s.railRank p).map fun r => (p, r))) none).map (·.1)

/-- A synchronisation on the slave port: the first after reset steps STIME, or holds it; later ones slew it, which STIME_REFRESH's elapsed
time shows (R424). -/
def State.synchronise (s : State) (tai : Nat) (bound : BitVec 32) : State :=
  if bound = unknownBound then s else
  let t : TimeMaster := { s.time with synced := true, bound, holdover := 0 }
  if s.time.synced then { s with time := t }
  else if s.stime ≤ tai then { s with stime := tai, time := { t with hold := 0 } }
  else { s with time := { t with hold := s.stime - tai } }

/-- A port's master is announced, or falls silent (R423). -/
def State.announce (s : State) (p : Nat) (rank : Option Nat) : State :=
  { s with time := { s.time with announced :=
      match rank with
      | some r => assocSet s.time.announced p r
      | none => assocDel s.time.announced p } }

/-- A PTP message on a rail port that is up, once the device is up (R423, R424, R446). A passive port disciplines nothing. -/
def State.ptp (s : State) (m : PtpMsg) (bound : BitVec 32) : State :=
  if !s.memActive then s else
  match m with
  | .announce p rank => if s.ongeozDown.contains p.val then s else s.announce p.val rank
  | .sync p tai => if s.slavePort = some p.val then s.synchronise tai bound else s

def execPtpMessage (m : PtpMsg) (bound : BitVec 32) (s : State) : Out := .next (s.ptp m bound)

/-- Holdover goes on for some milliseconds (R424). -/
def State.holdover (s : State) (ms : Nat) : State :=
  if s.time.bound = unknownBound then s
  else { s with time := { s.time with bound := BitVec.ofNat 32 (min (s.time.bound.toNat + 16 * ms) 0xFFFFFFFE),
                                      holdover := s.time.holdover + ms } }

def execPtpHoldover (ms : Nat) (s : State) : Out := .next (s.holdover ms)

/-- After 60 s of holdover the bound is unknown (R424). -/
def State.freeRun (s : State) : State :=
  if 60000 ≤ s.time.holdover then { s with time := { s.time with bound := unknownBound } } else s

def execPtpFreeRun (s : State) : Out := .next s.freeRun

/-- Time passes, and each die's copy is refreshed within 32 units of STIME, never backward (R231, R424, R425). -/
def State.refreshTime (s : State) (dt : Nat) (skew : List Int) : State :=
  if skew.length ≠ 8 ∨ skew.any (fun k => decide (32 < k.natAbs)) = true then s else
  let t := s.stime + (dt - s.time.hold)
  let dies := Vector.ofFn fun d : DieId =>
    let x := s.dies.get d
    { x with skew := max (skew.getD d.val 0) (x.skew + (s.stime : Int) - t) }
  { s with stime := t, time := { s.time with hold := s.time.hold - dt }, dies }

def execStimeRefresh (dt : Nat) (skew : List Int) (s : State) : Out := .next (s.refreshTime dt skew)

end Sys2Proof.Machine
end

