-- ==== Sys2Proof/Machine/Torus.lean ====
section
/-! DEFINITION. Hardware barriers, torus words, and the gather of event counters (R225 to R227, R232, R233). -/

namespace Sys2Proof.Machine

/-! ## hbar -/

/-- The cores of a group (R183, R225). -/
def groupCores (d : DieId) (g : Nat) : List CoreId :=
  (List.range (g / 2 ^ 4 % 16 + 1)).flatMap fun i => (List.range (g / 2 ^ 11 % 8 + 1)).map fun j =>
    CoreId.ofGrid d (g % 16 + i) (g / 2 ^ 8 % 8 + j)

/-- The context of a core that arrived first at a barrier of a group. -/
def Core.arrived (x : Core) (g : Nat) : Option (SlotId × Nat) :=
  (List.finRange 11).foldl (fun best k =>
    match (x.ctx k).run, best with
    | .hbar g' _ _ seq, none => if g' = g ∧ (x.ctx k).live then some (k, seq) else none
    | .hbar g' _ _ seq, some (k', seq') => if g' = g ∧ (x.ctx k).live ∧ seq < seq' then some (k, seq) else some (k', seq')
    | _, b => b) none

/-- A context leaves a barrier in this core cycle: it issues from the next on, in a transfer phase with XP (R226). -/
def Ctx.leaveBarrier (t : Ctx) (cycle : Nat) : Ctx :=
  match t.run with
  | .hbar _ xp next _ => { t with pc := next, phase := xp, run := .leaving cycle }
  | _ => t

/-- The barrier of a group completes when every core of it has a context there (R225). -/
def State.barrierDone (s : State) (cs : List CoreId) (g : Nat) : State :=
  if cs.all fun c => ((s.core c).arrived g).isSome then
    cs.foldl (fun s c =>
      match (s.core c).arrived g with
      | some (k, _) => s.modCtx c k fun t => t.leaveBarrier (s.cycleOf c)
      | none => s) s
  else s

/-- `hbar` (R225). -/
def State.hbarOp (s : State) (xp : Bool) (grp : Src) (lit : Word) (len : Nat) : Res State := do
  let g ← s.use1 lit grp
  let l := s.myLaunch
  let cs := groupCores s.cur.die g.toNat
  check (wbits g 14 50 == 0 && cs.contains s.cur && cs.all fun c => s.boundTo c l) .bounds
  let s ← s.release .die
  s.accessGate
  let next := s.me.pc + word len
  let s := s.modMe fun t => { t with run := .hbar g.toNat xp next s.serial, phase := t.phase && xp }
  .ok ({ s with serial := s.serial + 1 }.barrierDone cs.dedup g.toNat)

def execHbar (grp : Src) (s : State) : Out := complete s (s.hbarOp false grp 0 4)

def execHbarX (f : Form) (xp : Bool) (grp : Src) (s : State) : Out := complete s (s.hbarOp xp grp f.value (formBytes f))

/-! ## Torus words -/

/-- `xmit` (R227). -/
def State.xmitOp (s : State) (v : Src) (dir : Sys2Proof.Dir) : Res State := do
  let x ← s.use1 0 v
  let w : TorusWord := { dir, v := x, lands := s.cycleOf s.cur + s.cur.hopCycles dir, launch := s.myCore.launch }
  .ok ((s.modCore (s.cur.neighbour dir) fun y => { y with wires := y.wires ++ [w] }).advance 4)

def execXmit (v : Src) (dir : Sys2Proof.Dir) (s : State) : Out := complete s (s.xmitOp v dir)

/-- `imux` (R227). -/
def execImux (d : Dst) (dir : Sys2Proof.Dir) (s : State) : Out := complete s (.ok (s.result d (s.myCore.latches.get dir) [] 4))

/-- A word lands in the latch for the direction it comes from; a word of another launch is discarded (R227). -/
def Core.land (x : Core) (w : TorusWord) : Core :=
  let x := { x with wires := x.wires.erase w }
  if w.launch = x.launch then
    let i := w.dir.opposite
    { x with latches := x.latches.set i.val w.v i.isLt }
  else x

/-- The words whose time has come land, oldest first. -/
def Core.landDue (x : Core) (cycle : Nat) : Core := (x.wires.filter fun w => decide (w.lands ≤ cycle)).foldl Core.land x

/-- The oldest word to a core in a direction lands, once its cycle has come (R227). -/
def State.landTorus (s : State) (c : CoreId) (dir : Sys2Proof.Dir) : State :=
  match (s.core c).wires.find? fun w => w.dir == dir && decide (w.lands ≤ s.cycleOf c) with
  | some w => s.modCore c fun x => x.land w
  | none => s

def execTorusWordLand (c : CoreId) (dir : Sys2Proof.Dir) (s : State) : Out := .next (s.landTorus c dir)

/-! ## Event counters -/

/-- The launch that an event names: identifier times 8, plus partition. -/
def State.launchAt (s : State) (l : Nat) : Option Launch := s.findLaunch (l % 8) (l / 8)

/-- `evrd` (R232). -/
def execEvrd (d : Dst) (k : Fin 16) (s : State) : Out :=
  complete s (.ok (s.result d ((s.myCore.ev.get k).setWidth 64) [] 4))

/-- The counters that `evclr` names at 0; 16 names all of them (R232). -/
def Core.clearEv (x : Core) (k : Fin 17) : Core :=
  if h : k.val < 16 then { x with ev := x.ev.set k.val 0 h } else { x with ev := Vector.replicate 16 0 }

/-- `evclr` (R66, R232): the events of the context's queued vector instructions come first, so it waits for them. What has been
handed to the harrow, waits in a replay log, or stands in the context's own parked `.badd` is not waited for (R130; notes/assumptions
75). -/
def execEvclr (k : Fin 17) (s : State) : Out :=
  complete s (do
    waitFor s.me.vq.isEmpty
    .ok ((s.modCore s.cur fun x => x.clearEv k).advance 4))

/-- `evgath`: the core's counters are contributed as they stand (R233). -/
def State.evgathOp (s : State) (imm : BitVec 24) (base : Src) (lit : Word) (len : Nat) : Res State := do
  let b ← s.use1 lit base
  let ea := ea2 b imm
  let l := s.myLaunch
  check (decide (ea.toNat + 64 ≤ l.split.size .G) && (s.windowKeys s.cur l .G ea.toNat 64).isSome) .window ea
  check (ea.toNat % 64 == 0) .align ea
  let counts := s.myCore.ev.toList.map BitVec.toNat
  let next := s.me.pc + word len
  .ok { s.modMe (fun t => { t with run := .gather ea.toNat next s.serial counts }) with serial := s.serial + 1 }

def execEvgath (base : Src) (s : State) : Out := complete s (s.evgathOp 0 base 0 4)

def execEvgathX (f : Form) (imm : BitVec 24) (base : Src) (s : State) : Out :=
  complete s (s.evgathOp imm base f.value (formBytes f))

/-- The oldest contribution of a core: its slot, order, offset, next instruction and counters. -/
def Core.gathering (x : Core) : Option (SlotId × Nat × Nat × Word × List Nat) :=
  (List.finRange 11).foldl (fun best k =>
    match (x.ctx k).run, best with
    | .gather off next seq n, none => if (x.ctx k).live then some (k, seq, off, next, n) else none
    | .gather off next seq n, some b => if (x.ctx k).live ∧ seq < b.2.1 then some (k, seq, off, next, n) else some b
    | _, b => b) none

/-- The record of a gather: sums saturating at 0xFFFF_FFFF, counter 15 written as 0 (R233). -/
def gatherRecord (cs : List (List Nat)) : List Byte :=
  (List.range 16).flatMap fun k => leBytes 4 (if k = 15 then 0 else min ((cs.map fun l => l.getD k 0).sum) 0xFFFFFFFF)

/-- A gather that every core has joined completes: the record is written in each core, whose context goes on (R233). -/
def State.gatherComplete (s : State) (l : Nat) : State :=
  match s.launchAt l with
  | none => s
  | some l =>
    let gs := l.cores.map fun n => (coreOf n, (s.core (coreOf n)).gathering)
    if l.phase != .live || gs.any (fun p => p.2.isNone) then s
    else
      let rec' := gatherRecord (gs.filterMap fun p => p.2.map fun g => g.2.2.2.2)
      gs.foldl (fun s p =>
        match p.2 with
        | none => s
        | some (k, _, off, next, _) =>
          let s := match s.windowKeys p.1 l .G off 64 with
            | some ks => s.write none ks rec'
            | none => s
          s.modCtx p.1 k fun t => { t with pc := next, run := .ready }) s

def execGatherComplete (l : Nat) (s : State) : Out := .next (s.gatherComplete l)

end Sys2Proof.Machine
end

