-- ==== Sys2Proof/Machine/Sower.lean ====
section
/-! DEFINITION. The sower's records, counters, firing and communicators: `trg.*` and the steps that fire entries and fail
or create communicators (R228 to R230, R308 to R312, R318 to R320). -/

namespace Sys2Proof.Machine

def State.modSower (s : State) (f : Sower → Sower) : State := { s with sower := f s.sower }

/-- The value of a counter field that names none, or STIME (R312). -/
def none32 : Nat := 0xFFFFFFFF

/-! ## Records -/

/-- The element type of RED (R312). -/
def redTyOf (n : Nat) : Option Ty :=
  match n % 16 with
  | 3 => some .i32 | 4 => some .i64 | 7 => some .z32 | 8 => some .z64 | 9 => some .f32 | 10 => some .f16 | 11 => some .bf16
  | _ => none

/-- Whether a RED byte holds listed values, for a length (R312). -/
def redOk (red len : Nat) : Bool :=
  match redTyOf red with
  | some t => decide (red / 16 ≤ 2) && len % t.bytes == 0
  | none => false

/-- The fields of a record (R312). -/
def parseERec (b : List Byte) : ERec where
  op := field b 0 1
  perChunk := fieldBit b 1 0
  home := fieldBit b 1 1
  comm := field b 2 1
  redTy := field b 3 1 % 16
  rop := field b 3 1 / 16 % 4
  ctr := field b 4 4
  thresh := word (field b 8 8)
  peer := fieldInt b 16 4
  peer2 := fieldInt b 20 4
  src := word (field b 24 8)
  dst := word (field b 32 8)
  len := field b 40 8
  chunk := if field b 48 4 = 0 then 65536 else field b 48 4
  rctr0 := field b 52 4
  rctr1 := field b 56 4
  pctr := field b 60 4
  body := (b.drop 16).take 32

/-- The fields of R312 that an OP uses, of PEER, PEER2, SRC, DST, LEN, CHUNK and PCTR. -/
structure OpUses where
  peer : Bool
  peer2 : Bool
  src : Bool
  dst : Bool
  len : Bool
  chunk : Bool
  pctr : Bool

/-- The table of used fields of R312. PROG and A2A redefine bytes 16 to 47. -/
def opUses (op : Nat) : OpUses :=
  match op with
  | 1 => ⟨true, false, true, false, true, true, false⟩
  | 2 => ⟨true, false, false, true, true, true, false⟩
  | 3 => ⟨true, true, true, true, true, true, false⟩
  | 4 => ⟨false, false, true, true, true, true, false⟩
  | 6 => ⟨true, false, true, true, true, true, true⟩
  | 7 => ⟨true, false, true, true, false, false, true⟩
  | 8 => ⟨true, true, true, true, true, true, false⟩
  | 9 => ⟨true, true, true, true, true, true, false⟩
  | _ => ⟨false, false, false, false, false, false, false⟩

/-- The form of a record, but for what it names (R312, R322, R325). -/
def recordForm (b : List Byte) : Bool :=
  let op := field b 0 1
  let u := opUses op
  let home := fieldBit b 1 1
  let chunk := field b 48 4
  decide (1 ≤ op) && decide (op ≤ 9) && field b 1 1 / 4 == 0
    && !(fieldBit b 1 0 && (op == 5 || op == 7 || op == 8 || op == 9)) && !(home && op != 2)
    && (if op == 3 || home then redOk (field b 3 1) (field b 40 8) else field b 3 1 == 0)
    && (u.peer || field b 16 4 == 0) && (u.peer2 || field b 20 4 == 0 || field b 20 4 == 0x80000000)
    && (u.src || field b 24 8 == 0) && (u.dst || field b 32 8 == 0) && (u.len || field b 40 8 == 0)
    && (u.chunk || chunk == 0) && (u.pctr || field b 60 4 == 0 || field b 60 4 == none32)
    && chunk % 4096 == 0 && decide (chunk ≤ 1048576) && (op == 8 || op == 9 || decide (field b 40 8 ≤ 2 ^ 40))
    && (op != 8 || field b 20 4 % 64 == 0) && (op != 9 || field b 16 8 == 0)

/-- A launch's communicator. -/
def Sower.commOf (w : Sower) (part launch comm : Nat) : Option Comm :=
  w.comms.find? fun c => c.part == part && c.launch == launch && c.comm == comm

/-- Whether a communicator is ACTIVE and no fault waits to fail it (R318). -/
def Comm.active (c : Comm) : Bool := c.fault.isNone && c.failed.isNone

/-- Whether a counter of the launch lies in a communicator's range, or is none (R320). -/
def Comm.owns (c : Comm) (k : Nat) : Bool := k == none32 || (decide (c.cbase ≤ k) && decide (k < c.cbase + c.ccnt))

/-- Whether a counter field names a counter of the allotment, or none (R312). -/
def Launch.hasCtr (l : Launch) (k : Nat) : Bool := k == none32 || decide (k < l.desc.tctr)

/-- What `trg.post` refuses a record with, in the order of R228. -/
def State.recordCause (s : State) (l : Launch) (b : List Byte) : Option Cause :=
  let r := parseERec b
  let c := if r.comm < l.desc.tcomm then s.sower.commOf l.part l.id r.comm else none
  if !recordForm b || !l.hasCtr r.ctr || !l.hasCtr r.rctr0 || !l.hasCtr r.rctr1 then some .bounds
  else
    match c with
    | none => some .bounds
    | some c =>
      if !c.active then some .bounds
      else if c.owns r.ctr && c.owns r.rctr0 && c.owns r.rctr1 then none
      else some .trigXcomm

/-- The sower's number of a counter of a launch. -/
def Launch.absCtr (l : Launch) (k : Nat) : Option Nat := if k = none32 then none else some (l.ctrBase + k)

/-! ## Posting, raising, reading, cancelling -/

/-- Whether an entry is met: its counter's value, or STIME, has reached THRESH (R310). -/
def State.entryMet (s : State) (e : Entry) : Bool :=
  match e.ctr with
  | some c => thresholdMet (s.counter c) e.rec_.thresh
  | none => thresholdMet (word s.stime) e.rec_.thresh

/-- The entries a partition's share of the sower holds (R308). -/
def entryShare (pm : PartMode) : Nat := 16384 / partCount pm

/-- The lowest entry of a partition's share that is not live. -/
def State.freeEntry (s : State) (part : Nat) : Option Nat :=
  let n := entryShare s.pm
  let used := s.sower.entries.map (·.handle)
  ((List.range (used.length + 1)).map (part * n + ·)).find? fun h => decide (h < (part + 1) * n) && !used.contains h

/-- An entry inserted in ascending handle order. -/
def insertEntry (e : Entry) (l : List Entry) : List Entry :=
  match l with
  | [] => [e]
  | x :: rest => if e.handle < x.handle then e :: x :: rest else x :: insertEntry e rest

/-- Entries met before a later event fire before what that event meets (R310). -/
def State.fireMet (s : State) : State :=
  s.meetClock.modSower fun w => { w with entries := w.entries.map fun e =>
    match e.phase with
    | .met o => { e with phase := .fired o }
    | _ => e }

/-- A checked record posted: none where the allotment is full (R228). An entry that is already met fires at once, after those
met before it (R310). -/
def State.postEntry (s : State) (l : Launch) (b : List Byte) : Option (State × Nat) :=
  let r := parseERec b
  let live := s.sower.entries.countP fun e => e.part == l.part && e.launch == l.id
  if l.desc.tent ≤ live then none
  else (s.freeEntry l.part).map fun h =>
    let e : Entry := { handle := h, part := l.part, launch := l.id, rec_ := r, ctr := l.absCtr r.ctr,
                       r0 := l.absCtr r.rctr0, r1 := l.absCtr r.rctr1 }
    let hit := s.entryMet e
    let s := if hit then s.fireMet else s
    let e := if hit then { e with phase := .fired s.sower.order } else e
    (s.modSower fun w => { w with entries := insertEntry e w.entries, order := if hit then w.order + 1 else w.order }, h)

/-- Whether the executing core's link to the headland takes flits (R426). -/
def State.headlandGate (s : State) : Res Unit := waitFor (!s.linkHeld s.cur.die.val)

/-- `trg.post` (R228). -/
def State.trgPostOp (s : State) (w : Win) (imm : BitVec 24) (d : Dst) (base : Src) (lit : Word) (len : Nat) : Res State := do
  let b ← s.use1 lit base
  let ea := ea2 b imm
  s.headlandGate
  let s ← s.release .pkg
  let (s, rec') ← s.read64 w ea
  let l := s.myLaunch
  match s.recordCause l rec' with
  | some c => trap c ea
  | none =>
    match s.postEntry l rec' with
    | none => .ok (s.result d (BitVec.ofInt 64 (-1)) [] len)
    | some (s, h) => .ok (s.result d (word h) [] len)

def execTrgPost (d : Dst) (base : Src) (s : State) : Out := complete s (s.trgPostOp .glob 0 d base 0 4)

def execTrgPostX (f : Form) (win : Win) (imm : BitVec 24) (d : Dst) (base : Src) (s : State) : Out :=
  complete s (s.trgPostOp win imm d base f.value (formBytes f))

/-- `trg.inc`: a release, then the store that raises the counter (R229). -/
def State.trgIncOp (s : State) (sc : Scope) (ctr n : Src) (lit : Word) (len : Nat) : Res State := do
  let (k, v) ← s.use2 lit ctr n
  check (decide (k.toNat < s.myLaunch.desc.tctr)) .bounds
  s.headlandGate
  let s ← s.release sc
  s.accessGate
  let s := s.raise (s.myLaunch.ctrBase + k.toNat) v
  .ok ((s.modMe fun t => { t with wrote := addOnce s.cur.die.val t.wrote }).advance len)

def execTrgInc (ctr n : Src) (s : State) : Out := complete s (s.trgIncOp .thr ctr n 0 4)

def execTrgIncX (f : Form) (sc : Scope) (ctr n : Src) (s : State) : Out :=
  complete s (s.trgIncOp sc ctr n f.value (formBytes f))

/-- `trg.rd` (R229). -/
def State.trgRdOp (s : State) (sc : Scope) (d : Dst) (ctr : Src) (lit : Word) (len : Nat) : Res State := do
  let k ← s.use1 lit ctr
  check (decide (k.toNat < s.myLaunch.desc.tctr)) .bounds
  s.headlandGate
  s.acquireGate sc
  s.accessGate
  .ok ((s.result d (s.counter (s.myLaunch.ctrBase + k.toNat)) [] len).acquired sc)

def execTrgRd (d : Dst) (ctr : Src) (s : State) : Out := complete s (s.trgRdOp .thr d ctr 0 4)

def execTrgRdX (f : Form) (sc : Scope) (d : Dst) (ctr : Src) (s : State) : Out :=
  complete s (s.trgRdOp sc d ctr f.value (formBytes f))

/-- An entry's handle is free again (R311). -/
def Sower.freeHandle (w : Sower) (h : Nat) : Sower :=
  { w with entries := w.entries.filter (fun e => e.handle != h), xfers := w.xfers.filter fun x => x.handle != h }

/-- The answer of `trg.cancel`, and whether the entry is freed (R230). A met entry fires. -/
def State.cancelAnswer (s : State) (l : Launch) (h : Word) : Nat :=
  match s.sower.entries.find? fun e => e.handle == h.toNat && e.part == l.part && e.launch == l.id with
  | none => 2
  | some e => if e.phase == .unfired && !s.entryMet e then 0 else 1

/-- `trg.cancel` (R230). -/
def State.trgCancelOp (s : State) (d : Dst) (h : Src) (lit : Word) (len : Nat) : Res State := do
  let v ← s.use1 lit h
  s.headlandGate
  let a := s.cancelAnswer s.myLaunch v
  let s := if a = 0 then s.modSower fun w => w.freeHandle v.toNat else s
  .ok (s.result d (word a) [] len)

def execTrgCancel (lit : Option Word) (d : Dst) (h : Src) (s : State) : Out :=
  complete s (s.trgCancelOp d h (litVal lit) (litBytes lit))

/-! ## Firing -/

def Sower.entry (w : Sower) (h : Nat) : Option Entry := w.entries.find? fun e => e.handle == h

def Sower.modEntry (w : Sower) (h : Nat) (f : Entry → Entry) : Sower :=
  { w with entries := w.entries.map fun e => if e.handle = h then f e else e }

/-- An entry's communicator. -/
def Sower.entryComm (w : Sower) (e : Entry) : Option Comm := w.commOf e.part e.launch e.rec_.comm

/-- The next met entry fires (R310): an entry on a counter in the order in which they were met; an entry on STIME once
STIME has reached its threshold, after all that were met before it. -/
def State.fire (s : State) (h : Nat) : State :=
  let w := s.sower
  match w.entry h with
  | none => s
  | some e =>
    match e.phase with
    | .met o =>
      if w.entries.all fun x => match x.phase with | .met p => decide (o ≤ p) | _ => true then
        s.modSower fun w => w.modEntry h fun e => { e with phase := .fired o }
      else s
    | .unfired =>
      if e.timeMet (word s.stime) then s.fireMet else s
    | _ => s

def execTriggerFire (h : Fin 16384) (s : State) : Out := .next (s.fire h.val)

/-- A fired entry of an OP that starts now: the oldest fired one of its communicator, which is ACTIVE (R310, R315). -/
def Sower.startable (w : Sower) (h op : Nat) : Option (Entry × Comm) :=
  match w.entry h with
  | none => none
  | some e =>
    match e.phase, w.entryComm e with
    | .fired o, some c =>
      let older := w.entries.any fun x => x.part == e.part && x.launch == e.launch && x.rec_.comm == e.rec_.comm &&
        (match x.phase with | .fired p => decide (p < o) | _ => false)
      if e.rec_.op == op && c.active && !older then some (e, c) else none
    | _, _ => none

/-! ## Completion -/

/-- A counter raised by a communicator's entry: not once the communicator fails (R318). -/
def State.raiseFor (s : State) (c : Comm) (k : Option Nat) (n : Nat) : State :=
  match k with
  | none => s
  | some k => if c.active && n != 0 then s.raise k (word n) else s

/-- An entry completes: its counters are raised and its handle is free (R309, R311, R313, R317). With PERCHUNK the raises of
RCTR0 came with the chunks. -/
def State.finishEntry (s : State) (e : Entry) (c : Comm) : State :=
  let s := s.modSower fun w => w.freeHandle e.handle
  (s.raiseFor c e.r0 (if e.rec_.perChunk then 0 else 1)).raiseFor c e.r1 1

/-- WAIT completes on firing (R313). -/
def State.waitEntry (s : State) (h : Nat) : State :=
  match s.sower.startable h 5 with
  | some (e, c) => s.finishEntry e c
  | none => s

def execSowerWait (h : Fin 16384) (s : State) : Out := .next (s.waitEntry h.val)

/-! ## Communicators -/

/-- A communicator changed: the one with a serial number. -/
def Sower.modComm (w : Sower) (serial : Nat) (f : Comm → Comm) : Sower :=
  { w with comms := w.comms.map fun c => if c.serial = serial then f c else c }

/-- A run-time fault of an entry of a communicator: the first one met stands (R318). -/
def State.commFault (s : State) (c : Comm) (k : Cause) (h : Nat) (a : Word) : State :=
  s.modSower fun w => w.modComm c.serial fun c => if c.active then { c with fault := some (k.code, h, a) } else c

/-- The communicator at a rank of the package (R319): the member that bears the same name and rank. -/
def Sower.member (w : Sower) (c : Comm) (r : Nat) : Option Comm :=
  w.comms.find? fun d => d.gid == c.gid && d.rank == r && d.n == c.n

/-- Whether chunks from or to a communicator are in flight inside the package. -/
def Sower.inFlight (w : Sower) (c : Comm) : Bool :=
  !c.flight.isEmpty || w.comms.any fun d => d.gid == c.gid && d.n == c.n && d.flight.any fun f => f.src == c.rank

/-- Entries of FAILED communicators that had fired are abandoned once their chunks in flight have finished (R318). -/
def State.abandon (s : State) : State :=
  let w := s.sower
  let gone := w.comms.filter fun c => c.failed.isSome && !w.inFlight c
  let hs := (w.entries.filter fun e => gone.any fun c => c.part == e.part && c.launch == e.launch && c.comm == e.rec_.comm)
    |>.map (·.handle)
  let relayed (x : Xfer) : Bool := match x.fwd with | some f => gone.any fun c => c.serial == f.serial | none => false
  s.modSower fun w => { w with entries := w.entries.filter (fun e => !hs.contains e.handle),
                               xfers := w.xfers.filter fun x => !hs.contains x.handle && !relayed x }

/-- The trap causes of R380, for the code that a failure carries. -/
def Cause.all : List Cause :=
  [.illegalOp, .illegalOperand, .placement, .zeroWord, .jtRange, .jtFetch, .landMismatch, .retEmpty, .spill, .fill,
   .translation, .permission, .tag, .bounds, .align, .window, .unsupportedAtomic, .poison, .tileOverlap, .symCancelled,
   .symFault, .symExhausted, .barrierOverrun, .cbError, .deadLetter, .matrixCmd, .encodingHash, .trigXcomm]

def Cause.ofCode (n : Nat) : Option Cause := Cause.all.find? fun c => c.code == n

/-- The generation of a launch's control context on rank 0, from its save area if it is pre-empted (R378, R382). -/
def State.rank0Gen (s : State) (l : Launch) : BitVec 16 :=
  match s.saves.find? fun e => e.1 == l.part && e.2.1 == l.id with
  | some (_, _, x :: _) => (x.ctx 0).gen
  | _ => (s.ctx (coreOf (l.cores.getD 0 0)) 0).gen

/-- A communicator becomes FAILED: unfired entries are freed, the failure is reported (R318, R378). -/
def State.failComm (s : State) (c : Comm) (f : Nat × Nat × Word) : State :=
  let s := s.modSower fun w =>
    let w := w.modComm c.serial fun c => { c with failed := some f, fault := none, notice := none }
    { w with entries := w.entries.filter fun e =>
        !(e.part == c.part && e.launch == c.launch && e.rec_.comm == c.comm &&
          (match e.phase with | .unfired => true | .met _ => true | _ => false)) }
  let s := { s with out := .failure c.comm f.1 f.2.1 f.2.2 :: s.out }
  let s := match s.findLaunch c.part c.launch, Cause.ofCode f.1 with
    | some l, some k =>
      { s with asyncs := s.asyncs ++ [(⟨c.part, c.launch, 0, 0, s.rank0Gen l, k, f.2.1, f.2.2⟩ : AsyncRep)] }
    | _, _ => s
  s.abandon

/-- A communicator with a fault becomes FAILED, and the failure is sent to every member (R318). -/
def State.commFails (s : State) (cm : Nat) : State :=
  match s.sower.comms[cm]? with
  | none => s
  | some c =>
    match c.fault with
    | none => s
    | some f =>
      let s := s.failComm c f
      let s := s.modSower fun w => { w with comms := w.comms.map fun d =>
          if d.gid = c.gid ∧ d.n = c.n ∧ d.serial ≠ c.serial ∧ d.failed = none then { d with notice := some f.1 } else d }
      { s with out := .notice c.comm f.1 :: s.out }

def execCommunicatorFail (cm : Nat) (s : State) : Out := .next (s.commFails cm)

/-- A member's notice arrives: from a member of the package, or from outside with a cause of R380 (R318). -/
def State.noticeArrives (s : State) (cm : Nat) (cause : Nat) : State :=
  match s.sower.comms[cm]? with
  | none => s
  | some c =>
    let k := c.notice.getD cause
    if c.failed.isSome || (Cause.ofCode k).isNone then s else s.failComm c (k, 0, 0)

def execFailureNotice (cm : Nat) (cause : Byte) (s : State) : Out := .next (s.noticeArrives cm cause.toNat)

/-- Whether the runtime can create a communicator: it is within the allotment and not yet there, its range of counters meets
no other's, and no route takes the port of the own index (R319, R400). NODE is kept as it is given, and the node of a rank is its
quotient by LOCAL, as R319 has it (R409; notes/assumptions 101). -/
def State.commOk (s : State) (l : Launch) (p : CommSpec) : Bool :=
  decide (1 ≤ p.n) && decide (p.n ≤ 65536) && decide (p.rank < p.n) && decide (p.vc < 8) && decide (p.comm < l.desc.tcomm)
    && decide (p.cbase + p.ccnt ≤ l.desc.tctr) && decide (1 ≤ p.loc) && decide (p.loc ≤ 8)
    && (p.routes.all fun r => match r.2 with | .port j => decide (j < 8) && j != p.rank % p.loc | _ => true)
    && (s.sower.comms.all fun c => !(c.part == l.part && c.launch == l.id) ||
      (c.comm != p.comm && (decide (c.cbase + c.ccnt ≤ p.cbase) || decide (p.cbase + p.ccnt ≤ c.cbase))))
    && !(s.sower.comms.any fun c => c.gid == p.gid && c.rank == p.rank)

/-- The node of the communicator's own rank (R319). -/
def Comm.ownNode (c : Comm) : Nat := c.rank / c.loc

/-- The runtime creates a communicator (R319, R401). -/
def State.createComm (s : State) (p : CommSpec) : State :=
  match s.launchAt p.launch with
  | none => s
  | some l =>
    if !s.commOk l p then s else
    let c : Comm := { serial := s.serial, gid := p.gid, part := l.part, launch := l.id, comm := p.comm, n := p.n,
                      rank := p.rank, vc := p.vc, cbase := p.cbase, ccnt := p.ccnt, routes := p.routes, node := p.node,
                      loc := p.loc }
    let s := s.modSower fun w => { w with comms := w.comms ++ [c] }
    { s with serial := s.serial + 1 }

def execCommunicatorCreate (p : CommSpec) (s : State) : Out := .next (s.createComm p)

end Sys2Proof.Machine
end

