-- ==== Sys2Proof/Machine/SowerMove.lean ====
section
/-! DEFINITION. Data movement by the sower: starting entries and steps, chunks and their grants, matching, reductions at
home, puts, programs and the two-stage all-to-all (R313 to R317, R321 to R327, R402, R432). -/

namespace Sys2Proof.Machine

/-! ## Accesses -/

/-- Why a transfer does not go on: it waits, at a state that may have sent requests, or it faults (R318). -/
inductive SStop where
  | wait (s : State)
  | fail (k : Cause) (a : Word)

abbrev SRes (α : Type) := Except SStop α

def sFail (k : Cause) (a : Word) : SRes α := .error (.fail k a)

/-- The launch that a communicator's rank is bound to. -/
def State.commLaunch (s : State) (c : Comm) : Launch := (s.findLaunch c.part c.launch).getD { id := c.launch, part := c.part }

/-- Whether a range reaches LM (R314). -/
def State.reachesLm (s : State) (l : Launch) (va : Word) (n : Nat) : Bool :=
  (granuleCuts n va.toNat 0 n).any fun p =>
    match s.walk l (va + word p.1) with
    | .ok f => (match placeOf s.pm l.part (f.addr (va + word p.1)) with | .lm .. => true | _ => false)
    | .error _ => false

/-- What a refused access leaves: it waits for the host's copy of a table's line, or faults (R304, R318). -/
def State.sowerRefused (s : State) (e : AccErr) : SStop :=
  match e with
  | .snoop n => .wait (s.sendSnoops [n] false)
  | .notPresent a => .fail .translation a
  | .fault k a => .fail k a

/-- A check of the sower's. -/
def State.sowerTry {α : Type} (s : State) (r : Except AccErr α) : SRes α := r.mapError s.sowerRefused

/-- Checked accesses of the sower to a range; LM of a pre-empted launch waits (R314). -/
def State.sowerAccs (s : State) (l : Launch) (k : AKind) (va : Word) (n : Nat) : SRes (List Acc) :=
  if l.phase == .preempted && s.reachesLm l va n then .error (.wait s)
  else s.sowerTry (s.globalRuns l k va n)

def State.sowerDemand (s : State) (as : List Acc) (r : Req) : SRes Unit :=
  match s.engineDemand .ofHeadland as r with
  | some s' => .error (.wait s')
  | none => .ok ()

/-- A range read: its bytes, and which come from poisoned granules. A reader that consumes the data faults on poison
(R432). -/
def State.sowerRead (s : State) (l : Launch) (va : Word) (n : Nat) (consumes : Bool) : SRes (State × List Byte × List Bool) := do
  let as ← s.sowerAccs l .sread va n
  s.sowerDemand as .read
  let ks := as.flatMap (·.keys)
  let bad := ks.map fun k => s.poison.contains (k / 32)
  match if consumes then bad.findIdx? id else none with
  | some i => sFail .poison (va + word i)
  | none => .ok (s.engineArrive .ofHeadland as .read, s.bytesAt ks, bad)

/-- A range written, as one part of an operation, with the poison of what is written; and the poisoned granules that the operation has
covered in part (R431 to R433). -/
def State.sowerPart (s : State) (l : Launch) (va : Word) (bs : List Byte) (bad : List Bool) (cov : List Covered) :
    SRes (State × List Covered) := do
  let as ← s.sowerAccs l .swrite va bs.length
  s.sowerDemand as .store
  .ok ((s.engineArrive .ofHeadland as .store).partWrite cov (as.flatMap (·.keys)) bs bad)

/-- A range written at once, with the poison of what is written (R431, R432). -/
def State.sowerWrite (s : State) (l : Launch) (va : Word) (bs : List Byte) (bad : List Bool) : SRes State :=
  (s.sowerPart l va bs bad []).map (·.1)

/-- The combination of two elements (R313): integer add wraps, floating add rounds RNE, min and max as `fmin` and `fmax`. -/
def combine (t : Ty) (rop x y : Nat) : Nat :=
  let n := 8 * t.bytes
  if t.isFloat then
    let f := Fmt.ofTy t
    let v := match rop with
      | 0 => FpVal.add .rne (f.val x) (f.val y)
      | 1 => FpVal.min2 (f.val x) (f.val y)
      | _ => FpVal.max2 (f.val x) (f.val y)
    (f.pack .rne false 0 v).1
  else
    match rop with
    | 0 => (x + y) % 2 ^ n
    | 1 => if bitsInt t.isSigned n x ≤ bitsInt t.isSigned n y then x else y
    | _ => if bitsInt t.isSigned n x ≤ bitsInt t.isSigned n y then y else x

/-- Elements combined one by one (R313). -/
def combineAll (t : Ty) (rop fuel : Nat) (xs ys : List Byte) : List Byte :=
  match fuel with
  | 0 => []
  | fuel + 1 =>
    if ys.isEmpty then [] else
    leBytes t.bytes (combine t rop (leNat (xs.take t.bytes)) (leNat (ys.take t.bytes)))
      ++ combineAll t rop fuel (xs.drop t.bytes) (ys.drop t.bytes)

/-- The checked access of one element of a RECV with HOME, at its home slice, and its request (R326). -/
def State.homeAcc (s : State) (l : Launch) (t : Ty) (rop : Nat) (va : Word) : SRes (Acc × Req) := do
  if va.toNat % t.bytes ≠ 0 then sFail .align va
  if l.phase == .preempted && s.reachesLm l va t.bytes then .error (.wait s)
  let a ← s.sowerTry (s.global l .satom va t.bytes)
  if !(match a.place with | .dev _ => true | _ => false) then sFail .unsupportedAtomic va
  .ok (a, if rop = 0 && !t.isFloat then .red (if t.bytes = 4 then .add32 else .add64) else .perform)

/-- The requests that the n elements of a chunk wait for before any of them is applied, up to one that faults: the state with
what is sent, and whether anything is waited for (R304, R326). -/
def State.homeDemands (s : State) (l : Launch) (t : Ty) (rop : Nat) (va : Word) (n : Nat) (waits : Bool) : State × Bool :=
  match n with
  | 0 => (s, waits)
  | n + 1 =>
    match s.homeAcc l t rop va with
    | .error (.wait s') => (s', true)
    | .error _ => (s, waits)
    | .ok (a, r) =>
      match s.engineDemand .ofHeadland [a] r with
      | some s' => s'.homeDemands l t rop (va + word t.bytes) n true
      | none => s.homeDemands l t rop (va + word t.bytes) n waits

/-- The n elements of a chunk applied in order (R326). -/
def State.homeApply (s : State) (l : Launch) (t : Ty) (rop : Nat) (va : Word) (ys : List Byte) (n : Nat) : SRes State :=
  match n with
  | 0 => .ok s
  | n + 1 => do
    let (a, r) ← s.homeAcc l t rop va
    let v := combine t rop (leNat (s.bytesAt a.keys)) (leNat (ys.take t.bytes))
    ((s.engineArrive .ofHeadland [a] r).engineWrite a.keys (leBytes t.bytes v) []).homeApply l t rop (va + word t.bytes)
      (ys.drop t.bytes) n

/-- A chunk reduced at home: nothing is applied while any of it waits (R326). -/
def State.homeElements (s : State) (l : Launch) (t : Ty) (rop : Nat) (va : Word) (ys : List Byte) : SRes State :=
  let n := ys.length / t.bytes
  let r := s.homeDemands l t rop va n false
  if r.2 then .error (.wait r.1) else s.homeApply l t rop va ys n

/-- An atomic add of 8 bytes by ATOM at its target, as `atom.add.i64` (R138, R313). -/
def State.sowerAtomic (s : State) (l : Launch) (va : Word) (v : Nat) : SRes State := do
  if va.toNat % 8 ≠ 0 then sFail .align va
  if l.phase == .preempted && s.reachesLm l va 8 then .error (.wait s)
  let a ← s.sowerTry (s.global l .satom va 8 (atomAt .add none))
  s.sowerDemand [a] .perform
  .ok ((s.engineArrive .ofHeadland [a] .perform).engineWrite a.keys (leBytes 8 ((leNat (s.bytesAt a.keys) + v) % 2 ^ 64)) [])

/-! ## Starting -/

/-- The rank that a signed distance names (R312). -/
def Comm.peer (c : Comm) (k : Int) : Nat := (((c.rank : Int) + k) % (c.n : Int)).toNat

/-- PEER2's none value (R312). -/
def peerNone : Int := -0x80000000

def redTyD (n : Nat) : Ty := (redTyOf n).getD .i32

/-- The transfer of a started entry (R313). -/
def ERec.xfer (r : ERec) (c : Comm) (op : XferOp) : Xfer :=
  let none' : Option Nat := none
  { id := 0, handle := 0, op, peer := c.peer r.peer, peer2 := if op == .rrs && r.peer2 != peerNone then some (c.peer r.peer2) else none',
    src := r.src, dst := r.dst, len := if op == .atom then 8 else r.len, chunk := r.chunk, redTy := r.redTy, rop := r.rop,
    pctr := if (op == .put || op == .atom) && r.pctr != none32 then some r.pctr else none' }

/-- Which halves of a transfer there are to end (R313). -/
def Xfer.fresh (x : Xfer) : Xfer :=
  match x.op with
  | .send => { x with inDone := true }
  | .recv => { x with outDone := true }
  | .recvHome => { x with outDone := true }
  | .rrs => { x with outDone := x.peer2.isNone }
  | _ => x

/-- A transfer starts after those that have started (R315). -/
def State.startXfer (s : State) (h : Nat) (x : Xfer) : State :=
  s.modSower fun w => { w with xfers := w.xfers ++ [({ x with id := w.nextXfer, handle := h } : Xfer).fresh],
                               nextXfer := w.nextXfer + 1 }

/-- A fired entry begins its one transfer. -/
def State.beginEntry (s : State) (h op : Nat) (mk : ERec → Comm → Xfer) : State :=
  match s.sower.startable h op with
  | none => s
  | some (e, c) => (s.modSower fun w => w.modEntry h fun e => { e with phase := .running }).startXfer h (mk e.rec_ c)

/-! ## Outputs -/

/-- Where a chunk for a rank leaves (R319, R321, R402): an Ongeoz port, 16 + a partition, or 24 + the own partition for its
local copy path; `lost` says that no path exists. -/
inductive Path where
  | to (out : Nat)
  | held
  | lost (port : Nat)
  deriving DecidableEq, Repr

/-- Whether an Ongeoz port is up. -/
def State.portUp (s : State) (p : Nat) : Bool := !s.ongeozDown.contains p

/-- The route to a rank (R319). -/
def Comm.route (c : Comm) (r : Nat) : Option Route := (c.routes.find? fun p => p.1 == r).map (·.2)

/-- Whether the in-node link between two other devices is up (R402). -/
def State.farUp (s : State) (a b : Nat) : Bool := !s.farDown.contains (min a b, max a b)

/-- The path of a communicator's next chunk to a rank. A relay is the lowest device of the node, other than the peer and this
one, whose links to both are up (R402). -/
def State.pathTo (s : State) (c : Comm) (r : Nat) : Path :=
  match c.route r with
  | none => if r = c.rank then .to (24 + c.part) else .held
  | some .self => .to (24 + c.part)
  | some (.part q) => .to (16 + q)
  | some (.port j) =>
    if s.portUp (8 + j) then .to (8 + j)
    else
      match (List.range c.loc).find? fun i => i != j && i != c.rank % c.loc && s.portUp (8 + i) && s.farUp i j with
      | some i => .to (8 + i)
      | none => .lost (8 + j)
  | some .rails =>
    match ((List.range 8).map fun i => (c.rail + i) % 8).find? s.portUp with
    | some p => .to p
    | none => .held

/-- Whether a rank is reached inside the package. -/
def Comm.inside (c : Comm) (r : Nat) : Bool :=
  match c.route r with
  | none => r == c.rank
  | some .self => true
  | some (.part _) => true
  | some _ => false

/-- The rank that the first stage of A2A sends the block for a rank to (R325). -/
def Comm.firstHop (c : Comm) (d : Nat) : Nat :=
  if d / c.loc = c.ownNode then d else d / c.loc * c.loc + c.rank % c.loc

/-- The rank that a transfer's next chunk goes to. -/
def Xfer.target (x : Xfer) (c : Comm) : Nat :=
  match x.op with
  | .rrs => x.peer2.getD x.peer
  | .copy => c.rank
  | .a2a => c.firstHop x.next
  | _ => x.peer

/-- The communicator of a transfer. -/
def Sower.xferComm (w : Sower) (x : Xfer) : Option Comm :=
  match x.fwd with
  | some f => w.comms.find? fun c => c.serial == f.serial
  | none => (w.entry x.handle).bind w.entryComm

/-- Whether a transfer sends data that R315 keeps in order. -/
def XferOp.ordered (o : XferOp) : Bool := o == .send || o == .rrs || o == .put

/-- Whether an older message between the same two ranks has not been passed on, which keeps its place (R315, R325, R402). -/
def Sower.olderRelay (w : Sower) (x : Xfer) : Bool :=
  match x.fwd with
  | none => false
  | some f => w.xfers.any fun y => decide (y.id < x.id) &&
      (match y.fwd with | some g => g.serial == f.serial && g.src == f.src && g.dst == f.dst | none => false)

/-- Whether a transfer's next chunk could leave, but for its grant: its data is there, and no older sender of the communicator
to the same peer has chunks left (R315). -/
def State.chunkDue (s : State) (x : Xfer) (c : Comm) : Bool :=
  let n := min x.chunk (x.len - x.out)
  let sends := match x.op with | .send | .rrs | .copy | .put | .atom | .a2a | .relay => true | _ => false
  let data := x.op != .rrs || (decide (n ≤ x.results.length) && (n != 0 || x.inDone))
  let older := s.sower.xfers.any fun y => decide (y.id < x.id) && y.op.ordered && !y.outDone &&
    (match s.sower.xferComm y with | some d => d.serial == c.serial | none => false) && y.target c == x.target c
  sends && !x.outDone && c.active && data && !(x.op.ordered && older) && !s.sower.olderRelay x

/-- The blocks from a source that a communicator's rank still has to forward (R325). -/
def Sower.relayed (w : Sower) (c : Comm) (src : Nat) : Nat :=
  w.xfers.countP fun x => match x.fwd with | some f => f.serial == c.serial && f.src == src | none => false

/-- Whether a communicator has a staging slot free for a chunk that comes from a rank outside the package (R316). -/
def Sower.hasSlot (w : Sower) (c : Comm) (src : Nat) : Bool :=
  decide ((c.staged.countP fun p => p.1 == src) + (c.blocks.countP fun p => p.1 == src) + w.relayed c src < 2)

/-- The staging slots of a source at a rank of the package that are taken or granted (R316). -/
def Sower.slotsUsed (w : Sower) (peer c : Comm) : Nat :=
  (peer.flight.countP fun f => f.src == c.rank) + (peer.staged.countP fun p => p.1 == c.rank)
    + (peer.blocks.countP fun p => p.1 == c.rank) + w.relayed peer c.rank
    + w.xfers.countP fun y => y.granted &&
        (match w.xferComm y with | some d => d.serial == c.serial && y.target c == peer.rank | none => false)

/-- A staging slot is granted to a transfer's next chunk (R316). The grant of a rank outside the package comes from there; a
rank of the package that does not exist yet grants nothing. -/
def State.grantSlot (s : State) (t : Nat) : State :=
  match s.sower.xfers.find? fun x => x.id == t with
  | none => s
  | some x =>
    match s.sower.xferComm x with
    | none => s
    | some c =>
      let ok := if c.inside (x.target c) then
          match s.sower.member c (x.target c) with
          | some p => decide (s.sower.slotsUsed p c < 2)
          | none => false
        else true
      if x.granted || x.op == .copy || !c.active || !s.chunkDue x c || !ok then s
      else s.modSower fun w => { w with xfers := w.xfers.map fun y => if y.id = t then { y with granted := true } else y }

def execStagingGrant (t : Nat) (s : State) : Out := .next (s.grantSlot t)

/-! ## Chunks leave -/

/-- The transfers whose next chunk is ready at an output, in start order, with their communicators (R321). -/
def State.readyChunks (s : State) (out : Nat) : List (Xfer × Comm) :=
  s.sower.xfers.filterMap fun x =>
    match s.sower.xferComm x with
    | some c => if s.chunkDue x c && (x.granted || x.op == .copy) && s.pathTo c (x.target c) == .to out then some (x, c) else none
    | none => none

/-- The arbiter's choice (R321): a chunk passed over 64 times, else the highest VC, within it communicators in rotation after
the one last served, and the oldest transfer of that. -/
def State.arbitrate (s : State) (out : Nat) (l : List (Xfer × Comm)) : Option (Xfer × Comm) :=
  match l.find? fun p => decide (64 ≤ p.1.passed) with
  | some p => some p
  | none =>
    let vc := (l.map (·.2.vc)).foldl max 0
    let l := l.filter fun p => p.2.vc == vc
    let last := (assocGet s.sower.lastServed (out * 8 + vc)).getD 0
    let after := (l.map (·.2.serial)).filter fun n => decide (last < n)
    let ks := if after.isEmpty then l.map (·.2.serial) else after
    match ks with
    | [] => none
    | k :: rest => let k := rest.foldl min k; l.find? fun p => p.2.serial == k

/-- A transfer's state replaced. -/
def Sower.setXfer (w : Sower) (x : Xfer) : Sower :=
  { w with xfers := w.xfers.map fun y => if y.id = x.id then x else y }

/-- What the arbiter remembers of a choice among the ready chunks of the transfers `ids` (R321, R402). -/
def State.served (s : State) (ids : List Nat) (out : Nat) (x : Xfer) (c : Comm) : State :=
  s.modSower fun w =>
    let w := { w with
      xfers := w.xfers.map fun y => if y.id = x.id then { y with passed := 0 } else if ids.contains y.id then { y with passed := y.passed + 1 } else y
      lastServed := assocSet w.lastServed (out * 8 + c.vc) c.serial }
    if out < 8 then w.modComm c.serial fun c => { c with rail := (out + 1) % 8 } else w

/-- A raise of RCTR0 for one chunk, where the entry asks for it (R309). -/
def State.raiseChunk (s : State) (x : Xfer) (c : Comm) : State :=
  match s.sower.entry x.handle with
  | some e => if e.rec_.perChunk then s.raiseFor c e.r0 1 else s
  | none => s

/-- A chunk or a PUT with its place in the sequence; A2A says itself where its pieces lie (R325, R402). -/
def SMsg.numbered (m : SMsg) (n : Nat) : SMsg :=
  match m with
  | .chunk m => .chunk { m with seq := n }
  | .put m => .put { m with seq := n }
  | m => m

/-- The port of an in-node route, if the message goes through a device in between: the rank it is for (R402). -/
def Comm.via (c : Comm) (r out : Nat) : Option Nat :=
  match c.route r with
  | some (.port j) => if out = 8 + j then none else some r
  | _ => none

/-- A message that goes through a device in between names the rank that it is for (R402). -/
def SMsg.forRank (m : SMsg) (r : Option Nat) : SMsg :=
  match m with
  | .chunk m => .chunk { m with dest := r }
  | .put m => .put { m with dest := r }
  | m => m

/-- A message leaves for a rank (R316). What is passed on keeps the number that its sender gave it. -/
def State.sendTo (s : State) (c : Comm) (x : Xfer) (r out : Nat) (m : SMsg) : State :=
  if c.inside r then
    match s.sower.member c r with
    | some p => s.modSower fun w => w.modComm p.serial fun p => { p with flight := p.flight ++ [{ src := c.rank, xfer := x.id, msg := m }] }
    | none => s
  else if x.fwd.isSome then { s with out := .chunk c.comm r out (m.forRank (c.via r out)) :: s.out }
  else
    let n := (assocGet c.sent r).getD 0
    { s.modSower (fun w => w.modComm c.serial fun c =>
        match m with | .block .. => c | _ => { c with sent := assocSet c.sent r (n + 1) }) with
      out := .chunk c.comm r out ((m.numbered n).forRank (c.via r out)) :: s.out }

/-- A row of an A2A table, read when it is used (R325). -/
def State.a2aRow (s : State) (l : Launch) (x : Xfer) (d : Nat) : SRes (State × List Byte) := do
  let (s, b, _) ← s.sowerRead l (x.tab + word (32 * d)) 32 true
  .ok (s, b)

/-- The next chunk of a transfer leaves, or is copied (R313, R325). -/
def State.moveOut (s : State) (x : Xfer) (c : Comm) (out : Nat) : SRes State := do
  let l := s.commLaunch c
  let n := min x.chunk (x.len - x.out)
  let last := decide (x.len ≤ x.out + n)
  let x' : Xfer := { x with out := x.out + n, outDone := last, granted := false, passed := 0 }
  let chunk (d : List Byte) (b : List Bool) : ChunkMsg := { total := x.len, off := x.out, data := d, bad := b, rank := c.rank }
  match x.op with
  | .send =>
    let (s, d, b) ← s.sowerRead l (x.src + word x.out) n false
    .ok (((s.modSower fun w => w.setXfer x').sendTo c x x.peer out (.chunk (chunk d b))).raiseChunk x c)
  | .rrs =>
    .ok ((s.modSower fun w => w.setXfer { x' with results := x.results.drop n }).sendTo c x (x.target c) out
      (.chunk (chunk (x.results.take n) [])))
  | .copy =>
    let (s, d, b) ← s.sowerRead l (x.src + word x.out) n false
    let (s, cov) ← s.sowerPart l (x.dst + word x.out) d b x.covered
    .ok ((s.modSower fun w => w.setXfer { x' with inn := x'.out, inDone := last, covered := cov }).raiseChunk x c)
  | .put =>
    let (s, d, b) ← s.sowerRead l (x.src + word x.out) n false
    .ok ((s.modSower fun w => w.setXfer x').sendTo c x x.peer out
      (.put { dst := x.dst + word x.out, data := d, atomic := false, last, pctr := x.pctr, bad := b }))
  | .atom =>
    .ok ((s.modSower fun w => w.setXfer x').sendTo c x x.peer out
      (.put { dst := x.dst, data := leBytes 8 x.src.toNat, atomic := true, last := true, pctr := x.pctr }))
  | .a2a =>
    let (s, row) ← s.a2aRow l x x.next
    let scnt := field row 8 4
    let n := min x.chunk (scnt - x.out)
    let (s, d, b) ← s.sowerRead l (x.src + word (field row 0 8 + x.out)) n false
    let whole := decide (scnt ≤ x.out + n)
    let x' : Xfer := { x with out := if whole then 0 else x.out + n, next := if whole then x.next + 1 else x.next,
                              outDone := whole && x.next + 1 == c.n, granted := false, passed := 0 }
    .ok ((s.modSower fun w => w.setXfer x').sendTo c x (x.target c) out
      (.block x.next { total := scnt, off := x.out, data := d, bad := b, rank := c.rank }))
  | .relay =>
    match x.fwd with
    | none => .ok s
    | some f => .ok (((s.modSower fun w => { w with xfers := w.xfers.filter fun y => y.id != x.id }).sendTo c x f.dst out
        f.msg).abandon)
  | _ => .ok s

/-- What a stopped transfer leaves: its requests, or a communicator that fails (R318). -/
def State.sowerStop (s : State) (c : Comm) (h : Nat) (e : SStop) : State :=
  match e with
  | .wait s' => s'
  | .fail k a => s.commFault c k h a

/-- The handle that a fault of a transfer is recorded with: a forwarded block has no entry here, and names 0. -/
def Xfer.named (x : Xfer) : Nat := if x.fwd.isSome then 0 else x.handle

/-- The chunk that the arbiter chooses among n candidates starts on an output. One whose data cannot be read yet is not ready,
and the arbiter chooses among the others (R314, R321). -/
def State.serve (s : State) (out : Nat) (l : List (Xfer × Comm)) (n : Nat) : State :=
  match n with
  | 0 => s
  | n + 1 =>
    match s.arbitrate out l with
    | none => s
    | some (x, c) =>
      match s.moveOut x c out with
      | .ok s' => s'.served (l.map (·.1.id)) out x c
      | .error (.wait s') => s'.serve out (l.filter fun p => p.1.id != x.id) n
      | .error e => s.sowerStop c x.named e

/-- A chunk starts on an output, if one is ready there; a chunk whose in-node route has no path left fails its communicator
with POISON and address 0 (R321, R402). -/
def State.startChunk (s : State) (out : Nat) : State :=
  let lost := s.sower.xfers.find? fun x =>
    match s.sower.xferComm x with
    | some c => s.chunkDue x c && x.granted && s.pathTo c (x.target c) == .lost out
    | none => false
  match lost with
  | some x =>
    match s.sower.xferComm x with
    | some c => s.commFault c .poison x.named 0
    | none => s
  | none =>
    let l := s.readyChunks out
    s.serve out l l.length

def execChunkStart (out : Nat) (s : State) : Out := .next (s.startChunk out)

/-! ## Chunks arrive -/

/-- The oldest receive of a communicator from a rank (R315). -/
def Sower.receiver (w : Sower) (c : Comm) (src : Nat) : Option Xfer :=
  w.xfers.find? fun x => !x.inDone && x.peer == src && (x.op == .recv || x.op == .recvHome || x.op == .rrs) &&
    (match w.xferComm x with | some d => d.serial == c.serial | none => false)

/-- A receive takes a chunk (R313, R326, R432). -/
def State.takeChunk (s : State) (x : Xfer) (c : Comm) (m : ChunkMsg) : SRes State := do
  let l := s.commLaunch c
  let at' := x.dst + word x.inn
  if m.total ≠ x.len then sFail .bounds 0
  let n := x.inn + m.data.length
  let x' : Xfer := { x with inn := n, inDone := decide (x.len ≤ n) }
  let poisoned := m.bad.findIdx? id
  let put (s : State) (x' : Xfer) : State := (s.modSower fun w => w.setXfer x').raiseChunk x c
  match x.op with
  | .recv =>
    let (s, cov) ← s.sowerPart l at' m.data m.bad x.covered
    .ok (put s { x' with covered := cov })
  | .recvHome =>
    let t := redTyD x.redTy
    if t.isFloat && x.rop != 0 then sFail .unsupportedAtomic at'
    match poisoned with
    | some i => sFail .poison (at' + word i)
    | none => do
      let s ← s.homeElements l t x.rop at' m.data
      .ok (put s x')
  | _ =>
    match poisoned with
    | some i => sFail .poison (at' + word i)
    | none => do
      let t := redTyD x.redTy
      let (s, own, _) ← s.sowerRead l (x.src + word x.inn) m.data.length true
      let r := combineAll t x.rop m.data.length own m.data
      let (s, cov) ← s.sowerPart l at' r [] x.covered
      .ok (put s { x' with covered := cov, results := if x.peer2.isSome then x.results ++ r else [] })

/-- The running A2A of a communicator. -/
def Sower.a2aOf (w : Sower) (c : Comm) : Option Xfer :=
  w.xfers.find? fun x => x.op == .a2a && !x.inDone &&
    (match w.xferComm x with | some d => d.serial == c.serial | none => false)

/-- A block of A2A, or a piece of one, is written at its place in the block (R325). -/
def State.takeBlock (s : State) (x : Xfer) (c : Comm) (m : ChunkMsg) : SRes State := do
  let l := s.commLaunch c
  let (s, row) ← s.a2aRow l x m.rank
  let had := ((x.blocks.find? fun b => b.1 == m.rank).map (·.2.1)).getD 0
  let keep := min m.data.length (field row 12 4 - m.off)
  let (s, cov) ← s.sowerPart l (x.dst + word (field row 16 8 + m.off)) (m.data.take keep) (m.bad.take keep) x.covered
  let n := had + m.data.length
  let whole := decide (m.total ≤ n)
  let s ← if whole then s.sowerWrite l (x.tab + word (32 * m.rank + 24)) (leBytes 4 m.total) [] else .ok s
  let bs := x.blocks.filter (fun b => b.1 != m.rank) ++ [(m.rank, n, whole)]
  let x' : Xfer := { x with covered := cov, blocks := bs, inDone := decide (c.n ≤ bs.countP fun b => b.2.2) }
  .ok (s.modSower fun w => w.setXfer x')

/-- One staged chunk from a source, or one staged block, is consumed, if a receive is there for it (R315, R316). -/
def State.consumeOne (s : State) (serial src : Nat) : State × Bool :=
  match s.sower.comms.find? fun c => c.serial == serial with
  | none => (s, false)
  | some c =>
    let fails (x : Xfer) (e : SStop) (clear : State → State) : State × Bool :=
      match e with
      | .wait s' => (s', false)
      | .fail k a => (clear (s.commFault c k x.handle a), false)
    match s.sower.receiver c src, c.staged.find? fun p => p.1 == src with
    | some x, some p =>
      let clear (s : State) : State := s.modSower fun w => w.modComm serial fun c => { c with staged := c.staged.erase p }
      match s.takeChunk x c p.2 with
      | .ok s' => (clear s', true)
      | .error e => fails x e clear
    | _, _ =>
      match s.sower.a2aOf c with
      | none => (s, false)
      | some x =>
        match c.blocks.find? fun p => !(x.blocks.any fun b => b.1 == p.2.rank && b.2.2) with
        | none => (s, false)
        | some p =>
          let clear (s : State) : State := s.modSower fun w => w.modComm serial fun c => { c with blocks := c.blocks.erase p }
          match s.takeBlock x c p.2 with
          | .ok s' => (clear s', true)
          | .error e => fails x e clear

/-- Staged chunks are consumed while receives are there. -/
def State.consume (s : State) (serial src fuel : Nat) : State :=
  match fuel with
  | 0 => s
  | fuel + 1 =>
    let (s', more) := s.consumeOne serial src
    if more then s'.consume serial src fuel else s'

/-- Every staged chunk of a communicator from a source is tried (R315). -/
def State.drainComm (s : State) (c : Comm) (src : Nat) : State :=
  let n := (s.sower.comms.foldl (fun n d => n + d.staged.length + d.blocks.length) 0)
  (s.consume c.serial src (n + 1)).abandon

/-- The oldest flight to a communicator from a rank. -/
def Comm.nextFlight (c : Comm) (src : Nat) : Option SFlight := c.flight.find? fun f => f.src == src

/-- How the number of a message from outside stands to the sequence of its source: it is the next, or an earlier one has not come, or it has
been heard (R402). -/
def Comm.inTurn (c : Comm) (src n : Nat) : Ordering := compare n ((assocGet c.heard src).getD 0)

/-- The next message of a source has been heard (R402). -/
def Sower.hear (w : Sower) (c : Comm) (src : Nat) : Sower :=
  w.modComm c.serial fun c => { c with heard := assocSet c.heard src ((assocGet c.heard src).getD 0 + 1) }

/-- A message is set to be passed on to a rank of the node, as a chunk like any other (R321, R325, R402). A FAILED communicator passes on
nothing (R318). -/
def State.passOn (s : State) (c : Comm) (src d n : Nat) (m : SMsg) : State :=
  if c.active then
    s.startXfer 16384 { id := 0, handle := 0, op := .relay, peer := d, len := n, chunk := n,
                        fwd := some { serial := c.serial, src, dst := d, msg := m } }
  else s.abandon

/-- A chunk that comes from outside: it is passed on if it is another rank's, it waits until what was sent before it has come, and else it is
staged (R316, R402). -/
def State.chunkFrom (s : State) (c : Comm) (src : Nat) (m : ChunkMsg) : State :=
  if c.inside src || decide (c.n ≤ src) || decide (m.total - m.off < m.data.length) || !s.sower.hasSlot c src then s
  else
    match m.dest.filter (· != c.rank) with
    | some d => s.passOn c src d m.data.length (.chunk { m with dest := none })
    | none =>
      match c.inTurn src m.seq with
      | .lt => s
      | .gt => s.comeAgain
      | .eq => s.modSower fun w => (w.hear c src).modComm c.serial fun c => { c with staged := c.staged ++ [(src, m)] }

/-- A chunk arrives at a communicator: from a rank of the package, or from outside. It is staged and consumed as receives
allow; without an arrival, receives that waited are tried again (R315, R316, R325). -/
def State.chunkArrives (s : State) (cm src : Nat) (ext : Option ChunkMsg) : State :=
  match s.sower.comms[cm]? with
  | none => s
  | some c =>
    let s := match c.nextFlight src, ext with
      | some f, _ =>
        match f.msg with
        | .chunk m => s.modSower fun w => w.modComm c.serial fun c => { c with flight := c.flight.erase f, staged := c.staged ++ [(src, m)] }
        | .block d m =>
          if d = c.rank then
            s.modSower fun w => w.modComm c.serial fun c => { c with flight := c.flight.erase f, blocks := c.blocks ++ [(src, m)] }
          else s
        | .put _ => s
      | none, some m => s.chunkFrom c src m
      | none, none => s
    s.drainComm c src

def execChunkArrival (cm src : Nat) (ext : Option ChunkMsg) (s : State) : Out := .next (s.chunkArrives cm src ext)

/-- The block of A2A that stands first from a source and is not kept as it arrives: whether it was in flight inside the
package, the rank it is for, and the block. One from outside finds a staging slot (R316, R325). -/
def State.blockFrom (s : State) (c : Comm) (src dst : Nat) (m : ChunkMsg) : Option (Option SFlight × Nat × ChunkMsg) :=
  match c.nextFlight src with
  | some f => match f.msg with | .block d m => if d = c.rank then none else some (some f, d, m) | _ => none
  | none =>
    if c.inside src || decide (c.n ≤ src) || dst / c.loc != c.ownNode || decide (c.n ≤ m.rank) || decide (c.n ≤ dst)
        || m.data.length > m.total - m.off || !s.sower.hasSlot c src then none
    else some (none, dst, m)

/-- A block of another rank of the node is set to be forwarded, as a chunk like any other (R321), or one that arrives from
outside for this rank is kept, without any core taking part (R325). A FAILED communicator forwards nothing (R318). -/
def State.forwardBlock (s : State) (cm src dst : Nat) (m : ChunkMsg) : State :=
  match s.sower.comms[cm]? with
  | none => s
  | some c =>
    match s.blockFrom c src dst m with
    | none => s
    | some (f, d, m) =>
      let s := match f with
        | some f => s.modSower fun w => w.modComm c.serial fun c => { c with flight := c.flight.erase f }
        | none => s
      if d = c.rank then
        (s.modSower fun w => w.modComm c.serial fun c => { c with blocks := c.blocks ++ [(src, m)] }).drainComm c src
      else s.passOn c src d m.data.length (.block d m)

def execA2aForward (cm src dst : Nat) (msg : ChunkMsg) (s : State) : Out := .next (s.forwardBlock cm src dst msg)

/-- The data of a PUT written at the peer; its source's PUTs come one after another (R313, R315, R433). -/
def State.putData (s : State) (c : Comm) (src : Nat) (m : PutMsg) : SRes State := do
  let (s, cov) ← s.sowerPart (s.commLaunch c) m.dst m.data m.bad ((assocGet c.covered src).getD [])
  .ok (s.modSower fun w => w.modComm c.serial fun c =>
    { c with covered := if m.last ∨ cov.isEmpty then assocDel c.covered src else assocSet c.covered src cov })

/-- A PUT or ATOM of an entry is performed at the peer, then raises PCTR there (R313, R320). -/
def State.performPut (s : State) (c : Comm) (src h : Nat) (m : PutMsg) : SRes State := do
  let l := s.commLaunch c
  let s ← if m.atomic then s.sowerAtomic l m.dst (leNat (m.data.take 8)) else s.putData c src m
  match if m.last then m.pctr else none with
  | none => .ok s
  | some k =>
    if c.cbase ≤ k ∧ k < c.cbase + c.ccnt then .ok (s.raiseFor c (some (l.ctrBase + k)) 1)
    else .ok (s.commFault c .trigXcomm h 0)

/-- The sender of a performed PUT or ATOM of the package learns of it (R313). -/
def State.putDone (s : State) (t n : Nat) (last : Bool) : State :=
  match s.sower.xfers.find? fun x => x.id == t with
  | none => s
  | some x =>
    let s := s.modSower fun w => w.setXfer { x with inn := x.inn + n, inDone := x.inDone || last }
    match s.sower.xferComm x with
    | some c => s.raiseChunk x c
    | none => s

/-- A PUT or ATOM that comes from outside: it is passed on if it is another rank's, and it waits while what was sent before it has not come, or
while its access waits (R314, R402). -/
def State.putFrom (s : State) (c : Comm) (src : Nat) (m : PutMsg) : State :=
  if c.inside src || decide (c.n ≤ src) then s
  else
    match m.dest.filter (· != c.rank) with
    | some d => s.passOn c src d m.data.length (.put { m with dest := none })
    | none =>
      match c.inTurn src m.seq with
      | .lt => s
      | .gt => s.comeAgain
      | .eq =>
        match s.performPut c src 0 m with
        | .ok s' => s'.modSower fun w => w.hear c src
        | .error (.wait s') => s'.comeAgain
        | .error e => (s.sowerStop c 0 e).modSower fun w => w.hear c src

/-- A PUT or ATOM arrives at a communicator, from a rank of the package or from outside (R313, R314). -/
def State.putArrives (s : State) (cm src : Nat) (ext : Option PutMsg) : State :=
  match s.sower.comms[cm]? with
  | none => s
  | some c =>
    match c.nextFlight src, ext with
    | some f, _ =>
      match f.msg with
      | .put m =>
        let clear (s : State) : State := s.modSower fun w => w.modComm c.serial fun c => { c with flight := c.flight.erase f }
        let h := ((s.sower.xfers.find? fun x => x.id == f.xfer).map (·.handle)).getD 0
        match s.performPut c src h m with
        | .ok s' => ((clear s').putDone f.xfer m.data.length m.last).abandon
        | .error (.wait s') => s'
        | .error (.fail k a) => (clear (s.commFault c k h a)).abandon
      | _ => s
    | none, some m => s.putFrom c src m
    | none, none => s

def execPutArrival (cm src : Nat) (ext : Option PutMsg) (s : State) : Out := .next (s.putArrives cm src ext)

/-! ## Entries begin -/

/-- A receiving entry of a handle that runs is tried again; else the fired entry begins. -/
def State.beginOrRetry (s : State) (h op : Nat) (mk : ERec → Comm → Xfer) : State :=
  match s.sower.xfers.find? fun x => x.handle == h with
  | some x => (match s.sower.xferComm x with | some c => s.drainComm c x.peer | none => s)
  | none =>
    let s := s.beginEntry h op mk
    match s.sower.xfers.find? fun x => x.handle == h with
    | some x => (match s.sower.xferComm x with | some c => s.drainComm c x.peer | none => s)
    | none => s

def execSend (h : Fin 16384) (s : State) : Out := .next (s.beginEntry h.val 1 fun r c => r.xfer c .send)

def execRecv (h : Fin 16384) (s : State) : Out :=
  .next (s.beginOrRetry h.val 2 fun r c => r.xfer c (if r.home then .recvHome else .recv))

def execRrs (h : Fin 16384) (s : State) : Out := .next (s.beginOrRetry h.val 3 fun r c => r.xfer c .rrs)

def execCopy (h : Fin 16384) (s : State) : Out := .next (s.beginEntry h.val 4 fun r c => r.xfer c .copy)

def execPut (h : Fin 16384) (s : State) : Out := .next (s.beginEntry h.val 6 fun r c => r.xfer c .put)

def execSowerAtom (h : Fin 16384) (s : State) : Out := .next (s.beginEntry h.val 7 fun r c => r.xfer c .atom)

/-- The transfer of an A2A entry (R325). -/
def ERec.a2a (r : ERec) (_ : Comm) : Xfer :=
  { id := 0, handle := 0, op := .a2a, src := word (field r.body 8 8), dst := word (field r.body 16 8),
    tab := word (field r.body 24 8), chunk := r.chunk }

def execA2a (h : Fin 16384) (s : State) : Out := .next (s.beginOrRetry h.val 9 ERec.a2a)

/-! ## Completion -/

/-- Whether a transfer has completed (R313). -/
def State.xferDone (s : State) (x : Xfer) : Bool :=
  (x.outDone && x.inDone) || (x.op == .wait && x.ctr.isNone && thresholdMet (word s.stime) x.thresh)

/-- Whether a transfer is a PUT or ATOM to a rank outside the package. -/
def Sower.putsOut (w : Sower) (x : Xfer) : Bool :=
  (x.op == .put || x.op == .atom) && (match w.xferComm x with | some c => !c.inside x.peer | none => false)

/-- A peer outside the package has performed the oldest chunk of a PUT or ATOM that it had not (R313, R317). -/
def State.acknowledgePut (s : State) (h : Nat) : State :=
  match s.sower.xfers.find? fun x => x.handle == h with
  | some x =>
    if s.sower.putsOut x && !x.inDone && (x.outDone || decide (x.inn < x.out)) then
      let n := min x.chunk (x.out - x.inn)
      s.putDone x.id n (decide (x.len ≤ x.inn + n))
    else s
  | none => s

/-- An entry whose transfer has completed raises its counters and frees its handle. Of a PUT or ATOM to a rank outside the
package this is the peer's word that one more chunk has been performed at `.sys` (R311, R313, R317). -/
def State.entryCompletes (s : State) (h : Nat) : State :=
  let s := s.acknowledgePut h
  match s.sower.entry h, s.sower.xfers.find? fun x => x.handle == h with
  | some e, some x =>
    match s.sower.entryComm e with
    | some c => if e.phase == .running && e.prog.isNone && c.active && s.xferDone x then s.finishEntry e c else s
    | none => s
  | _, _ => s

def execSowerEntryComplete (h : Fin 16384) (s : State) : Out := .next (s.entryCompletes h.val)

/-! ## Programs -/

/-- The fields of a step (R323). -/
def parseStep (b : List Byte) : PStep where
  kind := field b 0 1
  overlap := fieldBit b 1 0
  fromD := fieldBit b 1 1
  home := fieldBit b 1 2
  redTy := field b 2 1 % 16
  rop := field b 2 1 / 16 % 4
  peer := field b 4 4
  peer2 := fieldInt b 8 4
  sidx := BitVec.ofNat 32 (field b 12 4)
  didx := BitVec.ofNat 32 (field b 16 4)
  len := field b 20 4
  thresh := word (field b 24 8)

/-- What is wrong with a step record, as it stands alone (R312, R320, R323). -/
def stepCause (c : Comm) (slot : Nat) (b : List Byte) : Option Cause :=
  let k := field b 0 1
  let home := fieldBit b 1 2
  if decide (7 < k) || field b 1 1 / 8 != 0 || field b 3 1 != 0 || (home && k != 2) || decide (slot < field b 20 4)
      || !(if k == 3 || home then redOk (field b 2 1) (field b 20 4) else field b 2 1 == 0)
      || (k != 3 && field b 8 4 != 0) || (k != 5 && field b 24 8 != 0) then some .bounds
  else if k == 5 && !c.owns (field b 4 4) then some .trigXcomm
  else none

/-- The step array read through the first END (R322): the steps without it. -/
def State.readSteps (s : State) (l : Launch) (c : Comm) (slot : Nat) (base va : Word) (fuel : Nat) (acc : List PStep) :
    SRes (State × List PStep) :=
  match fuel with
  | 0 => sFail .bounds base
  | fuel + 1 => do
    let (s, b, _) ← s.sowerRead l va 32 true
    match stepCause c slot b with
    | some k => sFail k va
    | none =>
      if field b 0 1 = 0 then .ok (s, acc) else s.readSteps l c slot base (va + 32) fuel (acc ++ [parseStep b])

/-- A fired PROG reads its array, and its runner stands at step 0 (R322, R324). -/
def State.beginProg (s : State) (h : Nat) : State :=
  match s.sower.startable h 8 with
  | none => s
  | some (e, c) =>
    let va := word (field e.rec_.body 8 8)
    match s.readSteps (s.commLaunch c) c (field e.rec_.body 4 4) va va 256 [] with
    | .error e => s.sowerStop c h e
    | .ok (s', steps) =>
      match steps.findIdx? fun p => (p.kind == 6 || p.kind == 7) && decide (steps.length < p.peer) with
      | some i => s.commFault c .bounds h (va + word (32 * i))
      | none => s'.modSower fun w => w.modEntry h fun e => { e with phase := .running, prog := some { steps } }

def execProg (h : Fin 16384) (s : State) : Out := .next (s.beginProg h.val)

/-- The slot index of a specification (R323). -/
def slotIndex (c : Comm) (p : Prog) (spec : BitVec 32) : Nat :=
  let f (i : Nat) : Int := bitsInt true 8 (spec.toNat / 2 ^ (8 * i) % 256)
  ((f 0 * c.rank + f 1 * p.i0 + f 2 * p.i1 + f 3) % (c.n : Int)).toNat

/-- The transfer of a step (R323, R324). -/
def State.stepXfer (s : State) (e : Entry) (c : Comm) (p : Prog) (t : PStep) : Xfer :=
  let slot := field e.rec_.body 4 4
  let dbase := word (field e.rec_.body 16 8)
  let base := if t.fromD then dbase else word (field e.rec_.body 24 8)
  let l := s.commLaunch c
  let signed : Int := bitsInt true 32 t.peer
  let x : Xfer := { id := 0, handle := 0, op := .send, peer := c.peer signed, src := base + word (slotIndex c p t.sidx * slot),
                    dst := dbase + word (slotIndex c p t.didx * slot), len := t.len, chunk := e.rec_.chunk, redTy := t.redTy,
                    rop := t.rop }
  match t.kind with
  | 1 => x
  | 2 => { x with op := if t.home then .recvHome else .recv }
  | 3 => { x with op := .rrs, peer2 := if t.peer2 = peerNone then none else some (c.peer t.peer2) }
  | 4 => { x with op := .copy }
  | _ =>
    let k := l.absCtr t.peer
    let met := match k with | some k => thresholdMet (s.counter k) t.thresh | none => false
    { x with op := .wait, len := 0, ctr := k, thresh := t.thresh, outDone := met, inDone := met }

def Entry.atStep (e : Entry) (p : Prog) : Entry := { e with prog := some p }

/-- The runner's next move (R324): a loop step moves it, END ends the program once every step has completed, and another
step starts once order and the limit of 64 allow. -/
def State.progStep (s : State) (h : Nat) : State :=
  match s.sower.entry h with
  | none => s
  | some e =>
    match s.sower.entryComm e, e.prog with
    | some c, some p =>
      if !c.active then s else
      let done := (s.sower.xfers.filter fun x => x.handle == h && s.xferDone x).map (·.id)
      let s := s.modSower fun w => { w with xfers := w.xfers.filter fun x => !done.contains x.id }
      let busy := s.sower.xfers.countP fun x => x.handle == h
      match p.steps[p.next]? with
      | none => if busy = 0 then s.finishEntry e c else s
      | some t =>
        if t.kind = 6 then
          let i := p.i0 + 1
          s.modSower fun w => w.modEntry h fun e =>
            e.atStep { p with i0 := i, next := if i < field e.rec_.body 0 2 then t.peer else p.next + 1 }
        else if t.kind = 7 then
          let i := p.i1 + 1
          s.modSower fun w => w.modEntry h fun e =>
            e.atStep { p with i1 := i, i0 := 0, next := if i < field e.rec_.body 2 2 then t.peer else p.next + 1 }
        else if (!t.overlap && busy != 0) || decide (64 ≤ busy) then s
        else
          let x := s.stepXfer e c p t
          let s := s.startXfer h x
          let s := s.modSower fun w => w.modEntry h fun e => e.atStep { p with next := p.next + 1 }
          if t.kind = 2 ∨ t.kind = 3 then s.drainComm c x.peer else s
    | _, _ => s

def execProgStepStart (h : Fin 16384) (s : State) : Out := .next (s.progStep h.val)

/-! ## Ports -/

/-- A chunk of a communicator that an uncorrectable link has lost fails it with POISON and address 0 (R402). -/
def State.chunkLost (s : State) (cm h : Nat) : State :=
  match s.sower.comms[cm]? with
  | some c => s.commFault c .poison h 0
  | none => s

/-- An Ongeoz port goes down: chunks may be lost on it, and its master is heard no more (R402, R423). -/
def State.ongeozPortDown (s : State) (p : Nat) (lost : List (Nat × Nat)) : State :=
  lost.foldl (fun s e => s.chunkLost e.1 e.2)
    { s with ongeozDown := addOnce p s.ongeozDown, time := { s.time with announced := assocDel s.time.announced p } }

/-- An Ongeoz link fails (R402). -/
def execOngeozPortDown (e : OngeozLoss) (s : State) : Out :=
  .next (match e with
    | .port p lost => s.ongeozPortDown p.val lost
    | .between a b =>
      let k := (min a.val b.val, max a.val b.val)
      { s with farDown := if s.farDown.contains k then s.farDown else s.farDown ++ [k] }
    | .chunk cm h => s.chunkLost cm h)

/-- An Ongeoz link comes back up and takes new chunks (R402). -/
def execOngeozPortUp (e : OngeozLink) (s : State) : Out :=
  .next (match e with
    | .port p => { s with ongeozDown := s.ongeozDown.filter (· != p.val) }
    | .between a b => { s with farDown := s.farDown.filter (· != (min a.val b.val, max a.val b.val)) })

end Sys2Proof.Machine
end

