-- ==== Sys2Proof/Machine/Queues.lean ====
section
/-! DEFINITION. Work queues: their pages' registers, the reading of entries and the writing of records (R341 to R343,
R396 to R398). Queues have their numbers in the package. -/

namespace Sys2Proof.Machine

/-- A queue of the package; one that no write has reached is as at reset (R341, R396). -/
def State.queue (s : State) (q : Nat) : WQueue := (assocGet s.queues q).getD {}

def State.modQueue (s : State) (q : Nat) (f : WQueue → WQueue) : State :=
  if q < 65536 then { s with queues := assocSet s.queues q (f (s.queue q)) } else s

/-- The partition whose function numbers a queue (R341). -/
def queuePart (pm : PartMode) (q : Nat) : Nat := q * partCount pm / 65536

/-! ## Registers -/

/-- The bits of Q.SQBASE and Q.CQBASE (R396). -/
def baseBits (v : Word) : Word := v &&& 0x800FFFFFFFFFFFC0

/-- A ring's size field: below 4 it is written as 4 (R396). -/
def ringLog (n : Nat) : Nat := max 4 n

/-- Q.CTL written (R396). -/
def WQueue.setCtl (x : WQueue) (v : Word) : WQueue :=
  let err := x.err && wbits v 1 1 == 0
  let en := wbits v 0 1 == 1 && !err
  let x := { x with vec := wbits v 16 16, ien := wbits v 2 1 == 1, err, en := en }
  x

/-- A write of Q.CTL: an enabling sets the counters to 0 and begins a new count of entries (R342, R396). Queues take nothing before
bring-up has come to its last step (R446). -/
def State.qCtlWrite (s : State) (q : Nat) (v : Word) : State :=
  if !s.memActive then s else
  s.modQueue q fun x =>
    let y := x.setCtl v
    if y.en && !x.en then
      { y with sqTail := 0, sqHead := 0, cqTail := 0, cqHead := 0, epoch := y.epoch + 1 }
    else y

def execQCtlWrite (q : Nat) (v : Word) (s : State) : Out := .next (s.qCtlWrite q v)

/-- A queue error: entries that have not been read are dropped, since nothing is read while EN is 0 (R396, R397). -/
def WQueue.fail (x : WQueue) : WQueue := { x with err := true, en := false }

/-- The doorbell (R397, R446). -/
def State.doorbell (s : State) (q : Nat) (tail : BitVec 32) : State :=
  if !s.memActive then s else
  s.modQueue q fun x =>
    let y := { x with sqTail := tail }
    if 2 ^ x.sqLog < (tail - x.sqHead).toNat then y.fail else y

def execDoorbell (q : Nat) (tail : BitVec 32) (s : State) : Out := .next (s.doorbell q tail)

def execQCqheadWrite (q : Nat) (head : BitVec 32) (s : State) : Out := .next (s.modQueue q fun x => { x with cqHead := head })

/-- Q.SQBASE, Q.CQBASE and Q.SIZE written: ignored while EN is 1 (R396). -/
def WQueue.setSqBase (x : WQueue) (v : Word) : WQueue := if x.en then x else { x with sqBase := baseBits v }

def WQueue.setCqBase (x : WQueue) (v : Word) : WQueue := if x.en then x else { x with cqBase := baseBits v }

def WQueue.setSize (x : WQueue) (v : Word) : WQueue :=
  if x.en then x else { x with cqLog := ringLog (wbits v 8 4), sqLog := ringLog (wbits v 0 4) }

/-- The register of a queue's page at 8 times a number, as the host reads it (R396). -/
def WQueue.reg (x : WQueue) (i : Nat) : Word :=
  match i with
  | 0 => x.sqBase
  | 1 => x.cqBase
  | 2 => BitVec.ofNat 64 (x.cqLog * 2 ^ 8 + x.sqLog)
  | 3 => BitVec.ofNat 64 (x.vec * 2 ^ 16 + x.ien.toNat * 4 + x.err.toNat * 2 + x.en.toNat)
  | 4 => x.sqTail.setWidth 64
  | 5 => x.sqHead.setWidth 64
  | 6 => x.cqTail.setWidth 64
  | 7 => x.cqHead.setWidth 64
  | _ => 0

/-- Whether a host access to a queue's page reaches a register: it is aligned, has 4 or 8 bytes, and lies below 0x040
(R396). -/
def pageAccess (off n : Nat) : Bool := (n == 4 || n == 8) && off % n == 0 && decide (off < 0x40)

/-- The package's number of a function's queue (R341, R395). -/
def packageQueue (pm : PartMode) (p q : Nat) : Option Nat :=
  let n := 65536 / partCount pm
  if p < partCount pm ∧ q < n then some (p * n + q) else none

/-- What a host read of n bytes of a queue's page returns, through the function of a partition (R395, R396). -/
def State.pageRead (s : State) (p q off n : Nat) : Word :=
  match packageQueue s.pm p q with
  | some k =>
    if pageAccess off n then ((s.queue k).reg (off / 8) >>> (8 * (off % 8))) &&& BitVec.ofNat 64 (2 ^ (8 * n) - 1) else 0
  | none => 0

/-- A write of n bytes to a register changes those bytes of it (R396). -/
def regPart (old : Word) (off n : Nat) (v : Word) : Word :=
  if n = 8 then v
  else if off % 8 = 0 then (old &&& 0xFFFFFFFF00000000) ||| (v &&& 0xFFFFFFFF)
  else (old &&& 0xFFFFFFFF) ||| (v <<< 32)

/-- A host write of n bytes to a queue's page, through the function of a partition (R395, R396). The upper halves of all but the
two base registers are reserved. -/
def State.pageWrite (s : State) (p q off n : Nat) (v : Word) : State :=
  match packageQueue s.pm p q with
  | some k =>
    if !pageAccess off n then s else
    match off / 8 with
    | 0 => s.modQueue k fun x => x.setSqBase (regPart x.sqBase off n v)
    | 1 => s.modQueue k fun x => x.setCqBase (regPart x.cqBase off n v)
    | i =>
      if off % 8 ≠ 0 then s else
      match i with
      | 2 => s.modQueue k fun x => x.setSize v
      | 3 => s.qCtlWrite k v
      | 4 => s.doorbell k (v.setWidth 32)
      | 7 => s.modQueue k fun x => { x with cqHead := v.setWidth 32 }
      | _ => s
  | none => s

/-! What the host reads and writes through a partition's function (R395): addresses below 2^52 are those of its HDM range, and
2^52 + a is place a of its BAR2. -/

/-- Where the host's numbering of BAR2 begins. -/
def barBase : Nat := 2 ^ 52

/-- A host read of BAR2: a register of a queue's page, or 0 (R395, R396). -/
def State.barRead (s : State) (p a n : Nat) : State :=
  if p < partCount s.pm ∧ s.anyPort true = true then
    { s with out := .hostData (barBase + a) (leBytes n (s.pageRead p (a / 4096) (a % 4096) n).toNat) false :: s.out }
  else s

/-- A host write of BAR2 (R395, R396). -/
def State.barWrite (s : State) (p a : Nat) (data : List Byte) : State :=
  if s.anyPort true then s.pageWrite p (a / 4096) (a % 4096) data.length (BitVec.ofNat 64 (leNat data)) else s

def execHostRead (p pa n : Nat) (s : State) : Out :=
  .next (if barBase ≤ pa then s.barRead p (pa - barBase) n else s.hostReads p pa n)

/-- A host write: of BAR2, or of device memory, where one of a CUT page comes again once the shadow reserve has room (R395, R440). -/
def execHostWrite (p pa : Nat) (data : List Byte) (poison : Bool) (s : State) : Out :=
  .next (if barBase ≤ pa then s.barWrite p (pa - barBase) data
    else if s.hostHeld p pa data.length then s.comeAgain
    else s.hostWrites p pa data poison)

/-! ## Ring slots -/

/-- Where a ring slot lies: an address of the queue's partition or of the host (R396). A slot that is nowhere has none. -/
def State.slotAcc (s : State) (q : Nat) (base : Word) (off n : Nat) : Option Acc :=
  let a := wbits base 6 46 * 64 + off
  let p := queuePart s.pm q
  if wbits base 63 1 = 1 then
    if a + n ≤ partSize s.pm then some { keys := range (devKey s.pm p a) n, place := .dev (devKey s.pm p a), part := p } else none
  else if hostBase + a + n ≤ headBase then some { keys := range (hostBase + a) n, place := .host (hostBase + a), coh := true, part := p }
  else none

/-- What reading an entry finds. -/
inductive SlotRead where
  | bytes (s : State) (bs : List Byte)
  | wait (s : State)
  | fault

/-- The next entry of a queue, when one is readable (R397). -/
def State.readEntry (s : State) (q : Nat) : Option SlotRead :=
  let x := s.queue q
  if !x.en || x.sqHead == x.sqTail then none else
  match s.slotAcc q x.sqBase (64 * (x.sqHead.toNat % 2 ^ x.sqLog)) 64 with
  | none => some .fault
  | some a =>
    if s.quarantined a.keys then some .fault else
    match s.engineDemand .ofHeadland [a] .read with
    | some s' => some (.wait s')
    | none => some <| if s.poisoned a.keys then .fault else (.bytes (s.engineArrive .ofHeadland [a] .read) (s.bytesAt a.keys))

/-- The head passes an entry (R396). -/
def State.passEntry (s : State) (q : Nat) : State := s.modQueue q fun x => { x with sqHead := x.sqHead + 1 }

/-! ## Records -/

/-- A record joins its queue's records that wait for the ring (R397). -/
def State.report (s : State) (q : Nat) (r : CqRec) : State := s.modQueue q fun x => { x with records := x.records ++ [r] }

/-- A record's 32 bytes (R343). -/
def CqRec.bytes (r : CqRec) (stamp : Nat) : List Byte :=
  leBytes 1 r.status ++ leBytes 1 r.cause ++ leBytes 2 0 ++ leBytes 4 r.tag.toNat ++ leBytes 8 r.launch ++ leBytes 4 r.fatal
    ++ leBytes 4 r.ncore ++ leBytes 8 stamp

/-- The oldest waiting record is written once its ring has room, then the tail advances, then the message leaves on one of the
2,048 vectors of the function (R393, R397). A
record whose slot is nowhere is lost. Nothing is written until a stopped scheduler part has been reloaded (R447). -/
def State.writeRecord (s : State) (q : Nat) : State :=
  if s.firmware.stopped then s else
  let x := s.queue q
  match x.records with
  | [] => s
  | r :: rest =>
    if (x.cqTail - x.cqHead).toNat = 2 ^ x.cqLog then s else
    let done (s : State) : State :=
      let s := s.modQueue q fun x => { x with records := rest, cqTail := x.cqTail + 1 }
      if x.ien && decide (x.vec < 2048) then { s with out := .msix q x.vec :: s.out } else s
    match s.slotAcc q x.cqBase (32 * (x.cqTail.toNat % 2 ^ x.cqLog)) 32 with
    | none => done s
    | some a =>
      match s.engineDemand .ofHeadland [a] .store with
      | some s' => s'
      | none => done ((s.engineArrive .ofHeadland [a] .store).engineWrite a.keys (r.bytes s.stime) [])

def execCqRecordWrite (q : Nat) (s : State) : Out := .next (s.writeRecord q)

end Sys2Proof.Machine
end

