-- ==== Sys2Proof/Machine/Save.lean ====
section
/-! DEFINITION. The save areas of a pre-empted core as they stand in memory (R386 to R389). -/

namespace Sys2Proof.Machine

def b2n (b : Bool) : Nat := if b then 1 else 0

/-- The code of a rounding mode in FP.MODE (R47, R49). -/
def RMode.code : RMode → Nat
  | .rne => 1 | .rtz => 2 | .rup => 3 | .rdn => 4 | .sr => 5

/-- FP.MODE as it is read (R49). -/
def Ctx.fpMode (t : Ctx) : Nat := t.seed.toNat * 2 ^ 32 + b2n t.ftz * 2 ^ 6 + b2n t.ovf8 * 2 ^ 5 + t.rm.code

/-- SYM.MODE as it is read (R73). -/
def Ctx.symMode (t : Ctx) : Nat := t.quota.toNat * 2 ^ 8 + b2n t.nolog * 2 + b2n t.nofold

/-- SYM.SEL as it is read (R95). -/
def Ctx.symSelWord (t : Ctx) : Nat := b2n t.selErr * 2 ^ 8 + t.selSym.val

/-- SPILL.DEPTH as it is read (R105). -/
def Ctx.spillDepthWord (t : Ctx) : Nat := t.spillLimit.toNat * 2 ^ 16 + t.spillDepth.toNat

/-- Bytes laid end to end, then zeros up to a length. -/
def padTo (n : Nat) (bs : List Byte) : List Byte := bs.take n ++ List.replicate (n - bs.length) 0

/-- Whether a register holds a form. -/
def Reg.isForm (r : Reg) : Bool :=
  match r with
  | .value _ => false
  | _ => true

/-- A form record (R388). -/
def Reg.formRecord (r : Reg) : List Byte :=
  let head (kind : Nat) (s : Sym) (n : Nat) : List Byte := leBytes 1 kind ++ leBytes 1 s.val ++ leBytes 1 n ++ leBytes 5 0
  padTo 64 <| match r with
    | .int s a b => head 1 s 0 ++ leBytes 8 a.toNat ++ leBytes 8 b.toNat
    | .aff s a b => head 3 s 0 ++ leBytes 4 a.toNat ++ leBytes 4 b.toNat
    | .log s l => head 2 s l.length ++ List.replicate 8 0 ++ l.flatMap fun e =>
        leBytes 1 e.fn.val ++ leBytes 1 e.pos.val ++ leBytes 1 e.ty.code.toNat ++ leBytes 1 e.rnd.code ++ leBytes 4 0
          ++ leBytes 4 e.k1.toNat ++ leBytes 4 e.k2.toNat
    | _ => []

/-- Form tags of registers in order, when `used` records of the pool are taken (R387). -/
def formTags (used : Nat) (rs : List Reg) : List Nat :=
  match rs with
  | [] => []
  | r :: rest => if r.isForm then (used + 1) :: formTags (used + 1) rest else 0 :: formTags used rest

/-- Whether a context restarts a wait on resume: `wait`, `barwait`, `cbwait`, `wfe` or a plain `mrecv` (R382). -/
def Ctx.waiting (t : Ctx) : Bool := t.run == .asleep || t.run == .listening

/-- Whether a context awaits a service's reply (R382). -/
def Ctx.awaitsReply (t : Ctx) : Bool :=
  match t.run with
  | .service .. => true
  | _ => false

/-- The STATE word (R387). -/
def Ctx.stateWord (t : Ctx) (k : SlotId) : Nat :=
  let rasv := (List.finRange 8).foldl (fun n i => n + b2n (t.ras.get i).isSome * 2 ^ i.val) 0
  t.gen.toNat * 2 ^ 48 + rasv * 2 ^ 40 + t.latch.toNat * 2 ^ 35 + t.pos.val * 2 ^ 32 + b2n t.waiting * 2 ^ 7
    + b2n t.awaitsReply * 2 ^ 6 + b2n (t.mode == .h) * 2 ^ 5 + b2n t.live * 2 ^ 4 + k.val

/-- A context area (R387); `used` is how many form records earlier slots take. -/
def Ctx.area (t : Ctx) (k : SlotId) (used : Nat) : List Byte :=
  if !t.live then List.replicate 4480 0 else
  let vals (l : List Reg) : List Byte := l.flatMap fun r => leBytes 8 r.val.toNat
  let words (l : List Nat) : List Byte := l.flatMap fun n => leBytes 8 n
  let head := words [t.pc.toNat, t.epc.toNat, t.spillBase.toNat * 16, t.spillDepthWord, t.fpMode, t.symMode, t.symSelWord,
    t.stateWord k]
  let ras := t.ras.toList.flatMap fun a => leBytes 8 (a.getD 0).toNat
  let regs := vals t.stack.toList ++ vals t.g.toList ++ vals t.o.toList ++ vals [t.lat] ++ ras ++ vals t.hw.toList
    ++ vals [t.hlat] ++ t.gens.flatMap (fun g => leBytes 4 g.toNat)
  let masks := t.m.toList.flatMap fun m => leBytes 16 m.toNat
  let vecs := t.v.toList.flatMap fun v => leBytes 128 v.toNat
  let tags := (formTags used t.regs).flatMap fun n => leBytes 2 n
  padTo 4480 (padTo 2048 (padTo 1696 (head ++ regs) ++ masks) ++ vecs ++ tags)

/-- The forms that a slot's registers hold, in tag order (R387). -/
def Ctx.forms (t : Ctx) : List Reg := if t.live then t.regs.filter Reg.isForm else []

/-- A replay-queue entry (R389). -/
def Parked.saved (p : Parked) : List Byte :=
  let kind := match p.kind with | .store => 1 | .atomic _ => 2 | .reduction _ => 3
  let ext := (BitVec.append p.sc.code (BitVec.append p.ord.code p.win.code)).toNat
  leBytes 8 p.va.toNat ++ leBytes 8 p.data.toNat ++ leBytes 8 p.cmp.toNat ++ leBytes 1 kind ++ leBytes 1 p.maj
    ++ leBytes 1 p.fn ++ leBytes 1 ((p.ty.map fun t => t.code.toNat).getD 0) ++ leBytes 1 ext
    ++ leBytes 1 ((p.ref.map fun r => r.s.val).getD 0) ++ leBytes 2 0

/-- A region-table entry (R388). -/
def Region.saved (r : Region) : List Byte :=
  let st := match r.phase with | .free => 0 | .absent => 1 | .copying => 2 | .present => 3 | .fault .. => 4
  let addr : Word := match r.phase with | .fault _ a => a | _ => 0
  leBytes 8 (st * 2 ^ 60 + r.len * 2 ^ 24 + r.win.code.toNat * 2 ^ 20 + r.off) ++ leBytes 8 addr.toNat ++ padTo 64 r.record

/-- A bank (R388). -/
def Bank.saved (b : Bank) : List Byte :=
  padTo 34816 (padTo 32768 b.weights ++ b.scales.flatMap fun x => leBytes 4 x.toNat)

/-- The core block (R388). Where R388 does not place a value inside its item, 8 bytes are taken for each, in its order. -/
def Core.block (x : Core) : List Byte :=
  let w (n : Nat) : List Byte := leBytes 8 n
  let syms := x.syms.toList.flatMap fun e =>
    padTo 8 [BitVec.ofNat 8 e.code] ++ w (match e with | .resolved v => v.toNat | .fault a => a.toNat | _ => 0)
  let h := x.harrow
  let forms := (List.finRange 11).flatMap fun k => (x.ctx k).forms
  let cmds := (h.running.toList ++ h.retiring).map (·.cmd) ++ h.queue
  let cmdWord (q : HCmd) : Nat := q.ref.s.val + q.rm.code * 2 ^ 8 + 2 ^ 15
  let regions := h.regions.toList.flatMap fun g =>
    leBytes 4 g.roff ++ leBytes 2 g.rows ++ leBytes 2 (b2n g.isOpen) ++ leBytes 4 (intBits 32 g.exp) ++ leBytes 4 g.received
  let vis := (List.finRange 16).foldl (fun n i => n + b2n (x.vis.get i) * 2 ^ i.val) 0
  let jobs := x.jobs.flatMap fun j =>
    padTo 64 j.record ++ w (match j.phase with | .running i => i | .copied => (j.layout.total + 4095) / 4096 | _ => 0) ++ w j.id.toNat
  let sends := x.chans.toList.flatMap fun c => padTo 256 (c.buffer.flatMap fun m => padTo 64 m.payload)
  let chans := x.chans.toList.flatMap fun c => w (b2n c.nak) ++ w c.buffer.length
  let replay := (List.finRange 11).flatMap fun k => padTo 256 ((x.ctx k).replayQ.flatMap Parked.saved)
  let inbox := x.inbox.flatMap fun p =>
    leBytes 2 p.1.val ++ leBytes 2 p.2.slot.val ++ leBytes 4 p.2.gen.toNat ++ leBytes 4 p.2.lcore ++ leBytes 4 p.2.srcSlot.val
      ++ padTo 64 p.2.payload
  padTo 0x400 syms ++ (x.ev.toList.flatMap fun e => leBytes 4 e.toNat)
    ++ w x.sent.toNat ++ w x.rcvd.toNat ++ w x.deadl.toNat ++ w x.msgRing.toNat
    ++ (x.ssr.toList.flatMap fun v => w v.toNat)
    ++ w h.rotin.toNat ++ w (h.query 0) ++ w (h.query 3) ++ w (h.query 1)
    ++ padTo 96 (w vis ++ w x.queue.length ++ w forms.length ++ w x.inbox.length)
    ++ (x.cbs.toList.flatMap fun c => leBytes 4 c.head.toNat ++ leBytes 4 c.tail.toNat ++ w 0)
    ++ x.regions.toList.flatMap Region.saved
    ++ padTo 1024 (cmds.flatMap fun q => padTo 64 q.record) ++ padTo 128 (cmds.flatMap fun q => w (cmdWord q))
    ++ padTo 128 (h.gens.flatMap fun g => leBytes 4 g.toNat) ++ padTo 128 regions
    ++ h.bank0.saved ++ h.bank1.saved
    ++ padTo 2048 (x.queue.flatMap Record.bytes) ++ padTo 2560 jobs ++ padTo 4096 sends ++ padTo 256 chans
    ++ padTo 131072 (forms.flatMap Reg.formRecord) ++ replay ++ inbox

/-- The context areas of a core, one after another (R386). -/
def Core.areas (x : Core) : List Byte :=
  ((List.finRange 11).foldl (fun (a : List Byte × Nat) k =>
    (a.1 ++ (x.ctx k).area k a.2, a.2 + (x.ctx k).forms.length)) ([], 0)).1

/-- The first byte of a core's save region, by its rank (R386): the runtime gives each core 2 MiB. -/
def Launch.saveKey (l : Launch) (pm : PartMode) (rank : Nat) : Nat := devKey pm l.part (l.savePa + rank * 2 ^ 21)

/-- The windows of LM in the order of its image, with their sizes and where each begins in it (R386). -/
def lmImage (p : Split) : List (Win × Nat × Nat) :=
  [(.W, p.w, 0), (.A, p.a, p.w), (.C, p.c, p.w + p.a), (.G, p.g, p.w + p.a + p.c)]

/-- Rows of 64 bytes written by an engine, one after another. -/
def State.writeRows (s : State) (dst : Nat) (bs : List Byte) (n : Nat) : State :=
  match n with
  | 0 => s
  | n + 1 => (s.engineWrite (range dst (bs.take 64).length) (bs.take 64) []).writeRows (dst + 64) (bs.drop 64) n

/-- Rows of 64 bytes copied by an engine with their poison (R432). -/
def State.copyRows (s : State) (src dst n : Nat) : State :=
  match n with
  | 0 => s
  | n + 1 =>
    let ks := range src 64
    (s.engineWrite (range dst 64) (s.bytesAt ks) (ks.map fun k => s.poison.contains (k / 32))).copyRows (src + 64) (dst + 64) n

/-- A core's LM copied to its image, hidden halves included (R294, R386). -/
def State.saveLm (s : State) (c : CoreId) (p : Split) (dst : Nat) : State :=
  (lmImage p).foldl (fun s w => s.copyRows (lmKey c w.1 0) (dst + w.2.2) (w.2.1 / 64)) (s.rangeArrive .store dst (2 ^ 20))

/-- The same the other way. -/
def State.restoreLm (s : State) (c : CoreId) (p : Split) (src : Nat) : State :=
  (lmImage p).foldl (fun s w => s.copyRows (src + w.2.2) (lmKey c w.1 0) (w.2.1 / 64)) (s.rangeArrive .read src (2 ^ 20))

/-- A core's areas and block written into its save region (R294, R381, R386). -/
def State.writeSave (s : State) (l : Launch) (rank : Nat) (x : Core) : State :=
  let bs := padTo 0xC100 x.areas ++ x.block
  let at_ := l.saveKey s.pm rank + 2 ^ 20
  (s.rangeArrive .store at_ bs.length).writeRows at_ bs ((bs.length + 63) / 64)

end Sys2Proof.Machine
end

