-- ==== Sys2Proof/Machine/System.lean ====
section
/-! DEFINITION. Time, control registers, service calls, breakpoints and waiting, and the steps that answer them (R231,
R234 to R241, R259, R260, R378). -/

namespace Sys2Proof.Machine

/-! ## Time -/

/-- `rdtime` (R231). -/
def execRdtime (d : Dst) (s : State) : Out := complete s (.ok (s.result d (word (s.timeAt s.cur)) [] 4))

/-- The package bound: 32 units while every die's copy lies within it (R231, R425). -/
def State.packageBound (s : State) : Nat := s.dies.toList.foldl (fun m d => max m d.skew.natAbs) 32

/-- `rderr` (R231). -/
def execRderr (d : Dst) (s : State) : Out :=
  complete s (.ok (s.result d (word (s.time.bound.toNat * 2 ^ 32 + s.packageBound % 2 ^ 32)) [] 4))

/-! ## Control registers -/

/-- Whether a mode may read a register (R235). -/
def cregReadable (r : CReg) (mode : Mode) : Bool :=
  match r with
  | .symSel | .symRes | .spillBase | .spillDepth | .trapEpc => mode != .u
  | _ => true

/-- Whether a mode may write a register (R234, R235). -/
def cregWritable (r : CReg) (mode : Mode) : Bool :=
  match r with
  | .fpMode | .symMode | .ssr _ | .msgRing => true
  | .symSel | .symRes | .spillBase | .spillDepth | .trapEpc | .trapVec => mode != .u
  | _ => false

/-- The rounding mode of a code; 0, 6 and 7 leave the mode unchanged (R49). -/
def RMode.ofCode (old : RMode) (n : Nat) : RMode :=
  match n with
  | 1 => .rne | 2 => .rtz | 3 => .rup | 4 => .rdn | 5 => .sr | _ => old

/-- The value of an SSR register: the last one written, though queued commands still see the one before (R196, R234). -/
def Core.ssrValue (x : Core) (n : Fin 4) : Word :=
  match (x.harrow.queue.flatMap (·.ssr) ++ x.ssrNext).reverse.find? fun p => p.1 == n with
  | some p => p.2
  | none => x.ssr.get n

/-- The value of a control register (R49, R73, R95, R105, R235 to R237). -/
def State.creg (s : State) (r : CReg) : Word :=
  let t := s.me
  let x := s.myCore
  let l := s.myLaunch
  match r with
  | .idCtx => word (t.gen.toNat * 2 ^ 16 + s.slot.val)
  | .idCore => word s.cur.local
  | .idClu => word s.cur.clu
  | .idDie => word s.cur.die.val
  | .idLcore => word x.rank
  | .idNcore => word l.cores.length
  | .idPart => word (s.partOf s.cur)
  | .idLaunch => word (x.launch.getD 0)
  | .fpMode => word t.fpMode
  | .symMode => word t.symMode
  | .symSel => word t.symSelWord
  | .symRes => 0
  | .spillBase => word (t.spillBase.toNat * 16)
  | .spillDepth => word t.spillDepthWord
  | .trapVec => l.trapVec
  | .trapEpc => t.epc
  | .ssr n => x.ssrValue n
  | .msgRing => x.msgRing
  | .deadl => x.deadl.setWidth 64

/-- `crd`; reading DEADL clears it (R234, R237). -/
def State.crdOp (s : State) (d : Dst) (r : CReg) : Res State := do
  check (cregReadable r s.me.mode) .permission
  let v := s.creg r
  let s := match r with
    | .deadl => s.modCore s.cur fun x => { x with deadl := 0 }
    | _ => s
  .ok (s.result d v [] 12)

def execCrd (d : Dst) (r : CReg) (s : State) : Out := complete s (s.crdOp d r)

/-- FP.MODE written (R49). -/
def Ctx.setFpMode (t : Ctx) (v : Word) : Ctx :=
  let seed := BitVec.ofNat 32 (wbits v 32 32)
  { t with seed, ftz := wbits v 6 1 == 1, ovf8 := wbits v 5 1 == 1, rm := t.rm.ofCode (wbits v 0 3),
           gens := if wbits v 31 1 = 1 then (List.range 33).map (genSeed seed) else t.gens }

/-- SYM.RES written (R95). -/
def State.setSymRes (s : State) (v : Word) : State :=
  let i := s.me.selSym
  match s.myCore.syms.get i with
  | .fault _ => (s.modCore s.cur fun x => x.resolve i v).modMe fun t => { t with selErr := false }
  | .cancelled => (s.modCore s.cur fun x => x.resolve i v).modMe fun t => { t with selErr := false }
  | _ => s.modMe fun t => { t with selErr := true }

/-- Whether no queued command has yet to walk a register (R196). -/
def Harrow.ssrFree (h : Harrow) : Bool := h.queue.isEmpty && (match h.running with | some r => r.begun | none => true)

/-- SSR written: at once, or behind the commands already queued (R196). A LIST that is odd is kept and walked as it stands, a choice of
notes/assumptions 96. -/
def Core.setSsr (x : Core) (n : Fin 4) (v : Word) : Core :=
  let v := v &&& 0xFFFF00FFFFFFFFFF
  if x.harrow.ssrFree then { x with ssr := x.ssr.set n.val v n.isLt } else { x with ssrNext := x.ssrNext ++ [(n, v)] }

/-- The bits that TRAP.VEC holds (R374). -/
def trapVecBits (v : Word) : Word := v &&& 0x0FFFFFFFFFFFFFFC

/-- A control register written; read-only fields and reserved bits stay (R7, R235). A MSG.RING.OFF that is no multiple of 64 keeps its low
bits, and the header lies where they say, a choice of notes/assumptions 104 (R237). -/
def State.setCreg (s : State) (r : CReg) (v : Word) : State :=
  match r with
  | .fpMode => s.modMe fun t => t.setFpMode v
  | .symMode => s.modMe fun t =>
      { t with quota := BitVec.ofNat 6 (wbits v 8 6), nolog := wbits v 1 1 == 1, nofold := wbits v 0 1 == 1 }
  | .symSel => s.modMe fun t => { t with selSym := Fin.ofNat 64 (wbits v 0 6) }
  | .symRes => s.setSymRes v
  | .spillBase => s.modMe fun t => { t with spillBase := BitVec.ofNat 56 (wbits v 4 56) }
  | .spillDepth => s.modMe fun t => { t with spillDepth := BitVec.ofNat 16 (wbits v 0 16) }
  | .trapVec =>
    match s.myCore.launch with
    | some id => s.modLaunch (s.partOf s.cur) id fun l => { l with trapVec := trapVecBits v }
    | none => s
  | .trapEpc => s.modMe fun t => { t with epc := v }
  | .ssr n => s.modCore s.cur fun x => x.setSsr n v
  | .msgRing => s.modCore s.cur fun x => { x with msgRing := v &&& 0x80000000000FFFFF }
  | _ => s

/-- `cwr` (R234). -/
def State.cwrOp (s : State) (r : CReg) (v : Src) (lit : Word) (len : Nat) : Res State := do
  check (cregWritable r s.me.mode) .permission
  let x ← s.use1 lit v
  -- A new seed governs no conversion before it (R48, R52).
  waitFor (!(r == .fpMode && wbits x 31 1 == 1) || s.me.vq.isEmpty)
  .ok ((s.setCreg r x).advance len)

def execCwr (lit : Option Word) (r : CReg) (v : Src) (s : State) : Out :=
  complete s (s.cwrOp r v (litVal lit) (litBytesX lit))

/-! ## Service calls, breakpoints, waiting -/

/-- `trap`: a release, and the call to the runtime or, in mode S, to the root firmware (R238). -/
def State.trapOp (s : State) (d : Dst) (svc : BitVec 12) (arg : Src) (lit : Word) (len : Nat) : Res State := do
  let a ← s.use1 lit arg
  let s ← s.release .pkg
  let next := s.me.pc + word len
  let msg := if privileged s.me.mode then OutMsg.rootService else .service
  .ok { s.modMe (fun t => { t with run := .service d next }) with
        out := msg s.cur.val s.slot.val svc.toNat a :: s.out }

def execTrap (lit : Option Word) (d : Dst) (svc : BitVec 12) (arg : Src) (s : State) : Out :=
  complete s (s.trapOp d svc arg (litVal lit) (litBytesX lit))

/-- The reply in a context that waits: the destination is written and issue goes on after the `trap` (R238). -/
def Ctx.reply (t : Ctx) (v : Word) : Ctx :=
  match t.run with
  | .service d next => { t.put d (.value v) with pc := next, run := .ready }
  | _ => t

/-- The rank of a pre-empted launch that core c ran, and the saved core. -/
def State.savedAt (s : State) (c : CoreId) (p : Core → Bool) : Option (Launch × Nat × Core) :=
  s.saves.findSome? fun e =>
    match s.findLaunch e.1 e.2.1 with
    | none => none
    | some l =>
      match l.cores.findIdx? (· == c.val) with
      | none => none
      | some i => (e.2.2[i]?).bind fun x => if l.phase == .preempted && p x then some (l, i, x) else none

/-- The saved core of a pre-empted launch that ran on core c, changed, and its save region with it, once the region's lines are the
device's (R304, R382, R383). -/
def State.modSaved (s : State) (c : CoreId) (p : Core → Bool) (f : Core → Core) (outside : Bool := false) : State :=
  match s.savedAt c p with
  | none => s
  | some (l, n, x) =>
    match s.rangeDemand .store (l.saveKey s.pm n + 2 ^ 20) (2 ^ 20) with
    | some s' => if outside then s'.comeAgain else s'
    | none =>
    let saves : List (Nat × Nat × List Core) := s.saves.map fun e =>
      if e.1 = l.part ∧ e.2.1 = l.id then (e.1, e.2.1, e.2.2.set n (f x)) else e
    ({ s with saves } : State).writeSave l n (f x)

/-! ## Deferred loads -/

/-- The oldest deferred load of a slot, but for one that waits for its copy: its symbol and result. -/
def Core.headLoad (x : Core) (k : SlotId) : Option DLoad :=
  match (x.ctx k).dloads with
  | [] => none
  | q :: _ => match q.res with | .touch .. => none | _ => some q

/-- The oldest deferred load of a slot leaves. -/
def Core.dropLoad (x : Core) (k : SlotId) : Core := let t := x.ctx k; x.setCtx k { t with dloads := t.dloads.tail }

/-- A symbol that leaves PENDING while its core's launch is away: the registers take its value on resume (R70, R383, R384). -/
def Core.deliverAway (x : Core) (r : SymRef) (e : SymState) : Core :=
  match x.syms.get r.s with
  | .pending n k => if n = r.serial then ({ x with syms := x.syms.set r.s.val e r.s.isLt }).latchOwner k 1 else x
  | _ => x

/-- The deferred loads of a slot deliver in order: the value read, or the fault (R70, R131). -/
def Core.loadDone (x : Core) (k : SlotId) (q : DLoad) : Core :=
  match q.res with
  | .value v => (x.dropLoad k).deliver q.ref v
  | .fault a => (x.dropLoad k).faultSym q.ref a
  | .touch .. => x

/-- The same for a saved core (R383). -/
def Core.loadDoneAway (x : Core) (k : SlotId) (q : DLoad) : Core :=
  match q.res with
  | .value v => (x.dropLoad k).deliverAway q.ref (.resolved v)
  | .fault a => (x.dropLoad k).deliverAway q.ref (.fault a)
  | .touch .. => x

/-- A deferred load completes: of the core's present launch, or of a pre-empted one that ran there (R131, R383). -/
def State.deliverLoad (s : State) (c : CoreId) (k : SlotId) : State :=
  match (s.core c).headLoad k with
  | some q => s.modCore c fun x => x.loadDone k q
  | none =>
    s.modSaved c (fun x => (x.headLoad k).isSome) fun x => match x.headLoad k with | some q => x.loadDoneAway k q | none => x

def execDeferredLoadComplete (c : CoreId) (k : SlotId) (s : State) : Out := .next (s.deliverLoad c k)

/-! ## Rejected mappings -/

/-- Whether a slot has a parked access to the page of an address. -/
def Core.parkedAt (x : Core) (k : SlotId) (va : Word) : Bool := (x.ctx k).replayQ.any fun p => vaPage p.va == vaPage va

/-- The runtime rejects the mapping of a page: the context traps, or, while its launch is away, the answer is kept (R130, R389). -/
def State.rejectMapping (s : State) (c : CoreId) (k : SlotId) (va : Word) : State :=
  if (s.core c).parkedAt k va then s.within c k fun s => s.mappingRejected va
  else s.modSaved c (fun x => x.parkedAt k va) (fun x => let t := x.ctx k; x.setCtx k { t with rejected := t.rejected ++ [va] }) true

def execMappingRejected (c : CoreId) (k : SlotId) (va : Word) (s : State) : Out := .next (s.rejectMapping c k va)

/-! ## Replies -/

/-- Whether a slot's context waits for a reply. -/
def Core.calls (x : Core) (k : SlotId) : Bool := (x.ctx k).live && (x.ctx k).awaitsReply

/-- The launch whose context has called: the core's present one, or a pre-empted one that ran there (R238, R382). -/
def State.caller (s : State) (c : CoreId) (k : SlotId) : Option Launch :=
  if (s.core c).calls k then s.launchOf c else (s.savedAt c fun x => x.calls k).map (·.1)

/-- A reply lands: in the waiting context, or in the save area of one that was pre-empted (R238, R382). -/
def State.serviceReply (s : State) (c : CoreId) (k : SlotId) (v : Word) : State :=
  if (s.core c).calls k then ((s.modCtx c k fun t => t.reply v).settle c).within c k fun s => s.acquired .pkg
  else s.modSaved c (fun x => x.calls k) (fun x => x.setCtx k ((x.ctx k).reply v)) true

/-- Tags that a runtime service sets in a partition's device memory, by address (R370, R440). -/
def State.serviceTags (s : State) (part : Nat) (tags : List (Nat × Nat)) : State :=
  tags.foldl (fun s t =>
    if t.1 < partSize s.pm then let k := devKey s.pm part t.1; (s.keepCut [k]).setTag (k / 32) t.2 else s) s

/-- The entries of a launch's descriptor table that a service writes (R369). -/
def serviceDescs (s : State) (l : Option Launch) (ds : List (Nat × List Byte)) : List (Acc × List Byte) :=
  match l with
  | some l => (ds.filter fun d => decide (d.1 < 1024) && d.2.length == 32).map fun d => (s.descAcc l d.1, d.2)
  | none => []

/-- Those entries written, each whole at its home (R294, R369). -/
def State.putDescs (s : State) (ds : List (Acc × List Byte)) : State :=
  ds.foldl (fun s d => (s.arrive .ofHeadland d.1 .store).engineWrite d.1.keys d.2 []) s

/-- What an answer waits for: the drain of the caller's die, since the reply is an acquire; room in the shadow reserve; and its
entries' lines (R238, R304, R426, R440). -/
def State.answerWaits (s : State) (c : CoreId) (k : SlotId) (v : Answer) : Option State :=
  let pages := (v.tags.filter fun t => decide (t.1 < partSize s.pm)).map fun t => pageOf (devKey s.pm (s.partOf c) t.1)
  if ((s.core c).calls k && s.drainHolds c .pkg) || s.reserveFull pages then some s
  else (serviceDescs s (s.caller c k) v.descs).findSome? fun d => s.demand .ofHeadland d.1 .store

/-- A runtime service has run and replies (R238, R369, R370). -/
def execServiceReply (c : CoreId) (k : SlotId) (v : Answer) (s : State) : Out :=
  .next (match s.answerWaits c k v with
    | some s' => s'.comeAgain
    | none =>
      ((s.serviceTags (s.partOf c) v.tags).putDescs (serviceDescs s (s.caller c k) v.descs)).serviceReply c k v.value)

/-- `brk` (R239). -/
def execBrk (code : BitVec 12) (s : State) : Out :=
  complete s (.ok (
    if s.myLaunch.desc.dbg then
      { s.modMe (fun t => { t with run := .stopped (t.pc + 4) }) with
        out := .debug s.cur.val s.slot.val code.toNat s.me.pc :: s.out }
    else s.advance 4))

/-- The debugger resumes a stopped context at the next instruction, or ends it (R239). -/
def State.debuggerResume (s : State) (c : CoreId) (k : SlotId) (ends : Bool) : State :=
  match (s.ctx c k).run with
  | .stopped next => if ends then s.endCtx c k else s.modCtx c k fun t => { t with pc := next, run := .ready }
  | _ => s

def execDebuggerResume (c : CoreId) (k : SlotId) (ends : Bool) (s : State) : Out := .next (s.debuggerResume c k ends)

/-- `wfe` (R240). -/
def State.wfeOp (s : State) (d : Dst) : Res State :=
  let l := s.me.latch
  if l = 0 then .error (.hold s .listening) else .ok ((s.modMe fun t => { t with latch := 0 }).result d (l.setWidth 64) [] 4)

def execWfe (d : Dst) (s : State) : Out := complete s (s.wfeOp d)

/-- `idle`: modes S and M only (R241). -/
def State.idleOp (s : State) : Res State := do
  check (s.me.mode == .s || s.me.mode == .m) .permission
  .ok ((s.modCore s.cur fun x => { x with idle := true }).advance 4)

def execIdle (s : State) : Out := complete s s.idleOp

/-- The command processor signals a core, while it runs (R241, R447). -/
def execCommandProcessorSignal (c : CoreId) (s : State) : Out :=
  .next (if s.scheduling then s.modCore c fun x => { x with idle := false } else s)

/-! ## Asynchronous traps -/

/-- Whether a context stands at an instruction boundary: not while a trap of its own is being taken. -/
def Ctx.atBoundary (t : Ctx) : Bool :=
  match t.run with
  | .trapping _ => false
  | .hbar .. => false
  | .gather .. => false
  | .service .. => false
  | .stopped _ => false
  | _ => true

/-- A context's instruction that has not yet issued: a `realign` that still stalls has (R375). -/
def Ctx.endStall (t : Ctx) : Ctx :=
  match t.run with
  | .realign next => { t with pc := next, run := .ready }
  | _ => t

/-- What an asynchronous trap reports. -/
def AsyncRep.info (a : AsyncRep) : TrapInfo := { cause := a.cause, addr := a.addr, async := some a.handle }

/-- Whether an asynchronous trap cannot be delivered now: its launch is pre-empted, or its context is at no boundary. -/
def State.asyncHeld (s : State) (a : AsyncRep) : Bool :=
  match s.findLaunch a.part a.launch with
  | none => false
  | some l =>
    let t := s.ctx (coreOf (l.cores.getD a.rank 0)) a.slot
    l.phase != .live || (t.live && t.gen == a.gen && t.mode != .h && l.trapVec != 0 && !t.atBoundary)

/-- The record of an asynchronous trap that goes to the runtime only: what its context, as it stands on core c or in a saved core, has to
say of itself, and of one that has ended its generation alone (R376, R378, R437). -/
def State.asyncRecord (s : State) (a : AsyncRep) (c : CoreId) (x : Core) : List Byte :=
  let here := (x.ctx a.slot).live && (x.ctx a.slot).gen == a.gen && x.launch == some a.launch
  let t : Ctx := if here then x.ctx a.slot else { gen := a.gen }
  let s := { s.setCore c { x.setCtx a.slot t with launch := some a.launch, rank := a.rank } with cur := c, slot := a.slot }
  trapRecord s { a.info with noWord := !here } false t.pc

/-- An asynchronous trap goes to the runtime only (R378). -/
def State.toRuntime (s : State) (a : AsyncRep) (c : CoreId) (x : Core) : State := { s with out := .trap (s.asyncRecord a c x) :: s.out }

/-- An asynchronous trap is delivered at its context's instruction boundary. A context that has ended, is in mode H, has no
handler or no writable record is not affected (R378, R437). -/
def State.deliverAsync (s : State) (a : AsyncRep) : State :=
  match s.findLaunch a.part a.launch with
  | none => s
  | some l =>
    let c := coreOf (l.cores.getD a.rank 0)
    let t := s.ctx c a.slot
    if !t.live || t.gen != a.gen || t.mode == .h || l.trapVec == 0 then s.toRuntime a c (s.core c)
    else (s.modCtx c a.slot Ctx.endStall).within c a.slot fun s => s.takeTrap a.info

/-- The oldest asynchronous trap that can be delivered is (R378). -/
def State.asyncTrap (s : State) : State :=
  match s.asyncs.find? fun a => !s.asyncHeld a with
  | none => s
  | some a => { s with asyncs := s.asyncs.erase a }.deliverAsync a

def execAsyncTrap (s : State) : Out := .next s.asyncTrap

/-- A launch's core of a rank: the core that it runs on, or its saved state (R382). -/
def State.coreOfRank (s : State) (l : Launch) (rank : Nat) : CoreId × Core :=
  let c := coreOf (l.cores.getD rank 0)
  match s.saves.find? fun e => e.1 == l.part && e.2.1 == l.id with
  | some e => (c, e.2.2.getD rank {})
  | none => (c, s.core c)

/-- A launch ends: its asynchronous traps that no context has taken go to the runtime only (R378). -/
def State.flushAsyncs (s : State) (part id : Nat) : State :=
  let mine (a : AsyncRep) : Bool := a.part == part && a.launch == id
  (s.asyncs.filter mine).foldl (fun s a =>
    match s.findLaunch part id with
    | none => s
    | some l => let p := s.coreOfRank l a.rank; s.toRuntime a p.1 p.2)
    { s with asyncs := s.asyncs.filter fun a => !mine a }

/-! ## The fetch port -/

/-- A block joins a fetch buffer of two, newest first (R260). -/
def Core.buffer (x : Core) (b : FetchBlock) : Core :=
  { x with fetched := (b :: x.fetched.filter fun y => y.va != b.va).take 2 }

/-- A context's next instruction that has not been fetched: one that waits has been (R255, R259). -/
def Ctx.fetches (t : Ctx) : Option Word :=
  if !t.live then none else
  match t.run with
  | .ready => some t.pc
  | .yielding _ => some t.pc
  | .leaving _ => some t.pc
  | .realign next => some next
  | .hbar _ _ next _ => some next
  | _ => none

/-- Whether a core must ask for the block of an address: it does not hold it, and a fetch of it meets no fault (R30, R259). -/
def State.lacks (s : State) (c : CoreId) (va : Word) : Bool :=
  va.toNat % 4 == 0 && ((s.core c).fetchedBlock va).isNone &&
    match s.fetchAcc c (word (blockOf32 va)) 32 with
    | .ok _ => true
    | .error (.snoop _) => true
    | .error _ => false

/-- A core with no request asks for the block of the next of its contexts that lacks one (R259). -/
def State.askFetch (s : State) (c : CoreId) : State :=
  let x := s.core c
  if x.fetching.isSome then s else
  match (List.finRange 11).find? fun i =>
      match (x.ctx (x.lastFetch + i + 1)).fetches with | some va => s.lacks c va | none => false with
  | none => s
  | some i =>
    let k := x.lastFetch + i + 1
    let va := ((x.ctx k).fetches).getD 0
    s.modCore c fun x => { x with fetching := some (k, word (blockOf32 va)), lastFetch := k }

/-- The core of a cluster that the port serves next, and the block it asks for (R260). -/
def State.portChoice (s : State) (cl : Nat) : Option (CoreId × Word) :=
  let last := s.portLast.get (Fin.ofNat 128 cl)
  (List.range 8).findSome? fun i =>
    let c := coreOf (cl * 8 + (last.val + 1 + i) % 8)
    (s.core c).fetching.map fun p => (c, p.2)

/-- The cores of a cluster that one delivery serves: the one chosen, and for code in memory those of its launch that ask for
the same block (R259, R267). -/
def State.portShare (s : State) (c : CoreId) (va : Word) (a : Acc) : List CoreId :=
  let own := match a.place with | .lm .. => true | _ => false
  ((List.range 8).map fun i => coreOf (c.val / 8 * 8 + i)).filter fun k =>
    k == c || (!own && (s.core k).launch == (s.core c).launch && (s.core k).fetching.map (·.2) == some va)

/-- A request for a block is over. -/
def State.portDone (s : State) (cs : List CoreId) (b : Option FetchBlock) : State :=
  cs.foldl (fun s k => s.modCore k fun x =>
    let x := { x with fetching := none }
    match b with | some b => x.buffer b | none => x) s

/-- The rotation of a cluster's port has come to a core, whether its read is answered at once or waits (R260). -/
def State.portPassed (s : State) (cl : Nat) (c : CoreId) : State :=
  let i : Fin 128 := Fin.ofNat 128 cl
  { s with portLast := s.portLast.set i.val (Fin.ofNat 8 c.val) i.isLt }

/-- The port of a cluster serves the block address that its rotation gives: the read is made at the block's home, and every
request for the block takes it from one delivery (R259, R260, R294, R306). A block that cannot be read is not delivered: its
context meets the fault. -/
def State.fetchServe (s : State) (cl : Nat) : State :=
  match s.portChoice cl with
  | none => s
  | some (c, va) =>
    let s := s.portPassed cl c
    match s.fetchAcc c va 32 with
    | .error (.snoop n) => s.sendSnoops [n] false
    | .error _ => s.portDone [c] none
    | .ok a =>
      match s.demand (.ofCore c) a .read with
      | some s' => s'
      | none =>
        let cs := s.portShare c va a
        let s := s.arrive (.ofCore c) a .read
        let bs := s.bytesAt a.keys
        let ws := (List.range 8).map fun i => BitVec.ofNat 32 (field bs (4 * i) 4)
        s.portDone cs (some { va := va.toNat, words := ws, bad := s.poisoned a.keys || s.quarantined a.keys })

/-- The port serves a block to a core (R259, R260): the rotation chooses which, so a delivery named otherwise is none. -/
def execFetchPortServe (c : CoreId) (block : Word) (s : State) : Out :=
  .next (if s.portChoice c.cluster = some (c, word (blockOf32 block)) then s.fetchServe c.cluster else s)

end Sys2Proof.Machine
end

