-- ==== Sys2Proof/Machine/Admit.lean ====
section
/-! DEFINITION. What a LAUNCH entry is checked for, and what the command processor keeps of it (R37, R38, R344 to R346). -/

namespace Sys2Proof.Machine

/-! ## The descriptor -/

/-- The fields of a launch descriptor (R344). -/
def parseDesc (b : List Byte) : Desc where
  code := word (field b 0 8)
  args := word (field b 8 8)
  creq := BitVec.ofNat 32 (field b 16 4)
  prio := field b 20 1 % 8
  weight := field b 21 1
  xsteal := fieldBit b 22 0
  nosteal := fieldBit b 22 1
  dbg := fieldBit b 22 2
  serial := fieldBit b 22 3
  place := fieldBit b 22 4
  hl := field b 23 1
  lmsplit := (List.range 4).map fun i => field b (24 + i) 1
  qx := field b 28 4
  trapv := word (field b 32 8)
  sptab := word (field b 40 8)
  bdt := word (field b 48 8)
  initrec := word (field b 56 8)
  initn := field b 64 4
  spillf := field b 68 2
  retmax := field b 70 1
  tent := field b 72 4
  tctr := field b 76 4
  tcomm := field b 80 2
  cwarg := field b 84 4
  tlimit := field b 88 8

/-- Whether n bytes from an offset are zero. -/
def zeros (b : List Byte) (off n : Nat) : Bool := ((b.drop off).take n).all (· == 0)

/-- A request for cores (R345): a count, or a shape with the origin that PLACE gives. -/
inductive CoreReq where
  | count (n : Nat)
  | shape (w h : Nat) (die x0 y0 : Nat)
  deriving DecidableEq, Repr

/-- The fields of CREQ (R345). -/
def coreReq (v : BitVec 32) : CoreReq :=
  let f (lo n : Nat) : Nat := v.toNat / 2 ^ lo % 2 ^ n
  if f 31 1 = 0 then .count (f 0 16) else .shape (f 0 4 + 1) (f 4 3 + 1) (f 7 3) (f 10 4) (f 14 3)

/-- How many cores a request asks for. -/
def CoreReq.cores (r : CoreReq) : Nat :=
  match r with
  | .count n => n
  | .shape w h _ _ _ => w * h

/-- Whether CREQ's own fields are within their limits (R345). -/
def creqOk (v : BitVec 32) (place : Bool) : Bool :=
  let f (lo n : Nat) : Nat := v.toNat / 2 ^ lo % 2 ^ n
  if f 31 1 = 0 then f 16 15 == 0 && f 0 16 != 0
  else f 17 14 == 0 && (place || f 7 10 == 0)

/-- A split in 64 KiB units, or none where it is invalid (R262). -/
def splitOf (l : List Nat) : Option Split :=
  let n (i : Nat) : Nat := l.getD i 0 * 65536
  if l.foldl (· + ·) 0 = 16 ∧ 1 ≤ l.getD 3 0 then some { w := n 0, a := n 1, c := n 2, g := n 3 } else none

/-- The launch's split: the descriptor's, else the code object's, else the default (R262, R344). The model's choice where
R37 is silent: an object's split is not looked at while the descriptor's is nonzero, valid or not (notes/assumptions 70). -/
def chooseSplit (desc obj : List Nat) : Option Split :=
  if desc.any (· != 0) then splitOf desc else if obj.any (· != 0) then splitOf obj else some {}

/-- Order 2 of R346, for the descriptor. -/
def descOk (b : List Byte) : Bool :=
  let d := parseDesc b
  field b 20 1 / 8 == 0 && decide (1 ≤ d.weight) && decide (d.weight ≤ 15) && field b 22 1 / 32 == 0 && decide (d.hl ≤ 10)
    && decide (d.qx ≤ 2 ^ 24) && decide (d.retmax ≤ 4) && zeros b 71 1 && zeros b 82 2 && zeros b 96 32
    && creqOk d.creq d.place && !(d.xsteal && d.nosteal)

/-! ## The code object -/

/-- The header of a code object (R38). -/
structure ObjHead where
  stepping : Nat
  hash : Nat
  entry : Nat
  lmsplit : List Nat
  coff : Nat
  csize : Nat
  doff : Nat
  dsize : Nat
  toff : Nat
  tcnt : Nat
  roff : Nat
  rcnt : Nat

def parseHead (b : List Byte) : ObjHead where
  stepping := field b 6 2
  hash := field b 8 8
  entry := field b 16 8
  lmsplit := (List.range 4).map fun i => field b (24 + i) 1
  coff := field b 32 8
  csize := field b 40 8
  doff := field b 48 8
  dsize := field b 56 8
  toff := field b 64 8
  tcnt := field b 72 4
  roff := field b 80 8
  rcnt := field b 88 4

/-- A name padded with zero bytes (R38). -/
def nameOk (b : List Byte) : Bool := (b.dropWhile (· != 0)).all (· == 0)

/-- Order 2 of R346, for the header: the rules of R38 but for the hash and the stepping (R37). An ENTRY that is no multiple of 4 is
accepted, and the control context traps ALIGN at its first fetch: a choice of notes/assumptions 102. -/
def headOk (b : List Byte) : Bool :=
  let h := parseHead b
  field b 0 4 == 0x4B514A4F && field b 4 2 == 1 && zeros b 28 4 && zeros b 76 4 && zeros b 92 4 && h.csize % 32 == 0
    && decide (h.entry < h.csize) && nameOk (b.drop 96)

/-- The encoding hash of stepping B0 (R36). -/
def encHash : Nat := 0x3f9c0a7155e2c804

/-- Order 3 of R346 (R37). -/
def hashOk (b : List Byte) : Bool := (parseHead b).hash == encHash && (parseHead b).stepping == 0x00B0

/-! ## Directives and relocations -/

/-- What a code object's directives and the tables beside it declare. -/
structure Decls where
  chans : List ChanDecl := []
  cbufs : List CbDecl := []
  bufs : List (Nat × List Byte) := []
  groups : List GroupDecl := []

/-- A buffer descriptor whose reserved fields are zero (R368). -/
def bufOk (b : List Byte) : Bool :=
  field b 7 1 == 0 && field b 15 1 == 0 && decide (field b 16 8 ≤ 2 ^ 56) && field b 24 1 / 16 == 0 && field b 25 1 / 4 == 0
    && zeros b 26 6

/-- A directive entry's declaration; none where it is invalid (R37, R38, R219, R273, R278). -/
def Decls.add (x : Decls) (n : Nat) (p : Split) (data : List Byte) (b : List Byte) : Option Decls :=
  match field b 0 1 with
  | 1 =>
    if zeros b 2 2 && zeros b 10 38 && decide (field b 1 1 < 16) && decide (field b 4 4 < n) && decide (field b 8 1 ≤ 10)
        && decide (1 ≤ field b 9 1) && decide (field b 9 1 ≤ 4) then
      some { x with chans := x.chans ++
        [{ ch := Fin.ofNat 16 (field b 1 1), rank := field b 4 4, slot := Fin.ofNat 11 (field b 8 1), slots := field b 9 1 }] }
    else none
  | 2 =>
    let w := field b 2 1
    let win := winOf w
    if zeros b 3 1 && zeros b 16 32 && decide (field b 1 1 < 8) && (w == 2 || w == 4) && field b 12 4 % 64 == 0
        && decide (64 ≤ field b 12 4) && decide (field b 12 4 ≤ 65536) && decide (1 ≤ field b 8 4) && decide (field b 8 4 ≤ 4096)
        && decide (field b 4 4 + field b 8 4 * field b 12 4 ≤ p.size win) then
      some { x with cbufs := x.cbufs ++
        [{ cb := Fin.ofNat 8 (field b 1 1), win, base := field b 4 4, slots := field b 8 4, size := field b 12 4 }] }
    else none
  | 3 =>
    if zeros b 1 1 && zeros b 4 12 && decide (field b 2 2 < 1024) && bufOk (b.drop 16) then
      some { x with bufs := x.bufs ++ [(field b 2 2, (b.drop 16).take 32)] }
    else none
  | 4 =>
    let cnt := field b 4 4
    let off := field b 8 8
    let members := (List.range (min cnt (data.length / 4 + 1))).map fun i => field data (off + 4 * i) 4
    if zeros b 2 2 && zeros b 16 32 && decide (field b 1 1 < 64) && decide (off + 4 * cnt ≤ data.length) && members.all (fun r => decide (r < n)) then
      some { x with groups := x.groups ++ [{ grp := field b 1 1, members }] }
    else none
  | _ => none

/-- A table cut into records. -/
def recordsOf (size fuel : Nat) (b : List Byte) : List (List Byte) :=
  match fuel with
  | 0 => []
  | fuel + 1 => b.take size :: recordsOf size fuel (b.drop size)

/-- A relocation; none where it is invalid (R37, R38). The model's choice: a kind-1 relocation whose offset names no word 1
of a `jtb` or `jtc` with A = 41 is taken, and its low 24 bits there are patched (notes/assumptions 76). -/
def relocOf (csize dsize : Nat) (b : List Byte) : Option Reloc :=
  let r : Reloc := { off := field b 0 8, inData := field b 8 1 == 1, toData := field b 9 1 == 1, kind := field b 10 1 }
  let size := if r.inData then dsize else csize
  let width := if r.kind = 0 then 8 else 4
  if decide (field b 8 1 ≤ 1) && decide (field b 9 1 ≤ 1) && decide (r.kind ≤ 1) && zeros b 11 5 && r.off % 4 == 0
      && decide (r.off + width ≤ size) && !(r.kind == 1 && r.inData) then some r
  else none

/-- Where the data image begins beside the code image's base, when a kind-1 relocation fixes it (R348). -/
def dataDelta (csize : Nat) : Nat := (csize + 65535) / 65536 * 65536

/-- The sum of a kind-1 relocation (R38). -/
def relocSum (code : List Byte) (r : Reloc) : Int :=
  bitsInt true 24 (field code r.off 4 % 2 ^ 24) + if r.toData then (dataDelta code.length : Int) else 0

/-- Whether a kind-1 sum lies in its range (R38, R348). -/
def relocSumOk (code : List Byte) (r : Reloc) : Bool :=
  r.kind != 1 || (decide (-(2 ^ 23 : Int) ≤ relocSum code r) && decide (relocSum code r < 2 ^ 23))

/-- Whether two ranges overlap. -/
def overlaps (a m b n : Nat) : Bool := m != 0 && n != 0 && decide (a < b + n) && decide (b < a + m)

/-- The shadow pairs of a table, or none where they are invalid (R277, R344). -/
def pairsOf (p : Split) (b : List Byte) : Option (List PairDecl) :=
  let rows := (recordsOf 16 16 b).zip (List.finRange 16)
  if rows.any (fun r => !zeros r.1 1 3) then none else
  let used := rows.filter fun r => field r.1 0 1 != 0
  let ps : List PairDecl := used.map fun r =>
    { pair := r.2, win := winOf (field r.1 0 1), noff := field r.1 4 4, hoff := field r.1 8 4, len := field r.1 12 4 }
  let ok := used.all (fun r => oneOf (field r.1 0 1) [1, 2, 4]) && ps.all (fun d =>
    d.len % 64 == 0 && decide (64 ≤ d.len) && decide (d.noff + d.len ≤ p.size d.win) && decide (d.hoff + d.len ≤ p.size d.win)
      && !overlaps d.noff d.len d.hoff d.len
      && ps.all fun e => e.pair == d.pair || e.win != d.win ||
        !(overlaps d.noff d.len e.noff e.len || overlaps d.noff d.len e.hoff e.len || overlaps d.hoff d.len e.noff e.len
          || overlaps d.hoff d.len e.hoff e.len))
  if ok then some ps else none

/-! ## The checks -/

/-- A reading of the submitting process's memory that orders later than 1 make: what it cannot read is invalid. -/
def laterRead (r : SRes α) : SRes α :=
  match r with
  | .error (.fail _ a) => sFail .bounds a
  | r => r

def refuseUnless (ok : Bool) (c : Cause) : SRes Unit := if ok then .ok () else sFail c 0

/-- The bytes of a range that the submitting process can read. -/
def State.cpRead (s : State) (l : Launch) (va : Word) (n : Nat) : SRes (State × List Byte) := do
  let (s, b, _) ← s.sowerRead l va n true
  .ok (s, b)

/-- Cores of a partition that are in service (R438). -/
def State.partCores (s : State) (p : Nat) : List CoreId :=
  (List.finRange 1024).filter fun c => s.partOf c == p && !(s.core c).retired && !(s.die c.die.val).dead

/-- A sub-grid's cores in rank order (R345). -/
def gridCores (die w h x0 y0 : Nat) : List Nat :=
  (List.range w).flatMap fun i => (List.range h).map fun j => (CoreId.ofGrid (Fin.ofNat 8 die) (x0 + i) (y0 + j)).val

/-- The cores of a request among those that are open to it (R345): for a count the lowest die that holds enough, else a
span of dies in ascending order; for a shape without PLACE, the origin that the command processor chooses. -/
def chooseCores (opn : List Nat) (r : CoreReq) (origin : Nat × Nat × Nat) : Option (List Nat) :=
  match r with
  | .count n =>
    match (List.range 8).find? fun d => decide (n ≤ opn.countP fun c => c / 128 == d) with
    | some d => some ((opn.filter fun c => c / 128 == d).take n)
    | none => if n ≤ opn.length then some (opn.take n) else none
  | .shape w h _ _ _ =>
    let g := gridCores origin.1 w h origin.2.1 origin.2.2
    if origin.1 < 8 && g.all opn.contains then some g else none

/-- The origins that a request may take. -/
def CoreReq.origins (r : CoreReq) (place : Bool) : List (Nat × Nat × Nat) :=
  match r with
  | .count _ => [(0, 0, 0)]
  | .shape _ _ d x y =>
    if place then [(d, x, y)]
    else (List.range 8).flatMap fun d => (List.range 16).flatMap fun x => (List.range 8).map fun y => (d, x, y)

/-- Whether a request can be met from some cores. -/
def canMeet (opn : List Nat) (r : CoreReq) (place : Bool) : Bool := (r.origins place).any fun o => (chooseCores opn r o).isSome

/-- A partition's shares of the sower: entries, counters and communicators (R308). -/
def sowerShare (pm : PartMode) : Nat × Nat × Nat := (16384 / partCount pm, 16384 / partCount pm, 256 / partCount pm)

/-- Reading through the checks of R346 in order: the launch as it will be kept, or the cause it is refused with. -/
def State.checkLaunch (s : State) (l : Launch) (arg : Word) : SRes (State × Launch) := do
  -- Order 1.
  let (s, d) ← s.cpRead l arg 128
  let desc := parseDesc d
  let (s, h) ← s.cpRead l desc.code 128
  let (s, sp) ← if desc.sptab = 0 then .ok (s, List.replicate 256 0) else s.cpRead l desc.sptab 256
  let (s, bd) ← if desc.bdt = 0 then .ok (s, []) else s.cpRead l desc.bdt 32768
  let (s, ir) ← if desc.initn = 0 then .ok (s, []) else s.cpRead l desc.initrec (40 * desc.initn)
  if desc.cwarg ≠ none32 then
    let _ ← s.sowerAccs l .swrite (desc.args + word desc.cwarg) 8
  -- Order 2.
  let head := parseHead h
  let split := chooseSplit desc.lmsplit head.lmsplit
  refuseUnless (descOk d && headOk h && arg.toNat % 64 == 0 && split.isSome) .bounds
  let split := split.getD {}
  -- Order 3.
  refuseUnless (hashOk h) .encodingHash
  -- Order 4.
  let (s, code) ← laterRead (s.cpRead l (desc.code + word head.coff) head.csize)
  let (s, data) ← laterRead (s.cpRead l (desc.code + word head.doff) head.dsize)
  let (s, tab) ← laterRead (s.cpRead l (desc.code + word head.toff) (48 * head.tcnt))
  let (s, rel) ← laterRead (s.cpRead l (desc.code + word head.roff) (16 * head.rcnt))
  let req := coreReq desc.creq
  let n := req.cores
  let decls := (recordsOf 48 head.tcnt tab).foldlM (fun (x : Decls) b => x.add n split data b) {}
  let relocs := (recordsOf 16 head.rcnt rel).mapM (relocOf head.csize head.dsize)
  let pairs := pairsOf split sp
  let inits := (recordsOf 40 desc.initn ir).map fun b =>
    (field b 32 8 % max n 1,
      (⟨word (field b 0 8), word (field b 8 8), word (field b 16 8), word (field b 24 8), 0⟩ : Record))
  match decls, relocs, pairs with
  | some x, some rs, some ps => do
    let slots (r : Nat) : Nat := x.chans.foldl (fun k c => if c.rank = r then k + n * c.slots else k) 0
    let bufs := if desc.bdt = 0 then x.bufs else (recordsOf 32 1024 bd).zipIdx.map fun p => (p.2, p.1)
    refuseUnless (x.chans.all (fun c => decide (slots c.rank ≤ 64)) && bufs.all (fun b => bufOk b.2)
      && rs.all (relocSumOk code)
      && inits.all fun i => decide (inits.countP (fun j => j.1 == i.1) ≤ 64 + desc.qx)) .bounds
    -- Order 5.
    let cores := (s.partCores l.part).map (·.val)
    let (te, tc, tm) := sowerShare s.pm
    refuseUnless (canMeet cores req desc.place && decide (desc.tent ≤ te) && decide (desc.tctr ≤ tc) && decide (desc.tcomm ≤ tm)) .bounds
    .ok (s, { l with desc := desc, split, chans := x.chans, cbufs := x.cbufs, groups := x.groups, pairs := ps,
                     trapVec := trapVecBits desc.trapv,
                     image := { code, data, entry := head.entry, relocs := rs, bufs, inits } })
  | _, _, _ => sFail .bounds 0

end Sys2Proof.Machine
end

