-- ==== Sys2Proof/Machine/Harrow.lean ====
section
/-! DEFINITION. The commands of the matrix unit at work: banks, rows, epilogue, reduction, completion and faults (R185,
R186, R189 to R208). -/

namespace Sys2Proof.Machine

/-! ## Running -/

/-- Why a command does not go on: it waits, at a state that may have sent requests and, for `hold`, with what it has noted of
itself; or it faults (R186). -/
inductive HStop where
  | wait (s : State)
  | hold (s : State) (h : HRun)
  | fail (status : Nat) (addr : Word)

abbrev HRes (α : Type) := Except HStop α

def hFail (status : Nat) (addr : Word) : HRes α := .error (.fail status addr)

def hWait (s : State) : HRes α := .error (.wait s)

/-- The first poisoned byte of a run, as its place in the run (R186). -/
def State.firstPoison (s : State) (ks : List Nat) : Option Nat :=
  (List.range ks.length).find? fun i => s.poison.contains (ks.getD i 0 / 32)

/-- Bytes of a window that a command reads: a bound range is touched, poison halts (R186, R218, R432). The address kept of a range in
the core's own windows is its offset there, and an entry of a skip list in a hidden range halts TARGET: choices of
notes/assumptions 96. -/
def State.hRead (s : State) (c : CoreId) (l : Launch) (w : Win) (off n : Nat) : HRes (List Byte) :=
  match (s.core c).touched w off n with
  | .absent i => hWait (if (s.core c).jobRoom then s.startCopy c i else s)
  | .copying _ => hWait s
  | .failed _ a => hFail 6 a
  | .clear =>
    match s.windowKeys c l w off n with
    | none => hFail 6 (word off)
    | some ks =>
      match s.firstPoison ks with
      | some i => hFail 8 (word (off + i))
      | none => .ok (s.bytesAt ks)

/-- Bytes of the C window written, and other plain LM writes of commands; poison stays (R189, R433). -/
def State.hWrite (s : State) (c : CoreId) (l : Launch) (w : Win) (off : Nat) (bs : List Byte) : State :=
  match s.windowKeys c l w off bs.length with
  | some ks => s.write none ks bs
  | none => s

def bytes4 (n : Nat) : List Byte := leBytes 4 n

/-- Words of four bytes. -/
def words4 (bs : List Byte) : List Nat :=
  match bs with
  | a :: b :: c :: d :: rest => leNat [a, b, c, d] :: words4 rest
  | _ => []

/-- A command of the matrix unit does what it can: it may go on, wait, or fault. -/
def State.hLoop (step : State → HRun → HRes (State × HRun)) (fuel : Nat) (s : State) (h : HRun) (done : HRun → Bool) :
    State × HRun × Bool :=
  match fuel with
  | 0 => (s, h, done h)
  | fuel + 1 =>
    if done h then (s, h, true) else
    match step s h with
    | .ok (s', h') => s'.hLoop step fuel h' done
    | .error (.wait s') => (s', h, false)
    | .error (.hold s' h') => (s', h', false)
    | .error (.fail k a) => (s, { h with failed := some (k, a) }, false)

/-- What a command does once, before its rows; a fault here leaves what has been written (R186). -/
structure HCode where
  begins : State → HRun → HRes (State × HRun)
  step : State → HRun → HRes (State × HRun)
  rows : HRun → Nat
  ends : State → HRun → HRes (State × HRun)

/-- How a command stands after its event. -/
def State.hSettle (s : State) (c : CoreId) (h : HRun) (done : Bool) : State :=
  s.modHarrow c fun y =>
    if done || h.failed.isSome then { y with running := none, retiring := y.retiring ++ [h] } else { y with running := some h }

/-- A write of SSR that stands behind an empty queue takes effect (R196). -/
def Core.takeSsr (x : Core) : Core :=
  if x.harrow.queue.isEmpty then
    { x with ssr := x.ssrNext.foldl (fun v p => v.set p.1.val p.2 p.1.isLt) x.ssr, ssrNext := [] }
  else x

/-- The rows of a command up to its next 16-row step, and its end after the last one (R209). -/
def State.hRows (s : State) (c : CoreId) (code : HCode) (h : HRun) : State :=
  let n := code.rows h
  let stop := min n (h.row / 16 * 16 + 16)
  let (s, h, all) := s.hLoop code.step (16 * (stop - h.row) + 1) h fun h => decide (stop ≤ h.row)
  if !all || decide (h.row < n) then s.hSettle c h false else
  match code.ends s h with
  | .ok (s, h) => s.hSettle c h true
  | .error (.wait s) => s.hSettle c h false
  | .error (.hold s h) => s.hSettle c h false
  | .error (.fail k a) => s.hSettle c { h with failed := some (k, a) } false

/-- A command runs from where it stands: it begins, if it has not, and goes on to its next 16-row step (R209). -/
def State.hRun (s : State) (c : CoreId) (code : HCode) (h : HRun) : State :=
  if h.begun then (s.modCore c Core.takeSsr).hRows c code h else
  match code.begins s h with
  | .ok (s, h) => (s.modCore c Core.takeSsr).hRows c code { h with begun := true }
  | .error (.wait s) => s.hSettle c h false
  | .error (.hold s h) => s.hSettle c h false
  | .error (.fail k a) => s.hSettle c { h with failed := some (k, a) } false

/-- Whether the matrix unit may run anything: no halt, and no fault that has still to be taken (R186). -/
def Harrow.free (h : Harrow) : Bool := h.haltStatus.isNone && !(h.retiring.any fun r => r.failed.isSome)

/-- Whether a command has rows that leave the array or the epilogue after it has issued them (R185, R189). -/
def HRun.hasRows (r : HRun) : Bool := oneOf (field r.cmd.record 0 1) [3, 4, 5, 6, 7]

/-- Whether the head of the queue may start: the command before it has issued its last row, or has completed if it has none,
and what earlier commands write to this core's own memory has landed (R189). -/
def Harrow.mayStart (h : Harrow) (c : CoreId) : Bool :=
  h.retiring.all HRun.hasRows && !(h.inbound.any fun m => match m with
    | .rows _ _ src _ => src == c.val
    | .mred _ _ _ _ src _ => src == c.val
    | _ => false)

/-- The command at work, or the one at the head of the queue, if it is of this kind (R189). The unit of a launch that is being
pre-empted has stopped (R209, R390). -/
def State.hEvent (s : State) (c : CoreId) (op : Nat) (code : Launch → HCode) : State :=
  match s.launchOf c with
  | none => s
  | some l =>
    let y := (s.core c).harrow
    if l.phase != .live || l.stopping || !y.free then s else
    match y.running with
    | some h => if field h.cmd.record 0 1 = op then s.hRun c (code l) h else s
    | none =>
      match y.queue with
      | [] => s
      | q :: rest =>
        if field q.record 0 1 ≠ op ∨ y.mayStart c = false then s else
        let h : HRun := { cmd := q, serial := s.serial }
        let s := s.modCore c fun x =>
          { x with ssr := q.ssr.foldl (fun v p => v.set p.1.val p.2 p.1.isLt) x.ssr,
                   harrow := { x.harrow with queue := rest, running := some h } }
        { s with serial := s.serial + 1 }.hRun c (code l) h

def noRows : HRun → Nat := fun _ => 0
def noStep : State → HRun → HRes (State × HRun) := fun s h => .ok (s, h)

/-- A command without rows. -/
def HCode.single (f : State → HRun → HRes (State × HRun)) : HCode := { begins := f, step := noStep, rows := noRows, ends := noStep }

/-! ## Banks -/

/-- Whether weights that this core sent to itself have not landed; they land as if the MROT had run alone (R189, R198). -/
def Harrow.selfRotation (h : Harrow) (c : CoreId) : Bool :=
  h.inactive != .arrived && h.inbound.any fun m => match m with | .bank _ src _ _ => src == c.val | _ => false

def Harrow.setInactive (h : Harrow) (b : Bank) (st : BankState) : Harrow :=
  if h.active then { h with bank0 := b, inactive := st } else { h with bank1 := b, inactive := st }

/-- MLDW: the bank is FILLING from its start, and LOADED when it has been read; it starts before a rotation that could be accepted,
also one that the core has sent to itself (R190, R191). -/
def mldwCode (c : CoreId) (l : Launch) : HCode where
  begins := fun s h =>
    let y := (s.core c).harrow
    if y.inactive = .filling ∨ y.inactive = .draining then hWait s
    else .ok (s.modHarrow c fun y => { y with inactive := .filling }, { h with was := y.inactive })
  step := noStep
  rows := noRows
  ends := fun s h => do
    let r := h.cmd.record
    let f := field r 16 1
    let w ← s.hRead c l .W (field r 8 4) (if f = 11 then 32768 else 16384)
    let sc ← if f = 1 then .ok [] else s.hRead c l .W (field r 12 4) 2048
    let b : Bank := { weights := w, scales := (words4 sc).map (BitVec.ofNat 32), fmt := tyCode f }
    .ok (s.modHarrow c fun y => y.setInactive b .loaded, h)

/-- A bank that an MLDW no longer fills has the state it had before, and its old contents (notes/assumptions 77). -/
def Harrow.unfill (h : Harrow) (r : HRun) : Harrow :=
  if field r.cmd.record 0 1 = 1 ∧ r.begun = true ∧ h.inactive = .filling then { h with inactive := r.was } else h

def execMldw (c : CoreId) (s : State) : Out := .next (s.hEvent c 1 (mldwCode c))

/-- Whether rows tagged with a bank are in the array. -/
def Harrow.tagged (h : Harrow) (b : Bool) : Bool := h.retiring.any fun r => r.bank == some b

/-- MSWAP (R192). -/
def mswapCode (c : CoreId) : HCode := .single fun s h => do
  let y := (s.core c).harrow
  if y.inactive = .filling ∨ y.selfRotation c = true then hWait s
  else if y.inactive = .empty then hFail 1 0
  else
    let old := y.active
    let st := if y.activeBank.fmt.isNone then BankState.empty else if y.tagged old then .draining else .loaded
    .ok (s.modHarrow c fun y => { y with active := !old, inactive := st }, h)

def execMswap (c : CoreId) (s : State) : Out := .next (s.hEvent c 2 fun _ => mswapCode c)

/-- A draining bank whose last row has left the array is LOADED (R190, R192). -/
def Harrow.drained (h : Harrow) : Harrow :=
  if h.inactive = .draining then
    { h with inactive := .loaded,
             retiring := h.retiring.map fun r => if r.bank = some (!h.active) then { r with bank := none } else r }
  else h

def execBankDrained (c : CoreId) (s : State) : Out := .next (s.modHarrow c Harrow.drained)

/-! ## Skip lists -/

/-- A skip-list register (R196). -/
structure Skip where
  kind : Bool
  left : Nat
  pos : Nat
  list : Nat
  deriving DecidableEq, Repr

def Skip.ofWord (v : Word) : Skip := ⟨wbits v 63 1 == 1, wbits v 48 15, wbits v 20 20, wbits v 0 20⟩

def Skip.toWord (x : Skip) : Word :=
  word ((if x.kind then 2 ^ 63 else 0) + x.left % 2 ^ 15 * 2 ^ 48 + x.pos % 2 ^ 20 * 2 ^ 20 + x.list % 2 ^ 20)

/-- The walk of R197: the register, the present slabs with the entry each came from, and the fault that ended it. Every
entry has a length, so the walk ends within the entries that the G window holds. -/
def skipWalk (read : Nat → HRes Nat) (size fuel : Nat) (x : Skip) (found : List (Nat × Nat)) :
    HRes (Skip × List (Nat × Nat) × Option (Nat × Word)) :=
  match fuel with
  | 0 => .ok (x, found, none)
  | fuel + 1 =>
    if 4 ≤ found.length then .ok (x, found, none)
    else if x.left = 0 then
      if size < x.list + 2 then .ok (x, found, some (4, word x.list))
      else
        match read x.list with
        | .error (.fail k a) => .ok (x, found, some (k, a))
        | .error e => .error e
        | .ok e =>
          if e % 2 ^ 15 = 0 then .ok (x, found, none)
          else skipWalk read size fuel { x with kind := e / 2 ^ 15 % 2 == 1, left := e % 2 ^ 15, list := x.list + 2 } found
    else if x.kind then skipWalk read size fuel { x with pos := (x.pos + x.left) % 2 ^ 20, left := 0 } found
    else
      let take := min x.left (4 - found.length)
      skipWalk read size fuel { x with pos := x.pos + take, left := x.left - take }
        (found ++ (List.range take).map fun i => (x.pos + i, x.list - 2))

/-- Whether a slab lies in the row (R197). -/
def slabFits (f ap asof p : Nat) : Bool :=
  if f = 1 then decide (32 * p + 32 ≤ ap)
  else decide ((if f = 11 then 64 * p + 64 else 32 * p + 32) ≤ asof) && decide (asof + 4 * p + 4 ≤ ap)

/-- The slabs of a command: all four, or those of its skip list; the register stays advanced after a fault (R197). -/
def State.hSlabs (s : State) (c : CoreId) (l : Launch) (h : HRun) : HRes (State × HRun) := do
  let r := h.cmd.record
  if !fieldBit r 1 2 then .ok (s, { h with slabs := [0, 1, 2, 3] }) else
  let i : Fin 4 := Fin.ofNat 4 (field r 20 1)
  let (x, found, bad) ← skipWalk (fun o => (s.hRead c l .G o 2).map leNat) (l.split.size .G) (2 * l.split.size .G + 8)
    (Skip.ofWord ((s.core c).ssr.get i)) []
  let s := s.modCore c fun y => { y with ssr := y.ssr.set i.val x.toWord i.isLt }
  match bad with
  | some e => .ok (s, { h with failed := some e })
  | none =>
    match found.find? fun p => !slabFits (field r 18 1) (field r 12 2) (field r 14 2) p.1 with
    | some p => .ok (s, { h with failed := some (4, word p.2) })
    | none => .ok (s, { h with slabs := found.map (·.1) })

/-! ## Multiply and rotate -/

/-- The north and west neighbours of a core in the sub-grid of an MROT (R198). -/
def rotTargets (c : CoreId) (r : List Byte) : CoreId × CoreId :=
  let gx := field r 44 1
  let gw := field r 45 1
  let gy := field r 46 1
  let gh := field r 47 1
  let i := (c.col + 16 - gx) % 16
  let j := (c.row + 8 - gy) % 8
  (CoreId.ofGrid c.die c.col (gy + (j + gh - 1) % gh), CoreId.ofGrid c.die (gx + (i + gw - 1) % gw) c.row)

def State.pushFlight (s : State) (c dst : CoreId) (m : HFlight) : State :=
  (s.modHarrow dst fun y => { y with inbound := y.inbound ++ [m] }).modCore c fun x => { x with sent := x.sent + 1 }

/-- What MMUL and MROT do before their rows: the bank, the slabs and the neighbours (R192, R197, R198). A neighbour that is not a core of
the launch faults before the first row, and the symbol keeps address 0: choices of notes/assumptions 96. -/
def State.mulBegin (s : State) (c : CoreId) (l : Launch) (rot : Bool) (h : HRun) : HRes (State × HRun) := do
  let y := (s.core c).harrow
  if y.activeBank.fmt.isNone then hFail 1 0 else
  let (s, h) ← s.hSlabs c l h
  if h.failed.isSome || !rot then .ok (s, h) else
  let (north, west) := rotTargets c h.cmd.record
  if !s.boundTo north l || !s.boundTo west l then .ok (s, { h with failed := some (6, 0) })
  else .ok (s, h)

/-- Where a row's record lies in the A window (R194). -/
def State.rowOffset (s : State) (c : CoreId) (l : Launch) (h : HRun) : HRes Nat := do
  let r := h.cmd.record
  let ap := field r 12 2
  if fieldBit r 1 1 then
    let at_ := field r 32 4 + 4 * h.row
    let bs ← s.hRead c l .G at_ 4
    let off := field r 8 4 + leNat bs * ap
    if l.rangeOk .A off ap then .ok off else hFail 3 (word at_)
  else if fieldBit r 1 3 then
    let i : Fin 8 := Fin.ofNat 8 (field r 19 1)
    match l.cbDecl i with
    | none => hFail 5 0
    | some d =>
      let b := (s.core c).cbs.get i
      if b.filled = 0 then hWait s else .ok (d.slotAt b.head + h.row % (d.size / ap) * ap)
  else .ok (field r 8 4 + h.row * ap)

/-- Bytes that a record shorter than its slabs goes on into: those that follow it in the A window, and past the window or
in a hidden range an open value each (R194). -/
def State.recordTail (s : State) (c : CoreId) (l : Launch) (h : HRun) (off n m : Nat) : HRes (List Byte) :=
  (List.range (m - n)).foldlM (fun l' i =>
    let o := off + n + i
    if l.rangeOk .A o 1 then (s.hRead c l .A o 1).map fun b => l' ++ b
    else .ok (l' ++ [Config.openByte h.serial (h.row * 256 + n + i)])) []

/-- Whether a bank takes an activation format (R195). -/
def formatOk (bank : Option Ty) (f : Nat) : Bool :=
  match bank with
  | some .i8 => f == 1
  | some .bf16 => f == 11
  | some _ => f == 12 || f == 13
  | none => false

/-- One row of MMUL or MROT (R194, R195, R198). -/
def State.mulRow (s : State) (c : CoreId) (l : Launch) (h : HRun) : HRes (State × HRun) := do
  if h.failed.isSome then hFail (h.failed.getD (0, 0)).1 (h.failed.getD (0, 0)).2 else
  let r := h.cmd.record
  let y := (s.core c).harrow
  let bank := y.activeBank
  let f := field r 18 1
  let ap := field r 12 2
  if !formatOk bank.fmt f then hFail 2 0 else
  -- A poisoned bank has no address: 0 is kept (R432; notes/assumptions 96).
  if !bank.poison.isEmpty then hFail 8 0 else
  let off ← s.rowOffset c l h
  let rec' ← s.hRead c l .A off ap
  let width := if f = 11 then 64 else 32
  let need := (h.slabs.map fun p => width * (p + 1)).foldl max ap
  let tail ← s.recordTail c l h off ap need
  let coff := field r 24 4 + h.row * field r 28 2
  let start ← if fieldBit r 1 0 then (s.hRead c l .C coff 512).map words4 else .ok []
  let (out, n) := rowResult ((tyCode f).getD .i8) bank (rec' ++ tail).toArray h.slabs (field r 14 2) start
  let s := s.hWrite c l .C coff (out.flatMap bytes4)
  let s := s.modCore c fun x => ((x.count 7 n.nan).count 8 n.ovf).count 14 n.placed
  -- The slot's last row frees it (R194).
  let s := if fieldBit r 1 3 then
      let i : Fin 8 := Fin.ofNat 8 (field r 19 1)
      match l.cbDecl i with
      | some d =>
        if (h.row + 1) % (d.size / ap) = 0 then
          s.modCore c fun x => let b := x.cbs.get i; x.setCb i { b with head := b.head + 1 }
        else s
      | none => s
    else s
  .ok (s, { h with row := h.row + 1, bank := some y.active, data := if field r 0 1 = 4 then h.data ++ rec' else h.data })

/-- The end of MROT: the weights go north, as the rows used them, and the rows go west (R198). -/
def State.mulEnd (s : State) (c : CoreId) (h : HRun) : HRes (State × HRun) :=
  if field h.cmd.record 0 1 = 4 then
    let (north, west) := rotTargets c h.cmd.record
    .ok ((s.pushFlight c north (.bank (s.core c).harrow.activeBank c.val h.serial false)).pushFlight c west
        (.rows h.data (field h.cmd.record 40 4) c.val h.serial),
      { h with pending := h.pending + 2, data := [] })
  else .ok (s, h)

def mulCode (c : CoreId) (rot : Bool) (l : Launch) : HCode where
  begins := fun s h => s.mulBegin c l rot h
  step := fun s h => s.mulRow c l h
  rows := fun h => field h.cmd.record 16 2
  ends := fun s h => s.mulEnd c h

def execMmul (c : CoreId) (s : State) : Out := .next (s.hEvent c 3 (mulCode c false))

def execMrot (c : CoreId) (s : State) : Out := .next (s.hEvent c 4 (mulCode c true))

/-- A transfer of a command has landed at its receiver (R185, R198). -/
def Harrow.landed (h : Harrow) (serial : Nat) : Harrow :=
  let f (r : HRun) : HRun := if r.serial = serial then { r with pending := r.pending - 1 } else r
  { h with running := h.running.map f, retiring := h.retiring.map f }

/-- Whether an MLDW could start now, ahead of an inbound rotation (R190). -/
def Harrow.mldwFirst (h : Harrow) (c : CoreId) : Bool :=
  h.free && match h.running with
    | some r => !r.begun && field r.cmd.record 0 1 == 1
    | none => h.mayStart c && (match h.queue with | q :: _ => field q.record 0 1 == 1 | [] => false)

/-- Every granule of a bank is poisoned (R431). -/
def Bank.spoil (b : Bank) : Bank := { b with poison := List.range ((b.weights.length + 4 * b.scales.length + 31) / 32) }

/-- The oldest inbound bank is accepted, or, once accepted, has landed, poisoned where its check fails (R190, R198, R431). -/
def State.bankArrives (s : State) (c : CoreId) (bad : Bool := false) : State :=
  let y := (s.core c).harrow
  match s.launchOf c, y.inbound.find? fun m => match m with | .bank .. => true | _ => false with
  | some l, some (.bank b src serial taken) =>
    if l.phase != .live then s
    else if taken then
      let s := s.modHarrow c fun y => { (y.setInactive (if bad then b.spoil else b) .arrived) with
        rotin := y.rotin + 1, inbound := y.inbound.erase (.bank b src serial true) }
      let s := s.modCore c fun x => { x with rcvd := x.rcvd + 1 }
      s.modHarrow (coreOf src) fun y => y.landed serial
    else if l.stopping = false ∧ (y.inactive = .empty ∨ y.inactive = .loaded) ∧ y.mldwFirst c = false then
      s.modHarrow c fun y => { y with
        inactive := .filling,
        inbound := y.inbound.map fun m => if m = .bank b src serial false then .bank b src serial true else m }
    else s
  | _, _ => s

def execRotationBankArrived (m : Landing) (s : State) : Out := .next (s.bankArrives m.core m.bad)

/-- The granules of a window range are poisoned, where a transfer into it fails its check (R431). -/
def State.spoilRange (s : State) (c : CoreId) (l : Launch) (w : Win) (off n : Nat) : State :=
  match s.windowKeys c l w off n with
  | some ks => s.poisonGranules (ks.map (· / 32)).dedup
  | none => s

/-- The rows of one MROT land in the A window, poisoned where their check fails (R198, R431). -/
def State.rowsLand (s : State) (c : CoreId) (bad : Bool := false) : State :=
  match s.launchOf c, (s.core c).harrow.inbound.find? fun m => match m with | .rows .. => true | _ => false with
  | some l, some (.rows data off src serial) =>
    if l.phase != .live then s
    else
      let s := s.hWrite c l .A off data
      let s := if bad then s.spoilRange c l .A off data.length else s
      let s := s.modHarrow c fun y => { y with rotin := y.rotin + 1, inbound := y.inbound.erase (.rows data off src serial) }
      let s := s.modCore c fun x => { x with rcvd := x.rcvd + 1 }
      s.modHarrow (coreOf src) fun y => y.landed serial
  | _, _ => s

def execRotationRowsLanded (m : Landing) (s : State) : Out := .next (s.rowsLand m.core m.bad)

/-! ## Epilogue -/

/-- The rounding mode of a conversion of the epilogue (R200, R201). -/
def epiMode (r : List Byte) (rm : RMode) : RMode :=
  let m := match field r 18 1 with
    | 1 => .rne | 2 => .rtz | 3 => .rup | 4 => .rdn | 5 => .sr | _ => rm
  if m = .sr ∧ field r 16 1 ≠ 12 ∧ field r 16 1 ≠ 13 then .rne else m

/-- One row of elements converted: the bytes, the generators and the events (R201, R203). -/
def epiRow (r : List Byte) (rm : RMode) (scale bias : List Nat) (gens : List (BitVec 32)) (cs : List Nat) :
    List Byte × List (BitVec 32) × Nat :=
  let ty := (tyCode (field r 16 1)).getD .f32
  let cint := fieldBit r 19 2
  let act := field r 17 1
  let mode := epiMode r rm
  let plain := ty == .i32 && cint && !fieldBit r 1 0 && !fieldBit r 1 1 && act == 0
  (List.range 128).foldl (fun (a : List Byte × List (BitVec 32) × Nat) n =>
    let c := cs.getD n 0
    if plain then (a.1 ++ bytes4 c, a.2)
    else
      let x := epiElement cint (if fieldBit r 1 0 then some (scale.getD n 0) else none)
        (if fieldBit r 1 1 then some (bias.getD n 0) else none) act (field r 28 4) (field r 32 4) c
      let (y, ev) := convert mode (fieldBit r 19 0) (genDraw (a.2.1.getD (n % 32) 0)) ty .f32 x
      (a.1 ++ leBytes ty.bytes y, if mode = .sr then a.2.1.modify (n % 32) genStep else a.2.1,
        a.2.2 + (if epiCounts ev then 1 else 0))) ([], gens, 0)

/-- An access of a command: poison, a fault of its target, or the wait for the host's copy of a table's line (R186, R304). -/
def State.hAcc (s : State) (r : Except AccErr α) : HRes α :=
  match r with
  | .ok a => .ok a
  | .error (.snoop n) => hWait (s.sendSnoops [n] false)
  | .error (.notPresent a) => hFail 6 a
  | .error (.fault .poison a) => hFail 8 a
  | .error (.fault _ a) => hFail 6 a

/-- The descriptor that an epilogue writes through, read at its table's home (R294, R369). -/
def State.epiDesc (s : State) (l : Launch) (r : List Byte) : List Acc :=
  if field r 42 1 = 3 then [s.descAcc l (field r 44 2)] else []

/-- Where n bytes of the destination at an offset lie (R202). The address of a fault in the core's own windows is the offset there, a
choice of notes/assumptions 96. -/
def State.epiPlaces (s : State) (c : CoreId) (l : Launch) (r : List Byte) (off n : Nat) : HRes (List Acc) :=
  match field r 42 1 with
  | 0 => s.hAcc (s.windowRun l c .A off n)
  | 1 => s.hAcc (s.windowRun l c .G off n)
  | 2 =>
    match l.pair (field r 44 2) with
    | some p =>
      if p.noff ≤ off ∧ off + n ≤ p.noff + p.len then
        .ok [{ keys := pairKeys c p (!(s.core c).vis.get p.pair) (off - p.noff) n, place := .lm c (some p.win) off }]
      else hFail 6 (word off)
    | none => hFail 6 (word off)
  | _ =>
    let i := field r 44 2
    match s.engineDemand (.ofEngine c) (s.epiDesc l r) .read with
    | some s' => hWait s'
    | none =>
    if s.poisoned (s.descAcc l i).keys then hFail 8 (l.bdtVa + word (32 * i)) else
    let d := s.desc l i
    let va := withTag (d.shadow + word off) d.tag
    if d.length < off + n then hFail 6 va else s.hAcc (s.globalRuns l .hwrite va n fun a x => descPerm d.wr a x)

/-- A row of MEPI (R201, R202): its bytes, the generators after it, the conversions it counts, and where it goes. -/
def State.mepiData (s : State) (c : CoreId) (l : Launch) (h : HRun) :
    HRes (List Byte × List (BitVec 32) × Nat × List Acc) := do
  let r := h.cmd.record
  let scale ← if fieldBit r 1 0 then (s.hRead c l .G (field r 20 4) 512).map words4 else .ok []
  let bias ← if fieldBit r 1 1 then (s.hRead c l .G (field r 24 4) 512).map words4 else .ok []
  let cs ← s.hRead c l .C (field r 8 4 + h.row * field r 12 2) 512
  let (out, gens, n) := epiRow r h.cmd.rm scale bias (s.core c).harrow.gens (words4 cs)
  let as ← s.epiPlaces c l r (field r 36 4 + h.row * field r 40 2) out.length
  .ok (out, gens, n, as)

/-- The packets of 64 bytes that writes in a space make (R391). -/
def packets (space : Nat) (as : List Acc) (bs : List Byte) : List Stray :=
  let bytes := (as.flatMap fun a => a.keys.map fun k => (a, k)).zip bs
  (linesOf (as.flatMap (·.keys))).filterMap fun n =>
    let here := bytes.filter fun p => p.1.2 / 64 == n
    match here with
    | [] => none
    | p :: _ => some { acc := { p.1.1 with keys := here.map (·.1.2) }, data := here.map (·.2), space }

/-- The links and ports that an epilogue's writes use, noted for its signal (R289, R399). -/
def HRun.noted (h : HRun) (links ports : List Nat) : HRun :=
  { h with wrote := links.foldl (fun l d => addOnce d l) h.wrote, ncWrote := ports.foldl (fun l p => addOnce p l) h.ncWrote }

/-- Writes of an epilogue are performed (R202, R433). -/
def State.epiPerform (s : State) (c : CoreId) (h : HRun) (as : List Acc) (bs : List Byte) : State × HRun :=
  let h := h.noted (as.flatMap (s.linksOf c)) (as.flatMap s.ncPorts)
  let (s, cov) := (s.engineArrive (From.ofEngine c) as .store).partWrite h.covered (as.flatMap (·.keys)) bs []
  (s, { h with covered := cov })

/-- Packets in flight are performed, each once nothing holds it back (R390, R391). -/
def State.landPackets (s : State) (c : CoreId) (h : HRun) (ps : List Stray) : State × HRun × List Stray :=
  ps.foldl (fun (a : State × HRun × List Stray) p =>
    match a.1.engineDemand (From.ofEngine c) [p.acc] .store with
    | some s' => (s', a.2.1, a.2.2 ++ [p])
    | none => let (s, h) := a.1.epiPerform c a.2.1 [p.acc] p.data; (s, h, a.2.2)) (s, h, [])

/-- The rows in flight of an epilogue go on (R390). -/
def State.landRows (s : State) (c : CoreId) (h : HRun) : State × HRun :=
  h.flight.foldl (fun (a : State × HRun) f =>
    let (s, h, left) := a.1.landPackets c a.2 f.packets
    (s, if left.isEmpty then h else { h with flight := h.flight ++ [{ f with packets := left }] })) (s, { h with flight := [] })

/-- How many rows of an epilogue can be in flight: the spec gives no number, and this is the model's (R390; notes/assumptions 95). -/
def rowsInFlight : Nat := 16

/-- One row of MEPI is issued: its writes are performed, or, to a descriptor's target that holds them back, are in flight (R201, R202,
R390). -/
def State.mepiRow (s : State) (c : CoreId) (l : Launch) (h : HRun) : HRes (State × HRun) := do
  let (s, h) := s.landRows c h
  if rowsInFlight ≤ h.flight.length then .error (.hold s h) else
  let old := (s.core c).harrow.gens
  let (out, gens, n, as) ← s.mepiData c l h
  let issued (s : State) : State := (s.modHarrow c fun y => { y with gens }).modCore c fun x => x.count 13 n
  match s.engineDemand (From.ofEngine c) as .store with
  | some s' =>
    if field h.cmd.record 42 1 = 3 then
      .ok (issued (s'.engineArrive (From.ofEngine c) (s'.epiDesc l h.cmd.record) .read),
        { h with row := h.row + 1, flight := h.flight ++ [{ row := h.row, gens := old, packets := packets l.space as out }] })
    else .error (.hold s' h)
  | none =>
    let s := s.engineArrive (From.ofEngine c) (s.epiDesc l h.cmd.record) .read
    let (s, h) := s.epiPerform c h as out
    .ok (issued s, { h with row := h.row + 1 })

/-- An epilogue's signal waits, as a release at `.pkg` or `.sys`, for the tokens behind its writes and, at `.sys`, for the zero-length
reads behind non-coherent ones, which it sends first (R202, R289, R399, R426). -/
def State.epiTokens (s : State) (c : CoreId) (h : HRun) : HRes Unit :=
  if !s.tokens (scopeOf (field h.cmd.record 43 1 % 8)) then .ok () else
  match h.relWait with
  | some 0 => .ok ()
  | some _ => hWait s
  | none =>
    let ports := if scopeOf (field h.cmd.record 43 1 % 8) = .sys then h.ncWrote else []
    if ((addOnce c.die.val h.wrote).any fun d => (s.die d).seq.isSome) then hWait s
    else if h.wrote.isEmpty && ports.isEmpty then .ok ()
    else
      .error (.hold (s.sendTokens (.epilogue c.val h.serial) h.wrote ports)
        { h with wrote := [], ncWrote := [], relWait := some (h.wrote.length + ports.length) })

/-- The flag of MEPI, once every row has been performed (R202, R309). A flag in the G window that faults gives its offset there, a
choice of notes/assumptions 96. -/
def State.mepiSignal (s : State) (c : CoreId) (l : Launch) (h : HRun) : HRes (State × HRun) := do
  let r := h.cmd.record
  let (s, h) := s.landRows c h
  if !h.flight.isEmpty then .error (.hold s h) else
  if !fieldBit r 43 3 then .ok (s, h) else
  s.epiTokens c h
  let v := field r 56 4
  let addf := fieldBit r 43 4
  if fieldBit r 43 5 then
    let va := word (field r 48 8)
    let a ← s.hAcc (s.global l (if addf then .sigadd else .hwrite) va 8 fun p coh => !addf || (match p with | .host _ => coh | _ => true))
    let f := From.ofEngine c
    let q : Req := if addf then .perform else .store
    match s.engineDemand f [a] q with
    | some s' => hWait s'
    | none =>
      match a.place with
      | .ctr n => .ok (s.raise n (word v), h)
      | .head _ => .ok (s, h)
      | _ => .ok ((s.engineArrive f [a] q).write none a.keys (leBytes 8 ((if addf then s.num a.keys else 0) + v)), h)
  else
    let off := field r 48 8
    match s.windowKeys c l .G off 8 with
    | none => hFail 6 (word off)
    | some ks =>
      if addf && s.poisoned ks then hFail 8 (word off)
      else .ok (s.write none ks (leBytes 8 ((if addf then s.num ks else 0) + v)), h)

def mepiCode (c : CoreId) (l : Launch) : HCode where
  begins := fun s h =>
    .ok (if fieldBit h.cmd.record 19 1 then
      s.modHarrow c fun y => { y with gens := (List.range 32).map (genSeed (BitVec.ofNat 32 (field h.cmd.record 60 4))) } else s, h)
  step := fun s h => s.mepiRow c l h
  rows := fun h => field h.cmd.record 14 2
  ends := fun s h => s.mepiSignal c l h

def execMepi (c : CoreId) (s : State) : Out := .next (s.hEvent c 5 (mepiCode c))

/-- MZERO (R204). -/
def mzeroCode (c : CoreId) (l : Launch) : HCode where
  begins := noStep
  step := fun s h =>
    .ok (s.hWrite c l .C (field h.cmd.record 8 4 + h.row * field h.cmd.record 12 2) (List.replicate 512 0), { h with row := h.row + 1 })
  rows := fun h => field h.cmd.record 14 2
  ends := noStep

def execMzero (c : CoreId) (s : State) : Out := .next (s.hEvent c 6 (mzeroCode c))

/-! ## Split-K reduction -/

/-- Eight elements of a row of MRED: each aligned 64-byte block is read whole, with its even message (R189, R206). -/
def State.mredRead (s : State) (c : CoreId) (l : Launch) (h : HRun) : HRes (List Byte × List Byte) :=
  let off := field h.cmd.record 8 4 + h.row * field h.cmd.record 12 2 + 32 * h.part
  if h.part % 2 = 1 ∧ h.data.length = 32 then .ok (h.data, [])
  else do
    let bs ← s.hRead c l .C off 32
    .ok (bs, if h.part % 2 = 1 then [] else match s.hRead c l .C (off + 32) 32 with | .ok next => next | .error _ => [])

/-- One message of MRED: eight elements of a row, once the destination has a slot for it (R206). -/
def State.mredStep (s : State) (c : CoreId) (l : Launch) (h : HRun) : HRes (State × HRun) := do
  let r := h.cmd.record
  let dst := coreOf (l.cores.getD (field r 16 4) 0)
  let held := (s.core dst).harrow.inbound.countP fun m => match m with | .mred .. => true | _ => false
  if 4 ≤ held then hWait s else
  let (bs, data) ← s.mredRead c l h
  let m := HFlight.mred (Fin.ofNat 4 (field r 20 1)) (field r 22 2 + h.row) h.part ((words4 bs).map blockOf) c.val h.serial
  .ok (s.pushFlight c dst m,
    { h with data, pending := h.pending + 1, part := (h.part + 1) % 16, row := if h.part = 15 then h.row + 1 else h.row })

def mredCode (c : CoreId) (l : Launch) : HCode where
  begins := noStep
  step := fun s h => s.mredStep c l h
  rows := fun h => field h.cmd.record 14 2
  ends := noStep

def execMred (c : CoreId) (s : State) : Out := .next (s.hEvent c 7 (mredCode c))

def Harrow.setRegion (h : Harrow) (i : Fin 4) (g : HRegion) : Harrow := { h with regions := h.regions.set i.val g i.isLt }

/-- MRACC (R205). -/
def mraccCode (c : CoreId) (l : Launch) : HCode := .single fun s h =>
  let r := h.cmd.record
  let rows := field r 12 2
  let s := s.hWrite c l .C (field r 8 4) (List.replicate (2048 * rows) 0)
  .ok (s.modHarrow c fun y => y.setRegion (Fin.ofNat 4 (field r 14 1))
    { isOpen := true, roff := field r 8 4, rows, exp := fieldInt r 16 4 }, { h with row := rows })

def execMracc (c : CoreId) (s : State) : Out := .next (s.hEvent c 8 (mraccCode c))

/-- The pairs of a message added to the cells of a region from an offset in C (R64, R205). -/
def State.addPairs (s : State) (c : CoreId) (l : Launch) (E : Int) (off : Nat) (ps : List (BitVec 32 × BitVec 32)) : State :=
  (List.range ps.length).foldl (fun s i =>
    match s.windowKeys c l .C (off + 16 * i) 16 with
    | none => s
    | some ks =>
      let p := ps.getD i (0, 0)
      let (x, sat) := (Cell.ofBytes (s.bytesAt ks)).arrive E p.1 p.2
      let s := s.write none ks x.bytes
      if sat then s.countAll c [9] else s) s

/-- A matrix unit halts at a fault that no command of its own has met: what is at work or queued is discarded (R186, R432). The tag kept
is that of the command at work, or of the last one; a choice of notes/assumptions 96. -/
def State.harrowHalt (s : State) (c : CoreId) (status : Nat) : State :=
  let y := (s.core c).harrow
  let drop := (y.running.map (·.cmd)).toList ++ y.queue
  let tag := match y.current with | some r => BitVec.ofNat 32 r.cmd.tag | none => y.lastTag
  let s := s.modCore c fun x =>
    { x with ssr := (y.queue.flatMap (·.ssr) ++ x.ssrNext).foldl (fun v p => v.set p.1.val p.2 p.1.isLt) x.ssr, ssrNext := [],
             strays := x.strays ++ y.running.toList.flatMap fun r => r.flight.flatMap (·.packets)
             harrow := { x.harrow with running := none, queue := [], haltStatus := some (x.harrow.haltStatus.getD status),
                                       haltTag := if x.harrow.haltStatus.isSome then x.harrow.haltTag else tag,
                                       inactive := (y.running.toList.foldl Harrow.unfill y).inactive } }
  drop.foldl (fun s q => s.faultSym c q.ref 0) s

/-- The oldest MRED message of a harrow is added, or refused and its command faults (R206, R222). Cells in a poisoned granule halt the
unit, and a message that fails its check poisons the granules of its cells (R431, R432). -/
def State.mredArrives (s : State) (c : CoreId) (bad : Bool := false) : State :=
  match s.launchOf c, (s.core c).harrow.inbound.find? fun m => match m with | .mred .. => true | _ => false with
  | some l, some (.mred i row part ps src serial) =>
    if l.phase != .live then s
    else
      let s := s.modHarrow c fun y => { y with inbound := y.inbound.erase (.mred i row part ps src serial) }
      let s := s.modCore c fun x => { x with rcvd := x.rcvd + 1 }
      let s := s.modHarrow (coreOf src) fun y => y.landed serial
      let g := (s.core c).harrow.regions.get i
      if g.isOpen ∧ g.ended = false ∧ row < g.rows then
        let off := g.roff + 2048 * row + 128 * part
        if (match s.windowKeys c l .C off 128 with | some ks => s.poisoned ks | none => false) then s.harrowHalt c 8 else
        let s := s.addPairs c l g.exp off ps
        let s := if bad then s.spoilRange c l .C off 128 else s
        if part = 15 then s.modHarrow c fun y => y.setRegion i { g with received := g.received + 1 } else s
      else
        let s := s.modCore c fun x => { x with deadl := satAdd32 x.deadl 1, sent := x.sent + 1 }
        (s.modCore (coreOf src) fun x => { x with rcvd := x.rcvd + 1 }).modHarrow (coreOf src) fun y =>
          let f (r : HRun) : HRun := if r.serial = serial ∧ r.failed.isNone then { r with failed := some (7, 0) } else r
          match y.running with
          | some r => if r.serial = serial then { y with running := none, retiring := y.retiring ++ [f r] } else { y with retiring := y.retiring.map f }
          | none => { y with retiring := y.retiring.map f }
  | _, _ => s

def execMredArrival (m : Landing) (s : State) : Out := .next (s.mredArrives m.core m.bad)

/-- One result row of MRFIN (R207). A region with more rows than were checked at submission faults TARGET at its first row outside the C
window, a choice of notes/assumptions 96. -/
def State.mrfinRow (s : State) (c : CoreId) (l : Launch) (h : HRun) : HRes (State × HRun) := do
  let r := h.cmd.record
  let g := (s.core c).harrow.regions.get (Fin.ofNat 4 (field r 14 1))
  let bs ← s.hRead c l .C (g.roff + 2048 * h.row) 2048
  let out := (List.range 128).map fun n => (Cell.ofBytes ((bs.drop (16 * n)).take 16)).result g.exp
  let off := field r 8 4 + h.row * field r 12 2
  if !l.rangeOk .C off 512 then hFail 6 (word off) else
  let s := s.hWrite c l .C off (out.flatMap fun p => bytes4 p.1)
  .ok (s.countAll c (out.flatMap (·.2)), { h with row := h.row + 1 })

/-- MRFIN: it waits for EXPECT rows, and the region then takes no more; a closed region ends at once (R207). The rows are counted before
they are written. -/
def mrfinCode (c : CoreId) (l : Launch) : HCode where
  begins := fun s h =>
    let g := (s.core c).harrow.regions.get (Fin.ofNat 4 (field h.cmd.record 14 1))
    if g.isOpen then
      if field h.cmd.record 16 4 ≤ g.received then
        .ok (s.modHarrow c fun y => y.setRegion (Fin.ofNat 4 (field h.cmd.record 14 1)) { g with ended := true }, { h with part := g.rows })
      else hWait s
    else .ok (s, { h with part := 0 })
  step := fun s h => s.mrfinRow c l h
  rows := fun h => h.part
  ends := fun s h =>
    .ok (s.modHarrow c fun y => let i := Fin.ofNat 4 (field h.cmd.record 14 1); y.setRegion i { y.regions.get i with isOpen := false, ended := false }, h)

def execMrfin (c : CoreId) (s : State) : Out := .next (s.hEvent c 9 (mrfinCode c))

/-! ## Synchronisation, completion and faults -/

/-- MSYNC (R208). -/
def msyncCode (c : CoreId) : HCode := .single fun s h =>
  let y := (s.core c).harrow
  let n := BitVec.ofNat 32 (field h.cmd.record 8 4)
  if y.retiring.isEmpty ∧ (fieldBit h.cmd.record 1 0 = false ∨ 0 ≤ (y.rotin - n).toInt) then .ok (s, h) else hWait s

def execMsync (c : CoreId) (s : State) : Out := .next (s.hEvent c 10 fun _ => msyncCode c)

/-- The command that completes next: one without rows, which the next command waits for, else the oldest whose transfers
have landed (R185, R189). -/
def Harrow.completing (h : Harrow) : Option HRun :=
  let ok (r : HRun) : Bool := r.failed.isNone && r.pending == 0
  match h.retiring.find? fun r => ok r && !r.hasRows with
  | some r => some r
  | none => h.retiring.find? ok

/-- A command completes and its symbol is delivered (R185). -/
def State.harrowComplete (s : State) (c : CoreId) : State :=
  match (s.core c).harrow.completing with
  | none => s
  | some r =>
    let s := s.modHarrow c fun y =>
      let y := { y with retiring := y.retiring.erase r, lastTag := BitVec.ofNat 32 r.cmd.tag, cursor := BitVec.ofNat 32 r.row }
      if y.tagged (!y.active) then y else y.drained
    s.deliver c r.cmd.ref (word (r.cmd.tag * 2 ^ 32 + r.row))

def execHarrowComplete (c : CoreId) (s : State) : Out := .next (s.harrowComplete c)

/-- A fault is taken: the command's symbol keeps the address, HALT is set, and what is queued or not yet issued is
discarded (R186). -/
def State.harrowFault (s : State) (c : CoreId) : State :=
  let y := (s.core c).harrow
  match y.retiring.find? fun r => r.failed.isSome with
  | none => s
  | some r =>
    -- What its epilogue has issued goes on first.
    let (t, q) := s.landRows c r
    if !q.flight.isEmpty then t.modHarrow c fun y => { y with retiring := y.retiring.map fun x => if x = r then q else x } else
    let s := t
    let (k, a) := r.failed.getD (0, 0)
    let drop := (y.running.map (·.cmd)).toList ++ y.queue
    let s := s.modCore c fun x =>
      { x with ssr := (y.queue.flatMap (·.ssr) ++ x.ssrNext).foldl (fun v p => v.set p.1.val p.2 p.1.isLt) x.ssr, ssrNext := [],
               harrow := { x.harrow with
                 retiring := x.harrow.retiring.erase r, running := none, queue := [],
                 haltStatus := some (x.harrow.haltStatus.getD k),
                 haltTag := if x.harrow.haltStatus.isSome then x.harrow.haltTag else BitVec.ofNat 32 r.cmd.tag,
                 inactive := ((y.running.toList ++ [r]).foldl Harrow.unfill y).inactive } }
    drop.foldl (fun s q => s.faultSym c q.ref 0) (s.faultSym c r.cmd.ref a)

def execHarrowFault (c : CoreId) (s : State) : Out := .next (s.harrowFault c)

end Sys2Proof.Machine
end

