-- ==== Sys2Proof/Machine/Transcend.lean ====
section
/-! DEFINITION. The transcendental functions of the vector unit (R167). Each answers a value on the same side of every
rounding boundary of every element format as the exact result, so that one rounding of it is one rounding of the
function. The results are irrational but for the special inputs, and lie far from every boundary beside the error of
320 binary places kept here. -/

namespace Sys2Proof.Machine

/-- Binary places of the fixed-point numbers below. -/
def fixBits : Nat := 320

/-- The sum of r^i / i! from the term t = r^k / k! on, in fixed point. -/
def expTerms (n k r t : Nat) : Nat :=
  match n with
  | 0 => t
  | n + 1 => t + expTerms n (k + 1) r (t * r / 2 ^ fixBits / (k + 1))

/-- A fixed-point number squared k times. -/
def squares (k v : Nat) : Nat :=
  match k with
  | 0 => v
  | k + 1 => squares k (v * v / 2 ^ fixBits)

/-- e^x in fixed point for a fixed-point x below 2^9: e^(x / 2^16) by its series, squared 16 times. -/
def expFix (x : Nat) : Nat := squares 16 (expTerms 45 0 (x / 2 ^ 16) (2 ^ fixBits))

/-- m * 2^e in fixed point. -/
def toFix (m : Nat) (e : Int) : Nat :=
  if -(fixBits : Int) ≤ e then m * 2 ^ (e + fixBits).toNat else m / 2 ^ (-(e + fixBits)).toNat

/-- A result that lies strictly between two neighbours in fixed point. -/
def between (neg : Bool) (v : Nat) (bits : Nat) : FpVal := .fin neg (2 * v + 1) (-(bits : Int) - 1)

/-- e^x (R167). Beyond 200 in magnitude the result overflows or underflows every format. -/
def FpVal.exp (a : FpVal) : FpVal :=
  match a with
  | .nan => .nan
  | .inf neg => if neg then .fin false 0 0 else .inf false
  | .fin neg m e =>
    if m = 0 then .fin false 1 0
    else if 8 ≤ (Nat.log2 m : Int) + e then (if neg then .fin false 1 (-1000) else .fin false 1 1000)
    else
      let v := expFix (toFix m e)
      if neg then between false (2 ^ (2 * fixBits) / v) fixBits else between false v fixBits

/-- The sum of z^(2i+1) / (2i+1) from the power p = z^(2k+1) on, in fixed point; `q` is z². -/
def atanhTerms (n k q p : Nat) : Nat :=
  match n with
  | 0 => 0
  | n + 1 => p / (2 * k + 1) + atanhTerms n (k + 1) q (p * q / 2 ^ fixBits)

/-- 2 atanh z for a fixed-point z up to 1/3. -/
def twiceAtanh (z : Nat) : Nat := 2 * atanhTerms 110 0 (z * z / 2 ^ fixBits) z

/-- The natural logarithm of 2 in fixed point. -/
def ln2Fix : Nat := twiceAtanh (2 ^ fixBits / 3)

/-- The natural logarithm (R167). -/
def FpVal.log (a : FpVal) : FpVal :=
  match a with
  | .nan => .nan
  | .inf neg => if neg then .nan else .inf false
  | .fin neg m e =>
    if m = 0 then .inf true
    else if neg then .nan
    else
      let l := Nat.log2 m
      -- m = y * 2^l with 1 ≤ y < 2, and log y = 2 atanh ((y - 1) / (y + 1)).
      let f := m - 2 ^ l
      let s : Int := ((l : Int) + e) * (ln2Fix : Int) + (twiceAtanh (f * 2 ^ fixBits / (m + 2 ^ l)) : Int)
      if f = 0 ∧ (l : Int) + e = 0 then .fin false 0 0
      else between (s < 0) s.natAbs fixBits

/-- The hyperbolic tangent (R167). Below 2^-13 it lies just under x, nearer than any other boundary of a format; beyond
128 just under 1. -/
def FpVal.tanh (a : FpVal) : FpVal :=
  match a with
  | .nan => .nan
  | .inf neg => .fin neg 1 0
  | .fin neg m e =>
    let top := (Nat.log2 m : Int) + e
    if m = 0 then .fin neg 0 0
    else if top < -13 then .fin neg (m * 2 ^ 64 - 1) (e - 64)
    else if 7 ≤ top then .fin neg (2 ^ 400 - 1) (-400)
    else
      let v := expFix (toFix m (e + 1))
      between neg ((v - 2 ^ fixBits) * 2 ^ 500 / (v + 2 ^ fixBits)) 500

end Sys2Proof.Machine
end

