-- ==== Sys2Proof/Machine/VecOps.lean ====
section
/-! DEFINITION. What the vector unit does with a queued instruction (R29, R53, R158 to R180). -/

namespace Sys2Proof.Machine

/-! ## Elements -/

/-- Element i of width e bytes (R29). -/
def vget (v : BitVec 1024) (e i : Nat) : Nat := v.toNat / 2 ^ (8 * e * i) % 2 ^ (8 * e)

/-- Element i set. -/
def vput (v : BitVec 1024) (e i x : Nat) : BitVec 1024 :=
  BitVec.ofNat 1024 (v.toNat + x % 2 ^ (8 * e) * 2 ^ (8 * e * i) - vget v e i * 2 ^ (8 * e * i))

/-- Whether element i of width e is active (R29, R165). -/
def Ctx.active (t : Ctx) (mk : MaskSel) (e i : Nat) : Bool := !mk.en || (t.m.get mk.sel).getLsbD (i * e)

/-- Element i of an operand: of a vector register, or the broadcast value (R165). -/
def VArg.elem (t : Ctx) (a : VArg) (e i : Nat) : Nat :=
  match a with
  | .reg n => vget (t.v.get n) e i
  | .val w => w.toNat % 2 ^ (8 * e)

/-- A captured scalar as an unsigned number. -/
def VArg.scalar (a : VArg) : Nat :=
  match a with
  | .reg _ => 0
  | .val w => w.toNat

/-- The mask register that an operand of a mask instruction names. -/
def VArg.mask (t : Ctx) (a : VArg) : BitVec 128 :=
  match a with
  | .reg n => t.m.get (Fin.ofNat 8 n.val)
  | .val _ => 0

/-- The elements 0 to n - 1 of a vector, each replaced where a result is given, and the events counted. -/
def lanes (n e : Nat) (f : Nat → Option (Nat × List Nat)) (v : BitVec 1024) : BitVec 1024 × List Nat :=
  (List.range n).foldl (fun acc i =>
    match f i with
    | none => acc
    | some (x, ev) => (vput acc.1 e i x, acc.2 ++ ev)) (v, [])

/-! ## One element -/

/-- One floating element operation with flush-to-zero (R53, R166). -/
def vfloat (f : Fmt) (mode : RMode) (ftz : Bool) (op : List FpVal → FpVal) (xs : List Nat) : Nat × List Nat :=
  let flushed := ftz && xs.any f.isSub
  let xs := if ftz then xs.map fun b => if f.isSub b then f.flush b else b else xs
  let (b, ev) := f.pack mode false 0 (op (xs.map f.val))
  let sub := ftz && f.isSub b
  (if sub then f.flush b else b, ev.map FpEvent.vector ++ if sub || flushed then [4] else [])

/-- The exact value of a floating operation (R166, R167). -/
def VecOp.float (op : VecOp) (mode : RMode) (xs : List FpVal) : FpVal :=
  let x := xs.getD 0 .nan
  let y := xs.getD 1 .nan
  let z := xs.getD 2 .nan
  match op with
  | .add => FpVal.add mode x y
  | .sub => FpVal.sub mode x y
  | .mul => FpVal.mul x y
  | .fma => FpVal.fma mode x y z
  | .min => FpVal.min2 x y
  | .max => FpVal.max2 x y
  | .abs => x.abs
  | .neg => x.neg
  | .rcp => FpVal.div (.fin false 1 0) x
  | .rsq => x.rsqrt
  | .exp => x.exp
  | .log => x.log
  | .tanh => x.tanh
  | _ => .nan

/-- The number of operands of an arithmetic or transcendental operation. -/
def VecOp.arity : VecOp → Nat
  | .fma => 3
  | .add | .sub | .mul | .min | .max => 2
  | _ => 1

/-- The result of an integer operation on N-bit patterns (R166, R173). -/
def VecOp.int (op : VecOp) (signed : Bool) (n x y z : Nat) : Nat :=
  match op with
  | .add => (x + y) % 2 ^ n
  | .sub => (x + 2 ^ n - y) % 2 ^ n
  | .mul => x * y % 2 ^ n
  | .fma => (x * y + z) % 2 ^ n
  | .min => if bitsInt signed n x ≤ bitsInt signed n y then x else y
  | .max => if bitsInt signed n x ≤ bitsInt signed n y then y else x
  | .abs => if signed then intBits n (bitsInt true n x).natAbs else x
  | .neg => (2 ^ n - x) % 2 ^ n
  | .and => x &&& y
  | .or => x ||| y
  | .xor => x ^^^ y
  | .not => 2 ^ n - 1 - x
  | .shl => x * 2 ^ (y % n) % 2 ^ n
  | .shr => x / 2 ^ (y % n)
  | .sra => intBits n (bitsInt true n x / (2 ^ (y % n) : Nat))
  | _ => x

/-- A vector comparison of N-bit patterns (R171). -/
def vcond (c : VCond) (ty : Ty) (x y : Nat) : Bool :=
  if ty.isFloat then
    let a := (Fmt.ofTy ty).val x
    let b := (Fmt.ofTy ty).val y
    match c with
    | .eq => fcondEval .eq a b
    | .ne => fcondEval .ne a b
    | .lt => fcondEval .lt a b
    | .le => fcondEval .le a b
    | .gt => fcondEval .gt a b
    | .ge => fcondEval .ge a b
    | .un => fcondEval .un a b
    | .ord => fcondEval .ord a b
    | _ => false
  else
    let n := 8 * ty.bytes
    match c with
    | .eq => condHolds .eq n x y
    | .ne => condHolds .ne n x y
    | .lt => condHolds .lt n x y
    | .le => condHolds .le n x y
    | .gt => condHolds .gt n x y
    | .ge => condHolds .ge n x y
    | .ltz => condHolds .ltz n x y
    | .lez => condHolds .lez n x y
    | .gtz => condHolds .gtz n x y
    | .gez => condHolds .gez n x y
    | _ => false

/-! ## Reductions and scans -/

/-- The identity of a reduction or scan (R175). -/
def vIdentity (op : VredOp) (ty : Ty) : Nat :=
  let f := Fmt.ofTy ty
  match op with
  | .add => if ty.isFloat then f.enc true 0 0 else 0
  | .min => if ty.isFloat then f.inf false else intBits (8 * ty.bytes) (intMax ty)
  | .max => if ty.isFloat then f.inf true else intBits (8 * ty.bytes) (intMin ty)
  | .and => 2 ^ (8 * ty.bytes) - 1
  | .or => 0
  | .xor => 0

/-- One combining step and its events (R175). -/
def vcombine (op : VredOp) (ty : Ty) (mode : RMode) (x y : Nat) : Nat × List Nat :=
  if ty.isFloat then
    match op with
    | .add => vfloat (Fmt.ofTy ty) mode false (VecOp.float .add mode) [x, y]
    | .min => vfloat (Fmt.ofTy ty) mode false (VecOp.float .min mode) [x, y]
    | .max => vfloat (Fmt.ofTy ty) mode false (VecOp.float .max mode) [x, y]
    | _ => (0, [])
  else
    let n := 8 * ty.bytes
    (match op with
     | .add => (x + y) % 2 ^ n
     | .min => VecOp.int .min ty.isSigned n x y 0
     | .max => VecOp.int .max ty.isSigned n x y 0
     | .and => x &&& y
     | .or => x ||| y
     | .xor => x ^^^ y, [])

/-- One level of the tree: neighbours combined (R175). -/
def vlevel (f : Nat → Nat → Nat × List Nat) (l : List Nat) : List Nat × List Nat :=
  match l with
  | x :: y :: rest =>
    let (a, ev) := f x y
    let (more, ev') := vlevel f rest
    (a :: more, ev ++ ev')
  | l => (l, [])

/-- The tree of a reduction (R175). -/
def vtree (f : Nat → Nat → Nat × List Nat) (levels : Nat) (l : List Nat) : Nat × List Nat :=
  match levels with
  | 0 => (l.headD 0, [])
  | n + 1 =>
    let (l', ev) := vlevel f l
    let (x, ev') := vtree f n l'
    (x, ev ++ ev')

/-- A reduction: overflow and underflow count once each, and a NaN once for the final result (R175). -/
def vreduce (op : VredOp) (ty : Ty) (mode : RMode) (l : List Nat) : Nat × List Nat :=
  let (x, ev) := vtree (vcombine op ty mode) (Nat.log2 l.length) l
  let nan := ty.isFloat && ((Fmt.ofTy ty).val x).isNan
  (x, (if nan then [2] else []) ++ (if ev.contains 3 then [3] else []) ++ (if ev.contains 12 then [12] else []))

/-- The reduction whose step a scan repeats (R176). -/
def scanRed : VscanOp → VredOp
  | .add => .add
  | .min => .min
  | .max => .max

/-- A scan: inactive elements contribute nothing (R176). -/
def vscanAll (t : Ctx) (o : VOp) (op : VredOp) (e c : Nat) : BitVec 1024 × List Nat :=
  let r := (List.range c).foldl (fun (acc : Nat × BitVec 1024 × List Nat) i =>
    if t.active o.mask e i then
      let (x, ev) := vcombine op o.ty o.rnd acc.1 (o.x.elem t e i)
      (x, vput acc.2.1 e i x, acc.2.2 ++ ev)
    else acc) (vIdentity op o.ty, t.v.get (Fin.ofNat 16 o.dst), [])
  r.2

/-! ## Conversions -/

/-- The elements a conversion writes: destination and source element, in ascending order of the source (R168 to R170). -/
def VOp.pairs (o : VOp) : List (Nat × Nat) :=
  match o.op with
  | .quant => (List.range 32).map fun i => (o.part * 32 + i, i)
  | .deq => (List.range 32).map fun i => (i, o.part * 32 + i)
  | _ =>
    let es := o.src.bytes
    let ed := o.ty.bytes
    if ed ≤ es then
      let c := 128 / es
      (List.range c).map fun i => ((if ed = es then 0 else o.part * c) + i, i)
    else
      let c := 128 / ed
      (List.range c).map fun i => (i, o.part * c + i)

/-- The width of a conversion's destination elements. -/
def VOp.dstBytes (o : VOp) : Nat :=
  match o.op with
  | .quant => 1
  | .deq => 4
  | _ => o.ty.bytes

/-- One converted element: source element j with random number r (R168 to R170). -/
def VOp.convertElem (o : VOp) (t : Ctx) (i j r : Nat) : Nat × List Nat :=
  match o.op with
  | .quant =>
    let v := FpVal.mul (Fmt.f32.val (o.x.elem t 4 j)) (Fmt.f32.val (o.y.elem t 4 j))
    if o.ty.isFloat then
      let (b, ev) := (Fmt.ofTy o.ty).pack o.rnd o.ovf8 r v
      (b, ev.map FpEvent.vector)
    else
      let (k, ev) := v.toInt o.rnd (-128) 127
      (intBits 8 k, ev.map FpEvent.vector)
  | .deq =>
    let v := FpVal.mul (tyVal o.ty (o.x.elem t 1 j)) (Fmt.f32.val (o.y.elem t 4 i))
    let (b, ev) := Fmt.f32.pack o.rnd false 0 v
    (b, ev.map FpEvent.vector)
  | _ =>
    let (b, ev) := convert o.rnd o.ovf8 r o.ty o.src (o.x.elem t o.src.bytes j)
    (b, ev.map FpEvent.vector)

/-- A conversion of the executing context: each active element of a stochastic one steps its lane's generator (R52). -/
def Ctx.vconvert (t : Ctx) (o : VOp) : Ctx × List Nat :=
  let ed := o.dstBytes
  let d : Fin 16 := Fin.ofNat 16 o.dst
  let r := o.pairs.foldl (fun (acc : BitVec 1024 × List Nat × List (BitVec 32)) p =>
    if t.active o.mask ed p.1 then
      let g := p.2 % 32
      let (b, ev) := o.convertElem t p.1 p.2 (genDraw (acc.2.2.getD g 0))
      (vput acc.1 ed p.1 b, acc.2.1 ++ ev, if o.rnd = .sr then acc.2.2.modify g genStep else acc.2.2)
    else acc) (t.v.get d, [], t.gens)
  ({ t with v := t.v.set d.val r.1 d.isLt, gens := r.2.2 }, r.2.1)

/-! ## A whole instruction -/

/-- The result of element i of an instruction that works element by element. -/
def VOp.elemResult (o : VOp) (t : Ctx) (e c i : Nat) : Nat × List Nat :=
  let x := o.x.elem t e i
  let y := o.y.elem t e i
  let z := o.z.elem t e i
  match o.op with
  | .sel m => (if (t.m.get m).getLsbD (i * e) then x else y, [])
  | .perm => (if y < c then o.x.elem t e y else 0, [])
  | .bcast => (if o.y.scalar < c then o.x.elem t e o.y.scalar else 0, [])
  | .idx => ((o.x.scalar + i * o.y.scalar) % 2 ^ (8 * e), [])
  | .mov => (x, [])
  | _ =>
    if o.ty.isFloat then vfloat (Fmt.ofTy o.ty) o.rnd o.ftz (o.op.float o.rnd) ([x, y, z].take o.op.arity)
    else (o.op.int o.ty.isSigned (8 * e) x y z, [])

/-- The whole E bits of element i of a mask set or cleared (R171). -/
def maskPut (m : BitVec 128) (e i : Nat) (b : Bool) : BitVec 128 :=
  let bits := BitVec.ofNat 128 ((2 ^ e - 1) * 2 ^ (i * e))
  if b then m ||| bits else m &&& ~~~bits

/-- What an instruction without memory access leaves: the context, its scalar result and its events (R166 to R180). -/
def Ctx.vrun (t : Ctx) (o : VOp) : Ctx × Option Word × List Nat :=
  let e := o.ty.bytes
  let c := 128 / e
  let d : Fin 16 := Fin.ofNat 16 o.dst
  let dm : Fin 8 := Fin.ofNat 8 o.dst
  let setM (m : BitVec 128) : Ctx := { t with m := t.m.set dm.val m dm.isLt }
  let setV (v : BitVec 1024) : Ctx := { t with v := t.v.set d.val v d.isLt }
  match o.op with
  | .cvt => let r := t.vconvert o; (r.1, none, r.2)
  | .quant => let r := t.vconvert o; (r.1, none, r.2)
  | .deq => let r := t.vconvert o; (r.1, none, r.2)
  | .cmp k =>
    (setM ((List.range c).foldl (fun m i =>
      if t.active o.mask e i then maskPut m e i (vcond k o.ty (o.x.elem t e i) (o.y.elem t e i)) else m) (t.m.get dm)), none, [])
  | .ins => (if o.y.scalar < c then setV (vput (t.v.get d) e o.y.scalar o.x.scalar) else t, none, [])
  | .ext => (t, some (if o.y.scalar < c then extend o.ty (o.x.elem t e o.y.scalar) else 0), [])
  | .red op =>
    let l := (List.range c).map fun i => if t.active o.mask e i then o.x.elem t e i else vIdentity op o.ty
    let r := vreduce op o.ty o.rnd l
    (t, some (extend o.ty r.1), r.2)
  | .scan op => let r := vscanAll t o (scanRed op) e c; (setV r.1, none, r.2)
  | .mand => (setM (o.x.mask t &&& o.y.mask t), none, [])
  | .mor => (setM (o.x.mask t ||| o.y.mask t), none, [])
  | .mxor => (setM (o.x.mask t ^^^ o.y.mask t), none, [])
  | .mnot => (setM (~~~(o.x.mask t)), none, [])
  | .mpop =>
    let m := o.x.mask t
    (t, some (word (if o.bits then popOf 128 m.toNat else (List.range c).countP fun i => m.getLsbD (i * e))), [])
  | _ =>
    let r := lanes c e (fun i => if t.active o.mask e i then some (o.elemResult t e c i) else none) (t.v.get d)
    (setV r.1, none, r.2)

/-! ## Memory -/

/-- Whether the instruction writes memory. -/
def VecOp.stores (op : VecOp) : Bool :=
  match op with
  | .st => true
  | .sct => true
  | _ => false

/-- The request of a place at its home. -/
def VecOp.req (op : VecOp) : Req := if op.stores then .store else .read

/-- One element transferred (R177, R178). -/
def State.vtransfer (s : State) (o : VOp) (p : VPlace) : State :=
  let e := o.ty.bytes
  let s := s.arrive (From.ofCore s.cur) p.acc o.op.req
  if o.op.stores then
    let s := s.noteWrite p.acc
    s.writeAcc p.acc e (o.x.elem s.me e p.elem)
  else
    let x := s.valAcc p.acc e
    let d : Fin 16 := Fin.ofNat 16 o.dst
    (s.tookAcc p.acc e).modMe fun t => { t with v := t.v.set d.val (vput (t.v.get d) e p.elem x) d.isLt }

/-- The transfers of a queued memory instruction of the executing context, its head. A poisoned granule that is read
traps fatally (R161). A transfer that needs the host's answer stays at the head. -/
def State.vmemory (s : State) (o : VOp) (rest : List VOp) : State :=
  let need := o.places.filter fun p => (s.demand (From.ofCore s.cur) p.acc o.op.req).isSome
  if !need.isEmpty then
    need.foldl (fun s p => (s.demand (From.ofCore s.cur) p.acc o.op.req).getD s) s
  else
    let bad := o.places.find? fun p => (!o.op.stores && s.poisoned p.acc.keys) || s.quarantined p.acc.keys
    match bad with
    | some p => (o.places.foldl (fun s p => s.arrive (From.ofCore s.cur) p.acc o.op.req) s).takeTrap { cause := .poison, addr := p.addr, pc := some o.pc, fatal := true }
    | none => o.places.foldl (fun s p => s.vtransfer o p) (s.modMe fun t => { t with vq := rest })

/-- The head of the executing context's queue is performed (R158, R160). -/
def State.vserve (s : State) : State :=
  match s.me.vq with
  | [] => s
  | o :: rest =>
    if o.isMem then s.vmemory o rest
    else
      let (t, x, ev) := ({ s.me with vq := rest } : Ctx).vrun o
      let s := (s.setMe t).countAll s.cur ev
      match x, o.ref with
      | some v, some r => s.deliver s.cur r v
      | _, _ => s

/-- The slots in the order in which the vector unit looks at them: from the one after that last served (R158). -/
def Core.vorder (x : Core) : List SlotId := (List.finRange 11).map fun i => x.lastVec + 1 + i

/-- Whether a context has something for the vector unit: a queued instruction, or, where contexts issue, a transfer that awaits its turn
(R158). -/
def Ctx.vwants (t : Ctx) (issues : Bool) : Bool := t.live && (!t.vq.isEmpty || (issues && t.run == .vturn))

/-- The slot that the vector unit serves next (R158). -/
def Core.vnext (x : Core) (issues : Bool) : Option SlotId := x.vorder.find? fun k => (x.ctx k).vwants issues

/-- Whether the vector unit serves a slot next, which has something for it (R158). -/
def Core.vturn (x : Core) (k : SlotId) : Bool := (x.vorder.find? fun j => j == k || (x.ctx j).vwants true) == some k

/-- Whether a core's contexts issue: its launch is not being stopped (R381). -/
def State.issues (s : State) (c : CoreId) : Bool := match s.launchOf c with | some l => !l.stopping | none => true

/-- A turn of a core's vector unit (R158). A transfer that awaits its turn takes it with its own instruction. -/
def State.vectorIssue (s : State) (c : CoreId) : State :=
  match (s.core c).vnext (s.issues c) with
  | none => s
  | some k =>
    if (s.ctx c k).vq.isEmpty then s else (s.modCore c fun x => { x with lastVec := k }).within c k State.vserve

def execVectorIssue (c : CoreId) (s : State) : Out := .next (s.vectorIssue c)

/-! ## Replay logs -/

/-- A register whose log has a value: the value the replay leaves, and what it counts (R76). -/
def Reg.replayed (r : Reg) : Reg × List Nat :=
  match r with
  | .replay x l => (.value (replayLog l x).1, (replayLog l x).2)
  | _ => (r, [])

/-- The replays of a context finish: every register that holds a log replays on its own (R76). -/
def execLogReplay (c : CoreId) (k : SlotId) (s : State) : Out :=
  let t := s.ctx c k
  .next ((s.setCtx c k (t.mapRegs fun r => r.replayed.1)).countAll c (t.regs.flatMap fun r => r.replayed.2))

end Sys2Proof.Machine
end

