-- ==== Sys2Proof/Machine/Launches.lean ====
section
/-! DEFINITION. Launches from submission to their end: the LAUNCH and CANCEL entries, the grant, binding, sweeps and limits
(R342 to R358, R365). -/

namespace Sys2Proof.Machine

/-! ## Who is due -/

/-- Launches of the same queue that were read before one. -/
def State.earlier (s : State) (l : Launch) : List Launch :=
  (s.launches.takeWhile fun x => !(x.id == l.id && x.part == l.part)).filter fun x => x.queue == l.queue

/-- Whether a launch that has passed its checks is due, or one that was pre-empted (R349, R350). -/
def State.isDue (s : State) (l : Launch) : Bool :=
  match l.phase with
  | .live => false
  | .preempted => true
  | .due => if l.desc.serial then (s.earlier l).isEmpty else (s.earlier l).all (·.phase != .due)

/-- Launches that have become due take their place in that order. -/
def State.refreshDue (s : State) : State :=
  { s with launches := s.launches.map fun l => if l.dueAt.isNone && s.isDue l then { l with dueAt := some s.serial } else l,
           serial := s.serial + 1 }

/-! ## Submission -/

/-- The translation root of a process's space in a partition (R361). -/
def State.rootOf (s : State) (space p : Nat) : Option Nat :=
  (s.firmware.roots.find? fun r => r.1 == space && r.2.1 == p).map (·.2.2)

/-- A REFUSED record (R343). -/
def refused (c : Cause) (tag : BitVec 32) : CqRec := { status := 1, cause := c.code, tag, launch := 0, fatal := 0, ncore := 0 }

/-- The next entry of a queue is read and, unless it is a CANCEL, checked and admitted or refused (R342, R346). -/
def State.launchEntry (s : State) (q : Nat) : State :=
  if s.firmware.stopped then s else
  match s.readEntry q with
  | none => s
  | some (.wait s') => s'
  | some .fault => s.modQueue q WQueue.fail
  | some (.bytes s' b) =>
    if field b 0 1 = 2 then s else
    let tag := BitVec.ofNat 32 (field b 4 4)
    let refuse (s : State) (c : Cause) : State := (s.passEntry q).report q (refused c tag)
    if field b 0 1 ≠ 1 ∨ !(zeros b 1 3) ∨ !(zeros b 16 48) then refuse s' .bounds else
    let x := s.queue q
    let p := queuePart s.pm q
    match s.rootOf x.space p with
    | none => refuse s' .translation
    | some root =>
      let id := s.nextLaunch.getD p 1
      let l : Launch := { id, part := p, queue := q, entry := x.sqHead.toNat, epoch := x.epoch, tag, space := x.space, root }
      match s'.checkLaunch l (word (field b 8 8)) with
      | .error (.wait s'') => s''
      | .error (.fail c _) => refuse s' c
      | .ok (s'', l) =>
        let s := s''.passEntry q
        ({ s with launches := s.launches ++ [l], nextLaunch := s.nextLaunch.set p (id + 1) } : State).refreshDue

def execLaunch (q : Nat) (s : State) : Out := .next (s.launchEntry q)

/-! ## Where a matrix unit can stop -/

/-- Whether an epilogue that writes to a descriptor's target has begun (R390). -/
def Harrow.epilogue (h : Harrow) : Option HRun :=
  match h.running with
  | some r => if field r.cmd.record 0 1 = 5 ∧ field r.cmd.record 42 1 = 3 ∧ r.begun = true then some r else none
  | none => none

/-- What the wires bring to a matrix unit lands: rows, messages of MRED, and a bank whose first beat has been taken (R209). -/
def State.landInbound (s : State) (c : CoreId) : State :=
  let n := (s.core c).harrow.inbound.length
  let s := (fun s : State => (s.rowsLand c).mredArrives c)^[n] s
  match (s.core c).harrow.inbound.find? fun m => match m with | .bank .. => true | _ => false with
  | some (.bank _ _ _ true) => s.bankArrives c
  | _ => s

/-- Commands whose rows have gone through complete, and a fault that has been met is taken (R185, R186, R209). -/
def State.retireAll (s : State) (c : CoreId) : State :=
  let n := (s.core c).harrow.retiring.length
  ((fun s : State => s.harrowComplete c)^[n] s).harrowFault c

/-- The running command of a matrix unit goes on where it cannot stop: an epilogue to its next 16-row step, and MRED to the end
of a row (R209, R390). -/
def State.runOn (s : State) (c : CoreId) (l : Launch) : State :=
  match (s.core c).harrow.running with
  | none => s
  | some r =>
    if field r.cmd.record 0 1 = 7 ∧ r.part ≠ 0 then s.hRun c (mredCode c l) r
    else
      match (s.core c).harrow.epilogue with
      | some r =>
        if r.stalled then s
        else if r.row % 16 = 0 ∨ field r.cmd.record 14 2 ≤ r.row then
          let (s, r) := s.landRows c r
          s.modHarrow c fun y => { y with running := some r }
        else s.hRun c (mepiCode c l) r
      | none => s

/-- Whether an engine's release has no token out. -/
def tokensBack (n : Option Nat) : Bool := n.isNone || n == some 0

/-- Whether a matrix unit stands at its pre-emption point: nothing on the wires but banks that wait for their receivers, and
nothing that still goes on (R209, R390). -/
def Harrow.settled (h : Harrow) : Bool :=
  (h.inbound.all fun m => match m with | .bank _ _ _ taken => !taken | _ => false)
    && !(h.retiring.any fun r => r.failed.isSome)
    && (match h.running with
      | some r => tokensBack r.relWait && !(field r.cmd.record 0 1 == 7 && r.part != 0)
      | none => true)
    && (match h.epilogue with
      | some r => r.stalled || (r.flight.isEmpty && (r.row % 16 == 0 || decide (field r.cmd.record 14 2 ≤ r.row)))
      | none => true)

/-! ## The end of a launch -/

/-- A core without a launch: generations and stray writes stay (R236, R391). -/
def Core.freed (x : Core) : Core :=
  { ctxs := x.ctxs.map fun t => ({ gen := t.gen } : Ctx), strays := x.strays, retired := x.retired, idle := x.idle }

/-- What a launch's cores held outside them goes: links, claims, and the tokens and zero-length reads of waiting releases and
acquires (R133, R289, R298, R399). -/
def State.dropLinks (s : State) (cores : List Nat) : State :=
  { s with links := s.links.filter (fun x => !cores.contains x.1)
           dies := s.dies.map fun d => { d with relTokens := d.relTokens.filter (fun t => !cores.contains t.core),
                                                acqTokens := d.acqTokens.filter fun t => !cores.contains t.1 }
           dir := { s.dir with flushes := s.dir.flushes.filter (fun f => !cores.contains f.1.core)
                               claims := s.dir.claims.filter fun f => !cores.contains f.1 } }

/-- The tiles of a launch are demoted (R297, R385). -/
def State.demoteTiles (s : State) (l : Launch) : State :=
  { s with dir := (s.dir.tiles.filter fun t => t.launch == l.id && t.part == l.part).foldl Dir.demote s.dir }

/-- The sower's entries, counters and communicators of a launch return to its partition (R308, R356). -/
def Sower.release (w : Sower) (l : Launch) : Sower :=
  let hs := (w.entries.filter fun e => e.part == l.part && e.launch == l.id).map (·.handle)
  let comms := w.comms.filter fun c => !(c.part == l.part && c.launch == l.id)
  let kept (x : Xfer) : Bool := match x.fwd with | some f => comms.any fun c => c.serial == f.serial | none => !hs.contains x.handle
  { w with entries := w.entries.filter (fun e => !hs.contains e.handle)
           xfers := w.xfers.filter kept
           comms
           counters := w.counters.filter fun p => !(decide (l.ctrBase ≤ p.1) && decide (p.1 < l.ctrBase + l.desc.tctr)) }

/-- A packet of a write that has been issued in a space (R391). -/
def Stray.ofElem (space : Nat) (a : Acc) (bs : List Byte) : Stray := { acc := a, data := bs, space }

/-- The executing context's vector queue as its launch ends: what has issued goes on, and a store that waits for the host is
on its way (R161, R357). -/
def State.endVectors (s : State) (fuel : Nat) : State :=
  match fuel with
  | 0 => s
  | fuel + 1 =>
    match s.me.vq with
    | [] => s
    | o :: rest =>
      if o.isMem && o.places.any (fun p => (s.demand (From.ofCore s.cur) p.acc o.op.req).isSome) then
        let mine := if o.op.stores then o.places.map fun p => Stray.ofElem s.myLaunch.space p.acc (leBytes o.ty.bytes (o.x.elem s.me o.ty.bytes p.elem)) else []
        ((s.modMe fun t => { t with vq := rest }).modCore s.cur fun x => { x with strays := x.strays ++ mine }).endVectors fuel
      else s.vserve.endVectors fuel

/-- The packets in flight of a core's epilogues. -/
def Harrow.packets (h : Harrow) : List Stray := (h.running.toList ++ h.retiring).flatMap fun r => r.flight.flatMap (·.packets)

/-- What a launch's cores have issued as it ends goes on (R357, R390). -/
def State.endIssued (s : State) (cores : List Nat) : State :=
  cores.foldl (fun s c =>
    ((List.finRange 11).foldl (fun s k => s.within (coreOf c) k fun s => s.endVectors s.me.vq.length) s).modCore (coreOf c) fun x =>
      { x with strays := x.strays ++ x.harrow.packets }) s

/-- A launch ends with a status: what it held is free, and its record waits for its queue's ring (R343, R356, R357). -/
def State.endLaunch (s : State) (l : Launch) (status : Nat) : State :=
  let mine := if l.phase = .live then l.cores else []
  let s := (((s.flushAsyncs l.part l.id).endIssued mine).dropLinks mine).demoteTiles l
  let s := mine.foldl (fun s c => (s.modCore (coreOf c) Core.freed).ungrant (some (coreOf c).val)) s
  let s : State := { s with
    sower := if l.boundAt.isSome then s.sower.release l else s.sower
    dies := s.dies.map (fun d => { d with retained := d.retained.map fun r => match r with
      | some x => if x.launch = l.id ∧ x.part = l.part then none else some x
      | none => none })
    saves := s.saves.filter (fun e => !(e.1 == l.part && e.2.1 == l.id))
    launches := s.launches.filter fun x => !(x.id == l.id && x.part == l.part) }
  (s.report l.queue { status, cause := 0, tag := l.tag, launch := l.id, fatal := l.fatal, ncore := l.cores.length }).refreshDue

/-- A core's matrix unit comes to its pre-emption point (R209, R357, R390). -/
def State.settleUnit (s : State) (c : CoreId) (l : Launch) : State := ((s.landInbound c).runOn c l).retireAll c

/-- A launch that ends out of order ends once its matrix units stand at their pre-emption points (R209, R357). -/
def State.endStopped (s : State) (l : Launch) (status : Nat) : State :=
  let s := l.cores.foldl (fun s c => s.settleUnit (coreOf c) l) s
  if l.cores.all fun c => (s.core (coreOf c)).harrow.settled then
    match s.findLaunch l.part l.id with
    | some l => s.endLaunch l status
    | none => s
  else s

/-- The time limit has expired, or a CANCEL has come: every context stops, and the engines at their pre-emption points, and the launch
ends without a sweep (R357). One whose pre-emption is under way ends once its save is complete (R351). -/
def State.stopLaunch (s : State) (l : Launch) (status : Nat) : State :=
  let status := l.ending.getD status
  if l.phase ≠ .live then s.endLaunch l status
  else
    let t := s.modLaunch l.part l.id fun x => { x with ending := some status, stopping := true, saving := l.stopping && l.saving }
    if l.stopping then t else t.endStopped l status

/-- The launch that a CANCEL entry names, if it takes effect (R342). -/
def State.cancelTarget (s : State) (q : Nat) (b : List Byte) : Option Launch :=
  let x := s.queue q
  let arg := field b 8 8
  if !(zeros b 2 2) || !(zeros b 16 48) then none
  else
    match field b 1 1 with
    | 0 => s.launches.find? fun l => l.id == arg && l.part == queuePart s.pm q && l.space == x.space
    | 1 => s.launches.find? fun l => l.queue == q && l.entry == arg && l.epoch == x.epoch
    | _ => none

/-- A CANCEL entry is read, and ends the launch it names (R342, R357). -/
def State.cancelEntry (s : State) (q : Nat) : State :=
  if s.firmware.stopped then s else
  match s.readEntry q with
  | some (.bytes s' b) =>
    if field b 0 1 ≠ 2 then s else
    let s := s'.passEntry q
    match s.cancelTarget q b with
    | some l => s.stopLaunch l 3
    | none => s
  | _ => s

def execCancel (q : Nat) (s : State) : Out := .next (s.cancelEntry q)

/-! ## Sweeps and limits -/

/-- Whether a core is idle (R354). -/
def Core.isIdle (x : Core) : Bool :=
  x.ctxs.toList.all (fun t => !t.live) && x.queue.isEmpty && x.ext.isEmpty && x.harrow.queue.isEmpty
    && x.harrow.running.isNone && x.harrow.retiring.isEmpty

/-- Whether a launch keeps the sower busy (R354). -/
def Sower.busy (w : Sower) (l : Launch) : Bool :=
  w.entries.any fun e => e.part == l.part && e.launch == l.id &&
    (match e.phase with | .fired _ => true | .running => true | _ => false)

/-- What a sweep of a launch finds (R355). -/
def State.sweepOf (s : State) (l : Launch) : Sweep :=
  let xs := l.cores.map fun c => s.core (coreOf c)
  { idle := xs.all Core.isIdle && !s.sower.busy l, sent := (xs.map Core.sent).sum, rcvd := (xs.map Core.rcvd).sum }

/-- A sweep: two in succession that agree declare the end (R355, R356). -/
def State.sweep (s : State) (k : Nat) : State :=
  match s.launchAt k with
  | none => s
  | some l =>
    if l.phase != .live || l.stopping then s else
    let w := s.sweepOf l
    if w.idle && w.sent == w.rcvd && l.lastSweep == some w then s.endLaunch l 0
    else s.modLaunch l.part l.id fun l => { l with lastSweep := some w }

def execLaunchSweep (l : Nat) (s : State) : Out := .next (s.sweep l)

/-- The time limit expires: microseconds of 16,000 units (R231, R351, R357). -/
def State.limit (s : State) (k : Nat) : State :=
  match s.launchAt k with
  | none => s
  | some l =>
    match l.boundAt with
    | none => s
    | some t => if l.desc.tlimit ≠ 0 ∧ t + l.desc.tlimit * 16000 ≤ s.stime then s.stopLaunch l 2 else s

def execTlimitExpiry (l : Nat) (s : State) : Out := .next (s.limit l)

/-! ## Whose turn it is -/

/-- Cores of a partition that a launch of a class can take: the free ones, and those of live launches of lower class when
they may be pre-empted (R349). -/
def State.openCores (s : State) (p : Nat) (below : Nat) : List Nat :=
  ((s.partCores p).filter fun c =>
    match s.launchOf c with
    | none => (s.core c).launch.isNone
    | some l => decide (l.desc.prio < below)).map (·.val)

/-- Whether the sower has room for a launch's allotment beside those of the launches that hold theirs and that it cannot
pre-empt (R308, R347, R349). -/
def State.sowerFits (s : State) (l : Launch) (below : Nat) : Bool :=
  let others := s.launches.filter fun x => x.part == l.part && x.id != l.id && x.phase == .live && decide (below ≤ x.desc.prio)
  let sum (f : Desc → Nat) : Nat := others.foldl (fun n x => n + f x.desc) (f l.desc)
  let (te, tc, tm) := sowerShare s.pm
  decide (sum (·.tent) ≤ te) && decide (sum (·.tctr) ≤ tc) && decide (sum (·.tcomm) ≤ tm)

/-- Whether a launch returns to its own cores (R384). -/
def Launch.returns (l : Launch) : Bool :=
  l.phase == .preempted && (match coreReq l.desc.creq with | .shape .. => true | .count _ => l.desc.place)

/-- Whether the cores of a launch's request can be had: free ones, or those of launches of a class below one (R345, R349,
R384). -/
def State.coresFit (s : State) (l : Launch) (below : Nat) : Bool :=
  let opn := s.openCores l.part below
  if l.returns then l.cores.all opn.contains else canMeet opn (coreReq l.desc.creq) l.desc.place

/-- Whether a launch could be bound, from what is free and what launches of a class below one hold (R349). -/
def State.canBind (s : State) (l : Launch) (below : Nat) : Bool := s.sowerFits l below && s.coresFit l below

/-- Whether the checkpoint keeps a partition's launches from binding (R440). -/
def State.ckptHolds (s : State) (p : Nat) : Bool := s.ckpt.busy && s.ckpt.status == 0 && s.ckpt.parts.getLsbD p

/-- The due launches of a class of a partition that could be granted now. A launch that was pre-empted goes before those that
became due after it, though it may have to wait (R350). -/
def State.candidates (s : State) (p cls : Nat) : List Launch :=
  let l := s.launches.filter fun l => l.part == p && l.desc.prio == cls && s.isDue l
  l.filter fun x => s.canBind x 0 && !(l.any fun y => y.phase == .preempted && decide (y.dueAt.getD 0 < x.dueAt.getD 0))

/-- Whether a launch of a higher class is due and could be granted (R350). -/
def State.higherDue (s : State) (l : Launch) : Bool :=
  s.launches.any fun h => h.part == l.part && decide (l.desc.prio < h.desc.prio) && s.isDue h && s.canBind h h.desc.prio

/-- The launch of a class that the weighted rotation grants next (R350). -/
def State.nextGrant (s : State) (p cls : Nat) : Option Launch :=
  let cs := s.candidates p cls
  let (q0, n) := (assocGet s.turns (p * 8 + cls)).getD (0, 0)
  let head (q : Nat) : Option Launch := cs.find? fun l => l.queue == q
  let here := match head q0 with | some l => if n < l.desc.weight then some l else none | none => none
  match here with
  | some l => some l
  | none =>
    let qs := cs.map (·.queue)
    let after := qs.filter fun q => decide (q0 < q)
    match if after.isEmpty then qs else after with
    | [] => none
    | q :: rest => head (rest.foldl min q)

/-- The turn after a grant: a queue that has had its WEIGHT begins a new turn (R350). -/
def State.turned (s : State) (l : Launch) : State :=
  let k := l.part * 8 + l.desc.prio
  let (q0, n) := (assocGet s.turns k).getD (0, 0)
  { s with turns := assocSet s.turns k (l.queue, if l.queue = q0 ∧ n < l.desc.weight then n + 1 else 1) }

/-- Whether a launch is granted now. -/
def State.granted (s : State) (l : Launch) : Bool :=
  !s.firmware.stopped && !s.ckptHolds l.part && !s.higherDue l
    && (match s.nextGrant l.part l.desc.prio with | some x => x.id == l.id | none => false)

/-! ## Binding -/

/-- Whether the pages of a range are mapped as a test of their number, leaf and physical address asks. -/
def State.mapped (s : State) (l : Launch) (va : Word) (n : Nat) (p : Nat → Leaf → Nat → Bool) : Bool :=
  let base := va.toNat / 65536 * 65536
  (List.range ((va.toNat % 65536 + n + 65535) / 65536)).all fun i =>
    match s.walk l (word (base + i * 65536)) with
    | .ok f => p i f (f.addr (word (base + i * 65536)))
    | .error _ => false

/-- LMBASE (R365). -/
def lmBase : Nat := 0x00FFFFFE00000000

/-- The windows of the aperture. -/
def windows : List Win := [.W, .A, .C, .G]

/-- The aperture mappings of the ranks (R365). -/
def State.rankMaps (s : State) (l : Launch) : Bool :=
  l.cores.zipIdx.all fun c => windows.all fun w =>
    s.mapped l (word (lmBase + c.2 * 2 ^ 23 + w.code.toNat * 2 ^ 20)) (2 ^ 20) fun i f a =>
      a == lmKey (coreOf c.1) w 0 + i * 65536 && f.ua && (f.xn == (w != .G)) && !f.tagged && f.mode == 0

/-- The numbers of a table's n entries at a place that hold something: an entry of which no byte is listed is 0, not present. -/
def Memory.entries (m : Memory) (at_ n : Nat) : List Nat :=
  ((m.filter fun e => at_.ble e.1 && e.1.blt (at_ + 8 * n)).map fun e => (e.1 - at_) / 8).dedup

/-- Whether every page that the tables from t on map from an address on lies where `ok` allows, by its address and size. -/
def State.pagesIn (s : State) (part : Nat) (ok : Nat → Nat → Bool) (levels : List (Nat × Nat × Option Nat × Nat)) (va t : Nat) :
    Bool :=
  match levels with
  | [] => true
  | (hi, lo, _, _) :: rest =>
    (s.mem.entries (devKey s.pm part t) (2 ^ (hi - lo + 1))).all fun i =>
      let e := leNat (s.bytesAt (range (devKey s.pm part (t + 8 * i)) 8))
      let a := va + i * 2 ^ lo
      if e % 2 = 0 then true
      else if e / 2 % 2 = 1 then ok a (2 ^ lo)
      else s.pagesIn part ok rest a (bitsOf e 51 8 * 2 ^ 8)

/-- Whether a page of the aperture's range lies in the windows of the ranks (R365). -/
def Launch.lmPage (l : Launch) (a n : Nat) : Bool :=
  let w (x : Nat) : Nat := x / 2 ^ 20 % 8
  let i := a - lmBase
  decide (i / 2 ^ 23 < l.cores.length) && decide (1 ≤ w i) && decide (w (i + n - 1) ≤ 4)

/-- Whether the aperture's range maps nothing else: no other window code, and no rank at or beyond NCORE (R365). -/
def State.onlyRanks (s : State) (l : Launch) : Bool :=
  let read (t i : Nat) : Nat := leNat (s.bytesAt (range (devKey s.pm l.part (t + 8 * i)) 8))
  let e := read l.root (lmBase / 2 ^ 42 % 2 ^ 14)
  let first := lmBase / 2 ^ 29 % 2 ^ 13
  e % 2 == 0 || (s.mem.entries (devKey s.pm l.part (bitsOf e 51 8 * 2 ^ 8 + 8 * first)) 16).all fun i =>
    let f := read (bitsOf e 51 8 * 2 ^ 8) (first + i)
    f % 2 == 0 || (f / 2 % 2 == 0 &&
      s.pagesIn l.part l.lmPage [(28, 21, some 21, 2 ^ 8), (20, 16, some 16, 1)] (lmBase + i * 2 ^ 29) (bitsOf f 51 8 * 2 ^ 8))

/-- Whether a range of device memory is mapped, without user access (R365). -/
def State.hidden (s : State) (l : Launch) (va : Word) (pa n : Nat) : Bool :=
  va.toNat % 65536 == pa % 65536 && s.mapped l va n fun i f a =>
    a == pa / 65536 * 65536 + i * 65536 && !f.ua

/-- The mappings that the runtime makes at binding (R347, R348, R365, R386). -/
def State.boundMaps (s : State) (l : Launch) (codeVa dataVa : Word) : Bool :=
  let inDev (pa : Nat) : Bool := decide (pa < partSize s.pm)
  s.rankMaps l && s.onlyRanks l
    && s.mapped l codeVa l.image.code.length (fun i f a =>
      a == l.codePa + i * 65536 && f.ua && f.ro && !f.xn && f.mode == 0 && !f.tagged)
    && s.mapped l dataVa l.image.data.length (fun i f a =>
      a == l.dataPa + i * 65536 && f.ua && !f.ro && !f.fg && f.xn && f.mode == 0 && !f.tagged)
    && ((List.range (l.cores.length * 11)).all fun i =>
      s.mapped l (l.spillVa + l.spillStride * word i - 64) (64 + l.desc.spillf * 144) fun _ f a => inDev a && f.ua && f.fg)
    && s.hidden l l.bdtVa l.bdt 32768 && s.hidden l l.saveVa l.savePa (l.cores.length * 2 ^ 21) && s.hidden l l.extVa l.extPa (l.cores.length * l.extBytes)
    && (l.desc.tctr == 0 || s.mapped l l.cwVa (8 * l.desc.tctr) fun _ f a => decide (headBase ≤ a) && decide (a < apBase) && f.ua)

/-- The ranges of device memory that belong to a launch alone: data image, descriptor table, save regions, extensions (R248,
R348, R368, R386). -/
def Launch.own (l : Launch) : List (Nat × Nat) :=
  [(l.dataPa, l.image.data.length), (l.bdt, 32768), (l.savePa, l.cores.length * 2 ^ 21),
   (l.extPa, l.cores.length * l.extBytes)].filter fun r => r.2 != 0

/-- The code image's range. -/
def Launch.codeRange (l : Launch) : List (Nat × Nat) := if l.image.code.isEmpty then [] else [(l.codePa, l.image.code.length)]

/-- Whether no range of one list meets one of another. -/
def apart (xs ys : List (Nat × Nat)) : Bool := xs.all fun x => ys.all fun y => !overlaps x.1 x.2 y.1 y.2

/-- Whether the ranges of a list do not meet. -/
def disjoint (xs : List (Nat × Nat)) : Bool :=
  match xs with
  | [] => true
  | x :: rest => apart [x] rest && disjoint rest

/-- Whether two launches of one code object share its code image: no relocation in it points into the data image (R348). -/
def Launch.sharesCode (l x : Launch) : Bool :=
  l.codePa == x.codePa && l.entryVa == x.entryVa && l.image.code == x.image.code && l.image.relocs == x.image.relocs
    && !(l.image.relocs.any fun r => !r.inData && r.toData)

/-- Whether what a launch keeps in device memory meets nothing of another's (R348). -/
def Launch.apartFrom (l x : Launch) : Bool :=
  apart l.own (x.own ++ x.codeRange) && apart l.codeRange x.own && (apart l.codeRange x.codeRange || l.sharesCode x)

/-- Whether counters of the partition's share are free for a launch (R308). -/
def State.ctrFree (s : State) (l : Launch) (base : Nat) : Bool :=
  let n := (sowerShare s.pm).2.1
  decide (l.part * n ≤ base) && decide (base + l.desc.tctr ≤ (l.part + 1) * n) && s.launches.all fun x =>
    x.id == l.id || x.part != l.part || x.phase != .live || !overlaps base l.desc.tctr x.ctrAt x.desc.tctr

/-- Whether what mode S writes for a launch lies in what the root firmware has granted for it (R442): save regions, queue extensions and
table entries. -/
def State.planGranted (s : State) (l : Launch) (p : BindPlan) : Bool :=
  inRanges p.grants p.savePa (l.cores.length * 2 ^ 21) && (l.extBytes == 0 || inRanges p.grants p.extPa (l.cores.length * l.extBytes))
    && p.tables.all fun e => s.entryGranted l.part l.space p.grants e.1

/-- Whether a plan's addresses are as the rules of binding ask, for a launch that has taken them (R348, R361, R442). -/
def State.planOk (s : State) (l : Launch) (p : BindPlan) : Bool :=
  let dev (r : Nat × Nat) : Bool := decide (r.1 + r.2 ≤ partSize s.pm)
  p.codeVa.toNat % 65536 == 0 && p.codePa % 65536 == 0 && p.dataVa.toNat % 65536 == 0 && p.dataPa % 65536 == 0
    && p.extVa.toNat % 65536 == 0 && p.extPa % 65536 == 0
    && (!(l.image.relocs.any fun r => r.kind == 1) || p.dataVa == p.codeVa + word (dataDelta l.image.code.length))
    && (l.own ++ l.codeRange).all dev && disjoint (l.own ++ l.codeRange) && p.bdtPa % 32 == 0
    && p.savePa % 64 == 0
    && p.spillVa.toNat % 64 == 0 && p.spillStride % 64 == 0 && decide (l.desc.spillf * 144 + 64 ≤ p.spillStride)
    && p.cwVa.toNat % 65536 == 0
    && s.ctrFree l p.ctrBase && (s.launches.all fun x => x.id == l.id || x.part != l.part || x.boundAt.isNone || l.apartFrom x)
    && p.tables.all (fun e => dev (e.1, 8)) && s.planGranted l p

/-- Bytes set in a list. -/
def setBytes (l : List Byte) (off : Nat) (bs : List Byte) : List Byte := l.take off ++ bs ++ l.drop (off + bs.length)

/-- A relocation applied to the images (R38, R348). -/
def applyReloc (codeVa dataVa : Word) (im : List Byte × List Byte) (r : Reloc) : List Byte × List Byte :=
  let img := if r.inData then im.2 else im.1
  let base := if r.toData then dataVa else codeVa
  let img' :=
    if r.kind = 0 then setBytes img r.off (leBytes 8 ((field img r.off 8 + base.toNat) % 2 ^ 64))
    else setBytes img r.off (leBytes 3 (intBits 24 (bitsInt true 24 (field img r.off 3) + (base.toNat - codeVa.toNat : Int))))
  if r.inData then (im.1, img') else (img', im.2)

/-- The launch's descriptor table (R344, R368). -/
def Image.table (x : Image) : List Byte :=
  (List.range 1024).flatMap fun i => ((x.bufs.find? fun b => b.1 == i).map (·.2)).getD (List.replicate 32 0)

/-- LM of a core is cleared (R262). -/
def State.clearLm (s : State) (c : CoreId) : State :=
  let lo := lmKey c .W 0
  { s with mem := s.mem.clear lo (2 ^ 22), poison := s.poison.filter fun g => !(decide (lo ≤ g * 32) && decide (g * 32 < lo + 2 ^ 22)) }

/-- An initial record joins its rank's queue (R345, R347). -/
def State.pushInitial (s : State) (l : Launch) (r : Nat × Record) : State :=
  let c := coreOf (l.cores.getD r.1 0)
  match (s.core c).push l.desc.qx { r.2 with origin := c.val } with
  | some x => s.setQueue c x
  | none => s

/-- A control context starts at the entry with the argument block's address in g0 (R243). -/
def State.startControl (s : State) (l : Launch) (c : Nat) : State :=
  (s.modCore (coreOf c) fun x => x.start l 0 l.entryVa).modCtx (coreOf c) 0 fun t =>
    { t with g := t.g.set 0 (.value l.desc.args) }

/-- A core is bound: identity, and everything else as at a launch (R65, R219, R262, R347). -/
def Core.bound (x : Core) (id rank : Nat) : Core := { x.freed with launch := some id, rank := rank, idle := false }

/-- A launch as it is bound on cores, with what the plan chooses, and with the root that its space has now (R361). -/
def State.planned (s : State) (l : Launch) (cores : List Nat) (p : BindPlan) (root : Nat) : Launch :=
  { l with
    phase := .live, cores := cores, bdt := p.bdtPa, bdtVa := p.bdtVa, savePa := p.savePa, saveVa := p.saveVa, grants := p.grants, spillVa := p.spillVa
    spillStride := p.spillStride, cwVa := p.cwVa, ctrAt := p.ctrBase, ctrBase := (l.id * 8 + l.part) * 16384
    extVa := p.extVa, extPa := p.extPa, codePa := p.codePa, dataPa := p.dataPa
    entryVa := p.codeVa + word l.image.entry, root
    boundAt := some s.stime, boundSeq := s.serial, lastSweep := none }

/-- Binding, in the order of R347. The plan holds what the runtime chooses; a plan that does not map what R348 and R365 ask
binds nothing, nor does one that puts anything on a line in Q (R436). Writes that need the host's copy of a line wait for it before
anything is bound (R304). -/
def State.bind (s : State) (l : Launch) (cores : List Nat) (p : BindPlan) : State :=
  match s.rootOf l.space l.part with
  | none => s
  | some root =>
  let l := s.planned l cores p root
  if !s.planOk l p then s else
  match s.entriesWait l.part p.tables with
  | some s' => s'
  | none =>
  let t := p.tables.foldl (fun s e => s.writeEntry l.part e) s
  if !t.boundMaps l p.codeVa p.dataVa then s else
  let (code, data) := l.image.relocs.foldl (applyReloc p.codeVa p.dataVa) (l.image.code, l.image.data)
  let put : List (Nat × List Byte) := [(p.codePa, code), (p.dataPa, data), (p.bdtPa, l.image.table)]
  let accs := put.map fun x =>
    ({ keys := range (devKey s.pm l.part x.1) x.2.length, place := .dev (devKey s.pm l.part x.1), part := l.part } : Acc)
  let arg := if l.desc.cwarg = none32 then .ok [] else t.sowerAccs l .swrite (l.desc.args + word l.desc.cwarg) 8
  match arg with
  | .error (.wait s') => s'
  | .error (.fail ..) => s
  | .ok arg =>
    let ext := l.cores.length * l.extBytes
    if (accs ++ arg).any fun a => t.quarantined a.keys then s else
    match t.engineDemand .ofHeadland (accs ++ arg) .store, t.rangeDemand .store (devKey s.pm l.part l.extPa) ext with
    | some s', _ => s'
    | none, some s' => s'
    | none, none =>
      -- Steps 1 to 3.
      let t := t.engineArrive .ofHeadland (accs ++ arg) .store
      let t := cores.zipIdx.foldl (fun s c => (s.modCore (coreOf c.1) fun x => x.bound l.id c.2).clearLm (coreOf c.1)) t
      -- Step 4.
      let t := (accs.zip put).foldl (fun s x => s.engineWrite x.1.keys x.2.2 []) t
      let t := t.engineWrite (arg.flatMap (·.keys)) (leBytes 8 l.cwVa.toNat) []
      let t : State := { t with launches := t.launches.map fun x => if x.id = l.id ∧ x.part = l.part then l else x
                                serial := t.serial + 1 }
      let t := l.image.inits.foldl (fun s r => s.pushInitial l r) t
      -- Step 5.
      ((cores.foldl (fun s c => s.startControl l c) t).turned l).refreshDue

/-- A due launch is granted its cores (R345, R349, R350). -/
def State.grant (s : State) (k : Nat) (p : BindPlan) : State :=
  match s.launchAt k with
  | none => s
  | some l =>
    if l.phase != .due || !s.granted l then s else
    let req := coreReq l.desc.creq
    let origin := match req with
      | .shape _ _ d x y => if l.desc.place then (d, x, y) else (p.die, p.x0, p.y0)
      | .count _ => (0, 0, 0)
    match chooseCores (s.openCores l.part 0) req origin with
    | none => s
    | some cores => s.bind l cores p

def execLaunchGrant (l : Nat) (plan : BindPlan) (s : State) : Out := .next (s.grant l plan)

end Sys2Proof.Machine
end

