-- ==== Sys2Proof/Machine/Preempt.lean ====
section
/-! DEFINITION. Pre-emption and resume (R349, R350, R381 to R392). -/

namespace Sys2Proof.Machine

/-! ## Who is pre-empted -/

/-- Whether taking a launch's cores helps a due launch (R349). -/
def Launch.helpsCores (v h : Launch) : Bool :=
  match coreReq h.desc.creq with
  | .count _ => !h.returns || h.cores.any v.cores.contains
  | .shape w k d x y =>
    if h.returns then h.cores.any v.cores.contains
    else !h.desc.place || (gridCores d w k x y).any v.cores.contains

/-- Whether pre-empting a launch helps a due one: with cores, or with its allotment of the sower, where they are lacking
(R349). -/
def State.helps (s : State) (v h : Launch) : Bool :=
  (!s.coresFit h 0 && v.helpsCores h) || (!s.sowerFits h 0 && (v.desc.tent != 0 || v.desc.tctr != 0 || v.desc.tcomm != 0))

/-- The launch that is pre-empted next for a due launch: the lowest class, and within it the most recently bound (R349). -/
def State.victimFor (s : State) (h : Launch) : Option Launch :=
  let vs := s.launches.filter fun v =>
    v.part == h.part && v.phase == .live && decide (v.desc.prio < h.desc.prio) && s.helps v h
  vs.foldl (fun best v =>
    match best with
    | none => some v
    | some b => if v.desc.prio < b.desc.prio ∨ (v.desc.prio = b.desc.prio ∧ b.boundSeq < v.boundSeq) then some v else some b) none

/-- Whether a launch may be pre-empted now: for a due launch of higher class that free resources do not serve, or by a checkpoint
(R349, R440). It waits for a change sequence of its dies (R429). -/
def State.mayPreempt (s : State) (l : Launch) : Bool :=
  !s.firmware.stopped && l.phase == .live && (l.cores.all fun c => (s.die (c / 128)).seq.isNone) && (s.ckptHolds l.part ||
    s.launches.any fun h => s.isDue h && h.part == l.part && !s.canBind h 0 && s.canBind h h.desc.prio && !s.higherDue h
      && !s.ckptHolds l.part && (match s.victimFor h with | some v => v.id == l.id | none => false))

/-! ## The stop -/

/-- A context as it is saved (R381, R382). Its arrival at a barrier or a gather is withdrawn, and it is not ready, so its count of core
cycles is 0 (R256). -/
def Ctx.stopped (t : Ctx) : Ctx :=
  let t := { t with phase := false, waitCount := 0 }
  match t.run with
  | .service .. => t
  | .stopped _ => t
  | .asleep => t
  | .listening => t
  | .realign next => { t with pc := next, run := .ready }
  | _ => { t with run := .ready }

/-- The vector queues of a core drain (R162, R381). -/
def State.drainVectors (s : State) (c : CoreId) (fuel : Nat) : State :=
  match fuel with
  | 0 => s
  | fuel + 1 => if ((s.core c).vnext false).isNone then s else (s.vectorIssue c).drainVectors c fuel

/-- The traps of a core's contexts whose records wait are tried again (R294, R376). -/
def State.retryTraps (s : State) (c : CoreId) : State :=
  (List.finRange 11).foldl (fun s k =>
    match (s.ctx c k).run with
    | .trapping t => s.within c k fun s => s.takeTrap t
    | _ => s) s

/-- A core comes to its pre-emption points (R162, R209, R268, R381, R390). -/
def State.settleCore (s : State) (c : CoreId) : State :=
  match s.launchOf c with
  | none => s
  | some l =>
    let n := (s.core c).ctxs.toList.foldl (fun n t => n + t.vq.length) 0
    let s := ((s.drainVectors c n).retryTraps c)
    let s := (s.jobComplete c).jobFault c
    s.settleUnit c l

/-- Whether a context holds back the save of its core: a trap that is being taken, or tokens and reads of its release that are
out (R289, R399; notes/assumptions 80). -/
def Ctx.settled (t : Ctx) : Bool :=
  t.vq.isEmpty && t.relWait == 0 && t.ncWait == 0 && !t.acqWait && (match t.run with | .trapping _ => false | _ => true)

/-- Whether a core stands at its pre-emption points. -/
def Core.settled (x : Core) : Bool :=
  x.ctxs.toList.all Ctx.settled && x.harrow.settled
    && (x.jobs.all fun j => tokensBack j.relWait && (match j.phase with | .faulted .. => false | _ => true))

/-- A matrix unit as it is saved: rows issued have left the array, and an MLDW restarts (R192, R209). -/
def Harrow.stopped (h : Harrow) : Harrow :=
  let h := ({ h with retiring := h.retiring.map fun r => { r with bank := none }, inbound := [] } : Harrow).drained
  match h.running with
  | some r =>
    if field r.cmd.record 0 1 = 1 then { h.unfill r with running := some { r with begun := false } }
    else { h with running := some { r with bank := none } }
  | none => h

/-- Banks that have not been taken go back to their senders, which send them again on resume (R209). -/
def State.takeBack (s : State) (c : CoreId) : State :=
  (s.core c).harrow.inbound.foldl (fun s m =>
    match m with
    | .bank b src serial _ => s.modHarrow (coreOf src) fun y =>
        { y with retiring := y.retiring.map fun r => if r.serial = serial then { r with resend := some (c.val, b) } else r }
    | _ => s) s

/-- Partial sums that clusters of a launch's cores hold, or that have drained from them to their dies, are merged: each line moves to
I (R301, R302). -/
def State.mergeHeld (s : State) (l : Launch) : State :=
  let mine := s.dir.partials.filter fun p => l.cores.any fun c => p.holder == .cluster (c / 8) || p.holder == .die (c / 128)
  s.modDir fun d => (mine.map (·.line)).dedup.foldl (fun d n => if (d.line n).inC then (d.merge n).setLine n {} else d.merge n) d

/-- A core's contexts and engines at the stop: replays in progress finish (R76), latches are dropped (R227). -/
def State.stopCore (s : State) (c : CoreId) : State :=
  let evs := (s.core c).ctxs.toList.flatMap fun t => t.regs.flatMap fun r => r.replayed.2
  (s.modCore c fun x =>
    { x.mapCtx (fun t => (t.mapRegs fun r => r.replayed.1).stopped) with
      latches := Vector.replicate 4 0, wires := [], fetched := [], fetching := none, harrow := x.harrow.stopped }).countAll c evs

/-- One core of a pre-empted launch is saved and freed (R381, R386). -/
def State.saveCore (s : State) (l : Launch) (c : Nat × Nat) : State :=
  let x := s.core (coreOf c.1)
  let s := s.writeSave l c.2 x
  let at' := l.saveKey s.pm c.2
  let s := s.saveLm (coreOf c.1) l.split at'
  (s.modCore (coreOf c.1) Core.freed).ungrant (some (coreOf c.1).val)

/-- Issue stops on every core of a launch (R381). What its contexts have read of the time is behind the largest of its cores'
readings (R231). -/
def State.beginStop (s : State) (l : Launch) : State :=
  s.modLaunch l.part l.id fun x => { x with
    stopping := true, saving := true, stoppedAt := (l.cores.map fun c => s.timeAt (coreOf c)).foldl max 0 }

/-- A launch all of whose cores stand at their pre-emption points is saved, and its cores are free (R381 to R386). -/
def State.saveLaunch (s : State) (l : Launch) : State :=
  let s := l.cores.foldl (fun s c => s.takeBack (coreOf c)) s
  let s := l.cores.foldl (fun s c => s.stopCore (coreOf c)) s
  let s := ((s.mergeHeld l).dropLinks l.cores).demoteTiles l
  let saved := l.cores.map fun c => s.core (coreOf c)
  let s := l.cores.zipIdx.foldl (fun s c => s.saveCore l c) s
  let s : State := { s with
    saves := s.saves ++ [(l.part, l.id, saved)]
    ckpt := if s.ckptHolds l.part then { s.ckpt with held := s.ckpt.held ++ [(l.part, l.id)] } else s.ckpt }
  (s.modLaunch l.part l.id fun l =>
    { l with phase := .preempted, stopping := false, saving := false, dueAt := none, lastSweep := none }).refreshDue

/-- What the accesses of a launch's save regions wait for (R304, R386). -/
def State.saveWaits (s : State) (l : Launch) (n : Nat) (r : Req) : Option State :=
  (List.range n).findSome? fun i => s.rangeDemand r (l.saveKey s.pm i) (2 ^ 21)

/-- A launch that has been saved and that a CANCEL or its time limit ends does not resume (R351). -/
def State.endSaved (s : State) (l : Launch) : State :=
  match s.findLaunch l.part l.id with
  | some x => (match x.ending with | some status => s.endLaunch x status | none => s)
  | none => s

/-- A whole launch is pre-empted (R381 to R385): its issue stops at once, it comes to its pre-emption points, and once every
core stands there it is saved. A change sequence of its dies holds the save back (R429). A launch that ends out of order comes to its
points in the same way, and is not saved (R357). -/
def State.preempt (s : State) (k : Nat) : State :=
  match s.launchAt k with
  | none => s
  | some l =>
    if l.phase != .live || !(l.stopping || s.mayPreempt l) then s else
    if l.stopping && !l.saving then s.endStopped l (l.ending.getD 3) else
    let s := if l.stopping then s else s.beginStop l
    let s := l.cores.foldl (fun s c => s.settleCore (coreOf c)) s
    if (l.cores.all fun c => (s.core (coreOf c)).settled && (s.die (c / 128)).seq.isNone) then
      match s.launchAt k with
      | some l =>
        match s.saveWaits l l.cores.length .store with
        | some s' => s'
        | none => (s.saveLaunch l).endSaved l
      | none => s
    else s

def execPreempt (l : Nat) (s : State) : Out := .next (s.preempt l)

/-! ## The resume -/

/-- The core numbers that a saved core holds, changed to those of the cores its launch now has (R384). -/
def Core.remap (f : Nat → Nat) (x : Core) : Core :=
  let msg (m : Message) : Message := { m with src := f m.src }
  let rec' (r : Record) : Record := { r with origin := f r.origin }
  let fl (m : HFlight) : HFlight :=
    match m with
    | .bank b c n t => .bank b (f c) n t
    | .rows d o c n => .rows d o (f c) n
    | .mred g r p l c n => .mred g r p l (f c) n
  { x with chans := x.chans.map (fun h => { h with buffer := h.buffer.map msg, flight := h.flight.map msg })
           inbox := x.inbox.map (fun p => (p.1, msg p.2)), queue := x.queue.map rec', ext := x.ext.map rec'
           harrow := { x.harrow with inbound := x.harrow.inbound.map fl
                                     running := x.harrow.running.map fun r => { r with stalled := false }
                                     retiring := x.harrow.retiring.map fun r =>
                                       { r with resend := r.resend.map fun d => (f d.1, d.2) } } }

/-- A context on the core it resumes on (R240, R384, R391). -/
def Ctx.resumed (t : Ctx) (strays : Bool) : Ctx :=
  { t with latch := t.latch ||| 16, firstRelease := strays, firstFin := strays }

/-- Every form over a symbol that became RESOLVED while the launch was away takes its value (R70, R384). -/
def Core.resolveAll (x : Core) : Core :=
  (List.finRange 64).foldl (fun x i => match x.syms.get i with | .resolved v => x.resolve i v | _ => x) x

/-- A saved core restored onto core y (R384). An ended slot keeps the loads that its contexts left behind (R117). -/
def Core.restored (x y : Core) (id rank : Nat) : Core :=
  let strays := !y.strays.isEmpty
  ({ x with
     ctxs := Vector.ofFn fun k =>
       if (x.ctx k).live then (x.ctx k).resumed strays
       else ({ gen := (y.ctx k).gen, dloads := (x.ctx k).dloads } : Ctx)
     strays := y.strays, retired := y.retired, launch := some id, rank := rank, stealAt := none } : Core).resolveAll.settle

/-- The cores that a pre-empted launch resumes on (R384). -/
def State.resumeCores (s : State) (l : Launch) : Option (List Nat) :=
  let opn := s.openCores l.part 0
  if l.returns then (if l.cores.all opn.contains then some l.cores else none)
  else chooseCores opn (coreReq l.desc.creq) (0, 0, 0)

/-- The time that a core's contexts read is not behind a time that they have read before (R231). -/
def State.timeFrom (s : State) (c : CoreId) (t : Nat) : State :=
  s.modDie c.die.val fun d => { d with skew := max d.skew ((t : Int) - s.stime) }

/-- A bank that its receiver had not taken is sent again; it counts as sent once (R209). -/
def State.resendBanks (s : State) (c : CoreId) : State :=
  (s.core c).harrow.retiring.foldl (fun s r =>
    match r.resend with
    | some (dst, b) =>
      (s.modHarrow (coreOf dst) fun y => { y with inbound := y.inbound ++ [.bank b c.val r.serial false] }).modHarrow c fun y =>
        { y with retiring := y.retiring.map fun x => if x.serial = r.serial then { x with resend := none } else x }
    | none => s) s

/-- The mappings that were rejected while a core's launch was away trap its contexts (R389). -/
def State.takeRejected (s : State) (c : CoreId) : State :=
  (List.finRange 11).foldl (fun s k =>
    let vas := (s.ctx c k).rejected
    if vas.isEmpty then s else
    (s.modCtx c k fun t => { t with rejected := [] }).within c k fun s => vas.foldl State.mappingRejected s) s

/-- A core is restored from its save region and its saved state (R384). -/
def State.restoreCore (s : State) (l : Launch) (f : Nat → Nat) (c : CoreId) (rank : Nat) (saved : Core) : State :=
  let s := (s.clearLm c).restoreLm c l.split (l.saveKey s.pm rank)
  (s.modCore c fun y => (saved.remap f).restored y l.id rank).timeFrom c l.stoppedAt

/-- A pre-empted launch resumes (R350, R384). Of the plan only the table entries and the counters are used: its addresses
stay. -/
def State.resume (s : State) (k : Nat) (p : BindPlan) : State :=
  match s.launchAt k with
  | none => s
  | some l =>
    if l.phase != .preempted || !s.granted l || !s.ctrFree l p.ctrBase then s else
    match s.resumeCores l, s.saves.find? fun e => e.1 == l.part && e.2.1 == l.id with
    | some cores, some (_, _, saved) =>
      match s.rootOf l.space l.part, s.entriesWait l.part p.tables, s.saveWaits l cores.length .read with
      | none, _, _ => s
      | some _, some s', _ => s'
      | some _, none, some s' => s'
      | some root, none, none =>
      if p.tables.any fun e => !s.entryGranted l.part l.space p.grants e.1 then s else
      let f (c : Nat) : Nat := match l.cores.findIdx? (· == c) with | some i => cores.getD i c | none => c
      let old := l.cores
      let l : Launch := { l with phase := .live, root, cores := cores, ctrAt := p.ctrBase, boundSeq := s.serial, lastSweep := none }
      let t := p.tables.foldl (fun s e => s.writeEntry l.part e) s
      if !(t.rankMaps l && t.onlyRanks l) then s else
      let t := (cores.zipIdx.zip saved).foldl (fun s x => s.restoreCore l f (coreOf x.1.1) x.1.2 x.2) t
      let t : State := { t with
        saves := t.saves.filter (fun e => !(e.1 == l.part && e.2.1 == l.id))
        naks := t.naks.map (fun n => if n.launch = l.id ∧ old.contains n.dst = true then { n with dst := f n.dst } else n)
        launches := t.launches.map (fun x => if x.id = l.id ∧ x.part = l.part then l else x)
        ckpt := { t.ckpt with held := t.ckpt.held.filter (· != (l.part, l.id)) }
        serial := t.serial + 1 }
      let t := cores.foldl (fun s c => (s.resendBanks (coreOf c)).takeRejected (coreOf c)) t
      (t.turned l).refreshDue
    | _, _ => s

def execResume (l : Nat) (plan : BindPlan) (s : State) : Out := .next (s.resume l plan)

/-! ## Back-pressure -/

/-- An epilogue that back-pressure has held for 20 µs while its launch is to be stopped issues no more: its cursor goes back to the first
row with a write that has not been performed, the generators with it, and its packets in flight go on by themselves (R390, R391). -/
def HRun.stall (r : HRun) (x : Core) : Core :=
  let h := x.harrow
  match r.flight with
  | [] => { x with harrow := { h with running := some { r with stalled := true } } }
  | f :: _ =>
    { x with strays := x.strays ++ r.flight.flatMap (·.packets)
             harrow := { h with gens := f.gens, running := some { r with row := f.row, flight := [], stalled := true } } }

/-- The epilogue of a core is held by back-pressure for 20 µs (R390): rows are in flight, or its next row waits for its descriptor. -/
def State.stallEpilogue (s : State) (c : CoreId) : State :=
  match s.launchOf c, (s.core c).harrow.epilogue with
  | some l, some r =>
    if !l.stopping || r.stalled then s else
    let (t, r) := s.landRows c r
    let held := !r.flight.isEmpty || (decide (r.row < field r.cmd.record 14 2) && r.row % 16 != 0 &&
      (match t.mepiData c l r with | .error (.wait _) => true | _ => false))
    if held then t.modCore c r.stall else s
  | _, _ => s

def execEpilogueStallTimeout (c : CoreId) (s : State) : Out := .next (s.stallEpilogue c)

/-- The oldest stray packet of a core is performed (R391). -/
def State.performStray (s : State) (c : CoreId) : State :=
  match (s.core c).strays with
  | [] => s
  | p :: rest =>
    match s.engineDemand (From.ofEngine c) [p.acc] .store with
    | some s' => s'
    | none =>
      ((s.engineArrive (From.ofEngine c) [p.acc] .store).engineWrite p.acc.keys p.data []).modCore c fun x =>
        { x with strays := rest }

def execStrayWritePerformed (c : CoreId) (s : State) : Out := .next (s.performStray c)

end Sys2Proof.Machine
end

