-- ==== Sys2Proof/Machine/Ras.lean ====
section
/-! DEFINITION. Errors, quarantine, repair, and the checkpoint (R430 to R441). -/

namespace Sys2Proof.Machine

/-! ## Counting -/

def sat16' (n : Nat) : Nat := min n 65535

/-- The region of an address in RAS (R434). -/
def State.errRegion (s : State) (key : Nat) : Nat := (if key < hostBase then key % partSize s.pm else key) / 2 ^ 26 % 2 ^ 26

/-- An uncorrectable error is counted on a die (R434). -/
def State.countUe (s : State) (d kind : Nat) (key : Option Nat) : State :=
  s.modDie d fun x => { x with ue := sat16' (x.ue + 1), errKind := kind, errLine := (key.map s.errRegion).getD x.errLine }

/-! ## Quarantine -/

/-- A line moves to Q: its tile is dissolved first, every copy and link goes, and both granules are poisoned; its home die counts it
(R434, R435). -/
def State.quarantineOne (s : State) (kind n : Nat) : State :=
  let d := (s.dir.merge n).setLine n { st := .q }
  let t := { s with dir := { d with snoops := d.snoops.filter fun p => p.line != n }
                    links := s.links.filter fun x => x.2.2 != n }.poisonGranules [2 * n, 2 * n + 1]
  if (s.dir.line n).st = .q then t else t.countUe (homeDie s.pm (n * 64)) kind (some (n * 64))

/-- The lines that a lost message concerns: those of its tile, or its own (R435). -/
def State.quarantine (kind : Nat) (s : State) (key : Nat) : State :=
  let n := key / 64
  if 768 * 2 ^ 30 ≤ key then s else
  match s.dir.tileOf n with
  | some t => t.lines.foldl (fun s n => s.quarantineOne kind n) { s with dir := s.dir.demote t }
  | none => s.quarantineOne kind n

/-- The die of a partial sum's holder. -/
def Holder.onDie (h : Holder) : Nat :=
  match h with
  | .cluster n => n / 16
  | .die n => n

/-- Whether a merge of a line has a message outstanding on a die's link: a holder of another die than the home has not answered, and one
end lies on that die (R302, R435). -/
def State.mergeOn (s : State) (d n : Nat) : Bool :=
  let home := homeDie s.pm (n * 64)
  s.dir.partials.any fun p => p.line == n && p.holder.onDie != home && (home == d || p.holder.onDie == d)

/-- The lines with a message outstanding on a die's link as the directories have it: snoops of the host for lines that the die homes, and
merges (R302, R304, R435). -/
def State.outstandingOn (s : State) (d : Nat) : List Nat :=
  ((s.dir.snoops.map (·.line)).filter fun n => homeDie s.pm (n * 64) == d) ++ s.dir.merging.filter (s.mergeOn d)

/-- The dies whose links carry a request to the host: that of the core whose access asks, and that of the slice which is the line's agent
(R399, R403). -/
def HostReq.dies (pm : PartMode) (w : HostReq) : List Nat :=
  (w.core.map (· / 128)).toList ++ if w.io then [] else [(sliceAt pm (w.line / 2 ^ 46) (w.line % 2 ^ 46 * 64)).1]

/-- An asynchronous POISON report of a write that was lost goes to its launch, or, once that has ended, to the runtime alone (R437). -/
def State.reportLost (s : State) (c : CoreId) (a : AsyncRep) : State :=
  match s.findLaunch a.part a.launch with
  | some _ => { s with asyncs := s.asyncs ++ [a] }
  | none => s.toRuntime a c (s.core c)

/-- Whether a command of a matrix unit writes memory: MEPI alone does (R204, R263). -/
def HRun.writesMem (r : HRun) : Bool := field r.cmd.record 0 1 == 5

/-- A command whose write was lost faults with POISON (R437). -/
def HRun.lost (r : HRun) (va : Word) : HRun := { r with failed := some (8, va) }

/-- A matrix unit whose write was lost: the MEPI that has issued its rows and not completed, the oldest first, else the one at work
(R437). -/
def Harrow.writeLost (h : Harrow) (va : Word) : Harrow :=
  match h.retiring.find? HRun.writesMem, h.running with
  | some w, _ => { h with retiring := h.retiring.map fun r => if r.serial = w.serial then r.lost va else r }
  | none, some r => if r.writesMem then { h with running := none, retiring := h.retiring ++ [r.lost va] } else h
  | none, none => h

/-- A write that was lost is reported to its writer (R437). -/
def State.reportWriter (s : State) (w : Writer) : State :=
  match w with
  | .ctx c k launch rank gen va => s.reportLost c ⟨s.partOf c, launch, rank, k, gen, .poison, 0, va⟩
  | .job c id va => s.modCore c fun x =>
      { x with jobs := x.jobs.map fun j => if j.id = id then { j with phase := .faulted .poison va } else j }
  | .harrow c va => s.modHarrow c fun h => h.writeLost va
  | .sower h va =>
    match s.sower.entries.find? fun e => e.handle == h.val with
    | none => s
    | some e =>
      match s.sower.comms.find? fun c => c.part == e.part && c.launch == e.launch && c.comm == e.rec_.comm with
      | some c => s.commFault c .poison h.val va
      | none => s
  | .host pa => { s with out := .hostData pa [] true :: s.out }

/-- Retry gives up on a control flit of a die's link. Every line with a message outstanding there goes to Q: those that the state holds,
and those that the flit names, whose messages no step holds; the flit itself counts on its die, a choice of notes/assumptions 97. Requests
to the host on the link complete poisoned, and writers are told (R435 to R437). -/
def State.loseFlit (s : State) (d : Nat) (kind : Nat) (lines : List Nat) (writers : List Writer) : State :=
  let s := (lines ++ (s.outstandingOn d).map (· * 64)).foldl (State.quarantine kind) (s.countUe d kind none)
  let s := (s.dir.wants.filter fun w => (w.dies s.pm).contains d).foldl State.poisonWant s
  writers.foldl State.reportWriter s

/-- A lost data flit poisons the granules that it carried (R431, R435). -/
def State.loseData (s : State) (d : Nat) (granules : List Nat) : State :=
  match granules.getLast? with
  | none => s
  | some g => (s.poisonGranules granules).countUe d 0 (some (32 * g))

/-- What a die's link has met (R428, R430, R435): flits that it retried, and flits on which retry gave up. -/
def State.flitLoss (s : State) (d : Nat) (x : FlitLoss) (writers : List Writer) : State :=
  let lost := x.control || !x.granules.isEmpty
  let s := s.modDie d fun y => { y with crcErr := sat16' (y.crcErr + x.retried + if lost then 1 else 0) }
  let s := s.loseData d x.granules
  if x.control then s.loseFlit d 1 x.lines writers else s

def execUncorrectableFlit (d : DieId) (loss : FlitLoss) (writers : List Writer) (s : State) : Out := .next (s.flitLoss d.val loss writers)

/-! ## A link goes down -/

/-- The executing context ends with fatal POISON, ADDR 0; a trap of its own whose record waits goes to the runtime first. The record is
written to its block where nothing delays it (R376, R379, R438). -/
def State.killMe (s : State) : State :=
  let s := match s.me.run with
    | .trapping t => s.runtimeOnly t (t.pc.getD s.me.pc)
    | _ => s
  let block := match s.trapBlock with
    | .ok a => if (s.demand (.ofCore s.cur) a .store).isNone then some a else none
    | .error _ => none
  s.fatalTrap { cause := .poison, fatal := true } s.me.pc block

/-- Every context of a core ends with fatal POISON, ADDR 0 (R431, R438). -/
def State.killCore (s : State) (c : CoreId) : State :=
  let s := (List.finRange 11).foldl (fun s k => if (s.ctx c k).live then s.within c k State.killMe else s) s
  s.modCore c fun x => { x.freed with launch := x.launch, rank := x.rank, sent := x.sent, rcvd := x.rcvd, strays := [] }

/-- Tokens on a link that goes down are taken as acknowledged (R437, R438). -/
def State.dropTokens (s : State) (d : Nat) : State :=
  let x := s.die d
  let s := x.relTokens.foldl State.acknowledged s
  let s := x.acqTokens.foldl (fun s t => s.modCtx (coreOf t.1) (Fin.ofNat 11 t.2) fun c => { c with acqWait := false }) s
  s.modDie d fun x => { x with relTokens := [], acqTokens := [] }

/-- Deferred loads that have asked a die complete poisoned (R131, R438). -/
def Core.loseLoads (x : Core) (d : Nat) : Core :=
  x.mapCtx fun t => { t with dloads := t.dloads.map fun q => if q.far.contains d then { q with res := .fault q.ea } else q }

/-- Deferred loads of every core, and of every pre-empted launch, that have asked a die complete poisoned (R131, R383, R438). -/
def State.loseLoads (s : State) (d : Nat) : State :=
  { s with cores := s.cores.map fun x => x.loseLoads d
           saves := s.saves.map fun e => (e.1, e.2.1, e.2.2.map fun x => x.loseLoads d) }

/-- A die's link goes down and the die stops (R438). -/
def State.linkDown (s : State) (d : DieId) (lines : List Nat) (writers : List Writer) : State :=
  if (s.die d.val).dead then s else
  let s := ((s.loseFlit d.val 3 lines writers).dropTokens d.val).loseLoads d.val
  let s := s.modDie d.val fun x => { x with dead := true, width := 3, seq := none, forcedDue := false, freqDue := none, pmwDue := false }
  (List.range 128).foldl (fun s i => s.killCore (coreOf (d.val * 128 + i))) s

def execLinkDown (d : DieId) (lines : List Nat) (writers : List Writer) (s : State) : Out :=
  .next (s.linkDown d lines writers)

/-- The runtime repairs a line in Q: 64 bytes with new checks, and the line is in I (R436). -/
def State.repair (s : State) (key : Nat) (data : List Byte) : State :=
  let n := key / 64
  let away := match keyDie s.pm key with | some d => (s.die d).dead | none => true
  if (s.dir.line n).st ≠ .q ∨ data.length ≠ 64 ∨ away = true then s
  else (s.modDir fun d => d.setLine n {}).engineWrite (range (n * 64) 64) data []

def execLineRepair (pa : Nat) (data : List Byte) (s : State) : Out := .next (s.repair pa data)

/-- A parity error in a context's registers or queue (R431, R434). -/
def State.parity (s : State) (c : CoreId) (k : SlotId) : State :=
  if !(s.ctx c k).live then s
  else (s.within c k fun s => s.takeTrap { cause := .poison, fatal := true }).countUe c.die.val 2 none

def execParityError (c : CoreId) (k : SlotId) (s : State) : Out := .next (s.parity c k)

/-- The patrol scrubber reads a granule of its die's stacks or LM (R434). -/
def State.scrub (s : State) (d : DieId) (key : Nat) (r : ScrubResult) : State :=
  if keyDie s.pm key ≠ some d.val then s else
  match r with
  | .clean => s
  | .corrected => s.modDie d.val fun x => { x with ce := sat16' (x.ce + 1) }
  | .uncorrectable => (s.poisonGranules [key / 32]).countUe d.val 0 (some key)

def execPatrolScrub (d : DieId) (pa : Nat) (r : ScrubResult) (s : State) : Out := .next (s.scrub d pa r)

/-- A read of RAS returns it and clears the counts (R434); of a party in no such mode it reads 0 and clears nothing (R421). -/
def State.readRas (s : State) (r : RegRead) : State :=
  if privileged r.mode then { s.headTaken (.ras r.die) with out := .register (word (s.die r.die.val).rasWord) :: s.out }
  else { s with out := .register 0 :: s.out }

def execRasRead (r : RegRead) (s : State) : Out := .next (s.readRas r)

/-! ## The checkpoint -/

def execCkptGo (mode : Mode) (pmask : Byte) (s : State) : Out := .next (s.ckptGo mode pmask)

/-- Whether the checkpoint takes a page of the package's device memory. -/
def State.ckptTakes (s : State) (pg : Nat) : Bool := s.ckpt.parts.getLsbD (pg * 65536 / partSize s.pm)

/-- Caches of the selected partitions are written back and partial sums merged (R440). -/
def State.writeBack (s : State) : State :=
  let mine (n : Nat) : Bool := s.ckptTakes (n / 1024)
  s.modDir fun d =>
    let d : Dir := { d with
      lines := (d.lines.map fun p =>
        if !mine p.1 then p
        else (p.1, match p.2.st with | .c _ => ({} : Line) | .m => { p.2 with st := .e } | _ => p.2)).filter (fun p => p.2 != {})
      partials := d.partials.filter (fun p => !mine p.line)
      merging := d.merging.filter fun n => !mine n }
    { d with tiles := d.tiles.map fun t => if t.lines.any mine then t.evicted else t }

/-- Whether a die homes memory of the selected partitions. -/
def State.ckptDie (s : State) (d : Nat) : Bool := s.ckpt.parts.getLsbD (partOfDie s.pm d)

/-- The lines of the selected partitions that the host holds, whose bytes the cut needs (R304, R440). -/
def State.hostHas (s : State) : List Nat := (s.dir.lines.filter fun p => p.2.st == .ho && s.ckptTakes (p.1 / 1024)).map (·.1)

/-- The cut, once every live launch of the selected partitions has been pre-empted, the host has returned their lines, and no link of
their dies is held (R304, R426, R440). -/
def State.ckptCut (s : State) : State :=
  if !s.ckpt.busy ∨ s.ckpt.status ≠ 0 ∨ s.launches.any (fun l => l.phase == .live && s.ckpt.parts.getLsbD l.part) = true
    ∨ (List.range 8).any (fun d => s.ckptDie d && s.linkHeld d) = true then s
  else if !s.hostHas.isEmpty then s.sendSnoops s.hostHas false
  else
    let s := s.writeBack
    { s with ckpt := { s.ckpt with status := 1, cut := true, cutTime := s.stime, next := 0 } }

def execCkptCut (s : State) : Out := .next s.ckptCut

/-- One bit of CRC-32C, reflected. -/
def crcBit (x : BitVec 32) : BitVec 32 := if x.getLsbD 0 then (x >>> 1) ^^^ 0x82F63B78 else x >>> 1

/-- CRC-32C of bytes (R441). -/
def crc32c (bs : List Byte) : BitVec 32 :=
  ~~~ (bs.foldl (fun x b =>
    let x := x ^^^ b.setWidth 32
    crcBit (crcBit (crcBit (crcBit (crcBit (crcBit (crcBit (crcBit x)))))))) 0xFFFFFFFF)

/-- The leaves below a translation table, as its memory lists them: page, its address bits, and TAGGED (R361, R362). -/
def State.leavesOf (s : State) (p : Nat) (levels : List (Nat × Nat × Option Nat × Nat)) (t : Nat) : List (Nat × Nat × Bool) :=
  match levels with
  | [] => []
  | (hi, lo, leaf, _) :: rest =>
    (((s.mem.slice (devKey s.pm p t) (8 * 2 ^ (hi - lo + 1))).map (·.1 / 8)).dedup).flatMap fun i =>
      let e := leNat (s.bytesAt (range (8 * i) 8))
      if e % 2 = 0 then []
      else if e / 2 % 2 = 1 then
        match leaf with
        | some bits => [(bitsOf e 51 16 * 2 ^ 16, bits, bitsOf e 58 58 == 1)]
        | none => []
      else s.leavesOf p rest (bitsOf e 51 8 * 2 ^ 8)

/-- Whether a page of device memory is TAGGED: some space of its partition maps it so when its record is sent (R362, R441;
notes/assumptions 60). -/
def State.pageTagged (s : State) (pg : Nat) : Bool :=
  let p := pg * 65536 / partSize s.pm
  let a := pg * 65536 % partSize s.pm
  s.firmware.roots.any fun r => r.2.1 == p && (s.leavesOf p walkLevels r.2.2).any fun f =>
    f.2.2 && decide (f.1 ≤ a) && decide (a < f.1 + 2 ^ f.2.1)

/-- The granules of a page that lie in lines in Q, or all of them where its die is down, relative to the page (R438, R441). -/
def State.lostGranules (s : State) (pg : Nat) : List Nat :=
  if (s.die (homeDie s.pm (pg * 65536))).dead then List.range 2048
  else (s.dir.lines.filter fun p => p.2.st == .q && p.1 / 1024 == pg).flatMap fun p => [2 * (p.1 % 1024), 2 * (p.1 % 1024) + 1]

/-- A page as it stood at the cut: its bytes, tags and poisoned granules, the last two relative to the page (R440). -/
def State.pageAtCut (s : State) (pg : Nat) : List Byte × List (Nat × Nat) × List Nat :=
  let (m, tags, ps) := match s.ckpt.shadow.find? fun e => e.1 == pg with
    | some (_, m, t, p) => (m, t, p)
    | none => (s.mem.slice (pg * 65536) 65536, s.tags.filter (fun t => t.1 / 2048 == pg), s.poison.filter fun g => g / 2048 == pg)
  ((range (pg * 65536) 65536).map (fun a => Memory.get m a), tags.map (fun t => (t.1 % 2048, t.2)), ps.map (· % 2048))

/-- A page's record: its bytes, and which of them are poisoned, as those of a line in Q are whenever it went there (R441). -/
def State.pageRecord (s : State) (pg : Nat) : List Byte × List Bool :=
  let (data, tags, ps) := s.pageAtCut pg
  let ps := ps ++ s.lostGranules pg
  let tagged := s.pageTagged pg
  let tag (g : Nat) : Nat := ((tags.find? fun t => t.1 == g).map (·.2)).getD 0
  let tagBytes := if !tagged then [] else (List.range 1024).map fun i => BitVec.ofNat 8 (tag (2 * i) + 16 * tag (2 * i + 1))
  let map := if ps.isEmpty then [] else (List.range 256).map fun i =>
    BitVec.ofNat 8 ((List.range 8).foldl (fun n j => n + if ps.contains (8 * i + j) then 2 ^ j else 0) 0)
  let flags := (if tagged then 1 else 0) + (if ps.isEmpty then 0 else 2)
  let head := padTo 64 (leBytes 8 (pg * 65536 % partSize s.pm) ++ leBytes 4 (crc32c data).toNat ++ leBytes 1 flags)
  let pre := head ++ tagBytes ++ map
  (pre ++ data, List.replicate pre.length false ++ (List.range 65536).map fun i => ps.contains (i / 32))

/-- Where the stream's next byte goes (R439). -/
def Ckpt.at (k : Ckpt) : Nat := hostBase + wbits k.dst 12 40 * 4096 + k.off

/-- A failed write of the stream (R441). -/
def Ckpt.failed (k : Ckpt) : Ckpt := { k with busy := false, err := true, status := 0, cut := false, shadow := [] }

/-- The lowest page from one on that the checkpoint takes. -/
def State.nextPage (s : State) : Option Nat :=
  let per := partSize s.pm / 65536
  let p := s.ckpt.next / per
  if s.ckpt.next < partCount s.pm * per ∧ s.ckpt.parts.getLsbD p = true then some s.ckpt.next
  else ((List.range (partCount s.pm)).find? fun q => decide (p < q) && s.ckpt.parts.getLsbD q).map (· * per)

/-- The lines of the destination that the stream's next n bytes fill (R439, R441). -/
def Ckpt.lines (k : Ckpt) (n : Nat) : List Nat := range (k.at / 64) (n / 64)

/-- Whether the agent of any of the destination's lines is on a die that is down, so that the write fails (R403, R438). The stream's lines
are partition 0's, whose function is the device's first. -/
def State.dstDead (s : State) (ns : List Nat) : Bool := ns.any fun n => (s.die (sliceAt s.pm 0 (n * 64)).1).dead

/-- What whole-line ItoMWr writes of the stream wait for (R399, R426, R441). -/
def State.dstWait (s : State) (ns : List Nat) : Option State :=
  if !s.anyPort false || ns.any (fun n => s.linkHeld (sliceAt s.pm 0 (n * 64)).1) then some s
  else
    let need := ns.filter fun n => !s.dir.grantedWhole (hostKey 0 n)
    if need.isEmpty then none else some (s.sendWants 0 need true false none true)

/-- The granted writes of the stream are performed (R399). -/
def State.dstWrite (s : State) (ns : List Nat) (bs : List Byte) (bad : List Bool) : State :=
  let ks := ns.map (hostKey 0)
  { s with dir := { s.dir with
      hosts := s.dir.hosts.filter fun h => !ks.contains h.1
      granted := s.dir.granted.filter fun g => !ks.contains g.line } }.engineWrite (range s.ckpt.at bs.length) bs bad

/-- A record leaves for the destination, unless it must wait or a write of it fails (R441). -/
def State.sendRecord (s : State) (bs : List Byte) (bad : List Bool) (after : Ckpt → Ckpt) : State :=
  let ns := s.ckpt.lines bs.length
  if s.dstDead ns then { s with ckpt := s.ckpt.failed }
  else
    match s.dstWait ns with
    | some s' => s'
    | none => let s := s.dstWrite ns bs bad; { s with ckpt := after s.ckpt }

/-- What the read of a page waits for; a page with a copy in the reserve is read there (R304, R440). -/
def State.pageWait (s : State) (pg : Nat) : Option State :=
  if s.ckpt.shadow.any (fun e => e.1 == pg) then none else s.rangeDemand .read (pg * 65536) 65536

/-- A page's lines have been read at their homes, and its CUT mark is cleared (R294, R440). -/
def State.pageTaken (s : State) (pg : Nat) : State :=
  if s.ckpt.shadow.any (fun e => e.1 == pg) then s else s.rangeArrive .read (pg * 65536) 65536

/-- The streamer sends the next page's record, or at the end the last one (R441). -/
def State.streamNext (s : State) : State :=
  match s.nextPage with
  | some pg =>
    match s.pageWait pg with
    | some s' => s'
    | none =>
      let (bs, bad) := s.pageRecord pg
      (s.pageTaken pg).sendRecord bs bad fun k =>
        { k with status := 2, next := pg + 1, sent := k.sent + 1, off := k.off + bs.length,
                 shadow := k.shadow.filter fun e => e.1 != pg }
  | none =>
    s.sendRecord (padTo 64 (leBytes 8 s.ckpt.sent ++ leBytes 8 s.ckpt.cutTime)) [] fun k =>
      { k with busy := false, status := 3, cut := false, shadow := [] }

/-- A step of the streamer; a write to the destination that fails ends the checkpoint (R441). -/
def State.streamPage (s : State) (ok : Bool) : State :=
  if !s.ckpt.busy ∨ s.ckpt.status = 0 then s
  else if !ok then { s with ckpt := s.ckpt.failed }
  else s.streamNext

def execStreamPage (ok : Bool) (s : State) : Out := .next (s.streamPage ok)

/-- A write of what only the root firmware may write (R442). What mode M writes there acts at the next reset, or on units that no rule gives
a behaviour, so that no step shows it. -/
def State.rootOnly (s : State) (mode : Mode) : State := if mode = .s then s.refuse else s

/-- A write of a register that has no step of its own (R7, R396, R421, R439, R442). -/
def State.writeRegister (s : State) (r : DevReg) (mode : Mode) (v : Word) : State :=
  match r with
  | .sqBase q => s.modQueue q fun x => x.setSqBase v
  | .cqBase q => s.modQueue q fun x => x.setCqBase v
  | .qSize q => s.modQueue q fun x => x.setSize v
  | .queuePage p q off n => s.pageWrite p q off n v
  | .qSqHead _ => s
  | .qCqTail _ => s
  | .ckptCtl => if privileged mode then s.writeCkptCtl mode v else s
  | .ckptDst => s.writeCkptDst mode v
  | .ras _ => s
  | .isolation => s.rootOnly mode
  | .ideKey => s.rootOnly mode
  | .repairTable => s.rootOnly mode
  | .other _ => s

def execRegisterWrite (r : DevReg) (mode : Mode) (v : Word) (s : State) : Out := .next (s.writeRegister r mode v)

end Sys2Proof.Machine
end

