-- ==== Sys2Proof/Machine/Sha.lean ====
section
/-! DEFINITION. SHA-256 over bytes, which R443 to R445 name (FIPS 180-4). -/

namespace Sys2Proof.Machine.Sha

abbrev W := BitVec 32

/-! ## Constants: fractional parts of roots of the first primes -/

/-- The greatest number, above r by less than 2^bits, whose k-th power is at most n. -/
def rootFrom (k n : Nat) (bits r : Nat) : Nat :=
  match bits with
  | 0 => r
  | b + 1 => rootFrom k n b (if (r + 2 ^ b) ^ k ≤ n then r + 2 ^ b else r)

/-- The first 32 bits of the fractional part of a k-th root of p. -/
def rootBits (k p : Nat) : W := BitVec.ofNat 32 (rootFrom k (p * 2 ^ (32 * k)) 37 0)

/-- The primes below 312, of which there are 64. -/
def primes : List Nat :=
  [2, 3, 5, 7, 11, 13, 17, 19] ++ [23, 29, 31, 37, 41, 43, 47, 53] ++ [59, 61, 67, 71, 73, 79, 83, 89]
  ++ [97, 101, 103, 107, 109, 113, 127, 131] ++ [137, 139, 149, 151, 157, 163, 167, 173]
  ++ [179, 181, 191, 193, 197, 199, 211, 223] ++ [227, 229, 233, 239, 241, 251, 257, 263]
  ++ [269, 271, 277, 281, 283, 293, 307, 311]

/-! ## Blocks -/

/-- The exclusive or of a word rotated right by some amounts. -/
def rots (x : W) (l : List Nat) : W := l.foldl (fun y n => y ^^^ x.rotateRight n) 0

/-- The chaining words, the first foremost: what a round works on and what a block leaves. -/
abbrev Chain := List W

/-- What every digest starts from: the square roots of the first eight primes. -/
def start : Chain := (primes.take 8).map (rootBits 2)

/-- One round of a chain: `kw` is its constant and its schedule word, added. -/
def round (h : Chain) (kw : W) : Chain :=
  let x := h.take 4
  let y := h.drop 4
  let pick := (y.getD 0 0 &&& y.getD 1 0) ||| (~~~(y.getD 0 0) &&& y.getD 2 0)
  let most := (x.getD 0 0 &&& (x.getD 1 0 ||| x.getD 2 0)) ||| (x.getD 1 0 &&& x.getD 2 0)
  let t := kw + y.getD 3 0 + pick + rots (y.getD 0 0) [6, 11, 25]
  (t + most + rots (x.getD 0 0) [2, 13, 22]) :: x.take 3 ++ (x.getD 3 0 + t) :: y.take 3

/-- The schedule word that follows a window of sixteen. -/
def nextWord (ws : List W) : W :=
  let old (n : Nat) : W := ws.getD (16 - n) 0
  let s (x : W) (a b c : Nat) : W := rots x [a, b] ^^^ (x >>> c)
  s (old 2) 17 19 10 + old 7 + s (old 15) 7 18 3 + old 16

/-- The rounds of a block, one for each prime left: the window holds the next sixteen schedule words. -/
def rounds (h : Chain) (ws : List W) (ps : List Nat) : Chain :=
  match ps with
  | [] => h
  | p :: ps => rounds (round h (rootBits 3 p + ws.headD 0)) (ws.tail ++ [nextWord ws]) ps

/-- A block taken into the chain. -/
def block (h : Chain) (ws : List W) : Chain := List.zipWith (· + ·) h (rounds h ws primes)

/-! ## Messages -/

/-- The words that bytes make, each four's first byte most significant. -/
def words (bs : List Byte) (n : Nat) : List W :=
  match n with
  | 0 => []
  | n + 1 => (bs.take 4).foldl (fun x b => (x <<< 8) ||| b.setWidth 32) 0 :: words (bs.drop 4) n

/-- `v` as n bytes, most significant first. -/
def beBytes (n v : Nat) : List Byte :=
  match n with
  | 0 => []
  | n + 1 => beBytes n (v / 256) ++ [BitVec.ofNat 8 v]

/-- A message with its padding: a one bit, zeros, and its length in bits. -/
def padded (bs : List Byte) : List Byte :=
  bs ++ (0x80 : Byte) :: List.replicate ((119 - bs.length % 64) % 64) 0 ++ beBytes 8 (8 * bs.length)

/-- n blocks of sixteen words taken in, one after another. -/
def blocks (h : Chain) (ws : List W) (n : Nat) : Chain :=
  match n with
  | 0 => h
  | n + 1 => blocks (block h (ws.take 16)) (ws.drop 16) n

/-- SHA-256 of bytes, the first byte of the digest most significant. -/
def digest (bs : List Byte) : BitVec 256 :=
  let p := padded bs
  (blocks start (words p (p.length / 4)) (p.length / 64)).foldl (fun d x => (d <<< 32) ||| x.setWidth 256) 0

/-- A digest's 32 bytes in order. -/
def bytes (d : BitVec 256) : List Byte := beBytes 32 d.toNat

end Sys2Proof.Machine.Sha
end

