-- ==== Sys2Proof/Machine/Firmware.lean ====
section
/-! DEFINITION. Firmware, bring-up and the module (R438, R442 to R448), and the change of the partition mode (R352). -/

namespace Sys2Proof.Machine

/-! ## Measurement -/

/-- A measurement register extended with a digest (R444). -/
def extended (x d : BitVec 256) : BitVec 256 := Sha.digest (Sha.bytes x ++ Sha.bytes d)

/-- Measurement register `k` extended with the digest of some bytes (R444). -/
def Firmware.measure (f : Firmware) (k : Fin 4) (bs : List Byte) : Firmware :=
  { f with meas := f.meas.set k (extended f.meas[k] (Sha.digest bs)) }

/-- The partition mode as the report gives it (R445). -/
def modeNumber (pm : PartMode) : Nat := partCount pm

/-- The cores that are retired. -/
def State.retiredCores (s : State) : List Nat := (List.finRange 1024).filterMap fun c => if s.cores[c].retired then some c.val else none

/-- MEAS.2 takes the configuration as it stands now (R444). -/
def State.measureConfig (s : State) : State :=
  { s with firmware := s.firmware.measure 2 (Config.configBytes (modeNumber s.pm) s.retiredCores s.firmware.repair s.firmware.fusedMin) }

/-! ## Images -/

/-- The header of an image, which carries its security version; that the version stands before the header's other bytes is a choice
of notes/assumptions 92 (R443). -/
def headerOf (img : FwImage) : List Byte := leBytes 2 img.version.toNat ++ img.header

/-- Whether an image is accepted: its signature over its header and parts, and its version (R443). -/
def Firmware.accepts (f : Firmware) (img : FwImage) : Bool :=
  Config.signatureOk (Sha.bytes (Sha.digest (headerOf img ++ img.root ++ img.sched))) img.sig
    && decide (f.fusedMin ≤ img.version.toNat)

/-- A refused image leaves the device in recovery, its scheduler part not running (R443). -/
def Firmware.recover (f : Firmware) : Firmware := { f with recovery := true, stopped := true }

/-- The scheduler part of an image is verified, measured and loaded (R443, R444). -/
def Firmware.loadScheduler (f : Firmware) (img : FwImage) : Firmware :=
  if f.accepts img then
    { f.measure 1 img.sched with image := some img, version := img.version.toNat, recovery := false, stopped := false }
  else f.recover

/-- Both parts are verified, measured and started (R443, R444, R446). -/
def Firmware.boot (f : Firmware) (img : FwImage) : Firmware :=
  if f.accepts img then (f.measure 0 img.root).loadScheduler img else f.recover

/-! ## Reset -/

/-- What a cold reset leaves of the package: host memory, the fuses, the repair table, the retired cores, and what the outside still brings
(R438, R443, R446). -/
def State.cold (s : State) : State :=
  let host (k : Nat) : Bool := decide (hostBase ≤ k) && decide (k < headBase)
  { State.reset with
    mem := s.mem.filter (fun c => host c.1)
    poison := s.poison.filter (fun g => host (32 * g))
    cores := s.cores.map (fun x => { retired := x.retired })
    firmware := { fusedMin := s.firmware.fusedMin, repair := s.firmware.repair }
    out := s.out
    inputs := s.inputs
    steps := s.steps
    rotor := s.rotor
    serial := s.serial
    hostDown := s.hostDown
    hostIo := s.hostIo
    ongeozDown := s.ongeozDown
    farDown := s.farDown }

/-- Bring-up from an image, or to recovery without one (R443, R446). -/
def State.bringUp (s : State) (img : Option FwImage) : State :=
  let s := s.cold.measureConfig
  match img with
  | some img => { s with firmware := s.firmware.boot img }
  | none => { s with firmware := s.firmware.recover }

/-- The image in flash: the one that is running, unless the device is in recovery. -/
def Firmware.stored (f : Firmware) : Option FwImage := if f.recovery then none else f.image

def execPowerGood (img : Option FwImage) (s : State) : Out :=
  .next (s.bringUp (match img with | some i => some i | none => s.firmware.stored))

def execModeMTrap (s : State) : Out := .next (s.bringUp s.firmware.stored)

/-- Every launch that has been bound ends CANCELLED; the scheduler part is reloaded from the image in flash, which is `img` where no
step has loaded one (R443, R447; notes/assumptions 4). While mode S does not run it cannot trap. -/
def State.modeSTrap (s : State) (img : FwImage) : State :=
  if s.firmware.stopped || s.firmware.recovery then s else
  let img := s.firmware.stored.getD img
  let s := (s.launches.filter fun l => l.phase != .due).foldl (fun s l => s.endLaunch l 3) s
  { s with firmware := { s.firmware with stopped := true }.loadScheduler img }

def execModeSTrap (img : FwImage) (s : State) : Out := .next (s.modeSTrap img)

/-- In recovery the host supplies an image: bring-up starts again from it, or, where the root part runs, the scheduler part is loaded
(R443, R446). -/
def State.supplyImage (s : State) (img : FwImage) : State :=
  if !s.firmware.recovery then s
  else if s.firmware.image.isNone then s.bringUp (some img)
  else { s with firmware := s.firmware.loadScheduler img }

def execImageSupply (img : FwImage) (s : State) : Out := .next (s.supplyImage img)

/-- The fused minimum rises to the version of the running image (R443), which is part of the configuration (R444). -/
def State.raiseMinimum (s : State) : State :=
  if s.firmware.fusedMin < s.firmware.version then
    { s with firmware := { s.firmware with fusedMin := s.firmware.version } }.measureConfig
  else s

def execFusedMinimumRaise (s : State) : Out := .next s.raiseMinimum

/-! ## Attestation -/

/-- The report of a nonce, without its signature (R445). -/
def State.reportBytes (s : State) (nonce : List Byte) : List Byte :=
  leBytes 8 Config.deviceSerial.toNat ++ leBytes 2 0x00B0 ++ leBytes 2 s.firmware.version ++ leBytes 4 s.firmware.refused
    ++ nonce ++ s.firmware.meas.toList.flatMap Sha.bytes ++ leBytes 8 s.stime ++ leBytes 1 (modeNumber s.pm)
    ++ List.replicate 7 0

/-- A request with a nonce of 32 bytes is answered by the root firmware, once it runs (R445). -/
def State.attest (s : State) (nonce : List Byte) : State :=
  if nonce.length ≠ 32 ∨ (s.firmware.recovery = true ∧ s.firmware.image.isNone = true) then s else
  let r := s.reportBytes nonce
  { s with out := .attestation (r ++ Config.sign r) :: s.out }

def execAttestationRequest (nonce : List Byte) (s : State) : Out := .next (s.attest nonce)

/-! ## Registers of the root firmware -/

/-- Whether a launch bound under a root is live, which locks the root (R442). -/
def State.rootLocked (s : State) (space p : Nat) : Bool :=
  s.launches.any fun l => l.space == space && l.part == p && l.phase != .due

/-- A space's translation root is set and measured, unless it is locked (R361, R442, R444). -/
def State.setRoot (s : State) (space p root : Nat) : State :=
  if root % 131072 ≠ 0 ∨ partCount s.pm ≤ p ∨ partSize s.pm < root + 131072 then s
  else if s.rootLocked space p then { s with firmware := { s.firmware with refused := s.firmware.refused + 1 } }
  else
    let f := s.firmware.measure 3 (Config.rootBytes space p root)
    { s with firmware := { f with roots := (space, p, root) :: f.roots.filter fun r => !(r.1 == space && r.2.1 == p) } }

def execTranslationRootSet (space p root : Nat) (s : State) : Out := .next (s.setRoot space p root)

def execCoreRetire (c : CoreId) (s : State) : Out :=
  .next (s.modCore c fun x => { x with retired := true }).measureConfig

/-- The partition mode changes while no launch is live: caches are written back, host lines to the host, the sower's tables and
the directories are reset, and device memory stays (R352). A root that its partition no longer holds goes. -/
def State.setMode (s : State) (pm : PartMode) : State :=
  if s.launches.all (·.phase != .live) then
    let s := s.dir.hosts.foldl (fun s p => s.returnHost p.1) s
    { s with
      pm, dir := {}, sower := {}, links := []
      firmware := { s.firmware with
        roots := s.firmware.roots.filter fun r => decide (r.2.1 < partCount pm) && decide (r.2.2 + 131072 ≤ partSize pm) }
      : State }.measureConfig
  else s

def execPartitionModeSet (pm : PartMode) (s : State) : Out := .next (s.setMode pm)

def execThermalTrip (s : State) : Out := .next { s with powered := false }

end Sys2Proof.Machine
end

