-- ==== Sys2Proof/Machine/Vector.lean ====
section
/-! DEFINITION. Vector instructions as a context issues them: what they capture and queue, and the checks of vector memory
instructions (R157 to R180). -/

namespace Sys2Proof.Machine

/-! ## Enqueueing -/

/-- The state of a broadcast source; a vector register is none of the scalar side's (R24, R165). -/
def State.vreg (s : State) (ty : Ty) (lit : Word) (x : VSrc) : Reg := vscalTy s.me ty lit x

/-- A source as it is captured (R157). -/
def State.varg (s : State) (ty : Ty) (lit : Word) (x : VSrc) : VArg :=
  match x with
  | .v n => .reg n
  | x => .val (s.vreg ty lit x).val

/-- A scalar operand as it is captured. -/
def State.vsarg (s : State) (lit : Word) (x : VScal) : VArg := .val (s.me.vscal lit x).val

/-- An entry joins the queue once its scalar operands have values and there is room (R157). -/
def State.venq (s : State) (o : VOp) (rs : List Reg) (len : Nat) : Res State := do
  s.need rs
  let t := s.me
  waitFor (decide (t.vq.length < 16))
  .ok ((s.modMe fun t => { t with vq := t.vq ++ [{ o with ftz := t.ftz, ovf8 := t.ovf8, pc := t.pc }] }).advance len)

/-- As `venq`, for a scalar result (R160). -/
def State.venqSym (s : State) (o : VOp) (rs : List Reg) (d : Dst) (len : Nat) : Res State := do
  s.need rs
  waitFor (decide (s.me.vq.length < 16))
  let (s, r) ← s.alloc
  (s.put d r.pure).venq { o with ref := some r } [] len

/-- An instruction of up to three vector or broadcast sources of one type. -/
def State.vec (s : State) (op : VecOp) (ty : Ty) (rnd : RMode) (mk : MaskSel) (dst : Nat) (x y z : VSrc) (lit : Word)
    (len : Nat) : Res State :=
  s.venq { op, ty, rnd, mask := mk, dst, x := s.varg ty lit x, y := s.varg ty lit y, z := s.varg ty lit z }
    [s.vreg ty lit x, s.vreg ty lit y, s.vreg ty lit z] len

/-- The fourth operand: A in the forms without D (R14), with a literal too, a choice of notes/assumptions 69. -/
def fourthV (f : Form) (d : Fin 16) (z : VSrc) : VSrc :=
  match f with
  | .l _ => .v d
  | _ => z

/-- The default types of R164. -/
def bitsTy (ty : Option Ty) : Ty := ty.getD .i32
def quantTy (ty : Option Ty) : Ty := ty.getD .e4m3

/-- The meaning of an arithmetic form (R166, R167). -/
def State.vfp (s : State) (op : VecOp) (ty : Option Ty) (rnd : Rnd) (mk : MaskSel) (d : Fin 16) (x y z : VSrc) (lit : Word)
    (len : Nat) : Res State :=
  s.vec op (fpTy ty) (s.me.mode' rnd) mk d.val x y z lit len

/-- The meaning of a form on bits (R172 to R174). -/
def State.vbits (s : State) (op : VecOp) (ty : Option Ty) (mk : MaskSel) (d : Fin 16) (x y : VSrc) (lit : Word)
    (len : Nat) : Res State :=
  s.vec op (bitsTy ty) .rne mk d.val x y .zero lit len

def execVadd (d : Fin 16) (x y : VSrc) (s : State) : Out := complete s (s.vfp .add none .dyn {} d x y .zero 0 4)

def execVaddX (f : Form) (ty : Option Ty) (rnd : Rnd) (mk : MaskSel) (d : Fin 16) (x y : VSrc) (s : State) : Out :=
  complete s (s.vfp .add ty rnd mk d x y .zero f.value (formBytes f))

def execVsub (d : Fin 16) (x y : VSrc) (s : State) : Out := complete s (s.vfp .sub none .dyn {} d x y .zero 0 4)

def execVsubX (f : Form) (ty : Option Ty) (rnd : Rnd) (mk : MaskSel) (d : Fin 16) (x y : VSrc) (s : State) : Out :=
  complete s (s.vfp .sub ty rnd mk d x y .zero f.value (formBytes f))

def execVmul (d : Fin 16) (x y : VSrc) (s : State) : Out := complete s (s.vfp .mul none .dyn {} d x y .zero 0 4)

def execVmulX (f : Form) (ty : Option Ty) (rnd : Rnd) (mk : MaskSel) (d : Fin 16) (x y : VSrc) (s : State) : Out :=
  complete s (s.vfp .mul ty rnd mk d x y .zero f.value (formBytes f))

def execVmin (d : Fin 16) (x y : VSrc) (s : State) : Out := complete s (s.vfp .min none .dyn {} d x y .zero 0 4)

def execVminX (f : Form) (ty : Option Ty) (rnd : Rnd) (mk : MaskSel) (d : Fin 16) (x y : VSrc) (s : State) : Out :=
  complete s (s.vfp .min ty rnd mk d x y .zero f.value (formBytes f))

def execVmax (d : Fin 16) (x y : VSrc) (s : State) : Out := complete s (s.vfp .max none .dyn {} d x y .zero 0 4)

def execVmaxX (f : Form) (ty : Option Ty) (rnd : Rnd) (mk : MaskSel) (d : Fin 16) (x y : VSrc) (s : State) : Out :=
  complete s (s.vfp .max ty rnd mk d x y .zero f.value (formBytes f))

def execVabs (d : Fin 16) (x : VSrc) (s : State) : Out := complete s (s.vfp .abs none .dyn {} d x .zero .zero 0 4)

def execVabsX (f : Form) (ty : Option Ty) (mk : MaskSel) (d : Fin 16) (x : VSrc) (s : State) : Out :=
  complete s (s.vfp .abs ty .dyn mk d x .zero .zero f.value (formBytes f))

def execVneg (d : Fin 16) (x : VSrc) (s : State) : Out := complete s (s.vfp .neg none .dyn {} d x .zero .zero 0 4)

def execVnegX (f : Form) (ty : Option Ty) (mk : MaskSel) (d : Fin 16) (x : VSrc) (s : State) : Out :=
  complete s (s.vfp .neg ty .dyn mk d x .zero .zero f.value (formBytes f))

def execVrcp (d : Fin 16) (x : VSrc) (s : State) : Out := complete s (s.vfp .rcp none .dyn {} d x .zero .zero 0 4)

def execVrcpX (f : Form) (ty : Option Ty) (rnd : Rnd) (mk : MaskSel) (d : Fin 16) (x : VSrc) (s : State) : Out :=
  complete s (s.vfp .rcp ty rnd mk d x .zero .zero f.value (formBytes f))

def execVrsq (d : Fin 16) (x : VSrc) (s : State) : Out := complete s (s.vfp .rsq none .dyn {} d x .zero .zero 0 4)

def execVrsqX (f : Form) (ty : Option Ty) (rnd : Rnd) (mk : MaskSel) (d : Fin 16) (x : VSrc) (s : State) : Out :=
  complete s (s.vfp .rsq ty rnd mk d x .zero .zero f.value (formBytes f))

def execVexp (d : Fin 16) (x : VSrc) (s : State) : Out := complete s (s.vfp .exp none .dyn {} d x .zero .zero 0 4)

def execVexpX (f : Form) (ty : Option Ty) (rnd : Rnd) (mk : MaskSel) (d : Fin 16) (x : VSrc) (s : State) : Out :=
  complete s (s.vfp .exp ty rnd mk d x .zero .zero f.value (formBytes f))

def execVlog (d : Fin 16) (x : VSrc) (s : State) : Out := complete s (s.vfp .log none .dyn {} d x .zero .zero 0 4)

def execVlogX (f : Form) (ty : Option Ty) (rnd : Rnd) (mk : MaskSel) (d : Fin 16) (x : VSrc) (s : State) : Out :=
  complete s (s.vfp .log ty rnd mk d x .zero .zero f.value (formBytes f))

def execVtanh (d : Fin 16) (x : VSrc) (s : State) : Out := complete s (s.vfp .tanh none .dyn {} d x .zero .zero 0 4)

def execVtanhX (f : Form) (ty : Option Ty) (rnd : Rnd) (mk : MaskSel) (d : Fin 16) (x : VSrc) (s : State) : Out :=
  complete s (s.vfp .tanh ty rnd mk d x .zero .zero f.value (formBytes f))

def execVfma (d : Fin 16) (x y : VSrc) (s : State) : Out := complete s (s.vfp .fma none .dyn {} d x y (.v d) 0 4)

def execVfmaX (f : Form) (ty : Option Ty) (rnd : Rnd) (mk : MaskSel) (d : Fin 16) (x y z : VSrc) (s : State) : Out :=
  complete s (s.vfp .fma ty rnd mk d x y (fourthV f d z) f.value (formBytes f))

/-! ## Conversions -/

def execVcvt (lit : Option Word) (dst src : Ty) (part : Fin 8) (rnd : Rnd) (mk : MaskSel) (d : Fin 16) (x : VSrc)
    (s : State) : Out :=
  complete s (s.venq { op := .cvt, ty := dst, src, part := part.val, rnd := s.me.cvtMode dst rnd, mask := mk, dst := d.val,
                       x := s.varg src (litVal lit) x } [s.vreg src (litVal lit) x] (litBytesX lit))

/-- `vquant`: both operands are FP32 (R169). -/
def State.vquantOp (s : State) (ty : Option Ty) (part : Nat) (rnd : Rnd) (mk : MaskSel) (d : Fin 16) (x y : VSrc)
    (lit : Word) (len : Nat) : Res State :=
  s.venq { op := .quant, ty := quantTy ty, part, rnd := s.me.cvtMode (quantTy ty) rnd, mask := mk, dst := d.val,
           x := s.varg .f32 lit x, y := s.varg .f32 lit y } [s.vreg .f32 lit x, s.vreg .f32 lit y] len

def execVquant (d : Fin 16) (x y : VSrc) (s : State) : Out := complete s (s.vquantOp none 0 .dyn {} d x y 0 4)

def execVquantX (f : Form) (ty : Option Ty) (part : Fin 4) (rnd : Rnd) (mk : MaskSel) (d : Fin 16) (x y : VSrc)
    (s : State) : Out :=
  complete s (s.vquantOp ty part.val rnd mk d x y f.value (formBytes f))

/-- `vdeq`: the first operand in the source format, the multiplier in FP32 (R170). -/
def State.vdeqOp (s : State) (ty : Option Ty) (part : Nat) (rnd : Rnd) (mk : MaskSel) (d : Fin 16) (x y : VSrc)
    (lit : Word) (len : Nat) : Res State :=
  s.venq { op := .deq, ty := quantTy ty, part, rnd := s.me.mode' rnd, mask := mk, dst := d.val,
           x := s.varg (quantTy ty) lit x, y := s.varg .f32 lit y } [s.vreg (quantTy ty) lit x, s.vreg .f32 lit y] len

def execVdeq (d : Fin 16) (x y : VSrc) (s : State) : Out := complete s (s.vdeqOp none 0 .dyn {} d x y 0 4)

def execVdeqX (f : Form) (ty : Option Ty) (part : Fin 4) (rnd : Rnd) (mk : MaskSel) (d : Fin 16) (x y : VSrc)
    (s : State) : Out :=
  complete s (s.vdeqOp ty part.val rnd mk d x y f.value (formBytes f))

/-! ## Compare and select -/

def execVcmp (cond : VCond) (d : Fin 8) (x y : VSrc) (s : State) : Out :=
  complete s (s.vec (.cmp cond) .f32 .rne {} d.val x y .zero 0 4)

def execVcmpX (f : Form) (cond : VCond) (ty : Option Ty) (mk : MaskSel) (d : Fin 8) (x y : VSrc) (s : State) : Out :=
  complete s (s.vec (.cmp cond) (fpTy ty) .rne mk d.val x y .zero f.value (formBytes f))

def execVsel (d : Fin 16) (m : Fin 8) (x : VSrc) (s : State) : Out :=
  complete s (s.vbits (.sel m) none {} d x (.v d) 0 4)

def execVselX (f : Form) (ty : Option Ty) (mk : MaskSel) (d : Fin 16) (m : Fin 8) (x y : VSrc) (s : State) : Out :=
  complete s (s.vbits (.sel m) ty mk d x (fourthV f d y) f.value (formBytes f))

/-! ## Logic and shifts -/

def execVand (d : Fin 16) (x y : VSrc) (s : State) : Out := complete s (s.vbits .and none {} d x y 0 4)

def execVandX (f : Form) (ty : Option Ty) (mk : MaskSel) (d : Fin 16) (x y : VSrc) (s : State) : Out :=
  complete s (s.vbits .and ty mk d x y f.value (formBytes f))

def execVor (d : Fin 16) (x y : VSrc) (s : State) : Out := complete s (s.vbits .or none {} d x y 0 4)

def execVorX (f : Form) (ty : Option Ty) (mk : MaskSel) (d : Fin 16) (x y : VSrc) (s : State) : Out :=
  complete s (s.vbits .or ty mk d x y f.value (formBytes f))

def execVxor (d : Fin 16) (x y : VSrc) (s : State) : Out := complete s (s.vbits .xor none {} d x y 0 4)

def execVxorX (f : Form) (ty : Option Ty) (mk : MaskSel) (d : Fin 16) (x y : VSrc) (s : State) : Out :=
  complete s (s.vbits .xor ty mk d x y f.value (formBytes f))

def execVshl (d : Fin 16) (x y : VSrc) (s : State) : Out := complete s (s.vbits .shl none {} d x y 0 4)

def execVshlX (f : Form) (ty : Option Ty) (mk : MaskSel) (d : Fin 16) (x y : VSrc) (s : State) : Out :=
  complete s (s.vbits .shl ty mk d x y f.value (formBytes f))

def execVshr (d : Fin 16) (x y : VSrc) (s : State) : Out := complete s (s.vbits .shr none {} d x y 0 4)

def execVshrX (f : Form) (ty : Option Ty) (mk : MaskSel) (d : Fin 16) (x y : VSrc) (s : State) : Out :=
  complete s (s.vbits .shr ty mk d x y f.value (formBytes f))

def execVsra (d : Fin 16) (x y : VSrc) (s : State) : Out := complete s (s.vbits .sra none {} d x y 0 4)

def execVsraX (f : Form) (ty : Option Ty) (mk : MaskSel) (d : Fin 16) (x y : VSrc) (s : State) : Out :=
  complete s (s.vbits .sra ty mk d x y f.value (formBytes f))

def execVnot (d : Fin 16) (x : VSrc) (s : State) : Out := complete s (s.vbits .not none {} d x .zero 0 4)

def execVnotX (f : Form) (ty : Option Ty) (mk : MaskSel) (d : Fin 16) (x : VSrc) (s : State) : Out :=
  complete s (s.vbits .not ty mk d x .zero f.value (formBytes f))

/-! ## Permute and move -/

def execVperm (d x y : Fin 16) (s : State) : Out := complete s (s.vbits .perm none {} d (.v x) (.v y) 0 4)

def execVpermX (ty : Option Ty) (mk : MaskSel) (d x y : Fin 16) (s : State) : Out :=
  complete s (s.vbits .perm ty mk d (.v x) (.v y) 0 12)

/-- `vbcast`: the index is a scalar (R174). -/
def State.vbcastOp (s : State) (ty : Option Ty) (mk : MaskSel) (d x : Fin 16) (k : VScal) (lit : Word) (len : Nat) : Res State :=
  s.venq { op := .bcast, ty := bitsTy ty, mask := mk, dst := d.val, x := .reg x, y := s.vsarg lit k } [s.me.vscal lit k] len

def execVbcast (d x : Fin 16) (k : VScal) (s : State) : Out := complete s (s.vbcastOp none {} d x k 0 4)

def execVbcastX (f : Form) (ty : Option Ty) (mk : MaskSel) (d x : Fin 16) (k : VScal) (s : State) : Out :=
  complete s (s.vbcastOp ty mk d x k f.value (formBytes f))

/-- Forms with two scalar operands: `vidx` and `vins` (R174). -/
def State.vscalars (s : State) (op : VecOp) (ty : Option Ty) (mk : MaskSel) (d : Fin 16) (x y : VScal) (lit : Word)
    (len : Nat) : Res State :=
  s.venq { op, ty := bitsTy ty, mask := mk, dst := d.val, x := s.vsarg lit x, y := s.vsarg lit y }
    [s.me.vscal lit x, s.me.vscal lit y] len

def execVidx (d : Fin 16) (x y : VScal) (s : State) : Out := complete s (s.vscalars .idx none {} d x y 0 4)

def execVidxX (f : Form) (ty : Option Ty) (mk : MaskSel) (d : Fin 16) (x y : VScal) (s : State) : Out :=
  complete s (s.vscalars .idx ty mk d x y f.value (formBytes f))

def execVmov (d : Fin 16) (x : VSrc) (s : State) : Out := complete s (s.vbits .mov none {} d x .zero 0 4)

def execVmovX (f : Form) (ty : Option Ty) (mk : MaskSel) (d : Fin 16) (x : VSrc) (s : State) : Out :=
  complete s (s.vbits .mov ty mk d x .zero f.value (formBytes f))

def execVins (d : Fin 16) (x k : VScal) (s : State) : Out := complete s (s.vscalars .ins none {} d x k 0 4)

def execVinsX (f : Form) (ty : Option Ty) (d : Fin 16) (x k : VScal) (s : State) : Out :=
  complete s (s.vscalars .ins ty {} d x k f.value (formBytes f))

/-- `vext` (R174). -/
def State.vextOp (s : State) (ty : Option Ty) (d : Dst) (x : Fin 16) (k : VScal) (lit : Word) (len : Nat) : Res State :=
  s.venqSym { op := .ext, ty := bitsTy ty, x := .reg x, y := s.vsarg lit k } [s.me.vscal lit k] d len

def execVext (d : Dst) (x : Fin 16) (k : VScal) (s : State) : Out := complete s (s.vextOp none d x k 0 4)

def execVextX (f : Form) (ty : Option Ty) (d : Dst) (x : Fin 16) (k : VScal) (s : State) : Out :=
  complete s (s.vextOp ty d x k f.value (formBytes f))

/-! ## Reductions and scans -/

/-- The default type of a reduction (R164). -/
def vredTy (op : VredOp) (ty : Option Ty) : Ty :=
  match op with
  | .add | .min | .max => fpTy ty
  | .and | .or | .xor => bitsTy ty

def State.vredOp (s : State) (op : VredOp) (ty : Option Ty) (rnd : Rnd) (mk : MaskSel) (d : Dst) (x : Fin 16) (len : Nat) :
    Res State :=
  s.venqSym { op := .red op, ty := vredTy op ty, rnd := s.me.mode' rnd, mask := mk, x := .reg x } [] d len

def execVred (op : VredOp) (d : Dst) (x : Fin 16) (s : State) : Out := complete s (s.vredOp op none .dyn {} d x 4)

def execVredX (ty : Option Ty) (rnd : Rnd) (mk : MaskSel) (op : VredOp) (d : Dst) (x : Fin 16) (s : State) : Out :=
  complete s (s.vredOp op ty rnd mk d x 12)

def execVscan (op : VscanOp) (d x : Fin 16) (s : State) : Out :=
  complete s (s.vfp (.scan op) none .dyn {} d (.v x) .zero .zero 0 4)

def execVscanX (ty : Option Ty) (rnd : Rnd) (mk : MaskSel) (op : VscanOp) (d x : Fin 16) (s : State) : Out :=
  complete s (s.vfp (.scan op) ty rnd mk d (.v x) .zero .zero 0 12)

/-! ## Masks -/

/-- A mask instruction on two masks (R180). -/
def State.vmask (s : State) (op : VecOp) (d x y : Fin 8) : Res State :=
  s.venq { op, ty := .i32, dst := d.val, x := .reg (Fin.ofNat 16 x.val), y := .reg (Fin.ofNat 16 y.val) } [] 4

def execMand (d x y : Fin 8) (s : State) : Out := complete s (s.vmask .mand d x y)

def execMor (d x y : Fin 8) (s : State) : Out := complete s (s.vmask .mor d x y)

def execMxor (d x y : Fin 8) (s : State) : Out := complete s (s.vmask .mxor d x y)

def execMnot (d x : Fin 8) (s : State) : Out := complete s (s.vmask .mnot d x 0)

/-- `mpop`: TYPE 0 counts bits (R180). -/
def State.mpopOp (s : State) (ty : Option Ty) (d : Dst) (x : Fin 8) (len : Nat) : Res State :=
  s.venqSym { op := .mpop, ty := bitsTy ty, bits := ty.isNone, x := .reg (Fin.ofNat 16 x.val) } [] d len

def execMpop (d : Dst) (x : Fin 8) (s : State) : Out := complete s (s.mpopOp none d x 4)

def execMpopX (ty : Option Ty) (d : Dst) (x : Fin 8) (s : State) : Out := complete s (s.mpopOp ty d x 12)

/-! ## Memory -/

/-- The address of element i of `vld` and `vst` (R177), or of `vgth` and `vsct` with an index vector (R178). -/
def State.vaddr (s : State) (ea : Word) (idx : Option (Fin 16)) (ty : Ty) (sh i : Nat) : Word :=
  match idx with
  | none => ea + word (i * ty.bytes)
  | some x => ea + (extend ty (vget (s.me.v.get x) ty.bytes i) <<< sh)

/-- The checks of one element, orders 1 to 8 (R127, R161). -/
def State.vcheck (s : State) (k : AKind) (w : Win) (e : Nat) (i : Nat) (a : Word) : Res VPlace := do
  let acc ← s.precise (s.resolve k w a e e)
  .ok { elem := i, acc, addr := a }

/-- What a checked vector memory instruction still waits for: bound ranges, and parked stores to its bytes (R177, R179). -/
def State.vgate (s : State) (w : Win) (e : Nat) (ps : List VPlace) : Res Unit := do
  let _ ← ps.foldlM (fun _ p => s.touchGate w p.addr e) ()
  waitFor (!(w == .glob && ps.any fun p => s.me.parkedOn p.addr e))

/-- A vector load of bytes that a parked store writes blocks, whether or not their page is present (R130, R179). -/
def State.vpark (s : State) (k : AKind) (w : Win) (e : Nat) (a : Word) : Res Unit :=
  if k == .vload then s.parkGate w a e e else .ok ()

/-- A checked vector memory instruction joins the queue. On a TAGGED page its transfer takes place in the same step, in its turn of the
vector unit, so that the tags it was checked against are those current when the data is read or written (R158, R161, R371). -/
def State.vstart (s : State) (o : VOp) (len : Nat) : Res State :=
  if o.places.any (·.acc.tagged) then
    match o.places.findSome? fun p => s.demand (.ofCore s.cur) p.acc o.op.req with
    | some s' => s.await s'
    | none =>
      if s.myCore.vturn s.slot then
        (s.venq o [] len).map fun t => (t.modCore t.cur fun x => { x with lastVec := t.slot }).vserve
      else .error (.hold s .vturn)
  else s.venq o [] len

/-- A vector memory instruction (R161, R177, R178). -/
def State.vmem (s : State) (op : VecOp) (w : Win) (ty : Option Ty) (mk : MaskSel) (d : Fin 16) (base : VScal)
    (idx : VScal) (vx : Option (Fin 16)) (sh : Nat) (imm : BitVec 24) (lit : Word) (len : Nat) : Res State := do
  let rb := s.me.vscal lit base
  let ri := s.me.vscal lit idx
  s.need [rb, ri]
  s.accessGate
  waitFor s.me.vq.isEmpty
  let t := bitsTy ty
  let e := t.bytes
  let k : AKind := if op.stores then .vstore else .vload
  let ea := Machine.ea3 rb.val ri.val imm
  let on := (List.range (128 / e)).filter fun i => s.me.active mk e i
  let ps ← on.foldlM (fun l i => do
    s.vpark k w e (s.vaddr ea vx t sh i)
    let p ← s.vcheck k w e i (s.vaddr ea vx t sh i)
    .ok (l ++ [p])) []
  s.vgate w e ps
  s.vstart { op, ty := t, mask := mk, dst := d.val, x := .reg d, places := ps } len

def execVld (d : Fin 16) (base idx : VScal) (s : State) : Out :=
  complete s (s.vmem .ld .glob none {} d base idx none 0 0 0 4)

def execVldX (f : Form) (w : Win) (ty : Option Ty) (imm : BitVec 24) (_ef : Bool) (mk : MaskSel) (d : Fin 16)
    (base idx : VScal) (s : State) : Out :=
  complete s (s.vmem .ld w ty mk d base idx none 0 imm f.value (formBytes f))

def execVst (d : Fin 16) (base idx : VScal) (s : State) : Out :=
  complete s (s.vmem .st .glob none {} d base idx none 0 0 0 4)

def execVstX (f : Form) (w : Win) (ty : Option Ty) (imm : BitVec 24) (_ef : Bool) (mk : MaskSel) (d : Fin 16)
    (base idx : VScal) (s : State) : Out :=
  complete s (s.vmem .st w ty mk d base idx none 0 imm f.value (formBytes f))

def execVgth (d : Fin 16) (base : VScal) (x : Fin 16) (s : State) : Out :=
  complete s (s.vmem .gth .glob none {} d base .zero (some x) 0 0 0 4)

def execVgthX (f : Form) (w : Win) (ty : Option Ty) (imm : BitVec 24) (sh : BitVec 2) (_ef : Bool) (mk : MaskSel)
    (d : Fin 16) (base : VScal) (x : Fin 16) (s : State) : Out :=
  complete s (s.vmem .gth w ty mk d base .zero (some x) sh.toNat imm f.value (formBytes f))

def execVsct (d : Fin 16) (base : VScal) (x : Fin 16) (s : State) : Out :=
  complete s (s.vmem .sct .glob none {} d base .zero (some x) 0 0 0 4)

def execVsctX (f : Form) (w : Win) (ty : Option Ty) (imm : BitVec 24) (sh : BitVec 2) (_ef : Bool) (mk : MaskSel)
    (d : Fin 16) (base : VScal) (x : Fin 16) (s : State) : Out :=
  complete s (s.vmem .sct w ty mk d base .zero (some x) sh.toNat imm f.value (formBytes f))

end Sys2Proof.Machine
end

