-- ==== Sys2Proof/Machine/Dispatch.lean ====
section
/-! DEFINITION. What each step of the part does: one arm per constructor, each one direct call. -/

namespace Sys2Proof.Machine

/-- One step of the part. -/
def exec (i : Instr) (s : State) : Host.Outcome State Fault Refusal :=
  match i with
  | .trapz => Sys2Proof.Machine.execTrapz s
  | .add d x y => Sys2Proof.Machine.execAdd d x y s
  | .addX f ty d x y => Sys2Proof.Machine.execAddX f ty d x y s
  | .sub d x y => Sys2Proof.Machine.execSub d x y s
  | .subX f ty d x y => Sys2Proof.Machine.execSubX f ty d x y s
  | .neg d x => Sys2Proof.Machine.execNeg d x s
  | .negX f ty d x => Sys2Proof.Machine.execNegX f ty d x s
  | .abs d x => Sys2Proof.Machine.execAbs d x s
  | .absX f ty d x => Sys2Proof.Machine.execAbsX f ty d x s
  | .min d x y => Sys2Proof.Machine.execMin d x y s
  | .minX f ty d x y => Sys2Proof.Machine.execMinX f ty d x y s
  | .minz d x y => Sys2Proof.Machine.execMinz d x y s
  | .minzX f ty d x y => Sys2Proof.Machine.execMinzX f ty d x y s
  | .max d x y => Sys2Proof.Machine.execMax d x y s
  | .maxX f ty d x y => Sys2Proof.Machine.execMaxX f ty d x y s
  | .maxz d x y => Sys2Proof.Machine.execMaxz d x y s
  | .maxzX f ty d x y => Sys2Proof.Machine.execMaxzX f ty d x y s
  | .lea d x y => Sys2Proof.Machine.execLea d x y s
  | .leaX f d x y sh imm => Sys2Proof.Machine.execLeaX f d x y sh imm s
  | .mul d x y => Sys2Proof.Machine.execMul d x y s
  | .mulX f ty d x y => Sys2Proof.Machine.execMulX f ty d x y s
  | .mulh d x y => Sys2Proof.Machine.execMulh d x y s
  | .mulhX f ty d x y => Sys2Proof.Machine.execMulhX f ty d x y s
  | .mulhz d x y => Sys2Proof.Machine.execMulhz d x y s
  | .mulhzX f ty d x y => Sys2Proof.Machine.execMulhzX f ty d x y s
  | .div d x y => Sys2Proof.Machine.execDiv d x y s
  | .divX f ty d x y => Sys2Proof.Machine.execDivX f ty d x y s
  | .divz d x y => Sys2Proof.Machine.execDivz d x y s
  | .divzX f ty d x y => Sys2Proof.Machine.execDivzX f ty d x y s
  | .rem d x y => Sys2Proof.Machine.execRem d x y s
  | .remX f ty d x y => Sys2Proof.Machine.execRemX f ty d x y s
  | .remz d x y => Sys2Proof.Machine.execRemz d x y s
  | .remzX f ty d x y => Sys2Proof.Machine.execRemzX f ty d x y s
  | .and d x y => Sys2Proof.Machine.execAnd d x y s
  | .andX f ty d x y => Sys2Proof.Machine.execAndX f ty d x y s
  | .or d x y => Sys2Proof.Machine.execOr d x y s
  | .orX f ty d x y => Sys2Proof.Machine.execOrX f ty d x y s
  | .xor d x y => Sys2Proof.Machine.execXor d x y s
  | .xorX f ty d x y => Sys2Proof.Machine.execXorX f ty d x y s
  | .andn d x y => Sys2Proof.Machine.execAndn d x y s
  | .andnX f ty d x y => Sys2Proof.Machine.execAndnX f ty d x y s
  | .not d x => Sys2Proof.Machine.execNot d x s
  | .notX f ty d x => Sys2Proof.Machine.execNotX f ty d x s
  | .shl d x y => Sys2Proof.Machine.execShl d x y s
  | .shlX f ty d x y => Sys2Proof.Machine.execShlX f ty d x y s
  | .shr d x y => Sys2Proof.Machine.execShr d x y s
  | .shrX f ty d x y => Sys2Proof.Machine.execShrX f ty d x y s
  | .sra d x y => Sys2Proof.Machine.execSra d x y s
  | .sraX f ty d x y => Sys2Proof.Machine.execSraX f ty d x y s
  | .rotl d x y => Sys2Proof.Machine.execRotl d x y s
  | .rotlX f ty d x y => Sys2Proof.Machine.execRotlX f ty d x y s
  | .clz d x => Sys2Proof.Machine.execClz d x s
  | .clzX f ty d x => Sys2Proof.Machine.execClzX f ty d x s
  | .ctz d x => Sys2Proof.Machine.execCtz d x s
  | .ctzX f ty d x => Sys2Proof.Machine.execCtzX f ty d x s
  | .popc d x => Sys2Proof.Machine.execPopc d x s
  | .popcX f ty d x => Sys2Proof.Machine.execPopcX f ty d x s
  | .bext d x y => Sys2Proof.Machine.execBext d x y s
  | .bextX f d x y => Sys2Proof.Machine.execBextX f d x y s
  | .bins d x y => Sys2Proof.Machine.execBins d x y s
  | .binsX f d x y z => Sys2Proof.Machine.execBinsX f d x y z s
  | .sext d x y => Sys2Proof.Machine.execSext d x y s
  | .sextX f d x y => Sys2Proof.Machine.execSextX f d x y s
  | .zext d x y => Sys2Proof.Machine.execZext d x y s
  | .zextX f d x y => Sys2Proof.Machine.execZextX f d x y s
  | .cmp cond d x y => Sys2Proof.Machine.execCmp cond d x y s
  | .cmpX f cond ty d x y => Sys2Proof.Machine.execCmpX f cond ty d x y s
  | .sel d x y => Sys2Proof.Machine.execSel d x y s
  | .selX f d x y z => Sys2Proof.Machine.execSelX f d x y z s
  | .mov d x => Sys2Proof.Machine.execMov d x s
  | .movX f ty d x => Sys2Proof.Machine.execMovX f ty d x s
  | .movl long d v => Sys2Proof.Machine.execMovl long d v s
  | .fadd d x y => Sys2Proof.Machine.execFadd d x y s
  | .faddX f ty rnd fa d x y => Sys2Proof.Machine.execFaddX f ty rnd fa d x y s
  | .fsub d x y => Sys2Proof.Machine.execFsub d x y s
  | .fsubX f ty rnd fa d x y => Sys2Proof.Machine.execFsubX f ty rnd fa d x y s
  | .fmul d x y => Sys2Proof.Machine.execFmul d x y s
  | .fmulX f ty rnd fa d x y => Sys2Proof.Machine.execFmulX f ty rnd fa d x y s
  | .fma d x y => Sys2Proof.Machine.execFma d x y s
  | .fmaX f ty rnd fa d x y z => Sys2Proof.Machine.execFmaX f ty rnd fa d x y z s
  | .fdiv d x y => Sys2Proof.Machine.execFdiv d x y s
  | .fdivX f ty rnd d x y => Sys2Proof.Machine.execFdivX f ty rnd d x y s
  | .fsqrt d x => Sys2Proof.Machine.execFsqrt d x s
  | .fsqrtX f ty rnd d x => Sys2Proof.Machine.execFsqrtX f ty rnd d x s
  | .fmin d x y => Sys2Proof.Machine.execFmin d x y s
  | .fminX f ty d x y => Sys2Proof.Machine.execFminX f ty d x y s
  | .fmax d x y => Sys2Proof.Machine.execFmax d x y s
  | .fmaxX f ty d x y => Sys2Proof.Machine.execFmaxX f ty d x y s
  | .fabs d x => Sys2Proof.Machine.execFabs d x s
  | .fabsX f ty d x => Sys2Proof.Machine.execFabsX f ty d x s
  | .fneg d x => Sys2Proof.Machine.execFneg d x s
  | .fnegX f ty d x => Sys2Proof.Machine.execFnegX f ty d x s
  | .fcmp cond d x y => Sys2Proof.Machine.execFcmp cond d x y s
  | .fcmpX f cond ty d x y => Sys2Proof.Machine.execFcmpX f cond ty d x y s
  | .fcvt lit dst src rnd d x => Sys2Proof.Machine.execFcvt lit dst src rnd d x s
  | .fcls d x => Sys2Proof.Machine.execFcls d x s
  | .fclsX f ty d x => Sys2Proof.Machine.execFclsX f ty d x s
  | .symt d sym => Sys2Proof.Machine.execSymt d sym s
  | .symtX d sym => Sys2Proof.Machine.execSymtX d sym s
  | .symw d sym => Sys2Proof.Machine.execSymw d sym s
  | .symwX d sym => Sys2Proof.Machine.execSymwX d sym s
  | .symx d sym => Sys2Proof.Machine.execSymx d sym s
  | .symxX d sym => Sys2Proof.Machine.execSymxX d sym s
  | .br off => Sys2Proof.Machine.execBr off s
  | .brX imm => Sys2Proof.Machine.execBrX imm s
  | .bcmp lit cond ty x y imm => Sys2Proof.Machine.execBcmp lit cond ty x y imm s
  | .call off => Sys2Proof.Machine.execCall off s
  | .callX imm => Sys2Proof.Machine.execCallX imm s
  | .ret => Sys2Proof.Machine.execRet s
  | .jtb lit tbl idx len imm label => Sys2Proof.Machine.execJtb lit tbl idx len imm label s
  | .jtc lit tbl idx len imm label => Sys2Proof.Machine.execJtc lit tbl idx len imm label s
  | .land label => Sys2Proof.Machine.execLand label s
  | .loop x off => Sys2Proof.Machine.execLoop x off s
  | .loopX x imm => Sys2Proof.Machine.execLoopX x imm s
  | .spillw => Sys2Proof.Machine.execSpillw s
  | .fillw => Sys2Proof.Machine.execFillw s
  | .hret => Sys2Proof.Machine.execHret s
  | .realign lit dist => Sys2Proof.Machine.execRealign lit dist s
  | .nop => Sys2Proof.Machine.execNop s
  | .nopX => Sys2Proof.Machine.execNopX s
  | .fin => Sys2Proof.Machine.execFin s
  | .start d imm => Sys2Proof.Machine.execStart d imm s
  | .join d base => Sys2Proof.Machine.execJoin d base s
  | .joinX f d base imm => Sys2Proof.Machine.execJoinX f d base imm s
  | .yield => Sys2Proof.Machine.execYield s
  | .wait d base v => Sys2Proof.Machine.execWait d base v s
  | .waitX f sc win ty d base v imm => Sys2Proof.Machine.execWaitX f sc win ty d base v imm s
  | .ld t d base idx => Sys2Proof.Machine.execLd t d base idx s
  | .ldX f t win imm ef d base idx => Sys2Proof.Machine.execLdX f t win imm ef d base idx s
  | .st t v base idx => Sys2Proof.Machine.execSt t v base idx s
  | .stX f t win imm ef v base idx => Sys2Proof.Machine.execStX f t win imm ef v base idx s
  | .ldd t d base idx => Sys2Proof.Machine.execLdd t d base idx s
  | .lddX f t win imm ef d base idx => Sys2Proof.Machine.execLddX f t win imm ef d base idx s
  | .ldacq lit t sc win imm ef d base idx => Sys2Proof.Machine.execLdacq lit t sc win imm ef d base idx s
  | .strel lit t sc win imm v base idx => Sys2Proof.Machine.execStrel lit t sc win imm v base idx s
  | .lld t d base idx => Sys2Proof.Machine.execLld t d base idx s
  | .lldX f t win imm d base idx => Sys2Proof.Machine.execLldX f t win imm d base idx s
  | .lst lit t win imm v base idx res => Sys2Proof.Machine.execLst lit t win imm v base idx res s
  | .ldb t d base idx => Sys2Proof.Machine.execLdb t d base idx s
  | .ldbX f t imm ef d base idx => Sys2Proof.Machine.execLdbX f t imm ef d base idx s
  | .stb t v base idx => Sys2Proof.Machine.execStb t v base idx s
  | .stbX f t imm ef v base idx => Sys2Proof.Machine.execStbX f t imm ef v base idx s
  | .stsig lit sc win ty addf imm v base flag sig => Sys2Proof.Machine.execStsig lit sc win ty addf imm v base flag sig s
  | .stg tag base => Sys2Proof.Machine.execStg tag base s
  | .stgX f n imm tag base => Sys2Proof.Machine.execStgX f n imm tag base s
  | .ldg d base => Sys2Proof.Machine.execLdg d base s
  | .ldgX f imm d base => Sys2Proof.Machine.execLdgX f imm d base s
  | .cbwaitF lit d h n => Sys2Proof.Machine.execCbwaitF lit d h n s
  | .cbwaitE lit d h n => Sys2Proof.Machine.execCbwaitE lit d h n s
  | .cbadvF lit h n => Sys2Proof.Machine.execCbadvF lit h n s
  | .cbadvE lit h n => Sys2Proof.Machine.execCbadvE lit h n s
  | .publ lit sc pair buf => Sys2Proof.Machine.execPubl lit sc pair buf s
  | .tdecl base shape => Sys2Proof.Machine.execTdecl base shape s
  | .tdeclX f imm base shape => Sys2Proof.Machine.execTdeclX f imm base shape s
  | .tfree base => Sys2Proof.Machine.execTfree base s
  | .tfreeX f imm base => Sys2Proof.Machine.execTfreeX f imm base s
  | .tfwd base rank => Sys2Proof.Machine.execTfwd base rank s
  | .tfwdX f imm base rank => Sys2Proof.Machine.execTfwdX f imm base rank s
  | .pref base idx => Sys2Proof.Machine.execPref base idx s
  | .prefX f l2 imm base idx => Sys2Proof.Machine.execPrefX f l2 imm base idx s
  | .evict base idx => Sys2Proof.Machine.execEvict base idx s
  | .evictX f imm base idx => Sys2Proof.Machine.execEvictX f imm base idx s
  | .pin lit ways d base len => Sys2Proof.Machine.execPin lit ways d base len s
  | .unpin lit idx => Sys2Proof.Machine.execUnpin lit idx s
  | .barinit base n => Sys2Proof.Machine.execBarinit base n s
  | .barinitX f sc win imm base n => Sys2Proof.Machine.execBarinitX f sc win imm base n s
  | .barexp base n => Sys2Proof.Machine.execBarexp base n s
  | .barexpX f win imm base n => Sys2Proof.Machine.execBarexpX f win imm base n s
  | .bararr d base n => Sys2Proof.Machine.execBararr d base n s
  | .bararrX f sc win imm d base n => Sys2Proof.Machine.execBararrX f sc win imm d base n s
  | .barwait d base n => Sys2Proof.Machine.execBarwait d base n s
  | .barwaitX f sc win chk imm d base n => Sys2Proof.Machine.execBarwaitX f sc win chk imm d base n s
  | .atom op d base v => Sys2Proof.Machine.execAtom op d base v s
  | .atomX f op sc ord win ty imm d base v e => Sys2Proof.Machine.execAtomX f op sc ord win ty imm d base v e s
  | .red op base v => Sys2Proof.Machine.execRed op base v s
  | .redX f op sc rel win ty imm base v => Sys2Proof.Machine.execRedX f op sc rel win ty imm base v s
  | .fence sc ord => Sys2Proof.Machine.execFence sc ord s
  | .isync => Sys2Proof.Machine.execIsync s
  | .vadd d x y => Sys2Proof.Machine.execVadd d x y s
  | .vaddX f ty rnd mk d x y => Sys2Proof.Machine.execVaddX f ty rnd mk d x y s
  | .vsub d x y => Sys2Proof.Machine.execVsub d x y s
  | .vsubX f ty rnd mk d x y => Sys2Proof.Machine.execVsubX f ty rnd mk d x y s
  | .vmul d x y => Sys2Proof.Machine.execVmul d x y s
  | .vmulX f ty rnd mk d x y => Sys2Proof.Machine.execVmulX f ty rnd mk d x y s
  | .vfma d x y => Sys2Proof.Machine.execVfma d x y s
  | .vfmaX f ty rnd mk d x y z => Sys2Proof.Machine.execVfmaX f ty rnd mk d x y z s
  | .vmin d x y => Sys2Proof.Machine.execVmin d x y s
  | .vminX f ty rnd mk d x y => Sys2Proof.Machine.execVminX f ty rnd mk d x y s
  | .vmax d x y => Sys2Proof.Machine.execVmax d x y s
  | .vmaxX f ty rnd mk d x y => Sys2Proof.Machine.execVmaxX f ty rnd mk d x y s
  | .vabs d x => Sys2Proof.Machine.execVabs d x s
  | .vabsX f ty mk d x => Sys2Proof.Machine.execVabsX f ty mk d x s
  | .vneg d x => Sys2Proof.Machine.execVneg d x s
  | .vnegX f ty mk d x => Sys2Proof.Machine.execVnegX f ty mk d x s
  | .vrcp d x => Sys2Proof.Machine.execVrcp d x s
  | .vrcpX f ty rnd mk d x => Sys2Proof.Machine.execVrcpX f ty rnd mk d x s
  | .vrsq d x => Sys2Proof.Machine.execVrsq d x s
  | .vrsqX f ty rnd mk d x => Sys2Proof.Machine.execVrsqX f ty rnd mk d x s
  | .vexp d x => Sys2Proof.Machine.execVexp d x s
  | .vexpX f ty rnd mk d x => Sys2Proof.Machine.execVexpX f ty rnd mk d x s
  | .vlog d x => Sys2Proof.Machine.execVlog d x s
  | .vlogX f ty rnd mk d x => Sys2Proof.Machine.execVlogX f ty rnd mk d x s
  | .vtanh d x => Sys2Proof.Machine.execVtanh d x s
  | .vtanhX f ty rnd mk d x => Sys2Proof.Machine.execVtanhX f ty rnd mk d x s
  | .vcvt lit dst src part rnd mk d x => Sys2Proof.Machine.execVcvt lit dst src part rnd mk d x s
  | .vquant d x y => Sys2Proof.Machine.execVquant d x y s
  | .vquantX f ty part rnd mk d x y => Sys2Proof.Machine.execVquantX f ty part rnd mk d x y s
  | .vdeq d x y => Sys2Proof.Machine.execVdeq d x y s
  | .vdeqX f ty part rnd mk d x y => Sys2Proof.Machine.execVdeqX f ty part rnd mk d x y s
  | .vcmp cond d x y => Sys2Proof.Machine.execVcmp cond d x y s
  | .vcmpX f cond ty mk d x y => Sys2Proof.Machine.execVcmpX f cond ty mk d x y s
  | .vsel d m x => Sys2Proof.Machine.execVsel d m x s
  | .vselX f ty mk d m x y => Sys2Proof.Machine.execVselX f ty mk d m x y s
  | .vand d x y => Sys2Proof.Machine.execVand d x y s
  | .vandX f ty mk d x y => Sys2Proof.Machine.execVandX f ty mk d x y s
  | .vor d x y => Sys2Proof.Machine.execVor d x y s
  | .vorX f ty mk d x y => Sys2Proof.Machine.execVorX f ty mk d x y s
  | .vxor d x y => Sys2Proof.Machine.execVxor d x y s
  | .vxorX f ty mk d x y => Sys2Proof.Machine.execVxorX f ty mk d x y s
  | .vnot d x => Sys2Proof.Machine.execVnot d x s
  | .vnotX f ty mk d x => Sys2Proof.Machine.execVnotX f ty mk d x s
  | .vshl d x y => Sys2Proof.Machine.execVshl d x y s
  | .vshlX f ty mk d x y => Sys2Proof.Machine.execVshlX f ty mk d x y s
  | .vshr d x y => Sys2Proof.Machine.execVshr d x y s
  | .vshrX f ty mk d x y => Sys2Proof.Machine.execVshrX f ty mk d x y s
  | .vsra d x y => Sys2Proof.Machine.execVsra d x y s
  | .vsraX f ty mk d x y => Sys2Proof.Machine.execVsraX f ty mk d x y s
  | .vperm d x y => Sys2Proof.Machine.execVperm d x y s
  | .vpermX ty mk d x y => Sys2Proof.Machine.execVpermX ty mk d x y s
  | .vbcast d x k => Sys2Proof.Machine.execVbcast d x k s
  | .vbcastX f ty mk d x k => Sys2Proof.Machine.execVbcastX f ty mk d x k s
  | .vidx d x y => Sys2Proof.Machine.execVidx d x y s
  | .vidxX f ty mk d x y => Sys2Proof.Machine.execVidxX f ty mk d x y s
  | .vmov d x => Sys2Proof.Machine.execVmov d x s
  | .vmovX f ty mk d x => Sys2Proof.Machine.execVmovX f ty mk d x s
  | .vins d x k => Sys2Proof.Machine.execVins d x k s
  | .vinsX f ty d x k => Sys2Proof.Machine.execVinsX f ty d x k s
  | .vext d x k => Sys2Proof.Machine.execVext d x k s
  | .vextX f ty d x k => Sys2Proof.Machine.execVextX f ty d x k s
  | .vred op d x => Sys2Proof.Machine.execVred op d x s
  | .vredX ty rnd mk op d x => Sys2Proof.Machine.execVredX ty rnd mk op d x s
  | .vscan op d x => Sys2Proof.Machine.execVscan op d x s
  | .vscanX ty rnd mk op d x => Sys2Proof.Machine.execVscanX ty rnd mk op d x s
  | .vld d base idx => Sys2Proof.Machine.execVld d base idx s
  | .vldX f win ty imm ef mk d base idx => Sys2Proof.Machine.execVldX f win ty imm ef mk d base idx s
  | .vst d base idx => Sys2Proof.Machine.execVst d base idx s
  | .vstX f win ty imm ef mk d base idx => Sys2Proof.Machine.execVstX f win ty imm ef mk d base idx s
  | .vgth d base x => Sys2Proof.Machine.execVgth d base x s
  | .vgthX f win ty imm sh ef mk d base x => Sys2Proof.Machine.execVgthX f win ty imm sh ef mk d base x s
  | .vsct d base x => Sys2Proof.Machine.execVsct d base x s
  | .vsctX f win ty imm sh ef mk d base x => Sys2Proof.Machine.execVsctX f win ty imm sh ef mk d base x s
  | .mand d x y => Sys2Proof.Machine.execMand d x y s
  | .mor d x y => Sys2Proof.Machine.execMor d x y s
  | .mxor d x y => Sys2Proof.Machine.execMxor d x y s
  | .mnot d x => Sys2Proof.Machine.execMnot d x s
  | .mpop d x => Sys2Proof.Machine.execMpop d x s
  | .mpopX ty d x => Sys2Proof.Machine.execMpopX ty d x s
  | .mcmd d base idx => Sys2Proof.Machine.execMcmd d base idx s
  | .mcmdX f win imm d base idx => Sys2Proof.Machine.execMcmdX f win imm d base idx s
  | .mqry lit d q => Sys2Proof.Machine.execMqry lit d q s
  | .djob d base => Sys2Proof.Machine.execDjob d base s
  | .djobX f win imm d base => Sys2Proof.Machine.execDjobX f win imm d base s
  | .rbind d base range => Sys2Proof.Machine.execRbind d base range s
  | .rbindX f win imm d base range => Sys2Proof.Machine.execRbindX f win imm d base range s
  | .rfree lit idx => Sys2Proof.Machine.execRfree lit idx s
  | .msend base ch => Sys2Proof.Machine.execMsend base ch s
  | .msendX f sc win imm chk base ch => Sys2Proof.Machine.execMsendX f sc win imm chk base ch s
  | .mrecv d base ch => Sys2Proof.Machine.execMrecv d base ch s
  | .mrecvX f sc win imm dv d base ch => Sys2Proof.Machine.execMrecvX f sc win imm dv d base ch s
  | .mprobe d ch => Sys2Proof.Machine.execMprobe d ch s
  | .xmit v dir => Sys2Proof.Machine.execXmit v dir s
  | .imux d dir => Sys2Proof.Machine.execImux d dir s
  | .hbar grp => Sys2Proof.Machine.execHbar grp s
  | .hbarX f xp grp => Sys2Proof.Machine.execHbarX f xp grp s
  | .trgPost d base => Sys2Proof.Machine.execTrgPost d base s
  | .trgPostX f win imm d base => Sys2Proof.Machine.execTrgPostX f win imm d base s
  | .trgInc ctr n => Sys2Proof.Machine.execTrgInc ctr n s
  | .trgIncX f sc ctr n => Sys2Proof.Machine.execTrgIncX f sc ctr n s
  | .trgRd d ctr => Sys2Proof.Machine.execTrgRd d ctr s
  | .trgRdX f sc d ctr => Sys2Proof.Machine.execTrgRdX f sc d ctr s
  | .trgCancel lit d h => Sys2Proof.Machine.execTrgCancel lit d h s
  | .rdtime d => Sys2Proof.Machine.execRdtime d s
  | .rderr d => Sys2Proof.Machine.execRderr d s
  | .evrd d k => Sys2Proof.Machine.execEvrd d k s
  | .evclr k => Sys2Proof.Machine.execEvclr k s
  | .evgath base => Sys2Proof.Machine.execEvgath base s
  | .evgathX f imm base => Sys2Proof.Machine.execEvgathX f imm base s
  | .crd d r => Sys2Proof.Machine.execCrd d r s
  | .cwr lit r v => Sys2Proof.Machine.execCwr lit r v s
  | .trap lit d svc arg => Sys2Proof.Machine.execTrap lit d svc arg s
  | .brk code => Sys2Proof.Machine.execBrk code s
  | .wfe d => Sys2Proof.Machine.execWfe d s
  | .idle => Sys2Proof.Machine.execIdle s
  | .vectorIssue c => Sys2Proof.Machine.execVectorIssue c s
  | .fetchPortServe c block => Sys2Proof.Machine.execFetchPortServe c block s
  | .deferredLoadComplete c k => Sys2Proof.Machine.execDeferredLoadComplete c k s
  | .logReplay c k => Sys2Proof.Machine.execLogReplay c k s
  | .recordPop c => Sys2Proof.Machine.execRecordPop c s
  | .stealSweep c => Sys2Proof.Machine.execStealSweep c s
  | .waitTimeout c k => Sys2Proof.Machine.execWaitTimeout c k s
  | .sleepWake c k => Sys2Proof.Machine.execSleepWake c k s
  | .realignTimeout c k => Sys2Proof.Machine.execRealignTimeout c k s
  | .torusWordLand c dir => Sys2Proof.Machine.execTorusWordLand c dir s
  | .gatherComplete l => Sys2Proof.Machine.execGatherComplete l s
  | .messageSend c ch => Sys2Proof.Machine.execMessageSend c ch s
  | .messageArrival c ch => Sys2Proof.Machine.execMessageArrival c ch s
  | .nakArrival c ch => Sys2Proof.Machine.execNakArrival c ch s
  | .deferredReceive c k => Sys2Proof.Machine.execDeferredReceive c k s
  | .parkedReplay c k => Sys2Proof.Machine.execParkedReplay c k s
  | .mappingRejected c k va => Sys2Proof.Machine.execMappingRejected c k va s
  | .serviceReply c k v => Sys2Proof.Machine.execServiceReply c k v s
  | .debuggerResume c k ends => Sys2Proof.Machine.execDebuggerResume c k ends s
  | .asyncTrap => Sys2Proof.Machine.execAsyncTrap s
  | .mldw c => Sys2Proof.Machine.execMldw c s
  | .mswap c => Sys2Proof.Machine.execMswap c s
  | .mmul c => Sys2Proof.Machine.execMmul c s
  | .mrot c => Sys2Proof.Machine.execMrot c s
  | .mepi c => Sys2Proof.Machine.execMepi c s
  | .mzero c => Sys2Proof.Machine.execMzero c s
  | .mred c => Sys2Proof.Machine.execMred c s
  | .mracc c => Sys2Proof.Machine.execMracc c s
  | .mrfin c => Sys2Proof.Machine.execMrfin c s
  | .msync c => Sys2Proof.Machine.execMsync c s
  | .harrowComplete c => Sys2Proof.Machine.execHarrowComplete c s
  | .harrowFault c => Sys2Proof.Machine.execHarrowFault c s
  | .bankDrained c => Sys2Proof.Machine.execBankDrained c s
  | .rotationBankArrived c => Sys2Proof.Machine.execRotationBankArrived c s
  | .rotationRowsLanded c => Sys2Proof.Machine.execRotationRowsLanded c s
  | .mredArrival c => Sys2Proof.Machine.execMredArrival c s
  | .drillJobStart c => Sys2Proof.Machine.execDrillJobStart c s
  | .drillChunk c => Sys2Proof.Machine.execDrillChunk c s
  | .drillJobComplete c => Sys2Proof.Machine.execDrillJobComplete c s
  | .drillJobFault c => Sys2Proof.Machine.execDrillJobFault c s
  | .triggerFire h => Sys2Proof.Machine.execTriggerFire h s
  | .send h => Sys2Proof.Machine.execSend h s
  | .recv h => Sys2Proof.Machine.execRecv h s
  | .rrs h => Sys2Proof.Machine.execRrs h s
  | .copy h => Sys2Proof.Machine.execCopy h s
  | .sowerWait h => Sys2Proof.Machine.execSowerWait h s
  | .put h => Sys2Proof.Machine.execPut h s
  | .sowerAtom h => Sys2Proof.Machine.execSowerAtom h s
  | .prog h => Sys2Proof.Machine.execProg h s
  | .a2a h => Sys2Proof.Machine.execA2a h s
  | .progStepStart h => Sys2Proof.Machine.execProgStepStart h s
  | .chunkStart out => Sys2Proof.Machine.execChunkStart out s
  | .stagingGrant t => Sys2Proof.Machine.execStagingGrant t s
  | .chunkArrival cm src ext => Sys2Proof.Machine.execChunkArrival cm src ext s
  | .putArrival cm src ext => Sys2Proof.Machine.execPutArrival cm src ext s
  | .sowerEntryComplete h => Sys2Proof.Machine.execSowerEntryComplete h s
  | .a2aForward cm src dst msg => Sys2Proof.Machine.execA2aForward cm src dst msg s
  | .communicatorFail cm => Sys2Proof.Machine.execCommunicatorFail cm s
  | .failureNotice cm cause => Sys2Proof.Machine.execFailureNotice cm cause s
  | .homeRead d clu pa mode => Sys2Proof.Machine.execHomeRead d clu pa mode s
  | .homeStore d clu pa mode => Sys2Proof.Machine.execHomeStore d clu pa mode s
  | .homeAtomic d clu pa mode => Sys2Proof.Machine.execHomeAtomic d clu pa mode s
  | .homeReduction d clu pa mode badd wide => Sys2Proof.Machine.execHomeReduction d clu pa mode badd wide s
  | .mergeRequest pa => Sys2Proof.Machine.execMergeRequest pa s
  | .mergeResponse pa => Sys2Proof.Machine.execMergeResponse pa s
  | .partialDrain d clu pa => Sys2Proof.Machine.execPartialDrain d clu pa s
  | .cacheEviction d clu pa => Sys2Proof.Machine.execCacheEviction d clu pa s
  | .pageCounterClear d => Sys2Proof.Machine.execPageCounterClear d s
  | .releaseTokenAck d => Sys2Proof.Machine.execReleaseTokenAck d s
  | .acquireTokenReturn d => Sys2Proof.Machine.execAcquireTokenReturn d s
  | .bisnpResponse pa data => Sys2Proof.Machine.execBisnpResponse pa data s
  | .hostRead p pa n => Sys2Proof.Machine.execHostRead p pa n s
  | .hostWrite p pa data poison => Sys2Proof.Machine.execHostWrite p pa data poison s
  | .snpinv pa => Sys2Proof.Machine.execSnpinv pa s
  | .snpdata pa => Sys2Proof.Machine.execSnpdata pa s
  | .snpcur pa => Sys2Proof.Machine.execSnpcur pa s
  | .cxlCacheResponse pa ans poison => Sys2Proof.Machine.execCxlCacheResponse pa ans poison s
  | .shootdown p space tables => Sys2Proof.Machine.execShootdown p space tables s
  | .launch q => Sys2Proof.Machine.execLaunch q s
  | .cancel q => Sys2Proof.Machine.execCancel q s
  | .launchGrant l plan => Sys2Proof.Machine.execLaunchGrant l plan s
  | .launchSweep l => Sys2Proof.Machine.execLaunchSweep l s
  | .tlimitExpiry l => Sys2Proof.Machine.execTlimitExpiry l s
  | .cqRecordWrite q => Sys2Proof.Machine.execCqRecordWrite q s
  | .preempt l => Sys2Proof.Machine.execPreempt l s
  | .resume l plan => Sys2Proof.Machine.execResume l plan s
  | .epilogueStallTimeout c => Sys2Proof.Machine.execEpilogueStallTimeout c s
  | .strayWritePerformed c => Sys2Proof.Machine.execStrayWritePerformed c s
  | .doorbell q tail => Sys2Proof.Machine.execDoorbell q tail s
  | .qCtlWrite q v => Sys2Proof.Machine.execQCtlWrite q v s
  | .qCqheadWrite q head => Sys2Proof.Machine.execQCqheadWrite q head s
  | .registerWrite r mode v => Sys2Proof.Machine.execRegisterWrite r mode v s
  | .clkFreqWrite d mode v => Sys2Proof.Machine.execClkFreqWrite d mode v s
  | .lnkCtlWrite d mode v => Sys2Proof.Machine.execLnkCtlWrite d mode v s
  | .lnkCtlRead d => Sys2Proof.Machine.execLnkCtlRead d s
  | .linkDrain d => Sys2Proof.Machine.execLinkDrain d s
  | .linkQuiesce d => Sys2Proof.Machine.execLinkQuiesce d s
  | .linkLock d => Sys2Proof.Machine.execLinkLock d s
  | .linkRetrain d => Sys2Proof.Machine.execLinkRetrain d s
  | .linkRelease d => Sys2Proof.Machine.execLinkRelease d s
  | .laneError d => Sys2Proof.Machine.execLaneError d s
  | .linkDown d lines writers => Sys2Proof.Machine.execLinkDown d lines writers s
  | .uncorrectableFlit d lines writers => Sys2Proof.Machine.execUncorrectableFlit d lines writers s
  | .lineRepair pa data => Sys2Proof.Machine.execLineRepair pa data s
  | .parityError c k => Sys2Proof.Machine.execParityError c k s
  | .patrolScrub d pa r => Sys2Proof.Machine.execPatrolScrub d pa r s
  | .rasRead d => Sys2Proof.Machine.execRasRead d s
  | .portDown p => Sys2Proof.Machine.execPortDown p s
  | .ptpMessage tai bound => Sys2Proof.Machine.execPtpMessage tai bound s
  | .ptpHoldover ms => Sys2Proof.Machine.execPtpHoldover ms s
  | .ptpFreeRun => Sys2Proof.Machine.execPtpFreeRun s
  | .stimeRefresh dt skew => Sys2Proof.Machine.execStimeRefresh dt skew s
  | .ckptGo mode pmask => Sys2Proof.Machine.execCkptGo mode pmask s
  | .ckptCut => Sys2Proof.Machine.execCkptCut s
  | .streamPage ok => Sys2Proof.Machine.execStreamPage ok s
  | .powerGood img => Sys2Proof.Machine.execPowerGood img s
  | .modeSTrap img => Sys2Proof.Machine.execModeSTrap img s
  | .modeMTrap => Sys2Proof.Machine.execModeMTrap s
  | .attestationRequest nonce => Sys2Proof.Machine.execAttestationRequest nonce s
  | .imageSupply img => Sys2Proof.Machine.execImageSupply img s
  | .fusedMinimumRaise => Sys2Proof.Machine.execFusedMinimumRaise s
  | .translationRootSet space p root => Sys2Proof.Machine.execTranslationRootSet space p root s
  | .coreRetire c => Sys2Proof.Machine.execCoreRetire c s
  | .partitionModeSet pm => Sys2Proof.Machine.execPartitionModeSet pm s
  | .thermalThrottleStep d hot => Sys2Proof.Machine.execThermalThrottleStep d hot s
  | .thermalTrip => Sys2Proof.Machine.execThermalTrip s
  | .illegalOp w => Sys2Proof.Machine.execIllegalOp w s
  | .ongeozPortDown p => Sys2Proof.Machine.execOngeozPortDown p s
  | .ongeozPortUp p => Sys2Proof.Machine.execOngeozPortUp p s
  | .hostPortUp p => Sys2Proof.Machine.execHostPortUp p s
  | .communicatorCreate spec => Sys2Proof.Machine.execCommunicatorCreate spec s
  | .commandProcessorSignal c => Sys2Proof.Machine.execCommandProcessorSignal c s

end Sys2Proof.Machine
end

