-- ==== Sys2Proof/Machine/Fetch.lean ====
section
/-! DEFINITION. Fetching and decoding the next instruction of a context (R10, R16, R30), and one attempt of it. -/

namespace Sys2Proof.Machine

noncomputable section

/-- The addresses of the words of an instruction of n words can all be fetched (R30, order 2). -/
def State.fetchable (s : State) (c : CoreId) (pc : Word) (n : Nat) : Except AccErr Unit :=
  (List.range n).forM fun i => do
    let _ ← s.fetchKeys c (pc + word (4 * i)) 4
    .ok ()

/-- The words of the next instruction of the executing context, or the first trap of orders 1 to 3 (R16, R30). The walk may wait
for a line of a table (R304). -/
def State.fetchInstrWords (s : State) : Res (List (BitVec 32)) := do
  let pc := s.me.pc
  let c := s.cur
  if pc.toNat % 4 ≠ 0 then .error (.trap { cause := .align, addr := pc, noWord := true })
  let w0 ← s.precise (s.fetchWord c pc)
  let n := lenWords (w0.extractLsb' 0 2)
  s.precise (s.fetchable c pc n)
  check (decide (pc.toNat % 32 + 4 * n ≤ 32)) .placement pc
  s.precise ((List.range n).mapM fun i => s.fetchWord c (pc + word (4 * i)))

/-- The trap of a form that does not decode (R30, orders 5 and 6). -/
def decodeTrap (e : DecodeError) : TrapInfo :=
  match e with
  | .illegalOp => { cause := .illegalOp }
  | .illegalOperand => { cause := .illegalOperand }
  | .truncated => { cause := .placement }

/-- The next instruction of the executing context, or its trap (R30). -/
def State.fetchInstr (s : State) : Res Instr := do
  let ws ← s.fetchInstrWords
  match decodeWords ws with
  | .error e => .error (.trap (decodeTrap e))
  | .ok i => .ok i

/-- The state in which a context's instruction runs. -/
def State.onto (s : State) (c : CoreId) (k : SlotId) : State := { s with cur := c, slot := k }

/-- The next instruction of the executing context is fetched and performed, or traps; a trap that waits to write its record is
taken (R376). -/
def State.runNext (s : State) : Out :=
  match s.me.run with
  | .trapping t => .next (s.takeTrap t)
  | _ =>
    match s.fetchInstr with
    | .error e => complete s (.error e)
    | .ok i => exec i s

end

end Sys2Proof.Machine
end

