-- ==== Sys2Proof/Machine/Auto.lean ====
section
/-! DEFINITION. The steps of the part's own engines that need nothing from outside: what each waits for, and their rotation.
Steps whose content or time comes from outside are read from `State.inputs`. -/

namespace Sys2Proof.Machine

noncomputable section

/-- A step that may be due, and what it does. -/
abbrev Due := Bool × (State → Out)

/-- The command that a matrix unit would run next, by its OP (R184). -/
def Harrow.nextOp (h : Harrow) : Option Nat :=
  match h.running, h.queue with
  | some r, _ => some (field r.cmd.record 0 1)
  | none, q :: _ => some (field q.record 0 1)
  | none, [] => none

/-- The steps of a core's matrix unit. -/
def harrowSteps (c : CoreId) (h : Harrow) : List Due :=
  let op (n : Nat) : Bool := h.nextOp == some n
  [(op 1, execMldw c), (op 2, execMswap c), (op 3, execMmul c), (op 4, execMrot c), (op 5, execMepi c), (op 6, execMzero c),
   (op 7, execMred c), (op 8, execMracc c), (op 9, execMrfin c), (op 10, execMsync c),
   (!h.retiring.isEmpty, execHarrowComplete c), (!h.retiring.isEmpty, execHarrowFault c),
   (h.inactive == .draining, execBankDrained c),
   (h.inbound.any (fun m => match m with | .bank .. => true | _ => false), execRotationBankArrived { core := c }),
   (h.inbound.any (fun m => match m with | .rows .. => true | _ => false), execRotationRowsLanded { core := c }),
   (h.inbound.any (fun m => match m with | .mred .. => true | _ => false), execMredArrival { core := c })]

/-- The steps of a core's drill jobs. -/
def drillSteps (c : CoreId) (jobs : List Job) : List Due :=
  [(jobs.any (fun j => j.phase == .queued), execDrillJobStart c),
   (jobs.any (fun j => match j.phase with | .running _ => true | _ => false), execDrillChunk { core := c }),
   (jobs.any (fun j => j.phase == .copied), execDrillJobComplete c),
   (jobs.any (fun j => match j.phase with | .faulted .. => true | _ => false), execDrillJobFault c)]

/-- The steps of a context. -/
def ctxSteps (c : CoreId) (k : SlotId) (t : Ctx) : List Due :=
  [(!t.dloads.isEmpty, execDeferredLoadComplete c k),
   (t.live && t.regs.any (fun r => match r with | .replay .. => true | _ => false), execLogReplay c k),
   (t.live && !t.drecvs.isEmpty, execDeferredReceive c k),
   (t.live && !t.replayQ.isEmpty, execParkedReplay c k)]

/-! ## A load that overtakes a barrier arrival (R279, R340) -/

/-- The destination and the length of a barrier arrival. -/
def arrivalOf (i : Instr) : Option (Dst × Nat) :=
  match i with
  | .bararr d _ _ => some (d, 4)
  | .bararrX f _ _ _ d _ _ => some (d, formBytes f)
  | _ => none

/-- Whether an instruction's result is a source of a later one. -/
def feeds (d : Dst) (x : Src) : Bool :=
  match d, x with
  | _, .lat => true
  | .w n, .w m => n == m
  | .g n, .g m => n == m
  | .o n, .o m => n == m
  | _, _ => false

/-- The bound range that a plain load of a window would touch first, where its address does not rest on the result d (R129). -/
def State.loadTouches (s : State) (d : Dst) (i : Instr) : Option (Fin 16) :=
  match i with
  | .ldX f t w imm _ _ b x =>
    if w == .glob || feeds d b || feeds d x || !s.myCore.jobRoom then none else
    match s.ea3 f.value b x imm with
    | .ok ea => (match s.myCore.touched w ea.toNat t.ty.bytes with | .absent e => some e | _ => none)
    | .error _ => none
  | _ => none

/-- Whether a context is about to try its instruction. -/
def Ctx.atInstr (t : Ctx) : Bool :=
  t.live && (match t.run with | .ready => true | .blocked => true | .touching => true | _ => false)

/-- The bound range of the load that stands right behind a context's barrier arrival, if any: with no fence between them the copy may start
first (R143, R340). -/
def State.overtaken (s : State) (c : CoreId) (k : SlotId) : Option (Fin 16) :=
  if !(s.ctx c k).atInstr || !((s.core c).regions.toList.any fun r => r.phase == .absent) || !s.issues c then none
  else
    let s := s.onto c k
    match s.fetchInstr with
    | .error _ => none
    | .ok i =>
      match arrivalOf i with
      | none => none
      | some (d, n) =>
        let s := s.advance n
        match s.fetchInstr with
        | .ok j => s.loadTouches d j
        | .error _ => none

/-- That copy starts. -/
def State.touchAhead (s : State) (c : CoreId) (k : SlotId) : State :=
  match s.overtaken c k with
  | some e => s.startCopy c e
  | none => s

/-- The steps in which copies overtake barrier arrivals, as the free value says. -/
def State.aheadSteps (s : State) (c : CoreId) : List Due :=
  (List.finRange 11).map fun k => ((s.overtaken c k).isSome && Config.overtakes s.rotor, fun s => .next (s.touchAhead c k))

/-- The steps of an outbound channel. -/
def chanSteps (s : State) (c : CoreId) (ch : Fin 16) (h : Channel) : List Due :=
  [(!h.buffer.isEmpty, execMessageSend c ch), (!h.flight.isEmpty, execMessageArrival { core := c } ch),
   (s.naks.any (fun n => n.dst == c.val && n.ch == ch), execNakArrival c ch)]

/-- The steps of a core (R158, R189, R221, R251, R268), none while its clock stands still (R422). Its queue is popped in its turns
(R249). -/
def State.coreSteps (s : State) (c : CoreId) : List Due :=
  if s.frozen c then [] else
  let x := s.core c
  [((match x.vnext (s.issues c) with | some k => !(x.ctx k).vq.isEmpty | none => false), execVectorIssue c), (x.queue.isEmpty && x.ext.isEmpty && s.sweepDue c, execStealSweep c),
   (!x.strays.isEmpty, execStrayWritePerformed c)]
  ++ harrowSteps c x.harrow ++ drillSteps c x.jobs
  ++ (List.finRange 11).flatMap (fun k => ctxSteps c k (x.ctx k))
  ++ s.aheadSteps c
  ++ (List.finRange 16).flatMap (fun ch => chanSteps s c ch (x.chans.get ch))

/-- The steps of a launch (R233, R355, R381). -/
def State.launchSteps (s : State) (l : Launch) : List Due :=
  let n := l.id * 8 + l.part
  let live := l.phase == .live
  [(live && l.cores.any (fun c => (s.core (coreOf c)).gathering.isSome), execGatherComplete n), (live, execLaunchSweep n),
   (live && (l.stopping || s.mayPreempt l), execPreempt n)]

/-- The deferred loads of a pre-empted launch go on (R383). -/
def State.savedSteps (s : State) (l : Launch) : List Due :=
  if l.phase == .preempted then
    l.cores.flatMap fun c => (List.finRange 11).map fun k =>
      ((s.savedAt (coreOf c) fun x => (x.headLoad k).isSome).isSome, execDeferredLoadComplete (coreOf c) k)
  else []

/-- The steps of a work queue (R342, R397). -/
def queueSteps (q : Nat) (x : WQueue) : List Due :=
  let entry := x.en && x.sqHead != x.sqTail
  [(entry, execLaunch q), (entry, execCancel q), (!x.records.isEmpty, execCqRecordWrite q)]

/-- The step in which an entry's operation begins, or is tried again (R313). -/
def entryOp (h : Fin 16384) (op : Nat) : State → Out :=
  match op with
  | 1 => execSend h
  | 2 => execRecv h
  | 3 => execRrs h
  | 4 => execCopy h
  | 5 => execSowerWait h
  | 6 => execPut h
  | 7 => execSowerAtom h
  | 8 => execProg h
  | _ => execA2a h

/-- The steps of a triggered entry (R310, R313, R324). That a rank outside the package has performed a PUT or ATOM is heard from
there. -/
def entrySteps (w : Sower) (e : Entry) : List Due :=
  let h : Fin 16384 := Fin.ofNat 16384 e.handle
  let waits := match e.phase with | .met _ => true | .unfired => e.ctr.isNone | _ => false
  let begun := match e.phase with | .running => true | _ => false
  let fired := match e.phase with | .fired _ => true | _ => false
  let out := w.xfers.any fun x => x.handle == e.handle && w.putsOut x
  [(waits, execTriggerFire h), (fired || begun, entryOp h e.rec_.op), (begun && e.prog.isSome, execProgStepStart h),
   (begun && !out, execSowerEntryComplete h)]

/-- The ranks from which a communicator has chunks that have arrived or are on their way inside the package. -/
def Comm.sources (c : Comm) : List Nat := (c.flight.map (·.src) ++ c.staged.map (·.1) ++ c.blocks.map (·.1)).dedup

/-- What an A2A_FORWARD of a block from inside the package is given for the block itself, which it then does not read. -/
def noChunk : ChunkMsg := { rank := 0, off := 0, total := 0, data := [] }

/-- The steps of a communicator, by its place in the table (R315, R318, R325). -/
def commSteps (n : Nat) (c : Comm) : List Due :=
  c.sources.flatMap (fun r =>
    [(true, execChunkArrival n r none), ((c.nextFlight r).isSome, execPutArrival n r none),
     ((c.nextFlight r).isSome, execA2aForward n r 0 noChunk)])
  ++ [(c.fault.isSome && c.failed.isNone, execCommunicatorFail n), (c.notice.isSome && c.failed.isNone, execFailureNotice n 0)]

/-- Whether a transfer's next chunk waits for a staging slot of a rank of the package (R316). -/
def Sower.asksSlot (w : Sower) (x : Xfer) : Bool :=
  !x.granted && !x.outDone && (match w.xferComm x with | some c => c.inside (x.target c) | none => false)

/-- The steps of the sower (R310 to R325). The grants of ranks outside the package come from there. -/
def Sower.steps (w : Sower) : List Due :=
  w.entries.flatMap (entrySteps w)
  ++ w.xfers.map (fun x => (w.asksSlot x, execStagingGrant x.id))
  ++ (if w.xfers.isEmpty then [] else (List.range 32).map fun o => (true, execChunkStart o))
  ++ (w.comms.zipIdx).flatMap fun p => commSteps p.2 p.1

/-- The steps of a die's link (R289, R426). -/
def dieSteps (d : DieId) (x : DieState) : List Due :=
  [(!x.relTokens.isEmpty, execReleaseTokenAck d), (!x.acqTokens.isEmpty, execAcquireTokenReturn d),
   (x.seq.isNone && x.linkBusy, execLinkDrain d), (x.seq.isSome, execLinkQuiesce d), (x.seq.isSome, execLinkLock d),
   (x.seq.isSome, execLinkRetrain d), (x.seq.isSome, execLinkRelease d)]

/-- A snoop that waited for a pending device write is taken once that is performed (R399). -/
def snoopStep (p : Nat × HostSnoop) : State → Out :=
  match p.2 with
  | .inv => execSnpinv (64 * p.1)
  | .data => execSnpdata (64 * p.1)
  | .cur => execSnpcur (64 * p.1)

/-- The steps of the package beside its cores. -/
def State.packageSteps (s : State) : List Due :=
  s.launches.flatMap s.launchSteps ++ s.launches.flatMap s.savedSteps ++ s.queues.flatMap (fun p => queueSteps p.1 p.2)
  ++ [(!s.asyncs.isEmpty, execAsyncTrap), (s.ckpt.busy && s.ckpt.status == 0, execCkptCut),
      (s.ckpt.busy && s.ckpt.status != 0, execStreamPage true)]
  ++ s.sower.steps ++ (List.finRange 8).flatMap (fun d => dieSteps d (s.dies.get d))
  ++ s.dir.hostSnoops.map (fun p => (!s.dir.writePending p.1, snoopStep p))
  ++ s.dir.merging.flatMap fun n => [(true, execMergeRequest (64 * n)), (true, execMergeResponse (64 * n))]

/-- The cores of the live launches, each once. -/
def State.boundCores (s : State) : List CoreId :=
  ((s.launches.filter fun l => l.phase == .live).flatMap fun l => l.cores.map coreOf).dedup

/-- The step of a cluster's fetch port (R259). -/
def State.portStep (s : State) (cl : Nat) : Due :=
  match s.portChoice cl with
  | some (c, va) => (true, execFetchPortServe c va)
  | none => (false, .next)

/-- Every step of the engines. -/
def State.engineSteps (s : State) : List Due :=
  let cs := s.boundCores
  ((cs.filter fun c => !s.frozen c).map (·.cluster)).dedup.map s.portStep ++ cs.flatMap s.coreSteps ++ s.packageSteps

/-- The first step that may be due at or after a place in the rotation, and its place. -/
def nextDue (l : List Due) (at_ : Nat) : Option ((State → Out) × Nat) :=
  let l := l.zipIdx
  let ok (p : Due × Nat) : Bool := p.1.1
  match l.find? fun p => ok p && decide (at_ ≤ p.2) with
  | some p => some (p.1.2, p.2)
  | none => (l.find? ok).map fun p => (p.1.2, p.2)

/-- One step of the engines, if any may be due: the next of the rotation. -/
def State.engineStep (s : State) : Out :=
  match nextDue s.engineSteps s.rotor with
  | some (f, n) => f { s with rotor := n + 1 }
  | none => .next s

end

end Sys2Proof.Machine
end

