-- ==== Sys2Proof/Machine/Schedule.lean ====
section
/-! DEFINITION. Which context issues next (R6, R119, R226, R241, R249, R256, R259, R422), and what surrounds the instruction it issues. -/

namespace Sys2Proof.Machine

noncomputable section

/-! ## Readiness -/

/-- Whether a context may try its next instruction: it is not held by `yield`, and does not wait for a step of its own (R119, R120,
R225, R255). -/
def Ctx.tries (t : Ctx) (cycle : Nat) : Bool :=
  t.live && (match t.run with
    | .service .. => false
    | .stopped _ => false
    | .hbar .. => false
    | .gather .. => false
    | .yielding _ => false
    | .leaving n => decide (n < cycle)
    | _ => true)

/-- Whether a context waits on a fetch: its instruction is new, and its block not in the core's buffer (R255, R259). One that has
tried its instruction and waits has fetched it, and keeps it. -/
def State.starved (s : State) (c : CoreId) (t : Ctx) : Bool :=
  match t.run with
  | .ready => s.lacks c t.pc
  | .leaving _ => s.lacks c t.pc
  | _ => false

/-- Whether a context still waits after it has tried in s: nothing of its instruction has happened, and nothing has been asked
for or remembered that was not before (R71, R114, R120, R129, R147, R304). -/
def State.waits (s s' : State) : Bool :=
  match s'.me.run with
  | .blocked => true
  | .ready => false
  | .touching => decide (s' = s.modMe fun t => { t with run := .touching })
  | r => s.me.run == r && decide (s' = s)

/-- What a context's next instruction does, where it is ready: the state after it. -/
def State.tryCtx (s : State) (c : CoreId) (k : SlotId) : Option Out :=
  let t := s.ctx c k
  if t.tries (s.cycleOf c) && !s.starved c t then
    let s := s.onto c k
    match s.runNext with
    | .next s' => if s.waits { s' with cur := c, slot := k } then none else some (.next s')
    | o => some o
  else none

/-- Whether a core has a turn: its die's clock has a core cycle now, it is not idle, and its launch is not being stopped (R6, R241,
R381, R422). -/
def State.coreRuns (s : State) (c : CoreId) : Bool :=
  let d := s.dies.get c.die
  d.ticks && !d.clockStopped && !(s.core c).idle && (match s.launchOf c with | some l => !l.stopping | none => true)

/-- The ready contexts of a core, each with what it would do (R255). -/
def State.readySlots (s : State) (c : CoreId) : List (SlotId × Out) :=
  (List.finRange 11).filterMap fun k => (s.tryCtx c k).map fun o => (k, o)

/-- The context whose transfer phase a core is in (R226). -/
def Core.participant (x : Core) : Option SlotId := (List.finRange 11).find? fun k => (x.ctx k).live && (x.ctx k).phase

/-- The ready contexts that the choice considers: during a transfer phase only its participant (R226, R256). -/
def Core.considered (x : Core) (ready : List (SlotId × Out)) : List (SlotId × Out) :=
  match x.participant with
  | some k => ready.filter fun p => p.1 == k
  | none => ready

/-- A context held by `yield` goes on: those that were ready at it have issued or ended, or no other is ready (R119). -/
def Ctx.endYield (t : Ctx) (live : SlotId → Bool) (alone : Bool) : Ctx :=
  match t.run with
  | .yielding l => if alone || (l.filter live).isEmpty then { t with run := .ready } else t
  | _ => t

def Core.endYields (x : Core) (alone : Bool) : Core := x.mapCtx fun t => t.endYield (fun k => (x.ctx k).live) alone

/-! ## The choice -/

/-- Whether one ready context comes before another (R256): the larger wait count; then the control context; then the
slot that is first after the helper that issued last. -/
def Core.before (x : Core) (a b : SlotId) : Bool :=
  let w (k : SlotId) : Nat := (x.ctx k).waitCount
  let place (k : SlotId) : Nat := if k = 0 then 0 else 1 + (k.val + 9 - x.lastHelper.val) % 10
  decide (w b < w a) || (w a == w b && decide (place a < place b))

/-- The context that issues (R256). -/
def Core.pick (x : Core) (l : List (SlotId × Out)) : Option (SlotId × Out) :=
  l.foldl (fun best p =>
    match best with
    | none => some p
    | some b => if x.before p.1 b.1 then some p else some b) none

/-- A context's wait count after a core cycle in which it issued or not (R256). -/
def Ctx.counted (t : Ctx) (ready issued : Bool) : Ctx := { t with waitCount := if ready && !issued then t.waitCount + 1 else 0 }

/-- What a `yield` waits for after slot k has issued: one that has just issued it waits for those that were ready then (R119). -/
def Ctx.yieldAfter (t : Ctx) (self : Bool) (k : SlotId) (ready : List SlotId) : Ctx :=
  match t.run with
  | .yielding l => { t with run := .yielding (if self then l.filter ready.contains else l.filter (· != k)) }
  | _ => t

/-- The contexts of a core after a core cycle in which slot k issued, if any did (R119, R256). -/
def Core.cycled (x : Core) (k : Option SlotId) (ready : List SlotId) : Core :=
  let ctx (i : SlotId) : Ctx :=
    let t := (x.ctx i).counted (ready.contains i) (k == some i)
    match k with
    | some k => t.yieldAfter (k == i) k ready
    | none => t
  { x with ctxs := Vector.ofFn ctx, lastHelper := match k with | some k => if k = 0 then x.lastHelper else k | none => x.lastHelper }

/-- What comes before a core's choice: torus words land, `yield`s end, and the core asks for the block that a context lacks
(R119, R227, R259). -/
def State.beginTurn (s : State) (c : CoreId) : State :=
  let s := s.modCore c fun x => (x.landDue (s.cycleOf c)).endYields false
  (s.modCore c fun x => x.endYields (s.readySlots c).isEmpty).askFetch c

/-- What comes after it: the counts, and the pop of a record into a slot that was free before the instruction and that it has left
free: a `start` takes its own first, and a slot that a `fin` frees is free from the next core cycle (R116, R249, R256, R261). -/
def State.endTurn (s : State) (c : CoreId) (was : Core) (k : Option SlotId) (ready : List SlotId) : State :=
  ((s.modCore c fun x => x.cycled k ready).settle c).popRecord c fun j => !(was.ctx j).live

/-- A core's turn, one core cycle of it: the chosen context issues, or, as the error says, none does and this is the state. -/
def State.turnOf (s : State) (c : CoreId) : Except State Out :=
  if !s.coreRuns c then .error s else
  let s := s.beginTurn c
  let ready := s.readySlots c
  let slots := ready.map (·.1)
  let was := s.core c
  match was.pick (was.considered ready) with
  | none => .error (s.endTurn c was none slots)
  | some (k, .next s') => .ok (.next (s'.endTurn c was (some k) slots))
  | some (_, o) => .ok o

/-- A die's clock over one period of 840 MHz, the fastest: whether a core cycle of it begins then (R6, R420, R422). -/
def DieState.tick (x : DieState) : DieState :=
  if x.clockStopped then { x with ticks := false }
  else if 84 ≤ x.credit + x.cur then { x with ticks := true, cycle := x.cycle + 1, credit := x.credit + x.cur - 84 }
  else { x with ticks := false, credit := x.credit + x.cur }

/-- Every core has had its turn: each die's own clock goes on (R6). -/
def State.nextRound (s : State) : State := { s with turn := 0, dies := s.dies.map DieState.tick }

/-- The next turn goes to the core after c; after the last core a new round begins. -/
def State.passTurn (s : State) (c : CoreId) : State := if c = 1023 then s.nextRound else { s with turn := c + 1 }

/-- The first core of a list that issues; the state where none does. -/
def State.firstTurn (s : State) (cs : List CoreId) : Except State Out :=
  match cs with
  | [] => .error s
  | c :: rest =>
    match s.turnOf c with
    | .ok (.next s') => .ok (.next (s'.passTurn c))
    | .ok o => .ok o
    | .error s' => s'.firstTurn rest

/-- The cores in the order of their numbers. -/
def State.coreOrder (s : State) : List CoreId := s.boundCores.insertionSort (· ≤ ·)

/-- One instruction of the core whose turn it is, or, once the round is over, of the first that issues in the next. -/
def State.issueStep (s : State) : Except State Out :=
  let cs := s.coreOrder
  match s.firstTurn (cs.filter fun c => decide (s.turn ≤ c)) with
  | .ok o => .ok o
  | .error s => s.nextRound.firstTurn cs

/-- The engines have their step at every eighth, and whenever no context is ready; core cycles go on. -/
def State.scheduled (s : State) (engines : Bool) : Out :=
  if engines then s.engineStep
  else
    match s.issueStep with
    | .ok o => o
    | .error s => s.nextRound.engineStep

/-- Whether a row of the table is a step and not an instruction. -/
def isEvent (i : Instr) : Bool :=
  match i with
  | .illegalOp _ => false
  | _ => i.raw.isNone

/-- What comes from outside: a step of the table. A module that is off takes nothing but power (R446, R448). -/
def State.takeInput (s : State) (i : Instr) : Out :=
  match i with
  | .powerGood img => exec (.powerGood img) s
  | _ => if !s.powered then .fault .poweredOff else if isEvent i then exec i s else .next s

/-- What came from outside waits, if its step says so. -/
def requeue (i : Instr) (o : Out) : Out :=
  match o with
  | .next s => .next (if s.again then { s with held := s.held ++ [i], again := false } else s)
  | o => o

/-- A step: what comes from outside first, else, at every eighth, what has come and waits, else what the part's own order gives. -/
def State.stepWhole (s : State) : Out :=
  let t := { s with steps := s.steps + 1 }
  match s.inputs, if s.steps % 8 = 3 then s.held else [] with
  | i :: rest, _ => requeue i ({ t with inputs := rest, again := false }.takeInput i)
  | [], i :: rest => requeue i ({ t with held := rest, again := false }.takeInput i)
  | [], [] => if s.powered then t.scheduled (s.steps % 8 == 7) else .fault .poweredOff

end

end Sys2Proof.Machine
end

