-- ==== Sys2Proof/Machine/Loader.lean ====
section
/-! DEFINITION. A program placed for the next step: a launch of one core with its tables, as the command processor would
have bound it (R347, R361, R365). The program comes from outside the machine. -/

namespace Sys2Proof.Machine

/-- Where the first instruction stands; the handler, the spill areas and the tables stand at the addresses below, each virtual
address being its own physical address. -/
def loadPc : Nat := 0x100000
def loadVec : Nat := 0x110000
def loadSpill : Nat := 0x200000
def loadRoot : Nat := 0x10000000

/-- The page table: 512 MiB of the partition's memory at their own addresses, and the LM aperture of die 0 at LMBASE. -/
def loadTables : List (Nat × List Byte) :=
  [(loadRoot, leBytes 8 0x10020001), (loadRoot + 8 * 0x3FFF, leBytes 8 0x10030001),
   (0x10020000, leBytes 8 0x0010000000000003), (0x10030000 + 8 * 0x1FF0, leBytes 8 (0x0010000000000003 + apBase))]

/-- The launch. -/
def loadLaunch (id : Nat) : Launch :=
  { id, phase := .live, cores := [0], root := loadRoot, trapVec := word loadVec, spillVa := word loadSpill, spillStride := 65536,
    entryVa := word loadPc, desc := { hl := 10, spillf := 64 }, boundAt := some 0 }

/-- Bytes stored at an address. -/
def Memory.store (m : Memory) (a : Nat) (bs : List Byte) : Memory := m.setAll ((range a bs.length).zip bs)

/-- The 20 bytes from an instruction's first on, where the bits above `nbits` are 0. -/
def instrImage (nbits w : Nat) : List Byte := leBytes 20 (w % 2 ^ nbits)

/-- The eight words of code in the block at an address. -/
def blockWords (m : Memory) (a : Nat) : List (BitVec 32) :=
  (List.range 8).map fun i => BitVec.ofNat 32 (leNat ((List.range 4).map fun j => m.get (a + 4 * i + j)))

/-- The package with only this launch bound, on core 0, whose control context stands before the instruction; nothing waits, and
what the instruction and its fetch read is free of poison and quarantine. Its block has been fetched. -/
def State.load (s : State) (bs : List Byte) : State :=
  let l := loadLaunch (s.nextLaunch.getD 0 1)
  let mem := (loadTables.foldl (fun m p => Memory.store m p.1 p.2) (s.mem.clear 0 (2 ^ 29))).store loadPc bs
  { s with
    pm := .pm1
    mem
    tags := s.tags.filter fun t => decide (2 ^ 24 ≤ t.1)
    poison := s.poison.filter fun g => decide (2 ^ 24 ≤ g) && decide (32 * g < apBase)
    dir := {}
    dies := Vector.replicate 8 {}
    launches := [l]
    nextLaunch := s.nextLaunch.set 0 (l.id + 1)
    cores := s.cores.set 0 (((({} : Core).bound l.id 0).start l 0 (word loadPc)).buffer { va := loadPc, words := blockWords mem loadPc })
    powered := true
    inputs := []
    held := []
    turn := 0
    cur := 0
    slot := 0
    steps := 0 }

end Sys2Proof.Machine
end

