-- ==== Sys2Proof/Machine/Step.lean ====
section
/-! DEFINITION. One step of the machine, and an instruction placed for the next step. -/

namespace Sys2Proof.Machine

noncomputable section

/-- One step of the machine. -/
def step (s : State) : Host.Outcome State Fault Refusal := s.stepWhole

/-- The state with an instruction placed where the next step fetches. -/
def State.withFetchWord (s : State) (nbits w : Nat) : State := s.load (instrImage nbits w)

end

end Sys2Proof.Machine
end

