-- ==== Sys2Proof/Safety.lean ====
section
/-! DEFINITION. What a safe run is. -/

namespace Sys2Proof.Machine

/-- What every step keeps: memory in its canonical form. -/
def State.inv (s : State) : Bool := s.mem.wf

/-- A step that is safe: it goes on, or the module is off and takes no power (R448). -/
def State.safeStep (s : State) : Prop :=
  match step s with
  | .next _ => True
  | .fault _ => s.powered = false
  | .refused _ => False

end Sys2Proof.Machine
end

