-- ==== Sys2Proof/Certificates/Slice0/Obligations.lean ====
section
/-! DEFINITION. The statements for the provers. `Sys2Proof.Stmt` holds what they are written with: which constructors of
`Instr` a statement covers (one `inductive` per shape, a constructor per form), and the conditions it assumes. -/

namespace Sys2Proof.Stmt

open Sys2Proof.Machine

/-- A destination as a register, if it is one (R19). -/
def dstName : Dst → Option RegName
  | .w n => some (.w n)
  | .g n => some (.g n)
  | .o n => some (.o n)
  | .zero => none

/-- Equal but for the executing context. -/
def SameButMe (s t : State) : Prop := t = s.setMe t.me

/-- What `step` adds around an instruction that issues from core c, slot k, where the slots `ready` were ready (R249, R256): the
wait counts and `yield`s, settled symbols, a record popped into a slot that was free when the turn began, and whose turn comes next; `was`
is the core then. -/
noncomputable def afterIssue (s' : State) (c : CoreId) (was : Core) (k : SlotId) (ready : List SlotId) : State :=
  (s'.endTurn c was (some k) ready).passTurn c

/-- The state in which core c chooses, when it is its turn. -/
noncomputable def atTurn (s : State) (c : CoreId) : State := ({ s with steps := s.steps + 1 } : State).beginTurn c

/-- The step is core c's (R6, R241, R256): no input waits or comes again, the step is not an engine's, c is the first bound core whose turn
comes, its die's clock has a core cycle, and its launch is not being stopped. -/
def CoreTurn (s : State) (c : CoreId) : Prop :=
  s.inputs = [] ∧ (s.steps % 8 = 3 → s.held = []) ∧ s.powered = true ∧ s.steps % 8 ≠ 7 ∧ (s.coreOrder.filter fun d => decide (s.turn ≤ d)).head? = some c ∧
  s.coreRuns c = true

/-- The slots of core c that are ready at its turn (R255). -/
noncomputable def readyAt (s : State) (c : CoreId) : List SlotId := ((atTurn s c).readySlots c).map (·.1)

/-- Slot k is the one that core c's choice falls on (R226, R256). -/
def Chosen (s : State) (c : CoreId) (k : SlotId) : Prop :=
  CoreTurn s c ∧ (((atTurn s c).core c).pick (((atTurn s c).core c).considered ((atTurn s c).readySlots c))).map (·.1) = some k ∧
  ∀ t, ((atTurn s c).ctx c k).run ≠ .trapping t

end Sys2Proof.Stmt

open Sys2Proof Sys2Proof.Machine Sys2Proof.Stmt in
/-- After reset no byte of memory is listed (every byte reads 0), no granule has a tag or is poisoned, no link is set,
no launch exists and none is bound to a core, no context is live, every event counter is 0, every symbol is FREE,
and the partition mode is PM1. The values of the registers of empty context slots and the rest of State.reset are
the model's choice (assumptions 3 and 4) and are not stated here. (21 Firmware, bring-up and module: bring-up; 15
Translation, protection and tags: tags; 20 Integrity: poison) -/
def Obligations.ResetState : Prop :=
  State.reset.mem = [] ∧ State.reset.tags = [] ∧ State.reset.poison = [] ∧ State.reset.links = [] ∧
  State.reset.launches = [] ∧ State.reset.pm = .pm1 ∧
  ∀ c : CoreId, (State.reset.core c).launch = none ∧ (∀ k, ((State.reset.core c).ctx k).live = false) ∧
    (∀ e, (State.reset.core c).ev.get e = 0) ∧ (∀ i, (State.reset.core c).syms.get i = .free)

open Sys2Proof Sys2Proof.Machine Sys2Proof.Stmt in
/-- The invariant of the model (memory strictly rising by address, no listed byte equal to what an unlisted address
reads as) holds of State.reset. (21 Firmware, bring-up and module: bring-up) -/
def Obligations.InvariantAtReset : Prop :=
  State.reset.inv = true

open Sys2Proof Sys2Proof.Machine Sys2Proof.Stmt in
/-- From every state whose memory is in canonical form (not only those a run reaches), a step that answers a next state
answers one whose memory is in canonical form, whatever instruction, engine step or input the step performs. (11
Memory model and coherence: copies and homes; 21 Firmware, bring-up and module: bring-up) -/
def Obligations.EveryStepKeepsMemoryForm : Prop :=
  ∀ s s' : State, s.inv = true → step s = .next s' → s'.inv = true

open Sys2Proof Sys2Proof.Machine Sys2Proof.Stmt in
/-- For every state, step answers a next state, or the module has switched itself off (powered = false) and step answers
the fault for that; no step is ever refused. That a module which is off answers a fault (assumption 65), and what an
engine step that is not due does (assumption 13), are choices of the model. (16 Traps, pre-emption and context
switch: traps; 21 Firmware, bring-up and module: thermal protection) -/
def Obligations.EveryStepIsSafe : Prop :=
  ∀ s : State, s.safeStep

open Sys2Proof Sys2Proof.Machine Sys2Proof.Stmt in
/-- For every instruction row i that is well formed, with every operand at every value its encoding admits: if encode
gives the words ws, decodeWords ws is i. (01 Instruction words and operands: word 0, extended words, operand fields,
register classes) -/
def Obligations.EncodeThenDecode : Prop :=
  ∀ (i : Instr) (ws : List (BitVec 32)), i.wf = true → encode i = some ws → decodeWords ws = .ok i

open Sys2Proof Sys2Proof.Machine Sys2Proof.Stmt in
/-- For a first word w with LEN 0, 1, 2 or 3 followed by at least the words that make 1, 3, 3 or 5, decoding gives the
same answer whatever follows them; with fewer words it refuses, unless word 0 alone decides (the zero word, or an
unassigned MAJ and FN). (01 Instruction words and operands: word 0, decode and trap priority) -/
def Obligations.DecodeReadsOnlyItsOwnWords : Prop :=
  ∀ (w : BitVec 32) (rest more : List (BitVec 32)),
    let n := [1, 3, 3, 5].getD (w.extractLsb' 0 2).toNat 0
    (rest.length + 1 = n → decodeWords (w :: rest ++ more) = decodeWords (w :: rest)) ∧
    (rest.length + 1 < n → w ≠ 0 → illegalMajFn w = false → decodeWords (w :: rest) = .error .truncated)

open Sys2Proof Sys2Proof.Machine Sys2Proof.Stmt in
/-- The words of the spec's worked encodings of add with an immediate and with a literal, lea, fma, fcvt, bcmp, nop,
ldacq, isync, atom.cas, vfma, vld, mcmd and mqry, as the spec writes them, decode to those instructions with those
operands; the all-zero word decodes to trapz. (01 Instruction words and operands: worked encodings; 03 Scalar and
symbolic instructions: integer arithmetic; 04 Control flow: encodings; 05 Memory: encodings; 06 Vector instructions:
encodings; 07 Matrix unit: encodings; 08 Engine instructions: encodings) -/
def Obligations.DecodeWorkedWords : Prop :=
  decodeWords [0x03604300] = .ok (.add (.w 3) (.w 1) (.imm 6)) ∧
  decodeWords [0x02A08501, 0x00000000, 0x00000001] = .ok (.addX (.l 0x100000000) none (.w 5) (.w 2) .lit) ∧
  decodeWords [0x20304202, 0x00000010, 0x000000C0] = .ok (.leaX .x (.w 2) (.w 1) (.w 3) 3 16) ∧
  decodeWords [0x0C614442, 0x00000000, 0x05200007] = .ok (.fmaX .x (some .f32) .rtz false (.w 4) (.w 5) (.w 6) (.w 7)) ∧
  decodeWords [0x40008146, 0x00000000, 0x0B800240] = .ok (.fcvt none .e4m3 .f32 .sr (.w 1) (.w 2)) ∧
  decodeWords [0x48204062, 0x00FFFFFB, 0x00000000] = .ok (.bcmp none .lt none (.w 1) (.w 2) 0xFFFFFB) ∧
  decodeWords [0x14000068] = .ok .nop ∧ decodeWords [0x040000B8] = .ok .isync ∧ decodeWords [0x00000000] = .ok .trapz ∧
  decodeWords [0x7A988482, 0x62000040, 0x00000000] = .ok (.ldacq none .z32 .die .A 0x40 false (.w 4) (.o 2) .zero) ∧
  decodeWords [0x243081B2, 0x78000000, 0x01000004] = .ok (.atomX .x .cas .die .ar .glob (some .z64) 0 (.w 1) (.w 2) (.w 3) (.w 4)) ∧
  decodeWords [0x0C3081C2, 0x00000000, 0x01340004] =
    .ok (.vfmaX .x (some .f32) .dyn { en := true, sel := 2 } 1 (.v 2) (.v 3) (.v 4)) ∧
  decodeWords [0x029885DE, 0x02000100, 0x01200000] = .ok (.vldX .x .A (some .f32) 0x100 false {} 5 (.o 2) .zero) ∧
  decodeWords [0x029903F2, 0x04000080, 0x00000000] = .ok (.mcmdX .x .G 0x80 (.w 3) (.o 4) .zero) ∧
  decodeWords [0x040EC5F0] = .ok (.mqry none (.w 5) (.imm 11))

open Sys2Proof Sys2Proof.Machine Sys2Proof.Stmt in
/-- In a state in which core c has its turn and its choice falls on the context in slot k (Chosen): if the words fetched
at that context's PC decode to i and exec of i there, with c and k the executing context, answers a next state, then
step answers that state after the issue bookkeeping: the wait counts, settled symbols, a record popped into a slot
that was free before and the next core's turn. Which context issues when, and what the bookkeeping does beside the
rules, are choices of the model (assumptions 2, 66 and 83). If the words decode to no instruction, step takes the
trap of the decoder's answer, and if the fetch itself traps, that trap. (01 Instruction words and operands:
placement in fetch blocks, decode and trap priority; 09 Contexts, helpers and work queues: issue) -/
def Obligations.StepRunsDecodedInstruction : Prop :=
  ∀ (s : State) (c : CoreId) (k : SlotId), Chosen s c k →
    (∀ (ws : List (BitVec 32)) (i : Instr) (s' : State), ((atTurn s c).onto c k).fetchInstrWords = .ok ws →
      decodeWords ws = .ok i → exec i ((atTurn s c).onto c k) = .next s' →
      step s = .next (afterIssue s' c ((atTurn s c).core c) k (readyAt s c))) ∧
    (∀ (ws : List (BitVec 32)) (e : DecodeError), ((atTurn s c).onto c k).fetchInstrWords = .ok ws →
      decodeWords ws = .error e →
      step s = .next (afterIssue (((atTurn s c).onto c k).takeTrap (decodeTrap e)) c ((atTurn s c).core c) k (readyAt s c))) ∧
    (∀ t : TrapInfo, ((atTurn s c).onto c k).fetchInstrWords = .error (.trap t) →
      step s = .next (afterIssue (((atTurn s c).onto c k).takeTrap t) c ((atTurn s c).core c) k (readyAt s c)))

open Sys2Proof Sys2Proof.Machine Sys2Proof.Stmt in
/-- For a PC that is a multiple of 4 with every byte of the instruction fetchable, the words fetched are, as many as LEN
in the first one names, those of the block that the core's fetch buffer holds, or with an empty fetch buffer and
memory that is neither poisoned nor in a line in Q the little-endian words there, when they lie in one 32-byte fetch
block, and PLACEMENT with the PC is reported when they do not; a PC that is not a multiple of 4 reports ALIGN; a
translation or permission fault of the first word is reported with its cause and address. That words come straight
from memory while no block is buffered is the model's choice (assumptions 11 and 15). (01 Instruction words and
operands: placement in fetch blocks, decode and trap priority; 09 Contexts, helpers and work queues: the cluster
fetch port) -/
def Obligations.FetchReadsTheWordsAtThePC : Prop :=
  (∀ s : State, s.me.pc.toNat % 4 ≠ 0 →
    s.fetchInstrWords = .error (.trap { cause := .align, addr := s.me.pc, noWord := true })) ∧
  (∀ (s : State) (c : Cause) (a : Word), s.me.pc.toNat % 4 = 0 → s.fetchKeys s.cur s.me.pc 4 = .error (.fault c a) →
    s.fetchInstrWords = .error (.trap { cause := c, addr := a })) ∧
  (∀ (s : State) (n : Nat) (ks : Nat → List Nat), s.me.pc.toNat % 4 = 0 → s.myCore.fetched = [] → 0 < n →
    (∀ j < n, s.fetchKeys s.cur (s.me.pc + BitVec.ofNat 64 (4 * j)) 4 = .ok (ks j) ∧ s.poisoned (ks j) = false ∧
      s.quarantined (ks j) = false) →
    n = [1, 3, 3, 5].getD ((BitVec.ofNat 32 (leNat (s.bytesAt (ks 0)))).extractLsb' 0 2).toNat 0 →
    s.fetchInstrWords =
      if 32 < s.me.pc.toNat % 32 + 4 * n then .error (.trap { cause := .placement, addr := s.me.pc })
      else .ok ((List.range n).map fun j => BitVec.ofNat 32 (leNat (s.bytesAt (ks j))))) ∧
  (∀ (s : State) (n : Nat) (b : FetchBlock), s.me.pc.toNat % 4 = 0 → s.myCore.fetchedBlock s.me.pc = some b → b.bad = false →
    0 < n → (∀ j < n, ∃ ks, s.fetchKeys s.cur (s.me.pc + BitVec.ofNat 64 (4 * j)) 4 = .ok ks) →
    n = [1, 3, 3, 5].getD ((b.words.getD (s.me.pc.toNat % 32 / 4) 0).extractLsb' 0 2).toNat 0 →
    s.fetchInstrWords =
      if 32 < s.me.pc.toNat % 32 + 4 * n then .error (.trap { cause := .placement, addr := s.me.pc })
      else .ok ((List.range n).map fun j => b.words.getD (s.me.pc.toNat % 32 / 4 + j) 0))

open Sys2Proof Sys2Proof.Machine Sys2Proof.Stmt in
/-- The state s.finish d r evs len, in which the instructions with a scalar result end: lat and the destination read r,
zero discards it, every other register of the context reads as before, also those outside the current window; the PC
is len further and the context ready; each event counter has risen by how often it is listed, stopping at
0xFFFF_FFFF; the rest of the context, the rest of the core, the other contexts and cores, memory and every other
field are unchanged. s.result is the same with a VALUE. (01 Instruction words and operands: register classes; 02
Number formats: event counters) -/
def Obligations.ScalarResultFrame : Prop :=
  (∀ (s : State) (d : Dst) (v : Word) (evs : List Nat) (len : Nat), s.result d v evs len = s.finish d (.value v) evs len) ∧
  ∀ (s : State) (d : Dst) (r : Reg) (evs : List Nat) (len : Nat),
    (∀ n : RegName, (s.finish d r evs len).me.reg n = if n = .lat ∨ dstName d = some n then r else s.me.reg n) ∧
    (∀ i : Fin 136, (∀ n : Fin 24, i ≠ stackIdx s.me.pos n) → (s.finish d r evs len).me.stack.get i = s.me.stack.get i) ∧
    (s.finish d r evs len).me.pc = s.me.pc + BitVec.ofNat 64 len ∧ (s.finish d r evs len).me.run = .ready ∧
    (∀ e : Fin 16, ((s.finish d r evs len).myCore.ev.get e).toNat =
      min ((s.myCore.ev.get e).toNat + evs.count e.val) 0xFFFFFFFF) ∧
    { (s.finish d r evs len).me with
        stack := s.me.stack, g := s.me.g, o := s.me.o, lat := s.me.lat, hw := s.me.hw, hlat := s.me.hlat, pc := s.me.pc
        run := s.me.run } = s.me ∧
    { (s.finish d r evs len).myCore with ctxs := s.myCore.ctxs, ev := s.myCore.ev } = s.myCore ∧
    (∀ k, k ≠ s.slot → (s.finish d r evs len).ctx s.cur k = s.ctx s.cur k) ∧
    (∀ c, c ≠ s.cur → (s.finish d r evs len).core c = s.core c) ∧
    { s.finish d r evs len with cores := s.cores } = s

open Sys2Proof Sys2Proof.Machine Sys2Proof.Stmt in
/-- In a state whose memory has its canonical form, after a write of bytes at distinct addresses each of those addresses
reads its byte, every other address reads as before, and the form is kept; a number written as bytes and read back
little-endian is the number mod 2^(8n). (11 Memory model and coherence: single copies; 00 Scope: notation) -/
def Obligations.MemoryReadsWhatWasWritten : Prop :=
  (∀ (s : State) (self : Option (Nat × Nat)) (ks : List Nat) (bs : List Byte), s.inv = true → ks.Nodup →
    ks.length = bs.length →
    (s.write self ks bs).bytesAt ks = bs ∧ (s.write self ks bs).inv = true ∧
    ∀ a, a ∉ ks → (s.write self ks bs).mem.get a = s.mem.get a) ∧
  (∀ n v : Nat, leNat (leBytes n v) = v % 2 ^ (8 * n))

open Sys2Proof Sys2Proof.Machine Sys2Proof.Stmt in
/-- In a state whose executing context is in mode U, with TRAP.VEC not 0, a writable trap block whose record waits for
nothing at its home and a cause other than RET_EMPTY and not a fatal one: taking the trap writes the 64-byte record
with its fields at the bytes of R376 into the block, leaves every other byte of memory, sets TRAP.EPC to the
record's PC, the mode to H and the PC to TRAP.VEC, gives the handler w0 the trap block's address, w1 the cause code,
w2 ADDR, w3 the symbol or -1 and every other handler register and lat VALUE 0, ends the transfer phase, clears the
context's link and changes no other context. The record of a trap t at a PC, fatal or not: 64 bytes, with CAUSE in
byte 0, FLAGS in byte 1 (FATAL, ASYNC, NESTED, SYMV in bits 0 to 3), SLOT, SYM, GEN, DIE, PART, CORE, LCORE, LAUNCH,
PC at 24, ADDR at 32, WORD0 at 40 (the word fetched at the PC, 0 where the fetch faults or none was made), AUX at 44
the sower entry of an asynchronous trap, STAMP at 48, and zero in bytes 10, 11 and 56 to 63. (16 Traps, pre-emption
and context switch: taking a trap; 16 Traps, pre-emption and context switch: the trap record) -/
def Obligations.TrapEntry : Prop :=
  (∀ (s : State) (t : TrapInfo) (a : Machine.Acc), s.me.mode = .u → s.trapBlock = .ok a →
    s.demand (.ofCore s.cur) a .store = none → s.myLaunch.trapVec ≠ 0 → t.cause ≠ .retEmpty → t.fatal = false → s.inv = true →
    let pc := t.pc.getD s.me.pc
    let s' := s.takeTrap t
    s'.bytesAt a.keys = trapRecord s t false pc ∧ (∀ x, x ∉ a.keys → s'.mem.get x = s.mem.get x) ∧
    s'.me.epc = pc ∧ s'.me.mode = .h ∧ s'.me.pc = s.myLaunch.trapVec ∧
    s'.me.reg (.w 0) = .value s.trapVa ∧ s'.me.reg (.w 1) = .value (BitVec.ofNat 64 t.cause.code) ∧
    s'.me.reg (.w 2) = .value t.addr ∧
    s'.me.reg (.w 3) = .value (match t.sym with | some i => BitVec.ofNat 64 i.val | none => BitVec.allOnes 64) ∧
    (∀ n : Fin 24, 4 ≤ n.val → s'.me.reg (.w n) = .value 0) ∧ s'.me.reg .lat = .value 0 ∧
    s'.me.phase = false ∧ s'.me.run = .ready ∧ (∀ l, (s.cur.val, s.slot.val, l) ∉ s'.links) ∧
    s'.me.stack = s.me.stack ∧ s'.me.g = s.me.g ∧ s'.me.o = s.me.o ∧ s'.me.lat = s.me.lat ∧ s'.me.v = s.me.v ∧
    s'.me.m = s.me.m ∧ s'.me.ras = s.me.ras ∧ s'.me.pos = s.me.pos ∧
    (∀ k, k ≠ s.slot → s'.ctx s.cur k = s.ctx s.cur k) ∧ (∀ c, c ≠ s.cur → s'.core c = s.core c)) ∧
  (∀ (s : State) (t : TrapInfo) (fatal : Bool) (pc : Word),
    let r := trapRecord s t fatal pc
    r.length = 64 ∧ leNat (r.take 1) = t.cause.code ∧
    leNat ((r.drop 1).take 1) = (if fatal then 1 else 0) + (if t.async.isSome then 2 else 0) +
      (if s.me.mode = .h then 4 else 0) + (if t.sym.isSome then 8 else 0) ∧
    leNat ((r.drop 2).take 1) = s.slot.val ∧
    leNat ((r.drop 3).take 1) = (match t.sym with | some i => i.val | none => 0) ∧
    leNat ((r.drop 4).take 2) = s.me.gen.toNat ∧ leNat ((r.drop 6).take 1) = s.cur.die.val ∧
    leNat ((r.drop 7).take 1) = s.partOf s.cur ∧ leNat ((r.drop 8).take 2) = s.cur.local ∧
    leNat ((r.drop 10).take 2) = 0 ∧ leNat ((r.drop 12).take 4) = s.myCore.rank % 2 ^ 32 ∧
    leNat ((r.drop 16).take 8) = s.myCore.launch.getD 0 % 2 ^ 64 ∧ leNat ((r.drop 24).take 8) = pc.toNat ∧
    leNat ((r.drop 32).take 8) = t.addr.toNat ∧
    leNat ((r.drop 40).take 4) =
      (if t.noWord then 0 else match s.fetchWord s.cur pc with | .ok w => w.toNat | .error _ => 0) ∧
    leNat ((r.drop 44).take 4) = t.async.getD 0 % 2 ^ 32 ∧ leNat ((r.drop 48).take 8) = s.timeAt s.cur % 2 ^ 64 ∧
    leNat ((r.drop 56).take 8) = 0)

open Sys2Proof Sys2Proof.Machine Sys2Proof.Stmt in
/-- A synchronous trap of RET_EMPTY, one marked fatal, any while TRAP.VEC is 0 or in mode H, its record waiting for
nothing at its home, and any with no trap block that can be written, is fatal: the runtime receives a record with
FATAL set and the cause's code, the launch's FATAL count rises by one, the context's slot is empty, its registers
that hold VALUEs still hold them, and every other context of every core is unchanged but for symbols and messages:
its registers, PC and mode. An asynchronous trap that would be fatal, TRAP.VEC being 0 or the context in mode H
among the causes, reports to the runtime, with FATAL clear, and ends no context. That a slot's registers keep their
VALUEs past its context's end is the model's choice (assumption 89). (16 Traps, pre-emption and context switch:
fatal traps; 04 Control flow, windows and helpers: fin) -/
def Obligations.FatalTrap : Prop :=
  (∀ (s : State) (t : TrapInfo), t.async = none →
    (∃ e, s.trapBlock = .error e ∧ ∀ n, e ≠ .snoop n) ∨ (∃ a, s.trapBlock = .ok a ∧ s.demand (.ofCore s.cur) a .store = none ∧
      (t.cause = .retEmpty ∨ t.fatal = true ∨ s.myLaunch.trapVec = 0 ∨ s.me.mode = .h)) →
    let s' := s.takeTrap t
    s'.me = s.me.ended ∧ s'.me.live = false ∧
    (∀ n v, s.me.reg n = .value v → s'.me.reg n = .value v) ∧
    (∃ r, s'.out = .trap r :: s.out ∧ r = trapRecord s t true (t.pc.getD s.me.pc) ∧ r.length = 64 ∧
      r.getD 0 0 = BitVec.ofNat 8 t.cause.code ∧ (r.getD 1 0).getLsbD 0 = true) ∧
    (∀ c k, (c, k) ≠ (s.cur, s.slot) → s'.ctx c k = s.ctx c k) ∧
    (∀ id, s.myCore.launch = some id → s'.launches = s.launches.map fun l =>
      if l.id == id && l.part == s.partOf s.cur then { l with fatal := l.fatal + 1 } else l)) ∧
  (∀ (s : State) (t : TrapInfo), t.async.isSome = true →
    (∃ e, s.trapBlock = .error e ∧ ∀ n, e ≠ .snoop n) ∨ (∃ a, s.trapBlock = .ok a ∧ s.demand (.ofCore s.cur) a .store = none ∧
      (t.cause = .retEmpty ∨ t.fatal = true ∨ s.myLaunch.trapVec = 0 ∨ s.me.mode = .h)) →
    (s.takeTrap t).out = .trap (trapRecord s t false (t.pc.getD s.me.pc)) :: s.out ∧ (s.takeTrap t).me.live = s.me.live ∧
    (s.takeTrap t).me.regs = s.me.regs ∧ (s.takeTrap t).launches = s.launches)

namespace Sys2Proof.Stmt

open Sys2Proof.Machine

/-- The low bits of a register, as many as the type has (R80). -/
def part (t : Ty) (v : Word) : BitVec (8 * t.bytes) := v.setWidth _

/-- What an N-bit result writes to a register: sign-extended for `.iN`, zero-extended for `.zN` (R28, R80). -/
def intReg (t : Ty) (r : BitVec (8 * t.bytes)) : Word := if t.isSigned then r.signExtend 64 else r.setWidth 64

/-- The N-bit result of a two-source integer instruction (R81 to R83). -/
def intResult (op : IntOp) {n : Nat} (x y : BitVec n) : BitVec n :=
  match op with
  | .add => x + y
  | .sub => x - y
  | .min => if x.sle y then x else y
  | .minz => if x.ule y then x else y
  | .max => if x.sle y then y else x
  | .maxz => if x.ule y then y else x
  | .mul => x * y
  | .mulh => (x.signExtend (2 * n) * y.signExtend (2 * n)).extractLsb' n n
  | .mulhz => (x.setWidth (2 * n) * y.setWidth (2 * n)).extractLsb' n n
  | .div => if y = 0 then BitVec.allOnes n else x.sdiv y
  | .divz => if y = 0 then BitVec.allOnes n else x / y
  | .rem => if y = 0 then x else x.srem y
  | .remz => if y = 0 then x else x % y
  | .and => x &&& y
  | .or => x ||| y
  | .xor => x ^^^ y
  | .andn => x &&& ~~~y
  | .shl => x <<< (y.toNat % n)
  | .shr => x >>> (y.toNat % n)
  | .sra => x.sshiftRight (y.toNat % n)
  | .rotl => x.rotateLeft (y.toNat % n)

/-- The events of a two-source integer instruction: EV.10 for a division by zero or a division overflow (R82). -/
def intEvents (op : IntOp) {n : Nat} (x y : BitVec n) : List Nat :=
  let signed := op == .div || op == .rem
  if (signed || op == .divz || op == .remz) && (y == 0 || (signed && x == BitVec.intMin n && y == BitVec.allOnes n)) then [10]
  else []

/-- The N-bit result of a one-source integer instruction (R81, R83). -/
def intResult1 (op : IntOp1) {n : Nat} (x : BitVec n) : BitVec n :=
  match op with
  | .neg => 0 - x
  | .abs => if x.slt 0 then 0 - x else x
  | .not => ~~~x
  | .clz => BitVec.ofNat n ((List.range n).takeWhile fun k => !x.getMsbD k).length
  | .ctz => BitVec.ofNat n ((List.range n).takeWhile fun k => !x.getLsbD k).length
  | .popc => BitVec.ofNat n ((List.range n).countP fun k => x.getLsbD k)

/-- The two-source integer instructions: operation, TYPE, operands, literal and length in bytes. -/
inductive TwoSource : Instr → IntOp → Option Ty → Dst → Src → Src → Word → Nat → Prop
  | add (d x y) : TwoSource (.add d x y) .add none d x y 0 4
  | addX (f ty d x y) : TwoSource (.addX f ty d x y) .add ty d x y f.value (formBytes f)
  | sub (d x y) : TwoSource (.sub d x y) .sub none d x y 0 4
  | subX (f ty d x y) : TwoSource (.subX f ty d x y) .sub ty d x y f.value (formBytes f)
  | min (d x y) : TwoSource (.min d x y) .min none d x y 0 4
  | minX (f ty d x y) : TwoSource (.minX f ty d x y) .min ty d x y f.value (formBytes f)
  | minz (d x y) : TwoSource (.minz d x y) .minz none d x y 0 4
  | minzX (f ty d x y) : TwoSource (.minzX f ty d x y) .minz ty d x y f.value (formBytes f)
  | max (d x y) : TwoSource (.max d x y) .max none d x y 0 4
  | maxX (f ty d x y) : TwoSource (.maxX f ty d x y) .max ty d x y f.value (formBytes f)
  | maxz (d x y) : TwoSource (.maxz d x y) .maxz none d x y 0 4
  | maxzX (f ty d x y) : TwoSource (.maxzX f ty d x y) .maxz ty d x y f.value (formBytes f)
  | mul (d x y) : TwoSource (.mul d x y) .mul none d x y 0 4
  | mulX (f ty d x y) : TwoSource (.mulX f ty d x y) .mul ty d x y f.value (formBytes f)
  | mulh (d x y) : TwoSource (.mulh d x y) .mulh none d x y 0 4
  | mulhX (f ty d x y) : TwoSource (.mulhX f ty d x y) .mulh ty d x y f.value (formBytes f)
  | mulhz (d x y) : TwoSource (.mulhz d x y) .mulhz none d x y 0 4
  | mulhzX (f ty d x y) : TwoSource (.mulhzX f ty d x y) .mulhz ty d x y f.value (formBytes f)
  | div (d x y) : TwoSource (.div d x y) .div none d x y 0 4
  | divX (f ty d x y) : TwoSource (.divX f ty d x y) .div ty d x y f.value (formBytes f)
  | divz (d x y) : TwoSource (.divz d x y) .divz none d x y 0 4
  | divzX (f ty d x y) : TwoSource (.divzX f ty d x y) .divz ty d x y f.value (formBytes f)
  | rem (d x y) : TwoSource (.rem d x y) .rem none d x y 0 4
  | remX (f ty d x y) : TwoSource (.remX f ty d x y) .rem ty d x y f.value (formBytes f)
  | remz (d x y) : TwoSource (.remz d x y) .remz none d x y 0 4
  | remzX (f ty d x y) : TwoSource (.remzX f ty d x y) .remz ty d x y f.value (formBytes f)
  | and (d x y) : TwoSource (.and d x y) .and none d x y 0 4
  | andX (f ty d x y) : TwoSource (.andX f ty d x y) .and ty d x y f.value (formBytes f)
  | or (d x y) : TwoSource (.or d x y) .or none d x y 0 4
  | orX (f ty d x y) : TwoSource (.orX f ty d x y) .or ty d x y f.value (formBytes f)
  | xor (d x y) : TwoSource (.xor d x y) .xor none d x y 0 4
  | xorX (f ty d x y) : TwoSource (.xorX f ty d x y) .xor ty d x y f.value (formBytes f)
  | andn (d x y) : TwoSource (.andn d x y) .andn none d x y 0 4
  | andnX (f ty d x y) : TwoSource (.andnX f ty d x y) .andn ty d x y f.value (formBytes f)
  | shl (d x y) : TwoSource (.shl d x y) .shl none d x y 0 4
  | shlX (f ty d x y) : TwoSource (.shlX f ty d x y) .shl ty d x y f.value (formBytes f)
  | shr (d x y) : TwoSource (.shr d x y) .shr none d x y 0 4
  | shrX (f ty d x y) : TwoSource (.shrX f ty d x y) .shr ty d x y f.value (formBytes f)
  | sra (d x y) : TwoSource (.sra d x y) .sra none d x y 0 4
  | sraX (f ty d x y) : TwoSource (.sraX f ty d x y) .sra ty d x y f.value (formBytes f)
  | rotl (d x y) : TwoSource (.rotl d x y) .rotl none d x y 0 4
  | rotlX (f ty d x y) : TwoSource (.rotlX f ty d x y) .rotl ty d x y f.value (formBytes f)

/-- The one-source integer instructions. -/
inductive OneSource : Instr → IntOp1 → Option Ty → Dst → Src → Word → Nat → Prop
  | neg (d x) : OneSource (.neg d x) .neg none d x 0 4
  | negX (f ty d x) : OneSource (.negX f ty d x) .neg ty d x f.value (formBytes f)
  | abs (d x) : OneSource (.abs d x) .abs none d x 0 4
  | absX (f ty d x) : OneSource (.absX f ty d x) .abs ty d x f.value (formBytes f)
  | not (d x) : OneSource (.not d x) .not none d x 0 4
  | notX (f ty d x) : OneSource (.notX f ty d x) .not ty d x f.value (formBytes f)
  | clz (d x) : OneSource (.clz d x) .clz none d x 0 4
  | clzX (f ty d x) : OneSource (.clzX f ty d x) .clz ty d x f.value (formBytes f)
  | ctz (d x) : OneSource (.ctz d x) .ctz none d x 0 4
  | ctzX (f ty d x) : OneSource (.ctzX f ty d x) .ctz ty d x f.value (formBytes f)
  | popc (d x) : OneSource (.popc d x) .popc none d x 0 4
  | popcX (f ty d x) : OneSource (.popcX f ty d x) .popc ty d x f.value (formBytes f)

/-- An integer form as a register holds it: with a = 0 it is VALUE b (R67). -/
def intForm (σ : Sym) (a b : Word) : Reg := if a = 0 then .value b else .int σ a b

/-- The table of R74 for two sources: the form that the result has. -/
inductive Folds : IntOp → Reg → Reg → Sym → Word → Word → Prop
  | addBoth (σ a b c d) : Folds .add (.int σ a b) (.int σ c d) σ (a + c) (b + d)
  | addLeft (σ a b c) : Folds .add (.int σ a b) (.value c) σ a (b + c)
  | addRight (σ a b c) : Folds .add (.value c) (.int σ a b) σ a (c + b)
  | subBoth (σ a b c d) : Folds .sub (.int σ a b) (.int σ c d) σ (a - c) (b - d)
  | subLeft (σ a b c) : Folds .sub (.int σ a b) (.value c) σ a (b - c)
  | subRight (σ a b c) : Folds .sub (.value c) (.int σ a b) σ (-a) (c - b)
  | mulLeft (σ a b c) : Folds .mul (.int σ a b) (.value c) σ (a * c) (b * c)
  | mulRight (σ a b c) : Folds .mul (.value c) (.int σ a b) σ (a * c) (b * c)
  | shl (σ a b k) : Folds .shl (.int σ a b) (.value k) σ (a <<< (k.toNat % 64)) (b <<< (k.toNat % 64))

/-- A source as a·X + b over one symbol. -/
inductive Affine : Reg → Sym → Word → Word → Prop
  | int (σ a b) : Affine (.int σ a b) σ a b
  | value (σ b) : Affine (.value b) σ 0 b

/-- The two forms of `lea`: operands, shift, displacement, literal and length. -/
inductive Lea : Instr → Dst → Src → Src → Nat → Word → Word → Nat → Prop
  | lea (d x y) : Lea (.lea d x y) d x y 0 0 0 4
  | leaX (f d x y sh imm) : Lea (.leaX f d x y sh imm) d x y sh.toNat (imm.signExtend 64) f.value (formBytes f)

/-- The forms of `mov`. -/
inductive Mov : Instr → Option Ty → Dst → Src → Word → Nat → Prop
  | mov (d x) : Mov (.mov d x) none d x 0 4
  | movX (f ty d x) : Mov (.movX f ty d x) ty d x f.value (formBytes f)

/-- The bit-field width of R84: m = min(min(ctl[12:6], 64), 64 − ctl[5:0]). -/
def fieldWidth (ctl : Word) : Nat := min (min (ctl.extractLsb' 6 7).toNat 64) (64 - (ctl.extractLsb' 0 6).toNat)

/-- 2^m − 1 at ctl[5:0]. -/
def fieldMask (ctl : Word) : Word := (BitVec.ofNat 64 (2 ^ fieldWidth ctl - 1)) <<< (ctl.extractLsb' 0 6).toNat

/-- The relation of an integer condition (R86). -/
def relHolds (c : Cond) {n : Nat} (x y : BitVec n) : Bool :=
  match c with
  | .eq => x == y
  | .ne => x != y
  | .lt => x.slt y
  | .le => x.sle y
  | .gt => y.slt x
  | .ge => y.sle x
  | .ltz => x.ult y
  | .lez => x.ule y
  | .gtz => y.ult x
  | .gez => y.ule x

/-- `bins x, ctl, f` (R84). -/
def binsResult (x ctl f : Word) : Word :=
  (f &&& ~~~fieldMask ctl) ||| ((x <<< (ctl.extractLsb' 0 6).toNat) &&& fieldMask ctl)

/-- `sel c, t, f` (R87). -/
def selResult (c t f : Word) : Word := if c = 0 then f else t

/-- `bext`, `sext` and `zext` (R84), and `cmp` (R86): what they write for two values. -/
inductive TwoWords : Instr → (Word → Word → Word) → Dst → Src → Src → Word → Nat → Prop
  | bext (d x y) : TwoWords (.bext d x y) (fun a c => (a >>> (c.extractLsb' 0 6).toNat) &&& BitVec.ofNat 64 (2 ^ fieldWidth c - 1)) d x y 0 4
  | bextX (f d x y) : TwoWords (.bextX f d x y) (fun a c => (a >>> (c.extractLsb' 0 6).toNat) &&& BitVec.ofNat 64 (2 ^ fieldWidth c - 1)) d x y f.value (formBytes f)
  | sext (d x y) : TwoWords (.sext d x y) (fun a n => if 64 ≤ n.toNat then a else (a.setWidth n.toNat).signExtend 64) d x y 0 4
  | sextX (f d x y) : TwoWords (.sextX f d x y) (fun a n => if 64 ≤ n.toNat then a else (a.setWidth n.toNat).signExtend 64) d x y f.value (formBytes f)
  | zext (d x y) : TwoWords (.zext d x y) (fun a n => if 64 ≤ n.toNat then a else (a.setWidth n.toNat).setWidth 64) d x y 0 4
  | zextX (f d x y) : TwoWords (.zextX f d x y) (fun a n => if 64 ≤ n.toNat then a else (a.setWidth n.toNat).setWidth 64) d x y f.value (formBytes f)
  | cmp (c d x y) : TwoWords (.cmp c d x y) (fun a b => if relHolds c a b then 1 else 0) d x y 0 4
  | cmpX (f c ty d x y) : TwoWords (.cmpX f c ty d x y)
      (fun a b => if relHolds c (part (intTy ty) a) (part (intTy ty) b) then 1 else 0) d x y f.value (formBytes f)

/-- `bins` (R84) and `sel` (R87): the fourth operand is the destination in a form without the extended words. -/
inductive ThreeWords : Instr → (Word → Word → Word → Word) → Dst → Src → Src → (Ctx → Reg) → Word → Nat → Prop
  | bins (d x y) : ThreeWords (.bins d x y) binsResult d x y (·.dstReg d) 0 4
  | binsL (v d x y z) : ThreeWords (.binsX (.l v) d x y z) binsResult d x y (·.dstReg d) v 12
  | binsX (d x y z) : ThreeWords (.binsX .x d x y z) binsResult d x y (·.src 0 z) 0 12
  | binsXL (v d x y z) : ThreeWords (.binsX (.xl v) d x y z) binsResult d x y (·.src v z) v 20
  | sel (d x y) : ThreeWords (.sel d x y) selResult d x y (·.dstReg d) 0 4
  | selL (v d x y z) : ThreeWords (.selX (.l v) d x y z) selResult d x y (·.dstReg d) v 12
  | selX (d x y z) : ThreeWords (.selX .x d x y z) selResult d x y (·.src 0 z) 0 12
  | selXL (v d x y z) : ThreeWords (.selX (.xl v) d x y z) selResult d x y (·.src v z) v 20

/-- A register whose symbol has failed, with what the trap reports (R71). -/
inductive Failed (x : Core) : Reg → TrapInfo → Prop
  | fault (r σ a) : r.sym = some σ → x.syms.get σ = .fault a →
      Failed x r { cause := .symFault, addr := a, sym := some σ }
  | cancelled (r σ) : r.sym = some σ → x.syms.get σ = .cancelled → Failed x r { cause := .symCancelled, sym := some σ }

/-- A register that holds no INT form and no VALUE: a log, an affine form or an unfinished replay (R70). -/
def OtherForm (r : Reg) : Prop := (∀ v, r ≠ .value v) ∧ ∀ σ a b, r ≠ .int σ a b

/-- An instruction that makes a blocking use of its sources, which it names in the order B, C, and D or A (R71, R72, R74): whatever they hold,
or, of a folding instruction, under NOFOLD, at a narrow type, or where they hold what does not fold. -/
inductive BlocksOn (s : State) : Instr → List Reg → Prop
  | two (i op ty d x y lit len) : TwoSource i op ty d x y lit len →
      op ∉ [.add, .sub, .mul, .shl] ∨ ty ∉ [none, some .i64, some .z64] ∨ s.me.nofold = true →
      BlocksOn s i [s.me.src lit x, s.me.src lit y]
  | other (i op ty d x y lit len) : TwoSource i op ty d x y lit len → OtherForm (s.me.src lit x) ∨ OtherForm (s.me.src lit y) →
      BlocksOn s i [s.me.src lit x, s.me.src lit y]
  | product (i ty d x y lit len) : TwoSource i .mul ty d x y lit len → (s.me.src lit x).symbolic → (s.me.src lit y).symbolic →
      BlocksOn s i [s.me.src lit x, s.me.src lit y]
  | amount (i ty d x y lit len) : TwoSource i .shl ty d x y lit len → (s.me.src lit y).symbolic →
      BlocksOn s i [s.me.src lit x, s.me.src lit y]
  | apart (i op ty d x y lit len σ a b τ c e) : TwoSource i op ty d x y lit len → s.me.src lit x = .int σ a b →
      s.me.src lit y = .int τ c e → σ ≠ τ → BlocksOn s i [s.me.src lit x, s.me.src lit y]
  | one (i op ty d x lit len) : OneSource i op ty d x lit len →
      op ≠ .neg ∨ ty ∉ [none, some .i64, some .z64] ∨ s.me.nofold = true → BlocksOn s i [s.me.src lit x]
  | words (i g d x y lit len) : TwoWords i g d x y lit len → BlocksOn s i [s.me.src lit x, s.me.src lit y]
  | three (i g d x y z lit len) : ThreeWords i g d x y z lit len → BlocksOn s i [s.me.src lit x, s.me.src lit y, z s.me]
  | bcmp (lit c ty x y imm) : BlocksOn s (.bcmp lit c ty x y imm) [s.me.src (litVal lit) x, s.me.src (litVal lit) y]
  | ld (t d b x) : BlocksOn s (.ld t d b x) [s.me.src 0 b, s.me.src 0 x]
  | ldX (f t w imm ef d b x) : BlocksOn s (.ldX f t w imm ef d b x) [s.me.src f.value b, s.me.src f.value x]
  | ldd (t d b x) : BlocksOn s (.ldd t d b x) [s.me.src 0 b, s.me.src 0 x]
  | lddX (f t w imm ef d b x) : BlocksOn s (.lddX f t w imm ef d b x) [s.me.src f.value b, s.me.src f.value x]

end Sys2Proof.Stmt

open Sys2Proof Sys2Proof.Machine Sys2Proof.Stmt in
/-- For every integer arithmetic, logic, shift and count instruction, in its 32-bit and extended forms, and every TYPE:
with VALUE sources it completes, and the next state is the state with the N-bit result (wrapping sums and products,
high halves, division with its two corner cases, shifts by the amount mod N, rotations, counts), extended as TYPE
says, in the destination and in lat, EV.10 counted exactly in the two division corner cases, and the PC past the
form. (03 Scalar and symbolic instructions: integer arithmetic and logic; 02 Number formats: integer formats) -/
def Obligations.IntegerResults : Prop :=
  (∀ (s : State) (i : Instr) (op : IntOp) (ty : Option Ty) (d : Dst) (x y : Src) (lit a b : Word) (len : Nat),
    TwoSource i op ty d x y lit len → s.me.src lit x = .value a → s.me.src lit y = .value b →
    exec i s = .next (s.result d (intReg (intTy ty) (intResult op (part (intTy ty) a) (part (intTy ty) b)))
      (intEvents op (part (intTy ty) a) (part (intTy ty) b)) len)) ∧
  (∀ (s : State) (i : Instr) (op : IntOp1) (ty : Option Ty) (d : Dst) (x : Src) (lit a : Word) (len : Nat),
    OneSource i op ty d x lit len → s.me.src lit x = .value a →
    exec i s = .next (s.result d (intReg (intTy ty) (intResult1 op (part (intTy ty) a))) [] len))

open Sys2Proof Sys2Proof.Machine Sys2Proof.Stmt in
/-- With VALUE sources each completes and writes to the destination and lat: bext the field of m bits at ctl[5:0], bins
the field inserted in f (the destination register in the forms without D), sext and zext the low n bits extended (n
read unsigned; 0 gives 0, 64 and more give x), lea the sum base + (index << sh) + displacement mod 2^64, cmp 1 or 0
by the relation on the low N bits, sel t or f, mov x narrowed and extended, movl the literal; no events; the PC
moves past the form. That bins and sel with a literal and no D read the destination as the fourth operand is the
model's choice (assumption 69). (03 Scalar and symbolic instructions: bit fields, compare, select and move) -/
def Obligations.FieldCompareSelectMoveResults : Prop :=
  (∀ (s : State) (i : Instr) (g : Word → Word → Word) (d : Dst) (x y : Src) (lit a b : Word) (len : Nat),
    TwoWords i g d x y lit len → s.me.src lit x = .value a → s.me.src lit y = .value b →
    exec i s = .next (s.result d (g a b) [] len)) ∧
  (∀ (s : State) (i : Instr) (g : Word → Word → Word → Word) (d : Dst) (x y : Src) (z : Ctx → Reg) (lit a b c : Word) (len : Nat),
    ThreeWords i g d x y z lit len → s.me.src lit x = .value a → s.me.src lit y = .value b → z s.me = .value c →
    exec i s = .next (s.result d (g a b c) [] len)) ∧
  (∀ (s : State) (i : Instr) (d : Dst) (x y : Src) (sh : Nat) (disp lit a b : Word) (len : Nat),
    Lea i d x y sh disp lit len → s.me.src lit x = .value a → s.me.src lit y = .value b →
    exec i s = .next (s.result d (a + (b <<< sh) + disp) [] len)) ∧
  (∀ (s : State) (i : Instr) (ty : Option Ty) (d : Dst) (x : Src) (lit a : Word) (len : Nat),
    Mov i ty d x lit len → s.me.src lit x = .value a →
    exec i s = .next (s.result d (intReg (intTy ty) (part (intTy ty) a)) [] len)) ∧
  (∀ (s : State) (long : Bool) (d : Dst) (v : Word),
    exec (.movl long d v) s = .next (s.result d v [] (if long then 20 else 12)))

open Sys2Proof Sys2Proof.Machine Sys2Proof.Stmt in
/-- With SYM.MODE.NOFOLD 0 and a TYPE of 0, .i64 or .z64: add, sub, mul and shl with the symbolic sources of the table,
neg of an INT form, lea over at most one symbol and mov of any form complete at once and write the table's form
(VALUE b where a is 0) to the destination and to lat, with no event. Blocking uses are those of every other integer
instruction (two-source outside the folding table, abs, not, clz, ctz, popc, bext, sext, zext, bins, sel, cmp,
bcmp), of ld and ldd, and of the folding ones under NOFOLD, at a narrow type, on two symbols, in a product or by an
amount of two symbols, or with a log, an affine form or an unfinished replay: of the sources in field order (B, C,
then D or A), the first that names a FAULT or CANCELLED symbol makes the instruction trap SYM_FAULT with the entry's
address, or SYM_CANCELLED with address 0, naming that symbol; if none has failed and one is not a VALUE, it waits:
nothing changes but that the context is marked blocked. (03 Scalar and symbolic instructions: integer forms; 03
Scalar and symbolic instructions: symbols and register states) -/
def Obligations.SymbolicOperands : Prop :=
  (∀ (s : State) (i : Instr) (op : IntOp) (ty : Option Ty) (d : Dst) (x y : Src) (lit : Word) (len : Nat) (σ : Sym) (a b : Word),
    TwoSource i op ty d x y lit len → ty ∈ [none, some .i64, some .z64] → s.me.nofold = false →
    Folds op (s.me.src lit x) (s.me.src lit y) σ a b → exec i s = .next (s.finish d (intForm σ a b) [] len)) ∧
  (∀ (s : State) (i : Instr) (ty : Option Ty) (d : Dst) (x : Src) (lit : Word) (len : Nat) (σ : Sym) (a b : Word),
    OneSource i .neg ty d x lit len → ty ∈ [none, some .i64, some .z64] → s.me.nofold = false →
    s.me.src lit x = .int σ a b → exec i s = .next (s.finish d (intForm σ (-a) (-b)) [] len)) ∧
  (∀ (s : State) (i : Instr) (d : Dst) (x y : Src) (sh : Nat) (disp lit : Word) (len : Nat) (σ : Sym) (a b c e : Word),
    Lea i d x y sh disp lit len → s.me.nofold = false → Affine (s.me.src lit x) σ a b → Affine (s.me.src lit y) σ c e →
    (s.me.src lit x).symbolic || (s.me.src lit y).symbolic →
    exec i s = .next (s.finish d (intForm σ (a + (c <<< sh)) (b + (e <<< sh) + disp)) [] len)) ∧
  (∀ (s : State) (i : Instr) (ty : Option Ty) (d : Dst) (x : Src) (lit : Word) (len : Nat) (σ : Sym),
    Mov i ty d x lit len → ty ∈ [none, some .i64, some .z64] → (s.me.src lit x).sym = some σ →
    exec i s = .next (s.finish d (s.me.src lit x) [] len)) ∧
  (∀ (s : State) (i : Instr) (rs : List Reg), BlocksOn s i rs →
    (∀ (n : Nat) (t : TrapInfo), (∀ j < n, ∀ t', ¬ Failed s.myCore (rs.getD j (.value 0)) t') →
      Failed s.myCore (rs.getD n (.value 0)) t → exec i s = .next (s.takeTrap t)) ∧
    ((∀ r ∈ rs, ∀ t', ¬ Failed s.myCore r t') → rs.any Reg.symbolic = true →
      exec i s = .next (s.modMe fun c => { c with run := .blocked })))

namespace Sys2Proof.Stmt

open Sys2Proof.Machine

/-- The FP arithmetic of R89 that may be logged (fadd, fsub, fmul, fma): operation number of R75, type, RND, FA,
destination, source registers in operand order, length. -/
inductive FpArith (t : Ctx) : Instr → Nat → Ty → Rnd → Bool → Dst → List Reg → Nat → Prop
  | fadd (d x y) : FpArith t (.fadd d x y) 0 .f32 .dyn false d [t.srcTy .f32 0 x, t.srcTy .f32 0 y] 4
  | faddX (f ty rnd fa d x y) : FpArith t (.faddX f ty rnd fa d x y) 0 (fpTy ty) rnd fa d
      [t.srcTy (fpTy ty) f.value x, t.srcTy (fpTy ty) f.value y] (formBytes f)
  | fsub (d x y) : FpArith t (.fsub d x y) 1 .f32 .dyn false d [t.srcTy .f32 0 x, t.srcTy .f32 0 y] 4
  | fsubX (f ty rnd fa d x y) : FpArith t (.fsubX f ty rnd fa d x y) 1 (fpTy ty) rnd fa d
      [t.srcTy (fpTy ty) f.value x, t.srcTy (fpTy ty) f.value y] (formBytes f)
  | fmul (d x y) : FpArith t (.fmul d x y) 2 .f32 .dyn false d [t.srcTy .f32 0 x, t.srcTy .f32 0 y] 4
  | fmulX (f ty rnd fa d x y) : FpArith t (.fmulX f ty rnd fa d x y) 2 (fpTy ty) rnd fa d
      [t.srcTy (fpTy ty) f.value x, t.srcTy (fpTy ty) f.value y] (formBytes f)
  | fma (d x y) : FpArith t (.fma d x y) 3 .f32 .dyn false d [t.srcTy .f32 0 x, t.srcTy .f32 0 y, t.dstReg d] 4
  | fmaL (v ty rnd fa d x y z) : FpArith t (.fmaX (.l v) ty rnd fa d x y z) 3 (fpTy ty) rnd fa d
      [t.srcTy (fpTy ty) v x, t.srcTy (fpTy ty) v y, t.dstReg d] 12
  | fmaX (ty rnd fa d x y z) : FpArith t (.fmaX .x ty rnd fa d x y z) 3 (fpTy ty) rnd fa d
      [t.srcTy (fpTy ty) 0 x, t.srcTy (fpTy ty) 0 y, t.srcTy (fpTy ty) 0 z] 12
  | fmaXL (v ty rnd fa d x y z) : FpArith t (.fmaX (.xl v) ty rnd fa d x y z) 3 (fpTy ty) rnd fa d
      [t.srcTy (fpTy ty) v x, t.srcTy (fpTy ty) v y, t.srcTy (fpTy ty) v z] 20

/-- The exact value of an FP operation of R75. -/
def exactFp (mode : RMode) (fn : Nat) (vs : List FpVal) : FpVal :=
  match fn, vs with
  | 0, [x, y] => x.add mode y
  | 1, [x, y] => x.sub mode y
  | 2, [x, y] => x.mul y
  | 3, [x, y, z] => x.fma mode y z
  | _, _ => .nan

/-- What one rounding of an exact value to a format writes, zero-extended, and the events it counts (R28, R89). -/
def rounded (t : Ty) (mode : RMode) (v : FpVal) : Word × List Nat :=
  let p := (Fmt.ofTy t).pack mode false 0 v
  (BitVec.ofNat 64 p.1, p.2.map FpEvent.scalar)

/-- The FP instructions whose sources are always blocking uses: the operation on one or two values. -/
inductive FpOther (t : Ctx) : Instr → (FpVal → FpVal → FpVal) → Ty → Rnd → Dst → List Reg → Nat → Prop
  | fdiv (d x y) : FpOther t (.fdiv d x y) (fun x y => x.div y) .f32 .dyn d [t.srcTy .f32 0 x, t.srcTy .f32 0 y] 4
  | fdivX (f ty rnd d x y) : FpOther t (.fdivX f ty rnd d x y) (fun x y => x.div y) (fpTy ty) rnd d
      [t.srcTy (fpTy ty) f.value x, t.srcTy (fpTy ty) f.value y] (formBytes f)
  | fsqrt (d x) : FpOther t (.fsqrt d x) (fun x _ => x.sqrt) .f32 .dyn d [t.srcTy .f32 0 x] 4
  | fsqrtX (f ty rnd d x) : FpOther t (.fsqrtX f ty rnd d x) (fun x _ => x.sqrt) (fpTy ty) rnd d
      [t.srcTy (fpTy ty) f.value x] (formBytes f)
  | fmin (d x y) : FpOther t (.fmin d x y) (fun x y => x.min2 y) .f32 .rne d [t.srcTy .f32 0 x, t.srcTy .f32 0 y] 4
  | fminX (f ty d x y) : FpOther t (.fminX f ty d x y) (fun x y => x.min2 y) (fpTy ty) .rne d
      [t.srcTy (fpTy ty) f.value x, t.srcTy (fpTy ty) f.value y] (formBytes f)
  | fmax (d x y) : FpOther t (.fmax d x y) (fun x y => x.max2 y) .f32 .rne d [t.srcTy .f32 0 x, t.srcTy .f32 0 y] 4
  | fmaxX (f ty d x y) : FpOther t (.fmaxX f ty d x y) (fun x y => x.max2 y) (fpTy ty) .rne d
      [t.srcTy (fpTy ty) f.value x, t.srcTy (fpTy ty) f.value y] (formBytes f)
  | fabs (d x) : FpOther t (.fabs d x) (fun x _ => x.abs) .f32 .rne d [t.srcTy .f32 0 x] 4
  | fabsX (f ty d x) : FpOther t (.fabsX f ty d x) (fun x _ => x.abs) (fpTy ty) .rne d
      [t.srcTy (fpTy ty) f.value x] (formBytes f)
  | fneg (d x) : FpOther t (.fneg d x) (fun x _ => x.neg) .f32 .rne d [t.srcTy .f32 0 x] 4
  | fnegX (f ty d x) : FpOther t (.fnegX f ty d x) (fun x _ => x.neg) (fpTy ty) .rne d
      [t.srcTy (fpTy ty) f.value x] (formBytes f)

/-- The table of R90. -/
def fpRel (c : FCond) (x y : FpVal) : Bool :=
  let nan := x == .nan || y == .nan
  match c with
  | .eq => !nan && x.eq y
  | .ne => nan || !x.eq y
  | .lt => !nan && x.lt y
  | .le => !nan && (x.lt y || x.eq y)
  | .gt => !nan && y.lt x
  | .ge => !nan && (y.lt x || x.eq y)
  | .un => nan
  | .ord => !nan

/-- The operand of `symt`, `symw` and `symx` names entry σ (R93). -/
def namesSym (s : State) : SymArg → Sym → Prop
  | .num n, σ => n = σ
  | .reg r, σ => (s.me.reg r).sym = some σ

/-- What a register of the core holds once X is delivered to symbol s (R70). -/
def afterDelivery (s : Sym) (x : Word) : Reg → Reg
  | .int σ a b => if σ = s then .value (a * x + b) else .int σ a b
  | .log σ l => if σ = s then .replay x l else .log σ l
  | .aff σ a b => if σ = s then .value (affVal a b x).1 else .aff σ a b
  | q => q

end Sys2Proof.Stmt

open Sys2Proof Sys2Proof.Machine Sys2Proof.Stmt in
/-- For FP32, FP16, BF16, E4M3 and E5M2, every rounding mode and every bit pattern of the format that is not a NaN:
reading the pattern's value and rounding it to the same format gives the same pattern and counts nothing; a NaN
gives the format's canonical NaN. (02 Number formats: floating-point formats, rounding) -/
def Obligations.FpExactValuesRoundTrip : Prop :=
  ∀ (t : Ty) (mode : RMode) (draw b : Nat), t.isFloat = true → b < 2 ^ (8 * t.bytes) →
    if tyVal t b = .nan then ((Fmt.ofTy t).pack mode false draw (tyVal t b)).1 = (Fmt.ofTy t).nan
    else (Fmt.ofTy t).pack mode false draw (tyVal t b) = (b, [])

open Sys2Proof Sys2Proof.Machine Sys2Proof.Stmt in
/-- For fadd, fsub, fmul and fma with SYM.MODE.NOFOLD and NOLOG 0, one source symbolic at position p of the operands and
the others VALUEs: without .fa, a pure form or a log of fewer than three entries gains one entry (operation,
position, TYPE, effective mode, the other operands in order) and the log is written to the destination and lat; with
.fa, a pure form (as 1.0 and -0.0) or an AFF form composes by the table of R77 with every step rounded RNE in FP32.
No event is counted. (That fma with a literal reads the destination as a source is the model's choice, log entry
69.) (03 Scalar and symbolic instructions: floating-point forms) -/
def Obligations.FpLogsAndAffineForms : Prop :=
  (∀ (s : State) (i : Instr) (fn : Fin 4) (t : Ty) (rnd : Rnd) (d : Dst) (rs : List Reg) (len : Nat) (p : Fin 3)
      (r : Reg) (ks : List Word) (σ : Sym) (l : List LogEntry),
    FpArith s.me i fn.val t rnd false d rs len → s.me.nofold = false → s.me.nolog = false →
    p.val < rs.length → rs = (ks.map Reg.value).insertIdx p.val r →
    ((r = .int σ 1 0 ∧ l = []) ∨ (r = .log σ l ∧ l.length < 3)) →
    exec i s = .next (s.finish d (.log σ (l ++ [{ fn, pos := p, ty := t, rnd := s.me.mode' rnd
                                                  k1 := ks.getD 0 0, k2 := ks.getD 1 0 }])) [] len)) ∧
  (∀ (s : State) (i : Instr) (fn : Fin 4) (t : Ty) (rnd : Rnd) (d : Dst) (rs : List Reg) (len : Nat) (p : Fin 3)
      (r : Reg) (ks : List Word) (σ : Sym) (a b : BitVec 32),
    FpArith s.me i fn.val t rnd true d rs len → s.me.nofold = false → s.me.nolog = false →
    p.val < rs.length → rs = (ks.map Reg.value).insertIdx p.val r →
    ((r = .int σ 1 0 ∧ a = 0x3F800000 ∧ b = 0x80000000) ∨ r = .aff σ a b) →
    exec i s = .next (s.finish d
      (.aff σ (affStep fn.val p.val a b ((ks.getD 0 0).setWidth 32) ((ks.getD 1 0).setWidth 32)).1
        (affStep fn.val p.val a b ((ks.getD 0 0).setWidth 32) ((ks.getD 1 0).setWidth 32)).2) [] len))

open Sys2Proof Sys2Proof.Machine Sys2Proof.Stmt in
/-- With VALUE sources, each floating instruction in every form, TYPE and rounding mode completes: the exact result on
the sources read in TYPE, rounded once in the effective mode (R47) to that format and zero-extended, in the
destination and lat, with the events of that rounding counted; fma's third factor is the destination in the forms
without the extended words; a .fa form without a symbolic source acts as the same instruction without it. (fma with
LEN 0b01, a literal and no D, reads the destination: the model's choice, log entry 69.) With VALUE sources: fcmp
writes 1 or 0 by the table of conditions (NaN operands included) and counts nothing; fcvt writes the conversion of
the source read in its type to the destination type under the effective mode with the events counted, integers
extended as their type says and formats zero-extended, and steps the context's generator 32 exactly when the
effective mode is stochastic; fcls writes the one-hot class of the pattern. (03 Scalar and symbolic instructions:
floating-point instructions; 02 Number formats: rounding, event counters; 02 Number formats: conversions, the
stochastic generator) -/
def Obligations.FpResults : Prop :=
  (∀ (s : State) (i : Instr) (fn : Nat) (t : Ty) (rnd : Rnd) (fa : Bool) (d : Dst) (vs : List Word) (len : Nat),
    FpArith s.me i fn t rnd fa d (vs.map .value) len →
    let r := rounded t (s.me.mode' rnd) (exactFp (s.me.mode' rnd) fn (vs.map fun v => tyVal t v.toNat))
    exec i s = .next (s.result d r.1 r.2 len)) ∧
  (∀ (s : State) (i : Instr) (op : FpVal → FpVal → FpVal) (t : Ty) (rnd : Rnd) (d : Dst) (vs : List Word) (len : Nat),
    FpOther s.me i op t rnd d (vs.map .value) len →
    let r := rounded t (s.me.mode' rnd) (op (tyVal t (vs.getD 0 0).toNat) (tyVal t (vs.getD 1 0).toNat))
    exec i s = .next (s.result d r.1 r.2 len)) ∧
  (∀ (s : State) (c : FCond) (d : Dst) (x y : Src) (a b : Word), s.me.srcTy .f32 0 x = .value a → s.me.srcTy .f32 0 y = .value b →
    exec (.fcmp c d x y) s = .next (s.result d (if fpRel c (tyVal .f32 a.toNat) (tyVal .f32 b.toNat) then 1 else 0) [] 4)) ∧
  (∀ (s : State) (f : Form) (c : FCond) (ty : Option Ty) (d : Dst) (x y : Src) (a b : Word),
    s.me.srcTy (fpTy ty) f.value x = .value a → s.me.srcTy (fpTy ty) f.value y = .value b →
    exec (.fcmpX f c ty d x y) s =
      .next (s.result d (if fpRel c (tyVal (fpTy ty) a.toNat) (tyVal (fpTy ty) b.toNat) then 1 else 0) [] (formBytes f))) ∧
  (∀ (s : State) (d : Dst) (x : Src) (a : Word), s.me.srcTy .f32 0 x = .value a →
    exec (.fcls d x) s = .next (s.result d (BitVec.ofNat 64 (Fmt.f32.cls (a.toNat % 2 ^ 32))) [] 4)) ∧
  (∀ (s : State) (f : Form) (ty : Option Ty) (d : Dst) (x : Src) (a : Word), s.me.srcTy (fpTy ty) f.value x = .value a →
    exec (.fclsX f ty d x) s = .next (s.result d
      (BitVec.ofNat 64 ((Fmt.ofTy (fpTy ty)).cls (a.toNat % 2 ^ (Fmt.ofTy (fpTy ty)).width))) [] (formBytes f))) ∧
  (∀ (s : State) (lit : Option Word) (dst src : Ty) (rnd : Rnd) (d : Dst) (x : Src) (a : Word),
    s.me.srcTy src (litVal lit) x = .value a →
    let mode := s.me.cvtMode dst rnd
    let r := convert mode s.me.ovf8 (s.me.draw 32) dst src a.toNat
    let s' := if mode = .sr then s.modMe fun t => t.stepGen 32 else s
    exec (.fcvt lit dst src rnd d x) s = .next (s'.result d
      (if dst.isFloat then BitVec.ofNat 64 r.1 else BitVec.ofInt 64 (bitsInt dst.isSigned (8 * dst.bytes) r.1))
      (r.2.map FpEvent.scalar) (if lit.isSome then 20 else 12)))

open Sys2Proof Sys2Proof.Machine Sys2Proof.Stmt in
/-- symt writes the state code of the entry named (0 RESOLVED or no symbol, 1 PENDING, 2 FAULT, 3 CANCELLED, 4 FREE);
symw writes it when it is not 1 and otherwise waits without effect; symx writes the code held before and, if that
was 1, sets the entry CANCELLED and raises the symbol bit of the event latch of the context that sourced it, if that
has not ended. A register that names no symbol gives 0 and changes no entry. Both lengths. (03 Scalar and symbolic
instructions: symbol instructions) -/
def Obligations.SymbolInstructions : Prop :=
  ∀ (s : State) (d : Dst) (a : SymArg) (code : Nat),
    ((∃ σ, namesSym s a σ ∧ code = (s.myCore.syms.get σ).code) ∨ ((∀ σ, ¬ namesSym s a σ) ∧ code = 0)) →
    exec (.symt d a) s = .next (s.result d (BitVec.ofNat 64 code) [] 4) ∧
    exec (.symtX d a) s = .next (s.result d (BitVec.ofNat 64 code) [] 12) ∧
    (code ≠ 1 → exec (.symw d a) s = .next (s.result d (BitVec.ofNat 64 code) [] 4) ∧
      exec (.symwX d a) s = .next (s.result d (BitVec.ofNat 64 code) [] 12) ∧
      exec (.symx d a) s = .next (s.result d (BitVec.ofNat 64 code) [] 4) ∧
      exec (.symxX d a) s = .next (s.result d (BitVec.ofNat 64 code) [] 12)) ∧
    (code = 1 → exec (.symw d a) s = .next (s.modMe fun t => { t with run := .blocked }) ∧
      exec (.symwX d a) s = .next (s.modMe fun t => { t with run := .blocked }) ∧
      ∃ σ n k, namesSym s a σ ∧ s.myCore.syms.get σ = .pending n k ∧
        let s' := s.modCore s.cur fun x => ({ x with syms := x.syms.set σ.val .cancelled σ.isLt }).latchOwner k 1
        exec (.symx d a) s = .next (s'.result d 1 [] 4) ∧ exec (.symxX d a) s = .next (s'.result d 1 [] 12))

open Sys2Proof Sys2Proof.Machine Sys2Proof.Stmt in
/-- When a source delivers X to its PENDING symbol s, the entry becomes RESOLVED with X and, in the same state, every
register of every context of the core (all 136 stack entries, g0-g7, o0-o7, lat, and the handler's 24 registers and
latch) that holds INT(s, a, b) holds VALUE a X + b, every LOG over s is ready for replay on X, every AFF(s, a, b)
holds VALUE of the FP32 fused a X32 + b; every register over another symbol, and every VALUE, is unchanged; a source
whose entry was cancelled or reused changes nothing. (03 Scalar and symbolic instructions: symbols and register
states) -/
def Obligations.DeliveryResolvesEveryHolder : Prop :=
  (∀ (x : Core) (r : SymRef) (v : Word) (k : Option SlotId), x.syms.get r.s = .pending r.serial k →
    (x.deliver r v).syms = x.syms.set r.s.val (.resolved v) r.s.isLt ∧
    ∀ (j : SlotId),
      (∀ n : Fin 136, ((x.deliver r v).ctx j).stack.get n = afterDelivery r.s v ((x.ctx j).stack.get n)) ∧
      (∀ n : Fin 8, ((x.deliver r v).ctx j).g.get n = afterDelivery r.s v ((x.ctx j).g.get n) ∧
        ((x.deliver r v).ctx j).o.get n = afterDelivery r.s v ((x.ctx j).o.get n)) ∧
      ((x.deliver r v).ctx j).lat = afterDelivery r.s v (x.ctx j).lat ∧
      (∀ n : Fin 24, ((x.deliver r v).ctx j).hw.get n = afterDelivery r.s v ((x.ctx j).hw.get n)) ∧
      ((x.deliver r v).ctx j).hlat = afterDelivery r.s v (x.ctx j).hlat) ∧
  (∀ (x : Core) (r : SymRef) (v : Word), (∀ k, x.syms.get r.s ≠ .pending r.serial k) → x.deliver r v = x)

namespace Sys2Proof.Stmt

open Sys2Proof.Machine

/-- The direct branches and calls: offset in words, length. -/
inductive Branch : Instr → Word → Prop
  | br (off) : Branch (.br off) (off.signExtend 64)
  | brX (imm) : Branch (.brX imm) (imm.signExtend 64)

inductive Call : Instr → Word → Nat → Prop
  | call (off) : Call (.call off) (off.signExtend 64) 4
  | callX (imm) : Call (.callX imm) (imm.signExtend 64) 12

inductive Loop : Instr → CtrReg → Word → Nat → Prop
  | loop (x off) : Loop (.loop x off) x (off.signExtend 64) 4
  | loopX (x imm) : Loop (.loopX x imm) x (imm.signExtend 64) 12

/-- `jtb` and `jtc`: whether it calls, the operands, the literal and the length. -/
inductive JumpTable : Instr → Bool → Src → Src → Src → BitVec 24 → BitVec 12 → Word → Nat → Prop
  | jtb (tbl idx len imm label) : JumpTable (.jtb none tbl idx len imm label) false tbl idx len imm label 0 12
  | jtbL (v tbl idx len imm label) : JumpTable (.jtb (some v) tbl idx len imm label) false tbl idx len imm label v 20
  | jtc (tbl idx len imm label) : JumpTable (.jtc none tbl idx len imm label) true tbl idx len imm label 0 12
  | jtcL (v tbl idx len imm label) : JumpTable (.jtc (some v) tbl idx len imm label) true tbl idx len imm label v 20

/-- A branch counts words from word 0 of the instruction. -/
def branchTo (s : State) (off : Word) : Word := s.me.pc + 4 * off

/-- The `land` word of a label (R97, R112). -/
def landOf (label : BitVec 12) : BitVec 32 :=
  4#6 ++ label.extractLsb' 6 6 ++ label.extractLsb' 0 6 ++ 0#6 ++ 0x19#6 ++ 0#2

/-- A call's effect on frames (R102): the current entry takes the return address, the window moves on, and the new frame's
w8 to w23 are VALUE 0. -/
def Called (t t' : Ctx) (ret : Word) : Prop :=
  t'.pos.val = t.pos.val + 1 ∧ t'.ras.get t.pos = some ret ∧ (∀ k, k ≠ t.pos → t'.ras.get k = t.ras.get k) ∧
  (∀ n : Fin 24, 8 ≤ n.val → t'.stack.get (stackIdx t'.pos n) = .value 0) ∧
  (∀ i : Fin 136, i.val < 16 * t'.pos.val + 8 ∨ 16 * t'.pos.val + 24 ≤ i.val → t'.stack.get i = t.stack.get i) ∧
  { t' with pos := t.pos, ras := t.ras, stack := t.stack, pc := t.pc, run := t.run } = t

/-- Where record n of the spill area lies (R106). -/
def spillRecord (t : Ctx) (n : Nat) : Word := BitVec.ofNat 64 (t.spillBase.toNat * 16 + 144 * n)

/-- The 144 bytes of a spill record (R106). -/
def spillBytes (ws : List Word) (ret : Word) : List Byte :=
  ws.flatMap (fun w => leBytes 8 w.toNat) ++ leBytes 8 ret.toNat ++ leBytes 8 0

end Sys2Proof.Stmt

open Sys2Proof Sys2Proof.Machine Sys2Proof.Stmt in
/-- br sets the PC to word 0 plus 4 times its signed offset; bcmp does so when the relation holds on the low N bits of
its VALUE sources and moves past itself otherwise; land and nop only move past themselves; realign moves past itself
when no peer lags by more than its distance, and otherwise stalls with that PC kept for the end of the stall.
Nothing else changes. (04 Control flow: direct branches and loops, hints and padding) -/
def Obligations.BranchesAndHints : Prop :=
  (∀ (s : State) (i : Instr) (off : Word), Branch i off → exec i s = .next (s.goto (branchTo s off))) ∧
  (∀ (s : State) (lit : Option Word) (c : Cond) (ty : Option Ty) (x y : Src) (imm : BitVec 24) (a b : Word),
    s.me.src (litVal lit) x = .value a → s.me.src (litVal lit) y = .value b →
    exec (.bcmp lit c ty x y imm) s =
      .next (if relHolds c (part (intTy ty) a) (part (intTy ty) b) then s.goto (branchTo s (imm.signExtend 64))
        else s.advance (if lit.isSome then 20 else 12))) ∧
  (∀ (s : State) (label : BitVec 12), exec (.land label) s = .next (s.advance 4)) ∧
  (∀ s : State, exec .nop s = .next (s.advance 4) ∧ exec .nopX s = .next (s.advance 12)) ∧
  (∀ (s : State) (lit : Option Word) (x : Src) (dist : Word), s.me.src (litVal lit) x = .value dist →
    let len := if lit.isSome then 12 else 4
    exec (.realign lit x) s =
      .next (if s.lags dist then s.modMe fun t => { t with run := .realign (t.pc + BitVec.ofNat 64 len) }
        else s.advance len))

open Sys2Proof Sys2Proof.Machine Sys2Proof.Stmt in
/-- For a counter register that holds a VALUE v, loop x, target writes v - 1 mod 2^64 to x and to lat, and goes to word
0 plus 4 times the signed offset if that is not 0 (so a counter of 0 becomes all ones and branches), past itself if
it is. A counter field of code 40 to 63 is refused as ILLEGAL_OPERAND by the decoder in the 32-bit form and, with
the other extended fields zero, in the extended one. (R100) -/
def Obligations.LoopCountsDown : Prop :=
  (∀ (s : State) (i : Instr) (x : CtrReg) (off v : Word) (len : Nat), Loop i x off len → s.me.dstReg (ctrDst x) = .value v →
    exec i s = .next (if v - 1 ≠ 0 then (s.putV (ctrDst x) (v - 1)).goto (branchTo s off)
      else (s.putV (ctrDst x) (v - 1)).advance len)) ∧
  (∀ (a b c : BitVec 6), 40 ≤ a.toNat → decodeWords [0#6 ++ c ++ b ++ a ++ 0x1A#6 ++ 0#2] = .error .illegalOperand) ∧
  (∀ (a : BitVec 6) (imm : BitVec 24), 40 ≤ a.toNat →
    decodeWords [0#6 ++ 0#6 ++ 0#6 ++ a ++ 0x1A#6 ++ 2#2, 0#8 ++ imm, 0] = .error .illegalOperand)

open Sys2Proof Sys2Proof.Machine Sys2Proof.Stmt in
/-- In mode U: with the current frame at position 7 (eight frames resident) call traps SPILL, the saved PC being the
call. Otherwise the current frame's store entry receives the address of word 0 plus 4 or 12, the window moves to the
next position, the new frame's w8 to w23 are VALUE 0, the PC is the target, and nothing else of the state changes:
g0-g7, o0-o7, lat, vectors, masks, the rest of the stack and store, memory and every other context. Seven nested
calls from one resident frame therefore leave position 7, where the eighth traps. (R102) -/
def Obligations.CallPushesAFrame : Prop :=
  ∀ (s : State) (i : Instr) (off : Word) (len : Nat), Call i off len → s.me.mode = .u →
    (s.me.pos = 7 → exec i s = .next (s.takeTrap { cause := .spill })) ∧
    (s.me.pos ≠ 7 → ∃ t, exec i s = .next t ∧ t.me.pc = branchTo s off ∧ t.me.run = .ready ∧
      Called s.me t.me (s.me.pc + BitVec.ofNat 64 len) ∧ SameButMe s t)

open Sys2Proof Sys2Proof.Machine Sys2Proof.Stmt in
/-- In mode U: ret with a frame below moves the window down, takes that frame's store entry as the PC and empties it,
when the entry is a multiple of 4, and traps ALIGN with that address when it is not; at position 0 it traps FILL
when SPILL.DEPTH is above 0 and RET_EMPTY when it is 0. In mode H ret and call trap PERMISSION. With VALUE index,
length and base (A = zero stands for word 0's address), T = base + sext(IMM24): an index not below the length traps
JT_RANGE; then a T that is not a multiple of 8 traps ALIGN with T. When the load of T + 8 idx completes with an
entry e that is a multiple of 4, and the fetch of the word at e waits for nothing: with the land word of the label
at e, jtb goes to e and jtc (below eight frames, not in mode H) also acts as call with the return address past
itself; with another word at e, LAND_MISMATCH is taken in that state at PC e with word 0's address. jtc with eight
frames resident traps SPILL before the range check. (04 Control flow: frames, calls and returns; 04 Control flow:
jump tables and landing pads) -/
def Obligations.ReturnsAndJumpTables : Prop :=
  (∀ (s : State) (below : Fin 8) (dest : Word), s.me.mode ≠ .h → s.me.pos.val = below.val + 1 → s.me.ras.get below = some dest →
    exec .ret s = .next (if dest.toNat % 4 = 0 then
        (s.modMe fun t => { t with pos := below, ras := t.ras.set below.val none below.isLt }).goto dest
      else s.takeTrap { cause := .align, addr := dest })) ∧
  (∀ s : State, s.me.mode ≠ .h → s.me.pos = 0 →
    exec .ret s = .next (s.takeTrap { cause := if s.me.spillDepth = 0 then .retEmpty else .fill })) ∧
  (∀ s : State, s.me.mode = .h → exec .ret s = .next (s.takeTrap { cause := .permission }) ∧
    ∀ i off len, Call i off len → exec i s = .next (s.takeTrap { cause := .permission })) ∧
  (∀ (s : State) (i : Instr) (calls : Bool) (tbl idx n : Src) (imm : BitVec 24) (label : BitVec 12) (lit b j l : Word) (len : Nat),
    JumpTable i calls tbl idx n imm label lit len → (calls = true → s.me.mode ≠ .h) →
    s.me.src lit idx = .value j → s.me.src lit n = .value l →
    (if tbl = .zero then Reg.value s.me.pc else s.me.src lit tbl) = .value b →
    let T := b + imm.signExtend 64
    (calls = true → s.me.pos = 7 → exec i s = .next (s.takeTrap { cause := .spill })) ∧
    ((calls = true → s.me.pos ≠ 7) →
      (l.toNat ≤ j.toNat → exec i s = .next (s.takeTrap { cause := .jtRange })) ∧
      (j.toNat < l.toNat → T.toNat % 8 ≠ 0 → exec i s = .next (s.takeTrap { cause := .align, addr := T })) ∧
      (j.toNat < l.toNat → T.toNat % 8 = 0 → ∀ (s1 s2 : State) (a : Acc) (w : BitVec 32),
        s.loadAcc .glob (T + 8 * j) 8 = .ok (s1, a) → s1.valAcc a 8 % 4 = 0 →
        s1.landFetch (BitVec.ofNat 64 (s1.valAcc a 8)) = .ok s2 →
        let e := BitVec.ofNat 64 (s1.valAcc a 8)
        let t := (if calls then s2.modMe fun c => c.push (s.me.pc + BitVec.ofNat 64 len) else s2).goto e
        t.fetchWord t.cur e = .ok w →
        exec i s = .next (if w = landOf label then t else t.takeTrap { cause := .landMismatch, addr := s.me.pc }))))

open Sys2Proof Sys2Proof.Machine Sys2Proof.Stmt in
/-- Outside mode U: spillw with one frame resident, and fillw with DEPTH 0 or eight frames, only move past themselves.
spillw at the limit traps BOUNDS with the record's address. With no parked store on the record, the oldest frame's
w0 to w15 VALUEs and the record's words accessible, spillw writes them, the frame's store entry and zero as the 144
bytes of record DEPTH, raises DEPTH and moves every frame down one position with VALUE 0 behind; fillw loads record
DEPTH - 1 as VALUEs into entries 0 to 15 and the store entry of position 0, lowers DEPTH and moves every frame up
one. In mode U both trap PERMISSION. (04 Control flow: frames, calls and returns) -/
def Obligations.SpillAndFill : Prop :=
  (∀ s : State, s.me.mode = .u → exec .spillw s = .next (s.takeTrap { cause := .permission }) ∧
    exec .fillw s = .next (s.takeTrap { cause := .permission })) ∧
  (∀ s : State, s.me.mode ≠ .u → (s.me.pos = 0 → exec .spillw s = .next (s.advance 4)) ∧
    (s.me.spillDepth = 0 ∨ s.me.pos = 7 → exec .fillw s = .next (s.advance 4)) ∧
    (s.me.pos ≠ 0 → s.me.spillLimit.toNat ≤ s.me.spillDepth.toNat →
      exec .spillw s = .next (s.takeTrap { cause := .bounds, addr := spillRecord s.me s.me.spillDepth.toNat }))) ∧
  (∀ (s s1 : State) (ws : List Word) (ret : Word) (ks : List Nat), s.me.mode ≠ .u → s.me.pos ≠ 0 →
    s.me.spillDepth.toNat < s.me.spillLimit.toNat → s.me.stack.toList.take 16 = ws.map .value →
    s.me.ras.get 0 = some ret → s.me.parkedOn (spillRecord s.me s.me.spillDepth.toNat) 144 = false →
    s.recordAccs .spill .store (spillRecord s.me s.me.spillDepth.toNat) = .ok (s1, ks) →
    ∃ t, exec .spillw s = .next t ∧ t.mem = (s1.write s1.self ks (spillBytes ws ret)).mem ∧
      t.me.spillDepth = s1.me.spillDepth + 1 ∧ t.me.pos = s1.me.pos - 1 ∧ t.me.pc = s1.me.pc + 4 ∧
      (∀ i : Fin 136, ∀ h : i.val + 16 < 136, t.me.stack.get i = s.me.stack.get ⟨i.val + 16, h⟩) ∧
      (∀ i : Fin 136, 120 ≤ i.val → t.me.stack.get i = .value 0) ∧
      (∀ i : Fin 8, ∀ h : i.val + 1 < 8, t.me.ras.get i = s.me.ras.get ⟨i.val + 1, h⟩)) ∧
  (∀ (s s1 : State) (ks : List Nat), s.me.mode ≠ .u → s.me.spillDepth ≠ 0 → s.me.pos ≠ 7 →
    s.me.parkedOn (spillRecord s.me (s.me.spillDepth.toNat - 1)) 144 = false →
    s.recordAccs .fill .read (spillRecord s.me (s.me.spillDepth.toNat - 1)) = .ok (s1, ks) →
    ∃ t, exec .fillw s = .next t ∧ t.mem = s1.mem ∧ t.me.spillDepth = s1.me.spillDepth - 1 ∧
      t.me.pos = s1.me.pos + 1 ∧ t.me.pc = s1.me.pc + 4 ∧
      (∀ i : Fin 136, i.val < 16 →
        t.me.stack.get i = .value (BitVec.ofNat 64 (leNat (((s1.bytesAt ks).drop (8 * i.val)).take 8)))) ∧
      (∀ i : Fin 136, ∀ h : i.val - 16 < 136, 16 ≤ i.val → t.me.stack.get i = s.me.stack.get ⟨i.val - 16, h⟩) ∧
      t.me.ras.get 0 = some (BitVec.ofNat 64 (leNat (((s1.bytesAt ks).drop 128).take 8))))

open Sys2Proof Sys2Proof.Machine Sys2Proof.Stmt in
/-- In mode H with TRAP.EPC a multiple of 4, hret answers a state in mode U whose PC is TRAP.EPC, with every window
register and lat of the context as before the trap and memory unchanged. Taking a trap whose rule names no other PC
with a handler sets TRAP.EPC to the PC of the trapping instruction. cwr TRAP.EPC outside mode U stores its VALUE
source there. So a trap followed by hret leaves the PC at the trapping instruction, which executes again from its
start. (R110) -/
def Obligations.HretReturnsToTheSavedPc : Prop :=
  (∀ s : State, s.me.mode = .h → s.me.epc.toNat % 4 = 0 → ∃ t, exec .hret s = .next t ∧ t.me.mode = .u ∧ t.me.pc = s.me.epc ∧
    t.me.run = .ready ∧ t.me.stack = s.me.stack ∧ t.me.pos = s.me.pos ∧ t.me.ras = s.me.ras ∧ t.me.lat = s.me.lat ∧
    t.me.g = s.me.g ∧ t.me.o = s.me.o ∧ t.mem = s.mem) ∧
  (∀ (s : State) (c : TrapInfo), s.me.mode = .u →
    (∃ a, s.trapBlock = .ok a ∧ s.demand (.ofCore s.cur) a .store = none) → s.myLaunch.trapVec ≠ 0 → c.cause ≠ .retEmpty →
    c.fatal = false → c.pc = none → (s.takeTrap c).me.epc = s.me.pc ∧
    (s.me.pc.toNat % 4 = 0 → ∃ t, exec .hret (s.takeTrap c) = .next t ∧ t.me.mode = .u ∧ t.me.pc = s.me.pc)) ∧
  (∀ (s : State) (lit : Option Word) (x : Src) (v : Word), s.me.mode ≠ .u → s.me.src (litVal lit) x = .value v →
    ∃ t, exec (.cwr lit .trapEpc x) s = .next t ∧ t.me.epc = v)

open Sys2Proof Sys2Proof.Machine Sys2Proof.Stmt in
/-- The own effect of trapz and of a word with an unassigned MAJ or FN is its trap: each answers the state that has
taken it, with the cause, address 0 and the instruction's PC. A misaligned TRAP.EPC makes hret trap ALIGN with it,
and hret in mode U traps PERMISSION. (01 Instruction words and operands: decode and trap priority; 16 Traps, pre-
emption and context switch: taking a trap) -/
def Obligations.TrapInstructions : Prop :=
  (∀ s : State, exec .trapz s = .next (s.takeTrap { cause := .zeroWord })) ∧
  (∀ (s : State) (w : BitVec 32), exec (.illegalOp w) s = .next (s.takeTrap { cause := .illegalOp })) ∧
  (∀ s : State, s.me.mode = .u → exec .hret s = .next (s.takeTrap { cause := .permission })) ∧
  (∀ s : State, s.me.mode ≠ .u → s.me.epc.toNat % 4 ≠ 0 →
    exec .hret s = .next (s.takeTrap { cause := .align, addr := s.me.epc }))

namespace Sys2Proof.Stmt

open Sys2Proof.Machine

/-- The loads: access type, window, displacement, destination, base, index, literal, length. -/
inductive Load : Instr → LdTy → Win → BitVec 24 → Dst → Src → Src → Word → Nat → Prop
  | ld (t d b x) : Load (.ld t d b x) t .glob 0 d b x 0 4
  | ldX (f t w imm ef d b x) : Load (.ldX f t w imm ef d b x) t w imm d b x f.value (formBytes f)

inductive Deferred : Instr → LdTy → Win → BitVec 24 → Dst → Src → Src → Word → Nat → Prop
  | ldd (t d b x) : Deferred (.ldd t d b x) t .glob 0 d b x 0 4
  | lddX (f t w imm ef d b x) : Deferred (.lddX f t w imm ef d b x) t w imm d b x f.value (formBytes f)

inductive Linked : Instr → LdTy → Win → BitVec 24 → Dst → Src → Src → Word → Nat → Prop
  | lld (t d b x) : Linked (.lld t d b x) t .glob 0 d b x 0 4
  | lldX (f t w imm d b x) : Linked (.lldX f t w imm d b x) t w imm d b x f.value (formBytes f)

/-- The plain stores: access type, window, displacement, data, base, index, literal, length. -/
inductive Store : Instr → StTy → Win → BitVec 24 → Src → Src → Src → Word → Nat → Prop
  | st (t v b x) : Store (.st t v b x) t .glob 0 v b x 0 4
  | stX (f t w imm ef v b x) : Store (.stX f t w imm ef v b x) t w imm v b x f.value (formBytes f)

inductive BufLoad : Instr → LdTy → BitVec 24 → Dst → Src → Src → Word → Nat → Prop
  | ldb (t d b x) : BufLoad (.ldb t d b x) t 0 d b x 0 4
  | ldbX (f t imm ef d b x) : BufLoad (.ldbX f t imm ef d b x) t imm d b x f.value (formBytes f)

inductive BufStore : Instr → StTy → BitVec 24 → Src → Src → Src → Word → Nat → Prop
  | stb (t v b x) : BufStore (.stb t v b x) t 0 v b x 0 4
  | stbX (f t imm ef v b x) : BufStore (.stbX f t imm ef v b x) t imm v b x f.value (formBytes f)

inductive TagLoad : Instr → BitVec 24 → Dst → Src → Word → Nat → Prop
  | ldg (d b) : TagLoad (.ldg d b) 0 d b 0 4
  | ldgX (f imm d b) : TagLoad (.ldgX f imm d b) imm d b f.value (formBytes f)

inductive TagStore : Instr → Nat → BitVec 24 → Src → Src → Word → Nat → Prop
  | stg (v b) : TagStore (.stg v b) 1 0 v b 0 4
  | stgX (f n imm v b) : TagStore (.stgX f n imm v b) (n.toNat + 1) imm v b f.value (formBytes f)

/-- The bytes of a form with a literal: 12 without the extended words, 20 with them. -/
def optBytes (lit : Option Word) : Nat := if lit.isSome then 20 else 12

/-- The number that a checked access reads, little-endian (R5). -/
def loaded (s : State) (a : Acc) (n : Nat) (t : Ty) : Word := intReg t (BitVec.ofNat _ (s.valAcc a n))

/-- The conditions under which an access to a window of the executing core is not held up: no acquire is waiting, no
first-touch copy lies under it, no queued vector access shares a line with it, no byte of it is poisoned. -/
def Unhindered (s : State) (w : Win) (off n : Nat) : Prop :=
  let ks := range (lmKey s.cur w off) n
  s.me.acqWait = false ∧ s.me.replayQ = [] ∧ s.myCore.touched w off n = .clear ∧ s.me.vqTouches ks = false ∧
  s.poisoned ks = false

/-- A release at a scope that waits for nothing (R130, R179, R289, R391): no parked access, no queued vector memory
instruction, no stray write before the first release, and at `.sys`, or `.pkg` outside PM8, no link or port written over. -/
def ReleaseFree (s : State) (sc : Scope) : Prop :=
  s.me.replayQ = [] ∧ s.me.vq.any VOp.isMem = false ∧ (s.me.firstRelease = false ∨ s.myCore.strays = []) ∧
  (sc = .sys ∨ (sc = .pkg ∧ s.pm ≠ .pm8) →
    (s.die s.cur.die.val).seq = none ∧ s.me.relWait = 0 ∧ s.me.ncWait = 0 ∧ s.me.wrote = [] ∧ (sc = .sys → s.me.ncWrote = []))

/-- An acquire at a scope that may go: its die's link is in no change sequence, where a token must leave (R426). -/
def AcquireFree (s : State) (sc : Scope) : Prop :=
  sc = .sys ∨ (sc = .pkg ∧ s.pm ≠ .pm8) → (s.die s.cur.die.val).seq = none

/-- The state after a release that waits for nothing. -/
def released (s : State) : State := s.modMe fun t => { t with firstRelease := false }

/-- The state after an access's requests have been performed at their homes. -/
def performed (s : State) (a : Acc) (r : Req) : State :=
  let s' := s.arrive (.ofCore s.cur) a r
  if r.writes then s'.noteWrite a else s'

/-- Every check of an aligned access of n bytes at EA passes and nothing holds it up, said of the state and the address alone;
`a` is what it reaches: bytes of a window of the executing core, of a core's window through the aperture, or of device
memory. -/
def Reached (s : State) (k : AKind) (w : Win) (ea : Word) (n : Nat) (r : Req) (a : Acc) : Prop :=
  s.me.acqWait = false ∧ s.me.replayQ = [] ∧ ea.toNat % n = 0 ∧ s.me.vqTouches a.keys = false ∧ s.poisoned a.keys = false ∧
  s.myLaunch.pairs = [] ∧ s.crossHeld (.ofCore s.cur) a.keys = false ∧ (r.writes = true → s.reserveFull (a.keys.map pageOf) = false) ∧
  ((w ≠ .glob ∧ k.window w = true ∧ ea.toNat + n ≤ s.myLaunch.split.size w ∧ s.myCore.touched w ea.toNat n = .clear ∧
      a = { keys := range (lmKey s.cur w ea.toNat) n, place := .lm s.cur (some w) ea.toNat }) ∨
    (w = .glob ∧ s.quarantined a.keys = false ∧ ∃ f, s.walk s.myLaunch ea = .ok f ∧ f.allows k s.me.mode = true ∧ f.tagged = false ∧
      ((∃ c v off, placeOf s.pm s.myLaunch.part (f.addr ea) = .lm c (some v) off ∧ (s.core c).launch = some s.myLaunch.id ∧
          s.partOf c = s.myLaunch.part ∧ k.window v = true ∧ off + n ≤ s.myLaunch.split.size v ∧
          a = { keys := range (lmKey c v off) n, place := .lm c (some v) off, coh := f.coh, mode := f.mode,
                part := s.myLaunch.part, walked := f.walked }) ∨
        (k ∉ [.barrier, .barrierRead] ∧ f.addr ea < partSize s.pm ∧ (∀ m ∈ linesOf a.keys, s.dir.needsSnoop r m = false) ∧
          a = { keys := range (devKey s.pm s.myLaunch.part (f.addr ea)) n,
                place := .dev (devKey s.pm s.myLaunch.part (f.addr ea)), coh := f.coh, mode := f.mode,
                part := s.myLaunch.part, walked := f.walked }))))

end Sys2Proof.Stmt

open Sys2Proof Sys2Proof.Machine Sys2Proof.Stmt in
/-- For a load or store of n = 1, 2, 4 or 8 bytes at offset ea of window A or G (and loads of W) of the executing core,
in a launch without shadow pairs whose window fits the local memory (1 MiB): with ea + n inside the window's split,
ea a multiple of n and nothing in the way, the access is granted, names the n consecutive bytes of that core's
window in the aperture and changes nothing; an offset outside the window, or a window that does not accept the
access, traps WINDOW, before alignment; a misaligned offset inside traps ALIGN. (05 Memory: addresses, windows and
checks; 10 Local memory: windows, the aperture) -/
def Obligations.OwnWindowAccess : Prop :=
  ∀ (s : State) (w : Win) (ea : Word) (n : Nat), n ∈ [1, 2, 4, 8] → s.myLaunch.pairs = [] →
    (w ∈ [.W, .A, .G] → s.myLaunch.split.size w ≤ 2 ^ 20 → ea.toNat + n ≤ s.myLaunch.split.size w → ea.toNat % n = 0 → Unhindered s w ea.toNat n →
      s.loadAcc w ea n =
        .ok (s, { keys := range (lmKey s.cur w ea.toNat) n, place := .lm s.cur (some w) ea.toNat }) ∧
      (w ≠ .W → s.storeAcc .store w ea n =
        .ok (s, { keys := range (lmKey s.cur w ea.toNat) n, place := .lm s.cur (some w) ea.toNat }))) ∧
    (w ∈ [.W, .A, .C, .G] → s.me.acqWait = false → s.me.replayQ = [] →
      (w = .C ∨ s.myLaunch.split.size w ≤ ea.toNat → s.loadAcc w ea n = trap .window ea) ∧
      (w = .C ∨ w = .W → s.storeAcc .store w ea n = trap .window ea) ∧
      (w ≠ .C → ea.toNat < s.myLaunch.split.size w → ea.toNat % n ≠ 0 → s.loadAcc w ea n = trap .align ea))

open Sys2Proof Sys2Proof.Machine Sys2Proof.Stmt in
/-- For an access of n bytes to global memory at ea: misaligned, it traps ALIGN first; a walk that fails reports its
cause; a page without UA in mode U or H, or a store to a page with RO or FG, traps PERMISSION; on device memory, a
tagged page whose granules' tag is not the pointer's traps TAG, and a load of a poisoned granule whose current copy
lies here, or any access to a quarantined line, traps POISON; an access that passes all of these reaches the n bytes
of the page's frame in the partition's device memory. A load or store of 1, 2, 4, 8 or 64 bytes that every check
passes and that nothing holds up, in an own window, in device memory or through the aperture, is granted and
performed. (05 Memory: addresses, windows and checks; 15 Translation, protection and tags: page attributes, tags; 20
Integrity: poison) -/
def Obligations.AccessChecksInOrder : Prop :=
  (∀ (s : State) (k : AKind) (ea : Word) (n : Nat) (f : Leaf), k ∈ [.load, .store] →
    (ea.toNat % n ≠ 0 → s.resolve k .glob ea n n = .error (.fault .align ea)) ∧
    (ea.toNat % n = 0 → (∀ e, s.walk s.myLaunch ea = .error e → s.resolve k .glob ea n n = .error e) ∧
      (s.walk s.myLaunch ea = .ok f →
        (((f.ua = false ∧ s.me.mode ∈ [.u, .h]) ∨ (k = .store ∧ (f.ro = true ∨ f.fg = true))) →
          s.resolve k .glob ea n n = .error (.fault .permission ea)) ∧
        ((f.ua = true ∨ s.me.mode ∈ [.s, .m]) → (k = .store → f.ro = false ∧ f.fg = false) →
          f.addr ea < partSize s.pm →
          let ks := range (devKey s.pm s.myLaunch.part (f.addr ea)) n
          let acc : Acc :=
            { keys := ks, place := .dev (devKey s.pm s.myLaunch.part (f.addr ea)), coh := f.coh, tagged := f.tagged, mode := f.mode,
              part := s.myLaunch.part, walked := f.walked }
          s.resolve k .glob ea n n =
            if f.tagged = true ∧ ∃ a ∈ ks, s.tagAt a ≠ (ea.extractLsb' 56 4).toNat then .error (.fault .tag ea)
            else if (k = .load ∧ (∀ m ∈ ks, (s.dir.line (m / 64)).st ≠ .ho) ∧ s.poisoned ks = true) ∨ s.quarantined ks = true then .error (.fault .poison ea)
            else .ok acc)))) ∧
  (∀ (s : State) (w : Win) (ea : Word) (n : Nat) (a : Acc), n ∈ [1, 2, 4, 8, 64] →
    (Reached s .load w ea n .read a → s.loadAcc w ea n = .ok (performed s a .read, a)) ∧
    (Reached s .store w ea n .store a → s.storeAcc .store w ea n = .ok (performed s a .store, a)))

open Sys2Proof Sys2Proof.Machine Sys2Proof.Stmt in
/-- If an access is granted (loadAcc, storeAcc or access answers a state), that state differs from the one before only
in the coherence directory, in links that are cleared as their lines leave their clusters, and, for a write, in the
sets of dies and host ports that the context has written over since its last release: every register, every byte of
memory, every tag and poison mark and every other field is the same. (11 Memory model and coherence: the directory;
05 Memory: loads and stores) -/
def Obligations.AccessChangesOnlyCoherence : Prop :=
  (∀ (s s' : State) (k : AKind) (w : Win) (ea : Word) (n : Nat) (r : Req) (a : Acc), s.access k w ea n r a = .ok s' →
    s' = ({ s with dir := s'.dir, links := s'.links } : State).setMe
      { s.me with wrote := s'.me.wrote, ncWrote := s'.me.ncWrote } ∧ ∀ l ∈ s'.links, l ∈ s.links) ∧
  (∀ (s s' : State) (w : Win) (ea : Word) (n : Nat) (a : Acc), s.loadAcc w ea n = .ok (s', a) →
    s' = { s with dir := s'.dir, links := s'.links } ∧ (∀ l ∈ s'.links, l ∈ s.links) ∧ s.resolve .load w ea n n = .ok a) ∧
  (∀ (s s' : State) (k : AKind) (w : Win) (ea : Word) (n : Nat) (a : Acc), s.storeAcc k w ea n = .ok (s', a) →
    s' = ({ s with dir := s'.dir, links := s'.links } : State).setMe
      { s.me with wrote := s'.me.wrote, ncWrote := s'.me.ncWrote } ∧ s.resolve k w ea n n = .ok a)

open Sys2Proof Sys2Proof.Machine Sys2Proof.Stmt in
/-- With VALUE base and index and the access at EA = base + index + sext(IMM24) granted: ld, ldacq and lld complete and
write the n-byte little-endian number there, sign- or zero-extended, to the destination and lat; lld replaces the
context's link by one on the line of the first byte; ldacq, when its scope's acquire may go, also acts as an acquire
at its scope. With VALUE base and index: ldd with its access granted and a symbol to allocate completes with the
pure form INT(s, 1, 0) in the destination and lat and the value read queued behind the context's earlier deferred
loads; with a page not present, or a permission, tag or poison fault, of an aligned global address that no parked
store writes it completes likewise with the fault queued; a misaligned global address traps ALIGN, and a window that
refuses it through the aperture WINDOW. A load of a headland register also has the effect of reading it (tookAcc).
The delivery step then gives the oldest queued value to its symbol, or makes the symbol FAULT with the address.
(That the value is the one read at issue, delivered later, is the model's choice, log entry 9.) (05 Memory: loads
and stores; 03 Scalar and symbolic instructions: symbols and register states) -/
def Obligations.LoadResults : Prop :=
  (∀ (s s1 : State) (i : Instr) (t : LdTy) (w : Win) (imm : BitVec 24) (d : Dst) (b x : Src) (lit bv xv : Word) (len : Nat) (a : Acc),
    Load i t w imm d b x lit len → s.me.src lit b = .value bv → s.me.src lit x = .value xv →
    s.loadAcc w (bv + xv + imm.signExtend 64) t.ty.bytes = .ok (s1, a) →
    exec i s = .next ((s1.tookAcc a t.ty.bytes).result d (loaded s1 a t.ty.bytes t.ty) [] len)) ∧
  (∀ (s s1 : State) (i : Instr) (t : LdTy) (w : Win) (imm : BitVec 24) (d : Dst) (b x : Src) (lit bv xv : Word) (len : Nat) (a : Acc)
      (k : Nat) (rest : List Nat),
    Linked i t w imm d b x lit len → s.me.src lit b = .value bv → s.me.src lit x = .value xv →
    s.loadAcc w (bv + xv + imm.signExtend 64) t.ty.bytes = .ok (s1, a) → a.keys = k :: rest →
    exec i s = .next (({ s1.tookAcc a t.ty.bytes with
        links := (s1.links.filter fun l => !(l.1 == s1.cur.val && l.2.1 == s1.slot.val)) ++ [(s1.cur.val, s1.slot.val, k / 64)] } :
        State).result d (loaded s1 a t.ty.bytes t.ty) [] len)) ∧
  (∀ (s s1 : State) (lit : Option Word) (t : LdTy) (sc : Scope) (w : Win) (imm : BitVec 24) (ef : Bool) (d : Dst) (b x : Src)
      (bv xv : Word) (a : Acc),
    s.me.src (litVal lit) b = .value bv → s.me.src (litVal lit) x = .value xv → s.acquireGate sc = .ok () →
    s.loadAcc w (bv + xv + imm.signExtend 64) t.ty.bytes = .ok (s1, a) →
    exec (.ldacq lit t sc w imm ef d b x) s =
      .next (((s1.tookAcc a t.ty.bytes).result d (loaded s1 a t.ty.bytes t.ty) [] (optBytes lit)).acquired sc)) ∧
  (∀ (s s1 s2 : State) (i : Instr) (t : LdTy) (w : Win) (imm : BitVec 24) (d : Dst) (b x : Src) (lit bv xv : Word) (len : Nat) (a : Acc) (r : SymRef),
    Deferred i t w imm d b x lit len → s.me.src lit b = .value bv → s.me.src lit x = .value xv →
    s.loadAcc w (bv + xv + imm.signExtend 64) t.ty.bytes = .ok (s1, a) →
    (s1.tookAcc a t.ty.bytes).alloc = .ok (s2, r) →
    exec i s = .next (((s2.modMe fun c => { c with
        dloads := c.dloads ++ [{ ref := r, res := .value (loaded s1 a t.ty.bytes t.ty), ea := bv + xv + imm.signExtend 64,
                                  far := (s1.linksUsed a).filter (· != s1.cur.die.val) }] }).put d (.int r.s 1 0)).advance len)) ∧
  (∀ (s s2 : State) (i : Instr) (t : LdTy) (imm : BitVec 24) (d : Dst) (b x : Src) (lit bv xv : Word) (len : Nat) (e : AccErr) (addr : Word) (r : SymRef),
    Deferred i t .glob imm d b x lit len → s.me.src lit b = .value bv → s.me.src lit x = .value xv →
    s.accessGate = .ok () →
    let ea := bv + xv + imm.signExtend 64
    (ea.toNat % t.ty.bytes ≠ 0 → exec i s = .next (s.takeTrap { cause := .align, addr := ea })) ∧
    (ea.toNat % t.ty.bytes = 0 → s.me.parkedOn ea t.ty.bytes = false → s.resolve .load .glob ea t.ty.bytes t.ty.bytes = .error e →
      (e = .fault .window addr → exec i s = .next (s.takeTrap { cause := .window, addr })) ∧
      ((e = .notPresent addr ∨ ∃ c, c ∉ [.window, .align] ∧ e = .fault c addr) → s.alloc = .ok (s2, r) →
        exec i s = .next (((s2.modMe fun c => { c with
          dloads := c.dloads ++ [{ ref := r, res := .fault addr }] }).put d (.int r.s 1 0)).advance len)))) ∧
  (∀ (s : State) (c : CoreId) (k : SlotId) (q : DLoad) (rest : List DLoad), (s.ctx c k).dloads = q :: rest →
    (∀ v, q.res = .value v → exec (.deferredLoadComplete c k) s =
      .next ((s.modCtx c k fun t => { t with dloads := rest }).deliver c q.ref v)) ∧
    (∀ addr, q.res = .fault addr → exec (.deferredLoadComplete c k) s =
      .next ((s.modCtx c k fun t => { t with dloads := rest }).faultSym c q.ref addr)))

open Sys2Proof Sys2Proof.Machine Sys2Proof.Stmt in
/-- With VALUE operands, a page that need not park the access and the access granted: st, and strel after its release at
its scope, complete and write the low n bytes of the datum, little-endian, at EA = base + index + sext(IMM24),
changing no register but the PC; lst writes and gives 1 when the context's link is on the line of its first byte,
gives 0 and writes nothing when it is not, and clears the link either way. A store to a page that is not present,
with no queued vector access on its line, goes to the replay queue. (05 Memory: loads and stores) -/
def Obligations.StoreResults : Prop :=
  (∀ (s s1 : State) (i : Instr) (t : StTy) (w : Win) (imm : BitVec 24) (v b x : Src) (lit vv bv xv : Word) (len : Nat) (a : Acc),
    Store i t w imm v b x lit len → s.me.src lit b = .value bv → s.me.src lit x = .value xv → s.me.src lit v = .value vv →
    s.mustPark w (bv + xv + imm.signExtend 64) t.bytes = false →
    s.storeAcc .store w (bv + xv + imm.signExtend 64) t.bytes = .ok (s1, a) →
    exec i s = .next ((s1.writeAcc a t.bytes (vv.toNat % 2 ^ (8 * t.bytes))).advance len)) ∧
  (∀ (s : State) (i : Instr) (t : StTy) (imm : BitVec 24) (v b x : Src) (lit vv bv xv : Word) (len : Nat),
    Store i t .glob imm v b x lit len → s.me.src lit b = .value bv → s.me.src lit x = .value xv → s.me.src lit v = .value vv →
    let ea := bv + xv + imm.signExtend 64
    s.accessGate = .ok () → ea.toNat % t.bytes = 0 → s.absentPage ea = true → s.me.parkedPage ea = false →
    s.me.replayQ.length < 8 → s.me.vqNear ea t.bytes = false →
    ∃ p : Parked, p.va = ea ∧ p.data = vv ∧ p.kind = .store ∧ p.bytes = t.bytes ∧ p.maj = 0x20 ∧ p.sc = .thr ∧
      exec i s = .next ((({ s with out := .mapRequest s.myLaunch.id ea :: s.out } : State).modMe
        fun c => { c with replayQ := c.replayQ ++ [p] }).advance len)) ∧
  (∀ (s s1 : State) (lit : Option Word) (t : StTy) (sc : Scope) (w : Win) (imm : BitVec 24) (v b x : Src) (vv bv xv : Word) (a : Acc),
    s.me.src (litVal lit) b = .value bv → s.me.src (litVal lit) x = .value xv → s.me.src (litVal lit) v = .value vv →
    ReleaseFree s sc → s.mustPark w (bv + xv + imm.signExtend 64) t.bytes = false →
    (released s).storeAcc .store w (bv + xv + imm.signExtend 64) t.bytes = .ok (s1, a) →
    exec (.strel lit t sc w imm v b x) s =
      .next ((s1.writeAcc a t.bytes (vv.toNat % 2 ^ (8 * t.bytes))).advance (optBytes lit))) ∧
  (∀ (s s1 : State) (lit : Option Word) (t : StTy) (w : Win) (imm : BitVec 24) (v b x : Src) (d : Dst) (vv bv xv : Word) (a : Acc)
      (k : Nat) (rest : List Nat),
    s.me.src (litVal lit) b = .value bv → s.me.src (litVal lit) x = .value xv → s.me.src (litVal lit) v = .value vv →
    let ea := bv + xv + imm.signExtend 64
    s.mustPark w ea t.bytes = false → s.storeAcc .store w ea t.bytes = .ok (s1, a) → a.keys = k :: rest →
    exec (.lst lit t w imm v b x d) s =
      .next (if (s.cur.val, s.slot.val, k / 64) ∈ s.links then
          ((s1.writeAcc a t.bytes (vv.toNat % 2 ^ (8 * t.bytes))).unlink s1.cur s1.slot).result d 1 [] (optBytes lit)
        else (s.unlink s.cur s.slot).result d 0 [] (optBytes lit)))

open Sys2Proof Sys2Proof.Machine Sys2Proof.Stmt in
/-- For a state with memory in canonical form and a plain store whose access at EA is granted as the address list ks
that the checks compute for EA: after it the bytes at ks are the datum's low n bytes, every other byte of memory
reads as before, every register of every context but the PC of the executing one is unchanged, and tags and poison
are unchanged. For every plain load whose access is granted, every byte of memory, all tags and all poison are
unchanged, and no link is set. (05 Memory: loads and stores; 11 Memory model and coherence: single copies) -/
def Obligations.StoresTouchOnlyTheirBytes : Prop :=
  (∀ (s s1 : State) (i : Instr) (t : StTy) (w : Win) (imm : BitVec 24) (v b x : Src) (lit vv bv xv : Word) (len : Nat) (a : Acc),
    Store i t w imm v b x lit len → s.inv = true → s.me.src lit b = .value bv → s.me.src lit x = .value xv → s.me.src lit v = .value vv →
    s.mustPark w (bv + xv + imm.signExtend 64) t.bytes = false →
    s.storeAcc .store w (bv + xv + imm.signExtend 64) t.bytes = .ok (s1, a) →
    (∀ c, a.place ≠ .ctr c) → (∀ o, a.place ≠ .head o) → a.keys.Nodup → a.keys.length = t.bytes →
    ∃ s', exec i s = .next s' ∧ s'.bytesAt a.keys = leBytes t.bytes (vv.toNat % 2 ^ (8 * t.bytes)) ∧
      (∀ c, c ∉ a.keys → s'.mem.get c = s.mem.get c) ∧ s'.tags = s.tags ∧ s'.poison = s.poison ∧
      (∀ r, s'.me.reg r = s.me.reg r) ∧ (∀ k, k ≠ s.slot → s'.ctx s.cur k = s.ctx s.cur k) ∧
      (∀ c, c ≠ s.cur → s'.core c = s.core c)) ∧
  (∀ (s s1 : State) (i : Instr) (t : LdTy) (w : Win) (imm : BitVec 24) (d : Dst) (b x : Src) (lit bv xv : Word) (len : Nat) (a : Acc),
    Load i t w imm d b x lit len → s.me.src lit b = .value bv → s.me.src lit x = .value xv →
    s.loadAcc w (bv + xv + imm.signExtend 64) t.ty.bytes = .ok (s1, a) →
    ∃ s', exec i s = .next s' ∧ s'.mem = s.mem ∧ s'.tags = s.tags ∧ s'.poison = s.poison ∧ ∀ l ∈ s'.links, l ∈ s.links)

open Sys2Proof Sys2Proof.Machine Sys2Proof.Stmt in
/-- With VALUE operands, descriptor index below 1024 and a descriptor whose read at its home waits for nothing (s0 is
the state after it) and that is not poisoned or quarantined: EA = base + offset with the descriptor's tag;
misaligned it traps ALIGN; an offset beyond the descriptor's length less n traps BOUNDS with EA; otherwise, with the
descriptor's read (write) permission and the access granted, ldb writes the value at EA, extended, and stb the low n
bytes of its datum at EA. An index of 1024 or more traps BOUNDS with address 0 (the model's choice, log entry 16;
that a poisoned descriptor's record is read no further is log entry 71). (05 Memory: bounds-checked and tag
instructions; 15 Translation, protection and tags: buffer descriptors) -/
def Obligations.CheckedBufferAccess : Prop :=
  (∀ (s s0 s1 : State) (i : Instr) (t : LdTy) (imm : BitVec 24) (d : Dst) (b x : Src) (lit bv xv : Word) (len : Nat) (a : Acc),
    BufLoad i t imm d b x lit len → s.me.src lit b = .value bv → s.me.src lit x = .value xv → s.accessGate = .ok () →
    let n := t.ty.bytes
    let off := xv + imm.signExtend 64
    let bd := s0.desc s0.myLaunch bv.toNat
    let ks := (s.descAcc s.myLaunch bv.toNat).keys
    let ea := withTag (bd.base + off) bd.tag
    (1024 ≤ bv.toNat → exec i s = .next (s.takeTrap { cause := .bounds })) ∧
    (bv.toNat < 1024 → s.request (s.descAcc s.myLaunch bv.toNat) .read = .ok s0 →
      s0.poisoned ks = false → s0.quarantined ks = false →
      (ea.toNat % n ≠ 0 → exec i s = .next (s.takeTrap { cause := .align, addr := ea })) ∧
      (ea.toNat % n = 0 → bd.length < off.toNat + n → exec i s = .next (s.takeTrap { cause := .bounds, addr := ea })) ∧
      (ea.toNat % n = 0 → off.toNat + n ≤ bd.length → bd.rd = true → s0.me.parkedOn ea n = false →
        s0.resolve .load .glob ea n n = .ok a → s0.access .load .glob ea n .read a = .ok s1 →
        exec i s = .next ((s1.tookAcc a n).result d (loaded s1 a n t.ty) [] len)))) ∧
  (∀ (s s0 s1 : State) (i : Instr) (t : StTy) (imm : BitVec 24) (v b x : Src) (lit vv bv xv : Word) (len : Nat) (a : Acc),
    BufStore i t imm v b x lit len → s.me.src lit b = .value bv → s.me.src lit x = .value xv → s.me.src lit v = .value vv →
    s.accessGate = .ok () →
    let off := xv + imm.signExtend 64
    let bd := s0.desc s0.myLaunch bv.toNat
    let ks := (s.descAcc s.myLaunch bv.toNat).keys
    let ea := withTag (bd.base + off) bd.tag
    bv.toNat < 1024 → s.request (s.descAcc s.myLaunch bv.toNat) .read = .ok s0 →
      s0.poisoned ks = false → s0.quarantined ks = false → ea.toNat % t.bytes = 0 →
      (bd.length < off.toNat + t.bytes → exec i s = .next (s.takeTrap { cause := .bounds, addr := ea })) ∧
      (off.toNat + t.bytes ≤ bd.length → bd.wr = true → s0.mustPark .glob ea t.bytes = false →
        s0.resolve .store .glob ea t.bytes t.bytes = .ok a → s0.access .store .glob ea t.bytes .store a = .ok s1 →
        exec i s = .next ((s1.writeAcc a t.bytes (vv.toNat % 2 ^ (8 * t.bytes))).advance len)))

open Sys2Proof Sys2Proof.Machine Sys2Proof.Stmt in
/-- With VALUE operands and no acquire waiting: ldg of a tagged page it may read writes the granule's 4-bit tag; of a
readable untagged page, whatever its granule holds, it writes 0. Neither ldg nor stg checks the pointer's tag or the
granules' poison (the model's choice, log entry 27; that a page not present traps and parks nothing is log entry
72). stg at a 32-byte aligned EA whose n granules all lie on tagged pages it may write sets their tags to the low 4
bits of its source and writes no byte; a misaligned EA traps ALIGN; and where every granule translates, one on an
untagged page or one it may not write traps PERMISSION with EA. (05 Memory: bounds-checked and tag instructions; 15
Translation, protection and tags: tags) -/
def Obligations.TagInstructions : Prop :=
  (∀ (s s1 : State) (i : Instr) (imm : BitVec 24) (d : Dst) (b : Src) (lit bv : Word) (len : Nat) (f : Leaf),
    TagLoad i imm d b lit len → s.me.src lit b = .value bv → s.accessGate = .ok () →
    let ea := bv + imm.signExtend 64
    let k := devKey s.pm s.myLaunch.part (f.addr ea)
    s.walk s.myLaunch ea = .ok f → f.ua = true →
    (f.tagged = true → s.quarantined [k] = false →
      s.request { keys := [k], place := .dev k, mode := f.mode, part := s.myLaunch.part, walked := f.walked } .read = .ok s1 →
      exec i s = .next (s1.result d (BitVec.ofNat 64 (s1.tagAt k)) [] len)) ∧
    (f.tagged = false → exec i s = .next (s.result d 0 [] len))) ∧
  (∀ (s s1 : State) (i : Instr) (n : Nat) (imm : BitVec 24) (v b : Src) (lit vv bv : Word) (len : Nat) (fs : Nat → Leaf),
    TagStore i n imm v b lit len → s.me.src lit b = .value bv → s.me.src lit v = .value vv → s.accessGate = .ok () →
    let ea := bv + imm.signExtend 64
    let va (j : Nat) : Word := ea + BitVec.ofNat 64 (32 * j)
    let k (j : Nat) : Nat := devKey s.pm s.myLaunch.part ((fs j).addr (va j)) / 32 * 32
    let ks := (List.range n).map k
    (ea.toNat % 32 ≠ 0 → exec i s = .next (s.takeTrap { cause := .align, addr := ea })) ∧
    (ea.toNat % 32 = 0 → s.me.replayQ = [] → (∀ j < n, s.walk s.myLaunch (va j) = .ok (fs j)) →
      ((∃ j < n, (fs j).tagged = false ∨ (fs j).allows .store s.me.mode = false) →
        exec i s = .next (s.takeTrap { cause := .permission, addr := ea })) ∧
      ((∀ j < n, (fs j).tagged = true ∧ (fs j).allows .store s.me.mode = true) → s.quarantined ks = false →
        s.requests ((List.range n).map fun j =>
          { keys := [k j], place := .dev (k j), mode := (fs j).mode, part := s.myLaunch.part, walked := (fs j).walked }) .store = .ok s1 →
        exec i s = .next ((ks.foldl (fun q a => q.setTag (a / 32) (vv.toNat % 16)) (s1.keepCut ks)).advance len))))

open Sys2Proof Sys2Proof.Machine Sys2Proof.Stmt in
/-- stsig with VALUE operands, its release done and both accesses granted (data at base + sext(IMM24) with TYPE's width,
flag at an 8-byte aligned address) writes the datum and then sets the flag, or adds to it, and completes, changing
no register but the PC. A fence whose release is done and whose acquire is free completes, an acquire fence acting
as an acquire at its scope. isync discards the core's buffered code words and moves past itself. A release by a
context with a parked access or a queued vector memory instruction waits. Without either, at a scope inside the die
(or at .pkg in PM8) it goes at once and changes only the context's first-release mark; at .sys, or .pkg outside PM8,
with no change sequence on the die's link nor on a link written over it goes at once when the context has written
over no link (at .sys: nor over a host port without coherence) and awaits nothing, and otherwise puts one token on
each die written over, at .sys one zero-length read on each such port, and waits. An acquire at .sys, or .pkg
outside PM8, puts a token on the core's own die and marks the context, whose accesses then wait. (How tokens stand
for R289's exchange, one for each die written over, is the model's choice, log entry 26; that isync drops the whole
core's buffer is log entry 15.) (05 Memory: write then signal, fences; 11 Memory model and coherence: releases and
acquires; 05 Memory: fences) -/
def Obligations.OrderingInstructions : Prop :=
  (∀ (s s1 s2 : State) (lit : Option Word) (sc : Scope) (w : Win) (ty : Option Ty) (addf : Bool) (imm : BitVec 24)
      (v b fl sg : Src) (vv bv fv gv : Word) (a c : Acc),
    s.me.src (litVal lit) b = .value bv → s.me.src (litVal lit) fl = .value fv → s.me.src (litVal lit) sg = .value gv →
    s.me.src (litVal lit) v = .value vv →
    let ea := bv + imm.signExtend 64
    let n := (intTy ty).bytes
    let s0 := released s
    ReleaseFree s sc → s.me.acqWait = false → s0.resolve .store w ea n n = .ok a →
    s0.resolve (if addf then .sigadd else .sigset) w fv 8 8
      (fun p coh => !addf || (match p with | .host _ => coh | _ => true)) = .ok c →
    s0.touchGate w ea n = .ok () → s0.touchGate w fv 8 = .ok () → s0.me.vqTouches (a.keys ++ c.keys) = false →
    (w = .glob ∨ addf = false ∨ s0.poisoned c.keys = false) →
    s0.request a .store = .ok s1 → s1.request c (if addf then .perform else .store) = .ok s2 →
    let s3 := s2.writeAcc a n (vv.toNat % 2 ^ (8 * n))
    let new := match c.place with
      | .ctr _ => gv
      | _ => if addf then BitVec.ofNat 64 (s3.valAcc c 8) + gv else gv
    exec (.stsig lit sc w ty addf imm v b fl sg) s = .next ((s3.writeAcc c 8 new.toNat).advance (optBytes lit))) ∧
  (∀ (s : State) (sc : Scope) (o : Ord), (o ∈ [.rel, .ar] → ReleaseFree s sc) →
    s.me.acqWait = false → AcquireFree s sc → s.me.vLoads = false → s.me.replayQ = [] →
    let s0 := if o ∈ [.rel, .ar] then released s else s
    exec (.fence sc o) s = .next (if o ∈ [.acq, .ar] then (s0.advance 12).acquired sc else s0.advance 12)) ∧
  (∀ s : State, exec .isync s = .next ((s.modCore s.cur fun x => { x with fetched := [] }).advance 4)) ∧
  (∀ (s : State) (sc : Scope), ReleaseFree s sc ↔ s.release sc = .ok (released s)) ∧
  (∀ (s : State) (sc : Scope), s.me.replayQ ≠ [] ∨ s.me.vq.any VOp.isMem = true → s.release sc = wait) ∧
  (∀ (s : State) (sc : Scope), s.me.replayQ = [] → s.me.vq.any VOp.isMem = false → (s.me.firstRelease = false ∨ s.myCore.strays = []) →
    let s' := s.modMe fun t => { t with firstRelease := false }
    (sc ∈ [.thr, .core, .clu, .die] ∨ (sc = .pkg ∧ s.pm = .pm8) → s.release sc = .ok s') ∧
    (sc = .sys ∨ (sc = .pkg ∧ s.pm ≠ .pm8) → (∀ d, d = s.cur.die.val ∨ d ∈ s.me.wrote → (s.die d).seq = none) →
      (s.me.relWait ≠ 0 ∨ s.me.ncWait ≠ 0 → s.release sc = wait) ∧
      (s.me.relWait = 0 → s.me.ncWait = 0 →
        (s.me.wrote = [] → (sc = .sys → s.me.ncWrote = []) → s.release sc = .ok s') ∧
        (s.me.wrote ≠ [] ∨ (sc = .sys ∧ s.me.ncWrote ≠ []) → ∃ t, s.release sc = .error (.touch t) ∧
          t.me.relWait = s.me.wrote.length ∧ t.me.wrote = [] ∧
          t.me.ncWait = (if sc = .sys then s.me.ncWrote.length else 0) ∧ t.mem = s.mem)))) ∧
  (∀ (s : State) (sc : Scope), sc = .sys ∨ (sc = .pkg ∧ s.pm ≠ .pm8) → (s.acquired sc).me.acqWait = true ∧
    ((s.acquired sc).die s.cur.die.val).acqTokens = (s.die s.cur.die.val).acqTokens ++ [(s.cur.val, s.slot.val)] ∧
    (s.acquired sc).accessGate = wait)

namespace Sys2Proof.Stmt

open Sys2Proof.Machine

/-- `atom` in its forms: operation, scope, order, window, TYPE, displacement, destination, base, operand, comparand. -/
inductive Atom : Instr → AtomOp → Scope → Ord → Win → Option Ty → BitVec 24 → Dst → Src → Src → Src → Word → Nat → Prop
  | atom (op d b v) : Atom (.atom op d b v) op .thr .none .glob none 0 d b v (.w 0) 0 4
  | atomX (f op sc o w ty imm d b v e) : Atom (.atomX f op sc o w ty imm d b v e) op sc o w ty imm d b v e f.value (formBytes f)

/-- `red` in its forms. -/
inductive Red : Instr → RedOp → Scope → Ord → Win → Option Ty → BitVec 24 → Src → Src → Word → Nat → Prop
  | red (op b v) : Red (.red op b v) op .thr .none .glob none 0 b v 0 4
  | redX (f op sc rel w ty imm b v) :
      Red (.redX f op sc rel w ty imm b v) op sc (if rel then .rel else .none) w ty imm b v f.value (formBytes f)

/-- The new value of an integer atomic at N bits (R138). -/
def atomNew (op : AtomOp) {n : Nat} (x v e : BitVec n) : BitVec n :=
  match op with
  | .add => x + v
  | .and => x &&& v
  | .or => x ||| v
  | .xor => x ^^^ v
  | .min => if x.sle v then x else v
  | .minz => if x.ule v then x else v
  | .max => if x.sle v then v else x
  | .maxz => if x.ule v then v else x
  | .swap => v
  | .cas => if x = e then v else x
  | .fadd => x
  | .badd => x

/-- The operations on integers. -/
def isIntAtom (op : AtomOp) : Bool := op != .fadd && op != .badd

/-- The hardware barrier instructions: `barinit`, `barexp`, `bararr`, `barwait` in their forms. -/
inductive Barinit : Instr → Scope → Win → BitVec 24 → Src → Src → Word → Nat → Prop
  | base (b n) : Barinit (.barinit b n) .thr .glob 0 b n 0 4
  | ext (f sc w imm b n) : Barinit (.barinitX f sc w imm b n) sc w imm b n f.value (formBytes f)

inductive Barexp : Instr → Win → BitVec 24 → Src → Src → Word → Nat → Prop
  | base (b n) : Barexp (.barexp b n) .glob 0 b n 0 4
  | ext (f w imm b n) : Barexp (.barexpX f w imm b n) w imm b n f.value (formBytes f)

inductive Bararr : Instr → Scope → Win → BitVec 24 → Dst → Src → Src → Word → Nat → Prop
  | base (d b n) : Bararr (.bararr d b n) .thr .glob 0 d b n 0 4
  | ext (f sc w imm d b n) : Bararr (.bararrX f sc w imm d b n) sc w imm d b n f.value (formBytes f)

inductive Barwait : Instr → Scope → Win → Bool → BitVec 24 → Dst → Src → Src → Word → Nat → Prop
  | base (d b p) : Barwait (.barwait d b p) .thr .glob false 0 d b p 0 4
  | ext (f sc w chk imm d b p) : Barwait (.barwaitX f sc w chk imm d b p) sc w chk imm d b p f.value (formBytes f)

/-- A barrier word: PEND [63:32] signed, PHASE [31], ERR [30], EXPECT [29:15], LEFT [14:0] (R145). -/
def barWord (pend : Int) (phase err : Bool) (expect left : Nat) : Nat :=
  intBits 32 pend * 2 ^ 32 + (if phase then 2 ^ 31 else 0) + (if err then 2 ^ 30 else 0) + expect * 2 ^ 15 + left

/-- The hints: whether it evicts, whether it names the die's L2, displacement, base, index, literal, length. -/
inductive Hint : Instr → Bool → Bool → BitVec 24 → Src → Src → Word → Nat → Prop
  | pref (b x) : Hint (.pref b x) false false 0 b x 0 4
  | prefX (f l2 imm b x) : Hint (.prefX f l2 imm b x) false l2 imm b x f.value (formBytes f)
  | evict (b x) : Hint (.evict b x) true false 0 b x 0 4
  | evictX (f imm b x) : Hint (.evictX f imm b x) true false imm b x f.value (formBytes f)

inductive Tdecl : Instr → BitVec 24 → Src → Src → Word → Nat → Prop
  | base (b x) : Tdecl (.tdecl b x) 0 b x 0 4
  | ext (f imm b x) : Tdecl (.tdeclX f imm b x) imm b x f.value (formBytes f)

inductive Tfree : Instr → BitVec 24 → Src → Word → Nat → Prop
  | base (b) : Tfree (.tfree b) 0 b 0 4
  | ext (f imm b) : Tfree (.tfreeX f imm b) imm b f.value (formBytes f)

inductive Tfwd : Instr → BitVec 24 → Src → Src → Word → Nat → Prop
  | base (b r) : Tfwd (.tfwd b r) 0 b r 0 4
  | ext (f imm b r) : Tfwd (.tfwdX f imm b r) imm b r f.value (formBytes f)

/-- Bytes of a form with a literal and no extended words: 4 or 12. -/
def shortBytes (lit : Option Word) : Nat := if lit.isSome then 12 else 4

end Sys2Proof.Stmt

open Sys2Proof Sys2Proof.Machine Sys2Proof.Stmt in
/-- With VALUE base and operand (and comparand, for cas), its release done when ORD asks for one, its acquire free, a
page that need not park it, and the access granted: an integer atom reads the old N-bit value x, writes the
operation's result on x and the operand's low N bits (cas: the operand if x equals the comparand) at EA, writes x
extended to the destination and lat, and acts as an acquire when ORD says so; red does the same without a
destination and without writing lat. fadd writes the FP sum rounded RNE in its TYPE. badd adds the operand, aligned
to the exponent word at EA + 16, to the 128-bit accumulator at EA and returns its low 64 bits. (That an atomic asks
the replay queue as a store does is log entry 18 and that badd reads its exponent word through its own checks and
page is log entry 73: the model's choices.) (05 Memory: atomics and reductions; 11 Memory model and coherence:
releases and acquires) -/
def Obligations.AtomicResults : Prop :=
  (∀ (s s1 : State) (i : Instr) (op : AtomOp) (sc : Scope) (o : Ord) (w : Win) (ty : Option Ty) (imm : BitVec 24) (d : Dst)
      (b v e : Src) (lit bv vv ev : Word) (len : Nat) (a : Acc),
    Atom i op sc o w ty imm d b v e lit len → op ≠ .badd → s.me.src lit b = .value bv →
    s.me.srcTy (atomTy op ty) lit v = .value vv → (op = .cas → s.me.src lit e = .value ev) →
    (o ∈ [.rel, .ar] → ReleaseFree s sc) → s.accessGate = .ok () → (o ∈ [.acq, .ar] → AcquireFree s sc) →
    let s0 := if o ∈ [.rel, .ar] then released s else s
    let t := atomTy op ty
    let n := t.bytes
    let ea := bv + imm.signExtend 64
    s0.mustPark w ea n = false → s0.resolve .atomic w ea n n (atomAt op ty) = .ok a →
    s0.access .atomic w ea n (atomReq false op n) a = .ok s1 →
    let x : BitVec (8 * t.bytes) := BitVec.ofNat _ (s1.valAcc a n)
    let new : Nat := if isIntAtom op then (atomNew op x (part t vv) (part t ev)).toNat
      else ((Fmt.ofTy t).pack .rne false 0 ((tyVal t (s1.valAcc a n)).add .rne (tyVal t (part t vv).toNat))).1
    s1.valAcc a n < 2 ^ (8 * n) →
    let s2 := (s1.addPartial a (atomReq false op n) n (part t vv).toNat).writeAcc a n new
    exec i s = .next (if o ∈ [.acq, .ar] then (s2.result d (extend t (s1.valAcc a n)) [] len).acquired sc
      else s2.result d (extend t (s1.valAcc a n)) [] len)) ∧
  (∀ (s s1 : State) (i : Instr) (op : RedOp) (sc : Scope) (o : Ord) (w : Win) (ty : Option Ty) (imm : BitVec 24)
      (b v : Src) (lit bv vv : Word) (len : Nat) (a : Acc),
    Red i op sc o w ty imm b v lit len → op.atom ≠ .badd → s.me.src lit b = .value bv →
    s.me.srcTy (atomTy op.atom ty) lit v = .value vv →
    (o = .rel → ReleaseFree s sc) → s.accessGate = .ok () →
    let s0 := if o = .rel then released s else s
    let t := atomTy op.atom ty
    let n := t.bytes
    let ea := bv + imm.signExtend 64
    s0.mustPark w ea n = false → s0.resolve .atomic w ea n n (atomAt op.atom ty) = .ok a →
    s0.access .atomic w ea n (atomReq true op.atom n) a = .ok s1 →
    let x : BitVec (8 * t.bytes) := BitVec.ofNat _ (s1.valAcc a n)
    let new : Nat := if isIntAtom op.atom then (atomNew op.atom x (part t vv) 0).toNat
      else ((Fmt.ofTy t).pack .rne false 0 ((tyVal t (s1.valAcc a n)).add .rne (tyVal t (part t vv).toNat))).1
    s1.valAcc a n < 2 ^ (8 * n) →
    exec i s = .next (((s1.addPartial a (atomReq true op.atom n) n (part t vv).toNat).writeAcc a n new).advance len)) ∧
  (∀ (s s1 s2 : State) (i : Instr) (sc : Scope) (o : Ord) (w : Win) (ty : Option Ty) (imm : BitVec 24) (d : Dst)
      (b v e : Src) (lit bv vv : Word) (len : Nat) (a c : Acc),
    Atom i .badd sc o w ty imm d b v e lit len → s.me.src lit b = .value bv → s.me.srcTy (intTy ty) lit v = .value vv →
    (o ∈ [.rel, .ar] → ReleaseFree s sc) → s.accessGate = .ok () → (o ∈ [.acq, .ar] → AcquireFree s sc) →
    let s0 := if o ∈ [.rel, .ar] then released s else s
    let ea := bv + imm.signExtend 64
    s0.mustPark w ea 16 = false → s0.resolve .atomic w ea 16 16 (atomAt .badd ty) = .ok a →
    s0.loadAcc w (ea + 16) 4 = .ok (s1, c) → s1.access .atomic w ea 16 (atomReq false .badd 16) a = .ok s2 →
    let p := baddValue (bitsInt true 32 (s1.valAcc c 4)) vv
    let s3 := if p.2 then s2.countAll s2.cur [9] else s2
    let s4 := (s3.addPartial a (atomReq false .badd 16) 16 (intBits 128 p.1)).writeAcc a 16 ((s3.valAcc a 16 + intBits 128 p.1) % 2 ^ 128)
    exec i s = .next (if o ∈ [.acq, .ar] then (s4.result d (BitVec.ofNat 64 (s3.valAcc a 16)) [] len).acquired sc
      else s4.result d (BitVec.ofNat 64 (s3.valAcc a 16)) [] len)) ∧
  (∀ (s s1 s2 : State) (i : Instr) (sc : Scope) (o : Ord) (w : Win) (ty : Option Ty) (imm : BitVec 24)
      (b v : Src) (lit bv vv : Word) (len : Nat) (a c : Acc),
    Red i .badd sc o w ty imm b v lit len → s.me.src lit b = .value bv → s.me.srcTy (intTy ty) lit v = .value vv →
    (o = .rel → ReleaseFree s sc) → s.accessGate = .ok () →
    let s0 := if o = .rel then released s else s
    let ea := bv + imm.signExtend 64
    s0.mustPark w ea 16 = false → s0.resolve .atomic w ea 16 16 (atomAt .badd ty) = .ok a →
    s0.loadAcc w (ea + 16) 4 = .ok (s1, c) → s1.access .atomic w ea 16 (.red .badd) a = .ok s2 →
    let p := baddValue (bitsInt true 32 (s1.valAcc c 4)) vv
    let s3 := if p.2 then s2.countAll s2.cur [9] else s2
    exec i s = .next (((s3.addPartial a (.red .badd) 16 (intBits 128 p.1)).writeAcc a 16
      ((s3.valAcc a 16 + intBits 128 p.1) % 2 ^ 128)).advance len))

open Sys2Proof Sys2Proof.Machine Sys2Proof.Stmt in
/-- With VALUE operands and the barrier word at EA reachable in a local memory: barinit with a count of 1 to 32767
writes PEND 0, PHASE 0, ERR 0, EXPECT and LEFT the count; barexp adds its count to PEND; bararr adds its count to
PEND and takes one from LEFT, returning the word from before; after each the completion test runs (PEND negative:
overrun, phase flips, ERR 1, EV.11 of the owning core; LEFT and PEND 0: phase flips, LEFT := EXPECT, ERR 0), and the
8 bytes written are those of the word that it leaves. barwait returns the word when its PHASE differs from bit 0 of
its operand, trapping BARRIER_OVERRUN instead when CHK is set and ERR is 1, and sleeps while it does not. A count
outside its range traps BOUNDS. Each completes so where its release or acquire may go and the word is reached: in
the core's own G window, or in a core's G window through the aperture, aligned, translated, permitted, untagged, in
the way of nothing. (05 Memory: byte-count barriers) -/
def Obligations.BarrierWords : Prop :=
  (∀ (pend : Int) (phase err : Bool) (expect left : Nat), -(2 ^ 31) ≤ pend → pend < 2 ^ 31 → expect < 2 ^ 15 → left < 2 ^ 15 →
    Bar.ofNat (barWord pend phase err expect left) = { pend, phase, err, expect, left } ∧
    (({ pend, phase, err, expect, left } : Bar).toNat = barWord pend phase err expect left)) ∧
  (∀ b : Bar, b.test =
    if b.pend < 0 then ({ pend := 0, phase := !b.phase, err := true, expect := b.expect, left := b.expect }, true)
    else if b.left = 0 ∧ b.pend = 0 then ({ pend := 0, phase := !b.phase, err := false, expect := b.expect, left := b.expect }, false)
    else (b, false)) ∧
  (∀ (s : State) (a : Acc) (b : Bar) (o : CoreId) (w : Option Win) (off : Nat), a.place = .lm o w off →
    let t := s.write s.self a.keys (leBytes 8 b.test.1.toNat)
    s.putBar a b = if b.test.2 then t.countAll o [11] else t) ∧
  (∀ (s s1 : State) (i : Instr) (sc : Scope) (w : Win) (imm : BitVec 24) (b n : Src) (lit bv nv : Word) (len : Nat) (a : Acc),
    Barinit i sc w imm b n lit len → s.me.src lit b = .value bv → s.me.src lit n = .value nv →
    let ea := bv + imm.signExtend 64
    let inside := w = .glob ∨ (w = .G ∧ ea.toNat < s.myLaunch.split.size w)
    let new : Bar := { pend := 0, phase := false, err := false, expect := nv.toNat, left := nv.toNat }
    (inside → nv.toNat = 0 ∨ 32767 < nv.toNat → exec i s = .next (s.takeTrap { cause := .bounds, addr := ea })) ∧
    (1 ≤ nv.toNat → nv.toNat ≤ 32767 → ReleaseFree s sc →
      (inside → (released s).barAcc .barrier w ea = .ok (s1, a) → exec i s = .next ((s1.putBar a new).advance len)) ∧
      (Reached s .barrier w ea 8 .store a → exec i s = .next (((performed (released s) a .store).putBar a new).advance len)))) ∧
  (∀ (s s1 : State) (i : Instr) (w : Win) (imm : BitVec 24) (b n : Src) (lit bv nv : Word) (len : Nat) (a : Acc),
    Barexp i w imm b n lit len → s.me.src lit b = .value bv → s.me.src lit n = .value nv →
    let ea := bv + imm.signExtend 64
    let inside := w = .glob ∨ (w = .G ∧ ea.toNat < s.myLaunch.split.size w)
    (inside → 2 ^ 31 ≤ nv.toNat → exec i s = .next (s.takeTrap { cause := .bounds, addr := ea })) ∧
    (nv.toNat < 2 ^ 31 →
      (inside → s.barAcc .barrier w ea = .ok (s1, a) →
        let x := Bar.ofNat (s1.valAcc a 8)
        x.pend + nv.toNat < 2 ^ 31 → exec i s = .next ((s1.putBar a { x with pend := x.pend + nv.toNat }).advance len)) ∧
      (Reached s .barrier w ea 8 .store a →
        let x := Bar.ofNat (s.valAcc a 8)
        x.pend + nv.toNat < 2 ^ 31 →
        exec i s = .next (((performed s a .store).putBar a { x with pend := x.pend + nv.toNat }).advance len)))) ∧
  (∀ (s s1 : State) (i : Instr) (sc : Scope) (w : Win) (imm : BitVec 24) (d : Dst) (b n : Src) (lit bv nv : Word) (len : Nat) (a : Acc),
    Bararr i sc w imm d b n lit len → s.me.src lit b = .value bv → s.me.src lit n = .value nv →
    let ea := bv + imm.signExtend 64
    let inside := w = .glob ∨ (w = .G ∧ ea.toNat < s.myLaunch.split.size w)
    (inside → 2 ^ 31 ≤ nv.toNat → exec i s = .next (s.takeTrap { cause := .bounds, addr := ea })) ∧
    (nv.toNat < 2 ^ 31 → ReleaseFree s sc →
      (inside → (released s).barAcc .barrier w ea = .ok (s1, a) →
        let x := Bar.ofNat (s1.valAcc a 8)
        x.left ≠ 0 → x.pend + nv.toNat < 2 ^ 31 →
        exec i s = .next ((s1.putBar a { x with pend := x.pend + nv.toNat, left := x.left - 1 }).result d
          (BitVec.ofNat 64 (s1.valAcc a 8)) [] len)) ∧
      (Reached s .barrier w ea 8 .store a →
        let x := Bar.ofNat (s.valAcc a 8)
        x.left ≠ 0 → x.pend + nv.toNat < 2 ^ 31 →
        exec i s = .next (((performed (released s) a .store).putBar a { x with pend := x.pend + nv.toNat, left := x.left - 1 }).result d
          (BitVec.ofNat 64 (s.valAcc a 8)) [] len)))) ∧
  (∀ (s s1 : State) (i : Instr) (sc : Scope) (w : Win) (chk : Bool) (imm : BitVec 24) (d : Dst) (b p : Src) (lit bv pv : Word)
      (len : Nat) (a : Acc),
    Barwait i sc w chk imm d b p lit len → s.me.src lit b = .value bv → s.me.src lit p = .value pv → AcquireFree s sc →
    let ea := bv + imm.signExtend 64
    (s.barAcc .barrierRead w ea = .ok (s1, a) →
      let x := Bar.ofNat (s1.valAcc a 8)
      exec i s = .next (if x.phase = pv.getLsbD 0 then s.modMe fun c => { c with run := .asleep }
        else if chk && x.err then s.takeTrap { cause := .barrierOverrun, addr := ea }
        else (s1.result d (BitVec.ofNat 64 (s1.valAcc a 8)) [] len).acquired sc)) ∧
    (Reached s .barrierRead w ea 8 .read a →
      let x := Bar.ofNat (s.valAcc a 8)
      x.phase ≠ pv.getLsbD 0 → (chk = true → x.err = false) →
      exec i s = .next (((performed s a .read).result d (BitVec.ofNat 64 (s.valAcc a 8)) [] len).acquired sc)))

open Sys2Proof Sys2Proof.Machine Sys2Proof.Stmt in
/-- With VALUE operands: cbwait returns the slot address at head (filled) or tail (free) when enough slots are there,
sleeps when not, and traps CB_ERROR for an undeclared buffer or a count above its slots; cbadv moves head or tail by
its count after a release at .core, traps CB_ERROR for more than there are and moves nothing for a count of 0; publ
flips a declared pair's visible half, or swaps a descriptor's base and shadow, after its release and once no job or
command accepted before it issued writes the shadow; tdecl declares the lines of its shape as one tile of the
context's core, and traps TILE_OVERLAP on a line of a tile; tfree demotes the tile that begins at EA, and tfwd
pushes it into the L2 of the named core's die, or the one line that holds EA, merging it where it is in C; pref and
evict change no register and no byte: an address that fails a check changes nothing, pref's line is read at its
home, evict's leaves M; pin takes the lowest free retention entry of the die and returns its number, or -1, and
unpin frees it. (Model's choices: tfwd of a line inside a tile, log entry 74, and when a tile's push goes, 23; tfree
by another launch, 93; publ's mark, 22, and no poison check, 71; a hint that must wait is dropped, 94.) (05 Memory:
circular buffers, publish, tiles, hints; 10 Local memory: circular buffers, shadow pairs; 11 Memory model and
coherence: tiles, retention) -/
def Obligations.BufferTileAndRetentionInstructions : Prop :=
  (∀ (s : State) (lit : Option Word) (d : Dst) (h : Fin 8) (n : Src) (k : Word), s.me.src (litVal lit) n = .value k →
    (s.myLaunch.cbDecl h = none →
      exec (.cbwaitF lit d h n) s = .next (s.takeTrap { cause := .cbError }) ∧
      exec (.cbwaitE lit d h n) s = .next (s.takeTrap { cause := .cbError }) ∧
      exec (.cbadvF lit h n) s = .next (s.takeTrap { cause := .cbError }) ∧
      exec (.cbadvE lit h n) s = .next (s.takeTrap { cause := .cbError })) ∧
    ∀ c, s.myLaunch.cbDecl h = some c →
      let b := s.myCore.cbs.get h
      let filled := (b.tail - b.head).toNat
      let addr (x : BitVec 32) : Word := BitVec.ofNat 64 (c.base + x.toNat % c.slots * c.size)
      (c.slots < k.toNat → exec (.cbwaitF lit d h n) s = .next (s.takeTrap { cause := .cbError }) ∧
        exec (.cbwaitE lit d h n) s = .next (s.takeTrap { cause := .cbError })) ∧
      (k.toNat ≤ c.slots → s.accessGate = .ok () →
        exec (.cbwaitF lit d h n) s = .next (if k.toNat ≤ filled then s.result d (addr b.head) [] (shortBytes lit)
          else s.modMe fun t => { t with run := .asleep }) ∧
        exec (.cbwaitE lit d h n) s = .next (if k.toNat ≤ c.slots - filled then s.result d (addr b.tail) [] (shortBytes lit)
          else s.modMe fun t => { t with run := .asleep })) ∧
      (k = 0 → exec (.cbadvF lit h n) s = .next (s.advance (shortBytes lit)) ∧ exec (.cbadvE lit h n) s = .next (s.advance (shortBytes lit))) ∧
      (k ≠ 0 → filled < k.toNat → exec (.cbadvF lit h n) s = .next (s.takeTrap { cause := .cbError })) ∧
      (k ≠ 0 → c.slots - filled < k.toNat → exec (.cbadvE lit h n) s = .next (s.takeTrap { cause := .cbError })) ∧
      (s.me.acqWait = false → ReleaseFree s .core →
        (k ≠ 0 → k.toNat ≤ filled → exec (.cbadvF lit h n) s =
          .next (((released s).modCore s.cur fun x => x.setCb h { b with head := b.head + k.setWidth 32 }).advance (shortBytes lit))) ∧
        (k ≠ 0 → k.toNat ≤ c.slots - filled → exec (.cbadvE lit h n) s =
          .next (((released s).modCore s.cur fun x => x.setCb h { b with tail := b.tail + k.setWidth 32 }).advance (shortBytes lit))))) ∧
  (∀ (s : State) (lit : Option Word) (sc : Scope) (x : Src) (i : Word), s.me.src (litVal lit) x = .value i →
    (16 ≤ i.toNat ∨ s.myLaunch.pair i.toNat = none → exec (.publ lit sc true x) s = .next (s.takeTrap { cause := .bounds })) ∧
    (1024 ≤ i.toNat → exec (.publ lit sc false x) s = .next (s.takeTrap { cause := .bounds })) ∧
    (s.me.acqWait = false → ReleaseFree s sc → i.toNat < 16 → (s.myLaunch.pair i.toNat).isSome → s.myCore.shadowBusy s.publMark true i.toNat = false →
      exec (.publ lit sc true x) s = .next (((released s).modCore s.cur fun c => { c with
        vis := Vector.ofFn fun j => if j.val = i.toNat then !c.vis.get j else c.vis.get j }).advance (optBytes lit))) ∧
    (s.me.acqWait = false → ReleaseFree s sc → i.toNat < 1024 → s.myCore.shadowBusy s.publMark false i.toNat = false →
      let a := s.descAcc s.myLaunch i.toNat
      s.demand (.ofCore s.cur) a .perform = none →
      exec (.publ lit sc false x) s =
        .next (((performed (released s) a .perform).swapDesc s.myLaunch i.toNat).advance (optBytes lit)))) ∧
  (∀ s : State, (∀ m, s.me.run ≠ .publishing m) → s.publMark = s.serial) ∧
  (∀ (s : State) (i : Instr) (imm : BitVec 24) (b x : Src) (lit bv sh : Word) (len : Nat) (ps : List (Nat × List Nat)),
    Tdecl i imm b x lit len → s.me.src lit b = .value bv → s.me.src lit x = .value sh → s.accessGate = .ok () →
    let ea := bv + imm.signExtend 64
    let rows := (sh.extractLsb' 8 8).toNat + 1
    let cols := (sh.extractLsb' 16 6).toNat + 1
    let pitch := (sh.extractLsb' 24 24).toNat
    sh &&& 0xFFFF000000C000FF = 0 → (rows = 1 ∨ cols ≤ pitch) → rows * cols ≤ 1024 → ea.toNat % 64 = 0 →
    (let at_ := (List.range rows).flatMap fun r => (List.range cols).map fun c => r * pitch + c
     ps.length = at_.length ∧ ∀ j (h : j < at_.length) (h' : j < ps.length), ∃ f : Leaf,
       let va := ea + BitVec.ofNat 64 (64 * at_[j])
       s.walk s.myLaunch va = .ok f ∧ f.allows .store s.me.mode = true ∧ f.addr va < partSize s.pm ∧
         ps[j] = (devKey s.pm s.myLaunch.part (f.addr va) / 64, f.walked)) →
    let lines := ps.map (·.1)
    ((∃ n ∈ lines, (s.dir.tileOf n).isSome) →
      exec i s = .next ((s.unclaim s.cur s.slot).takeTrap { cause := .tileOverlap, addr := ea })) ∧
    ((∀ n ∈ lines, s.dir.tileOf n = none) →
      (∀ p ∈ s.dir.claims, (p.1 = s.cur.val ∧ p.2.1 = s.slot.val) ∨ ∀ n ∈ lines, n ∉ p.2.2) →
      s.quarantined (lines.map (· * 64)) = false →
      let a : Acc := { keys := lines.map (· * 64), place := .dev (lines.headD 0 * 64), part := s.myLaunch.part,
                       walked := (ps.flatMap (·.2)).dedup }
      s.demand (.ofCore s.cur) a .store = none →
      exec i s = .next ((((s.unclaim s.cur s.slot).walked (.ofCore s.cur) a).declareTile ea lines).advance len))) ∧
  (∀ (s : State) (i : Instr) (imm : BitVec 24) (b : Src) (lit bv : Word) (len : Nat) (f : Leaf) (k : Nat),
    Tfree i imm b lit len → s.me.src lit b = .value bv → s.accessGate = .ok () →
    let ea := bv + imm.signExtend 64
    s.walk s.myLaunch ea = .ok f → f.ua = true → placeOf s.pm s.myLaunch.part (f.addr ea) = .dev k →
    let s1 := s.walked (.ofCore s.cur) { keys := [k], place := .dev k, part := s.myLaunch.part, walked := f.walked }
    exec i s = .next (match s1.tileAt ea (k / 64) with
      | some t => (s1.setDir (s1.dir.demote t)).advance len
      | none => s1.advance len)) ∧
  (∀ (s : State) (i : Instr) (imm : BitVec 24) (b r : Src) (lit bv rv : Word) (len : Nat) (f : Leaf) (k : Nat),
    Tfwd i imm b r lit len → s.me.src lit b = .value bv → s.me.src lit r = .value rv → s.accessGate = .ok () →
    let ea := bv + imm.signExtend 64
    (s.myLaunch.cores.length ≤ rv.toNat → exec i s = .next (s.takeTrap { cause := .bounds, addr := ea })) ∧
    (rv.toNat < s.myLaunch.cores.length → s.walk s.myLaunch ea = .ok f → f.ua = true →
      placeOf s.pm s.myLaunch.part (f.addr ea) = .dev k →
      let a : Acc := { keys := [k], place := .dev k, part := s.myLaunch.part, walked := f.walked }
      let s1 := s.walked (.ofCore s.cur) a
      let die := s.myLaunch.dieOf rv.toNat
      s.demand (.ofCore s.cur) a .read = none →
      exec i s = .next (match (s1.tileAt ea (k / 64)).orElse fun _ => s1.dir.tileOf (k / 64) with
        | some t => (s1.setDir (s1.dir.setTile t { t with st := .ts, dies := addOnce die t.dies })).advance len
        | none => (s1.setDir (s1.dir.push (homeDie s.pm k) die (k / 64))).advance len))) ∧
  (∀ (d : Sys2Proof.Machine.Dir) (home die n : Nat), (d.line n).st ≠ .q →
    (die ≠ home → die ∈ ((d.push home die n).line n).dies ∧ ((d.push home die n).line n).st = .s) ∧
    (∀ r, (d.line n).st = .c r → ∀ p ∈ (d.push home die n).partials, p.line ≠ n)) ∧
  (∀ (s : State) (i : Instr) (evict l2 : Bool) (imm : BitVec 24) (b x : Src) (lit bv xv : Word) (len : Nat),
    Hint i evict l2 imm b x lit len → s.me.src lit b = .value bv → s.me.src lit x = .value xv →
    let ea := bv + xv + imm.signExtend 64
    ∃ t : State, exec i s = .next (t.advance len) ∧ t.mem = s.mem ∧ t.cores = s.cores ∧ t.tags = s.tags ∧
      (∀ e, s.resolve .load .glob ea 1 1 = .error e → t = s) ∧
      (∀ a k, s.resolve .load .glob ea 1 1 = .ok a → a.place = .dev k → s.demand (.ofCore s.cur) a .read = none →
        let s1 := s.walked (.ofCore s.cur) a
        t = if evict then s1.setDir (s1.dir.clean s.cur.cluster (k / 64))
          else if l2 = true ∧ homeDie s.pm k = s.cur.die.val then s1
          else s1.arrive (.ofCore s.cur) { a with walked := [] } .read)) ∧
  (∀ (d : Sys2Proof.Machine.Dir) (c n : Nat), d.tileOf n = none → (d.line n).st = .m → (d.line n).clusters = [c] →
    ((d.clean c n).line n).st = .e) ∧
  (∀ (s : State) (lit : Option Word) (ways : BitVec 4) (d : Dst) (b n : Src) (bv nv : Word),
    s.me.src (litVal lit) b = .value bv → s.me.src (litVal lit) n = .value nv → 1 ≤ ways.toNat → ways.toNat ≤ 8 → nv ≠ 0 →
    nv.toNat % 65536 = 0 → bv.toNat % 65536 = 0 →
    let die := s.die s.cur.die.val
    let full := s.myLaunch.desc.retmax ≤ die.retained.toList.countP (heldBy s.myLaunch)
    ((full ∨ ∀ i : Fin 4, (die.retained.get i).isSome) →
      exec (.pin lit ways d b n) s = .next (s.result d (BitVec.allOnes 64) [] (optBytes lit))) ∧
    (¬ full → ∀ i : Fin 4, die.retained.get i = none → (∀ j < i, (die.retained.get j).isSome) →
      exec (.pin lit ways d b n) s = .next ((s.modDie s.cur.die.val fun x => { x with
        retained := x.retained.set i.val (some { launch := s.myLaunch.id, part := s.myLaunch.part, base := bv, len := nv.toNat, ways := ways.toNat }) i.isLt }).result
          d (BitVec.ofNat 64 i.val) [] (optBytes lit)))) ∧
  (∀ (s : State) (lit : Option Word) (x : Src) (i : Word), s.me.src (litVal lit) x = .value i →
    exec (.unpin lit x) s = .next ((s.modDie s.cur.die.val fun y => { y with
      retained := Vector.ofFn fun j => if j.val = i.toNat ∧ heldBy s.myLaunch (y.retained.get j) = true then none else y.retained.get j }).advance
        (shortBytes lit)))

namespace Sys2Proof.Stmt

open Sys2Proof.Machine

inductive Join : Instr → Dst → Src → BitVec 24 → Word → Nat → Prop
  | base (d b) : Join (.join d b) d b 0 0 4
  | ext (f d b imm) : Join (.joinX f d b imm) d b imm f.value (formBytes f)

inductive Wait : Instr → Scope → Win → Option Ty → Dst → Src → Src → BitVec 24 → Word → Nat → Prop
  | base (d b v) : Wait (.wait d b v) .thr .glob none d b v 0 0 4
  | ext (f sc w ty d b v imm) : Wait (.waitX f sc w ty d b v imm) sc w ty d b v imm f.value (formBytes f)

/-- A free helper slot of the core, the lowest that the launch's helper limit allows (R116). -/
def LowestFreeHelper (s : State) (k : SlotId) : Prop :=
  1 ≤ k.val ∧ k.val ≤ s.myLaunch.desc.hl ∧ (s.ctx s.cur k).live = false ∧
  ∀ j : SlotId, 1 ≤ j.val → j < k → (s.ctx s.cur j).live = true

/-- The table of R235: which control registers a mode may read. -/
def mayRead (mode : Mode) (r : CReg) : Prop :=
  mode ≠ .u ∨ r ∉ [.symSel, .symRes, .spillBase, .spillDepth, .trapEpc]

/-- The table of R235: which control registers a mode may write. -/
def mayWrite (mode : Mode) (r : CReg) : Prop :=
  r ∈ [.fpMode, .symMode, .msgRing] ∨ (∃ n, r = .ssr n) ∨
  (mode ≠ .u ∧ r ∈ [.symSel, .symRes, .spillBase, .spillDepth, .trapVec, .trapEpc])

/-- The rounding mode that the low bits of FP.MODE name; other codes keep the old one (R49). -/
def modeNamed (old : RMode) (n : Nat) : RMode :=
  if n = 1 then .rne else if n = 2 then .rtz else if n = 3 then .rup else if n = 4 then .rdn else if n = 5 then .sr else old

end Sys2Proof.Stmt

open Sys2Proof Sys2Proof.Machine Sys2Proof.Stmt in
/-- start fills the lowest free helper slot that the launch allows with a live context in mode U at its target, w0-w7
copies of the starter's o0-o7 and g copied, the generation one higher, and returns the slot, or returns 0 when none
is free. fin, once the vector and replay queues are empty, frees the slot, whose registers keep their VALUEs (the
model's choice, log entry 89). yield moves on and waits for other contexts: the instruction names the live ones,
which the core's turn narrows down to those ready then (R119; log entry 66). join, at a 16-byte aligned object with
its decrement granted and the count not reaching 0, writes the count less one, returns it and acts as release and
acquire at .pkg; with the count reaching 0 it writes and returns 0 and pushes the record that the object names, as
memory holds it then, or, with no room, traps BOUNDS with the count and the destination written, as a fault of the
record's load does; a misaligned object traps ALIGN. wait writes the value when it differs from the comparand and
acquires, and sleeps while it does not. (04 Control flow: starting, joining and ending contexts; 09 Contexts,
helpers and work queues: continuation queues) -/
def Obligations.ContextInstructions : Prop :=
  (∀ (s : State) (d : Dst) (imm : BitVec 24),
    ((∀ k, ¬ LowestFreeHelper s k) → exec (.start d imm) s = .next (s.result d 0 [] 12)) ∧
    ∀ k, LowestFreeHelper s k → k ≠ s.slot → ∃ t, exec (.start d imm) s = .next t ∧
      (t.ctx s.cur k).live = true ∧ (t.ctx s.cur k).mode = .u ∧ (t.ctx s.cur k).pc = branchTo s (imm.signExtend 64) ∧
      (t.ctx s.cur k).gen = (s.ctx s.cur k).gen + 1 ∧ (t.ctx s.cur k).g = s.me.g ∧ (t.ctx s.cur k).pos = 0 ∧
      (∀ j : Fin 8, (t.ctx s.cur k).stack.get ⟨j.val, by omega⟩ = s.me.o.get j) ∧
      t.me.reg .lat = .value (BitVec.ofNat 64 k.val) ∧ t.me.pc = s.me.pc + 12 ∧ t.mem = s.mem) ∧
  (∀ s : State, s.me.vq = [] → s.me.replayQ = [] → (s.me.firstFin = false ∨ s.myCore.strays = []) →
    ∃ t, exec .fin s = .next t ∧ t.me = s.me.ended ∧ t.me.live = false ∧ t.me.gen = s.me.gen ∧
      (∀ r v, s.me.reg r = .value v → t.me.reg r = .value v) ∧ t.mem = s.mem ∧
      ∀ c k, (c, k) ≠ (s.cur, s.slot) → t.ctx c k = s.ctx c k) ∧
  (∀ s : State, s.me.vq ≠ [] ∨ s.me.replayQ ≠ [] → exec .fin s = .next (s.modMe fun t => { t with run := .blocked })) ∧
  (∀ s : State, exec .yield s = .next ((s.advance 4).modMe fun t => { t with run := .yielding (s.myCore.others s.slot) })) ∧
  (∀ (s s1 : State) (i : Instr) (d : Dst) (b : Src) (imm : BitVec 24) (lit bv : Word) (len : Nat) (a : Acc),
    Join i d b imm lit len → s.me.src lit b = .value bv →
    let j := bv + imm.signExtend 64
    (j.toNat % 16 ≠ 0 → exec i s = .next (s.takeTrap { cause := .align, addr := j })) ∧
    let s0 := released s
    (j.toNat % 16 = 0 → ReleaseFree s .pkg → s.accessGate = .ok () →
      s0.resolve .atomic .glob j 8 8 (atomAt .add none) = .ok a → s0.access .atomic .glob j 8 .perform a = .ok s1 →
      let n := BitVec.ofNat 64 (s1.valAcc a 8) - 1
      (n ≠ 0 → exec i s = .next (((s1.writeAcc a 8 n.toNat).result d n [] len).acquired .pkg)) ∧
      (n = 0 → (s1.joinReady j).pause = .ok () →
        let s2 := s1.writeAcc a 8 0
        (∀ e, s2.joinRecord j = .error (.trap e) → exec i s = .next (((s2.putV d 0).acquired .pkg).takeTrap e)) ∧
        ∀ (s3 : State) (at_ : Word) (r : Record), s2.joinRecord j = .ok (s3, at_, r) →
        (∀ x, s3.myCore.push s3.myLaunch.desc.qx r = some x →
          exec i s = .next (((s3.setQueue s3.cur x).result d 0 [] len).acquired .pkg)) ∧
        (s3.myCore.push s3.myLaunch.desc.qx r = none →
          exec i s = .next (((s3.putV d 0).acquired .pkg).takeTrap { cause := .bounds, addr := at_ }))))) ∧
  (∀ (s s1 : State) (i : Instr) (sc : Scope) (w : Win) (ty : Option Ty) (d : Dst) (b v : Src) (imm : BitVec 24) (lit bv vv : Word)
      (len : Nat) (a : Acc),
    Wait i sc w ty d b v imm lit len → s.me.src lit b = .value bv → s.me.src lit v = .value vv → AcquireFree s sc →
    s.loadAcc w (bv + imm.signExtend 64) (intTy ty).bytes = .ok (s1, a) →
    exec i s = .next (if s1.valAcc a (intTy ty).bytes = (part (intTy ty) vv).toNat then (s1.tookAcc a (intTy ty).bytes).modMe fun t => { t with run := .asleep }
      else ((s1.tookAcc a (intTy ty).bytes).result d (loaded s1 a (intTy ty).bytes (intTy ty)) [] len).acquired sc))

open Sys2Proof Sys2Proof.Machine Sys2Proof.Stmt in
/-- With a live launch, a free helper slot k and a newest record r whose reserved flag bits are clear, where neither the
extension nor the acquire waits, RECORD_POP removes r and starts a context in slot k at its CODE with w0, w1, w2 its
FRAME, JOIN and FLAGS, acting as an acquire. STEAL_SWEEP of a core with an empty queue and extension, a free slot
and stealing allowed takes from the first victim in the order that holds a record it may take, or else notes that
the next sweep starts 512 core cycles later at the soonest. SLEEP_WAKE makes a sleeping context ready; WAIT_TIMEOUT
does too, and in a wfe also sets bit 3 of its event latch; REALIGN_TIMEOUT ends a realign stall at the kept PC. No
time-out comes while the die's clock stands still. Each answers the state unchanged where its condition does not
hold. (That bit 3 is set in wfe only is the model's choice, log entry 82; that such a step leaves the state where
its condition fails, log entry 13.) (09 Contexts, helpers and work queues: continuation queues, stealing; 04 Control
flow: starting, joining and ending contexts) -/
def Obligations.WorkQueueEvents : Prop :=
  (∀ (s : State) (c : CoreId) (l : Launch) (k : SlotId) (r : Record) (q : List Record), s.launchOf c = some l → l.phase = .live →
    (s.core c).freeHelper l.desc.hl = some k → (s.core c).queue = q ++ [r] → r.flags &&& 0xFFF3 = 0 →
    s.drainHolds c .pkg = false → s.queueWait c ({ s.core c with queue := q } : Core).refill = none →
    ∃ t, exec (.recordPop c) s = .next t ∧ (t.ctx c k).live = true ∧ (t.ctx c k).pc = r.code ∧ (t.ctx c k).mode = .u ∧
      (t.ctx c k).stack.get 0 = .value r.frame ∧ (t.ctx c k).stack.get 1 = .value r.join ∧
      (t.ctx c k).stack.get 2 = .value r.flags ∧ (t.ctx c k).gen = (s.ctx c k).gen + 1 ∧ ((s.core c).ext = [] → t.mem = s.mem ∧ (t.core c).queue = q) ∧
      t.cur = s.cur ∧ t.slot = s.slot) ∧
  (∀ (s : State) (c : CoreId), ((s.launchOf c).isNone ∨ (s.core c).queue = []) → exec (.recordPop c) s = .next s) ∧
  (∀ (s : State) (c : CoreId) (l : Launch), s.launchOf c = some l → l.phase = .live → l.stopping = false →
    l.desc.nosteal = false → (s.core c).queue = [] → (s.core c).ext = [] → ((s.core c).freeHelper l.desc.hl).isSome →
    (∀ n, (s.core c).stealAt = some n → n ≤ s.cycleOf c) →
    exec (.stealSweep c) s = .next (match (victims c l.desc.xsteal).find? fun v =>
        s.boundTo v l && ((s.core v).ext ++ (s.core v).queue).any fun r => r.takeable c with
      | some v => s.steal c v
      | none => s.modCore c fun x => { x with stealAt := some (s.cycleOf c + 512) })) ∧
  (∀ (s : State) (c : CoreId) (n : Nat), (s.core c).stealAt = some n → s.cycleOf c < n → exec (.stealSweep c) s = .next s) ∧
  (∀ (s : State) (c : CoreId) (k : SlotId),
    ((s.ctx c k).run ∈ [.asleep, .listening] → exec (.sleepWake c k) s = .next (s.modCtx c k fun t => { t with run := .ready })) ∧
    (s.frozen c = true → exec (.waitTimeout c k) s = .next s ∧ exec (.realignTimeout c k) s = .next s) ∧
    ((s.ctx c k).run = .asleep → s.frozen c = false → exec (.waitTimeout c k) s = .next (s.modCtx c k fun t => { t with run := .ready })) ∧
    ((s.ctx c k).run = .listening → s.frozen c = false → exec (.waitTimeout c k) s =
      .next ((s.modCore c fun x => x.latchBit k 3).modCtx c k fun t => { t with run := .ready })) ∧
    ((s.ctx c k).run ∉ [.asleep, .listening] → exec (.sleepWake c k) s = .next s ∧ exec (.waitTimeout c k) s = .next s) ∧
    (∀ next, (s.ctx c k).run = .realign next → s.frozen c = false →
      exec (.realignTimeout c k) s = .next (s.modCtx c k fun t => { t with pc := next, run := .ready })) ∧
    ((∀ next, (s.ctx c k).run ≠ .realign next) → exec (.realignTimeout c k) s = .next s))

open Sys2Proof Sys2Proof.Machine Sys2Proof.Stmt in
/-- crd of a register that the mode may read completes with its value: ID.CTX generation and slot, ID.CORE, ID.CLU,
ID.DIE, ID.LCORE, ID.NCORE, ID.PART, ID.LAUNCH, SPILL.BASE, TRAP.EPC, TRAP.VEC, MSG.RING, and DEADL, which it
clears; of another it traps PERMISSION. cwr of a register that the mode may write stores its VALUE source's writable
bits there and changes no other register; of another it traps PERMISSION before its source is used. FP.MODE takes
seed, FTZ, OVF8 and a rounding mode (codes 0, 6 and 7 keep the old one) and with bit 31 reseeds the 33 generators,
for which it waits for the context's queued vector instructions (the model's choice, log entry 75); SYM.SEL,
TRAP.VEC, TRAP.EPC, SYM.MODE, SPILL.BASE, SPILL.DEPTH and MSG.RING take their bits; an SSR register is written at
once where no queued command is still to walk it, and behind those commands otherwise. SYM.RES resolves the selected
symbol with the source, for every holder, and clears ERR when that is FAULT or CANCELLED, and otherwise sets ERR.
(08 Engine, message and system instructions: control registers; 15 Translation, protection and tags: privilege
modes) -/
def Obligations.ControlRegisters : Prop :=
  (∀ (s : State) (d : Dst) (r : CReg), ¬ mayRead s.me.mode r → exec (.crd d r) s = .next (s.takeTrap { cause := .permission })) ∧
  (∀ (s : State) (d : Dst) (r : CReg), mayRead s.me.mode r →
    exec (.crd d r) s = .next ((if r = .deadl then s.modCore s.cur fun x => { x with deadl := 0 } else s).result d (s.creg r) [] 12) ∧
    (r = .idCtx → s.creg r = BitVec.ofNat 64 (s.me.gen.toNat * 2 ^ 16 + s.slot.val)) ∧
    (r = .idCore → s.creg r = BitVec.ofNat 64 (s.cur.val % 128)) ∧ (r = .idClu → s.creg r = BitVec.ofNat 64 (s.cur.val / 8 % 16)) ∧
    (r = .idDie → s.creg r = BitVec.ofNat 64 (s.cur.val / 128)) ∧ (r = .idLcore → s.creg r = BitVec.ofNat 64 s.myCore.rank) ∧
    (r = .idNcore → s.creg r = BitVec.ofNat 64 s.myLaunch.cores.length) ∧ (r = .idPart → s.creg r = BitVec.ofNat 64 (s.partOf s.cur)) ∧
    (r = .idLaunch → s.creg r = BitVec.ofNat 64 (s.myCore.launch.getD 0)) ∧
    (r = .spillBase → s.creg r = BitVec.ofNat 64 (s.me.spillBase.toNat * 16)) ∧ (r = .trapEpc → s.creg r = s.me.epc) ∧
    (r = .trapVec → s.creg r = s.myLaunch.trapVec) ∧ (r = .msgRing → s.creg r = s.myCore.msgRing) ∧
    (r = .deadl → s.creg r = s.myCore.deadl.setWidth 64)) ∧
  (∀ (s : State) (lit : Option Word) (r : CReg) (x : Src), ¬ mayWrite s.me.mode r →
    exec (.cwr lit r x) s = .next (s.takeTrap { cause := .permission })) ∧
  (∀ (s : State) (lit : Option Word) (r : CReg) (x : Src) (v : Word), mayWrite s.me.mode r → s.me.src (litVal lit) x = .value v →
    (r = .fpMode → v.getLsbD 31 = true → s.me.vq ≠ [] → exec (.cwr lit r x) s = .next (s.modMe fun t => { t with run := .blocked })) ∧
    ((r = .fpMode → v.getLsbD 31 = true → s.me.vq = []) →
      exec (.cwr lit r x) s = .next ((s.setCreg r v).advance (optBytes lit))) ∧
    (r = .trapEpc → s.setCreg r v = s.modMe fun t => { t with epc := v }) ∧
    (r = .symMode → s.setCreg r v = s.modMe fun t =>
      { t with quota := v.extractLsb' 8 6, nolog := v.getLsbD 1, nofold := v.getLsbD 0 }) ∧
    (r = .spillDepth → s.setCreg r v = s.modMe fun t => { t with spillDepth := v.extractLsb' 0 16 }) ∧
    (r = .spillBase → s.setCreg r v = s.modMe fun t => { t with spillBase := v.extractLsb' 4 56 }) ∧
    (r = .msgRing → s.setCreg r v = s.modCore s.cur fun c => { c with msgRing := v &&& 0x80000000000FFFFF }) ∧
    (r = .symRes → ∀ σ, σ = s.me.selSym → (∀ a, s.myCore.syms.get σ ≠ .fault a) → s.myCore.syms.get σ ≠ .cancelled →
      s.setCreg r v = s.modMe fun t => { t with selErr := true }) ∧
    (r = .symRes → ((∃ a, s.myCore.syms.get s.me.selSym = .fault a) ∨ s.myCore.syms.get s.me.selSym = .cancelled) →
      s.setCreg r v = (s.modCore s.cur fun x => x.resolve s.me.selSym v).modMe fun t => { t with selErr := false }) ∧
    (r = .fpMode → s.setCreg r v = s.modMe fun t => { t with
      seed := v.extractLsb' 32 32, ftz := v.getLsbD 6, ovf8 := v.getLsbD 5, rm := modeNamed t.rm (v.extractLsb' 0 3).toNat
      gens := if v.getLsbD 31 then (List.range 33).map (genSeed (v.extractLsb' 32 32)) else t.gens }) ∧
    (r = .symSel → s.setCreg r v = s.modMe fun t => { t with selSym := Fin.ofNat 64 (v.extractLsb' 0 6).toNat }) ∧
    (r = .trapVec → ∀ id, s.myCore.launch = some id →
      s.setCreg r v = s.modLaunch (s.partOf s.cur) id fun l => { l with trapVec := v &&& 0x0FFFFFFFFFFFFFFC }) ∧
    (∀ n, r = .ssr n → ∀ x, x = s.myCore →
      (x.harrow.queue = [] → (∀ q, x.harrow.running = some q → q.begun = true) →
        s.setCreg r v = s.setCore s.cur { x with ssr := x.ssr.set n.val (v &&& 0xFFFF00FFFFFFFFFF) n.isLt }) ∧
      (x.harrow.queue ≠ [] ∨ (∃ q, x.harrow.running = some q ∧ q.begun = false) →
        s.setCreg r v = s.setCore s.cur { x with ssrNext := x.ssrNext ++ [(n, v &&& 0xFFFF00FFFFFFFFFF)] })))

open Sys2Proof Sys2Proof.Machine Sys2Proof.Stmt in
/-- rdtime writes STIME as the core's die shows it; rderr the PTP bound in the high half over the package bound (32 or
more, and no less than any die's skew: the model's choice, log entry 38). trap with a VALUE argument and its release
done sends slot, service and argument to the runtime, or in mode S to the root firmware, and waits; the reply writes
its value to the destination and lat, goes on after the trap and acquires at .pkg, with the granule tags set that
the service has set, where its answer waits for nothing. brk reports to the debugger and stops in a launch with
debugging, and only moves on without; the debugger's resume goes on after it or ends the context. wfe writes and
clears a nonzero event latch, and sleeps on a zero one. (08 Engine, message and system instructions: time, service,
debug, event latch; 19 Clocks, time and links: STIME) -/
def Obligations.SystemInstructions : Prop :=
  (∀ (s : State) (d : Dst), exec (.rdtime d) s =
    .next (s.result d (BitVec.ofNat 64 ((s.stime : Int) + (s.dies.get s.cur.die).skew).toNat) [] 4)) ∧
  (∀ (s : State) (d : Dst), exec (.rderr d) s =
    .next (s.result d (BitVec.ofNat 64 (s.time.bound.toNat * 2 ^ 32 + s.packageBound % 2 ^ 32)) [] 4) ∧
    32 ≤ s.packageBound ∧ ∀ i : Fin 8, (s.dies.get i).skew.natAbs ≤ s.packageBound) ∧
  (∀ (s : State) (lit : Option Word) (d : Dst) (svc : BitVec 12) (x : Src) (a : Word),
    s.me.src (litVal lit) x = .value a → ReleaseFree s .pkg →
    let msg : OutMsg := if s.me.mode ∈ [.s, .m] then .rootService s.cur.val s.slot.val svc.toNat a
      else .service s.cur.val s.slot.val svc.toNat a
    exec (.trap lit d svc x) s = .next { (released s).modMe (fun t => { t with
      run := .service d (s.me.pc + BitVec.ofNat 64 (optBytes lit)) }) with out := msg :: s.out }) ∧
  (∀ (s : State) (c : CoreId) (k : SlotId) (v next : Word) (d : Dst) (tags : List (Nat × Nat)),
    (s.ctx c k).live = true → (s.ctx c k).run = .service d next → s.answerWaits c k { value := v, tags := tags } = none →
    ∃ t, exec (.serviceReply c k { value := v, tags := tags }) s = .next t ∧ (t.ctx c k).reg .lat = .value v ∧ (t.ctx c k).pc = next ∧
      (t.ctx c k).run = .ready ∧ (∀ n, dstName d = some n → (t.ctx c k).reg n = .value v) ∧ t.mem = s.mem ∧
      t.cur = s.cur ∧ t.slot = s.slot ∧ (tags = [] → t.tags = s.tags) ∧
      ∀ pa g, tags = [(pa, g)] → pa < partSize s.pm → t.tagAt (devKey s.pm (s.partOf c) pa) = g % 16) ∧
  (∀ (s : State) (code : BitVec 12),
    (s.myLaunch.desc.dbg = false → exec (.brk code) s = .next (s.advance 4)) ∧
    (s.myLaunch.desc.dbg = true → exec (.brk code) s = .next { s.modMe (fun t => { t with run := .stopped (t.pc + 4) }) with
      out := .debug s.cur.val s.slot.val code.toNat s.me.pc :: s.out })) ∧
  (∀ (s : State) (c : CoreId) (k : SlotId) (next : Word), (s.ctx c k).run = .stopped next →
    exec (.debuggerResume c k false) s = .next (s.modCtx c k fun t => { t with pc := next, run := .ready }) ∧
    exec (.debuggerResume c k true) s = .next (s.endCtx c k)) ∧
  (∀ (s : State) (d : Dst), exec (.wfe d) s = .next (if s.me.latch = 0 then s.modMe fun t => { t with run := .listening }
    else (s.modMe fun t => { t with latch := 0 }).result d (s.me.latch.setWidth 64) [] 4))

open Sys2Proof Sys2Proof.Machine Sys2Proof.Stmt in
/-- In mode S or M idle marks the core as not issuing and moves past itself; in mode U or H it traps PERMISSION. While
the mark stands the core has no turn: none of its contexts issues. The command processor's signal, while it runs,
clears it, and a core made ready for a launch has it clear. Registers, memory and every other core are as before.
(R241) -/
def Obligations.IdleIsPrivileged : Prop :=
  (∀ s : State, s.me.mode = .s ∨ s.me.mode = .m →
    exec .idle s = .next ((s.modCore s.cur fun x => { x with idle := true }).advance 4)) ∧
  (∀ s : State, s.me.mode = .u ∨ s.me.mode = .h → exec .idle s = .next (s.takeTrap { cause := .permission })) ∧
  (∀ (s : State) (c : CoreId), (s.core c).idle = true → s.coreRuns c = false ∧ s.turnOf c = .error s) ∧
  (∀ (s : State) (c : CoreId), s.scheduling = true → exec (.commandProcessorSignal c) s = .next (s.modCore c fun x => { x with idle := false })) ∧
  (∀ (x : Core) (id rank : Nat), (x.bound id rank).idle = false)

namespace Sys2Proof.Stmt

open Sys2Proof.Machine

/-- The vector instructions without a scalar result and without a memory access: what each one queues (R157, R166 to R176),
from the state it issues in, the scalar registers it captures, and its length. A 32-bit form has the group's default
TYPE, the dynamic rounding mode and no mask; a form without the extended words takes its fourth operand from the
destination (R14). -/
inductive VecRow (s : State) : Instr → VOp → List Reg → Nat → Prop
  | vadd (d x y) : VecRow s (.vadd d x y)
      { op := .add, ty := .f32, rnd := (s.me.mode' .dyn), mask := {}, dst := d.val, x := s.varg .f32 0 x, y := s.varg .f32 0 y, z := s.varg .f32 0 .zero }
      [s.vreg .f32 0 x, s.vreg .f32 0 y, s.vreg .f32 0 .zero] 4
  | vaddX (f ty rnd mk d x y) : VecRow s (.vaddX f ty rnd mk d x y)
      { op := .add, ty := (fpTy ty), rnd := (s.me.mode' rnd), mask := mk, dst := d.val, x := s.varg (fpTy ty) f.value x, y := s.varg (fpTy ty) f.value y, z := s.varg (fpTy ty) f.value .zero }
      [s.vreg (fpTy ty) f.value x, s.vreg (fpTy ty) f.value y, s.vreg (fpTy ty) f.value .zero] (formBytes f)
  | vsub (d x y) : VecRow s (.vsub d x y)
      { op := .sub, ty := .f32, rnd := (s.me.mode' .dyn), mask := {}, dst := d.val, x := s.varg .f32 0 x, y := s.varg .f32 0 y, z := s.varg .f32 0 .zero }
      [s.vreg .f32 0 x, s.vreg .f32 0 y, s.vreg .f32 0 .zero] 4
  | vsubX (f ty rnd mk d x y) : VecRow s (.vsubX f ty rnd mk d x y)
      { op := .sub, ty := (fpTy ty), rnd := (s.me.mode' rnd), mask := mk, dst := d.val, x := s.varg (fpTy ty) f.value x, y := s.varg (fpTy ty) f.value y, z := s.varg (fpTy ty) f.value .zero }
      [s.vreg (fpTy ty) f.value x, s.vreg (fpTy ty) f.value y, s.vreg (fpTy ty) f.value .zero] (formBytes f)
  | vmul (d x y) : VecRow s (.vmul d x y)
      { op := .mul, ty := .f32, rnd := (s.me.mode' .dyn), mask := {}, dst := d.val, x := s.varg .f32 0 x, y := s.varg .f32 0 y, z := s.varg .f32 0 .zero }
      [s.vreg .f32 0 x, s.vreg .f32 0 y, s.vreg .f32 0 .zero] 4
  | vmulX (f ty rnd mk d x y) : VecRow s (.vmulX f ty rnd mk d x y)
      { op := .mul, ty := (fpTy ty), rnd := (s.me.mode' rnd), mask := mk, dst := d.val, x := s.varg (fpTy ty) f.value x, y := s.varg (fpTy ty) f.value y, z := s.varg (fpTy ty) f.value .zero }
      [s.vreg (fpTy ty) f.value x, s.vreg (fpTy ty) f.value y, s.vreg (fpTy ty) f.value .zero] (formBytes f)
  | vmin (d x y) : VecRow s (.vmin d x y)
      { op := .min, ty := .f32, rnd := (s.me.mode' .dyn), mask := {}, dst := d.val, x := s.varg .f32 0 x, y := s.varg .f32 0 y, z := s.varg .f32 0 .zero }
      [s.vreg .f32 0 x, s.vreg .f32 0 y, s.vreg .f32 0 .zero] 4
  | vminX (f ty rnd mk d x y) : VecRow s (.vminX f ty rnd mk d x y)
      { op := .min, ty := (fpTy ty), rnd := (s.me.mode' rnd), mask := mk, dst := d.val, x := s.varg (fpTy ty) f.value x, y := s.varg (fpTy ty) f.value y, z := s.varg (fpTy ty) f.value .zero }
      [s.vreg (fpTy ty) f.value x, s.vreg (fpTy ty) f.value y, s.vreg (fpTy ty) f.value .zero] (formBytes f)
  | vmax (d x y) : VecRow s (.vmax d x y)
      { op := .max, ty := .f32, rnd := (s.me.mode' .dyn), mask := {}, dst := d.val, x := s.varg .f32 0 x, y := s.varg .f32 0 y, z := s.varg .f32 0 .zero }
      [s.vreg .f32 0 x, s.vreg .f32 0 y, s.vreg .f32 0 .zero] 4
  | vmaxX (f ty rnd mk d x y) : VecRow s (.vmaxX f ty rnd mk d x y)
      { op := .max, ty := (fpTy ty), rnd := (s.me.mode' rnd), mask := mk, dst := d.val, x := s.varg (fpTy ty) f.value x, y := s.varg (fpTy ty) f.value y, z := s.varg (fpTy ty) f.value .zero }
      [s.vreg (fpTy ty) f.value x, s.vreg (fpTy ty) f.value y, s.vreg (fpTy ty) f.value .zero] (formBytes f)
  | vfma (d x y) : VecRow s (.vfma d x y)
      { op := .fma, ty := .f32, rnd := (s.me.mode' .dyn), mask := {}, dst := d.val, x := s.varg .f32 0 x, y := s.varg .f32 0 y, z := s.varg .f32 0 (.v d) }
      [s.vreg .f32 0 x, s.vreg .f32 0 y, s.vreg .f32 0 (.v d)] 4
  | vfmaL (w ty rnd mk d x y z) : VecRow s (.vfmaX (.l w) ty rnd mk d x y z)
      { op := .fma, ty := (fpTy ty), rnd := (s.me.mode' rnd), mask := mk, dst := d.val, x := s.varg (fpTy ty) w x, y := s.varg (fpTy ty) w y, z := s.varg (fpTy ty) w (.v d) }
      [s.vreg (fpTy ty) w x, s.vreg (fpTy ty) w y, s.vreg (fpTy ty) w (.v d)] 12
  | vfmaX (ty rnd mk d x y z) : VecRow s (.vfmaX .x ty rnd mk d x y z)
      { op := .fma, ty := (fpTy ty), rnd := (s.me.mode' rnd), mask := mk, dst := d.val, x := s.varg (fpTy ty) 0 x, y := s.varg (fpTy ty) 0 y, z := s.varg (fpTy ty) 0 z }
      [s.vreg (fpTy ty) 0 x, s.vreg (fpTy ty) 0 y, s.vreg (fpTy ty) 0 z] 12
  | vfmaXL (w ty rnd mk d x y z) : VecRow s (.vfmaX (.xl w) ty rnd mk d x y z)
      { op := .fma, ty := (fpTy ty), rnd := (s.me.mode' rnd), mask := mk, dst := d.val, x := s.varg (fpTy ty) w x, y := s.varg (fpTy ty) w y, z := s.varg (fpTy ty) w z }
      [s.vreg (fpTy ty) w x, s.vreg (fpTy ty) w y, s.vreg (fpTy ty) w z] 20
  | vabs (d x) : VecRow s (.vabs d x)
      { op := .abs, ty := .f32, rnd := (s.me.mode' .dyn), mask := {}, dst := d.val, x := s.varg .f32 0 x, y := s.varg .f32 0 .zero, z := s.varg .f32 0 .zero }
      [s.vreg .f32 0 x, s.vreg .f32 0 .zero, s.vreg .f32 0 .zero] 4
  | vabsX (f ty mk d x) : VecRow s (.vabsX f ty mk d x)
      { op := .abs, ty := (fpTy ty), rnd := (s.me.mode' .dyn), mask := mk, dst := d.val, x := s.varg (fpTy ty) f.value x, y := s.varg (fpTy ty) f.value .zero, z := s.varg (fpTy ty) f.value .zero }
      [s.vreg (fpTy ty) f.value x, s.vreg (fpTy ty) f.value .zero, s.vreg (fpTy ty) f.value .zero] (formBytes f)
  | vneg (d x) : VecRow s (.vneg d x)
      { op := .neg, ty := .f32, rnd := (s.me.mode' .dyn), mask := {}, dst := d.val, x := s.varg .f32 0 x, y := s.varg .f32 0 .zero, z := s.varg .f32 0 .zero }
      [s.vreg .f32 0 x, s.vreg .f32 0 .zero, s.vreg .f32 0 .zero] 4
  | vnegX (f ty mk d x) : VecRow s (.vnegX f ty mk d x)
      { op := .neg, ty := (fpTy ty), rnd := (s.me.mode' .dyn), mask := mk, dst := d.val, x := s.varg (fpTy ty) f.value x, y := s.varg (fpTy ty) f.value .zero, z := s.varg (fpTy ty) f.value .zero }
      [s.vreg (fpTy ty) f.value x, s.vreg (fpTy ty) f.value .zero, s.vreg (fpTy ty) f.value .zero] (formBytes f)
  | vrcp (d x) : VecRow s (.vrcp d x)
      { op := .rcp, ty := .f32, rnd := (s.me.mode' .dyn), mask := {}, dst := d.val, x := s.varg .f32 0 x, y := s.varg .f32 0 .zero, z := s.varg .f32 0 .zero }
      [s.vreg .f32 0 x, s.vreg .f32 0 .zero, s.vreg .f32 0 .zero] 4
  | vrcpX (f ty rnd mk d x) : VecRow s (.vrcpX f ty rnd mk d x)
      { op := .rcp, ty := (fpTy ty), rnd := (s.me.mode' rnd), mask := mk, dst := d.val, x := s.varg (fpTy ty) f.value x, y := s.varg (fpTy ty) f.value .zero, z := s.varg (fpTy ty) f.value .zero }
      [s.vreg (fpTy ty) f.value x, s.vreg (fpTy ty) f.value .zero, s.vreg (fpTy ty) f.value .zero] (formBytes f)
  | vrsq (d x) : VecRow s (.vrsq d x)
      { op := .rsq, ty := .f32, rnd := (s.me.mode' .dyn), mask := {}, dst := d.val, x := s.varg .f32 0 x, y := s.varg .f32 0 .zero, z := s.varg .f32 0 .zero }
      [s.vreg .f32 0 x, s.vreg .f32 0 .zero, s.vreg .f32 0 .zero] 4
  | vrsqX (f ty rnd mk d x) : VecRow s (.vrsqX f ty rnd mk d x)
      { op := .rsq, ty := (fpTy ty), rnd := (s.me.mode' rnd), mask := mk, dst := d.val, x := s.varg (fpTy ty) f.value x, y := s.varg (fpTy ty) f.value .zero, z := s.varg (fpTy ty) f.value .zero }
      [s.vreg (fpTy ty) f.value x, s.vreg (fpTy ty) f.value .zero, s.vreg (fpTy ty) f.value .zero] (formBytes f)
  | vexp (d x) : VecRow s (.vexp d x)
      { op := .exp, ty := .f32, rnd := (s.me.mode' .dyn), mask := {}, dst := d.val, x := s.varg .f32 0 x, y := s.varg .f32 0 .zero, z := s.varg .f32 0 .zero }
      [s.vreg .f32 0 x, s.vreg .f32 0 .zero, s.vreg .f32 0 .zero] 4
  | vexpX (f ty rnd mk d x) : VecRow s (.vexpX f ty rnd mk d x)
      { op := .exp, ty := (fpTy ty), rnd := (s.me.mode' rnd), mask := mk, dst := d.val, x := s.varg (fpTy ty) f.value x, y := s.varg (fpTy ty) f.value .zero, z := s.varg (fpTy ty) f.value .zero }
      [s.vreg (fpTy ty) f.value x, s.vreg (fpTy ty) f.value .zero, s.vreg (fpTy ty) f.value .zero] (formBytes f)
  | vlog (d x) : VecRow s (.vlog d x)
      { op := .log, ty := .f32, rnd := (s.me.mode' .dyn), mask := {}, dst := d.val, x := s.varg .f32 0 x, y := s.varg .f32 0 .zero, z := s.varg .f32 0 .zero }
      [s.vreg .f32 0 x, s.vreg .f32 0 .zero, s.vreg .f32 0 .zero] 4
  | vlogX (f ty rnd mk d x) : VecRow s (.vlogX f ty rnd mk d x)
      { op := .log, ty := (fpTy ty), rnd := (s.me.mode' rnd), mask := mk, dst := d.val, x := s.varg (fpTy ty) f.value x, y := s.varg (fpTy ty) f.value .zero, z := s.varg (fpTy ty) f.value .zero }
      [s.vreg (fpTy ty) f.value x, s.vreg (fpTy ty) f.value .zero, s.vreg (fpTy ty) f.value .zero] (formBytes f)
  | vtanh (d x) : VecRow s (.vtanh d x)
      { op := .tanh, ty := .f32, rnd := (s.me.mode' .dyn), mask := {}, dst := d.val, x := s.varg .f32 0 x, y := s.varg .f32 0 .zero, z := s.varg .f32 0 .zero }
      [s.vreg .f32 0 x, s.vreg .f32 0 .zero, s.vreg .f32 0 .zero] 4
  | vtanhX (f ty rnd mk d x) : VecRow s (.vtanhX f ty rnd mk d x)
      { op := .tanh, ty := (fpTy ty), rnd := (s.me.mode' rnd), mask := mk, dst := d.val, x := s.varg (fpTy ty) f.value x, y := s.varg (fpTy ty) f.value .zero, z := s.varg (fpTy ty) f.value .zero }
      [s.vreg (fpTy ty) f.value x, s.vreg (fpTy ty) f.value .zero, s.vreg (fpTy ty) f.value .zero] (formBytes f)
  | vand (d x y) : VecRow s (.vand d x y)
      { op := .and, ty := .i32, mask := {}, dst := d.val, x := s.varg .i32 0 x, y := s.varg .i32 0 y, z := s.varg .i32 0 .zero }
      [s.vreg .i32 0 x, s.vreg .i32 0 y, s.vreg .i32 0 .zero] 4
  | vandX (f ty mk d x y) : VecRow s (.vandX f ty mk d x y)
      { op := .and, ty := (bitsTy ty), mask := mk, dst := d.val, x := s.varg (bitsTy ty) f.value x, y := s.varg (bitsTy ty) f.value y, z := s.varg (bitsTy ty) f.value .zero }
      [s.vreg (bitsTy ty) f.value x, s.vreg (bitsTy ty) f.value y, s.vreg (bitsTy ty) f.value .zero] (formBytes f)
  | vor (d x y) : VecRow s (.vor d x y)
      { op := .or, ty := .i32, mask := {}, dst := d.val, x := s.varg .i32 0 x, y := s.varg .i32 0 y, z := s.varg .i32 0 .zero }
      [s.vreg .i32 0 x, s.vreg .i32 0 y, s.vreg .i32 0 .zero] 4
  | vorX (f ty mk d x y) : VecRow s (.vorX f ty mk d x y)
      { op := .or, ty := (bitsTy ty), mask := mk, dst := d.val, x := s.varg (bitsTy ty) f.value x, y := s.varg (bitsTy ty) f.value y, z := s.varg (bitsTy ty) f.value .zero }
      [s.vreg (bitsTy ty) f.value x, s.vreg (bitsTy ty) f.value y, s.vreg (bitsTy ty) f.value .zero] (formBytes f)
  | vxor (d x y) : VecRow s (.vxor d x y)
      { op := .xor, ty := .i32, mask := {}, dst := d.val, x := s.varg .i32 0 x, y := s.varg .i32 0 y, z := s.varg .i32 0 .zero }
      [s.vreg .i32 0 x, s.vreg .i32 0 y, s.vreg .i32 0 .zero] 4
  | vxorX (f ty mk d x y) : VecRow s (.vxorX f ty mk d x y)
      { op := .xor, ty := (bitsTy ty), mask := mk, dst := d.val, x := s.varg (bitsTy ty) f.value x, y := s.varg (bitsTy ty) f.value y, z := s.varg (bitsTy ty) f.value .zero }
      [s.vreg (bitsTy ty) f.value x, s.vreg (bitsTy ty) f.value y, s.vreg (bitsTy ty) f.value .zero] (formBytes f)
  | vshl (d x y) : VecRow s (.vshl d x y)
      { op := .shl, ty := .i32, mask := {}, dst := d.val, x := s.varg .i32 0 x, y := s.varg .i32 0 y, z := s.varg .i32 0 .zero }
      [s.vreg .i32 0 x, s.vreg .i32 0 y, s.vreg .i32 0 .zero] 4
  | vshlX (f ty mk d x y) : VecRow s (.vshlX f ty mk d x y)
      { op := .shl, ty := (bitsTy ty), mask := mk, dst := d.val, x := s.varg (bitsTy ty) f.value x, y := s.varg (bitsTy ty) f.value y, z := s.varg (bitsTy ty) f.value .zero }
      [s.vreg (bitsTy ty) f.value x, s.vreg (bitsTy ty) f.value y, s.vreg (bitsTy ty) f.value .zero] (formBytes f)
  | vshr (d x y) : VecRow s (.vshr d x y)
      { op := .shr, ty := .i32, mask := {}, dst := d.val, x := s.varg .i32 0 x, y := s.varg .i32 0 y, z := s.varg .i32 0 .zero }
      [s.vreg .i32 0 x, s.vreg .i32 0 y, s.vreg .i32 0 .zero] 4
  | vshrX (f ty mk d x y) : VecRow s (.vshrX f ty mk d x y)
      { op := .shr, ty := (bitsTy ty), mask := mk, dst := d.val, x := s.varg (bitsTy ty) f.value x, y := s.varg (bitsTy ty) f.value y, z := s.varg (bitsTy ty) f.value .zero }
      [s.vreg (bitsTy ty) f.value x, s.vreg (bitsTy ty) f.value y, s.vreg (bitsTy ty) f.value .zero] (formBytes f)
  | vsra (d x y) : VecRow s (.vsra d x y)
      { op := .sra, ty := .i32, mask := {}, dst := d.val, x := s.varg .i32 0 x, y := s.varg .i32 0 y, z := s.varg .i32 0 .zero }
      [s.vreg .i32 0 x, s.vreg .i32 0 y, s.vreg .i32 0 .zero] 4
  | vsraX (f ty mk d x y) : VecRow s (.vsraX f ty mk d x y)
      { op := .sra, ty := (bitsTy ty), mask := mk, dst := d.val, x := s.varg (bitsTy ty) f.value x, y := s.varg (bitsTy ty) f.value y, z := s.varg (bitsTy ty) f.value .zero }
      [s.vreg (bitsTy ty) f.value x, s.vreg (bitsTy ty) f.value y, s.vreg (bitsTy ty) f.value .zero] (formBytes f)
  | vnot (d x) : VecRow s (.vnot d x)
      { op := .not, ty := .i32, mask := {}, dst := d.val, x := s.varg .i32 0 x, y := s.varg .i32 0 .zero, z := s.varg .i32 0 .zero }
      [s.vreg .i32 0 x, s.vreg .i32 0 .zero, s.vreg .i32 0 .zero] 4
  | vnotX (f ty mk d x) : VecRow s (.vnotX f ty mk d x)
      { op := .not, ty := (bitsTy ty), mask := mk, dst := d.val, x := s.varg (bitsTy ty) f.value x, y := s.varg (bitsTy ty) f.value .zero, z := s.varg (bitsTy ty) f.value .zero }
      [s.vreg (bitsTy ty) f.value x, s.vreg (bitsTy ty) f.value .zero, s.vreg (bitsTy ty) f.value .zero] (formBytes f)
  | vmov (d x) : VecRow s (.vmov d x)
      { op := .mov, ty := .i32, mask := {}, dst := d.val, x := s.varg .i32 0 x, y := s.varg .i32 0 .zero, z := s.varg .i32 0 .zero }
      [s.vreg .i32 0 x, s.vreg .i32 0 .zero, s.vreg .i32 0 .zero] 4
  | vmovX (f ty mk d x) : VecRow s (.vmovX f ty mk d x)
      { op := .mov, ty := (bitsTy ty), mask := mk, dst := d.val, x := s.varg (bitsTy ty) f.value x, y := s.varg (bitsTy ty) f.value .zero, z := s.varg (bitsTy ty) f.value .zero }
      [s.vreg (bitsTy ty) f.value x, s.vreg (bitsTy ty) f.value .zero, s.vreg (bitsTy ty) f.value .zero] (formBytes f)
  | vsel (d k x) : VecRow s (.vsel d k x)
      { op := .sel k, ty := .i32, mask := {}, dst := d.val, x := s.varg .i32 0 x, y := s.varg .i32 0 (.v d), z := s.varg .i32 0 .zero }
      [s.vreg .i32 0 x, s.vreg .i32 0 (.v d), s.vreg .i32 0 .zero] 4
  | vselL (w ty mk d k x y) : VecRow s (.vselX (.l w) ty mk d k x y)
      { op := .sel k, ty := (bitsTy ty), mask := mk, dst := d.val, x := s.varg (bitsTy ty) w x, y := s.varg (bitsTy ty) w (.v d), z := s.varg (bitsTy ty) w .zero }
      [s.vreg (bitsTy ty) w x, s.vreg (bitsTy ty) w (.v d), s.vreg (bitsTy ty) w .zero] 12
  | vselX (ty mk d k x y) : VecRow s (.vselX .x ty mk d k x y)
      { op := .sel k, ty := (bitsTy ty), mask := mk, dst := d.val, x := s.varg (bitsTy ty) 0 x, y := s.varg (bitsTy ty) 0 y, z := s.varg (bitsTy ty) 0 .zero }
      [s.vreg (bitsTy ty) 0 x, s.vreg (bitsTy ty) 0 y, s.vreg (bitsTy ty) 0 .zero] 12
  | vselXL (w ty mk d k x y) : VecRow s (.vselX (.xl w) ty mk d k x y)
      { op := .sel k, ty := (bitsTy ty), mask := mk, dst := d.val, x := s.varg (bitsTy ty) w x, y := s.varg (bitsTy ty) w y, z := s.varg (bitsTy ty) w .zero }
      [s.vreg (bitsTy ty) w x, s.vreg (bitsTy ty) w y, s.vreg (bitsTy ty) w .zero] 20
  | vperm (d x y) : VecRow s (.vperm d x y)
      { op := .perm, ty := .i32, mask := {}, dst := d.val, x := s.varg .i32 0 (.v x), y := s.varg .i32 0 (.v y), z := s.varg .i32 0 .zero }
      [s.vreg .i32 0 (.v x), s.vreg .i32 0 (.v y), s.vreg .i32 0 .zero] 4
  | vpermX (ty mk d x y) : VecRow s (.vpermX ty mk d x y)
      { op := .perm, ty := (bitsTy ty), mask := mk, dst := d.val, x := s.varg (bitsTy ty) 0 (.v x), y := s.varg (bitsTy ty) 0 (.v y), z := s.varg (bitsTy ty) 0 .zero }
      [s.vreg (bitsTy ty) 0 (.v x), s.vreg (bitsTy ty) 0 (.v y), s.vreg (bitsTy ty) 0 .zero] 12
  | vcmp (c d x y) : VecRow s (.vcmp c d x y)
      { op := .cmp c, ty := .f32, mask := {}, dst := d.val, x := s.varg .f32 0 x, y := s.varg .f32 0 y, z := s.varg .f32 0 .zero }
      [s.vreg .f32 0 x, s.vreg .f32 0 y, s.vreg .f32 0 .zero] 4
  | vcmpX (f c ty mk d x y) : VecRow s (.vcmpX f c ty mk d x y)
      { op := .cmp c, ty := (fpTy ty), mask := mk, dst := d.val, x := s.varg (fpTy ty) f.value x, y := s.varg (fpTy ty) f.value y, z := s.varg (fpTy ty) f.value .zero }
      [s.vreg (fpTy ty) f.value x, s.vreg (fpTy ty) f.value y, s.vreg (fpTy ty) f.value .zero] (formBytes f)
  | vscan (op d x) : VecRow s (.vscan op d x)
      { op := .scan op, ty := .f32, rnd := (s.me.mode' .dyn), mask := {}, dst := d.val, x := .reg x, y := .val 0, z := .val 0 }
      [.value 0, .value 0, .value 0] 4
  | vscanX (ty rnd mk op d x) : VecRow s (.vscanX ty rnd mk op d x)
      { op := .scan op, ty := (fpTy ty), rnd := (s.me.mode' rnd), mask := mk, dst := d.val, x := .reg x, y := .val 0, z := .val 0 }
      [.value 0, .value 0, .value 0] 12
  | vcvt (lit dst src p rnd mk d x) : VecRow s (.vcvt lit dst src p rnd mk d x)
      { op := .cvt, ty := dst, src, part := p.val, rnd := s.me.cvtMode dst rnd, mask := mk, dst := d.val, x := s.varg src (litVal lit) x }
      [s.vreg src (litVal lit) x] (if lit.isSome then 20 else 12)
  | vquant (d x y) : VecRow s (.vquant d x y)
      { op := .quant, ty := .e4m3, part := 0, rnd := s.me.cvtMode .e4m3 .dyn, mask := {}, dst := d.val, x := s.varg .f32 0 x, y := s.varg .f32 0 y }
      [s.vreg .f32 0 x, s.vreg .f32 0 y] 4
  | vquantX (f ty p rnd mk d x y) : VecRow s (.vquantX f ty p rnd mk d x y)
      { op := .quant, ty := (quantTy ty), part := p.val, rnd := s.me.cvtMode (quantTy ty) rnd, mask := mk, dst := d.val, x := s.varg .f32 f.value x, y := s.varg .f32 f.value y }
      [s.vreg .f32 f.value x, s.vreg .f32 f.value y] (formBytes f)
  | vdeq (d x y) : VecRow s (.vdeq d x y)
      { op := .deq, ty := .e4m3, part := 0, rnd := s.me.mode' .dyn, mask := {}, dst := d.val, x := s.varg .e4m3 0 x, y := s.varg .f32 0 y }
      [s.vreg .e4m3 0 x, s.vreg .f32 0 y] 4
  | vdeqX (f ty p rnd mk d x y) : VecRow s (.vdeqX f ty p rnd mk d x y)
      { op := .deq, ty := (quantTy ty), part := p.val, rnd := s.me.mode' rnd, mask := mk, dst := d.val, x := s.varg (quantTy ty) f.value x, y := s.varg .f32 f.value y }
      [s.vreg (quantTy ty) f.value x, s.vreg .f32 f.value y] (formBytes f)
  | vbcast (d x k) : VecRow s (.vbcast d x k)
      { op := .bcast, ty := .i32, mask := {}, dst := d.val, x := .reg x, y := s.vsarg 0 k }
      [s.me.vscal 0 k] 4
  | vbcastX (f ty mk d x k) : VecRow s (.vbcastX f ty mk d x k)
      { op := .bcast, ty := (bitsTy ty), mask := mk, dst := d.val, x := .reg x, y := s.vsarg f.value k }
      [s.me.vscal f.value k] (formBytes f)
  | vidx (d x k) : VecRow s (.vidx d x k)
      { op := .idx, ty := .i32, mask := {}, dst := d.val, x := s.vsarg 0 x, y := s.vsarg 0 k }
      [s.me.vscal 0 x, s.me.vscal 0 k] 4
  | vidxX (f ty mk d x k) : VecRow s (.vidxX f ty mk d x k)
      { op := .idx, ty := (bitsTy ty), mask := mk, dst := d.val, x := s.vsarg f.value x, y := s.vsarg f.value k }
      [s.me.vscal f.value x, s.me.vscal f.value k] (formBytes f)
  | vins (d x k) : VecRow s (.vins d x k)
      { op := .ins, ty := .i32, mask := {}, dst := d.val, x := s.vsarg 0 x, y := s.vsarg 0 k }
      [s.me.vscal 0 x, s.me.vscal 0 k] 4
  | vinsX (f ty d x k) : VecRow s (.vinsX f ty d x k)
      { op := .ins, ty := (bitsTy ty), mask := {}, dst := d.val, x := s.vsarg f.value x, y := s.vsarg f.value k }
      [s.me.vscal f.value x, s.me.vscal f.value k] (formBytes f)
  | mand (d x y) : VecRow s (.mand d x y) { op := .mand, ty := .i32, dst := d.val, x := .reg ⟨x.val, by omega⟩, y := .reg ⟨y.val, by omega⟩ } [] 4
  | mor (d x y) : VecRow s (.mor d x y) { op := .mor, ty := .i32, dst := d.val, x := .reg ⟨x.val, by omega⟩, y := .reg ⟨y.val, by omega⟩ } [] 4
  | mxor (d x y) : VecRow s (.mxor d x y) { op := .mxor, ty := .i32, dst := d.val, x := .reg ⟨x.val, by omega⟩, y := .reg ⟨y.val, by omega⟩ } [] 4
  | mnot (d x) : VecRow s (.mnot d x) { op := .mnot, ty := .i32, dst := d.val, x := .reg ⟨x.val, by omega⟩, y := .reg 0 } [] 4

/-- The vector instructions with a scalar result: what each one queues, the registers captured, destination, length. -/
inductive VecSymRow (s : State) : Instr → VOp → List Reg → Dst → Nat → Prop
  | vext (d x k) : VecSymRow s (.vext d x k) { op := .ext, ty := .i32, x := .reg x, y := s.vsarg 0 k } [s.me.vscal 0 k] d 4
  | vextX (f ty d x k) : VecSymRow s (.vextX f ty d x k) { op := .ext, ty := bitsTy ty, x := .reg x, y := s.vsarg f.value k }
      [s.me.vscal f.value k] d (formBytes f)
  | vred (op d x) : VecSymRow s (.vred op d x) { op := .red op, ty := vredTy op none, rnd := s.me.mode' .dyn, x := .reg x } [] d 4
  | vredX (ty rnd mk op d x) : VecSymRow s (.vredX ty rnd mk op d x)
      { op := .red op, ty := vredTy op ty, rnd := s.me.mode' rnd, mask := mk, x := .reg x } [] d 12
  | mpop (d x) : VecSymRow s (.mpop d x) { op := .mpop, ty := .i32, bits := true, x := .reg ⟨x.val, by omega⟩ } [] d 4
  | mpopX (ty d x) : VecSymRow s (.mpopX ty d x)
      { op := .mpop, ty := bitsTy ty, bits := ty.isNone, x := .reg ⟨x.val, by omega⟩ } [] d 12

/-- The vector memory instructions: operation, window, element type, mask, register, base, index, index register, shift,
displacement, literal, length. -/
inductive VecMem : Instr → VecOp → Win → Ty → MaskSel → Fin 16 → VScal → VScal → Option (Fin 16) → Nat → BitVec 24 → Word → Nat → Prop
  | vld (d b x) : VecMem (.vld d b x) .ld .glob .i32 {} d b x none 0 0 0 4
  | vldX (f w ty imm ef mk d b x) : VecMem (.vldX f w ty imm ef mk d b x) .ld w (bitsTy ty) mk d b x none 0 imm f.value (formBytes f)
  | vst (d b x) : VecMem (.vst d b x) .st .glob .i32 {} d b x none 0 0 0 4
  | vstX (f w ty imm ef mk d b x) : VecMem (.vstX f w ty imm ef mk d b x) .st w (bitsTy ty) mk d b x none 0 imm f.value (formBytes f)
  | vgth (d b x) : VecMem (.vgth d b x) .gth .glob .i32 {} d b .zero (some x) 0 0 0 4
  | vgthX (f w ty imm sh ef mk d b x) : VecMem (.vgthX f w ty imm sh ef mk d b x) .gth w (bitsTy ty) mk d b .zero (some x) sh.toNat imm f.value (formBytes f)
  | vsct (d b x) : VecMem (.vsct d b x) .sct .glob .i32 {} d b .zero (some x) 0 0 0 4
  | vsctX (f w ty imm sh ef mk d b x) : VecMem (.vsctX f w ty imm sh ef mk d b x) .sct w (bitsTy ty) mk d b .zero (some x) sh.toNat imm f.value (formBytes f)

/-- The vector operations on integers that have a scalar counterpart. -/
def scalarTwin : VecOp → Option IntOp
  | .add => some .add
  | .sub => some .sub
  | .mul => some .mul
  | .and => some .and
  | .or => some .or
  | .xor => some .xor
  | .shl => some .shl
  | .shr => some .shr
  | .sra => some .sra
  | _ => none

/-- The operations that work lane by lane on one element width. -/
def lanewise (op : VecOp) : Bool :=
  match op with
  | .cvt | .quant | .deq | .cmp _ | .ins | .ext | .red _ | .scan _ | .mand | .mor | .mxor | .mnot | .mpop => false
  | .ld | .st | .gth | .sct => false
  | _ => true

/-- What a replay leaves in a register (R76). -/
def afterReplay : Reg → Reg
  | .replay x l => .value (replayLog l x).1
  | r => r

end Sys2Proof.Stmt

open Sys2Proof Sys2Proof.Machine Sys2Proof.Stmt in
/-- For every vector instruction but the memory ones, in every form: with its scalar operands VALUEs and fewer than 16
entries queued, it completes: one entry with its operation, element type, effective rounding mode, mask, destination
and operands (scalars captured by value, with FTZ, OVF8 and the PC) joins the end of the context's queue, and no
vector register changes yet. vext, vred and mpop also allocate a symbol and write its pure form to the destination
and lat. With 16 entries queued it waits. With VALUE base and index, no acquire waiting and the context's queue
empty: when the access of every active element passes its checks (consecutive elements from EA, or EA plus each
shifted index element for gather and scatter) and nothing is in the way, the instruction completes and queues one
transfer of those elements; inactive elements are not checked. No byte of memory and no vector register changes yet,
but that elements of a TAGGED page are transferred in the same step, when the vector unit's rotation has come to the
context, so that their tags are compared when the data moves; before that it waits for its turn. (Model's choices:
the transfer in the step, log entry 84; no check of an inactive element, 31; the fourth operand of vfma and vsel
with LEN 0b01, 69.) (06 Vector instructions: the dispatch queue, operands, arithmetic, conversion, permutation,
reduction, masks; 06 Vector instructions: vector memory; 05 Memory: addresses, windows and checks) -/
def Obligations.VectorInstructionsQueue : Prop :=
  (∀ (s : State) (i : Instr) (o : VOp) (rs : List Reg) (len : Nat), VecRow s i o rs len → (∀ r ∈ rs, ∃ v, r = .value v) →
    exec i s = .next (if s.me.vq.length < 16 then
        (s.modMe fun t => { t with vq := t.vq ++ [{ o with ftz := s.me.ftz, ovf8 := s.me.ovf8, pc := s.me.pc }] }).advance len
      else s.modMe fun t => { t with run := .blocked })) ∧
  (∀ (s s1 : State) (i : Instr) (o : VOp) (rs : List Reg) (d : Dst) (len : Nat) (r : SymRef), VecSymRow s i o rs d len →
    (∀ q ∈ rs, ∃ v, q = .value v) → s.me.vq.length < 16 → s1.me.vq.length < 16 → s.alloc = .ok (s1, r) →
    exec i s = .next (((s1.put d (.int r.s 1 0)).modMe fun t => { t with
      vq := t.vq ++ [{ o with ref := some r, ftz := t.ftz, ovf8 := t.ovf8, pc := t.pc }] }).advance len)) ∧
  (∀ (s : State) (i : Instr) (op : VecOp) (w : Win) (ty : Ty) (mk : MaskSel) (d : Fin 16) (b x : VScal) (vx : Option (Fin 16))
      (sh : Nat) (imm : BitVec 24) (lit bv xv : Word) (len : Nat) (ps : List VPlace),
    VecMem i op w ty mk d b x vx sh imm lit len → s.me.vscal lit b = .value bv → s.me.vscal lit x = .value xv →
    s.accessGate = .ok () → s.me.vq = [] →
    let e := ty.bytes
    let ea := bv + xv + imm.signExtend 64
    let on := (List.range (128 / e)).filter fun j => s.me.active mk e j
    (ps.length = on.length ∧ ∀ j (h : j < on.length) (h' : j < ps.length), ps[j].elem = on[j] ∧
      ps[j].addr = (match vx with
        | none => ea + BitVec.ofNat 64 (on[j] * e)
        | some v => ea + (extend ty (vget (s.me.v.get v) e on[j]) <<< sh)) ∧
      s.resolve (if op.stores then .vstore else .vload) w ps[j].addr e e = .ok ps[j].acc) →
    s.vgate w e ps = .ok () →
    let queued := (s.modMe fun t => { t with vq := t.vq ++ [{ op, ty, mask := mk, dst := d.val, x := .reg d, places := ps
                                                              ftz := t.ftz, ovf8 := t.ovf8, pc := t.pc }] }).advance len
    ((∀ p ∈ ps, p.acc.tagged = false) → exec i s = .next queued) ∧
    ((∃ p ∈ ps, p.acc.tagged = true) → (∀ p ∈ ps, s.demand (.ofCore s.cur) p.acc op.req = none) →
      (s.myCore.vturn s.slot = true →
        exec i s = .next ((queued.modCore queued.cur fun y => { y with lastVec := queued.slot }).vserve)) ∧
      (s.myCore.vturn s.slot = false → exec i s = .next (s.modMe fun t => { t with run := .vturn }))))

open Sys2Proof Sys2Proof.Machine Sys2Proof.Stmt in
/-- Elements are disjoint: writing element i changes element i alone. Running a lanewise operation writes, for each i
below 128 / width, the element's result where the mask is active and the old element where it is not; other vector
registers and all masks are unchanged. On integer types add, sub, mul, and, or, xor and the shifts give each lane
the scalar instruction's result at that width. Mask instructions work on all 128 bits. vcmp sets all bits of an
active element to its relation and leaves the others. (06 Vector instructions: lanes and masks, arithmetic, masks;
03 Scalar and symbolic instructions: integer arithmetic) -/
def Obligations.VectorLanes : Prop :=
  (∀ (v : BitVec 1024) (e i j x : Nat), e ∈ [1, 2, 4, 8] → i < 128 / e → j < 128 / e →
    vget (vput v e i x) e j = if i = j then x % 2 ^ (8 * e) else vget v e j) ∧
  (∀ (t : Ctx) (o : VOp) (d : Fin 16), lanewise o.op = true → o.dst = d.val →
    (∀ i, i < 128 / o.ty.bytes → vget ((t.vrun o).1.v.get d) o.ty.bytes i =
      if t.active o.mask o.ty.bytes i then (o.elemResult t o.ty.bytes (128 / o.ty.bytes) i).1 % 2 ^ (8 * o.ty.bytes)
      else vget (t.v.get d) o.ty.bytes i) ∧
    (∀ k, k ≠ d → (t.vrun o).1.v.get k = t.v.get k) ∧ (t.vrun o).1.m = t.m ∧ (t.vrun o).1.stack = t.stack) ∧
  (∀ (t : Ctx) (o : VOp) (op : IntOp) (i : Nat), scalarTwin o.op = some op → o.ty.isFloat = false →
    let n := 8 * o.ty.bytes
    (o.elemResult t o.ty.bytes (128 / o.ty.bytes) i).1 =
      (intResult op (BitVec.ofNat n (o.x.elem t o.ty.bytes i)) (BitVec.ofNat n (o.y.elem t o.ty.bytes i))).toNat) ∧
  (∀ (t : Ctx) (o : VOp) (d x y : Fin 8), o.dst = d.val → o.x = .reg ⟨x.val, by omega⟩ → o.y = .reg ⟨y.val, by omega⟩ →
    (o.op = .mand → (t.vrun o).1.m.get d = t.m.get x &&& t.m.get y) ∧ (o.op = .mor → (t.vrun o).1.m.get d = t.m.get x ||| t.m.get y) ∧
    (o.op = .mxor → (t.vrun o).1.m.get d = t.m.get x ^^^ t.m.get y) ∧ (o.op = .mnot → (t.vrun o).1.m.get d = ~~~(t.m.get x))) ∧
  (∀ (t : Ctx) (o : VOp) (c : VCond) (d : Fin 8), o.op = .cmp c → o.dst = d.val → ∀ i < 128 / o.ty.bytes, ∀ j < o.ty.bytes,
    ((t.vrun o).1.m.get d).getLsbD (i * o.ty.bytes + j) =
      if t.active o.mask o.ty.bytes i then vcond c o.ty (o.x.elem t o.ty.bytes i) (o.y.elem t o.ty.bytes i)
      else (t.m.get d).getLsbD (i * o.ty.bytes + j))

open Sys2Proof Sys2Proof.Machine Sys2Proof.Stmt in
/-- When slot k is the first after the last one served whose live context has a queued entry: the unit's step runs that
context's oldest entry and removes it: the vector and mask registers become what the operation gives, a scalar
result resolves the symbol of its entry; a load that waits for nothing fills each element of its places with the
bytes read there and leaves the register's other elements, every other vector register and memory; a store writes
each element's bytes at its place's addresses and no other byte; with every queue empty the step changes nothing.
LOG_REPLAY replaces every register of the context (stack, g, o, lat, the handler's) whose symbol has arrived with
the value of its log, and no other. (06 Vector instructions: the dispatch queue, vector memory; 03 Scalar and
symbolic instructions: floating-point forms) -/
def Obligations.VectorUnitEvents : Prop :=
  (∀ (s : State) (c : CoreId), (∀ k, (s.ctx c k).vq = []) → exec (.vectorIssue c) s = .next s) ∧
  (∀ (s : State) (c : CoreId) (k : SlotId) (o : VOp) (rest : List VOp), (s.core c).vnext (s.issues c) = some k → (s.ctx c k).vq = o :: rest →
    (o.isMem = false → o.ref = none → ∃ t, exec (.vectorIssue c) s = .next t ∧
      t.ctx c k = (({ s.ctx c k with vq := rest } : Ctx).vrun o).1 ∧ t.mem = s.mem ∧ (t.core c).lastVec = k) ∧
    (o.isMem = false → ∀ r v n, o.ref = some r → (({ s.ctx c k with vq := rest } : Ctx).vrun o).2.1 = some v →
      (s.core c).syms.get r.s = .pending r.serial n →
      ∃ t, exec (.vectorIssue c) s = .next t ∧ (t.core c).syms.get r.s = .resolved v ∧ (t.ctx c k).vq = rest ∧ t.mem = s.mem) ∧
    (o.op = .ld ∨ o.op = .gth → (∀ p ∈ o.places, s.demand (From.ofCore c) p.acc .read = none) →
      (∀ p ∈ o.places, s.poisoned p.acc.keys = false ∧ s.quarantined p.acc.keys = false ∧ ∀ h, p.acc.place ≠ .head h) →
      (o.places.map (·.elem)).Nodup → (∀ p ∈ o.places, p.elem < 128 / o.ty.bytes) →
      ∃ t, exec (.vectorIssue c) s = .next t ∧ (t.ctx c k).vq = rest ∧ t.mem = s.mem ∧
        ∀ d : Fin 16, (d.val ≠ o.dst % 16 → (t.ctx c k).v.get d = (s.ctx c k).v.get d) ∧
          (d.val = o.dst % 16 → ∀ j < 128 / o.ty.bytes,
            (∀ p ∈ o.places, p.elem = j →
              vget ((t.ctx c k).v.get d) o.ty.bytes j = s.valAcc p.acc o.ty.bytes % 2 ^ (8 * o.ty.bytes)) ∧
            ((∀ p ∈ o.places, p.elem ≠ j) →
              vget ((t.ctx c k).v.get d) o.ty.bytes j = vget ((s.ctx c k).v.get d) o.ty.bytes j))) ∧
    (s.inv = true → o.op = .st ∨ o.op = .sct → (∀ p ∈ o.places, s.demand (From.ofCore c) p.acc .store = none) →
      (∀ p ∈ o.places, s.quarantined p.acc.keys = false) →
      ∃ t, exec (.vectorIssue c) s = .next t ∧ (t.ctx c k).vq = rest ∧ (t.ctx c k).v = (s.ctx c k).v ∧
        (∀ a, (∀ p ∈ o.places, a ∉ p.acc.keys) → t.mem.get a = s.mem.get a) ∧
        ((o.places.flatMap (·.acc.keys)).Nodup →
          (∀ p ∈ o.places, p.acc.keys.length = o.ty.bytes ∧ (∀ n, p.acc.place ≠ .ctr n) ∧ ∀ h, p.acc.place ≠ .head h) →
          ∀ p ∈ o.places, t.bytesAt p.acc.keys = leBytes o.ty.bytes (o.x.elem (s.ctx c k) o.ty.bytes p.elem)))) ∧
  (∀ (s : State) (c : CoreId) (k : SlotId), ∃ t, exec (.logReplay c k) s = .next t ∧ t.mem = s.mem ∧
    (∀ n : Fin 136, (t.ctx c k).stack.get n = afterReplay ((s.ctx c k).stack.get n)) ∧
    (∀ n : Fin 8, (t.ctx c k).g.get n = afterReplay ((s.ctx c k).g.get n) ∧
      (t.ctx c k).o.get n = afterReplay ((s.ctx c k).o.get n)) ∧
    (t.ctx c k).lat = afterReplay (s.ctx c k).lat ∧
    (∀ n : Fin 24, (t.ctx c k).hw.get n = afterReplay ((s.ctx c k).hw.get n)) ∧
    (t.ctx c k).hlat = afterReplay (s.ctx c k).hlat ∧ (t.ctx c k).v = (s.ctx c k).v)

namespace Sys2Proof.Stmt

open Sys2Proof.Machine

inductive MatrixCommand : Instr → Win → BitVec 24 → Dst → Src → Src → Word → Nat → Prop
  | base (d b x) : MatrixCommand (.mcmd d b x) .glob 0 d b x 0 4
  | ext (f w imm d b x) : MatrixCommand (.mcmdX f w imm d b x) w imm d b x f.value (formBytes f)

inductive DrillJob : Instr → Win → BitVec 24 → Dst → Src → Word → Nat → Prop
  | base (d b) : DrillJob (.djob d b) .glob 0 d b 0 4
  | ext (f w imm d b) : DrillJob (.djobX f w imm d b) w imm d b f.value (formBytes f)

inductive RegionBind : Instr → Win → BitVec 24 → Dst → Src → Src → Word → Nat → Prop
  | base (d b r) : RegionBind (.rbind d b r) .glob 0 d b r 0 4
  | ext (f w imm d b r) : RegionBind (.rbindX f w imm d b r) w imm d b r f.value (formBytes f)

inductive EntryPost : Instr → Win → BitVec 24 → Dst → Src → Word → Nat → Prop
  | base (d b) : EntryPost (.trgPost d b) .glob 0 d b 0 4
  | ext (f w imm d b) : EntryPost (.trgPostX f w imm d b) w imm d b f.value (formBytes f)

inductive CounterRaise : Instr → Scope → Src → Src → Word → Nat → Prop
  | base (k n) : CounterRaise (.trgInc k n) .thr k n 0 4
  | ext (f sc k n) : CounterRaise (.trgIncX f sc k n) sc k n f.value (formBytes f)

inductive CounterRead : Instr → Scope → Dst → Src → Word → Nat → Prop
  | base (d k) : CounterRead (.trgRd d k) .thr d k 0 4
  | ext (f sc d k) : CounterRead (.trgRdX f sc d k) sc d k f.value (formBytes f)

/-- The 64 bytes at an address that an instruction reads after its release, and the state after their load: reached under
conditions on the state and the operands alone, or wherever the load succeeds. -/
inductive RecordRead (s : State) (w : Win) (ea : Word) : State → List Byte → Prop
  | reached (a) : w ∈ [.glob, .A, .G] → Reached s .load w ea 64 .read a →
      RecordRead s w ea (performed (released s) a .read) (s.bytesAt a.keys)
  | loaded (s1 b) : (released s).read64 w ea = .ok (s1, b) → RecordRead s w ea s1 b

/-- The lowest free register of the core's region table (R217). -/
def LowestFreeRegion (x : Core) (i : Fin 16) : Prop :=
  (x.regions.get i).phase = .free ∧ ∀ j : Fin 16, j < i → (x.regions.get j).phase ≠ .free

/-- The fields of rbind's second source that pass their checks (R217): reserved bits zero, a length and an offset that are
multiples of 64, a window other than C, the range inside it and clear of every bound region. -/
def GoodRange (s : State) (r : Word) : Prop :=
  let off := wbits r 0 20
  let n := wbits r 24 20
  let win := winOf (wbits r 20 3)
  wbits r 44 20 = 0 ∧ wbits r 23 1 = 0 ∧ n ≠ 0 ∧ n % 64 = 0 ∧ off % 64 = 0 ∧ win ≠ .glob ∧ win ≠ .C ∧
  off + n ≤ s.myLaunch.split.size win ∧
  ∀ i : Fin 16, (s.myCore.regions.get i).phase = .free ∨ (s.myCore.regions.get i).win ≠ win ∨
    (s.myCore.regions.get i).off + (s.myCore.regions.get i).len ≤ off ∨ off + n ≤ (s.myCore.regions.get i).off

end Sys2Proof.Stmt

open Sys2Proof Sys2Proof.Machine Sys2Proof.Stmt in
/-- With VALUE operands, an entry of the command queue, a free symbol, the release done and the 64-byte record read at
EA: mcmd of a record that fails its checks traps MATRIX_CMD; otherwise it writes a new symbol's pure form and queues
the command, or faults the symbol when the unit is halted; with no symbol to be had and none PENDING it traps
SYM_EXHAUSTED before it reads anything. The 64 bytes at EA are read, and the state is the one after their load,
where that load is reached (OwnWindowAccess, AccessChecksInOrder). mqry of a selector 0 to 7 gives the word of its
table, any other traps BOUNDS. djob of a good layout record is accepted by the drill with the context's slot and a
new symbol; of a bad one it traps BOUNDS. rbind of a good range and record fills the lowest free region register as
ABSENT and gives its number, or -1 with none free; rfree frees a register at once, or after its copy; a register
number of 16 or more traps BOUNDS. (08 Engine, message and system instructions: matrix commands, drill jobs,
regions; 07 Harrow: the command queue; 12 Drill engine: layout records) -/
def Obligations.MatrixAndDrillInstructions : Prop :=
  (∀ (s s1 : State) (i : Instr) (w : Win) (imm : BitVec 24) (d : Dst) (b x : Src) (lit bv xv : Word) (len : Nat) (rec' : List Byte),
    MatrixCommand i w imm d b x lit len → s.me.src lit b = .value bv → s.me.src lit x = .value xv →
    s.myCore.harrow.entries < 16 → (s.myCore.freeSym s.slot).isSome → ReleaseFree s .core →
    let ea := bv + xv + imm.signExtend 64
    RecordRead s w ea s1 rec' →
    (s1.mcmdOk s1.cur s1.myLaunch rec' = false → exec i s = .next (s.takeTrap { cause := .matrixCmd, addr := ea })) ∧
    (s1.mcmdOk s1.cur s1.myLaunch rec' = true → ∃ (s2 : State) (r : SymRef), s1.alloc = .ok (s2, r) ∧
      let t := s2.put d r.pure
      exec i s = .next ((if t.myCore.harrow.haltStatus.isSome then t.faultSym t.cur r 0
        else t.modCore t.cur fun c => c.queueCmd { record := rec', ref := r, rm := t.me.rm }).advance len))) ∧
  (∀ (s : State) (i : Instr) (w : Win) (imm : BitVec 24) (d : Dst) (b x : Src) (lit bv xv : Word) (len : Nat),
    MatrixCommand i w imm d b x lit len → s.me.src lit b = .value bv → s.me.src lit x = .value xv →
    s.myCore.harrow.entries < 16 → s.myCore.freeSym s.slot = none → s.myCore.anyPending = false →
    exec i s = .next (s.takeTrap { cause := .symExhausted })) ∧
  (∀ (s : State) (w : Win) (ea : Word) (a : Acc), w ∈ [.glob, .A, .G] → Reached s .load w ea 64 .read a →
    s.read64 w ea = .ok (performed s a .read, s.bytesAt a.keys)) ∧
  (∀ (x : Core) (q : HCmd), (x.queueCmd q).harrow.queue = x.harrow.queue ++ [{ q with ssr := x.ssrNext }] ∧ (x.queueCmd q).ssrNext = []) ∧
  (∀ (s : State) (lit : Option Word) (d : Dst) (x : Src) (k : Word), s.me.src (litVal lit) x = .value k →
    (8 ≤ k.toNat → exec (.mqry lit d x) s = .next (s.takeTrap { cause := .bounds })) ∧
    (k.toNat < 8 → exec (.mqry lit d x) s = .next
      ((if k = 3 ∧ s.myCore.harrow.haltStatus.isSome ∧ s.myCore.harrow.queue.isEmpty then
          s.modCore s.cur fun c => { c with harrow := { c.harrow with haltStatus := none, haltTag := 0 } } else s).result d
        (BitVec.ofNat 64 (s.myCore.harrow.query k.toNat)) [] (litBytes lit)))) ∧
  (∀ h : Harrow, h.query 2 = h.rotin.toNat ∧
    (∀ j : Fin 4, h.query (4 + j.val) = (h.regions.get j).received + if (h.regions.get j).isOpen then 2 ^ 32 else 0) ∧
    (∀ st, h.haltStatus = some st → h.query 3 = st + 2 ^ 8 + h.haltTag.toNat * 2 ^ 32)) ∧
  (∀ (s s1 : State) (i : Instr) (w : Win) (imm : BitVec 24) (d : Dst) (b : Src) (lit bv : Word) (len : Nat) (rec' : List Byte),
    DrillJob i w imm d b lit len → s.me.src lit b = .value bv → s.myCore.jobs.length < 32 → (s.myCore.freeSym s.slot).isSome →
    ReleaseFree s .clu →
    let ea := bv + imm.signExtend 64
    RecordRead s w ea s1 rec' →
    (s1.layoutOk s1.cur s1.myLaunch rec' = false → exec i s = .next (s.takeTrap { cause := .bounds, addr := ea })) ∧
    (s1.layoutOk s1.cur s1.myLaunch rec' = true → ∃ (s2 : State) (r : SymRef), s1.alloc = .ok (s2, r) ∧
      exec i s = .next (((s2.acceptJob s2.cur rec' (some s2.slot) (some r) none).put d r.pure).advance len))) ∧
  (∀ (s s1 : State) (i : Instr) (w : Win) (imm : BitVec 24) (d : Dst) (b x : Src) (lit bv rv : Word) (len : Nat) (rec' : List Byte),
    RegionBind i w imm d b x lit len → s.me.src lit b = .value bv → s.me.src lit x = .value rv → GoodRange s rv →
    ReleaseFree s .clu → RecordRead s w (bv + imm.signExtend 64) s1 rec' →
    s1.layoutOk s1.cur s1.myLaunch rec' = true →
    ((∀ j, ¬ LowestFreeRegion s1.myCore j) → exec i s = .next (s1.result d (BitVec.ofInt 64 (-1)) [] len)) ∧
    ∀ j, LowestFreeRegion s1.myCore j →
      exec i s = .next ((s1.modCore s1.cur fun c => c.modRegion j fun _ =>
        { phase := .absent, win := winOf (wbits rv 20 3), off := wbits rv 0 20, len := wbits rv 24 20, record := rec' }).result d
          (BitVec.ofNat 64 j.val) [] len)) ∧
  (∀ (s : State) (lit : Option Word) (x : Src) (v : Word), s.me.src (litVal lit) x = .value v →
    (16 ≤ v.toNat → exec (.rfree lit x) s = .next (s.takeTrap { cause := .bounds })) ∧
    ∀ j : Fin 16, v.toNat = j.val → exec (.rfree lit x) s = .next ((s.modCore s.cur fun c => c.modRegion j fun r =>
      if r.phase = .copying then { r with freeAfter := true } else {}).advance (litBytes lit)))

open Sys2Proof Sys2Proof.Machine Sys2Proof.Stmt in
/-- With VALUE operands and the die's link not held by a change sequence: trg.post, its release done and the record
read, traps the cause its record has, gives -1 when no entry can be had, and otherwise the new entry's handle.
trg.inc of a counter of the launch, its release done, raises that counter by the operand and no other, and moves on;
trg.rd gives the counter's value and acts as an acquire; a counter the launch has not traps BOUNDS. trg.cancel gives
2 for a handle that names no entry of the launch, 0 and frees it for an entry whose threshold is not met, and 1 for
any other. (08 Engine, message and system instructions: trigger instructions; 13 Sower and collectives: counters,
triggered entries) -/
def Obligations.TriggerInstructions : Prop :=
  (∀ (s s1 : State) (i : Instr) (w : Win) (imm : BitVec 24) (d : Dst) (b : Src) (lit bv : Word) (len : Nat) (rec' : List Byte),
    EntryPost i w imm d b lit len → s.me.src lit b = .value bv → s.linkHeld s.cur.die.val = false → ReleaseFree s .pkg →
    let ea := bv + imm.signExtend 64
    RecordRead s w ea s1 rec' →
    (∀ c, s1.recordCause s1.myLaunch rec' = some c → exec i s = .next (s.takeTrap { cause := c, addr := ea })) ∧
    (s1.recordCause s1.myLaunch rec' = none →
      (s1.postEntry s1.myLaunch rec' = none → exec i s = .next (s1.result d (BitVec.ofInt 64 (-1)) [] len)) ∧
      ∀ s2 h, s1.postEntry s1.myLaunch rec' = some (s2, h) → exec i s = .next (s2.result d (BitVec.ofNat 64 h) [] len))) ∧
  (∀ (s : State) (l : Launch) (rec' : List Byte), l.desc.tent ≤ s.sower.entries.countP (fun e => e.part == l.part && e.launch == l.id) →
    s.postEntry l rec' = none) ∧
  (∀ (s : State) (i : Instr) (sc : Scope) (k n : Src) (lit kv nv : Word) (len : Nat),
    CounterRaise i sc k n lit len → s.me.src lit k = .value kv → s.me.src lit n = .value nv →
    (s.myLaunch.desc.tctr ≤ kv.toNat → exec i s = .next (s.takeTrap { cause := .bounds })) ∧
    (kv.toNat < s.myLaunch.desc.tctr → s.linkHeld s.cur.die.val = false → ReleaseFree s sc → s.me.acqWait = false →
      exec i s = .next ((((released s).raise (s.myLaunch.ctrBase + kv.toNat) nv).modMe fun t =>
        { t with wrote := addOnce s.cur.die.val t.wrote }).advance len))) ∧
  (∀ (s : State) (c : Nat) (v : Word), (s.raise c v).counter c = s.counter c + v ∧ (s.raise c v).mem = s.mem ∧
    (s.raise c v).cores = s.cores ∧
    ∀ k, k ≠ c → (s.raise c v).counter k = s.counter k) ∧
  (∀ (s : State) (i : Instr) (sc : Scope) (d : Dst) (k : Src) (lit kv : Word) (len : Nat),
    CounterRead i sc d k lit len → s.me.src lit k = .value kv →
    (s.myLaunch.desc.tctr ≤ kv.toNat → exec i s = .next (s.takeTrap { cause := .bounds })) ∧
    (kv.toNat < s.myLaunch.desc.tctr → s.linkHeld s.cur.die.val = false → AcquireFree s sc → s.accessGate = .ok () →
      exec i s = .next ((s.result d (s.counter (s.myLaunch.ctrBase + kv.toNat)) [] len).acquired sc))) ∧
  (∀ (s : State) (lit : Option Word) (d : Dst) (x : Src) (v : Word), s.me.src (litVal lit) x = .value v →
    s.linkHeld s.cur.die.val = false →
    let mine := fun e : Entry => e.handle == v.toNat && e.part == s.myLaunch.part && e.launch == s.myLaunch.id
    (s.sower.entries.find? mine = none → exec (.trgCancel lit d x) s = .next (s.result d 2 [] (litBytes lit))) ∧
    ∀ e, s.sower.entries.find? mine = some e →
      (e.phase = .unfired → s.entryMet e = false → exec (.trgCancel lit d x) s =
        .next ((s.modSower fun w => w.freeHandle v.toNat).result d 0 [] (litBytes lit))) ∧
      (e.phase ≠ .unfired ∨ s.entryMet e = true → exec (.trgCancel lit d x) s = .next (s.result d 1 [] (litBytes lit))))

namespace Sys2Proof.Stmt

open Sys2Proof.Machine

inductive MessageSend : Instr → Scope → Win → BitVec 24 → Bool → Src → Fin 16 → Word → Nat → Prop
  | base (b ch) : MessageSend (.msend b ch) .thr .glob 0 false b ch 0 4
  | ext (f sc w imm chk b ch) : MessageSend (.msendX f sc w imm chk b ch) sc w imm chk b ch f.value (formBytes f)

inductive MessageReceive : Instr → Scope → Win → BitVec 24 → Bool → Dst → Src → Fin 16 → Word → Nat → Prop
  | base (d b ch) : MessageReceive (.mrecv d b ch) .thr .glob 0 false d b ch 0 4
  | ext (f sc w imm dv d b ch) : MessageReceive (.mrecvX f sc w imm dv d b ch) sc w imm dv d b ch f.value (formBytes f)

/-- Where a message's 64 bytes may stand: global memory, but for an aperture address that its owner refuses under order 1, or an
offset inside the core's A or G window outside the hidden ranges (R127, R220, R223, R277). -/
def MessagePlace (s : State) (k : AKind) (w : Win) (ea : Word) : Prop :=
  (w = .glob ∧ s.apertureWindow k ea = false) ∨
  (w ∈ [.A, .G] ∧ ea.toNat < s.myLaunch.split.size w ∧
    (s.windowKeys s.cur s.myLaunch w ea.toNat (min 64 (s.myLaunch.split.size w - ea.toNat))).isSome)

inductive GroupBarrier : Instr → Bool → Src → Word → Nat → Prop
  | base (g) : GroupBarrier (.hbar g) false g 0 4
  | ext (f xp g) : GroupBarrier (.hbarX f xp g) xp g f.value (formBytes f)

inductive Gather : Instr → BitVec 24 → Src → Word → Nat → Prop
  | base (b) : Gather (.evgath b) 0 b 0 4
  | ext (f imm b) : Gather (.evgathX f imm b) imm b f.value (formBytes f)

end Sys2Proof.Stmt

open Sys2Proof Sys2Proof.Machine Sys2Proof.Stmt in
/-- With a VALUE base: msend on a declared channel with room in its buffer, its release done and the bytes read, adds
one message with the sender's core, channel, rank, slot and launch and moves on; outside the A and G windows and
global memory it traps WINDOW, then on an undeclared channel BOUNDS with its address; a checked one on a channel
with a negative acknowledgement traps DEAD_LETTER and clears it. mrecv with its place in a window it may use,
aligned, and on a channel inbound to the core's rank (WINDOW, BOUNDS and ALIGN otherwise, in that order): the
deferred form writes a new symbol and joins the pending receives; the plain one stores the oldest message of the
channel for its slot, gives the sender's rank and slot and acquires, leaving its granules poisoned if it came bad,
and sleeps when none has arrived or an earlier deferred receive of the context still waits. mprobe gives the number
of messages waiting that no deferred receive will take. (08 Engine, message and system instructions: messages) -/
def Obligations.MessageInstructions : Prop :=
  (∀ (s : State) (i : Instr) (sc : Scope) (w : Win) (imm : BitVec 24) (chk : Bool) (b : Src) (ch : Fin 16) (lit bv : Word) (len : Nat),
    MessageSend i sc w imm chk b ch lit len → s.me.src lit b = .value bv →
    let ea := bv + imm.signExtend 64
    (¬ MessagePlace s .load w ea → exec i s = .next (s.takeTrap { cause := .window, addr := ea })) ∧
    (MessagePlace s .load w ea → s.myLaunch.chan ch = none → exec i s = .next (s.takeTrap { cause := .bounds, addr := ea })) ∧
    ∀ dcl, MessagePlace s .load w ea → s.myLaunch.chan ch = some dcl →
      (chk = true → (s.myCore.chans.get ch).nak = true → exec i s = .next
        ((s.modCore s.cur fun x => x.modChan ch fun h => { h with nak := false }).takeTrap { cause := .deadLetter })) ∧
      ((chk = false ∨ (s.myCore.chans.get ch).nak = false) → (s.myCore.chans.get ch).buffer.length < 4 → ReleaseFree s sc →
        let sent (t : State) (data : List Byte) : State := (t.modCore s.cur fun x => x.modChan ch fun h => { h with buffer := h.buffer ++
          [{ payload := data, src := s.cur.val, srcCh := ch, lcore := s.myCore.rank, srcSlot := s.slot,
             launch := s.myCore.launch.getD 0, slot := dcl.slot, gen := 0 }] }).advance len
        ∀ (s1 : State) (data : List Byte), RecordRead s w ea s1 data → exec i s = .next (sent s1 data))) ∧
  (∀ (s : State) (i : Instr) (sc : Scope) (w : Win) (imm : BitVec 24) (dv : Bool) (d : Dst) (b : Src) (ch : Fin 16) (lit bv : Word)
      (len : Nat),
    MessageReceive i sc w imm dv d b ch lit len → s.me.src lit b = .value bv →
    let ea := bv + imm.signExtend 64
    (¬ MessagePlace s .store w ea → exec i s = .next (s.takeTrap { cause := .window, addr := ea })) ∧
    (MessagePlace s .store w ea → s.myLaunch.inbound ch s.myCore.rank = false → exec i s = .next (s.takeTrap { cause := .bounds, addr := ea })) ∧
    (MessagePlace s .store w ea → s.myLaunch.inbound ch s.myCore.rank = true →
      (ea.toNat % 64 ≠ 0 → w = .glob → exec i s = .next (s.takeTrap { cause := .align, addr := ea })) ∧
      (ea.toNat % 64 = 0 → (w = .glob ∨ (s.windowKeys s.cur s.myLaunch w ea.toNat 64).isSome) →
        (dv = true → ∀ s1 r, s.alloc = .ok (s1, r) → exec i s = .next
          (((s1.modMe fun t => { t with drecvs := t.drecvs ++ [{ ref := r, ch, sc, win := w, ea }] }).put d r.pure).advance len)) ∧
        (dv = false → AcquireFree s sc → s.me.drecvs ≠ [] → exec i s = .next (s.modMe fun t => { t with run := .asleep })) ∧
        (dv = false → AcquireFree s sc → s.me.drecvs = [] →
          (s.myCore.nextMessage ch s.slot = none → exec i s = .next (s.modMe fun t => { t with run := .asleep })) ∧
          ∀ p, s.myCore.nextMessage ch s.slot = some p →
            let sender := BitVec.ofNat 64 (p.2.lcore * 256 + p.2.srcSlot.val)
            (∀ s1, s.storeMessage w ea p = .ok s1 → exec i s = .next ((s1.result d sender [] len).acquired sc)) ∧
            ∀ a, Reached s .store w ea 64 .store a →
              let u := (performed s a .store).write s.self a.keys p.2.payload
              exec i s = .next ((((if p.2.bad then u.poisonGranules (a.keys.map (· / 32)).dedup else u).takeMessage s.cur p).result
                d sender [] len).acquired sc))))) ∧
  (∀ (s : State) (d : Dst) (ch : Fin 16),
    (s.myLaunch.inbound ch s.myCore.rank = false → exec (.mprobe d ch) s = .next (s.takeTrap { cause := .bounds })) ∧
    (s.myLaunch.inbound ch s.myCore.rank = true → exec (.mprobe d ch) s = .next (s.result d
      (BitVec.ofNat 64 (s.myCore.inbox.countP (fun p => p.1 == ch && p.2.slot == s.slot) - s.me.drecvs.countP fun r => r.ch == ch))
      [] 4)))

open Sys2Proof Sys2Proof.Machine Sys2Proof.Stmt in
/-- xmit sends its VALUE operand to the neighbour in its direction, where it lands 2 cycles later, or 3 over a wrap
link; imux gives the input latch of its direction. hbar with a VALUE group of cores of the launch that includes its
own, its release done, arrives and waits; when every core of the group has an arrived context, the oldest of each
leaves at its next PC. ev.rd gives an event counter, ev.clr, once the context's vector queue is empty, clears one
or, for 16, all. ev.gath at a 64-byte aligned place of the G window contributes the counters as they stand and
waits; outside the window it traps WINDOW and misaligned ALIGN. (When a group's contexts leave is the model's choice
in log entry 35, and what ev.clr waits for in log entry 75.) (08 Engine, message and system instructions: torus,
hardware barriers, event counters; 00 Scope: package) -/
def Obligations.TorusBarrierAndCountInstructions : Prop :=
  (∀ (s : State) (x : Src) (dir : Sys2Proof.Dir) (v : Word), s.me.src 0 x = .value v →
    exec (.xmit x dir) s = .next ((s.modCore (s.cur.neighbour dir) fun y => { y with wires := y.wires ++
      [{ dir, v, lands := s.cycleOf s.cur + (if s.cur.wraps dir then 3 else 2), launch := s.myCore.launch }] }).advance 4)) ∧
  (∀ (s : State) (d : Dst) (dir : Sys2Proof.Dir), exec (.imux d dir) s = .next (s.result d (s.myCore.latches.get dir) [] 4)) ∧
  (∀ (s : State) (i : Instr) (xp : Bool) (g : Src) (lit gv : Word) (len : Nat), GroupBarrier i xp g lit len →
    s.me.src lit g = .value gv →
    let cs := groupCores s.cur.die gv.toNat
    (gv.toNat / 2 ^ 14 ≠ 0 ∨ s.cur ∉ cs ∨ (∃ c ∈ cs, s.boundTo c s.myLaunch = false) →
      exec i s = .next (s.takeTrap { cause := .bounds })) ∧
    (gv.toNat / 2 ^ 14 = 0 → s.cur ∈ cs → (∀ c ∈ cs, s.boundTo c s.myLaunch = true) → ReleaseFree s .die →
      s.me.acqWait = false →
      exec i s = .next (({ (released s).modMe (fun t => { t with
          run := .hbar gv.toNat xp (s.me.pc + BitVec.ofNat 64 len) s.serial, phase := t.phase && xp }) with
        serial := s.serial + 1 } : State).barrierDone cs.dedup gv.toNat))) ∧
  (∀ (s : State) (cs : List CoreId) (g : Nat), (∃ c ∈ cs, (s.core c).arrived g = none) → s.barrierDone cs g = s) ∧
  (∀ (s : State) (cs : List CoreId) (g : Nat) (k : CoreId → SlotId) (q : CoreId → Nat), cs.Nodup →
    (∀ c ∈ cs, (s.core c).arrived g = some (k c, q c)) →
    ∀ c ∈ cs, ∀ g' xp next n, (s.ctx c (k c)).run = .hbar g' xp next n →
      ((s.barrierDone cs g).ctx c (k c)).run = .leaving (s.cycleOf c) ∧ ((s.barrierDone cs g).ctx c (k c)).pc = next ∧
      ((s.barrierDone cs g).ctx c (k c)).phase = xp) ∧
  (∀ (s : State) (d : Dst) (k : Fin 16), exec (.evrd d k) s = .next (s.result d ((s.myCore.ev.get k).setWidth 64) [] 4)) ∧
  (∀ (s : State) (k : Fin 17), s.me.vq ≠ [] → exec (.evclr k) s = .next (s.modMe fun t => { t with run := .blocked })) ∧
  (∀ (s : State) (k : Fin 17), s.me.vq = [] → ∃ t, exec (.evclr k) s = .next t ∧ t.mem = s.mem ∧ t.me.pc = s.me.pc + 4 ∧
    ∀ j : Fin 16, (t.core s.cur).ev.get j = if k.val = 16 ∨ k.val = j.val then 0 else s.myCore.ev.get j) ∧
  (∀ (s : State) (i : Instr) (imm : BitVec 24) (b : Src) (lit bv : Word) (len : Nat), Gather i imm b lit len →
    s.me.src lit b = .value bv →
    let ea := bv + imm.signExtend 64
    (s.myLaunch.split.size .G < ea.toNat + 64 → exec i s = .next (s.takeTrap { cause := .window, addr := ea })) ∧
    (ea.toNat + 64 ≤ s.myLaunch.split.size .G → (s.windowKeys s.cur s.myLaunch .G ea.toNat 64).isSome →
      (ea.toNat % 64 ≠ 0 → exec i s = .next (s.takeTrap { cause := .align, addr := ea })) ∧
      (ea.toNat % 64 = 0 → exec i s = .next { s.modMe (fun t => { t with
        run := .gather ea.toNat (s.me.pc + BitVec.ofNat 64 len) s.serial (s.myCore.ev.toList.map BitVec.toNat) }) with
          serial := s.serial + 1 })))

open Sys2Proof Sys2Proof.Machine Sys2Proof.Stmt in
/-- A buffered message leaves when the channel has a receive slot free and no change sequence of either die holds the
path, and takes the destination context's generation; it arrives in the inbox of a context that is live, still has
that generation and runs the message's launch, and sets bit 0 of its event latch, and is a dead letter otherwise; a
negative acknowledgement sets the channel's NAK. A torus word that is due lands in the latch opposite its direction.
A gather ends when every core of a live launch contributes, each context going on at its next PC. The fetch port
gives the core that its rotation chooses the 32 bytes of code that it asks for. The oldest parked store is performed
when its page is present and no queued vector access touches its bytes; a rejected mapping discards that page's
entries and traps TRANSLATION. An asynchronous report is taken by a live context of its generation at a boundary,
and goes to the runtime alone, changing nothing else, where the context has ended or its slot has another
generation, where it is in mode H, and where TRAP.VEC is 0. A drill job starts, moves its chunks, and ends with its
ring record, its symbol delivered or faulted. Each of these steps changes nothing where it has nothing to act on
(that such a step stutters is the model's choice, log entry 13; the order of jobs is log entry 34, where an
asynchronous trap waits is 37). Where a clause reads memory back, memory is in its canonical form before. (08
Engine, message and system instructions: messages, torus, event counters; 09 Contexts, helpers and work queues: the
fetch port; 12 Drill engine: jobs, completion; 05 Memory: parked accesses; 16 Traps, pre-emption and context switch:
asynchronous traps) -/
def Obligations.MessageAndDrillEvents : Prop :=
  (∀ (s : State) (c : CoreId) (ch : Fin 16) (dst : CoreId) (dcl : ChanDecl) (m : Message) (rest : List Message),
    s.chanDst c ch = some (dst, dcl) →
    ((s.core c).chans.get ch).buffer = m :: rest → ((s.core c).chans.get ch).inUse < dcl.slots → s.pathHeld c dst = false →
    exec (.messageSend c ch) s = .next (s.modCore c fun x => { x.modChan ch (fun h => { h with
      buffer := rest, flight := h.flight ++ [{ m with gen := (s.ctx dst dcl.slot).gen }], inUse := h.inUse + 1 }) with
        sent := x.sent + 1 })) ∧
  (∀ (s : State) (c : CoreId) (ch : Fin 16), ((s.core c).chans.get ch).buffer = [] → exec (.messageSend c ch) s = .next s) ∧
  (∀ (s : State) (c : CoreId) (ch : Fin 16) (bad : Bool), s.chanDst c ch = none ∨ ((s.core c).chans.get ch).flight = [] →
    exec (.messageArrival { core := c, bad } ch) s = .next s) ∧
  (∀ (s : State) (c : CoreId) (ch : Fin 16), (∀ n ∈ s.naks, n.dst ≠ c.val ∨ n.ch ≠ ch) → exec (.nakArrival c ch) s = .next s) ∧
  (∀ (s : State) (c : CoreId) (k : SlotId) (va : Word), (∀ p ∈ (s.ctx c k).replayQ, vaPage p.va ≠ vaPage va) → s.saves = [] →
    exec (.mappingRejected c k va) s = .next s) ∧
  (∀ (s : State) (c : CoreId) (bad : Bool), (s.core c).jobs = [] → exec (.drillJobStart c) s = .next s ∧
    exec (.drillJobComplete c) s = .next s ∧ exec (.drillJobFault c) s = .next s ∧
    (s.drillNext (Fin.ofNat 128 c.cluster) = none → exec (.drillChunk { core := c, bad }) s = .next s)) ∧
  (∀ (s : State) (c : CoreId) (ch : Fin 16) (dst : CoreId) (dcl : ChanDecl) (m : Message) (rest : List Message) (bad : Bool),
    s.chanDst c ch = some (dst, dcl) → ((s.core c).chans.get ch).flight = m :: rest →
    (s.ctx dst m.slot).live = true → (s.ctx dst m.slot).gen = m.gen → (s.core dst).launch = some m.launch →
    ∃ t, exec (.messageArrival { core := c, bad } ch) s = .next t ∧ (t.core dst).inbox = (s.core dst).inbox ++ [(ch, { m with bad := m.bad || bad })] ∧
      (t.ctx dst m.slot).latch = (s.ctx dst m.slot).latch ||| 1 ∧ (t.core dst).rcvd = (s.core dst).rcvd + 1 ∧ t.mem = s.mem) ∧
  (∀ (s : State) (c : CoreId) (ch : Fin 16) (dst : CoreId) (dcl : ChanDecl) (m : Message) (rest : List Message) (bad : Bool),
    s.chanDst c ch = some (dst, dcl) → ((s.core c).chans.get ch).flight = m :: rest →
    ((s.ctx dst m.slot).live = false ∨ (s.ctx dst m.slot).gen ≠ m.gen ∨ (s.core dst).launch ≠ some m.launch) →
    ∃ t, exec (.messageArrival { core := c, bad } ch) s = .next t ∧ t.naks = s.naks ++ [{ dst := m.src, ch := m.srcCh, launch := m.launch }] ∧
      (t.core dst).inbox = (s.core dst).inbox ∧ (t.core dst).deadl = satAdd32 (s.core dst).deadl 1) ∧
  (∀ (s : State) (c : CoreId) (ch : Fin 16) (n : Nak), s.naks = [n] → n.dst = c.val → n.ch = ch →
    (s.core c).launch = some n.launch → (∀ l ∈ s.launches, l.phase = .live) → wbits (s.core c).msgRing 63 1 = 0 →
    ∃ t, exec (.nakArrival c ch) s = .next t ∧ t.naks = [] ∧ ((t.core c).chans.get ch).nak = true ∧
      (t.core c).rcvd = (s.core c).rcvd + 1 ∧ t.mem = s.mem) ∧
  (∀ (s s1 : State) (c : CoreId) (k : SlotId) (r : DRecv) (rest : List DRecv) (p : Fin 16 × Message),
    (s.ctx c k).drecvs = r :: rest → (s.core c).nextMessage r.ch k = some p → AcquireFree (s.focus c k) r.sc →
    (s.focus c k).storeMessage r.win r.ea p = .ok s1 →
    exec (.deferredReceive c k) s = .next ((((s1.modMe fun t => { t with drecvs := t.drecvs.erase r }).deliver s1.cur r.ref
      (BitVec.ofNat 64 (p.2.lcore * 256 + p.2.srcSlot.val))).acquired r.sc).focus s.cur s.slot)) ∧
  (∀ (s : State) (c : CoreId) (k : SlotId) (r : DRecv) (rest : List DRecv) (p : Fin 16 × Message) (a : Acc),
    (s.ctx c k).drecvs = r :: rest → (s.core c).nextMessage r.ch k = some p → AcquireFree (s.focus c k) r.sc →
    Reached (s.focus c k) .store r.win r.ea 64 .store a →
    let f := s.focus c k
    let u := (performed f a .store).write f.self a.keys p.2.payload
    let s1 := (if p.2.bad then u.poisonGranules (a.keys.map (· / 32)).dedup else u).takeMessage f.cur p
    exec (.deferredReceive c k) s = .next ((((s1.modMe fun t => { t with drecvs := t.drecvs.erase r }).deliver s1.cur r.ref
      (BitVec.ofNat 64 (p.2.lcore * 256 + p.2.srcSlot.val))).acquired r.sc).focus s.cur s.slot)) ∧
  (∀ (s : State) (c : CoreId) (k : SlotId), (s.ctx c k).drecvs = [] → exec (.deferredReceive c k) s = .next s) ∧
  (∀ (s : State) (c : CoreId) (dir : Sys2Proof.Dir) (w : TorusWord) (rest : List TorusWord), (s.core c).wires = w :: rest → w.dir = dir →
    (s.cycleOf c < w.lands → rest = [] → exec (.torusWordLand c dir) s = .next s) ∧
    (w.lands ≤ s.cycleOf c → ∃ t, exec (.torusWordLand c dir) s = .next t ∧ (t.core c).wires = rest ∧ t.mem = s.mem ∧
      (w.launch = (s.core c).launch → (t.core c).latches.get dir.opposite = w.v) ∧
      (w.launch ≠ (s.core c).launch → (t.core c).latches = (s.core c).latches))) ∧
  (∀ (s : State) (n : Nat) (l : Launch), s.launchAt n = some l → l.phase = .live → (l.cores.map coreOf).Nodup →
    (∀ k ∈ l.cores, ((s.core (coreOf k)).gathering).isSome) →
    ∃ t, exec (.gatherComplete n) s = .next t ∧ ∀ k ∈ l.cores, ∀ sl seq off next cs,
      (s.core (coreOf k)).gathering = some (sl, seq, off, next, cs) → (t.ctx (coreOf k) sl).pc = next ∧ (t.ctx (coreOf k) sl).run = .ready) ∧
  (∀ (s : State) (n : Nat) (l : Launch), s.launchAt n = some l → (∃ k ∈ l.cores, (s.core (coreOf k)).gathering = none) →
    exec (.gatherComplete n) s = .next s) ∧
  (∀ (s : State) (c : CoreId) (va : Word),
    let w := BitVec.ofNat 64 (va.toNat / 32 * 32)
    (s.portChoice (c.val / 8) ≠ some (c, w) → exec (.fetchPortServe c va) s = .next s) ∧
    ∀ a, s.portChoice (c.val / 8) = some (c, w) → s.fetchAcc c w 32 = .ok a → s.demand (.ofCore c) a .read = none →
      ∃ t b, exec (.fetchPortServe c va) s = .next t ∧ b ∈ (t.core c).fetched ∧ b.va = w.toNat ∧
        b.words = (List.range 8).map (fun i => BitVec.ofNat 32 (leNat (((s.bytesAt a.keys).drop (4 * i)).take 4))) ∧
        (t.core c).fetched.length ≤ 2 ∧ (t.core c).fetching = none ∧ t.mem = s.mem) ∧
  (∀ (s : State) (c : CoreId) (k : SlotId) (p : Parked) (rest : List Parked) (a : Acc), (s.ctx c k).replayQ = p :: rest →
    p.kind = .store → (s.focus c k).resolve .store p.win p.va p.bytes p.bytes = .ok a → (s.ctx c k).vqTouches a.keys = false → (s.focus c k).demand (.ofCore c) a .store = none →
    let s1 := performed (s.focus c k) a .store
    exec (.parkedReplay c k) s = .next (((s1.modMe fun t => { t with replayQ := rest }).writeAcc a p.bytes
      (p.data.toNat % 2 ^ (8 * p.bytes))).focus s.cur s.slot)) ∧
  (∀ (s : State) (c : CoreId) (k : SlotId), (s.ctx c k).replayQ = [] → exec (.parkedReplay c k) s = .next s) ∧
  (∀ (s : State) (c : CoreId) (k : SlotId) (va : Word) (p : Parked) (rest : List Parked), (s.ctx c k).replayQ = p :: rest →
    vaPage p.va = vaPage va →
    exec (.mappingRejected c k va) s = .next (((s.focus c k).rejectPage .translation p.va).focus s.cur s.slot)) ∧
  (∀ (s : State) (a : AsyncRep) (rest : List AsyncRep) (l : Launch), s.asyncs = a :: rest → s.findLaunch a.part a.launch = some l →
    l.phase = .live →
    let c := coreOf (l.cores.getD a.rank 0)
    let s0 : State := { s with asyncs := rest }
    let s1 := (s0.modCtx c a.slot Ctx.endStall).focus c a.slot
    ((s.ctx c a.slot).live = true → (s.ctx c a.slot).gen = a.gen → (s.ctx c a.slot).mode ≠ .h → (s.ctx c a.slot).atBoundary = true →
      l.trapVec ≠ 0 → exec .asyncTrap s = .next ((s1.takeTrap a.info).focus s.cur s.slot)) ∧
    ((s.ctx c a.slot).live = false ∨ (s.ctx c a.slot).gen ≠ a.gen ∨ (s.ctx c a.slot).mode = .h ∨ l.trapVec = 0 →
      ∃ rec' : List Byte, exec .asyncTrap s = .next { s0 with out := .trap rec' :: s.out } ∧ rec'.length = 64 ∧
        rec'.getD 0 0 = BitVec.ofNat 8 a.cause.code ∧ rec'.getD 2 0 = BitVec.ofNat 8 a.slot.val ∧
        (rec'.drop 16).take 8 = leBytes 8 a.launch ∧ (rec'.drop 32).take 8 = leBytes 8 a.addr.toNat ∧
        (rec'.drop 44).take 4 = leBytes 4 a.handle)) ∧
  (∀ s : State, s.asyncs = [] → exec .asyncTrap s = .next s) ∧
  (∀ (s : State) (c : CoreId) (l : Launch) (j : Job) (rest : List Job), (s.core c).jobs = j :: rest → s.launchOf c = some l →
    (j.phase = .queued → l.phase = .live → j.layout.cbp = false → j.layout.cbc = false →
      exec (.drillJobStart c) s = .next (s.modCore c fun x => { x with jobs := { j with phase := .running 0 } :: rest })) ∧
    (∀ i bad, j.phase = .running i → l.phase = .live → s.drillNext (Fin.ofNat 128 c.cluster) = some c →
      let served := s.drillLast.set (Fin.ofNat 128 c.cluster).val (Fin.ofNat 8 c.val) (Fin.ofNat 128 c.cluster).isLt
      exec (.drillChunk { core := c, bad }) s = .next (({ s with drillLast := served } : State).moveChunk c l j i bad)) ∧
    (∀ r, j.phase = .copied → j.layout.bar = false → j.layout.sig = false → j.layout.cbp = false → j.layout.cbc = false →
      j.region = none → j.ref = some r →
      let t := s.ringAdd c j.layout.ring (completionRecord 0 (if j.poisoned then 0x17 else 0) j.id.toNat
        (match j.slot with | some k => k.val | none => 255) j.bytes 0 (s.timeAt c))
      exec (.drillJobComplete c) s = .next ((t.modCore c fun x => { x with jobs := x.jobs.tail, rcvd := x.rcvd + 1 }).deliver c r
        (BitVec.ofNat 64 (j.id.toNat * 2 ^ 48 + j.bytes % 2 ^ 48)))) ∧
    (∀ r cause a, j.phase = .faulted cause a → j.region = none → j.ref = some r →
      let t := s.ringAdd c j.layout.ring (completionRecord 2 cause.code j.id.toNat
        (match j.slot with | some k => k.val | none => 255) j.bytes a (s.timeAt c))
      exec (.drillJobFault c) s = .next ((t.modCore c fun x => { x with jobs := x.jobs.tail, rcvd := x.rcvd + 1 }).faultSym c r a))) ∧
  (∀ (s : State) (c : CoreId) (l : Launch) (j : Job) (lo n : Nat) (w1 w2 : Win),
    let x := j.layout
    s.inv = true → x.rows = 1 → x.rlen = n → 1 ≤ n → n ≤ 4096 → x.dist = false → x.mcast = false → x.cbp = false → x.cbc = false →
    x.srcSp ≠ 0 → w1 = winOf x.srcSp → x.dstSp ∉ [0, 5, 6] → w2 = winOf x.dstSp → l.pairs = [] →
    x.src.toNat + n ≤ l.split.size w1 → x.dst.toNat + n ≤ l.split.size w2 →
    (∀ (as : List Acc) (r : Req), (∀ a ∈ as, ∃ w off, a.place = .lm c w off) → s.engineDemand (From.ofEngine c) as r = none) →
    s.quarantined ((List.range n).map fun o => lmKey c w2 (x.dst.toNat + o)) = false → lo < n →
    (s.moveChunk c l j 0).mem.get (lmKey c w2 (x.dst.toNat + lo)) = s.mem.get (lmKey c w1 (x.src.toNat + lo)))

namespace Sys2Proof.Stmt

open Sys2Proof.Machine

/-- The events in which the Harrow unit runs a command: the command's OPCODE and what it does. -/
inductive HarrowEvent (c : CoreId) : Instr → Nat → (Launch → HCode) → Prop
  | mldw : HarrowEvent c (.mldw c) 1 (mldwCode c)
  | mswap : HarrowEvent c (.mswap c) 2 fun _ => mswapCode c
  | mmul : HarrowEvent c (.mmul c) 3 (mulCode c false)
  | mrot : HarrowEvent c (.mrot c) 4 (mulCode c true)
  | mepi : HarrowEvent c (.mepi c) 5 (mepiCode c)
  | mzero : HarrowEvent c (.mzero c) 6 (mzeroCode c)
  | mred : HarrowEvent c (.mred c) 7 (mredCode c)
  | mracc : HarrowEvent c (.mracc c) 8 (mraccCode c)
  | mrfin : HarrowEvent c (.mrfin c) 9 (mrfinCode c)
  | msync : HarrowEvent c (.msync c) 10 fun _ => msyncCode c

/-- A live launch's core whose unit is not halted, halting or being stopped, runs nothing, and has command q with an OPCODE at the
head of its queue, which nothing of the commands before it keeps from starting (R185, R189). -/
def CommandAtHead (s : State) (c : CoreId) (l : Launch) (op : Nat) (q : HCmd) (rest : List HCmd) : Prop :=
  s.launchOf c = some l ∧ l.phase = .live ∧ l.stopping = false ∧ (s.core c).harrow.free = true ∧ (s.core c).harrow.mayStart c = true ∧ (s.core c).harrow.running = none ∧
  (s.core c).harrow.queue = q :: rest ∧ field q.record 0 1 = op

/-- The state in which the command at the head of the queue begins: the stream registers written before it stand. -/
def begun (s : State) (c : CoreId) (q : HCmd) (rest : List HCmd) : State :=
  { s.modCore c (fun x => { x with
      ssr := q.ssr.foldl (fun v p => v.set p.1.val p.2 p.1.isLt) x.ssr
      harrow := { x.harrow with
        queue := rest
        running := some { cmd := q, serial := s.serial } } }) with
    serial := s.serial + 1 }

/-- Writes of stream registers that waited behind an empty queue take effect (R196). -/
def ssrSettled (s : State) (c : CoreId) : State :=
  s.modCore c fun x =>
    if x.harrow.queue.isEmpty then
      { x with
        ssr := x.ssrNext.foldl (fun v p => v.set p.1.val p.2 p.1.isLt) x.ssr
        ssrNext := [] } else x

/-- What a turn of a begun command leaves when its rows succeed: it goes to its next 16-row step, and after the last row it ends
and joins the commands that retire (R185, R209). -/
def RowsDone (code : HCode) (s : State) (c : CoreId) (h : HRun) (t : State) : Prop :=
  let n := code.rows h
  let stop := min n (h.row / 16 * 16 + 16)
  ∃ s2 h2, s.hLoop code.step (16 * (stop - h.row) + 1) h (fun r => decide (stop ≤ r.row)) = (s2, h2, true) ∧
    ((h2.row < n ∧ h2.failed = none ∧ t = s2.modCore c fun x => { x with harrow := { x.harrow with running := some h2 } }) ∨
      (n ≤ h2.row ∧ ∃ s3 h3, code.ends s2 h2 = .ok (s3, h3) ∧
        t = s3.modCore c fun x => { x with harrow := { x.harrow with running := none, retiring := x.harrow.retiring ++ [h3] } }))

/-- The command at the head of the queue has run to its end in one turn: it has left the queue and retires. -/
def RanWhole (s t : State) (c : CoreId) (q : HCmd) (rest : List HCmd) : Prop :=
  (t.core c).harrow.queue = rest ∧ (t.core c).harrow.running = none ∧
  (t.core c).harrow.retiring.map (·.cmd) = (s.core c).harrow.retiring.map (·.cmd) ++ [q]

/-- A command can read n bytes of a window: `ks` are their addresses, no first-touch copy lies under them and none is poisoned. -/
def Readable (s : State) (c : CoreId) (l : Launch) (w : Win) (off n : Nat) (ks : List Nat) : Prop :=
  (s.core c).touched w off n = .clear ∧ s.windowKeys c l w off n = some ks ∧ s.firstPoison ks = none

/-- A plain multiplication of one row: its format suits the weights, its record holds its four slabs, it reads no start values, and
its A and C bytes are there. -/
def OneRow (s : State) (c : CoreId) (l : Launch) (q : HCmd) (as cs : List Nat) : Prop :=
  let r := q.record
  let f := field r 18 1
  field r 1 1 % 16 = 0 ∧ field r 16 2 = 1 ∧ formatOk (s.core c).harrow.activeBank.fmt f = true ∧ (s.core c).harrow.activeBank.poison = [] ∧
  (if f = 11 then 256 else 128) ≤ field r 12 2 ∧ Readable s c l .A (field r 8 4) (field r 12 2) as ∧
  s.windowKeys c l .C (field r 24 4) 512 = some cs

/-- The row's 512 result bytes. -/
def oneRow (s : State) (c : CoreId) (q : HCmd) (as : List Nat) : List Byte :=
  (rowResult ((Machine.tyCode (field q.record 18 1)).getD .i8) (s.core c).harrow.activeBank (s.bytesAt as).toArray [0, 1, 2, 3]
    (field q.record 14 2) []).1.flatMap bytes4

/-- A signed byte of a list. -/
def sbyte (l : Array Byte) (i : Nat) : Int := (l.getD i 0).toInt

/-- An INT8 column: each slab's 32 products are added to the accumulator, which saturates to 32 bits (R195). -/
def int8Column (rec' ws : Array Byte) (n : Nat) (slabs : List Nat) (j : Nat) (acc : Int) : Int :=
  match slabs with
  | [] => acc
  | p :: rest => int8Column rec' ws n rest (j + 1)
      (satInt 32 (acc + ((List.range 32).map fun k => sbyte rec' (32 * p + k) * sbyte ws ((32 * j + k) * 128 + n)).sum))

end Sys2Proof.Stmt

open Sys2Proof Sys2Proof.Machine Sys2Proof.Stmt in
/-- For each of the ten commands at the head of the queue of a live launch's unit: when it can begin and its rows
succeed, it runs to its next 16-row step, and from there on at its later turns; when it can end after its last row,
it leaves the running place and joins the retiring commands, with exactly the state those steps give. MLDW fills the
inactive bank with its weights, scales and format; MSWAP exchanges the banks, the old one draining while rows still
use it; MZERO leaves zeros in its rows, the first 16 at its first turn; a plain MMUL or MROT of one row writes its
128 results, an MROT also sending its bank and row; an epilogue of one row to the A window writes its converted row;
the last message of an MRED leaves for its destination; MRFIN ends a closed region at once, and writes the one row
of an open one; MRACC opens its region with its rows and exponent; MSYNC without ROT ends once no command retires.
An INT8 row gives each column the start value plus the products of its slabs, saturating after each slab. With no
command queued or running, the events change nothing. (The order of a command's steps and waits is the model's
choice in log entries 40 to 43, what its overlap shows in 45, the rows an epilogue has in flight in 95, what a fault
keeps in 77 and 96.) Where a clause reads memory back, memory is in its canonical form before. (07 Harrow: the
command queue, weights, multiplication, epilogue, reduction; 02 Number formats: matrix arithmetic) -/
def Obligations.HarrowCommands : Prop :=
  (∀ (s s1 t : State) (c : CoreId) (i : Instr) (op : Nat) (code : Launch → HCode) (l : Launch) (q : HCmd) (rest : List HCmd)
      (h1 : HRun), HarrowEvent c i op code → CommandAtHead s c l op q rest →
    (code l).begins (begun s c q rest) { cmd := q, serial := s.serial } = .ok (s1, h1) →
    RowsDone (code l) (ssrSettled s1 c) c { h1 with begun := true } t → exec i s = .next t) ∧
  (∀ (s t : State) (c : CoreId) (i : Instr) (op : Nat) (code : Launch → HCode) (l : Launch) (h : HRun), HarrowEvent c i op code →
    s.launchOf c = some l → l.phase = .live → l.stopping = false → (s.core c).harrow.free = true →
    (s.core c).harrow.running = some h → field h.cmd.record 0 1 = op → h.begun = true →
    RowsDone (code l) (ssrSettled s c) c h t → exec i s = .next t) ∧
  (∀ (s : State) (c : CoreId) (i : Instr) (op : Nat) (code : Launch → HCode), HarrowEvent c i op code →
    (s.launchOf c = none ∨ ((s.core c).harrow.running = none ∧ (s.core c).harrow.queue = [])) → exec i s = .next s) ∧
  (∀ (s : State) (c : CoreId) (l : Launch) (q : HCmd) (rest : List HCmd) (w sc : List Byte), CommandAtHead s c l 1 q rest →
    let y := (s.core c).harrow
    let f := field q.record 16 1
    y.inactive ≠ .filling → y.inactive ≠ .draining →
    (begun s c q rest).hRead c l .W (field q.record 8 4) (if f = 11 then 32768 else 16384) = .ok w →
    (f ≠ 1 → (begun s c q rest).hRead c l .W (field q.record 12 4) 2048 = .ok sc) →
    ∃ t, exec (.mldw c) s = .next t ∧ t.mem = s.mem ∧ (t.core c).harrow.queue = rest ∧ (t.core c).harrow.active = y.active ∧
      (t.core c).harrow.activeBank = y.activeBank ∧ (t.core c).harrow.inactive = .loaded ∧
      (t.core c).harrow.inactiveBank =
        { weights := w, scales := if f = 1 then [] else (words4 sc).map (BitVec.ofNat 32), fmt := tyCode f }) ∧
  (∀ (s : State) (c : CoreId) (l : Launch) (q : HCmd) (rest : List HCmd), CommandAtHead s c l 2 q rest →
    let y := (s.core c).harrow
    y.inactive ≠ .filling → y.selfRotation c = false → y.inactive ≠ .empty →
    ∃ t, exec (.mswap c) s = .next t ∧ t.mem = s.mem ∧ (t.core c).harrow.queue = rest ∧ (t.core c).harrow.active = !y.active ∧
      (t.core c).harrow.activeBank = y.inactiveBank ∧ (t.core c).harrow.inactiveBank = y.activeBank ∧
      (t.core c).harrow.inactive = (if y.activeBank.fmt = none then .empty else if y.tagged y.active then .draining else .loaded)) ∧
  (∀ (s : State) (c : CoreId) (l : Launch) (q : HCmd) (rest : List HCmd), CommandAtHead s c l 6 q rest → s.inv = true →
    let n := field q.record 14 2
    ∃ t, exec (.mzero c) s = .next t ∧ (t.core c).harrow.queue = rest ∧
      ((t.core c).harrow.running.map fun h => (h.cmd, h.row)) = (if n ≤ 16 then none else some (q, 16)) ∧
      ∀ r < min n 16, ∀ ks, s.windowKeys c l .C (field q.record 8 4 + r * field q.record 12 2) 512 = some ks →
        ∀ k ∈ ks, t.mem.get k = 0) ∧
  (∀ (s : State) (c : CoreId) (l : Launch) (q : HCmd) (rest : List HCmd), CommandAtHead s c l 8 q rest →
    ∃ t, exec (.mracc c) s = .next t ∧ (t.core c).harrow.queue = rest ∧
      (t.core c).harrow.regions.get (Fin.ofNat 4 (field q.record 14 1)) =
        { isOpen := true, roff := field q.record 8 4, rows := field q.record 12 2, exp := fieldInt q.record 16 4, received := 0 }) ∧
  (∀ (s : State) (c : CoreId) (l : Launch) (q : HCmd) (rest : List HCmd), CommandAtHead s c l 10 q rest →
    (s.core c).harrow.retiring = [] → fieldBit q.record 1 0 = false →
    ∃ t, exec (.msync c) s = .next t ∧ t.mem = s.mem ∧ (t.core c).harrow.queue = rest ∧ (t.core c).harrow.running = none ∧
      (t.core c).harrow.retiring.map (·.cmd) = [q]) ∧
  (∀ (s : State) (c : CoreId) (l : Launch) (q : HCmd) (rest : List HCmd) (as cs : List Nat) (i : Instr) (op : Nat),
    (i, op) ∈ [(Instr.mmul c, 3), (Instr.mrot c, 4)] → CommandAtHead s c l op q rest → s.inv = true → l.pairs = [] →
    OneRow s c l q as cs →
    (op = 4 → s.boundTo (rotTargets c q.record).1 l = true ∧ s.boundTo (rotTargets c q.record).2 l = true) →
    ∃ t, exec i s = .next t ∧ RanWhole s t c q rest ∧ t.bytesAt cs = oneRow s c q as ∧
      (∀ a, a ∉ cs → t.mem.get a = s.mem.get a) ∧ (t.core c).sent = (s.core c).sent + (if op = 4 then 2 else 0)) ∧
  (∀ (s : State) (c : CoreId) (l : Launch) (q : HCmd) (rest : List HCmd) (cs ks : List Nat), CommandAtHead s c l 5 q rest →
    s.inv = true → l.pairs = [] →
    let r := q.record
    let out := (epiRow r q.rm [] [] (s.core c).harrow.gens (words4 (s.bytesAt cs))).1
    field r 1 1 % 4 = 0 → fieldBit r 19 1 = false → fieldBit r 43 3 = false → field r 42 1 = 0 → field r 14 2 = 1 →
    Readable s c l .C (field r 8 4) 512 cs → s.windowKeys c l .A (field r 36 4) out.length = some ks →
    s.crossHeld (From.ofEngine c) ks = false → s.quarantined ks = false →
    ∃ t, exec (.mepi c) s = .next t ∧ RanWhole s t c q rest ∧ t.bytesAt ks = out ∧ ∀ a, a ∉ ks → t.mem.get a = s.mem.get a) ∧
  (∀ (s : State) (c : CoreId) (l : Launch) (h : HRun) (cs : List Nat) (bs : List Byte), s.launchOf c = some l → l.phase = .live → l.stopping = false →
    (s.core c).harrow.free = true → (s.core c).harrow.running = some h → field h.cmd.record 0 1 = 7 → h.begun = true →
    h.part = 15 → h.row + 1 = field h.cmd.record 14 2 →
    let r := h.cmd.record
    let dst := coreOf (l.cores.getD (field r 16 4) 0)
    (s.core dst).harrow.inbound = [] → dst ≠ c →
    ((h.data.length = 32 ∧ bs = h.data) ∨
      (h.data = [] ∧ Readable s c l .C (field r 8 4 + h.row * field r 12 2 + 480) 32 cs ∧ bs = s.bytesAt cs)) →
    ∃ t, exec (.mred c) s = .next t ∧ t.mem = s.mem ∧ (t.core c).harrow.running = none ∧
      (t.core c).harrow.retiring.map (·.cmd) = (s.core c).harrow.retiring.map (·.cmd) ++ [h.cmd] ∧
      (t.core dst).harrow.inbound = [.mred (Fin.ofNat 4 (field r 20 1)) (field r 22 2 + h.row) 15
        ((words4 bs).map blockOf) c.val h.serial]) ∧
  (∀ (s : State) (c : CoreId) (l : Launch) (q : HCmd) (rest : List HCmd), CommandAtHead s c l 9 q rest →
    let i : Fin 4 := Fin.ofNat 4 (field q.record 14 1)
    let g := (s.core c).harrow.regions.get i
    (g.isOpen = false → ∃ t, exec (.mrfin c) s = .next t ∧ RanWhole s t c q rest ∧ t.mem = s.mem) ∧
    ∀ cs ks, g.isOpen = true → field q.record 16 4 ≤ g.received → g.rows = 1 → s.inv = true → l.pairs = [] →
      Readable s c l .C g.roff 2048 cs → l.rangeOk .C (field q.record 8 4) 512 = true →
      s.windowKeys c l .C (field q.record 8 4) 512 = some ks →
      ∃ t, exec (.mrfin c) s = .next t ∧ RanWhole s t c q rest ∧ ((t.core c).harrow.regions.get i).isOpen = false ∧
        t.bytesAt ks = ((List.range 128).map fun n =>
          (Cell.ofBytes (((s.bytesAt cs).drop (16 * n)).take 16)).result g.exp).flatMap fun p => bytes4 p.1) ∧
  (∀ (b : Bank) (rec' : Array Byte) (slabs : List Nat) (asof : Nat) (start : List Nat) (n : Nat), b.fmt = some .i8 → n < 128 →
    start.getD n 0 < 2 ^ 32 →
    (rowResult .i8 b rec' slabs asof start).1.getD n 0 =
      intBits 32 (int8Column rec' b.weights.toArray n slabs 0 (bitsInt true 32 (start.getD n 0))))

open Sys2Proof Sys2Proof.Machine Sys2Proof.Stmt in
/-- HARROW_COMPLETE takes the next command that has nothing in flight, keeps its tag and rows, and delivers its symbol
with both. HARROW_FAULT, once the failed command has no rows in flight, halts the unit with its status and tag,
empties the queue, and faults that command's symbol. BANK_DRAINED makes a draining bank LOADED. A rotated bank is
first accepted into an EMPTY or LOADED inactive bank, and then lands as ARRIVED, raising ROTIN, with every granule
poisoned where its check failed. Rotated rows are written and raise ROTIN. A reduction message for a row of an open
region whose MRFIN has not begun adds each of its pairs to its cell at the region's base + 2048 row + 128 part + 16
j, changes no other byte, and counts the row once its last part has come; cells in a poisoned granule halt the unit
with status 8; for any other region or row it is a dead letter. Without such a command or message each changes
nothing. (Which command completes next is the model's choice in log entry 43, a rotation's beats in 42, the order of
targets' faults in 44, the tag that a halt keeps in 96.) Where a clause reads memory back, memory is in its
canonical form before. (07 Harrow: the command queue, weights, rotation, reduction) -/
def Obligations.HarrowTransfersAndCompletion : Prop :=
  (∀ (s : State) (c : CoreId) (r : HRun), (s.core c).harrow.completing = some r →
    ∃ t, exec (.harrowComplete c) s = .next t ∧ t.mem = s.mem ∧ (t.core c).harrow.lastTag = BitVec.ofNat 32 r.cmd.tag ∧
      (t.core c).harrow.cursor = BitVec.ofNat 32 r.row ∧
      ∀ k, (s.core c).syms.get r.cmd.ref.s = .pending r.cmd.ref.serial k →
        (t.core c).syms.get r.cmd.ref.s = .resolved (BitVec.ofNat 64 (r.cmd.tag * 2 ^ 32 + r.row))) ∧
  (∀ (s : State) (c : CoreId), (s.core c).harrow.retiring = [] →
    exec (.harrowComplete c) s = .next s ∧ exec (.harrowFault c) s = .next s) ∧
  (∀ (s : State) (c : CoreId) (r : HRun) (k : Nat) (a : Word), (s.core c).harrow.retiring.find? (fun r => r.failed.isSome) = some r →
    r.failed = some (k, a) → r.flight = [] →
    ∃ t, exec (.harrowFault c) s = .next t ∧ t.mem = s.mem ∧ (t.core c).harrow.queue = [] ∧ (t.core c).harrow.running = none ∧
      ((s.core c).harrow.haltStatus = none →
        (t.core c).harrow.haltStatus = some k ∧ (t.core c).harrow.haltTag = BitVec.ofNat 32 r.cmd.tag) ∧
      ∀ j, (s.core c).syms.get r.cmd.ref.s = .pending r.cmd.ref.serial j → (t.core c).syms.get r.cmd.ref.s = .fault a) ∧
  (∀ (s : State) (c : CoreId), ∃ t, exec (.bankDrained c) s = .next t ∧ t.mem = s.mem ∧
    (t.core c).harrow.inactive = (if (s.core c).harrow.inactive = .draining then .loaded else (s.core c).harrow.inactive)) ∧
  (∀ (s : State) (c : CoreId) (l : Launch) (b : Bank) (src serial : Nat) (taken bad : Bool) (rest : List HFlight),
    s.launchOf c = some l → l.phase = .live → (s.core c).harrow.inbound = .bank b src serial taken :: rest →
    (taken = false → l.stopping = false → (s.core c).harrow.inactive = .empty ∨ (s.core c).harrow.inactive = .loaded →
      (s.core c).harrow.mldwFirst c = false →
      ∃ t, exec (.rotationBankArrived { core := c, bad }) s = .next t ∧ (t.core c).harrow.inactive = .filling ∧
        (t.core c).harrow.inbound.head? = some (.bank b src serial true) ∧ (t.core c).harrow.rotin = (s.core c).harrow.rotin) ∧
    (taken = true →
      ∃ t, exec (.rotationBankArrived { core := c, bad }) s = .next t ∧ (t.core c).harrow.inactive = .arrived ∧
        (t.core c).harrow.inactiveBank = (if bad then b.spoil else b) ∧
        (t.core c).harrow.inbound = rest ∧ (t.core c).harrow.rotin = (s.core c).harrow.rotin + 1)) ∧
  (∀ (s : State) (c : CoreId) (l : Launch) (data : List Byte) (off src serial : Nat) (bad : Bool) (rest : List HFlight),
    s.launchOf c = some l → l.phase = .live → (s.core c).harrow.inbound = .rows data off src serial :: rest →
    ∃ t, exec (.rotationRowsLanded { core := c, bad }) s = .next t ∧ t.mem = (s.hWrite c l .A off data).mem ∧
      (t.core c).harrow.inbound = rest ∧ (t.core c).harrow.rotin = (s.core c).harrow.rotin + 1) ∧
  (∀ (s : State) (c : CoreId) (l : Launch) (i : Fin 4) (row part src serial : Nat) (ps : List (BitVec 32 × BitVec 32))
      (bad : Bool) (rest : List HFlight), s.launchOf c = some l → l.phase = .live →
    (s.core c).harrow.inbound = .mred i row part ps src serial :: rest →
    let g := (s.core c).harrow.regions.get i
    let off := g.roff + 2048 * row + 128 * part
    let cell (j : Nat) : List Nat := range (lmKey c .C (off + 16 * j)) 16
    (g.isOpen = true → g.ended = false → row < g.rows → s.inv = true →
      (∀ ks, s.windowKeys c l .C off 128 = some ks → s.poisoned ks = false) →
      ∃ t, exec (.mredArrival { core := c, bad }) s = .next t ∧ (t.core c).harrow.inbound = rest ∧
      (t.core c).rcvd = (s.core c).rcvd + 1 ∧
      ((t.core c).harrow.regions.get i).received = g.received + (if part = 15 then 1 else 0) ∧
      (l.pairs = [] → off + 16 * ps.length ≤ l.split.size .C → ∀ j (h : j < ps.length),
        t.bytesAt (cell j) = ((Cell.ofBytes (s.bytesAt (cell j))).arrive g.exp ps[j].1 ps[j].2).1.bytes) ∧
      ∀ a, (∀ j < ps.length, ∀ ks, s.windowKeys c l .C (off + 16 * j) 16 = some ks → a ∉ ks) → t.mem.get a = s.mem.get a) ∧
    (g.isOpen = true → g.ended = false → row < g.rows → (∃ ks, s.windowKeys c l .C off 128 = some ks ∧ s.poisoned ks = true) →
      ∃ t, exec (.mredArrival { core := c, bad }) s = .next t ∧ t.mem = s.mem ∧ (t.core c).harrow.queue = [] ∧
        (t.core c).harrow.running = none ∧ (t.core c).harrow.haltStatus = some ((s.core c).harrow.haltStatus.getD 8)) ∧
    (g.isOpen = false ∨ g.ended = true ∨ g.rows ≤ row → ∃ t, exec (.mredArrival { core := c, bad }) s = .next t ∧ t.mem = s.mem ∧
      (t.core c).deadl = satAdd32 (s.core c).deadl 1 ∧ (t.core c).harrow.regions = (s.core c).harrow.regions)) ∧
  (∀ (s : State) (c : CoreId) (bad : Bool), (s.core c).harrow.inbound = [] → exec (.rotationBankArrived { core := c, bad }) s = .next s ∧
    exec (.rotationRowsLanded { core := c, bad }) s = .next s ∧ exec (.mredArrival { core := c, bad }) s = .next s)

namespace Sys2Proof.Stmt

open Sys2Proof.Machine

/-- The entries whose start only begins a transfer: the event's constructor, the OP, what the transfer does. -/
inductive EntryStart : (Fin 16384 → Instr) → Nat → (ERec → Comm → Xfer) → Prop
  | send : EntryStart .send 1 fun r c => r.xfer c .send
  | copy : EntryStart .copy 4 fun r c => r.xfer c .copy
  | put : EntryStart .put 6 fun r c => r.xfer c .put
  | atom : EntryStart .sowerAtom 7 fun r c => r.xfer c .atom

/-- The entries that also take what has arrived for them. -/
inductive EntryReceive : (Fin 16384 → Instr) → Nat → (ERec → Comm → Xfer) → Prop
  | recv : EntryReceive .recv 2 fun r c => r.xfer c (if r.home then .recvHome else .recv)
  | rrs : EntryReceive .rrs 3 fun r c => r.xfer c .rrs
  | a2a : EntryReceive .a2a 9 ERec.a2a

/-- The state in which a fired entry runs with its transfer started (R313). -/
def started (s : State) (h : Nat) (x : Xfer) : State :=
  (s.modSower fun w => w.modEntry h fun e => { e with phase := .running }).startXfer h x

end Sys2Proof.Stmt

open Sys2Proof Sys2Proof.Machine Sys2Proof.Stmt in
/-- A met entry fires after those met earlier; when STIME meets entries, they fire by headland cycle, then handle. A
fired entry that is first on its active communicator starts its transfer; WAIT completes at once; PROG reads its
steps, and each runs in turn: a loop step, a transfer, after the last one completion. A staging slot is granted to a
due chunk; a free output serves the chunk that arbitration chooses; a chunk, a PUT or a forwarded block arrives, one
from outside only in its turn; a done entry completes, raises its counters and frees its handle. A block for another
rank of the node, like a message that names one, is set to be passed on, and dropped if its communicator has failed.
A run-time fault fails its communicator and notifies the members, a notice fails the one it reaches; a communicator
is created. Ongeoz ports and far links go down or up, and a lost chunk fails its communicator. Without an entry of
the handle, its events change nothing. The model's choices: log entries 13 (events that do nothing), 48 (posting),
49 (fault handles and addresses), 50 (routes and sequence numbers), 51 (order, abandoning), 98 (what comes again),
100 (headland cycle), 101 (NODE). (13 Sower and collectives: counters, triggered entries, operations, chunks,
programs, all-to-all, failures) -/
def Obligations.SowerEvents : Prop :=
  (∀ (s : State) (h : Fin 16384) (e : Entry), s.sower.entry h.val = some e →
    (∀ o, e.phase = .met o → (∀ x ∈ s.sower.entries, ∀ p, x.phase = .met p → o ≤ p) →
      exec (.triggerFire h) s = .next (s.modSower fun w => w.modEntry h.val fun e => { e with phase := .fired o })) ∧
    (e.phase = .unfired → e.timeMet (BitVec.ofNat 64 s.stime) = true → exec (.triggerFire h) s = .next s.fireMet)) ∧
  (∀ (s : State) (e f : Entry), s.sower.entries = [e, f] → e.handle < f.handle →
    let now := BitVec.ofNat 64 s.stime
    let o := s.sower.order
    e.timeMet now = true → f.timeMet now = true → s.fireMet.sower.entries = if f.metCycle now < e.metCycle now
      then [{ e with phase := .fired (o + 1) }, { f with phase := .fired o }]
      else [{ e with phase := .fired o }, { f with phase := .fired (o + 1) }]) ∧
  (∀ (e : Entry) (now : Word), e.timeMet now = true ↔
    e.phase = .unfired ∧ e.ctr = none ∧ thresholdMet now e.rec_.thresh = true) ∧
  (∀ (s : State) (h : Fin 16384) (i : Fin 16384 → Instr) (op : Nat) (mk : ERec → Comm → Xfer) (e : Entry) (c : Comm),
    s.sower.startable h.val op = some (e, c) →
    (EntryStart i op mk → exec (i h) s = .next (started s h.val (mk e.rec_ c))) ∧
    (EntryReceive i op mk → (∀ x ∈ s.sower.xfers, x.handle ≠ h.val) →
      exec (i h) s = .next ((started s h.val (mk e.rec_ c)).drainComm c (mk e.rec_ c).peer))) ∧
  (∀ (s : State) (h : Fin 16384) (i : Fin 16384 → Instr) (op : Nat) (mk : ERec → Comm → Xfer),
    EntryStart i op mk ∨ EntryReceive i op mk → s.sower.entry h.val = none → (∀ x ∈ s.sower.xfers, x.handle ≠ h.val) →
    exec (i h) s = .next s) ∧
  (∀ (s : State) (h : Fin 16384) (e : Entry) (c : Comm), s.sower.startable h.val 5 = some (e, c) →
    exec (.sowerWait h) s = .next (s.finishEntry e c)) ∧
  (∀ (s s1 : State) (h : Fin 16384) (e : Entry) (c : Comm) (steps : List PStep), s.sower.startable h.val 8 = some (e, c) →
    let va := BitVec.ofNat 64 (field e.rec_.body 8 8)
    s.readSteps (s.commLaunch c) c (field e.rec_.body 4 4) va va 256 [] = .ok (s1, steps) →
    (∀ p ∈ steps, p.kind = 6 ∨ p.kind = 7 → p.peer ≤ steps.length) →
    exec (.prog h) s = .next (s1.modSower fun w => w.modEntry h.val fun e =>
      { e with phase := .running, prog := some { steps } })) ∧
  (∀ (s : State) (h : Fin 16384) (e : Entry) (c : Comm) (as : List Acc), s.sower.startable h.val 8 = some (e, c) →
    s.sowerAccs (s.commLaunch c) .sread (BitVec.ofNat 64 (field e.rec_.body 8 8)) 32 = .ok as →
    s.engineDemand .ofHeadland as .read = none →
    let ks := as.flatMap (·.keys)
    (∀ k ∈ ks, s.poison.contains (k / 32) = false) → field (s.bytesAt ks) 0 1 = 0 →
    stepCause c (field e.rec_.body 4 4) (s.bytesAt ks) = none →
    exec (.prog h) s = .next ((s.engineArrive .ofHeadland as .read).modSower fun w => w.modEntry h.val fun e =>
      { e with phase := .running, prog := some { steps := [] } })) ∧
  (∀ (s : State) (h : Fin 16384) (e : Entry) (c : Comm) (p : Prog), s.sower.entry h.val = some e → s.sower.entryComm e = some c →
    e.prog = some p → c.active = true → (∀ x ∈ s.sower.xfers, x.handle ≠ h.val) →
    (p.steps[p.next]? = none → exec (.progStepStart h) s = .next (s.finishEntry e c)) ∧
    ∀ t, p.steps[p.next]? = some t →
      (t.kind = 6 → exec (.progStepStart h) s = .next (s.modSower fun w => w.modEntry h.val fun f => f.atStep { p with
        i0 := p.i0 + 1, next := if p.i0 + 1 < field f.rec_.body 0 2 then t.peer else p.next + 1 })) ∧
      (t.kind = 7 → exec (.progStepStart h) s = .next (s.modSower fun w => w.modEntry h.val fun f => f.atStep { p with
        i1 := p.i1 + 1, i0 := 0, next := if p.i1 + 1 < field f.rec_.body 2 2 then t.peer else p.next + 1 })) ∧
      (t.kind ∈ [1, 4, 5] → exec (.progStepStart h) s = .next ((s.startXfer h.val (s.stepXfer e c p t)).modSower fun w =>
        w.modEntry h.val fun f => f.atStep { p with next := p.next + 1 })) ∧
      (t.kind ∈ [2, 3] → exec (.progStepStart h) s = .next (((s.startXfer h.val (s.stepXfer e c p t)).modSower fun w =>
        w.modEntry h.val fun f => f.atStep { p with next := p.next + 1 }).drainComm c (s.stepXfer e c p t).peer))) ∧
  (∀ (s : State) (n : Nat) (x : Xfer) (c : Comm), s.sower.xfers.find? (fun x => x.id == n) = some x → s.sower.xferComm x = some c →
    x.granted = false → x.op ≠ .copy → s.chunkDue x c = true →
    (c.inside (x.target c) = true → ∃ p, s.sower.member c (x.target c) = some p ∧ s.sower.slotsUsed p c < 2) →
    exec (.stagingGrant n) s = .next (s.modSower fun w => { w with
      xfers := w.xfers.map fun y => if y.id = n then { y with granted := true } else y })) ∧
  (∀ (s s1 : State) (out : Nat) (x : Xfer) (c : Comm),
    (∀ y ∈ s.sower.xfers, ∀ d, s.sower.xferComm y = some d → s.chunkDue y d = true → y.granted = true →
      s.pathTo d (y.target d) ≠ .lost out) →
    s.arbitrate out (s.readyChunks out) = some (x, c) → s.moveOut x c out = .ok s1 →
    exec (.chunkStart out) s = .next (s1.served ((s.readyChunks out).map (·.1.id)) out x c)) ∧
  (∀ (s : State) (out : Nat) (x : Xfer) (c : Comm) (as : List Acc),
    (∀ y ∈ s.sower.xfers, ∀ d, s.sower.xferComm y = some d → s.chunkDue y d = true → y.granted = true →
      s.pathTo d (y.target d) ≠ .lost out) →
    s.arbitrate out (s.readyChunks out) = some (x, c) → x.op = .send →
    let n := min x.chunk (x.len - x.out)
    s.sowerAccs (s.commLaunch c) .sread (x.src + BitVec.ofNat 64 x.out) n = .ok as → s.engineDemand .ofHeadland as .read = none →
    let ks := as.flatMap (·.keys)
    exec (.chunkStart out) s = .next ((((((s.engineArrive .ofHeadland as .read).modSower fun w => w.setXfer { x with
        out := x.out + n, outDone := decide (x.len ≤ x.out + n), granted := false, passed := 0 }).sendTo c x x.peer out
          (.chunk { total := x.len, off := x.out, data := s.bytesAt ks, bad := ks.map fun k => s.poison.contains (k / 32), rank := c.rank })).raiseChunk x c).served
      ((s.readyChunks out).map (·.1.id)) out x c))) ∧
  (∀ (s : State) (out : Nat), s.sower.xfers = [] → exec (.chunkStart out) s = .next s) ∧
  (∀ (s : State) (cm src : Nat) (c : Comm) (f : SFlight) (m : ChunkMsg), s.sower.comms[cm]? = some c → c.nextFlight src = some f →
    f.msg = .chunk m → exec (.chunkArrival cm src none) s = .next ((s.modSower fun w => w.modComm c.serial fun c =>
      { c with flight := c.flight.erase f, staged := c.staged ++ [(src, m)] }).drainComm c src)) ∧
  (∀ (s s1 : State) (cm src : Nat) (c : Comm) (f : SFlight) (m : PutMsg), s.sower.comms[cm]? = some c → c.nextFlight src = some f →
    f.msg = .put m →
    s.performPut c src (((s.sower.xfers.find? fun x => x.id == f.xfer).map (·.handle)).getD 0) m = .ok s1 →
    exec (.putArrival cm src none) s = .next
      (((s1.modSower fun w => w.modComm c.serial fun c => { c with flight := c.flight.erase f }).putDone f.xfer m.data.length
        m.last).abandon)) ∧
  (∀ (s : State) (cm src : Nat) (c : Comm) (f : SFlight) (m : PutMsg) (as : List Acc), s.sower.comms[cm]? = some c →
    c.nextFlight src = some f → f.msg = .put m → m.atomic = false → (m.last = false ∨ m.pctr = none) →
    s.sowerAccs (s.commLaunch c) .swrite m.dst m.data.length = .ok as → s.engineDemand .ofHeadland as .store = none →
    let r := (s.engineArrive .ofHeadland as .store).partWrite ((assocGet c.covered src).getD []) (as.flatMap (·.keys)) m.data m.bad
    exec (.putArrival cm src none) s = .next (((((r.1.modSower fun w => w.modComm c.serial fun c =>
      { c with covered := if m.last ∨ r.2.isEmpty then assocDel c.covered src else assocSet c.covered src r.2 }).modSower fun w =>
        w.modComm c.serial fun c => { c with flight := c.flight.erase f }).putDone f.xfer m.data.length m.last).abandon))) ∧
  (∀ (s : State) (cm src : Nat) (c : Comm) (m : ChunkMsg), s.sower.comms[cm]? = some c → c.nextFlight src = none →
    c.inside src = false → src < c.n → m.data.length ≤ m.total - m.off → s.sower.hasSlot c src = true →
    (m.dest = none → c.inTurn src m.seq = .eq → exec (.chunkArrival cm src (some m)) s = .next ((s.modSower fun w =>
      (w.hear c src).modComm c.serial fun c => { c with staged := c.staged ++ [(src, m)] }).drainComm c src)) ∧
    (m.dest = none → c.inTurn src m.seq = .gt → exec (.chunkArrival cm src (some m)) s = .next (s.comeAgain.drainComm c src)) ∧
    ∀ d, m.dest = some d → d ≠ c.rank → c.active = true →
      exec (.chunkArrival cm src (some m)) s = .next ((s.startXfer 16384
        { id := 0, handle := 0, op := .relay, peer := d, len := m.data.length, chunk := m.data.length,
          fwd := some { serial := c.serial, src, dst := d, msg := .chunk { m with dest := none } } }).drainComm c src)) ∧
  (∀ (s : State) (cm src : Nat) (c : Comm) (m : PutMsg), s.sower.comms[cm]? = some c → c.nextFlight src = none →
    c.inside src = false → src < c.n → m.dest = none →
    (c.inTurn src m.seq = .gt → exec (.putArrival cm src (some m)) s = .next s.comeAgain) ∧
    (c.inTurn src m.seq = .lt → exec (.putArrival cm src (some m)) s = .next s) ∧
    (c.inTurn src m.seq = .eq →
      (∀ s1, s.performPut c src 0 m = .ok s1 → exec (.putArrival cm src (some m)) s = .next (s1.modSower fun w => w.hear c src)) ∧
      (∀ s1, s.performPut c src 0 m = .error (.wait s1) → exec (.putArrival cm src (some m)) s = .next s1.comeAgain))) ∧
  (∀ (s : State) (c : Comm) (src : Nat), (s.sower.comms.find? fun d => d.serial == c.serial) = some c →
    (c.inTurn src ((assocGet c.heard src).getD 0) = .eq) ∧ ∀ d, ((s.sower.hear c src).comms.find? fun d => d.serial == c.serial) = some d →
      assocGet d.heard src = some ((assocGet c.heard src).getD 0 + 1)) ∧
  (∀ (s : State) (cm src dst d : Nat) (c : Comm) (f : SFlight) (m msg : ChunkMsg), s.sower.comms[cm]? = some c →
    c.nextFlight src = some f → f.msg = .block d m → d ≠ c.rank →
    let s' := s.modSower fun w => w.modComm c.serial fun c => { c with flight := c.flight.erase f }
    (c.active = true → exec (.a2aForward cm src dst msg) s = .next (s'.startXfer 16384
      { id := 0, handle := 0, op := .relay, peer := d, len := m.data.length, chunk := m.data.length,
        fwd := some { serial := c.serial, src, dst := d, msg := .block d m } })) ∧
    (c.active = false → exec (.a2aForward cm src dst msg) s = .next s'.abandon)) ∧
  (∀ (s : State) (h : Fin 16384) (e : Entry) (x : Xfer) (c : Comm), s.sower.entry h.val = some e →
    s.sower.xfers.find? (fun x => x.handle == h.val) = some x → s.sower.entryComm e = some c → e.phase = .running → e.prog = none →
    c.active = true → s.xferDone x = true → s.sower.putsOut x = false →
    exec (.sowerEntryComplete h) s = .next (s.finishEntry e c)) ∧
  (∀ (s : State) (e : Entry) (c : Comm), ∀ x ∈ (s.finishEntry e c).sower.entries, x.handle ≠ e.handle) ∧
  (∀ (s : State) (cm : Nat) (c : Comm) (f : Nat × Nat × Word), s.sower.comms[cm]? = some c → c.fault = some f →
    ∃ t, exec (.communicatorFail cm) s = .next t ∧ t.mem = s.mem ∧
      (∃ d : Comm, t.sower.comms[cm]? = some d ∧ d.failed = some f ∧ d.fault = none) ∧
      (∀ (n : Nat) (d : Comm), s.sower.comms[n]? = some d → d.gid = c.gid → d.n = c.n → d.serial ≠ c.serial → d.failed = none →
        ∃ d' : Comm, t.sower.comms[n]? = some d' ∧ d'.notice = some f.1) ∧
      ∀ e ∈ t.sower.entries, e.part = c.part → e.launch = c.launch → e.rec_.comm = c.comm → e.phase ≠ .unfired) ∧
  (∀ (s : State) (cm k : Nat) (c : Comm) (cause : Byte), s.sower.comms[cm]? = some c → c.notice = some k →
    (Cause.ofCode k).isSome → c.failed = none →
    ∃ t, exec (.failureNotice cm cause) s = .next t ∧ t.mem = s.mem ∧ ∃ d : Comm, t.sower.comms[cm]? = some d ∧ d.failed = some (k, 0, 0)) ∧
  (∀ (s : State) (p : CommSpec) (l : Launch), s.launchAt p.launch = some l →
    (s.commOk l p = true → ∃ t c, exec (.communicatorCreate p) s = .next t ∧ t.sower.comms = s.sower.comms ++ [c] ∧ c.comm = p.comm ∧
      c.n = p.n ∧ c.rank = p.rank ∧ c.vc = p.vc ∧ c.cbase = p.cbase ∧ c.ccnt = p.ccnt ∧ c.routes = p.routes ∧ c.launch = l.id ∧
      t.serial = s.serial + 1) ∧
    (s.commOk l p = false → exec (.communicatorCreate p) s = .next s)) ∧
  (∀ (s : State) (p : Fin 16) (lost : List (Nat × Nat)), ∃ t u, exec (.ongeozPortDown (.port p lost)) s = .next t ∧
    exec (.ongeozPortUp (.port p)) s = .next u ∧ t.portUp p.val = false ∧ u.portUp p.val = true ∧
    (∀ q, q ≠ p.val → t.portUp q = s.portUp q ∧ u.portUp q = s.portUp q)) ∧
  (∀ (s : State) (a b : Fin 8), ∃ t u, exec (.ongeozPortDown (.between a b)) s = .next t ∧ exec (.ongeozPortUp (.between a b)) s = .next u ∧
    t.farUp a.val b.val = false ∧ t.farUp b.val a.val = false ∧ u.farUp a.val b.val = true ∧ t.mem = s.mem ∧ u.mem = s.mem) ∧
  (∀ (s : State) (cm h : Nat) (c : Comm), s.sower.comms[cm]? = some c →
    exec (.ongeozPortDown (.chunk cm h)) s = .next (s.commFault c .poison h 0))

namespace Sys2Proof.Stmt

open Sys2Proof.Machine

/-- The events in which a request of a cluster reaches a line's home. -/
inductive HomeEvent (d : DieId) (clu : Fin 16) (pa : Nat) (mode : Fin 3) : Instr → Req → Prop
  | read : HomeEvent d clu pa mode (.homeRead d clu pa mode) .read
  | store : HomeEvent d clu pa mode (.homeStore d clu pa mode) .store
  | atomic : HomeEvent d clu pa mode (.homeAtomic d clu pa mode) .perform
  | badd (wide) : HomeEvent d clu pa mode (.homeReduction d clu pa mode true wide) (.red .badd)
  | add64 : HomeEvent d clu pa mode (.homeReduction d clu pa mode false true) (.red .add64)
  | add32 : HomeEvent d clu pa mode (.homeReduction d clu pa mode false false) (.red .add32)

/-- What the host grants a CXL.cache request (R399). -/
inductive Grants : HostGrant → HostSt → Prop
  | shared (data) : Grants (.shared data) .s
  | exclusive (data) : Grants (.exclusive data) .e
  | owned (data) : Grants (.owned data) .m

end Sys2Proof.Stmt

open Sys2Proof Sys2Proof.Machine Sys2Proof.Stmt in
/-- At the home of a line not in Q: a read from I by a home-die cluster leaves it in E there; a store by one leaves it
in M there; a store from elsewhere, and an atomic, leave it in I; a reduction leaves it in C; a host write leaves it
in HO. A cluster's request to a line of its partition that needs nothing first moves the directories so and changes
no byte. A merge answers, an evicted cluster no longer holds the line, page counters clear, a die's oldest token
returns, a snoop's answer ends it, a host read gives the bytes, a host write stores them, or both reach a queue's
page, a host snoop takes the line back once no granted write is pending, a grant installs it, a shootdown writes the
runtime's granted entries, and a port goes down or comes up. Where memory is read back, it is canonical before. The
model's choices: log entries 2 (waiters), 13, 26 (io reads), 46 (home steps move directories), 47 (ports, accepted),
78 (replicas), 98 (comes again). (11 Memory model and coherence: the directory, tiles, replicas, commutative state,
releases and acquires, host coherence; 17 Host interface: CXL; 15 Translation, protection and tags: shootdown) -/
def Obligations.HomeEvents : Prop :=
  (∀ (d : Machine.Dir) (home n : Nat) (f : From) (repl : Bool), (d.line n).st ≠ .q →
    (f.die = home → f.copies = true → (d.line n).st = .i → (d.lineRequest home f .read repl n).line n = { st := .e, clusters := [f.cluster] }) ∧
    (f.die = home → (d.lineRequest home f .store repl n).line n = { st := .m, clusters := [f.cluster] }) ∧
    (f.die ≠ home → (d.lineRequest home f .store repl n).line n = {}) ∧
    (d.lineRequest home f .perform repl n).line n = {} ∧
    (∀ k, (d.lineRequest home f (.red k) repl n).line n = if (d.line n).st = .c k then d.line n else { st := .c k }) ∧
    (d.lineRequest home f .hostWrite repl n).line n = { st := .ho, host := true }) ∧
  (∀ (d : Machine.Dir) (home n : Nat) (f : From) (r : Req) (repl : Bool), (d.line n).st = .q → d.lineRequest home f r repl n = d) ∧
  (∀ (s : State) (d : DieId) (clu : Fin 16) (pa : Nat) (mode : Fin 3) (i : Instr) (r : Req), HomeEvent d clu pa mode i r →
    (s.ofPartition d pa = false → exec i s = .next s) ∧
    (s.ofPartition d pa = true → s.demand (.ofCluster d clu) (lineAcc pa mode.val) r = none → (s.dir.line (pa / 64)).st ≠ .q →
      ∃ t, exec i s = .next t ∧ t.mem = s.mem ∧ t.cores = s.cores ∧
        t.dir = (s.toHome (.ofCluster d clu) r mode.val (linesOf (range (pa / 64 * 64) 64))).dir)) ∧
  (∀ (s : State) (pa : Nat), exec (.mergeRequest pa) s = .next { s with dir := s.dir.mergeRequest (pa / 64) } ∧
    exec (.mergeResponse pa) s = .next { s with dir := s.dir.mergeResponse (pa / 64) } ∧
    ((s.dir.line (pa / 64)).inC = true → (pa / 64) ∈ (s.dir.mergeRequest (pa / 64)).merging) ∧
    ((s.dir.line (pa / 64)).inC = true → (pa / 64) ∈ s.dir.merging → (∀ p ∈ s.dir.partials, p.line ≠ pa / 64) →
      (s.dir.mergeResponse (pa / 64)).line (pa / 64) = {})) ∧
  (∀ (s : State) (d : DieId) (clu : Fin 16) (pa : Nat), ∃ t, exec (.partialDrain d clu pa) s = .next t ∧ t.mem = s.mem ∧
    ∀ p, s.dir.partials = [p] → p.line = pa / 64 → p.holder = .cluster (d.val * 16 + clu.val) → homeDie s.pm pa = d.val →
      t.dir.partials = []) ∧
  (∀ (s : State) (d : DieId) (clu : Fin 16) (pa : Nat), pa < hostBase → s.dir.tileOf (pa / 64) = none →
    ∃ t, exec (.cacheEviction d clu pa) s = .next t ∧ t.mem = s.mem ∧ d.val * 16 + clu.val ∉ (t.dir.line (pa / 64)).clusters) ∧
  (∀ (s : State) (d : DieId), ∃ t, exec (.pageCounterClear d) s = .next t ∧ t.mem = s.mem ∧
    ∀ p ∈ t.dir.pages, homeDie s.pm (p.1 * 65536) = d.val → p.2.rr = 0 ∧ p.2.wr = 0) ∧
  (∀ (s : State) (d : DieId) (r : Releaser) (more : List Releaser) (k : Nat × Nat) (rest : List (Nat × Nat)), s.linkHeld d.val = false →
    ((s.die d.val).relTokens = r :: more →
      exec (.releaseTokenAck d) s = .next ((s.modDie d.val fun x => { x with relTokens := more }).acknowledged r)) ∧
    ((s.die d.val).acqTokens = k :: rest → exec (.acquireTokenReturn d) s = .next ((s.modDie d.val fun x => { x with acqTokens := rest }).modCtx
      (coreOf k.1) (Fin.ofNat 11 k.2) fun c => { c with acqWait := false }))) ∧
  (∀ (s : State) (c : CoreId) (k : SlotId), ((s.acknowledged (.ctx c.val k.val)).ctx c k).relWait = (s.ctx c k).relWait - 1) ∧
  (∀ (s : State) (d : DieId), ((s.die d.val).relTokens = [] → exec (.releaseTokenAck d) s = .next s) ∧
    ((s.die d.val).acqTokens = [] → exec (.acquireTokenReturn d) s = .next s)) ∧
  (∀ (s : State) (pa : Nat) (p : Snoop) (data : Option (List Byte)),
    (s.dir.snoops.find? (fun p => p.line == pa / 64) = some p →
      ∃ t, exec (.bisnpResponse pa data) s = .next t ∧ t.dir.snoops = s.dir.snoops.erase p ∧
        (p.inval = true → (t.dir.line (pa / 64)).host = false) ∧
        ((s.dir.line (pa / 64)).st ≠ .ho → t.mem = s.mem) ∧
        (∀ bs, data = some bs → bs.length = 64 → (s.dir.line (pa / 64)).st = .ho → s.inv = true → pa / 64 * 64 < 768 * 2 ^ 30 →
          t.bytesAt (range (pa / 64 * 64) 64) = bs)) ∧
    (s.dir.snoops.find? (fun p => p.line == pa / 64) = none → exec (.bisnpResponse pa data) s = .next s)) ∧
  (∀ (s : State) (p pa n k : Nat), s.hdmKey p pa n = some k →
    ∃ t, exec (.hostRead p pa n) s = .next t ∧ t.mem = s.mem ∧
      t.out = .hostData pa (s.bytesAt (range k n)) (s.poisoned (range k n) || s.quarantined (range k n)) :: s.out) ∧
  (∀ (s : State) (p pa k : Nat) (data : List Byte) (poison : Bool), s.hdmKey p pa data.length = some k →
    (s.hostHeld p pa data.length = true → exec (.hostWrite p pa data poison) s = .next s.comeAgain) ∧
    (s.hostHeld p pa data.length = false → s.quarantined (range (k / 64 * 64) 64) = true →
      exec (.hostWrite p pa data poison) s = .next { s with out := .hostData pa [] true :: s.out })) ∧
  (∀ (s : State) (p pa k : Nat) (data : List Byte) (poison : Bool), s.hdmKey p pa data.length = some k →
    s.hostHeld p pa data.length = false → s.inv = true → s.quarantined (range (k / 64 * 64) 64) = false → s.quarantined (range k data.length) = false →
    ∃ t, exec (.hostWrite p pa data poison) s = .next t ∧ t.bytesAt (range k data.length) = data) ∧
  (∀ (s : State) (p q off n : Nat) (data : List Byte) (poison : Bool) (mode : Mode), p < partCount s.pm → s.anyPort true = true →
    off < 4096 →
    exec (.hostRead p (2 ^ 52 + (q * 4096 + off)) n) s = .next { s with
      out := .hostData (2 ^ 52 + (q * 4096 + off)) (leBytes n (s.pageRead p q off n).toNat) false :: s.out } ∧
    exec (.hostWrite p (2 ^ 52 + (q * 4096 + off)) data poison) s =
      exec (.registerWrite (.queuePage p q off data.length) mode (BitVec.ofNat 64 (leNat data))) s ∧
    (∀ k, packageQueue s.pm p q = some k → s.pageRead p q 0x28 8 = (s.queue k).sqHead.setWidth 64 ∧
      s.pageRead p q 0x30 4 = (s.queue k).cqTail.setWidth 64)) ∧
  (∀ (s : State) (p pa n : Nat) (data : List Byte) (poison : Bool), partCount s.pm ≤ p →
    exec (.hostRead p pa n) s = .next s ∧ exec (.hostWrite p pa data poison) s = .next s) ∧
  (∀ (s : State) (pa : Nat), s.anyPort false = true → s.dir.writePending (pa / 64) = false →
    ∃ t u v, exec (.snpinv pa) s = .next t ∧ exec (.snpdata pa) s = .next u ∧ exec (.snpcur pa) s = .next v ∧
    assocGet t.dir.hosts (pa / 64) = none ∧
    (assocGet u.dir.hosts (pa / 64) = none ∨ assocGet u.dir.hosts (pa / 64) = some .s) ∧
    v.dir.hosts = s.dir.hosts ∧ v.dir.lines = s.dir.lines ∧ t.mem = s.mem ∧ u.mem = s.mem ∧ v.mem = s.mem) ∧
  (∀ (s : State) (pa : Nat), s.anyPort false = true → s.dir.writePending (pa / 64) = true →
    ∃ t u v, exec (.snpinv pa) s = .next t ∧ exec (.snpdata pa) s = .next u ∧ exec (.snpcur pa) s = .next v ∧
    t.dir.hosts = s.dir.hosts ∧ u.dir.hosts = s.dir.hosts ∧ v.dir.hosts = s.dir.hosts ∧ (pa / 64, HostSnoop.inv) ∈ t.dir.hostSnoops ∧
    (pa / 64, HostSnoop.data) ∈ u.dir.hostSnoops ∧ (pa / 64, HostSnoop.cur) ∈ v.dir.hostSnoops) ∧
  (∀ (s : State) (pa : Nat), s.anyPort false = false → exec (.snpinv pa) s = .next s ∧ exec (.snpdata pa) s = .next s ∧
    exec (.snpcur pa) s = .next s) ∧
  (∀ (s : State) (pa : Nat) (a : HostGrant) (st : HostSt) (poison : Bool), Grants a st →
    ((∃ p ∈ s.dir.wants, p.line = pa / 64 ∧ p.io = false ∧ p.whole = false) → ∃ t, exec (.cxlCacheResponse pa a poison) s = .next t ∧
      assocGet t.dir.hosts (pa / 64) = some st ∧ (st ≠ .s → ∀ p ∈ t.dir.wants, p.line = pa / 64 → p.io = true ∨ p.whole = true) ∧
      (st ≠ .s → (∃ p ∈ s.dir.wants, p.line = pa / 64 ∧ p.io = false ∧ p.whole = false ∧ p.own = true) →
        t.dir.writePending (pa / 64) = true) ∧
      ((assocGet s.dir.hosts (pa / 64)).isSome → t.mem = s.mem)) ∧
    ((∀ p ∈ s.dir.wants, p.line = pa / 64 → p.io = true ∨ p.whole = true) → exec (.cxlCacheResponse pa a poison) s = .next s)) ∧
  (∀ (s : State) (pa : Nat) (poison : Bool), ∃ t, exec (.cxlCacheResponse pa .accepted poison) s = .next t ∧ t.mem = s.mem ∧
    t.dir.hosts = s.dir.hosts ∧ (∀ p ∈ t.dir.wants, p.line = pa / 64 → p.whole = false) ∧
    ((∃ p ∈ s.dir.wants, p.line = pa / 64 ∧ p.whole = true ∧ p.own = true) → t.dir.grantedWhole (pa / 64) = true)) ∧
  (∀ (s : State) (pa : Nat) (poison : Bool), exec (.cxlCacheResponse pa (.io []) poison) s =
    .next (s.flushed (s.hostPort true (pa / 64 * 64)))) ∧
  (∀ (s : State) (n c k : Nat), s.dir.flushes.find? (fun p => p.2 == n) = some (.ctx c k, n) →
    (s.flushed n).dir.flushes = s.dir.flushes.erase (.ctx c k, n) ∧
    ((s.flushed n).ctx (coreOf c) (Fin.ofNat 11 k)).ncWait = (s.ctx (coreOf c) (Fin.ofNat 11 k)).ncWait - 1) ∧
  (∀ (s : State) (pa : Nat) (data : List Byte) (poison : Bool), data ≠ [] →
    ((∃ p ∈ s.dir.wants, p.line = pa / 64 ∧ p.io = true) → ∃ t, exec (.cxlCacheResponse pa (.io data) poison) s = .next t ∧
      pa / 64 ∈ t.dir.answered ∧ ∀ p ∈ t.dir.wants, p.line = pa / 64 → p.io = false) ∧
    ((∀ p ∈ s.dir.wants, p.line = pa / 64 → p.io = false) → exec (.cxlCacheResponse pa (.io data) poison) s = .next s)) ∧
  (∀ (s : State) (p space a : Nat) (v : Word), s.inv = true → p < partCount s.pm → a + 8 ≤ partSize s.pm →
    s.spaceBusy p space = false → s.scheduling = true → s.entryGranted p space [] a = true →
    s.entriesWait p [(a, v)] = none → s.quarantined (range (devKey s.pm p a) 8) = false →
    ∃ t, exec (.shootdown p space [(a, v)]) s = .next t ∧ t.bytesAt (range (devKey s.pm p a) 8) = leBytes 8 v.toNat) ∧
  (∀ (s : State) (p space a : Nat) (v : Word),
    s.spaceBusy p space = true ∨ s.scheduling = false ∨ s.entryGranted p space [] a = false →
    exec (.shootdown p space [(a, v)]) s = .next s) ∧
  (∀ (s : State) (p : Fin 2) (slow : Bool), ∃ t u, exec (.portDown p) s = .next t ∧ exec (.hostPortUp { port := p, slow := slow }) s = .next u ∧
    t.mem = s.mem ∧ t.hostDown.contains p.val = true ∧ u.hostDown.contains p.val = false ∧ u.hostIo.contains p.val = slow ∧
    u.dir = s.dir ∧ (∀ w ∈ s.dir.wants, w.port = p.val → s.hostDown.contains p.val = false →
      2 * (w.line % 2 ^ 46) ∈ t.poison ∧ 2 * (w.line % 2 ^ 46) + 1 ∈ t.poison ∧ w ∉ t.dir.wants))

open Sys2Proof Sys2Proof.Machine Sys2Proof.Stmt in
/-- A doorbell sets the tail, or ERR when the queue would overflow; a CTL write that raises EN clears the four counters;
before bring-up has an image neither is taken; CQHEAD is set. A LAUNCH entry whose descriptor passes joins the
launches, and another is reported REFUSED with its cause; a CANCEL entry stops the launch it names. A record is
written once its ring has room. A sweep ends a live launch that is idle with as many messages received as sent twice
running, and otherwise is kept; the time limit stops it with LIMIT. A stopped launch ends once its matrix units
stand at their points, or once a save under way is complete. A granted launch is bound on the cores chosen. Pre-
emption stops the launch at once, brings its cores to their points, and then saves and frees them; resumption puts
it on its cores again. A held epilogue's packets in flight become stray writes, and the oldest one is performed.
Where memory is read back, it is canonical before. The model's choices: log entries 13, 52 to 57 (entries, checks,
registers, plans, grants, ends), 58 and 95 (held epilogues), 61 (time), 80 (tokens first), 85, 87 (roots), 88. (14
Launch, queues and scheduling: entries, descriptors, grants, sweeps, limits; 16 Traps, pre-emption and context
switch: pre-emption, resumption, stray writes; 17 Host interface: queue pages) -/
def Obligations.QueueAndLaunchEvents : Prop :=
  (∀ (s : State) (q : Nat) (tail : BitVec 32), q < 65536 → s.memActive = true → ∃ t, exec (.doorbell q tail) s = .next t ∧ t.mem = s.mem ∧
    let x := s.queue q
    t.queue q = if 2 ^ x.sqLog < (tail - x.sqHead).toNat then { x with sqTail := tail, err := true, en := false }
      else { x with sqTail := tail }) ∧
  (∀ (s : State) (q : Nat) (tail : BitVec 32) (v : Word), s.memActive = false →
    exec (.doorbell q tail) s = .next s ∧ exec (.qCtlWrite q v) s = .next s) ∧
  (∀ (s : State) (q : Nat) (v : Word), q < 65536 → s.memActive = true → ∃ t, exec (.qCtlWrite q v) s = .next t ∧ t.mem = s.mem ∧
    let x := s.queue q
    let y := t.queue q
    y.vec = wbits v 16 16 ∧ y.ien = v.getLsbD 2 ∧ y.err = (x.err && !v.getLsbD 1) ∧ y.en = (v.getLsbD 0 && !y.err) ∧
    (x.en = false → y.en = true → y.sqTail = 0 ∧ y.sqHead = 0 ∧ y.cqTail = 0 ∧ y.cqHead = 0) ∧
    (x.en = true ∨ y.en = false → y.sqTail = x.sqTail ∧ y.sqHead = x.sqHead ∧ y.cqTail = x.cqTail ∧ y.cqHead = x.cqHead)) ∧
  (∀ (s : State) (q : Nat) (head : BitVec 32), q < 65536 → ∃ t, exec (.qCqheadWrite q head) s = .next t ∧ t.mem = s.mem ∧
    t.queue q = { s.queue q with cqHead := head }) ∧
  (∀ (s s1 : State) (q root : Nat) (b : List Byte), s.firmware.stopped = false → s.readEntry q = some (.bytes s1 b) →
    field b 0 1 = 1 → zeros b 1 3 = true → zeros b 16 48 = true →
    let x := s.queue q
    let p := queuePart s.pm q
    let tag := BitVec.ofNat 32 (field b 4 4)
    (s.rootOf x.space p = none → exec (.launch q) s = .next ((s1.passEntry q).report q (refused .translation tag))) ∧
    (s.rootOf x.space p = some root →
      let id := s.nextLaunch.getD p 1
      let l : Launch := { id, part := p, queue := q, entry := x.sqHead.toNat, epoch := x.epoch, tag, space := x.space, root }
      (∀ c a, s1.checkLaunch l (BitVec.ofNat 64 (field b 8 8)) = .error (.fail c a) →
        exec (.launch q) s = .next ((s1.passEntry q).report q (refused c tag))) ∧
      (∀ s2 l', s1.checkLaunch l (BitVec.ofNat 64 (field b 8 8)) = .ok (s2, l') →
        exec (.launch q) s = .next (({ s2.passEntry q with
          launches := (s2.passEntry q).launches ++ [l']
          nextLaunch := (s2.passEntry q).nextLaunch.set p (id + 1) } : State).refreshDue)))) ∧
  (∀ (s s1 : State) (q : Nat) (b : List Byte), s.firmware.stopped = false → s.readEntry q = some (.bytes s1 b) → field b 0 1 = 2 →
    ((s1.passEntry q).cancelTarget q b = none → exec (.cancel q) s = .next (s1.passEntry q)) ∧
    ∀ l, (s1.passEntry q).cancelTarget q b = some l → exec (.cancel q) s = .next ((s1.passEntry q).stopLaunch l 3)) ∧
  (∀ (s : State) (l : Launch) (status : Nat),
    (l.phase ≠ .live → s.stopLaunch l status = s.endLaunch l (l.ending.getD status)) ∧
    (l.phase = .live →
      let t := s.modLaunch l.part l.id fun x => { x with ending := some (l.ending.getD status), stopping := true, saving := l.stopping && l.saving }
      let u := l.cores.foldl (fun s c => s.settleUnit (coreOf c) l) t
      (l.stopping = true → s.stopLaunch l status = t) ∧
      (l.stopping = false → (∃ c ∈ l.cores, (u.core (coreOf c)).harrow.settled = false) → s.stopLaunch l status = u) ∧
      (l.stopping = false → (∀ c ∈ l.cores, (u.core (coreOf c)).harrow.settled = true) → ∀ l1, u.findLaunch l.part l.id = some l1 →
        s.stopLaunch l status = u.endLaunch l1 (l.ending.getD status)))) ∧
  (∀ (s : State) (q : Nat), (s.queue q).en = false ∨ (s.queue q).sqHead = (s.queue q).sqTail →
    exec (.launch q) s = .next s ∧ exec (.cancel q) s = .next s) ∧
  (∀ (s : State) (q : Nat) (r : CqRec) (rest : List CqRec) (a : Acc), q < 65536 → s.inv = true → s.firmware.stopped = false →
    let x := s.queue q
    x.records = r :: rest →
    ((x.cqTail - x.cqHead).toNat = 2 ^ x.cqLog → exec (.cqRecordWrite q) s = .next s) ∧
    ((x.cqTail - x.cqHead).toNat ≠ 2 ^ x.cqLog → s.slotAcc q x.cqBase (32 * (x.cqTail.toNat % 2 ^ x.cqLog)) 32 = some a →
      s.engineDemand .ofHeadland [a] .store = none → s.quarantined a.keys = false →
      ∃ t, exec (.cqRecordWrite q) s = .next t ∧ t.bytesAt a.keys = r.bytes s.stime ∧
        t.queue q = { x with records := rest, cqTail := x.cqTail + 1 } ∧
        t.out = if x.ien = true ∧ x.vec < 2048 then .msix q x.vec :: s.out else s.out)) ∧
  (∀ (s : State) (k : Nat) (l : Launch), s.launchAt k = some l →
    (l.phase = .live → l.stopping = false → exec (.launchSweep k) s = .next (let w := s.sweepOf l
      if w.idle = true ∧ w.sent = w.rcvd ∧ l.lastSweep = some w then s.endLaunch l 0
      else s.modLaunch l.part l.id fun l => { l with lastSweep := some w })) ∧
    (l.phase ≠ .live ∨ l.stopping = true → exec (.launchSweep k) s = .next s) ∧
    (∀ t, l.boundAt = some t → exec (.tlimitExpiry k) s = .next
      (if l.desc.tlimit ≠ 0 ∧ t + l.desc.tlimit * 16000 ≤ s.stime then s.stopLaunch l 2 else s))) ∧
  (∀ (s : State) (l : Launch) (status : Nat), ∀ x ∈ (s.endLaunch l status).launches, ¬ (x.id = l.id ∧ x.part = l.part)) ∧
  (∀ (s : State) (k : Nat) (l : Launch) (plan : BindPlan), s.launchAt k = some l →
    (l.phase ≠ .due ∨ s.granted l = false → exec (.launchGrant k plan) s = .next s) ∧
    ∀ cores : List Nat, l.phase = .due → s.granted l = true →
      chooseCores (s.openCores l.part 0) (coreReq l.desc.creq) (match coreReq l.desc.creq with
        | .shape _ _ d x y => if l.desc.place then (d, x, y) else (plan.die, plan.x0, plan.y0)
        | .count _ => (0, 0, 0)) = some cores → exec (.launchGrant k plan) s = .next (s.bind l cores plan)) ∧
  (∀ (s : State) (l : Launch) (c : Nat), let t := s.startControl l c
    (t.ctx (coreOf c) 0).live = true ∧ (t.ctx (coreOf c) 0).pc = l.entryVa ∧ (t.ctx (coreOf c) 0).g.get 0 = .value l.desc.args) ∧
  (∀ (s : State) (k : Nat) (l : Launch), s.launchAt k = some l →
    (l.phase ≠ .live ∨ (s.mayPreempt l = false ∧ l.stopping = false) → exec (.preempt k) s = .next s) ∧
    (l.phase = .live → l.stopping = true → l.saving = false → exec (.preempt k) s = .next (s.endStopped l (l.ending.getD 3))) ∧
    (l.phase = .live → (l.stopping = true ∧ l.saving = true) ∨ (l.stopping = false ∧ s.mayPreempt l = true) →
      let s1 := l.cores.foldl (fun s c => s.settleCore (coreOf c)) (if l.stopping then s else s.beginStop l)
      let stand := ∀ c ∈ l.cores, (s1.core (coreOf c)).settled = true ∧ (s1.die (c / 128)).seq = none
      (¬ stand → exec (.preempt k) s = .next s1) ∧
      ∀ l1, s1.launchAt k = some l1 → stand →
        (∀ s2, s1.saveWaits l1 l1.cores.length .store = some s2 → exec (.preempt k) s = .next s2) ∧
        (s1.saveWaits l1 l1.cores.length .store = none → exec (.preempt k) s = .next ((s1.saveLaunch l1).endSaved l1)))) ∧
  (∀ (s : State) (l x : Launch), s.findLaunch l.part l.id = some x →
    (x.ending = none → s.endSaved l = s) ∧ ∀ status, x.ending = some status → s.endSaved l = s.endLaunch x status) ∧
  (∀ (s : State) (l : Launch), ∀ c ∈ l.cores, ((s.saveLaunch l).core (coreOf c)).launch = none ∧
    ∀ j, ((s.saveLaunch l).ctx (coreOf c) j).live = false) ∧
  (∀ (s : State) (l : Launch) (k : Nat), s.launchAt k = some l → ∃ l1, (s.beginStop l).launchAt k = some l1 ∧ l1.stopping = true) ∧
  (∀ (s : State) (k root : Nat) (l : Launch) (plan : BindPlan) (cores : List Nat) (e : Nat × Nat × List Core), s.launchAt k = some l →
    (l.phase ≠ .preempted ∨ s.granted l = false → exec (.resume k plan) s = .next s) ∧
    (l.phase = .preempted → s.granted l = true → s.ctrFree l plan.ctrBase = true → s.resumeCores l = some cores →
      s.saves.find? (fun e => e.1 == l.part && e.2.1 == l.id) = some e → (cores.map coreOf).Nodup → e.2.2.length = cores.length →
      s.rootOf l.space l.part = some root → s.entriesWait l.part plan.tables = none → s.saveWaits l cores.length .read = none →
      (∀ e ∈ plan.tables, s.entryGranted l.part l.space plan.grants e.1 = true) →
      let t0 := plan.tables.foldl (fun s e => s.writeEntry l.part e) s
      let l1 := { l with phase := .live, root := root, cores := cores, ctrAt := plan.ctrBase, boundSeq := s.serial, lastSweep := none }
      t0.rankMaps l1 = true → t0.onlyRanks l1 = true →
      ∃ t, exec (.resume k plan) s = .next t ∧ ∀ i c, cores[i]? = some c →
        (t.core (coreOf c)).launch = some l.id ∧ (t.core (coreOf c)).rank = i)) ∧
  (∀ (s : State) (c : CoreId) (l : Launch) (r : HRun),
    s.launchOf c = some l → (s.core c).harrow.epilogue = some r → l.stopping = true → r.stalled = false →
    let t := (s.landRows c r).1
    let r1 := (s.landRows c r).2
    (r1.flight ≠ [] ∨ (r1.row < field r1.cmd.record 14 2 ∧ r1.row % 16 ≠ 0 ∧ ∃ w, t.mepiData c l r1 = .error (.wait w)) →
      exec (.epilogueStallTimeout c) s = .next (t.modCore c r1.stall)) ∧
    (r1.flight = [] → r1.row % 16 = 0 → exec (.epilogueStallTimeout c) s = .next s)) ∧
  (∀ (r : HRun) (x : Core) (f : RowFlight) (rest : List RowFlight), r.flight = f :: rest →
    (r.stall x).strays = x.strays ++ r.flight.flatMap (·.packets) ∧ (r.stall x).harrow.gens = f.gens ∧
    (r.stall x).harrow.running = some { r with row := f.row, flight := [], stalled := true }) ∧
  (∀ (s : State) (c : CoreId), (s.core c).harrow.epilogue = none → exec (.epilogueStallTimeout c) s = .next s) ∧
  (∀ (s : State) (c : CoreId) (p : Stray) (rest : List Stray),
    ((s.core c).strays = [] → exec (.strayWritePerformed c) s = .next s) ∧
    ((s.core c).strays = p :: rest → s.engineDemand (From.ofEngine c) [p.acc] .store = none →
      exec (.strayWritePerformed c) s = .next (((s.engineArrive (From.ofEngine c) [p.acc] .store).engineWrite p.acc.keys p.data
        []).modCore c fun x => { x with strays := rest })))

open Sys2Proof Sys2Proof.Machine Sys2Proof.Stmt in
/-- A base or size register of a queue is written only while EN is 0; CKPT.CTL and CKPT.DST only in their modes, and
what mode S may not write is counted. A mode S or M write of TGT within 35 to 84 is queued and another sets ERR; a
PMW write is queued. A link sequence goes drain, quiesce, lock for a frequency, retrain at the narrower width,
release; a drain waits for saves on the die. A lane error takes a spare of its direction or forces a narrower width.
A read of LNK.CTL or RAS in mode S or M returns the word and clears its counts. Lost lines go to Q poisoned, each
counted at its home, lost data is poisoned, a context's lost write becomes an asynchronous trap, and a repair writes
a line and returns it to I. A link that is down ends its die's contexts. A parity error ends the context; a scrub
counts or poisons. PTP on the slave port, the rail port that is up with the best master, sets STIME once and then
its bound; holdover widens it and free running forgets it; a refresh moves STIME on and never a die's copy back.
Where memory is read back, it is canonical before. The model's choices: log entries 13, 54 (registers), 59 and 97
(links, counts), 61 (time), 99 (slave port). (18 RAS and checkpoint: poison, quarantine, error registers, link and
port failure; 19 Clocks, time and links: frequency, link sequences, STIME; 17 Host interface: queue pages) -/
def Obligations.LinkRasAndTimeEvents : Prop :=
  (∀ (s : State) (q : Nat) (mode : Mode) (v : Word), q < 65536 →
    (∃ t u w, exec (.registerWrite (.sqBase q) mode v) s = .next t ∧ exec (.registerWrite (.cqBase q) mode v) s = .next u ∧
      exec (.registerWrite (.qSize q) mode v) s = .next w ∧
      ((s.queue q).en = true → t.queue q = s.queue q ∧ u.queue q = s.queue q ∧ w.queue q = s.queue q) ∧
      ((s.queue q).en = false → t.queue q = { s.queue q with sqBase := v &&& 0x800FFFFFFFFFFFC0 } ∧
        u.queue q = { s.queue q with cqBase := v &&& 0x800FFFFFFFFFFFC0 } ∧
        w.queue q = { s.queue q with cqLog := max 4 (wbits v 8 4), sqLog := max 4 (wbits v 0 4) })) ∧
    exec (.registerWrite (.qSqHead q) mode v) s = .next s ∧ exec (.registerWrite (.qCqTail q) mode v) s = .next s) ∧
  (∀ (s : State) (p q off n k : Nat) (mode : Mode) (v : Word),
    (packageQueue s.pm p q = none ∨ pageAccess off n = false → exec (.registerWrite (.queuePage p q off n) mode v) s = .next s) ∧
    (packageQueue s.pm p q = some k →
      exec (.registerWrite (.queuePage p q 0x00 8) mode v) s = exec (.registerWrite (.sqBase k) mode v) s ∧
      exec (.registerWrite (.queuePage p q 0x18 8) mode v) s = exec (.qCtlWrite k v) s ∧
      exec (.registerWrite (.queuePage p q 0x20 8) mode v) s = exec (.doorbell k (v.setWidth 32)) s ∧
      exec (.registerWrite (.queuePage p q 0x38 8) mode v) s = exec (.qCqheadWrite k (v.setWidth 32)) s)) ∧
  (∀ (s : State) (mode : Mode) (v : Word) (d : DieId) (a : Nat), exec (.registerWrite (.ras d) mode v) s = .next s ∧
    exec (.registerWrite (.other a) mode v) s = .next s ∧
    (∀ r, r = DevReg.isolation ∨ r = .ideKey ∨ r = .repairTable → exec (.registerWrite r mode v) s = .next (if mode = .s
      then { s with firmware := { s.firmware with refused := s.firmware.refused + 1 } } else s)) ∧
    (mode = .u ∨ mode = .h → exec (.registerWrite .ckptCtl mode v) s = .next s ∧ exec (.registerWrite .ckptDst mode v) s = .next s) ∧
    (mode = .m → exec (.registerWrite .ckptDst mode v) s = .next { s with ckpt := { s.ckpt with dst := v &&& 0xFFFFFFFFFFFFF000 } }) ∧
    (mode = .s → exec (.registerWrite .ckptDst mode v) s =
      .next { s with firmware := { s.firmware with refused := s.firmware.refused + 1 } })) ∧
  (∀ (s : State) (d : DieId) (mode : Mode) (v : Word),
    (mode = .u ∨ mode = .h → exec (.clkFreqWrite d mode v) s = .next s ∧ exec (.lnkCtlWrite d mode v) s = .next s) ∧
    (mode = .s ∨ mode = .m → ∃ t u, exec (.clkFreqWrite d mode v) s = .next t ∧ exec (.lnkCtlWrite d mode v) s = .next u ∧
      (35 ≤ wbits v 0 8 → wbits v 0 8 ≤ 84 → (t.die d.val).tgt = wbits v 0 8 ∧
        (t.die d.val).freqDue = if wbits v 0 8 = (s.die d.val).cur then none else some (wbits v 0 8)) ∧
      (wbits v 0 8 < 35 ∨ 84 < wbits v 0 8 → (t.die d.val).freqErr = true ∧ (t.die d.val).tgt = (s.die d.val).tgt) ∧
      (wbits v 1 2 = 3 → u.die d.val = s.die d.val) ∧ (wbits v 1 2 ≠ 3 → (u.die d.val).pmw = wbits v 1 2))) ∧
  (∀ (s : State) (d : DieId), let x := s.die d.val
    (∀ mode, mode = .s ∨ mode = .m →
      exec (.lnkCtlRead { die := d, mode := mode }) s = .next { s.modDie d.val (fun x => { x with crcErr := 0 }) with
        out := .register (BitVec.ofNat 64 x.linkWord) :: s.out } ∧
      exec (.rasRead { die := d, mode := mode }) s = .next { s.modDie d.val (fun x => { x with ue := 0, ce := 0 }) with
        out := .register (BitVec.ofNat 64 x.rasWord) :: s.out }) ∧
    (∀ mode, mode = .u ∨ mode = .h → exec (.lnkCtlRead { die := d, mode := mode }) s = .next { s with out := .register 0 :: s.out } ∧
      exec (.rasRead { die := d, mode := mode }) s = .next { s with out := .register 0 :: s.out }) ∧
    (s.savesOn d = false → exec (.linkDrain d) s = .next (s.modDie d.val DieState.drain)) ∧
    (s.savesOn d = true → exec (.linkDrain d) s = .next s) ∧ exec (.linkQuiesce d) s = .next (s.modDie d.val DieState.quiesce) ∧
    exec (.linkLock d) s = .next (s.modDie d.val DieState.lock) ∧ exec (.linkRetrain d) s = .next (s.modDie d.val DieState.retrain) ∧
    exec (.linkRelease d) s = .next (s.modDie d.val DieState.release) ∧ 
    ∀ out, exec (.laneError { die := d, out := out }) s = .next (s.modDie d.val fun x => x.laneError out)) ∧
  (∀ (x : DieState) (f : Option Nat) (t : Nat),
    (x.seq = none → x.dead = false → x.forcedDue = false → x.freqDue = some t → x.drain.seq = some { step := .drain, freq := some t }) ∧
    (x.seq = some { step := .drain, freq := f } → x.relTokens = [] → x.acqTokens = [] →
      x.quiesce.seq = some { step := .quiesce, freq := f }) ∧
    (x.seq = some { step := .quiesce, freq := some t } → x.lock.seq = some { step := .lock, freq := some t } ∧ x.lock.cur = t) ∧
    (x.seq = some { step := .lock, freq := some t } ∨ x.seq = some { step := .quiesce, freq := none } →
      x.retrain.width = max x.forced x.pmw ∧ x.retrain.seq.map (·.step) = some .retrain) ∧
    (x.seq = some { step := .retrain, freq := f } → x.release = { x with seq := none }) ∧
    (0 < x.spares → x.laneError true = { x with spares := x.spares - 1 }) ∧
    (0 < x.sparesIn → x.laneError false = { x with sparesIn := x.sparesIn - 1 }) ∧
    ∀ out, (if out then x.spares else x.sparesIn) = 0 → x.forced < 2 →
      x.laneError out = { x with forced := x.forced + 1, forcedDue := true }) ∧
  (∀ (s : State) (d : DieId) (n : Nat), n * 64 < 768 * 2 ^ 30 → s.dir.tileOf n = none →
    ∃ t, exec (.uncorrectableFlit d { lines := [n * 64] } []) s = .next t ∧ t.mem = s.mem ∧ (t.dir.line n).st = .q ∧ 2 * n ∈ t.poison ∧
      2 * n + 1 ∈ t.poison ∧ (t.die d.val).errKind = 1 ∧ (t.die d.val).crcErr = min ((s.die d.val).crcErr + 1) 65535 ∧
      (s.outstandingOn d.val = [] → (s.dir.line n).st ≠ .q → ∀ h : DieId, homeDie s.pm (n * 64) = h.val →
        (t.die h.val).ue = min ((s.die h.val).ue + 1 + if h = d then 1 else 0) 65535)) ∧
  (∀ (s : State) (d : DieId) (writers : List Writer) (n r : Nat) (gs : List Nat),
    (∃ t, exec (.uncorrectableFlit d { control := false, retried := r } writers) s = .next t ∧ t.mem = s.mem ∧ t.dir = s.dir ∧
      (t.die d.val).crcErr = min ((s.die d.val).crcErr + r) 65535 ∧ (t.die d.val).ue = (s.die d.val).ue) ∧
    ∃ t, exec (.uncorrectableFlit d { control := false, granules := gs ++ [n] } writers) s = .next t ∧ t.mem = s.mem ∧ t.dir = s.dir ∧
      (∀ g ∈ gs ++ [n], g ∈ t.poison) ∧ (t.die d.val).ue = min ((s.die d.val).ue + 1) 65535 ∧ (t.die d.val).errKind = 0) ∧
  (∀ (s : State) (d : DieId) (c : CoreId) (k : SlotId) (va : Word) (id rank : Nat) (gen : BitVec 16),
    ∃ t, exec (.uncorrectableFlit d {} [.ctx c k id rank gen va]) s = .next t ∧ t.mem = s.mem ∧ t.cores = s.cores ∧
      (∀ l, s.findLaunch (s.partOf c) id = some l → t.asyncs = s.asyncs ++ [⟨s.partOf c, id, rank, k, gen, .poison, 0, va⟩]) ∧
      (s.findLaunch (s.partOf c) id = none → t.asyncs = s.asyncs ∧ t.out.length = s.out.length + 1)) ∧
  (∀ (s : State) (n : Nat) (data : List Byte), n * 64 < 768 * 2 ^ 30 → data.length = 64 → s.inv = true →
    ((s.dir.line n).st ≠ .q → exec (.lineRepair (n * 64) data) s = .next s) ∧
    ((s.dir.line n).st = .q → (s.die (homeDie s.pm (n * 64))).dead = false →
      ∃ t, exec (.lineRepair (n * 64) data) s = .next t ∧ t.dir.line n = {} ∧ t.bytesAt (range (n * 64) 64) = data)) ∧
  (∀ (s : State) (d : DieId) (lines : List Nat) (writers : List Writer),
    (∃ t, exec (.uncorrectableFlit d { lines := lines } writers) s = .next t ∧ (t.die d.val).errKind = 1 ∧
      min ((s.die d.val).ue + 1) 65535 ≤ (t.die d.val).ue) ∧
    (∀ w ∈ s.dir.wants, w.core.map (· / 128) = some d.val → ∃ t, exec (.uncorrectableFlit d {} []) s = .next t ∧
      2 * (w.line % 2 ^ 46) ∈ t.poison ∧ 2 * (w.line % 2 ^ 46) + 1 ∈ t.poison ∧ w ∉ t.dir.wants) ∧
    (∀ p ∈ s.dir.snoops, homeDie s.pm (p.line * 64) = d.val → s.dir.tileOf p.line = none → p.line * 64 < 768 * 2 ^ 30 →
      ∃ t, exec (.uncorrectableFlit d {} []) s = .next t ∧ (t.dir.line p.line).st = .q) ∧
    ((s.die d.val).dead = true → exec (.linkDown d lines writers) s = .next s) ∧
    ((s.die d.val).dead = false → ∃ t, exec (.linkDown d lines writers) s = .next t ∧ (t.die d.val).dead = true ∧
      (t.die d.val).seq = none ∧ ∀ (c : CoreId) (k : SlotId), c.val / 128 = d.val → (t.ctx c k).live = false)) ∧
  (∀ (s : State) (c : CoreId) (k : SlotId),
    ((s.ctx c k).live = false → exec (.parityError c k) s = .next s) ∧
    ((s.ctx c k).live = true → ∃ t, exec (.parityError c k) s = .next t ∧ (t.ctx c k).live = false)) ∧
  (∀ (s : State) (d : DieId) (a : Nat), keyDie s.pm a = some d.val →
    exec (.patrolScrub d a .clean) s = .next s ∧
    (∃ t u, exec (.patrolScrub d a .corrected) s = .next t ∧ exec (.patrolScrub d a .uncorrectable) s = .next u ∧ t.mem = s.mem ∧
      u.mem = s.mem ∧ (t.die d.val).ce = min ((s.die d.val).ce + 1) 65535 ∧ a / 32 ∈ u.poison ∧
      (u.die d.val).ue = min ((s.die d.val).ue + 1) 65535)) ∧
  (∀ (s : State) (tai ms : Nat) (bound : BitVec 32),
    (∀ p : Fin 8, bound ≠ 0xFFFFFFFF → s.memActive = true → s.slavePort = some p.val →
      ∃ t, exec (.ptpMessage (.sync p tai) bound) s = .next t ∧ t.time.synced = true ∧ t.time.bound = bound ∧
      t.time.holdover = 0 ∧ (s.time.synced = true → t.stime = s.stime) ∧ (s.time.synced = false → t.stime = max s.stime tai)) ∧
    (∀ p : Fin 8, (exec (.ptpMessage (.sync p tai) 0xFFFFFFFF) s = .next s) ∧
      (s.memActive = false ∨ s.slavePort ≠ some p.val → exec (.ptpMessage (.sync p tai) bound) s = .next s)) ∧
    (∀ (p : Fin 8) (r : Nat), s.memActive = true → s.ongeozDown.contains p.val = false →
      ∃ t, exec (.ptpMessage (.announce p (some r)) bound) s = .next t ∧ t.railRank p.val = some r ∧ t.stime = s.stime) ∧
    (∀ p, s.slavePort = some p → p < 8 ∧ ∃ r, s.railRank p = some r ∧
      ∀ q < 8, ∀ r', s.railRank q = some r' → r ≤ r' ∧ (q < p → r < r')) ∧
    (s.slavePort = none → ∀ q < 8, s.railRank q = none) ∧
    (s.time.bound ≠ 0xFFFFFFFF → ∃ t, exec (.ptpHoldover ms) s = .next t ∧ t.stime = s.stime ∧
      t.time.bound.toNat = min (s.time.bound.toNat + 16 * ms) 0xFFFFFFFE ∧ t.time.holdover = s.time.holdover + ms) ∧
    (60000 ≤ s.time.holdover → ∃ t, exec .ptpFreeRun s = .next t ∧ t.time.bound = 0xFFFFFFFF ∧ t.stime = s.stime) ∧
    (s.time.holdover < 60000 → exec .ptpFreeRun s = .next s)) ∧
  (∀ (s : State) (dt : Nat) (skew : List Int), skew.length = 8 → (∀ k ∈ skew, k.natAbs ≤ 32) →
    ∃ t, exec (.stimeRefresh dt skew) s = .next t ∧ t.stime = s.stime + (dt - s.time.hold) ∧ t.mem = s.mem ∧
      ∀ d : DieId, (s.stime : Int) + (s.dies.get d).skew ≤ (t.stime : Int) + (t.dies.get d).skew)

open Sys2Proof Sys2Proof.Machine Sys2Proof.Stmt in
/-- GO in mode S or M starts a checkpoint of a nonempty mask of partitions that fits its buffer, and sets ERR otherwise;
the cut comes when no launch of those partitions is live, no link of theirs is held and the host holds none of their
lines; each page is streamed in turn, then the last record, and a failed write ends it with ERR. Power-good and a
mode M trap bring the device up cold, keeping the fused minimum, retired cores and host memory, with device memory
zero; an image is run and measured only when its signature over its header and parts holds and its version is not
below the minimum, and otherwise the device is in recovery. A mode S trap reloads the scheduler part from flash; in
recovery the host supplies an image. A nonce of 32 bytes gets a signed report. A root is set and measured unless it
is locked, which is counted. Retiring a core, raising the minimum and a new partition mode extend MEAS.2. Hot dies
slow by 5 steps; a thermal trip powers off. The model's choices: log entries 1 (free encodings), 4 and 62 (flash,
cold reset), 13, 60 (checkpoint), 63 (traps, images), 64 (roots, modes), 65 (thermal trip), 92 (the header's
version). (18 RAS and checkpoint: the checkpoint; 21 Firmware, bring-up and module: images, measurement, bring-up,
traps, attestation, module; 15 Translation, protection and tags: roots; 14 Launch, queues and scheduling: partition
modes) -/
def Obligations.CheckpointAndFirmwareEvents : Prop :=
  (∀ (s : State) (mode : Mode) (pmask : Byte),
    (mode = .u ∨ mode = .h → exec (.ckptGo mode pmask) s = .next s) ∧
    (mode = .s ∨ mode = .m → ∃ t, exec (.ckptGo mode pmask) s = .next t ∧ t.mem = s.mem ∧
      ((s.ckpt.busy = false ∧ pmask ≠ 0 ∧ pmask.toNat < 2 ^ partCount s.pm ∧
          ckptNeed s.pm pmask ≤ wbits s.ckpt.dst 52 12 * 2 ^ 30) →
        t.ckpt.busy = true ∧ t.ckpt.pmask = pmask ∧ t.ckpt.parts = pmask ∧ t.ckpt.status = 0 ∧ t.ckpt.cut = false ∧ t.ckpt.err = s.ckpt.err) ∧
      ((s.ckpt.busy = true ∨ pmask = 0 ∨ 2 ^ partCount s.pm ≤ pmask.toNat ∨
          wbits s.ckpt.dst 52 12 * 2 ^ 30 < ckptNeed s.pm pmask) →
        t.ckpt.err = true ∧ t.ckpt.busy = s.ckpt.busy ∧ t.ckpt.pmask = pmask ∧ t.ckpt.parts = s.ckpt.parts))) ∧
  (∀ s : State, (s.ckpt.busy = true → s.ckpt.status = 0 → (∀ l ∈ s.launches, l.phase = .live → s.ckpt.parts.getLsbD l.part = false) →
      (∀ d < 8, s.ckptDie d = true → s.linkHeld d = false) →
      (s.hostHas ≠ [] → exec .ckptCut s = .next (s.sendSnoops s.hostHas false)) ∧ (s.hostHas = [] → ∃ t, exec .ckptCut s = .next t ∧ t.mem = s.mem ∧ t.ckpt.status = 1 ∧ t.ckpt.cut = true ∧ t.ckpt.cutTime = s.stime)) ∧
    (s.ckpt.busy = false ∨ s.ckpt.status ≠ 0 → exec .ckptCut s = .next s)) ∧
  (∀ s : State, s.ckpt.busy = true → s.ckpt.status ≠ 0 →
    (∃ t, exec (.streamPage false) s = .next t ∧ t.ckpt.busy = false ∧ t.ckpt.err = true ∧ t.mem = s.mem) ∧
    (∀ pg, s.nextPage = some pg →
      (∀ t, s.pageWait pg = some t → exec (.streamPage true) s = .next t) ∧
      (s.pageWait pg = none →
        let ns := s.ckpt.lines (s.pageRecord pg).1.length
        let u := s.pageTaken pg
        (u.dstDead ns = true → ∃ t, exec (.streamPage true) s = .next t ∧ t.ckpt.busy = false ∧ t.ckpt.err = true ∧ t.mem = s.mem) ∧
        (u.dstDead ns = false → (∀ t, u.dstWait ns = some t → exec (.streamPage true) s = .next t) ∧
          (u.dstWait ns = none → ∃ t, exec (.streamPage true) s = .next t ∧ t.ckpt.next = pg + 1 ∧
            t.ckpt.sent = s.ckpt.sent + 1 ∧ t.ckpt.off = s.ckpt.off + (s.pageRecord pg).1.length ∧ t.ckpt.busy = true)))) ∧
    (s.nextPage = none →
      let ns := s.ckpt.lines (padTo 64 (leBytes 8 s.ckpt.sent ++ leBytes 8 s.ckpt.cutTime)).length
      s.dstDead ns = false → s.dstWait ns = none →
        ∃ t, exec (.streamPage true) s = .next t ∧ t.ckpt.busy = false ∧ t.ckpt.status = 3 ∧ t.ckpt.cut = false)) ∧
  (∀ (s : State) (img : Option FwImage), ∃ t, exec (.powerGood img) s = .next t ∧ t.powered = true ∧ t.launches = [] ∧
    t.firmware.fusedMin = s.firmware.fusedMin ∧ (∀ c, (t.core c).retired = (s.core c).retired ∧ (t.core c).launch = none) ∧
    (img = none → exec (.powerGood none) s = exec .modeMTrap s) ∧
    (∀ i, img = some i → s.firmware.fusedMin ≤ i.version.toNat →
      let ok := Config.signatureOk (Sha.bytes (Sha.digest (headerOf i ++ i.root ++ i.sched))) i.sig
      (ok = true → t.firmware.meas[0] = extended 0 (Sha.digest i.root) ∧ t.firmware.meas[1] = extended 0 (Sha.digest i.sched)) ∧
      t.firmware.recovery = !ok ∧ t.firmware.stopped = !ok ∧ t.firmware.image = (if ok = true then some i else none) ∧
      t.firmware.version = if ok = true then i.version.toNat else 0) ∧
    (∀ i, img = some i → i.version.toNat < s.firmware.fusedMin → t.firmware.recovery = true ∧ t.firmware.stopped = true) ∧
    t.firmware.meas[2] = extended 0 (Sha.digest (Config.configBytes (modeNumber t.pm) t.retiredCores t.firmware.repair t.firmware.fusedMin)) ∧
    (∀ k, k < 768 * 2 ^ 30 → t.bytesAt [k] = [0]) ∧
    (s.inv = true → ∀ k, hostBase ≤ k → k < headBase → t.bytesAt [k] = s.bytesAt [k])) ∧
  (∀ (s : State) (img : FwImage), (s.firmware.stopped = true ∨ s.firmware.recovery = true → exec (.modeSTrap img) s = .next s) ∧
    (s.firmware.stopped = false → s.firmware.recovery = false → let i := s.firmware.image.getD img
      ∃ t, exec (.modeSTrap img) s = .next t ∧ (∀ l ∈ t.launches, l.phase = .due) ∧
        (t.firmware.stopped = true ↔ s.firmware.accepts i = false) ∧
        (s.firmware.accepts i = true → t.firmware.meas[1] = extended s.firmware.meas[1] (Sha.digest i.sched)))) ∧
  (∀ (s : State) (img : FwImage), (s.firmware.recovery = false → exec (.imageSupply img) s = .next s) ∧
    (s.firmware.recovery = true → (s.firmware.image = none → exec (.imageSupply img) s = exec (.powerGood (some img)) s) ∧
      ∃ t, exec (.imageSupply img) s = .next t ∧ (t.firmware.recovery = false ↔ s.firmware.accepts img = true) ∧
        (s.firmware.image.isSome → t.launches = s.launches ∧ t.mem = s.mem))) ∧
  (∀ s : State, (s.firmware.version ≤ s.firmware.fusedMin → exec .fusedMinimumRaise s = .next s) ∧
    (s.firmware.fusedMin < s.firmware.version →
      ∃ t, exec .fusedMinimumRaise s = .next t ∧ t.firmware.fusedMin = s.firmware.version ∧ t.mem = s.mem ∧
        t.firmware.meas[2] = extended s.firmware.meas[2] (Sha.digest (Config.configBytes (modeNumber s.pm) s.retiredCores
          s.firmware.repair s.firmware.version)))) ∧
  (∀ (s : State) (nonce : List Byte), (nonce.length ≠ 32 → exec (.attestationRequest nonce) s = .next s) ∧
    (nonce.length = 32 → s.firmware.recovery = false ∨ s.firmware.image.isSome → exec (.attestationRequest nonce) s = .next { s with
      out := .attestation (s.reportBytes nonce ++ Config.sign (s.reportBytes nonce)) :: s.out })) ∧
  (∀ (s : State) (space p root : Nat), root % 131072 = 0 → p < partCount s.pm → root + 131072 ≤ partSize s.pm →
    ((∃ l ∈ s.launches, l.space = space ∧ l.part = p ∧ l.phase ≠ .due) → exec (.translationRootSet space p root) s =
      .next { s with firmware := { s.firmware with refused := s.firmware.refused + 1 } }) ∧
    ((∀ l ∈ s.launches, l.space = space → l.part = p → l.phase = .due) → ∃ t, exec (.translationRootSet space p root) s = .next t ∧
      t.rootOf space p = some root ∧ t.mem = s.mem ∧
      t.firmware.meas[3] = extended s.firmware.meas[3] (Sha.digest (Config.rootBytes space p root)) ∧
      ∀ space' p', (space', p') ≠ (space, p) → t.rootOf space' p' = s.rootOf space' p')) ∧
  (∀ (s : State) (c : CoreId), ∃ t, exec (.coreRetire c) s = .next t ∧ t.mem = s.mem ∧ (t.core c).retired = true ∧
    (∀ c', c' ≠ c → t.core c' = s.core c') ∧
    t.firmware.meas[2] = extended s.firmware.meas[2] (Sha.digest (Config.configBytes (modeNumber s.pm) t.retiredCores
      s.firmware.repair s.firmware.fusedMin))) ∧
  (∀ (s : State) (pm : PartMode), ((∃ l ∈ s.launches, l.phase = .live) → exec (.partitionModeSet pm) s = .next s) ∧
    ((∀ l ∈ s.launches, l.phase ≠ .live) → ∃ t, exec (.partitionModeSet pm) s = .next t ∧ t.pm = pm ∧ t.dir = {} ∧ t.sower = {} ∧ t.mem = s.mem ∧
      t.firmware.meas[2] = extended s.firmware.meas[2] (Sha.digest (Config.configBytes (modeNumber pm) s.retiredCores
        s.firmware.repair s.firmware.fusedMin)))) ∧
  (∀ (s : State) (d : DieId), ∃ t u, exec (.thermalThrottleStep d true) s = .next t ∧ exec (.thermalThrottleStep d false) s = .next u ∧
    (t.die d.val).tgt = max 35 ((s.die d.val).tgt - 5) ∧
    (u.die d.val).tgt = if (s.die d.val).tgt < (s.die d.val).wantTgt then min (s.die d.val).wantTgt ((s.die d.val).tgt + 5)
      else (s.die d.val).tgt) ∧
  (∀ s : State, exec .thermalTrip s = .next { s with powered := false })
end

