-- ==== Sys2Proof/Laws/Memory.lean ====
section
/-! SUPPORT. Memory: reading after writing, and the canonical form that every memory operation keeps. -/

namespace Sys2Proof.Machine

/-- Below its first address a memory in canonical form reads 0. -/
theorem Memory.get_below {m : Memory} {lo a : Nat} (h : m.wfFrom lo = true) (ha : a < lo) : Memory.get m a = 0 := by
  induction m generalizing lo with
  | nil => rfl
  | cons p rest ih =>
    obtain ⟨k, b⟩ := p
    simp only [Memory.wfFrom, Bool.and_eq_true, decide_eq_true_eq] at h
    have : ¬ k = a := by omega
    simp [Memory.get, this, show a < k by omega]

theorem Memory.wfFrom_mono {m : Memory} {lo lo' : Nat} (h : m.wfFrom lo = true) (hl : lo' ≤ lo) : m.wfFrom lo' = true := by
  cases m with
  | nil => rfl
  | cons p rest =>
    obtain ⟨k, b⟩ := p
    simp only [Memory.wfFrom, Bool.and_eq_true, decide_eq_true_eq] at h ⊢
    exact ⟨⟨by omega, h.1.2⟩, h.2⟩

/-- The canonical form, entry by entry. -/
theorem Memory.wfFrom_cons {m : Memory} {lo k : Nat} {b : Byte} :
    Memory.wfFrom lo ((k, b) :: m) = true ↔ (lo ≤ k ∧ ¬ b = 0#8) ∧ m.wfFrom (k + 1) = true := by
  simp [Memory.wfFrom]

theorem Memory.set_wfFrom {m : Memory} {lo a : Nat} {b : Byte} (h : m.wfFrom lo = true) (ha : lo ≤ a) :
    (m.set a b).wfFrom lo = true := by
  induction m generalizing lo with
  | nil =>
    by_cases hb : b = 0#8
    · simp [Memory.set, hb, Memory.wfFrom]
    · simp [Memory.set, hb, Memory.wfFrom, ha]
  | cons p rest ih =>
    obtain ⟨k, v⟩ := p
    have h' := Memory.wfFrom_cons.mp h
    simp only [Memory.set]
    split
    · split
      · exact Memory.wfFrom_mono h'.2 (by omega)
      · rename_i e hb; subst e; exact Memory.wfFrom_cons.mpr ⟨⟨ha, hb⟩, h'.2⟩
    · split
      · rename_i hlt
        split
        · exact h
        · rename_i hb
          exact Memory.wfFrom_cons.mpr ⟨⟨ha, hb⟩, Memory.wfFrom_cons.mpr ⟨⟨hlt, h'.1.2⟩, h'.2⟩⟩
      · exact Memory.wfFrom_cons.mpr ⟨h'.1, ih h'.2 (by omega)⟩

/-- Writing a byte keeps the canonical form. -/
theorem Memory.set_wf {m : Memory} (a : Nat) (b : Byte) (h : m.wf = true) : (m.set a b).wf = true :=
  Memory.set_wfFrom h (Nat.zero_le a)

theorem Memory.setAll_wf {m : Memory} (l : List (Nat × Byte)) (h : m.wf = true) : (m.setAll l).wf = true := by
  induction l generalizing m with
  | nil => exact h
  | cons p rest ih => exact ih (Memory.set_wf p.1 p.2 h)

theorem Memory.filter_wfFrom {m : Memory} {lo : Nat} (p : Host.Cell → Bool) (h : m.wfFrom lo = true) :
    Memory.wfFrom lo (m.filter p) = true := by
  induction m generalizing lo with
  | nil => rfl
  | cons q rest ih =>
    obtain ⟨k, b⟩ := q
    have h := Memory.wfFrom_cons.mp h
    simp only [List.filter_cons]
    split
    · exact Memory.wfFrom_cons.mpr ⟨h.1, ih h.2⟩
    · exact Memory.wfFrom_mono (ih h.2) (by omega)

/-- Dropping entries keeps the canonical form. -/
theorem Memory.filter_wf {m : Memory} (p : Host.Cell → Bool) (h : m.wf = true) : Memory.wf (m.filter p) = true :=
  Memory.filter_wfFrom p h

theorem Memory.clear_wf {m : Memory} (lo n : Nat) (h : m.wf = true) : (m.clear lo n).wf = true := Memory.filter_wf _ h

theorem Memory.slice_wf {m : Memory} (lo n : Nat) (h : m.wf = true) : (m.slice lo n).wf = true := Memory.filter_wf _ h

theorem Memory.get_set_from {m : Memory} {lo a : Nat} {b : Byte} (h : m.wfFrom lo = true) :
    Memory.get (m.set a b) a = b := by
  induction m generalizing lo with
  | nil =>
    by_cases hb : b = 0#8
    · simp [Memory.set, hb, Memory.get]
    · simp [Memory.set, hb, Memory.get]
  | cons p rest ih =>
    obtain ⟨k, v⟩ := p
    simp only [Memory.wfFrom, Bool.and_eq_true, decide_eq_true_eq] at h
    simp only [Memory.set]
    split
    · rename_i e
      split
      · rename_i hb
        rw [Memory.get_below h.2 (by omega), hb]
      · simp [Memory.get]
    · split
      · split
        · rename_i hne hlt hb; simp [Memory.get, hne, hlt, hb]
        · simp [Memory.get]
      · rename_i hne hge; simp [Memory.get, hne, show ¬ a < k by omega]; exact ih h.2

/-- A byte read after it was written. -/
theorem Memory.get_set_self {m : Memory} (a : Nat) (b : Byte) (h : m.wf = true) : Memory.get (m.set a b) a = b :=
  Memory.get_set_from h

theorem Memory.get_set_ne_from {m : Memory} {lo a c : Nat} {b : Byte} (h : m.wfFrom lo = true) (hc : c ≠ a) :
    Memory.get (m.set a b) c = Memory.get m c := by
  induction m generalizing lo with
  | nil =>
    by_cases hb : b = 0#8
    · simp [Memory.set, hb]
    · simp [Memory.set, hb, Memory.get, Ne.symm hc]
  | cons p rest ih =>
    obtain ⟨k, v⟩ := p
    simp only [Memory.wfFrom, Bool.and_eq_true, decide_eq_true_eq] at h
    simp only [Memory.set]
    split
    · rename_i e
      split
      · simp only [Memory.get]
        split
        · omega
        · split
          · exact Memory.get_below h.2 (by omega)
          · rfl
      · simp [Memory.get, Ne.symm hc, e]
    · split
      · split
        · rfl
        · rename_i hne hlt hb
          simp only [Memory.get]
          split
          · omega
          · split
            · split
              · omega
              · split <;> first | rfl | omega
            · rfl
      · simp only [Memory.get]
        split
        · rfl
        · split
          · rfl
          · exact ih h.2

/-- Another byte after a write. -/
theorem Memory.get_set_ne {m : Memory} {a c : Nat} (b : Byte) (h : m.wf = true) (hc : c ≠ a) :
    Memory.get (m.set a b) c = Memory.get m c := Memory.get_set_ne_from h hc

/-- A byte outside the addresses written. -/
theorem Memory.get_setAll_ne {m : Memory} {c : Nat} (l : List (Nat × Byte)) (h : m.wf = true)
    (hc : ∀ p ∈ l, p.1 ≠ c) : Memory.get (m.setAll l) c = Memory.get m c := by
  induction l generalizing m with
  | nil => rfl
  | cons p rest ih =>
    show Memory.get (Memory.setAll (m.set p.1 p.2) rest) c = _
    rw [ih (Memory.set_wf p.1 p.2 h) fun q hq => hc q (List.mem_cons_of_mem _ hq),
      Memory.get_set_ne p.2 h (Ne.symm (hc p List.mem_cons_self))]

/-- Memory after a write by a party. -/
theorem State.keepCut_mem (s : State) (ks : List Nat) : (s.keepCut ks).mem = s.mem := by
  unfold State.keepCut
  split
  · rename_i hcut; clear hcut
    generalize (ks.map pageOf).dedup = l
    induction l generalizing s with
    | nil => rfl
    | cons p rest ih =>
      simp only [List.foldl_cons]
      split
      · rw [ih]
      · rw [ih]
  · rfl

theorem State.write_mem (s : State) (self : Option (Nat × Nat)) (ks : List Nat) (bs : List Byte) :
    (s.write self ks bs).mem = s.mem.setAll (ks.zip bs) := by
  simp [State.write, State.keepCut_mem]

theorem State.write_wf {s : State} (self : Option (Nat × Nat)) (ks : List Nat) (bs : List Byte) (h : s.mem.wf = true) :
    (s.write self ks bs).mem.wf = true := by
  rw [State.write_mem]; exact Memory.setAll_wf _ h

theorem State.engineWrite_wf {s : State} (ks : List Nat) (bs : List Byte) (bad : List Bool) (h : s.mem.wf = true) :
    (s.engineWrite ks bs bad).mem.wf = true := by
  unfold State.engineWrite
  exact State.write_wf (self := none) _ _ h

end Sys2Proof.Machine
end

