-- ==== Sys2Proof/Laws/State.lean ====
section
/-! SUPPORT. What each update of the state leaves of each field, and how reading a core or a context meets an update. -/

namespace Sys2Proof.Machine

/-! ## `setCore` -/

@[simp] theorem State.setCore_mem (s : State) (c : CoreId) (x : Core) : (s.setCore c x).mem = s.mem := rfl
@[simp] theorem State.setCore_tags (s : State) (c : CoreId) (x : Core) : (s.setCore c x).tags = s.tags := rfl
@[simp] theorem State.setCore_poison (s : State) (c : CoreId) (x : Core) : (s.setCore c x).poison = s.poison := rfl
@[simp] theorem State.setCore_links (s : State) (c : CoreId) (x : Core) : (s.setCore c x).links = s.links := rfl
@[simp] theorem State.setCore_pm (s : State) (c : CoreId) (x : Core) : (s.setCore c x).pm = s.pm := rfl
@[simp] theorem State.setCore_launches (s : State) (c : CoreId) (x : Core) : (s.setCore c x).launches = s.launches := rfl
@[simp] theorem State.setCore_nextLaunch (s : State) (c : CoreId) (x : Core) : (s.setCore c x).nextLaunch = s.nextLaunch := rfl
@[simp] theorem State.setCore_naks (s : State) (c : CoreId) (x : Core) : (s.setCore c x).naks = s.naks := rfl
@[simp] theorem State.setCore_dir (s : State) (c : CoreId) (x : Core) : (s.setCore c x).dir = s.dir := rfl
@[simp] theorem State.setCore_dies (s : State) (c : CoreId) (x : Core) : (s.setCore c x).dies = s.dies := rfl
@[simp] theorem State.setCore_sower (s : State) (c : CoreId) (x : Core) : (s.setCore c x).sower = s.sower := rfl
@[simp] theorem State.setCore_queues (s : State) (c : CoreId) (x : Core) : (s.setCore c x).queues = s.queues := rfl
@[simp] theorem State.setCore_turns (s : State) (c : CoreId) (x : Core) : (s.setCore c x).turns = s.turns := rfl
@[simp] theorem State.setCore_saves (s : State) (c : CoreId) (x : Core) : (s.setCore c x).saves = s.saves := rfl
@[simp] theorem State.setCore_time (s : State) (c : CoreId) (x : Core) : (s.setCore c x).time = s.time := rfl
@[simp] theorem State.setCore_firmware (s : State) (c : CoreId) (x : Core) : (s.setCore c x).firmware = s.firmware := rfl
@[simp] theorem State.setCore_ckpt (s : State) (c : CoreId) (x : Core) : (s.setCore c x).ckpt = s.ckpt := rfl
@[simp] theorem State.setCore_hostDown (s : State) (c : CoreId) (x : Core) : (s.setCore c x).hostDown = s.hostDown := rfl
@[simp] theorem State.setCore_hostIo (s : State) (c : CoreId) (x : Core) : (s.setCore c x).hostIo = s.hostIo := rfl
@[simp] theorem State.setCore_ongeozDown (s : State) (c : CoreId) (x : Core) : (s.setCore c x).ongeozDown = s.ongeozDown := rfl
@[simp] theorem State.setCore_farDown (s : State) (c : CoreId) (x : Core) : (s.setCore c x).farDown = s.farDown := rfl
@[simp] theorem State.setCore_out (s : State) (c : CoreId) (x : Core) : (s.setCore c x).out = s.out := rfl
@[simp] theorem State.setCore_asyncs (s : State) (c : CoreId) (x : Core) : (s.setCore c x).asyncs = s.asyncs := rfl
@[simp] theorem State.setCore_jobIds (s : State) (c : CoreId) (x : Core) : (s.setCore c x).jobIds = s.jobIds := rfl
@[simp] theorem State.setCore_drillLast (s : State) (c : CoreId) (x : Core) : (s.setCore c x).drillLast = s.drillLast := rfl
@[simp] theorem State.setCore_portLast (s : State) (c : CoreId) (x : Core) : (s.setCore c x).portLast = s.portLast := rfl
@[simp] theorem State.setCore_stime (s : State) (c : CoreId) (x : Core) : (s.setCore c x).stime = s.stime := rfl
@[simp] theorem State.setCore_serial (s : State) (c : CoreId) (x : Core) : (s.setCore c x).serial = s.serial := rfl
@[simp] theorem State.setCore_powered (s : State) (c : CoreId) (x : Core) : (s.setCore c x).powered = s.powered := rfl
@[simp] theorem State.setCore_cur (s : State) (c : CoreId) (x : Core) : (s.setCore c x).cur = s.cur := rfl
@[simp] theorem State.setCore_slot (s : State) (c : CoreId) (x : Core) : (s.setCore c x).slot = s.slot := rfl
@[simp] theorem State.setCore_inputs (s : State) (c : CoreId) (x : Core) : (s.setCore c x).inputs = s.inputs := rfl
@[simp] theorem State.setCore_again (s : State) (c : CoreId) (x : Core) : (s.setCore c x).again = s.again := rfl
@[simp] theorem State.setCore_held (s : State) (c : CoreId) (x : Core) : (s.setCore c x).held = s.held := rfl
@[simp] theorem State.setCore_turn (s : State) (c : CoreId) (x : Core) : (s.setCore c x).turn = s.turn := rfl
@[simp] theorem State.setCore_steps (s : State) (c : CoreId) (x : Core) : (s.setCore c x).steps = s.steps := rfl
@[simp] theorem State.setCore_rotor (s : State) (c : CoreId) (x : Core) : (s.setCore c x).rotor = s.rotor := rfl

/-! ## `modCore` -/

@[simp] theorem State.modCore_mem (s : State) (c : CoreId) (f : Core → Core) : (s.modCore c f).mem = s.mem := rfl
@[simp] theorem State.modCore_tags (s : State) (c : CoreId) (f : Core → Core) : (s.modCore c f).tags = s.tags := rfl
@[simp] theorem State.modCore_poison (s : State) (c : CoreId) (f : Core → Core) : (s.modCore c f).poison = s.poison := rfl
@[simp] theorem State.modCore_links (s : State) (c : CoreId) (f : Core → Core) : (s.modCore c f).links = s.links := rfl
@[simp] theorem State.modCore_pm (s : State) (c : CoreId) (f : Core → Core) : (s.modCore c f).pm = s.pm := rfl
@[simp] theorem State.modCore_launches (s : State) (c : CoreId) (f : Core → Core) : (s.modCore c f).launches = s.launches := rfl
@[simp] theorem State.modCore_nextLaunch (s : State) (c : CoreId) (f : Core → Core) : (s.modCore c f).nextLaunch = s.nextLaunch := rfl
@[simp] theorem State.modCore_naks (s : State) (c : CoreId) (f : Core → Core) : (s.modCore c f).naks = s.naks := rfl
@[simp] theorem State.modCore_dir (s : State) (c : CoreId) (f : Core → Core) : (s.modCore c f).dir = s.dir := rfl
@[simp] theorem State.modCore_dies (s : State) (c : CoreId) (f : Core → Core) : (s.modCore c f).dies = s.dies := rfl
@[simp] theorem State.modCore_sower (s : State) (c : CoreId) (f : Core → Core) : (s.modCore c f).sower = s.sower := rfl
@[simp] theorem State.modCore_queues (s : State) (c : CoreId) (f : Core → Core) : (s.modCore c f).queues = s.queues := rfl
@[simp] theorem State.modCore_turns (s : State) (c : CoreId) (f : Core → Core) : (s.modCore c f).turns = s.turns := rfl
@[simp] theorem State.modCore_saves (s : State) (c : CoreId) (f : Core → Core) : (s.modCore c f).saves = s.saves := rfl
@[simp] theorem State.modCore_time (s : State) (c : CoreId) (f : Core → Core) : (s.modCore c f).time = s.time := rfl
@[simp] theorem State.modCore_firmware (s : State) (c : CoreId) (f : Core → Core) : (s.modCore c f).firmware = s.firmware := rfl
@[simp] theorem State.modCore_ckpt (s : State) (c : CoreId) (f : Core → Core) : (s.modCore c f).ckpt = s.ckpt := rfl
@[simp] theorem State.modCore_hostDown (s : State) (c : CoreId) (f : Core → Core) : (s.modCore c f).hostDown = s.hostDown := rfl
@[simp] theorem State.modCore_hostIo (s : State) (c : CoreId) (f : Core → Core) : (s.modCore c f).hostIo = s.hostIo := rfl
@[simp] theorem State.modCore_ongeozDown (s : State) (c : CoreId) (f : Core → Core) : (s.modCore c f).ongeozDown = s.ongeozDown := rfl
@[simp] theorem State.modCore_farDown (s : State) (c : CoreId) (f : Core → Core) : (s.modCore c f).farDown = s.farDown := rfl
@[simp] theorem State.modCore_out (s : State) (c : CoreId) (f : Core → Core) : (s.modCore c f).out = s.out := rfl
@[simp] theorem State.modCore_asyncs (s : State) (c : CoreId) (f : Core → Core) : (s.modCore c f).asyncs = s.asyncs := rfl
@[simp] theorem State.modCore_jobIds (s : State) (c : CoreId) (f : Core → Core) : (s.modCore c f).jobIds = s.jobIds := rfl
@[simp] theorem State.modCore_drillLast (s : State) (c : CoreId) (f : Core → Core) : (s.modCore c f).drillLast = s.drillLast := rfl
@[simp] theorem State.modCore_portLast (s : State) (c : CoreId) (f : Core → Core) : (s.modCore c f).portLast = s.portLast := rfl
@[simp] theorem State.modCore_stime (s : State) (c : CoreId) (f : Core → Core) : (s.modCore c f).stime = s.stime := rfl
@[simp] theorem State.modCore_serial (s : State) (c : CoreId) (f : Core → Core) : (s.modCore c f).serial = s.serial := rfl
@[simp] theorem State.modCore_powered (s : State) (c : CoreId) (f : Core → Core) : (s.modCore c f).powered = s.powered := rfl
@[simp] theorem State.modCore_cur (s : State) (c : CoreId) (f : Core → Core) : (s.modCore c f).cur = s.cur := rfl
@[simp] theorem State.modCore_slot (s : State) (c : CoreId) (f : Core → Core) : (s.modCore c f).slot = s.slot := rfl
@[simp] theorem State.modCore_inputs (s : State) (c : CoreId) (f : Core → Core) : (s.modCore c f).inputs = s.inputs := rfl
@[simp] theorem State.modCore_again (s : State) (c : CoreId) (f : Core → Core) : (s.modCore c f).again = s.again := rfl
@[simp] theorem State.modCore_held (s : State) (c : CoreId) (f : Core → Core) : (s.modCore c f).held = s.held := rfl
@[simp] theorem State.modCore_turn (s : State) (c : CoreId) (f : Core → Core) : (s.modCore c f).turn = s.turn := rfl
@[simp] theorem State.modCore_steps (s : State) (c : CoreId) (f : Core → Core) : (s.modCore c f).steps = s.steps := rfl
@[simp] theorem State.modCore_rotor (s : State) (c : CoreId) (f : Core → Core) : (s.modCore c f).rotor = s.rotor := rfl

/-! ## `setCtx` -/

@[simp] theorem State.setCtx_mem (s : State) (c : CoreId) (k : SlotId) (t : Ctx) : (s.setCtx c k t).mem = s.mem := rfl
@[simp] theorem State.setCtx_tags (s : State) (c : CoreId) (k : SlotId) (t : Ctx) : (s.setCtx c k t).tags = s.tags := rfl
@[simp] theorem State.setCtx_poison (s : State) (c : CoreId) (k : SlotId) (t : Ctx) : (s.setCtx c k t).poison = s.poison := rfl
@[simp] theorem State.setCtx_links (s : State) (c : CoreId) (k : SlotId) (t : Ctx) : (s.setCtx c k t).links = s.links := rfl
@[simp] theorem State.setCtx_pm (s : State) (c : CoreId) (k : SlotId) (t : Ctx) : (s.setCtx c k t).pm = s.pm := rfl
@[simp] theorem State.setCtx_launches (s : State) (c : CoreId) (k : SlotId) (t : Ctx) : (s.setCtx c k t).launches = s.launches := rfl
@[simp] theorem State.setCtx_nextLaunch (s : State) (c : CoreId) (k : SlotId) (t : Ctx) : (s.setCtx c k t).nextLaunch = s.nextLaunch := rfl
@[simp] theorem State.setCtx_naks (s : State) (c : CoreId) (k : SlotId) (t : Ctx) : (s.setCtx c k t).naks = s.naks := rfl
@[simp] theorem State.setCtx_dir (s : State) (c : CoreId) (k : SlotId) (t : Ctx) : (s.setCtx c k t).dir = s.dir := rfl
@[simp] theorem State.setCtx_dies (s : State) (c : CoreId) (k : SlotId) (t : Ctx) : (s.setCtx c k t).dies = s.dies := rfl
@[simp] theorem State.setCtx_sower (s : State) (c : CoreId) (k : SlotId) (t : Ctx) : (s.setCtx c k t).sower = s.sower := rfl
@[simp] theorem State.setCtx_queues (s : State) (c : CoreId) (k : SlotId) (t : Ctx) : (s.setCtx c k t).queues = s.queues := rfl
@[simp] theorem State.setCtx_turns (s : State) (c : CoreId) (k : SlotId) (t : Ctx) : (s.setCtx c k t).turns = s.turns := rfl
@[simp] theorem State.setCtx_saves (s : State) (c : CoreId) (k : SlotId) (t : Ctx) : (s.setCtx c k t).saves = s.saves := rfl
@[simp] theorem State.setCtx_time (s : State) (c : CoreId) (k : SlotId) (t : Ctx) : (s.setCtx c k t).time = s.time := rfl
@[simp] theorem State.setCtx_firmware (s : State) (c : CoreId) (k : SlotId) (t : Ctx) : (s.setCtx c k t).firmware = s.firmware := rfl
@[simp] theorem State.setCtx_ckpt (s : State) (c : CoreId) (k : SlotId) (t : Ctx) : (s.setCtx c k t).ckpt = s.ckpt := rfl
@[simp] theorem State.setCtx_hostDown (s : State) (c : CoreId) (k : SlotId) (t : Ctx) : (s.setCtx c k t).hostDown = s.hostDown := rfl
@[simp] theorem State.setCtx_hostIo (s : State) (c : CoreId) (k : SlotId) (t : Ctx) : (s.setCtx c k t).hostIo = s.hostIo := rfl
@[simp] theorem State.setCtx_ongeozDown (s : State) (c : CoreId) (k : SlotId) (t : Ctx) : (s.setCtx c k t).ongeozDown = s.ongeozDown := rfl
@[simp] theorem State.setCtx_farDown (s : State) (c : CoreId) (k : SlotId) (t : Ctx) : (s.setCtx c k t).farDown = s.farDown := rfl
@[simp] theorem State.setCtx_out (s : State) (c : CoreId) (k : SlotId) (t : Ctx) : (s.setCtx c k t).out = s.out := rfl
@[simp] theorem State.setCtx_asyncs (s : State) (c : CoreId) (k : SlotId) (t : Ctx) : (s.setCtx c k t).asyncs = s.asyncs := rfl
@[simp] theorem State.setCtx_jobIds (s : State) (c : CoreId) (k : SlotId) (t : Ctx) : (s.setCtx c k t).jobIds = s.jobIds := rfl
@[simp] theorem State.setCtx_drillLast (s : State) (c : CoreId) (k : SlotId) (t : Ctx) : (s.setCtx c k t).drillLast = s.drillLast := rfl
@[simp] theorem State.setCtx_portLast (s : State) (c : CoreId) (k : SlotId) (t : Ctx) : (s.setCtx c k t).portLast = s.portLast := rfl
@[simp] theorem State.setCtx_stime (s : State) (c : CoreId) (k : SlotId) (t : Ctx) : (s.setCtx c k t).stime = s.stime := rfl
@[simp] theorem State.setCtx_serial (s : State) (c : CoreId) (k : SlotId) (t : Ctx) : (s.setCtx c k t).serial = s.serial := rfl
@[simp] theorem State.setCtx_powered (s : State) (c : CoreId) (k : SlotId) (t : Ctx) : (s.setCtx c k t).powered = s.powered := rfl
@[simp] theorem State.setCtx_cur (s : State) (c : CoreId) (k : SlotId) (t : Ctx) : (s.setCtx c k t).cur = s.cur := rfl
@[simp] theorem State.setCtx_slot (s : State) (c : CoreId) (k : SlotId) (t : Ctx) : (s.setCtx c k t).slot = s.slot := rfl
@[simp] theorem State.setCtx_inputs (s : State) (c : CoreId) (k : SlotId) (t : Ctx) : (s.setCtx c k t).inputs = s.inputs := rfl
@[simp] theorem State.setCtx_again (s : State) (c : CoreId) (k : SlotId) (t : Ctx) : (s.setCtx c k t).again = s.again := rfl
@[simp] theorem State.setCtx_held (s : State) (c : CoreId) (k : SlotId) (t : Ctx) : (s.setCtx c k t).held = s.held := rfl
@[simp] theorem State.setCtx_turn (s : State) (c : CoreId) (k : SlotId) (t : Ctx) : (s.setCtx c k t).turn = s.turn := rfl
@[simp] theorem State.setCtx_steps (s : State) (c : CoreId) (k : SlotId) (t : Ctx) : (s.setCtx c k t).steps = s.steps := rfl
@[simp] theorem State.setCtx_rotor (s : State) (c : CoreId) (k : SlotId) (t : Ctx) : (s.setCtx c k t).rotor = s.rotor := rfl

/-! ## `modCtx` -/

@[simp] theorem State.modCtx_mem (s : State) (c : CoreId) (k : SlotId) (f : Ctx → Ctx) : (s.modCtx c k f).mem = s.mem := rfl
@[simp] theorem State.modCtx_tags (s : State) (c : CoreId) (k : SlotId) (f : Ctx → Ctx) : (s.modCtx c k f).tags = s.tags := rfl
@[simp] theorem State.modCtx_poison (s : State) (c : CoreId) (k : SlotId) (f : Ctx → Ctx) : (s.modCtx c k f).poison = s.poison := rfl
@[simp] theorem State.modCtx_links (s : State) (c : CoreId) (k : SlotId) (f : Ctx → Ctx) : (s.modCtx c k f).links = s.links := rfl
@[simp] theorem State.modCtx_pm (s : State) (c : CoreId) (k : SlotId) (f : Ctx → Ctx) : (s.modCtx c k f).pm = s.pm := rfl
@[simp] theorem State.modCtx_launches (s : State) (c : CoreId) (k : SlotId) (f : Ctx → Ctx) : (s.modCtx c k f).launches = s.launches := rfl
@[simp] theorem State.modCtx_nextLaunch (s : State) (c : CoreId) (k : SlotId) (f : Ctx → Ctx) : (s.modCtx c k f).nextLaunch = s.nextLaunch := rfl
@[simp] theorem State.modCtx_naks (s : State) (c : CoreId) (k : SlotId) (f : Ctx → Ctx) : (s.modCtx c k f).naks = s.naks := rfl
@[simp] theorem State.modCtx_dir (s : State) (c : CoreId) (k : SlotId) (f : Ctx → Ctx) : (s.modCtx c k f).dir = s.dir := rfl
@[simp] theorem State.modCtx_dies (s : State) (c : CoreId) (k : SlotId) (f : Ctx → Ctx) : (s.modCtx c k f).dies = s.dies := rfl
@[simp] theorem State.modCtx_sower (s : State) (c : CoreId) (k : SlotId) (f : Ctx → Ctx) : (s.modCtx c k f).sower = s.sower := rfl
@[simp] theorem State.modCtx_queues (s : State) (c : CoreId) (k : SlotId) (f : Ctx → Ctx) : (s.modCtx c k f).queues = s.queues := rfl
@[simp] theorem State.modCtx_turns (s : State) (c : CoreId) (k : SlotId) (f : Ctx → Ctx) : (s.modCtx c k f).turns = s.turns := rfl
@[simp] theorem State.modCtx_saves (s : State) (c : CoreId) (k : SlotId) (f : Ctx → Ctx) : (s.modCtx c k f).saves = s.saves := rfl
@[simp] theorem State.modCtx_time (s : State) (c : CoreId) (k : SlotId) (f : Ctx → Ctx) : (s.modCtx c k f).time = s.time := rfl
@[simp] theorem State.modCtx_firmware (s : State) (c : CoreId) (k : SlotId) (f : Ctx → Ctx) : (s.modCtx c k f).firmware = s.firmware := rfl
@[simp] theorem State.modCtx_ckpt (s : State) (c : CoreId) (k : SlotId) (f : Ctx → Ctx) : (s.modCtx c k f).ckpt = s.ckpt := rfl
@[simp] theorem State.modCtx_hostDown (s : State) (c : CoreId) (k : SlotId) (f : Ctx → Ctx) : (s.modCtx c k f).hostDown = s.hostDown := rfl
@[simp] theorem State.modCtx_hostIo (s : State) (c : CoreId) (k : SlotId) (f : Ctx → Ctx) : (s.modCtx c k f).hostIo = s.hostIo := rfl
@[simp] theorem State.modCtx_ongeozDown (s : State) (c : CoreId) (k : SlotId) (f : Ctx → Ctx) : (s.modCtx c k f).ongeozDown = s.ongeozDown := rfl
@[simp] theorem State.modCtx_farDown (s : State) (c : CoreId) (k : SlotId) (f : Ctx → Ctx) : (s.modCtx c k f).farDown = s.farDown := rfl
@[simp] theorem State.modCtx_out (s : State) (c : CoreId) (k : SlotId) (f : Ctx → Ctx) : (s.modCtx c k f).out = s.out := rfl
@[simp] theorem State.modCtx_asyncs (s : State) (c : CoreId) (k : SlotId) (f : Ctx → Ctx) : (s.modCtx c k f).asyncs = s.asyncs := rfl
@[simp] theorem State.modCtx_jobIds (s : State) (c : CoreId) (k : SlotId) (f : Ctx → Ctx) : (s.modCtx c k f).jobIds = s.jobIds := rfl
@[simp] theorem State.modCtx_drillLast (s : State) (c : CoreId) (k : SlotId) (f : Ctx → Ctx) : (s.modCtx c k f).drillLast = s.drillLast := rfl
@[simp] theorem State.modCtx_portLast (s : State) (c : CoreId) (k : SlotId) (f : Ctx → Ctx) : (s.modCtx c k f).portLast = s.portLast := rfl
@[simp] theorem State.modCtx_stime (s : State) (c : CoreId) (k : SlotId) (f : Ctx → Ctx) : (s.modCtx c k f).stime = s.stime := rfl
@[simp] theorem State.modCtx_serial (s : State) (c : CoreId) (k : SlotId) (f : Ctx → Ctx) : (s.modCtx c k f).serial = s.serial := rfl
@[simp] theorem State.modCtx_powered (s : State) (c : CoreId) (k : SlotId) (f : Ctx → Ctx) : (s.modCtx c k f).powered = s.powered := rfl
@[simp] theorem State.modCtx_cur (s : State) (c : CoreId) (k : SlotId) (f : Ctx → Ctx) : (s.modCtx c k f).cur = s.cur := rfl
@[simp] theorem State.modCtx_slot (s : State) (c : CoreId) (k : SlotId) (f : Ctx → Ctx) : (s.modCtx c k f).slot = s.slot := rfl
@[simp] theorem State.modCtx_inputs (s : State) (c : CoreId) (k : SlotId) (f : Ctx → Ctx) : (s.modCtx c k f).inputs = s.inputs := rfl
@[simp] theorem State.modCtx_again (s : State) (c : CoreId) (k : SlotId) (f : Ctx → Ctx) : (s.modCtx c k f).again = s.again := rfl
@[simp] theorem State.modCtx_held (s : State) (c : CoreId) (k : SlotId) (f : Ctx → Ctx) : (s.modCtx c k f).held = s.held := rfl
@[simp] theorem State.modCtx_turn (s : State) (c : CoreId) (k : SlotId) (f : Ctx → Ctx) : (s.modCtx c k f).turn = s.turn := rfl
@[simp] theorem State.modCtx_steps (s : State) (c : CoreId) (k : SlotId) (f : Ctx → Ctx) : (s.modCtx c k f).steps = s.steps := rfl
@[simp] theorem State.modCtx_rotor (s : State) (c : CoreId) (k : SlotId) (f : Ctx → Ctx) : (s.modCtx c k f).rotor = s.rotor := rfl

/-! ## `setMe` -/

@[simp] theorem State.setMe_mem (s : State) (t : Ctx) : (s.setMe t).mem = s.mem := rfl
@[simp] theorem State.setMe_tags (s : State) (t : Ctx) : (s.setMe t).tags = s.tags := rfl
@[simp] theorem State.setMe_poison (s : State) (t : Ctx) : (s.setMe t).poison = s.poison := rfl
@[simp] theorem State.setMe_links (s : State) (t : Ctx) : (s.setMe t).links = s.links := rfl
@[simp] theorem State.setMe_pm (s : State) (t : Ctx) : (s.setMe t).pm = s.pm := rfl
@[simp] theorem State.setMe_launches (s : State) (t : Ctx) : (s.setMe t).launches = s.launches := rfl
@[simp] theorem State.setMe_nextLaunch (s : State) (t : Ctx) : (s.setMe t).nextLaunch = s.nextLaunch := rfl
@[simp] theorem State.setMe_naks (s : State) (t : Ctx) : (s.setMe t).naks = s.naks := rfl
@[simp] theorem State.setMe_dir (s : State) (t : Ctx) : (s.setMe t).dir = s.dir := rfl
@[simp] theorem State.setMe_dies (s : State) (t : Ctx) : (s.setMe t).dies = s.dies := rfl
@[simp] theorem State.setMe_sower (s : State) (t : Ctx) : (s.setMe t).sower = s.sower := rfl
@[simp] theorem State.setMe_queues (s : State) (t : Ctx) : (s.setMe t).queues = s.queues := rfl
@[simp] theorem State.setMe_turns (s : State) (t : Ctx) : (s.setMe t).turns = s.turns := rfl
@[simp] theorem State.setMe_saves (s : State) (t : Ctx) : (s.setMe t).saves = s.saves := rfl
@[simp] theorem State.setMe_time (s : State) (t : Ctx) : (s.setMe t).time = s.time := rfl
@[simp] theorem State.setMe_firmware (s : State) (t : Ctx) : (s.setMe t).firmware = s.firmware := rfl
@[simp] theorem State.setMe_ckpt (s : State) (t : Ctx) : (s.setMe t).ckpt = s.ckpt := rfl
@[simp] theorem State.setMe_hostDown (s : State) (t : Ctx) : (s.setMe t).hostDown = s.hostDown := rfl
@[simp] theorem State.setMe_hostIo (s : State) (t : Ctx) : (s.setMe t).hostIo = s.hostIo := rfl
@[simp] theorem State.setMe_ongeozDown (s : State) (t : Ctx) : (s.setMe t).ongeozDown = s.ongeozDown := rfl
@[simp] theorem State.setMe_farDown (s : State) (t : Ctx) : (s.setMe t).farDown = s.farDown := rfl
@[simp] theorem State.setMe_out (s : State) (t : Ctx) : (s.setMe t).out = s.out := rfl
@[simp] theorem State.setMe_asyncs (s : State) (t : Ctx) : (s.setMe t).asyncs = s.asyncs := rfl
@[simp] theorem State.setMe_jobIds (s : State) (t : Ctx) : (s.setMe t).jobIds = s.jobIds := rfl
@[simp] theorem State.setMe_drillLast (s : State) (t : Ctx) : (s.setMe t).drillLast = s.drillLast := rfl
@[simp] theorem State.setMe_portLast (s : State) (t : Ctx) : (s.setMe t).portLast = s.portLast := rfl
@[simp] theorem State.setMe_stime (s : State) (t : Ctx) : (s.setMe t).stime = s.stime := rfl
@[simp] theorem State.setMe_serial (s : State) (t : Ctx) : (s.setMe t).serial = s.serial := rfl
@[simp] theorem State.setMe_powered (s : State) (t : Ctx) : (s.setMe t).powered = s.powered := rfl
@[simp] theorem State.setMe_cur (s : State) (t : Ctx) : (s.setMe t).cur = s.cur := rfl
@[simp] theorem State.setMe_slot (s : State) (t : Ctx) : (s.setMe t).slot = s.slot := rfl
@[simp] theorem State.setMe_inputs (s : State) (t : Ctx) : (s.setMe t).inputs = s.inputs := rfl
@[simp] theorem State.setMe_again (s : State) (t : Ctx) : (s.setMe t).again = s.again := rfl
@[simp] theorem State.setMe_held (s : State) (t : Ctx) : (s.setMe t).held = s.held := rfl
@[simp] theorem State.setMe_turn (s : State) (t : Ctx) : (s.setMe t).turn = s.turn := rfl
@[simp] theorem State.setMe_steps (s : State) (t : Ctx) : (s.setMe t).steps = s.steps := rfl
@[simp] theorem State.setMe_rotor (s : State) (t : Ctx) : (s.setMe t).rotor = s.rotor := rfl

/-! ## `modMe` -/

@[simp] theorem State.modMe_mem (s : State) (f : Ctx → Ctx) : (s.modMe f).mem = s.mem := rfl
@[simp] theorem State.modMe_tags (s : State) (f : Ctx → Ctx) : (s.modMe f).tags = s.tags := rfl
@[simp] theorem State.modMe_poison (s : State) (f : Ctx → Ctx) : (s.modMe f).poison = s.poison := rfl
@[simp] theorem State.modMe_links (s : State) (f : Ctx → Ctx) : (s.modMe f).links = s.links := rfl
@[simp] theorem State.modMe_pm (s : State) (f : Ctx → Ctx) : (s.modMe f).pm = s.pm := rfl
@[simp] theorem State.modMe_launches (s : State) (f : Ctx → Ctx) : (s.modMe f).launches = s.launches := rfl
@[simp] theorem State.modMe_nextLaunch (s : State) (f : Ctx → Ctx) : (s.modMe f).nextLaunch = s.nextLaunch := rfl
@[simp] theorem State.modMe_naks (s : State) (f : Ctx → Ctx) : (s.modMe f).naks = s.naks := rfl
@[simp] theorem State.modMe_dir (s : State) (f : Ctx → Ctx) : (s.modMe f).dir = s.dir := rfl
@[simp] theorem State.modMe_dies (s : State) (f : Ctx → Ctx) : (s.modMe f).dies = s.dies := rfl
@[simp] theorem State.modMe_sower (s : State) (f : Ctx → Ctx) : (s.modMe f).sower = s.sower := rfl
@[simp] theorem State.modMe_queues (s : State) (f : Ctx → Ctx) : (s.modMe f).queues = s.queues := rfl
@[simp] theorem State.modMe_turns (s : State) (f : Ctx → Ctx) : (s.modMe f).turns = s.turns := rfl
@[simp] theorem State.modMe_saves (s : State) (f : Ctx → Ctx) : (s.modMe f).saves = s.saves := rfl
@[simp] theorem State.modMe_time (s : State) (f : Ctx → Ctx) : (s.modMe f).time = s.time := rfl
@[simp] theorem State.modMe_firmware (s : State) (f : Ctx → Ctx) : (s.modMe f).firmware = s.firmware := rfl
@[simp] theorem State.modMe_ckpt (s : State) (f : Ctx → Ctx) : (s.modMe f).ckpt = s.ckpt := rfl
@[simp] theorem State.modMe_hostDown (s : State) (f : Ctx → Ctx) : (s.modMe f).hostDown = s.hostDown := rfl
@[simp] theorem State.modMe_hostIo (s : State) (f : Ctx → Ctx) : (s.modMe f).hostIo = s.hostIo := rfl
@[simp] theorem State.modMe_ongeozDown (s : State) (f : Ctx → Ctx) : (s.modMe f).ongeozDown = s.ongeozDown := rfl
@[simp] theorem State.modMe_farDown (s : State) (f : Ctx → Ctx) : (s.modMe f).farDown = s.farDown := rfl
@[simp] theorem State.modMe_out (s : State) (f : Ctx → Ctx) : (s.modMe f).out = s.out := rfl
@[simp] theorem State.modMe_asyncs (s : State) (f : Ctx → Ctx) : (s.modMe f).asyncs = s.asyncs := rfl
@[simp] theorem State.modMe_jobIds (s : State) (f : Ctx → Ctx) : (s.modMe f).jobIds = s.jobIds := rfl
@[simp] theorem State.modMe_drillLast (s : State) (f : Ctx → Ctx) : (s.modMe f).drillLast = s.drillLast := rfl
@[simp] theorem State.modMe_portLast (s : State) (f : Ctx → Ctx) : (s.modMe f).portLast = s.portLast := rfl
@[simp] theorem State.modMe_stime (s : State) (f : Ctx → Ctx) : (s.modMe f).stime = s.stime := rfl
@[simp] theorem State.modMe_serial (s : State) (f : Ctx → Ctx) : (s.modMe f).serial = s.serial := rfl
@[simp] theorem State.modMe_powered (s : State) (f : Ctx → Ctx) : (s.modMe f).powered = s.powered := rfl
@[simp] theorem State.modMe_cur (s : State) (f : Ctx → Ctx) : (s.modMe f).cur = s.cur := rfl
@[simp] theorem State.modMe_slot (s : State) (f : Ctx → Ctx) : (s.modMe f).slot = s.slot := rfl
@[simp] theorem State.modMe_inputs (s : State) (f : Ctx → Ctx) : (s.modMe f).inputs = s.inputs := rfl
@[simp] theorem State.modMe_again (s : State) (f : Ctx → Ctx) : (s.modMe f).again = s.again := rfl
@[simp] theorem State.modMe_held (s : State) (f : Ctx → Ctx) : (s.modMe f).held = s.held := rfl
@[simp] theorem State.modMe_turn (s : State) (f : Ctx → Ctx) : (s.modMe f).turn = s.turn := rfl
@[simp] theorem State.modMe_steps (s : State) (f : Ctx → Ctx) : (s.modMe f).steps = s.steps := rfl
@[simp] theorem State.modMe_rotor (s : State) (f : Ctx → Ctx) : (s.modMe f).rotor = s.rotor := rfl

/-! ## `put` -/

@[simp] theorem State.put_mem (s : State) (d : Dst) (x : Reg) : (s.put d x).mem = s.mem := rfl
@[simp] theorem State.put_tags (s : State) (d : Dst) (x : Reg) : (s.put d x).tags = s.tags := rfl
@[simp] theorem State.put_poison (s : State) (d : Dst) (x : Reg) : (s.put d x).poison = s.poison := rfl
@[simp] theorem State.put_links (s : State) (d : Dst) (x : Reg) : (s.put d x).links = s.links := rfl
@[simp] theorem State.put_pm (s : State) (d : Dst) (x : Reg) : (s.put d x).pm = s.pm := rfl
@[simp] theorem State.put_launches (s : State) (d : Dst) (x : Reg) : (s.put d x).launches = s.launches := rfl
@[simp] theorem State.put_nextLaunch (s : State) (d : Dst) (x : Reg) : (s.put d x).nextLaunch = s.nextLaunch := rfl
@[simp] theorem State.put_naks (s : State) (d : Dst) (x : Reg) : (s.put d x).naks = s.naks := rfl
@[simp] theorem State.put_dir (s : State) (d : Dst) (x : Reg) : (s.put d x).dir = s.dir := rfl
@[simp] theorem State.put_dies (s : State) (d : Dst) (x : Reg) : (s.put d x).dies = s.dies := rfl
@[simp] theorem State.put_sower (s : State) (d : Dst) (x : Reg) : (s.put d x).sower = s.sower := rfl
@[simp] theorem State.put_queues (s : State) (d : Dst) (x : Reg) : (s.put d x).queues = s.queues := rfl
@[simp] theorem State.put_turns (s : State) (d : Dst) (x : Reg) : (s.put d x).turns = s.turns := rfl
@[simp] theorem State.put_saves (s : State) (d : Dst) (x : Reg) : (s.put d x).saves = s.saves := rfl
@[simp] theorem State.put_time (s : State) (d : Dst) (x : Reg) : (s.put d x).time = s.time := rfl
@[simp] theorem State.put_firmware (s : State) (d : Dst) (x : Reg) : (s.put d x).firmware = s.firmware := rfl
@[simp] theorem State.put_ckpt (s : State) (d : Dst) (x : Reg) : (s.put d x).ckpt = s.ckpt := rfl
@[simp] theorem State.put_hostDown (s : State) (d : Dst) (x : Reg) : (s.put d x).hostDown = s.hostDown := rfl
@[simp] theorem State.put_hostIo (s : State) (d : Dst) (x : Reg) : (s.put d x).hostIo = s.hostIo := rfl
@[simp] theorem State.put_ongeozDown (s : State) (d : Dst) (x : Reg) : (s.put d x).ongeozDown = s.ongeozDown := rfl
@[simp] theorem State.put_farDown (s : State) (d : Dst) (x : Reg) : (s.put d x).farDown = s.farDown := rfl
@[simp] theorem State.put_out (s : State) (d : Dst) (x : Reg) : (s.put d x).out = s.out := rfl
@[simp] theorem State.put_asyncs (s : State) (d : Dst) (x : Reg) : (s.put d x).asyncs = s.asyncs := rfl
@[simp] theorem State.put_jobIds (s : State) (d : Dst) (x : Reg) : (s.put d x).jobIds = s.jobIds := rfl
@[simp] theorem State.put_drillLast (s : State) (d : Dst) (x : Reg) : (s.put d x).drillLast = s.drillLast := rfl
@[simp] theorem State.put_portLast (s : State) (d : Dst) (x : Reg) : (s.put d x).portLast = s.portLast := rfl
@[simp] theorem State.put_stime (s : State) (d : Dst) (x : Reg) : (s.put d x).stime = s.stime := rfl
@[simp] theorem State.put_serial (s : State) (d : Dst) (x : Reg) : (s.put d x).serial = s.serial := rfl
@[simp] theorem State.put_powered (s : State) (d : Dst) (x : Reg) : (s.put d x).powered = s.powered := rfl
@[simp] theorem State.put_cur (s : State) (d : Dst) (x : Reg) : (s.put d x).cur = s.cur := rfl
@[simp] theorem State.put_slot (s : State) (d : Dst) (x : Reg) : (s.put d x).slot = s.slot := rfl
@[simp] theorem State.put_inputs (s : State) (d : Dst) (x : Reg) : (s.put d x).inputs = s.inputs := rfl
@[simp] theorem State.put_again (s : State) (d : Dst) (x : Reg) : (s.put d x).again = s.again := rfl
@[simp] theorem State.put_held (s : State) (d : Dst) (x : Reg) : (s.put d x).held = s.held := rfl
@[simp] theorem State.put_turn (s : State) (d : Dst) (x : Reg) : (s.put d x).turn = s.turn := rfl
@[simp] theorem State.put_steps (s : State) (d : Dst) (x : Reg) : (s.put d x).steps = s.steps := rfl
@[simp] theorem State.put_rotor (s : State) (d : Dst) (x : Reg) : (s.put d x).rotor = s.rotor := rfl

/-! ## `putV` -/

@[simp] theorem State.putV_mem (s : State) (d : Dst) (v : Word) : (s.putV d v).mem = s.mem := rfl
@[simp] theorem State.putV_tags (s : State) (d : Dst) (v : Word) : (s.putV d v).tags = s.tags := rfl
@[simp] theorem State.putV_poison (s : State) (d : Dst) (v : Word) : (s.putV d v).poison = s.poison := rfl
@[simp] theorem State.putV_links (s : State) (d : Dst) (v : Word) : (s.putV d v).links = s.links := rfl
@[simp] theorem State.putV_pm (s : State) (d : Dst) (v : Word) : (s.putV d v).pm = s.pm := rfl
@[simp] theorem State.putV_launches (s : State) (d : Dst) (v : Word) : (s.putV d v).launches = s.launches := rfl
@[simp] theorem State.putV_nextLaunch (s : State) (d : Dst) (v : Word) : (s.putV d v).nextLaunch = s.nextLaunch := rfl
@[simp] theorem State.putV_naks (s : State) (d : Dst) (v : Word) : (s.putV d v).naks = s.naks := rfl
@[simp] theorem State.putV_dir (s : State) (d : Dst) (v : Word) : (s.putV d v).dir = s.dir := rfl
@[simp] theorem State.putV_dies (s : State) (d : Dst) (v : Word) : (s.putV d v).dies = s.dies := rfl
@[simp] theorem State.putV_sower (s : State) (d : Dst) (v : Word) : (s.putV d v).sower = s.sower := rfl
@[simp] theorem State.putV_queues (s : State) (d : Dst) (v : Word) : (s.putV d v).queues = s.queues := rfl
@[simp] theorem State.putV_turns (s : State) (d : Dst) (v : Word) : (s.putV d v).turns = s.turns := rfl
@[simp] theorem State.putV_saves (s : State) (d : Dst) (v : Word) : (s.putV d v).saves = s.saves := rfl
@[simp] theorem State.putV_time (s : State) (d : Dst) (v : Word) : (s.putV d v).time = s.time := rfl
@[simp] theorem State.putV_firmware (s : State) (d : Dst) (v : Word) : (s.putV d v).firmware = s.firmware := rfl
@[simp] theorem State.putV_ckpt (s : State) (d : Dst) (v : Word) : (s.putV d v).ckpt = s.ckpt := rfl
@[simp] theorem State.putV_hostDown (s : State) (d : Dst) (v : Word) : (s.putV d v).hostDown = s.hostDown := rfl
@[simp] theorem State.putV_hostIo (s : State) (d : Dst) (v : Word) : (s.putV d v).hostIo = s.hostIo := rfl
@[simp] theorem State.putV_ongeozDown (s : State) (d : Dst) (v : Word) : (s.putV d v).ongeozDown = s.ongeozDown := rfl
@[simp] theorem State.putV_farDown (s : State) (d : Dst) (v : Word) : (s.putV d v).farDown = s.farDown := rfl
@[simp] theorem State.putV_out (s : State) (d : Dst) (v : Word) : (s.putV d v).out = s.out := rfl
@[simp] theorem State.putV_asyncs (s : State) (d : Dst) (v : Word) : (s.putV d v).asyncs = s.asyncs := rfl
@[simp] theorem State.putV_jobIds (s : State) (d : Dst) (v : Word) : (s.putV d v).jobIds = s.jobIds := rfl
@[simp] theorem State.putV_drillLast (s : State) (d : Dst) (v : Word) : (s.putV d v).drillLast = s.drillLast := rfl
@[simp] theorem State.putV_portLast (s : State) (d : Dst) (v : Word) : (s.putV d v).portLast = s.portLast := rfl
@[simp] theorem State.putV_stime (s : State) (d : Dst) (v : Word) : (s.putV d v).stime = s.stime := rfl
@[simp] theorem State.putV_serial (s : State) (d : Dst) (v : Word) : (s.putV d v).serial = s.serial := rfl
@[simp] theorem State.putV_powered (s : State) (d : Dst) (v : Word) : (s.putV d v).powered = s.powered := rfl
@[simp] theorem State.putV_cur (s : State) (d : Dst) (v : Word) : (s.putV d v).cur = s.cur := rfl
@[simp] theorem State.putV_slot (s : State) (d : Dst) (v : Word) : (s.putV d v).slot = s.slot := rfl
@[simp] theorem State.putV_inputs (s : State) (d : Dst) (v : Word) : (s.putV d v).inputs = s.inputs := rfl
@[simp] theorem State.putV_again (s : State) (d : Dst) (v : Word) : (s.putV d v).again = s.again := rfl
@[simp] theorem State.putV_held (s : State) (d : Dst) (v : Word) : (s.putV d v).held = s.held := rfl
@[simp] theorem State.putV_turn (s : State) (d : Dst) (v : Word) : (s.putV d v).turn = s.turn := rfl
@[simp] theorem State.putV_steps (s : State) (d : Dst) (v : Word) : (s.putV d v).steps = s.steps := rfl
@[simp] theorem State.putV_rotor (s : State) (d : Dst) (v : Word) : (s.putV d v).rotor = s.rotor := rfl

/-! ## `advance` -/

@[simp] theorem State.advance_mem (s : State) (n : Nat) : (s.advance n).mem = s.mem := rfl
@[simp] theorem State.advance_tags (s : State) (n : Nat) : (s.advance n).tags = s.tags := rfl
@[simp] theorem State.advance_poison (s : State) (n : Nat) : (s.advance n).poison = s.poison := rfl
@[simp] theorem State.advance_links (s : State) (n : Nat) : (s.advance n).links = s.links := rfl
@[simp] theorem State.advance_pm (s : State) (n : Nat) : (s.advance n).pm = s.pm := rfl
@[simp] theorem State.advance_launches (s : State) (n : Nat) : (s.advance n).launches = s.launches := rfl
@[simp] theorem State.advance_nextLaunch (s : State) (n : Nat) : (s.advance n).nextLaunch = s.nextLaunch := rfl
@[simp] theorem State.advance_naks (s : State) (n : Nat) : (s.advance n).naks = s.naks := rfl
@[simp] theorem State.advance_dir (s : State) (n : Nat) : (s.advance n).dir = s.dir := rfl
@[simp] theorem State.advance_dies (s : State) (n : Nat) : (s.advance n).dies = s.dies := rfl
@[simp] theorem State.advance_sower (s : State) (n : Nat) : (s.advance n).sower = s.sower := rfl
@[simp] theorem State.advance_queues (s : State) (n : Nat) : (s.advance n).queues = s.queues := rfl
@[simp] theorem State.advance_turns (s : State) (n : Nat) : (s.advance n).turns = s.turns := rfl
@[simp] theorem State.advance_saves (s : State) (n : Nat) : (s.advance n).saves = s.saves := rfl
@[simp] theorem State.advance_time (s : State) (n : Nat) : (s.advance n).time = s.time := rfl
@[simp] theorem State.advance_firmware (s : State) (n : Nat) : (s.advance n).firmware = s.firmware := rfl
@[simp] theorem State.advance_ckpt (s : State) (n : Nat) : (s.advance n).ckpt = s.ckpt := rfl
@[simp] theorem State.advance_hostDown (s : State) (n : Nat) : (s.advance n).hostDown = s.hostDown := rfl
@[simp] theorem State.advance_hostIo (s : State) (n : Nat) : (s.advance n).hostIo = s.hostIo := rfl
@[simp] theorem State.advance_ongeozDown (s : State) (n : Nat) : (s.advance n).ongeozDown = s.ongeozDown := rfl
@[simp] theorem State.advance_farDown (s : State) (n : Nat) : (s.advance n).farDown = s.farDown := rfl
@[simp] theorem State.advance_out (s : State) (n : Nat) : (s.advance n).out = s.out := rfl
@[simp] theorem State.advance_asyncs (s : State) (n : Nat) : (s.advance n).asyncs = s.asyncs := rfl
@[simp] theorem State.advance_jobIds (s : State) (n : Nat) : (s.advance n).jobIds = s.jobIds := rfl
@[simp] theorem State.advance_drillLast (s : State) (n : Nat) : (s.advance n).drillLast = s.drillLast := rfl
@[simp] theorem State.advance_portLast (s : State) (n : Nat) : (s.advance n).portLast = s.portLast := rfl
@[simp] theorem State.advance_stime (s : State) (n : Nat) : (s.advance n).stime = s.stime := rfl
@[simp] theorem State.advance_serial (s : State) (n : Nat) : (s.advance n).serial = s.serial := rfl
@[simp] theorem State.advance_powered (s : State) (n : Nat) : (s.advance n).powered = s.powered := rfl
@[simp] theorem State.advance_cur (s : State) (n : Nat) : (s.advance n).cur = s.cur := rfl
@[simp] theorem State.advance_slot (s : State) (n : Nat) : (s.advance n).slot = s.slot := rfl
@[simp] theorem State.advance_inputs (s : State) (n : Nat) : (s.advance n).inputs = s.inputs := rfl
@[simp] theorem State.advance_again (s : State) (n : Nat) : (s.advance n).again = s.again := rfl
@[simp] theorem State.advance_held (s : State) (n : Nat) : (s.advance n).held = s.held := rfl
@[simp] theorem State.advance_turn (s : State) (n : Nat) : (s.advance n).turn = s.turn := rfl
@[simp] theorem State.advance_steps (s : State) (n : Nat) : (s.advance n).steps = s.steps := rfl
@[simp] theorem State.advance_rotor (s : State) (n : Nat) : (s.advance n).rotor = s.rotor := rfl

/-! ## `goto` -/

@[simp] theorem State.goto_mem (s : State) (pc : Word) : (s.goto pc).mem = s.mem := rfl
@[simp] theorem State.goto_tags (s : State) (pc : Word) : (s.goto pc).tags = s.tags := rfl
@[simp] theorem State.goto_poison (s : State) (pc : Word) : (s.goto pc).poison = s.poison := rfl
@[simp] theorem State.goto_links (s : State) (pc : Word) : (s.goto pc).links = s.links := rfl
@[simp] theorem State.goto_pm (s : State) (pc : Word) : (s.goto pc).pm = s.pm := rfl
@[simp] theorem State.goto_launches (s : State) (pc : Word) : (s.goto pc).launches = s.launches := rfl
@[simp] theorem State.goto_nextLaunch (s : State) (pc : Word) : (s.goto pc).nextLaunch = s.nextLaunch := rfl
@[simp] theorem State.goto_naks (s : State) (pc : Word) : (s.goto pc).naks = s.naks := rfl
@[simp] theorem State.goto_dir (s : State) (pc : Word) : (s.goto pc).dir = s.dir := rfl
@[simp] theorem State.goto_dies (s : State) (pc : Word) : (s.goto pc).dies = s.dies := rfl
@[simp] theorem State.goto_sower (s : State) (pc : Word) : (s.goto pc).sower = s.sower := rfl
@[simp] theorem State.goto_queues (s : State) (pc : Word) : (s.goto pc).queues = s.queues := rfl
@[simp] theorem State.goto_turns (s : State) (pc : Word) : (s.goto pc).turns = s.turns := rfl
@[simp] theorem State.goto_saves (s : State) (pc : Word) : (s.goto pc).saves = s.saves := rfl
@[simp] theorem State.goto_time (s : State) (pc : Word) : (s.goto pc).time = s.time := rfl
@[simp] theorem State.goto_firmware (s : State) (pc : Word) : (s.goto pc).firmware = s.firmware := rfl
@[simp] theorem State.goto_ckpt (s : State) (pc : Word) : (s.goto pc).ckpt = s.ckpt := rfl
@[simp] theorem State.goto_hostDown (s : State) (pc : Word) : (s.goto pc).hostDown = s.hostDown := rfl
@[simp] theorem State.goto_hostIo (s : State) (pc : Word) : (s.goto pc).hostIo = s.hostIo := rfl
@[simp] theorem State.goto_ongeozDown (s : State) (pc : Word) : (s.goto pc).ongeozDown = s.ongeozDown := rfl
@[simp] theorem State.goto_farDown (s : State) (pc : Word) : (s.goto pc).farDown = s.farDown := rfl
@[simp] theorem State.goto_out (s : State) (pc : Word) : (s.goto pc).out = s.out := rfl
@[simp] theorem State.goto_asyncs (s : State) (pc : Word) : (s.goto pc).asyncs = s.asyncs := rfl
@[simp] theorem State.goto_jobIds (s : State) (pc : Word) : (s.goto pc).jobIds = s.jobIds := rfl
@[simp] theorem State.goto_drillLast (s : State) (pc : Word) : (s.goto pc).drillLast = s.drillLast := rfl
@[simp] theorem State.goto_portLast (s : State) (pc : Word) : (s.goto pc).portLast = s.portLast := rfl
@[simp] theorem State.goto_stime (s : State) (pc : Word) : (s.goto pc).stime = s.stime := rfl
@[simp] theorem State.goto_serial (s : State) (pc : Word) : (s.goto pc).serial = s.serial := rfl
@[simp] theorem State.goto_powered (s : State) (pc : Word) : (s.goto pc).powered = s.powered := rfl
@[simp] theorem State.goto_cur (s : State) (pc : Word) : (s.goto pc).cur = s.cur := rfl
@[simp] theorem State.goto_slot (s : State) (pc : Word) : (s.goto pc).slot = s.slot := rfl
@[simp] theorem State.goto_inputs (s : State) (pc : Word) : (s.goto pc).inputs = s.inputs := rfl
@[simp] theorem State.goto_again (s : State) (pc : Word) : (s.goto pc).again = s.again := rfl
@[simp] theorem State.goto_held (s : State) (pc : Word) : (s.goto pc).held = s.held := rfl
@[simp] theorem State.goto_turn (s : State) (pc : Word) : (s.goto pc).turn = s.turn := rfl
@[simp] theorem State.goto_steps (s : State) (pc : Word) : (s.goto pc).steps = s.steps := rfl
@[simp] theorem State.goto_rotor (s : State) (pc : Word) : (s.goto pc).rotor = s.rotor := rfl

/-! ## `modLaunch` -/

@[simp] theorem State.modLaunch_mem (s : State) (p i : Nat) (f : Launch → Launch) : (s.modLaunch p i f).mem = s.mem := rfl
@[simp] theorem State.modLaunch_tags (s : State) (p i : Nat) (f : Launch → Launch) : (s.modLaunch p i f).tags = s.tags := rfl
@[simp] theorem State.modLaunch_poison (s : State) (p i : Nat) (f : Launch → Launch) : (s.modLaunch p i f).poison = s.poison := rfl
@[simp] theorem State.modLaunch_links (s : State) (p i : Nat) (f : Launch → Launch) : (s.modLaunch p i f).links = s.links := rfl
@[simp] theorem State.modLaunch_pm (s : State) (p i : Nat) (f : Launch → Launch) : (s.modLaunch p i f).pm = s.pm := rfl
@[simp] theorem State.modLaunch_nextLaunch (s : State) (p i : Nat) (f : Launch → Launch) : (s.modLaunch p i f).nextLaunch = s.nextLaunch := rfl
@[simp] theorem State.modLaunch_naks (s : State) (p i : Nat) (f : Launch → Launch) : (s.modLaunch p i f).naks = s.naks := rfl
@[simp] theorem State.modLaunch_dir (s : State) (p i : Nat) (f : Launch → Launch) : (s.modLaunch p i f).dir = s.dir := rfl
@[simp] theorem State.modLaunch_dies (s : State) (p i : Nat) (f : Launch → Launch) : (s.modLaunch p i f).dies = s.dies := rfl
@[simp] theorem State.modLaunch_sower (s : State) (p i : Nat) (f : Launch → Launch) : (s.modLaunch p i f).sower = s.sower := rfl
@[simp] theorem State.modLaunch_queues (s : State) (p i : Nat) (f : Launch → Launch) : (s.modLaunch p i f).queues = s.queues := rfl
@[simp] theorem State.modLaunch_turns (s : State) (p i : Nat) (f : Launch → Launch) : (s.modLaunch p i f).turns = s.turns := rfl
@[simp] theorem State.modLaunch_saves (s : State) (p i : Nat) (f : Launch → Launch) : (s.modLaunch p i f).saves = s.saves := rfl
@[simp] theorem State.modLaunch_time (s : State) (p i : Nat) (f : Launch → Launch) : (s.modLaunch p i f).time = s.time := rfl
@[simp] theorem State.modLaunch_firmware (s : State) (p i : Nat) (f : Launch → Launch) : (s.modLaunch p i f).firmware = s.firmware := rfl
@[simp] theorem State.modLaunch_ckpt (s : State) (p i : Nat) (f : Launch → Launch) : (s.modLaunch p i f).ckpt = s.ckpt := rfl
@[simp] theorem State.modLaunch_hostDown (s : State) (p i : Nat) (f : Launch → Launch) : (s.modLaunch p i f).hostDown = s.hostDown := rfl
@[simp] theorem State.modLaunch_hostIo (s : State) (p i : Nat) (f : Launch → Launch) : (s.modLaunch p i f).hostIo = s.hostIo := rfl
@[simp] theorem State.modLaunch_ongeozDown (s : State) (p i : Nat) (f : Launch → Launch) : (s.modLaunch p i f).ongeozDown = s.ongeozDown := rfl
@[simp] theorem State.modLaunch_farDown (s : State) (p i : Nat) (f : Launch → Launch) : (s.modLaunch p i f).farDown = s.farDown := rfl
@[simp] theorem State.modLaunch_out (s : State) (p i : Nat) (f : Launch → Launch) : (s.modLaunch p i f).out = s.out := rfl
@[simp] theorem State.modLaunch_asyncs (s : State) (p i : Nat) (f : Launch → Launch) : (s.modLaunch p i f).asyncs = s.asyncs := rfl
@[simp] theorem State.modLaunch_jobIds (s : State) (p i : Nat) (f : Launch → Launch) : (s.modLaunch p i f).jobIds = s.jobIds := rfl
@[simp] theorem State.modLaunch_drillLast (s : State) (p i : Nat) (f : Launch → Launch) : (s.modLaunch p i f).drillLast = s.drillLast := rfl
@[simp] theorem State.modLaunch_portLast (s : State) (p i : Nat) (f : Launch → Launch) : (s.modLaunch p i f).portLast = s.portLast := rfl
@[simp] theorem State.modLaunch_stime (s : State) (p i : Nat) (f : Launch → Launch) : (s.modLaunch p i f).stime = s.stime := rfl
@[simp] theorem State.modLaunch_serial (s : State) (p i : Nat) (f : Launch → Launch) : (s.modLaunch p i f).serial = s.serial := rfl
@[simp] theorem State.modLaunch_powered (s : State) (p i : Nat) (f : Launch → Launch) : (s.modLaunch p i f).powered = s.powered := rfl
@[simp] theorem State.modLaunch_cur (s : State) (p i : Nat) (f : Launch → Launch) : (s.modLaunch p i f).cur = s.cur := rfl
@[simp] theorem State.modLaunch_slot (s : State) (p i : Nat) (f : Launch → Launch) : (s.modLaunch p i f).slot = s.slot := rfl
@[simp] theorem State.modLaunch_inputs (s : State) (p i : Nat) (f : Launch → Launch) : (s.modLaunch p i f).inputs = s.inputs := rfl
@[simp] theorem State.modLaunch_again (s : State) (p i : Nat) (f : Launch → Launch) : (s.modLaunch p i f).again = s.again := rfl
@[simp] theorem State.modLaunch_held (s : State) (p i : Nat) (f : Launch → Launch) : (s.modLaunch p i f).held = s.held := rfl
@[simp] theorem State.modLaunch_turn (s : State) (p i : Nat) (f : Launch → Launch) : (s.modLaunch p i f).turn = s.turn := rfl
@[simp] theorem State.modLaunch_steps (s : State) (p i : Nat) (f : Launch → Launch) : (s.modLaunch p i f).steps = s.steps := rfl
@[simp] theorem State.modLaunch_rotor (s : State) (p i : Nat) (f : Launch → Launch) : (s.modLaunch p i f).rotor = s.rotor := rfl
@[simp] theorem State.modLaunch_cores (s : State) (p i : Nat) (f : Launch → Launch) : (s.modLaunch p i f).cores = s.cores := rfl

/-! ## Reading what was written -/

@[simp] theorem State.core_setCore (s : State) (c : CoreId) (x : Core) : (s.setCore c x).core c = x := by
  simp [State.core, State.setCore, Vector.get_eq_getElem]

theorem State.core_setCore_ne (s : State) {c d : CoreId} (x : Core) (h : d ≠ c) : (s.setCore c x).core d = s.core d := by
  have : c.val ≠ d.val := fun e => h (Fin.ext e.symm)
  simp [State.core, State.setCore, Vector.get_eq_getElem, this]

@[simp] theorem Core.ctx_setCtx (x : Core) (k : SlotId) (t : Ctx) : (x.setCtx k t).ctx k = t := by
  simp [Core.ctx, Core.setCtx, Vector.get_eq_getElem]

theorem Core.ctx_setCtx_ne (x : Core) {k j : SlotId} (t : Ctx) (h : j ≠ k) : (x.setCtx k t).ctx j = x.ctx j := by
  have : k.val ≠ j.val := fun e => h (Fin.ext e.symm)
  simp [Core.ctx, Core.setCtx, Vector.get_eq_getElem, this]

@[simp] theorem State.core_modCore (s : State) (c : CoreId) (f : Core → Core) : (s.modCore c f).core c = f (s.core c) := by
  simp [State.modCore]

theorem State.core_modCore_ne (s : State) {c d : CoreId} (f : Core → Core) (h : d ≠ c) : (s.modCore c f).core d = s.core d := by
  simp [State.modCore, State.core_setCore_ne _ _ h]

@[simp] theorem State.ctx_setCtx (s : State) (c : CoreId) (k : SlotId) (t : Ctx) : (s.setCtx c k t).ctx c k = t := by
  simp [State.ctx, State.setCtx]

@[simp] theorem State.me_setMe (s : State) (t : Ctx) : (s.setMe t).me = t := by
  simp [State.me, State.setMe]

@[simp] theorem State.me_modMe (s : State) (f : Ctx → Ctx) : (s.modMe f).me = f s.me := by
  simp [State.modMe]

@[simp] theorem State.setCore_core (s : State) (c : CoreId) : s.setCore c (s.core c) = s := by
  simp [State.setCore, State.core, Vector.get_eq_getElem]

@[simp] theorem Core.setCtx_ctx (x : Core) (k : SlotId) : x.setCtx k (x.ctx k) = x := by
  simp [Core.setCtx, Core.ctx, Vector.get_eq_getElem]

@[simp] theorem State.setMe_me (s : State) : s.setMe s.me = s := by
  simp [State.setMe, State.setCtx, State.me, State.ctx]

/-- An update of the executing context that changes nothing leaves the state. -/
theorem State.modMe_eq (s : State) (f : Ctx → Ctx) (h : f s.me = s.me) : s.modMe f = s := by
  simp [State.modMe, h]

@[simp] theorem State.setCore_setCore (s : State) (c : CoreId) (x y : Core) : (s.setCore c x).setCore c y = s.setCore c y := by
  simp [State.setCore]

@[simp] theorem Core.setCtx_setCtx (x : Core) (k : SlotId) (t u : Ctx) : (x.setCtx k t).setCtx k u = x.setCtx k u := by
  simp [Core.setCtx]

@[simp] theorem State.setMe_setMe (s : State) (t u : Ctx) : (s.setMe t).setMe u = s.setMe u := by
  show ((s.setMe t).setCore s.cur (((s.setMe t).core s.cur).setCtx s.slot u)) = _
  simp [State.setMe, State.setCtx]

/-- Two updates of the executing context are one. -/
theorem State.modMe_modMe (s : State) (f g : Ctx → Ctx) : (s.modMe f).modMe g = s.modMe fun t => g (f t) := by
  simp [State.modMe]

end Sys2Proof.Machine
end

