-- ==== Sys2Proof/Laws/Ops.lean ====
section
/-! SUPPORT. What the shared operations can do, each said once: blocking uses, results, accesses, writes of memory, symbols and
traps. -/

namespace Sys2Proof.Machine

/-! ## How an instruction ends -/

@[simp] theorem complete_ok (s t : State) : complete s (.ok t) = .next t := rfl
@[simp] theorem complete_trap (s : State) (t : TrapInfo) : complete s (.error (.trap t)) = .next (s.takeTrap t) := rfl
@[simp] theorem complete_trapAt (s : State) (t : TrapInfo) (u : State) :
    complete s (.error (.trapAt t u)) = .next (u.takeTrap t) := rfl
@[simp] theorem complete_wait (s : State) :
    complete s (.error .wait) = .next (s.modMe fun t => { t with run := .blocked }) := rfl
@[simp] theorem complete_sleep (s : State) :
    complete s (.error .sleep) = .next (s.modMe fun t => { t with run := .asleep }) := rfl
@[simp] theorem complete_touch (s u : State) :
    complete s (.error (.touch u)) = .next (u.modMe fun t => { t with run := .touching }) := rfl
@[simp] theorem complete_hold (s u : State) (r : Run) :
    complete s (.error (.hold u r)) = .next (u.modMe fun t => { t with run := r }) := rfl

/-- An instruction row always answers a next state. -/
theorem complete_next (s : State) (r : Res State) : ∃ t, complete s r = .next t := by
  rcases r with e | t
  · cases e <;> exact ⟨_, rfl⟩
  · exact ⟨_, rfl⟩

/-- A computation of a meaning followed by another. -/
theorem res_bind_ok {α β : Type} {r : Res α} {f : α → Res β} {b : β} :
    (r >>= f) = .ok b ↔ ∃ a, r = .ok a ∧ f a = .ok b := by
  cases r <;> simp [bind, Except.bind]

theorem res_bind_error {α β : Type} {r : Res α} {f : α → Res β} {e : Stop} :
    (r >>= f) = .error e ↔ r = .error e ∨ ∃ a, r = .ok a ∧ f a = .error e := by
  cases r <;> simp [bind, Except.bind]

@[simp] theorem check_ok {ok : Bool} {c : Cause} {a : Word} {u : Unit} : check ok c a = .ok u ↔ ok = true := by
  cases ok <;> simp [check, trap]

@[simp] theorem waitFor_ok {ok : Bool} {u : Unit} : waitFor ok = .ok u ↔ ok = true := by
  cases ok <;> simp [waitFor, wait]

theorem check_error {ok : Bool} {c : Cause} {a : Word} {e : Stop} :
    check ok c a = .error e ↔ ok = false ∧ e = .trap { cause := c, addr := a } := by
  cases ok <;> simp [check, trap, eq_comm]

theorem waitFor_error {ok : Bool} {e : Stop} : waitFor ok = .error e ↔ ok = false ∧ e = .wait := by
  cases ok <;> simp [waitFor, wait, eq_comm]

/-- A walk that waits for a line of its tables answers no value (R304). -/
theorem State.walkWait_ne {α : Type} (s : State) (n : Nat) (a : α) : s.walkWait n ≠ .ok a := by
  unfold State.walkWait
  split
  · exact nofun
  · exact nofun

@[simp] theorem State.precise_ok {α : Type} {s : State} {r : Except AccErr α} {a : α} : s.precise r = .ok a ↔ r = .ok a := by
  rcases r with (_ | _ | _) | _ <;> simp [State.precise, trap, State.walkWait_ne]

/-! ## Blocking uses -/

@[simp] theorem Core.badSym_value (x : Core) (v : Word) : x.badSym (.value v) = none := rfl

/-- Registers that are all VALUEs may be used. -/
theorem State.need_values (s : State) (ws : List Word) : s.need (ws.map .value) = .ok () := by
  have h : (ws.map Reg.value).findSome? s.myCore.badSym = none := by
    simp [List.findSome?_eq_none_iff]
  simp [State.need, h]

/-- Registers that pass a blocking use are VALUEs (R71). -/
theorem State.need_ok {s : State} {rs : List Reg} (h : s.need rs = .ok ()) : ∀ r ∈ rs, ∃ v, r = .value v := by
  unfold State.need at h
  split at h
  · cases h
  · split at h
    · intro r hr
      have := List.all_eq_true.mp ‹_› r hr
      cases r <;> simp_all
    · cases h

/-- A blocking use either passes, traps on a failed symbol that a register names, or waits (R71, R72). -/
theorem State.need_cases (s : State) (rs : List Reg) :
    (s.need rs = .ok () ∧ ∃ ws : List Word, rs = ws.map .value) ∨
    (∃ t r, s.need rs = .error (.trap t) ∧ r ∈ rs ∧ s.myCore.badSym r = some t) ∨
    (s.need rs = wait ∧ ∀ r ∈ rs, s.myCore.badSym r = none) := by
  cases hb : rs.findSome? s.myCore.badSym with
  | some t =>
    obtain ⟨r, hr, ht⟩ := List.exists_of_findSome?_eq_some hb
    exact .inr (.inl ⟨t, r, by simp [State.need, hb], hr, ht⟩)
  | none =>
    cases hn : s.need rs with
    | ok u =>
      refine .inl ⟨rfl, rs.map Reg.val, ?_⟩
      have hall := State.need_ok hn
      rw [List.map_map]
      refine (List.map_id rs).symm.trans (List.map_congr_left fun r hr => ?_)
      obtain ⟨v, rfl⟩ := hall r hr
      rfl
    | error e =>
      refine .inr (.inr ⟨?_, by simpa [List.findSome?_eq_none_iff] using hb⟩)
      unfold State.need at hn
      rw [hb] at hn
      dsimp only at hn
      split at hn
      · cases hn
      · exact hn.symm

theorem State.use1_ok {s : State} {lit : Word} {x : Src} {a : Word} : s.use1 lit x = .ok a ↔ s.me.src lit x = .value a := by
  constructor
  · intro h
    obtain ⟨u, hn, hv⟩ := res_bind_ok.mp h
    obtain ⟨v, hr⟩ := State.need_ok hn _ List.mem_cons_self
    rw [hr] at hv ⊢
    simpa [Reg.val] using hv
  · intro h
    have hn := State.need_values s [a]
    simp only [State.use1, h]
    rw [show [Reg.value a] = [a].map Reg.value from rfl, hn]
    rfl

theorem State.use2_ok {s : State} {lit : Word} {x y : Src} {a b : Word} :
    s.use2 lit x y = .ok (a, b) ↔ s.me.src lit x = .value a ∧ s.me.src lit y = .value b := by
  constructor
  · intro h
    obtain ⟨u, hn, hv⟩ := res_bind_ok.mp h
    obtain ⟨v, hr⟩ := State.need_ok hn (s.me.src lit x) (by simp)
    obtain ⟨w, hq⟩ := State.need_ok hn (s.me.src lit y) (by simp)
    rw [hr, hq] at hv
    rw [hr, hq]
    simpa [Reg.val] using hv
  · rintro ⟨hx, hy⟩
    have hn := State.need_values s [a, b]
    simp only [State.use2, hx, hy]
    rw [show [Reg.value a, .value b] = [a, b].map Reg.value from rfl, hn]
    rfl

theorem State.use3_ok {s : State} {lit : Word} {x y z : Src} {a b c : Word} :
    s.use3 lit x y z = .ok (a, b, c) ↔
      s.me.src lit x = .value a ∧ s.me.src lit y = .value b ∧ s.me.src lit z = .value c := by
  constructor
  · intro h
    obtain ⟨u, hn, hv⟩ := res_bind_ok.mp h
    obtain ⟨v, hr⟩ := State.need_ok hn (s.me.src lit x) (by simp)
    obtain ⟨w, hq⟩ := State.need_ok hn (s.me.src lit y) (by simp)
    obtain ⟨o, hp⟩ := State.need_ok hn (s.me.src lit z) (by simp)
    rw [hr, hq, hp] at hv
    rw [hr, hq, hp]
    simpa [Reg.val] using hv
  · rintro ⟨hx, hy, hz⟩
    have hn := State.need_values s [a, b, c]
    simp only [State.use3, hx, hy, hz]
    rw [show [Reg.value a, .value b, .value c] = [a, b, c].map Reg.value from rfl, hn]
    rfl

/-! ## Results -/

@[simp] theorem State.advance_me (s : State) (len : Nat) :
    (s.advance len).me = { s.me with pc := s.me.pc + BitVec.ofNat 64 len, run := .ready } := by simp [State.advance]
@[simp] theorem State.goto_me (s : State) (pc : Word) : (s.goto pc).me = { s.me with pc := pc, run := .ready } := by
  simp [State.goto]
@[simp] theorem State.put_me (s : State) (d : Dst) (x : Reg) : (s.put d x).me = s.me.put d x := by simp [State.put]

@[simp] theorem State.result_eq_finish (s : State) (d : Dst) (v : Word) (evs : List Nat) (len : Nat) :
    s.result d v evs len = s.finish d (.value v) evs len := rfl

@[simp] theorem State.finish_mem (s : State) (d : Dst) (r : Reg) (evs : List Nat) (len : Nat) :
    (s.finish d r evs len).mem = s.mem := by
  unfold State.finish State.countAll
  split <;> rfl

/-! ## Writes of memory -/

/-- A first write to a CUT page touches only the shadow reserve (R440). -/
theorem State.keepCut_frame (s : State) (ks : List Nat) : { s.keepCut ks with ckpt := s.ckpt } = s := by
  unfold State.keepCut
  split
  · rename_i hcut
    clear hcut
    have : ∀ (l : List Nat) (t : State), { t with ckpt := s.ckpt } = s → { l.foldl (fun s pg =>
        if s.cutPage pg then
          { s with ckpt := { s.ckpt with shadow := s.ckpt.shadow ++
            [(pg, s.mem.slice (pg * 65536) 65536, s.tags.filter (fun t => t.1 / 2048 == pg),
              s.poison.filter (fun g => g / 2048 == pg))] } }
        else s) t with ckpt := s.ckpt } = s := by
      intro l
      induction l with
      | nil => exact fun t h => h
      | cons p rest ih =>
        intro t h
        rw [List.foldl_cons]
        apply ih
        split <;> exact h
    exact this _ s rfl
  · rfl

/-- A write changes memory, clears links on its lines, and may fill the shadow reserve: nothing else (R133, R440). -/
theorem State.write_frame (s : State) (self : Option (Nat × Nat)) (ks : List Nat) (bs : List Byte) :
    { s.write self ks bs with mem := s.mem, links := s.links, ckpt := s.ckpt } = s := by
  have h := State.keepCut_frame s ks
  simp only [State.write]
  exact congrArg (fun t : State => { t with mem := s.mem, links := s.links }) h

/-- A write by an engine is a write at some of its addresses, with poison changed. -/
theorem State.engineWrite_eq (s : State) (ks : List Nat) (bs : List Byte) (bad : List Bool) :
    ∃ ls cs ps, (∀ a ∈ ls, a ∈ ks) ∧ s.engineWrite ks bs bad = { s.write none ls cs with poison := ps } := by
  refine ⟨_, _, _, fun a ha => ?_, rfl⟩
  obtain ⟨p, hp, rfl⟩ := List.mem_map.mp ha
  exact (List.of_mem_zip (List.mem_filter.mp hp).1).1

/-- A write by an engine changes poison besides (R431 to R433). -/
theorem State.engineWrite_frame (s : State) (ks : List Nat) (bs : List Byte) (bad : List Bool) :
    { s.engineWrite ks bs bad with mem := s.mem, links := s.links, ckpt := s.ckpt, poison := s.poison } = s := by
  obtain ⟨ls, cs, ps, -, h⟩ := State.engineWrite_eq s ks bs bad
  rw [h]
  exact congrArg (fun t : State => { t with poison := s.poison }) (State.write_frame s none ls cs)

/-- A byte outside a write reads as before. -/
theorem State.write_get_ne {s : State} (self : Option (Nat × Nat)) {ks : List Nat} (bs : List Byte) {a : Nat}
    (h : s.mem.wf = true) (ha : a ∉ ks) : (s.write self ks bs).mem.get a = s.mem.get a := by
  rw [State.write_mem]
  refine Memory.get_setAll_ne _ h fun p hp => ?_
  rintro rfl
  exact ha (List.of_mem_zip hp).1

/-! ## Accesses -/

/-- Requests at the homes move the directories and clear links, and do nothing else (R133, R294). -/
theorem State.toHome_frame (s : State) (f : From) (r : Req) (mode : Nat) (lines : List Nat) :
    { s.toHome f r mode lines with dir := s.dir, links := s.links } = s := rfl

theorem State.walked_frame (s : State) (f : From) (a : Acc) : { s.walked f a with dir := s.dir, links := s.links } = s := by
  unfold State.walked
  split <;> rfl

theorem State.arrive_frame (s : State) (f : From) (a : Acc) (r : Req) :
    { s.arrive f a r with dir := s.dir, links := s.links } = s := by
  unfold State.arrive
  split
  · exact State.walked_frame s f a
  · dsimp only
    split
    · exact State.walked_frame s f a
    · split <;> exact State.walked_frame s f a
  · exact State.walked_frame s f a

/-- A request that waits sends snoops or host requests, and does nothing else. -/
theorem State.demand_frame {s t : State} {f : From} {a : Acc} {r : Req} (h : s.demand f a r = some t) :
    { t with dir := { t.dir with snoops := s.dir.snoops, wants := s.dir.wants } } = s := by
  have snoops (ls : List Nat) (b : Bool) :
      { s.sendSnoops ls b with dir := { (s.sendSnoops ls b).dir with snoops := s.dir.snoops, wants := s.dir.wants } } = s := rfl
  unfold State.demand at h
  split at h
  · cases h; rfl
  · split at h
    · dsimp only at h
      split at h <;> cases h
      exact snoops ..
    · split at h
      · cases h; rfl
      · split at h
        · dsimp only at h
          split at h <;> cases h
          rfl
        · split at h
          · cases h
          · dsimp only at h
            split at h <;> cases h
            rfl
    · cases h

/-- A request that is granted: the directories move, and a write is noted for the next release (R289, R399). -/
theorem State.request_ok {s t : State} {a : Acc} {r : Req} (h : s.request a r = .ok t) :
    s.demand (From.ofCore s.cur) a r = none ∧ t =
      (let u := s.arrive (From.ofCore s.cur) a r
       if r.writes then u.noteWrite a else u) := by
  unfold State.request at h
  cases hd : s.demand (From.ofCore s.cur) a r with
  | some u =>
    simp only [hd, State.await] at h
    split at h <;> cases h
  | none =>
    simp only [hd] at h
    exact ⟨rfl, by injection h with h; exact h.symm⟩

theorem State.arrive_mem (s : State) (f : From) (a : Acc) (r : Req) : (s.arrive f a r).mem = s.mem :=
  show ({ s.arrive f a r with dir := s.dir, links := s.links } : State).mem = s.mem from congrArg State.mem (State.arrive_frame s f a r)

theorem State.request_mem {s t : State} {a : Acc} {r : Req} (h : s.request a r = .ok t) : t.mem = s.mem := by
  obtain ⟨-, rfl⟩ := State.request_ok h
  dsimp only
  split
  · exact State.arrive_mem ..
  · exact State.arrive_mem ..

/-- What an access that is performed has met. -/
theorem State.access_ok {s t : State} {k : AKind} {w : Win} {ea : Word} {n : Nat} {r : Req} {a : Acc}
    (h : s.access k w ea n r a = .ok t) :
    s.touchGate w ea n = .ok () ∧ s.me.vqTouches a.keys = false ∧ (w == .glob && k.reads && s.me.parkedOn ea n) = false ∧
    (w == .glob || !k.reads || !s.poisoned a.keys) = true ∧ s.request a r = .ok t ∧
    (k.reads && a.ncHost && t.poisoned a.keys) = false := by
  obtain ⟨u, hu, h⟩ := res_bind_ok.mp h
  obtain ⟨v, hv, h⟩ := res_bind_ok.mp h
  obtain ⟨x, hx, h⟩ := res_bind_ok.mp h
  obtain ⟨y, hy, h⟩ := res_bind_ok.mp h
  rw [waitFor_ok] at hv
  rw [check_ok] at hx
  simp only [Bool.and_eq_true, Bool.not_eq_true'] at hv
  split at h
  · cases h
  · cases h
    exact ⟨hu, hv.1, hv.2, hx, hy, Bool.eq_false_iff.mpr ‹¬_›⟩

theorem State.access_mem {s t : State} {k : AKind} {w : Win} {ea : Word} {n : Nat} {r : Req} {a : Acc}
    (h : s.access k w ea n r a = .ok t) : t.mem = s.mem := State.request_mem (State.access_ok h).2.2.2.2.1

/-- What a load's access that is performed has met. -/
theorem State.loadAcc_ok {s t : State} {w : Win} {ea : Word} {n : Nat} {a : Acc} (h : s.loadAcc w ea n = .ok (t, a)) :
    s.accessGate = .ok () ∧ s.parkGate w ea n n = .ok () ∧ s.resolve .load w ea n n = .ok a ∧
      s.access .load w ea n .read a = .ok t := by
  obtain ⟨u, hu, h⟩ := res_bind_ok.mp h
  obtain ⟨x, hx, h⟩ := res_bind_ok.mp h
  obtain ⟨b, hb, h⟩ := res_bind_ok.mp h
  obtain ⟨v, hv, h⟩ := res_bind_ok.mp h
  cases h
  exact ⟨hu, hx, State.precise_ok.mp hb, hv⟩

theorem State.storeAcc_ok {s t : State} {k : AKind} {w : Win} {ea : Word} {n : Nat} {a : Acc}
    (h : s.storeAcc k w ea n = .ok (t, a)) :
    s.accessGate = .ok () ∧ s.resolve k w ea n n = .ok a ∧ s.access k w ea n .store a = .ok t := by
  obtain ⟨u, hu, h⟩ := res_bind_ok.mp h
  obtain ⟨b, hb, h⟩ := res_bind_ok.mp h
  obtain ⟨v, hv, h⟩ := res_bind_ok.mp h
  cases h
  exact ⟨hu, State.precise_ok.mp hb, hv⟩

/-- Trigger counters raised change only the sower (R309, R310). -/
theorem State.raise_frame (s : State) (c : Nat) (v : Word) : { s.raise c v with sower := s.sower } = s := rfl

/-- A register of headland space written, or read and cleared, leaves memory (R7, R421). -/
@[simp] theorem State.headPut_mem (s : State) (r : HeadReg) (mode : Mode) (v : Word) : (s.headPut r mode v).mem = s.mem := by
  unfold State.headPut
  split
  · rfl
  · rfl
  · rfl
  · unfold State.writeCkptCtl State.ckptGo
    dsimp only
    split
    · split <;> rfl
    · rfl
  · unfold State.writeCkptDst
    split <;> rfl

@[simp] theorem State.headTaken_mem (s : State) (r : HeadReg) : (s.headTaken r).mem = s.mem := by
  unfold State.headTaken
  split <;> rfl

@[simp] theorem State.tookAcc_mem (s : State) (a : Acc) (n : Nat) : (s.tookAcc a n).mem = s.mem := by
  unfold State.tookAcc
  split <;> simp

/-- A checked access written keeps the form of memory. -/
theorem State.writeAcc_wf {s : State} (a : Acc) (n v : Nat) (h : s.mem.wf = true) : (s.writeAcc a n v).mem.wf = true := by
  unfold State.writeAcc
  split
  · exact h
  · split
    · rw [State.headPut_mem]; exact h
    · exact h
  · exact State.write_wf _ _ _ h

/-! ## Symbols -/

/-- An allocated symbol is an entry that was FREE or RESOLVED; it is PENDING for the executing context (R69). -/
theorem State.alloc_ok {s t : State} {r : SymRef} (h : s.alloc = .ok (t, r)) :
    ∃ i, s.myCore.freeSym s.slot = some i ∧ r = ⟨i, s.serial⟩ ∧
      t = { s.modCore s.cur (fun x => { x with syms := x.syms.set i.val (.pending s.serial (some s.slot)) i.isLt }) with
        serial := s.serial + 1 } := by
  unfold State.alloc at h
  split at h
  · cases h; exact ⟨_, ‹_›, rfl, rfl⟩
  · split at h <;> cases h

@[simp] theorem State.deliver_mem (s : State) (c : CoreId) (r : SymRef) (v : Word) : (s.deliver c r v).mem = s.mem := rfl
@[simp] theorem State.faultSym_mem (s : State) (c : CoreId) (r : SymRef) (v : Word) : (s.faultSym c r v).mem = s.mem := rfl
@[simp] theorem State.settle_mem (s : State) (c : CoreId) : (s.settle c).mem = s.mem := rfl

/-! ## Contexts end, traps -/

@[simp] theorem State.freeSlot_mem (s : State) (m : Message) : (s.freeSlot m).mem = s.mem := by
  unfold State.freeSlot
  dsimp only
  split <;> rfl

@[simp] theorem State.deadLetter_mem (s : State) (c : CoreId) (m : Message) : (s.deadLetter c m).mem = s.mem := by
  simp [State.deadLetter]

@[simp] theorem State.dropInbox_mem (s : State) (c : CoreId) (k : SlotId) : (s.dropInbox c k).mem = s.mem := by
  have : ∀ (l : List (Fin 16 × Message)) (t : State), t.mem = s.mem →
      (l.foldl (fun s p => s.deadLetter c p.2) t).mem = s.mem := by
    intro l
    induction l with
    | nil => exact fun t h => h
    | cons p rest ih => exact fun t h => ih _ (by simpa using h)
  unfold State.dropInbox
  dsimp only
  exact this _ _ rfl

@[simp] theorem State.unclaim_mem (s : State) (c : CoreId) (k : SlotId) : (s.unclaim c k).mem = s.mem := rfl

@[simp] theorem State.endCtx_mem (s : State) (c : CoreId) (k : SlotId) : (s.endCtx c k).mem = s.mem := by
  show (s.dropInbox c k).mem = s.mem
  simp

/-- A trap record written keeps the form of memory. -/
theorem State.putRecord_wf {s : State} (a : Acc) (bs : List Byte) (h : s.mem.wf = true) : (s.putRecord a bs).mem.wf = true :=
  State.write_wf none _ _ (by rw [State.arrive_mem]; exact h)

/-- A fatal trap writes at most its record. -/
theorem State.fatalTrap_wf {s : State} (t : TrapInfo) (pc : Word) (block : Option Acc) (h : s.mem.wf = true) :
    (s.fatalTrap t pc block).mem.wf = true := by
  unfold State.fatalTrap
  simp only [State.endCtx_mem]
  cases block with
  | none => dsimp only; split <;> exact h
  | some a => dsimp only; split <;> exact State.putRecord_wf _ _ h

theorem State.unhandled_wf {s : State} (t : TrapInfo) (pc : Word) (block : Option Acc) (h : s.mem.wf = true) :
    (s.unhandled t pc block).mem.wf = true := by
  unfold State.unhandled
  split
  · exact h
  · exact State.fatalTrap_wf _ _ _ h

/-- What a request sends leaves memory. -/
theorem State.demand_mem {s t : State} {f : From} {a : Acc} {r : Req} (h : s.demand f a r = some t) : t.mem = s.mem :=
  show ({ t with dir := { t.dir with snoops := s.dir.snoops, wants := s.dir.wants } } : State).mem = s.mem from
    congrArg State.mem (State.demand_frame h)

/-- Taking a trap keeps the form of memory (R376, R379). -/
theorem State.takeTrap_wf {s : State} (t : TrapInfo) (h : s.mem.wf = true) : (s.takeTrap t).mem.wf = true := by
  unfold State.takeTrap
  dsimp only
  split
  · exact h
  · exact State.unhandled_wf _ _ _ h
  · split
    · rename_i hd
      show (State.mem _).wf = true
      rw [State.holdTrap, State.modMe_mem, State.demand_mem hd]
      exact h
    · split
      · exact State.unhandled_wf _ _ _ h
      · exact State.putRecord_wf _ _ h

@[simp] theorem State.returnFromTrap_mem (s : State) : s.returnFromTrap.mem = s.mem := rfl

/-- However a meaning ends, memory keeps its form, if it does in every state the meaning hands on. -/
theorem complete_wf {s t : State} {r : Res State} (h : complete s r = .next t) (hs : s.mem.wf = true)
    (ho : ∀ u, r = .ok u → u.mem.wf = true) (ht : ∀ i u, r = .error (.trapAt i u) → u.mem.wf = true)
    (hc : ∀ u, r = .error (.touch u) → u.mem.wf = true) (hk : ∀ u q, r = .error (.hold u q) → u.mem.wf = true) :
    t.mem.wf = true := by
  rcases r with e | u
  · cases e with
    | trap i => cases h; exact State.takeTrap_wf _ hs
    | trapAt i v => cases h; exact State.takeTrap_wf _ (ht i v rfl)
    | wait => cases h; exact hs
    | sleep => cases h; exact hs
    | touch v => cases h; exact hc v rfl
    | hold v q => cases h; exact hk v q rfl
  · cases h; exact ho _ rfl

end Sys2Proof.Machine
end

