-- ==== Sys2Proof/Tests/Slice0.lean ====
section
/-! SUPPORT. Tests: for every obligation a state and operands that meet its hypotheses (theorems wit_…), terms that no word
encodes, words written out from the spec, and single steps of the spec's worked examples (theorems test_…). -/

namespace Sys2Proof.Tests

set_option maxRecDepth 100000
set_option Elab.async false

open Sys2Proof.Machine Sys2Proof.Stmt

/-- A live context on core 0, slot 0, mode U, with memory zero but for its tables. -/
def demo : State := State.reset.load []

/-- The context, its core and its launch changed. -/
def withMe (f : Ctx → Ctx) : State := demo.modMe f
def withCore (f : Core → Core) : State := demo.modCore 0 f

/-- Whether a step or an instruction answers a next state with a property. -/
def after (o : Host.Outcome State Fault Refusal) (p : State → Bool) : Bool :=
  match o with
  | .next t => p t
  | _ => false

/-- Whether a computation answers a value with a property. -/
def okAnd {α β : Type} (r : Except α β) (p : β → Bool) : Bool :=
  match r with
  | .ok a => p a
  | .error _ => false

theorem next_of {o : Host.Outcome State Fault Refusal} {p : State → Bool} (h : after o p = true) : ∃ t, o = .next t ∧ p t = true := by
  cases o <;> simp_all [after]

theorem ok_of {α β : Type} {r : Except α β} {p : β → Bool} (h : okAnd r p = true) : ∃ a, r = .ok a ∧ p a = true := by
  cases r <;> simp_all [okAnd]

theorem test_reset_decodes_nothing : decodeTableWord 32 0 = some .trapz := by decide +kernel

theorem wit_EveryStepKeepsMemoryForm : demo.inv = true ∧ ∃ t, step demo = .next t ∧ (t.me.epc == word loadPc) = true :=
  ⟨by decide +kernel, next_of (by decide +kernel)⟩

theorem wit_EncodeThenDecode :
    (Instr.add (.w 3) (.w 1) (.imm 6)).wf = true ∧ encode (.add (.w 3) (.w 1) (.imm 6)) = some [0x03604300] := by decide +kernel

theorem wit_DecodeReadsOnlyItsOwnWords :
    [0, 0].length + 1 = [1, 3, 3, 5].getD ((0x02A08501 : BitVec 32).extractLsb' 0 2).toNat 0 ∧
    ([] : List (BitVec 32)).length + 1 < [1, 3, 3, 5].getD ((0x02A08503 : BitVec 32).extractLsb' 0 2).toNat 0 ∧
    illegalMajFn 0x02A08503 = false := by decide +kernel

/-- `demo` with an instruction of one word at the PC: `add w3, w1, 6`. -/
def demoAdd : State := State.reset.withFetchWord 32 0x03604300

/-- The state in which `demoAdd`'s context issues. -/
noncomputable def issuing : State := (Stmt.atTurn demoAdd 0).onto 0 0

theorem issuing_run : ((Stmt.atTurn demoAdd 0).ctx 0 0).run = .ready := by decide +kernel

theorem wit_StepRunsDecodedInstruction :
    Stmt.Chosen demoAdd 0 0 ∧ (∃ ws, issuing.fetchInstrWords = .ok ws ∧ (ws == [0x03604300]) = true) ∧
    ∃ t, exec (.add (.w 3) (.w 1) (.imm 6)) issuing = .next t ∧ (t.me.pc == demoAdd.me.pc + 4) = true :=
  ⟨⟨by unfold Stmt.CoreTurn; decide +kernel, by decide +kernel, by rw [issuing_run]; intro t h; cases h⟩,
    ok_of (by decide +kernel), next_of (by decide +kernel)⟩

/-- `demo` with an empty fetch buffer. -/
def unfetched : State := withCore fun x => { x with fetched := [] }

theorem wit_FetchReadsTheWordsAtThePC :
    (withMe fun c => { c with pc := 0x100003 }).me.pc.toNat % 4 ≠ 0 ∧
    (withMe fun c => { c with pc := 0x1000000000000000 }).fetchKeys 0 0x1000000000000000 4 =
      .error (.fault .translation 0x1000000000000000) ∧
    unfetched.myCore.fetched = [] ∧
    unfetched.fetchKeys unfetched.cur (unfetched.me.pc + BitVec.ofNat 64 (4 * 0)) 4 = .ok [0x100000, 0x100001, 0x100002, 0x100003] ∧
    unfetched.poisoned [0x100000, 0x100001, 0x100002, 0x100003] = false ∧
    1 = [1, 3, 3, 5].getD ((BitVec.ofNat 32 (leNat (unfetched.bytesAt [0x100000, 0x100001, 0x100002, 0x100003]))).extractLsb' 0 2).toNat 0 := by
  decide +kernel

theorem wit_FetchReadsTheBuffer :
    demoAdd.me.pc.toNat % 4 = 0 ∧ ((demoAdd.myCore.fetchedBlock demoAdd.me.pc).any fun b => !b.bad &&
      b.words.getD (demoAdd.me.pc.toNat % 32 / 4) 0 == 0x03604300) = true ∧
    okAnd (demoAdd.fetchKeys demoAdd.cur demoAdd.me.pc 4) (fun _ => true) = true := by decide +kernel

theorem wit_MemoryReadsWhatWasWritten : demo.inv = true ∧ [0x300007, 0x300006].Nodup := by decide +kernel

theorem wit_TrapEntry :
    demo.me.mode = .u ∧ okAnd demo.trapBlock (fun a => a.keys == range 0x1FFFC0 64 && (demo.demand (.ofCore demo.cur) a .store).isNone)
      = true ∧ demo.myLaunch.trapVec ≠ 0 ∧ demo.inv = true := by decide +kernel

theorem wit_FatalTrap :
    (withMe fun c => { c with mode := .h }).me.mode = .h ∧
    (demo.modLaunch 0 1 fun l => { l with trapVec := 0 }).myLaunch.trapVec = 0 ∧
    (demo.modLaunch 0 1 fun l => { l with spillVa := 0x90000000 }).trapBlock = .error (.notPresent 0x8FFFFFC0) ∧
    demo.myCore.launch = some 1 := by decide +kernel

/-- `demo` with w1 a symbolic form over entry 5, which is pending, failed or cancelled. -/
def withSym (r : Reg) (σ : SymState) : State :=
  (demo.modMe fun c => c.setReg (.w 1) r).modCore 0 fun x => { x with syms := x.syms.set 5 σ }

theorem wit_IntegerResults :
    TwoSource (.divX (.l 0) (some .i8) (.w 1) (.imm 0) .lit) .div (some .i8) (.w 1) (.imm 0) .lit 0 12 ∧
    demo.me.src 0 (.imm 0) = .value (-8) ∧ demo.me.src 0 .lit = .value 0 ∧
    OneSource (.clz (.w 1) (.imm 8)) .clz none (.w 1) (.imm 8) 0 4 ∧ demo.me.src 0 (.imm 8) = .value 0 :=
  ⟨.divX .., by decide +kernel, by decide +kernel, .clz .., by decide +kernel⟩

theorem wit_FieldCompareSelectMoveResults :
    TwoWords (.cmpX (.l 0x8000000000000000) .ltz (some .i16) (.w 1) .lit (.imm 7))
      (fun a b => if relHolds .ltz (part (intTy (some .i16)) a) (part (intTy (some .i16)) b) then 1 else 0) (.w 1) .lit (.imm 7)
      0x8000000000000000 12 ∧
    demo.me.src 0x8000000000000000 .lit = .value 0x8000000000000000 ∧
    demo.me.src 0x8000000000000000 (.imm 7) = .value (-1) ∧
    ThreeWords (.sel (.w 1) (.imm 9) (.imm 15)) selResult (.w 1) (.imm 9) (.imm 15) (·.dstReg (.w 1)) 0 4 ∧
    demo.me.src 0 (.imm 9) = .value 1 ∧ demo.me.src 0 (.imm 15) = .value 7 ∧ demo.me.dstReg (.w 1) = .value 0 ∧
    Lea (.leaX .x (.w 2) (.w 1) (.imm 15) 3 0x800000) (.w 2) (.w 1) (.imm 15) 3 ((0x800000 : BitVec 24).signExtend 64) 0 12 ∧
    demo.me.src 0 (.w 1) = .value 0 ∧ Mov (.mov .zero (.imm 15)) none .zero (.imm 15) 0 4 :=
  ⟨.cmpX .., by decide +kernel, by decide +kernel, .sel .., by decide +kernel, by decide +kernel, by decide +kernel, .leaX ..,
   by decide +kernel, .mov ..⟩

theorem wit_SymbolicOperands :
    TwoSource (.sub (.w 2) (.w 1) (.w 1)) .sub none (.w 2) (.w 1) (.w 1) 0 4 ∧
    Folds .sub (.int 5 1 0) (.int 5 1 0) 5 (1 - 1) (0 - 0) ∧
    (withSym (.int 5 1 0) (.pending 0 (some 0))).me.src 0 (.w 1) = .int 5 1 0 ∧
    (withSym (.int 5 1 0) (.pending 0 (some 0))).me.nofold = false ∧
    OneSource (.neg (.w 2) (.w 1)) .neg none (.w 2) (.w 1) 0 4 ∧
    Lea (.lea (.w 2) (.w 1) (.imm 15)) (.w 2) (.w 1) (.imm 15) 0 0 0 4 ∧ Affine (.int 5 1 0) 5 1 0 ∧ Affine (.value 7) 5 0 7 ∧
    Mov (.mov (.w 2) (.w 1)) none (.w 2) (.w 1) 0 4 ∧ (Reg.int 5 1 0).sym = some 5 ∧
    (∃ rs, BlocksOn (withSym (.int 5 1 0) (.pending 0 (some 0))) (.and (.w 2) (.w 1) (.w 0)) rs ∧ rs = [.int 5 1 0, .value 0]) ∧
    (∃ rs, BlocksOn (withSym (.int 5 1 0) (.pending 0 (some 0))) (.mul (.w 2) (.w 1) (.w 1)) rs ∧ rs = [.int 5 1 0, .int 5 1 0]) ∧
    Failed (withSym (.int 5 1 0) (.fault 64)).myCore (.int 5 1 0) { cause := .symFault, addr := 64, sym := some 5 } ∧
    Failed (withSym (.int 5 1 0) .cancelled).myCore (.int 5 1 0) { cause := .symCancelled, sym := some 5 } ∧
    ∀ t, ¬ Failed (withSym (.int 5 1 0) (.pending 0 (some 0))).myCore (.int 5 1 0) t := by
  have h : (withSym (.int 5 1 0) (.pending 0 (some 0))).myCore.syms.get 5 = .pending 0 (some 0) := by decide +kernel
  refine ⟨.sub .., .subBoth .., by decide +kernel, by decide +kernel, .neg .., .lea .., .int .., .value .., .mov .., by decide +kernel,
    ⟨_, .two _ .and none _ _ _ 0 4 (.and ..) (.inl (by decide)), by decide +kernel⟩,
    ⟨_, .product _ none _ _ _ 0 4 (.mul ..) (by decide +kernel) (by decide +kernel), by decide +kernel⟩, .fault _ 5 64 (by decide +kernel) (by decide +kernel),
    .cancelled _ 5 (by decide +kernel) (by decide +kernel), fun t f => ?_⟩
  cases f with
  | fault σ a hs hf =>
    have e : σ = 5 := by simpa [Reg.sym] using hs.symm
    subst e
    rw [h] at hf
    cases hf
  | cancelled σ hs hf =>
    have e : σ = 5 := by simpa [Reg.sym] using hs.symm
    subst e
    rw [h] at hf
    cases hf

/-- `demo` with w1 and w2 holding given registers. -/
def with12 (a b : Reg) : State := demo.modMe fun c => (c.setReg (.w 1) a).setReg (.w 2) b

/-- X times 1.5, rounded to nearest even. -/
def oneEntry : LogEntry := { fn := 2, pos := 0, ty := .f32, rnd := .rne, k1 := 0x3FC00000, k2 := 0 }

theorem wit_FpExactValuesRoundTrip :
    Ty.e4m3.isFloat = true ∧ 0x7F < 2 ^ (8 * Ty.e4m3.bytes) ∧ tyVal .e4m3 0x7F = .nan ∧
    0xFFFF < 2 ^ (8 * Ty.bf16.bytes) ∧ tyVal .bf16 0x0001 ≠ .nan := by decide +kernel

theorem wit_FpLogsAndAffineForms :
    (∃ rs, FpArith (with12 (.int 5 1 0) (.value 0x3FC00000)).me (.fsub (.w 3) (.w 2) (.w 1)) 1 .f32 .dyn false (.w 3) rs 4 ∧
      rs = ([0x3FC00000].map Reg.value).insertIdx 1 (.int 5 1 0)) ∧
    (∃ rs, FpArith (with12 (.log 5 [oneEntry, oneEntry]) (.value 0x7FC00000)).me (.fmul (.w 3) (.w 1) (.w 2)) 2 .f32 .dyn false
      (.w 3) rs 4 ∧ rs = ([0x7FC00000].map Reg.value).insertIdx 0 (.log 5 [oneEntry, oneEntry])) ∧
    (∃ rs, FpArith (with12 (.aff 5 0x3F800000 0x80000000) (.value 0x3FC00000)).me (.faddX .x none .dyn true (.w 3) (.w 1) (.w 2))
      0 .f32 .dyn true (.w 3) rs 12 ∧ rs = ([0x3FC00000].map Reg.value).insertIdx 0 (.aff 5 0x3F800000 0x80000000)) ∧
    (with12 (.int 5 1 0) (.value 0x3FC00000)).me.nofold = false ∧ (with12 (.int 5 1 0) (.value 0x3FC00000)).me.nolog = false :=
  ⟨⟨_, .fsub .., by decide +kernel⟩, ⟨_, .fmul .., by decide +kernel⟩, ⟨_, .faddX .., by decide +kernel⟩, by decide +kernel,
   by decide +kernel⟩

theorem wit_FpResults :
    (∃ rs, FpArith (with12 (.value 0x7F7FFFFF) (.value 0x7F7FFFFF)).me (.fma (.w 2) (.w 1) (.w 1)) 3 .f32 .dyn false (.w 2) rs 4 ∧
      rs = [0x7F7FFFFF, 0x7F7FFFFF, 0x7F7FFFFF].map .value) ∧
    (∃ rs, FpOther (with12 (.value 0x3F800000) (.value 0)).me (.fdiv (.w 3) (.w 1) (.w 2)) (fun x y => x.div y) .f32 .dyn (.w 3) rs
      4 ∧ rs = [0x3F800000, 0].map .value) ∧
    (with12 (.value 0x7FC00000) (.value 0)).me.srcTy .f32 0 (.w 1) = .value 0x7FC00000 ∧
    (with12 (.value 0x7FC00000) (.value 0)).me.srcTy .f32 0 (.w 2) = .value 0 ∧
    (with12 (.value 0x7FC00000) (.value 0)).me.srcTy .e4m3 0x7F .lit = .value 0x7F :=
  ⟨⟨_, .fma .., by decide +kernel⟩, ⟨_, .fdiv .., by decide +kernel⟩, by decide +kernel⟩

theorem wit_SymbolInstructions :
    namesSym demo (.num 63) 63 ∧ (demo.myCore.syms.get 63).code = 4 ∧
    namesSym (withSym (.int 5 1 0) (.pending 0 (some 0))) (.reg (.w 1)) 5 ∧
    ((withSym (.int 5 1 0) (.pending 0 (some 0))).myCore.syms.get 5).code = 1 ∧ ∀ σ, ¬ namesSym demo (.reg (.w 1)) σ :=
  ⟨rfl, by decide +kernel, by unfold namesSym; decide +kernel, by decide +kernel, by unfold namesSym; decide +kernel⟩

theorem wit_DeliveryResolvesEveryHolder :
    (withSym (.int 5 1 0) (.pending 7 (some 0))).myCore.syms.get 5 = .pending 7 (some 0) ∧
    ∀ k, (withSym (.int 5 1 0) (.pending 7 (some 0))).myCore.syms.get 5 ≠ .pending 8 k := by decide +kernel

/-- `demo` with the next 2 GiB mapped as tagged, read-only, privileged and host pages, and a jump table at 0x300000 whose entry
goes to a `land` of label 5 (R112, R361, R362). -/
def mapped : State :=
  { demo with mem := [(0x10020008, 8, 0x0410000000000003), (0x10020010, 8, 0x0030000000000003), (0x10020018, 8, 3),
                      (0x10020020, 8, 0x0018000000000003), (0x300000, 8, 0x100100),
                      (0x100100, 4, (landOf 5).toNat)].foldl (fun m p => Memory.store m p.1 (leBytes p.2.1 p.2.2)) demo.mem }

/-- `mapped` with w1 and w2 holding two values. -/
def mapped12 (a b : Word) : State := mapped.modMe fun c => (c.setReg (.w 1) (.value a)).setReg (.w 2) (.value b)

/-- A privileged context in window 1, one frame below it, with a spill area of one record at 0x400000 (R106). -/
def framed : State :=
  demo.modMe fun c => { c with
    mode := .s, pos := 1, ras := c.ras.set 0 (some 0x100200), spillBase := 0x40000, spillLimit := 1 }

theorem wit_BranchesAndHints :
    Branch (.br 0x20000) ((0x20000 : BitVec 18).signExtend 64) ∧ demo.me.src (litVal (some 7)) .lit = .value 7 ∧
    demo.me.src (litVal none) (.imm 0) = .value (-8) := ⟨.br .., by decide +kernel⟩

theorem wit_LoopCountsDown :
    Loop (.loop (.w 1) 0) (.w 1) ((0 : BitVec 12).signExtend 64) 4 ∧ (mapped12 0 0).me.dstReg (ctrDst (.w 1)) = .value 0 ∧
    (mapped12 1 0).me.dstReg (ctrDst (.w 1)) = .value 1 ∧ 40 ≤ (40 : BitVec 6).toNat := ⟨.loop .., by decide +kernel⟩

theorem wit_CallPushesAFrame :
    Call (.callX 0x800000) ((0x800000 : BitVec 24).signExtend 64) 12 ∧ demo.me.mode = .u ∧ demo.me.pos ≠ 7 ∧
    (withMe fun c => { c with pos := 7 }).me.mode = .u ∧ (withMe fun c => { c with pos := 7 }).me.pos = 7 :=
  ⟨.callX .., by decide +kernel⟩

theorem wit_ReturnsAndJumpTables :
    framed.me.mode ≠ .h ∧ framed.me.pos.val = (0 : Fin 8).val + 1 ∧ framed.me.ras.get 0 = some 0x100200 ∧
    demo.me.mode ≠ .h ∧ demo.me.pos = 0 ∧ (withMe fun c => { c with mode := .h }).me.mode = .h ∧
    JumpTable (.jtc none (.w 1) (.w 2) (.imm 9) 0 5) true (.w 1) (.w 2) (.imm 9) 0 5 0 12 ∧
    mapped.me.mode ≠ .h ∧ (mapped12 0x300000 0).me.src 0 (.w 1) = .value 0x300000 ∧
    (mapped12 0x300000 0).me.src 0 (.w 2) = .value 0 ∧ (mapped12 0x300000 1).me.src 0 (.w 2) = .value 1 ∧
    (mapped12 0x300000 0).me.src 0 (.imm 9) = .value 1 ∧ (mapped12 0x300004 0).me.src 0 (.w 1) = .value 0x300004 ∧
    okAnd ((mapped12 0x300000 0).loadAcc .glob 0x300000 8) (fun p => p.1.valAcc p.2 8 == 0x100100 &&
      okAnd (p.1.landFetch 0x100100) fun q => okAnd (((q.modMe fun c => c.push (q.me.pc + 12)).goto 0x100100).fetchWord 0 0x100100) (· == landOf 5)) = true :=
  ⟨by decide +kernel, by decide +kernel, by decide +kernel, by decide +kernel, by decide +kernel, by decide +kernel, .jtc ..,
   by decide +kernel⟩

theorem wit_SpillAndFill :
    demo.me.mode = .u ∧ (withMe fun c => { c with mode := .h }).me.pos = 0 ∧ framed.me.mode ≠ .u ∧
    framed.me.spillDepth.toNat < framed.me.spillLimit.toNat ∧
    framed.me.stack.toList.take 16 = (List.replicate 16 0).map .value ∧ framed.me.ras.get 0 = some 0x100200 ∧
    okAnd (framed.recordAccs .spill .store (spillRecord framed.me 0)) (fun _ => true) = true ∧
    (framed.modMe fun c => { c with spillDepth := 1 }).me.spillLimit.toNat ≤ 1 ∧
    (framed.modMe fun c => { c with spillDepth := 1, pos := 6 }).me.pos ≠ 7 ∧
    okAnd ((framed.modMe fun c => { c with spillDepth := 1, pos := 6 }).recordAccs .fill .read (spillRecord framed.me 0))
      (fun _ => true) = true := by decide +kernel

theorem wit_HretReturnsToTheSavedPc :
    (withMe fun c => { c with mode := .h, epc := 0x100004 }).me.mode = .h ∧
    (withMe fun c => { c with mode := .h, epc := 0x100004 }).me.epc.toNat % 4 = 0 ∧ demo.me.mode = .u ∧
    okAnd demo.trapBlock (fun a => (demo.demand (.ofCore demo.cur) a .store).isNone) = true ∧ demo.myLaunch.trapVec ≠ 0 ∧ demo.me.pc.toNat % 4 = 0 ∧ framed.me.mode ≠ .u ∧
    framed.me.src (litVal (some 0x100003)) .lit = .value 0x100003 := by decide +kernel

theorem wit_TrapInstructions :
    demo.me.mode = .u ∧ (withMe fun c => { c with mode := .h, epc := 0x100003 }).me.mode ≠ .u ∧
    (withMe fun c => { c with mode := .h, epc := 0x100003 }).me.epc.toNat % 4 ≠ 0 := by decide +kernel

/-- `mapped` with buffer descriptor 0: 16 bytes at 0x300000, readable and writable (R368). -/
def withDesc : State :=
  { mapped12 0 8 with mem := Memory.store (mapped12 0 8).mem 0 (leBytes 8 0x300000 ++ leBytes 8 0 ++ leBytes 8 16 ++ [0, 3]) }

/-- `demo` with the line of 0x300000 linked (R133). -/
def linkedState : State := { mapped12 0x300000 0 with links := [(0, 0, 0x300000 / 64)] }

/-- A context that has written through a link since its last release (R289). -/
def wroteState : State := withMe fun c => { c with wrote := [1] }

/-- A store of 8 bytes parked for a page that is not present, and a context that holds it (R130). -/
def parkedStore : Parked := { va := 0xA0000000, data := 1, cmp := 0, kind := .store, maj := 0x20, fn := 0, ty := none, bytes := 8, sc := .thr, ord := .none, win := .glob, ref := none }


def parkedState : State := withMe fun c => { c with replayQ := [parkedStore] }

/-- Nothing holds an aligned access up, whatever it reaches. -/
def clearOf (s : State) (ea : Word) (n : Nat) (a : Acc) : Bool :=
  !s.me.acqWait && s.me.replayQ.isEmpty && ea.toNat % n == 0 && !s.me.vqTouches a.keys && !s.poisoned a.keys &&
  s.myLaunch.pairs.isEmpty && !s.crossHeld (.ofCore s.cur) a.keys && !s.ckpt.cut

theorem reached_reserve {s : State} (h : s.ckpt.cut = false) (pgs : List Nat) : s.reserveFull pgs = false := by simp [State.reserveFull, h]

/-- An access of the executing core's own window, and whether it is reached. -/
def ownAcc (s : State) (w : Win) (ea : Word) (n : Nat) : Acc :=
  { keys := range (lmKey s.cur w ea.toNat) n, place := .lm s.cur (some w) ea.toNat }
def ownOk (s : State) (k : AKind) (w : Win) (ea : Word) (n : Nat) : Bool :=
  clearOf s ea n (ownAcc s w ea n) && w != .glob && k.window w && decide (ea.toNat + n ≤ s.myLaunch.split.size w) &&
  s.myCore.touched w ea.toNat n == .clear

theorem reached_own {s k w ea n r} (h : ownOk s k w ea n = true) : Reached s k w ea n r (ownAcc s w ea n) := by
  simp only [ownOk, clearOf, ownAcc, Bool.and_eq_true, Bool.not_eq_true', beq_iff_eq, bne_iff_ne, decide_eq_true_eq, List.isEmpty_iff] at h
  simp only [Reached, h, ne_eq, not_false_eq_true, and_self, ownAcc, true_or, reached_reserve, implies_true]

/-- An access of device memory, and whether it is reached. -/
def devAcc (s : State) (ea : Word) (n : Nat) : Acc :=
  match s.walk s.myLaunch ea with
  | .ok f => { keys := range (devKey s.pm s.myLaunch.part (f.addr ea)) n, place := .dev (devKey s.pm s.myLaunch.part (f.addr ea)),
               coh := f.coh, mode := f.mode, part := s.myLaunch.part, walked := f.walked }
  | .error _ => { keys := [], place := .dev 0 }
def devOk (s : State) (k : AKind) (ea : Word) (n : Nat) (r : Req) : Bool :=
  clearOf s ea n (devAcc s ea n) && !s.quarantined (devAcc s ea n).keys &&
  okAnd (s.walk s.myLaunch ea) (fun f => f.allows k s.me.mode && !f.tagged && decide (f.addr ea < partSize s.pm)) &&
  decide (k ∉ [.barrier, .barrierRead]) && (linesOf (devAcc s ea n).keys).all fun m => !s.dir.needsSnoop r m

theorem reached_dev {s k ea n r} (h : devOk s k ea n r = true) : Reached s k .glob ea n r (devAcc s ea n) := by
  rcases hw : s.walk s.myLaunch ea with e | f
  · simp [devOk, hw, okAnd] at h
  simp only [devOk, clearOf, hw, okAnd, Bool.and_eq_true, Bool.not_eq_true', beq_iff_eq, decide_eq_true_eq, List.isEmpty_iff,
    List.all_eq_true] at h
  obtain ⟨⟨⟨⟨hc, hq⟩, hf⟩, hk⟩, hs⟩ := h
  refine ⟨hc.1.1.1.1.1.1.1, hc.1.1.1.1.1.1.2, hc.1.1.1.1.1.2, hc.1.1.1.1.2, hc.1.1.1.2, hc.1.1.2, hc.1.2,
    fun _ => reached_reserve hc.2 _, .inr ⟨rfl, hq, f, hw, hf.1.1, hf.1.2,
    .inr ⟨hk, hf.2, hs, by simp [devAcc, hw]⟩⟩⟩

theorem demo_free (sc : Scope) : ReleaseFree demo sc ∧ AcquireFree demo sc :=
  ⟨⟨by decide +kernel, by decide +kernel, by decide +kernel, fun _ => by cases sc <;> decide +kernel⟩, fun _ => by decide +kernel⟩

theorem linked_free (sc : Scope) : ReleaseFree linkedState sc ∧ AcquireFree linkedState sc :=
  ⟨⟨by decide +kernel, by decide +kernel, by decide +kernel, fun _ => by cases sc <;> decide +kernel⟩, fun _ => by decide +kernel⟩

theorem wit_OwnWindowAccess :
    demo.myLaunch.pairs = [] ∧ demo.myLaunch.split.size .A ≤ 2 ^ 20 ∧ (0x5FFF8 : Word).toNat + 8 ≤ demo.myLaunch.split.size .A ∧
    Unhindered demo .A 0x5FFF8 8 ∧ demo.myLaunch.split.size .A ≤ (0x60000 : Word).toNat ∧
    (0x5FFFF : Word).toNat < demo.myLaunch.split.size .A ∧ (0x5FFFF : Word).toNat % 8 ≠ 0 ∧ demo.me.acqWait = false ∧
    demo.me.replayQ = [] := by unfold Unhindered; decide +kernel

theorem wit_AccessChecksInOrder :
    (∀ r, Reached mapped .load .A 0 64 r (ownAcc mapped .A 0 64)) ∧
    Reached mapped .load .glob 0x300000 8 .read (devAcc mapped 0x300000 8) ∧
    Reached mapped .store .glob 0x300000 8 .store (devAcc mapped 0x300000 8) ∧
    (0x300004 : Word).toNat % 8 ≠ 0 ∧ okAnd (mapped.walk mapped.myLaunch 0x300000) (fun f => f.ua && !f.tagged &&
      decide (f.addr 0x300000 < partSize mapped.pm)) = true ∧
    mapped.walk mapped.myLaunch 0xA0000000 = .error (.notPresent 0xA0000000) ∧
    okAnd (mapped.walk mapped.myLaunch 0x60000000) (fun f => !f.ua) = true ∧ mapped.me.mode ∈ [.u, .h] ∧
    okAnd (mapped.walk mapped.myLaunch 0x40000000) (fun f => f.ua && f.ro) = true ∧
    okAnd (mapped.walk mapped.myLaunch 0x0100000020000000) (fun f => f.ua && f.tagged && !f.ro && !f.fg &&
      decide (f.addr 0x0100000020000000 < partSize mapped.pm)) = true :=
  ⟨fun _ => reached_own (by decide +kernel), reached_dev (by decide +kernel), reached_dev (by decide +kernel), by decide +kernel⟩

theorem wit_AccessChangesOnlyCoherence :
    okAnd (mapped.access .load .glob 0x300000 8 .read { keys := range 0x300000 8, place := .dev 0x300000 }) (fun _ => true) = true ∧
    okAnd (mapped.loadAcc .glob 0x300000 8) (fun _ => true) = true ∧
    okAnd (mapped.storeAcc .store .G 0 1) (fun _ => true) = true := by decide +kernel

theorem wit_LoadResults :
    Load (.ldX .x .i32 .A 0x800000 false (.w 1) .zero .zero) .i32 .A 0x800000 (.w 1) .zero .zero 0 12 ∧
    Linked (.lld .z64 (.w 2) (.w 1) .zero) .z64 .glob 0 (.w 2) (.w 1) .zero 0 4 ∧
    Deferred (.ldd .z64 (.w 2) (.w 1) .zero) .z64 .glob 0 (.w 2) (.w 1) .zero 0 4 ∧
    (mapped12 0x300000 0).me.src 0 (.w 1) = .value 0x300000 ∧ (mapped12 0x300000 0).me.src 0 .zero = .value 0 ∧
    okAnd ((mapped12 0x300000 0).loadAcc .glob 0x300000 8) (fun p => p.2.keys.head? == some 0x300000 &&
      okAnd p.1.alloc fun _ => true) = true ∧
    okAnd ((mapped12 0x300000 0).acquireGate .sys) (fun _ => true) = true ∧
    okAnd (mapped12 0x300000 0).accessGate (fun _ => true) = true ∧
    (mapped12 0xA0000000 0).resolve .load .glob 0xA0000000 8 8 = .error (.notPresent 0xA0000000) ∧
    (mapped12 0x60000000 0).resolve .load .glob 0x60000000 8 8 = .error (.fault .permission 0x60000000) ∧
    okAnd (mapped12 0xA0000000 0).alloc (fun _ => true) = true ∧
    ((withMe fun c => { c with dloads := [{ ref := { s := 5, serial := 7 }, res := .value 1 }] }).ctx 0 0).dloads =
      [{ ref := { s := 5, serial := 7 }, res := .value 1 }] := ⟨.ldX .., .lld .., .ldd .., by decide +kernel⟩

theorem wit_StoreResults :
    Store (.st .i64 (.imm 0) (.w 1) .zero) .i64 .glob 0 (.imm 0) (.w 1) .zero 0 4 ∧ demo.me.src 0 (.imm 0) = .value (-8) ∧
    linkedState.me.src 0 (.w 1) = .value 0x300000 ∧ linkedState.mustPark .glob 0x300000 8 = false ∧
    okAnd (linkedState.storeAcc .store .glob 0x300000 8) (fun p => p.2.keys.head? == some 0x300000) = true ∧
    (linkedState.cur.val, linkedState.slot.val, 0x300000 / 64) ∈ linkedState.links ∧
    ReleaseFree linkedState .pkg ∧ okAnd ((released linkedState).storeAcc .store .glob 0x300000 8) (fun _ => true) = true ∧
    okAnd (mapped12 0xA0000000 0).accessGate (fun _ => true) = true ∧ (mapped12 0xA0000000 0).absentPage 0xA0000000 = true ∧
    (mapped12 0xA0000000 0).me.parkedPage 0xA0000000 = false ∧ (mapped12 0xA0000000 0).me.replayQ.length < 8 :=
  ⟨.st .., by decide +kernel, by decide +kernel, by decide +kernel, by decide +kernel, by decide +kernel, (linked_free _).1,
   by decide +kernel⟩

theorem wit_StoresTouchOnlyTheirBytes :
    (mapped12 0x300000 0).inv = true ∧ (mapped12 0x300000 0).mustPark .glob 0x300000 8 = false ∧
    okAnd ((mapped12 0x300000 0).storeAcc .store .glob 0x300000 8) (fun p =>
      p.2.place == .dev 0x300000 && p.2.keys == range 0x300000 8) = true ∧
    okAnd ((mapped12 0x80000000 0).storeAcc .store .glob 0x80000000 8) (fun p =>
      p.2.place == .host hostBase && p.2.keys == range hostBase 8) = true := by decide +kernel

theorem wit_CheckedBufferAccess :
    BufLoad (.ldb .z64 (.w 3) .zero (.w 2)) .z64 0 (.w 3) .zero (.w 2) 0 4 ∧
    BufStore (.stb .i64 (.w 3) .zero (.w 2)) .i64 0 (.w 3) .zero (.w 2) 0 4 ∧
    withDesc.me.src 0 (.w 2) = .value 8 ∧ withDesc.me.src 0 .zero = .value 0 ∧ okAnd withDesc.accessGate (fun _ => true) = true ∧
    okAnd (withDesc.request (withDesc.descAcc withDesc.myLaunch 0) .read) (fun s =>
      !s.poisoned (withDesc.descAcc withDesc.myLaunch 0).keys && !s.quarantined (withDesc.descAcc withDesc.myLaunch 0).keys &&
      okAnd (s.resolve .load .glob 0x300008 8 8) fun a => okAnd (s.access .load .glob 0x300008 8 .read a) fun _ => true) = true ∧
    (withDesc.desc withDesc.myLaunch 0).length = 16 ∧
    (withDesc.desc withDesc.myLaunch 0).rd = true ∧ (withDesc.desc withDesc.myLaunch 0).wr = true ∧
    okAnd (withDesc.resolve .load .glob 0x300008 8 8) (fun a => okAnd (withDesc.access .load .glob 0x300008 8 .read a) fun _ => true)
      = true ∧
    okAnd (withDesc.resolve .store .glob 0x300008 8 8) (fun a =>
      okAnd (withDesc.access .store .glob 0x300008 8 .store a) fun _ => true) = true ∧
    withDesc.mustPark .glob 0x300008 8 = false ∧ 1024 ≤ (1024 : Word).toNat := ⟨.ldb .., .stb .., by decide +kernel⟩

theorem wit_TagInstructions :
    TagLoad (.ldg (.w 2) (.w 1)) 0 (.w 2) (.w 1) 0 4 ∧ TagStore (.stgX .x 1 0 (.w 2) (.w 1)) 2 0 (.w 2) (.w 1) 0 12 ∧
    (mapped12 0x20000020 15).me.src 0 (.w 1) = .value 0x20000020 ∧
    okAnd (mapped.walk mapped.myLaunch 0x20000020) (fun f => f.ua && f.tagged && f.addr 0x20000020 == 0x20) = true ∧
    mapped.quarantined [0x20] = false ∧ okAnd (mapped.request { keys := [0x20], place := .dev 0x20 } .read) (fun _ => true) = true ∧
    okAnd (mapped.walk mapped.myLaunch 0x300000) (fun f => f.ua && !f.tagged) = true ∧
    okAnd (mapped.global mapped.myLaunch .load 0x300000 1 (fun _ _ => true) mapped.me.mode) (fun _ => true) = true ∧
    okAnd mapped.accessGate (fun _ => true) = true ∧ mapped.me.replayQ = [] ∧ (0x20000010 : Word).toNat % 32 ≠ 0 ∧
    okAnd (mapped.walk mapped.myLaunch 0x20000040) (fun f => f.tagged && f.allows .store .u && f.addr 0x20000040 == 0x40) = true ∧
    mapped.quarantined [32, 64] = false ∧ okAnd (mapped.requests [{ keys := [32], place := .dev 32 }, { keys := [64], place := .dev 64 }] .store)
      (fun _ => true) = true :=
  ⟨.ldg .., .stgX .., by decide +kernel⟩

theorem wit_OrderingInstructions :
    ReleaseFree linkedState .pkg ∧ AcquireFree linkedState .sys ∧ linkedState.me.acqWait = false ∧
    okAnd ((released linkedState).resolve .store .glob 0x300000 8 8) (fun a =>
      okAnd ((released linkedState).resolve .sigadd .glob 0x300008 8 8 fun p coh => !true || (match p with | .host _ => coh | _ => true))
        fun c => okAnd ((released linkedState).touchGate .glob 0x300000 8) (fun _ => true) &&
          okAnd ((released linkedState).touchGate .glob 0x300008 8) (fun _ => true) &&
          !(released linkedState).me.vqTouches (a.keys ++ c.keys) && okAnd ((released linkedState).request a .store) fun u =>
            okAnd (u.request c .perform) fun _ => true) = true ∧
    demo.me.vLoads = false ∧ demo.me.replayQ = [] ∧
    parkedState.me.replayQ ≠ [] ∧ demo.me.vq.any VOp.isMem = false ∧ demo.me.firstRelease = false ∧ demo.pm ≠ .pm8 ∧
    (demo.die demo.cur.die.val).seq = none ∧ (withMe fun c => { c with relWait := 1 }).me.relWait ≠ 0 ∧
    demo.me.relWait = 0 ∧ demo.me.ncWait = 0 ∧ demo.me.wrote = [] ∧ demo.me.ncWrote = [] ∧ wroteState.me.relWait = 0 ∧
    wroteState.me.wrote ≠ [] := ⟨(linked_free _).1, (linked_free _).2, by decide +kernel⟩

/-- `mapped` with circular buffer 0 of two slots of 64 bytes declared, one of them filled, and one shadow pair (R141, R253). -/
def buffered : State :=
  (mapped.modLaunch 0 1 fun l => { l with cbufs := [{ cb := 0, win := .A, base := 0, size := 64, slots := 2 }],
                                          pairs := [{ pair := 0, win := .A, noff := 0, hoff := 4096, len := 4096 }] }).modCore 0
    fun x => x.setCb 0 { head := 0xFFFFFFFF, tail := 0 }

theorem wit_AtomicResults :
    ReleaseFree demo .pkg ∧ AcquireFree demo .sys ∧
    Atom (.atom .add (.w 3) (.w 1) (.imm 9)) .add .thr .none .glob none 0 (.w 3) (.w 1) (.imm 9) (.w 0) 0 4 ∧
    Red (.redX .x .max .pkg true .G (some .i32) 0 .zero (.imm 0)) .max .pkg .rel .G (some .i32) 0 .zero (.imm 0) 0 12 ∧
    Atom (.atom .badd (.w 3) (.w 1) (.imm 9)) .badd .thr .none .glob none 0 (.w 3) (.w 1) (.imm 9) (.w 0) 0 4 ∧
    (mapped12 0x300010 0).me.srcTy (atomTy .add none) 0 (.imm 9) = .value 1 ∧
    (mapped12 0x300010 0).me.srcTy (intTy none) 0 (.imm 9) = .value 1 ∧
    okAnd (mapped12 0x300010 0).accessGate (fun _ => true) = true ∧ (mapped12 0x300010 0).mustPark .glob 0x300010 8 = false ∧
    okAnd ((mapped12 0x300010 0).resolve .atomic .glob 0x300010 8 8 (atomAt .add none)) (fun a =>
      okAnd ((mapped12 0x300010 0).access .atomic .glob 0x300010 8 (atomReq false .add 8) a) fun t =>
        decide (t.valAcc a 8 < 2 ^ 64)) = true ∧
    okAnd ((released demo).resolve .atomic .G 0 4 4 (atomAt RedOp.max.atom (some .i32))) (fun a =>
      okAnd ((released demo).access .atomic .G 0 4 (atomReq true RedOp.max.atom 4) a) fun u => decide (u.valAcc a 4 < 2 ^ 32)) = true ∧
    okAnd ((mapped12 0x300010 0).resolve .atomic .glob 0x300010 16 16 (atomAt .badd none)) (fun a =>
      okAnd ((mapped12 0x300010 0).loadAcc .glob 0x300020 4) fun p =>
        okAnd (p.1.access .atomic .glob 0x300010 16 (atomReq false .badd 16) a) fun _ => true) = true :=
  ⟨(demo_free _).1, (demo_free _).2, .atom .., .redX .x .max .pkg true .G (some .i32) 0 .zero (.imm 0), .atom .., by decide +kernel⟩

/-- The virtual address of window G, offset 16, of the executing core (R264, R265). -/
def lmG : Word := 0xFFFFFE00000000 + BitVec.ofNat 64 (lmKey 0 .G 16 - apBase)

/-- `demo` with a barrier word at window G, offset 16: one arrival left (R145). -/
def withBar : State :=
  { mapped12 lmG 32767 with mem := Memory.store mapped.mem (lmKey 0 .G 16) (leBytes 8 (barWord 0 true false 1 1)) }

/-- The word of `withBar` in its core's own window, and through the aperture. -/
def ownBar : Acc := ownAcc demo .G 16 8
def windowBar : Acc :=
  match withBar.walk withBar.myLaunch lmG with
  | .ok f => { ownBar with coh := f.coh, mode := f.mode, part := withBar.myLaunch.part, walked := f.walked }
  | .error _ => ownBar

theorem withBar_reached : Reached withBar .barrier .G 16 8 .store ownBar ∧ Reached withBar .barrierRead .glob lmG 8 .read windowBar := by
  have hc : clearOf withBar lmG 8 windowBar = true := by decide +kernel
  obtain ⟨f, hf, h⟩ : ∃ f, withBar.walk withBar.myLaunch lmG = .ok f ∧ (f.allows .barrierRead withBar.me.mode && !f.tagged &&
      (placeOf withBar.pm withBar.myLaunch.part (f.addr lmG) == .lm demo.cur (some .G) 16) &&
      ({ ownBar with coh := f.coh, mode := f.mode, part := withBar.myLaunch.part, walked := f.walked } == windowBar)) = true :=
    ok_of (by decide +kernel)
  simp only [Bool.and_eq_true, Bool.not_eq_true', beq_iff_eq, clearOf, List.isEmpty_iff] at h hc
  exact ⟨reached_own (by decide +kernel), hc.1.1.1.1.1.1.1, hc.1.1.1.1.1.1.2, hc.1.1.1.1.1.2, hc.1.1.1.1.2, hc.1.1.1.2, hc.1.1.2, hc.1.2,
    fun _ => reached_reserve hc.2 _, .inr ⟨rfl, by decide +kernel, f, hf, h.1.1.1, h.1.1.2, .inl ⟨demo.cur, .G, 16, h.1.2, by decide +kernel, by decide +kernel,
      by decide, by decide +kernel, h.2.symm⟩⟩⟩

theorem wit_BarrierWords :
    ReleaseFree withBar .sys ∧ AcquireFree withBar .sys ∧ Reached withBar .barrier .G 16 8 .store ownBar ∧
    Reached withBar .barrierRead .glob lmG 8 .read windowBar ∧ (Bar.ofNat (withBar.valAcc ownBar 8)).left ≠ 0 ∧
    (Bar.ofNat (withBar.valAcc ownBar 8)).phase = true ∧
    Barinit (.barinit (.w 1) (.w 2)) .thr .glob 0 (.w 1) (.w 2) 0 4 ∧
    Barexp (.barexpX .x .G 16 .zero (.imm 9)) .G 16 .zero (.imm 9) 0 12 ∧
    Bararr (.bararr (.w 3) (.w 1) (.imm 9)) .thr .glob 0 (.w 3) (.w 1) (.imm 9) 0 4 ∧
    Barwait (.barwait (.w 3) (.w 1) (.imm 9)) .thr .glob false 0 (.w 3) (.w 1) (.imm 9) 0 4 ∧
    withBar.me.src 0 (.w 2) = .value 32767 ∧ withBar.me.src 0 (.imm 8) = .value 0 ∧ withBar.me.src 0 (.imm 9) = .value 1 ∧
    (16 : Word).toNat < withBar.myLaunch.split.size .G ∧
    okAnd ((released withBar).barAcc .barrier .glob lmG) (fun _ => true) = true ∧
    okAnd ((released withBar).barAcc .barrier .G 16) (fun _ => true) = true ∧
    okAnd (withBar.barAcc .barrier .glob lmG) (fun p =>
      let x := Bar.ofNat (p.1.valAcc p.2 8)
      decide (x.left ≠ 0) && decide (x.pend + (2 ^ 31 - 1) < 2 ^ 31)) = true ∧
    okAnd (withBar.barAcc .barrierRead .glob lmG) (fun p => (Bar.ofNat (p.1.valAcc p.2 8)).phase) = true :=
  ⟨⟨by decide +kernel, by decide +kernel, by decide +kernel, fun _ => by decide +kernel⟩, fun _ => by decide +kernel,
    withBar_reached.1, withBar_reached.2, by decide +kernel, by decide +kernel,
    .base .., .ext .., .base .., .base .., by decide +kernel⟩

/-- `mapped` with the line of 0x300000 alone a tile of core 0. -/
def tiled : State := mapped.declareTile 0x300000 [0x300000 / 64]

theorem wit_BufferTileAndRetentionInstructions :
    ReleaseFree buffered .core ∧ Tdecl (.tdecl (.w 1) (.w 2)) 0 (.w 1) (.w 2) 0 4 ∧ Tfree (.tfree (.w 1)) 0 (.w 1) 0 4 ∧
    Tfwd (.tfwd (.w 1) (.w 2)) 0 (.w 1) (.w 2) 0 4 ∧ Hint (.pref (.w 1) (.w 2)) false false 0 (.w 1) (.w 2) 0 4 ∧
    okAnd (mapped.resolve .load .glob 0x300000 1 1) (fun a => a.place == .dev 0x300000 && (mapped.demand (.ofCore 0) a .read).isNone) = true ∧
    mapped.resolve .load .glob 0xA0000000 1 1 = .error (.notPresent 0xA0000000) ∧ (0 : Word).toNat < mapped.myLaunch.cores.length ∧
    (({ lines := [(5, { st := .m, clusters := [3] })] } : Machine.Dir).line 5).st = .m ∧
    demo.myLaunch.cbDecl 0 = none ∧ buffered.myLaunch.cbDecl 0 = some { cb := 0, win := .A, base := 0, size := 64, slots := 2 } ∧
    ((buffered.myCore.cbs.get 0).tail - (buffered.myCore.cbs.get 0).head).toNat = 1 ∧
    buffered.me.src (litVal none) (.imm 8) = .value 0 ∧ buffered.me.src (litVal none) (.imm 9) = .value 1 ∧
    buffered.me.src (litVal none) (.imm 10) = .value 2 ∧ buffered.me.src (litVal none) (.imm 11) = .value 3 ∧
    buffered.myCore.shadowBusy buffered.publMark true 0 = false ∧ buffered.myCore.shadowBusy buffered.publMark false 1023 = false ∧
    buffered.demand (.ofCore 0) (buffered.descAcc buffered.myLaunch 1023) .perform = none ∧ buffered.me.run = .ready ∧
    (buffered.myLaunch.pair 0).isSome ∧ okAnd buffered.accessGate (fun _ => true) = true ∧
    (0 : Word) &&& 0xFFFF000000C000FF = 0 ∧
    okAnd (mapped.walk mapped.myLaunch 0x300000) (fun f => f.ua && f.allows .store mapped.me.mode &&
      decide (f.addr 0x300000 < partSize mapped.pm) && devKey mapped.pm mapped.myLaunch.part (f.addr 0x300000) == 0x300000 &&
      placeOf mapped.pm mapped.myLaunch.part (f.addr 0x300000) == .dev 0x300000 &&
      (mapped.demand (.ofCore 0) { keys := [0x300000], place := .dev 0x300000, part := mapped.myLaunch.part, walked := f.walked }
        .store).isNone) = true ∧
    mapped.dir.tileOf (0x300000 / 64) = none ∧ (tiled.dir.tileOf (0x300000 / 64)).isSome ∧ mapped.dir.claims = [] ∧
    mapped.quarantined [0x300000] = false ∧ mapped.myLaunch.cores.length = 1 ∧ (mapped.dir.line (0x300000 / 64)).st ≠ .q ∧
    (0x10000 : Word).toNat % 65536 = 0 ∧
    mapped.myLaunch.desc.retmax ≤ (mapped.die 0).retained.toList.countP (heldBy mapped.myLaunch) ∧
    ¬ (1 ≤ (mapped.die 0).retained.toList.countP (heldBy mapped.myLaunch)) ∧ (mapped.die 0).retained.get 0 = none :=
  ⟨⟨by decide +kernel, by decide +kernel, by decide +kernel, fun _ => by decide +kernel⟩, .base .., .base .., .base .., .pref ..,
    by decide +kernel⟩

/-- `demo` with a continuation record queued on core 0, whose flags have every bit that a record may set (R245). -/
def queued : State :=
  withCore fun x => { x with queue := [{ code := 0x100040, frame := 1, join := 2, flags := 0xFFFFFFFFFFFF000C, origin := 0 }] }

/-- `demo` whose context waits in a given way. -/
def withRun (r : Run) : State := withMe fun c => { c with run := r }

/-- A join object at 0x300000 whose count is one, with its record at 0x300020 (R118); `fullQueue` has no room for it (R248). -/
def joining : State :=
  let s := mapped12 0x300000 0
  { s with mem := Memory.store s.mem 0x300000 (leBytes 8 1 ++ leBytes 8 0x300020) }
def fullQueue : State := joining.modCore 0 fun x => { x with queue := List.replicate 64 { code := 0, frame := 0, join := 0, flags := 0, origin := 0 } }

/-- An object whose record lies on a page that mode U may not read. -/
def strayJoin : State := { joining with mem := Memory.store joining.mem 0x300008 (leBytes 8 0x60000000) }

/-- Whether a computation traps with a cause. -/
def traps {α : Type} (r : Res α) (c : Cause) : Bool :=
  match r with
  | .error (.trap t) => t.cause == c
  | _ => false

/-- The object's count, and the state after its decrement. -/
def joinAt : Acc := match joining.resolve .atomic .glob 0x300000 8 8 (atomAt .add none) with | .ok a => a | .error _ => { keys := [], place := .dev 0 }
def decremented (s : State) : State := (performed (released s) joinAt .perform).writeAcc joinAt 8 0

theorem wit_ContextInstructions :
    LowestFreeHelper demo 1 ∧ (1 : SlotId) ≠ demo.slot ∧
    (∀ k, ¬ LowestFreeHelper (demo.modLaunch 0 1 fun l => { l with desc := { l.desc with hl := 0 } }) k) ∧
    Join (.join (.w 3) (.w 1)) (.w 3) (.w 1) 0 0 4 ∧ Wait (.wait (.w 3) (.w 1) (.w 2)) .thr .glob none (.w 3) (.w 1) (.w 2) 0 0 4 ∧
    ReleaseFree joining .pkg ∧ ReleaseFree fullQueue .pkg ∧ AcquireFree (mapped12 0x300000 0x100100) .thr ∧
    demo.me.vq = [] ∧ demo.me.replayQ = [] ∧ demo.me.firstFin = false ∧ demo.me.reg (.w 5) = .value 0 ∧ parkedState.me.replayQ ≠ [] ∧
    (0x300008 : Word).toNat % 16 ≠ 0 ∧ joining.me.src 0 (.w 1) = .value 0x300000 ∧ okAnd joining.accessGate (fun _ => true) = true ∧
    okAnd fullQueue.accessGate (fun _ => true) = true ∧
    okAnd ((released joining).resolve .atomic .glob 0x300000 8 8 (atomAt .add none)) (fun a =>
      a == joinAt && okAnd ((released joining).access .atomic .glob 0x300000 8 .perform a) (fun u =>
        decide (BitVec.ofNat 64 (u.valAcc a 8) - 1 = 0) && okAnd (u.joinReady 0x300000).pause fun _ => true)) = true ∧
    traps ((decremented strayJoin).joinRecord 0x300000) .permission = true ∧
    okAnd ((decremented joining).joinRecord 0x300000) (fun p => p.2.1 == 0x300020 &&
      (p.1.myCore.push p.1.myLaunch.desc.qx p.2.2).isSome) = true ∧
    okAnd ((decremented fullQueue).joinRecord 0x300000) (fun p => (p.1.myCore.push p.1.myLaunch.desc.qx p.2.2).isNone) = true ∧
    okAnd ((mapped12 0x300000 0).access .atomic .glob 0x300000 8 .perform joinAt) (fun u =>
      BitVec.ofNat 64 (u.valAcc joinAt 8) - 1 != 0) = true ∧
    okAnd ((mapped12 0x300000 0x100100).loadAcc .glob 0x300000 8) (fun p => p.1.valAcc p.2 8 == (0x100100 : Word).toNat) = true ∧
    okAnd ((mapped12 0x300000 0).loadAcc .glob 0x300000 8) (fun p => p.1.valAcc p.2 8 != (0 : Word).toNat) = true :=
  ⟨by unfold LowestFreeHelper; decide +kernel, by decide +kernel, by unfold LowestFreeHelper; decide +kernel, .base .., .base ..,
    ⟨by decide +kernel, by decide +kernel, by decide +kernel, fun _ => by decide +kernel⟩,
    ⟨by decide +kernel, by decide +kernel, by decide +kernel, fun _ => by decide +kernel⟩, fun _ => by decide +kernel, by decide +kernel⟩

/-- A state in which die 0's clock stands still (R426). -/
def frozenState : State := demo.modDie 0 fun x => { x with seq := some { step := .quiesce, freq := some 40 } }

theorem wit_WorkQueueEvents :
    (∀ next, (demo.ctx 0 0).run ≠ .realign next) ∧ queued.launchOf 0 = some queued.myLaunch ∧ queued.myLaunch.phase = .live ∧
    (queued.core 0).freeHelper queued.myLaunch.desc.hl = some 1 ∧
    (queued.core 0).queue = [] ++ [{ code := 0x100040, frame := 1, join := 2, flags := 0xFFFFFFFFFFFF000C, origin := 0 }] ∧
    (0xFFFFFFFFFFFF000C : Word) &&& 0xFFF3 = 0 ∧ queued.drainHolds 0 .pkg = false ∧
    queued.queueWait 0 ({ queued.core 0 with queue := [] } : Core).refill = none ∧ demo.frozen 0 = false ∧ frozenState.frozen 0 = true ∧ (demo.launchOf 1).isNone ∧ (demo.core 0).queue = [] ∧ (demo.core 0).ext = [] ∧
    demo.myLaunch.desc.nosteal = false ∧ demo.myLaunch.stopping = false ∧ demo.myLaunch.phase = .live ∧ (demo.core 0).stealAt = none ∧
    demo.cycleOf 0 < 512 ∧ ((withCore fun x => { x with stealAt := some 512 }).core 0).stealAt = some 512 ∧
    ((withRun .listening).ctx 0 0).run = .listening ∧ (demo.ctx 0 0).run ∉ [.asleep, .listening] ∧ ((withRun .asleep).ctx 0 0).run = .asleep ∧
    ((withRun (.realign 0x100004)).ctx 0 0).run = .realign 0x100004 := by
  have e : (demo.ctx 0 0).run = .ready := by decide +kernel
  exact ⟨fun n h => (by rw [e] at h; cases h), by decide +kernel⟩

theorem wit_ControlRegisters :
    ¬ mayRead demo.me.mode .trapEpc ∧ mayRead demo.me.mode .trapVec ∧ ¬ mayWrite demo.me.mode .trapVec ∧
    mayWrite framed.me.mode .trapVec ∧ ¬ mayWrite framed.me.mode .idCore ∧ framed.me.src (litVal none) (.imm 0) = .value (-8) ∧
    ((framed.modCore 0 fun x => { x with syms := x.syms.set 0 (.fault 64) }).myCore.syms.get 0 = .fault 64) ∧ framed.me.vq = [] ∧
    (framed.modMe fun c => { c with selSym := 0 }).me.selSym = 0 ∧ framed.myCore.harrow.queue = [] ∧ framed.myCore.harrow.running = none ∧
    framed.myCore.launch = some 1 ∧ mayWrite demo.me.mode (.ssr 0) ∧
    (∀ a, framed.myCore.syms.get framed.me.selSym ≠ .fault a) ∧ framed.myCore.syms.get framed.me.selSym ≠ .cancelled := by
  have e : framed.myCore.syms.get framed.me.selSym = .free := by decide +kernel
  have u : demo.me.mode = .u := by decide +kernel
  have m : framed.me.mode = .s := by decide +kernel
  rw [u, m, e]
  exact ⟨by simp [mayRead], by simp [mayRead], by simp [mayWrite], by simp [mayWrite], by simp [mayWrite], by decide +kernel,
    by decide +kernel, by decide +kernel, by decide +kernel, by decide +kernel, by decide +kernel, by decide +kernel, by simp [mayWrite],
    fun _ h => (by cases h), by decide⟩

theorem wit_SystemInstructions :
    demo.me.src (litVal (some 9)) .lit = .value 9 ∧ ReleaseFree demo .pkg ∧
    ((withRun (.service (.w 1) 0x100004)).ctx 0 0).live = true ∧
    ((withRun (.service (.w 1) 0x100004)).ctx 0 0).run = .service (.w 1) 0x100004 ∧
    (withRun (.service (.w 1) 0x100004)).answerWaits 0 0 { value := 7, tags := [(0x400, 3)] } = none ∧ demo.myLaunch.desc.dbg = false ∧
    (demo.modLaunch 0 1 fun l => { l with desc := { l.desc with dbg := true } }).myLaunch.desc.dbg = true ∧
    ((withRun (.stopped 0x100004)).ctx 0 0).run = .stopped 0x100004 ∧ demo.me.latch = 0 ∧
    (withMe fun c => { c with latch := 16 }).me.latch ≠ 0 ∧ (0x400 : Nat) < partSize demo.pm :=
  ⟨by decide +kernel, (demo_free _).1, by decide +kernel⟩

theorem wit_IdleIsPrivileged :
    framed.me.mode = .s ∧ (withMe fun c => { c with mode := .m }).me.mode = .m ∧ demo.me.mode = .u ∧
    (withMe fun c => { c with mode := .h }).me.mode = .h ∧ ((withCore fun x => { x with idle := true }).core 0).idle = true := by
  decide +kernel

/-- An integer addition of v1 and v2 into v0 under mask m1 (R157). -/
def vop : VOp := { op := .add, ty := .i32, mask := { en := true, sel := 1 }, dst := 0, x := .reg 1, y := .reg 2 }

/-- `demo` with vector operations queued. -/
def withVq (l : List VOp) : State := withMe fun c => { c with vq := l }

/-- `mapped` with the mask m1 active in element 0 alone (R158). -/
def oneLane : State := mapped.modMe fun c => { c with m := Vector.replicate 8 1 }

/-- The places of two elements at offset 0 of window A. -/
def lanes : List VPlace :=
  [0, 1].map fun j => { elem := j, addr := BitVec.ofNat 64 (4 * j), acc := { keys := range (lmKey 0 .A (4 * j)) 4, place := .lm 0 (some .A) (4 * j) } }

theorem wit_VectorInstructionsQueue :
    (∃ o rs, VecRow demo (.vadd 0 (.v 1) (.v 2)) o rs 4 ∧ (rs.all fun r => r matches .value _) = true) ∧
    demo.me.vq.length < 16 ∧ (withVq (List.replicate 16 vop)).me.vq.length = 16 ∧
    (∃ o rs, VecSymRow demo (.vext (.w 3) 1 .zero) o rs (.w 3) 4 ∧ (rs.all fun r => r matches .value _) = true) ∧
    okAnd demo.alloc (fun p => decide (p.1.me.vq.length < 16)) = true ∧
    VecMem (.vldX .x .A none 0 false { en := true, sel := 1 } 3 .zero .zero) .ld .A (bitsTy none) { en := true, sel := 1 } 3 .zero .zero none 0 0 0 12 ∧
    demo.me.vscal 0 .zero = .value 0 ∧ okAnd demo.accessGate (fun _ => true) = true ∧ demo.me.vq = [] ∧
    ((List.range (128 / 4)).all fun j => demo.me.active { en := true, sel := 1 } 4 j &&
      okAnd (demo.resolve .vload .A (BitVec.ofNat 64 (4 * j)) 4 4) fun _ => true) = true ∧
    okAnd (demo.vgate .A 4 ((List.range 32).map fun j => { elem := j, addr := BitVec.ofNat 64 (4 * j), acc :=
      { keys := range (lmKey 0 .A (4 * j)) 4, place := .lm 0 (some .A) (4 * j) } })) (fun _ => true) = true ∧
    ((List.range 32).filter fun j => oneLane.me.active { en := true, sel := 1 } 4 j) = [0] ∧
    okAnd (oneLane.resolve .vload .glob 0x20000020 4 4) (fun a => a.tagged && (oneLane.demand (.ofCore 0) a .read).isNone &&
      okAnd (oneLane.vgate .glob 4 [{ elem := 0, addr := 0x20000020, acc := a }]) fun _ => true) = true ∧
    oneLane.me.vq = [] ∧ oneLane.myCore.vturn oneLane.slot = true ∧
    (let s := (oneLane.modCtx 0 1 fun t => { t with live := true, vq := [vop] })
     s.me.vq = [] ∧ s.myCore.vturn s.slot = false) :=
  ⟨⟨_, _, .vadd .., by decide +kernel⟩, by decide +kernel, by decide +kernel, ⟨_, _, .vext .., by decide +kernel⟩, by decide +kernel,
   .vldX .., by decide +kernel⟩

theorem wit_VectorLanes :
    lanewise vop.op = true ∧ vop.dst = (0 : Fin 16).val ∧ scalarTwin vop.op = some .add ∧ vop.ty.isFloat = false ∧
    ({ vop with op := .mand, dst := 7 } : VOp).dst = (7 : Fin 8).val ∧ vop.x = .reg ⟨(1 : Fin 8).val, by omega⟩ ∧
    127 < 128 / Ty.i8.bytes := by decide +kernel

theorem wit_VectorUnitEvents :
    (∀ k, ((demo.core 0).ctx k).vq = []) ∧ ((withVq [vop]).core 0).vnext ((withVq [vop]).issues 0) = some 0 ∧ ((withVq [vop]).ctx 0 0).vq = [vop] ∧
    vop.isMem = false ∧ vop.ref = none ∧
    ((({ (withVq []).ctx 0 0 with vq := [] } : Ctx).vrun { vop with op := .mpop, ref := some { s := 5, serial := 7 } }).2.1).isSome ∧
    ((withSym (.int 5 1 0) (.pending 7 (some 0))).core 0).syms.get 5 = .pending 7 (some 0) ∧
    demo.demand (From.ofCore 0) { keys := range (lmKey 0 .A 0) 4, place := .lm 0 (some .A) 0 } .read = none ∧
    demo.poisoned (range (lmKey 0 .A 0) 4) = false ∧ demo.quarantined (range (lmKey 0 .A 0) 4) = false ∧
    demo.demand (From.ofCore 0) { keys := range (lmKey 0 .A 0) 4, place := .lm 0 (some .A) 0 } .store = none ∧
    (let o : VOp := { vop with op := .ld, places := lanes }
     ((withVq [o]).core 0).vnext ((withVq [o]).issues 0) = some 0 ∧ (withVq [o]).inv = true ∧ (o.places.map (·.elem)).Nodup ∧
     (∀ p ∈ o.places, p.elem < 128 / o.ty.bytes ∧ (withVq [o]).demand (From.ofCore 0) p.acc .read = none ∧
       (withVq [o]).demand (From.ofCore 0) p.acc .store = none ∧ p.acc.keys.length = o.ty.bytes) ∧
     (o.places.flatMap (·.acc.keys)).Nodup) := by decide +kernel

/-- A record of 64 bytes from its set fields: offset, size, value. -/
def rec64 (fs : List (Nat × Nat × Nat)) : List Byte :=
  fs.foldl (fun r f => r.take f.1 ++ leBytes f.2.1 f.2.2 ++ r.drop (f.1 + f.2.1)) (List.replicate 64 0)

/-- MSYNC (R188), a copy of one row of 64 bytes into window G (R269), and a WAIT entry on STIME (R312). -/
def msyncRec : List Byte := rec64 [(0, 1, 2)]
def copyRec : List Byte := rec64 [(0, 1, 1), (3, 1, 4), (4, 4, 64), (8, 8, 0x300000), (16, 8, 1024), (32, 2, 1)]
def waitRec : List Byte := rec64 [(0, 1, 5), (4, 4, 0xFFFFFFFF), (8, 8, 1), (52, 4, 0xFFFFFFFF), (56, 4, 0xFFFFFFFF), (60, 4, 0xFFFFFFFF)]

/-- A communicator of launch 1 (R319). -/
def oneComm : Comm :=
  { serial := 0, gid := 1, part := 0, launch := 1, comm := 0, n := 1, rank := 0, vc := 0, cbase := 0, ccnt := 2, routes := [],
    node := 0, loc := 0 }

/-- A message for channel 3, slot 0 (R219). -/
def oneMessage : Message :=
  { payload := List.replicate 64 9, src := 0, srcCh := 3, lcore := 0, srcSlot := 2, launch := 1, slot := 0, gen := 0 }

/-- `demo` with the three records at offsets 64, 128 and 192 of window G, two counters, one communicator, room for one entry, and
channel 3 declared to rank 0. -/
def engines : State :=
  let s := mapped12 0 0
  let m := ((s.mem.store (lmKey 0 .G 64) msyncRec).store (lmKey 0 .G 128) copyRec).store (lmKey 0 .G 192) waitRec
  { s with mem := m, sower := { s.sower with comms := [oneComm] } }.modLaunch 0 1 fun l =>
    { l with chans := [{ ch := 3, rank := 0, slot := 0, slots := 1 }], desc := { l.desc with tent := 1, tctr := 2, tcomm := 1 } }

/-- `engines` with its entry posted. -/
def posted : State := (engines.postEntry engines.myLaunch waitRec).elim engines fun p => p.1

theorem engines_free (sc : Scope) : ReleaseFree engines sc ∧ AcquireFree engines sc :=
  ⟨⟨by decide +kernel, by decide +kernel, by decide +kernel, fun _ => by cases sc <;> decide +kernel⟩, fun _ => by decide +kernel⟩

/-- The records of `engines` are read. -/
theorem record_read (ea : Word) (h : ea = 64 ∨ ea = 128 ∨ ea = 192) :
    RecordRead engines .G ea (performed (released engines) (ownAcc engines .G ea 64) .read) (engines.bytesAt (ownAcc engines .G ea 64).keys) :=
  .reached _ (by decide) (reached_own (by rcases h with rfl | rfl | rfl <;> decide +kernel))

theorem wit_MatrixAndDrillInstructions :
    MatrixCommand (.mcmdX .x .G 64 (.w 3) .zero .zero) .G 64 (.w 3) .zero .zero 0 12 ∧
    DrillJob (.djobX .x .G 128 (.w 3) .zero) .G 128 (.w 3) .zero 0 12 ∧
    RegionBind (.rbindX (.l 0x40200400) .G 128 (.w 3) .zero .lit) .G 128 (.w 3) .zero .lit 0x40200400 12 ∧
    ReleaseFree engines .core ∧ ReleaseFree engines .clu ∧ GoodRange engines 0x40200400 ∧ LowestFreeRegion engines.myCore 0 ∧
    (∀ j, ¬ LowestFreeRegion { engines.myCore with regions := Vector.replicate 16 { phase := .absent } } j) ∧
    engines.myCore.harrow.entries < 16 ∧ (engines.myCore.freeSym engines.slot).isSome ∧ engines.myCore.jobs.length < 32 ∧
    (let s1 := performed (released engines) (ownAcc engines .G 64 64) .read
     s1.mcmdOk s1.cur s1.myLaunch (engines.bytesAt (ownAcc engines .G 64 64).keys) = true ∧
     s1.mcmdOk s1.cur s1.myLaunch waitRec = false ∧ s1.layoutOk s1.cur s1.myLaunch waitRec = false ∧
     s1.layoutOk s1.cur s1.myLaunch (engines.bytesAt (ownAcc engines .G 128 64).keys) = true) ∧
    (let x := (withCore fun x => { x with syms := Vector.replicate 64 (.fault 0) })
     x.myCore.freeSym x.slot = none ∧ x.myCore.anyPending = false) ∧
    engines.me.src (litVal (some 15)) .lit = .value 15 ∧ 8 ≤ (8 : Word).toNat ∧ (7 : Word).toNat < 8 ∧ 16 ≤ (16 : Word).toNat :=
  ⟨.ext .., .ext .., .ext .., (engines_free _).1, (engines_free _).1, by unfold GoodRange; decide +kernel,
   by unfold LowestFreeRegion; decide +kernel, by unfold LowestFreeRegion; decide +kernel, by decide +kernel⟩

theorem wit_TriggerInstructions :
    EntryPost (.trgPostX .x .G 192 (.w 3) .zero) .G 192 (.w 3) .zero 0 12 ∧ ReleaseFree engines .pkg ∧ ReleaseFree engines .thr ∧
    AcquireFree engines .thr ∧ CounterRaise (.trgInc (.imm 9) (.imm 0)) .thr (.imm 9) (.imm 0) 0 4 ∧
    CounterRead (.trgRd (.w 3) (.imm 9)) .thr (.w 3) (.imm 9) 0 4 ∧ engines.linkHeld engines.cur.die.val = false ∧
    (let s1 := performed (released engines) (ownAcc engines .G 192 64) .read
     let rec' := engines.bytesAt (ownAcc engines .G 192 64).keys
     s1.recordCause s1.myLaunch rec' = none ∧ s1.recordCause s1.myLaunch copyRec = some .bounds ∧
     (s1.postEntry s1.myLaunch rec').isSome ∧ (posted.postEntry posted.myLaunch waitRec).isNone) ∧
    posted.myLaunch.desc.tent ≤ posted.sower.entries.countP (fun e => e.part == posted.myLaunch.part && e.launch == posted.myLaunch.id) ∧
    engines.myLaunch.desc.tctr = 2 ∧ engines.me.src 0 (.imm 9) = .value 1 ∧ engines.me.src 0 (.imm 10) = .value 2 ∧
    engines.me.acqWait = false ∧ okAnd engines.accessGate (fun _ => true) = true ∧
    ((posted.sower.entries.find? fun e => e.handle == 0 && e.part == 0 && e.launch == 1).map fun e =>
      (e.phase, posted.entryMet e)) = some (.unfired, false) ∧
    ((({ posted with stime := 1 } : State).sower.entries.find? fun e => e.handle == 0).map
      ({ posted with stime := 1 } : State).entryMet) = some true ∧ posted.linkHeld 0 = false :=
  ⟨.ext .., (engines_free _).1, (engines_free _).1, (engines_free _).2, .base .., .base .., by decide +kernel⟩

/-- `engines` with a message in its core's inbox. -/
def received : State := engines.modCore 0 fun x => { x with inbox := [(3, oneMessage)] }

theorem wit_MessageInstructions :
    MessageSend (.msendX .x .thr .G 64 true .zero 3) .thr .G 64 true .zero 3 0 12 ∧
    MessageReceive (.mrecvX .x .thr .G 64 false (.w 3) .zero 3) .thr .G 64 false (.w 3) .zero 3 0 12 ∧
    MessagePlace engines .load .G 64 ∧ MessagePlace engines .store .G 64 ∧ ¬ MessagePlace engines .load .W 64 ∧
    ¬ MessagePlace engines .store .G 0x20000 ∧ MessagePlace engines .load .glob 4 ∧ MessagePlace engines .store .glob 4 ∧
    ReleaseFree engines .thr ∧ AcquireFree engines .thr ∧ Reached received .store .G 64 64 .store (ownAcc received .G 64 64) ∧
    engines.myLaunch.chan 4 = none ∧ engines.myLaunch.chan 3 = some { ch := 3, rank := 0, slot := 0, slots := 1 } ∧
    (engines.myCore.chans.get 3).nak = false ∧
    ((engines.modCore 0 fun x => x.modChan 3 fun h => { h with nak := true }).myCore.chans.get 3).nak = true ∧
    (engines.myCore.chans.get 3).buffer.length < 4 ∧
    engines.myLaunch.inbound 3 engines.myCore.rank = true ∧ engines.myLaunch.inbound 4 engines.myCore.rank = false ∧
    (engines.windowKeys engines.cur engines.myLaunch .G 64 64).isSome ∧ (4 : Word).toNat % 64 ≠ 0 ∧
    okAnd engines.alloc (fun _ => true) = true ∧ (∀ r ∈ engines.me.drecvs, r.ch ≠ 3) ∧ engines.myCore.nextMessage 3 engines.slot = none ∧
    received.myCore.nextMessage 3 0 = some (3, oneMessage) ∧ okAnd (received.storeMessage .G 64 (3, oneMessage)) (fun _ => true) = true :=
  ⟨.ext .., .ext .., by unfold MessagePlace; decide +kernel, by unfold MessagePlace; decide +kernel,
   by unfold MessagePlace; decide +kernel, by unfold MessagePlace; decide +kernel, .inl ⟨rfl, by decide +kernel⟩,
   .inl ⟨rfl, by decide +kernel⟩, (engines_free _).1, (engines_free _).2, reached_own (by decide +kernel),
   by decide +kernel⟩

/-- `demo` with its context arrived at the barrier of group 1, which is core 0 alone. -/
def arrivedState : State := withRun (.hbar 1 true 0x100004 0)

theorem wit_TorusBarrierAndCountInstructions :
    GroupBarrier (.hbarX (.l 0) true .lit) true .lit 0 12 ∧ Gather (.evgath .zero) 0 .zero 0 4 ∧ ReleaseFree demo .die ∧
    demo.me.src 0 .lit = .value 0 ∧ demo.me.src 0 (.imm 0) = .value (-8) ∧
    (-8 : Word).toNat / 2 ^ 14 ≠ 0 ∧ demo.cur ∉ groupCores demo.cur.die 1 ∧
    (∃ c ∈ groupCores demo.cur.die 0x10, demo.boundTo c demo.myLaunch = false) ∧ (0 : Word).toNat / 2 ^ 14 = 0 ∧
    demo.cur ∈ groupCores demo.cur.die 0 ∧ (∀ c ∈ groupCores demo.cur.die 0, demo.boundTo c demo.myLaunch = true) ∧
    demo.me.acqWait = false ∧ (∀ c ∈ ([0] : List CoreId), (demo.core c).arrived 1 = none) ∧
    (arrivedState.core 0).arrived 1 = some (0, 0) ∧ (arrivedState.ctx 0 0).run = .hbar 1 true 0x100004 0 ∧ demo.me.vq = [] ∧
    demo.myLaunch.split.size .G < (0x1FFC1 : Word).toNat + 64 ∧
    (0x1FFC0 : Word).toNat + 64 ≤ demo.myLaunch.split.size .G ∧ (demo.windowKeys demo.cur demo.myLaunch .G 0x1FFC0 64).isSome ∧
    (0x1FFC0 : Word).toNat % 64 = 0 ∧ (0x1FF80 + 4 : Word).toNat % 64 ≠ 0 := ⟨.ext .., .base .., (demo_free _).1, by decide +kernel⟩

/-- `engines` with something on its way: a buffered message, one in flight, a torus word, a fetch, a parked store, a drill job. -/
def onChan (h : Channel) : State := engines.modCore 0 fun x => x.modChan 3 fun _ => h
def withJob (j : Job) : State := engines.modCore 0 fun x => { x with jobs := [j] }

/-- The job of `copyRec`, with a first-touch or `djob` reference and a phase. -/
def oneJob (p : JobPhase) : Job :=
  { id := 0, layout := parseLayout copyRec, record := copyRec, slot := some 0, ref := some { s := 5, serial := 7 }, region := none,
    phase := p }

/-- A copy of 4096 bytes from window A to window G (R269). -/
def wideJob : Job :=
  { oneJob (.running 0) with layout := parseLayout (rec64 [(0, 1, 1), (2, 1, 2), (3, 1, 4), (4, 4, 4096), (32, 2, 1)]) }

/-- An asynchronous report for rank 0, slot 0 (R378). -/
def oneReport : AsyncRep :=
  { part := 0, launch := 1, rank := 0, slot := 0, gen := demo.me.gen, cause := .translation, handle := 0, addr := 64 }

/-- `engines` whose core asks the fetch port for a block (R259). -/
def asking : State := engines.modCore 0 fun x => { x with fetching := some (0, 0x100100) }

/-- `engines` with a deferred receive and its message (R223). -/
def awaiting : State :=
  (engines.modMe fun c => { c with drecvs := [{ ref := { s := 5, serial := 7 }, ch := 3, sc := .sys, win := .G, ea := 64 }] }).modCore 0
    fun x => { x with inbox := [(3, oneMessage)] }

theorem wit_MessageAndDrillEvents :
    AcquireFree (awaiting.focus 0 0) .sys ∧
    Reached (awaiting.focus 0 0) .store .G 64 64 .store (ownAcc (awaiting.focus 0 0) .G 64 64) ∧
    (awaiting.ctx 0 0).drecvs ≠ [] ∧ (awaiting.core 0).nextMessage 3 0 = some (3, oneMessage) ∧
    engines.chanDst 0 3 = some (0, { ch := 3, rank := 0, slot := 0, slots := 1 }) ∧
    (((onChan { buffer := [oneMessage] }).core 0).chans.get 3).buffer = [oneMessage] ∧
    (((onChan { buffer := [oneMessage] }).core 0).chans.get 3).inUse < 1 ∧ ((engines.core 0).chans.get 3).buffer = [] ∧
    (((onChan { flight := [oneMessage] }).core 0).chans.get 3).flight = [oneMessage] ∧ (engines.ctx 0 0).live = true ∧
    (engines.ctx 0 0).gen = ({ oneMessage with gen := engines.me.gen } : Message).gen ∧ (engines.core 0).launch = some oneMessage.launch ∧
    (engines.ctx 0 5).live = false ∧ (∀ l ∈ engines.launches, l.phase = .live) ∧ wbits (engines.core 0).msgRing 63 1 = 0 ∧
    okAnd ((awaiting.focus 0 0).storeMessage .G 64 (3, oneMessage)) (fun _ => true) = true ∧
    (engines.ctx 0 0).drecvs = [] ∧
    ((engines.modCore 0 fun x => { x with wires := [{ dir := 0, v := 9, lands := 1, launch := some 1 }] }).core 0).wires =
      [{ dir := 0, v := 9, lands := 1, launch := some 1 }] ∧ engines.cycleOf 0 < 1 ∧
    engines.launchAt 8 = some engines.myLaunch ∧ engines.myLaunch.phase = .live ∧ (engines.myLaunch.cores.map coreOf).Nodup ∧
    (((withRun (.gather 64 0x100004 0 [])).core 0).gathering).isSome ∧ (engines.core 0).gathering = none ∧ engines.myLaunch.cores = [0] ∧
    engines.portChoice 0 ≠ some (0, 0x100100) ∧ asking.portChoice 0 = some (0, 0x100100) ∧
    okAnd (asking.fetchAcc 0 0x100100 32) (fun a => (asking.demand (.ofCore 0) a .read).isNone) = true ∧
    okAnd ((engines.focus 0 0).resolve .store parkedStore.win 0x300000 8 8) (fun a =>
      ((engines.focus 0 0).demand (.ofCore 0) a .store).isNone) = true ∧ (engines.ctx 0 0).replayQ = [] ∧
    (parkedState.ctx 0 0).replayQ = [parkedStore] ∧ vaPage parkedStore.va = vaPage 0xA000FFFF ∧
    engines.findLaunch oneReport.part oneReport.launch = some engines.myLaunch ∧ engines.myLaunch.trapVec ≠ 0 ∧
    (engines.ctx 0 0).gen = oneReport.gen ∧ (engines.ctx 0 0).mode ≠ .h ∧ (engines.ctx 0 0).atBoundary = true ∧
    ((withMe Ctx.ended).ctx 0 0).live = false ∧ engines.asyncs = [] :=
  ⟨fun _ => by decide +kernel, reached_own (by decide +kernel), by decide +kernel⟩

/-- The hypotheses under which these events find nothing to act on, and those on a message's generation and a report's. -/
theorem wit_MessageAndDrillEvents_idle :
    engines.pathHeld 0 0 = false ∧ engines.chanDst 0 4 = none ∧ ((engines.core 0).chans.get 3).flight = [] ∧ engines.naks = [] ∧
    (∀ p ∈ (engines.ctx 0 0).replayQ, vaPage p.va ≠ vaPage 0xA000FFFF) ∧ engines.saves = [] ∧ (engines.core 0).jobs = [] ∧
    engines.drillNext (Fin.ofNat 128 (0 : CoreId).cluster) = none ∧ (engines.ctx 0 0).gen ≠ oneMessage.gen ∧
    (engines.core 1).launch ≠ some oneMessage.launch ∧ (engines.ctx 0 0).vqTouches (range 0x300000 8) = false ∧
    (engines.ctx 0 0).gen ≠ ({ oneReport with gen := demo.me.gen + 1 } : AsyncRep).gen ∧
    (demo.modLaunch 0 1 fun l => { l with trapVec := 0 }).myLaunch.trapVec = 0 ∧ (withMe fun c => { c with mode := .h }).me.mode = .h := by decide +kernel

theorem engines_links (d : Nat) : engines.linkHeld d = false := by
  have h : ∀ i : Fin 8, engines.linkHeld i.val = false := by decide +kernel
  by_cases hd : d < 8
  · exact h ⟨d, hd⟩
  · simp [State.linkHeld, hd]

theorem wit_MessageAndDrillEvents_drill :
    (∀ (as : List Acc) (r : Req), (∀ a ∈ as, ∃ w off, a.place = .lm 0 w off) → engines.engineDemand (From.ofEngine 0) as r = none) ∧
    ((withJob (oneJob .queued)).core 0).jobs = [oneJob .queued] ∧ (withJob (oneJob .queued)).launchOf 0 = some engines.myLaunch ∧
    (oneJob .queued).layout.cbp = false ∧ (oneJob .queued).layout.cbc = false ∧
    (withJob (oneJob (.running 0))).drillNext (Fin.ofNat 128 (0 : CoreId).cluster) = some 0 ∧ (oneJob .copied).layout.bar = false ∧
    (oneJob .copied).layout.sig = false ∧ (oneJob .copied).region = none ∧
    engines.inv = true ∧ wideJob.layout.rows = 1 ∧ wideJob.layout.rlen = 4096 ∧ wideJob.layout.dist = false ∧
    wideJob.layout.mcast = false ∧ wideJob.layout.srcSp = 2 ∧ wideJob.layout.dstSp = 4 ∧ engines.myLaunch.pairs = [] ∧
    wideJob.layout.src.toNat + 4096 ≤ engines.myLaunch.split.size .A ∧
    wideJob.layout.dst.toNat + 4096 ≤ engines.myLaunch.split.size .G ∧ (4095 : Nat) < 4096 ∧ wideJob.layout.cbp = false ∧
    wideJob.layout.cbc = false ∧ wideJob.layout.dstSp ∉ [0, 5, 6] ∧
    (engines.modCore 0 fun x => { x with jobs := [oneJob .queued] }).launchOf 0 = some engines.myLaunch ∧ engines.myLaunch.phase = .live ∧
    engines.quarantined ((List.range 4096).map fun o => lmKey 0 .G (wideJob.layout.dst.toNat + o)) = false := by
  refine ⟨fun as r h => ?_, by decide +kernel⟩
  have hd : ∀ a ∈ as, engines.demand (From.ofEngine 0) a r = none := by
    intro a ha
    obtain ⟨w, off, hp⟩ := h a ha
    have hc : engines.crossHeld (From.ofEngine 0) a.keys = false := by
      unfold State.crossHeld
      simp only [engines_links, Bool.or_self, Bool.and_false, List.any_eq_false]
      intro k _
      split <;> simp
    have hr : ∀ ps, engines.reserveFull ps = false := fun ps => by simp [State.reserveFull, show engines.ckpt.cut = false by decide +kernel]
    simp [State.demand, hc, hp, State.headHeld, hr]
  have : (as.filter fun a => (engines.demand (From.ofEngine 0) a r).isSome) = [] :=
    List.filter_eq_nil_iff.2 fun a ha => by simp [hd a ha]
  simp [State.engineDemand, this]

/-- `demo` whose matrix unit has one command queued. -/
def withCmd (r : List Byte) : State :=
  withCore fun x => { x with harrow := { x.harrow with queue := [{ record := r, ref := { s := 5, serial := 7 }, rm := .rne }] } }

/-- The queued command. -/
def cmdOf (r : List Byte) : HCmd := { record := r, ref := { s := 5, serial := 7 }, rm := .rne }

/-- Records of MLDW (INT8 weights at 0), MSWAP, MZERO (4 rows), MRACC (region 3) and MSYNC (R188). -/
def mldwRec : List Byte := rec64 [(0, 1, 1), (16, 1, 1)]
def mswapRec : List Byte := rec64 [(0, 1, 2)]
def mzeroRec : List Byte := rec64 [(0, 1, 6), (12, 2, 512), (14, 2, 4)]
def mraccRec : List Byte := rec64 [(0, 1, 8), (12, 2, 4), (14, 1, 3)]
def msyncRec' : List Byte := rec64 [(0, 1, 10)]

/-- `demo` whose matrix unit has something to retire or inbound. -/
def withHarrow (f : Harrow → Harrow) : State := withCore fun x => { x with harrow := f x.harrow }

/-- A command that has issued its rows, and one that met a fault. -/
def retired (failed : Option (Nat × Word)) : HRun := { cmd := cmdOf mzeroRec, serial := 0, row := 4, failed }

theorem wit_HarrowCommands :
    HarrowEvent 0 (.mzero 0) 6 (mzeroCode 0) ∧ CommandAtHead (withCmd mldwRec) 0 demo.myLaunch 1 (cmdOf mldwRec) [] ∧
    CommandAtHead (withCmd mswapRec) 0 demo.myLaunch 2 (cmdOf mswapRec) [] ∧
    CommandAtHead (withCmd mzeroRec) 0 demo.myLaunch 6 (cmdOf mzeroRec) [] ∧
    CommandAtHead (withCmd mraccRec) 0 demo.myLaunch 8 (cmdOf mraccRec) [] ∧
    CommandAtHead (withCmd msyncRec') 0 demo.myLaunch 10 (cmdOf msyncRec') [] ∧
    ((withCmd mldwRec).core 0).harrow.inactive = .empty ∧ ((withCmd mldwRec).core 0).harrow.selfRotation 0 = false ∧
    ((withHarrow fun h => { h with inactive := .loaded }).core 0).harrow.inactive ≠ .empty ∧
    okAnd ((begun (withCmd mldwRec) 0 (cmdOf mldwRec) []).hRead 0 demo.myLaunch .W 0 16384) (fun _ => true) = true ∧
    okAnd ((begun (withCmd mldwRec) 0 (cmdOf mldwRec) []).hRead 0 demo.myLaunch .W 0 2048) (fun _ => true) = true ∧
    (withCmd mzeroRec).inv = true ∧ ((withCmd mzeroRec).windowKeys 0 demo.myLaunch .C 1536 512).isSome ∧
    ((withCmd msyncRec').core 0).harrow.retiring = [] ∧ fieldBit msyncRec' 1 0 = false ∧
    (demo.core 0).harrow.running = none ∧ (demo.core 0).harrow.queue = [] ∧ (127 : Nat) < 128 := by
  unfold CommandAtHead
  exact ⟨.mzero, by decide +kernel⟩

/-- One row: MMUL, MROT, MEPI to window A, the last part of an MRED to rank 1, MRFIN of region 3 (R191, R198, R199, R204). -/
def mmulRec (op : Nat) : List Byte := rec64 [(0, 1, op), (8, 4, 256), (12, 2, 128), (16, 2, 1), (18, 1, 1), (24, 4, 512)]
def mepiRec : List Byte := rec64 [(0, 1, 5), (8, 4, 512), (12, 2, 512), (14, 2, 1), (36, 4, 1024)]
def mredRec : List Byte := rec64 [(0, 1, 7), (8, 4, 512), (12, 2, 512), (14, 2, 1), (16, 4, 1), (20, 1, 3)]
def mrfinRec : List Byte := rec64 [(0, 1, 9), (8, 4, 4096), (14, 1, 3), (16, 4, 1)]

/-- `withCmd` with INT8 weights in the active bank, a launch of two cores, and a torus of cores bound to it. -/
def loaded8 (r : List Byte) : State :=
  let s := (withCmd r).modCore 0 fun x => { x with harrow := { x.harrow with bank0 := { weights := List.replicate 16384 1, fmt := some .i8 } } }
  let (a, b) := rotTargets 0 r
  (([1, a, b] : List CoreId).foldl (fun s c => s.modCore c fun x => { x with launch := some 1 }) s).modLaunch 0 1
    fun l => { l with cores := [0, 1] }

/-- `loaded8` with an MRED at its last message, and with region 3 open for one row. -/
def lastPart : HRun := { cmd := cmdOf mredRec, serial := 0, begun := true, part := 15 }
def reducing : State := (loaded8 mredRec).modCore 0 fun x => { x with harrow := { x.harrow with queue := [], running := some lastPart } }
def reduced : State :=
  (loaded8 mrfinRec).modCore 0 fun x => { x with harrow := { x.harrow with
    regions := x.harrow.regions.set 3 { isOpen := true, rows := 1, received := 1 } } }

/-- The addresses of a stretch of core 0's window. -/
def lmRange (w : Win) (off n : Nat) : List Nat := range (lmKey 0 w off) n

theorem wit_HarrowCommands_rows :
    CommandAtHead (loaded8 (mmulRec 3)) 0 (loaded8 (mmulRec 3)).myLaunch 3 (cmdOf (mmulRec 3)) [] ∧
    CommandAtHead (loaded8 (mmulRec 4)) 0 (loaded8 (mmulRec 4)).myLaunch 4 (cmdOf (mmulRec 4)) [] ∧
    CommandAtHead (loaded8 mepiRec) 0 (loaded8 mepiRec).myLaunch 5 (cmdOf mepiRec) [] ∧
    CommandAtHead reduced 0 reduced.myLaunch 9 (cmdOf mrfinRec) [] ∧
    OneRow (loaded8 (mmulRec 4)) 0 (loaded8 (mmulRec 4)).myLaunch (cmdOf (mmulRec 4)) (lmRange .A 256 128) (lmRange .C 512 512) ∧
    ((loaded8 (mmulRec 4)).boundTo (rotTargets 0 (mmulRec 4)).1 (loaded8 (mmulRec 4)).myLaunch = true ∧
      (loaded8 (mmulRec 4)).boundTo (rotTargets 0 (mmulRec 4)).2 (loaded8 (mmulRec 4)).myLaunch = true) ∧
    Readable (loaded8 mepiRec) 0 (loaded8 mepiRec).myLaunch .C 512 512 (lmRange .C 512 512) ∧
    Readable reducing 0 reducing.myLaunch .C 992 32 (lmRange .C 992 32) ∧
    Readable reduced 0 reduced.myLaunch .C 0 2048 (lmRange .C 0 2048) := by
  unfold CommandAtHead OneRow Readable
  decide +kernel

theorem wit_HarrowCommands_ends :
    (let s := loaded8 mepiRec
     let out := (epiRow mepiRec .rne [] [] (s.core 0).harrow.gens (words4 (s.bytesAt (lmRange .C 512 512)))).1
     s.inv = true ∧ s.myLaunch.pairs = [] ∧ s.windowKeys 0 s.myLaunch .A 1024 out.length = some (lmRange .A 1024 out.length) ∧
     s.crossHeld (From.ofEngine 0) (lmRange .A 1024 out.length) = false ∧ s.quarantined (lmRange .A 1024 out.length) = false) ∧
    lastPart.data = [] ∧ (List.replicate 32 (0 : Byte)).length = 32 ∧
    (reducing.core 0).harrow.running = some lastPart ∧ reducing.launchOf 0 = some reducing.myLaunch ∧
    coreOf (reducing.myLaunch.cores.getD (field mredRec 16 4) 0) = 1 ∧ (reducing.core 1).harrow.inbound = [] ∧
    ((loaded8 mrfinRec).core 0).harrow.regions.get 3 = {} ∧
    ((reduced.core 0).harrow.regions.get 3).isOpen = true ∧ field mrfinRec 16 4 ≤ ((reduced.core 0).harrow.regions.get 3).received ∧
    reduced.myLaunch.rangeOk .C 4096 512 = true ∧ reduced.windowKeys 0 reduced.myLaunch .C 4096 512 = some (lmRange .C 4096 512) ∧
    okAnd ((mzeroCode 0 demo.myLaunch).begins (begun (withCmd mzeroRec) 0 (cmdOf mzeroRec) [])
      { cmd := cmdOf mzeroRec, serial := (withCmd mzeroRec).serial }) (fun p =>
        let h : HRun := { p.2 with begun := true }
        let r := (ssrSettled p.1 0).hLoop (mzeroCode 0 demo.myLaunch).step (16 * 4 + 1) h (fun r => decide (4 ≤ r.row))
        (mzeroCode 0 demo.myLaunch).rows h == 4 && r.2.2 && r.2.1.row == 4 &&
          okAnd ((mzeroCode 0 demo.myLaunch).ends r.1 r.2.1) fun _ => true) = true := by
  decide +kernel

/-- A turn whose rows succeed to the last leaves what `RowsDone` says. -/
theorem rowsDone_of {code : HCode} {s : State} {c : CoreId} {h : HRun}
    (e : (let stop := min (code.rows h) (h.row / 16 * 16 + 16)
          let p := s.hLoop code.step (16 * (stop - h.row) + 1) h (fun r => decide (stop ≤ r.row))
          p.2.2 && decide (code.rows h ≤ p.2.1.row) && okAnd (code.ends p.1 p.2.1) fun _ => true) = true) :
    ∃ t, RowsDone code s c h t := by
  simp only [Bool.and_eq_true, decide_eq_true_eq] at e
  obtain ⟨q, hq, -⟩ := ok_of e.2
  exact ⟨_, _, _, Prod.ext rfl (Prod.ext rfl e.1.1), .inr ⟨e.1.2, _, _, hq, rfl⟩⟩

/-- The turn of the MZERO ends it. -/
theorem wit_HarrowCommands_rowsDone : ∃ t, RowsDone (mzeroCode 0 demo.myLaunch)
    (ssrSettled (begun (withCmd mzeroRec) 0 (cmdOf mzeroRec) []) 0) 0 { cmd := cmdOf mzeroRec, serial := 0, begun := true } t :=
  rowsDone_of (by decide +kernel)

theorem wit_HarrowTransfersAndCompletion :
    ((withHarrow fun h => { h with retiring := [retired none] }).core 0).harrow.completing = some (retired none) ∧
    ((withHarrow fun h => { h with retiring := [retired (some (1, 64))] }).core 0).harrow.retiring.find? (fun r => r.failed.isSome) =
      some (retired (some (1, 64))) ∧
    ((withSym (.int 5 1 0) (.pending 7 (some 0))).core 0).syms.get (cmdOf mzeroRec).ref.s = .pending (cmdOf mzeroRec).ref.serial (some 0) ∧
    (demo.core 0).harrow.retiring = [] ∧ (demo.core 0).harrow.inbound = [] ∧ demo.launchOf 0 = some demo.myLaunch ∧
    demo.myLaunch.phase = .live ∧ (demo.core 0).harrow.inactive = .empty ∧ (demo.core 0).harrow.mldwFirst 0 = false ∧ demo.myLaunch.stopping = false ∧
    ((withHarrow fun h => { h with inbound := [.bank {} 1 0 false] }).core 0).harrow.inbound = [.bank {} 1 0 false] ∧
    ((withHarrow fun h => { h with inbound := [.rows [1] 0 1 0] }).core 0).harrow.inbound = [.rows [1] 0 1 0] ∧
    ((withHarrow fun h => { h with
      regions := h.regions.set 3 { isOpen := true, rows := 4 }
      inbound := [.mred 3 3 15 [] 1 0] }).core 0).harrow.inbound = [.mred 3 3 15 [] 1 0] ∧
    (((withHarrow fun h => { h with regions := h.regions.set 3 { isOpen := true, rows := 4 } }).core 0).harrow.regions.get 3).isOpen =
      true ∧ ((demo.core 0).harrow.regions.get 3).isOpen = false ∧
    (withHarrow fun h => { h with regions := h.regions.set 3 { isOpen := true, rows := 4 } }).inv = true ∧
    (retired (some (1, 64))).flight = [] ∧
    (let s := withHarrow fun h => { h with regions := h.regions.set 3 { isOpen := true, rows := 4 } }
     let off := 2048 * 3 + 128 * 15
     ((s.core 0).harrow.regions.get 3).ended = false ∧ s.windowKeys 0 s.myLaunch .C off 128 = some (lmRange .C off 128) ∧
     s.poisoned (lmRange .C off 128) = false ∧ s.myLaunch.pairs = [] ∧ off + 16 * 8 ≤ s.myLaunch.split.size .C ∧
     ({ s with poison := [lmKey 0 .C off / 32] } : State).poisoned (lmRange .C off 128) = true) := by decide +kernel

/-- Two communicators of launch 1 that are ranks 0 and 1 of one another, in one partition (R319, R401). -/
def comm0 : Comm := { oneComm with n := 2, loc := 1, routes := [(1, .self)] }
def comm1 : Comm := { comm0 with serial := 1, comm := 1, rank := 1, node := 1, routes := [(0, .self)], cbase := 2 }

/-- `engines` with the two communicators, entries and transfers. -/
def sowing (es : List Entry) (xs : List Xfer) : State :=
  { engines with sower := { engines.sower with comms := [comm0, comm1], entries := es, xfers := xs } }

/-- Entry 3 of communicator 0: a transfer of 64 bytes at 0x300000 to or from rank 1, waiting on STIME 0. -/
def entry3 (op : Nat) (p : EntryPhase) : Entry :=
  { handle := 3, part := 0, launch := 1, ctr := none, r0 := none, r1 := none, phase := p
    rec_ := parseERec (rec64 [(0, 1, op), (4, 4, 0xFFFFFFFF), (16, 4, 1), (20, 4, 0x80000000), (24, 8, 0x301000), (32, 8, 0x302000),
      (40, 8, 64), (52, 4, 0xFFFFFFFF), (56, 4, 0xFFFFFFFF), (60, 4, 0xFFFFFFFF)]) }

/-- Its transfer, and a program of one SEND step or none. -/
def xfer3 : Xfer := { (entry3 1 .running).rec_.xfer comm0 .send with handle := 3, inDone := true, granted := true }
def sendStep (kind : Nat) : PStep :=
  { kind, overlap := false, fromD := false, home := false, redTy := 0, rop := 0, peer := 0, peer2 := 0, sidx := 0, didx := 0, len := 64,
    thresh := 0 }
def prog3 (steps : List PStep) : Entry := { entry3 8 .running with prog := some { steps } }

/-- `sowing` with a message in flight to communicator 0 from rank 1. -/
def arriving (m : SMsg) : State :=
  { engines with sower := { engines.sower with comms := [{ comm0 with
      routes := [(1, .rails)]
      flight := [{ src := 1, xfer := 0, msg := m }] }, comm1] } }

/-- Communicator 0 with a fault met or a notice received. -/
def failing (f : Comm → Comm) : State := { engines with sower := { engines.sower with comms := [f comm0, comm1] } }

/-- `sowing` whose rank 1 stands in another package, with one message taken, and whose line at 0x302000 the host holds. -/
def farPeer : State :=
  failing fun c => { c with routes := [(1, .rails)], heard := [(1, 1)] }
def hostLine : State := { farPeer with dir := { farPeer.dir with lines := [(0x302000 / 64, { st := .ho, host := true })] } }

/-- A chunk and a PUT from outside, by sequence number and destination. -/
def farChunk (seq : Nat) (dest : Option Nat) : ChunkMsg := { total := 64, off := 0, data := List.replicate 64 1, seq, dest }
def farPut (seq : Nat) : PutMsg := { dst := 0x302000, data := [1, 2], atomic := false, last := true, pctr := none, seq }

/-- A communicator that the runtime can create. -/
def oneSpec : CommSpec :=
  { launch := 8, comm := 0, n := 1, rank := 0, vc := 7, cbase := 0, ccnt := 2, routes := [], node := 0, loc := 1, gid := 9 }

theorem wit_SowerEvents :
    EntryStart .send 1 (fun r c => r.xfer c .send) ∧ EntryReceive .rrs 3 (fun r c => r.xfer c .rrs) ∧
    (sowing [entry3 1 (.met 0)] []).sower.entry 3 = some (entry3 1 (.met 0)) ∧
    (sowing [entry3 1 .unfired] []).sower.entry 3 = some (entry3 1 .unfired) ∧
    (entry3 1 .unfired).timeMet (BitVec.ofNat 64 (sowing [entry3 1 .unfired] []).stime) = true ∧
    ((sowing [entry3 1 (.fired 0)] []).sower.startable 3 1).isSome ∧ ((sowing [entry3 3 (.fired 0)] []).sower.startable 3 3).isSome ∧
    ((sowing [entry3 5 (.fired 0)] []).sower.startable 3 5).isSome ∧ ((sowing [entry3 8 (.fired 0)] []).sower.startable 3 8).isSome ∧
    okAnd ((sowing [] []).readSteps ((sowing [] []).commLaunch comm0) comm0 0 0x303000 0x303000 256 []) (fun p => p.2 == []) = true ∧
    (sowing [] []).sower.entry 3 = none ∧ (sowing [] []).sower.xfers = [] ∧
    ((sowing [prog3 []] []).sower.entryComm (prog3 [])).map (·.active) = some true ∧
    (prog3 [sendStep 6]).prog.map (fun p => p.steps[p.next]?) = some (some (sendStep 6)) ∧
    (prog3 [sendStep 7]).prog.map (fun p => p.steps[p.next]?) = some (some (sendStep 7)) ∧
    (prog3 []).prog.map (fun p => p.steps[p.next]?) = some none := ⟨.send, .rrs, by decide +kernel⟩

theorem wit_SowerEvents_outside :
    ((farPeer.sower.comms[0]?).any fun c => (c.nextFlight 1).isNone && !c.inside 1 && decide (1 < c.n) && c.active &&
      (farChunk 1 none).dest.isNone && decide ((farChunk 1 none).data.length ≤ (farChunk 1 none).total - (farChunk 1 none).off) &&
      farPeer.sower.hasSlot c 1 && (c.inTurn 1 (farChunk 1 none).seq == .eq) && (c.inTurn 1 (farChunk 2 none).seq == .gt) &&
      (farChunk 1 (some 1)).dest == some 1 && c.rank != 1 &&
      (c.inTurn 1 (farPut 1).seq == .eq) && (c.inTurn 1 (farPut 2).seq == .gt) && (c.inTurn 1 (farPut 0).seq == .lt) &&
      (farPut 1).dest.isNone && okAnd (farPeer.performPut c 1 0 (farPut 1)) (fun _ => true)) = true ∧
    ((hostLine.sower.comms[0]?).any fun c => (c.nextFlight 1).isNone && (match hostLine.performPut c 1 0 (farPut 1) with
      | .error (.wait _) => true
      | _ => false)) = true ∧
    ((farPeer.sower.comms[0]?).any fun c => (farPeer.sower.comms.find? fun d => d.serial == c.serial) == some c &&
      ((farPeer.sower.hear c 1).comms.find? fun d => d.serial == c.serial).isSome) = true ∧
    (let s := arriving (.block 1 { total := 2, off := 0, data := [1, 2] })
     let u : State := { s with sower := { s.sower with comms := s.sower.comms.map fun c => { c with failed := some (1, 0, 0) } } }
     (u.sower.comms[0]?).any fun c => !c.active && (c.nextFlight 1).isSome && c.rank != 1) = true ∧
    (let e := entry3 1 .unfired
     let f := { entry3 1 .unfired with handle := 4 }
     (sowing [e, f] []).sower.entries = [e, f] ∧ e.handle < f.handle ∧ e.timeMet 0 = true ∧ f.timeMet 0 = true) ∧
    (let s := sowing [entry3 1 .running] [xfer3]
     s.sower.xfers.all fun y => match s.sower.xferComm y with
       | some d => s.pathTo d (y.target d) != .lost 24
       | none => true) = true := by decide +kernel

theorem wit_SowerEvents_transfers :
    ((sowing [entry3 1 .running] [{ xfer3 with granted := false }]).sower.xferComm xfer3).isSome ∧
    (sowing [entry3 1 .running] [{ xfer3 with granted := false }]).chunkDue { xfer3 with granted := false } comm0 = true ∧
    comm0.inside (xfer3.target comm0) = true ∧ (sowing [] []).sower.member comm0 1 = some comm1 ∧
    (sowing [entry3 1 .running] [{ xfer3 with granted := false }]).sower.slotsUsed comm1 comm0 = 0 ∧
    (let s := sowing [entry3 1 .running] [xfer3]
     (s.arbitrate 24 (s.readyChunks 24)).any (fun p => p.1 == xfer3 && p.1.op == .send && okAnd (s.moveOut p.1 p.2 24) (fun _ => true) &&
       okAnd (s.sowerAccs (s.commLaunch p.2) .sread p.1.src 64) fun as => (s.engineDemand .ofHeadland as .read).isNone) &&
       s.pathTo comm0 1 == .to 24) = true ∧
    (let s := arriving (.chunk { total := 64, off := 0, data := List.replicate 64 1 })
     (s.sower.comms[0]?).map (fun c => (c.nextFlight 1).isSome)) = some true ∧
    (let m : PutMsg := { dst := 0x302000, data := [1, 2], atomic := false, last := true, pctr := none }
     let s := arriving (.put m)
     (s.sower.comms[0]?).map (fun c => okAnd (s.performPut c 1 0 m) (fun _ => true) &&
       okAnd (s.sowerAccs (s.commLaunch c) .swrite m.dst 2) fun as => (s.engineDemand .ofHeadland as .store).isNone)) = some true ∧
    (let s := sowing [entry3 8 (.fired 0)] []
     okAnd (s.sowerAccs (s.commLaunch comm0) .sread (BitVec.ofNat 64 (field (entry3 8 (.fired 0)).rec_.body 8 8)) 32) fun as =>
       (s.engineDemand .ofHeadland as .read).isNone && (as.flatMap (·.keys)).all (fun k => !s.poison.contains (k / 32)) &&
       field (s.bytesAt (as.flatMap (·.keys))) 0 1 == 0 &&
       (stepCause comm0 (field (entry3 8 (.fired 0)).rec_.body 4 4) (s.bytesAt (as.flatMap (·.keys)))).isNone) = true ∧
    (let s := arriving (.block 1 { total := 2, off := 0, data := [1, 2] })
     (s.sower.comms[0]?).map (fun c => c.rank != 1 && c.active)) = some true ∧
    (comm0.active && !({ comm0 with failed := some (1, 0, 0) } : Comm).active) = true ∧
    (sowing [entry3 1 .running] [{ xfer3 with outDone := true }]).xferDone { xfer3 with outDone := true } = true ∧
    (sowing [entry3 1 .running] [{ xfer3 with outDone := true }]).sower.putsOut { xfer3 with outDone := true } = false ∧
    ((failing fun c => { c with fault := some (0x17, 3, 64) }).sower.comms[0]?).map (·.fault) = some (some (0x17, 3, 64)) ∧
    comm1.gid = comm0.gid ∧ comm1.n = comm0.n ∧ comm1.serial ≠ comm0.serial ∧ comm1.failed = none ∧
    ((failing fun c => { c with notice := some 0x17 }).sower.comms[0]?).map (·.notice) = some (some 0x17) ∧
    (Cause.ofCode 0x17).isSome ∧ (({ engines with sower := {} } : State).launchAt 8).map
      (fun l => (({ engines with sower := {} } : State).commOk l oneSpec, (sowing [] []).commOk l oneSpec)) = some (true, false) := by
  decide +kernel

/-- `demo` with parts of the fabric's directory changed. -/
def withDir (f : Machine.Dir → Machine.Dir) : State := { demo with dir := f demo.dir }

/-- One cluster's partial of a line in the commutative state, with its merge requested. -/
def onePartial : Partial := { line := 0xC000, holder := .cluster 98, sums := [(0, 5)] }

/-- A snoop of line 0xC000, and requests for a host line of partition 0, coherent and not (R304, R399). -/
def oneSnoop : Snoop := { line := 0xC000, inval := true, port := 0 }
def oneWant (io : Bool) : HostReq := { line := 0x20000000C000, own := true, port := 0, io }
def wanting (io : Bool) : State := withDir fun d => { d with wants := [oneWant io], hosts := [(0x20000000C000, .s)] }

/-- `demo` with table entries that the runtime may write, a core's write flushing, a write granted for a host line, whole or in part,
and a change sequence on the home die of 0x300000. -/
def tableGranted : State := demo.modLaunch 0 1 fun l => { l with grants := [(0x10000000, 8)] }
def flushing : State := (withDir fun d => { d with flushes := [(.ctx 0 0, 5)] }).modMe fun c => { c with ncWait := 1 }
def grantedWrite (whole : Bool) : State := withDir fun d => { d with granted := [{ line := 0x20000000C000, whole, core := some 0 }] }
def busyLink : State := demo.modDie 6 fun d => { d with seq := some { step := .quiesce } }

theorem wit_HomeEvents_pending :
    tableGranted.spaceBusy 0 tableGranted.myLaunch.space = false ∧ tableGranted.scheduling = true ∧
    tableGranted.entryGranted 0 tableGranted.myLaunch.space [] 0x10000000 = true ∧
    (tableGranted.entriesWait 0 [(0x10000000, 5)]).isNone ∧ tableGranted.quarantined (range (devKey tableGranted.pm 0 0x10000000) 8) = false ∧
    demo.entryGranted 0 demo.myLaunch.space [] 0x10000000 = false ∧
    flushing.dir.flushes.find? (fun p => p.2 == 5) = some (.ctx (0 : CoreId).val (0 : SlotId).val, 5) ∧
    (grantedWrite false).anyPort false = true ∧ (grantedWrite false).dir.writePending (0x8000000300000 / 64) = true ∧
    demo.dir.writePending (0x8000000300000 / 64) = false ∧ ({ demo with hostDown := [0, 1] } : State).anyPort false = false ∧
    (let s := withDir fun d => { d with wants := [{ oneWant false with whole := true }] }
     ∃ p ∈ s.dir.wants, p.line = 0x8000000300000 / 64 ∧ p.whole = true ∧ p.own = true) ∧
    (∃ p ∈ (wanting false).dir.wants, p.line = 0x8000000300000 / 64 ∧ p.io = false ∧ p.whole = false ∧ p.own = true) ∧
    (∃ w ∈ (wanting false).dir.wants, w.port = (0 : Fin 2).val) ∧ demo.hostHeld 0 0x300000 3 = false ∧
    busyLink.hostHeld 0 0x300000 3 = true ∧
    ({ demo with dir := demo.dir.setLine 0xC000 { st := .q } } : State).quarantined (range (0x300000 / 64 * 64) 64) = true := by decide +kernel

theorem wit_HomeEvents :
    (demo.dir.line 0xC000).st ≠ .q ∧ (demo.dir.line 0xC000).st = .i ∧ (From.ofCluster 1 3).die = 1 ∧ (From.ofCluster 1 3).die ≠ 0 ∧
    ((withDir fun d => d.setLine 0xC000 { st := .q }).dir.line 0xC000).st = .q ∧
    HomeEvent 0 2 0x300000 0 (.homeReduction 0 2 0x300000 0 true false) (.red .badd) ∧
    demo.ofPartition 0 0xC000000000 = false ∧ demo.ofPartition 0 0x300000 = true ∧
    demo.demand (.ofCluster 0 2) (lineAcc 0x300000 0) (.red .badd) = none ∧
    (let d := (withDir fun d => { d.setLine 0xC000 { st := .c .badd } with merging := [0xC000] }).dir
     (d.line 0xC000).inC = true ∧ 0xC000 ∈ d.merging ∧ ∀ p ∈ d.partials, p.line ≠ 0xC000) ∧
    (withDir fun d => { d with partials := [onePartial] }).dir.partials = [onePartial] ∧ onePartial.line = 0x300000 / 64 ∧
    onePartial.holder = .cluster ((6 : DieId).val * 16 + (2 : Fin 16).val) ∧ homeDie demo.pm 0x300000 = (6 : DieId).val ∧
    0x300000 < hostBase ∧ demo.dir.tileOf 0xC000 = none ∧ demo.linkHeld 0 = false ∧
    ((demo.modDie 0 fun x => { x with relTokens := [.ctx 0 0] }).die (0 : DieId).val).relTokens = [.ctx 0 0] ∧
    ((demo.modDie 0 fun x => { x with acqTokens := [(0, 0)] }).die (0 : DieId).val).acqTokens = [(0, 0)] ∧
    (demo.die (0 : DieId).val).relTokens = [] ∧ (demo.die (0 : DieId).val).acqTokens = [] := ⟨by decide +kernel, by decide +kernel,
      by decide +kernel, by decide +kernel, by decide +kernel, .badd _, by decide +kernel⟩

theorem wit_HomeEvents_host :
    Grants (.exclusive []) .e ∧ ([1] : List Byte) ≠ [] ∧ (From.ofCluster 0 2).copies = true ∧
    (withDir fun d => { d with snoops := [oneSnoop] }).dir.snoops.find? (fun p => p.line == 0x300000 / 64) = some oneSnoop ∧
    demo.dir.snoops.find? (fun p => p.line == 0x300000 / 64) = none ∧ (demo.dir.line 0xC000).st ≠ .ho ∧
    demo.hdmKey 0 0x300000 8 = some 0x300000 ∧ demo.inv = true ∧ demo.quarantined (range (0x300000 / 64 * 64) 64) = false ∧
    demo.quarantined (range 0x300000 8) = false ∧ partCount demo.pm ≤ 1 ∧
    (∃ p ∈ (wanting false).dir.wants, p.line = 0x8000000300000 / 64 ∧ p.io = false) ∧
    (∃ p ∈ (wanting true).dir.wants, p.line = 0x8000000300000 / 64 ∧ p.io = true) ∧ demo.dir.wants = [] ∧
    (assocGet (wanting false).dir.hosts (0x8000000300000 / 64)).isSome ∧ demo.hostDown.contains 0 = false ∧
    (demo.core 0).strays = [] ∧ demo.anyPort true = true ∧ packageQueue demo.pm 0 3 = some 3 ∧ (0x28 : Nat) < 4096 ∧ 0 < partCount demo.pm ∧ 0x10000000 + 8 ≤ partSize demo.pm ∧
    demo.launches.map (fun l => (l.part, l.cores, (demo.core 0).ctxs.toList.any (·.holdsTranslation))) = [(0, [0], false)] :=
  ⟨.exclusive _, by decide +kernel⟩

/-- `demo` with queue 3 enabled: an entry at 0x180000, a ring of records at 0x181000, and what the entry names (R341 to R344). -/
def submitted (entry : List Byte) (x : WQueue → WQueue) : State :=
  let put (m : Memory) (p : Nat × List Byte) : Memory := m.store p.1 p.2
  { demo with
    pm := .pm8
    mem := [(0x180000, entry), (0x182000, rec64 [(0, 8, 0x183000), (8, 8, 0x184000), (16, 4, 1), (21, 1, 1), (23, 1, 2), (32, 8, 0x20000000)]),
      (0x182050, leBytes 8 0xFFFFFFFF00000000),
      (0x183000, rec64 [(0, 4, 0x4B514A4F), (4, 2, 1), (6, 2, 0xB0), (8, 8, encHash), (32, 8, 128), (40, 8, 32), (48, 8, 160)]),
      (0x183040, rec64 [(0, 8, 160), (16, 8, 160)])].foldl put demo.mem
    firmware := { demo.firmware with roots := [(0, 0, loadRoot)] }
    queues := [(3, x { en := true, sqTail := 1, sqBase := 0x8000000000180000, cqBase := 0x8000000000181000 })] }

/-- A LAUNCH entry and a CANCEL entry that names launch 1 (R342). -/
def launchRec : List Byte := rec64 [(0, 1, 1), (4, 4, 0x1234), (8, 8, 0x182000)]
def cancelRec : List Byte := rec64 [(0, 1, 2), (8, 8, 1)]
def cqRec : CqRec := { status := 0, cause := 0, tag := 0x1234, launch := 1, fatal := 0, ncore := 1 }

/-- Whether reading a queue's entry finds bytes with a property. -/
def entryIs (s : State) (q : Nat) (p : State → List Byte → Bool) : Bool :=
  match s.readEntry q with
  | some (.bytes t b) => p t b
  | _ => false

/-- The launch that the entry submits. -/
def newLaunch : Launch := { id := 2, queue := 3, epoch := 0, tag := 0x1234, root := loadRoot }

/-- `submitted` where no root is set. -/
def rootless : State := { submitted launchRec id with firmware := demo.firmware }

theorem wit_QueueAndLaunchEvents :
    (3 : Nat) < 65536 ∧ (submitted launchRec id).firmware.stopped = false ∧
    entryIs (submitted launchRec id) 3 (fun s b => field b 0 1 == 1 && zeros b 1 3 && zeros b 16 48 && (s.rootOf 0 0).isSome &&
      okAnd (s.checkLaunch newLaunch (BitVec.ofNat 64 (field b 8 8))) fun p => p.2.desc.args == 0x184000) = true ∧
    entryIs (submitted (rec64 [(0, 1, 1), (8, 8, 0x182040)]) id) 3 (fun s b => !okAnd (s.checkLaunch newLaunch
      (BitVec.ofNat 64 (field b 8 8))) fun _ => true) = true ∧
    entryIs rootless 3 (fun s b => field b 0 1 == 1 && zeros b 1 3 && zeros b 16 48 &&
      (s.rootOf 0 0).isNone) = true ∧
    entryIs (submitted cancelRec id) 3 (fun s b => field b 0 1 == 2 && ((s.passEntry 3).cancelTarget 3 b).isSome) = true ∧
    entryIs (submitted (rec64 [(0, 1, 2), (8, 8, 5)]) id) 3 (fun s b => field b 0 1 == 2 && ((s.passEntry 3).cancelTarget 3 b).isNone) =
      true ∧ (demo.queue 3).en = false ∧
    (submitted cancelRec fun x => { x with records := [cqRec] }).inv = true ∧
    ((submitted cancelRec fun x => { x with records := [cqRec] }).queue 3).records = [cqRec] ∧
    (((submitted cancelRec id).slotAcc 3 0x8000000000181000 0 32).map fun a =>
      (((submitted cancelRec id).engineDemand .ofHeadland [a] .store).isSome, a.keys.length)) = some (false, 32) ∧
    (((submitted cancelRec fun x => { x with records := [cqRec], cqTail := 16 }).queue 3).cqTail -
      ((submitted cancelRec fun x => { x with records := [cqRec], cqTail := 16 }).queue 3).cqHead).toNat = 2 ^ 4 := by decide +kernel

/-- `submitted` with a launch due that asks for one core, or live and then pre-empted from core 0. -/
def dueState : State :=
  { submitted launchRec id with launches := [{ newLaunch with
      desc := { creq := 1 }
      dueAt := some 1 }] }
def asked : State :=
  { withDesc with
    mem := withDesc.mem.store 0 (leBytes 8 0x300000 ++ leBytes 8 0x300000 ++ leBytes 8 4096 ++ [0, 3])
    ckpt := { withDesc.ckpt with busy := true, parts := 1 }
    launches := [{ withDesc.myLaunch with desc := { withDesc.myLaunch.desc with creq := 1 } }] }
def saved : State :=
  { demo with
    pm := .pm8
    cores := demo.cores.set 0 {}
    saves := [(0, 1, [demo.core 0])]
    firmware := { demo.firmware with roots := [(0, 0, loadRoot)] }
    launches := [{ demo.myLaunch with
      desc := { demo.myLaunch.desc with creq := 1 }
      phase := .preempted
      dueAt := some 1 }] }

/-- The 16 pages of a window of core 0, from an entry's address on (R364, R365). -/
def lmPages (at_ code flags : Nat) : List (Nat × Word) :=
  (List.range 16).map fun i => (at_ + 8 * i, BitVec.ofNat 64 (apBase + code * 2 ^ 20 + i * 65536 + 2 ^ 52 + flags + 3))

/-- The page table of LM of core 0 (R365), the first entry of which the runtime's plan gives. -/
def lmTables : List (Nat × Word) :=
  [(0x10042000, 0x10043001), (0x10042008, BitVec.ofNat 64 (apBase + 2 ^ 21 + 2 ^ 52 + 2 ^ 54 + 3)), (0x10042010, 0x10043101)] ++
    lmPages 0x10043080 1 (2 ^ 54) ++ lmPages 0x10043100 4 0
def lmPlan : BindPlan :=
  { die := 0, x0 := 0, y0 := 0, codeVa := 0, codePa := 0, dataVa := 0, dataPa := 0, spillVa := 0, spillStride := 64, bdtPa := 0
    savePa := 0, cwVa := 0, ctrBase := 0
    tables := [(0x10030000 + 8 * 0x1FF0, 0x10042001)]
    grants := [(0x10000000, 0x100000)] }

/-- A stray write of one byte. -/
def stray : Stray := { acc := { keys := [0x300000], place := .dev 0x300000 }, data := [7] }

/-- MEPI through descriptor 0 at row 1 of 4, while its descriptor is at the host, or a write of its row 1 is in flight to a line that is. -/
def mepiRun : HRun :=
  { cmd := cmdOf (rec64 [(0, 1, 5), (12, 2, 512), (14, 2, 4), (40, 2, 512), (42, 1, 3)]), serial := 0, begun := true, row := 1 }
def tokenOut : State := asked.modMe fun c => { c with relWait := 1 }
def stopping : State := asked.beginStop asked.myLaunch
def heldRun : HRun := { mepiRun with row := 2, flight := [{ row := 1, gens := [], packets := [stray] }] }
def held (line : Nat) (r : HRun) : State :=
  { stopping with dir := stopping.dir.setLine line { st := .ho, host := true } }.modCore 0
    fun x => { x with harrow := { x.harrow with running := some r } }

theorem wit_QueueAndLaunchEvents_launches :
    demo.launchAt 8 = some demo.myLaunch ∧ demo.myLaunch.phase = .live ∧ demo.myLaunch.stopping = false ∧ demo.myLaunch.boundAt = some 0 ∧
    dueState.launchAt 16 = some (dueState.launches.getD 0 newLaunch) ∧ (dueState.launches.getD 0 newLaunch).phase = .due ∧
    dueState.granted (dueState.launches.getD 0 newLaunch) = true ∧ coreReq (dueState.launches.getD 0 newLaunch).desc.creq = .count 1 ∧
    chooseCores (dueState.openCores 0 0) (.count 1) (0, 0, 0) = some [1] := by decide +kernel

/-- `saved` with the tables of LM of core 0 but for the plan's one entry, that entry written, and its launch as it resumes. -/
def lmSaved : State := { saved with mem := lmTables.foldl (fun m e => m.store e.1 (leBytes 8 e.2.toNat)) saved.mem }
def lmMapped : State := lmPlan.tables.foldl (fun s e => s.writeEntry 0 e) lmSaved
def boundAgain : Launch :=
  { saved.launches.getD 0 newLaunch with
    phase := .live
    cores := [0] }

theorem wit_QueueAndLaunchEvents_preemption :
    asked.launchAt 8 = some asked.myLaunch ∧ demo.mayPreempt demo.myLaunch = false ∧ asked.mayPreempt asked.myLaunch = true ∧
    asked.myLaunch.phase = .live ∧ asked.myLaunch.stopping = false ∧ asked.myLaunch.cores = [0] ∧
    ((stopping.settleCore 0).core 0).settled = true ∧ (stopping.die 0).seq = none ∧
    (((tokenOut.beginStop tokenOut.myLaunch).settleCore 0).core 0).settled = false ∧ tokenOut.mayPreempt tokenOut.myLaunch = true ∧
    ((stopping.settleCore 0).launchAt 8).isSome ∧ stopping.launchAt 8 = some stopping.myLaunch := by decide +kernel

theorem wit_QueueAndLaunchEvents_resumption :
    lmSaved.launchAt 8 = some (saved.launches.getD 0 newLaunch) ∧ (saved.launches.getD 0 newLaunch).phase = .preempted ∧
    lmSaved.granted (saved.launches.getD 0 newLaunch) = true ∧ lmSaved.resumeCores (saved.launches.getD 0 newLaunch) = some [0] ∧
    (lmSaved.saves.find? (fun e => e.1 == 0 && e.2.1 == 1)).map (fun e => e.2.2.length) = some 1 ∧
    lmSaved.ctrFree (saved.launches.getD 0 newLaunch) lmPlan.ctrBase = true ∧ ([0].map coreOf : List CoreId).Nodup ∧
    lmMapped.rankMaps boundAgain = true ∧ lmSaved.rootOf 0 0 = some loadRoot ∧ (saved.launches.getD 0 newLaunch).space = 0 ∧
    (lmSaved.entriesWait 0 lmPlan.tables).isNone ∧ (lmSaved.saveWaits (saved.launches.getD 0 newLaunch) 1 .read).isNone ∧
    (∀ e ∈ lmPlan.tables, lmSaved.entryGranted 0 0 lmPlan.grants e.1 = true) := by decide +kernel

/-- A launch that a CANCEL stops: its matrix unit at work, standing, or being saved. -/
def running : State := { asked with dir := asked.dir.setLine 0 { st := .ho, host := true } }.modCore 0 fun x => { x with harrow := { x.harrow with running := some mepiRun } }
def standing (s : State) : State :=
  s.myLaunch.cores.foldl (fun s c => s.settleUnit (coreOf c) asked.myLaunch) (s.modLaunch 0 1 fun x => { x with
    ending := some 3
    stopping := true })

theorem wit_QueueAndLaunchEvents_stops :
    demo.memActive = true ∧ ({ demo with firmware := { demo.firmware with recovery := true, image := none } } : State).memActive = false ∧
    ((standing running).core 0).harrow.settled = false ∧ ((standing asked).core 0).harrow.settled = true ∧
    ((standing asked).findLaunch 0 1).isSome ∧ stopping.myLaunch.stopping = true ∧ stopping.myLaunch.saving = true ∧
    (stopping.modLaunch 0 1 fun l => { l with saving := false }).myLaunch.saving = false ∧
    ((stopping.settleCore 0).saveWaits stopping.myLaunch 1 .store).isNone ∧
    (let s := stopping.settleCore 0
     (({ s with dir := s.dir.setLine (s.myLaunch.saveKey s.pm 0 / 64) { st := .ho, host := true } } : State).saveWaits s.myLaunch 1
       .store).isSome) = true ∧
    stopping.myLaunch.ending = none ∧ (standing asked).myLaunch.ending = some 3 := by decide +kernel

theorem wit_QueueAndLaunchEvents_resumption_others : lmMapped.onlyRanks boundAgain = true := by decide +kernel

theorem wit_QueueAndLaunchEvents_epilogue :
    (held 0 mepiRun).launchOf 0 = some stopping.myLaunch ∧ stopping.myLaunch.stopping = true ∧ asked.inv = true ∧
    ((held 0 mepiRun).core 0).harrow.epilogue = some mepiRun ∧ mepiRun.stalled = false ∧ mepiRun.row < field mepiRun.cmd.record 14 2 ∧
    ((held 0 mepiRun).landRows 0 mepiRun).2 = mepiRun ∧ mepiRun.row % 16 ≠ 0 ∧
    (match ((held 0 mepiRun).landRows 0 mepiRun).1.mepiData 0 stopping.myLaunch mepiRun with
      | .error (.wait _) => true
      | _ => false) = true ∧
    ((held 0xC000 heldRun).core 0).harrow.epilogue = some heldRun ∧ ((held 0xC000 heldRun).landRows 0 heldRun).2.flight ≠ [] ∧
    ({ mepiRun with row := 0 } : HRun).flight = [] ∧ ({ mepiRun with row := 0 } : HRun).row % 16 = 0 ∧
    ({ mepiRun with flight := [{ row := 1, gens := [], packets := [stray] }] } : HRun).flight ≠ [] ∧
    (demo.core 0).harrow.epilogue = none ∧ (demo.core 0).strays = [] ∧
    ((withCore fun x => { x with strays := [stray] }).core 0).strays = [stray] ∧
    (withCore fun x => { x with strays := [stray] }).engineDemand (From.ofEngine 0) [stray.acc] .store = none := by decide +kernel

/-- `demo` with a die, the checkpoint, the firmware or the time master changed. -/
def withDie (f : DieState → DieState) : State := demo.modDie 0 f
def withCkpt (f : Ckpt → Ckpt) : State := { demo with ckpt := f demo.ckpt }
def withFw (f : Firmware → Firmware) : State := { demo with firmware := f demo.firmware }
def withTime (f : TimeMaster → TimeMaster) : State := { demo with time := f demo.time }

/-- A quarantined line of device memory, homed on die 0. -/
def lost : State := withDir fun d => d.setLine 0x4000 { st := .q }

theorem wit_LinkRasAndTimeEvents :
    packageQueue demo.pm 0 3 = some 3 ∧ packageQueue demo.pm 1 3 = none ∧ pageAccess 4 8 = false ∧ pageAccess 0x18 8 = true ∧
    (3 : Nat) < 65536 ∧ (demo.queue 3).en = false ∧ ((submitted launchRec id).queue 3).en = true ∧
    35 ≤ wbits 35 0 8 ∧ wbits 35 0 8 ≤ 84 ∧ wbits 84 0 8 ≤ 84 ∧ wbits 34 0 8 < 35 ∧ 84 < wbits 85 0 8 ∧ wbits 6 1 2 = 3 ∧
    wbits 4 1 2 ≠ 3 ∧ (demo.die 0).seq = none ∧ (demo.die 0).dead = false ∧ (demo.die 0).forcedDue = false ∧
    ((withDie fun x => { x with freqDue := some 40 }).die 0).freqDue = some 40 ∧
    ((withDie fun x => { x with seq := some { step := .drain, freq := some 40 } }).die 0).seq =
      some { step := .drain, freq := some 40 } ∧ (demo.die 0).relTokens = [] ∧ (demo.die 0).acqTokens = [] ∧
    ((withDie fun x => { x with seq := some { step := .quiesce, freq := some 40 } }).die 0).seq =
      some { step := .quiesce, freq := some 40 } ∧
    ((withDie fun x => { x with seq := some { step := .lock, freq := some 40 } }).die 0).seq =
      some { step := .lock, freq := some 40 } ∧
    ((withDie fun x => { x with seq := some { step := .retrain, freq := none } }).die 0).seq =
      some { step := .retrain, freq := none } ∧
    0 < (demo.die 0).sparesIn ∧ ((withDie fun x => { x with sparesIn := 0 }).die 0).sparesIn = 0 ∧
    0 < (demo.die 0).spares ∧ ((withDie fun x => { x with spares := 0 }).die 0).spares = 0 ∧ (demo.die 0).forced < 2 := by
  decide +kernel

theorem wit_LinkRasAndTimeEvents_memory :
    0x4000 * 64 < 768 * 2 ^ 30 ∧ demo.dir.tileOf 0x4000 = none ∧ (List.replicate 64 (7 : Byte)).length = 64 ∧ lost.inv = true ∧
    (lost.dir.line 0x4000).st = .q ∧ (demo.dir.line 0x4000).st ≠ .q ∧ demo.outstandingOn (0 : DieId).val = [] ∧
    (∃ h : DieId, homeDie demo.pm (0x4000 * 64) = h.val) ∧ demo.findLaunch (demo.partOf 0) 1 = some demo.myLaunch ∧
    demo.findLaunch (demo.partOf 0) 9 = none ∧
    (let s := withDir fun d => { d with wants := [{ oneWant false with core := some 5 }] }
     ∃ w ∈ s.dir.wants, w.core.map (· / 128) = some (0 : DieId).val) ∧
    (let s := withDir fun d => { d with snoops := [oneSnoop] }
     ∃ p ∈ s.dir.snoops, homeDie s.pm (p.line * 64) = (6 : DieId).val ∧ s.dir.tileOf p.line = none ∧ p.line * 64 < 768 * 2 ^ 30) ∧ (lost.die (homeDie lost.pm (0x4000 * 64))).dead = false ∧
    ((withDie fun x => { x with dead := true }).die (0 : DieId).val).dead = true ∧ (demo.die (0 : DieId).val).dead = false ∧
    (0 : CoreId).val / 128 = (0 : DieId).val ∧ (demo.ctx 0 0).live = true ∧ (demo.ctx 0 1).live = false ∧
    keyDie demo.pm 0x300000 = some (6 : DieId).val ∧ (demo.core 0).launch = some 1 ∧ demo.savesOn 0 = false ∧
    ({ demo with launches := demo.launches.map fun l => { l with stopping := true } } : State).savesOn 0 = true := by decide +kernel

theorem wit_LinkRasAndTimeEvents_time :
    (withTime fun x => { x with announced := [(2, 7), (4, 7), (5, 3)] }).slavePort = some (5 : Fin 8).val ∧
    (withTime fun x => { x with announced := [(2, 7), (4, 7)] }).slavePort = some (2 : Fin 8).val ∧ demo.slavePort = none ∧
    demo.memActive = true ∧ demo.ongeozDown.contains (2 : Fin 8).val = false ∧
    (withTime fun x => { x with announced := [(2, 7), (4, 7)] }).railRank 4 = some 7 ∧
    (withFw fun f => { f with recovery := true, image := none }).memActive = false ∧
    (12 : BitVec 32) ≠ 0xFFFFFFFF ∧ demo.time.synced = false ∧ (withTime fun x => { x with synced := true }).time.synced = true ∧
    (withTime fun x => { x with bound := 12 }).time.bound ≠ 0xFFFFFFFF ∧
    60000 ≤ (withTime fun x => { x with holdover := 60000 }).time.holdover ∧ demo.time.holdover < 60000 ∧
    [32, -32, 0, 1, 2, 3, 4, 5].length = 8 ∧ ∀ k ∈ ([32, -32, 0, 1, 2, 3, 4, 5] : List Int), k.natAbs ≤ 32 := by decide +kernel

theorem record_length (s : State) (pg : Nat) : 65536 ≤ (s.pageRecord pg).1.length := by
  unfold State.pageRecord State.pageAtCut
  simp only [List.length_append, List.length_map, range, List.length_range]
  exact Nat.le_add_left _ _
/-- A host write granted for each of some lines. -/
def grantAll (s : State) (ns : List Nat) : State :=
  s.modDir fun d => { d with granted := ns.map fun n => { line := hostKey 0 n, whole := true, core := none } }

/-- The lines that page 0's record fills. -/
def recordLines (s : State) : List Nat := s.ckpt.lines (s.pageRecord 0).1.length

theorem recordLines_ne_nil (s : State) : recordLines s ≠ [] := by
  have h := record_length s 0
  intro e
  have := congrArg List.length e
  simp only [recordLines, Ckpt.lines, range, List.length_map, List.length_range, List.length_nil] at this
  omega
theorem pageRecord_grantAll (s : State) (ns : List Nat) (pg : Nat) : (grantAll s ns).pageRecord pg = s.pageRecord pg := by
  have h1 : (grantAll s ns).pageAtCut pg = s.pageAtCut pg := by
    unfold State.pageAtCut; rfl
  have h2 : (grantAll s ns).lostGranules pg = s.lostGranules pg := by unfold State.lostGranules; rfl
  have h3 : (grantAll s ns).pageTagged pg = s.pageTagged pg := by unfold State.pageTagged; rfl
  unfold State.pageRecord
  rw [h1, h2, h3]
  rfl

/-- Where every line of the record has its write granted, the record can be written. -/
theorem grantAll_ready (s : State) (hp : s.anyPort false = true) (hl : ∀ d, s.linkHeld d = false) (hd : ∀ d, (s.die d).dead = false) :
    let u := grantAll s (recordLines s)
    u.dstDead (recordLines u) = false ∧ u.dstWait (recordLines u) = none := by
  have hr : recordLines (grantAll s (recordLines s)) = recordLines s := by
    unfold recordLines
    rw [pageRecord_grantAll]
    rfl
  have hn : (recordLines s).filter (fun n => !(grantAll s (recordLines s)).dir.grantedWhole (hostKey 0 n)) = [] := by
    refine List.filter_eq_nil_iff.2 fun n hn => ?_
    have : (grantAll s (recordLines s)).dir.grantedWhole (hostKey 0 n) = true :=
      List.any_eq_true.2 ⟨_, List.mem_map.2 ⟨n, hn, rfl⟩, by simp⟩
    simp [this]
  have hp' : (grantAll s (recordLines s)).anyPort false = true := hp
  have hl' : ∀ d, (grantAll s (recordLines s)).linkHeld d = false := hl
  refine ⟨?_, ?_⟩
  · rw [hr]
    refine List.any_eq_false.2 fun n _ => ?_
    exact Bool.eq_false_iff.1 (hd _)
  · rw [hr]
    unfold State.dstWait
    have ha : ((recordLines s).any fun _ => false) = false := by simp
    simp only [hp', hl', hn, ha, Bool.not_true, Bool.or_self, Bool.false_eq_true, if_false, List.isEmpty_nil, if_true]

/-- Where none has, it waits. -/
theorem record_waits (s : State) (hp : s.anyPort false = true) (hl : ∀ d, s.linkHeld d = false) (hg : s.dir.granted = []) :
    ∃ t, s.dstWait (recordLines s) = some t := by
  have hn : (recordLines s).filter (fun n => !s.dir.grantedWhole (hostKey 0 n)) = recordLines s :=
    List.filter_eq_self.2 fun n _ => by simp [Machine.Dir.grantedWhole, hg]
  have he : (recordLines s).isEmpty = false := by simpa using recordLines_ne_nil s
  unfold State.dstWait
  have ha : ((recordLines s).any fun _ => false) = false := by simp
  simp only [hp, hl, hn, he, ha, Bool.not_true, Bool.or_self, Bool.false_eq_true, if_false]
  exact ⟨_, rfl⟩

/-- Where every die is down, its write fails. -/
theorem record_fails (s : State) (hd : ∀ d, (s.die d).dead = true) : s.dstDead (recordLines s) = true := by
  obtain ⟨n, hn⟩ := List.exists_mem_of_ne_nil _ (recordLines_ne_nil s)
  exact List.any_eq_true.2 ⟨n, hn, hd _⟩

/-- A stream that has page 0 to send, from the reserve, and the same with every die down. -/
def streaming : State := withCkpt fun k => { k with busy := true, status := 1, parts := 1, shadow := [(0, demo.mem, [], [])] }
def streamingDead : State := { streaming with dies := streaming.dies.map fun x => { x with dead := true } }

theorem streaming_die (d : Nat) : (streaming.die d).dead = false := by
  have h : ∀ i : Fin 8, (streaming.dies.get i).dead = false := by decide +kernel
  exact h (Fin.ofNat 8 d)

theorem streamingDead_die (d : Nat) : (streamingDead.die d).dead = true := by
  have h : ∀ i : Fin 8, (streamingDead.dies.get i).dead = true := by decide +kernel
  exact h (Fin.ofNat 8 d)

theorem streaming_link (d : Nat) : streaming.linkHeld d = false := by
  have h : ∀ i : Fin 8, streaming.linkHeld i.val = false := by decide +kernel
  by_cases hd : d < 8
  · exact h ⟨d, hd⟩
  · simp [State.linkHeld, hd]

theorem wit_CheckpointAndFirmwareEvents_record :
    streaming.ckpt.busy = true ∧ streaming.ckpt.status ≠ 0 ∧ streaming.nextPage = some 0 ∧ (streaming.pageWait 0).isNone ∧
    (let s : State := { streaming with
        ckpt := { streaming.ckpt with shadow := [] }
        dir := streaming.dir.setLine 5 { st := .ho, host := true } }
     (s.pageWait 0).isSome) ∧ (streaming.ckpt.shadow.any fun e => e.1 == 0) = true ∧
    (streamingDead.ckpt.shadow.any fun e => e.1 == 0) = true ∧ streaming.anyPort false = true ∧ streaming.dir.granted = [] := by
  decide +kernel

/-- The record is read from the reserve, so that it is the record of the state before: it waits for its grants, is written once it has
them, and fails where the destination's dies are down. -/
theorem wit_CheckpointAndFirmwareEvents_stream :
    (∃ t, streaming.dstWait (recordLines streaming) = some t) ∧
    (let u := grantAll streaming (recordLines streaming)
     u.dstDead (recordLines u) = false ∧ u.dstWait (recordLines u) = none) ∧ streamingDead.dstDead (recordLines streamingDead) = true :=
  have h := wit_CheckpointAndFirmwareEvents_record
  ⟨record_waits _ h.2.2.2.2.2.2.2.1 streaming_link h.2.2.2.2.2.2.2.2,
    grantAll_ready _ h.2.2.2.2.2.2.2.1 streaming_link streaming_die, record_fails _ streamingDead_die⟩

/-- An image of version 3. -/
def fwImage : FwImage := { version := 3, header := [1], root := [2], sched := [3], sig := [4] }

theorem wit_CheckpointAndFirmwareEvents :
    demo.ckpt.busy = false ∧ (1 : Byte) ≠ 0 ∧ (1 : Byte).toNat < 2 ^ partCount demo.pm ∧ 2 ^ partCount demo.pm ≤ (2 : Byte).toNat ∧
    ckptNeed demo.pm 1 ≤ wbits (withCkpt fun k => { k with dst := 0xFFF0000000000000 }).ckpt.dst 52 12 * 2 ^ 30 ∧
    wbits demo.ckpt.dst 52 12 * 2 ^ 30 < ckptNeed demo.pm 1 ∧
    (∀ l ∈ (withCkpt fun k => { k with busy := true, parts := 2 }).launches, l.phase = .live →
      (withCkpt fun k => { k with busy := true, parts := 2 }).ckpt.parts.getLsbD l.part = false) ∧
    (withCkpt fun k => { k with busy := true, parts := 2 }).ckpt.busy = true ∧
    (∀ d < 8, (withCkpt fun k => { k with busy := true, parts := 2 }).ckptDie d = true →
      (withCkpt fun k => { k with busy := true, parts := 2 }).linkHeld d = false) ∧
    (withCkpt fun k => { k with busy := true, parts := 2 }).hostHas = [] ∧
    ({ withCkpt (fun k => { k with busy := true, parts := 1 }) with
      launches := []
      dir := demo.dir.setLine 5 { st := .ho, host := true } } : State).hostHas ≠ [] ∧
    (let s := withCkpt fun k => { k with busy := true, status := 1, parts := 2 }
     let ns := s.ckpt.lines (padTo 64 (leBytes 8 s.ckpt.sent ++ leBytes 8 s.ckpt.cutTime)).length
     s.dstDead ns = false ∧ (s.dstWait ns).isSome ∧ ((grantAll s ns).dstWait ns).isNone ∧ (grantAll s ns).nextPage = none) ∧
    (withFw fun f => { f with stopped := true }).firmware.stopped = true ∧ demo.firmware.stopped = false ∧
    (withFw fun f => { f with recovery := true, image := none }).firmware.image = none ∧
    (withFw fun f => { f with image := some fwImage }).firmware.image.isSome ∧
    (withCkpt fun k => { k with busy := true, parts := 2 }).ckpt.status = 0 ∧
    (withCkpt fun k => { k with busy := true, status := 1, parts := 1 }).ckpt.status ≠ 0 ∧
    (withCkpt fun k => { k with busy := true, status := 1, parts := 1 }).nextPage = some 0 ∧
    (withCkpt fun k => { k with busy := true, status := 1, parts := 2 }).nextPage = none ∧
    demo.firmware.fusedMin ≤ fwImage.version.toNat ∧
    fwImage.version.toNat < (withFw fun f => { f with fusedMin := 4 }).firmware.fusedMin ∧ demo.firmware.recovery = false ∧
    (withFw fun f => { f with recovery := true }).firmware.recovery = true ∧ demo.firmware.version ≤ demo.firmware.fusedMin ∧
    (withFw fun f => { f with version := 3 }).firmware.fusedMin < (withFw fun f => { f with version := 3 }).firmware.version ∧
    (List.replicate 32 (0 : Byte)).length = 32 ∧ ([] : List Byte).length ≠ 32 ∧ 0x20000 % 131072 = 0 ∧ 0 < partCount demo.pm ∧
    0x20000 + 131072 ≤ partSize demo.pm ∧ (∃ l ∈ demo.launches, l.space = 0 ∧ l.part = 0 ∧ l.phase ≠ .due) ∧
    (∀ l ∈ demo.launches, l.space = 5 → l.part = 0 → l.phase = .due) ∧ (∃ l ∈ demo.launches, l.phase = .live) ∧ (∀ l ∈ dueState.launches, l.phase ≠ .live) ∧ State.reset.launches = [] ∧
    (demo.die 0).tgt = (demo.die 0).wantTgt ∧
    ((withDie fun x => { x with tgt := 40 }).die 0).tgt < ((withDie fun x => { x with tgt := 40 }).die 0).wantTgt := by decide +kernel

/-! ## Terms that no word encodes, one for each check (R10, R15, R20, R21, R31, R79, R122, R163, R213) -/

theorem test_wf_refuses_literals :
    (Instr.sub (.w 1) .lit (.w 2)).wf = false ∧ (Instr.subX .x none (.w 1) .lit (.w 2)).wf = false ∧
    (Instr.subX (.l 7) none (.w 1) (.w 3) (.w 2)).wf = false ∧ (Instr.pin (some 1) 0 (.w 3) (.w 1) (.w 2)).wf = false ∧
    (Instr.pin none 0 (.w 3) (.w 1) .lit).wf = false ∧ (Instr.fminX (.xl 0x100000000) (some .f32) (.w 1) .lit (.w 2)).wf = false ∧
    (Instr.fcvt (some 0x10000) .f32 .f16 .dyn (.w 1) .lit).wf = false ∧
    (Instr.atomX (.xl 0x10000) .fadd .thr .none .glob (some .bf16) 0 (.w 1) (.w 2) .lit (.w 0)).wf = false ∧
    (Instr.redX (.xl 0x10000) .fadd .thr false .glob (some .f16) 0 (.w 2) .lit).wf = false ∧
    (Instr.vquantX (.xl 0x100000000) none 0 .dyn {} 1 (.v 2) .lit).wf = false ∧
    (Instr.vdeqX (.xl 0x100) (some .e5m2) 0 .dyn {} 1 .lit (.v 2)).wf = false := by decide +kernel

theorem test_wf_refuses_extended_fields_without_words :
    (Instr.addX (.l 7) (some .i8) (.w 1) .lit (.w 2)).wf = false ∧ (Instr.leaX (.l 7) (.w 1) .lit (.w 2) 1 0).wf = false ∧
    (Instr.stX (.l 7) .i32 .G 0 false .lit (.w 2) (.w 3)).wf = false ∧ (Instr.vnotX (.l 7) none { sel := 1 } 1 .lit).wf = false := by
  decide +kernel

theorem test_wf_refuses_types :
    (Instr.addX .x (some .f32) (.w 1) (.w 3) (.w 2)).wf = false ∧ (Instr.faddX .x (some .i32) .dyn false (.w 1) (.w 3) (.w 2)).wf =
      false ∧ (Instr.fclsX .x (some .z8) (.w 1) (.w 3)).wf = false ∧
    (Instr.vaddX .x (some .e4m3) .dyn {} 1 (.v 2) (.v 3)).wf = false ∧
    (Instr.vquantX .x (some .f16) 0 .dyn {} 1 (.v 2) (.v 3)).wf = false ∧ (Instr.fcvt none .i32 .i8 .dyn (.w 1) (.w 2)).wf = false ∧
    (Instr.vcvt none .f16 .f32 2 .dyn {} 1 (.v 2)).wf = false ∧ (Instr.vcmp .ltz 1 (.v 2) (.v 3)).wf = false ∧
    (Instr.atomX .x .fadd .thr .none .glob (some .i32) 0 (.w 1) (.w 2) (.w 3) (.w 0)).wf = false ∧
    (Instr.vredX (some .f32) .dyn {} .and (.w 1) 2).wf = false := by decide +kernel

theorem test_wf_refuses_rounding_and_modes :
    (Instr.faddX .x none .sr false (.w 1) (.w 3) (.w 2)).wf = false ∧ (Instr.faddX .x (some .f16) .dyn true (.w 1) (.w 3) (.w 2)).wf =
      false ∧ (Instr.vaddX .x (some .i32) .rtz {} 1 (.v 2) (.v 3)).wf = false ∧
    (Instr.vquantX .x (some .i8) 0 .sr {} 1 (.v 2) (.v 3)).wf = false ∧ (Instr.fcvt none .f16 .f32 .sr (.w 1) (.w 2)).wf = false ∧
    (Instr.fence .die .none).wf = false ∧
    (Instr.atomX .x .add .thr .none .glob none 0 (.w 1) (.w 2) (.w 3) (.w 4)).wf = false ∧
    (Instr.add (.w 0) (.w 0) (.w 0)).wf = false ∧ (Instr.illegalOp 0).wf = false := by decide +kernel

/-! ## Words written out from the spec's encodings -/

theorem test_decode_scalar_and_control :
    decodeWords [0x03604300] = .ok (.add (.w 3) (.w 1) (.imm 6)) ∧ decodeWords [0x14000068] = .ok .nop ∧
    decodeWords [0x20304202, 0x00000010, 0x000000C0] = .ok (.leaX .x (.w 2) (.w 1) (.w 3) 3 16) ∧
    decodeWords [0x48204062, 0x00FFFFFB, 0x00000000] = .ok (.bcmp none .lt none (.w 1) (.w 2) 0xFFFFFB) := by decide +kernel

theorem test_decode_memory_vector_and_engines :
    decodeWords [0x2A908582, 0x04000008, 0x00000000] = .ok (.stX .x .i32 .G 8 false (.w 5) (.w 2) .zero) ∧
    decodeWords [0x029885DE, 0x02000100, 0x01200000] = .ok (.vldX .x .A (some .f32) 0x100 false {} 5 (.o 2) .zero) ∧
    decodeWords [0x029903F2, 0x04000080, 0x00000000] = .ok (.mcmdX .x .G 0x80 (.w 3) (.o 4) .zero) ∧
    decodeWords [0x0C3100F6, 0x84000040, 0x10000000] = .ok (.msendX .x .pkg .G 0x40 true (.w 4) 3) ∧
    decodeWords [0x183180F4] = .ok (.xmit (.w 6) 3) ∧ decodeWords [0x1C2007F4] = .ok (.imux (.w 7) 2) ∧
    decodeWords [0x100005F8] = .ok (.rdtime (.w 5)) ∧
    decodeWords [0x000002FE, 0x00000004, 0x00000000] = .ok (.crd (.w 2) .idLcore) := by decide +kernel

/-- The zero word; a literal in a 32-bit form; missing words; an unassigned MAJ (R10, R20, R31, R32). -/
theorem test_decode_refusals :
    decodeWords [0x00000000] = .ok .trapz ∧ decodeWords [0x02A04300] = .error .illegalOperand ∧
    decodeWords [0x03604302] = .error .truncated ∧ decodeWords [0x00000014] = .ok (.illegalOp 0x00000014) ∧
    decodeTableWord 32 0x03604300 = some (.add (.w 3) (.w 1) (.imm 6)) := by decide +kernel

/-! ## Single steps of the spec's worked examples -/

/-- The example below R104: a division by zero writes all ones to the destination and to `lat` and counts EV.10; the remainder is
the dividend. -/
theorem test_div_by_zero :
    after (exec (.div (.w 1) (.w 2) .zero) (with12 (.value 0) (.value 7))) (fun t => t.me.reg (.w 1) == .value 0xFFFFFFFFFFFFFFFF &&
      t.me.reg .lat == .value 0xFFFFFFFFFFFFFFFF && t.myCore.ev.get 10 == 1 && t.me.pc == demo.me.pc + 4) = true ∧
    after (exec (.rem (.w 1) (.w 2) .zero) (with12 (.value 0) (.value 7))) (fun t => t.me.reg (.w 1) == .value 7) = true := by
  decide +kernel

/-- The example of R52: 1.0625 to E4M3 rounded stochastically from generator 32 = 1 is 1.0, and the generator holds 0x0004_2021. -/
theorem test_fcvt_stochastic :
    after (exec (.fcvt none .e4m3 .f32 .sr (.w 1) (.w 2)) ((with12 (.value 0) (.value 0x3F880000)).modMe fun c =>
        { c with gens := c.gens.set 32 1 }))
      (fun t => t.me.reg (.w 1) == .value 0x38 && t.me.gens.getD 32 0 == 0x00042021) = true := by decide +kernel

/-- The example of R449: 1.5 × 2^-9 converted to E4M3 is the subnormal 0x02 and underflows; 2^-9 is exact and does not. -/
theorem test_fcvt_underflow :
    after (exec (.fcvt none .e4m3 .f32 .rne (.w 1) (.w 2)) (with12 (.value 0) (.value 0x3B400000)))
      (fun t => t.me.reg (.w 1) == .value 0x02 && t.myCore.ev.get 12 == 1) = true ∧
    after (exec (.fcvt none .e4m3 .f32 .rne (.w 1) (.w 2)) (with12 (.value 0) (.value 0x3B000000)))
      (fun t => t.me.reg (.w 1) == .value 0x01 && t.myCore.ev.get 12 == 0) = true := by decide +kernel

/-- The example below R123: a store of 32 bits at an offset of window G, which lies at 0xF_FFF0_0040_0000 for core 0. -/
theorem test_store_to_window :
    after (exec (.stX .x .i32 .G 8 false (.w 1) (.w 2) .zero) (with12 (.value 0x1122334455667788) (.value 0x100)))
      (fun t => t.bytesAt (range 0xFFFF000400108 5) == [0x88, 0x77, 0x66, 0x55, 0]) = true := by decide +kernel

/-- The example of R265 and that of R363. -/
theorem test_aperture_and_walk :
    lmKey (CoreId.ofGrid 3 5 2) .G 0x100 = 0xFFFF0D5400100 ∧
    (let s : State := { State.reset with mem := [(0x1000000008, 0x0000001000020001), (0x1000020018, 0x0000001000030001),
        (0x1000030028, 0x0650002000600003)].foldl (fun m p => Memory.store m p.1 (leBytes 8 p.2)) [] }
     okAnd (s.walk { id := 1, root := 0x1000000000 } 0x0300040060A12340) fun f =>
       f.addr 0x0300040060A12340 == 0x2000612340 && f.ua && f.xn && f.tagged && f.mode == 2 && !f.ro && !f.fg) = true := by
  decide +kernel

/-- The digest of the message "abc" in SHA-256's standard (the algorithm that R444 names). -/
theorem test_sha256 : Sha.digest [0x61, 0x62, 0x63] = 0xBA7816BF8F01CFEA414140DE5DAE2223B00361A396177A9CB410FF61F20015AD := by
  decide +kernel

end Sys2Proof.Tests
end

section
/-! PROOF. Control flow (R100, R102, R110): the decoder's path to `loop`, the outcomes of checks, branch targets, a call's
effect on the frames, and entry to and return from the trap handler. -/

namespace Sys2Proof

/-! ## Fields and words -/

/-- The fields of a word 0 put together from them (R9). The word's width is left as the sum of its fields' widths, in which the
library's rule for a part of an append speaks. -/
theorem extractLsb'_word0 (fn c b a maj : BitVec 6) (len : BitVec 2) :
    (fn ++ c ++ b ++ a ++ maj ++ len).extractLsb' 26 6 = fn ∧ (fn ++ c ++ b ++ a ++ maj ++ len).extractLsb' 20 6 = c ∧
    (fn ++ c ++ b ++ a ++ maj ++ len).extractLsb' 14 6 = b ∧ (fn ++ c ++ b ++ a ++ maj ++ len).extractLsb' 8 6 = a ∧
    (fn ++ c ++ b ++ a ++ maj ++ len).extractLsb' 2 6 = maj ∧ (fn ++ c ++ b ++ a ++ maj ++ len).extractLsb' 0 2 = len := by
  simp [-Nat.reduceAdd, BitVec.extractLsb'_append_eq_of_add_le, BitVec.extractLsb'_append_eq_of_le]

theorem Raw.word0_fn (r : Raw) : r.word0.extractLsb' 26 6 = r.fn := by
  obtain ⟨hfn, -⟩ := extractLsb'_word0 r.fn r.c r.b r.a r.maj r.len
  exact hfn

theorem Raw.word0_maj (r : Raw) : r.word0.extractLsb' 2 6 = r.maj := by
  obtain ⟨-, -, -, -, hmaj, -⟩ := extractLsb'_word0 r.fn r.c r.b r.a r.maj r.len
  exact hmaj

theorem Raw.ofWord0_word0 (r : Raw) : Raw.ofWord0 r.word0 = { r with ext := {}, lit := 0 } := by
  obtain ⟨hfn, hc, hb, ha, hmaj, hlen⟩ := extractLsb'_word0 r.fn r.c r.b r.a r.maj r.len
  simp only [Raw.ofWord0, Raw.mk.injEq, and_true]
  exact ⟨hfn, hc, hb, ha, hmaj, hlen⟩

/-- A form of one word (R10). -/
theorem Raw.ofWords_of_len_zero {r : Raw} (hlen : r.len = 0) (rest : List (BitVec 32)) :
    Raw.ofWords (r.word0 :: rest) = some { r with ext := {}, lit := 0 } := by
  simp [Raw.ofWords, Raw.ofWord0_word0, hlen]

/-- A form of three words without a literal (R10). -/
theorem Raw.ofWords_of_len_two {r : Raw} (hlen : r.len = 2) (w1 w2 : BitVec 32) (rest : List (BitVec 32)) :
    Raw.ofWords (r.word0 :: w1 :: w2 :: rest) = some { r with ext := Ext.ofWords w1 w2, lit := 0 } := by
  simp [Raw.ofWords, Raw.ofWord0_word0, hlen]

theorem extractLsb'_word1 (imm : BitVec 24) :
    (0#8 ++ imm).extractLsb' 29 3 = 0 ∧ (0#8 ++ imm).extractLsb' 27 2 = 0 ∧ (0#8 ++ imm).extractLsb' 24 3 = 0 ∧
    (0#8 ++ imm).extractLsb' 0 24 = imm := by
  simp [-Nat.reduceAdd, BitVec.extractLsb'_append_eq_of_add_le, BitVec.extractLsb'_append_eq_of_le]

/-- A word 1 that holds only IMM24, with a word 2 of zero (R12, R13). -/
theorem Ext.ofWords_imm (imm : BitVec 24) : Ext.ofWords (0#8 ++ imm) 0 = { imm := imm } := by
  obtain ⟨hscope, hord, hwin, himm⟩ := extractLsb'_word1 imm
  simp only [Ext.ofWords, Ext.mk.injEq]
  exact ⟨hscope, hord, hwin, himm, by decide⟩

/-- Words whose MAJ and FN are assigned decode as their fields do (R30 to R32). -/
theorem decodeWords_of_assigned {r : Raw} {rest : List (BitVec 32)} (h : Raw.ofWords (r.word0 :: rest) = some r)
    (hzero : r.word0 ≠ 0) (hasg : illegalMajFn r.word0 = false) : decodeWords (r.word0 :: rest) = decodeRaw r := by
  simp only [decodeWords, decodeFields, h, hasg, beq_false_of_ne hzero, Bool.false_eq_true, if_false]

theorem CtrReg.ofCode_of_le {a : BitVec 6} (h : 40 ≤ a.toNat) : CtrReg.ofCode a = none := by
  simp [CtrReg.ofCode, show ¬ a.toNat < 24 by omega, show ¬ a.toNat < 32 by omega, show ¬ a.toNat < 40 by omega]

/-- The counter field of `loop` is checked once the form's other fields are as they must be (R30, R100). -/
theorem decLoop_of_no_counter {r : Raw} (hlen : r.len = 0 ∨ r.len = 2 ∧ r.b = 0 ∧ r.c = 0)
    (hext : r.ext = { imm := r.ext.imm }) (ha : 40 ≤ r.a.toNat) : decLoop r = .error .illegalOperand := by
  obtain ⟨hlens, hregs⟩ : lens r [0, 2] = .ok () ∧ op5 (r.len == 0 || r.b == 0 && r.c == 0) = .ok () := by
    obtain hl | ⟨hl, hb, hc⟩ := hlen
    · simp [lens, op5, hl]
    · simp [lens, op5, hl, hb, hc]
  have hfields : op5 (r.ext == { imm := r.ext.imm }) = .ok () := if_pos (beq_iff_eq.mpr hext)
  dsimp only [decLoop]
  rw [hlens, hregs, hfields, CtrReg.ofCode_of_le ha]
  rfl

/-- MAJ 0x1A with FN 0 is assigned to `loop` (R32). -/
theorem decodeWords_of_loop {r : Raw} (hmaj : r.maj = 0x1A) (hfn : r.fn = 0) {rest : List (BitVec 32)}
    (h : Raw.ofWords (r.word0 :: rest) = some r) : decodeWords (r.word0 :: rest) = decLoop r := by
  have hzero : r.word0 ≠ 0 := by
    intro h0
    have hm := r.word0_maj
    rw [h0, hmaj] at hm
    exact absurd hm (by decide)
  have hasg : illegalMajFn r.word0 = false := by
    simp [illegalMajFn, Raw.word0_maj, Raw.word0_fn, hmaj, hfn, assigned]
  rw [decodeWords_of_assigned h hzero hasg, decodeRaw, hmaj, hfn]
  rfl

end Sys2Proof

namespace Sys2Proof.Machine

open Sys2Proof.Stmt

/-! ## Checks and branch targets -/

/-- A check that holds lets the meaning go on. -/
theorem check_bind_of_true {α : Type} {ok : Bool} (h : ok = true) (c : Cause) (a : Word) (f : Unit → Res α) :
    (check ok c a >>= f) = f () := by
  rw [check_ok (u := ()) |>.mpr h]
  rfl

/-- A check that fails ends the meaning in its trap. -/
theorem check_bind_of_false {α : Type} {ok : Bool} (h : ok = false) (c : Cause) (a : Word) (f : Unit → Res α) :
    (check ok c a >>= f) = .error (.trap { cause := c, addr := a }) :=
  res_bind_error.mpr (.inl (check_error.mpr ⟨h, rfl⟩))

/-- The model shifts the offset, the statements multiply it (R34). -/
theorem target_me_pc (s : State) (off : Word) : target s.me.pc off = branchTo s off := by
  rw [target, branchTo, BitVec.shiftLeft_eq_mul_twoPow, BitVec.mul_comm]
  rfl

theorem wbits_two_beq_zero (w : Word) : (wbits w 0 2 == 0) = true ↔ w.toNat % 4 = 0 := by
  simp [wbits]

/-! ## `loop` -/

/-- With a VALUE in the counter `loop` waits for nothing (R100). -/
theorem State.loopOp_of_value {s : State} {x : CtrReg} {v : Word} (h : s.me.dstReg (ctrDst x) = .value v) (off : Word) (len : Nat) :
    s.loopOp x off len = .ok (if v - 1 ≠ 0 then (s.putV (ctrDst x) (v - 1)).goto (branchTo s off)
      else (s.putV (ctrDst x) (v - 1)).advance len) := by
  have hneed : s.need [.value v] = .ok () := State.need_values s [v]
  rw [State.loopOp, h, hneed, target_me_pc]
  rfl

theorem exec_loop {s : State} {i : Instr} {x : CtrReg} {off : Word} {len : Nat} (h : Loop i x off len) :
    exec i s = complete s (s.loopOp x off len) := by
  cases h <;> rfl

/-- Settles O23: the meaning by `State.loopOp_of_value`, the refused counter codes by the decoder's path to `decLoop`. -/
theorem loopCountsDown : Obligations.LoopCountsDown := by
  refine ⟨?meaning, ?short, ?extended⟩
  case meaning =>
    intro s i x off v len hloop hv
    rw [exec_loop hloop, State.loopOp_of_value hv, complete_ok]
  case short =>
    intro a b c ha
    have hdec := decodeWords_of_loop (r := { fn := 0, c, b, a, maj := 0x1A, len := 0 }) rfl rfl (rest := [])
      (Raw.ofWords_of_len_zero rfl [])
    exact hdec.trans (decLoop_of_no_counter (.inl rfl) rfl ha)
  case extended =>
    intro a imm ha
    have hwords := Raw.ofWords_of_len_two (r := { fn := 0, c := 0, b := 0, a, maj := 0x1A, len := 2, ext := { imm } })
      rfl (0#8 ++ imm) 0 []
    rw [Ext.ofWords_imm] at hwords
    exact (decodeWords_of_loop rfl rfl hwords).trans (decLoop_of_no_counter (.inr ⟨rfl, rfl, rfl⟩) rfl ha)

/-! ## `call` -/

theorem exec_call {s : State} {i : Instr} {off : Word} {len : Nat} (h : Call i off len) :
    exec i s = complete s (s.callOp off len) := by
  cases h <;> rfl

/-- A call with eight frames resident (R104). -/
theorem State.callOp_of_full {s : State} (hmode : s.me.mode ≠ .h) (hpos : s.me.pos = 7) (off : Word) (len : Nat) :
    s.callOp off len = .error (.trap { cause := .spill }) := by
  rw [State.callOp, check_bind_of_true (bne_iff_ne.mpr hmode), check_bind_of_false (by simp [hpos])]

/-- A call with room for another frame (R102). -/
theorem State.callOp_of_room {s : State} (hmode : s.me.mode ≠ .h) (hpos : s.me.pos ≠ 7) (off : Word) (len : Nat) :
    s.callOp off len = .ok ((s.modMe fun t => t.push (t.pc + word len)).goto (branchTo s off)) := by
  rw [State.callOp, check_bind_of_true (bne_iff_ne.mpr hmode), check_bind_of_true (bne_iff_ne.mpr hpos), target_me_pc]

/-- An update of the executing context and a jump leave every other part of the state. -/
theorem sameButMe_modMe_goto (s : State) (f : Ctx → Ctx) (pc : Word) : SameButMe s ((s.modMe f).goto pc) := by
  rw [State.goto, State.modMe_modMe, SameButMe, State.me_modMe]
  rfl

/-- The window moves on by one position where there is one above (R102). -/
theorem Ctx.push_pos_val {t : Ctx} (h : t.pos ≠ 7) (ret : Word) : (t.push ret).pos.val = t.pos.val + 1 := by
  simp only [Ctx.push]
  omega

/-- What a push puts at a place of the register stack: VALUE 0 in w8 to w23 of the new frame, and nothing elsewhere (R102). -/
theorem Ctx.push_stack_get (t : Ctx) (ret : Word) (i : Fin 136) :
    (t.push ret).stack.get i =
      if 16 * (t.pos.val + 1) + 8 ≤ i.val ∧ i.val < 16 * (t.pos.val + 1) + 24 then .value 0 else t.stack.get i := by
  simp [Ctx.push, Vector.get_eq_getElem]

theorem Ctx.push_ras_get_self (t : Ctx) (ret : Word) : (t.push ret).ras.get t.pos = some ret := by
  simp [Ctx.push, Vector.get_eq_getElem]

theorem Ctx.push_ras_get_ne (t : Ctx) (ret : Word) {k : Fin 8} (h : k ≠ t.pos) : (t.push ret).ras.get k = t.ras.get k := by
  have : t.pos.val ≠ k.val := fun e => h (Fin.ext e.symm)
  simp [Ctx.push, Vector.get_eq_getElem, this]

/-- A push with a jump is a call's effect on frames (R102). -/
theorem called_push {t : Ctx} (h : t.pos ≠ 7) (ret pc : Word) : Called t { t.push ret with pc := pc, run := .ready } ret := by
  have hpos := Ctx.push_pos_val h ret
  refine ⟨hpos, t.push_ras_get_self ret, fun k hk => t.push_ras_get_ne ret hk, fun n hn => ?_, fun i hi => ?_, rfl⟩
  · refine (t.push_stack_get ret _).trans (if_pos ?_)
    simp only [stackIdx, hpos]
    omega
  · refine (t.push_stack_get ret i).trans (if_neg ?_)
    simp only [hpos] at hi
    omega

/-- Settles O24: `State.callOp_of_full` at position 7, elsewhere `State.callOp_of_room` and the frames of `called_push`. -/
theorem callPushesAFrame : Obligations.CallPushesAFrame := by
  intro s i off len hcall hu
  have hmode : s.me.mode ≠ .h := by simp [hu]
  refine ⟨fun hpos => ?_, fun hpos => ?_⟩
  · rw [exec_call hcall, State.callOp_of_full hmode hpos, complete_trap]
  · rw [exec_call hcall, State.callOp_of_room hmode hpos, complete_ok]
    refine ⟨_, rfl, ?_, ?_, ?_, sameButMe_modMe_goto s _ _⟩
    · simp
    · simp
    · rw [State.goto_me, State.me_modMe]
      exact called_push hpos _ _

/-! ## Entry to the trap handler -/

theorem State.arrive_me (s : State) (f : From) (a : Acc) (r : Req) : (s.arrive f a r).me = s.me :=
  show ({ s.arrive f a r with dir := s.dir, links := s.links } : State).me = s.me from
    congrArg State.me (State.arrive_frame s f a r)

theorem State.write_me (s : State) (self : Option (Nat × Nat)) (ks : List Nat) (bs : List Byte) :
    (s.write self ks bs).me = s.me :=
  show ({ s.write self ks bs with mem := s.mem, links := s.links, ckpt := s.ckpt } : State).me = s.me from
    congrArg State.me (State.write_frame s self ks bs)

/-- Writing the trap record changes no register of the trapped context (R376). -/
theorem State.putRecord_me (s : State) (a : Acc) (bs : List Byte) : (s.putRecord a bs).me = s.me := by
  rw [State.putRecord, State.write_me, State.arrive_me]

theorem State.unlink_me (s : State) (c : CoreId) (k : SlotId) : (s.unlink c k).me = s.me := rfl
theorem State.unclaim_me (s : State) (c : CoreId) (k : SlotId) : (s.unclaim c k).me = s.me := rfl
theorem State.ungrant_me (s : State) (c : Option Nat) : (s.ungrant c).me = s.me := rfl

/-- What entry to the handler changes of the context: the mode, TRAP.EPC, the handler's registers and where issue goes on
(R375 to R377). -/
theorem State.enterHandler_me (s : State) (t : TrapInfo) (pc : Word) (a : Acc) :
    ∃ hw, (s.enterHandler t pc a).me =
      { s.me with mode := .h, epc := pc, hw := hw, hlat := .value 0, pc := s.myLaunch.trapVec, phase := false, run := .ready } := by
  rw [State.enterHandler, State.ungrant_me, State.unclaim_me, State.unlink_me, State.me_modMe, State.putRecord_me]
  exact ⟨_, rfl⟩

/-- In mode U with a handler, a trap that no rule makes fatal is not (R379). -/
theorem State.fatal_eq_false {s : State} {t : TrapInfo} (hmode : s.me.mode = .u) (hvec : s.myLaunch.trapVec ≠ 0)
    (hcause : t.cause ≠ .retEmpty) (hfatal : t.fatal = false) : s.fatal t = false := by
  simpa [State.fatal, hmode, hcause, hfatal] using hvec

/-- A trap enters the handler where its record can be written and it is not fatal (R375). -/
theorem State.takeTrap_eq_enterHandler {s : State} {t : TrapInfo} {a : Acc} (hblock : s.trapBlock = .ok a)
    (hdemand : s.demand (.ofCore s.cur) a .store = none) (hfatal : s.fatal t = false) :
    s.takeTrap t = s.enterHandler t (t.pc.getD s.me.pc) a := by
  simp [State.takeTrap, hblock, hdemand, hfatal]

/-! ## Return from it -/

/-- Settling the core's symbols changes no context (R68). -/
theorem Core.settle_ctxs (x : Core) : x.settle.ctxs = x.ctxs := by
  unfold Core.settle
  split <;> rfl

theorem State.settle_cur_me (s : State) : (s.settle s.cur).me = s.me := by
  show ((s.settle s.cur).core s.cur).ctx s.slot = _
  rw [State.settle, State.core_modCore, Core.ctx, Core.settle_ctxs]
  rfl

/-- What the return changes of the context (R110, R377). -/
theorem State.returnFromTrap_me (s : State) :
    s.returnFromTrap.me =
      { s.me with mode := .u, pc := s.me.epc, hw := Vector.replicate 24 (.value 0), hlat := .value 0, run := .ready } :=
  (State.settle_cur_me _).trans (State.me_modMe _ _)

/-- `hret` outside mode U with TRAP.EPC aligned (R110). -/
theorem exec_hret {s : State} (hmode : s.me.mode ≠ .u) (hepc : s.me.epc.toNat % 4 = 0) :
    exec .hret s = .next s.returnFromTrap := by
  show complete s s.hretOp = _
  rw [State.hretOp, check_bind_of_true (bne_iff_ne.mpr hmode), check_bind_of_true ((wbits_two_beq_zero _).mpr hepc), complete_ok]

/-- `cwr` of TRAP.EPC outside mode U with a VALUE source (R234). -/
theorem exec_cwr_trapEpc {s : State} {lit : Option Word} {x : Src} {v : Word} (hmode : s.me.mode ≠ .u)
    (hx : s.me.src (litVal lit) x = .value v) :
    exec (.cwr lit .trapEpc x) s = .next ((s.modMe fun t => { t with epc := v }).advance (litBytesX lit)) := by
  have hwritable : cregWritable .trapEpc s.me.mode = true := bne_iff_ne.mpr hmode
  show complete s (s.cwrOp .trapEpc x (litVal lit) (litBytesX lit)) = _
  rw [State.cwrOp, check_bind_of_true hwritable, State.use1_ok.mpr hx]
  rfl

/-- Settles O27: the context after entry to the handler and after the return from it, each said once. -/
theorem hretReturnsToTheSavedPc : Obligations.HretReturnsToTheSavedPc := by
  refine ⟨?ret, ?trap, ?cwr⟩
  case ret =>
    intro s hh hepc
    refine ⟨_, exec_hret (by simp [hh]) hepc, ?_⟩
    simp [State.returnFromTrap_me]
  case trap =>
    rintro s c hu ⟨a, hblock, hdemand⟩ hvec hcause hfatal hpc
    obtain ⟨hw, hme⟩ := s.enterHandler_me c s.me.pc a
    rw [State.takeTrap_eq_enterHandler hblock hdemand (State.fatal_eq_false hu hvec hcause hfatal), hpc, Option.getD_none]
    refine ⟨by rw [hme], fun halign => ⟨_, exec_hret (by simp [hme]) (by rwa [hme]), ?_⟩⟩
    simp [State.returnFromTrap_me, hme]
  case cwr =>
    intro s lit x v hmode hx
    exact ⟨_, exec_cwr_trapEpc hmode hx, by simp⟩

end Sys2Proof.Machine
end

section
/-! PROOF. `idle` (R241): who may execute it, a core's turn while its mark stands, and what clears the mark. -/

namespace Sys2Proof.Machine

/-! ## The instruction -/

/-- In a mode that may execute it, `idle` sets its core's mark (R241). -/
theorem State.idleOp_of_privileged {s : State} (h : s.me.mode = .s ∨ s.me.mode = .m) :
    s.idleOp = .ok ((s.modCore s.cur fun x => { x with idle := true }).advance 4) := by
  have hpriv : (s.me.mode == .s || s.me.mode == .m) = true := by
    obtain hs | hm := h
    · simp [hs]
    · simp [hm]
  rw [State.idleOp, check_bind_of_true hpriv]

/-- Modes U and H may not execute `idle` (R241). -/
theorem State.idleOp_of_unprivileged {s : State} (h : s.me.mode = .u ∨ s.me.mode = .h) :
    s.idleOp = .error (.trap { cause := .permission }) := by
  have hpriv : (s.me.mode == .s || s.me.mode == .m) = false := by
    obtain hu | hh := h
    · simp [hu]
    · simp [hh]
  rw [State.idleOp, check_bind_of_false hpriv]

theorem exec_idle (s : State) : exec .idle s = complete s s.idleOp := rfl

/-! ## The mark -/

/-- A marked core does not run, whatever its die's clock and its launch (R241). -/
theorem State.coreRuns_of_idle {s : State} {c : CoreId} (h : (s.core c).idle = true) : s.coreRuns c = false := by
  simp [State.coreRuns, h]

/-- A core that does not run has no turn, and the state stays as it is (R6, R241, R381, R422). -/
theorem State.turnOf_of_not_coreRuns {s : State} {c : CoreId} (h : s.coreRuns c = false) : s.turnOf c = .error s := by
  simp [State.turnOf, h]

/-- The signal of a command processor that runs clears the mark (R241, R447). -/
theorem exec_commandProcessorSignal_of_scheduling {s : State} (h : s.scheduling = true) (c : CoreId) :
    exec (.commandProcessorSignal c) s = .next (s.modCore c fun x => { x with idle := false }) :=
  congrArg Host.Outcome.next (if_pos h)

/-- A core bound to a launch issues again (R241). -/
theorem Core.bound_idle (x : Core) (id rank : Nat) : (x.bound id rank).idle = false := rfl

/-- Settles O45: `State.idleOp` by mode, the turn of a core that does not run, and the two ways the mark is cleared. -/
theorem idleIsPrivileged : Obligations.IdleIsPrivileged := by
  refine ⟨?privileged, ?unprivileged, ?marked, ?signal, Core.bound_idle⟩
  case privileged =>
    intro s h
    rw [exec_idle, State.idleOp_of_privileged h, complete_ok]
  case unprivileged =>
    intro s h
    rw [exec_idle, State.idleOp_of_unprivileged h, complete_trap]
  case marked =>
    intro s c h
    have hruns := State.coreRuns_of_idle h
    exact ⟨hruns, State.turnOf_of_not_coreRuns hruns⟩
  case signal =>
    intro s c h
    exact exec_commandProcessorSignal_of_scheduling h c

end Sys2Proof.Machine
end

section
/-! PROOF. The encoder and the decoder (R9 to R23): each field's code names what it was made from, each row's fields are
decoded to the row, and the words of the fields hold the fields. -/

namespace Sys2Proof

/-! ## Checks of the decoder that pass -/

section
variable {α β : Type}

@[simp] theorem op5_true : op5 true = .ok () := rfl
@[simp] theorem op6_true : op6 true = .ok () := rfl
@[simp] theorem op5?_some (a : α) : op5? (some a) = .ok a := rfl
@[simp] theorem op6?_some (a : α) : op6? (some a) = .ok a := rfl
@[simp] theorem dec_ok_bind (a : α) (f : α → Dec β) : ((.ok a : Dec α) >>= f) = f a := rfl

end

/-! ## Operand codes (R19, R22, R23, R93) -/

@[simp] theorem Dst.ofCode_code (d : Dst) : Dst.ofCode d.code = some d := by
  cases d with
  | w n => revert n; decide
  | g n => revert n; decide
  | o n => revert n; decide
  | zero => rfl

@[simp] theorem Src.ofCode_code (d : Src) : Src.ofCode d.code = some d := by
  cases d with
  | w n => revert n; decide
  | g n => revert n; decide
  | o n => revert n; decide
  | imm n => revert n; decide
  | zero => rfl
  | lit => rfl
  | lat => rfl

@[simp] theorem CtrReg.ofCode_code (d : CtrReg) : CtrReg.ofCode d.code = some d := by
  cases d with
  | w n => revert n; decide
  | g n => revert n; decide
  | o n => revert n; decide

@[simp] theorem RegName.ofCode_code (d : RegName) : RegName.ofCode d.code = some d := by
  cases d with
  | w n => revert n; decide
  | g n => revert n; decide
  | o n => revert n; decide
  | lat => rfl

@[simp] theorem VSrc.ofCode_code (d : VSrc) : VSrc.ofCode d.code = some d := by
  cases d with
  | v n => revert n; decide
  | o n => revert n; decide
  | imm n => revert n; decide
  | zero => rfl
  | lit => rfl
  | lat => rfl

@[simp] theorem VScal.ofCode_code (d : VScal) : VScal.ofCode d.code = some d := by
  cases d with
  | o n => revert n; decide
  | imm n => revert n; decide
  | zero => rfl
  | lit => rfl
  | lat => rfl

@[simp] theorem finCode_ofNat {n : Nat} (hn : n ≤ 64) (k : Fin n) : finCode n (BitVec.ofNat 6 k.val) = some k := by
  have hk : k.val % 64 = k.val := Nat.mod_eq_of_lt (by omega)
  simp [finCode, hk]


@[simp] theorem Src.ofCode_zero : Src.ofCode 0#6 = some (.w 0) := rfl
@[simp] theorem VSrc.ofCode_zero : VSrc.ofCode 0#6 = some (.v 0) := rfl
@[simp] theorem Src.isLit_w (n : Fin 24) : (Src.w n).isLit = false := rfl
@[simp] theorem VSrc.isLit_v (n : Fin 16) : (VSrc.v n).isLit = false := rfl

@[simp] theorem Src.code_beq_zero (x : Src) : (x.code == 0#6) = (x == .w 0) := by
  cases x with
  | w n => revert n; decide
  | g n => revert n; decide
  | o n => revert n; decide
  | imm n => revert n; decide
  | zero => rfl
  | lit => rfl
  | lat => rfl

theorem RegName.code_beq (x : RegName) : (x.code == 41#6) = false := by
  cases x with
  | w n => revert n; decide
  | g n => revert n; decide
  | o n => revert n; decide
  | lat => rfl

theorem symArg_of_codes {r : Raw} {s : SymArg} (hb : r.b = s.bCode) (hc : r.c = s.cCode) : symArg r = .ok s := by
  cases s with
  | num n =>
    have hn : Fin.ofNat 64 (BitVec.ofNat 6 n.val).toNat = n := by clear hb hc; revert n; decide
    simp only [symArg, hb, hc, SymArg.bCode, SymArg.cCode, hn]
    rfl
  | reg x => simp [symArg, hb, hc, SymArg.bCode, SymArg.cCode, x.code_beq]

theorem SymArg.codes (s : SymArg) : (s.cCode == 41#6 || s.bCode == 0#6) = true := by
  cases s <;> simp [SymArg.cCode, SymArg.bCode]

/-! ## Extended fields (R12, R13) -/

@[simp] theorem tyField_tyCode (t : Option Ty) : tyField (tyCode t) = .ok t := by
  rcases t with _ | t
  · rfl
  · cases t <;> rfl

@[simp] theorem tyField_zero : tyField 0#4 = .ok none := rfl
@[simp] theorem tyCode_none : tyCode none = 0#4 := rfl
@[simp] theorem tyInt_none : tyInt none = true := rfl
@[simp] theorem tyFp_none : tyFp none = true := rfl
@[simp] theorem tyFp8_none : tyFp8 none = true := rfl
@[simp] theorem tyF32_none : tyF32 none = true := rfl
@[simp] theorem tyVec_none : tyVec none = true := rfl
@[simp] theorem tyQuant_none : tyQuant none = true := rfl

@[simp] theorem Ty.ofCode_code (t : Ty) : Ty.ofCode t.code = some t := by cases t <;> rfl
@[simp] theorem Scope.ofCode_code (t : Scope) : Scope.ofCode t.code = some t := by cases t <;> rfl
@[simp] theorem Ord.ofCode_code (t : Ord) : Ord.ofCode t.code = t := by cases t <;> rfl
@[simp] theorem Win.ofCode_code (t : Win) : Win.ofCode t.code = some t := by cases t <;> rfl
@[simp] theorem Rnd.ofCode_code (t : Rnd) : Rnd.ofCode t.code = some t := by cases t <;> rfl
@[simp] theorem Cond.ofFn_code (t : Cond) : Cond.ofFn t.code.toNat = some t := by cases t <;> rfl
@[simp] theorem FCond.ofFn_code (t : FCond) : FCond.ofFn t.code.toNat = some t := by cases t <;> rfl
@[simp] theorem VCond.ofFn_code (t : VCond) : VCond.ofFn t.code.toNat = some t := by cases t <;> rfl
@[simp] theorem AtomOp.ofFn_code (t : AtomOp) : AtomOp.ofFn t.code.toNat = some t := by cases t <;> rfl
@[simp] theorem RedOp.ofFn_code (t : RedOp) : RedOp.ofFn t.code.toNat = some t := by cases t <;> rfl
@[simp] theorem VredOp.ofFn_code (t : VredOp) : VredOp.ofFn t.code.toNat = some t := by cases t <;> rfl
@[simp] theorem VscanOp.ofFn_code (t : VscanOp) : VscanOp.ofFn t.code.toNat = some t := by cases t <;> rfl
@[simp] theorem CReg.ofFn_number (t : CReg) : CReg.ofFn t.number.toNat = some t := by
  cases t with
  | ssr n => revert n; decide
  | _ => rfl

@[simp] theorem Scope.ofCode_zero : Scope.ofCode 0#3 = some .thr := rfl
@[simp] theorem Win.ofCode_zero : Win.ofCode 0#3 = some .glob := rfl
@[simp] theorem Rnd.ofCode_zero : Rnd.ofCode 0#3 = some .dyn := rfl
@[simp] theorem Ord.ofCode_zero : Ord.ofCode 0#2 = .none := rfl
@[simp] theorem Scope.code_thr : Scope.thr.code = 0#3 := rfl
@[simp] theorem Win.code_glob : Win.glob.code = 0#3 := rfl
@[simp] theorem Rnd.code_dyn : Rnd.dyn.code = 0#3 := rfl
@[simp] theorem Ord.code_none : Ord.none.code = 0#2 := rfl
@[simp] theorem Rnd.dyn_bne_sr : (Rnd.dyn != Rnd.sr) = true := rfl
@[simp] theorem vrnd_none_dyn : vrnd none .dyn = true := rfl
@[simp] theorem MaskSel.enBit_eq (m : MaskSel) : m.enBit = bit m.en := rfl
@[simp] theorem MaskSel.selBits_eq (m : MaskSel) : m.selBits = BitVec.ofNat 3 m.sel.val := rfl
@[simp] theorem AtomOp.tyOk_none (op : AtomOp) : op.tyOk none = true := by cases op <;> rfl
@[simp] theorem RedOp.tyOk_none (op : RedOp) : op.tyOk none = true := op.atom.tyOk_none
@[simp] theorem VredOp.tyOk_none (op : VredOp) : op.tyOk none = true := by cases op <;> rfl
@[simp] theorem quantRnd_dyn (ty : Option Ty) : quantRnd ty .dyn = true := rfl
@[simp] theorem ite_one_beq_one (b : Bool) : ((if b = true then 1#6 else 0#6) == 1#6) = b := by cases b <;> rfl
@[simp] theorem ite_two_beq_two (b : Bool) : ((if b = true then 2#2 else 0#2) == 2#2) = b := by cases b <;> rfl
@[simp] theorem bit_false : bit false = 0#1 := rfl
@[simp] theorem bit_beq_one (b : Bool) : (bit b == 1#1) = b := by cases b <;> rfl

@[simp] theorem extractLsb'_append_two (w : BitVec 12) : w.extractLsb' 6 6 ++ w.extractLsb' 0 6 = w := by
  rw [BitVec.extractLsb'_append_extractLsb'_eq_extractLsb' (by rfl)]
  simp

@[simp] theorem extractLsb'_append_three (w : BitVec 18) :
    w.extractLsb' 12 6 ++ w.extractLsb' 6 6 ++ w.extractLsb' 0 6 = w := by
  rw [BitVec.extractLsb'_append_extractLsb'_eq_extractLsb' (by rfl), BitVec.extractLsb'_append_extractLsb'_eq_extractLsb' (by rfl)]
  simp

/-! ## Literals (R20, R21) -/

@[simp] theorem litFits_zero (n : Option Nat) : litFits 0#64 n = true := by cases n <;> simp [litFits]
@[simp] theorem litFits_value (f : Form) (n : Option Nat) : litFits f.value n = f.fpLit n := rfl
@[simp] theorem litFits_litVal (lit : Option Word) (t : Ty) : litFits (litVal lit) (fpBits (some t)) = fpLitOpt lit t := rfl
@[simp] theorem noLit_false_right (x y : Bool) : noLit [x, y, false] = noLit [x, y] := by simp [noLit]
@[simp] theorem noLit_false_right_one (x : Bool) : noLit [x, false] = noLit [x] := by simp [noLit]
@[simp] theorem atomLit_zero (op : AtomOp) (v : Src) : atomLit op none 0#64 v = true := by simp [atomLit]
@[simp] theorem redLit_zero (op : RedOp) (v : Src) : redLit op none 0#64 v = true := by simp [redLit]
@[simp] theorem quantLit_zero (l : List Bool) : quantLit 0#64 l = true := by simp [quantLit]
@[simp] theorem deqLit_zero (ty : Option Ty) (x y : VSrc) : deqLit ty 0#64 x y = true := by simp [deqLit]

/-! ## Length and literal of the fields -/

section
variable {fn c b a maj : BitVec 6} {e : Ext} {l : List Bool}


@[simp] theorem lens_all (r : Raw) : lens r [0, 1, 2, 3] = .ok () := by
  have : ∀ n : BitVec 2, op5 ([0, 1, 2, 3].contains n.toNat) = .ok () := by decide
  exact this _


@[simp] theorem lens_litLen (lit : Option Word) : lens { fn, c, b, a, maj, len := litLen lit, ext := e, lit := litVal lit } [0, 1] = .ok () := by
  cases lit <;> rfl

@[simp] theorem lens_litLenX (lit : Option Word) : lens { fn, c, b, a, maj, len := litLenX lit, ext := e, lit := litVal lit } [2, 3] = .ok () := by
  cases lit <;> rfl

@[simp] theorem lens_zero (ns : List Nat) : lens { fn, c, b, a, maj, len := 0#2, ext := e, lit := 0#64 } (0 :: ns) = .ok () := rfl

@[simp] theorem lens_two : lens { fn, c, b, a, maj, len := 2#2, ext := e, lit := 0#64 } [2] = .ok () := rfl

@[simp] theorem lens_zero_two : lens { fn, c, b, a, maj, len := 2#2, ext := e, lit := 0#64 } [0, 2] = .ok () := rfl


@[simp] theorem litOk_zero : litOk { fn, c, b, a, maj, len := 0#2, ext := e, lit := 0#64 } l = op6 (noLit l) := by
  cases h : l.any id <;> simp [litOk, noLit, Raw.hasLit, h]

@[simp] theorem litOk_two : litOk { fn, c, b, a, maj, len := 2#2, ext := e, lit := 0#64 } l = op6 (noLit l) := by
  cases h : l.any id <;> simp [litOk, noLit, Raw.hasLit, h]

@[simp] theorem litOk_form {f : Form} (h : f.consumes l = true) : litOk { fn, c, b, a, maj, len := f.len, ext := e, lit := f.value } l = .ok () := by
  cases f <;> simp_all [litOk, Form.consumes, op6, Raw.hasLit, Form.len]

@[simp] theorem litOk_litLen {lit : Option Word} (h : litConsumed lit l = true) : litOk { fn, c, b, a, maj, len := litLen lit, ext := e, lit := litVal lit } l = .ok () := by
  cases lit <;> simp_all [litOk, litConsumed, op6, Raw.hasLit, litLen]

@[simp] theorem litOk_litLenX {lit : Option Word} (h : litConsumed lit l = true) : litOk { fn, c, b, a, maj, len := litLenX lit, ext := e, lit := litVal lit } l = .ok () := by
  cases lit <;> simp_all [litOk, litConsumed, op6, Raw.hasLit, litLenX]


@[simp] theorem Raw.form_none : Raw.form { fn, c, b, a, maj, len := 0#2, ext := e, lit := 0#64 } = none := rfl

@[simp] theorem Raw.form_two : Raw.form { fn, c, b, a, maj, len := 2#2, ext := e, lit := 0#64 } = some .x := rfl

@[simp] theorem Raw.form_some (f : Form) : Raw.form { fn, c, b, a, maj, len := f.len, ext := e, lit := f.value } = some f := by
  cases f <;> rfl

@[simp] theorem Raw.litOpt_litLen (lit : Option Word) : Raw.litOpt { fn, c, b, a, maj, len := litLen lit, ext := e, lit := litVal lit } = lit := by
  cases lit <;> simp [Raw.litOpt, Raw.hasLit, litLen, litVal]

@[simp] theorem Raw.litOpt_litLenX (lit : Option Word) : Raw.litOpt { fn, c, b, a, maj, len := litLenX lit, ext := e, lit := litVal lit } = lit := by
  cases lit <;> simp [Raw.litOpt, Raw.hasLit, litLenX, litVal]
end

/-! ## The decoder of a row, by MAJ and FN (R32) -/

theorem Cond.code_lt (c : Cond) : c.code.toNat < 16 := by cases c <;> decide
theorem Cond.add_code_ne_zero (c : Cond) : (16 + c.code).toNat ≠ 0 := by cases c <;> decide
@[simp] theorem Cond.ofFn_add_code (c : Cond) : Cond.ofFn ((16 + c.code.toNat) % 64 - 16) = some c := by cases c <;> rfl
theorem FCond.code_lt (c : FCond) : c.code.toNat < 16 := by cases c <;> decide
theorem VCond.code_lt (c : VCond) : c.code.toNat < 16 := by cases c <;> decide
theorem VredOp.code_lt (c : VredOp) : c.code.toNat < 16 := by cases c <;> decide
theorem VscanOp.code_ge (c : VscanOp) : ¬ c.code.toNat < 16 := by cases c <;> decide
theorem LdTy.group (t : LdTy) (g : Fin 8) : (BitVec.ofNat 6 (8 * g.val) + t.code.zeroExtend 6).toNat / 8 = g.val := by
  cases t <;> revert g <;> decide

theorem StTy.group (t : StTy) (g : Fin 8) : (BitVec.ofNat 6 (8 * g.val) + t.code.zeroExtend 6).toNat / 8 = g.val := by
  cases t <;> revert g <;> decide

section
variable {r : Raw}

theorem decodeRaw_eq_decCmp (hm : r.maj = 0x04) (hf : r.fn.toNat < 16) : decodeRaw r = decCmp r := by
  have h16 : r.fn.toNat ≠ 16 := by omega
  have h17 : r.fn.toNat ≠ 17 := by omega
  have h18 : r.fn.toNat ≠ 18 := by omega
  simp [decodeRaw, hm]

theorem decodeRaw_eq_decFcmp (hm : r.maj = 0x11) (hf : r.fn.toNat < 16) : decodeRaw r = decFcmp r := by
  have h16 : r.fn.toNat ≠ 16 := by omega
  have h17 : r.fn.toNat ≠ 17 := by omega
  simp [decodeRaw, hm]

theorem decodeRaw_eq_decVcmp (hm : r.maj = 0x33) (hf : r.fn.toNat < 16) : decodeRaw r = decVcmp r := by
  have h16 : r.fn.toNat ≠ 16 := by omega
  simp [decodeRaw, hm]

theorem decodeRaw_eq_decBcmp (hm : r.maj = 0x18) (hf : r.fn.toNat ≠ 0) : decodeRaw r = decBcmp r := by
  simp [decodeRaw, hm]

theorem decodeRaw_eq_decVred (hm : r.maj = 0x36) (hf : r.fn.toNat < 16) : decodeRaw r = decVred r := by
  simp [decodeRaw, hm, hf]

theorem decodeRaw_eq_decVscan (hm : r.maj = 0x36) (hf : ¬ r.fn.toNat < 16) : decodeRaw r = decVscan r := by
  simp [decodeRaw, hm, hf]

theorem decodeRaw_eq_decLd (hm : r.maj = 0x20) (hf : r.fn.toNat / 8 = 0) : decodeRaw r = decLd r := by
  simp [decodeRaw, hm, hf]

theorem decodeRaw_eq_decSt (hm : r.maj = 0x20) (hf : r.fn.toNat / 8 = 1) : decodeRaw r = decSt r := by
  simp [decodeRaw, hm, hf]

theorem decodeRaw_eq_decLdd (hm : r.maj = 0x20) (hf : r.fn.toNat / 8 = 2) : decodeRaw r = decLdd r := by
  simp [decodeRaw, hm, hf]

theorem decodeRaw_eq_decLdacq (hm : r.maj = 0x20) (hf : r.fn.toNat / 8 = 3) : decodeRaw r = decLdacq r := by
  simp [decodeRaw, hm, hf]

theorem decodeRaw_eq_decStrel (hm : r.maj = 0x20) (hf : r.fn.toNat / 8 = 4) : decodeRaw r = decStrel r := by
  simp [decodeRaw, hm, hf]

theorem decodeRaw_eq_decLld (hm : r.maj = 0x20) (hf : r.fn.toNat / 8 = 5) : decodeRaw r = decLld r := by
  simp [decodeRaw, hm, hf]

theorem decodeRaw_eq_decLst (hm : r.maj = 0x20) (hf : r.fn.toNat / 8 = 6) : decodeRaw r = decLst r := by
  simp [decodeRaw, hm, hf]

theorem decodeRaw_eq_decLdb (hm : r.maj = 0x21) (hf : r.fn.toNat / 8 = 0) : decodeRaw r = decLdb r := by
  simp [decodeRaw, hm, hf]

theorem decodeRaw_eq_decStb (hm : r.maj = 0x21) (hf : r.fn.toNat / 8 = 1) : decodeRaw r = decStb r := by
  simp [decodeRaw, hm, hf]
end


/-! ## Each row's fields are decoded to the row -/

/-- Three parts of the table of MAJ values (R32). -/
inductive Chapter where
  | scalar | memory | unit

def Raw.chapter (r : Raw) : Chapter :=
  match r.maj.toNat with
  | 0x00 | 0x01 | 0x02 | 0x03 | 0x04 | 0x10 | 0x11 | 0x12 | 0x18 | 0x19 | 0x1A | 0x1B => .scalar
  | 0x20 | 0x21 | 0x22 | 0x23 | 0x24 | 0x25 | 0x26 | 0x2C | 0x2D | 0x2E => .memory
  | _ => .unit

/-- Every scalar or control instruction is decoded from its own fields (MAJ 0x00 to 0x1B). -/
theorem decodeRaw_raw_scalar {i : Instr} {r : Raw} (hch : i.raw.map Raw.chapter = some .scalar) (hi : i ≠ .trapz)
    (hwf : i.wf = true) (hr : i.raw = some r) : decodeRaw r = .ok i := by
  cases i with
  | trapz => exact absurd rfl hi
  | add d x y | addX f ty d x y =>
    cases hr; change decAdd _ = _
    simp only [Instr.wf, Bool.and_eq_true] at hwf
    simp [decAdd, hwf]
  | sub d x y | subX f ty d x y =>
    cases hr; change decSub _ = _
    simp only [Instr.wf, Bool.and_eq_true] at hwf
    simp [decSub, hwf]
  | neg d x | negX f ty d x =>
    cases hr; change decNeg _ = _
    simp only [Instr.wf, Bool.and_eq_true] at hwf
    simp [decNeg, hwf]
  | abs d x | absX f ty d x =>
    cases hr; change decAbs _ = _
    simp only [Instr.wf, Bool.and_eq_true] at hwf
    simp [decAbs, hwf]
  | min d x y | minX f ty d x y =>
    cases hr; change decMin _ = _
    simp only [Instr.wf, Bool.and_eq_true] at hwf
    simp [decMin, hwf]
  | minz d x y | minzX f ty d x y =>
    cases hr; change decMinz _ = _
    simp only [Instr.wf, Bool.and_eq_true] at hwf
    simp [decMinz, hwf]
  | max d x y | maxX f ty d x y =>
    cases hr; change decMax _ = _
    simp only [Instr.wf, Bool.and_eq_true] at hwf
    simp [decMax, hwf]
  | maxz d x y | maxzX f ty d x y =>
    cases hr; change decMaxz _ = _
    simp only [Instr.wf, Bool.and_eq_true] at hwf
    simp [decMaxz, hwf]
  | lea d x y | leaX f d x y sh imm =>
    cases hr; change decLea _ = _
    simp only [Instr.wf, Bool.and_eq_true] at hwf
    simp [decLea, hwf]
  | mul d x y | mulX f ty d x y =>
    cases hr; change decMul _ = _
    simp only [Instr.wf, Bool.and_eq_true] at hwf
    simp [decMul, hwf]
  | mulh d x y | mulhX f ty d x y =>
    cases hr; change decMulh _ = _
    simp only [Instr.wf, Bool.and_eq_true] at hwf
    simp [decMulh, hwf]
  | mulhz d x y | mulhzX f ty d x y =>
    cases hr; change decMulhz _ = _
    simp only [Instr.wf, Bool.and_eq_true] at hwf
    simp [decMulhz, hwf]
  | div d x y | divX f ty d x y =>
    cases hr; change decDiv _ = _
    simp only [Instr.wf, Bool.and_eq_true] at hwf
    simp [decDiv, hwf]
  | divz d x y | divzX f ty d x y =>
    cases hr; change decDivz _ = _
    simp only [Instr.wf, Bool.and_eq_true] at hwf
    simp [decDivz, hwf]
  | rem d x y | remX f ty d x y =>
    cases hr; change decRem _ = _
    simp only [Instr.wf, Bool.and_eq_true] at hwf
    simp [decRem, hwf]
  | remz d x y | remzX f ty d x y =>
    cases hr; change decRemz _ = _
    simp only [Instr.wf, Bool.and_eq_true] at hwf
    simp [decRemz, hwf]
  | and d x y | andX f ty d x y =>
    cases hr; change decAnd _ = _
    simp only [Instr.wf, Bool.and_eq_true] at hwf
    simp [decAnd, hwf]
  | or d x y | orX f ty d x y =>
    cases hr; change decOr _ = _
    simp only [Instr.wf, Bool.and_eq_true] at hwf
    simp [decOr, hwf]
  | xor d x y | xorX f ty d x y =>
    cases hr; change decXor _ = _
    simp only [Instr.wf, Bool.and_eq_true] at hwf
    simp [decXor, hwf]
  | andn d x y | andnX f ty d x y =>
    cases hr; change decAndn _ = _
    simp only [Instr.wf, Bool.and_eq_true] at hwf
    simp [decAndn, hwf]
  | not d x | notX f ty d x =>
    cases hr; change decNot _ = _
    simp only [Instr.wf, Bool.and_eq_true] at hwf
    simp [decNot, hwf]
  | shl d x y | shlX f ty d x y =>
    cases hr; change decShl _ = _
    simp only [Instr.wf, Bool.and_eq_true] at hwf
    simp [decShl, hwf]
  | shr d x y | shrX f ty d x y =>
    cases hr; change decShr _ = _
    simp only [Instr.wf, Bool.and_eq_true] at hwf
    simp [decShr, hwf]
  | sra d x y | sraX f ty d x y =>
    cases hr; change decSra _ = _
    simp only [Instr.wf, Bool.and_eq_true] at hwf
    simp [decSra, hwf]
  | rotl d x y | rotlX f ty d x y =>
    cases hr; change decRotl _ = _
    simp only [Instr.wf, Bool.and_eq_true] at hwf
    simp [decRotl, hwf]
  | clz d x | clzX f ty d x =>
    cases hr; change decClz _ = _
    simp only [Instr.wf, Bool.and_eq_true] at hwf
    simp [decClz, hwf]
  | ctz d x | ctzX f ty d x =>
    cases hr; change decCtz _ = _
    simp only [Instr.wf, Bool.and_eq_true] at hwf
    simp [decCtz, hwf]
  | popc d x | popcX f ty d x =>
    cases hr; change decPopc _ = _
    simp only [Instr.wf, Bool.and_eq_true] at hwf
    simp [decPopc, hwf]
  | bext d x y | bextX f d x y =>
    cases hr; change decBext _ = _
    simp only [Instr.wf] at hwf
    simp [decBext, hwf]
  | bins d x y | binsX f d x y z =>
    cases hr; change decBins _ = _
    simp only [Instr.wf, Bool.and_eq_true] at hwf
    simp [decBins, hwf]
  | sext d x y | sextX f d x y =>
    cases hr; change decSext _ = _
    simp only [Instr.wf] at hwf
    simp [decSext, hwf]
  | zext d x y | zextX f d x y =>
    cases hr; change decZext _ = _
    simp only [Instr.wf] at hwf
    simp [decZext, hwf]
  | cmp cond d x y | cmpX f cond ty d x y =>
    cases hr; rw [decodeRaw_eq_decCmp rfl cond.code_lt]
    simp only [Instr.wf, Bool.and_eq_true] at hwf
    simp [decCmp, hwf]
  | sel d x y | selX f d x y z =>
    cases hr; change decSel _ = _
    simp only [Instr.wf, Bool.and_eq_true] at hwf
    simp [decSel, hwf]
  | mov d x | movX f ty d x =>
    cases hr; change decMov _ = _
    simp only [Instr.wf, Bool.and_eq_true] at hwf
    simp [decMov, hwf]
  | movl long d v =>
    cases hr; change decMovl _ = _
    cases long <;> simp [decMovl, lens]
  | fadd d x y | faddX f ty rnd fa d x y =>
    cases hr; change decFadd _ = _
    simp only [Instr.wf, Bool.and_eq_true] at hwf
    simp [decFadd, hwf]
  | fsub d x y | fsubX f ty rnd fa d x y =>
    cases hr; change decFsub _ = _
    simp only [Instr.wf, Bool.and_eq_true] at hwf
    simp [decFsub, hwf]
  | fmul d x y | fmulX f ty rnd fa d x y =>
    cases hr; change decFmul _ = _
    simp only [Instr.wf, Bool.and_eq_true] at hwf
    simp [decFmul, hwf]
  | fma d x y | fmaX f ty rnd fa d x y z =>
    cases hr; change decFma _ = _
    simp only [Instr.wf, Bool.and_eq_true] at hwf
    simp [decFma, hwf]
  | fdiv d x y | fdivX f ty rnd d x y =>
    cases hr; change decFdiv _ = _
    simp only [Instr.wf, Bool.and_eq_true] at hwf
    simp [decFdiv, hwf]
  | fsqrt d x | fsqrtX f ty rnd d x =>
    cases hr; change decFsqrt _ = _
    simp only [Instr.wf, Bool.and_eq_true] at hwf
    simp [decFsqrt, hwf]
  | fmin d x y | fminX f ty d x y =>
    cases hr; change decFmin _ = _
    simp only [Instr.wf, Bool.and_eq_true] at hwf
    simp [decFmin, hwf]
  | fmax d x y | fmaxX f ty d x y =>
    cases hr; change decFmax _ = _
    simp only [Instr.wf, Bool.and_eq_true] at hwf
    simp [decFmax, hwf]
  | fabs d x | fabsX f ty d x =>
    cases hr; change decFabs _ = _
    simp only [Instr.wf, Bool.and_eq_true] at hwf
    simp [decFabs, hwf]
  | fneg d x | fnegX f ty d x =>
    cases hr; change decFneg _ = _
    simp only [Instr.wf, Bool.and_eq_true] at hwf
    simp [decFneg, hwf]
  | fcmp cond d x y | fcmpX f cond ty d x y =>
    cases hr; rw [decodeRaw_eq_decFcmp rfl cond.code_lt]
    simp only [Instr.wf, Bool.and_eq_true] at hwf
    simp [decFcmp, hwf]
  | fcvt lit dst src rnd d x =>
    cases hr; change decFcvt _ = _
    simp only [Instr.wf, Bool.and_eq_true] at hwf
    simp [decFcvt, hwf]
  | fcls d x | fclsX f ty d x =>
    cases hr; change decFcls _ = _
    simp only [Instr.wf, Bool.and_eq_true] at hwf
    simp [decFcls, hwf]
  | symt d s | symtX d s =>
    cases hr; change decSymt _ = _
    simp [decSymt, s.codes, symArg_of_codes (s := s)]
  | symw d s | symwX d s =>
    cases hr; change decSymw _ = _
    simp [decSymw, s.codes, symArg_of_codes (s := s)]
  | symx d s | symxX d s =>
    cases hr; change decSymx _ = _
    simp [decSymx, s.codes, symArg_of_codes (s := s)]
  | br off | brX imm =>
    cases hr; change decBr _ = _
    simp [decBr]
  | bcmp lit cond ty x y imm =>
    cases hr; rw [decodeRaw_eq_decBcmp rfl cond.add_code_ne_zero]
    simp only [Instr.wf, Bool.and_eq_true] at hwf
    simp [decBcmp, hwf]
  | call off | callX imm =>
    cases hr; change decCall _ = _
    simp [decCall]
  | ret =>
    cases hr; change decRet _ = _
    simp [decRet]
  | jtb lit tbl idx len imm label =>
    cases hr; change decJtb _ = _
    simp only [Instr.wf] at hwf
    simp [decJtb, hwf]
  | jtc lit tbl idx len imm label =>
    cases hr; change decJtc _ = _
    simp only [Instr.wf] at hwf
    simp [decJtc, hwf]
  | land label =>
    cases hr; change decLand _ = _
    simp [decLand]
  | loop x off | loopX x imm =>
    cases hr; change decLoop _ = _
    simp [decLoop]
  | spillw =>
    cases hr; change decSpillw _ = _
    simp [decSpillw]
  | fillw =>
    cases hr; change decFillw _ = _
    simp [decFillw]
  | hret =>
    cases hr; change decHret _ = _
    simp [decHret]
  | realign lit dist =>
    cases hr; change decRealign _ = _
    simp only [Instr.wf] at hwf
    simp [decRealign, hwf]
  | nop | nopX =>
    cases hr; change decNop _ = _
    simp [decNop]
  | fin =>
    cases hr; change decFin _ = _
    simp [decFin]
  | start d imm =>
    cases hr; change decStart _ = _
    simp [decStart]
  | join d base | joinX f d base imm =>
    cases hr; change decJoin _ = _
    simp only [Instr.wf, Bool.and_eq_true] at hwf
    simp [decJoin, hwf]
  | yield =>
    cases hr; change decYield _ = _
    simp [decYield]
  | wait d base v | waitX f sc win ty d base v imm =>
    cases hr; change decWait _ = _
    simp only [Instr.wf, Bool.and_eq_true] at hwf
    simp [decWait, hwf]
  | _ => cases hch

/-- Every memory instruction is decoded from its own fields (MAJ 0x20 to 0x2E). -/
theorem decodeRaw_raw_memory {i : Instr} {r : Raw} (hch : i.raw.map Raw.chapter = some .memory) (hi : i ≠ .trapz)
    (hwf : i.wf = true) (hr : i.raw = some r) : decodeRaw r = .ok i := by
  cases i with
  | ld t d base idx | ldX f t win imm ef d base idx =>
    cases hr; rw [decodeRaw_eq_decLd rfl (t.group 0)]
    simp only [Instr.wf, Bool.and_eq_true] at hwf
    cases t <;> simp [decLd, hwf, LdTy.code, LdTy.ofCode]
  | st t v base idx | stX f t win imm ef v base idx =>
    cases hr; rw [decodeRaw_eq_decSt rfl (t.group 1)]
    simp only [Instr.wf, Bool.and_eq_true] at hwf
    cases t <;> simp [decSt, hwf, StTy.code, StTy.ofCode]
  | ldd t d base idx | lddX f t win imm ef d base idx =>
    cases hr; rw [decodeRaw_eq_decLdd rfl (t.group 2)]
    simp only [Instr.wf, Bool.and_eq_true] at hwf
    cases t <;> simp [decLdd, hwf, LdTy.code, LdTy.ofCode]
  | ldacq lit t sc win imm ef d base idx =>
    cases hr; rw [decodeRaw_eq_decLdacq rfl (t.group 3)]
    simp only [Instr.wf] at hwf
    cases t <;> simp [decLdacq, hwf, LdTy.code, LdTy.ofCode]
  | strel lit t sc win imm v base idx =>
    cases hr; rw [decodeRaw_eq_decStrel rfl (t.group 4)]
    simp only [Instr.wf] at hwf
    cases t <;> simp [decStrel, hwf, StTy.code, StTy.ofCode]
  | lld t d base idx | lldX f t win imm d base idx =>
    cases hr; rw [decodeRaw_eq_decLld rfl (t.group 5)]
    simp only [Instr.wf, Bool.and_eq_true] at hwf
    cases t <;> simp [decLld, hwf, LdTy.code, LdTy.ofCode]
  | lst lit t win imm v base idx res =>
    cases hr; rw [decodeRaw_eq_decLst rfl (t.group 6)]
    simp only [Instr.wf] at hwf
    cases t <;> simp [decLst, hwf, StTy.code, StTy.ofCode]
  | ldb t d base idx | ldbX f t imm ef d base idx =>
    cases hr; rw [decodeRaw_eq_decLdb rfl (t.group 0)]
    simp only [Instr.wf, Bool.and_eq_true] at hwf
    cases t <;> simp [decLdb, hwf, LdTy.code, LdTy.ofCode]
  | stb t v base idx | stbX f t imm ef v base idx =>
    cases hr; rw [decodeRaw_eq_decStb rfl (t.group 1)]
    simp only [Instr.wf, Bool.and_eq_true] at hwf
    cases t <;> simp [decStb, hwf, StTy.code, StTy.ofCode]
  | stsig lit sc win ty addf imm v base flag sig =>
    cases hr; change decStsig _ = _
    simp only [Instr.wf, Bool.and_eq_true] at hwf
    simp [decStsig, hwf]
  | stg tag base | stgX f n imm tag base =>
    cases hr; change decStg _ = _
    simp only [Instr.wf, Bool.and_eq_true] at hwf
    simp [decStg, hwf]
  | ldg d base | ldgX f imm d base =>
    cases hr; change decLdg _ = _
    simp only [Instr.wf, Bool.and_eq_true] at hwf
    simp [decLdg, hwf]
  | cbwaitF lit d h n =>
    cases hr; change decCbwaitF _ = _
    simp only [Instr.wf] at hwf
    simp [decCbwaitF, hwf]
  | cbwaitE lit d h n =>
    cases hr; change decCbwaitE _ = _
    simp only [Instr.wf] at hwf
    simp [decCbwaitE, hwf]
  | cbadvF lit h n =>
    cases hr; change decCbadvF _ = _
    simp only [Instr.wf] at hwf
    simp [decCbadvF, hwf]
  | cbadvE lit h n =>
    cases hr; change decCbadvE _ = _
    simp only [Instr.wf] at hwf
    simp [decCbadvE, hwf]
  | publ lit sc pair buf =>
    cases hr; change decPubl _ = _
    simp only [Instr.wf] at hwf
    simp [decPubl, hwf]
  | tdecl base shape | tdeclX f imm base shape =>
    cases hr; change decTdecl _ = _
    simp only [Instr.wf, Bool.and_eq_true] at hwf
    simp [decTdecl, hwf]
  | tfree base | tfreeX f imm base =>
    cases hr; change decTfree _ = _
    simp only [Instr.wf, Bool.and_eq_true] at hwf
    simp [decTfree, hwf]
  | tfwd base rank | tfwdX f imm base rank =>
    cases hr; change decTfwd _ = _
    simp only [Instr.wf, Bool.and_eq_true] at hwf
    simp [decTfwd, hwf]
  | pref base idx | prefX f l2 imm base idx =>
    cases hr; change decPref _ = _
    simp only [Instr.wf, Bool.and_eq_true] at hwf
    simp [decPref, hwf]
  | evict base idx | evictX f imm base idx =>
    cases hr; change decEvict _ = _
    simp only [Instr.wf, Bool.and_eq_true] at hwf
    simp [decEvict, hwf]
  | pin lit ways d base len =>
    cases hr; change decPin _ = _
    simp only [Instr.wf] at hwf
    simp [decPin, hwf]
  | unpin lit idx =>
    cases hr; change decUnpin _ = _
    simp only [Instr.wf] at hwf
    simp [decUnpin, hwf]
  | barinit base n | barinitX f sc win imm base n =>
    cases hr; change decBarinit _ = _
    simp only [Instr.wf, Bool.and_eq_true] at hwf
    simp [decBarinit, hwf]
  | barexp base n | barexpX f win imm base n =>
    cases hr; change decBarexp _ = _
    simp only [Instr.wf, Bool.and_eq_true] at hwf
    simp [decBarexp, hwf]
  | bararr d base n | bararrX f sc win imm d base n =>
    cases hr; change decBararr _ = _
    simp only [Instr.wf, Bool.and_eq_true] at hwf
    simp [decBararr, hwf]
  | barwait d base n | barwaitX f sc win chk imm d base n =>
    cases hr; change decBarwait _ = _
    simp only [Instr.wf, Bool.and_eq_true] at hwf
    simp [decBarwait, hwf]
  | atom op d base v | atomX f op sc ord win ty imm d base v e =>
    cases hr; change decAtom _ = _
    simp only [Instr.wf, Bool.and_eq_true] at hwf
    simp [decAtom, hwf]
  | red op base v | redX f op sc rel win ty imm base v =>
    cases hr; change decRed _ = _
    simp only [Instr.wf, Bool.and_eq_true] at hwf
    simp [decRed, hwf]
  | fence sc ord =>
    cases hr; change decFence _ = _
    simp only [Instr.wf] at hwf
    simp [decFence, hwf]
  | isync =>
    cases hr; change decIsync _ = _
    simp [decIsync]
  | _ => cases hch

/-- Every vector, matrix, engine or system instruction is decoded from its own fields (MAJ 0x30 to 0x3F). -/
theorem decodeRaw_raw_unit {i : Instr} {r : Raw} (hch : i.raw.map Raw.chapter = some .unit) (hi : i ≠ .trapz)
    (hwf : i.wf = true) (hr : i.raw = some r) : decodeRaw r = .ok i := by
  cases i with
  | vadd d x y | vaddX f ty rnd mk d x y =>
    cases hr; change decVadd _ = _
    simp only [Instr.wf, Bool.and_eq_true] at hwf
    simp [decVadd, hwf]
  | vsub d x y | vsubX f ty rnd mk d x y =>
    cases hr; change decVsub _ = _
    simp only [Instr.wf, Bool.and_eq_true] at hwf
    simp [decVsub, hwf]
  | vmul d x y | vmulX f ty rnd mk d x y =>
    cases hr; change decVmul _ = _
    simp only [Instr.wf, Bool.and_eq_true] at hwf
    simp [decVmul, hwf]
  | vfma d x y | vfmaX f ty rnd mk d x y z =>
    cases hr; change decVfma _ = _
    simp only [Instr.wf, Bool.and_eq_true] at hwf
    simp [decVfma, hwf]
  | vmin d x y | vminX f ty rnd mk d x y =>
    cases hr; change decVmin _ = _
    simp only [Instr.wf, Bool.and_eq_true] at hwf
    simp [decVmin, hwf]
  | vmax d x y | vmaxX f ty rnd mk d x y =>
    cases hr; change decVmax _ = _
    simp only [Instr.wf, Bool.and_eq_true] at hwf
    simp [decVmax, hwf]
  | vabs d x | vabsX f ty mk d x =>
    cases hr; change decVabs _ = _
    simp only [Instr.wf, Bool.and_eq_true] at hwf
    simp [decVabs, hwf]
  | vneg d x | vnegX f ty mk d x =>
    cases hr; change decVneg _ = _
    simp only [Instr.wf, Bool.and_eq_true] at hwf
    simp [decVneg, hwf]
  | vrcp d x | vrcpX f ty rnd mk d x =>
    cases hr; change decVrcp _ = _
    simp only [Instr.wf, Bool.and_eq_true] at hwf
    simp [decVrcp, hwf]
  | vrsq d x | vrsqX f ty rnd mk d x =>
    cases hr; change decVrsq _ = _
    simp only [Instr.wf, Bool.and_eq_true] at hwf
    simp [decVrsq, hwf]
  | vexp d x | vexpX f ty rnd mk d x =>
    cases hr; change decVexp _ = _
    simp only [Instr.wf, Bool.and_eq_true] at hwf
    simp [decVexp, hwf]
  | vlog d x | vlogX f ty rnd mk d x =>
    cases hr; change decVlog _ = _
    simp only [Instr.wf, Bool.and_eq_true] at hwf
    simp [decVlog, hwf]
  | vtanh d x | vtanhX f ty rnd mk d x =>
    cases hr; change decVtanh _ = _
    simp only [Instr.wf, Bool.and_eq_true] at hwf
    simp [decVtanh, hwf]
  | vcvt lit dst src part rnd mk d x =>
    cases hr; change decVcvt _ = _
    simp only [Instr.wf, Bool.and_eq_true] at hwf
    simp [decVcvt, hwf, Nat.mod_eq_of_lt (part.isLt.trans (by decide : _ < 16777216))]
  | vquant d x y =>
    cases hr; change decVquant _ = _
    simp only [Instr.wf] at hwf
    simp [decVquant, hwf]
  | vquantX f ty part rnd mk d x y =>
    cases hr; change decVquant _ = _
    simp only [Instr.wf, Bool.and_eq_true] at hwf
    simp [decVquant, hwf, Nat.mod_eq_of_lt (part.isLt.trans (by decide : _ < 16777216))]
  | vdeq d x y =>
    cases hr; change decVdeq _ = _
    simp only [Instr.wf] at hwf
    simp [decVdeq, hwf]
  | vdeqX f ty part rnd mk d x y =>
    cases hr; change decVdeq _ = _
    simp only [Instr.wf, Bool.and_eq_true] at hwf
    simp [decVdeq, hwf, Nat.mod_eq_of_lt (part.isLt.trans (by decide : _ < 16777216))]
  | vcmp cond d x y | vcmpX f cond ty mk d x y =>
    cases hr; rw [decodeRaw_eq_decVcmp rfl cond.code_lt]
    simp only [Instr.wf, Bool.and_eq_true] at hwf
    simp [decVcmp, hwf]
  | vsel d m x | vselX f ty mk d m x y =>
    cases hr; change decVsel _ = _
    simp only [Instr.wf, Bool.and_eq_true] at hwf
    simp [decVsel, hwf]
  | vand d x y | vandX f ty mk d x y =>
    cases hr; change decVand _ = _
    simp only [Instr.wf, Bool.and_eq_true] at hwf
    simp [decVand, hwf]
  | vor d x y | vorX f ty mk d x y =>
    cases hr; change decVor _ = _
    simp only [Instr.wf, Bool.and_eq_true] at hwf
    simp [decVor, hwf]
  | vxor d x y | vxorX f ty mk d x y =>
    cases hr; change decVxor _ = _
    simp only [Instr.wf, Bool.and_eq_true] at hwf
    simp [decVxor, hwf]
  | vnot d x | vnotX f ty mk d x =>
    cases hr; change decVnot _ = _
    simp only [Instr.wf, Bool.and_eq_true] at hwf
    simp [decVnot, hwf]
  | vshl d x y | vshlX f ty mk d x y =>
    cases hr; change decVshl _ = _
    simp only [Instr.wf, Bool.and_eq_true] at hwf
    simp [decVshl, hwf]
  | vshr d x y | vshrX f ty mk d x y =>
    cases hr; change decVshr _ = _
    simp only [Instr.wf, Bool.and_eq_true] at hwf
    simp [decVshr, hwf]
  | vsra d x y | vsraX f ty mk d x y =>
    cases hr; change decVsra _ = _
    simp only [Instr.wf, Bool.and_eq_true] at hwf
    simp [decVsra, hwf]
  | vperm d x y | vpermX ty mk d x y =>
    cases hr; change decVperm _ = _
    simp [decVperm]
  | vbcast d x k | vbcastX f ty mk d x k =>
    cases hr; change decVbcast _ = _
    simp only [Instr.wf, Bool.and_eq_true] at hwf
    simp [decVbcast, hwf]
  | vidx d x y | vidxX f ty mk d x y =>
    cases hr; change decVidx _ = _
    simp only [Instr.wf, Bool.and_eq_true] at hwf
    simp [decVidx, hwf]
  | vmov d x | vmovX f ty mk d x =>
    cases hr; change decVmov _ = _
    simp only [Instr.wf, Bool.and_eq_true] at hwf
    simp [decVmov, hwf]
  | vins d x k | vinsX f ty d x k =>
    cases hr; change decVins _ = _
    simp only [Instr.wf, Bool.and_eq_true] at hwf
    simp [decVins, hwf]
  | vext d x k | vextX f ty d x k =>
    cases hr; change decVext _ = _
    simp only [Instr.wf, Bool.and_eq_true] at hwf
    simp [decVext, hwf]
  | vred op d x | vredX ty rnd mk op d x =>
    cases hr; rw [decodeRaw_eq_decVred rfl op.code_lt]
    simp only [Instr.wf, Bool.and_eq_true] at hwf
    simp [decVred, hwf]
  | vscan op d x | vscanX ty rnd mk op d x =>
    cases hr; rw [decodeRaw_eq_decVscan rfl op.code_ge]
    simp only [Instr.wf, Bool.and_eq_true] at hwf
    simp [decVscan, hwf]
  | vld d base idx | vldX f win ty imm ef mk d base idx =>
    cases hr; change decVld _ = _
    simp only [Instr.wf, Bool.and_eq_true] at hwf
    simp [decVld, hwf]
  | vst d base idx | vstX f win ty imm ef mk d base idx =>
    cases hr; change decVst _ = _
    simp only [Instr.wf, Bool.and_eq_true] at hwf
    simp [decVst, hwf]
  | vgth d base x | vgthX f win ty imm sh ef mk d base x =>
    cases hr; change decVgth _ = _
    simp only [Instr.wf, Bool.and_eq_true] at hwf
    simp [decVgth, hwf]
  | vsct d base x | vsctX f win ty imm sh ef mk d base x =>
    cases hr; change decVsct _ = _
    simp only [Instr.wf, Bool.and_eq_true] at hwf
    simp [decVsct, hwf]
  | mand d x y =>
    cases hr; change decMand _ = _
    simp [decMand]
  | mor d x y =>
    cases hr; change decMor _ = _
    simp [decMor]
  | mxor d x y =>
    cases hr; change decMxor _ = _
    simp [decMxor]
  | mnot d x =>
    cases hr; change decMnot _ = _
    simp [decMnot]
  | mpop d x | mpopX ty d x =>
    cases hr; change decMpop _ = _
    simp [decMpop]
  | mcmd d base idx =>
    cases hr; change decMcmd _ = _
    simp only [Instr.wf] at hwf
    simp [decMcmd, hwf]
  | mcmdX f win imm d base idx =>
    cases hr; change decMcmd _ = _
    obtain ⟨hf, hl⟩ := Bool.and_eq_true_iff.mp hwf
    cases beq_iff_eq.mp hf; simp [decMcmd, hl, Form.len, Form.value]
  | mqry lit d q =>
    cases hr; change decMqry _ = _
    simp only [Instr.wf] at hwf
    simp [decMqry, hwf]
  | djob d base | djobX f win imm d base =>
    cases hr; change decDjob _ = _
    simp only [Instr.wf, Bool.and_eq_true] at hwf
    simp [decDjob, hwf]
  | rbind d base range | rbindX f win imm d base range =>
    cases hr; change decRbind _ = _
    simp only [Instr.wf, Bool.and_eq_true] at hwf
    simp [decRbind, hwf]
  | rfree lit idx =>
    cases hr; change decRfree _ = _
    simp only [Instr.wf] at hwf
    simp [decRfree, hwf]
  | msend base ch | msendX f sc win imm chk base ch =>
    cases hr; change decMsend _ = _
    simp only [Instr.wf, Bool.and_eq_true] at hwf
    simp [decMsend, hwf]
  | mrecv d base ch | mrecvX f sc win imm dv d base ch =>
    cases hr; change decMrecv _ = _
    simp only [Instr.wf, Bool.and_eq_true] at hwf
    simp [decMrecv, hwf]
  | mprobe d ch =>
    cases hr; change decMprobe _ = _
    simp [decMprobe]
  | xmit v dir =>
    cases hr; change decXmit _ = _
    simp only [Instr.wf] at hwf
    simp [decXmit, hwf]
  | imux d dir =>
    cases hr; change decImux _ = _
    simp [decImux]
  | hbar grp | hbarX f xp grp =>
    cases hr; change decHbar _ = _
    simp only [Instr.wf, Bool.and_eq_true] at hwf
    simp [decHbar, hwf]
  | trgPost d base | trgPostX f win imm d base =>
    cases hr; change decTrgPost _ = _
    simp only [Instr.wf, Bool.and_eq_true] at hwf
    simp [decTrgPost, hwf]
  | trgInc ctr n | trgIncX f sc ctr n =>
    cases hr; change decTrgInc _ = _
    simp only [Instr.wf, Bool.and_eq_true] at hwf
    simp [decTrgInc, hwf]
  | trgRd d ctr | trgRdX f sc d ctr =>
    cases hr; change decTrgRd _ = _
    simp only [Instr.wf, Bool.and_eq_true] at hwf
    simp [decTrgRd, hwf]
  | trgCancel lit d h =>
    cases hr; change decTrgCancel _ = _
    simp only [Instr.wf] at hwf
    simp [decTrgCancel, hwf]
  | rdtime d =>
    cases hr; change decRdtime _ = _
    simp [decRdtime]
  | rderr d =>
    cases hr; change decRderr _ = _
    simp [decRderr]
  | evrd d k =>
    cases hr; change decEvrd _ = _
    simp [decEvrd]
  | evclr k =>
    cases hr; change decEvclr _ = _
    simp [decEvclr]
  | evgath base | evgathX f imm base =>
    cases hr; change decEvgath _ = _
    simp only [Instr.wf, Bool.and_eq_true] at hwf
    simp [decEvgath, hwf]
  | crd d r =>
    cases hr; change decCrd _ = _
    simp [decCrd]
  | cwr lit r v =>
    cases hr; change decCwr _ = _
    simp only [Instr.wf] at hwf
    simp [decCwr, hwf]
  | trap lit d svc arg =>
    cases hr; change decTrap _ = _
    simp only [Instr.wf] at hwf
    simp [decTrap, hwf]
  | brk code =>
    cases hr; change decBrk _ = _
    simp [decBrk]
  | wfe d =>
    cases hr; change decWfe _ = _
    simp [decWfe]
  | idle =>
    cases hr; change decIdle _ = _
    simp [decIdle]
  | _ => cases hch

/-- Decoding the fields of a row gives the row. -/
theorem decodeRaw_raw {i : Instr} {r : Raw} (hi : i ≠ .trapz) (hwf : i.wf = true) (hr : i.raw = some r) : decodeRaw r = .ok i := by
  have hch : i.raw.map Raw.chapter = some r.chapter := congrArg (Option.map Raw.chapter) hr
  cases h : r.chapter with
  | scalar => exact decodeRaw_raw_scalar (h ▸ hch) hi hwf hr
  | memory => exact decodeRaw_raw_memory (h ▸ hch) hi hwf hr
  | unit => exact decodeRaw_raw_unit (h ▸ hch) hi hwf hr

/-! ## The words of the fields hold the fields (R10) -/

/-- Fields that the words of their own LEN can hold: without words 1 and 2 no extended field, without a literal none. -/
def Raw.normal (r : Raw) : Prop := (r.len.getLsbD 1 = false → r.ext = {}) ∧ (r.hasLit = false → r.lit = 0)

theorem Ext.ofWords_words (e : Ext) : Ext.ofWords e.word1 e.word2 = e := by
  obtain ⟨scope, ord, win, imm, ef, dv, fa, chk, rnd, ty, men, msel, rsv, sub, d⟩ := e
  simp only [Ext.ofWords, Ext.word1, Ext.word2]
  simp [-Nat.reduceAdd, BitVec.extractLsb'_append_eq_of_add_le, BitVec.extractLsb'_append_eq_of_le]

theorem literal_append (v : Word) : v.extractLsb' 32 32 ++ v.extractLsb' 0 32 = v := by
  rw [BitVec.extractLsb'_append_extractLsb'_eq_extractLsb' (by rfl)]
  simp

theorem Raw.ofWords_words {r : Raw} (h : r.normal) : Raw.ofWords r.words = some r := by
  obtain ⟨fn, c, b, a, maj, len, ext, lit⟩ := r
  obtain ⟨hext, hlit⟩ := h
  have hlen : len = 0 ∨ len = 1 ∨ len = 2 ∨ len = 3 := by clear hext hlit; revert len; decide
  rcases hlen with rfl | rfl | rfl | rfl
  · simp only [Raw.hasLit] at hext hlit
    simp [Raw.words, Raw.ofWords, Raw.ofWord0_word0, hext, hlit]
  · simp only at hext
    simp [Raw.words, Raw.ofWords, Raw.ofWord0_word0, hext, literal_append]
  · simp only [Raw.hasLit] at hlit
    simp [Raw.words, Raw.ofWords, Raw.ofWord0_word0, Ext.ofWords_words, hlit]
  · simp [Raw.words, Raw.ofWords, Raw.ofWord0_word0, Ext.ofWords_words, literal_append]

section
variable {fn c b a maj : BitVec 6} {e : Ext}

theorem Raw.normal_two : Raw.normal { fn, c, b, a, maj, len := 2, ext := e } := by
  simp [Raw.normal]

theorem Raw.normal_litLen (lit : Option Word) : Raw.normal { fn, c, b, a, maj, len := litLen lit, lit := litVal lit } := by
  cases lit <;> simp [Raw.normal, litLen, litVal, Raw.hasLit]

theorem Raw.normal_litLenX (lit : Option Word) :
    Raw.normal { fn, c, b, a, maj, len := litLenX lit, ext := e, lit := litVal lit } := by
  cases lit <;> simp [Raw.normal, litLenX, litVal, Raw.hasLit]

theorem Raw.normal_form {f : Form} (h : ∀ v, f = .l v → e = {}) :
    Raw.normal { fn, c, b, a, maj, len := f.len, ext := e, lit := f.value } := by
  cases f with
  | l v => exact ⟨fun _ => h v rfl, fun h => by simp [Raw.hasLit, Form.len] at h⟩
  | x => exact ⟨fun h => by simp [Form.len] at h, fun _ => rfl⟩
  | xl v => exact ⟨fun h => by simp [Form.len] at h, fun h => by simp [Raw.hasLit, Form.len] at h⟩

end

/-- A well-formed row has no extended field in a form without words 1 and 2 (R10). -/
theorem Instr.raw_normal {i : Instr} {r : Raw} (hwf : i.wf = true) (hr : i.raw = some r) : r.normal := by
  cases i with
  | addX f | subX f | negX f | absX f | minX f | minzX f | maxX f | maxzX f | leaX f | mulX f | mulhX f | mulhzX f
    | divX f | divzX f | remX f | remzX f | andX f | orX f | xorX f | andnX f | notX f | shlX f | shrX f | sraX f
    | rotlX f | clzX f | ctzX f | popcX f | bextX f | binsX f | sextX f | zextX f | cmpX f | selX f | movX f | faddX f
    | fsubX f | fmulX f | fmaX f | fdivX f | fsqrtX f | fminX f | fmaxX f | fabsX f | fnegX f | fcmpX f | fclsX f
    | joinX f | waitX f | ldX f | stX f | lddX f | lldX f | ldbX f | stbX f | stgX f | ldgX f | tdeclX f | tfreeX f
    | tfwdX f | prefX f | evictX f | barinitX f | barexpX f | bararrX f | barwaitX f | atomX f | redX f | vaddX f
    | vsubX f | vmulX f | vfmaX f | vminX f | vmaxX f | vabsX f | vnegX f | vrcpX f | vrsqX f | vexpX f | vlogX f
    | vtanhX f | vquantX f | vdeqX f | vcmpX f | vselX f | vandX f | vorX f | vxorX f | vnotX f | vshlX f | vshrX f
    | vsraX f | vbcastX f | vidxX f | vmovX f | vinsX f | vextX f | vldX f | vstX f | vgthX f | vsctX f | djobX f
    | rbindX f | msendX f | mrecvX f | hbarX f | trgPostX f | trgIncX f | trgRdX f | evgathX f =>
    cases hr
    refine Raw.normal_form fun v hf => ?_
    subst hf
    simp only [Instr.wf, Form.plain, Bool.and_eq_true] at hwf
    simp_all [Src.code, VSrc.code]
  | mcmdX f =>
    cases hr
    refine Raw.normal_form fun v hf => ?_
    subst hf
    exact absurd hwf Bool.false_ne_true
  | fcvt | bcmp | jtb | jtc | ldacq | strel | lst | stsig | publ | pin | vcvt | cwr | trap => cases hr; exact Raw.normal_litLenX _
  | realign | cbwaitF | cbwaitE | cbadvF | cbadvE | unpin | mqry | rfree | trgCancel => cases hr; exact Raw.normal_litLen _
  | symtX | symwX | symxX | brX | callX | loopX | nopX | start | fence | vpermX | vredX | vscanX | mpopX | crd => cases hr; exact Raw.normal_two
  | movl long => cases hr; cases long <;> simp [Raw.normal, Raw.hasLit]
  | _ => cases hr <;> exact ⟨fun _ => rfl, fun _ => rfl⟩

theorem Instr.raw_assigned {i : Instr} {r : Raw} (hr : i.raw = some r) : assigned r.maj.toNat r.fn.toNat = true := by
  cases i with
  | cmp cond | cmpX _ cond | fcmp cond | fcmpX _ cond | vcmp cond | vcmpX _ cond | bcmp _ cond => cases hr; cases cond <;> rfl
  | ld t | ldX _ t | st t | stX _ t | ldd t | lddX _ t | ldacq _ t | strel _ t | lld t | lldX _ t | lst _ t | ldb t
    | ldbX _ t | stb t | stbX _ t => cases hr; cases t <;> rfl
  | atom op | atomX _ op | red op | redX _ op | vred op | vredX _ _ _ op | vscan op | vscanX _ _ _ op => cases hr; cases op <;> rfl
  | _ => cases hr <;> rfl

theorem Raw.illegalMajFn_word0 {r : Raw} (h : assigned r.maj.toNat r.fn.toNat = true) : illegalMajFn r.word0 = false := by
  simp [illegalMajFn, Raw.word0_maj, Raw.word0_fn, h]

theorem Raw.words_eq_cons (r : Raw) : ∃ rest, r.words = r.word0 :: rest := by
  unfold Raw.words
  split <;> exact ⟨_, rfl⟩

/-- Fields whose word 0 is the zero word and whose words hold them are all zero. -/
theorem Raw.eq_zero_of_word0 {r : Raw} (hn : r.normal) (h0 : r.word0 = 0) :
    r = { fn := 0, c := 0, b := 0, a := 0, maj := 0 } := by
  have hw := r.ofWord0_word0
  rw [h0] at hw
  have hlen : r.len = 0 := (congrArg Raw.len hw).symm
  obtain ⟨hext, hlit⟩ := hn
  obtain ⟨fn, c, b, a, maj, len, ext, lit⟩ := r
  subst hlen
  obtain rfl : ext = {} := hext (by simp)
  obtain rfl : lit = 0 := hlit (by simp [Raw.hasLit])
  exact hw.symm

/-- Only `trapz` is encoded with a zero word 0: `add w0, w0, w0` has no 32-bit form (R31). -/
theorem Instr.word0_ne_zero {i : Instr} {r : Raw} (hi : i ≠ .trapz) (hwf : i.wf = true) (hr : i.raw = some r) : r.word0 ≠ 0 := by
  intro h0
  have hdec := decodeRaw_raw hi hwf hr
  rw [Raw.eq_zero_of_word0 (Instr.raw_normal hwf hr) h0] at hdec
  have hadd : i = .add (.w 0) (.w 0) (.w 0) := (Except.ok.inj hdec).symm
  rw [hadd] at hwf
  exact absurd hwf Bool.false_ne_true

theorem encode_of_ne_illegalOp {i : Instr} (h : ∀ w, i ≠ .illegalOp w) : encode i = i.raw.map Raw.words := by
  unfold encode
  split
  · exact absurd rfl (h _)
  · rfl

/-- Settles O5: `decodeRaw_raw` gives the row from its fields, `Raw.ofWords_words` the fields from their words. -/
theorem encodeThenDecode : Obligations.EncodeThenDecode := by
  intro i ws hwf henc
  by_cases hill : ∃ w, i = .illegalOp w
  · obtain ⟨w, rfl⟩ := hill
    cases henc
    have hw : illegalMajFn w = true := hwf
    have h0 : w ≠ 0#32 := by
      rintro rfl
      exact absurd hw Bool.false_ne_true
    simp [decodeWords, h0, hw]
  rw [encode_of_ne_illegalOp fun w h => hill ⟨w, h⟩] at henc
  obtain ⟨r, hr, rfl⟩ := Option.map_eq_some_iff.mp henc
  by_cases hi : i = .trapz
  · subst hi
    cases hr
    rfl
  obtain ⟨rest, hrest⟩ := r.words_eq_cons
  have hwords := Raw.ofWords_words (Instr.raw_normal hwf hr)
  rw [hrest] at hwords ⊢
  rw [decodeWords_of_assigned hwords (Instr.word0_ne_zero hi hwf hr) (Raw.illegalMajFn_word0 (Instr.raw_assigned hr))]
  exact decodeRaw_raw hi hwf hr

end Sys2Proof
end

section
/-! PROOF. What decoding reads, the state after reset, and what memory reads after a write. -/
namespace Sys2Proof

/-- Decoding turns on word 0 and the fields alone. -/
theorem decodeWords_congr {w : BitVec 32} {ws ws' : List (BitVec 32)}
    (h : Raw.ofWords (w :: ws) = Raw.ofWords (w :: ws')) : decodeWords (w :: ws) = decodeWords (w :: ws') := by
  simp only [decodeWords, h]

theorem decodeWords_of_ofWords_none {w : BitVec 32} {ws : List (BitVec 32)} (h : Raw.ofWords (w :: ws) = none)
    (hne : w ≠ 0) (hmaj : illegalMajFn w = false) : decodeWords (w :: ws) = .error .truncated := by
  have hz : ¬ w = 0#32 := hne
  simp [decodeWords, h, hz, hmaj]

/-- The fields are read from as many words as LEN names (R10). -/
theorem Raw.ofWords_append {w : BitVec 32} {rest : List (BitVec 32)} (more : List (BitVec 32))
    (h : rest.length + 1 = [1, 3, 3, 5].getD (w.extractLsb' 0 2).toNat 0) :
    Raw.ofWords (w :: (rest ++ more)) = Raw.ofWords (w :: rest) := by
  have hlt : (w.extractLsb' 0 2).toNat < 4 := (w.extractLsb' 0 2).isLt
  simp only [Raw.ofWords, Raw.ofWord0]
  generalize (w.extractLsb' 0 2).toNat = len at h hlt
  match len, hlt, rest, h with
  | 0, _, [], _ => rfl
  | 1, _, [_, _], _ => rfl
  | 2, _, [_, _], _ => rfl
  | 3, _, [_, _, _, _], _ => rfl

theorem Raw.ofWords_of_short {w : BitVec 32} {rest : List (BitVec 32)}
    (h : rest.length + 1 < [1, 3, 3, 5].getD (w.extractLsb' 0 2).toNat 0) : Raw.ofWords (w :: rest) = none := by
  have hlt : (w.extractLsb' 0 2).toNat < 4 := (w.extractLsb' 0 2).isLt
  simp only [Raw.ofWords, Raw.ofWord0]
  generalize (w.extractLsb' 0 2).toNat = len at h hlt
  match len, hlt, rest, h with
  | 1, _, [], _ => rfl
  | 1, _, [_], _ => rfl
  | 2, _, [], _ => rfl
  | 2, _, [_], _ => rfl
  | 3, _, [], _ => rfl
  | 3, _, [_], _ => rfl
  | 3, _, [_, _], _ => rfl
  | 3, _, [_, _, _], _ => rfl

/-- Settles O6: the fields are read from the words that LEN names, by cases on LEN. -/
theorem decodeReadsOnlyItsOwnWords : Obligations.DecodeReadsOnlyItsOwnWords := by
  intro w rest more
  exact ⟨fun h => decodeWords_congr (Raw.ofWords_append more h),
    fun h hne hmaj => decodeWords_of_ofWords_none (Raw.ofWords_of_short h) hne hmaj⟩

/-- Settles O7: the decoder runs on each of the words. -/
theorem decodeWorkedWords : Obligations.DecodeWorkedWords := by
  refine ⟨?_, ?_, ?_, ?_, ?_, ?_, ?_, ?_, ?_, ?_, ?_, ?_, ?_, ?_, ?_⟩ <;> rfl

end Sys2Proof
end

section
/-! PROOF. The reset state, and what memory reads after a write. -/
namespace Sys2Proof.Machine

theorem State.reset_core (c : CoreId) : State.reset.core c = {} := by
  simp [State.reset, State.core]

theorem Core.default_ctx (k : SlotId) : ({} : Core).ctx k = {} := by
  simp [Core.ctx]

/-- Settles O1: every core is the default core, whose vectors hold one value each. -/
theorem resetState : Obligations.ResetState := by
  refine ⟨rfl, rfl, rfl, rfl, rfl, rfl, fun c => ?_⟩
  rw [State.reset_core]
  refine ⟨rfl, fun k => ?_, fun e => ?_, fun i => ?_⟩
  · rw [Core.default_ctx]
  · exact Vector.getElem_replicate e.isLt
  · exact Vector.getElem_replicate i.isLt

/-- Settles O2: the memory of the reset state lists no byte. -/
theorem invariantAtReset : Obligations.InvariantAtReset := rfl

theorem leNat_leBytes (n v : Nat) : leNat (leBytes n v) = v % 2 ^ (8 * n) := by
  induction n generalizing v with
  | zero => simp [leBytes, leNat, Nat.mod_one]
  | succ n ih =>
    have hpow : 2 ^ (8 * (n + 1)) = 256 * 2 ^ (8 * n) := by rw [Nat.mul_succ, Nat.pow_add, Nat.mul_comm]
    simp only [leBytes, leNat, ih, BitVec.toNat_ofNat, hpow, Nat.mod_mul]

/-- Bytes set at distinct addresses are read back at them. -/
theorem Memory.map_get_setAll {m : Memory} {ks : List Nat} {bs : List Byte} (hm : m.wf = true) (hks : ks.Nodup)
    (hlen : ks.length = bs.length) : ks.map (m.setAll (ks.zip bs)).get = bs := by
  induction ks generalizing m bs with
  | nil => exact (List.eq_nil_of_length_eq_zero hlen.symm).symm
  | cons k ks ih =>
    obtain - | ⟨b, bs⟩ := bs
    · simp at hlen
    obtain ⟨hk, hks⟩ := List.nodup_cons.1 hks
    have hset := Memory.set_wf k b hm
    show Memory.get ((m.set k b).setAll (ks.zip bs)) k :: ks.map ((m.set k b).setAll (ks.zip bs)).get = _
    rw [ih hset hks (Nat.succ.inj hlen), Memory.get_setAll_ne _ hset, Memory.get_set_self k b hm]
    rintro ⟨a, b'⟩ hp rfl
    exact hk (List.of_mem_zip hp).1

theorem Memory.get_setAll_of_notMem {m : Memory} {ks : List Nat} (bs : List Byte) {a : Nat} (hm : m.wf = true)
    (ha : a ∉ ks) : (m.setAll (ks.zip bs)).get a = m.get a := by
  refine Memory.get_setAll_ne _ hm ?_
  rintro ⟨k, b⟩ hp rfl
  exact ha (List.of_mem_zip hp).1

theorem State.write_bytesAt {s : State} {ks : List Nat} {bs : List Byte} (self : Option (Nat × Nat))
    (hs : s.mem.wf = true) (hks : ks.Nodup) (hlen : ks.length = bs.length) : (s.write self ks bs).bytesAt ks = bs := by
  rw [State.bytesAt, State.write_mem]
  exact Memory.map_get_setAll hs hks hlen

theorem State.write_get_of_notMem {s : State} {ks : List Nat} {a : Nat} (self : Option (Nat × Nat)) (bs : List Byte)
    (hs : s.mem.wf = true) (ha : a ∉ ks) : (s.write self ks bs).mem.get a = s.mem.get a := by
  rw [State.write_mem]
  exact Memory.get_setAll_of_notMem bs hs ha

/-- Settles O11, by induction on the addresses and on the number of bytes. -/
theorem memoryReadsWhatWasWritten : Obligations.MemoryReadsWhatWasWritten :=
  ⟨fun _ self _ bs hs hks hlen => ⟨State.write_bytesAt self hs hks hlen, State.write_wf self _ bs hs,
    fun _ ha => State.write_get_of_notMem self bs hs ha⟩, leNat_leBytes⟩

end Sys2Proof.Machine
end

section
/-! PROOF. What leaves every byte of memory as it was, in the order of the model. -/

namespace Sys2Proof.Machine

theorem foldl_mem {α : Type} {f : State → α → State} (hf : ∀ s a, (f s a).mem = s.mem) (l : List α) (s : State) :
    (l.foldl f s).mem = s.mem := by
  induction l generalizing s with
  | nil => rfl
  | cons a l ih => rw [List.foldl_cons, ih, hf]

@[simp] theorem State.mem_arrive (s : State) (f : From) (a : Acc) (r : Req) : (s.arrive f a r).mem = s.mem :=
  State.arrive_mem s f a r

/-! ## Ops -/

@[simp] theorem State.countAll_mem (s : State) (c : CoreId) (ks : List Nat) : (s.countAll c ks).mem = s.mem := by
  unfold State.countAll
  split <;> rfl

@[simp] theorem State.modDie_mem (s : State) (d : Nat) (f : DieState → DieState) : (s.modDie d f).mem = s.mem := rfl

@[simp] theorem State.setDir_mem (s : State) (d : Dir) : (s.setDir d).mem = s.mem := rfl

@[simp] theorem State.toHome_mem (s : State) (f : From) (r : Req) (mode : Nat) (lines : List Nat) :
    (s.toHome f r mode lines).mem = s.mem := rfl

@[simp] theorem State.sendSnoops_mem (s : State) (lines : List Nat) (inval : Bool) :
    (s.sendSnoops lines inval).mem = s.mem := rfl

@[simp] theorem State.sendWants_mem (s : State) (part : Nat) (lines : List Nat) (own io : Bool) (core : Option Nat)
    (whole : Bool) : (s.sendWants part lines own io core whole).mem = s.mem := rfl

@[simp] theorem State.walked_mem (s : State) (f : From) (a : Acc) : (s.walked f a).mem = s.mem := by
  unfold State.walked
  split <;> rfl

@[simp] theorem State.rangeArrive_mem (s : State) (r : Req) (lo n : Nat) : (s.rangeArrive r lo n).mem = s.mem := rfl

@[simp] theorem State.comeAgain_mem (s : State) : (s.comeAgain).mem = s.mem := rfl

@[simp] theorem State.poisonGranules_mem (s : State) (gs : List Nat) : (s.poisonGranules gs).mem = s.mem := rfl

@[simp] theorem State.unlink_mem (s : State) (c : CoreId) (k : SlotId) : (s.unlink c k).mem = s.mem := rfl

@[simp] theorem State.ungrant_mem (s : State) (c : Option Nat) : (s.ungrant c).mem = s.mem := rfl

@[simp] theorem State.holdTrap_mem (s : State) (t : TrapInfo) : (s.holdTrap t).mem = s.mem := rfl

@[simp] theorem State.runtimeOnly_mem (s : State) (t : TrapInfo) (pc : Word) : (s.runtimeOnly t pc).mem = s.mem := rfl

/-! ## Flags -/

@[simp] theorem State.result_mem (s : State) (d : Dst) (v : Word) (evs : List Nat) (len : Nat) :
    (s.result d v evs len).mem = s.mem := by simp [State.result]

/-! ## Coherence -/

@[simp] theorem State.noteWrite_mem (s : State) (a : Acc) : (s.noteWrite a).mem = s.mem := rfl

@[simp] theorem State.performAcc_mem (s : State) (a : Acc) (r : Req) : (s.performAcc a r).mem = s.mem := by
  unfold State.performAcc
  dsimp only
  split
  · rw [State.noteWrite_mem, State.arrive_mem]
  · rw [State.arrive_mem]

@[simp] theorem State.modDir_mem (s : State) (f : Dir → Dir) : (s.modDir f).mem = s.mem := rfl

@[simp] theorem State.snoopData_mem (s : State) (k : Nat) : (s.snoopData k).mem = s.mem := by
  unfold State.snoopData
  split <;> rfl

@[simp] theorem State.dropHost_mem (s : State) (k : Nat) : (s.dropHost k).mem = s.mem := rfl

@[simp] theorem State.returnHost_mem (s : State) (k : Nat) : (s.returnHost k).mem = s.mem := by
  unfold State.returnHost
  split <;> simp

@[simp] theorem State.sendTokens_mem (s : State) (t : Releaser) (dies ports : List Nat) :
    (s.sendTokens t dies ports).mem = s.mem := by
  exact foldl_mem (fun _ _ => by rfl) dies s

@[simp] theorem State.emitTokens_mem (s : State) (dies ports : List Nat) :
    (s.emitTokens dies ports).mem = s.mem := by simp [State.emitTokens]

@[simp] theorem State.acquired_mem (s : State) (sc : Scope) : (s.acquired sc).mem = s.mem := by
  unfold State.acquired
  split <;> rfl

/-! ## Registers -/

@[simp] theorem State.ckptGo_mem (s : State) (mode : Mode) (pmask : Byte) : (s.ckptGo mode pmask).mem = s.mem := by
  unfold State.ckptGo
  split <;> rfl

@[simp] theorem State.writeCkptCtl_mem (s : State) (mode : Mode) (v : Word) : (s.writeCkptCtl mode v).mem = s.mem := by
  unfold State.writeCkptCtl
  split <;> simp

@[simp] theorem State.refuse_mem (s : State) : (s.refuse).mem = s.mem := rfl

@[simp] theorem State.writeCkptDst_mem (s : State) (mode : Mode) (v : Word) : (s.writeCkptDst mode v).mem = s.mem := by
  unfold State.writeCkptDst
  split <;> rfl

/-! ## Layout -/

@[simp] theorem State.acceptJob_mem (s : State) (c : CoreId) (rec : List Byte) (slot : Option SlotId)
    (ref : Option SymRef) (region : Option (Fin 16)) : (s.acceptJob c rec slot ref region).mem = s.mem := rfl

@[simp] theorem State.startCopy_mem (s : State) (c : CoreId) (i : Fin 16) : (s.startCopy c i).mem = s.mem := rfl

/-! ## Access -/

@[simp] theorem State.setTag_mem (s : State) (g tag : Nat) : (s.setTag g tag).mem = s.mem := rfl

@[simp] theorem State.meetClock_mem (s : State) : (s.meetClock).mem = s.mem := rfl

@[simp] theorem State.raise_mem (s : State) (c : Nat) (v : Word) : (s.raise c v).mem = s.mem := rfl

/-! ## Atomics -/

@[simp] theorem State.addPartial_mem (s : State) (a : Acc) (r : Req) (n v : Nat) : (s.addPartial a r n v).mem = s.mem := by
  unfold State.addPartial
  repeat' split
  all_goals simp

@[simp] theorem State.focus_mem (s : State) (c : CoreId) (k : SlotId) : (s.focus c k).mem = s.mem := rfl

/-! ## Buffers -/

@[simp] theorem State.declareTile_mem (s : State) (va : Word) (lines : List Nat) :
    (s.declareTile va lines).mem = s.mem := rfl

@[simp] theorem State.claim_mem (s : State) (lines : List Nat) : (s.claim lines).mem = s.mem := rfl

@[simp] theorem State.pushAt_mem (s : State) (ea : Word) (key die : Nat) : (s.pushAt ea key die).mem = s.mem := by
  unfold State.pushAt
  split <;> rfl

@[simp] theorem State.prefetch_mem (l2 : Bool) (s : State) (a : Acc) : (State.prefetch l2 s a).mem = s.mem := by
  unfold State.prefetch
  split
  · split
    · rfl
    · exact State.arrive_mem s _ _ _
  · rfl

@[simp] theorem State.writeLineBack_mem (s : State) (a : Acc) : (s.writeLineBack a).mem = s.mem := by
  unfold State.writeLineBack
  dsimp only
  repeat' split
  all_goals simp

/-! ## Messages -/

@[simp] theorem State.sendMessage_mem (s : State) (c : CoreId) (ch : Fin 16) : (s.sendMessage c ch).mem = s.mem := by
  unfold State.sendMessage
  dsimp only
  repeat' split
  all_goals simp

@[simp] theorem State.arriveMessage_mem (s : State) (c : CoreId) (ch : Fin 16) (bad : Bool) :
    (s.arriveMessage c ch bad).mem = s.mem := by
  unfold State.arriveMessage
  dsimp only
  repeat' split
  all_goals simp

@[simp] theorem State.takeMessage_mem (s : State) (c : CoreId) (p : Fin 16 × Message) :
    (s.takeMessage c p).mem = s.mem := by simp [State.takeMessage]

/-! ## Drill -/

@[simp] theorem State.jobStart_mem (s : State) (c : CoreId) : (s.jobStart c).mem = s.mem := by
  unfold State.jobStart
  dsimp only
  repeat' split
  all_goals simp

@[simp] theorem State.engineArrive_mem (s : State) (f : From) (as : List Acc) (r : Req) :
    (s.engineArrive f as r).mem = s.mem := by
  unfold State.engineArrive
  dsimp only
  split <;> exact foldl_mem (fun t a => State.arrive_mem t f a r) as s

@[simp] theorem State.jobPhase_mem (s : State) (c : CoreId) (p : JobPhase) : (s.jobPhase c p).mem = s.mem := rfl

@[simp] theorem State.jobRefused_mem (s : State) (c : CoreId) (e : AccErr) : (s.jobRefused c e).mem = s.mem := by
  unfold State.jobRefused
  split <;> rfl

@[simp] theorem State.settleTouch_mem (s : State) (c : CoreId) (l : Launch) (i : Fin 16) (failed : Option Word) :
    (s.settleTouch c l i failed).mem = s.mem := rfl

/-! ## HarrowCmd -/

@[simp] theorem State.modHarrow_mem (s : State) (c : CoreId) (f : Harrow → Harrow) : (s.modHarrow c f).mem = s.mem := rfl

/-! ## Homes -/

@[simp] theorem State.homeRequest_mem (s : State) (d : DieId) (clu : Fin 16) (key mode : Nat) (r : Req) :
    (s.homeRequest d clu key mode r).mem = s.mem := by
  unfold State.homeRequest
  split
  · rfl
  · dsimp only
    split
    · exact State.demand_mem ‹_›
    · split
      · rfl
      · rw [State.arrive_mem]
        split
        · exact State.keepCut_mem s _
        · rfl

@[simp] theorem State.partialDrain_mem (s : State) (d : DieId) (clu : Fin 16) (key : Nat) :
    (s.partialDrain d clu key).mem = s.mem := by
  unfold State.partialDrain
  dsimp only
  split <;> rfl

@[simp] theorem State.evictLine_mem (s : State) (d : DieId) (clu : Fin 16) (key : Nat) :
    (s.evictLine d clu key).mem = s.mem := by
  unfold State.evictLine
  dsimp only
  repeat' split
  all_goals simp

@[simp] theorem State.clearPages_mem (s : State) (d : DieId) : (s.clearPages d).mem = s.mem := rfl

@[simp] theorem State.acknowledged_mem (s : State) (t : Releaser) : (s.acknowledged t).mem = s.mem := by
  unfold State.acknowledged
  split <;> rfl

@[simp] theorem State.releaseAck_mem (s : State) (d : DieId) : (s.releaseAck d).mem = s.mem := by
  unfold State.releaseAck
  split
  · rfl
  · split <;> simp

@[simp] theorem State.acquireReturn_mem (s : State) (d : DieId) : (s.acquireReturn d).mem = s.mem := by
  unfold State.acquireReturn
  split
  · rfl
  · split <;> rfl

@[simp] theorem State.hostReads_mem (s : State) (p pa n : Nat) : (s.hostReads p pa n).mem = s.mem := by
  unfold State.hostReads
  split <;> rfl

@[simp] theorem State.snpData_mem (s : State) (k : Nat) : (s.snpData k).mem = s.mem := by
  unfold State.snpData
  split <;> simp

@[simp] theorem State.takeSnoop_mem (s : State) (k : Nat) (w : HostSnoop) : (s.takeSnoop k w).mem = s.mem := by
  unfold State.takeSnoop
  split <;> simp

@[simp] theorem State.hostSnoop_mem (s : State) (k : Nat) (w : HostSnoop) : (s.hostSnoop k w).mem = s.mem := by
  unfold State.hostSnoop
  repeat' split
  all_goals simp

@[simp] theorem State.grantWhole_mem (s : State) (k : Nat) : (s.grantWhole k).mem = s.mem := rfl

@[simp] theorem State.flushed_mem (s : State) (port : Nat) : (s.flushed port).mem = s.mem := by
  unfold State.flushed
  repeat' split
  all_goals simp

@[simp] theorem State.poisonWant_mem (s : State) (w : HostReq) : (s.poisonWant w).mem = s.mem := rfl

@[simp] theorem State.poisonSnoop_mem (s : State) (w : Snoop) : (s.poisonSnoop w).mem = s.mem := by
  unfold State.poisonSnoop
  split <;> rfl

@[simp] theorem State.dropPort_mem (s : State) (p : Nat) (io : Bool) : (s.dropPort p io).mem = s.mem := by
  simp only [State.dropPort, foldl_mem State.flushed_mem, foldl_mem State.poisonSnoop_mem, foldl_mem State.poisonWant_mem]

@[simp] theorem State.portDown_mem (s : State) (p : Fin 2) : (s.portDown p).mem = s.mem := by
  unfold State.portDown
  split <;> simp

/-! ## Links -/

@[simp] theorem State.readLink_mem (s : State) (r : RegRead) : (s.readLink r).mem = s.mem := by
  unfold State.readLink
  split <;> rfl

@[simp] theorem State.synchronise_mem (s : State) (tai : Nat) (bound : BitVec 32) :
    (s.synchronise tai bound).mem = s.mem := by
  unfold State.synchronise
  repeat' split
  all_goals simp

@[simp] theorem State.announce_mem (s : State) (p : Nat) (rank : Option Nat) : (s.announce p rank).mem = s.mem := rfl

@[simp] theorem State.ptp_mem (s : State) (m : PtpMsg) (bound : BitVec 32) : (s.ptp m bound).mem = s.mem := by
  unfold State.ptp
  repeat' split
  all_goals simp

@[simp] theorem State.holdover_mem (s : State) (ms : Nat) : (s.holdover ms).mem = s.mem := by
  unfold State.holdover
  split <;> rfl

@[simp] theorem State.freeRun_mem (s : State) : (s.freeRun).mem = s.mem := by
  unfold State.freeRun
  split <;> rfl

@[simp] theorem State.refreshTime_mem (s : State) (dt : Nat) (skew : List ℤ) : (s.refreshTime dt skew).mem = s.mem := by
  unfold State.refreshTime
  split <;> rfl

/-! ## Torus -/

@[simp] theorem State.barrierDone_mem (s : State) (cs : List CoreId) (g : Nat) : (s.barrierDone cs g).mem = s.mem := by
  unfold State.barrierDone
  split
  · refine foldl_mem (fun t c => ?_) cs s
    split <;> rfl
  · rfl

@[simp] theorem State.landTorus_mem (s : State) (c : CoreId) (dir : Sys2Proof.Dir) : (s.landTorus c dir).mem = s.mem := by
  unfold State.landTorus
  split <;> rfl

/-! ## Sower -/

@[simp] theorem State.modSower_mem (s : State) (f : Sower → Sower) : (s.modSower f).mem = s.mem := rfl

@[simp] theorem State.fireMet_mem (s : State) : (s.fireMet).mem = s.mem := rfl

@[simp] theorem State.fire_mem (s : State) (h : Nat) : (s.fire h).mem = s.mem := by
  unfold State.fire
  dsimp only
  repeat' split
  all_goals simp

@[simp] theorem State.raiseFor_mem (s : State) (c : Comm) (k : Option Nat) (n : Nat) : (s.raiseFor c k n).mem = s.mem := by
  unfold State.raiseFor
  repeat' split
  all_goals simp

@[simp] theorem State.finishEntry_mem (s : State) (e : Entry) (c : Comm) :
    (s.finishEntry e c).mem = s.mem := by simp [State.finishEntry]

@[simp] theorem State.waitEntry_mem (s : State) (h : Nat) : (s.waitEntry h).mem = s.mem := by
  unfold State.waitEntry
  split <;> simp

@[simp] theorem State.commFault_mem (s : State) (c : Comm) (k : Cause) (h : Nat) (a : Word) :
    (s.commFault c k h a).mem = s.mem := rfl

@[simp] theorem State.abandon_mem (s : State) : (s.abandon).mem = s.mem := rfl

@[simp] theorem State.failComm_mem (s : State) (c : Comm) (f : Nat × Nat × Word) : (s.failComm c f).mem = s.mem := by
  unfold State.failComm
  dsimp only
  split <;> rfl

@[simp] theorem State.commFails_mem (s : State) (cm : Nat) : (s.commFails cm).mem = s.mem := by
  unfold State.commFails
  repeat' split
  all_goals simp

@[simp] theorem State.noticeArrives_mem (s : State) (cm cause : Nat) : (s.noticeArrives cm cause).mem = s.mem := by
  unfold State.noticeArrives
  dsimp only
  repeat' split
  all_goals simp

@[simp] theorem State.createComm_mem (s : State) (p : CommSpec) : (s.createComm p).mem = s.mem := by
  unfold State.createComm
  repeat' split
  all_goals simp

/-! ## SowerMove -/

@[simp] theorem State.startXfer_mem (s : State) (h : Nat) (x : Xfer) : (s.startXfer h x).mem = s.mem := rfl

@[simp] theorem State.beginEntry_mem (s : State) (h op : Nat) (mk : ERec → Comm → Xfer) :
    (s.beginEntry h op mk).mem = s.mem := by
  unfold State.beginEntry
  split <;> rfl

@[simp] theorem State.grantSlot_mem (s : State) (t : Nat) : (s.grantSlot t).mem = s.mem := by
  unfold State.grantSlot
  dsimp only
  repeat' split
  all_goals simp

@[simp] theorem State.served_mem (s : State) (ids : List Nat) (out : Nat) (x : Xfer) (c : Comm) :
    (s.served ids out x c).mem = s.mem := rfl

@[simp] theorem State.raiseChunk_mem (s : State) (x : Xfer) (c : Comm) : (s.raiseChunk x c).mem = s.mem := by
  unfold State.raiseChunk
  repeat' split
  all_goals simp

@[simp] theorem State.sendTo_mem (s : State) (c : Comm) (x : Xfer) (r out : Nat) (m : SMsg) :
    (s.sendTo c x r out m).mem = s.mem := by
  unfold State.sendTo
  repeat' split
  all_goals simp

@[simp] theorem State.passOn_mem (s : State) (c : Comm) (src d n : Nat) (m : SMsg) : (s.passOn c src d n m).mem = s.mem := by
  unfold State.passOn
  split <;> rfl

@[simp] theorem State.chunkFrom_mem (s : State) (c : Comm) (src : Nat) (m : ChunkMsg) :
    (s.chunkFrom c src m).mem = s.mem := by
  unfold State.chunkFrom
  repeat' split
  all_goals simp

@[simp] theorem State.putDone_mem (s : State) (t n : Nat) (last : Bool) : (s.putDone t n last).mem = s.mem := by
  unfold State.putDone
  dsimp only
  repeat' split
  all_goals simp

@[simp] theorem State.acknowledgePut_mem (s : State) (h : Nat) : (s.acknowledgePut h).mem = s.mem := by
  unfold State.acknowledgePut
  repeat' split
  all_goals simp

@[simp] theorem State.entryCompletes_mem (s : State) (h : Nat) : (s.entryCompletes h).mem = s.mem := by
  unfold State.entryCompletes
  dsimp only
  repeat' split
  all_goals simp

@[simp] theorem State.chunkLost_mem (s : State) (cm h : Nat) : (s.chunkLost cm h).mem = s.mem := by
  unfold State.chunkLost
  split <;> rfl

@[simp] theorem State.ongeozPortDown_mem (s : State) (p : Nat) (lost : List (Nat × Nat)) :
    (s.ongeozPortDown p lost).mem = s.mem := by simp [State.ongeozPortDown, foldl_mem]

/-! ## Queues -/

@[simp] theorem State.modQueue_mem (s : State) (q : Nat) (f : WQueue → WQueue) : (s.modQueue q f).mem = s.mem := by
  unfold State.modQueue
  split <;> rfl

@[simp] theorem State.qCtlWrite_mem (s : State) (q : Nat) (v : Word) : (s.qCtlWrite q v).mem = s.mem := by
  unfold State.qCtlWrite
  split <;> simp

@[simp] theorem State.doorbell_mem (s : State) (q : Nat) (tail : BitVec 32) : (s.doorbell q tail).mem = s.mem := by
  unfold State.doorbell
  split <;> simp

@[simp] theorem State.pageWrite_mem (s : State) (p q off n : Nat) (v : Word) : (s.pageWrite p q off n v).mem = s.mem := by
  unfold State.pageWrite
  repeat' split
  all_goals simp

@[simp] theorem State.barRead_mem (s : State) (p a n : Nat) : (s.barRead p a n).mem = s.mem := by
  unfold State.barRead
  split <;> rfl

@[simp] theorem State.barWrite_mem (s : State) (p a : Nat) (data : List Byte) : (s.barWrite p a data).mem = s.mem := by
  unfold State.barWrite
  split <;> simp

@[simp] theorem State.passEntry_mem (s : State) (q : Nat) : (s.passEntry q).mem = s.mem := by simp [State.passEntry]

@[simp] theorem State.report_mem (s : State) (q : Nat) (r : CqRec) : (s.report q r).mem = s.mem := by simp [State.report]

/-! ## System -/

@[simp] theorem State.setSymRes_mem (s : State) (v : Word) : (s.setSymRes v).mem = s.mem := by
  unfold State.setSymRes
  dsimp only
  generalize s.myCore.syms.get s.me.selSym = r
  cases r <;> simp only [State.modMe_mem, State.modCore_mem]

@[simp] theorem State.setCreg_mem (s : State) (r : CReg) (v : Word) : (s.setCreg r v).mem = s.mem := by
  unfold State.setCreg
  repeat' split
  all_goals simp

@[simp] theorem State.serviceTags_mem (s : State) (part : Nat) (tags : List (Nat × Nat)) :
    (s.serviceTags part tags).mem = s.mem := by
  refine foldl_mem (fun t x => ?_) tags s
  split
  · exact (State.setTag_mem _ _ _).trans (State.keepCut_mem t _)
  · rfl

@[simp] theorem State.debuggerResume_mem (s : State) (c : CoreId) (k : SlotId) (ends : Bool) :
    (s.debuggerResume c k ends).mem = s.mem := by
  unfold State.debuggerResume
  repeat' split
  all_goals simp

@[simp] theorem State.toRuntime_mem (s : State) (a : AsyncRep) (c : CoreId) (x : Core) :
    (s.toRuntime a c x).mem = s.mem := rfl

@[simp] theorem State.flushAsyncs_mem (s : State) (part id : Nat) : (s.flushAsyncs part id).mem = s.mem := by
  refine foldl_mem (fun t a => ?_) _ _
  split <;> rfl

@[simp] theorem State.askFetch_mem (s : State) (c : CoreId) : (s.askFetch c).mem = s.mem := by
  unfold State.askFetch
  dsimp only
  repeat' split
  all_goals simp

@[simp] theorem State.portDone_mem (s : State) (cs : List CoreId) (b : Option FetchBlock) :
    (s.portDone cs b).mem = s.mem := by
  exact foldl_mem (fun _ _ => by rfl) cs s

@[simp] theorem State.portPassed_mem (s : State) (cl : Nat) (c : CoreId) : (s.portPassed cl c).mem = s.mem := rfl

@[simp] theorem State.fetchServe_mem (s : State) (cl : Nat) : (s.fetchServe cl).mem = s.mem := by
  unfold State.fetchServe
  split
  · rfl
  · dsimp only
    split
    · simp
    · simp
    · split
      · rw [State.demand_mem ‹_›, State.portPassed_mem]
      · simp [State.arrive_mem]

/-! ## Harrow -/

@[simp] theorem State.hSettle_mem (s : State) (c : CoreId) (h : HRun) (done : Bool) : (s.hSettle c h done).mem = s.mem := rfl

@[simp] theorem State.pushFlight_mem (s : State) (c dst : CoreId) (m : HFlight) : (s.pushFlight c dst m).mem = s.mem := rfl

@[simp] theorem State.bankArrives_mem (s : State) (c : CoreId) (bad : Bool) : (s.bankArrives c bad).mem = s.mem := by
  unfold State.bankArrives
  dsimp only
  repeat' split
  all_goals simp

@[simp] theorem State.spoilRange_mem (s : State) (c : CoreId) (l : Launch) (w : Win) (off n : Nat) :
    (s.spoilRange c l w off n).mem = s.mem := by
  unfold State.spoilRange
  split <;> rfl

@[simp] theorem State.harrowHalt_mem (s : State) (c : CoreId) (status : Nat) : (s.harrowHalt c status).mem = s.mem := by
  exact foldl_mem (fun _ _ => by rfl) _ _

@[simp] theorem State.harrowComplete_mem (s : State) (c : CoreId) : (s.harrowComplete c).mem = s.mem := by
  unfold State.harrowComplete
  split <;> rfl

/-! ## Launches -/

@[simp] theorem State.refreshDue_mem (s : State) : (s.refreshDue).mem = s.mem := rfl

@[simp] theorem State.dropLinks_mem (s : State) (cores : List Nat) : (s.dropLinks cores).mem = s.mem := rfl

@[simp] theorem State.demoteTiles_mem (s : State) (l : Launch) : (s.demoteTiles l).mem = s.mem := rfl

@[simp] theorem State.turned_mem (s : State) (l : Launch) : (s.turned l).mem = s.mem := rfl

@[simp] theorem State.startControl_mem (s : State) (l : Launch) (c : Nat) : (s.startControl l c).mem = s.mem := rfl

/-! ## Preempt -/

@[simp] theorem State.takeBack_mem (s : State) (c : CoreId) : (s.takeBack c).mem = s.mem := by
  refine foldl_mem (fun t m => ?_) _ s
  split <;> rfl

@[simp] theorem State.mergeHeld_mem (s : State) (l : Launch) : (s.mergeHeld l).mem = s.mem := rfl

@[simp] theorem State.stopCore_mem (s : State) (c : CoreId) : (s.stopCore c).mem = s.mem := by simp [State.stopCore]

@[simp] theorem State.beginStop_mem (s : State) (l : Launch) : (s.beginStop l).mem = s.mem := rfl

@[simp] theorem State.timeFrom_mem (s : State) (c : CoreId) (t : Nat) : (s.timeFrom c t).mem = s.mem := rfl

@[simp] theorem State.resendBanks_mem (s : State) (c : CoreId) : (s.resendBanks c).mem = s.mem := by
  refine foldl_mem (fun t r => ?_) _ s
  split <;> rfl

/-! ## Ras -/

@[simp] theorem State.countUe_mem (s : State) (d kind : Nat) (key : Option Nat) : (s.countUe d kind key).mem = s.mem := rfl

@[simp] theorem State.quarantineOne_mem (s : State) (kind n : Nat) : (s.quarantineOne kind n).mem = s.mem := by
  unfold State.quarantineOne
  split <;> rfl

@[simp] theorem State.quarantine_mem (kind : Nat) (s : State) (key : Nat) : (State.quarantine kind s key).mem = s.mem := by
  unfold State.quarantine
  dsimp only
  repeat' split
  all_goals simp [foldl_mem]

@[simp] theorem State.reportLost_mem (s : State) (c : CoreId) (a : AsyncRep) : (s.reportLost c a).mem = s.mem := by
  unfold State.reportLost
  split <;> rfl

@[simp] theorem State.reportWriter_mem (s : State) (w : Writer) : (s.reportWriter w).mem = s.mem := by
  unfold State.reportWriter
  repeat' split
  all_goals simp

@[simp] theorem State.loseFlit_mem (s : State) (d kind : Nat) (lines : List Nat) (writers : List Writer) :
    (s.loseFlit d kind lines writers).mem = s.mem := by
  simp only [State.loseFlit, foldl_mem State.reportWriter_mem, foldl_mem State.poisonWant_mem,
    foldl_mem (fun t l => State.quarantine_mem kind t l), State.countUe_mem]

@[simp] theorem State.loseData_mem (s : State) (d : Nat) (granules : List Nat) : (s.loseData d granules).mem = s.mem := by
  unfold State.loseData
  split <;> rfl

@[simp] theorem State.flitLoss_mem (s : State) (d : Nat) (x : FlitLoss) (writers : List Writer) :
    (s.flitLoss d x writers).mem = s.mem := by
  unfold State.flitLoss
  dsimp only
  split <;> simp

@[simp] theorem State.dropTokens_mem (s : State) (d : Nat) : (s.dropTokens d).mem = s.mem := by
  show (List.foldl _ _ _ : State).mem = _
  rw [foldl_mem fun _ _ => by rfl, foldl_mem State.acknowledged_mem]

@[simp] theorem State.loseLoads_mem (s : State) (d : Nat) : (s.loseLoads d).mem = s.mem := rfl

@[simp] theorem State.scrub_mem (s : State) (d : DieId) (key : Nat) (r : ScrubResult) : (s.scrub d key r).mem = s.mem := by
  unfold State.scrub
  split
  · rfl
  · cases r <;> simp

@[simp] theorem State.readRas_mem (s : State) (r : RegRead) : (s.readRas r).mem = s.mem := by
  unfold State.readRas
  split <;> rfl

@[simp] theorem State.writeBack_mem (s : State) : (s.writeBack).mem = s.mem := rfl

@[simp] theorem State.ckptCut_mem (s : State) : (s.ckptCut).mem = s.mem := by
  unfold State.ckptCut
  repeat' split
  all_goals simp

@[simp] theorem State.pageTaken_mem (s : State) (pg : Nat) : (s.pageTaken pg).mem = s.mem := by
  unfold State.pageTaken
  split <;> rfl

@[simp] theorem State.rootOnly_mem (s : State) (mode : Mode) : (s.rootOnly mode).mem = s.mem := by
  unfold State.rootOnly
  split <;> rfl

@[simp] theorem State.writeRegister_mem (s : State) (r : DevReg) (mode : Mode) (v : Word) :
    (s.writeRegister r mode v).mem = s.mem := by
  unfold State.writeRegister
  repeat' split
  all_goals simp

/-! ## Firmware -/

@[simp] theorem State.measureConfig_mem (s : State) : (s.measureConfig).mem = s.mem := rfl

@[simp] theorem State.raiseMinimum_mem (s : State) : (s.raiseMinimum).mem = s.mem := by
  unfold State.raiseMinimum
  split <;> rfl

@[simp] theorem State.attest_mem (s : State) (nonce : List Byte) : (s.attest nonce).mem = s.mem := by
  unfold State.attest
  split <;> rfl

@[simp] theorem State.setRoot_mem (s : State) (space p root : Nat) : (s.setRoot space p root).mem = s.mem := by
  unfold State.setRoot
  repeat' split
  all_goals simp

@[simp] theorem State.setMode_mem (s : State) (pm : PartMode) : (s.setMode pm).mem = s.mem := by
  unfold State.setMode
  dsimp only
  repeat' split
  all_goals simp [foldl_mem]

/-! ## Fetch -/

@[simp] theorem State.onto_mem (s : State) (c : CoreId) (k : SlotId) : (s.onto c k).mem = s.mem := rfl

/-! ## Auto -/

@[simp] theorem State.touchAhead_mem (s : State) (c : CoreId) (k : SlotId) : (s.touchAhead c k).mem = s.mem := by
  unfold State.touchAhead
  split <;> rfl

/-! ## Schedule -/

@[simp] theorem State.beginTurn_mem (s : State) (c : CoreId) : (s.beginTurn c).mem = s.mem := by simp [State.beginTurn]

@[simp] theorem State.nextRound_mem (s : State) : (s.nextRound).mem = s.mem := rfl

@[simp] theorem State.passTurn_mem (s : State) (c : CoreId) : (s.passTurn c).mem = s.mem := by
  unfold State.passTurn
  split <;> rfl

end Sys2Proof.Machine
end

section
/-! PROOF. What the model writes keeps memory in its canonical form, and so do the states that a stop carries. -/

namespace Sys2Proof.Machine

/-! ## What holds of an answer -/

/-- E holds of how a computation stops, or A of the value it answers. -/
def Ends {ε α : Type} (E : ε → Prop) (A : α → Prop) (r : Except ε α) : Prop :=
  match r with
  | .ok a => A a
  | .error e => E e

section Ends

variable {ε α β : Type} {E : ε → Prop} {A : α → Prop} {B : β → Prop}

@[simp] theorem ends_ok {a : α} : Ends E A (.ok a) ↔ A a := Iff.rfl

@[simp] theorem ends_error {e : ε} : Ends E A (.error e) ↔ E e := Iff.rfl

theorem Ends.bind {r : Except ε α} {f : α → Except ε β} (hr : Ends E A r) (hf : ∀ a, A a → Ends E B (f a)) :
    Ends E B (r >>= f) := by
  cases r with
  | ok a => exact hf a hr
  | error e => exact hr

theorem Ends.mono {A' : α → Prop} {r : Except ε α} (hr : Ends E A r) (h : ∀ a, A a → A' a) : Ends E A' r := by
  cases r with
  | ok a => exact h a hr
  | error e => exact hr

theorem Ends.of_ok {r : Except ε α} {a : α} (hr : Ends E A r) (h : r = .ok a) : A a := by rwa [h] at hr

theorem Ends.of_error {r : Except ε α} {e : ε} (hr : Ends E A r) (h : r = .error e) : E e := by rwa [h] at hr

theorem Ends.foldlM {f : β → α → Except ε β} (hf : ∀ b a, B b → Ends E B (f b a)) (l : List α) {b : β} (hb : B b) :
    Ends E B (l.foldlM f b) := by
  induction l generalizing b with
  | nil => exact hb
  | cons a l ih => exact (hf b a hb).bind fun b hb => ih hb

theorem Ends.mapM {γ : Type} {f : γ → Except ε β} (hf : ∀ a, Ends E (fun _ => True) (f a)) (l : List γ) :
    Ends E (fun _ => True) (l.mapM f) := by
  induction l with
  | nil => trivial
  | cons a l ih =>
    rw [List.mapM_cons]
    exact (hf a).bind fun _ _ => ih.bind fun _ _ => trivial

theorem Ends.ite_bind {c : Prop} [Decidable c] {x y : Except ε α} {f : α → Except ε β}
    (hxy : Ends E A (if c then x else y)) (hf : ∀ a, A a → Ends E B (f a)) :
    Ends E B (if c then x >>= f else y >>= f) := by
  split
  · exact Ends.bind (by rwa [if_pos ‹c›] at hxy) hf
  · exact Ends.bind (by rwa [if_neg ‹¬c›] at hxy) hf

theorem Ends.ite_then {c : Prop} [Decidable c] {x : Except ε α} {y : Except ε β} (hx : Ends E (fun _ => True) x)
    (hy : Ends E B y) : Ends E B (if c then x >>= fun _ => y else y) := by
  split
  · exact hx.bind fun _ _ => hy
  · exact hy

end Ends

/-- The states that a stop carries have memory in its canonical form. -/
def Stop.Canon : Stop → Prop
  | .trapAt _ s => s.mem.wf = true
  | .touch s => s.mem.wf = true
  | .hold s _ => s.mem.wf = true
  | _ => True

@[simp] theorem Stop.canon_trap (t : TrapInfo) : (Stop.trap t).Canon := trivial
@[simp] theorem Stop.canon_wait : Stop.wait.Canon := trivial
@[simp] theorem Stop.canon_sleep : Stop.sleep.Canon := trivial
@[simp] theorem Stop.canon_trapAt (t : TrapInfo) (s : State) : (Stop.trapAt t s).Canon ↔ s.mem.wf = true := Iff.rfl
@[simp] theorem Stop.canon_touch (s : State) : (Stop.touch s).Canon ↔ s.mem.wf = true := Iff.rfl
@[simp] theorem Stop.canon_hold (s : State) (r : Run) : (Stop.hold s r).Canon ↔ s.mem.wf = true := Iff.rfl

/-- The state that a stopped step of the sower carries has memory in its canonical form. -/
def SStop.Canon : SStop → Prop
  | .wait s => s.mem.wf = true
  | .fail .. => True

@[simp] theorem SStop.canon_wait (s : State) : (SStop.wait s).Canon ↔ s.mem.wf = true := Iff.rfl
@[simp] theorem SStop.canon_fail (k : Cause) (a : Word) : (SStop.fail k a).Canon := trivial

/-- The state that a stopped matrix command carries has memory in its canonical form. -/
def HStop.Canon : HStop → Prop
  | .wait s => s.mem.wf = true
  | .hold s _ => s.mem.wf = true
  | .fail .. => True

@[simp] theorem HStop.canon_wait (s : State) : (HStop.wait s).Canon ↔ s.mem.wf = true := Iff.rfl
@[simp] theorem HStop.canon_hold (s : State) (h : HRun) : (HStop.hold s h).Canon ↔ s.mem.wf = true := Iff.rfl
@[simp] theorem HStop.canon_fail (n a : Nat) : (HStop.fail n a).Canon := trivial

theorem foldl_wf {α : Type} {f : State → α → State} (hf : ∀ s a, s.mem.wf = true → (f s a).mem.wf = true) (l : List α)
    {s : State} (h : s.mem.wf = true) : (l.foldl f s).mem.wf = true := by
  induction l generalizing s with
  | nil => exact h
  | cons a l ih => exact ih (hf s a h)

section
variable {α : Type} {A : α → Prop}
@[simp] theorem trap_wf {c : Cause} {a : Word} : Ends Stop.Canon A (trap c a) := trivial
@[simp] theorem wait_wf : Ends Stop.Canon A wait := trivial
@[simp] theorem hFail_wf {n a : Nat} : Ends HStop.Canon A (hFail n a) := trivial
@[simp] theorem sFail_wf {k : Cause} {a : Word} : Ends SStop.Canon A (sFail k a) := trivial
@[simp] theorem hWait_wf {s : State} (h : s.mem.wf = true) : Ends HStop.Canon A (hWait s) := h
end
theorem State.wf_of_mem_eq {s t : State} (ht : t.mem = s.mem) (h : s.mem.wf = true) : t.mem.wf = true := by rwa [ht]

@[simp] theorem State.canon_write {s : State} {self : Option (Nat × Nat)} {ks : List Nat} {bs : List Byte}
    (h : s.mem.wf = true) : (s.write self ks bs).mem.wf = true := State.write_wf self ks bs h

@[simp] theorem State.canon_engineWrite {s : State} {ks : List Nat} {bs : List Byte} {bad : List Bool}
    (h : s.mem.wf = true) : (s.engineWrite ks bs bad).mem.wf = true := State.engineWrite_wf ks bs bad h

@[simp] theorem State.canon_writeAcc {s : State} {a : Acc} {n v : Nat} (h : s.mem.wf = true) :
    (s.writeAcc a n v).mem.wf = true := State.writeAcc_wf a n v h

@[simp] theorem State.canon_putRecord {s : State} {a : Acc} {bs : List Byte} (h : s.mem.wf = true) :
    (s.putRecord a bs).mem.wf = true := State.putRecord_wf a bs h

@[simp] theorem State.canon_takeTrap {s : State} {t : TrapInfo} (h : s.mem.wf = true) :
    (s.takeTrap t).mem.wf = true := State.takeTrap_wf t h

theorem State.canon_of_wait {α : Type} {A : α → Prop} {r : SRes α} {t : State} (hr : Ends SStop.Canon A r)
    (h : r = .error (.wait t)) : t.mem.wf = true := hr.of_error h


/-! ### Ops -/

@[simp] theorem check_wf {ok : Bool} {c : Cause} {addr : Word} : Ends Stop.Canon (fun _ => True) (check ok c addr) := by
  unfold check
  split
  · trivial
  · exact trap_wf

@[simp] theorem waitFor_wf {ok : Bool} : Ends Stop.Canon (fun _ => True) (waitFor ok) := by
  unfold waitFor
  split
  · trivial
  · exact wait_wf

@[simp] theorem State.need_wf {s : State} {rs : List Reg} : Ends Stop.Canon (fun _ => True) (s.need rs) := by
  unfold State.need
  split
  · trivial
  · split
    · trivial
    · exact wait_wf

@[simp] theorem State.use1_wf {s : State} {lit : Word} {x : Src} : Ends Stop.Canon (fun _ => True) (s.use1 lit x) := by
  unfold State.use1
  dsimp only
  refine State.need_wf.bind fun _ _ => ?_
  trivial

@[simp] theorem State.use2_wf {s : State} {lit : Word} {x y : Src} :
    Ends Stop.Canon (fun _ => True) (s.use2 lit x y) := by
  unfold State.use2
  dsimp only
  refine State.need_wf.bind fun _ _ => ?_
  trivial

@[simp] theorem State.use3_wf {s : State} {lit : Word} {x y z : Src} :
    Ends Stop.Canon (fun _ => True) (s.use3 lit x y z) := by
  unfold State.use3
  dsimp only
  refine State.need_wf.bind fun _ _ => ?_
  trivial

@[simp] theorem State.alloc_wf {s : State} (h : s.mem.wf = true) :
    Ends Stop.Canon (fun p => p.1.mem.wf = true) s.alloc := by
  unfold State.alloc
  dsimp only
  split
  · trivial
  · split
    · exact wait_wf
    · exact trap_wf

@[simp] theorem State.symGate_wf {s : State} : Ends Stop.Canon (fun _ => True) s.symGate := by
  unfold State.symGate
  split
  · trivial
  · split
    · exact wait_wf
    · exact trap_wf

theorem State.rangeDemand_mem {s t : State} {r : Req} {lo n : Nat} (h : s.rangeDemand r lo n = some t) :
    t.mem = s.mem := by
  unfold State.rangeDemand at h
  split at h
  · cases h; rfl
  · dsimp only at h
    split at h
    · cases h
    · cases h; rfl

@[simp] theorem State.walkWait_wf {α : Type} {A : α → Prop} {s : State} {n : Nat} (h : s.mem.wf = true) :
    Ends Stop.Canon A (s.walkWait n) := by
  unfold State.walkWait
  split
  · trivial
  · exact h

@[simp] theorem State.precise_wf {α : Type} {s : State} {r : Except AccErr α} (h : s.mem.wf = true) :
    Ends Stop.Canon (fun _ => True) (s.precise r) := by
  unfold State.precise
  split
  · trivial
  · trivial
  · trivial
  · exact State.walkWait_wf h

@[simp] theorem State.coverGranule_mem (p : State × List Covered) (g bytes : Nat) :
    (State.coverGranule p g bytes).1.mem = p.1.mem := by
  unfold State.coverGranule
  dsimp only
  split <;> rfl

@[simp] theorem State.partWrite_wf {s : State} {cov : List Covered} {ks : List Nat} {bs : List Byte} {bad : List Bool}
    (h : s.mem.wf = true) : (s.partWrite cov ks bs bad).1.mem.wf = true := by
  have hfold : ∀ (gs : List Nat) (n : Nat → Nat) (p : State × List Covered),
      (gs.foldl (fun p g => State.coverGranule p g (n g)) p).1.mem = p.1.mem := by
    intro gs n
    induction gs with
    | nil => exact fun _ => rfl
    | cons g gs ih => exact fun p => (ih _).trans (State.coverGranule_mem p g _)
  unfold State.partWrite
  dsimp only
  rw [hfold]
  exact State.engineWrite_wf _ _ _ h

@[simp] theorem State.enterHandler_wf {s : State} {t : TrapInfo} {pc : Word} {a : Acc} (h : s.mem.wf = true) :
    (s.enterHandler t pc a).mem.wf = true := by
  simp [State.enterHandler, h]

/-! ### Coherence -/

@[simp] theorem State.await_wf {α : Type} {A : α → Prop} {s t : State} (h : t.mem.wf = true) :
    Ends Stop.Canon A (s.await t) := by
  unfold State.await
  split
  · exact h
  · trivial

@[simp] theorem State.request_wf {s : State} {a : Acc} {r : Req} (h : s.mem.wf = true) :
    Ends Stop.Canon (fun t => t.mem.wf = true) (s.request a r) := by
  unfold State.request
  split
  · have h := State.wf_of_mem_eq (State.demand_mem ‹_›) h
    exact State.await_wf h
  · simp [h]

@[simp] theorem State.requests_wf {s : State} {l : List Acc} {r : Req} (h : s.mem.wf = true) :
    Ends Stop.Canon (fun t => t.mem.wf = true) (s.requests l r) := by
  unfold State.requests
  split
  · obtain ⟨a, -, ha⟩ := List.exists_of_findSome?_eq_some ‹_›
    exact State.await_wf (State.wf_of_mem_eq (State.demand_mem ha) h)
  · exact foldl_wf (fun t a ht => by simpa using ht) l h

@[simp] theorem State.release_wf {s : State} {sc : Scope} (h : s.mem.wf = true) :
    Ends Stop.Canon (fun t => t.mem.wf = true) (s.release sc) := by
  unfold State.release
  dsimp only
  refine waitFor_wf.bind fun _ _ => ?_
  refine waitFor_wf.bind fun _ _ => ?_
  split
  · refine waitFor_wf.bind fun _ _ => ?_
    refine waitFor_wf.bind fun _ _ => ?_
    split
    · split
      · trivial
      · simp [h]
    · split
      · trivial
      · simp [h]
  · trivial

@[simp] theorem State.acquireGate_wf {s : State} {sc : Scope} : Ends Stop.Canon (fun _ => True) (s.acquireGate sc) := by
  simp [State.acquireGate]

@[simp] theorem State.accessGate_wf {s : State} : Ends Stop.Canon (fun _ => True) s.accessGate := by
  simp [State.accessGate]

/-! ### Layout -/

@[simp] theorem State.touchGate_wf {s : State} {w : Win} {ea : Word} {n : Nat} (h : s.mem.wf = true) :
    Ends Stop.Canon (fun _ => True) (s.touchGate w ea n) := by
  unfold State.touchGate
  split
  · trivial
  · split
    · trivial
    · split
      · trivial
      · exact wait_wf
    · exact wait_wf
    · exact trap_wf

/-! ### Access -/

@[simp] theorem State.windowGate_wf {s : State} {k : AKind} {w : Win} {ea : Word} :
    Ends Stop.Canon (fun _ => True) (s.windowGate k w ea) := by
  simp [State.windowGate]

@[simp] theorem State.access_wf {s : State} {k : AKind} {w : Win} {ea : Word} {n : Nat} {r : Req} {a : Acc}
    (h : s.mem.wf = true) : Ends Stop.Canon (fun t => t.mem.wf = true) (s.access k w ea n r a) := by
  unfold State.access
  refine (State.touchGate_wf h).bind fun _ _ => ?_
  refine waitFor_wf.bind fun _ _ => ?_
  refine check_wf.bind fun _ _ => ?_
  refine (State.request_wf h).bind fun _ h => ?_
  split
  · trivial
  · trivial

@[simp] theorem State.parkGate_wf {s : State} {w : Win} {ea : Word} {n align : Nat} :
    Ends Stop.Canon (fun _ => True) (s.parkGate w ea n align) := by
  simp [State.parkGate]

@[simp] theorem State.loadAcc_wf {s : State} {w : Win} {ea : Word} {n : Nat} (h : s.mem.wf = true) :
    Ends Stop.Canon (fun p => p.1.mem.wf = true) (s.loadAcc w ea n) := by
  unfold State.loadAcc
  refine State.accessGate_wf.bind fun _ _ => ?_
  refine State.parkGate_wf.bind fun _ _ => ?_
  refine (State.precise_wf h).bind fun _ _ => ?_
  refine (State.access_wf h).bind fun _ h => ?_
  trivial

@[simp] theorem State.storeAcc_wf {s : State} {k : AKind} {w : Win} {ea : Word} {n : Nat} (h : s.mem.wf = true) :
    Ends Stop.Canon (fun p => p.1.mem.wf = true) (s.storeAcc k w ea n) := by
  unfold State.storeAcc
  refine State.accessGate_wf.bind fun _ _ => ?_
  refine (State.precise_wf h).bind fun _ _ => ?_
  refine (State.access_wf h).bind fun _ h => ?_
  trivial

@[simp] theorem State.park_wf {s : State} {p : Parked} (h : s.mem.wf = true) :
    Ends Stop.Canon (fun t => t.mem.wf = true) (s.park p) := by
  unfold State.park
  refine waitFor_wf.bind fun _ _ => ?_
  dsimp only
  split
  · trivial
  · trivial

/-! ### Atomics -/

@[simp] theorem State.performAtomic_wf {s : State} {op : AtomOp} {ty : Option Ty} {isRed : Bool} {a : Acc} {v e : Nat}
    (h : s.mem.wf = true) : (s.performAtomic op ty isRed a v e).1.mem.wf = true := by
  simp [State.performAtomic, h]

@[simp] theorem State.baddOperand_wf {s : State} {w : Win} {ea v : Word} (h : s.mem.wf = true) :
    Ends Stop.Canon (fun p => p.1.mem.wf = true) (s.baddOperand w ea v) := by
  unfold State.baddOperand
  refine (State.loadAcc_wf h).bind fun (_, _) h => ?_
  dsimp only
  trivial

@[simp] theorem State.atomNow_wf {s : State} {x : AtomArgs} (h : s.mem.wf = true) :
    Ends Stop.Canon (fun p => p.1.mem.wf = true) (s.atomNow x) := by
  unfold State.atomNow
  dsimp only
  refine (State.precise_wf h).bind fun _ _ => ?_
  refine Ends.bind (A := fun p => p.1.mem.wf = true) ?_ fun (_, _, _) h => ?_
  · split
    · exact State.baddOperand_wf h
    · trivial
  · refine (State.access_wf h).bind fun _ h => ?_
    split
    · simp [h]
    · simp [h]

@[simp] theorem State.parkAtomic_wf {s : State} {x : AtomArgs} {len : Nat} (h : s.mem.wf = true) :
    Ends Stop.Canon (fun t => t.mem.wf = true) (s.parkAtomic x len) := by
  unfold State.parkAtomic
  dsimp only
  refine waitFor_wf.bind fun _ _ => ?_
  split
  · refine (State.park_wf h).bind fun _ h => ?_
    trivial
  · refine (State.alloc_wf h).bind fun (_, _) h => ?_
    refine (State.park_wf h).bind fun _ h => ?_
    trivial

@[simp] theorem State.atomOp_wf {s : State} {x : AtomArgs} {len : Nat} (h : s.mem.wf = true) :
    Ends Stop.Canon (fun t => t.mem.wf = true) (s.atomOp x len) := by
  unfold State.atomOp
  dsimp only
  split
  · refine (State.release_wf h).bind fun _ h => ?_
    split
    · refine State.acquireGate_wf.bind fun _ _ => ?_
      refine State.accessGate_wf.bind fun _ _ => ?_
      split
      · exact State.parkAtomic_wf h
      · refine (State.atomNow_wf h).bind fun (_, _) h => ?_
        split
        · simp [h]
        · simp [h]
    · refine State.accessGate_wf.bind fun _ _ => ?_
      split
      · exact State.parkAtomic_wf h
      · refine (State.atomNow_wf h).bind fun (_, _) h => ?_
        split
        · trivial
        · trivial
  · refine Ends.bind (A := fun t => t.mem.wf = true) ?_ fun _ h => ?_
    · trivial
    · split
      · refine State.acquireGate_wf.bind fun _ _ => ?_
        refine State.accessGate_wf.bind fun _ _ => ?_
        split
        · exact State.parkAtomic_wf h
        · refine (State.atomNow_wf h).bind fun (_, _) h => ?_
          split
          · simp [h]
          · simp [h]
      · refine State.accessGate_wf.bind fun _ _ => ?_
        split
        · exact State.parkAtomic_wf h
        · refine (State.atomNow_wf h).bind fun (_, _) h => ?_
          split
          · trivial
          · trivial

@[simp] theorem State.atomAt'_wf {s : State} {op : AtomOp} {isRed : Bool} {sc : Scope} {ord : Ord} {w : Win}
    {ty : Option Ty} {imm : BitVec 24} {d : Dst} {base v e : Src} {lit : Word} {len : Nat} (h : s.mem.wf = true) :
    Ends Stop.Canon (fun t => t.mem.wf = true) (s.atomAt' op isRed sc ord w ty imm d base v e lit len) := by
  unfold State.atomAt'
  dsimp only
  refine State.need_wf.bind fun _ _ => ?_
  exact State.atomOp_wf h

@[simp] theorem State.rejectPage_wf {s : State} {cause : Cause} {va : Word} (h : s.mem.wf = true) :
    (s.rejectPage cause va).mem.wf = true := by
  unfold State.rejectPage
  refine State.canon_takeTrap (foldl_wf (fun t p ht => ?_) _ (by simpa using h))
  split
  · exact ht
  · exact ht

/-- How a replayed access ends keeps the form of memory. -/
theorem State.replayed_wf {s : State} {p : Parked} (h : s.mem.wf = true) (r : Res State)
    (hr : Ends Stop.Canon (fun t => t.mem.wf = true) r) :
    (match (generalizing := false) r with
      | .ok s => s
      | .error (.trap t) => s.rejectPage t.cause p.va
      | .error (.trapAt t _) => s.rejectPage t.cause p.va
      | .error (.touch s') => s'
      | .error _ => s : State).mem.wf = true := by
  split
  · exact hr
  · exact State.rejectPage_wf h
  · exact State.rejectPage_wf h
  · exact hr
  · exact h

theorem State.replayOldest.perform_wf {s : State} {p : Parked} {op : AtomOp} {isRed : Bool} {drop : State → State}
    {finish : Res State → State}
    (hdrop : ∀ t : State, t.mem.wf = true → (drop t).mem.wf = true)
    (hfinish : ∀ r, Ends Stop.Canon (fun t => t.mem.wf = true) r → (finish r).mem.wf = true) (h : s.mem.wf = true) :
    (State.replayOldest.perform s p op isRed drop finish).mem.wf = true := by
  unfold State.replayOldest.perform
  dsimp only
  split
  · exact h
  · exact State.rejectPage_wf h
  · exact hfinish _ (State.walkWait_wf h)
  · rename_i a _
    refine hfinish _ (waitFor_wf.bind fun _ _ => ?_)
    refine Ends.bind (A := fun p => p.1.mem.wf = true) ?_ fun (t, v, ev) ht => (State.request_wf ht).bind fun u hu => ?_
    · split
      · exact (State.precise_wf h).bind fun _ _ => (State.request_wf h).bind fun _ h => h
      · exact h
    · have hc : (if ev = true then u.countAll u.cur [9] else u).mem.wf = true := by
        split
        · simpa using hu
        · exact hu
      have hp := State.performAtomic_wf (op := op) (ty := p.ty) (isRed := isRed) (a := a) (v := v)
        (e := p.cmp.toNat % 2 ^ (8 * p.bytes)) (hdrop _ hc)
      rw [ends_ok]
      split
      · rw [State.acquired_mem]
        split
        · simpa using hp
        · exact hp
      · split
        · simpa using hp
        · exact hp
@[simp] theorem State.replayOldest_wf {s : State} (h : s.mem.wf = true) :
    s.replayOldest.mem.wf = true := by
  unfold State.replayOldest
  split
  · exact h
  · split
    · exact h
    · dsimp only
      split
      · split
        · exact h
        · exact State.rejectPage_wf h
        · exact State.replayed_wf h _ (State.walkWait_wf h)
        · refine State.replayed_wf h _ (waitFor_wf.bind fun _ _ => (State.request_wf h).bind fun _ h => ?_)
          exact State.canon_writeAcc (by simpa using h)
      · exact State.replayOldest.perform_wf (fun _ ht => by simpa using ht) (State.replayed_wf h) h
      · exact State.replayOldest.perform_wf (fun _ ht => by simpa using ht) (State.replayed_wf h) h

theorem State.within_wf {s : State} {c : CoreId} {k : SlotId} {f : State → State}
    (hf : ∀ t : State, t.mem.wf = true → (f t).mem.wf = true) (h : s.mem.wf = true) : (s.within c k f).mem.wf = true :=
  hf (s.focus c k) h

@[simp] theorem State.mappingRejected_wf {s : State} {va : Word} (h : s.mem.wf = true) :
    (s.mappingRejected va).mem.wf = true := by
  unfold State.mappingRejected
  split
  · simp [h]
  · exact h

/-! ### Memory -/

@[simp] theorem State.deferLoad_wf {s : State} {d : Dst} {f : DRes} {len : Nat} {ea : Word} {far : List Nat}
    (h : s.mem.wf = true) : Ends Stop.Canon (fun t => t.mem.wf = true) (s.deferLoad d f len ea far) := by
  unfold State.deferLoad
  refine (State.alloc_wf h).bind fun (_, _) h => ?_
  dsimp only
  trivial

@[simp] theorem State.failLoad_wf {s : State} {d : Dst} {addr : Word} {len : Nat} (h : s.mem.wf = true) :
    Ends Stop.Canon (fun t => t.mem.wf = true) (s.failLoad d addr len) := by
  unfold State.failLoad
  refine (State.alloc_wf h).bind fun (_, _) h => ?_
  dsimp only
  trivial

@[simp] theorem State.touchLoad_wf {s : State} {d : Dst} {w : Win} {ea : Word} {t : LdTy} {len : Nat}
    (h : s.mem.wf = true) : Ends Stop.Canon (fun t => t.mem.wf = true) (s.touchLoad d w ea t len) := by
  unfold State.touchLoad
  dsimp only
  split
  · exact State.failLoad_wf h
  · refine waitFor_wf.bind fun _ _ => ?_
    refine (State.deferLoad_wf h).bind fun _ h => ?_
    trivial
  · exact State.deferLoad_wf h
  · trivial

@[simp] theorem State.ldOp_wf {s : State} {d : Dst} {t : LdTy} {w : Win} {ea : Word} {len : Nat} (h : s.mem.wf = true) :
    Ends Stop.Canon (fun t => t.mem.wf = true) (s.ldOp d t w ea len) := by
  unfold State.ldOp
  dsimp only
  refine State.accessGate_wf.bind fun _ _ => ?_
  refine State.parkGate_wf.bind fun _ _ => ?_
  refine (State.precise_wf h).bind fun _ _ => ?_
  split
  · exact State.touchLoad_wf h
  · refine (State.access_wf h).bind fun _ h => ?_
    simp [h]

@[simp] theorem State.ea3_wf {s : State} {lit : Word} {base idx : Src} {imm : BitVec 24} :
    Ends Stop.Canon (fun _ => True) (s.ea3 lit base idx imm) := by
  unfold State.ea3
  refine State.use2_wf.bind fun (_, _) _ => ?_
  dsimp only
  trivial

@[simp] theorem State.ldAt_wf {s : State} {t : LdTy} {w : Win} {imm : BitVec 24} {d : Dst} {base idx : Src}
    {lit : Word} {len : Nat} (h : s.mem.wf = true) :
    Ends Stop.Canon (fun t => t.mem.wf = true) (s.ldAt t w imm d base idx lit len) := by
  unfold State.ldAt
  refine State.ea3_wf.bind fun _ _ => ?_
  exact State.ldOp_wf h

@[simp] theorem State.lddOp_wf {s : State} {d : Dst} {t : LdTy} {w : Win} {ea : Word} {len : Nat}
    (h : s.mem.wf = true) : Ends Stop.Canon (fun t => t.mem.wf = true) (s.lddOp d t w ea len) := by
  unfold State.lddOp
  dsimp only
  refine State.accessGate_wf.bind fun _ _ => ?_
  refine State.parkGate_wf.bind fun _ _ => ?_
  split
  · exact State.deferLoad_wf h
  · exact State.walkWait_wf h
  · split
    · exact trap_wf
    · exact State.deferLoad_wf h
  · split
    · exact State.touchLoad_wf h
    · split
      · exact State.deferLoad_wf h
      · split
        · have h := (State.access_wf h).of_error ‹_›
          exact State.deferLoad_wf h
        · have h := (State.access_wf h).of_error ‹_›
          trivial
        · have h := (State.access_wf h).of_ok ‹_›
          exact State.deferLoad_wf (by simp [h])

@[simp] theorem State.lddAt_wf {s : State} {t : LdTy} {w : Win} {imm : BitVec 24} {d : Dst} {base idx : Src}
    {lit : Word} {len : Nat} (h : s.mem.wf = true) :
    Ends Stop.Canon (fun t => t.mem.wf = true) (s.lddAt t w imm d base idx lit len) := by
  unfold State.lddAt
  refine State.ea3_wf.bind fun _ _ => ?_
  exact State.lddOp_wf h

@[simp] theorem State.ldacqOp_wf {s : State} {d : Dst} {t : LdTy} {sc : Scope} {w : Win} {ea : Word} {len : Nat}
    (h : s.mem.wf = true) : Ends Stop.Canon (fun t => t.mem.wf = true) (s.ldacqOp d t sc w ea len) := by
  unfold State.ldacqOp
  refine State.acquireGate_wf.bind fun _ _ => ?_
  refine (State.loadAcc_wf h).bind fun (_, _) h => ?_
  dsimp only
  simp [h]

@[simp] theorem State.ldacqAt_wf {s : State} {t : LdTy} {sc : Scope} {w : Win} {imm : BitVec 24} {d : Dst}
    {base idx : Src} {lit : Word} {len : Nat} (h : s.mem.wf = true) :
    Ends Stop.Canon (fun t => t.mem.wf = true) (s.ldacqAt t sc w imm d base idx lit len) := by
  unfold State.ldacqAt
  refine State.ea3_wf.bind fun _ _ => ?_
  exact State.ldacqOp_wf h

@[simp] theorem State.lldOp_wf {s : State} {d : Dst} {t : LdTy} {w : Win} {ea : Word} {len : Nat}
    (h : s.mem.wf = true) : Ends Stop.Canon (fun t => t.mem.wf = true) (s.lldOp d t w ea len) := by
  unfold State.lldOp
  refine (State.loadAcc_wf h).bind fun (_, _) h => ?_
  dsimp only
  split
  · simp [h]
  · simp [h]

@[simp] theorem State.lldAt_wf {s : State} {t : LdTy} {w : Win} {imm : BitVec 24} {d : Dst} {base idx : Src}
    {lit : Word} {len : Nat} (h : s.mem.wf = true) :
    Ends Stop.Canon (fun t => t.mem.wf = true) (s.lldAt t w imm d base idx lit len) := by
  unfold State.lldAt
  refine State.ea3_wf.bind fun _ _ => ?_
  exact State.lldOp_wf h

@[simp] theorem State.stOp_wf {s : State} {maj fn n : Nat} {sc : Scope} {w : Win} {ea v : Word} (h : s.mem.wf = true) :
    Ends Stop.Canon (fun t => t.mem.wf = true) (s.stOp maj fn n sc w ea v) := by
  unfold State.stOp
  refine State.accessGate_wf.bind fun _ _ => ?_
  split
  · exact State.park_wf h
  · refine (State.storeAcc_wf h).bind fun (_, _) h => ?_
    dsimp only
    simp [h]

@[simp] theorem State.stOperands_wf {s : State} {lit : Word} {v base idx : Src} {imm : BitVec 24} :
    Ends Stop.Canon (fun _ => True) (s.stOperands lit v base idx imm) := by
  unfold State.stOperands
  refine State.use3_wf.bind fun (_, _, _) _ => ?_
  dsimp only
  trivial

@[simp] theorem State.stAt_wf {s : State} {t : StTy} {w : Win} {imm : BitVec 24} {v base idx : Src} {lit : Word}
    {len : Nat} (h : s.mem.wf = true) :
    Ends Stop.Canon (fun t => t.mem.wf = true) (s.stAt t w imm v base idx lit len) := by
  unfold State.stAt
  refine State.stOperands_wf.bind fun (_, _) _ => ?_
  dsimp only
  refine (State.stOp_wf h).bind fun _ h => ?_
  trivial

@[simp] theorem State.strelAt_wf {s : State} {t : StTy} {sc : Scope} {w : Win} {imm : BitVec 24} {v base idx : Src}
    {lit : Word} {len : Nat} (h : s.mem.wf = true) :
    Ends Stop.Canon (fun t => t.mem.wf = true) (s.strelAt t sc w imm v base idx lit len) := by
  unfold State.strelAt
  refine State.stOperands_wf.bind fun (_, _) _ => ?_
  dsimp only
  refine (State.release_wf h).bind fun _ h => ?_
  refine (State.stOp_wf h).bind fun _ h => ?_
  trivial

@[simp] theorem State.lstAt_wf {s : State} {t : StTy} {w : Win} {imm : BitVec 24} {v base idx : Src} {res : Dst}
    {lit : Word} {len : Nat} (h : s.mem.wf = true) :
    Ends Stop.Canon (fun t => t.mem.wf = true) (s.lstAt t w imm v base idx res lit len) := by
  unfold State.lstAt
  refine State.stOperands_wf.bind fun (_, _) _ => ?_
  dsimp only
  refine State.accessGate_wf.bind fun _ _ => ?_
  split
  · trivial
  · refine (State.precise_wf h).bind fun _ _ => ?_
    split
    · refine (State.access_wf h).bind fun _ h => ?_
      simp [h]
    · trivial

@[simp] theorem State.descEa_wf {s : State} {i off : Word} {n : Nat} (h : s.mem.wf = true) :
    Ends Stop.Canon (fun p => p.1.mem.wf = true) (s.descEa i off n) := by
  unfold State.descEa
  refine check_wf.bind fun _ _ => ?_
  dsimp only
  refine (State.request_wf h).bind fun _ h => ?_
  refine check_wf.bind fun _ _ => ?_
  refine check_wf.bind fun _ _ => ?_
  refine check_wf.bind fun _ _ => ?_
  trivial

@[simp] theorem State.ldbAt_wf {s : State} {t : LdTy} {imm : BitVec 24} {d : Dst} {base idx : Src} {lit : Word}
    {len : Nat} (h : s.mem.wf = true) :
    Ends Stop.Canon (fun t => t.mem.wf = true) (s.ldbAt t imm d base idx lit len) := by
  unfold State.ldbAt
  refine State.use2_wf.bind fun (_, _) _ => ?_
  dsimp only
  refine State.accessGate_wf.bind fun _ _ => ?_
  refine (State.descEa_wf h).bind fun (_, _, _) h => ?_
  refine State.parkGate_wf.bind fun _ _ => ?_
  refine (State.precise_wf h).bind fun _ _ => ?_
  refine (State.access_wf h).bind fun _ h => ?_
  simp [h]

@[simp] theorem State.stbAt_wf {s : State} {t : StTy} {imm : BitVec 24} {v base idx : Src} {lit : Word} {len : Nat}
    (h : s.mem.wf = true) : Ends Stop.Canon (fun t => t.mem.wf = true) (s.stbAt t imm v base idx lit len) := by
  unfold State.stbAt
  refine State.use3_wf.bind fun (_, _, _) _ => ?_
  dsimp only
  refine State.accessGate_wf.bind fun _ _ => ?_
  refine (State.descEa_wf h).bind fun (_, _, _) h => ?_
  split
  · refine check_wf.bind fun _ _ => ?_
    refine (State.stOp_wf h).bind fun _ h => ?_
    trivial
  · refine (State.precise_wf h).bind fun _ _ => ?_
    refine (State.access_wf h).bind fun _ h => ?_
    simp [h]

@[simp] theorem State.stsigAt_wf {s : State} {sc : Scope} {w : Win} {n : Nat} {addf : Bool} {imm : BitVec 24}
    {v base flag sig : Src} {lit : Word} {len : Nat} (h : s.mem.wf = true) :
    Ends Stop.Canon (fun t => t.mem.wf = true) (s.stsigAt sc w n addf imm v base flag sig lit len) := by
  unfold State.stsigAt
  dsimp only
  refine State.need_wf.bind fun _ _ => ?_
  refine (State.release_wf h).bind fun _ h => ?_
  refine State.accessGate_wf.bind fun _ _ => ?_
  refine (State.precise_wf h).bind fun _ _ => ?_
  refine (State.precise_wf h).bind fun _ _ => ?_
  refine (State.touchGate_wf h).bind fun _ _ => ?_
  refine (State.touchGate_wf h).bind fun _ _ => ?_
  refine waitFor_wf.bind fun _ _ => ?_
  refine check_wf.bind fun _ _ => ?_
  refine (State.request_wf h).bind fun _ h => ?_
  refine (State.request_wf h).bind fun _ h => ?_
  simp [h]

@[simp] theorem State.tagPages_wf {s : State} {ea : Word} {n : Nat} (h : s.mem.wf = true) :
    Ends Stop.Canon (fun _ => True) (s.tagPages ea n) := by
  unfold State.tagPages
  refine Ends.mapM (fun _ => ?_) _
  exact (State.precise_wf h).bind fun _ _ => trivial

@[simp] theorem State.stgAt_wf {s : State} {n : Nat} {imm : BitVec 24} {tag base : Src} {lit : Word} {len : Nat}
    (h : s.mem.wf = true) :
    Ends Stop.Canon (fun t => t.mem.wf = true) (s.stgAt n imm tag base lit len) := by
  unfold State.stgAt
  refine State.use2_wf.bind fun (_, _) _ => State.accessGate_wf.bind fun _ _ => check_wf.bind fun _ _ => ?_
  refine waitFor_wf.bind fun _ _ => (State.tagPages_wf h).bind fun _ _ => check_wf.bind fun _ _ => ?_
  refine check_wf.bind fun _ _ => (State.requests_wf h).bind fun t ht => ?_
  rw [ends_ok, State.advance_mem]
  exact foldl_wf (fun _ _ h => by simpa using h) _ (by rw [State.keepCut_mem]; exact ht)

@[simp] theorem State.ldgAt_wf {s : State} {imm : BitVec 24} {d : Dst} {base : Src} {lit : Word} {len : Nat}
    (h : s.mem.wf = true) : Ends Stop.Canon (fun t => t.mem.wf = true) (s.ldgAt imm d base lit len) := by
  unfold State.ldgAt
  refine State.use1_wf.bind fun _ _ => ?_
  dsimp only
  refine State.accessGate_wf.bind fun _ _ => ?_
  refine (State.precise_wf h).bind fun _ _ => ?_
  refine check_wf.bind fun _ _ => ?_
  split
  · refine check_wf.bind fun _ _ => ?_
    refine (State.request_wf h).bind fun _ h => ?_
    trivial
  · trivial

@[simp] theorem State.fenceOp_wf {s : State} {sc : Scope} {o : Ord} (h : s.mem.wf = true) :
    Ends Stop.Canon (fun t => t.mem.wf = true) (s.fenceOp sc o) := by
  unfold State.fenceOp
  dsimp only
  split
  · refine (State.release_wf h).bind fun _ h => ?_
    split
    · refine State.accessGate_wf.bind fun _ _ => ?_
      refine State.acquireGate_wf.bind fun _ _ => ?_
      refine waitFor_wf.bind fun _ _ => ?_
      simp [h]
    · trivial
  · refine Ends.bind (A := fun t => t.mem.wf = true) ?_ fun _ h => ?_
    · trivial
    · split
      · refine State.accessGate_wf.bind fun _ _ => ?_
        refine State.acquireGate_wf.bind fun _ _ => ?_
        refine waitFor_wf.bind fun _ _ => ?_
        simp [h]
      · trivial

/-! ### Buffers -/

@[simp] theorem State.cbDecl_wf {s : State} {hd : Fin 8} : Ends Stop.Canon (fun _ => True) (s.cbDecl hd) := by
  unfold State.cbDecl
  split
  · trivial
  · exact trap_wf

@[simp] theorem State.cbWait_wf {s : State} {full : Bool} {d : Dst} {hd : Fin 8} {n : Src} {lit : Word} {len : Nat}
    (h : s.mem.wf = true) : Ends Stop.Canon (fun t => t.mem.wf = true) (s.cbWait full d hd n lit len) := by
  unfold State.cbWait
  refine State.use1_wf.bind fun _ _ => ?_
  refine State.cbDecl_wf.bind fun _ _ => ?_
  refine check_wf.bind fun _ _ => ?_
  refine State.accessGate_wf.bind fun _ _ => ?_
  dsimp only
  split
  · split
    · trivial
    · trivial
  · split
    · trivial
    · trivial

@[simp] theorem State.cbAdvance_wf {s : State} {full : Bool} {hd : Fin 8} {n : Src} {lit : Word} {len : Nat}
    (h : s.mem.wf = true) : Ends Stop.Canon (fun t => t.mem.wf = true) (s.cbAdvance full hd n lit len) := by
  unfold State.cbAdvance
  refine State.use1_wf.bind fun _ _ => ?_
  refine State.cbDecl_wf.bind fun _ _ => ?_
  split
  · trivial
  · dsimp only
    refine check_wf.bind fun _ _ => ?_
    refine State.accessGate_wf.bind fun _ _ => ?_
    refine (State.release_wf h).bind fun _ h => ?_
    trivial

@[simp] theorem State.swapDesc_wf {s : State} {l : Launch} {i : Nat} (h : s.mem.wf = true) :
    (s.swapDesc l i).mem.wf = true := by
  simp [State.swapDesc, h]

theorem State.heldPubl_wf {s : State} {mark : Nat} {r : Res State} (h : s.mem.wf = true)
    (hr : Ends Stop.Canon (fun t => t.mem.wf = true) r) :
    Ends Stop.Canon (fun t => t.mem.wf = true) (s.heldPubl mark r) := by
  unfold State.heldPubl
  split
  · exact h
  · exact hr
  · exact hr

@[simp] theorem State.publOp_wf {s : State} {sc : Scope} {pair : Bool} {buf : Src} {lit : Word} {len : Nat}
    (h : s.mem.wf = true) :
    Ends Stop.Canon (fun t => t.mem.wf = true) (s.publOp sc pair buf lit len) := by
  unfold State.publOp
  refine State.use1_wf.bind fun b _ => ?_
  dsimp only
  split
  · refine check_wf.bind fun _ _ => State.heldPubl_wf h (State.accessGate_wf.bind fun _ _ => ?_)
    refine (State.release_wf h).bind fun _ h => waitFor_wf.bind fun _ _ => ?_
    simpa using h
  · refine check_wf.bind fun _ _ => State.heldPubl_wf h (State.accessGate_wf.bind fun _ _ => ?_)
    refine (State.release_wf h).bind fun _ h => waitFor_wf.bind fun _ _ => (State.request_wf h).bind fun _ h => ?_
    simpa using State.swapDesc_wf h

@[simp] theorem State.tileLine_wf {s : State} {va : Word} (h : s.mem.wf = true) :
    Ends Stop.Canon (fun _ => True) (s.tileLine va) := by
  unfold State.tileLine
  refine (State.precise_wf h).bind fun _ _ => ?_
  split
  · split
    · trivial
    · exact trap_wf
  · exact trap_wf

@[simp] theorem State.tdeclOp_wf {s : State} {imm : BitVec 24} {base shape : Src} {lit : Word} {len : Nat}
    (h : s.mem.wf = true) : Ends Stop.Canon (fun t => t.mem.wf = true) (s.tdeclOp imm base shape lit len) := by
  unfold State.tdeclOp
  refine State.use2_wf.bind fun (_, _) _ => ?_
  dsimp only
  refine State.accessGate_wf.bind fun _ _ => ?_
  refine check_wf.bind fun _ _ => ?_
  refine check_wf.bind fun _ _ => ?_
  refine (Ends.mapM (fun _ => ?_) _).bind fun _ _ => ?_
  · exact State.tileLine_wf h
  · split
    · trivial
    · refine check_wf.bind fun _ _ => ?_
      split
      · have h := State.wf_of_mem_eq (State.demand_mem ‹_›) h
        trivial
      · simp [h]

@[simp] theorem State.tfreeOp_wf {s : State} {imm : BitVec 24} {base : Src} {lit : Word} {len : Nat}
    (h : s.mem.wf = true) : Ends Stop.Canon (fun t => t.mem.wf = true) (s.tfreeOp imm base lit len) := by
  unfold State.tfreeOp
  refine State.use1_wf.bind fun _ _ => ?_
  dsimp only
  refine State.accessGate_wf.bind fun _ _ => ?_
  refine (State.precise_wf h).bind fun _ _ => ?_
  refine check_wf.bind fun _ _ => ?_
  split
  · split
    · simp [h]
    · simp [h]
  · trivial

@[simp] theorem State.tfwdOp_wf {s : State} {imm : BitVec 24} {base rank : Src} {lit : Word} {len : Nat}
    (h : s.mem.wf = true) : Ends Stop.Canon (fun t => t.mem.wf = true) (s.tfwdOp imm base rank lit len) := by
  unfold State.tfwdOp
  refine State.use2_wf.bind fun (_, _) _ => ?_
  dsimp only
  refine check_wf.bind fun _ _ => ?_
  refine State.accessGate_wf.bind fun _ _ => ?_
  split
  · exact State.walkWait_wf h
  · trivial
  · split
    · trivial
    · split
      · split
        · have h := State.wf_of_mem_eq (State.demand_mem ‹_›) h
          exact State.await_wf h
        · simp [h]
      · trivial

theorem State.hinted_wf {s : State} {ea : Word} {act : State → Acc → State}
    (hact : ∀ (t : State) (a : Acc), t.mem.wf = true → (act t a).mem.wf = true) (h : s.mem.wf = true) :
    (s.hinted ea act).mem.wf = true := by
  unfold State.hinted
  split
  · exact h
  · split
    · exact State.wf_of_mem_eq (State.demand_mem ‹_›) h
    · exact hact _ _ (by simpa using h)

theorem State.hintOp_wf {s : State} {act : State → Acc → State} {base idx : Src} {imm : BitVec 24} {lit : Word} {len : Nat}
    (hact : ∀ (t : State) (a : Acc), t.mem.wf = true → (act t a).mem.wf = true) (h : s.mem.wf = true) :
    Ends Stop.Canon (fun t => t.mem.wf = true) (s.hintOp act base idx imm lit len) := by
  unfold State.hintOp
  refine State.ea3_wf.bind fun _ _ => ?_
  simpa using State.hinted_wf hact h

@[simp] theorem State.pinOp_wf {s : State} {ways : BitVec 4} {d : Dst} {base n : Src} {lit : Word} {len : Nat}
    (h : s.mem.wf = true) : Ends Stop.Canon (fun t => t.mem.wf = true) (s.pinOp ways d base n lit len) := by
  unfold State.pinOp
  refine State.use2_wf.bind fun (_, _) _ => ?_
  dsimp only
  refine check_wf.bind fun _ _ => ?_
  refine check_wf.bind fun _ _ => ?_
  split
  · split
    · trivial
    · trivial
  · trivial

@[simp] theorem State.unpinOp_wf {s : State} {idx : Src} {lit : Word} {len : Nat} (h : s.mem.wf = true) :
    Ends Stop.Canon (fun t => t.mem.wf = true) (s.unpinOp idx lit len) := by
  unfold State.unpinOp
  refine State.use1_wf.bind fun _ _ => ?_
  dsimp only
  trivial

@[simp] theorem State.barAcc_wf {s : State} {k : AKind} {w : Win} {ea : Word} (h : s.mem.wf = true) :
    Ends Stop.Canon (fun p => p.1.mem.wf = true) (s.barAcc k w ea) := by
  unfold State.barAcc
  refine State.accessGate_wf.bind fun _ _ => ?_
  refine (State.precise_wf h).bind fun _ _ => ?_
  refine (State.access_wf h).bind fun _ h => ?_
  split
  · trivial
  · exact trap_wf

@[simp] theorem State.putBar_wf {s : State} {a : Acc} {b : Bar} (h : s.mem.wf = true) :
    (s.putBar a b).mem.wf = true := by
  unfold State.putBar
  split
  split
  · simp [h]
  · simp [h]

@[simp] theorem State.barBounds_wf {s : State} {w : Win} {ea : Word} {ok : Bool} :
    Ends Stop.Canon (fun _ => True) (s.barBounds w ea ok) := by
  unfold State.barBounds
  refine State.windowGate_wf.bind fun _ _ => ?_
  exact check_wf

@[simp] theorem State.barinitOp_wf {s : State} {sc : Scope} {w : Win} {imm : BitVec 24} {base n : Src} {lit : Word}
    {len : Nat} (h : s.mem.wf = true) :
    Ends Stop.Canon (fun t => t.mem.wf = true) (s.barinitOp sc w imm base n lit len) := by
  unfold State.barinitOp
  refine State.use2_wf.bind fun (_, _) _ => ?_
  dsimp only
  refine State.barBounds_wf.bind fun _ _ => ?_
  refine (State.release_wf h).bind fun _ h => ?_
  refine (State.barAcc_wf h).bind fun (_, _) h => ?_
  simp [h]

@[simp] theorem State.barexpOp_wf {s : State} {w : Win} {imm : BitVec 24} {base n : Src} {lit : Word} {len : Nat}
    (h : s.mem.wf = true) : Ends Stop.Canon (fun t => t.mem.wf = true) (s.barexpOp w imm base n lit len) := by
  unfold State.barexpOp
  refine State.use2_wf.bind fun (_, _) _ => ?_
  dsimp only
  refine State.barBounds_wf.bind fun _ _ => ?_
  refine (State.barAcc_wf h).bind fun (_, _) h => ?_
  refine check_wf.bind fun _ _ => ?_
  simp [h]

@[simp] theorem State.bararrOp_wf {s : State} {sc : Scope} {w : Win} {imm : BitVec 24} {d : Dst} {base n : Src}
    {lit : Word} {len : Nat} (h : s.mem.wf = true) :
    Ends Stop.Canon (fun t => t.mem.wf = true) (s.bararrOp sc w imm d base n lit len) := by
  unfold State.bararrOp
  refine State.use2_wf.bind fun (_, _) _ => ?_
  dsimp only
  refine State.barBounds_wf.bind fun _ _ => ?_
  refine (State.release_wf h).bind fun _ h => ?_
  refine (State.barAcc_wf h).bind fun (_, _) h => ?_
  refine check_wf.bind fun _ _ => ?_
  simp [h]

@[simp] theorem State.barwaitOp_wf {s : State} {sc : Scope} {w : Win} {chk : Bool} {imm : BitVec 24} {d : Dst}
    {base ph : Src} {lit : Word} {len : Nat} (h : s.mem.wf = true) :
    Ends Stop.Canon (fun t => t.mem.wf = true) (s.barwaitOp sc w chk imm d base ph lit len) := by
  unfold State.barwaitOp
  refine State.use2_wf.bind fun (_, _) _ => ?_
  dsimp only
  refine State.acquireGate_wf.bind fun _ _ => ?_
  refine (State.barAcc_wf h).bind fun (_, _) h => ?_
  split
  · trivial
  · refine check_wf.bind fun _ _ => ?_
    simp [h]

/-! ### Integer -/

@[simp] theorem State.int2_wf {s : State} {op : IntOp} {ty : Option Ty} {d : Dst} {x y : Src} {lit : Word} {len : Nat}
    (h : s.mem.wf = true) : Ends Stop.Canon (fun t => t.mem.wf = true) (s.int2 op ty d x y lit len) := by
  unfold State.int2
  dsimp only
  split
  · trivial
  · refine State.need_wf.bind fun _ _ => ?_
    simp [h]

@[simp] theorem State.int1_wf {s : State} {op : IntOp1} {ty : Option Ty} {d : Dst} {x : Src} {lit : Word} {len : Nat}
    (h : s.mem.wf = true) : Ends Stop.Canon (fun t => t.mem.wf = true) (s.int1 op ty d x lit len) := by
  unfold State.int1
  dsimp only
  split
  · trivial
  · refine State.need_wf.bind fun _ _ => ?_
    trivial

@[simp] theorem State.leaOp_wf {s : State} {d : Dst} {x y : Src} {sh : Nat} {imm : BitVec 24} {lit : Word} {len : Nat}
    (h : s.mem.wf = true) : Ends Stop.Canon (fun t => t.mem.wf = true) (s.leaOp d x y sh imm lit len) := by
  unfold State.leaOp
  dsimp only
  split
  · trivial
  · refine State.need_wf.bind fun _ _ => ?_
    trivial

@[simp] theorem State.raw2_wf {s : State} {f : Word → Word → Word} {d : Dst} {x y : Src} {lit : Word} {len : Nat}
    (h : s.mem.wf = true) : Ends Stop.Canon (fun t => t.mem.wf = true) (s.raw2 f d x y lit len) := by
  unfold State.raw2
  refine State.use2_wf.bind fun (_, _) _ => ?_
  dsimp only
  trivial

@[simp] theorem State.raw3_wf {s : State} {f : Word → Word → Word → Word} {d : Dst} {x y : Src} {z : Reg} {lit : Word}
    {len : Nat} (h : s.mem.wf = true) : Ends Stop.Canon (fun t => t.mem.wf = true) (s.raw3 f d x y z lit len) := by
  unfold State.raw3
  dsimp only
  refine State.need_wf.bind fun _ _ => ?_
  trivial

@[simp] theorem State.cmpOp_wf {s : State} {c : Cond} {ty : Option Ty} {d : Dst} {x y : Src} {lit : Word} {len : Nat}
    (h : s.mem.wf = true) : Ends Stop.Canon (fun t => t.mem.wf = true) (s.cmpOp c ty d x y lit len) := by
  unfold State.cmpOp
  refine State.use2_wf.bind fun (_, _) _ => ?_
  dsimp only
  trivial

@[simp] theorem State.movOp_wf {s : State} {ty : Option Ty} {d : Dst} {x : Src} {lit : Word} {len : Nat}
    (h : s.mem.wf = true) : Ends Stop.Canon (fun t => t.mem.wf = true) (s.movOp ty d x lit len) := by
  unfold State.movOp
  dsimp only
  split
  · split
    · trivial
    · refine State.need_wf.bind fun _ _ => ?_
      exact wait_wf
  · split
    · trivial
    · refine State.need_wf.bind fun _ _ => ?_
      exact wait_wf
  · split
    · trivial
    · refine State.need_wf.bind fun _ _ => ?_
      exact wait_wf
  · refine State.need_wf.bind fun _ _ => ?_
    trivial

/-! ### FpScalar -/

@[simp] theorem State.fpLog_wf {s : State} {fn : Nat} {ty : Option Ty} {rnd : Rnd} {fa : Bool} {d : Dst}
    {rs : List Reg} {len : Nat} (h : s.mem.wf = true) :
    Ends Stop.Canon (fun t => t.mem.wf = true) (s.fpLog fn ty rnd fa d rs len) := by
  unfold State.fpLog
  dsimp only
  split
  · trivial
  · refine State.need_wf.bind fun _ _ => ?_
    simp [h]

@[simp] theorem State.fpBlock_wf {s : State} {ty : Option Ty} {rnd : Rnd} {op : RMode → List FpVal → FpVal} {d : Dst}
    {rs : List Reg} {len : Nat} (h : s.mem.wf = true) :
    Ends Stop.Canon (fun t => t.mem.wf = true) (s.fpBlock ty rnd op d rs len) := by
  unfold State.fpBlock
  refine State.need_wf.bind fun _ _ => ?_
  dsimp only
  simp [h]

@[simp] theorem State.fcmpOp_wf {s : State} {c : FCond} {ty : Option Ty} {d : Dst} {rs : List Reg} {len : Nat}
    (h : s.mem.wf = true) : Ends Stop.Canon (fun t => t.mem.wf = true) (s.fcmpOp c ty d rs len) := by
  unfold State.fcmpOp
  refine State.need_wf.bind fun _ _ => ?_
  dsimp only
  trivial

@[simp] theorem State.fclsOp_wf {s : State} {ty : Option Ty} {d : Dst} {x : Src} {lit : Word} {len : Nat}
    (h : s.mem.wf = true) : Ends Stop.Canon (fun t => t.mem.wf = true) (s.fclsOp ty d x lit len) := by
  unfold State.fclsOp
  dsimp only
  refine State.need_wf.bind fun _ _ => ?_
  trivial

@[simp] theorem State.fcvtOp_wf {s : State} {dst src : Ty} {rnd : Rnd} {d : Dst} {x : Src} {lit : Word} {len : Nat}
    (h : s.mem.wf = true) : Ends Stop.Canon (fun t => t.mem.wf = true) (s.fcvtOp dst src rnd d x lit len) := by
  unfold State.fcvtOp
  dsimp only
  refine State.need_wf.bind fun _ _ => ?_
  split
  · simp [h]
  · simp [h]

@[simp] theorem State.symtOp_wf {s : State} {d : Dst} {a : SymArg} {len : Nat} (h : s.mem.wf = true) :
    Ends Stop.Canon (fun t => t.mem.wf = true) (s.symtOp d a len) := by
  simp [State.symtOp, h]

@[simp] theorem State.symwOp_wf {s : State} {d : Dst} {a : SymArg} {len : Nat} (h : s.mem.wf = true) :
    Ends Stop.Canon (fun t => t.mem.wf = true) (s.symwOp d a len) := by
  unfold State.symwOp
  refine waitFor_wf.bind fun _ _ => ?_
  trivial

@[simp] theorem State.symxOp_wf {s : State} {d : Dst} {a : SymArg} {len : Nat} (h : s.mem.wf = true) :
    Ends Stop.Canon (fun t => t.mem.wf = true) (s.symxOp d a len) := by
  unfold State.symxOp
  dsimp only
  split
  · trivial
  · trivial

/-! ### Control -/

@[simp] theorem State.brOp_wf {s : State} {off : Word} (h : s.mem.wf = true) :
    Ends Stop.Canon (fun t => t.mem.wf = true) (s.brOp off) := by
  simp [State.brOp, h]

@[simp] theorem State.bcmpOp_wf {s : State} {c : Cond} {ty : Option Ty} {x y : Src} {imm : BitVec 24} {lit : Word}
    {len : Nat} (h : s.mem.wf = true) : Ends Stop.Canon (fun t => t.mem.wf = true) (s.bcmpOp c ty x y imm lit len) := by
  unfold State.bcmpOp
  refine State.use2_wf.bind fun (_, _) _ => ?_
  dsimp only
  split
  · trivial
  · trivial

@[simp] theorem State.callOp_wf {s : State} {off : Word} {len : Nat} (h : s.mem.wf = true) :
    Ends Stop.Canon (fun t => t.mem.wf = true) (s.callOp off len) := by
  unfold State.callOp
  dsimp only
  refine check_wf.bind fun _ _ => ?_
  refine check_wf.bind fun _ _ => ?_
  trivial

@[simp] theorem State.retOp_wf {s : State} (h : s.mem.wf = true) :
    Ends Stop.Canon (fun t => t.mem.wf = true) s.retOp := by
  unfold State.retOp
  dsimp only
  refine check_wf.bind fun _ _ => ?_
  split
  · split
    · exact trap_wf
    · exact trap_wf
  · refine check_wf.bind fun _ _ => ?_
    trivial

@[simp] theorem State.landFetch_wf {s : State} {e : Word} (h : s.mem.wf = true) :
    Ends Stop.Canon (fun t => t.mem.wf = true) (s.landFetch e) := by
  unfold State.landFetch
  split
  · trivial
  · split
    · exact State.walkWait_wf h
    · trivial
    · exact State.request_wf h

@[simp] theorem landCheck_wf {s : State} {br : Word} {label : BitVec 12} (h : s.mem.wf = true) :
    Ends Stop.Canon (fun t => t.mem.wf = true) (landCheck s br label) := by
  unfold landCheck
  dsimp only
  split
  · split
    · trivial
    · trivial
  · trivial
  · trivial
  · exact State.walkWait_wf h

/-- What the load of a table's entry answers goes on where the entry says. -/
theorem State.jumpTo_wf {s : State} {isCall : Bool} {at_ e : Word} {label : BitVec 12} {bytes : Nat} (h : s.mem.wf = true) :
    Ends Stop.Canon (fun t => t.mem.wf = true) (do
      let s ← s.landFetch e
      let s' := if isCall then s.modMe fun t => t.push (t.pc + word bytes) else s
      landCheck (s'.goto e) at_ label) := by
  refine (State.landFetch_wf h).bind fun _ h => landCheck_wf ?_
  split
  · simpa using h
  · simpa using h

@[simp] theorem State.jumpTable_wf {s : State} {isCall : Bool} {tbl idx len : Src} {imm : BitVec 24}
    {label : BitVec 12} {lit : Word} {bytes : Nat}
    (h : s.mem.wf = true) :
    Ends Stop.Canon (fun t => t.mem.wf = true) (s.jumpTable isCall tbl idx len imm label lit bytes) := by
  have hload : ∀ (ea pc : Word), Ends Stop.Canon (fun t => t.mem.wf = true) (match s.loadAcc .glob ea 8 with
      | .error (.trap _) => trap .jtFetch ea
      | .error (.trapAt _ s') => .error (.trapAt { cause := .jtFetch, addr := ea } s')
      | .error e => .error e
      | .ok (s, a) => do
        let e := word (s.valAcc a 8)
        check (wbits e 0 2 == 0) .align e
        let s ← s.landFetch e
        let s' := if isCall then s.modMe fun t => t.push (t.pc + word bytes) else s
        landCheck (s'.goto e) pc label) := by
    intro ea pc
    have hl := State.loadAcc_wf (w := .glob) (ea := ea) (n := 8) h
    split
    · trivial
    · exact hl.of_error ‹_ = Except.error (Stop.trapAt _ _)›
    · exact hl.of_error ‹_›
    · exact check_wf.bind fun _ _ => State.jumpTo_wf (hl.of_ok ‹_›)
  unfold State.jumpTable
  cases isCall
  · exact State.need_wf.bind fun _ _ => check_wf.bind fun _ _ => check_wf.bind fun _ _ => hload _ _
  · exact check_wf.bind fun _ _ => State.need_wf.bind fun _ _ => check_wf.bind fun _ _ => check_wf.bind fun _ _ =>
      check_wf.bind fun _ _ => hload _ _

@[simp] theorem State.loopOp_wf {s : State} {x : CtrReg} {off : Word} {len : Nat} (h : s.mem.wf = true) :
    Ends Stop.Canon (fun t => t.mem.wf = true) (s.loopOp x off len) := by
  unfold State.loopOp
  dsimp only
  refine State.need_wf.bind fun _ _ => ?_
  split
  · trivial
  · trivial

@[simp] theorem State.recordAccs_wf {s : State} {k : AKind} {r : Req} {va : Word} (h : s.mem.wf = true) :
    Ends Stop.Canon (fun p => p.1.mem.wf = true) (s.recordAccs k r va) := by
  unfold State.recordAccs
  refine State.accessGate_wf.bind fun _ _ => waitFor_wf.bind fun _ _ => ?_
  refine (Ends.mapM (fun _ => State.precise_wf h) _).bind fun _ _ => waitFor_wf.bind fun _ _ => ?_
  refine (State.requests_wf h).bind fun _ h => ?_
  split
  · exact h
  · exact h

@[simp] theorem State.spillOp_wf {s : State} (h : s.mem.wf = true) :
    Ends Stop.Canon (fun t => t.mem.wf = true) (s.spillOp) := by
  unfold State.spillOp
  refine check_wf.bind fun _ _ => ?_
  dsimp only
  split
  · simpa using h
  · refine check_wf.bind fun _ _ => State.need_wf.bind fun _ _ => (State.recordAccs_wf h).bind fun (_, _) h => ?_
    simpa using State.canon_write h

@[simp] theorem State.fillOp_wf {s : State} (h : s.mem.wf = true) :
    Ends Stop.Canon (fun t => t.mem.wf = true) s.fillOp := by
  unfold State.fillOp
  dsimp only
  refine check_wf.bind fun _ _ => ?_
  split
  · trivial
  · refine (State.recordAccs_wf h).bind fun (_, _) h => ?_
    trivial

@[simp] theorem State.hretOp_wf {s : State} (h : s.mem.wf = true) :
    Ends Stop.Canon (fun t => t.mem.wf = true) s.hretOp := by
  unfold State.hretOp
  dsimp only
  refine check_wf.bind fun _ _ => ?_
  refine check_wf.bind fun _ _ => ?_
  trivial

@[simp] theorem State.realignOp_wf {s : State} {dist : Src} {lit : Word} {len : Nat} (h : s.mem.wf = true) :
    Ends Stop.Canon (fun t => t.mem.wf = true) (s.realignOp dist lit len) := by
  unfold State.realignOp
  refine State.use1_wf.bind fun _ _ => ?_
  split
  · trivial
  · trivial

/-! ### Contexts -/

@[simp] theorem State.startOp_wf {s : State} {d : Dst} {imm : BitVec 24} (h : s.mem.wf = true) :
    Ends Stop.Canon (fun t => t.mem.wf = true) (s.startOp d imm) := by
  unfold State.startOp
  dsimp only
  split
  · trivial
  · trivial

@[simp] theorem State.finOp_wf {s : State} (h : s.mem.wf = true) :
    Ends Stop.Canon (fun t => t.mem.wf = true) s.finOp := by
  unfold State.finOp
  dsimp only
  refine waitFor_wf.bind fun _ _ => ?_
  simp [h]

theorem State.queueWait_mem {s t : State} {c : CoreId} {x : Core} (h : s.queueWait c x = some t) : t.mem = s.mem := by
  unfold State.queueWait at h
  split at h
  · exact State.demand_mem h
  · cases h

@[simp] theorem State.setQueue_wf {s : State} {c : CoreId} {x : Core} (h : s.mem.wf = true) :
    (s.setQueue c x).mem.wf = true := by
  unfold State.setQueue
  split
  · simp [h]
  · simp [h]

@[simp] theorem State.joinRecord_wf {s : State} {j : Word} (h : s.mem.wf = true) :
    Ends Stop.Canon (fun p => p.1.mem.wf = true) (s.joinRecord j) := by
  unfold State.joinRecord
  refine (State.precise_wf h).bind fun _ _ => ?_
  refine (State.access_wf h).bind fun _ h => ?_
  dsimp only
  refine (State.precise_wf h).bind fun _ _ => ?_
  refine (State.access_wf h).bind fun _ h => ?_
  trivial

@[simp] theorem State.joinReady_wf {s : State} {j : Word} (h : s.mem.wf = true) :
    Ends Stop.Canon (fun _ => True) (s.joinReady j) := by
  unfold State.joinReady
  refine (State.joinRecord_wf h).bind fun (_, _, _) h => ?_
  dsimp only
  split
  · obtain ⟨x, -, hx⟩ := Option.bind_eq_some_iff.mp ‹_›
    exact State.await_wf (State.wf_of_mem_eq (State.queueWait_mem hx) h)
  · trivial

theorem Res.pause_wf {α : Type} {A : α → Prop} {r : Res α} (hr : Ends Stop.Canon A r) :
    Ends Stop.Canon (fun _ => True) r.pause := by
  unfold Res.pause
  split
  · trivial
  · trivial
  · trivial
  · exact hr

@[simp] theorem State.joinOp_wf {s : State} {d : Dst} {base : Src} {imm : BitVec 24} {lit : Word} {len : Nat}
    (h : s.mem.wf = true) :
    Ends Stop.Canon (fun t => t.mem.wf = true) (s.joinOp d base imm lit len) := by
  unfold State.joinOp
  refine State.use1_wf.bind fun _ _ => check_wf.bind fun _ _ => (State.release_wf h).bind fun _ h => ?_
  refine State.accessGate_wf.bind fun _ _ => (State.precise_wf h).bind fun a _ => (State.access_wf h).bind fun t h => ?_
  have hw : ∀ n v, (t.writeAcc a n v).mem.wf = true := fun n v => State.canon_writeAcc h
  dsimp only
  split
  · simpa using hw _ _
  · refine (Res.pause_wf (State.joinReady_wf h)).bind fun _ _ => ?_
    split
    · simpa using hw _ _
    · have ht := (State.joinRecord_wf (hw _ _)).of_error ‹_ = Except.error (Stop.trapAt _ _)›
      simpa using ht
    · exact (State.joinRecord_wf (hw _ _)).of_error ‹_›
    · have hr := (State.joinRecord_wf (hw _ _)).of_ok ‹_›
      dsimp only at hr ⊢
      split
      · simpa using hr
      · simpa using State.setQueue_wf hr

@[simp] theorem State.waitOp_wf {s : State} {sc : Scope} {w : Win} {ty : Option Ty} {d : Dst} {base v : Src}
    {imm : BitVec 24} {lit : Word} {len : Nat} (h : s.mem.wf = true) :
    Ends Stop.Canon (fun t => t.mem.wf = true) (s.waitOp sc w ty d base v imm lit len) := by
  unfold State.waitOp
  refine State.use2_wf.bind fun (_, _) _ => ?_
  dsimp only
  refine State.acquireGate_wf.bind fun _ _ => ?_
  refine (State.loadAcc_wf h).bind fun (_, _) h => ?_
  split
  · simp [h]
  · simp [h]

@[simp] theorem State.popRecord_wf {s : State} {c : CoreId} {may : SlotId → Bool} (h : s.mem.wf = true) :
    (s.popRecord c may).mem.wf = true := by
  unfold State.popRecord
  split
  · exact h
  · dsimp only
    split
    · exact h
    · split
      · split
        · exact State.wf_of_mem_eq (State.queueWait_mem ‹_›) h
        · refine State.within_wf (fun t ht => ?_) (by simpa using State.setQueue_wf h)
          split
          · exact State.canon_takeTrap ht
          · simpa using ht
      · exact h

@[simp] theorem State.steal_wf {s : State} {thief victim : CoreId} (h : s.mem.wf = true) :
    (s.steal thief victim).mem.wf = true := by
  unfold State.steal
  split
  · exact h
  · dsimp only
    split
    · have h := State.wf_of_mem_eq (State.queueWait_mem ‹_›) h
      exact h
    · simp [h]

@[simp] theorem State.stealSweep_wf {s : State} {c : CoreId} (h : s.mem.wf = true) :
    (s.stealSweep c).mem.wf = true := by
  unfold State.stealSweep
  split
  · exact h
  · split
    · dsimp only
      split
      · exact h
      · simp [h]
    · dsimp only
      split
      · exact h
      · simp [h]

/-! ### Rings -/

@[simp] theorem State.ringAdd_wf {s : State} {c : CoreId} {off : Nat} {rec : List Byte} (h : s.mem.wf = true) :
    (s.ringAdd c off rec).mem.wf = true := by
  unfold State.ringAdd
  split
  · exact h
  · split
    · exact h
    · split
      · exact h
      · simp only
        generalize (!_ : Bool) = bad
        split
        · exact State.canon_write h
        · split
          · exact State.canon_write h
          · rw [State.modCore_mem]
            exact State.canon_write (State.canon_engineWrite h)

/-! ### Messages -/

@[simp] theorem State.messageWindow_wf {s : State} {k : AKind} {w : Win} {ea : Word} :
    Ends Stop.Canon (fun _ => True) (s.messageWindow k w ea) := by
  simp [State.messageWindow]

@[simp] theorem State.read64_wf {s : State} {w : Win} {ea : Word} (h : s.mem.wf = true) :
    Ends Stop.Canon (fun p => p.1.mem.wf = true) (s.read64 w ea) := by
  unfold State.read64
  refine State.messageWindow_wf.bind fun _ _ => ?_
  refine (State.loadAcc_wf h).bind fun (_, _) h => ?_
  dsimp only
  trivial

@[simp] theorem State.msendOp_wf {s : State} {sc : Scope} {w : Win} {imm : BitVec 24} {chk : Bool} {base : Src}
    {ch : Fin 16} {lit : Word} {len : Nat} (h : s.mem.wf = true) :
    Ends Stop.Canon (fun t => t.mem.wf = true) (s.msendOp sc w imm chk base ch lit len) := by
  unfold State.msendOp
  refine State.use1_wf.bind fun _ _ => ?_
  refine State.messageWindow_wf.bind fun _ _ => ?_
  dsimp only
  split
  · exact trap_wf
  · split
    · trivial
    · refine waitFor_wf.bind fun _ _ => ?_
      refine (State.release_wf h).bind fun _ h => ?_
      refine (State.read64_wf h).bind fun (_, _) h => ?_
      trivial

@[simp] theorem State.arriveNak_wf {s : State} {c : CoreId} {ch : Fin 16} (h : s.mem.wf = true) :
    (s.arriveNak c ch).mem.wf = true := by
  unfold State.arriveNak
  dsimp only
  split
  · exact h
  · split
    · exact h
    · split
      · simp [h]
      · simp [h]

@[simp] theorem State.putPayload_wf {s : State} {a : Acc} {m : Message} (h : s.mem.wf = true) :
    (s.putPayload a m).mem.wf = true := by
  unfold State.putPayload
  split
  · simp [h]
  · simp [h]

@[simp] theorem State.storeMessage_wf {s : State} {w : Win} {ea : Word} {p : Fin 16 × Message} (h : s.mem.wf = true) :
    Ends Stop.Canon (fun t => t.mem.wf = true) (s.storeMessage w ea p) := by
  unfold State.storeMessage
  refine (State.storeAcc_wf h).bind fun (_, _) h => ?_
  dsimp only
  split
  · simp [h]
  · simp [h]
  · simp [h]
  · simp [h]

@[simp] theorem State.recvCheck_wf {s : State} {w : Win} {ea : Word} {ch : Fin 16} (h : s.mem.wf = true) :
    Ends Stop.Canon (fun _ => True) (s.recvCheck w ea ch) := by
  unfold State.recvCheck
  refine State.messageWindow_wf.bind fun _ _ => check_wf.bind fun _ _ => ?_
  split
  · exact check_wf
  · exact (State.precise_wf h).bind fun _ _ => trivial

@[simp] theorem State.mrecvOp_wf {s : State} {sc : Scope} {w : Win} {imm : BitVec 24} {dv : Bool} {d : Dst}
    {base : Src} {ch : Fin 16}
    {lit : Word} {len : Nat} (h : s.mem.wf = true) :
    Ends Stop.Canon (fun t => t.mem.wf = true) (s.mrecvOp sc w imm dv d base ch lit len) := by
  unfold State.mrecvOp
  refine State.use1_wf.bind fun _ _ => (State.recvCheck_wf h).bind fun _ _ => ?_
  split
  · exact (State.alloc_wf h).bind fun (_, _) h => by simpa using h
  · refine State.acquireGate_wf.bind fun _ _ => ?_
    split
    · trivial
    · split
      · trivial
      · exact (State.storeMessage_wf h).bind fun _ h => by simpa using h

@[simp] theorem State.deferredReceive_wf {s : State} (h : s.mem.wf = true) :
    s.deferredReceive.mem.wf = true := by
  unfold State.deferredReceive
  split
  · exact h
  · split
    · exact h
    · have hstore (r : DRecv) (p : Fin 16 × Message) : Ends Stop.Canon (fun t => t.mem.wf = true)
          (do s.acquireGate r.sc; s.storeMessage r.win r.ea p : Res State) :=
        State.acquireGate_wf.bind fun _ _ => State.storeMessage_wf h
      dsimp only
      split
      · simpa using (hstore _ _).of_ok ‹_›
      · simpa using h
      · simpa using h
      · exact (hstore _ _).of_error ‹_›
      · exact h

@[simp] theorem State.mprobeOp_wf {s : State} {d : Dst} {ch : Fin 16} (h : s.mem.wf = true) :
    Ends Stop.Canon (fun t => t.mem.wf = true) (s.mprobeOp d ch) := by
  unfold State.mprobeOp
  refine check_wf.bind fun _ _ => ?_
  dsimp only
  trivial

/-! ### Drill -/

@[simp] theorem State.djobOp_wf {s : State} {w : Win} {imm : BitVec 24} {d : Dst} {base : Src} {lit : Word}
    {len : Nat} (h : s.mem.wf = true) : Ends Stop.Canon (fun t => t.mem.wf = true) (s.djobOp w imm d base lit len) := by
  unfold State.djobOp
  refine State.use1_wf.bind fun _ _ => ?_
  dsimp only
  refine waitFor_wf.bind fun _ _ => ?_
  refine State.symGate_wf.bind fun _ _ => ?_
  refine (State.release_wf h).bind fun _ h => ?_
  refine (State.read64_wf h).bind fun (_, _) h => ?_
  refine check_wf.bind fun _ _ => ?_
  refine (State.alloc_wf h).bind fun (_, _) h => ?_
  trivial

@[simp] theorem State.rbindOp_wf {s : State} {w : Win} {imm : BitVec 24} {d : Dst} {base range : Src} {lit : Word}
    {len : Nat} (h : s.mem.wf = true) :
    Ends Stop.Canon (fun t => t.mem.wf = true) (s.rbindOp w imm d base range lit len) := by
  unfold State.rbindOp
  refine State.use2_wf.bind fun (_, _) _ => ?_
  dsimp only
  refine check_wf.bind fun _ _ => ?_
  refine check_wf.bind fun _ _ => ?_
  refine check_wf.bind fun _ _ => ?_
  refine (State.release_wf h).bind fun _ h => ?_
  refine (State.read64_wf h).bind fun (_, _) h => ?_
  refine check_wf.bind fun _ _ => ?_
  dsimp only
  split
  · trivial
  · trivial

@[simp] theorem State.rfreeOp_wf {s : State} {idx : Src} {lit : Word} {len : Nat} (h : s.mem.wf = true) :
    Ends Stop.Canon (fun t => t.mem.wf = true) (s.rfreeOp idx lit len) := by
  unfold State.rfreeOp
  refine State.use1_wf.bind fun _ _ => ?_
  split
  · trivial
  · exact trap_wf

theorem State.engineDemand_mem {s t : State} {f : From} {as : List Acc} {r : Req} (h : s.engineDemand f as r = some t) :
    t.mem = s.mem := by
  have hstep : ∀ (u : State) (a : Acc), ((u.demand f a r).getD u).mem = u.mem := by
    intro u a
    cases hd : u.demand f a r with
    | none => rfl
    | some v => exact State.demand_mem hd
  unfold State.engineDemand at h
  dsimp only at h
  split at h
  · cases h
  · cases h
    exact foldl_mem hstep _ s

@[simp] theorem State.copyChunk_wf {s : State} {c : CoreId} {l : Launch} {j : Job} {src : List (List Acc)}
    {dst : List (List (Nat × List Acc))} {next : JobPhase} {spoiled : Bool} (h : s.mem.wf = true) :
    (s.copyChunk c l j src dst next spoiled).mem.wf = true := by
  simp [State.copyChunk, h]

@[simp] theorem State.moveChunk_wf {s : State} {c : CoreId} {l : Launch} {j : Job} {i : Nat} {spoiled : Bool}
    (h : s.mem.wf = true) : (s.moveChunk c l j i spoiled).mem.wf = true := by
  unfold State.moveChunk
  dsimp only
  split
  · have h := State.wf_of_mem_eq (State.engineDemand_mem ‹_›) h
    exact h
  · split
    · simp [h]
    · simp [h]
    · split
      · have h := State.wf_of_mem_eq (State.engineDemand_mem ‹_›) h
        exact h
      · have h := State.wf_of_mem_eq (State.engineDemand_mem ‹_›) h
        exact h
      · simp [h]

@[simp] theorem State.drillChunk_wf {s : State} {c : CoreId} {spoiled : Bool} (h : s.mem.wf = true) :
    (s.drillChunk c spoiled).mem.wf = true := by
  unfold State.drillChunk
  dsimp only
  split
  · exact h
  · split
    · split
      · simp [h]
      · exact h
    · exact h

@[simp] theorem State.endJob_wf {s : State} {c : CoreId} {l : Launch} {j : Job} {status cause : Nat}
    {failed : Option (Cause × Word)} (h : s.mem.wf = true) : (s.endJob c l j status cause failed).mem.wf = true := by
  unfold State.endJob
  split
  · split
    · split
      · simp [h]
      · split
        · simp [h]
        · simp [h]
    · split
      · split
        · simp [h]
        · simp [h]
      · split
        · simp [h]
        · simp [h]
  · split
    · split
      · simp [h]
      · split
        · simp [h]
        · simp [h]
    · split
      · split
        · simp [h]
        · simp [h]
      · split
        · simp [h]
        · simp [h]

@[simp] theorem State.subBarrier_wf {s : State} {l : Launch} {off : Nat} {p : CoreId × Nat} (h : s.mem.wf = true) :
    Ends (fun _ => True) (fun p => p.1.mem.wf = true) (s.subBarrier l off p) := by
  unfold State.subBarrier
  split
  · trivial
  · split
    · trivial
    · dsimp only
      rw [ends_ok]
      split
      · simpa using State.canon_write h
      · exact State.canon_write h

@[simp] theorem State.subBarriers_wf {s : State} {l : Launch} {off : Nat} {ps : List (CoreId × Nat)} {ran : Bool}
    (h : s.mem.wf = true) :
    (s.subBarriers l off ps ran).1.mem.wf = true := by
  induction ps generalizing s ran with
  | nil => exact h
  | cons p ps ih =>
    unfold State.subBarriers
    split
    · exact h
    · exact ih ((State.subBarrier_wf h).of_ok ‹_›)

@[simp] theorem State.jobSignal_wf {s : State} {c : CoreId} {l : Launch} {x : Layout} (h : s.mem.wf = true) :
    Ends (fun _ => True) (fun t => t.mem.wf = true) (s.jobSignal c l x) := by
  unfold State.jobSignal
  split
  · exact h
  · split
    · trivial
    · split
      · trivial
      · exact State.canon_write h

theorem State.jobTokens_mem {s t : State} {c : CoreId} {j : Job} (h : s.jobTokens c j = some t) : t.mem = s.mem := by
  unfold State.jobTokens at h
  dsimp only at h
  split at h
  · cases h
  · split at h
    · cases h
    · rw [← Option.some.inj h]
    · split at h
      · rw [← Option.some.inj h]
      · generalize (_ && _ : Bool) = none_ at h
        cases none_
        · rw [← Option.some.inj h, State.modCore_mem, State.sendTokens_mem]
        · cases h

@[simp] theorem State.jobComplete_wf {s : State} {c : CoreId} (h : s.mem.wf = true) :
    (s.jobComplete c).mem.wf = true := by
  unfold State.jobComplete
  split
  · rename_i j _ l _ _
    split
    · exact h
    · split
      · exact State.wf_of_mem_eq (State.jobTokens_mem ‹_›) h
      · have hbar : (if j.layout.bar then s.subBarriers l j.layout.barOff (j.layout.barriers l c) false
            else (s, false, none)).1.mem.wf = true := by
          split
          · exact State.subBarriers_wf h
          · exact h
        dsimp only
        split
        · simpa using hbar
        · split
          · simpa using hbar
          · exact State.endJob_wf (by simpa using (State.jobSignal_wf hbar).of_ok ‹_›)
  · exact h

@[simp] theorem State.jobFault_wf {s : State} {c : CoreId} (h : s.mem.wf = true) : (s.jobFault c).mem.wf = true := by
  unfold State.jobFault
  split
  · split
    · simp [h]
    · exact h
  · exact h

/-! ### HarrowCmd -/

@[simp] theorem State.mcmdOp_wf {s : State} {w : Win} {imm : BitVec 24} {d : Dst} {base idx : Src} {lit : Word}
    {len : Nat} (h : s.mem.wf = true) :
    Ends Stop.Canon (fun t => t.mem.wf = true) (s.mcmdOp w imm d base idx lit len) := by
  unfold State.mcmdOp
  refine State.ea3_wf.bind fun _ _ => ?_
  refine waitFor_wf.bind fun _ _ => ?_
  refine State.symGate_wf.bind fun _ _ => ?_
  refine (State.release_wf h).bind fun _ h => ?_
  refine (State.read64_wf h).bind fun (_, _) h => ?_
  dsimp only
  refine check_wf.bind fun _ _ => ?_
  refine (State.alloc_wf h).bind fun (_, _) h => ?_
  split
  · trivial
  · trivial

@[simp] theorem State.mqryOp_wf {s : State} {d : Dst} {sel : Src} {lit : Word} {len : Nat} (h : s.mem.wf = true) :
    Ends Stop.Canon (fun t => t.mem.wf = true) (s.mqryOp d sel lit len) := by
  unfold State.mqryOp
  refine State.use1_wf.bind fun _ _ => ?_
  refine check_wf.bind fun _ _ => ?_
  dsimp only
  split
  · trivial
  · trivial

/-! ### Homes -/

@[simp] theorem State.snoopAnswer_wf {s : State} {key : Nat} {data : Option (List Byte)} (h : s.mem.wf = true) :
    (s.snoopAnswer key data).mem.wf = true := by
  unfold State.snoopAnswer
  split
  · dsimp only
    split
    · exact h
    · split
      · simp [h]
      · simp [h]
  · dsimp only
    split
    · exact h
    · simp [h]

@[simp] theorem State.hostWrites_wf {s : State} {p pa : Nat} {data : List Byte} {bad : Bool} (h : s.mem.wf = true) :
    (s.hostWrites p pa data bad).mem.wf = true := by
  unfold State.hostWrites
  split
  · exact h
  · dsimp only
    split
    · exact h
    · simp [h]

@[simp] theorem State.storeHost_wf {s : State} {k : Nat} {bs : List Byte} {bad : Bool} (h : s.mem.wf = true) :
    (s.storeHost k bs bad).mem.wf = true := by
  unfold State.storeHost
  split
  · simp [h]
  · exact h

@[simp] theorem State.grantHost_wf {s : State} {k : Nat} {data : List Byte} {st : HostSt} {bad : Bool}
    (h : s.mem.wf = true) : (s.grantHost k data st bad).mem.wf = true := by
  unfold State.grantHost
  split
  · exact h
  · split
    · simp [h]
    · simp [h]

@[simp] theorem State.ioAnswer_wf {s : State} {k : Nat} {data : List Byte} {bad : Bool} (h : s.mem.wf = true) :
    (s.ioAnswer k data bad).mem.wf = true := by
  unfold State.ioAnswer
  split
  · simp [h]
  · split
    · exact h
    · simp [h]

@[simp] theorem State.hostGrant_wf {s : State} {k : Nat} {a : HostGrant} {bad : Bool} (h : s.mem.wf = true) :
    (s.hostGrant k a bad).mem.wf = true := by
  unfold State.hostGrant
  split
  · simp [h]
  · simp [h]
  · simp [h]
  · simp [h]
  · simp [h]

theorem State.entriesWait_mem {s t : State} {p : Nat} {tables : List (Nat × Word)} (h : s.entriesWait p tables = some t) :
    t.mem = s.mem := by
  obtain ⟨e, -, he⟩ := List.exists_of_findSome?_eq_some h
  exact State.demand_mem he

@[simp] theorem State.writeEntry_wf {s : State} {p : Nat} {e : Nat × Word} (h : s.mem.wf = true) :
    (s.writeEntry p e).mem.wf = true := by
  unfold State.writeEntry
  dsimp only
  split
  · simp [h]
  · split
    · simp [h]
    · simp [h]

@[simp] theorem State.shootdown_wf {s : State} {p space : Nat} {tables : List (Nat × Word)} (h : s.mem.wf = true) :
    (s.shootdown p space tables).mem.wf = true := by
  unfold State.shootdown
  split
  · exact h
  · split
    · have h := State.wf_of_mem_eq (State.entriesWait_mem ‹_›) h
      exact h
    · refine foldl_wf (fun s a h => ?_) _ ?_
      · simp [h]
      · exact h

/-! ### Torus -/

@[simp] theorem State.hbarOp_wf {s : State} {xp : Bool} {grp : Src} {lit : Word} {len : Nat} (h : s.mem.wf = true) :
    Ends Stop.Canon (fun t => t.mem.wf = true) (s.hbarOp xp grp lit len) := by
  unfold State.hbarOp
  refine State.use1_wf.bind fun _ _ => ?_
  dsimp only
  refine check_wf.bind fun _ _ => ?_
  refine (State.release_wf h).bind fun _ h => ?_
  refine State.accessGate_wf.bind fun _ _ => ?_
  simp [h]

@[simp] theorem State.xmitOp_wf {s : State} {v : Src} {dir : Sys2Proof.Dir} (h : s.mem.wf = true) :
    Ends Stop.Canon (fun t => t.mem.wf = true) (s.xmitOp v dir) := by
  unfold State.xmitOp
  refine State.use1_wf.bind fun _ _ => ?_
  dsimp only
  trivial

@[simp] theorem State.evgathOp_wf {s : State} {imm : BitVec 24} {base : Src} {lit : Word} {len : Nat}
    (h : s.mem.wf = true) : Ends Stop.Canon (fun t => t.mem.wf = true) (s.evgathOp imm base lit len) := by
  unfold State.evgathOp
  refine State.use1_wf.bind fun _ _ => ?_
  dsimp only
  refine check_wf.bind fun _ _ => ?_
  refine check_wf.bind fun _ _ => ?_
  trivial

@[simp] theorem State.gatherComplete_wf {s : State} {l : Nat} (h : s.mem.wf = true) :
    (s.gatherComplete l).mem.wf = true := by
  unfold State.gatherComplete
  split
  · exact h
  · dsimp only
    split
    · exact h
    · refine foldl_wf (fun s a h => ?_) _ ?_
      · split
        · exact h
        · split
          · simp [h]
          · simp [h]
      · exact h

/-! ### Sower -/

@[simp] theorem State.headlandGate_wf {s : State} : Ends Stop.Canon (fun _ => True) s.headlandGate := by
  simp [State.headlandGate]

theorem State.postEntry_mem {s t : State} {l : Launch} {b : List Byte} {n : Nat} (h : s.postEntry l b = some (t, n)) :
    t.mem = s.mem := by
  unfold State.postEntry at h
  dsimp only at h
  split at h
  · cases h
  · obtain ⟨x, -, hx⟩ := Option.map_eq_some_iff.mp h
    obtain ⟨rfl, -⟩ := Prod.ext_iff.mp hx
    rw [State.modSower_mem]
    split
    · exact State.fireMet_mem s
    · rfl

@[simp] theorem State.trgPostOp_wf {s : State} {w : Win} {imm : BitVec 24} {d : Dst} {base : Src} {lit : Word}
    {len : Nat} (h : s.mem.wf = true) :
    Ends Stop.Canon (fun t => t.mem.wf = true) (s.trgPostOp w imm d base lit len) := by
  unfold State.trgPostOp
  refine State.use1_wf.bind fun _ _ => State.headlandGate_wf.bind fun _ _ => (State.release_wf h).bind fun _ h => ?_
  refine (State.read64_wf h).bind fun (_, _) h => ?_
  dsimp only
  split
  · trivial
  · split
    · simpa using h
    · simpa [State.postEntry_mem ‹_›] using h

@[simp] theorem State.trgIncOp_wf {s : State} {sc : Scope} {ctr n : Src} {lit : Word} {len : Nat}
    (h : s.mem.wf = true) : Ends Stop.Canon (fun t => t.mem.wf = true) (s.trgIncOp sc ctr n lit len) := by
  unfold State.trgIncOp
  refine State.use2_wf.bind fun (_, _) _ => ?_
  dsimp only
  refine check_wf.bind fun _ _ => ?_
  refine State.headlandGate_wf.bind fun _ _ => ?_
  refine (State.release_wf h).bind fun _ h => ?_
  refine State.accessGate_wf.bind fun _ _ => ?_
  trivial

@[simp] theorem State.trgRdOp_wf {s : State} {sc : Scope} {d : Dst} {ctr : Src} {lit : Word} {len : Nat}
    (h : s.mem.wf = true) : Ends Stop.Canon (fun t => t.mem.wf = true) (s.trgRdOp sc d ctr lit len) := by
  unfold State.trgRdOp
  refine State.use1_wf.bind fun _ _ => ?_
  refine check_wf.bind fun _ _ => ?_
  refine State.headlandGate_wf.bind fun _ _ => ?_
  refine State.acquireGate_wf.bind fun _ _ => ?_
  refine State.accessGate_wf.bind fun _ _ => ?_
  simp [h]

@[simp] theorem State.trgCancelOp_wf {s : State} {d : Dst} {hd : Src} {lit : Word} {len : Nat} (h : s.mem.wf = true) :
    Ends Stop.Canon (fun t => t.mem.wf = true) (s.trgCancelOp d hd lit len) := by
  unfold State.trgCancelOp
  refine State.use1_wf.bind fun _ _ => ?_
  refine State.headlandGate_wf.bind fun _ _ => ?_
  dsimp only
  split
  · trivial
  · trivial

/-! ### SowerMove -/

@[simp] theorem State.sowerTry_wf {α : Type} {s : State} {r : Except AccErr α} (h : s.mem.wf = true) :
    Ends SStop.Canon (fun _ => True) (s.sowerTry r) := by
  rcases r with e | a
  · cases e
    · trivial
    · trivial
    · exact h
  · trivial

@[simp] theorem State.sowerAccs_wf {s : State} {l : Launch} {k : AKind} {va : Word} {n : Nat} (h : s.mem.wf = true) :
    Ends SStop.Canon (fun _ => True) (s.sowerAccs l k va n) := by
  unfold State.sowerAccs
  split
  · trivial
  · exact State.sowerTry_wf h

@[simp] theorem State.sowerDemand_wf {s : State} {as : List Acc} {r : Req} (h : s.mem.wf = true) :
    Ends SStop.Canon (fun _ => True) (s.sowerDemand as r) := by
  unfold State.sowerDemand
  split
  · have h := State.wf_of_mem_eq (State.engineDemand_mem ‹_›) h
    trivial
  · trivial

@[simp] theorem State.sowerRead_wf {s : State} {l : Launch} {va : Word} {n : Nat} {consumes : Bool}
    (h : s.mem.wf = true) : Ends SStop.Canon (fun p => p.1.mem.wf = true) (s.sowerRead l va n consumes) := by
  unfold State.sowerRead
  refine (State.sowerAccs_wf h).bind fun _ _ => ?_
  refine (State.sowerDemand_wf h).bind fun _ _ => ?_
  dsimp only
  split
  · exact sFail_wf
  · simp [h]

@[simp] theorem State.sowerPart_wf {s : State} {l : Launch} {va : Word} {bs : List Byte} {bad : List Bool}
    {cov : List Covered} (h : s.mem.wf = true) :
    Ends SStop.Canon (fun p => p.1.mem.wf = true) (s.sowerPart l va bs bad cov) := by
  unfold State.sowerPart
  refine (State.sowerAccs_wf h).bind fun _ _ => ?_
  refine (State.sowerDemand_wf h).bind fun _ _ => ?_
  simp [h]

@[simp] theorem State.sowerWrite_wf {s : State} {l : Launch} {va : Word} {bs : List Byte} {bad : List Bool}
    (h : s.mem.wf = true) : Ends SStop.Canon (fun t => t.mem.wf = true) (s.sowerWrite l va bs bad) := by
  have hpart := State.sowerPart_wf (l := l) (va := va) (bs := bs) (bad := bad) (cov := []) h
  unfold State.sowerWrite
  cases hr : s.sowerPart l va bs bad [] with
  | ok p => exact hpart.of_ok hr
  | error e => exact hpart.of_error hr

@[simp] theorem State.homeAcc_wf {s : State} {l : Launch} {t : Ty} {rop : Nat} {va : Word} (h : s.mem.wf = true) :
    Ends SStop.Canon (fun _ => True) (s.homeAcc l t rop va) := by
  unfold State.homeAcc
  dsimp only
  split
  · refine Ends.bind (A := fun _ => True) ?_ fun _ _ => ?_
    · exact sFail_wf
    · split
      · refine Ends.bind (A := fun _ => True) ?_ fun _ _ => ?_
        · trivial
        · refine (State.sowerTry_wf h).bind fun _ _ => ?_
          split
          · trivial
          · trivial
      · refine (State.sowerTry_wf h).bind fun _ _ => ?_
        split
        · trivial
        · trivial
  · split
    · refine Ends.bind (A := fun _ => True) ?_ fun _ _ => ?_
      · trivial
      · refine (State.sowerTry_wf h).bind fun _ _ => ?_
        split
        · trivial
        · trivial
    · refine (State.sowerTry_wf h).bind fun _ _ => ?_
      split
      · trivial
      · trivial

@[simp] theorem State.homeDemands_wf {s : State} {l : Launch} {t : Ty} {rop : Nat} {va : Word} {n : Nat} {waits : Bool}
    (h : s.mem.wf = true) : (s.homeDemands l t rop va n waits).1.mem.wf = true := by
  induction n generalizing s va waits with
  | zero => exact h
  | succ n ih =>
    unfold State.homeDemands
    split
    · exact (State.homeAcc_wf h).of_error ‹_›
    · exact h
    · split
      · exact ih (State.wf_of_mem_eq (State.engineDemand_mem ‹_›) h)
      · exact ih h

@[simp] theorem State.homeApply_wf {s : State} {l : Launch} {t : Ty} {rop : Nat} {va : Word} {ys : List Byte} {n : Nat}
    (h : s.mem.wf = true) : Ends SStop.Canon (fun t => t.mem.wf = true) (s.homeApply l t rop va ys n) := by
  induction n generalizing s va ys with
  | zero => exact h
  | succ n ih =>
    unfold State.homeApply
    refine (State.homeAcc_wf h).bind fun (_, _) _ => ih ?_
    exact State.canon_engineWrite (by simpa using h)

@[simp] theorem State.homeElements_wf {s : State} {l : Launch} {t : Ty} {rop : Nat} {va : Word} {ys : List Byte}
    (h : s.mem.wf = true) : Ends SStop.Canon (fun t => t.mem.wf = true) (s.homeElements l t rop va ys) := by
  unfold State.homeElements
  dsimp only
  split
  · simp [h]
  · exact State.homeApply_wf h

@[simp] theorem State.sowerAtomic_wf {s : State} {l : Launch} {va : Word} {v : Nat} (h : s.mem.wf = true) :
    Ends SStop.Canon (fun t => t.mem.wf = true) (s.sowerAtomic l va v) := by
  unfold State.sowerAtomic
  dsimp only
  split
  · refine Ends.bind (A := fun _ => True) ?_ fun _ _ => ?_
    · exact sFail_wf
    · split
      · refine Ends.bind (A := fun _ => True) ?_ fun _ _ => ?_
        · trivial
        · refine (State.sowerTry_wf h).bind fun _ _ => ?_
          refine (State.sowerDemand_wf h).bind fun _ _ => ?_
          simp [h]
      · refine (State.sowerTry_wf h).bind fun _ _ => ?_
        refine (State.sowerDemand_wf h).bind fun _ _ => ?_
        simp [h]
  · split
    · refine Ends.bind (A := fun _ => True) ?_ fun _ _ => ?_
      · trivial
      · refine (State.sowerTry_wf h).bind fun _ _ => ?_
        refine (State.sowerDemand_wf h).bind fun _ _ => ?_
        simp [h]
    · refine (State.sowerTry_wf h).bind fun _ _ => ?_
      refine (State.sowerDemand_wf h).bind fun _ _ => ?_
      simp [h]

@[simp] theorem State.a2aRow_wf {s : State} {l : Launch} {x : Xfer} {d : Nat} (h : s.mem.wf = true) :
    Ends SStop.Canon (fun p => p.1.mem.wf = true) (s.a2aRow l x d) := by
  unfold State.a2aRow
  refine (State.sowerRead_wf h).bind fun (_, _, _) h => ?_
  dsimp only
  trivial

@[simp] theorem State.moveOut_wf {s : State} {x : Xfer} {c : Comm} {out : Nat} (h : s.mem.wf = true) :
    Ends SStop.Canon (fun t => t.mem.wf = true) (s.moveOut x c out) := by
  unfold State.moveOut
  dsimp only
  split
  · refine (State.sowerRead_wf h).bind fun (_, _, _) h => ?_
    simp [h]
  · simp [h]
  · refine (State.sowerRead_wf h).bind fun (_, _, _) h => ?_
    refine (State.sowerPart_wf h).bind fun (_, _) h => ?_
    simp [h]
  · refine (State.sowerRead_wf h).bind fun (_, _, _) h => ?_
    simp [h]
  · simp [h]
  · refine (State.a2aRow_wf h).bind fun (_, _) h => ?_
    refine (State.sowerRead_wf h).bind fun (_, _, _) h => ?_
    simp [h]
  · split
    · trivial
    · simp [h]
  · trivial

@[simp] theorem State.sowerStop_wf {s : State} {c : Comm} {n : Nat} {e : SStop} (h : s.mem.wf = true) (he : e.Canon) :
    (s.sowerStop c n e).mem.wf = true := by
  unfold State.sowerStop
  split
  · exact he
  · simpa using h

@[simp] theorem State.serve_wf {s : State} {out : Nat} {l : List (Xfer × Comm)} {n : Nat} (h : s.mem.wf = true) :
    (s.serve out l n).mem.wf = true := by
  induction n generalizing s l with
  | zero => exact h
  | succ n ih =>
    unfold State.serve
    split
    · exact h
    · split
      · simpa using (State.moveOut_wf h).of_ok ‹_›
      · exact ih (State.canon_of_wait (State.moveOut_wf h) ‹_›)
      · exact State.sowerStop_wf h ((State.moveOut_wf h).of_error ‹_›)

@[simp] theorem State.startChunk_wf {s : State} {out : Nat} (h : s.mem.wf = true) :
    (s.startChunk out).mem.wf = true := by
  unfold State.startChunk
  dsimp only
  split
  · split
    · simp [h]
    · exact h
  · simp [h]

@[simp] theorem State.takeChunk_wf {s : State} {x : Xfer} {c : Comm} {m : ChunkMsg} (h : s.mem.wf = true) :
    Ends SStop.Canon (fun t => t.mem.wf = true) (s.takeChunk x c m) := by
  unfold State.takeChunk
  dsimp only
  split
  · refine Ends.bind (A := fun _ => True) ?_ fun _ _ => ?_
    · exact sFail_wf
    · split
      · refine (State.sowerPart_wf h).bind fun (_, _) h => ?_
        simp [h]
      · split
        · refine Ends.bind (A := fun _ => True) ?_ fun _ _ => ?_
          · exact sFail_wf
          · split
            · exact sFail_wf
            · refine (State.homeElements_wf h).bind fun _ h => ?_
              simp [h]
        · split
          · exact sFail_wf
          · refine (State.homeElements_wf h).bind fun _ h => ?_
            simp [h]
      · split
        · exact sFail_wf
        · refine (State.sowerRead_wf h).bind fun (_, _, _) h => ?_
          refine (State.sowerPart_wf h).bind fun (_, _) h => ?_
          simp [h]
  · split
    · refine (State.sowerPart_wf h).bind fun (_, _) h => ?_
      simp [h]
    · split
      · refine Ends.bind (A := fun _ => True) ?_ fun _ _ => ?_
        · exact sFail_wf
        · split
          · exact sFail_wf
          · refine (State.homeElements_wf h).bind fun _ h => ?_
            simp [h]
      · split
        · exact sFail_wf
        · refine (State.homeElements_wf h).bind fun _ h => ?_
          simp [h]
    · split
      · exact sFail_wf
      · refine (State.sowerRead_wf h).bind fun (_, _, _) h => ?_
        refine (State.sowerPart_wf h).bind fun (_, _) h => ?_
        simp [h]

@[simp] theorem State.takeBlock_wf {s : State} {x : Xfer} {c : Comm} {m : ChunkMsg} (h : s.mem.wf = true) :
    Ends SStop.Canon (fun t => t.mem.wf = true) (s.takeBlock x c m) := by
  unfold State.takeBlock
  dsimp only
  refine (State.a2aRow_wf h).bind fun (_, _) h => ?_
  refine (State.sowerPart_wf h).bind fun (_, _) h => ?_
  split
  · refine (State.sowerWrite_wf h).bind fun _ h => ?_
    trivial
  · refine Ends.bind (A := fun t => t.mem.wf = true) ?_ fun _ h => ?_
    · trivial
    · trivial

@[simp] theorem State.consumeOne_wf {s : State} {serial src : Nat} (h : s.mem.wf = true) :
    (s.consumeOne serial src).1.mem.wf = true := by
  unfold State.consumeOne
  dsimp only
  split
  · exact h
  · split
    · split
      · simpa using (State.takeChunk_wf h).of_ok ‹_›
      · have he := (State.takeChunk_wf h).of_error ‹_›
        split
        · exact he
        · simpa using h
    · split
      · exact h
      · split
        · exact h
        · split
          · simpa using (State.takeBlock_wf h).of_ok ‹_›
          · have he := (State.takeBlock_wf h).of_error ‹_›
            split
            · exact he
            · simpa using h

@[simp] theorem State.consume_wf {s : State} {serial src fuel : Nat} (h : s.mem.wf = true) :
    (s.consume serial src fuel).mem.wf = true := by
  induction fuel generalizing s with
  | zero => exact h
  | succ fuel ih =>
    unfold State.consume
    dsimp only
    split
    · exact ih (State.consumeOne_wf h)
    · exact State.consumeOne_wf h

@[simp] theorem State.drainComm_wf {s : State} {c : Comm} {src : Nat} (h : s.mem.wf = true) :
    (s.drainComm c src).mem.wf = true := by
  simp [State.drainComm, h]

@[simp] theorem State.chunkArrives_wf {s : State} {cm src : Nat} {ext : Option ChunkMsg} (h : s.mem.wf = true) :
    (s.chunkArrives cm src ext).mem.wf = true := by
  unfold State.chunkArrives
  split
  · exact h
  · split
    · split
      · simp [h]
      · split
        · simp [h]
        · simp [h]
      · simp [h]
    · simp [h]
    · simp [h]

@[simp] theorem State.forwardBlock_wf {s : State} {cm src dst : Nat} {m : ChunkMsg} (h : s.mem.wf = true) :
    (s.forwardBlock cm src dst m).mem.wf = true := by
  unfold State.forwardBlock
  split
  · exact h
  · split
    · exact h
    · split
      · split
        · simp [h]
        · simp [h]
      · split
        · simp [h]
        · simp [h]

@[simp] theorem State.putData_wf {s : State} {c : Comm} {src : Nat} {m : PutMsg} (h : s.mem.wf = true) :
    Ends SStop.Canon (fun t => t.mem.wf = true) (s.putData c src m) := by
  unfold State.putData
  refine (State.sowerPart_wf h).bind fun (_, _) h => ?_
  dsimp only
  trivial

@[simp] theorem State.performPut_wf {s : State} {c : Comm} {src hd : Nat} {m : PutMsg} (h : s.mem.wf = true) :
    Ends SStop.Canon (fun t => t.mem.wf = true) (s.performPut c src hd m) := by
  unfold State.performPut
  dsimp only
  split
  · refine (State.sowerAtomic_wf h).bind fun _ h => ?_
    split
    · trivial
    · split
      · simp [h]
      · trivial
  · refine (State.putData_wf h).bind fun _ h => ?_
    split
    · trivial
    · split
      · simp [h]
      · trivial

@[simp] theorem State.putFrom_wf {s : State} {c : Comm} {src : Nat} {m : PutMsg} (h : s.mem.wf = true) :
    (s.putFrom c src m).mem.wf = true := by
  unfold State.putFrom
  split
  · exact h
  · split
    · simpa using h
    · split
      · exact h
      · exact h
      · split
        · simpa using (State.performPut_wf h).of_ok ‹_›
        · simpa using State.canon_of_wait (State.performPut_wf h) ‹_›
        · simpa using State.sowerStop_wf h ((State.performPut_wf h).of_error ‹_›)

@[simp] theorem State.putArrives_wf {s : State} {cm src : Nat} {ext : Option PutMsg} (h : s.mem.wf = true) :
    (s.putArrives cm src ext).mem.wf = true := by
  unfold State.putArrives
  split
  · exact h
  · split
    · split
      · dsimp only
        split
        · simpa using (State.performPut_wf h).of_ok ‹_›
        · exact (State.performPut_wf h).of_error ‹_›
        · simpa using h
      · exact h
    · exact State.putFrom_wf h
    · exact h

@[simp] theorem State.beginOrRetry_wf {s : State} {hd op : Nat} {mk : ERec → Comm → Xfer} (h : s.mem.wf = true) :
    (s.beginOrRetry hd op mk).mem.wf = true := by
  unfold State.beginOrRetry
  split
  · split
    · simp [h]
    · exact h
  · dsimp only
    split
    · split
      · simp [h]
      · simp [h]
    · simp [h]

@[simp] theorem State.readSteps_wf {s : State} {l : Launch} {c : Comm} {slot : Nat} {base va : Word} {fuel : Nat}
    {acc : List PStep}
    (h : s.mem.wf = true) :
    Ends SStop.Canon (fun p => p.1.mem.wf = true) (s.readSteps l c slot base va fuel acc) := by
  induction fuel generalizing s va acc with
  | zero => trivial
  | succ fuel ih =>
    unfold State.readSteps
    refine (State.sowerRead_wf h).bind fun (_, _, _) h => ?_
    dsimp only
    split
    · trivial
    · split
      · exact h
      · exact ih h

@[simp] theorem State.beginProg_wf {s : State} {n : Nat} (h : s.mem.wf = true) :
    (s.beginProg n).mem.wf = true := by
  unfold State.beginProg
  split
  · exact h
  · dsimp only
    split
    · exact State.sowerStop_wf h ((State.readSteps_wf h).of_error ‹_›)
    · split
      · simpa using h
      · simpa using (State.readSteps_wf h).of_ok ‹_›

@[simp] theorem State.progStep_wf {s : State} {hd : Nat} (h : s.mem.wf = true) : (s.progStep hd).mem.wf = true := by
  unfold State.progStep
  split
  · exact h
  · split
    · split
      · exact h
      · split
        · dsimp only
          split
          · simp [h]
          · simp [h]
        · split
          · simp [h]
          · split
            · simp [h]
            · split
              · dsimp only
                split
                · simp [h]
                · simp [h]
              · dsimp only
                split
                · simp [h]
                · simp [h]
    · exact h

/-! ### Queues -/

@[simp] theorem State.writeRecord_wf {s : State} {q : Nat} (h : s.mem.wf = true) : (s.writeRecord q).mem.wf = true := by
  unfold State.writeRecord
  split
  · exact h
  · dsimp only
    split
    · exact h
    · split
      · exact h
      · split
        · split
          · simp [h]
          · simp [h]
        · split
          · have h := State.wf_of_mem_eq (State.engineDemand_mem ‹_›) h
            exact h
          · split
            · simp [h]
            · simp [h]

/-! ### Save -/

@[simp] theorem State.writeRows_wf {s : State} {dst : Nat} {bs : List Byte} {n : Nat} (h : s.mem.wf = true) :
    (s.writeRows dst bs n).mem.wf = true := by
  induction n generalizing s dst bs with
  | zero => exact h
  | succ n ih => exact ih (State.canon_engineWrite h)

@[simp] theorem State.copyRows_wf {s : State} {src dst n : Nat} (h : s.mem.wf = true) :
    (s.copyRows src dst n).mem.wf = true := by
  induction n generalizing s src dst with
  | zero => exact h
  | succ n ih => exact ih (State.canon_engineWrite h)

@[simp] theorem State.saveLm_wf {s : State} {c : CoreId} {p : Split} {dst : Nat} (h : s.mem.wf = true) :
    (s.saveLm c p dst).mem.wf = true := by
  unfold State.saveLm
  refine foldl_wf (fun s a h => ?_) _ ?_
  · simp [h]
  · simp [h]

@[simp] theorem State.restoreLm_wf {s : State} {c : CoreId} {p : Split} {src : Nat} (h : s.mem.wf = true) :
    (s.restoreLm c p src).mem.wf = true := by
  unfold State.restoreLm
  refine foldl_wf (fun s a h => ?_) _ ?_
  · simp [h]
  · simp [h]

@[simp] theorem State.writeSave_wf {s : State} {l : Launch} {rank : Nat} {x : Core} (h : s.mem.wf = true) :
    (s.writeSave l rank x).mem.wf = true := by
  simp [State.writeSave, h]

/-! ### System -/

@[simp] theorem State.crdOp_wf {s : State} {d : Dst} {r : CReg} (h : s.mem.wf = true) :
    Ends Stop.Canon (fun t => t.mem.wf = true) (s.crdOp d r) := by
  unfold State.crdOp
  refine check_wf.bind fun _ _ => ?_
  dsimp only
  split
  · trivial
  · trivial

@[simp] theorem State.cwrOp_wf {s : State} {r : CReg} {v : Src} {lit : Word} {len : Nat} (h : s.mem.wf = true) :
    Ends Stop.Canon (fun t => t.mem.wf = true) (s.cwrOp r v lit len) := by
  unfold State.cwrOp
  refine check_wf.bind fun _ _ => ?_
  refine State.use1_wf.bind fun _ _ => ?_
  refine waitFor_wf.bind fun _ _ => ?_
  simp [h]

@[simp] theorem State.trapOp_wf {s : State} {d : Dst} {svc : BitVec 12} {arg : Src} {lit : Word} {len : Nat}
    (h : s.mem.wf = true) : Ends Stop.Canon (fun t => t.mem.wf = true) (s.trapOp d svc arg lit len) := by
  unfold State.trapOp
  refine State.use1_wf.bind fun _ _ => ?_
  refine (State.release_wf h).bind fun _ h => ?_
  dsimp only
  trivial

@[simp] theorem State.modSaved_wf {s : State} {c : CoreId} {p : Core → Bool} {f : Core → Core} {outside : Bool}
    (h : s.mem.wf = true) : (s.modSaved c p f outside).mem.wf = true := by
  fun_cases State.modSaved s c p f outside with
  | case1 => exact h
  | case2 l n x hx t ht => exact (State.comeAgain_mem t).symm ▸ State.wf_of_mem_eq (State.rangeDemand_mem ht) h
  | case3 l n x hx t ht => exact State.wf_of_mem_eq (State.rangeDemand_mem ht) h
  | case4 l n x hx =>
    refine State.writeSave_wf ?_
    exact h

@[simp] theorem State.deliverLoad_wf {s : State} {c : CoreId} {k : SlotId} (h : s.mem.wf = true) :
    (s.deliverLoad c k).mem.wf = true := by
  unfold State.deliverLoad
  split
  · exact h
  · exact State.modSaved_wf h

@[simp] theorem State.rejectMapping_wf {s : State} {c : CoreId} {k : SlotId} {va : Word} (h : s.mem.wf = true) :
    (s.rejectMapping c k va).mem.wf = true := by
  unfold State.rejectMapping
  cases (s.core c).parkedAt k va
  · exact State.modSaved_wf h
  · exact State.within_wf (fun _ => State.mappingRejected_wf) h

@[simp] theorem State.serviceReply_wf {s : State} {c : CoreId} {k : SlotId} {v : Word} (h : s.mem.wf = true) :
    (s.serviceReply c k v).mem.wf = true := by
  unfold State.serviceReply
  cases (s.core c).calls k
  · exact State.modSaved_wf h
  · refine State.within_wf (f := fun t => t.acquired .pkg) (fun t ht => ?_) h
    rw [State.acquired_mem]
    exact ht

@[simp] theorem State.putDescs_wf {s : State} {ds : List (Acc × List Byte)} (h : s.mem.wf = true) :
    (s.putDescs ds).mem.wf = true := by
  exact foldl_wf (fun _ _ ht => State.canon_engineWrite (by simpa using ht)) _ h

theorem State.answerWaits_mem {s t : State} {c : CoreId} {k : SlotId} {v : Answer} (h : s.answerWaits c k v = some t) :
    t.mem = s.mem := by
  unfold State.answerWaits at h
  dsimp only at h
  split at h
  · cases h; rfl
  · obtain ⟨d, -, hd⟩ := List.exists_of_findSome?_eq_some h
    exact State.demand_mem hd

@[simp] theorem State.wfeOp_wf {s : State} {d : Dst} (h : s.mem.wf = true) :
    Ends Stop.Canon (fun t => t.mem.wf = true) (s.wfeOp d) := by
  unfold State.wfeOp
  dsimp only
  split
  · exact h
  · simpa using h

@[simp] theorem State.idleOp_wf {s : State} (h : s.mem.wf = true) :
    Ends Stop.Canon (fun t => t.mem.wf = true) (s.idleOp) := by
  exact check_wf.bind fun _ _ => by simpa using h

@[simp] theorem State.deliverAsync_wf {s : State} {a : AsyncRep} (h : s.mem.wf = true) :
    (s.deliverAsync a).mem.wf = true := by
  unfold State.deliverAsync
  split
  · exact h
  · dsimp only
    split
    · simpa using h
    · exact State.within_wf (fun _ => State.canon_takeTrap) (by simpa using h)

@[simp] theorem State.asyncTrap_wf {s : State} (h : s.mem.wf = true) :
    s.asyncTrap.mem.wf = true := by
  unfold State.asyncTrap
  split
  · exact h
  · exact State.deliverAsync_wf h

/-! ### Admit -/

theorem laterRead_wf {α : Type} {A : α → Prop} {r : SRes α} (hr : Ends SStop.Canon A r) :
    Ends SStop.Canon A (laterRead r) := by
  unfold laterRead
  split
  · trivial
  · exact hr

@[simp] theorem refuseUnless_wf {ok : Bool} {c : Cause} :
    Ends SStop.Canon (fun _ => True) (refuseUnless ok c) := by
  unfold refuseUnless
  split <;> trivial

@[simp] theorem State.cpRead_wf {s : State} {l : Launch} {va : Word} {n : Nat} (h : s.mem.wf = true) :
    Ends SStop.Canon (fun p => p.1.mem.wf = true) (s.cpRead l va n) := by
  unfold State.cpRead
  exact (State.sowerRead_wf h).bind fun (_, _, _) h => h

@[simp] theorem State.checkLaunch_wf {s : State} {l : Launch} {arg : Word} (h : s.mem.wf = true) :
    Ends SStop.Canon (fun p => p.1.mem.wf = true) (s.checkLaunch l arg) := by
  have hopt : ∀ (t : State) (b : Prop) [Decidable b] (bs : List Byte) (va : Word) (n : Nat), t.mem.wf = true →
      Ends SStop.Canon (fun p => p.1.mem.wf = true) (if b then .ok (t, bs) else t.cpRead l va n) := by
    intro t b _ bs va n ht
    split
    · exact ht
    · exact State.cpRead_wf ht
  have hlater : ∀ (t : State) (va : Word) (n : Nat), t.mem.wf = true →
      Ends SStop.Canon (fun p => p.1.mem.wf = true) (laterRead (t.cpRead l va n)) :=
    fun t va n ht => laterRead_wf (State.cpRead_wf ht)
  unfold State.checkLaunch
  refine (State.cpRead_wf h).bind fun (_, _) h => (State.cpRead_wf h).bind fun (_, _) h => ?_
  refine Ends.ite_bind (hopt _ _ _ _ _ h) fun (_, _) h => Ends.ite_bind (hopt _ _ _ _ _ h) fun (_, _) h => ?_
  refine Ends.ite_bind (hopt _ _ _ _ _ h) fun (_, _) h => Ends.ite_then (State.sowerAccs_wf h) ?_
  refine refuseUnless_wf.bind fun _ _ => refuseUnless_wf.bind fun _ _ => ?_
  refine (hlater _ _ _ h).bind fun (_, _) h => (hlater _ _ _ h).bind fun (_, _) h => ?_
  refine (hlater _ _ _ h).bind fun (_, _) h => (hlater _ _ _ h).bind fun (_, _) h => ?_
  dsimp only
  split
  · refine refuseUnless_wf.bind fun _ _ => ?_
    exact refuseUnless_wf.bind fun _ _ => h
  · trivial

/-! ### Harrow -/

@[simp] theorem State.hRead_wf {s : State} {c : CoreId} {l : Launch} {w : Win} {off n : Nat} (h : s.mem.wf = true) :
    Ends HStop.Canon (fun _ => True) (s.hRead c l w off n) := by
  unfold State.hRead
  split
  · refine hWait_wf ?_
    split
    · simpa using h
    · exact h
  · exact h
  · trivial
  · split
    · trivial
    · split <;> trivial

@[simp] theorem State.hWrite_wf {s : State} {c : CoreId} {l : Launch} {w : Win} {off : Nat} {bs : List Byte}
    (h : s.mem.wf = true) :
    (s.hWrite c l w off bs).mem.wf = true := by
  unfold State.hWrite
  split
  · exact State.canon_write h
  · exact h

/-- The steps of a command keep memory in its canonical form. -/
structure HCode.Canon (code : HCode) : Prop where
  begins (s : State) (r : HRun) : s.mem.wf = true → Ends HStop.Canon (fun p => p.1.mem.wf = true) (code.begins s r)
  step (s : State) (r : HRun) : s.mem.wf = true → Ends HStop.Canon (fun p => p.1.mem.wf = true) (code.step s r)
  ends (s : State) (r : HRun) : s.mem.wf = true → Ends HStop.Canon (fun p => p.1.mem.wf = true) (code.ends s r)

theorem State.hLoop_wf {step : State → HRun → HRes (State × HRun)}
    (hstep : ∀ (s : State) (r : HRun), s.mem.wf = true → Ends HStop.Canon (fun p => p.1.mem.wf = true) (step s r))
      {fuel : Nat}
    {s : State} {r : HRun} {done : HRun → Bool} (h : s.mem.wf = true) :
    (s.hLoop step fuel r done).1.mem.wf = true := by
  induction fuel generalizing s r with
  | zero => exact h
  | succ fuel ih =>
    unfold State.hLoop
    split
    · exact h
    · split
      · exact ih ((hstep s r h).of_ok ‹_›)
      · exact (hstep s r h).of_error ‹_›
      · exact (hstep s r h).of_error ‹_›
      · exact h

theorem State.hRows_wf {s : State} {c : CoreId} {code : HCode} {r : HRun} (hcode : code.Canon) (h : s.mem.wf = true) :
    (s.hRows c code r).mem.wf = true := by
  unfold State.hRows
  dsimp only
  generalize hloop : s.hLoop code.step _ r _ = p
  have hp : p.1.mem.wf = true := hloop ▸ State.hLoop_wf hcode.step h
  split
  · simpa using hp
  · have hends := hcode.ends p.1 p.2.1 hp
    split
    · simpa using hends.of_ok ‹_›
    · have ht := hends.of_error ‹_ = Except.error (HStop.wait _)›
      simpa using ht
    · have ht := hends.of_error ‹_ = Except.error (HStop.hold _ _)›
      simpa using ht
    · simpa using hp

theorem State.hRun_wf {s : State} {c : CoreId} {code : HCode} {r : HRun} (hcode : code.Canon) (h : s.mem.wf = true) :
    (s.hRun c code r).mem.wf = true := by
  unfold State.hRun
  split
  · exact State.hRows_wf hcode (by simpa using h)
  · have hbegins := hcode.begins s r h
    split
    · exact State.hRows_wf hcode (by simpa using hbegins.of_ok ‹_›)
    · have ht := hbegins.of_error ‹_ = Except.error (HStop.wait _)›
      simpa using ht
    · have ht := hbegins.of_error ‹_ = Except.error (HStop.hold _ _)›
      simpa using ht
    · simpa using h

theorem State.hEvent_wf {s : State} {c : CoreId} {op : Nat} {code : Launch → HCode} (hcode : ∀ l, (code l).Canon)
    (h : s.mem.wf = true) :
    (s.hEvent c op code).mem.wf = true := by
  unfold State.hEvent
  split
  · exact h
  · dsimp only
    split
    · exact h
    · split
      · split
        · exact State.hRun_wf (hcode _) h
        · exact h
      · split
        · exact h
        · split
          · exact h
          · exact State.hRun_wf (hcode _) h

@[simp] theorem noStep_wf {s : State} {r : HRun} (h : s.mem.wf = true) :
    Ends HStop.Canon (fun p => p.1.mem.wf = true) (noStep s r) := by
  exact h

theorem skipWalk_wf {read : Nat → HRes Nat} (hread : ∀ n, Ends HStop.Canon (fun _ => True) (read n)) {size fuel : Nat}
    {x : Skip} {found : List (Nat × Nat)} : Ends HStop.Canon (fun _ => True) (skipWalk read size fuel x found) := by
  induction fuel generalizing x found with
  | zero => trivial
  | succ fuel ih =>
    unfold skipWalk
    dsimp only
    split
    · trivial
    · split
      · split
        · trivial
        · split
          · trivial
          · exact (hread _).of_error ‹_›
          · split
            · trivial
            · exact ih
      · split
        · exact ih
        · exact ih

/-- A value read and then changed. -/
theorem Ends.map {ε α β : Type} {E : ε → Prop} {f : α → β} {r : Except ε α} (hr : Ends E (fun _ => True) r) :
    Ends E (fun _ => True) (r.map f) := by
  cases r with
  | ok a => trivial
  | error e => exact hr

@[simp] theorem State.hSlabs_wf {s : State} {c : CoreId} {l : Launch} {r : HRun} (h : s.mem.wf = true) :
    Ends HStop.Canon (fun p => p.1.mem.wf = true) (s.hSlabs c l r) := by
  unfold State.hSlabs
  dsimp only
  split
  · exact h
  · refine (skipWalk_wf fun _ => (State.hRead_wf h).map).bind fun (_, _, _) _ => ?_
    dsimp only
    split
    · simpa using h
    · split
      · simpa using h
      · simpa using h

@[simp] theorem State.mulBegin_wf {s : State} {c : CoreId} {l : Launch} {rot : Bool} {r : HRun} (h : s.mem.wf = true) :
    Ends HStop.Canon (fun p => p.1.mem.wf = true) (s.mulBegin c l rot r) := by
  unfold State.mulBegin
  dsimp only
  split
  · trivial
  · refine (State.hSlabs_wf h).bind fun (_, _) h => ?_
    dsimp only
    split
    · exact h
    · split
      · exact h
      · exact h

@[simp] theorem State.rowOffset_wf {s : State} {c : CoreId} {l : Launch} {r : HRun} (h : s.mem.wf = true) :
    Ends HStop.Canon (fun _ => True) (s.rowOffset c l r) := by
  unfold State.rowOffset
  dsimp only
  split
  · refine (State.hRead_wf h).bind fun _ _ => ?_
    split <;> trivial
  · split
    · split
      · trivial
      · split
        · exact h
        · trivial
    · trivial

@[simp] theorem State.recordTail_wf {s : State} {c : CoreId} {l : Launch} {r : HRun} {off n m : Nat} (h : s.mem.wf = true) :
    Ends HStop.Canon (fun _ => True) (s.recordTail c l r off n m) := by
  unfold State.recordTail
  refine Ends.foldlM (fun _ _ _ => ?_) _ trivial
  dsimp only
  split
  · exact (State.hRead_wf h).map
  · trivial

/-- What a row of MMUL or MROT reads before it, where it says so. -/
theorem State.words_wf {s : State} {c : CoreId} {l : Launch} {w : Win} {off n : Nat} {b : Bool} (h : s.mem.wf = true) :
    Ends HStop.Canon (fun _ => True) (if b then (s.hRead c l w off n).map words4 else .ok []) := by
  split
  · exact (State.hRead_wf h).map
  · trivial

@[simp] theorem State.mulRow_wf {s : State} {c : CoreId} {l : Launch} {r : HRun} (h : s.mem.wf = true) :
    Ends HStop.Canon (fun p => p.1.mem.wf = true) (s.mulRow c l r) := by
  unfold State.mulRow
  dsimp only
  split
  · trivial
  · split
    · trivial
    · split
      · trivial
      · refine (State.rowOffset_wf h).bind fun _ _ => (State.hRead_wf h).bind fun _ _ => ?_
        refine (State.recordTail_wf h).bind fun _ _ => Ends.ite_bind (State.words_wf h) fun start _ => ?_
        rw [ends_ok]
        have hrow : ∀ (off : Nat) (bs : List Byte) (f : Core → Core), ((s.hWrite c l .C off bs).modCore c f).mem.wf = true :=
          fun _ _ _ => by rw [State.modCore_mem]; exact State.hWrite_wf h
        dsimp only
        split
        · split
          · split
            · rw [State.modCore_mem]
              exact hrow _ _ _
            · exact hrow _ _ _
          · exact hrow _ _ _
        · exact hrow _ _ _

@[simp] theorem State.mulEnd_wf {s : State} {c : CoreId} {r : HRun} (h : s.mem.wf = true) :
    Ends HStop.Canon (fun p => p.1.mem.wf = true) (s.mulEnd c r) := by
  unfold State.mulEnd
  split
  · simpa using h
  · exact h

@[simp] theorem State.rowsLand_wf {s : State} {c : CoreId} {bad : Bool} (h : s.mem.wf = true) :
    (s.rowsLand c bad).mem.wf = true := by
  unfold State.rowsLand
  split
  · split
    · exact h
    · simp only [State.modHarrow_mem, State.modCore_mem]
      split
      · rw [State.spoilRange_mem]
        exact State.hWrite_wf h
      · exact State.hWrite_wf h
  · exact h

@[simp] theorem State.hAcc_wf {α : Type} {s : State} {r : Except AccErr α} (h : s.mem.wf = true) :
    Ends HStop.Canon (fun _ => True) (s.hAcc r) := by
  unfold State.hAcc
  split
  · trivial
  · exact h
  · trivial
  · trivial
  · trivial

@[simp] theorem State.epiPlaces_wf {s : State} {c : CoreId} {l : Launch} {r : List Byte} {off n : Nat}
    (h : s.mem.wf = true) :
    Ends HStop.Canon (fun _ => True) (s.epiPlaces c l r off n) := by
  unfold State.epiPlaces
  split
  · exact State.hAcc_wf h
  · exact State.hAcc_wf h
  · split
    · split <;> trivial
    · trivial
  · dsimp only
    split
    · exact State.wf_of_mem_eq (State.engineDemand_mem ‹_›) h
    · split
      · trivial
      · split
        · trivial
        · exact State.hAcc_wf h

@[simp] theorem State.mepiData_wf {s : State} {c : CoreId} {l : Launch} {r : HRun} (h : s.mem.wf = true) :
    Ends HStop.Canon (fun _ => True) (s.mepiData c l r) := by
  unfold State.mepiData
  refine Ends.ite_bind (State.words_wf h) fun _ _ => Ends.ite_bind (State.words_wf h) fun _ _ =>
      (State.hRead_wf h).bind fun _ _ => ?_
  exact (State.epiPlaces_wf h).bind fun _ _ => trivial

@[simp] theorem State.epiPerform_wf {s : State} {c : CoreId} {hd : HRun} {as : List Acc} {bs : List Byte}
    (h : s.mem.wf = true) : (s.epiPerform c hd as bs).1.mem.wf = true := by
  simp [State.epiPerform, h]

@[simp] theorem State.landPackets_wf {s : State} {c : CoreId} {r : HRun} {ps : List Stray} (h : s.mem.wf = true) :
    (s.landPackets c r ps).1.mem.wf = true := by
  have hfold : ∀ (a : State × HRun × List Stray), a.1.mem.wf = true → (ps.foldl (fun (a : State × HRun × List Stray) p =>
      match a.1.engineDemand (From.ofEngine c) [p.acc] .store with
      | some s' => (s', a.2.1, a.2.2 ++ [p])
      | none => let (s, h) := a.1.epiPerform c a.2.1 [p.acc] p.data; (s, h, a.2.2)) a).1.mem.wf = true := by
    induction ps with
    | nil => exact fun _ h => h
    | cons p ps ih =>
      intro a ha
      refine ih _ ?_
      dsimp only
      split
      · exact State.wf_of_mem_eq (State.engineDemand_mem ‹_›) ha
      · exact State.epiPerform_wf ha
  exact hfold _ h

@[simp] theorem State.landRows_wf {s : State} {c : CoreId} {r : HRun} (h : s.mem.wf = true) :
    (s.landRows c r).1.mem.wf = true := by
  have hfold : ∀ (fs : List RowFlight) (a : State × HRun), a.1.mem.wf = true → (fs.foldl (fun (a : State × HRun) f =>
      let (s, h, left) := a.1.landPackets c a.2 f.packets
      (s, if left.isEmpty then h else { h with flight := h.flight ++
        [{ f with packets := left }] })) a).1.mem.wf = true := by
    intro fs
    induction fs with
    | nil => exact fun _ h => h
    | cons f fs ih => exact fun a ha => ih _ (State.landPackets_wf ha)
  exact hfold _ _ h

@[simp] theorem State.mepiRow_wf {s : State} {c : CoreId} {l : Launch} {r : HRun} (h : s.mem.wf = true) :
    Ends HStop.Canon (fun p => p.1.mem.wf = true) (s.mepiRow c l r) := by
  have hrows := State.landRows_wf (c := c) (r := r) h
  unfold State.mepiRow
  dsimp only
  split
  · exact hrows
  · refine (State.mepiData_wf hrows).bind fun (_, _, _, _) _ => ?_
    dsimp only
    split
    · have hd := State.wf_of_mem_eq (State.engineDemand_mem ‹_›) hrows
      split
      · simpa using hd
      · exact hd
    · simpa using State.epiPerform_wf (by simpa using hrows)

@[simp] theorem State.epiTokens_wf {s : State} {c : CoreId} {hd : HRun} (h : s.mem.wf = true) :
    Ends HStop.Canon (fun _ => True) (s.epiTokens c hd) := by
  unfold State.epiTokens
  split
  · trivial
  · dsimp only
    split
    · trivial
    · exact hWait_wf h
    · split
      · exact hWait_wf h
      · split
        · split
          · trivial
          · simp [h]
        · split
          · trivial
          · simp [h]

@[simp] theorem State.mepiSignal_wf {s : State} {c : CoreId} {l : Launch} {r : HRun} (h : s.mem.wf = true) :
    Ends HStop.Canon (fun p => p.1.mem.wf = true) (s.mepiSignal c l r) := by
  have hrows := State.landRows_wf (c := c) (r := r) h
  unfold State.mepiSignal
  dsimp only
  split
  · exact hrows
  · split
    · exact hrows
    · refine (State.epiTokens_wf hrows).bind fun _ _ => ?_
      split
      · refine (State.hAcc_wf hrows).bind fun _ _ => ?_
        split
        · exact State.wf_of_mem_eq (State.engineDemand_mem ‹_›) hrows
        · split
          · simpa using hrows
          · exact hrows
          · exact State.canon_write (by simpa using hrows)
      · split
        · trivial
        · split
          · trivial
          · exact State.canon_write hrows

@[simp] theorem State.mredRead_wf {s : State} {c : CoreId} {l : Launch} {hd : HRun} (h : s.mem.wf = true) :
    Ends HStop.Canon (fun _ => True) (s.mredRead c l hd) := by
  unfold State.mredRead
  dsimp only
  split
  · trivial
  · refine (State.hRead_wf h).bind fun _ _ => ?_
    trivial

@[simp] theorem State.mredStep_wf {s : State} {c : CoreId} {l : Launch} {hd : HRun} (h : s.mem.wf = true) :
    Ends HStop.Canon (fun p => p.1.mem.wf = true) (s.mredStep c l hd) := by
  unfold State.mredStep
  dsimp only
  split
  · exact hWait_wf h
  · refine (State.mredRead_wf h).bind fun (_, _) _ => ?_
    trivial

@[simp] theorem State.addPairs_wf {s : State} {c : CoreId} {l : Launch} {E : ℤ} {off : Nat}
    {ps : List (BitVec 32 × BitVec 32)} (h : s.mem.wf = true) : (s.addPairs c l E off ps).mem.wf = true := by
  unfold State.addPairs
  refine foldl_wf (fun s a h => ?_) _ ?_
  · split
    · exact h
    · dsimp only
      split
      · simp [h]
      · simp [h]
  · exact h

@[simp] theorem State.mredArrives_wf {s : State} {c : CoreId} {bad : Bool} (h : s.mem.wf = true) :
    (s.mredArrives c bad).mem.wf = true := by
  unfold State.mredArrives
  split
  · split
    · exact h
    · split
      · split
        · dsimp only
          split
          · split
            · split
              · simp [h]
              · simp [h]
            · simp [h]
          · simp [h]
        · dsimp only
          split
          · split
            · split
              · simp [h]
              · simp [h]
            · simp [h]
          · simp [h]
      · split
        · dsimp only
          split
          · split
            · split
              · simp [h]
              · simp [h]
            · simp [h]
          · simp [h]
        · dsimp only
          split
          · split
            · split
              · simp [h]
              · simp [h]
            · simp [h]
          · simp [h]
  · exact h

@[simp] theorem State.mrfinRow_wf {s : State} {c : CoreId} {l : Launch} {hd : HRun} (h : s.mem.wf = true) :
    Ends HStop.Canon (fun p => p.1.mem.wf = true) (s.mrfinRow c l hd) := by
  unfold State.mrfinRow
  dsimp only
  refine (State.hRead_wf h).bind fun _ _ => ?_
  split
  · exact hFail_wf
  · simp [h]

@[simp] theorem State.harrowFault_wf {s : State} {c : CoreId} (h : s.mem.wf = true) :
    (s.harrowFault c).mem.wf = true := by
  unfold State.harrowFault
  dsimp only
  split
  · exact h
  · split
    · simp [h]
    · refine foldl_wf (fun s a h => ?_) _ ?_
      · simp [h]
      · simp [h]

/-! ### VecOps -/

@[simp] theorem State.vtransfer_wf {s : State} {o : VOp} {p : VPlace} (h : s.mem.wf = true) :
    (s.vtransfer o p).mem.wf = true := by
  unfold State.vtransfer
  split
  · simp [h]
  · simp [h]

@[simp] theorem State.vmemory_wf {s : State} {o : VOp} {rest : List VOp} (h : s.mem.wf = true) :
    (s.vmemory o rest).mem.wf = true := by
  have hdemand : ∀ (t : State) (p : VPlace),
      ((t.demand (From.ofCore t.cur) p.acc o.op.req).getD t).mem = t.mem := by
    intro t p
    cases hd : t.demand (From.ofCore t.cur) p.acc o.op.req with
    | none => rfl
    | some u => exact State.demand_mem hd
  unfold State.vmemory
  dsimp only
  split
  · rw [foldl_mem hdemand]
    exact h
  · split
    · exact State.canon_takeTrap (foldl_wf (fun t p ht => by simpa using ht) _ h)
    · exact foldl_wf (fun t p ht => State.vtransfer_wf ht) _ (by simpa using h)

@[simp] theorem State.vserve_wf {s : State} (h : s.mem.wf = true) : s.vserve.mem.wf = true := by
  unfold State.vserve
  split
  · exact h
  · split
    · simp [h]
    · split
      split
      · simp [h]
      · simp [h]

@[simp] theorem State.vectorIssue_wf {s : State} {c : CoreId} (h : s.mem.wf = true) :
    (s.vectorIssue c).mem.wf = true := by
  unfold State.vectorIssue
  split
  · exact h
  · split
    · exact h
    · exact State.within_wf (fun _ => State.vserve_wf) (by simpa using h)

/-! ### Launches -/

/-- What reading an entry has sent leaves memory. -/
theorem State.readEntry_wait_mem {s t : State} {q : Nat} (h : s.readEntry q = some (.wait t)) : t.mem = s.mem := by
  unfold State.readEntry at h
  dsimp only at h
  split at h
  · cases h
  · split at h
    · cases h
    · split at h
      · cases h
      · split at h
        · cases h
          exact State.engineDemand_mem ‹_›
        · split at h <;> cases h

theorem State.readEntry_bytes_mem {s t : State} {q : Nat} {b : List Byte} (h : s.readEntry q = some (.bytes t b)) :
    t.mem = s.mem := by
  unfold State.readEntry at h
  dsimp only at h
  split at h
  · cases h
  · split at h
    · cases h
    · split at h
      · cases h
      · split at h
        · cases h
        · split at h
          · cases h
          · cases h
            exact State.engineArrive_mem s _ _ _

@[simp] theorem State.launchEntry_wf {s : State} {q : Nat} (h : s.mem.wf = true) :
    (s.launchEntry q).mem.wf = true := by
  unfold State.launchEntry
  split
  · exact h
  · split
    · exact h
    · exact State.wf_of_mem_eq (State.readEntry_wait_mem ‹_›) h
    · simpa using h
    · have ht := State.wf_of_mem_eq (State.readEntry_bytes_mem ‹_›) h
      split
      · exact h
      · dsimp only
        split
        · simpa using ht
        · split
          · simpa using ht
          · split
            · exact (State.checkLaunch_wf ht).of_error ‹_›
            · simpa using ht
            · simpa using (State.checkLaunch_wf ht).of_ok ‹_›

theorem iterate_wf {f : State → State} (hf : ∀ s : State, s.mem.wf = true → (f s).mem.wf = true) (n : Nat) {s : State}
    (h : s.mem.wf = true) : (f^[n] s).mem.wf = true := by
  induction n generalizing s with
  | zero => exact h
  | succ n ih => exact ih (hf s h)

@[simp] theorem State.landInbound_wf {s : State} {c : CoreId} (h : s.mem.wf = true) :
    (s.landInbound c).mem.wf = true := by
  have hn := iterate_wf (f := fun s : State => (s.rowsLand c).mredArrives c)
    (fun t ht => State.mredArrives_wf (State.rowsLand_wf ht)) (s.core c).harrow.inbound.length h
  unfold State.landInbound
  dsimp only
  split
  · simpa using hn
  · exact hn

@[simp] theorem State.retireAll_wf {s : State} {c : CoreId} (h : s.mem.wf = true) :
    (s.retireAll c).mem.wf = true := by
  exact State.harrowFault_wf (iterate_wf (fun t ht => by simpa using ht) _ h)

theorem mredCode_canon (c : CoreId) (l : Launch) : (mredCode c l).Canon where
  begins _ _ h := by simp [mredCode, h]
  step _ _ h := by simp [mredCode, h]
  ends _ _ h := by simp [mredCode, h]

theorem mepiCode_canon (c : CoreId) (l : Launch) : (mepiCode c l).Canon where
  begins s r h := by
    simp only [mepiCode, ends_ok]
    split
    · simpa using h
    · exact h
  step _ _ h := by simp [mepiCode, h]
  ends _ _ h := by simp [mepiCode, h]

@[simp] theorem State.runOn_wf {s : State} {c : CoreId} {l : Launch} (h : s.mem.wf = true) :
    (s.runOn c l).mem.wf = true := by
  unfold State.runOn
  split
  · exact h
  · split
    · exact State.hRun_wf (mredCode_canon c l) h
    · split
      · split
        · exact h
        · split
          · rw [State.modHarrow_mem]
            exact State.landRows_wf h
          · exact State.hRun_wf (mepiCode_canon c l) h
      · exact h

@[simp] theorem State.endVectors_wf {s : State} {fuel : Nat} (h : s.mem.wf = true) :
    (s.endVectors fuel).mem.wf = true := by
  induction fuel generalizing s with
  | zero => exact h
  | succ fuel ih =>
    unfold State.endVectors
    split
    · exact h
    · split
      · exact ih (by simpa using h)
      · exact ih (State.vserve_wf h)

@[simp] theorem State.endIssued_wf {s : State} {cores : List Nat} (h : s.mem.wf = true) :
    (s.endIssued cores).mem.wf = true := by
  refine foldl_wf (fun t c ht => ?_) cores h
  rw [State.modCore_mem]
  exact foldl_wf (fun _ _ => State.within_wf fun _ => State.endVectors_wf) _ ht

@[simp] theorem State.endLaunch_wf {s : State} {l : Launch} {status : Nat} (h : s.mem.wf = true) :
    (s.endLaunch l status).mem.wf = true := by
  unfold State.endLaunch
  rw [State.refreshDue_mem, State.report_mem]
  refine foldl_wf (fun t c ht => by simpa using ht) _ ?_
  rw [State.demoteTiles_mem, State.dropLinks_mem]
  exact State.endIssued_wf (by simpa using h)

@[simp] theorem State.settleUnit_wf {s : State} {c : CoreId} {l : Launch} (h : s.mem.wf = true) :
    (s.settleUnit c l).mem.wf = true := by
  exact State.retireAll_wf (State.runOn_wf (State.landInbound_wf h))

@[simp] theorem State.endStopped_wf {s : State} {l : Launch} {status : Nat} (h : s.mem.wf = true) :
    (s.endStopped l status).mem.wf = true := by
  have hsettled := foldl_wf (fun t c ht => State.settleUnit_wf (c := coreOf c) (l := l) ht) l.cores h
  unfold State.endStopped
  dsimp only
  split
  · split
    · exact State.endLaunch_wf hsettled
    · exact hsettled
  · exact hsettled

@[simp] theorem State.stopLaunch_wf {s : State} {l : Launch} {status : Nat} (h : s.mem.wf = true) :
    (s.stopLaunch l status).mem.wf = true := by
  unfold State.stopLaunch
  split
  · simp [h]
  · split
    · simp [h]
    · simp [h]

@[simp] theorem State.cancelEntry_wf {s : State} {q : Nat} (h : s.mem.wf = true) :
    (s.cancelEntry q).mem.wf = true := by
  unfold State.cancelEntry
  split
  · exact h
  · split
    · have ht := State.wf_of_mem_eq (State.readEntry_bytes_mem ‹_›) h
      split
      · exact h
      · dsimp only
        split
        · exact State.stopLaunch_wf (by simpa using ht)
        · simpa using ht
    · exact h

@[simp] theorem State.sweep_wf {s : State} {k : Nat} (h : s.mem.wf = true) : (s.sweep k).mem.wf = true := by
  unfold State.sweep
  split
  · exact h
  · split
    · exact h
    · dsimp only
      split
      · simp [h]
      · simp [h]

@[simp] theorem State.limit_wf {s : State} {k : Nat} (h : s.mem.wf = true) : (s.limit k).mem.wf = true := by
  unfold State.limit
  split
  · exact h
  · split
    · exact h
    · split
      · simp [h]
      · exact h

@[simp] theorem State.clearLm_wf {s : State} {c : CoreId} (h : s.mem.wf = true) :
    (s.clearLm c).mem.wf = true := by
  exact Memory.clear_wf _ _ h

@[simp] theorem State.pushInitial_wf {s : State} {l : Launch} {r : Nat × Record} (h : s.mem.wf = true) :
    (s.pushInitial l r).mem.wf = true := by
  unfold State.pushInitial
  dsimp only
  split
  · simp [h]
  · exact h

@[simp] theorem State.bind_wf {s : State} {l : Launch} {cores : List Nat} {p : BindPlan} (h : s.mem.wf = true) :
    (s.bind l cores p).mem.wf = true := by
  unfold State.bind
  split
  · exact h
  · dsimp only
    generalize s.planned l cores p _ = l'
    have ht := foldl_wf (fun t e ht => State.writeEntry_wf (p := l'.part) (e := e) ht) p.tables h
    have harg : Ends SStop.Canon (fun _ => True) (if l'.desc.cwarg = none32 then .ok [] else
        (p.tables.foldl (fun s e => s.writeEntry l'.part e) s).sowerAccs l' .swrite
          (l'.desc.args + word l'.desc.cwarg) 8) := by
      split
      · trivial
      · exact State.sowerAccs_wf ht
    split
    · exact h
    · split
      · exact State.wf_of_mem_eq (State.entriesWait_mem ‹_›) h
      · split
        · exact h
        · split
          · exact harg.of_error ‹_›
          · exact h
          · split
            · exact h
            · split
              · exact State.wf_of_mem_eq (State.engineDemand_mem ‹_›) ht
              · exact State.wf_of_mem_eq (State.rangeDemand_mem ‹_›) ht
              · rw [State.refreshDue_mem, State.turned_mem]
                refine foldl_wf (fun t c ht => by simpa using ht) _ ?_
                refine foldl_wf (fun t r ht => State.pushInitial_wf ht) _ ?_
                refine State.canon_engineWrite (bad := []) (foldl_wf (fun t x ht => State.canon_engineWrite ht) _ ?_)
                exact foldl_wf (fun t c ht => State.clearLm_wf (by simpa using ht)) _ (by simpa using ht)

@[simp] theorem State.grant_wf {s : State} {k : Nat} {p : BindPlan} (h : s.mem.wf = true) :
    (s.grant k p).mem.wf = true := by
  unfold State.grant
  split
  · exact h
  · split
    · exact h
    · split
      · dsimp only
        split
        · exact h
        · simp [h]
      · dsimp only
        split
        · exact h
        · simp [h]

/-! ### Preempt -/

@[simp] theorem State.drainVectors_wf {s : State} {c : CoreId} {fuel : Nat} (h : s.mem.wf = true) :
    (s.drainVectors c fuel).mem.wf = true := by
  induction fuel generalizing s with
  | zero => exact h
  | succ fuel ih =>
    unfold State.drainVectors
    split
    · exact h
    · exact ih (State.vectorIssue_wf h)

@[simp] theorem State.retryTraps_wf {s : State} {c : CoreId} (h : s.mem.wf = true) :
    (s.retryTraps c).mem.wf = true := by
  refine foldl_wf (fun t k ht => ?_) _ h
  split
  · exact State.within_wf (fun _ => State.canon_takeTrap) ht
  · exact ht

@[simp] theorem State.settleCore_wf {s : State} {c : CoreId} (h : s.mem.wf = true) :
    (s.settleCore c).mem.wf = true := by
  unfold State.settleCore
  split
  · exact h
  · exact State.settleUnit_wf (State.jobFault_wf (State.jobComplete_wf (State.retryTraps_wf (State.drainVectors_wf h))))

@[simp] theorem State.saveCore_wf {s : State} {l : Launch} {c : Nat × Nat} (h : s.mem.wf = true) :
    (s.saveCore l c).mem.wf = true := by
  simp [State.saveCore, h]

@[simp] theorem State.saveLaunch_wf {s : State} {l : Launch} (h : s.mem.wf = true) :
    (s.saveLaunch l).mem.wf = true := by
  unfold State.saveLaunch
  refine foldl_wf (fun s a h => ?_) _ ?_
  · simp [h]
  · refine foldl_wf (fun s a h => ?_) _ ?_
    · simp [h]
    · refine foldl_wf (fun s a h => ?_) _ ?_
      · simp [h]
      · exact h

theorem State.saveWaits_mem {s t : State} {l : Launch} {n : Nat} {r : Req} (h : s.saveWaits l n r = some t) :
    t.mem = s.mem := by
  obtain ⟨i, -, hi⟩ := List.exists_of_findSome?_eq_some h
  exact State.rangeDemand_mem hi

@[simp] theorem State.endSaved_wf {s : State} {l : Launch} (h : s.mem.wf = true) : (s.endSaved l).mem.wf = true := by
  unfold State.endSaved
  split
  · split
    · simp [h]
    · exact h
  · exact h

@[simp] theorem State.preempt_wf {s : State} {k : Nat} (h : s.mem.wf = true) :
    (s.preempt k).mem.wf = true := by
  unfold State.preempt
  split
  · exact h
  · rename_i l _
    have hb : (if l.stopping = true then s else s.beginStop l).mem.wf = true := by
      split
      · exact h
      · simpa using h
    generalize (if l.stopping = true then s else s.beginStop l) = b at hb ⊢
    have hsettled := foldl_wf (fun t c ht => State.settleCore_wf (c := coreOf c) ht) l.cores hb
    split
    · exact h
    · split
      · exact State.endStopped_wf h
      · dsimp only
        split
        · split
          · split
            · exact State.wf_of_mem_eq (State.saveWaits_mem ‹_›) hsettled
            · exact State.endSaved_wf (State.saveLaunch_wf hsettled)
          · exact hsettled
        · exact hsettled

@[simp] theorem State.takeRejected_wf {s : State} {c : CoreId} (h : s.mem.wf = true) :
    (s.takeRejected c).mem.wf = true := by
  unfold State.takeRejected
  refine foldl_wf (fun s a h => ?_) _ ?_
  · dsimp only
    split
    · exact h
    · refine foldl_wf (fun s a h => ?_) _ ?_
      · simp [h]
      · simp [h]
  · exact h

@[simp] theorem State.restoreCore_wf {s : State} {l : Launch} {f : Nat → Nat} {c : CoreId} {rank : Nat} {saved : Core}
    (h : s.mem.wf = true) : (s.restoreCore l f c rank saved).mem.wf = true := by
  simp [State.restoreCore, h]

@[simp] theorem State.resume_wf {s : State} {k : Nat} {p : BindPlan} (h : s.mem.wf = true) :
    (s.resume k p).mem.wf = true := by
  unfold State.resume
  split
  · exact h
  · split
    · exact h
    · split
      · split
        · exact h
        · have h := State.wf_of_mem_eq (State.entriesWait_mem ‹_›) h
          exact h
        · have h := State.wf_of_mem_eq (State.saveWaits_mem ‹_›) h
          exact h
        · split
          · exact h
          · dsimp only
            split
            · exact h
            · refine foldl_wf (fun s a h => ?_) _ ?_
              · simp [h]
              · refine foldl_wf (fun s a h => ?_) _ ?_
                · simp [h]
                · refine foldl_wf (fun s a h => ?_) _ ?_
                  · simp [h]
                  · exact h
      · exact h

@[simp] theorem State.stallEpilogue_wf {s : State} {c : CoreId} (h : s.mem.wf = true) :
    (s.stallEpilogue c).mem.wf = true := by
  unfold State.stallEpilogue
  split
  · split
    · exact h
    · dsimp only
      generalize (_ || _ : Bool) = held
      split
      · simpa using State.landRows_wf h
      · exact h
  · exact h

@[simp] theorem State.performStray_wf {s : State} {c : CoreId} (h : s.mem.wf = true) :
    (s.performStray c).mem.wf = true := by
  unfold State.performStray
  split
  · exact h
  · split
    · have h := State.wf_of_mem_eq (State.engineDemand_mem ‹_›) h
      exact h
    · simp [h]

/-! ### Ras -/

@[simp] theorem State.killMe_wf {s : State} (h : s.mem.wf = true) :
    s.killMe.mem.wf = true := by
  unfold State.killMe
  refine State.fatalTrap_wf _ _ _ ?_
  split
  · simpa using h
  · exact h

@[simp] theorem State.killCore_wf {s : State} {c : CoreId} (h : s.mem.wf = true) :
    (s.killCore c).mem.wf = true := by
  unfold State.killCore
  rw [State.modCore_mem]
  refine foldl_wf (fun t k ht => ?_) _ h
  split
  · exact State.within_wf (fun _ => State.killMe_wf) ht
  · exact ht

@[simp] theorem State.linkDown_wf {s : State} {d : DieId} {lines : List Nat} {writers : List Writer}
    (h : s.mem.wf = true) : (s.linkDown d lines writers).mem.wf = true := by
  unfold State.linkDown
  split
  · exact h
  · refine foldl_wf (fun s a h => ?_) _ ?_
    · simp [h]
    · simp [h]

@[simp] theorem State.repair_wf {s : State} {key : Nat} {data : List Byte} (h : s.mem.wf = true) :
    (s.repair key data).mem.wf = true := by
  unfold State.repair
  split
  · dsimp only
    split
    · exact h
    · simp [h]
  · simp [h]

@[simp] theorem State.parity_wf {s : State} {c : CoreId} {k : SlotId} (h : s.mem.wf = true) :
    (s.parity c k).mem.wf = true := by
  unfold State.parity
  split
  · exact h
  · rw [State.countUe_mem]
    exact State.within_wf (fun _ => State.canon_takeTrap) h

theorem State.dstWait_mem {s t : State} {ns : List Nat} (h : s.dstWait ns = some t) : t.mem = s.mem := by
  unfold State.dstWait at h
  split at h
  · cases h; rfl
  · dsimp only at h
    split at h
    · cases h
    · cases h; rfl

@[simp] theorem State.dstWrite_wf {s : State} {ns : List Nat} {bs : List Byte} {bad : List Bool} (h : s.mem.wf = true) :
    (s.dstWrite ns bs bad).mem.wf = true := by
  simp [State.dstWrite, h]

@[simp] theorem State.sendRecord_wf {s : State} {bs : List Byte} {bad : List Bool} {after : Ckpt → Ckpt}
    (h : s.mem.wf = true) : (s.sendRecord bs bad after).mem.wf = true := by
  unfold State.sendRecord
  dsimp only
  split
  · exact h
  · split
    · have h := State.wf_of_mem_eq (State.dstWait_mem ‹_›) h
      exact h
    · simp [h]

theorem State.pageWait_mem {s t : State} {pg : Nat} (h : s.pageWait pg = some t) : t.mem = s.mem := by
  unfold State.pageWait at h
  split at h
  · cases h
  · exact State.rangeDemand_mem h

@[simp] theorem State.streamNext_wf {s : State} (h : s.mem.wf = true) : s.streamNext.mem.wf = true := by
  unfold State.streamNext
  split
  · split
    · have h := State.wf_of_mem_eq (State.pageWait_mem ‹_›) h
      exact h
    · simp [h]
  · simp [h]

@[simp] theorem State.streamPage_wf {s : State} {ok : Bool} (h : s.mem.wf = true) :
    (s.streamPage ok).mem.wf = true := by
  unfold State.streamPage
  split
  · exact h
  · split
    · exact h
    · simp [h]

/-! ### Firmware -/

@[simp] theorem State.cold_wf {s : State} (h : s.mem.wf = true) :
    s.cold.mem.wf = true := by
  exact Memory.filter_wf _ h

@[simp] theorem State.bringUp_wf {s : State} {img : Option FwImage} (h : s.mem.wf = true) :
    (s.bringUp img).mem.wf = true := by
  unfold State.bringUp
  split
  · simp [h]
  · simp [h]

@[simp] theorem State.modeSTrap_wf {s : State} {img : FwImage} (h : s.mem.wf = true) :
    (s.modeSTrap img).mem.wf = true := by
  unfold State.modeSTrap
  split
  · exact h
  · refine foldl_wf (fun s a h => ?_) _ ?_
    · simp [h]
    · exact h

@[simp] theorem State.supplyImage_wf {s : State} {img : FwImage} (h : s.mem.wf = true) :
    (s.supplyImage img).mem.wf = true := by
  unfold State.supplyImage
  split
  · exact h
  · split
    · simp [h]
    · exact h

/-! ### Vector -/

@[simp] theorem State.venq_wf {s : State} {o : VOp} {rs : List Reg} {len : Nat} (h : s.mem.wf = true) :
    Ends Stop.Canon (fun t => t.mem.wf = true) (s.venq o rs len) := by
  unfold State.venq
  refine State.need_wf.bind fun _ _ => ?_
  dsimp only
  refine waitFor_wf.bind fun _ _ => ?_
  trivial

@[simp] theorem State.venqSym_wf {s : State} {o : VOp} {rs : List Reg} {d : Dst} {len : Nat} (h : s.mem.wf = true) :
    Ends Stop.Canon (fun t => t.mem.wf = true) (s.venqSym o rs d len) := by
  unfold State.venqSym
  refine State.need_wf.bind fun _ _ => ?_
  refine waitFor_wf.bind fun _ _ => ?_
  refine (State.alloc_wf h).bind fun (_, _) h => ?_
  dsimp only
  exact State.venq_wf h

@[simp] theorem State.vec_wf {s : State} {op : VecOp} {ty : Ty} {rnd : RMode} {mk : MaskSel} {dst : Nat}
    {x y z : VSrc} {lit : Word} {len : Nat} (h : s.mem.wf = true) :
    Ends Stop.Canon (fun t => t.mem.wf = true) (s.vec op ty rnd mk dst x y z lit len) := by
  simp [State.vec, h]

@[simp] theorem State.vfp_wf {s : State} {op : VecOp} {ty : Option Ty} {rnd : Rnd} {mk : MaskSel} {d : Fin 16}
    {x y z : VSrc} {lit : Word} {len : Nat} (h : s.mem.wf = true) :
    Ends Stop.Canon (fun t => t.mem.wf = true) (s.vfp op ty rnd mk d x y z lit len) := by
  simp [State.vfp, h]

@[simp] theorem State.vbits_wf {s : State} {op : VecOp} {ty : Option Ty} {mk : MaskSel} {d : Fin 16} {x y : VSrc}
    {lit : Word} {len : Nat} (h : s.mem.wf = true) :
    Ends Stop.Canon (fun t => t.mem.wf = true) (s.vbits op ty mk d x y lit len) := by
  simp [State.vbits, h]

@[simp] theorem State.vquantOp_wf {s : State} {ty : Option Ty} {part : Nat} {rnd : Rnd} {mk : MaskSel} {d : Fin 16}
    {x y : VSrc} {lit : Word} {len : Nat} (h : s.mem.wf = true) :
    Ends Stop.Canon (fun t => t.mem.wf = true) (s.vquantOp ty part rnd mk d x y lit len) := by
  simp [State.vquantOp, h]

@[simp] theorem State.vdeqOp_wf {s : State} {ty : Option Ty} {part : Nat} {rnd : Rnd} {mk : MaskSel} {d : Fin 16}
    {x y : VSrc} {lit : Word} {len : Nat} (h : s.mem.wf = true) :
    Ends Stop.Canon (fun t => t.mem.wf = true) (s.vdeqOp ty part rnd mk d x y lit len) := by
  simp [State.vdeqOp, h]

@[simp] theorem State.vbcastOp_wf {s : State} {ty : Option Ty} {mk : MaskSel} {d x : Fin 16} {k : VScal} {lit : Word}
    {len : Nat} (h : s.mem.wf = true) :
    Ends Stop.Canon (fun t => t.mem.wf = true) (s.vbcastOp ty mk d x k lit len) := by
  simp [State.vbcastOp, h]

@[simp] theorem State.vscalars_wf {s : State} {op : VecOp} {ty : Option Ty} {mk : MaskSel} {d : Fin 16} {x y : VScal}
    {lit : Word} {len : Nat} (h : s.mem.wf = true) :
    Ends Stop.Canon (fun t => t.mem.wf = true) (s.vscalars op ty mk d x y lit len) := by
  simp [State.vscalars, h]

@[simp] theorem State.vextOp_wf {s : State} {ty : Option Ty} {d : Dst} {x : Fin 16} {k : VScal} {lit : Word}
    {len : Nat} (h : s.mem.wf = true) : Ends Stop.Canon (fun t => t.mem.wf = true) (s.vextOp ty d x k lit len) := by
  simp [State.vextOp, h]

@[simp] theorem State.vredOp_wf {s : State} {op : VredOp} {ty : Option Ty} {rnd : Rnd} {mk : MaskSel} {d : Dst}
    {x : Fin 16} {len : Nat} (h : s.mem.wf = true) :
    Ends Stop.Canon (fun t => t.mem.wf = true) (s.vredOp op ty rnd mk d x len) := by
  simp [State.vredOp, h]

@[simp] theorem State.vmask_wf {s : State} {op : VecOp} {d x y : Fin 8} (h : s.mem.wf = true) :
    Ends Stop.Canon (fun t => t.mem.wf = true) (s.vmask op d x y) := by
  simp [State.vmask, h]

@[simp] theorem State.mpopOp_wf {s : State} {ty : Option Ty} {d : Dst} {x : Fin 8} {len : Nat} (h : s.mem.wf = true) :
    Ends Stop.Canon (fun t => t.mem.wf = true) (s.mpopOp ty d x len) := by
  simp [State.mpopOp, h]

@[simp] theorem State.vcheck_wf {s : State} {k : AKind} {w : Win} {e i : Nat} {a : Word} (h : s.mem.wf = true) :
    Ends Stop.Canon (fun _ => True) (s.vcheck k w e i a) := by
  unfold State.vcheck
  refine (State.precise_wf h).bind fun _ _ => ?_
  trivial

@[simp] theorem State.vgate_wf {s : State} {w : Win} {e : Nat} {ps : List VPlace} (h : s.mem.wf = true) :
    Ends Stop.Canon (fun _ => True) (s.vgate w e ps) := by
  unfold State.vgate
  refine (Ends.foldlM (B := fun _ => True) (fun _ _ _ => ?_) _ ?_).bind fun _ _ => ?_
  · exact State.touchGate_wf h
  · simp [h]
  · exact waitFor_wf

@[simp] theorem State.vpark_wf {s : State} {k : AKind} {w : Win} {e : Nat} {a : Word} :
    Ends Stop.Canon (fun _ => True) (s.vpark k w e a) := by
  unfold State.vpark
  split
  · exact State.parkGate_wf
  · trivial

@[simp] theorem State.vstart_wf {s : State} {o : VOp} {len : Nat} (h : s.mem.wf = true) :
    Ends Stop.Canon (fun t => t.mem.wf = true) (s.vstart o len) := by
  unfold State.vstart
  split
  · split
    · obtain ⟨p, -, hp⟩ := List.exists_of_findSome?_eq_some ‹_›
      exact State.await_wf (State.wf_of_mem_eq (State.demand_mem hp) h)
    · split
      · have hq := State.venq_wf (o := o) (rs := []) (len := len) h
        cases hr : s.venq o [] len with
        | ok t => exact State.vserve_wf (by simpa using hq.of_ok hr)
        | error e => exact hq.of_error hr
      · exact h
  · exact State.venq_wf h

@[simp] theorem State.vmem_wf {s : State} {op : VecOp} {w : Win} {ty : Option Ty} {mk : MaskSel} {d : Fin 16}
    {base idx : VScal} {vx : Option (Fin 16)} {sh : Nat} {imm : BitVec 24} {lit : Word} {len : Nat}
    (h : s.mem.wf = true) :
    Ends Stop.Canon (fun t => t.mem.wf = true) (s.vmem op w ty mk d base idx vx sh imm lit len) := by
  unfold State.vmem
  dsimp only
  refine State.need_wf.bind fun _ _ => ?_
  refine State.accessGate_wf.bind fun _ _ => ?_
  refine waitFor_wf.bind fun _ _ => ?_
  refine (Ends.foldlM (B := fun _ => True) (fun _ _ _ => ?_) _ ?_).bind fun _ _ => ?_
  · refine State.vpark_wf.bind fun _ _ => ?_
    refine (State.vcheck_wf h).bind fun _ _ => ?_
    trivial
  · simp [h]
  · refine (State.vgate_wf h).bind fun _ _ => ?_
    exact State.vstart_wf h

/-! ### Fetch -/

@[simp] theorem State.fetchInstrWords_wf {s : State} (h : s.mem.wf = true) :
    Ends Stop.Canon (fun _ => True) s.fetchInstrWords := by
  unfold State.fetchInstrWords
  dsimp only
  split
  · refine Ends.bind (A := fun _ => True) ?_ fun _ _ => ?_
    · trivial
    · refine (State.precise_wf h).bind fun _ _ => ?_
      refine (State.precise_wf h).bind fun _ _ => ?_
      refine check_wf.bind fun _ _ => ?_
      exact State.precise_wf h
  · refine (State.precise_wf h).bind fun _ _ => ?_
    refine (State.precise_wf h).bind fun _ _ => ?_
    refine check_wf.bind fun _ _ => ?_
    exact State.precise_wf h

@[simp] theorem State.fetchInstr_wf {s : State} (h : s.mem.wf = true) :
    Ends Stop.Canon (fun _ => True) s.fetchInstr := by
  unfold State.fetchInstr
  refine (State.fetchInstrWords_wf h).bind fun _ _ => ?_
  split <;> trivial

/-! ### Schedule -/

@[simp] theorem State.endTurn_wf {s : State} {c : CoreId} {was : Core} {k : Option SlotId} {ready : List SlotId}
    (h : s.mem.wf = true) :
    (s.endTurn c was k ready).mem.wf = true := by
  exact State.popRecord_wf h

end Sys2Proof.Machine
end

section
/-! PROOF. Every instruction and every step of the rotation keeps memory in its canonical form, and so a step does. -/

namespace Sys2Proof.Machine

/-- The next state that an answer gives has memory in its canonical form. -/
def Out.Canon : Out → Prop
  | .next t => t.mem.wf = true
  | _ => True

theorem next_canon {t : State} (h : t.mem.wf = true) : Out.Canon (.next t) := h

theorem complete_canon {s : State} {r : Res State} (h : s.mem.wf = true)
    (hr : Ends Stop.Canon (fun t => t.mem.wf = true) r) : Out.Canon (complete s r) := by
  fun_cases complete s r with
  | case1 t => exact hr
  | case2 t => exact State.takeTrap_wf t h
  | case3 t s' => exact State.takeTrap_wf t hr
  | case4 => exact next_canon (by simpa using h)
  | case5 => exact next_canon (by simpa using h)
  | case6 s' => exact next_canon (by simpa using hr)
  | case7 s' r => exact next_canon (by simpa using hr)

theorem noStep_canon {s : State} {r : HRun} (h : s.mem.wf = true) :
    Ends HStop.Canon (fun p => p.1.mem.wf = true) (noStep s r) := h

theorem HCode.single_canon {f : State → HRun → HRes (State × HRun)}
    (hf : ∀ s r, s.mem.wf = true → Ends HStop.Canon (fun p => p.1.mem.wf = true) (f s r)) : (HCode.single f).Canon where
  begins s r h := hf s r h
  step _ _ h := h
  ends _ _ h := h

theorem mldwCode_canon (c : CoreId) (l : Launch) : (mldwCode c l).Canon where
  begins s r h := by
    simp only [mldwCode]
    split
    · exact h
    · simpa using h
  step _ _ h := h
  ends s r h := by
    simp only [mldwCode]
    refine (State.hRead_wf h).bind fun w _ => ?_
    refine Ends.ite_bind (A := fun _ => True) ?_ fun sc _ => by simpa using h
    split
    · trivial
    · exact State.hRead_wf h

theorem mswapCode_canon (c : CoreId) : (mswapCode c).Canon := HCode.single_canon fun s r h => by
  dsimp only
  split
  · exact h
  · split
    · trivial
    · simpa using h

theorem mulCode_canon (c : CoreId) (rot : Bool) (l : Launch) : (mulCode c rot l).Canon where
  begins _ _ h := State.mulBegin_wf h
  step _ _ h := State.mulRow_wf h
  ends _ _ h := State.mulEnd_wf h

theorem mzeroCode_canon (c : CoreId) (l : Launch) : (mzeroCode c l).Canon where
  begins _ _ h := h
  step _ _ h := ends_ok.2 (by dsimp only; exact State.hWrite_wf h)
  ends _ _ h := h

theorem mraccCode_canon (c : CoreId) (l : Launch) : (mraccCode c l).Canon := HCode.single_canon fun s r h => by
  exact ends_ok.2 ((congrArg Memory.wf (State.modHarrow_mem ..)).trans (State.hWrite_wf h))

theorem mrfinCode_canon (c : CoreId) (l : Launch) : (mrfinCode c l).Canon where
  begins s r h := by
    simp only [mrfinCode]
    split
    · split
      · simpa using h
      · exact h
    · exact h
  step _ _ h := State.mrfinRow_wf h
  ends _ _ h := by simpa [mrfinCode] using h

theorem msyncCode_canon (c : CoreId) : (msyncCode c).Canon := HCode.single_canon fun s r h => by
  dsimp only
  split <;> exact h


/-- Whatever an instruction or a step of the part does, it keeps memory in its canonical form. -/
theorem exec_canon (i : Instr) {s : State} (h : s.mem.wf = true) : Out.Canon (exec i s) := by
  cases i with
  | trapz | illegalOp => exact complete_canon h trap_wf
  | add | addX | sub | subX | min | minX | minz | minzX | max | maxX | maxz | maxzX | mul | mulX | mulh | mulhX
  | mulhz | mulhzX | div | divX | divz | divzX | rem | remX | remz | remzX | and | andX | or | orX | xor | xorX
  | andn | andnX | shl | shlX | shr | shrX | sra | sraX | rotl | rotlX => exact complete_canon h (State.int2_wf h)
  | neg | negX | abs | absX | not | notX | clz | clzX | ctz | ctzX | popc | popcX => exact complete_canon h (State.int1_wf h)
  | lea | leaX => exact complete_canon h (State.leaOp_wf h)
  | bext | bextX | sext | sextX | zext | zextX => exact complete_canon h (State.raw2_wf h)
  | bins | binsX | sel | selX => exact complete_canon h (State.raw3_wf h)
  | cmp | cmpX => exact complete_canon h (State.cmpOp_wf h)
  | mov | movX => exact complete_canon h (State.movOp_wf h)
  | movl | land | nop | nopX | yield | isync | imux | rdtime | rderr | evrd | logReplay | sleepWake
  | torusWordLand | messageSend | messageArrival | debuggerResume | harrowComplete | bankDrained
  | rotationBankArrived | drillJobStart | triggerFire | send | copy | sowerWait | put | sowerAtom | stagingGrant
  | sowerEntryComplete | communicatorFail | failureNotice | homeRead | homeStore | homeAtomic | homeReduction
  | mergeRequest | mergeResponse | partialDrain | cacheEviction | pageCounterClear | releaseTokenAck
  | acquireTokenReturn | snpinv | snpdata | snpcur | doorbell | qCtlWrite | qCqheadWrite | registerWrite
  | lnkCtlRead | linkQuiesce | linkLock | linkRetrain | linkRelease | laneError | uncorrectableFlit | patrolScrub
  | rasRead | portDown | ptpMessage | ptpHoldover | ptpFreeRun | stimeRefresh | ckptGo | ckptCut
  | attestationRequest | fusedMinimumRaise | translationRootSet | coreRetire | partitionModeSet
  | thermalThrottleStep | thermalTrip | hostPortUp | communicatorCreate => exact next_canon (by simpa using h)
  | fadd | faddX | fsub | fsubX | fmul | fmulX | fma | fmaX => exact complete_canon h (State.fpLog_wf h)
  | fdiv | fdivX | fsqrt | fsqrtX | fmin | fminX | fmax | fmaxX | fabs | fabsX | fneg | fnegX =>
    exact complete_canon h (State.fpBlock_wf h)
  | fcmp | fcmpX => exact complete_canon h (State.fcmpOp_wf h)
  | fcvt => exact complete_canon h (State.fcvtOp_wf h)
  | fcls | fclsX => exact complete_canon h (State.fclsOp_wf h)
  | symt | symtX => exact complete_canon h (State.symtOp_wf h)
  | symw | symwX => exact complete_canon h (State.symwOp_wf h)
  | symx | symxX => exact complete_canon h (State.symxOp_wf h)
  | br | brX => exact complete_canon h (State.brOp_wf h)
  | bcmp => exact complete_canon h (State.bcmpOp_wf h)
  | call | callX => exact complete_canon h (State.callOp_wf h)
  | ret => exact complete_canon h (State.retOp_wf h)
  | jtb | jtc => exact complete_canon h (State.jumpTable_wf h)
  | loop | loopX => exact complete_canon h (State.loopOp_wf h)
  | spillw => exact complete_canon h (State.spillOp_wf h)
  | fillw => exact complete_canon h (State.fillOp_wf h)
  | hret => exact complete_canon h (State.hretOp_wf h)
  | realign => exact complete_canon h (State.realignOp_wf h)
  | fin => exact complete_canon h (State.finOp_wf h)
  | start => exact complete_canon h (State.startOp_wf h)
  | join | joinX => exact complete_canon h (State.joinOp_wf h)
  | wait | waitX => exact complete_canon h (State.waitOp_wf h)
  | ld | ldX => exact complete_canon h (State.ldAt_wf h)
  | st | stX => exact complete_canon h (State.stAt_wf h)
  | ldd | lddX => exact complete_canon h (State.lddAt_wf h)
  | ldacq => exact complete_canon h (State.ldacqAt_wf h)
  | strel => exact complete_canon h (State.strelAt_wf h)
  | lld | lldX => exact complete_canon h (State.lldAt_wf h)
  | lst => exact complete_canon h (State.lstAt_wf h)
  | ldb | ldbX => exact complete_canon h (State.ldbAt_wf h)
  | stb | stbX => exact complete_canon h (State.stbAt_wf h)
  | stsig => exact complete_canon h (State.stsigAt_wf h)
  | stg | stgX => exact complete_canon h (State.stgAt_wf h)
  | ldg | ldgX => exact complete_canon h (State.ldgAt_wf h)
  | cbwaitF | cbwaitE => exact complete_canon h (State.cbWait_wf h)
  | cbadvF | cbadvE => exact complete_canon h (State.cbAdvance_wf h)
  | publ => exact complete_canon h (State.publOp_wf h)
  | tdecl | tdeclX => exact complete_canon h (State.tdeclOp_wf h)
  | tfree | tfreeX => exact complete_canon h (State.tfreeOp_wf h)
  | tfwd | tfwdX => exact complete_canon h (State.tfwdOp_wf h)
  | pref | prefX | evict | evictX => exact complete_canon h (State.hintOp_wf (fun t a ht => by simpa using ht) h)
  | pin => exact complete_canon h (State.pinOp_wf h)
  | unpin => exact complete_canon h (State.unpinOp_wf h)
  | barinit | barinitX => exact complete_canon h (State.barinitOp_wf h)
  | barexp | barexpX => exact complete_canon h (State.barexpOp_wf h)
  | bararr | bararrX => exact complete_canon h (State.bararrOp_wf h)
  | barwait | barwaitX => exact complete_canon h (State.barwaitOp_wf h)
  | atom | atomX | red | redX => exact complete_canon h (State.atomAt'_wf h)
  | fence => exact complete_canon h (State.fenceOp_wf h)
  | vadd | vaddX | vsub | vsubX | vmul | vmulX | vfma | vfmaX | vmin | vminX | vmax | vmaxX | vabs | vabsX | vneg
  | vnegX | vrcp | vrcpX | vrsq | vrsqX | vexp | vexpX | vlog | vlogX | vtanh | vtanhX | vscan | vscanX =>
    exact complete_canon h (State.vfp_wf h)
  | vcvt => exact complete_canon h (State.venq_wf h)
  | vquant | vquantX => exact complete_canon h (State.vquantOp_wf h)
  | vdeq | vdeqX => exact complete_canon h (State.vdeqOp_wf h)
  | vcmp | vcmpX => exact complete_canon h (State.vec_wf h)
  | vsel | vselX | vand | vandX | vor | vorX | vxor | vxorX | vnot | vnotX | vshl | vshlX | vshr | vshrX | vsra
  | vsraX | vperm | vpermX | vmov | vmovX => exact complete_canon h (State.vbits_wf h)
  | vbcast | vbcastX => exact complete_canon h (State.vbcastOp_wf h)
  | vidx | vidxX | vins | vinsX => exact complete_canon h (State.vscalars_wf h)
  | vext | vextX => exact complete_canon h (State.vextOp_wf h)
  | vred | vredX => exact complete_canon h (State.vredOp_wf h)
  | vld | vldX | vst | vstX | vgth | vgthX | vsct | vsctX => exact complete_canon h (State.vmem_wf h)
  | mand | mor | mxor | mnot => exact complete_canon h (State.vmask_wf h)
  | mpop | mpopX => exact complete_canon h (State.mpopOp_wf h)
  | mcmd | mcmdX => exact complete_canon h (State.mcmdOp_wf h)
  | mqry => exact complete_canon h (State.mqryOp_wf h)
  | djob | djobX => exact complete_canon h (State.djobOp_wf h)
  | rbind | rbindX => exact complete_canon h (State.rbindOp_wf h)
  | rfree => exact complete_canon h (State.rfreeOp_wf h)
  | msend | msendX => exact complete_canon h (State.msendOp_wf h)
  | mrecv | mrecvX => exact complete_canon h (State.mrecvOp_wf h)
  | mprobe => exact complete_canon h (State.mprobeOp_wf h)
  | xmit => exact complete_canon h (State.xmitOp_wf h)
  | hbar | hbarX => exact complete_canon h (State.hbarOp_wf h)
  | trgPost | trgPostX => exact complete_canon h (State.trgPostOp_wf h)
  | trgInc | trgIncX => exact complete_canon h (State.trgIncOp_wf h)
  | trgRd | trgRdX => exact complete_canon h (State.trgRdOp_wf h)
  | trgCancel => exact complete_canon h (State.trgCancelOp_wf h)
  | evclr => exact complete_canon h (waitFor_wf.bind fun _ _ => by simpa using h)
  | evgath | evgathX => exact complete_canon h (State.evgathOp_wf h)
  | crd => exact complete_canon h (State.crdOp_wf h)
  | cwr => exact complete_canon h (State.cwrOp_wf h)
  | trap => exact complete_canon h (State.trapOp_wf h)
  | brk | fetchPortServe | hostRead | clkFreqWrite | lnkCtlWrite | linkDrain | ongeozPortUp
  | commandProcessorSignal =>
    refine next_canon ?_
    split
    · simpa using h
    · simpa using h
  | wfe => exact complete_canon h (State.wfeOp_wf h)
  | idle => exact complete_canon h (State.idleOp_wf h)
  | vectorIssue => exact next_canon (State.vectorIssue_wf h)
  | deferredLoadComplete => exact next_canon (State.deliverLoad_wf h)
  | recordPop => exact next_canon (State.popRecord_wf h)
  | stealSweep => exact next_canon (State.stealSweep_wf h)
  | waitTimeout | realignTimeout =>
    refine next_canon ?_
    split
    · exact h
    · split <;> simpa using h
  | gatherComplete => exact next_canon (State.gatherComplete_wf h)
  | nakArrival => exact next_canon (State.arriveNak_wf h)
  | deferredReceive => exact next_canon (State.within_wf (fun _ => State.deferredReceive_wf) h)
  | parkedReplay => exact next_canon (State.within_wf (fun _ => State.replayOldest_wf) h)
  | mappingRejected => exact next_canon (State.rejectMapping_wf h)
  | serviceReply =>
    refine next_canon ?_
    split
    · simpa [State.answerWaits_mem ‹_›] using h
    · exact State.serviceReply_wf (State.putDescs_wf (by simpa using h))
  | asyncTrap => exact next_canon (State.asyncTrap_wf h)
  | mldw c => exact next_canon (State.hEvent_wf (mldwCode_canon c) h)
  | mswap c => exact next_canon (State.hEvent_wf (fun _ => mswapCode_canon c) h)
  | mmul c => exact next_canon (State.hEvent_wf (mulCode_canon c false) h)
  | mrot c => exact next_canon (State.hEvent_wf (mulCode_canon c true) h)
  | mepi c => exact next_canon (State.hEvent_wf (mepiCode_canon c) h)
  | mzero c => exact next_canon (State.hEvent_wf (mzeroCode_canon c) h)
  | mred c => exact next_canon (State.hEvent_wf (mredCode_canon c) h)
  | mracc c => exact next_canon (State.hEvent_wf (mraccCode_canon c) h)
  | mrfin c => exact next_canon (State.hEvent_wf (mrfinCode_canon c) h)
  | msync c => exact next_canon (State.hEvent_wf (fun _ => msyncCode_canon c) h)
  | harrowFault => exact next_canon (State.harrowFault_wf h)
  | rotationRowsLanded => exact next_canon (State.rowsLand_wf h)
  | mredArrival => exact next_canon (State.mredArrives_wf h)
  | drillChunk => exact next_canon (State.drillChunk_wf h)
  | drillJobComplete => exact next_canon (State.jobComplete_wf h)
  | drillJobFault => exact next_canon (State.jobFault_wf h)
  | recv | rrs | a2a => exact next_canon (State.beginOrRetry_wf h)
  | prog => exact next_canon (State.beginProg_wf h)
  | progStepStart => exact next_canon (State.progStep_wf h)
  | chunkStart => exact next_canon (State.startChunk_wf h)
  | chunkArrival => exact next_canon (State.chunkArrives_wf h)
  | putArrival => exact next_canon (State.putArrives_wf h)
  | a2aForward => exact next_canon (State.forwardBlock_wf h)
  | bisnpResponse => exact next_canon (State.snoopAnswer_wf h)
  | hostWrite =>
    refine next_canon ?_
    split
    · simpa using h
    · split
      · simpa using h
      · exact State.hostWrites_wf h
  | cxlCacheResponse => exact next_canon (State.hostGrant_wf h)
  | shootdown => exact next_canon (State.shootdown_wf h)
  | launch => exact next_canon (State.launchEntry_wf h)
  | cancel => exact next_canon (State.cancelEntry_wf h)
  | launchGrant => exact next_canon (State.grant_wf h)
  | launchSweep => exact next_canon (State.sweep_wf h)
  | tlimitExpiry => exact next_canon (State.limit_wf h)
  | cqRecordWrite => exact next_canon (State.writeRecord_wf h)
  | preempt => exact next_canon (State.preempt_wf h)
  | resume => exact next_canon (State.resume_wf h)
  | epilogueStallTimeout => exact next_canon (State.stallEpilogue_wf h)
  | strayWritePerformed => exact next_canon (State.performStray_wf h)
  | linkDown => exact next_canon (State.linkDown_wf h)
  | lineRepair => exact next_canon (State.repair_wf h)
  | parityError => exact next_canon (State.parity_wf h)
  | streamPage => exact next_canon (State.streamPage_wf h)
  | powerGood | modeMTrap => exact next_canon (State.bringUp_wf h)
  | modeSTrap => exact next_canon (State.modeSTrap_wf h)
  | imageSupply => exact next_canon (State.supplyImage_wf h)
  | ongeozPortDown =>
    refine next_canon ?_
    split
    · simpa using h
    · exact h
    · simpa using h


/-! ## Every step of the rotation is a step of the table, or starts a copy ahead -/

/-- What a step of the rotation does: a step of the table, or something that leaves memory as it is. -/
def IsStep (f : State → Out) : Prop := (∃ i, f = exec i) ∨ ∀ s, ∃ t : State, f s = .next t ∧ t.mem = s.mem

theorem isStep_exec (i : Instr) : IsStep (exec i) := .inl ⟨i, rfl⟩

/-- Every entry of a list of the rotation is a step. -/
def Steps (l : List Due) : Prop := ∀ d ∈ l, IsStep d.2

namespace Steps

variable {b : Bool} {f : State → Out} {l l' : List Due}

theorem nil : Steps [] := List.forall_mem_nil _

theorem cons (hf : IsStep f) (hl : Steps l) : Steps ((b, f) :: l) := List.forall_mem_cons.2 ⟨hf, hl⟩

theorem append (hl : Steps l) (hl' : Steps l') : Steps (l ++ l') := List.forall_mem_append.2 ⟨hl, hl'⟩

theorem flatMap {α : Type} {g : α → List Due} {xs : List α} (hg : ∀ x, Steps (g x)) : Steps (xs.flatMap g) := by
  intro d hd
  obtain ⟨x, -, hx⟩ := List.mem_flatMap.1 hd
  exact hg x d hx

theorem map {α : Type} {g : α → Due} {xs : List α} (hg : ∀ x, IsStep (g x).2) : Steps (xs.map g) :=
  List.forall_mem_map.2 fun x _ => hg x

end Steps

theorem harrowSteps_steps (c : CoreId) (h : Harrow) : Steps (harrowSteps c h) :=
  .cons (isStep_exec (.mldw c)) <| .cons (isStep_exec (.mswap c)) <| .cons (isStep_exec (.mmul c)) <|
  .cons (isStep_exec (.mrot c)) <| .cons (isStep_exec (.mepi c)) <| .cons (isStep_exec (.mzero c)) <|
  .cons (isStep_exec (.mred c)) <| .cons (isStep_exec (.mracc c)) <| .cons (isStep_exec (.mrfin c)) <|
  .cons (isStep_exec (.msync c)) <| .cons (isStep_exec (.harrowComplete c)) <| .cons (isStep_exec (.harrowFault c)) <|
  .cons (isStep_exec (.bankDrained c)) <| .cons (isStep_exec (.rotationBankArrived { core := c })) <|
  .cons (isStep_exec (.rotationRowsLanded { core := c })) <| .cons (isStep_exec (.mredArrival { core := c })) .nil

theorem drillSteps_steps (c : CoreId) (jobs : List Job) : Steps (drillSteps c jobs) :=
  .cons (isStep_exec (.drillJobStart c)) <| .cons (isStep_exec (.drillChunk { core := c })) <|
  .cons (isStep_exec (.drillJobComplete c)) <| .cons (isStep_exec (.drillJobFault c)) .nil

theorem ctxSteps_steps (c : CoreId) (k : SlotId) (t : Ctx) : Steps (ctxSteps c k t) :=
  .cons (isStep_exec (.deferredLoadComplete c k)) <| .cons (isStep_exec (.logReplay c k)) <|
  .cons (isStep_exec (.deferredReceive c k)) <| .cons (isStep_exec (.parkedReplay c k)) .nil

theorem State.aheadSteps_steps (s : State) (c : CoreId) : Steps (s.aheadSteps c) :=
  .map fun k => .inr fun t => ⟨t.touchAhead c k, rfl, t.touchAhead_mem c k⟩

theorem chanSteps_steps (s : State) (c : CoreId) (ch : Fin 16) (h : Channel) : Steps (chanSteps s c ch h) :=
  .cons (isStep_exec (.messageSend c ch)) <| .cons (isStep_exec (.messageArrival { core := c } ch)) <|
  .cons (isStep_exec (.nakArrival c ch)) .nil

theorem State.coreSteps_steps (s : State) (c : CoreId) : Steps (s.coreSteps c) := by
  unfold State.coreSteps
  split
  · exact .nil
  · refine .append (.append (.append (.append (.append ?_ (harrowSteps_steps c _)) (drillSteps_steps c _)) ?_)
      (s.aheadSteps_steps c)) ?_
    · exact .cons (isStep_exec (.vectorIssue c)) <| .cons (isStep_exec (.stealSweep c)) <|
        .cons (isStep_exec (.strayWritePerformed c)) .nil
    · exact .flatMap fun k => ctxSteps_steps c k _
    · exact .flatMap fun ch => chanSteps_steps s c ch _

theorem State.launchSteps_steps (s : State) (l : Launch) : Steps (s.launchSteps l) :=
  .cons (isStep_exec (.gatherComplete _)) <| .cons (isStep_exec (.launchSweep _)) <| .cons (isStep_exec (.preempt _)) .nil

theorem State.savedSteps_steps (s : State) (l : Launch) : Steps (s.savedSteps l) := by
  unfold State.savedSteps
  split
  · exact .flatMap fun c => .map fun k => isStep_exec (.deferredLoadComplete (coreOf c) k)
  · exact .nil

theorem queueSteps_steps (q : Nat) (x : WQueue) : Steps (queueSteps q x) :=
  .cons (isStep_exec (.launch q)) <| .cons (isStep_exec (.cancel q)) <| .cons (isStep_exec (.cqRecordWrite q)) .nil

theorem isStep_entryOp (h : Fin 16384) (op : Nat) : IsStep (entryOp h op) := by
  unfold entryOp
  split
  · exact isStep_exec (.send h)
  · exact isStep_exec (.recv h)
  · exact isStep_exec (.rrs h)
  · exact isStep_exec (.copy h)
  · exact isStep_exec (.sowerWait h)
  · exact isStep_exec (.put h)
  · exact isStep_exec (.sowerAtom h)
  · exact isStep_exec (.prog h)
  · exact isStep_exec (.a2a h)

theorem entrySteps_steps (w : Sower) (e : Entry) : Steps (entrySteps w e) :=
  .cons (isStep_exec (.triggerFire _)) <| .cons (isStep_entryOp _ _) <| .cons (isStep_exec (.progStepStart _)) <|
  .cons (isStep_exec (.sowerEntryComplete _)) .nil

theorem commSteps_steps (n : Nat) (c : Comm) : Steps (commSteps n c) :=
  .append (.flatMap fun r => .cons (isStep_exec (.chunkArrival n r none)) <| .cons (isStep_exec (.putArrival n r none)) <|
    .cons (isStep_exec (.a2aForward n r 0 noChunk)) .nil)
  (.cons (isStep_exec (.communicatorFail n)) <| .cons (isStep_exec (.failureNotice n 0)) .nil)

theorem Sower.steps_steps (w : Sower) : Steps w.steps := by
  refine .append (.append (.append (.flatMap (entrySteps_steps w)) (.map fun x => isStep_exec (.stagingGrant x.id))) ?_)
    (.flatMap fun p => commSteps_steps p.2 p.1)
  split
  · exact .nil
  · exact .map fun o => isStep_exec (.chunkStart o)

theorem dieSteps_steps (d : DieId) (x : DieState) : Steps (dieSteps d x) :=
  .cons (isStep_exec (.releaseTokenAck d)) <| .cons (isStep_exec (.acquireTokenReturn d)) <|
  .cons (isStep_exec (.linkDrain d)) <| .cons (isStep_exec (.linkQuiesce d)) <| .cons (isStep_exec (.linkLock d)) <|
  .cons (isStep_exec (.linkRetrain d)) <| .cons (isStep_exec (.linkRelease d)) .nil

theorem isStep_snoopStep (p : Nat × HostSnoop) : IsStep (snoopStep p) := by
  unfold snoopStep
  split
  · exact isStep_exec (.snpinv _)
  · exact isStep_exec (.snpdata _)
  · exact isStep_exec (.snpcur _)

theorem State.packageSteps_steps (s : State) : Steps s.packageSteps := by
  refine .append (.append (.append (.append (.append (.append (.append ?_ ?_) ?_) ?_) s.sower.steps_steps) ?_) ?_) ?_
  · exact .flatMap s.launchSteps_steps
  · exact .flatMap s.savedSteps_steps
  · exact .flatMap fun p => queueSteps_steps p.1 p.2
  · exact .cons (isStep_exec .asyncTrap) <| .cons (isStep_exec .ckptCut) <| .cons (isStep_exec (.streamPage true)) .nil
  · exact .flatMap fun d => dieSteps_steps d _
  · exact .map isStep_snoopStep
  · exact .flatMap fun n => .cons (isStep_exec (.mergeRequest _)) <| .cons (isStep_exec (.mergeResponse _)) .nil

theorem State.isStep_portStep (s : State) (cl : Nat) : IsStep (s.portStep cl).2 := by
  unfold State.portStep
  split
  · exact isStep_exec (.fetchPortServe _ _)
  · exact .inr fun t => ⟨t, rfl, rfl⟩

theorem State.engineSteps_steps (s : State) : Steps s.engineSteps :=
  .append (.append (.map s.isStep_portStep) (.flatMap s.coreSteps_steps)) s.packageSteps_steps

theorem nextDue_mem {l : List Due} {n m : Nat} {f : State → Out} (h : nextDue l n = some (f, m)) : ∃ b, (b, f) ∈ l := by
  unfold nextDue at h
  dsimp only at h
  split at h
  · next p hp =>
    cases h
    exact ⟨_, (List.mem_zipIdx' (List.mem_of_find?_eq_some hp)).2 ▸ List.getElem_mem _⟩
  · obtain ⟨p, hp, hpf⟩ := Option.map_eq_some_iff.1 h
    cases hpf
    exact ⟨_, (List.mem_zipIdx' (List.mem_of_find?_eq_some hp)).2 ▸ List.getElem_mem _⟩

/-! ## What every instruction and step keeps, a step of the whole keeps -/

/-- The answer is a next state, and I holds of it. -/
def Out.Goes (I : State → Prop) (o : Out) : Prop := ∃ t, o = .next t ∧ I t

/-- I says something of memory alone, and every instruction and step of the table keeps it. -/
structure Kept (I : State → Prop) : Prop where
  of_mem_eq {s t : State} : I s → t.mem = s.mem → I t
  exec (i : Instr) {s : State} : I s → Out.Goes I (exec i s)
  runNext {s : State} : I s → Out.Goes I s.runNext
  popRecord {s : State} (c : CoreId) (may : SlotId → Bool) : I s → I (s.popRecord c may)

namespace Kept

variable {I : State → Prop} (K : Kept I) {s : State}
include K

theorem isStep {f : State → Out} (hf : IsStep f) (h : I s) : Out.Goes I (f s) := by
  obtain ⟨i, rfl⟩ | hf := hf
  · exact K.exec i h
  · obtain ⟨t, ht, hmem⟩ := hf s
    exact ⟨t, ht, K.of_mem_eq h hmem⟩

theorem engineStep (h : I s) : Out.Goes I s.engineStep := by
  unfold State.engineStep
  split
  · next f n hn =>
    obtain ⟨b, hb⟩ := nextDue_mem hn
    exact K.isStep (s.engineSteps_steps _ hb) (K.of_mem_eq h rfl)
  · exact ⟨s, rfl, h⟩

theorem tryCtx {c : CoreId} {k : SlotId} {o : Out} (h : I s) (ho : s.tryCtx c k = some o) : Out.Goes I o := by
  unfold State.tryCtx at ho
  dsimp only at ho
  split at ho
  · obtain ⟨t, ht, hIt⟩ := K.runNext (s := s.onto c k) (K.of_mem_eq h rfl)
    rw [ht] at ho
    dsimp only at ho
    split at ho
    · cases ho
    · cases ho
      exact ⟨t, rfl, hIt⟩
  · cases ho

theorem readySlots {c : CoreId} {p : SlotId × Out} (h : I s) (hp : p ∈ s.readySlots c) : Out.Goes I p.2 := by
  obtain ⟨k, -, hk⟩ := List.mem_filterMap.1 hp
  obtain ⟨o, ho, rfl⟩ := Option.map_eq_some_iff.1 hk
  exact K.tryCtx h ho

theorem endTurn {c : CoreId} {was : Core} {k : Option SlotId} {ready : List SlotId} (h : I s) :
    I (s.endTurn c was k ready) :=
  K.popRecord _ _ (K.of_mem_eq h (by simp))

end Kept

theorem Core.mem_of_considered {x : Core} {ready : List (SlotId × Out)} {p : SlotId × Out} (h : p ∈ x.considered ready) :
    p ∈ ready := by
  unfold Core.considered at h
  split at h
  · exact (List.mem_filter.1 h).1
  · exact h

theorem Core.mem_of_pick {x : Core} {l : List (SlotId × Out)} {p : SlotId × Out} (h : x.pick l = some p) : p ∈ l := by
  suffices ∀ (l : List (SlotId × Out)) (b : Option (SlotId × Out)),
      l.foldl (fun best p => match best with | none => some p | some b => if x.before p.1 b.1 then some p else some b)
        b = some p →
        b = some p ∨ p ∈ l by
    simpa using this l none h
  intro l
  induction l with
  | nil => exact fun b hb => .inl hb
  | cons a l ih =>
    intro b hb
    rw [List.foldl_cons] at hb
    obtain h | h := ih _ hb
    · cases b with
      | none => cases h; exact .inr List.mem_cons_self
      | some b =>
        dsimp only at h
        split at h
        · cases h; exact .inr List.mem_cons_self
        · exact .inl h
    · exact .inr (List.mem_cons_of_mem _ h)

namespace Kept

variable {I : State → Prop} (K : Kept I) {s : State}
include K

theorem turnOf {c : CoreId} (h : I s) : Ends I (Out.Goes I) (s.turnOf c) := by
  unfold State.turnOf
  have hb : I (s.beginTurn c) := K.of_mem_eq h (by simp)
  dsimp only
  split
  · exact h
  · split
    · exact K.endTurn hb
    · next k t hpick =>
      obtain ⟨u, hu, hIu⟩ := K.readySlots hb (Core.mem_of_considered (Core.mem_of_pick hpick))
      cases hu
      exact ⟨_, rfl, K.endTurn hIu⟩
    · next k o _ hpick => exact K.readySlots hb (Core.mem_of_considered (Core.mem_of_pick hpick))

theorem firstTurn (cs : List CoreId) (h : I s) : Ends I (Out.Goes I) (s.firstTurn cs) := by
  induction cs generalizing s with
  | nil => exact h
  | cons c rest ih =>
    have hc := K.turnOf (c := c) h
    unfold State.firstTurn
    split
    · obtain ⟨u, hu, hIu⟩ := hc.of_ok ‹_›
      cases hu
      exact ⟨_, rfl, K.of_mem_eq hIu (by simp)⟩
    · exact hc.of_ok ‹_›
    · exact ih (hc.of_error ‹_›)

theorem issueStep (h : I s) : Ends I (Out.Goes I) s.issueStep := by
  have hc := K.firstTurn (s.coreOrder.filter fun c => decide (s.turn ≤ c)) h
  unfold State.issueStep
  dsimp only
  split
  · exact hc.of_ok ‹_›
  · next t ht => exact K.firstTurn _ (K.of_mem_eq (hc.of_error ht) rfl)

theorem scheduled (engines : Bool) (h : I s) : Out.Goes I (s.scheduled engines) := by
  have hc := K.issueStep h
  unfold State.scheduled
  split
  · exact K.engineStep h
  · split
    · exact hc.of_ok ‹_›
    · next t ht => exact K.engineStep (K.of_mem_eq (hc.of_error ht) rfl)

/-- What comes from outside is taken, but by a module that is off. -/
theorem takeInput (i : Instr) (h : I s) : Out.Goes I
    (s.takeInput i) ∨ s.powered = false ∧ s.takeInput i = .fault .poweredOff := by
  unfold State.takeInput
  split
  · exact .inl (K.exec _ h)
  · split
    · exact .inr ⟨by simpa using ‹(!s.powered) = true›, rfl⟩
    · split
      · exact .inl (K.exec i h)
      · exact .inl ⟨s, rfl, h⟩

theorem requeue {i : Instr} {o : Out} (ho : Out.Goes I o) : Out.Goes I (requeue i o) := by
  obtain ⟨t, rfl, ht⟩ := ho
  exact ⟨_, rfl, K.of_mem_eq ht (by split <;> rfl)⟩

theorem requeue_takeInput {i : Instr} (h : I s) :
    Out.Goes I (Machine.requeue i (s.takeInput i)) ∨
      s.powered = false ∧ Machine.requeue i (s.takeInput i) = .fault .poweredOff := by
  obtain hi | ⟨hoff, hi⟩ := K.takeInput i h
  · exact .inl (K.requeue hi)
  · exact .inr ⟨hoff, by rw [hi]; rfl⟩

/-- A step goes to a state in which I holds, unless the module is off. -/
theorem step (h : I s) : Out.Goes I (step s) ∨ s.powered = false ∧ step s = .fault .poweredOff := by
  unfold Machine.step State.stepWhole
  dsimp only
  split
  · exact K.requeue_takeInput (s := { s with steps := s.steps + 1, inputs := _, again := false }) (K.of_mem_eq h rfl)
  · exact K.requeue_takeInput (s := { s with steps := s.steps + 1, held := _, again := false }) (K.of_mem_eq h rfl)
  · split
    · exact .inl (K.scheduled _ (K.of_mem_eq h rfl))
    · exact .inr ⟨by simpa using ‹¬s.powered = true›, rfl⟩

end Kept

/-- No instruction and no step of the part is refused or stops the machine. -/
theorem exec_next (i : Instr) (s : State) : ∃ t, exec i s = .next t := by
  cases i with
  | add | addX | sub | subX | neg | negX | abs | absX | min | minX | minz | minzX | max | maxX | maxz | maxzX | lea
  | leaX | mul | mulX | mulh | mulhX | mulhz | mulhzX | div | divX | divz | divzX | rem | remX | remz | remzX | and
  | andX | or | orX | xor | xorX | andn | andnX | not | notX | shl | shlX | shr | shrX | sra | sraX | rotl | rotlX
  | clz | clzX | ctz | ctzX | popc | popcX | bext | bextX | bins | binsX | sext | sextX | zext | zextX | cmp | cmpX
  | sel | selX | mov | movX | fadd | faddX | fsub | fsubX | fmul | fmulX | fma | fmaX | fdiv | fdivX | fsqrt | fsqrtX
  | fmin | fminX | fmax | fmaxX | fabs | fabsX | fneg | fnegX | fcmp | fcmpX | fcvt | fcls | fclsX | symw | symwX
  | bcmp | call | callX | ret | jtb | jtc | loop | loopX | spillw | fillw | hret | realign | fin | start | join | joinX
  | wait | waitX | ld | ldX | st | stX | ldd | lddX | ldacq | strel | lld | lldX | lst | ldb | ldbX | stb | stbX
  | stsig | stg | stgX | ldg | ldgX | cbwaitF | cbwaitE | cbadvF | cbadvE | publ | tdecl | tdeclX | tfree | tfreeX
  | tfwd | tfwdX | pref | prefX | evict | evictX | pin | unpin | barinit | barinitX | barexp | barexpX | bararr
  | bararrX | barwait | barwaitX | atom | atomX | red | redX | fence | vadd | vaddX | vsub | vsubX | vmul | vmulX
  | vfma | vfmaX | vmin | vminX | vmax | vmaxX | vabs | vabsX | vneg | vnegX | vrcp | vrcpX | vrsq | vrsqX | vexp
  | vexpX | vlog | vlogX | vtanh | vtanhX | vcvt | vquant | vquantX | vdeq | vdeqX | vcmp | vcmpX | vsel | vselX | vand
  | vandX | vor | vorX | vxor | vxorX | vnot | vnotX | vshl | vshlX | vshr | vshrX | vsra | vsraX | vperm | vpermX
  | vbcast | vbcastX | vidx | vidxX | vmov | vmovX | vins | vinsX | vext | vextX | vred | vredX | vscan | vscanX | vld
  | vldX | vst | vstX | vgth | vgthX | vsct | vsctX | mand | mor | mxor | mnot | mpop | mpopX | mcmd | mcmdX | mqry
  | djob | djobX | rbind | rbindX | rfree | msend | msendX | mrecv | mrecvX | mprobe | xmit | hbar | hbarX | trgPost
  | trgPostX | trgInc | trgIncX | trgRd | trgRdX | trgCancel | evclr | evgath | evgathX | crd | cwr | trap | wfe | idle =>
    exact complete_next s _
  | trapz | movl | symt | symtX | symx | symxX | br | brX | land | nop | nopX | yield | isync | imux | rdtime | rderr
  | evrd | brk | vectorIssue | fetchPortServe | deferredLoadComplete | logReplay | recordPop | stealSweep | waitTimeout
  | sleepWake | realignTimeout | torusWordLand | gatherComplete | messageSend | messageArrival | nakArrival
  | deferredReceive | parkedReplay | mappingRejected | serviceReply | debuggerResume | asyncTrap | mldw | mswap | mmul
  | mrot | mepi | mzero | mred | mracc | mrfin | msync | harrowComplete | harrowFault | bankDrained
  | rotationBankArrived | rotationRowsLanded | mredArrival | drillJobStart | drillChunk | drillJobComplete
  | drillJobFault | triggerFire | send | recv | rrs | copy | sowerWait | put | sowerAtom | prog | a2a | progStepStart
  | chunkStart | stagingGrant | chunkArrival | putArrival | sowerEntryComplete | a2aForward | communicatorFail
  | failureNotice | homeRead | homeStore | homeAtomic | homeReduction | mergeRequest | mergeResponse | partialDrain
  | cacheEviction | pageCounterClear | releaseTokenAck | acquireTokenReturn | bisnpResponse | hostRead | hostWrite
  | snpinv | snpdata | snpcur | cxlCacheResponse | shootdown | launch | cancel | launchGrant | launchSweep
  | tlimitExpiry | cqRecordWrite | preempt | resume | epilogueStallTimeout | strayWritePerformed | doorbell | qCtlWrite
  | qCqheadWrite | registerWrite | clkFreqWrite | lnkCtlWrite | lnkCtlRead | linkDrain | linkQuiesce | linkLock
  | linkRetrain | linkRelease | laneError | linkDown | uncorrectableFlit | lineRepair | parityError | patrolScrub
  | rasRead | portDown | ptpMessage | ptpHoldover | ptpFreeRun | stimeRefresh | ckptGo | ckptCut | streamPage
  | powerGood | modeSTrap | modeMTrap | attestationRequest | imageSupply | fusedMinimumRaise | translationRootSet
  | coreRetire | partitionModeSet | thermalThrottleStep | thermalTrip | illegalOp | ongeozPortDown | ongeozPortUp
  | hostPortUp | communicatorCreate | commandProcessorSignal =>
    exact ⟨_, rfl⟩

theorem State.runNext_next (s : State) : ∃ t, s.runNext = .next t := by
  unfold State.runNext
  split
  · exact ⟨_, rfl⟩
  · split
    · exact complete_next s _
    · exact exec_next _ s

theorem State.runNext_canon {s : State} (h : s.mem.wf = true) : Out.Canon s.runNext := by
  unfold State.runNext
  split
  · exact next_canon (State.takeTrap_wf _ h)
  · split
    · next e he => exact complete_canon h ((State.fetchInstr_wf h).of_error he)
    · exact exec_canon _ h

/-- An answer that is a next state, with memory in its canonical form if it is one. -/
theorem Out.Canon.goes {o : Out} (ho : Out.Canon o) (hnext : ∃ t, o = .next t) : Out.Goes (fun t => t.mem.wf = true) o := by
  obtain ⟨t, rfl⟩ := hnext
  exact ⟨t, rfl, ho⟩

theorem kept_true : Kept fun _ => True where
  of_mem_eq _ _ := trivial
  exec i s _ := (exec_next i s).imp fun _ ht => ⟨ht, trivial⟩
  runNext {s} _ := s.runNext_next.imp fun _ ht => ⟨ht, trivial⟩
  popRecord _ _ _ := trivial

theorem kept_wf : Kept fun s => s.mem.wf = true where
  of_mem_eq h hmem := State.wf_of_mem_eq hmem h
  exec i s h := (exec_canon i h).goes (exec_next i s)
  runNext {s} h := (State.runNext_canon h).goes s.runNext_next
  popRecord _ _ h := State.popRecord_wf h

/-- Settles O3: every instruction and every step of the table keeps the form, so a step of the whole does. -/
theorem everyStepKeepsMemoryForm : Obligations.EveryStepKeepsMemoryForm := by
  intro s s' hs hstep
  obtain ⟨t, ht, hwf⟩ | ⟨-, hfault⟩ := kept_wf.step (s := s) hs
  · cases hstep.symm.trans ht
    exact hwf
  · cases hstep.symm.trans hfault

/-- Settles O4: every instruction and every step of the table answers a next state, so only the missing power stops a
    step. -/
theorem everyStepIsSafe : Obligations.EveryStepIsSafe := by
  intro s
  unfold State.safeStep
  obtain ⟨t, ht, -⟩ | ⟨hoff, hfault⟩ := kept_true.step (s := s) trivial
  · rw [ht]
    trivial
  · rw [hfault]
    exact hoff

end Sys2Proof.Machine
end

section
/-! PROOF. What an instruction with a scalar result writes. -/

namespace Sys2Proof.Machine

open Stmt

/-! ## Event counters -/

@[simp] theorem State.countAll_nil (s : State) (c : CoreId) : s.countAll c [] = s := rfl

theorem State.countAll_eq_modCore (s : State) (c : CoreId) (ks : List Nat) :
    s.countAll c ks = s.modCore c fun x => x.countAll ks := by
  cases ks with
  | nil => exact (State.setCore_core s c).symm
  | cons k ks => rfl

theorem Core.count_frame (x : Core) (k n : Nat) : { x.count k n with ev := x.ev } = x := by
  unfold Core.count
  split <;> rfl

theorem Core.countAll_frame (x : Core) (ks : List Nat) : { x.countAll ks with ev := x.ev } = x := by
  unfold Core.countAll
  induction ks generalizing x with
  | nil => rfl
  | cons k ks ih =>
    calc { ks.foldl (fun x k => x.count k 1) (x.count k 1) with ev := x.ev }
      _ = { ({ ks.foldl (fun x k => x.count k 1) (x.count k 1) with ev := (x.count k 1).ev } : Core) with ev := x.ev } := rfl
      _ = x := by rw [ih, Core.count_frame]

@[simp] theorem Core.countAll_ctxs (x : Core) (ks : List Nat) : (x.countAll ks).ctxs = x.ctxs := by
  have h := congrArg Core.ctxs (Core.countAll_frame x ks)
  exact h

@[simp] theorem Core.countAll_ctx (x : Core) (ks : List Nat) (k : SlotId) : (x.countAll ks).ctx k = x.ctx k := by
  simp [Core.ctx]

theorem Core.count_setCtx (x : Core) (k : SlotId) (t : Ctx) (e n : Nat) :
    (x.setCtx k t).count e n = (x.count e n).setCtx k t := by
  unfold Core.count
  split <;> rfl

theorem Core.countAll_setCtx (x : Core) (k : SlotId) (t : Ctx) (ks : List Nat) :
    (x.setCtx k t).countAll ks = (x.countAll ks).setCtx k t := by
  unfold Core.countAll
  induction ks generalizing x with
  | nil => rfl
  | cons e ks ih => rw [List.foldl_cons, List.foldl_cons, Core.count_setCtx, ih]

theorem State.modCore_modCore (s : State) (c : CoreId) (f g : Core → Core) :
    (s.modCore c f).modCore c g = s.modCore c fun x => g (f x) := by
  simp [State.modCore]

theorem toNat_satAdd32 (x : BitVec 32) (n : Nat) : (satAdd32 x n).toNat = min (x.toNat + n) 0xFFFFFFFF := by
  have := x.isLt
  simp only [satAdd32, BitVec.toNat_ofNat]
  omega

theorem Core.count_ev (x : Core) (k n : Nat) (e : Fin 16) :
    ((x.count k n).ev.get e).toNat = min ((x.ev.get e).toNat + if k = e.val then n else 0) 0xFFFFFFFF := by
  have hlt := (x.ev.get e).isLt
  unfold Core.count
  split
  · next hk =>
    simp only [Vector.get_eq_getElem, Vector.getElem_set]
    split
    · next h =>
      subst h
      exact toNat_satAdd32 _ n
    · exact (Nat.min_eq_left (Nat.le_of_lt_succ hlt)).symm
  · next hk =>
    rw [if_neg (by omega)]
    exact (Nat.min_eq_left (Nat.le_of_lt_succ hlt)).symm

theorem Core.countAll_ev (x : Core) (ks : List Nat) (e : Fin 16) :
    ((x.countAll ks).ev.get e).toNat = min ((x.ev.get e).toNat + ks.count e.val) 0xFFFFFFFF := by
  unfold Core.countAll
  induction ks generalizing x with
  | nil => exact (Nat.min_eq_left (Nat.le_of_lt_succ (x.ev.get e).isLt)).symm
  | cons k ks ih =>
    rw [List.foldl_cons, ih, Core.count_ev, List.count_cons]
    simp only [beq_iff_eq]
    split <;> omega

/-! ## Registers -/

theorem stackIdx_inj {pos : Fin 8} {n m : Fin 24} : stackIdx pos n = stackIdx pos m ↔ n = m := by
  simp [stackIdx, Fin.ext_iff]

theorem Ctx.setReg_mode (t : Ctx) (n : RegName) (r : Reg) : (t.setReg n r).mode = t.mode := by
  cases n <;> simp only [Ctx.setReg] <;> split <;> rfl

theorem vector_get_set {α : Type} {n : Nat} (v : Vector α n) (i j : Fin n) (a : α) :
    (v.set i.val a i.isLt).get j = if j = i then a else v.get j := by
  simp only [Vector.get_eq_getElem, Vector.getElem_set, Fin.ext_iff, eq_comm]

theorem Ctx.reg_setReg (t : Ctx) (n m : RegName) (r : Reg) : (t.setReg n r).reg m = if m = n then r else t.reg m := by
  by_cases hmode : t.mode = .h
  · cases n <;> cases m <;> simp [Ctx.setReg, Ctx.reg, hmode, vector_get_set]
  · cases n <;> cases m <;> simp [Ctx.setReg, Ctx.reg, hmode, vector_get_set, stackIdx_inj]

/-- What a register's writing leaves: all but the file that the register is in. -/
theorem Ctx.setReg_frame (t : Ctx) (n : RegName) (r : Reg) :
    { t.setReg n r with stack := t.stack, g := t.g, o := t.o, lat := t.lat, hw := t.hw, hlat := t.hlat } = t := by
  cases n <;> simp only [Ctx.setReg] <;> split <;> rfl

theorem Ctx.setReg_stack_get (t : Ctx) (n : RegName) (r : Reg) {i : Fin 136} (h : ∀ k : Fin 24, i ≠ stackIdx t.pos k) :
    (t.setReg n r).stack.get i = t.stack.get i := by
  cases n <;> simp only [Ctx.setReg] <;> split <;> simp [vector_get_set, h]

theorem Ctx.put_eq (t : Ctx) (d : Dst) (r : Reg) :
    t.put d r = match dstName d with | some n => (t.setReg .lat r).setReg n r | none => t.setReg .lat r := by
  cases d <;> rfl


theorem Ctx.put_reg (t : Ctx) (d : Dst) (r : Reg) (n : RegName) :
    (t.put d r).reg n = if n = .lat ∨ dstName d = some n then r else t.reg n := by
  rw [Ctx.put_eq]
  cases hd : dstName d with
  | none => simp [Ctx.reg_setReg]
  | some m =>
    simp only [Ctx.reg_setReg, Option.some.injEq, eq_comm (a := m)]
    split <;> simp_all

theorem Ctx.put_frame (t : Ctx) (d : Dst) (r : Reg) :
    { t.put d r with stack := t.stack, g := t.g, o := t.o, lat := t.lat, hw := t.hw, hlat := t.hlat } = t := by
  cases d <;> simp only [Ctx.put, Ctx.setReg] <;> repeat' split <;> rfl

theorem Ctx.put_stack_get (t : Ctx) (d : Dst) (r : Reg) {i : Fin 136} (h : ∀ k : Fin 24, i ≠ stackIdx t.pos k) :
    (t.put d r).stack.get i = t.stack.get i := by
  have hlat := t.setReg_stack_get .lat r h
  have hpos : (t.setReg .lat r).pos = t.pos := by
    have hframe := congrArg Ctx.pos (t.setReg_frame .lat r)
    exact hframe
  rw [Ctx.put_eq]
  split
  · rw [Ctx.setReg_stack_get _ _ _ (by rwa [hpos]), hlat]
  · exact hlat

@[simp] theorem Ctx.put_pc (t : Ctx) (d : Dst) (r : Reg) : (t.put d r).pc = t.pc := by
  have h := congrArg Ctx.pc (t.put_frame d r)
  exact h

/-! ## What writing a scalar result leaves -/

/-- After a scalar result the core's counters and the executing context have changed. -/
theorem State.finish_eq (s : State) (d : Dst) (r : Reg) (evs : List Nat) (len : Nat) :
    s.finish d r evs len = s.setCore s.cur ((s.myCore.countAll evs).setCtx s.slot
      { s.me.put d r with pc := s.me.pc + BitVec.ofNat 64 len, run := .ready }) := by
  simp only [State.finish, State.countAll_eq_modCore, State.put, State.advance, State.modMe, State.setMe, State.setCtx,
    State.modCore, State.setCore_setCore, State.core_setCore, State.me, State.ctx, State.setCore_cur, State.setCore_slot,
    Core.countAll_setCtx, Core.setCtx_setCtx, Core.ctx_setCtx, Ctx.put_pc, State.myCore]

/-- Settles O10: the executing core is the old one but for its counters and the executing context, and the context for
what `put` writes. -/
theorem scalarResultFrame : Obligations.ScalarResultFrame := by
  refine ⟨State.result_eq_finish, fun s d r evs len => ?_⟩
  have hcore : (s.finish d r evs len).myCore = (s.myCore.countAll evs).setCtx s.slot
      { s.me.put d r with pc := s.me.pc + BitVec.ofNat 64 len, run := .ready } := by
    rw [State.finish_eq]
    exact State.core_setCore ..
  have hme : (s.finish d r evs len).me = { s.me.put d r with pc := s.me.pc + BitVec.ofNat 64 len, run := .ready } := by
    rw [State.finish_eq]
    simp [State.me, State.ctx]
  rw [hcore, hme]
  refine ⟨s.me.put_reg d r, fun i => s.me.put_stack_get d r, rfl, rfl, s.myCore.countAll_ev evs, ?_, ?_, ?_, ?_, ?_⟩
  · exact congrArg (fun t : Ctx => { t with pc := s.me.pc, run := s.me.run }) (s.me.put_frame d r)
  · exact congrArg (fun x : Core => { x with ctxs := s.myCore.ctxs }) (s.myCore.countAll_frame evs)
  · intro k hk
    rw [State.finish_eq]
    simp [State.ctx, Core.ctx_setCtx_ne, hk, State.myCore]
  · intro c hc
    rw [State.finish_eq, State.core_setCore_ne _ _ hc]
  · rw [State.finish_eq]
    rfl

end Sys2Proof.Machine
end

section
/-! PROOF. Integer arithmetic on bit patterns, as the specification writes it. -/

namespace Sys2Proof.Machine

open Stmt

variable {n : Nat}

theorem bitsInt_true (hn : 0 < n) (x : BitVec n) : bitsInt true n x.toNat = x.toInt := by
  have hpow : 2 ^ n = 2 * 2 ^ (n - 1) := by rw [← Nat.pow_succ']; congr; omega
  have hlt := x.isLt
  rw [BitVec.toInt_eq_toNat_cond, bitsInt, Nat.mod_eq_of_lt hlt]
  simp only [Bool.true_and, decide_eq_true_eq]
  split <;> split <;> omega

theorem bitsInt_false (x : BitVec n) : bitsInt false n x.toNat = x.toNat := by
  simp [bitsInt, Nat.mod_eq_of_lt x.isLt]

theorem intBits_eq (i : Int) : intBits n i = (BitVec.ofInt n i).toNat := rfl

theorem toNat_part (t : Ty) (v : Word) : (part t v).toNat = v.toNat % 2 ^ (8 * t.bytes) := BitVec.toNat_setWidth ..

theorem tyBits_pos (t : Ty) : 0 < 8 * t.bytes := by
  cases t <;> decide

theorem extend_eq_intReg (t : Ty) (r : BitVec (8 * t.bytes)) : extend t r.toNat = intReg t r := by
  unfold extend intReg
  cases t.isSigned
  · rw [bitsInt_false]
    simp
  · rw [bitsInt_true (tyBits_pos t)]
    rfl

theorem condHolds_eq_relHolds (hn : 0 < n) (c : Cond) (x y : BitVec n) : condHolds c n x.toNat y.toNat = relHolds c x y := by
  cases c <;> simp [condHolds, relHolds, bitsInt_true hn, BitVec.slt, BitVec.sle, BitVec.ult, BitVec.ule, BitVec.toNat_eq, bne]

theorem cmpWords_eq_relHolds (c : Cond) (ty : Option Ty) (a b : Word) :
    cmpWords c ty a b = relHolds c (part (intTy ty) a) (part (intTy ty) b) := by
  rw [← condHolds_eq_relHolds (tyBits_pos _), toNat_part, toNat_part]
  rfl

/-! ## Two-source operations -/

theorem intBits_sub (x y : BitVec n) : intBits n ((x.toNat : Int) - y.toNat) = (x - y).toNat := by
  rw [intBits_eq, Int.sub_eq_add_neg, BitVec.ofInt_add, BitVec.ofInt_neg, BitVec.ofInt_natCast, BitVec.ofInt_natCast,
    BitVec.ofNat_toNat, BitVec.ofNat_toNat, BitVec.setWidth_eq, BitVec.setWidth_eq, BitVec.sub_eq_add_neg]

theorem ediv_emod_of_emod_mul (z a : Int) (ha : 0 < a) : z % (a * a) / a % a = z / a % a := by
  have h := Int.emod_add_mul_ediv z (a * a)
  have hz : z / a = z % (a * a) / a + a * (z / (a * a)) := by
    conv_lhs => rw [← h, Int.mul_assoc]
    exact Int.add_mul_ediv_left _ _ ha.ne'
  rw [hz, Int.add_mul_emod_self_left]

theorem intBits_mulh (x y : BitVec n) :
    intBits n (x.toInt * y.toInt / (2 ^ n : Nat)) = ((x.signExtend (2 * n) * y.signExtend (2 * n)).extractLsb' n n).toNat := by
  have hprod : x.signExtend (2 * n) * y.signExtend (2 * n) = BitVec.ofInt (2 * n) (x.toInt * y.toInt) :=
    (BitVec.ofInt_mul ..).symm
  generalize x.toInt * y.toInt = z at hprod
  have hpow : ((2 ^ (2 * n) : Nat) : Int) = (2 ^ n : Nat) * (2 ^ n : Nat) := by
    rw [Nat.two_mul, Nat.pow_add]
    push_cast
    rfl
  have hpos : (0 : Int) < (2 ^ n : Nat) := by exact_mod_cast Nat.two_pow_pos n
  have hnonneg : 0 ≤ z % ((2 ^ n : Nat) * (2 ^ n : Nat)) := Int.emod_nonneg _ (by positivity)
  rw [hprod, BitVec.extractLsb'_toNat, BitVec.toNat_ofInt, Nat.shiftRight_eq_div_pow, hpow, intBits,
    ← ediv_emod_of_emod_mul z _ hpos]
  obtain ⟨w, hw⟩ := Int.eq_ofNat_of_zero_le hnonneg
  rw [hw]
  norm_cast

theorem intBits_sshiftRight (x : BitVec n) (k : Nat) : intBits n (x.toInt / (2 ^ k : Nat)) = (x.sshiftRight k).toNat := by
  rw [intBits_eq, ← BitVec.ofInt_toInt (x := x.sshiftRight k), BitVec.toInt_sshiftRight, Int.shiftRight_eq_div_pow]

theorem rotl_toNat (x : BitVec n) {k : Nat} (hk : k < n) :
    x.toNat * 2 ^ k % 2 ^ n + x.toNat / 2 ^ (n - k) % 2 ^ n = (x.rotateLeft k).toNat := by
  have hn : 2 ^ n = 2 ^ (n - k) * 2 ^ k := by rw [← Nat.pow_add, Nat.sub_add_cancel hk.le]
  have hlow : x.toNat / 2 ^ (n - k) < 2 ^ k := Nat.div_lt_of_lt_mul (hn ▸ x.isLt)
  have hhigh : x.toNat * 2 ^ k % 2 ^ n = 2 ^ k * (x.toNat % 2 ^ (n - k)) := by
    rw [hn, Nat.mul_mod_mul_right, Nat.mul_comm]
  have hkn : 2 ^ k ≤ 2 ^ n := Nat.pow_le_pow_right Nat.two_pos hk.le
  rw [BitVec.toNat_rotateLeft, Nat.mod_eq_of_lt hk, Nat.shiftLeft_eq, Nat.shiftRight_eq_div_pow, hhigh,
    Nat.mod_eq_of_lt (hlow.trans_le hkn), Nat.two_pow_add_eq_or_of_lt hlow]

/-- A division on signed patterns (R82), where it overflows and where it does not. -/
theorem divide_true (hn : 0 < n) (x y : BitVec n) :
    divide true n x.toNat y.toNat =
      if y = 0#n then (2 ^ n - 1, x.toNat, [10])
      else if x = BitVec.intMin n ∧ y = BitVec.allOnes n then (x.toNat, 0, [10])
      else ((x.sdiv y).toNat, (x.srem y).toNat, []) := by
  have hzero : y.toInt = 0 ↔ y = 0#n := by rw [← BitVec.toInt_zero (w := n), BitVec.toInt_inj]
  have hmin : x.toInt = -(2 ^ (n - 1) : Nat) ↔ x = BitVec.intMin n := by
    rw [← BitVec.toInt_inj, BitVec.toInt_intMin_of_pos hn]
    push_cast
    rfl
  have hones : y.toInt = -1 ↔ y = BitVec.allOnes n := by
    rw [← BitVec.toInt_inj, BitVec.toInt_allOnes, if_pos hn]
  simp only [divide, bitsInt_true hn, hzero, Bool.true_and, Bool.and_eq_true, beq_iff_eq, hmin, hones]
  split
  · rfl
  · split
    · rfl
    · next h =>
      have hdiv := BitVec.toInt_sdiv_of_ne_or_ne x y (by rw [BitVec.neg_one_eq_allOnes]; exact Decidable.not_and_iff_or_not.1 h)
      rw [intBits_eq, intBits_eq, ← hdiv, ← BitVec.toInt_srem, BitVec.ofInt_toInt, BitVec.ofInt_toInt]

theorem divide_false (x y : BitVec n) :
    divide false n x.toNat y.toNat = if y = 0#n then (2 ^ n - 1, x.toNat, [10]) else ((x / y).toNat, (x % y).toNat, []) := by
  have hzero : (y.toNat : Int) = 0 ↔ y = 0#n := by rw [Int.natCast_eq_zero, BitVec.toNat_eq]; rfl
  simp only [divide, bitsInt_false, hzero, Bool.false_and, Bool.false_eq_true, if_false]
  split
  · rfl
  · rw [← Int.ofNat_tdiv, ← Int.ofNat_tmod, ← BitVec.toNat_udiv, ← BitVec.toNat_umod, intBits_eq, intBits_eq, BitVec.ofInt_natCast,
      BitVec.ofInt_natCast, BitVec.ofNat_toNat, BitVec.ofNat_toNat, BitVec.setWidth_eq, BitVec.setWidth_eq]

theorem toNat_srem_allOnes (x : BitVec n) : (x.srem (BitVec.allOnes n)).toNat = 0 := by
  have h : x.srem (BitVec.allOnes n) = 0#n := by
    apply BitVec.eq_of_toInt_eq
    rw [BitVec.toInt_srem, BitVec.toInt_allOnes, BitVec.toInt_zero]
    split
    · simp
    · next h =>
      obtain rfl : n = 0 := by omega
      simp [BitVec.of_length_zero]
  rw [h]
  rfl

theorem mulhz_toNat (x y : BitVec n) :
    ((x.setWidth (2 * n) * y.setWidth (2 * n)).extractLsb' n n).toNat = x.toNat * y.toNat / 2 ^ n := by
  have hpow : 2 ^ (2 * n) = 2 ^ n * 2 ^ n := by rw [Nat.two_mul, Nat.pow_add]
  have hprod : x.toNat * y.toNat < 2 ^ n * 2 ^ n := Nat.mul_lt_mul'' x.isLt y.isLt
  have hle : 2 ^ n ≤ 2 ^ (2 * n) := Nat.pow_le_pow_right Nat.two_pos (by omega)
  rw [BitVec.extractLsb'_toNat, BitVec.toNat_mul, BitVec.toNat_setWidth_of_le (by omega), BitVec.toNat_setWidth_of_le (by omega),
    Nat.shiftRight_eq_div_pow, hpow, Nat.mod_eq_of_lt hprod, Nat.mod_eq_of_lt (Nat.div_lt_of_lt_mul hprod)]

/-- What a two-source operation gives on two patterns is what the specification writes (R81 to R83). -/
theorem IntOp.eval_eq (hn : 0 < n) (op : IntOp) (x y : BitVec n) :
    op.eval n x.toNat y.toNat = ((intResult op x y).toNat, intEvents op x y) := by
  have hlt : y.toNat % n < n := Nat.mod_lt _ hn
  cases op with
  | add => simp [IntOp.eval, intResult, intEvents]
  | sub => simp [IntOp.eval, intResult, intEvents, intBits_sub]
  | min => simp [IntOp.eval, intResult, intEvents, bitsInt_true hn, BitVec.sle, apply_ite BitVec.toNat]
  | minz => simp [IntOp.eval, intResult, intEvents, BitVec.ule, apply_ite BitVec.toNat]
  | max => simp [IntOp.eval, intResult, intEvents, bitsInt_true hn, BitVec.sle, apply_ite BitVec.toNat]
  | maxz => simp [IntOp.eval, intResult, intEvents, BitVec.ule, apply_ite BitVec.toNat]
  | mul => simp [IntOp.eval, intResult, intEvents]
  | mulh =>
    simp only [IntOp.eval, intResult, bitsInt_true hn, intBits_mulh]
    rfl
  | mulhz =>
    simp only [IntOp.eval, intResult, mulhz_toNat]
    rfl
  | div =>
    simp only [IntOp.eval, intResult, divide_true hn]
    split
    · simp [intEvents, *]
    · split
      · simp [intEvents, hn.ne', ← BitVec.neg_one_eq_allOnes, BitVec.intMin_sdiv_neg_one, *]
      · simp [intEvents, *]
  | divz =>
    simp only [IntOp.eval, intResult, divide_false]
    split <;> simp [intEvents, *]
  | rem =>
    simp only [IntOp.eval, intResult, divide_true hn]
    split
    · simp [intEvents, *]
    · split
      · next hy h =>
        obtain ⟨rfl, rfl⟩ := h
        rw [if_neg (show ¬BitVec.allOnes n = 0 from hy), toNat_srem_allOnes]
        simp [intEvents]
      · simp [intEvents, *]
  | remz =>
    simp only [IntOp.eval, intResult, divide_false]
    split <;> simp [intEvents, *]
  | and => simp [IntOp.eval, intResult, intEvents]
  | or => simp [IntOp.eval, intResult, intEvents]
  | xor => simp [IntOp.eval, intResult, intEvents]
  | andn => simp [IntOp.eval, intResult, intEvents]
  | shl => simp [IntOp.eval, intResult, intEvents, Nat.shiftLeft_eq]
  | shr => simp [IntOp.eval, intResult, intEvents, Nat.shiftRight_eq_div_pow]
  | sra =>
    simp only [IntOp.eval, intResult, bitsInt_true hn, intBits_sshiftRight]
    rfl
  | rotl => simp [IntOp.eval, intResult, intEvents, rotl_toNat x hlt]

/-! ## One-source operations -/

/-- How many of the first n numbers come before the first that p refuses. -/
theorem length_takeWhile_range {p : Nat → Bool} {m : Nat} (hm : m < n) (hlt : ∀ k < m, p k = true) (hnot : p m = false) :
    ((List.range n).takeWhile p).length = m := by
  obtain ⟨d, rfl⟩ := Nat.exists_eq_add_of_lt hm
  rw [Nat.add_assoc, List.range_add, List.takeWhile_append_of_pos (by simpa using hlt), List.range_succ_eq_map]
  simp [hnot]

theorem clzOf_toNat (x : BitVec n) :
    clzOf n x.toNat = ((List.range n).takeWhile fun k => !x.getMsbD k).length := by
  unfold clzOf
  split
  · next h =>
    obtain rfl : x = 0#n := BitVec.eq_of_toNat_eq h
    rw [List.takeWhile_eq_self_iff.2 (by simp), List.length_range]
  · next h =>
    have hlog : Nat.log2 x.toNat < n := (Nat.log2_lt h).2 x.isLt
    refine (length_takeWhile_range (by omega) (fun k hk => ?_) ?_).symm
    · have : x.toNat < 2 ^ (n - 1 - k) := (Nat.log2_lt h).1 (by omega)
      simp [BitVec.getMsbD, BitVec.getLsbD, Nat.testBit_lt_two_pow this]
    · have : n - 1 - (n - 1 - Nat.log2 x.toNat) = Nat.log2 x.toNat := by omega
      simp [BitVec.getMsbD, BitVec.getLsbD, this, Nat.testBit_log2, h]
      omega

theorem ctzOf_eq (x : Nat) : ctzOf n x = ((List.range n).takeWhile fun k => !x.testBit k).length := by
  induction n generalizing x with
  | zero => rfl
  | succ n ih =>
    rw [ctzOf, List.range_succ_eq_map, List.takeWhile_cons, Nat.testBit_zero]
    split
    · simp [*]
    · simp [*, List.takeWhile_map, Function.comp_def, Nat.testBit_succ, Nat.add_comm]

theorem popOf_eq (x : Nat) : popOf n x = (List.range n).countP fun k => x.testBit k := by
  induction n generalizing x with
  | zero => rfl
  | succ n ih =>
    rw [popOf, List.range_succ_eq_map, List.countP_cons, List.countP_map, ih, Nat.testBit_zero, Nat.add_comm]
    obtain h | h := Nat.mod_two_eq_zero_or_one x <;> simp [h, Function.comp_def, Nat.testBit_succ]

/-- What a one-source operation gives on a pattern is what the specification writes (R81, R83). -/
theorem IntOp1.eval_eq (hn : 0 < n) (op : IntOp1) (x : BitVec n) : op.eval n x.toNat = (intResult1 op x).toNat := by
  have hlt : n < 2 ^ n := Nat.lt_two_pow_self
  have hcount {m : Nat} (hm : m ≤ n) : m = (BitVec.ofNat n m).toNat := (Nat.mod_eq_of_lt (hm.trans_lt hlt)).symm
  cases op with
  | neg => simp [IntOp1.eval, intResult1, intBits_eq, BitVec.ofInt_neg]
  | abs =>
    have hslt : x.slt 0 = true ↔ x.toInt < 0 := by simp [BitVec.slt]
    simp only [IntOp1.eval, intResult1, bitsInt_true hn, intBits_eq, hslt]
    split
    · next h =>
      have hneg : (x.toInt.natAbs : Int) = -x.toInt := Int.ofNat_natAbs_of_nonpos h.le
      simp [hneg, BitVec.ofInt_neg]
    · next h =>
      have hpos : (x.toInt.natAbs : Int) = x.toInt := Int.natAbs_of_nonneg (not_lt.1 h)
      rw [hpos, BitVec.ofInt_toInt]
  | not => simp [IntOp1.eval, intResult1]
  | clz =>
    refine (clzOf_toNat x).trans (hcount ?_)
    exact (List.takeWhile_sublist _).length_le.trans_eq List.length_range
  | ctz =>
    refine (ctzOf_eq x.toNat).trans (hcount ?_)
    exact (List.takeWhile_sublist _).length_le.trans_eq List.length_range
  | popc =>
    refine (popOf_eq x.toNat).trans (hcount ?_)
    exact List.countP_le_length.trans_eq List.length_range

end Sys2Proof.Machine
end

section
/-! PROOF. The integer instructions: what they write for VALUEs, what folds, and what blocks. -/

namespace Sys2Proof.Machine

open Stmt

/-! ## The forms of the integer instructions -/

theorem exec_twoSource {s : State} {i : Instr} {op : IntOp} {ty : Option Ty} {d : Dst} {x y : Src} {lit : Word} {len : Nat}
    (h : TwoSource i op ty d x y lit len) : exec i s = complete s (s.int2 op ty d x y lit len) := by
  cases h <;> rfl

theorem exec_oneSource {s : State} {i : Instr} {op : IntOp1} {ty : Option Ty} {d : Dst} {x : Src} {lit : Word} {len : Nat}
    (h : OneSource i op ty d x lit len) : exec i s = complete s (s.int1 op ty d x lit len) := by
  cases h <;> rfl

theorem exec_lea {s : State} {i : Instr} {d : Dst} {x y : Src} {sh : Nat} {disp lit : Word} {len : Nat}
    (h : Lea i d x y sh disp lit len) : ∃ imm, sext24 imm = disp ∧ exec i s = complete s (s.leaOp d x y sh imm lit len) := by
  cases h with
  | lea => exact ⟨0, rfl, rfl⟩
  | leaX _ _ _ _ _ imm => exact ⟨imm, rfl, rfl⟩

theorem exec_mov {s : State} {i : Instr} {ty : Option Ty} {d : Dst} {x : Src} {lit : Word} {len : Nat}
    (h : Mov i ty d x lit len) : exec i s = complete s (s.movOp ty d x lit len) := by
  cases h <;> rfl

/-! ## Bit fields, comparison and selection as the specification writes them -/

theorem wbits_eq_extractLsb' (w : Word) (i n : Nat) : wbits w i n = (w.extractLsb' i n).toNat := by
  simp [wbits, Nat.shiftRight_eq_div_pow]

theorem fieldWidth_le (ctl : Word) : fieldWidth ctl ≤ 64 := (Nat.min_le_left ..).trans (Nat.min_le_right ..)

theorem toNat_ofNat_two_pow_sub_one {m : Nat} (hm : m ≤ 64) : (BitVec.ofNat 64 (2 ^ m - 1)).toNat = 2 ^ m - 1 := by
  have hle : 2 ^ m ≤ 2 ^ 64 := Nat.pow_le_pow_right Nat.two_pos hm
  have hpos := Nat.two_pow_pos m
  rw [BitVec.toNat_ofNat, Nat.mod_eq_of_lt (by omega)]

theorem bextOf_eq (x ctl : Word) :
    bextOf x ctl = (x >>> (ctl.extractLsb' 0 6).toNat) &&& BitVec.ofNat 64 (2 ^ fieldWidth ctl - 1) := by
  apply BitVec.eq_of_toNat_eq
  rw [BitVec.toNat_and, toNat_ofNat_two_pow_sub_one (fieldWidth_le ctl), Nat.and_two_pow_sub_one_eq_mod, BitVec.toNat_ushiftRight,
    Nat.shiftRight_eq_div_pow]
  simp only [bextOf, wbits_eq_extractLsb', word, BitVec.toNat_ofNat]
  exact Nat.mod_eq_of_lt (((Nat.mod_le _ _).trans (Nat.div_le_self _ _)).trans_lt x.isLt)

theorem binsOf_eq (x ctl f : Word) : binsOf x ctl f = binsResult x ctl f := by
  have hmask : word ((2 ^ fieldWidth ctl - 1) * 2 ^ (ctl.extractLsb' 0 6).toNat) = fieldMask ctl := by
    apply BitVec.eq_of_toNat_eq
    simp [word, fieldMask, BitVec.toNat_shiftLeft, Nat.shiftLeft_eq, Nat.mod_mul_mod]
  simp only [binsOf, wbits_eq_extractLsb', binsResult, ← hmask]
  rfl

theorem extOf_true_eq (x n : Word) : extOf true x n = if 64 ≤ n.toNat then x else (x.setWidth n.toNat).signExtend 64 := by
  unfold extOf
  split
  · next h =>
    subst h
    simp [BitVec.of_length_zero]
  · next h =>
    have hn : 0 < n.toNat := Nat.pos_of_ne_zero fun h0 => h (BitVec.eq_of_toNat_eq h0)
    have hmod : bitsInt true n.toNat x.toNat = (x.setWidth n.toNat).toInt := by
      rw [← bitsInt_true hn, BitVec.toNat_setWidth]
      simp [bitsInt]
    rw [hmod]
    rfl

theorem extOf_false_eq (x n : Word) : extOf false x n = if 64 ≤ n.toNat then x else (x.setWidth n.toNat).setWidth 64 := by
  unfold extOf
  split
  · next h =>
    subst h
    simp [BitVec.of_length_zero]
  · have hmod : bitsInt false n.toNat x.toNat = ((x.setWidth n.toNat).toNat : Int) := by
      rw [← bitsInt_false, BitVec.toNat_setWidth]
      simp [bitsInt]
    rw [hmod, BitVec.ofInt_natCast, BitVec.ofNat_toNat]

theorem selOf_eq (c t f : Word) : selOf c t f = selResult c t f := by
  simp [selOf, selResult]

theorem State.cmpOp_eq_raw2 (s : State) (c : Cond) (ty : Option Ty) (d : Dst) (x y : Src) (lit : Word) (len : Nat) :
    s.cmpOp c ty d x y lit len =
      s.raw2 (fun a b => if relHolds c (part (intTy ty) a) (part (intTy ty) b) then 1 else 0) d x y lit len := by
  simp only [State.cmpOp, State.raw2, cmpWords_eq_relHolds]

theorem exec_twoWords {s : State} {i : Instr} {g : Word → Word → Word} {d : Dst} {x y : Src} {lit : Word} {len : Nat}
    (h : TwoWords i g d x y lit len) : exec i s = complete s (s.raw2 g d x y lit len) := by
  cases h with
  | bext | bextX => exact congrArg (fun f => complete s (s.raw2 f d x y _ _)) (funext₂ bextOf_eq)
  | sext | sextX => exact congrArg (fun f => complete s (s.raw2 f d x y _ _)) (funext₂ extOf_true_eq)
  | zext | zextX => exact congrArg (fun f => complete s (s.raw2 f d x y _ _)) (funext₂ extOf_false_eq)
  | cmp c =>
    have hpart (a : Word) : part (intTy none) a = a := BitVec.setWidth_eq a
    exact congrArg (complete s) ((State.cmpOp_eq_raw2 ..).trans (by simp only [hpart]; rfl))
  | cmpX => exact congrArg (complete s) (State.cmpOp_eq_raw2 ..)

theorem exec_threeWords {s : State} {i : Instr} {g : Word → Word → Word → Word} {d : Dst} {x y : Src} {z : Ctx → Reg}
    {lit : Word} {len : Nat} (h : ThreeWords i g d x y z lit len) :
    exec i s = complete s (s.raw3 g d x y (z s.me) lit len) := by
  cases h with
  | bins | binsL | binsX | binsXL => exact congrArg (fun f => complete s (s.raw3 f d x y _ _ _)) (funext₃ binsOf_eq)
  | sel | selL | selX | selXL => exact congrArg (fun f => complete s (s.raw3 f d x y _ _ _)) (funext₃ selOf_eq)

/-! ## On VALUEs -/

theorem IntOp.fold_values (op : IntOp) (a b : Word) : op.fold (.value a) (.value b) = none := by
  cases op <;> rfl

theorem IntOp1.fold_value (op : IntOp1) (a : Word) : op.fold (.value a) = none := by
  cases op <;> rfl

theorem State.need_two_values (s : State) (a b : Word) : s.need [.value a, .value b] = .ok () := s.need_values [a, b]

theorem State.need_one_value (s : State) (a : Word) : s.need [.value a] = .ok () := s.need_values [a]

theorem State.need_three_values (s : State) (a b c : Word) : s.need [.value a, .value b, .value c] = .ok () :=
  s.need_values [a, b, c]

theorem State.int2_of_values {s : State} {op : IntOp} {ty : Option Ty} {d : Dst} {x y : Src} {lit a b : Word} {len : Nat}
    (hx : s.me.src lit x = .value a) (hy : s.me.src lit y = .value b) :
    s.int2 op ty d x y lit len =
      .ok (s.result d (intReg (intTy ty) (intResult op (part (intTy ty) a) (part (intTy ty) b)))
        (intEvents op (part (intTy ty) a) (part (intTy ty) b)) len) := by
  have heval := op.eval_eq (tyBits_pos (intTy ty)) (part (intTy ty) a) (part (intTy ty) b)
  rw [toNat_part, toNat_part] at heval
  simp only [State.int2, hx, hy, IntOp.fold_values, ite_self, State.need_two_values, Reg.val, heval, extend_eq_intReg,
    State.result_eq_finish]
  rfl

theorem State.int1_of_value {s : State} {op : IntOp1} {ty : Option Ty} {d : Dst} {x : Src} {lit a : Word} {len : Nat}
    (hx : s.me.src lit x = .value a) :
    s.int1 op ty d x lit len = .ok (s.result d (intReg (intTy ty) (intResult1 op (part (intTy ty) a))) [] len) := by
  have heval := op.eval_eq (tyBits_pos (intTy ty)) (part (intTy ty) a)
  rw [toNat_part] at heval
  simp only [State.int1, hx, IntOp1.fold_value, ite_self, State.need_one_value, Reg.val, heval, extend_eq_intReg,
    State.result_eq_finish]
  rfl

/-- Settles O14: on VALUEs nothing folds, and the model's result on N-bit patterns is the specification's. -/
theorem integerResults : Obligations.IntegerResults := by
  refine ⟨fun s i op ty d x y lit a b len h hx hy => ?_, fun s i op ty d x lit a len h hx => ?_⟩
  · rw [exec_twoSource h, State.int2_of_values hx hy, complete_ok]
  · rw [exec_oneSource h, State.int1_of_value hx, complete_ok]

theorem State.raw2_of_values {s : State} {f : Word → Word → Word} {d : Dst} {x y : Src} {lit a b : Word} {len : Nat}
    (hx : s.me.src lit x = .value a) (hy : s.me.src lit y = .value b) :
    s.raw2 f d x y lit len = .ok (s.result d (f a b) [] len) := by
  rw [State.raw2, State.use2_ok.2 ⟨hx, hy⟩]
  rfl

theorem State.raw3_of_values {s : State} {f : Word → Word → Word → Word} {d : Dst} {x y : Src} {lit a b c : Word} {len : Nat}
    (hx : s.me.src lit x = .value a) (hy : s.me.src lit y = .value b) :
    s.raw3 f d x y (.value c) lit len = .ok (s.result d (f a b c) [] len) := by
  simp only [State.raw3, hx, hy, State.need_three_values, Reg.val]
  rfl

theorem State.leaOp_of_values {s : State} {d : Dst} {x y : Src} {sh : Nat} {imm : BitVec 24} {lit a b : Word} {len : Nat}
    (hx : s.me.src lit x = .value a) (hy : s.me.src lit y = .value b) :
    s.leaOp d x y sh imm lit len = .ok (s.result d (a + (b <<< sh) + sext24 imm) [] len) := by
  have hfold : foldLea sh (sext24 imm) (.value a) (.value b) = none := rfl
  simp only [State.leaOp, hx, hy, hfold, ite_self, State.need_two_values, Reg.val, State.result_eq_finish]
  rfl

theorem State.movOp_of_value {s : State} {ty : Option Ty} {d : Dst} {x : Src} {lit a : Word} {len : Nat}
    (hx : s.me.src lit x = .value a) :
    s.movOp ty d x lit len = .ok (s.result d (intReg (intTy ty) (part (intTy ty) a)) [] len) := by
  have hext : extend (intTy ty) a.toNat = intReg (intTy ty) (part (intTy ty) a) := by
    rw [← extend_eq_intReg, toNat_part]
    simp [extend, bitsInt]
  simp only [State.movOp, hx, State.need_one_value, Reg.val, hext]
  rfl

/-- Settles O15: each is `raw2`, `raw3`, `leaOp` or `movOp` of what the specification writes, and nothing folds on VALUEs. -/
theorem fieldCompareSelectMoveResults : Obligations.FieldCompareSelectMoveResults := by
  refine ⟨fun s i g d x y lit a b len h hx hy => ?_, fun s i g d x y z lit a b c len h hx hy hz => ?_,
    fun s i d x y sh disp lit a b len h hx hy => ?_, fun s i ty d x lit a len h hx => ?_, fun s long d v => rfl⟩
  · rw [exec_twoWords h, State.raw2_of_values hx hy, complete_ok]
  · rw [exec_threeWords h, hz, State.raw3_of_values hx hy, complete_ok]
  · obtain ⟨imm, rfl, hexec⟩ := exec_lea h
    rw [hexec, State.leaOp_of_values hx hy, complete_ok]
  · rw [exec_mov h, State.movOp_of_value hx, complete_ok]

/-! ## Direct branches and hints -/

/-- Settles O22: `br` and `bcmp` go to word 0 plus four times the offset, and the rest only move on. -/
theorem branchesAndHints : Obligations.BranchesAndHints := by
  refine ⟨fun s i off h => ?_, fun s lit c ty x y imm a b hx hy => ?_, fun s label => rfl, fun s => ⟨rfl, rfl⟩,
    fun s lit x dist hx => ?_⟩
  · cases h with
    | br off => exact congrArg (fun pc => Host.Outcome.next (s.goto pc)) (target_me_pc s _)
    | brX imm => exact congrArg (fun pc => Host.Outcome.next (s.goto pc)) (target_me_pc s _)
  · have h : s.bcmpOp c ty x y imm (litVal lit) (litBytesX lit) =
        .ok (if relHolds c (part (intTy ty) a) (part (intTy ty) b) then s.goto (branchTo s (imm.signExtend 64))
          else s.advance (litBytesX lit)) := by
      rw [State.bcmpOp, State.use2_ok.2 ⟨hx, hy⟩, ← cmpWords_eq_relHolds, ← target_me_pc]
      rfl
    have hexec : exec (.bcmp lit c ty x y imm) s = complete s (s.bcmpOp c ty x y imm (litVal lit) (litBytesX lit)) := rfl
    rw [hexec, h]
    cases lit <;> rfl
  · have h : s.realignOp x (litVal lit) (litBytes lit) =
        .ok (if s.lags dist then s.modMe fun t => { t with run := .realign (t.pc + BitVec.ofNat 64 (litBytes lit)) }
          else s.advance (litBytes lit)) := by
      rw [State.realignOp, State.use1_ok.2 hx]
      rfl
    have hexec : exec (.realign lit x) s = complete s (s.realignOp x (litVal lit) (litBytes lit)) := rfl
    rw [hexec, h]
    cases lit <;> rfl

end Sys2Proof.Machine
end

section
/-! PROOF. What folds and what blocks on symbolic sources. -/

namespace Sys2Proof.Machine

open Stmt

/-! ## Folding (R74) -/

theorem norm_int (σ : Sym) (a b : Word) : (Reg.int σ a b).norm = intForm σ a b := rfl

theorem IntOp.fold_eq {op : IntOp} {x y : Reg} {σ : Sym} {a b : Word} (h : Folds op x y σ a b) :
    op.fold x y = some (intForm σ a b) := by
  cases h <;> simp [IntOp.fold, foldAdd, foldSub, foldMul, foldShl, affine2, Reg.affine, norm_int]

theorem is64_of_mem {ty : Option Ty} (h : ty ∈ [none, some .i64, some .z64]) : is64 ty = true := by
  simp only [List.mem_cons, List.not_mem_nil, or_false] at h
  obtain rfl | rfl | rfl := h <;> rfl

theorem is64_of_notMem {ty : Option Ty} (h : ty ∉ [none, some .i64, some .z64]) : is64 ty = false := by
  simp only [List.mem_cons, List.not_mem_nil, or_false, not_or] at h
  obtain ⟨hnone, hi, hz⟩ := h
  simp [is64, hi, hz, Option.isSome_iff_ne_none, hnone]

/-- The displacement is added after the sum (R85). -/
def addDisp (disp : Word) : Option Reg → Option Reg
  | some (.int s a b) => some (.int s a (b + disp))
  | some (.value v) => some (.value (v + disp))
  | r => r

theorem addDisp_intForm (disp : Word) (σ : Sym) (a b : Word) :
    addDisp disp (some (intForm σ a b)) = some (intForm σ a (b + disp)) := by
  unfold intForm
  split <;> rfl

theorem foldAdd_int_intForm (σ : Sym) (a b c e : Word) :
    foldAdd (.int σ a b) (intForm σ c e) = some (intForm σ (a + c) (b + e)) := by
  by_cases h : c = 0#64 <;> simp [foldAdd, affine2, Reg.affine, norm_int, intForm, h]

theorem foldLea_int_int (sh : Nat) (disp : Word) (σ : Sym) (a b c e : Word) :
    foldLea sh disp (.int σ a b) (.int σ c e) =
      addDisp disp (foldAdd (.int σ a b) (intForm σ (c <<< sh) (e <<< sh))) := by
  simp only [foldLea, bne_self_eq_false, Bool.false_eq_true, if_false]
  rfl

theorem foldLea_int_value (sh : Nat) (disp : Word) (σ : Sym) (a b e : Word) :
    foldLea sh disp (.int σ a b) (.value e) = addDisp disp (foldAdd (.int σ a b) (intForm σ 0 (e <<< sh))) := rfl

theorem foldLea_eq {x y : Reg} {σ : Sym} {a b c e : Word} (sh : Nat) (disp : Word) (hx : Affine x σ a b) (hy : Affine y σ c e)
    (hsym : (x.symbolic || y.symbolic) = true) :
    foldLea sh disp x y = some (intForm σ (a + (c <<< sh)) (b + (e <<< sh) + disp)) := by
  cases hx with
  | int =>
    cases hy with
    | int => rw [foldLea_int_int, foldAdd_int_intForm, addDisp_intForm]
    | value =>
      have hz : (0 : Word) <<< sh = 0 := BitVec.zero_shiftLeft ..
      rw [foldLea_int_value, foldAdd_int_intForm, addDisp_intForm, hz]
  | value =>
    cases hy with
    | int =>
      by_cases h : c <<< sh = 0#64
      · simp [foldLea, Reg.norm, h, intForm]
      · simp [foldLea, Reg.norm, h, foldAdd, affine2, Reg.affine, intForm]
    | value => cases hsym

/-! ## Blocking uses (R71, R72) -/

theorem Core.badSym_eq_some {x : Core} {r : Reg} {t : TrapInfo} : x.badSym r = some t ↔ Failed x r t := by
  unfold Core.badSym
  cases hσ : r.sym with
  | none =>
    refine ⟨nofun, fun h => ?_⟩
    cases h <;> simp_all
  | some σ =>
    dsimp only
    cases hs : x.syms.get σ with
    | fault a =>
      refine ⟨fun h => Option.some.inj h ▸ .fault r σ a hσ hs, fun h => ?_⟩
      cases h <;> simp_all
    | cancelled =>
      refine ⟨fun h => Option.some.inj h ▸ .cancelled r σ hσ hs, fun h => ?_⟩
      cases h <;> simp_all
    | free | pending | resolved =>
      refine ⟨nofun, fun h => ?_⟩
      cases h <;> simp_all

theorem findSome?_getD {α β : Type} {f : α → Option β} {d : α} {b : β} (hd : f d = none) (l : List α) (n : Nat)
    (hlt : ∀ j < n, f (l.getD j d) = none) (hn : f (l.getD n d) = some b) : l.findSome? f = some b := by
  induction l generalizing n with
  | nil => simp [hd] at hn
  | cons a l ih =>
    cases n with
    | zero =>
      rw [List.getD_cons_zero] at hn
      rw [List.findSome?_cons, hn]
    | succ n =>
      have ha : f a = none := hlt 0 n.succ_pos
      rw [List.findSome?_cons, ha]
      exact ih n (fun j hj => hlt (j + 1) (Nat.succ_lt_succ hj)) hn

theorem State.need_of_failed {s : State} {rs : List Reg} {n : Nat} {t : TrapInfo}
    (hlt : ∀ j < n, ∀ t', ¬Failed s.myCore (rs.getD j (.value 0)) t') (hn : Failed s.myCore (rs.getD n (.value 0)) t) :
    s.need rs = .error (.trap t) := by
  have h : rs.findSome? s.myCore.badSym = some t :=
    findSome?_getD rfl rs n (fun j hj => Option.eq_none_iff_forall_ne_some.2 fun t' ht' => hlt j hj t' (Core.badSym_eq_some.1 ht'))
      (Core.badSym_eq_some.2 hn)
  rw [State.need, h]

theorem State.need_of_symbolic {s : State} {rs : List Reg} (hok : ∀ r ∈ rs, ∀ t', ¬Failed s.myCore r t')
    (hsym : rs.any Reg.symbolic = true) : s.need rs = wait := by
  obtain ⟨hneed, ws, rfl⟩ | ⟨t, r, -, hr, hbad⟩ | ⟨hwait, -⟩ := s.need_cases rs
  · simp [Reg.symbolic] at hsym
  · exact absurd (Core.badSym_eq_some.1 hbad) (hok r hr t)
  · exact hwait

/-- An instruction whose meaning begins with a use of some registers. -/
def BeginsWith (s : State) (i : Instr) (rs : List Reg) : Prop := ∃ f, exec i s = complete s (s.need rs >>= f)

theorem State.int2_of_fold_none {s : State} {op : IntOp} {ty : Option Ty} {d : Dst} {x y : Src} {lit : Word} {len : Nat}
    (h : (is64 ty && !s.me.nofold) = false ∨ op.fold (s.me.src lit x) (s.me.src lit y) = none) :
    ∃ f, s.int2 op ty d x y lit len = s.need [s.me.src lit x, s.me.src lit y] >>= f := by
  have hnone : (if is64 ty && !s.me.nofold then op.fold (s.me.src lit x) (s.me.src lit y) else none) = none := by
    obtain h | h := h
    · simp [h]
    · simp [h]
  simp only [State.int2, hnone]
  exact ⟨_, rfl⟩

theorem State.int1_of_fold_none {s : State} {op : IntOp1} {ty : Option Ty} {d : Dst} {x : Src} {lit : Word} {len : Nat}
    (h : (is64 ty && !s.me.nofold) = false ∨ op.fold (s.me.src lit x) = none) :
    ∃ f, s.int1 op ty d x lit len = s.need [s.me.src lit x] >>= f := by
  have hnone : (if is64 ty && !s.me.nofold then op.fold (s.me.src lit x) else none) = none := by
    obtain h | h := h
    · simp [h]
    · simp [h]
  simp only [State.int1, hnone]
  exact ⟨_, rfl⟩

theorem beginsWith_twoSource {s : State} {i : Instr} {op : IntOp} {ty : Option Ty} {d : Dst} {x y : Src} {lit : Word} {len : Nat}
    (hi : TwoSource i op ty d x y lit len)
    (h : (is64 ty && !s.me.nofold) = false ∨ op.fold (s.me.src lit x) (s.me.src lit y) = none) :
    BeginsWith s i [s.me.src lit x, s.me.src lit y] := by
  obtain ⟨f, hf⟩ := State.int2_of_fold_none h
  exact ⟨f, by rw [exec_twoSource hi, hf]⟩

theorem affine_of_otherForm {r : Reg} (h : OtherForm r) : r.affine = none := by
  obtain ⟨hvalue, hint⟩ := h
  cases r with
  | value v => exact absurd rfl (hvalue v)
  | int σ a b => exact absurd rfl (hint σ a b)
  | log | aff | replay => rfl

theorem affine2_of_none_left {x y : Reg} (h : x.affine = none) : affine2 x y = none := by
  simp [affine2, h]

theorem affine2_of_none_right {x y : Reg} (h : y.affine = none) : affine2 x y = none := by
  unfold affine2
  rw [h]
  cases x.affine with
  | none => rfl
  | some p =>
    obtain ⟨_ | _, _, _⟩ := p <;> rfl

theorem IntOp.fold_of_affine2_none {op : IntOp} {x y : Reg} (h : affine2 x y = none) (hmul : op ≠ .mul) (hshl : op ≠ .shl) :
    op.fold x y = none := by
  cases op with
  | add => simp [IntOp.fold, foldAdd, h]
  | sub => simp [IntOp.fold, foldSub, h]
  | mul => exact absurd rfl hmul
  | shl => exact absurd rfl hshl
  | min | minz | max | maxz | mulh | mulhz | div | divz | rem | remz | and | or | xor | andn | shr | sra | rotl => rfl

theorem foldShl_of_symbolic_right {x y : Reg} (h : y.symbolic) : foldShl x y = none := by
  cases y with
  | value => cases h
  | int | log | aff | replay => cases x <;> rfl

theorem foldMul_of_symbolic {x y : Reg} (hx : x.symbolic) (hy : y.symbolic) : foldMul x y = none := by
  cases x with
  | value => cases hx
  | int | log | aff | replay =>
    cases y with
    | value => cases hy
    | int | log | aff | replay => rfl

theorem foldMul_of_affine_none {x y : Reg} (h : x.affine = none ∨ y.affine = none) : foldMul x y = none := by
  cases x with
  | value | int =>
    cases y with
    | value | int => simp [Reg.affine] at h
    | log | aff | replay => rfl
  | log | aff | replay => rfl

theorem foldShl_of_affine_none {x y : Reg} (h : x.affine = none ∨ y.affine = none) : foldShl x y = none := by
  cases x with
  | value | int =>
    cases y with
    | value | int => simp [Reg.affine] at h
    | log | aff | replay => rfl
  | log | aff | replay => rfl

theorem IntOp.fold_of_otherForm {op : IntOp} {x y : Reg} (h : OtherForm x ∨ OtherForm y) : op.fold x y = none := by
  have haff : x.affine = none ∨ y.affine = none := h.imp affine_of_otherForm affine_of_otherForm
  by_cases hmul : op = .mul
  · subst hmul
    exact foldMul_of_affine_none haff
  · by_cases hshl : op = .shl
    · subst hshl
      exact foldShl_of_affine_none haff
    · exact IntOp.fold_of_affine2_none (haff.elim affine2_of_none_left affine2_of_none_right) hmul hshl

theorem IntOp.fold_of_apart {op : IntOp} {σ τ : Sym} {a b c e : Word} (h : σ ≠ τ) :
    op.fold (.int σ a b) (.int τ c e) = none := by
  by_cases hmul : op = .mul
  · subst hmul
    rfl
  · by_cases hshl : op = .shl
    · subst hshl
      rfl
    · exact IntOp.fold_of_affine2_none (by simp [affine2, Reg.affine, h]) hmul hshl

/-- A blocking use is how the meaning of the instruction begins. -/
theorem beginsWith_of_blocksOn {s : State} {i : Instr} {rs : List Reg} (h : BlocksOn s i rs) : BeginsWith s i rs := by
  cases h with
  | two i op ty d x y lit len hi hop =>
    refine beginsWith_twoSource hi ?_
    obtain hop | hty | hfold := hop
    · refine .inr ?_
      cases op with
      | add | sub | mul | shl => exact absurd (by simp) hop
      | min | minz | max | maxz | mulh | mulhz | div | divz | rem | remz | and | or | xor | andn | shr | sra | rotl => rfl
    · exact .inl (by simp [is64_of_notMem hty])
    · exact .inl (by simp [hfold])
  | other i op ty d x y lit len hi hother => exact beginsWith_twoSource hi (.inr (IntOp.fold_of_otherForm hother))
  | product i ty d x y lit len hi hx hy => exact beginsWith_twoSource hi (.inr (foldMul_of_symbolic hx hy))
  | amount i ty d x y lit len hi hy => exact beginsWith_twoSource hi (.inr (foldShl_of_symbolic_right hy))
  | apart i op ty d x y lit len σ a b τ c e hi hx hy hne =>
    exact beginsWith_twoSource hi (.inr (by rw [hx, hy]; exact IntOp.fold_of_apart hne))
  | one i op ty d x lit len hi hop =>
    have hfold : (is64 ty && !s.me.nofold) = false ∨ op.fold (s.me.src lit x) = none := by
      obtain hop | hty | hfold := hop
      · refine .inr ?_
        cases op with
        | neg => exact absurd rfl hop
        | abs | not | clz | ctz | popc => rfl
      · exact .inl (by simp [is64_of_notMem hty])
      · exact .inl (by simp [hfold])
    obtain ⟨f, hf⟩ := State.int1_of_fold_none (d := d) (len := len) hfold
    exact ⟨f, by rw [exec_oneSource hi, hf]⟩
  | words i g d x y lit len hi => exact ⟨_, by rw [exec_twoWords hi, State.raw2, State.use2, bind_assoc]⟩
  | three i g d x y z lit len hi => exact ⟨_, exec_threeWords hi⟩
  | bcmp lit c ty x y imm => exact ⟨_, congrArg (complete s) (bind_assoc ..)⟩
  | ld | ldX | ldd | lddX => exact ⟨_, congrArg (complete s) ((bind_assoc ..).trans (bind_assoc ..))⟩

/-- Settles O16: the folding instructions fold as the table says; every other use begins with `need`, which traps on the
first failed symbol and otherwise waits. -/
theorem symbolicOperands : Obligations.SymbolicOperands := by
  refine ⟨fun s i op ty d x y lit len σ a b hi hty hnofold hfold => ?_, fun s i ty d x lit len σ a b hi hty hnofold hx => ?_,
    fun s i d x y sh disp lit len σ a b c e hi hnofold hx hy hsym => ?_, fun s i ty d x lit len σ hi hty hsym => ?_,
    fun s i rs hblocks => ?_⟩
  · rw [exec_twoSource hi, State.int2]
    simp [is64_of_mem hty, hnofold, IntOp.fold_eq hfold]
  · rw [exec_oneSource hi, State.int1]
    simp [is64_of_mem hty, hnofold, hx, IntOp1.fold, norm_int]
  · obtain ⟨imm, rfl, hexec⟩ := exec_lea hi
    rw [hexec, State.leaOp]
    simp [hnofold, foldLea_eq sh (sext24 imm) hx hy hsym]
  · rw [exec_mov hi, State.movOp]
    cases hr : s.me.src lit x with
    | value v => simp [hr, Reg.sym] at hsym
    | replay v l => simp [hr, Reg.sym] at hsym
    | int | log | aff => simp [is64_of_mem hty]
  · obtain ⟨f, hf⟩ := beginsWith_of_blocksOn hblocks
    refine ⟨fun n t hlt hn => ?_, fun hok hsym => ?_⟩
    · rw [hf, State.need_of_failed hlt hn]
      rfl
    · rw [hf, State.need_of_symbolic hok hsym]
      rfl

end Sys2Proof.Machine
end

section
/-! PROOF. Taking a trap: the record, the handler's registers, and the fatal ones. -/

namespace Sys2Proof.Machine

open Stmt

/-! ## The record (R376) -/

theorem leNat_of_eq {l : List Byte} {n v : Nat} (hl : l = leBytes n v) (hv : v < 2 ^ (8 * n)) : leNat l = v := by
  rw [hl, leNat_leBytes, Nat.mod_eq_of_lt hv]

theorem leNat_of_eq_mod {l : List Byte} {n v : Nat} (hl : l = leBytes n v) : leNat l = v % 2 ^ (8 * n) := by
  rw [hl, leNat_leBytes]

theorem Cause.code_lt (c : Cause) : c.code < 256 := by
  cases c <;> decide

theorem partOfDie_lt (pm : PartMode) (d : DieId) : partOfDie pm d.val < 256 := by
  have hd := d.isLt
  have hpm : partCount pm ≤ 8 := by cases pm <;> decide
  have : d.val * partCount pm ≤ 8 * 8 := Nat.mul_le_mul hd.le hpm
  unfold partOfDie
  omega

/-- The bytes of a record, from the width and the value of each field. -/
def fieldBytes (fs : List (Nat × Nat)) : List Byte := fs.flatMap fun p => leBytes p.1 p.2

@[simp] theorem length_leBytes (n v : Nat) : (leBytes n v).length = n := by
  induction n generalizing v with
  | zero => rfl
  | succ n ih => rw [leBytes, List.length_cons, ih]

/-- The slice of a record that a field takes holds that field's bytes. -/
theorem fieldBytes_slice (fs : List (Nat × Nat)) {k off n v : Nat} (hk : fs[k]? = some (n, v))
    (hoff : ((fs.take k).map Prod.fst).sum = off) : ((fieldBytes fs).drop off).take n = leBytes n v := by
  subst hoff
  induction fs generalizing k with
  | nil => cases hk
  | cons p fs ih =>
    cases k with
    | zero =>
      obtain rfl := Option.some.inj hk
      simp [fieldBytes]
    | succ k =>
      rw [← ih hk, List.take_succ_cons, List.map_cons, List.sum_cons, ← List.drop_drop]
      simp [fieldBytes]

/-- The flags of a trap record (R376). -/
def trapFlags (s : State) (t : TrapInfo) (fatal : Bool) : Nat :=
  (if fatal then 1 else 0) + (if t.async.isSome then 2 else 0) + (if s.me.mode = .h then 4 else 0) + (if t.sym.isSome then 8 else 0)

theorem trapFlags_lt (s : State) (t : TrapInfo) (fatal : Bool) : trapFlags s t fatal < 256 := by
  unfold trapFlags
  split <;> split <;> split <;> split <;> decide

/-- WORD0 of a trap record: the word at the PC, where a fetch was made and gives one (R376). -/
def trapWord0 (s : State) (t : TrapInfo) (pc : Word) : Nat :=
  if t.noWord then 0 else match s.fetchWord s.cur pc with | .ok w => w.toNat | .error _ => 0

theorem trapWord0_lt (s : State) (t : TrapInfo) (pc : Word) : trapWord0 s t pc < 2 ^ 32 := by
  unfold trapWord0
  split
  · decide
  · split
    · next w _ => exact w.isLt
    · decide

/-- The symbol that a trap record names, 0 where it names none (R376). -/
def trapSym (t : TrapInfo) : Nat := match t.sym with | some i => i.val | none => 0

theorem trapSym_lt (t : TrapInfo) : trapSym t < 256 := by
  unfold trapSym
  split
  · next i _ => exact i.isLt.trans (by decide)
  · decide

/-- The fields of a trap record, each with its width in bytes (R376). -/
def trapFields (s : State) (t : TrapInfo) (fatal : Bool) (pc : Word) : List (Nat × Nat) :=
  [(1, t.cause.code), (1, trapFlags s t fatal), (1, s.slot.val), (1, trapSym t), (2, s.me.gen.toNat), (1, s.cur.die.val),
   (1, s.partOf s.cur), (2, s.cur.local), (2, 0), (4, s.myCore.rank), (8, s.myCore.launch.getD 0), (8, pc.toNat),
   (8, t.addr.toNat), (4, trapWord0 s t pc), (4, t.async.getD 0), (8, s.timeAt s.cur), (8, 0)]

theorem trapRecord_eq (s : State) (t : TrapInfo) (fatal : Bool) (pc : Word) :
    trapRecord s t fatal pc = fieldBytes (trapFields s t fatal pc) := by
  cases hsym : t.sym with
  | none =>
    simp only [trapRecord, hsym, fieldBytes, trapFields, trapFlags, trapWord0, trapSym, List.flatMap_cons, List.flatMap_nil,
      List.append_assoc, List.append_nil]
    rfl
  | some i =>
    simp only [trapRecord, hsym, fieldBytes, trapFields, trapFlags, trapWord0, trapSym, List.flatMap_cons, List.flatMap_nil,
      List.append_assoc, List.append_nil]
    rfl

theorem length_trapRecord (s : State) (t : TrapInfo) (fatal : Bool) (pc : Word) : (trapRecord s t fatal pc).length = 64 := by
  simp [trapRecord_eq, fieldBytes, trapFields]

/-- The widths of the fields. -/
def trapWidths : List Nat := [1, 1, 1, 1, 2, 1, 1, 2, 2, 4, 8, 8, 8, 4, 4, 8, 8]

theorem map_fst_trapFields (s : State) (t : TrapInfo) (fatal : Bool) (pc : Word) :
    (trapFields s t fatal pc).map Prod.fst = trapWidths := rfl

theorem leNat_trapRecord {s : State} {t : TrapInfo} {fatal : Bool} {pc : Word} (k off n : Nat) {v : Nat}
    (hk : (trapFields s t fatal pc)[k]? = some (n, v)) (hoff : (trapWidths.take k).sum = off) :
    leNat (((trapRecord s t fatal pc).drop off).take n) = v % 2 ^ (8 * n) := by
  rw [trapRecord_eq, fieldBytes_slice _ hk (by rw [List.map_take, map_fst_trapFields, hoff]), leNat_leBytes]

theorem leNat_trapRecord_of_lt {s : State} {t : TrapInfo} {fatal : Bool} {pc : Word} (k off n : Nat) {v : Nat}
    (hv : v < 2 ^ (8 * n)) (hk : (trapFields s t fatal pc)[k]? = some (n, v)) (hoff : (trapWidths.take k).sum = off) :
    leNat (((trapRecord s t fatal pc).drop off).take n) = v := by
  rw [leNat_trapRecord k off n hk hoff, Nat.mod_eq_of_lt hv]

theorem trapRecord_fields (s : State) (t : TrapInfo) (fatal : Bool) (pc : Word) :
    let r := trapRecord s t fatal pc
    r.length = 64 ∧ leNat (r.take 1) = t.cause.code ∧
    leNat ((r.drop 1).take 1) = (if fatal then 1 else 0) + (if t.async.isSome then 2 else 0) +
      (if s.me.mode = .h then 4 else 0) + (if t.sym.isSome then 8 else 0) ∧
    leNat ((r.drop 2).take 1) = s.slot.val ∧
    leNat ((r.drop 3).take 1) = (match t.sym with | some i => i.val | none => 0) ∧
    leNat ((r.drop 4).take 2) = s.me.gen.toNat ∧ leNat ((r.drop 6).take 1) = s.cur.die.val ∧
    leNat ((r.drop 7).take 1) = s.partOf s.cur ∧ leNat ((r.drop 8).take 2) = s.cur.local ∧
    leNat ((r.drop 10).take 2) = 0 ∧ leNat ((r.drop 12).take 4) = s.myCore.rank % 2 ^ 32 ∧
    leNat ((r.drop 16).take 8) = s.myCore.launch.getD 0 % 2 ^ 64 ∧ leNat ((r.drop 24).take 8) = pc.toNat ∧
    leNat ((r.drop 32).take 8) = t.addr.toNat ∧
    leNat ((r.drop 40).take 4) =
      (if t.noWord then 0 else match s.fetchWord s.cur pc with | .ok w => w.toNat | .error _ => 0) ∧
    leNat ((r.drop 44).take 4) = t.async.getD 0 % 2 ^ 32 ∧ leNat ((r.drop 48).take 8) = s.timeAt s.cur % 2 ^ 64 ∧
    leNat ((r.drop 56).take 8) = 0 :=
  ⟨length_trapRecord s t fatal pc, leNat_trapRecord_of_lt 0 0 1 t.cause.code_lt rfl rfl,
    leNat_trapRecord_of_lt 1 1 1 (trapFlags_lt s t fatal) rfl rfl,
    leNat_trapRecord_of_lt 2 2 1 (s.slot.isLt.trans (by decide)) rfl rfl, leNat_trapRecord_of_lt 3 3 1 (trapSym_lt t) rfl rfl,
    leNat_trapRecord_of_lt 4 4 2 s.me.gen.isLt rfl rfl, leNat_trapRecord_of_lt 5 6 1 (s.cur.die.isLt.trans (by decide)) rfl rfl,
    leNat_trapRecord_of_lt 6 7 1 (partOfDie_lt s.pm s.cur.die) rfl rfl,
    leNat_trapRecord_of_lt 7 8 2 ((Nat.mod_lt _ (by decide)).trans (by decide : 128 < 2 ^ (8 * 2))) rfl rfl,
    leNat_trapRecord_of_lt 8 10 2 (by decide) rfl rfl, leNat_trapRecord 9 12 4 rfl rfl, leNat_trapRecord 10 16 8 rfl rfl,
    leNat_trapRecord_of_lt 11 24 8 pc.isLt rfl rfl, leNat_trapRecord_of_lt 12 32 8 t.addr.isLt rfl rfl,
    leNat_trapRecord_of_lt 13 40 4 (trapWord0_lt s t pc) rfl rfl, leNat_trapRecord 14 44 4 rfl rfl,
    leNat_trapRecord 15 48 8 rfl rfl, leNat_trapRecord_of_lt 16 56 8 (by decide) rfl rfl⟩

/-! ## Entry to the handler -/

/-- The handler's registers on entry (R375). -/
def trapRegs (s : State) (t : TrapInfo) : Vector Reg 24 :=
  (((Vector.replicate 24 (Reg.value 0)).set 0 (.value s.trapVa)).set 1
    (.value (BitVec.ofNat 64 t.cause.code))).set 2 (.value t.addr) |>.set 3
    (.value (match t.sym with | some i => BitVec.ofNat 64 i.val | none => BitVec.allOnes 64))

theorem trapRegs_get_of_le (s : State) (t : TrapInfo) {n : Fin 24} (h : 4 ≤ n.val) : (trapRegs s t).get n = .value 0 := by
  simp only [trapRegs, Vector.get_eq_getElem, Vector.getElem_set]
  simp [show 3 ≠ n.val by omega, show 2 ≠ n.val by omega, show 1 ≠ n.val by omega, show 0 ≠ n.val by omega]

/-- The context on entry to the handler (R375 to R377). -/
def handlerCtx (s : State) (t : TrapInfo) (pc : Word) (c : Ctx) : Ctx :=
  { c with
    mode := .h, epc := pc, hw := trapRegs s t, hlat := .value 0, pc := s.myLaunch.trapVec, phase := false, run := .ready }

theorem State.enterHandler_me_eq (s : State) (t : TrapInfo) (pc : Word) (a : Acc) :
    (s.enterHandler t pc a).me = handlerCtx s t pc s.me := by
  rw [State.enterHandler, State.ungrant_me, State.unclaim_me, State.unlink_me, State.me_modMe, State.putRecord_me]
  rfl

theorem State.enterHandler_core (s : State) (t : TrapInfo) (pc : Word) (a : Acc) (c : CoreId) :
    (s.enterHandler t pc a).core c = ((s.putRecord a (trapRecord s t false pc)).modMe (handlerCtx s t pc)).core c := rfl

/-- Writing the record changes memory, the directory, links and what a checkpoint keeps, and nothing else (R376). -/
theorem State.putRecord_frame (s : State) (a : Acc) (bs : List Byte) :
    { s.putRecord a bs with dir := s.dir, links := s.links, mem := s.mem, ckpt := s.ckpt } = s := by
  have hwrite := congrArg (fun u : State => { u with dir := s.dir, links := s.links, mem := s.mem, ckpt := s.ckpt })
    (State.write_frame (s.arrive (.ofCore s.cur) a .store) none a.keys bs)
  have harrive := congrArg (fun u : State => { u with mem := s.mem, ckpt := s.ckpt }) (State.arrive_frame s (.ofCore s.cur) a .store)
  exact hwrite.trans harrive

theorem State.putRecord_core (s : State) (a : Acc) (bs : List Byte) (c : CoreId) : (s.putRecord a bs).core c = s.core c := by
  have h := congrArg (fun u : State => u.core c) (s.putRecord_frame a bs)
  exact h

theorem State.putRecord_cur (s : State) (a : Acc) (bs : List Byte) : (s.putRecord a bs).cur = s.cur := by
  have h := congrArg State.cur (s.putRecord_frame a bs)
  exact h

theorem State.putRecord_slot (s : State) (a : Acc) (bs : List Byte) : (s.putRecord a bs).slot = s.slot := by
  have h := congrArg State.slot (s.putRecord_frame a bs)
  exact h

theorem State.core_modMe_ne (s : State) (f : Ctx → Ctx) {c : CoreId} (h : c ≠ s.cur) : (s.modMe f).core c = s.core c :=
  State.core_setCore_ne s _ h

theorem State.ctx_modMe_ne (s : State) (f : Ctx → Ctx) {k : SlotId} (h : k ≠ s.slot) :
    (s.modMe f).ctx s.cur k = s.ctx s.cur k := by
  simp [State.modMe, State.setMe, State.setCtx, State.ctx, Core.ctx_setCtx_ne, h]

theorem State.enterHandler_core_ne (s : State) (t : TrapInfo) (pc : Word) (a : Acc) {c : CoreId} (h : c ≠ s.cur) :
    (s.enterHandler t pc a).core c = s.core c := by
  rw [State.enterHandler_core, State.core_modMe_ne _ _ (by rwa [State.putRecord_cur]), State.putRecord_core]

theorem State.enterHandler_ctx_ne (s : State) (t : TrapInfo) (pc : Word) (a : Acc) {k : SlotId} (h : k ≠ s.slot) :
    (s.enterHandler t pc a).ctx s.cur k = s.ctx s.cur k := by
  have hput := State.ctx_modMe_ne (s.putRecord a (trapRecord s t false pc)) (handlerCtx s t pc) (k := k)
    (by rwa [State.putRecord_slot])
  rw [State.putRecord_cur] at hput
  rw [State.ctx, State.enterHandler_core]
  exact hput.trans (congrArg (fun x : Core => x.ctx k) (State.putRecord_core ..))

/-- Entry to the handler leaves the context no link (R117). -/
theorem State.enterHandler_links (s : State) (t : TrapInfo) (pc : Word) (a : Acc) (l : Nat) :
    (s.cur.val, s.slot.val, l) ∉ (s.enterHandler t pc a).links := by
  have h : (s.enterHandler t pc a).links =
      ((s.putRecord a (trapRecord s t false pc)).unlink (s.putRecord a (trapRecord s t false pc)).cur
        (s.putRecord a (trapRecord s t false pc)).slot).links := rfl
  rw [h, State.putRecord_cur, State.putRecord_slot]
  simp [State.unlink]

theorem range_nodup (a n : Nat) : (range a n).Nodup :=
  List.nodup_range.map fun _ _ => Nat.add_left_cancel

@[simp] theorem length_range (a n : Nat) : (range a n).length = n := by
  simp [range]

theorem State.trapBlock_keys {s : State} {a : Acc} (h : s.trapBlock = .ok a) : ∃ k, a.keys = range k 64 := by
  unfold State.trapBlock at h
  dsimp only at h
  cases hw : s.walk s.myLaunch s.trapVa with
  | error e =>
    rw [hw] at h
    cases h
  | ok f =>
    rw [hw] at h
    change (if (f.ro || !f.ua) = true then _ else _) = _ at h
    split at h
    · cases h
    · split at h
      · split at h
        · cases h
        · obtain rfl := Except.ok.inj h
          exact ⟨_, rfl⟩
      · cases h

/-- Entry to the handler writes the record and nothing else of memory. -/
theorem State.enterHandler_mem (s : State) (t : TrapInfo) (pc : Word) (a : Acc) :
    (s.enterHandler t pc a).mem = (s.putRecord a (trapRecord s t false pc)).mem := rfl

theorem State.bytesAt_of_mem_eq {s t : State} (h : t.mem = s.mem) (ks : List Nat) : t.bytesAt ks = s.bytesAt ks := by
  simp only [State.bytesAt, h]

/-- Settles O12: the trap enters the handler, whose effect on memory is `putRecord` and on the context `enterHandler_me_eq`. -/
theorem trapEntry : Obligations.TrapEntry := by
  refine ⟨fun s t a hmode hblock hdemand hvec hcause hfatal hinv => ?_, trapRecord_fields⟩
  dsimp only
  rw [State.takeTrap_eq_enterHandler hblock hdemand (State.fatal_eq_false hmode hvec hcause hfatal)]
  generalize t.pc.getD s.me.pc = pc
  obtain ⟨k, hkeys⟩ := State.trapBlock_keys hblock
  have hwf : (s.arrive (.ofCore s.cur) a .store).mem.wf = true := by
    rw [State.mem_arrive]
    exact hinv
  have hrec : s.putRecord a (trapRecord s t false pc) =
      (s.arrive (.ofCore s.cur) a .store).write none a.keys (trapRecord s t false pc) := rfl
  rw [State.enterHandler_me_eq]
  refine ⟨?_, fun x hx => ?_, rfl, rfl, rfl, rfl, rfl, rfl, rfl, fun n hn => trapRegs_get_of_le s t hn, rfl, rfl, rfl,
    State.enterHandler_links s t pc a,
    rfl, rfl, rfl, rfl, rfl, rfl, rfl, rfl, fun k hk => ?_, fun c hc => ?_⟩
  · rw [State.bytesAt_of_mem_eq (State.enterHandler_mem ..), hrec]
    exact State.write_bytesAt none hwf (hkeys ▸ range_nodup k 64) (by rw [hkeys, length_range, length_trapRecord])
  · rw [State.enterHandler_mem, hrec, State.write_get_of_notMem none _ hwf hx, State.mem_arrive]
  · exact State.enterHandler_ctx_ne s t pc a hk
  · exact State.enterHandler_core_ne s t pc a hc

end Sys2Proof.Machine
end

section
/-! PROOF. Fatal traps: what the end of a context changes. -/

namespace Sys2Proof.Machine

open Stmt

/-! ## The end of a context (R117) -/

theorem State.modCtx_eq_modCore (s : State) (c : CoreId) (k : SlotId) (f : Ctx → Ctx) :
    s.modCtx c k f = s.modCore c fun x => x.setCtx k (f (x.ctx k)) := rfl

/-- Equal but for what is no context: messages, and what a core holds beside its contexts. -/
structure SameCtxs (s t : State) : Prop where
  frame : { t with cores := s.cores, naks := s.naks, links := s.links, dir := s.dir } = s
  ctxs (d : CoreId) : (t.core d).ctxs = (s.core d).ctxs

namespace SameCtxs

theorem refl (s : State) : SameCtxs s s := ⟨rfl, fun _ => rfl⟩

theorem trans {s t u : State} (h : SameCtxs s t) (h' : SameCtxs t u) : SameCtxs s u where
  frame := (congrArg (fun v : State => { v with cores := s.cores, naks := s.naks, links := s.links, dir := s.dir }) h'.frame).trans h.frame
  ctxs d := (h'.ctxs d).trans (h.ctxs d)

theorem modCore (s : State) (c : CoreId) {f : Core → Core} (hf : ∀ x, (f x).ctxs = x.ctxs) : SameCtxs s (s.modCore c f) where
  frame := rfl
  ctxs d := by
    by_cases h : d = c
    · subst h
      rw [State.core_modCore, hf]
    · rw [State.core_modCore_ne _ _ h]

theorem modCore_modCore (s : State) (c : CoreId) {f g : Core → Core} (hfg : ∀ x, (g x).ctxs = (f x).ctxs) :
    SameCtxs (s.modCore c f) (s.modCore c g) where
  frame := rfl
  ctxs d := by
    by_cases h : d = c
    · subst h
      rw [State.core_modCore, State.core_modCore, hfg]
    · rw [State.core_modCore_ne _ _ h, State.core_modCore_ne _ _ h]

theorem foldl {α : Type} {f : State → α → State} (hf : ∀ s a, SameCtxs s (f s a)) (l : List α) (s : State) :
    SameCtxs s (l.foldl f s) := by
  induction l generalizing s with
  | nil => exact refl s
  | cons a l ih => exact (hf s a).trans (ih _)

variable {s t : State} (h : SameCtxs s t)
include h

theorem out : t.out = s.out := by
  have := congrArg State.out h.frame
  exact this

theorem launches : t.launches = s.launches := by
  have := congrArg State.launches h.frame
  exact this

theorem cur : t.cur = s.cur := by
  have := congrArg State.cur h.frame
  exact this

theorem slot : t.slot = s.slot := by
  have := congrArg State.slot h.frame
  exact this

theorem ctx (c : CoreId) (k : SlotId) : t.ctx c k = s.ctx c k := congrArg (fun v => v.get k) (h.ctxs c)

theorem me : t.me = s.me := by
  rw [State.me, h.cur, h.slot, h.ctx]
  rfl

theorem modCtx (c : CoreId) (k : SlotId) (f : Ctx → Ctx) : SameCtxs (s.modCtx c k f) (t.modCtx c k f) where
  frame := congrArg (fun u : State => { u with cores := (s.modCtx c k f).cores }) h.frame
  ctxs d := by
    rw [State.modCtx_eq_modCore, State.modCtx_eq_modCore]
    by_cases hd : d = c
    · subst hd
      rw [State.core_modCore, State.core_modCore]
      simp only [Core.setCtx, Core.ctx, h.ctxs]
    · rw [State.core_modCore_ne _ _ hd, State.core_modCore_ne _ _ hd, h.ctxs]

end SameCtxs

theorem State.freeSlot_sameCtxs (s : State) (m : Message) : SameCtxs s (s.freeSlot m) := by
  unfold State.freeSlot
  dsimp only
  split
  · exact .modCore s _ fun _ => rfl
  · exact .refl s

theorem State.deadLetter_sameCtxs (s : State) (c : CoreId) (m : Message) : SameCtxs s (s.deadLetter c m) :=
  ((s.freeSlot_sameCtxs m).trans (.modCore _ c (f := fun x => { x with deadl := satAdd32 x.deadl 1, sent := x.sent + 1 }) fun _ => rfl)).trans
    ⟨rfl, fun _ => rfl⟩

theorem State.deadLetters_sameCtxs (c : CoreId) (l : List (Fin 16 × Message)) (s : State) :
    SameCtxs s (l.foldl (fun s p => s.deadLetter c p.2) s) := by
  have hstep (u : State) (p : Fin 16 × Message) : SameCtxs u (u.deadLetter c p.2) := u.deadLetter_sameCtxs c p.2
  have h := SameCtxs.foldl hstep
  exact h l s

theorem State.dropInbox_sameCtxs (s : State) (c : CoreId) (k : SlotId) : SameCtxs s (s.dropInbox c k) := by
  unfold State.dropInbox
  dsimp only
  generalize (s.core c).inbox.partition (fun p => p.2.slot == k) = p
  have hkept : SameCtxs s (s.modCore c fun x => { x with inbox := p.2 }) := .modCore s c fun _ => rfl
  generalize (s.modCore c fun x => { x with inbox := p.2 }) = u at hkept ⊢
  exact hkept.trans (State.deadLetters_sameCtxs c p.1 u)

theorem State.settle_sameCtxs (s : State) (c : CoreId) : SameCtxs s (s.settle c) := .modCore s c Core.settle_ctxs

/-- A core after the end of the context in slot k (R117). -/
def Core.slotEnded (x : Core) (k : SlotId) : Core :=
  { (x.setCtx k (x.ctx k).ended).disown k with
    fetching := if x.fetching.map (·.1) = some k then none else x.fetching }

theorem State.endCtx_eq (s : State) (c : CoreId) (k : SlotId) :
    s.endCtx c k = (((((s.dropInbox c k).modCore c fun x => x.slotEnded k).unclaim c k).ungrant (some c.val)).unlink c k).settle c :=
  rfl

/-- The end of a context empties its slot and leaves every other context. -/
theorem State.endCtx_sameCtxs (s : State) (c : CoreId) (k : SlotId) :
    SameCtxs (s.modCtx c k Ctx.ended) (s.endCtx c k) := by
  have hend (u : State) : SameCtxs (u.modCtx c k Ctx.ended) (u.modCore c fun x => x.slotEnded k) := by
    rw [State.modCtx_eq_modCore]
    exact .modCore_modCore u c fun _ => rfl
  have hdir (u : State) : SameCtxs u (((u.unclaim c k).ungrant (some c.val)).unlink c k) := ⟨rfl, fun _ => rfl⟩
  rw [State.endCtx_eq]
  generalize hs : s.dropInbox c k = u
  have hu : SameCtxs s u := hs ▸ s.dropInbox_sameCtxs c k
  exact (((hu.modCtx c k Ctx.ended).trans (hend u)).trans (hdir _)).trans (State.settle_sameCtxs _ c)

/-! ## Registers of an ended context -/

theorem Ctx.reg_mapRegs (t : Ctx) (f : Reg → Reg) (n : RegName) : (t.mapRegs f).reg n = f (t.reg n) := by
  by_cases hmode : t.mode = .h <;> cases n <;> simp [Ctx.mapRegs, Ctx.reg, hmode, Vector.get_eq_getElem]

theorem Ctx.ended_reg_of_value {t : Ctx} {n : RegName} {v : Word} (h : t.reg n = .value v) : t.ended.reg n = .value v := by
  have hreg : t.ended.reg n = (t.mapRegs fun r => match r with | .value v => .value v | _ => .value 0).reg n := by
    cases n <;> rfl
  rw [hreg, Ctx.reg_mapRegs, h]

/-! ## Fatal traps (R378, R379) -/

theorem trapRecord_getD_zero (s : State) (t : TrapInfo) (fatal : Bool) (pc : Word) :
    (trapRecord s t fatal pc).getD 0 0 = BitVec.ofNat 8 t.cause.code := by
  simp [trapRecord_eq, fieldBytes, trapFields, leBytes]

theorem trapRecord_getD_one (s : State) (t : TrapInfo) (fatal : Bool) (pc : Word) :
    (trapRecord s t fatal pc).getD 1 0 = BitVec.ofNat 8 (trapFlags s t fatal) := by
  simp [trapRecord_eq, fieldBytes, trapFields, leBytes]

theorem getLsbD_trapFlags_zero (s : State) (t : TrapInfo) : (BitVec.ofNat 8 (trapFlags s t true)).getLsbD 0 = true := by
  have hodd : trapFlags s t true % 2 = 1 := by
    simp only [trapFlags, if_true]
    split <;> split <;> split <;> rfl
  rw [BitVec.getLsbD_ofNat, Nat.testBit_zero]
  simp [hodd]

/-- A state that the fatal trap of s leads to before the context ends (R379). -/
structure Reported (s : State) (r : List Byte) (u : State) : Prop where
  cores : u.cores = s.cores
  cur : u.cur = s.cur
  slot : u.slot = s.slot
  out : u.out = .trap r :: s.out
  launches (id : Nat) : s.myCore.launch = some id → u.launches = s.launches.map fun l =>
    if l.id == id && l.part == s.partOf s.cur then { l with fatal := l.fatal + 1 } else l

/-- The state in which a fatal trap's record has been written where there is a block for it. -/
def State.recorded (s : State) (r : List Byte) (block : Option Acc) : State :=
  match block with
  | some a => s.putRecord a r
  | none => s

theorem State.recorded_frame (s : State) (r : List Byte) (block : Option Acc) :
    { s.recorded r block with dir := s.dir, links := s.links, mem := s.mem, ckpt := s.ckpt } = s := by
  cases block with
  | none => rfl
  | some a => exact s.putRecord_frame a r

/-- The state in which the launch of the executing core counts one fatal trap more. -/
def State.fatalCounted (s : State) : State :=
  match s.myCore.launch with
  | some id => s.modLaunch (s.partOf s.cur) id fun l => { l with fatal := l.fatal + 1 }
  | none => s

theorem State.fatalTrap_eq (s : State) (t : TrapInfo) (pc : Word) (block : Option Acc) :
    s.fatalTrap t pc block =
      let v := s.recorded (trapRecord s t true pc) block
      let u := ({ v with out := .trap (trapRecord s t true pc) :: v.out } : State).fatalCounted
      u.endCtx u.cur u.slot := rfl

theorem State.fatalCounted_of_none {s : State} (h : s.myCore.launch = none) : s.fatalCounted = s := by
  rw [State.fatalCounted, h]

theorem State.fatalCounted_of_some {s : State} {id : Nat} (h : s.myCore.launch = some id) :
    s.fatalCounted = s.modLaunch (s.partOf s.cur) id fun l => { l with fatal := l.fatal + 1 } := by
  rw [State.fatalCounted, h]

theorem State.fatalCounted_reported {s v : State} {r : List Byte}
    (h : { v with dir := s.dir, links := s.links, mem := s.mem, ckpt := s.ckpt } = s) :
    Reported s r ({ v with out := .trap r :: v.out } : State).fatalCounted := by
  have hcores : v.cores = s.cores := by have h := congrArg State.cores h; exact h
  have hcur : v.cur = s.cur := by have h := congrArg State.cur h; exact h
  have hslot : v.slot = s.slot := by have h := congrArg State.slot h; exact h
  have hout : v.out = s.out := by have h := congrArg State.out h; exact h
  have hlaunches : v.launches = s.launches := by have h := congrArg State.launches h; exact h
  have hpart : v.partOf v.cur = s.partOf s.cur := by have h := congrArg (fun u : State => u.partOf u.cur) h; exact h
  have hmine : ({ v with out := .trap r :: v.out } : State).myCore = s.myCore := by have h := congrArg State.myCore h; exact h
  have hout' : OutMsg.trap r :: v.out = .trap r :: s.out := by rw [hout]
  cases hlaunch : s.myCore.launch with
  | none =>
    rw [State.fatalCounted_of_none (hmine ▸ hlaunch)]
    exact ⟨hcores, hcur, hslot, hout', fun id hid => nomatch hlaunch.symm.trans hid⟩
  | some id =>
    rw [State.fatalCounted_of_some (hmine ▸ hlaunch)]
    refine ⟨hcores, hcur, hslot, hout', fun id' hid => ?_⟩
    obtain rfl := Option.some.inj (hlaunch.symm.trans hid)
    rw [← hlaunches, ← hpart]
    rfl

theorem State.fatalTrap_reported (s : State) (t : TrapInfo) (pc : Word) (block : Option Acc) :
    ∃ u, Reported s (trapRecord s t true pc) u ∧ s.fatalTrap t pc block = u.endCtx s.cur s.slot := by
  have hu := State.fatalCounted_reported (r := trapRecord s t true pc) (s.recorded_frame (trapRecord s t true pc) block)
  refine ⟨_, hu, ?_⟩
  rw [State.fatalTrap_eq]
  dsimp only
  rw [hu.cur, hu.slot]

/-- A trap that no handler takes (R379). -/
def Unhandled (s : State) (t : TrapInfo) : Prop :=
  (∃ e, s.trapBlock = .error e ∧ ∀ n, e ≠ .snoop n) ∨ (∃ a, s.trapBlock = .ok a ∧ s.demand (.ofCore s.cur) a .store = none ∧
      (t.cause = .retEmpty ∨ t.fatal = true ∨ s.myLaunch.trapVec = 0 ∨ s.me.mode = .h))

theorem State.takeTrap_of_unhandled {s : State} {t : TrapInfo} (h : Unhandled s t) :
    ∃ block, s.takeTrap t = s.unhandled t (t.pc.getD s.me.pc) block := by
  unfold State.takeTrap
  obtain ⟨e, he, hne⟩ | ⟨a, ha, hdemand, hfatal⟩ := h
  · rw [he]
    cases e with
    | snoop n => exact absurd rfl (hne n)
    | fault | notPresent => exact ⟨none, rfl⟩
  · have hfatal : s.fatal t = true := by
      simpa [State.fatal, or_assoc] using hfatal
    rw [ha]
    simp only [hdemand, hfatal, if_true]
    exact ⟨some a, rfl⟩

/-- A context goes on after a report to the runtime alone. -/
def resumed (c : Ctx) : Ctx := match c.run with | .trapping _ => { c with run := .ready } | _ => c

theorem State.runtimeOnly_me (s : State) (t : TrapInfo) (pc : Word) : (s.runtimeOnly t pc).me = resumed s.me := by
  unfold State.runtimeOnly
  exact State.me_modMe s resumed

theorem resumed_live (c : Ctx) : (resumed c).live = c.live := by
  unfold resumed
  split <;> rfl

theorem resumed_regs (c : Ctx) : (resumed c).regs = c.regs := by
  unfold resumed
  split <;> rfl

theorem State.ctx_modCtx_ne (s : State) {c d : CoreId} {k j : SlotId} (f : Ctx → Ctx) (h : (d, j) ≠ (c, k)) :
    (s.modCtx c k f).ctx d j = s.ctx d j := by
  rw [State.modCtx_eq_modCore, State.ctx]
  by_cases hd : d = c
  · subst hd
    have hj : j ≠ k := fun hj => h (by rw [hj])
    rw [State.core_modCore, Core.ctx_setCtx_ne _ _ hj]
    rfl
  · rw [State.core_modCore_ne _ _ hd]
    rfl

/-- Settles O13: a trap that no handler takes ends the context after the report, or, asynchronous, only reports. -/
theorem fatalTrap : Obligations.FatalTrap := by
  refine ⟨fun s t hasync h => ?_, fun s t hasync h => ?_⟩
  · obtain ⟨block, hblock⟩ := State.takeTrap_of_unhandled h
    obtain ⟨u, hu, hend⟩ := s.fatalTrap_reported t (t.pc.getD s.me.pc) block
    have htake : s.takeTrap t = u.endCtx s.cur s.slot := by
      rw [hblock, State.unhandled, hasync, ← hend]
      rfl
    have hsame := u.endCtx_sameCtxs s.cur s.slot
    have hctx (c : CoreId) (k : SlotId) : u.ctx c k = s.ctx c k := by
      rw [State.ctx, State.core, hu.cores]
      rfl
    have hme : (u.endCtx s.cur s.slot).me = s.me.ended := by
      rw [hsame.me, ← hu.cur, ← hu.slot]
      exact (State.me_modMe u Ctx.ended).trans (congrArg Ctx.ended (by rw [State.me, hctx, hu.cur, hu.slot]; rfl))
    dsimp only
    rw [htake]
    refine ⟨hme, by rw [hme]; rfl, fun n v hv => by rw [hme, Ctx.ended_reg_of_value hv], ⟨_, hsame.out.trans hu.out, rfl,
      length_trapRecord .., trapRecord_getD_zero .., ?_⟩, fun c k hck => ?_, fun id hid => hsame.launches.trans (hu.launches id hid)⟩
    · rw [trapRecord_getD_one, getLsbD_trapFlags_zero]
    · rw [hsame.ctx, State.ctx_modCtx_ne _ _ hck, hctx]
  · obtain ⟨block, hblock⟩ := State.takeTrap_of_unhandled h
    rw [hblock, State.unhandled, if_pos hasync]
    refine ⟨rfl, ?_, ?_, rfl⟩
    · rw [State.runtimeOnly_me, resumed_live]
    · rw [State.runtimeOnly_me, resumed_regs]

end Sys2Proof.Machine
end

section
/-! PROOF. A step of a core's turn, and the trap instructions. -/

namespace Sys2Proof.Machine

open Stmt

@[simp] theorem except_ok_bind {ε α β : Type} (a : α) (f : α → Except ε β) : ((Except.ok a : Except ε α) >>= f) = f a := rfl

@[simp] theorem except_error_bind {ε α β : Type} (e : ε) (f : α → Except ε β) :
    ((Except.error e : Except ε α) >>= f) = .error e := rfl

/-! ## A core's turn (R255, R256) -/

theorem State.tryCtx_eq_some {s : State} {c : CoreId} {k : SlotId} {o : Out} (h : s.tryCtx c k = some o) :
    (s.onto c k).runNext = o := by
  unfold State.tryCtx at h
  dsimp only at h
  split at h
  · split at h
    · next s' hs' =>
      split at h
      · cases h
      · rw [hs', Option.some.inj h]
    · exact Option.some.inj h
  · cases h

theorem State.readySlots_mem {s : State} {c : CoreId} {p : SlotId × Out} (h : p ∈ s.readySlots c) :
    (s.onto c p.1).runNext = p.2 := by
  obtain ⟨k, -, hk⟩ := List.mem_filterMap.1 h
  obtain ⟨o, ho, rfl⟩ := Option.map_eq_some_iff.1 hk
  exact State.tryCtx_eq_some ho

/-- In its turn a core runs the context on which its choice falls. -/
theorem State.turnOf_of_chosen {s : State} {c : CoreId} {k : SlotId} {s' : State} (hruns : s.coreRuns c = true)
    (hpick : (((s.beginTurn c).core c).pick (((s.beginTurn c).core c).considered ((s.beginTurn c).readySlots c))).map (·.1) = some k)
    (hrun : ((s.beginTurn c).onto c k).runNext = .next s') :
    s.turnOf c = .ok (.next (s'.endTurn c ((s.beginTurn c).core c) (some k) (((s.beginTurn c).readySlots c).map (·.1)))) := by
  obtain ⟨⟨k', o⟩, hp, rfl⟩ := Option.map_eq_some_iff.1 hpick
  have ho := State.readySlots_mem (Core.mem_of_considered (Core.mem_of_pick hp))
  obtain rfl : o = .next s' := ho.symm.trans hrun
  unfold State.turnOf
  simp only [hruns, hp, Bool.not_true, Bool.false_eq_true, if_false]

theorem step_eq_scheduled {s : State} (hinputs : s.inputs = []) (hheld : (if s.steps % 8 = 3 then s.held else []) = [])
    (hpowered : s.powered = true) (hsteps : s.steps % 8 ≠ 7) : step s = ({ s with steps := s.steps + 1 } : State).scheduled false := by
  have hseven : (s.steps % 8 == 7) = false := by simpa using hsteps
  unfold step State.stepWhole
  dsimp only
  split
  · next h => exact nomatch hinputs.symm.trans h
  · next h => exact nomatch hheld.symm.trans h
  · rw [if_pos hpowered, hseven]

/-- A step in which core c has its turn. -/
theorem step_of_coreTurn {s : State} {c : CoreId} {s' : State} (h : CoreTurn s c)
    (hturn : ({ s with steps := s.steps + 1 } : State).turnOf c = .ok (.next s')) : step s = .next (s'.passTurn c) := by
  obtain ⟨hinputs, hheld, hpowered, hsteps, hhead, -⟩ := h
  have hheld' : (if s.steps % 8 = 3 then s.held else []) = [] := by
    split
    · exact hheld ‹_›
    · rfl
  obtain ⟨rest, hrest⟩ := List.head?_eq_some_iff.1 hhead
  generalize ht : ({ s with steps := s.steps + 1 } : State) = t at hturn
  have hrest' : (t.coreOrder.filter fun d => decide (t.turn ≤ d)) = c :: rest := by
    subst ht
    exact hrest
  have hissue : t.issueStep = .ok (.next (s'.passTurn c)) := by
    simp only [State.issueStep, hrest', State.firstTurn, hturn]
  rw [step_eq_scheduled hinputs hheld' hpowered hsteps, ht]
  simp only [State.scheduled, hissue, Bool.false_eq_true, if_false]

/-- Settles O8: the choice falls on a context that would run its instruction so, and the step is that and the bookkeeping. -/
theorem stepRunsDecodedInstruction : Obligations.StepRunsDecodedInstruction := by
  intro s c k hchosen
  obtain ⟨hturn, hpick, htrap⟩ := hchosen
  have hstep {s' : State} (hrun : ((atTurn s c).onto c k).runNext = .next s') :
      step s = .next (afterIssue s' c ((atTurn s c).core c) k (readyAt s c)) :=
    step_of_coreTurn hturn (State.turnOf_of_chosen hturn.2.2.2.2.2 hpick hrun)
  have hrunNext : ((atTurn s c).onto c k).runNext = match ((atTurn s c).onto c k).fetchInstr with
      | .error e => complete ((atTurn s c).onto c k) (.error e)
      | .ok i => exec i ((atTurn s c).onto c k) := by
    unfold State.runNext
    split
    · next t ht => exact absurd ht (htrap t)
    · rfl
  refine ⟨fun ws i s' hws hdec hexec => hstep ?_, fun ws e hws hdec => hstep ?_, fun t hws => hstep ?_⟩
  · rw [hrunNext, State.fetchInstr, hws]
    simp [hdec, hexec]
  · rw [hrunNext, State.fetchInstr, hws]
    simp [hdec]
  · rw [hrunNext, State.fetchInstr, hws]
    rfl

/-! ## Trap instructions -/

/-- Settles O28: each answers its trap; `hret` checks the mode and then the saved PC. -/
theorem trapInstructions : Obligations.TrapInstructions := by
  refine ⟨fun s => rfl, fun s w => rfl, fun s hmode => ?_, fun s hmode hepc => ?_⟩
  · show complete s s.hretOp = _
    rw [State.hretOp, check_bind_of_false (by simp [hmode])]
    rfl
  · have halign : (wbits s.me.epc 0 2 == 0) = false :=
      Bool.eq_false_iff.2 fun h => hepc ((wbits_two_beq_zero _).1 h)
    show complete s s.hretOp = _
    rw [State.hretOp, check_bind_of_true (bne_iff_ne.2 hmode), check_bind_of_false halign]
    rfl

/-! ## Fetching (R16, R30) -/

theorem lenWords_eq (l : BitVec 2) : lenWords l = [1, 3, 3, 5].getD l.toNat 0 := by
  obtain ⟨⟨n, hn⟩⟩ := l
  interval_cases n <;> rfl

theorem State.fetchWord_eq_memory {s : State} {c : CoreId} {va : Word} {ks : List Nat} (hkeys : s.fetchKeys c va 4 = .ok ks)
    (hblock : (s.core c).fetchedBlock va = none) (hpoison : s.poisoned ks = false) (hquar : s.quarantined ks = false) :
    s.fetchWord c va = .ok (BitVec.ofNat 32 (leNat (s.bytesAt ks))) := by
  unfold State.fetchWord
  rw [hkeys]
  simp [hblock, hpoison, hquar]

theorem State.fetchWord_eq_block {s : State} {c : CoreId} {va : Word} {ks : List Nat} {b : FetchBlock}
    (hkeys : s.fetchKeys c va 4 = .ok ks) (hblock : (s.core c).fetchedBlock va = some b) (hbad : b.bad = false) :
    s.fetchWord c va = .ok (b.words.getD (va.toNat % 32 / 4) 0) := by
  unfold State.fetchWord
  rw [hkeys]
  simp [hblock, hbad]

theorem forM_ok {ε α : Type} {f : α → Except ε Unit} (l : List α) (h : ∀ a ∈ l, f a = .ok ()) : l.forM f = .ok () := by
  induction l with
  | nil => rfl
  | cons a l ih =>
    show (f a >>= fun _ => l.forM f) = _
    rw [h a List.mem_cons_self, except_ok_bind, ih fun b hb => h b (List.mem_cons_of_mem _ hb)]

theorem State.fetchable_eq_ok {s : State} {c : CoreId} {pc : Word} {n : Nat}
    (h : ∀ j < n, ∃ ks, s.fetchKeys c (pc + word (4 * j)) 4 = .ok ks) : s.fetchable c pc n = .ok () :=
  forM_ok _ fun j hj => by
    obtain ⟨ks, hks⟩ := h j (List.mem_range.1 hj)
    rw [hks, except_ok_bind]

theorem mapM_ok {ε α β : Type} {f : α → Except ε β} {g : α → β} (l : List α) (h : ∀ a ∈ l, f a = .ok (g a)) :
    l.mapM f = .ok (l.map g) := by
  induction l with
  | nil => rfl
  | cons a l ih =>
    rw [List.mapM_cons, h a List.mem_cons_self, ih fun b hb => h b (List.mem_cons_of_mem _ hb)]
    rfl

theorem State.precise_of_ok {α : Type} (s : State) (a : α) : s.precise (.ok a) = .ok a := rfl

/-- The words fetched, where every one can be: as many as LEN names, or PLACEMENT. -/
theorem State.fetchInstrWords_eq {s : State} {n : Nat} {w : Nat → BitVec 32} (halign : s.me.pc.toNat % 4 = 0) (hn : 0 < n)
    (hkeys : ∀ j < n, ∃ ks, s.fetchKeys s.cur (s.me.pc + word (4 * j)) 4 = .ok ks)
    (hword : ∀ j < n, s.me.pc.toNat % 32 + 4 * j < 32 → s.fetchWord s.cur (s.me.pc + word (4 * j)) = .ok (w j))
    (hlen : n = lenWords ((w 0).extractLsb' 0 2)) :
    s.fetchInstrWords = if 32 < s.me.pc.toNat % 32 + 4 * n then .error (.trap { cause := .placement, addr := s.me.pc })
      else .ok ((List.range n).map w) := by
  have hw0 : s.fetchWord s.cur s.me.pc = .ok (w 0) := by
    simpa [word] using hword 0 hn (by omega)
  unfold State.fetchInstrWords
  simp only [halign, hw0, State.precise_of_ok, except_ok_bind, ← hlen, State.fetchable_eq_ok hkeys, ne_eq, not_true_eq_false,
    if_false]
  by_cases h : 32 < s.me.pc.toNat % 32 + 4 * n
  · rw [check_bind_of_false (by simpa using h), if_pos h]
  · have hwords : ∀ j ∈ List.range n, s.fetchWord s.cur (s.me.pc + word (4 * j)) = .ok (w j) := fun j hj =>
      have hjn := List.mem_range.1 hj
      hword j hjn (by omega)
    rw [check_bind_of_true (by simpa using h), mapM_ok _ hwords, if_neg h]
    rfl

theorem toNat_pc_add {pc : Word} {j : Nat} (hlt : pc.toNat % 32 + 4 * j < 32) :
    (pc + word (4 * j)).toNat = pc.toNat + 4 * j := by
  have := pc.isLt
  rw [word, BitVec.toNat_add, BitVec.toNat_ofNat]
  omega

theorem Core.fetchedBlock_add {x : Core} {pc : Word} {j : Nat} (hlt : pc.toNat % 32 + 4 * j < 32) :
    x.fetchedBlock (pc + word (4 * j)) = x.fetchedBlock pc := by
  have hblock : blockOf32 (pc + word (4 * j)) = blockOf32 pc := by
    simp only [blockOf32, toNat_pc_add hlt]
    omega
  simp only [Core.fetchedBlock, hblock]

/-- Settles O9: every word that can be fetched is the buffered block's or memory's. -/
theorem fetchReadsTheWordsAtThePC : Obligations.FetchReadsTheWordsAtThePC := by
  refine ⟨fun s h => ?_, fun s c a halign hkeys => ?_, fun s n ks halign hempty hn hks hlen => ?_,
    fun s n b halign hblock hbad hn hkeys hlen => ?_⟩
  · unfold State.fetchInstrWords
    simp [h]
  · have hword : s.fetchWord s.cur s.me.pc = .error (.fault c a) := by
      rw [State.fetchWord, hkeys]
      rfl
    unfold State.fetchInstrWords
    simp [halign, hword, State.precise, trap]
  · have hnone (va : Word) : (s.core s.cur).fetchedBlock va = none := by
      simp only [Core.fetchedBlock]
      rw [show (s.core s.cur).fetched = [] from hempty]
      rfl
    refine State.fetchInstrWords_eq halign hn (fun j hj => ⟨_, (hks j hj).1⟩) (fun j hj _ => ?_) (by rw [lenWords_eq]; exact hlen)
    obtain ⟨hkeys, hpoison, hquar⟩ := hks j hj
    exact State.fetchWord_eq_memory hkeys (hnone _) hpoison hquar
  · refine State.fetchInstrWords_eq halign hn hkeys (fun j hj hlt => ?_) (by rw [lenWords_eq]; exact hlen)
    obtain ⟨ks, hks⟩ := hkeys j hj
    rw [State.fetchWord_eq_block (va := s.me.pc + word (4 * j)) hks ((Core.fetchedBlock_add hlt).trans hblock) hbad, toNat_pc_add hlt]
    congr 2
    omega

end Sys2Proof.Machine
end

section
/-! PROOF. Symbols: the instructions that read, await and cancel them, and their delivery. -/

namespace Sys2Proof.Machine

open Stmt

/-! ## The instructions on symbols (R93, R94) -/

theorem State.symOf_eq_some {s : State} {a : SymArg} {σ : Sym} : s.symOf a = some σ ↔ namesSym s a σ := by
  cases a with
  | num n => exact Option.some_inj
  | reg r => exact Iff.rfl

theorem State.symCode_eq {s : State} {a : SymArg} {code : Nat}
    (h : (∃ σ, namesSym s a σ ∧ code = (s.myCore.syms.get σ).code) ∨ ((∀ σ, ¬ namesSym s a σ) ∧ code = 0)) :
    s.symCode a = code := by
  unfold State.symCode
  obtain ⟨σ, hσ, rfl⟩ | ⟨hnone, rfl⟩ := h
  · rw [State.symOf_eq_some.2 hσ]
  · rw [Option.eq_none_iff_forall_ne_some.2 fun σ hσ => hnone σ (State.symOf_eq_some.1 hσ)]

theorem SymState.code_eq_one {e : SymState} : e.code = 1 ↔ ∃ n k, e = .pending n k := by
  cases e <;> simp [SymState.code]

theorem Core.cancel_of_pending {x : Core} {i : Sym} {n : Nat} {k : Option SlotId} (h : x.syms.get i = .pending n k) :
    x.cancel i = ({ x with syms := x.syms.set i.val .cancelled i.isLt }).latchOwner k 1 := by
  unfold Core.cancel
  rw [h]

theorem Core.cancel_of_code_ne {x : Core} {i : Sym} (h : (x.syms.get i).code ≠ 1) : x.cancel i = x := by
  unfold Core.cancel
  split
  · next n k hs => exact absurd (SymState.code_eq_one.2 ⟨n, k, hs⟩) h
  · rfl

theorem State.symxOp_of_code_ne {s : State} {a : SymArg} (h : s.symCode a ≠ 1) (d : Dst) (len : Nat) :
    s.symxOp d a len = .ok (s.result d (word (s.symCode a)) [] len) := by
  unfold State.symxOp
  cases ha : s.symOf a with
  | none => rfl
  | some i =>
    have hcode : (s.myCore.syms.get i).code ≠ 1 := by simpa only [State.symCode, ha] using h
    have hcancel : (s.modCore s.cur fun x => x.cancel i) = s := by
      rw [State.modCore, Core.cancel_of_code_ne (x := s.core s.cur) hcode, State.setCore_core]
    dsimp only
    rw [hcancel]

theorem State.symxOp_of_pending {s : State} {a : SymArg} {σ : Sym} {n : Nat} {k : Option SlotId} (ha : namesSym s a σ)
    (hσ : s.myCore.syms.get σ = .pending n k) (d : Dst) (len : Nat) :
    s.symxOp d a len = .ok ((s.modCore s.cur fun x =>
      ({ x with syms := x.syms.set σ.val .cancelled σ.isLt }).latchOwner k 1).result d (word (s.symCode a)) [] len) := by
  have hmod : (s.modCore s.cur fun x => x.cancel σ) =
      s.modCore s.cur fun x => ({ x with syms := x.syms.set σ.val .cancelled σ.isLt }).latchOwner k 1 :=
    congrArg (s.setCore s.cur) (Core.cancel_of_pending hσ)
  unfold State.symxOp
  rw [State.symOf_eq_some.2 ha]
  dsimp only
  rw [hmod]

theorem State.symwOp_of_ne {s : State} {a : SymArg} (h : s.symCode a ≠ 1) (d : Dst) (len : Nat) :
    s.symwOp d a len = .ok (s.result d (word (s.symCode a)) [] len) := by
  rw [State.symwOp, waitFor_ok (u := ()) |>.2 (by simpa using h)]
  rfl

theorem State.symwOp_of_eq {s : State} {a : SymArg} (h : s.symCode a = 1) (d : Dst) (len : Nat) : s.symwOp d a len = wait := by
  rw [State.symwOp, h]
  rfl

/-- Settles O20: `symt` reads the code, `symw` waits on 1, and `symx` cancels a pending entry alone. -/
theorem symbolInstructions : Obligations.SymbolInstructions := by
  intro s d a code h
  obtain rfl := State.symCode_eq h
  refine ⟨rfl, rfl, fun hne => ⟨?_, ?_, ?_, ?_⟩, fun hone => ⟨?_, ?_, ?_⟩⟩
  · exact congrArg (complete s) (State.symwOp_of_ne hne d 4)
  · exact congrArg (complete s) (State.symwOp_of_ne hne d 12)
  · exact congrArg (complete s) (State.symxOp_of_code_ne hne d 4)
  · exact congrArg (complete s) (State.symxOp_of_code_ne hne d 12)
  · exact congrArg (complete s) (State.symwOp_of_eq hone d 4)
  · exact congrArg (complete s) (State.symwOp_of_eq hone d 12)
  · obtain ⟨σ, hσ, hcode⟩ | ⟨-, hcode⟩ := h
    · obtain ⟨n, k, hpending⟩ := SymState.code_eq_one.1 (hcode.symm.trans hone)
      refine ⟨σ, n, k, hσ, hpending, ?_⟩
      have hop := State.symxOp_of_pending hσ hpending d
      rw [hone] at hop
      exact ⟨congrArg (complete s) (hop 4), congrArg (complete s) (hop 12)⟩
    · exact absurd (hcode.symm.trans hone) (by decide)

/-! ## Delivery (R70) -/

theorem Reg.resolve_fst (s : Sym) (x : Word) (r : Reg) : (r.resolve s x).1 = afterDelivery s x r := by
  cases r with
  | value | replay => rfl
  | int t a b | log t l | aff t a b =>
    simp only [Reg.resolve, afterDelivery]
    split <;> rfl

theorem Core.latchBit_syms (x : Core) (k : SlotId) (bit : Nat) : (x.latchBit k bit).syms = x.syms := by
  unfold Core.latchBit
  dsimp only
  split <;> rfl

theorem Core.latchOwner_syms (x : Core) (k : Option SlotId) (bit : Nat) : (x.latchOwner k bit).syms = x.syms := by
  cases k with
  | none => rfl
  | some k => exact x.latchBit_syms k bit

/-- Equal registers of two contexts, in every file. -/
structure SameRegs (t u : Ctx) : Prop where
  stack : u.stack = t.stack
  g : u.g = t.g
  o : u.o = t.o
  lat : u.lat = t.lat
  hw : u.hw = t.hw
  hlat : u.hlat = t.hlat

theorem Core.latchBit_sameRegs (x : Core) (k : SlotId) (bit : Nat) (j : SlotId) :
    SameRegs (x.ctx j) ((x.latchBit k bit).ctx j) := by
  unfold Core.latchBit
  dsimp only
  split
  · by_cases h : j = k
    · subst h
      rw [Core.ctx_setCtx]
      exact ⟨rfl, rfl, rfl, rfl, rfl, rfl⟩
    · rw [Core.ctx_setCtx_ne _ _ h]
      exact ⟨rfl, rfl, rfl, rfl, rfl, rfl⟩
  · exact ⟨rfl, rfl, rfl, rfl, rfl, rfl⟩

theorem Core.latchOwner_sameRegs (x : Core) (k : Option SlotId) (bit : Nat) (j : SlotId) :
    SameRegs (x.ctx j) ((x.latchOwner k bit).ctx j) := by
  cases k with
  | none => exact ⟨rfl, rfl, rfl, rfl, rfl, rfl⟩
  | some k => exact x.latchBit_sameRegs k bit j

theorem Core.resolve_syms (x : Core) (s : Sym) (v : Word) : (x.resolve s v).syms = x.syms.set s.val (.resolved v) s.isLt := by
  unfold Core.resolve
  have h := congrArg Core.syms (Core.countAll_frame
    (({ x with syms := x.syms.set s.val (.resolved v) s.isLt } : Core).mapCtx fun t => t.mapRegs fun r => (r.resolve s v).1)
    (x.ctxs.toList.flatMap fun t => t.regs.flatMap fun r => (r.resolve s v).2))
  exact h

theorem Core.resolve_ctx (x : Core) (s : Sym) (v : Word) (j : SlotId) :
    (x.resolve s v).ctx j = (x.ctx j).mapRegs fun r => (r.resolve s v).1 := by
  unfold Core.resolve
  rw [Core.countAll_ctx]
  simp [Core.ctx, Core.mapCtx, Vector.get_eq_getElem]

theorem Core.deliver_of_pending {x : Core} {r : SymRef} {k : Option SlotId} (h : x.syms.get r.s = .pending r.serial k) (v : Word) :
    x.deliver r v = (x.resolve r.s v).latchOwner k 1 := by
  simp only [Core.deliver, h, if_true]

/-- Settles O21: delivery maps every register by `afterDelivery`, and its latch bit changes none. -/
theorem deliveryResolvesEveryHolder : Obligations.DeliveryResolvesEveryHolder := by
  refine ⟨fun x r v k h => ?_, fun x r v h => ?_⟩
  · rw [Core.deliver_of_pending h]
    refine ⟨by rw [Core.latchOwner_syms, Core.resolve_syms], fun j => ?_⟩
    obtain ⟨hstack, hg, ho, hlat, hhw, hhlat⟩ := (x.resolve r.s v).latchOwner_sameRegs k 1 j
    rw [hstack, hg, ho, hlat, hhw, hhlat, Core.resolve_ctx]
    simp [Ctx.mapRegs, Vector.get_eq_getElem, Reg.resolve_fst]
  · unfold Core.deliver
    split
    · next n k hs =>
      split
      · next hn => exact absurd (hn ▸ hs) (h k)
      · rfl
    · rfl

end Sys2Proof.Machine
end

section
/-! PROOF. What a granted access changes. -/

namespace Sys2Proof.Machine

open Stmt

/-- Equal but for the coherence directory and links that have been cleared (R255). -/
structure SameButDir (s t : State) : Prop where
  eq : t = { s with dir := t.dir, links := t.links }
  links : ∀ l ∈ t.links, l ∈ s.links

theorem SameButDir.refl (s : State) : SameButDir s s := ⟨rfl, fun _ h => h⟩

theorem SameButDir.of_frame {s t : State} (h : { t with dir := s.dir, links := s.links } = s) (hl : ∀ l ∈ t.links, l ∈ s.links) :
    SameButDir s t :=
  ⟨congrArg (fun u : State => { u with dir := t.dir, links := t.links }) h, hl⟩

theorem SameButDir.trans {s t u : State} (h : SameButDir s t) (h' : SameButDir t u) : SameButDir s u :=
  ⟨h'.eq.trans (congrArg (fun v : State => { v with dir := u.dir, links := u.links }) h.eq), fun l hl => h.links l (h'.links l hl)⟩

theorem SameButDir.me {s t : State} (h : SameButDir s t) : t.me = s.me := by
  have := congrArg State.me h.eq
  exact this

theorem State.setDir_sameButDir (s : State) (d : Dir) : SameButDir s (s.setDir d) :=
  ⟨rfl, fun _ hl => (List.mem_filter.1 hl).1⟩

theorem State.toHome_sameButDir (s : State) (f : From) (r : Req) (mode : Nat) (lines : List Nat) :
    SameButDir s (s.toHome f r mode lines) := s.setDir_sameButDir _

theorem State.walked_sameButDir (s : State) (f : From) (a : Acc) : SameButDir s (s.walked f a) := by
  unfold State.walked
  split
  · exact .refl s
  · exact s.toHome_sameButDir ..

theorem State.arrive_sameButDir (s : State) (f : From) (a : Acc) (r : Req) : SameButDir s (s.arrive f a r) := by
  have hw := s.walked_sameButDir f a
  unfold State.arrive
  generalize s.walked f a = u at hw
  dsimp only
  split
  · exact hw.trans (u.toHome_sameButDir ..)
  · split
    · exact hw.trans ⟨rfl, fun _ h => h⟩
    · split
      · exact hw
      · exact hw.trans ⟨rfl, fun _ h => h⟩
  · exact hw

/-- Equal but for coherence and what the executing context has written over (R289). -/
structure SameButCoherence (s t : State) : Prop where
  eq : t = ({ s with dir := t.dir, links := t.links } : State).setMe { s.me with wrote := t.me.wrote, ncWrote := t.me.ncWrote }
  links : ∀ l ∈ t.links, l ∈ s.links

theorem SameButDir.sameButCoherence {s t : State} (h : SameButDir s t) : SameButCoherence s t := by
  refine ⟨?_, h.links⟩
  have hself : t = t.setMe t.me := (State.setMe_me t).symm
  rw [h.me]
  calc t = t.setMe s.me := h.me ▸ hself
    _ = _ := congrArg (fun u : State => u.setMe s.me) h.eq

theorem State.modMe_eq_setMe (s : State) (f : Ctx → Ctx) : s.modMe f = s.setMe (s.modMe f).me := by
  rw [State.me_modMe]
  rfl

theorem State.noteWrite_sameButCoherence {s t : State} (h : SameButDir s t) (a : Acc) : SameButCoherence s (t.noteWrite a) := by
  refine ⟨?_, h.links⟩
  have hme : (t.noteWrite a).me = { s.me with wrote := (t.noteWrite a).me.wrote, ncWrote := (t.noteWrite a).me.ncWrote } := by
    unfold State.noteWrite
    simp only [State.me_modMe, h.me]
  have hset : t.noteWrite a = t.setMe (t.noteWrite a).me := by
    unfold State.noteWrite
    exact t.modMe_eq_setMe _
  calc t.noteWrite a = t.setMe (t.noteWrite a).me := hset
    _ = ({ s with dir := t.dir, links := t.links } : State).setMe (t.noteWrite a).me :=
        congrArg (fun u : State => u.setMe (t.noteWrite a).me) h.eq
    _ = _ := congrArg (State.setMe _) hme

theorem State.performAcc_sameButCoherence (s : State) (a : Acc) (r : Req) : SameButCoherence s (s.performAcc a r) := by
  have h := s.arrive_sameButDir (.ofCore s.cur) a r
  unfold State.performAcc
  dsimp only
  split
  · exact State.noteWrite_sameButCoherence h a
  · exact h.sameButCoherence

theorem State.request_eq {s t : State} {a : Acc} {r : Req} (h : s.request a r = .ok t) : t = s.performAcc a r :=
  (State.request_ok h).2

namespace SameButCoherence

theorem refl (s : State) : SameButCoherence s s := (SameButDir.refl s).sameButCoherence

variable {s t u : State} (h : SameButCoherence s t)
include h

theorem me : t.me = { s.me with wrote := t.me.wrote, ncWrote := t.me.ncWrote } :=
  (congrArg State.me h.eq).trans (State.me_setMe _ _)

theorem stack : t.me.stack = s.me.stack := by rw [h.me]
theorem ras : t.me.ras = s.me.ras := by rw [h.me]
theorem pos : t.me.pos = s.me.pos := by rw [h.me]
theorem pc : t.me.pc = s.me.pc := by rw [h.me]
theorem mode : t.me.mode = s.me.mode := by rw [h.me]
theorem spillDepth : t.me.spillDepth = s.me.spillDepth := by rw [h.me]

theorem mem : t.mem = s.mem := by
  have hmem := congrArg State.mem h.eq
  exact hmem

theorem cur : t.cur = s.cur := by
  have hcur := congrArg State.cur h.eq
  exact hcur

theorem slot : t.slot = s.slot := by
  have hslot := congrArg State.slot h.eq
  exact hslot

theorem trans (h' : SameButCoherence t u) : SameButCoherence s u := by
  refine ⟨?_, fun l hl => h.links l (h'.links l hl)⟩
  have hme : ({ t.me with wrote := u.me.wrote, ncWrote := u.me.ncWrote } : Ctx) =
      { s.me with wrote := u.me.wrote, ncWrote := u.me.ncWrote } :=
    congrArg (fun c : Ctx => { c with wrote := u.me.wrote, ncWrote := u.me.ncWrote }) h.me
  have hstate : ({ t with dir := u.dir, links := u.links } : State).setMe { s.me with wrote := u.me.wrote, ncWrote := u.me.ncWrote } =
      ({ s with dir := u.dir, links := u.links } : State).setMe { s.me with wrote := u.me.wrote, ncWrote := u.me.ncWrote } := by
    have hset := congrArg (fun v : State => ({ v with dir := u.dir, links := u.links } : State).setMe
      { s.me with wrote := u.me.wrote, ncWrote := u.me.ncWrote }) h.eq
    exact hset.trans (State.setMe_setMe ({ s with dir := u.dir, links := u.links } : State) _ _)
  exact h'.eq.trans ((congrArg (State.setMe _) hme).trans hstate)

end SameButCoherence

theorem State.requests_sameButCoherence {s t : State} {as : List Acc} {r : Req} (h : s.requests as r = .ok t) :
    SameButCoherence s t := by
  have hfold (as : List Acc) (u : State) (hu : SameButCoherence s u) :
      SameButCoherence s (as.foldl (fun v a => v.performAcc a r) u) := by
    induction as generalizing u with
    | nil => exact hu
    | cons a as ih => exact ih _ (hu.trans (u.performAcc_sameButCoherence a r))
  unfold State.requests at h
  split at h
  · unfold State.await at h
    split at h <;> cases h
  · obtain rfl := Except.ok.inj h
    exact hfold as s (.refl s)

theorem State.recordAccs_sameButCoherence {s t : State} {k : AKind} {r : Req} {va : Word} {ks : List Nat}
    (h : s.recordAccs k r va = .ok (t, ks)) : SameButCoherence s t := by
  obtain ⟨_, -, h⟩ := res_bind_ok.1 h
  obtain ⟨_, -, h⟩ := res_bind_ok.1 h
  obtain ⟨as, -, h⟩ := res_bind_ok.1 h
  obtain ⟨_, -, h⟩ := res_bind_ok.1 h
  obtain ⟨u, hu, h⟩ := res_bind_ok.1 h
  split at h
  · cases h
  · cases h
    exact State.requests_sameButCoherence hu

theorem State.loadAcc_sameButCoherence {s t : State} {w : Win} {ea : Word} {n : Nat} {a : Acc} (h : s.loadAcc w ea n = .ok (t, a)) :
    SameButCoherence s t := by
  obtain ⟨-, -, -, hacc⟩ := State.loadAcc_ok h
  obtain ⟨-, -, -, -, hreq, -⟩ := State.access_ok hacc
  obtain rfl := State.request_eq hreq
  exact s.performAcc_sameButCoherence a .read

theorem State.landFetch_sameButCoherence {s t : State} {e : Word} (h : s.landFetch e = .ok t) : SameButCoherence s t := by
  unfold State.landFetch at h
  split at h
  · cases h
    exact .refl s
  · split at h
    · exact (State.walkWait_ne _ _ _ h).elim
    · cases h
      exact .refl s
    · obtain rfl := State.request_eq h
      exact s.performAcc_sameButCoherence _ .read

/-- Settles O31: a granted access is `performAcc`, which moves the directories and notes a write. -/
theorem accessChangesOnlyCoherence : Obligations.AccessChangesOnlyCoherence := by
  have haccess {s t : State} {k : AKind} {w : Win} {ea : Word} {n : Nat} {r : Req} {a : Acc} (h : s.access k w ea n r a = .ok t) :
      t = s.performAcc a r := by
    obtain ⟨-, -, -, -, hreq, -⟩ := State.access_ok h
    exact State.request_eq hreq
  refine ⟨fun s t k w ea n r a h => ?_, fun s t w ea n a h => ?_, fun s t k w ea n a h => ?_⟩
  · obtain rfl := haccess h
    obtain ⟨heq, hlinks⟩ := s.performAcc_sameButCoherence a r
    exact ⟨heq, hlinks⟩
  · obtain ⟨-, -, hres, hacc⟩ := State.loadAcc_ok h
    obtain rfl := haccess hacc
    obtain ⟨heq, hlinks⟩ := s.arrive_sameButDir (.ofCore s.cur) a .read
    exact ⟨heq, hlinks, hres⟩
  · obtain ⟨-, hres, hacc⟩ := State.storeAcc_ok h
    obtain rfl := haccess hacc
    exact ⟨(s.performAcc_sameButCoherence a .store).eq, hres⟩

end Sys2Proof.Machine
end

section
/-! PROOF. Returns, jump tables, spills and fills. -/

namespace Sys2Proof.Machine

open Stmt

/-! ## Returns (R103) -/

theorem wbits_two_beq_zero_eq (w : Word) : (wbits w 0 2 == 0) = decide (w.toNat % 4 = 0) := by
  rw [Bool.eq_iff_iff, wbits_two_beq_zero, decide_eq_true_iff]

theorem wbits_three_beq_zero_eq (w : Word) : (wbits w 0 3 == 0) = decide (w.toNat % 8 = 0) := by
  rw [Bool.eq_iff_iff, decide_eq_true_iff, beq_iff_eq, wbits, Nat.pow_zero, Nat.div_one]
  rfl

theorem exec_ret_of_below {s : State} {below : Fin 8} {dest : Word} (hmode : s.me.mode ≠ .h) (hpos : s.me.pos.val = below.val + 1)
    (hras : s.me.ras.get below = some dest) :
    exec .ret s = .next (if dest.toNat % 4 = 0 then
        (s.modMe fun t => { t with pos := below, ras := t.ras.set below.val none below.isLt }).goto dest
      else s.takeTrap { cause := .align, addr := dest }) := by
  have hne : ¬s.me.pos = 0 := fun h => by simp [h] at hpos
  obtain rfl : s.me.pos - 1 = below := by
    have := below.isLt
    apply Fin.ext
    rw [Fin.sub_def]
    simp only [Fin.val_one]
    omega
  show complete s s.retOp = _
  rw [State.retOp, check_bind_of_true (bne_iff_ne.2 hmode), if_neg hne]
  dsimp only
  rw [hras, Option.getD_some]
  by_cases halign : dest.toNat % 4 = 0
  · rw [check_bind_of_true ((wbits_two_beq_zero _).2 halign), if_pos halign]
    rfl
  · rw [check_bind_of_false (by simpa [wbits_two_beq_zero_eq] using halign), if_neg halign]
    rfl

theorem exec_ret_of_bottom {s : State} (hmode : s.me.mode ≠ .h) (hpos : s.me.pos = 0) :
    exec .ret s = .next (s.takeTrap { cause := if s.me.spillDepth = 0 then .retEmpty else .fill }) := by
  show complete s s.retOp = _
  rw [State.retOp, check_bind_of_true (bne_iff_ne.2 hmode), if_pos hpos]
  split <;> rfl

theorem check_mode_h {α : Type} {s : State} (hmode : s.me.mode = .h) (f : Unit → Res α) :
    (check (s.me.mode != .h) .permission >>= f) = trap .permission := check_bind_of_false (by simp [hmode]) ..

/-! ## Jump tables (R108 to R112) -/

theorem toNat_append_eq {m n : Nat} (x : BitVec m) (y : BitVec n) : (x ++ y).toNat = x.toNat * 2 ^ n + y.toNat := by
  rw [BitVec.toNat_append, ← Nat.shiftLeft_add_eq_or_of_lt y.isLt, Nat.shiftLeft_eq]

theorem landWord_eq_landOf (label : BitVec 12) : landWord label = landOf label := by
  apply BitVec.eq_of_toNat_eq
  have hlabel := label.isLt
  rw [landWord, landOf, BitVec.toNat_ofNat, toNat_append_eq, toNat_append_eq, toNat_append_eq, toNat_append_eq, toNat_append_eq,
    BitVec.extractLsb'_toNat, BitVec.extractLsb'_toNat, Nat.shiftRight_eq_div_pow]
  simp only [BitVec.toNat_ofNat]
  omega

theorem exec_jumpTable {s : State} {i : Instr} {calls : Bool} {tbl idx n : Src} {imm : BitVec 24} {label : BitVec 12} {lit : Word}
    {len : Nat} (h : JumpTable i calls tbl idx n imm label lit len) :
    exec i s = complete s (s.jumpTable calls tbl idx n imm label lit len) := by
  cases h <;> rfl

section
variable {s : State} {calls : Bool} {tbl idx n : Src} {imm : BitVec 24} {label : BitVec 12} {lit b j l : Word} {len : Nat}
  (hmode : calls = true → s.me.mode ≠ .h) (hj : s.me.src lit idx = .value j) (hl : s.me.src lit n = .value l)
  (hb : (if tbl = .zero then Reg.value s.me.pc else s.me.src lit tbl) = .value b)
include hmode hj hl hb

theorem jumpTable_of_eight_frames (hcalls : calls = true) (hpos : s.me.pos = 7) :
    s.jumpTable calls tbl idx n imm label lit len = trap .spill := by
  subst hcalls
  simp only [State.jumpTable, hj, hl, hb, s.need_three_values, except_ok_bind, if_true]
  rw [check_bind_of_true (bne_iff_ne.2 (hmode rfl)), check_bind_of_false (by simp [hpos])]
  rfl

variable (hpos : calls = true → s.me.pos ≠ 7)
include hpos

theorem jumpTable_of_index_beyond (hle : l.toNat ≤ j.toNat) :
    s.jumpTable calls tbl idx n imm label lit len = trap .jtRange := by
  have hrange {α : Type} (f : Unit → Res α) : (check (decide (j.toNat < l.toNat)) .jtRange >>= f) = trap .jtRange :=
    check_bind_of_false (decide_eq_false (Nat.not_lt.2 hle)) ..
  cases calls with
  | false =>
    simp only [State.jumpTable, hj, hl, hb, s.need_three_values, except_ok_bind, Reg.val, Bool.false_eq_true, if_false]
    exact hrange _
  | true =>
    simp only [State.jumpTable, hj, hl, hb, s.need_three_values, except_ok_bind, Reg.val, if_true]
    rw [check_bind_of_true (bne_iff_ne.2 (hmode rfl)), check_bind_of_true (bne_iff_ne.2 (hpos rfl)), hrange]

theorem jumpTable_of_misaligned (hlt : j.toNat < l.toNat) (hT : (b + sext24 imm).toNat % 8 ≠ 0) :
    s.jumpTable calls tbl idx n imm label lit len = trap .align (b + sext24 imm) := by
  have hrest {α : Type} (f : Unit → Res α) : (check (decide (j.toNat < l.toNat)) .jtRange >>= fun _ =>
      check (wbits (b + sext24 imm) 0 3 == 0) .align (b + sext24 imm) >>= f) = trap .align (b + sext24 imm) := by
    rw [check_bind_of_true (decide_eq_true hlt), check_bind_of_false (by rw [wbits_three_beq_zero_eq, decide_eq_false hT])]
    rfl
  cases calls with
  | false =>
    simp only [State.jumpTable, hj, hl, hb, s.need_three_values, except_ok_bind, Reg.val, Bool.false_eq_true, if_false]
    exact hrest _
  | true =>
    simp only [State.jumpTable, hj, hl, hb, s.need_three_values, except_ok_bind, Reg.val, if_true]
    rw [check_bind_of_true (bne_iff_ne.2 (hmode rfl)), check_bind_of_true (bne_iff_ne.2 (hpos rfl))]
    exact hrest _

theorem jumpTable_of_entry {s1 s2 : State} {a : Acc} (hlt : j.toNat < l.toNat) (hT : (b + sext24 imm).toNat % 8 = 0)
    (hload : s.loadAcc .glob (b + sext24 imm + (j <<< 3)) 8 = .ok (s1, a)) (he : (word (s1.valAcc a 8)).toNat % 4 = 0)
    (hland : s1.landFetch (word (s1.valAcc a 8)) = .ok s2) :
    s.jumpTable calls tbl idx n imm label lit len =
      landCheck ((if calls then s2.modMe fun t => t.push (t.pc + word len) else s2).goto (word (s1.valAcc a 8))) s.me.pc label := by
  have hentry := (wbits_two_beq_zero _).2 he
  have htable := (wbits_three_beq_zero_eq (b + sext24 imm)).trans (decide_eq_true hT)
  cases calls with
  | false =>
    simp only [State.jumpTable, hj, hl, hb, s.need_three_values, except_ok_bind, Reg.val, Bool.false_eq_true, if_false]
    rw [check_bind_of_true (decide_eq_true hlt), check_bind_of_true htable, hload]
    dsimp only
    rw [check_bind_of_true hentry, hland, except_ok_bind]
  | true =>
    simp only [State.jumpTable, hj, hl, hb, s.need_three_values, except_ok_bind, Reg.val, if_true]
    rw [check_bind_of_true (bne_iff_ne.2 (hmode rfl)), check_bind_of_true (bne_iff_ne.2 (hpos rfl)),
      check_bind_of_true (decide_eq_true hlt), check_bind_of_true htable, hload]
    dsimp only
    rw [check_bind_of_true hentry, hland, except_ok_bind]

end

theorem landCheck_of_fetchWord {t : State} {br : Word} {label : BitVec 12} {w : BitVec 32} (hw : t.fetchWord t.cur t.me.pc = .ok w) :
    landCheck t br label = if w = landOf label then .ok t else .error (.trapAt { cause := .landMismatch, addr := br } t) := by
  rw [landCheck, hw, landWord_eq_landOf]

theorem complete_landCheck (s : State) {t : State} {e : Word} (br : Word) {label : BitVec 12} {w : BitVec 32} (hpc : t.me.pc = e)
    (hw : t.fetchWord t.cur e = .ok w) :
    complete s (landCheck t br label) = .next (if w = landOf label then t else t.takeTrap { cause := .landMismatch, addr := br }) := by
  rw [landCheck_of_fetchWord (by rw [hpc]; exact hw)]
  split <;> rfl

theorem shl_three (w : Word) : w <<< 3 = 8 * w := by
  apply BitVec.eq_of_toNat_eq
  rw [BitVec.toNat_shiftLeft, BitVec.toNat_mul, Nat.shiftLeft_eq, Nat.mul_comm, show (8 : Word).toNat = 2 ^ 3 from rfl]

theorem State.modMe_congr {s : State} {f g : Ctx → Ctx} (h : f s.me = g s.me) : s.modMe f = s.modMe g := by
  rw [s.modMe_eq_setMe f, s.modMe_eq_setMe g, State.me_modMe, State.me_modMe, h]

/-- Settles O25. -/
theorem returnsAndJumpTables : Obligations.ReturnsAndJumpTables := by
  refine ⟨fun s below dest hmode hpos hras => exec_ret_of_below hmode hpos hras, fun s hmode hpos => exec_ret_of_bottom hmode hpos,
    fun s hmode => ⟨?_, fun i off len h => ?_⟩, fun s i calls tbl idx n imm label lit b j l len h hmode hj hl hb => ?_⟩
  · show complete s s.retOp = _
    rw [State.retOp, check_mode_h hmode]
    rfl
  · rw [exec_call h, State.callOp, check_mode_h hmode]
    rfl
  · rw [exec_jumpTable h]
    refine ⟨fun hcalls hpos => ?_, fun hpos => ⟨fun hle => ?_, fun hlt hT => ?_, fun hlt hT s1 s2 a w hload he hland => ?_⟩⟩
    · rw [jumpTable_of_eight_frames hmode hj hl hb hcalls hpos]
      rfl
    · rw [jumpTable_of_index_beyond hmode hj hl hb hpos hle]
      rfl
    · rw [jumpTable_of_misaligned hmode hj hl hb hpos hlt hT]
      rfl
    · intro e t hw
      have hpc : s2.me.pc = s.me.pc := (State.landFetch_sameButCoherence hland).pc.trans (State.loadAcc_sameButCoherence hload).pc
      have hentry : (word (s1.valAcc a 8)).toNat % 4 = 0 := by
        rw [word, BitVec.toNat_ofNat]
        omega
      rw [jumpTable_of_entry hmode hj hl hb hpos hlt hT (by rw [shl_three]; exact hload) hentry hland]
      have hpush : (s2.modMe fun c => c.push (c.pc + word len)) = s2.modMe fun c => c.push (s.me.pc + word len) :=
        State.modMe_congr (by rw [hpc])
      rw [hpush]
      exact complete_landCheck s s.me.pc (t := t) (by rw [State.goto_me]) hw

/-! ## Spills and fills (R104 to R107) -/

theorem spillAddr_add_eq (t : Ctx) (n : Nat) : t.spillAddr + word (144 * n) = spillRecord t n := by
  apply BitVec.eq_of_toNat_eq
  have hbase := t.spillBase.isLt
  rw [BitVec.toNat_add, Ctx.spillAddr, BitVec.toNat_setWidth, toNat_append_eq, word, spillRecord, BitVec.toNat_ofNat,
    BitVec.toNat_ofNat, show (0 : BitVec 4).toNat = 0 from rfl, Nat.add_zero,
    Nat.mod_eq_of_lt (by omega : t.spillBase.toNat * 2 ^ 4 < 2 ^ 64), show (2 : Nat) ^ 4 = 16 from rfl, Nat.add_mod_mod]

theorem flatMap_regVal_eq (ws : List Word) :
    (ws.map Reg.value).flatMap (fun r => leBytes 8 r.val.toNat) = ws.flatMap fun w => leBytes 8 w.toNat := List.flatMap_map ..

/-- The context once its oldest frame is spilled (R105). -/
def Ctx.spilled (t : Ctx) : Ctx :=
  { t with
    spillDepth := t.spillDepth + 1
    pos := t.pos - 1
    stack := Vector.ofFn fun i => if h : i.val + 16 < 136 then t.stack.get ⟨i.val + 16, h⟩ else .value 0
    ras := Vector.ofFn fun i => if h : i.val + 1 < 8 then t.ras.get ⟨i.val + 1, h⟩ else none }

/-- The context once the frame with the 144 bytes `bs` is filled (R106). -/
def Ctx.filled (t : Ctx) (bs : List Byte) : Ctx :=
  { t with
    spillDepth := t.spillDepth - 1
    pos := t.pos + 1
    stack := Vector.ofFn fun i =>
      if i.val < 16 then .value (word (leNat ((bs.drop (8 * i.val)).take 8))) else
        t.stack.get ⟨i.val - 16, by have := i.isLt; omega⟩
    ras := Vector.ofFn fun i =>
      if i.val = 0 then some (word (leNat ((bs.drop (8 * 16)).take 8))) else
        t.ras.get ⟨i.val - 1, by have := i.isLt; omega⟩ }

theorem exec_spillw_of_record {s s1 : State} {ws : List Word} {ret : Word} {ks : List Nat} (hmode : s.me.mode ≠ .u) (hpos : s.me.pos ≠ 0)
    (hdepth : s.me.spillDepth.toNat < s.me.spillLimit.toNat) (hws : s.me.stack.toList.take 16 = ws.map .value)
    (hret : s.me.ras.get 0 = some ret)
    (hrec : s.recordAccs .spill .store (spillRecord s.me s.me.spillDepth.toNat) = .ok (s1, ks)) :
    exec .spillw s = .next (((s1.write s1.self ks (spillBytes ws ret)).modMe Ctx.spilled).advance 4) := by
  show complete s s.spillOp = _
  rw [State.spillOp, check_bind_of_true (bne_iff_ne.2 hmode), if_neg hpos, check_bind_of_true (decide_eq_true hdepth), hws]
  dsimp only
  rw [s.need_values, except_ok_bind, spillAddr_add_eq, hrec, except_ok_bind, hret, flatMap_regVal_eq]
  rfl

theorem exec_fillw_of_record {s s1 : State} {ks : List Nat} (hmode : s.me.mode ≠ .u) (hdepth : s.me.spillDepth ≠ 0) (hpos : s.me.pos ≠ 7)
    (hrec : s.recordAccs .fill .read (spillRecord s.me (s.me.spillDepth.toNat - 1)) = .ok (s1, ks)) :
    exec .fillw s = .next ((s1.modMe fun t => t.filled (s1.bytesAt ks)).advance 4) := by
  show complete s s.fillOp = _
  rw [State.fillOp, check_bind_of_true (bne_iff_ne.2 hmode), if_neg (not_or.2 ⟨hdepth, hpos⟩)]
  dsimp only
  rw [spillAddr_add_eq, hrec, except_ok_bind]
  rfl

/-- Settles O26. -/
theorem spillAndFill : Obligations.SpillAndFill := by
  refine ⟨fun s hmode => ⟨?_, ?_⟩, fun s hmode => ⟨fun hpos => ?_, fun hstay => ?_, fun hpos hlimit => ?_⟩,
    fun s s1 ws ret ks hmode hpos hdepth hws hret hparked hrec => ?_, fun s s1 ks hmode hdepth hpos hparked hrec => ?_⟩
  · show complete s s.spillOp = _
    rw [State.spillOp, check_bind_of_false (by simp [hmode])]
    rfl
  · show complete s s.fillOp = _
    rw [State.fillOp, check_bind_of_false (by simp [hmode])]
    rfl
  · show complete s s.spillOp = _
    rw [State.spillOp, check_bind_of_true (bne_iff_ne.2 hmode), if_pos hpos]
    rfl
  · show complete s s.fillOp = _
    rw [State.fillOp, check_bind_of_true (bne_iff_ne.2 hmode), if_pos hstay]
    rfl
  · show complete s s.spillOp = _
    rw [State.spillOp, check_bind_of_true (bne_iff_ne.2 hmode), if_neg hpos, spillAddr_add_eq,
      check_bind_of_false (decide_eq_false (Nat.not_lt.2 hlimit))]
    rfl
  · have hcoh := State.recordAccs_sameButCoherence hrec
    refine ⟨_, exec_spillw_of_record hmode hpos hdepth hws hret hrec, rfl, ?_⟩
    rw [State.advance_me, State.me_modMe, State.write_me]
    refine ⟨rfl, rfl, rfl, fun i h => ?_, fun i h => ?_, fun i h => ?_⟩
    · exact (Vector.get_ofFn _ i).trans ((dif_pos h).trans (by rw [hcoh.stack]))
    · exact (Vector.get_ofFn _ i).trans (dif_neg (by omega))
    · exact (Vector.get_ofFn _ i).trans ((dif_pos h).trans (by rw [hcoh.ras]))
  · have hcoh := State.recordAccs_sameButCoherence hrec
    refine ⟨_, exec_fillw_of_record hmode hdepth hpos hrec, rfl, ?_⟩
    rw [State.advance_me, State.me_modMe]
    refine ⟨rfl, rfl, rfl, fun i h => ?_, fun i h hge => ?_, ?_⟩
    · exact (Vector.get_ofFn _ i).trans (if_pos h)
    · exact (Vector.get_ofFn _ i).trans ((if_neg (by omega)).trans (by rw [hcoh.stack]))
    · exact (Vector.get_ofFn _ 0).trans (if_pos rfl)

end Sys2Proof.Machine
end

section
/-! PROOF. The checks of an access in their order, and accesses that nothing holds up. -/

namespace Sys2Proof.Machine

open Stmt

/-! ## Global memory (R127, orders 5 to 9) -/

theorem placeOf_of_lt {pm : PartMode} {p pa : Nat} (h : pa < partSize pm) : placeOf pm p pa = .dev (devKey pm p pa) := if_pos h

theorem State.global_of_walk_error {s : State} {l : Launch} {k : AKind} {va : Word} {n : Nat} {mode : Mode} {e : AccErr}
    (hwalk : s.walk l va = .error e) : s.global l k va n (mode := mode) = .error e := by
  rw [State.global, hwalk, except_error_bind]

theorem State.global_of_refused {s : State} {l : Launch} {k : AKind} {va : Word} {n : Nat} {mode : Mode} {f : Leaf}
    (hwalk : s.walk l va = .ok f) (hallows : f.allows k mode = false) :
    s.global l k va n (mode := mode) = .error (.fault .permission va) := by
  rw [State.global, hwalk, except_ok_bind, hallows]
  rfl

theorem State.global_of_dev {s : State} {l : Launch} {k : AKind} {va : Word} {n : Nat} {mode : Mode} {f : Leaf}
    (hk : k ∈ [.load, .store]) (hwalk : s.walk l va = .ok f) (hallows : f.allows k mode = true) (hin : f.addr va < partSize s.pm) :
    s.global l k va n (mode := mode) =
      (let ks := range (devKey s.pm l.part (f.addr va)) n
      if f.tagged && ks.any fun a => s.tagAt a != va.toNat / 2 ^ 56 % 16 then .error (.fault .tag va)
      else if (k.reads && (ks.all fun m => (s.dir.line (m / 64)).st != .ho) && s.poisoned ks) || s.quarantined ks then .error (.fault .poison va)
      else .ok { keys := ks, place := .dev (devKey s.pm l.part (f.addr va)), coh := f.coh, tagged := f.tagged, mode := f.mode,
                 part := l.part, walked := f.walked }) := by
  have hvec : k.vector = false := by rcases List.mem_pair.1 hk with rfl | rfl <;> rfl
  have hspill : (k == .spill || k == .fill) = false := by rcases List.mem_pair.1 hk with rfl | rfl <;> rfl
  have hbar : (k == .barrier || k == .barrierRead) = false := by rcases List.mem_pair.1 hk with rfl | rfl <;> rfl
  have hdead (ks : List Nat) : s.agentDead l.part (.dev (devKey s.pm l.part (f.addr va))) f.coh ks = false := rfl
  simp only [State.global, hwalk, except_ok_bind, except_error_bind, hallows, placeOf_of_lt hin, hvec, hspill, hbar, hdead,
    State.current, Bool.not_true, Bool.not_false, Bool.true_and, Bool.and_true, Bool.false_and, Bool.and_false, Bool.or_false,
    Bool.false_eq_true, if_false]

theorem State.global_of_lm {s : State} {l : Launch} {k : AKind} {va : Word} {n : Nat} {mode : Mode} {f : Leaf} {c : CoreId} {w : Win}
    {off : Nat} {ks : List Nat} (hvec : k.vector = false) (hwalk : s.walk l va = .ok f) (hallows : f.allows k mode = true)
    (hplace : placeOf s.pm l.part (f.addr va) = .lm c (some w) off) (htag : f.tagged = false)
    (hkeys : s.apertureKeys l k c (some w) off n va = .ok ks) (hpoison : s.poisoned ks = false) (hquar : s.quarantined ks = false) :
    s.global l k va n (mode := mode) =
      .ok { keys := ks, place := .lm c (some w) off, coh := f.coh, mode := f.mode, part := l.part, walked := f.walked } := by
  have hdead (ks : List Nat) : s.agentDead l.part (.lm c (some w) off) f.coh ks = false := rfl
  simp only [State.global, hwalk, except_ok_bind, except_error_bind, hallows, hplace, hvec, hdead, hkeys, htag, hpoison, hquar,
    Bool.not_true, Bool.not_false, Bool.true_and, Bool.false_and, Bool.and_false, Bool.or_false,
    Bool.false_eq_true, if_false]

/-! ## Windows (R127, orders 1 and 3) -/

theorem State.windowKeys_of_no_pairs {s : State} {c : CoreId} {l : Launch} {w : Win} {off n : Nat} (hpairs : l.pairs = [])
    (hin : off + n ≤ l.split.size w) : s.windowKeys c l w off n = some (range (lmKey c w off) n) := by
  rw [State.windowKeys, if_neg (by omega), hpairs]
  simp [range, lmKey, Function.comp_def, Nat.add_assoc]

theorem State.ownWindow_of_refused {s : State} {l : Launch} {k : AKind} {w : Win} {ea : Word} {n align : Nat}
    (h : k.window w = false ∨ l.split.size w ≤ ea.toNat) : s.ownWindow l k w ea n align = .error (.fault .window ea) :=
  if_pos (by simpa using h)

theorem State.ownWindow_of_no_pairs {s : State} {l : Launch} {k : AKind} {w : Win} {ea : Word} {n align : Nat} (hpairs : l.pairs = [])
    (hwin : k.window w = true) (hoff : ea.toNat < l.split.size w) :
    s.ownWindow l k w ea n align =
      if ea.toNat % align ≠ 0 then .error (.fault .align ea) else
      match s.windowKeys s.cur l w ea.toNat n with
      | none => .error (.fault .window ea)
      | some ks => .ok { keys := ks, place := .lm s.cur (some w) ea.toNat } := by
  rw [State.ownWindow, if_neg (by simpa [hwin] using hoff), State.windowKeys_of_no_pairs hpairs (by omega)]
  rfl

theorem State.resolve_own {s : State} {k : AKind} {w : Win} {ea : Word} {n align : Nat} (hw : w ≠ .glob) :
    s.resolve k w ea n align = s.ownWindow s.myLaunch k w ea n align := by
  cases w with
  | glob => exact absurd rfl hw
  | W => rfl
  | A => rfl
  | C => rfl
  | G => rfl

theorem State.resolve_glob {s : State} {k : AKind} {ea : Word} {n align : Nat} (h : ea.toNat % align = 0) :
    s.resolve k .glob ea n align = s.global s.myLaunch k ea n (mode := s.me.mode) := if_neg (by simpa using h)

/-! ## Accesses that nothing holds up -/

theorem State.accessGate_of_free {s : State} (hacq : s.me.acqWait = false) (hpark : s.me.replayQ = []) : s.accessGate = .ok () := by
  rw [State.accessGate, waitFor_ok, hacq, hpark]
  rfl

theorem Ctx.parkedOn_of_nil {t : Ctx} (hpark : t.replayQ = []) (va : Word) (n : Nat) : t.parkedOn va n = false := by
  simp [Ctx.parkedOn, hpark]

theorem State.parkGate_of_nil {s : State} (hpark : s.me.replayQ = []) (w : Win) (ea : Word) (n align : Nat) :
    s.parkGate w ea n align = .ok () := by
  rw [State.parkGate, waitFor_ok, Ctx.parkedOn_of_nil hpark, Bool.and_false, Bool.not_false]

theorem State.touchGate_of_clear {s : State} {w : Win} {ea : Word} {n : Nat} (h : w = .glob ∨ s.myCore.touched w ea.toNat n = .clear) :
    s.touchGate w ea n = .ok () := by
  cases w with
  | glob => rfl
  | W | A | C | G =>
    have h := h.resolve_left nofun
    simp only [State.touchGate, h]

theorem State.request_of_free {s : State} {a : Acc} {r : Req} (h : s.demand (.ofCore s.cur) a r = none) :
    s.request a r = .ok (performed s a r) := by
  rw [State.request, h]
  rfl

theorem State.demand_lm {s : State} {f : From} {a : Acc} {r : Req} {c : CoreId} {w : Option Win} {off : Nat} (hplace : a.place = .lm c w off)
    (hcross : s.crossHeld f a.keys = false) (hreserve : r.writes = true → s.reserveFull (a.keys.map pageOf) = false) :
    s.demand f a r = none := by
  have hwrites : (r.writes && s.reserveFull (a.keys.map pageOf)) = false := by cases h : r.writes <;> simp [hreserve, h]
  have hhead : s.headHeld f a = false := by rw [State.headHeld, hplace]
  rw [State.demand, hcross, hhead, hwrites, hplace]
  rfl

theorem State.demand_dev {s : State} {f : From} {a : Acc} {r : Req} {d : Nat} (hplace : a.place = .dev d)
    (hcross : s.crossHeld f a.keys = false) (hreserve : r.writes = true → s.reserveFull (a.keys.map pageOf) = false)
    (hsnoop : ∀ m ∈ linesOf a.keys, s.dir.needsSnoop r m = false) : s.demand f a r = none := by
  have hwrites : (r.writes && s.reserveFull (a.keys.map pageOf)) = false := by cases h : r.writes <;> simp [hreserve, h]
  have hhead : s.headHeld f a = false := by rw [State.headHeld, hplace]
  have hneed : (linesOf a.keys).filter (s.dir.needsSnoop r) = [] := by simpa [List.filter_eq_nil_iff] using hsnoop
  rw [State.demand, hcross, hhead, hwrites, hplace]
  simp only [hneed]
  rfl

theorem State.access_of_free {s : State} {k : AKind} {w : Win} {ea : Word} {n : Nat} {r : Req} {a : Acc}
    (htouch : s.touchGate w ea n = .ok ()) (hvq : s.me.vqTouches a.keys = false) (hpark : s.me.replayQ = [])
    (hpoison : w = .glob ∨ s.poisoned a.keys = false) (hdemand : s.demand (.ofCore s.cur) a r = none) (hhost : a.ncHost = false) :
    s.access k w ea n r a = .ok (performed s a r) := by
  have hcheck : check (w == .glob || !k.reads || !s.poisoned a.keys) .poison ea = .ok () := by
    rw [check_ok]
    rcases hpoison with rfl | h
    · rfl
    · simp [h]
  have hwait : waitFor (!s.me.vqTouches a.keys && !(w == .glob && k.reads && s.me.parkedOn ea n)) = .ok () := by
    simp [hvq, Ctx.parkedOn_of_nil hpark]
  rw [State.access, htouch, except_ok_bind, hwait, except_ok_bind, hcheck, except_ok_bind, State.request_of_free hdemand, except_ok_bind, hhost,
    Bool.and_false, Bool.false_and]
  rfl

theorem State.apertureKeys_of_bound {s : State} {l : Launch} {k : AKind} {c : CoreId} {w : Win} {off n : Nat} {va : Word}
    (hcore : (s.core c).launch = some l.id) (hpart : s.partOf c = l.part) (hwin : k.window w = true) (hpairs : l.pairs = [])
    (hin : off + n ≤ l.split.size w) : s.apertureKeys l k c (some w) off n va = .ok (range (lmKey c w off) n) := by
  simp [State.apertureKeys, hcore, hpart, hwin, State.windowKeys_of_no_pairs hpairs hin]

section
variable {s : State} {k : AKind} {w : Win} {ea : Word} {n : Nat} {r : Req} {a : Acc}

/-- What `Reached` says passes the checks of R127. -/
theorem State.resolve_of_reached (hk : k ∈ [.load, .store, .barrier, .barrierRead]) (hn : 0 < n) (h : Reached s k w ea n r a) :
    s.resolve k w ea n n = .ok a := by
  obtain ⟨-, -, halign, -, hpoison, hpairs, -, -, ⟨hw, hwin, hin, -, rfl⟩ | ⟨rfl, hquar, f, hwalk, hallows, htag, h⟩⟩ := h
  · rw [State.resolve_own hw, State.ownWindow_of_no_pairs hpairs hwin (by omega), if_neg (by simpa using halign),
      State.windowKeys_of_no_pairs hpairs hin]
  · rw [State.resolve_glob halign]
    rcases h with ⟨c, v, off, hplace, hcore, hpart, hwin, hin, rfl⟩ | ⟨hbar, hin, hsnoop, rfl⟩
    · have hvec : k.vector = false := by fin_cases hk <;> rfl
      exact State.global_of_lm hvec hwalk hallows hplace htag (State.apertureKeys_of_bound hcore hpart hwin hpairs hin) hpoison hquar
    · have hk : k ∈ [.load, .store] := by fin_cases hk <;> simp at hbar ⊢
      rw [State.global_of_dev hk hwalk hallows hin]
      dsimp only at hpoison hquar ⊢
      rw [hpoison, hquar, htag]
      simp

theorem State.demand_of_reached (h : Reached s k w ea n r a) : s.demand (.ofCore s.cur) a r = none := by
  obtain ⟨-, -, -, -, -, -, hcross, hreserve, ⟨-, -, -, -, rfl⟩ | ⟨-, -, f, -, -, -, ⟨c, v, off, -, -, -, -, -, rfl⟩ | ⟨-, -, hsnoop, rfl⟩⟩⟩ := h
  · exact State.demand_lm rfl hcross hreserve
  · exact State.demand_lm rfl hcross hreserve
  · exact State.demand_dev rfl hcross hreserve hsnoop

theorem State.access_of_reached (h : Reached s k w ea n r a) : s.access k w ea n r a = .ok (performed s a r) := by
  have hdemand := State.demand_of_reached h
  obtain ⟨-, hpark, -, hvq, hpoison, -, -, -, ⟨-, -, -, htouch, rfl⟩ | ⟨rfl, -, f, -, -, -, ⟨c, v, off, -, -, -, -, -, rfl⟩ | ⟨-, -, -, rfl⟩⟩⟩ := h
  · exact State.access_of_free (State.touchGate_of_clear (.inr htouch)) hvq hpark (.inr hpoison) hdemand rfl
  · exact State.access_of_free rfl hvq hpark (.inl rfl) hdemand (Bool.and_false _)
  · exact State.access_of_free rfl hvq hpark (.inl rfl) hdemand (Bool.and_false _)

theorem State.accessGate_of_reached (h : Reached s k w ea n r a) : s.accessGate = .ok () :=
  have ⟨hacq, hpark, _⟩ := h
  State.accessGate_of_free hacq hpark

theorem State.storeAcc_of_reached (hk : k ∈ [.load, .store, .barrier, .barrierRead]) (hn : 0 < n) (h : Reached s k w ea n .store a) :
    s.storeAcc k w ea n = .ok (performed s a .store, a) := by
  rw [State.storeAcc, State.accessGate_of_reached h, except_ok_bind, State.resolve_of_reached hk hn h, State.precise_of_ok, except_ok_bind,
    State.access_of_reached h, except_ok_bind]

theorem State.loadAcc_of_reached (hn : 0 < n) (h : Reached s .load w ea n .read a) : s.loadAcc w ea n = .ok (performed s a .read, a) := by
  rw [State.loadAcc, State.accessGate_of_reached h, except_ok_bind, State.parkGate_of_nil h.2.1, except_ok_bind,
    State.resolve_of_reached (by simp) hn h, State.precise_of_ok, except_ok_bind, State.access_of_reached h, except_ok_bind]

end

/-! ## Accesses of a core to its own windows -/

theorem keyDie_lmKey {pm : PartMode} {c : CoreId} {w : Win} {off : Nat} (hoff : off < 2 ^ 20) :
    keyDie pm (lmKey c w off) = some c.die.val := by
  have hcode : w.code.toNat ≤ 4 := by cases w <;> decide
  have hlocal : c.local < 128 := Nat.mod_lt _ (by omega)
  have hdie := c.die.isLt
  have hlow : ¬lmKey c w off < hostBase := by simp only [lmKey, apBase, hostBase]; omega
  have hhigh : apBase ≤ lmKey c w off := by simp only [lmKey]; omega
  rw [keyDie, if_neg hlow, if_pos hhigh, Option.some_inj]
  simp only [lmKey, apBase]
  omega

theorem cutPage_lmKey (s : State) (c : CoreId) (w : Win) (off : Nat) : s.cutPage (pageOf (lmKey c w off)) = false := by
  have hpage : ¬pageOf (lmKey c w off) * 65536 < 768 * 2 ^ 30 := by simp only [pageOf, lmKey, apBase]; omega
  simp only [State.cutPage, decide_eq_false hpage, Bool.and_false, Bool.false_and]

theorem mem_range {a n k : Nat} : k ∈ range a n ↔ ∃ i < n, k = a + i := by
  simp [range, eq_comm]

theorem lmKey_add (c : CoreId) (w : Win) (off i : Nat) : lmKey c w off + i = lmKey c w (off + i) := by
  simp only [lmKey, Nat.add_assoc]

section
variable {s : State} {w : Win} {off n : Nat}

theorem State.crossHeld_own (h : off + n ≤ 2 ^ 20) : s.crossHeld (.ofCore s.cur) (range (lmKey s.cur w off) n) = false := by
  rw [State.crossHeld, List.any_eq_false]
  intro k hk
  obtain ⟨i, hi, rfl⟩ := mem_range.1 hk
  rw [lmKey_add, keyDie_lmKey (by omega)]
  simp [From.ofCore]

theorem State.reserveFull_lm (s : State) (c : CoreId) (w : Win) (off n : Nat) :
    s.reserveFull ((range (lmKey c w off) n).map pageOf) = false := by
  have hcut : ((range (lmKey c w off) n).map pageOf).any s.cutPage = false := by
    rw [List.any_map, List.any_eq_false]
    intro k hk
    obtain ⟨i, -, rfl⟩ := mem_range.1 hk
    rw [lmKey_add, Function.comp_apply, cutPage_lmKey]
    exact Bool.false_ne_true
  rw [State.reserveFull, hcut, Bool.and_false, Bool.false_and]

theorem State.linksUsed_own (h : off + n ≤ 2 ^ 20) :
    s.linksUsed { keys := range (lmKey s.cur w off) n, place := .lm s.cur (some w) off } = [] := by
  have hfar : ((range (lmKey s.cur w off) n).filterMap (keyDie s.pm)).dedup.filter (· != s.cur.die.val) = [] := by
    rw [List.filter_eq_nil_iff]
    intro d hd
    obtain ⟨k, hk, hkd⟩ := List.mem_filterMap.1 (List.mem_dedup.1 hd)
    obtain ⟨i, hi, rfl⟩ := mem_range.1 hk
    rw [lmKey_add, keyDie_lmKey (by omega)] at hkd
    simp [Option.some.inj hkd]
  simp only [State.linksUsed, State.linksOf, hfar]
  rfl

theorem State.modMe_of_eq {s : State} {f : Ctx → Ctx} (h : f s.me = s.me) : s.modMe f = s := by
  rw [s.modMe_eq_setMe, State.me_modMe, h, State.setMe_me]

/-- An access of a core to its own window moves no directory and crosses no link. -/
theorem performed_own (h : off + n ≤ 2 ^ 20) (r : Req) :
    performed s { keys := range (lmKey s.cur w off) n, place := .lm s.cur (some w) off } r = s := by
  have hnote : s.noteWrite { keys := range (lmKey s.cur w off) n, place := .lm s.cur (some w) off } = s := by
    rw [State.noteWrite, State.linksUsed_own h]
    exact State.modMe_of_eq rfl
  have harrive : s.arrive (.ofCore s.cur) { keys := range (lmKey s.cur w off) n, place := .lm s.cur (some w) off } r = s := rfl
  rw [performed, harrive, hnote]
  exact ite_self _

theorem reached_own {k : AKind} {ea : Word} {r : Req} (hw : w ≠ .glob) (hwin : k.window w = true) (hpairs : s.myLaunch.pairs = [])
    (hsize : s.myLaunch.split.size w ≤ 2 ^ 20) (hin : ea.toNat + n ≤ s.myLaunch.split.size w) (halign : ea.toNat % n = 0)
    (h : Unhindered s w ea.toNat n) :
    Reached s k w ea n r { keys := range (lmKey s.cur w ea.toNat) n, place := .lm s.cur (some w) ea.toNat } := by
  obtain ⟨hacq, hpark, htouch, hvq, hpoison⟩ := h
  exact ⟨hacq, hpark, halign, hvq, hpoison, hpairs, State.crossHeld_own (by omega), fun _ => State.reserveFull_lm .., .inl ⟨hw, hwin, hin, htouch, rfl⟩⟩

end

theorem size_pos {n : Nat} (hn : n ∈ [1, 2, 4, 8, 64]) : 0 < n := by fin_cases hn <;> decide

section
variable {s : State} {ea : Word} {n : Nat} {a : Acc} (hacq : s.me.acqWait = false) (hpark : s.me.replayQ = [])
include hacq hpark

theorem State.loadAcc_of_fault {w : Win} {c : Cause} {b : Word} (h : s.resolve .load w ea n n = .error (.fault c b)) :
    s.loadAcc w ea n = trap c b := by
  rw [State.loadAcc, State.accessGate_of_free hacq hpark, except_ok_bind, State.parkGate_of_nil hpark, except_ok_bind, h]
  rfl

theorem State.storeAcc_of_fault {k : AKind} {w : Win} {c : Cause} {b : Word} (h : s.resolve k w ea n n = .error (.fault c b)) :
    s.storeAcc k w ea n = trap c b := by
  rw [State.storeAcc, State.accessGate_of_free hacq hpark, except_ok_bind, h]
  rfl

end

theorem AKind.load_window {w : Win} (h : w ≠ .C) : AKind.load.window w = true := by cases w <;> trivial

theorem AKind.store_window {w : Win} (hW : w ≠ .W) (hC : w ≠ .C) : AKind.store.window w = true := by cases w <;> trivial

/-- Settles O29. -/
theorem ownWindowAccess : Obligations.OwnWindowAccess := by
  intro s w ea n hn hpairs
  have hpos : 0 < n := by fin_cases hn <;> decide
  refine ⟨fun hw hsize hin halign h => ?_, fun hw hacq hpark => ?_⟩
  · have hglob : w ≠ .glob := by fin_cases hw <;> decide
    have hC : w ≠ .C := by fin_cases hw <;> decide
    have hreached (k : AKind) (r : Req) (hwin : k.window w = true) := reached_own (r := r) hglob hwin hpairs hsize hin halign h
    refine ⟨?_, fun hW => ?_⟩
    · rw [State.loadAcc_of_reached hpos (hreached .load .read (AKind.load_window hC)), performed_own (by omega)]
    · rw [State.storeAcc_of_reached (by simp) hpos (hreached .store .store (AKind.store_window hW hC)), performed_own (by omega)]
  · have hglob : w ≠ .glob := by fin_cases hw <;> decide
    refine ⟨fun hout => State.loadAcc_of_fault hacq hpark ?_, fun hwc => State.storeAcc_of_fault hacq hpark ?_,
      fun hC hoff hmis => State.loadAcc_of_fault hacq hpark ?_⟩
    · rw [State.resolve_own hglob]
      exact State.ownWindow_of_refused (hout.imp (fun hC => by rw [hC]; rfl) id)
    · rw [State.resolve_own hglob]
      exact State.ownWindow_of_refused (.inl (by rcases hwc with rfl | rfl <;> rfl))
    · rw [State.resolve_own hglob, State.ownWindow_of_no_pairs hpairs (AKind.load_window hC) hoff, if_pos hmis]

/-! ## The order of the checks -/

theorem Leaf.allows_iff {f : Leaf} {k : AKind} {mode : Mode} (hk : k ∈ [.load, .store]) :
    f.allows k mode = true ↔ (f.ua = true ∨ mode ∈ [.s, .m]) ∧ (k = .store → f.ro = false ∧ f.fg = false) := by
  fin_cases hk <;> cases mode <;> simp [Leaf.allows, AKind.writes]

theorem tag_toNat (ea : Word) : (ea.extractLsb' 56 4).toNat = ea.toNat / 2 ^ 56 % 16 := by
  rw [BitVec.extractLsb'_toNat, Nat.shiftRight_eq_div_pow]

/-- Settles O30. -/
theorem accessChecksInOrder : Obligations.AccessChecksInOrder := by
  refine ⟨fun s k ea n f hk => ⟨fun hmis => if_pos hmis, fun halign => ⟨fun e hwalk => ?_, fun hwalk => ⟨fun hrefused => ?_, fun hua hro hin => ?_⟩⟩⟩,
    fun s w ea n a hn => ⟨State.loadAcc_of_reached (size_pos hn), State.storeAcc_of_reached (by simp) (size_pos hn)⟩⟩
  · rw [State.resolve_glob halign, State.global_of_walk_error hwalk]
  · rw [State.resolve_glob halign, State.global_of_refused hwalk]
    rw [← Bool.not_eq_true, Leaf.allows_iff hk]
    rintro ⟨hua, hro⟩
    rcases hrefused with ⟨hua', hmode⟩ | ⟨hstore, hbits⟩
    · rw [hua'] at hua
      have hmode' := hua.resolve_left nofun
      revert hmode hmode'
      cases s.me.mode <;> decide
    · have := hro hstore
      simp [this] at hbits
  · rw [State.resolve_glob halign, State.global_of_dev hk hwalk ((Leaf.allows_iff hk).2 ⟨hua, hro⟩) hin, ← tag_toNat]
    have htag (l : List Nat) : (f.tagged && l.any fun a => s.tagAt a != (ea.extractLsb' 56 4).toNat) = true ↔
        f.tagged = true ∧ ∃ a ∈ l, s.tagAt a ≠ (ea.extractLsb' 56 4).toNat := by simp
    have hpoison (l : List Nat) : ((k.reads && (l.all fun m => (s.dir.line (m / 64)).st != .ho) && s.poisoned l) || s.quarantined l) = true ↔
        (k = .load ∧ (∀ m ∈ l, (s.dir.line (m / 64)).st ≠ .ho) ∧ s.poisoned l = true) ∨ s.quarantined l = true := by
      fin_cases hk <;> simp [AKind.reads]
    simp only [htag, hpoison]

end Sys2Proof.Machine
end

section
/-! PROOF. Loads: what each writes once its access is granted. -/

namespace Sys2Proof.Machine

open Stmt

theorem extend_eq_loaded (s : State) (a : Acc) (n : Nat) (t : Ty) : extend t (s.valAcc a n) = loaded s a n t := by
  rw [loaded, ← extend_eq_intReg, BitVec.toNat_ofNat, extend, extend, bitsInt, bitsInt, Nat.mod_mod]

theorem State.ea3_of_values {s : State} {lit bv xv : Word} {b x : Src} {imm : BitVec 24} (hb : s.me.src lit b = .value bv)
    (hx : s.me.src lit x = .value xv) : s.ea3 lit b x imm = .ok (bv + xv + imm.signExtend 64) := by
  rw [State.ea3, State.use2_ok.2 ⟨hb, hx⟩, except_ok_bind]
  rfl

/-- Reading a register of headland space changes at most its die's counts. -/
theorem State.tookAcc_frame (s : State) (a : Acc) (n : Nat) : { s.tookAcc a n with dies := s.dies } = s := by
  unfold State.tookAcc State.headTaken
  split
  · split <;> rfl
  · rfl

theorem State.tookAcc_links (s : State) (a : Acc) (n : Nat) : (s.tookAcc a n).links = s.links := by
  have hlinks := congrArg State.links (s.tookAcc_frame a n)
  exact hlinks

theorem State.touches_of_touchGate {s : State} {w : Win} {ea : Word} {n : Nat} (h : s.touchGate w ea n = .ok ()) :
    s.touches w ea n = false := by
  unfold State.touchGate at h
  split at h
  · rfl
  · split at h
    · rename_i hclear
      rw [State.touches, hclear]
      exact Bool.and_false _
    · split at h <;> cases h
    · cases h
    · cases h

section
variable {s s1 : State} {w : Win} {ea : Word} {t : LdTy} {a : Acc} (d : Dst) (len : Nat)
  (h : s.loadAcc w ea t.ty.bytes = .ok (s1, a))
include h

theorem State.ldOp_of_granted :
    s.ldOp d t w ea len = .ok ((s1.tookAcc a t.ty.bytes).result d (loaded s1 a t.ty.bytes t.ty) [] len) := by
  obtain ⟨hgate, hpark, hres, hacc⟩ := State.loadAcc_ok h
  obtain ⟨htouch, -⟩ := State.access_ok hacc
  rw [State.ldOp, hgate, except_ok_bind, hpark, except_ok_bind, hres, State.precise_of_ok, except_ok_bind,
    State.touches_of_touchGate htouch, if_neg Bool.false_ne_true, hacc, except_ok_bind, extend_eq_loaded]

theorem State.lldOp_of_granted {k : Nat} {rest : List Nat} (hkeys : a.keys = k :: rest) :
    s.lldOp d t w ea len = .ok (({ s1.tookAcc a t.ty.bytes with
        links := (s1.links.filter fun l => !(l.1 == s1.cur.val && l.2.1 == s1.slot.val)) ++ [(s1.cur.val, s1.slot.val, k / 64)] } :
        State).result d (loaded s1 a t.ty.bytes t.ty) [] len) := by
  rw [State.lldOp, h, except_ok_bind]
  simp only [hkeys, State.unlink, State.tookAcc_links, extend_eq_loaded]

theorem State.lddOp_of_granted {s2 : State} {r : SymRef} (halloc : (s1.tookAcc a t.ty.bytes).alloc = .ok (s2, r)) :
    s.lddOp d t w ea len = .ok (((s2.modMe fun c => { c with
        dloads := c.dloads ++ [{ ref := r, res := .value (loaded s1 a t.ty.bytes t.ty), ea,
                                  far := (s1.linksUsed a).filter (· != s1.cur.die.val) }] }).put d (.int r.s 1 0)).advance len) := by
  obtain ⟨hgate, hpark, hres, hacc⟩ := State.loadAcc_ok h
  obtain ⟨htouch, -, -, hpoison, -⟩ := State.access_ok hacc
  have hpoison : (w != .glob && s.poisoned a.keys) = false := by
    rw [bne, ← Bool.not_eq_true']
    simpa [AKind.reads] using hpoison
  rw [State.lddOp, hgate, except_ok_bind, hpark, except_ok_bind, hres]
  dsimp only
  rw [State.touches_of_touchGate htouch, if_neg Bool.false_ne_true, hpoison, if_neg Bool.false_ne_true, hacc]
  dsimp only
  rw [extend_eq_loaded, State.deferLoad, halloc, except_ok_bind]
  rfl

end

theorem exec_load {s : State} {i : Instr} {t : LdTy} {w : Win} {imm : BitVec 24} {d : Dst} {b x : Src} {lit : Word} {len : Nat}
    (h : Load i t w imm d b x lit len) : exec i s = complete s (s.ldAt t w imm d b x lit len) := by
  cases h <;> rfl

theorem exec_load_of_granted {s s1 : State} {i : Instr} {t : LdTy} {w : Win} {imm : BitVec 24} {d : Dst} {b x : Src} {lit bv xv : Word}
    {len : Nat} {a : Acc} (hi : Load i t w imm d b x lit len) (hb : s.me.src lit b = .value bv) (hx : s.me.src lit x = .value xv)
    (h : s.loadAcc w (bv + xv + imm.signExtend 64) t.ty.bytes = .ok (s1, a)) :
    exec i s = .next ((s1.tookAcc a t.ty.bytes).result d (loaded s1 a t.ty.bytes t.ty) [] len) := by
  rw [exec_load hi, State.ldAt, State.ea3_of_values hb hx, except_ok_bind, State.ldOp_of_granted d len h, complete_ok]

theorem exec_linked {s : State} {i : Instr} {t : LdTy} {w : Win} {imm : BitVec 24} {d : Dst} {b x : Src} {lit : Word} {len : Nat}
    (h : Linked i t w imm d b x lit len) : exec i s = complete s (s.lldAt t w imm d b x lit len) := by
  cases h <;> rfl

theorem exec_deferred {s : State} {i : Instr} {t : LdTy} {w : Win} {imm : BitVec 24} {d : Dst} {b x : Src} {lit : Word} {len : Nat}
    (h : Deferred i t w imm d b x lit len) : exec i s = complete s (s.lddAt t w imm d b x lit len) := by
  cases h <;> rfl

theorem litBytesX_eq_optBytes (lit : Option Word) : litBytesX lit = optBytes lit := by
  cases lit <;> rfl

theorem State.deferLoad_of_alloc {s s2 : State} {r : SymRef} (halloc : s.alloc = .ok (s2, r)) (d : Dst) (f : DRes) (len : Nat) :
    s.deferLoad d f len =
      .ok (((s2.modMe fun c => { c with dloads := c.dloads ++ [{ ref := r, res := f }] }).put d (.int r.s 1 0)).advance len) := by
  rw [State.deferLoad, halloc, except_ok_bind]
  rfl

theorem State.parkGate_of_not_parked {s : State} {ea : Word} {n align : Nat} (hparked : s.me.parkedOn ea n = false) : s.parkGate .glob ea n align = .ok () := by
  rw [State.parkGate, waitFor_ok, hparked, Bool.and_false, Bool.not_false]

section
variable {s : State} {ea : Word} {t : LdTy} (d : Dst) (len : Nat) (hgate : s.accessGate = .ok ())
include hgate

theorem State.lddOp_of_misaligned (h : ea.toNat % t.ty.bytes ≠ 0) : s.lddOp d t .glob ea len = trap .align ea := by
  have hpark : s.parkGate .glob ea t.ty.bytes t.ty.bytes = .ok () := by
    rw [State.parkGate, waitFor_ok]
    simp [h]
  rw [State.lddOp, hgate, except_ok_bind, hpark, except_ok_bind, show s.resolve .load .glob ea _ _ = _ from if_pos h]
  rfl

variable (hparked : s.me.parkedOn ea t.ty.bytes = false)
include hparked

theorem State.lddOp_of_window {addr : Word} (hres : s.resolve .load .glob ea t.ty.bytes t.ty.bytes = .error (.fault .window addr)) :
    s.lddOp d t .glob ea len = trap .window addr := by
  rw [State.lddOp, hgate, except_ok_bind, State.parkGate_of_not_parked hparked, except_ok_bind, hres]
  rfl

theorem State.lddOp_of_late_fault {e : AccErr} {addr : Word} (hres : s.resolve .load .glob ea t.ty.bytes t.ty.bytes = .error e)
    (he : e = .notPresent addr ∨ ∃ c, c ∉ [.window, .align] ∧ e = .fault c addr) :
    s.lddOp d t .glob ea len = s.deferLoad d (.fault addr) len := by
  rw [State.lddOp, hgate, except_ok_bind, State.parkGate_of_not_parked hparked, except_ok_bind, hres]
  rcases he with rfl | ⟨c, hc, rfl⟩
  · rfl
  · have hlate : (c == .window || c == .align) = false := by simpa using hc
    dsimp only
    rw [hlate, if_neg Bool.false_ne_true]

end

/-! ## Delivery of deferred loads (R131) -/

theorem Core.headLoad_of_cons {x : Core} {k : SlotId} {q : DLoad} {rest : List DLoad} (hq : (x.ctx k).dloads = q :: rest)
    (hres : ∀ e w off t, q.res ≠ .touch e w off t) : x.headLoad k = some q := by
  rw [Core.headLoad, hq]
  cases h : q.res with
  | touch e w off t => exact absurd h (hres e w off t)
  | value v => simp only [h]
  | fault a => simp only [h]

theorem exec_deferredLoadComplete_of_head {s : State} {c : CoreId} {k : SlotId} {q : DLoad} (h : (s.core c).headLoad k = some q) :
    exec (.deferredLoadComplete c k) s = .next (s.modCore c fun x => x.loadDone k q) := by
  show Host.Outcome.next (s.deliverLoad c k) = _
  rw [State.deliverLoad, h]

theorem dropLoads {s : State} {c : CoreId} {k : SlotId} {q : DLoad} {rest : List DLoad} (hq : (s.ctx c k).dloads = q :: rest)
    (f : Core → Core) :
    (s.modCore c fun x => f (x.dropLoad k)) = (s.modCtx c k fun t => { t with dloads := rest }).modCore c f := by
  have hdrop : (s.core c).dropLoad k = (s.core c).setCtx k { s.ctx c k with dloads := rest } := by
    rw [Core.dropLoad, show ((s.core c).ctx k).dloads = q :: rest from hq]
    rfl
  simp only [State.modCore, State.modCtx, State.setCtx, hdrop, State.core_setCore, State.setCore_setCore]

/-- Settles O32. -/
theorem loadResults : Obligations.LoadResults := by
  refine ⟨fun s s1 i t w imm d b x lit bv xv len a hi hb hx h => exec_load_of_granted hi hb hx h, fun s s1 i t w imm d b x lit bv xv len a k rest hi hb hx h hkeys => ?_,
    fun s s1 lit t sc w imm ef d b x bv xv a hb hx hacq h => ?_, fun s s1 s2 i t w imm d b x lit bv xv len a r hi hb hx h halloc => ?_,
    fun s s2 i t imm d b x lit bv xv len e addr r hi hb hx hgate => ?_, fun s c k q rest hq => ⟨fun v hres => ?_, fun addr hres => ?_⟩⟩
  · rw [exec_linked hi, State.lldAt, State.ea3_of_values hb hx, except_ok_bind, State.lldOp_of_granted d len h hkeys, complete_ok]
  · show complete s (s.ldacqAt t sc w imm d b x (litVal lit) (litBytesX lit)) = _
    rw [State.ldacqAt, State.ea3_of_values hb hx, except_ok_bind, State.ldacqOp, hacq, except_ok_bind, h, except_ok_bind]
    dsimp only
    rw [extend_eq_loaded, litBytesX_eq_optBytes, complete_ok]
  · rw [exec_deferred hi, State.lddAt, State.ea3_of_values hb hx, except_ok_bind, State.lddOp_of_granted d len h halloc, complete_ok]
  · rw [exec_deferred hi, State.lddAt, State.ea3_of_values hb hx, except_ok_bind]
    refine ⟨fun hmis => ?_, fun halign hparked hres => ⟨fun he => ?_, fun he halloc => ?_⟩⟩
    · rw [State.lddOp_of_misaligned d len hgate hmis]
      rfl
    · rw [State.lddOp_of_window d len hgate hparked (he ▸ hres)]
      rfl
    · rw [State.lddOp_of_late_fault d len hgate hparked hres he, State.deferLoad_of_alloc halloc, complete_ok]
  · rw [exec_deferredLoadComplete_of_head (Core.headLoad_of_cons hq (by simp [hres]))]
    simp only [Core.loadDone, hres]
    rw [dropLoads hq fun x => x.deliver q.ref v]
    rfl
  · rw [exec_deferredLoadComplete_of_head (Core.headLoad_of_cons hq (by simp [hres]))]
    simp only [Core.loadDone, hres]
    rw [dropLoads hq fun x => x.faultSym q.ref addr]
    rfl

end Sys2Proof.Machine
end

section
/-! PROOF. Stores: what each writes, when it parks, and what it leaves. -/

namespace Sys2Proof.Machine

open Stmt

/-! ## What a walk reads -/

theorem walkFrom_congr {s t : State} (hpm : t.pm = s.pm) (hmem : t.mem = s.mem) (hdir : t.dir = s.dir) (hpoison : t.poison = s.poison)
    (hdies : t.dies = s.dies) (p va : Nat) (addr : Word) (levels : List (Nat × Nat × Option Nat × Nat)) (tbl : Nat) :
    walkFrom t p va addr levels tbl = walkFrom s p va addr levels tbl := by
  have hdead (d : Nat) : t.die d = s.die d := by simp only [State.die, hdies]
  have hquar (ks : List Nat) : t.quarantined ks = s.quarantined ks := by simp only [State.quarantined, hdir, hdies, hpm, hdead]
  induction levels generalizing tbl with
  | nil => rfl
  | cons x rest ih =>
    obtain ⟨hi, lo, leaf, align⟩ := x
    simp only [walkFrom, ih, hpm, hdir, hquar, State.bytesAt, hmem, State.poisoned, hpoison]
    rfl

theorem State.myLaunch_modMe (s : State) (f : Ctx → Ctx) : (s.modMe f).myLaunch = s.myLaunch := by
  have hcur : (s.modMe f).cur = s.cur := rfl
  have hcore : ((s.modMe f).core s.cur).launch = (s.core s.cur).launch := by
    have h := congrArg Core.launch (State.core_setCore s s.cur ((s.core s.cur).setCtx s.slot (f s.me)))
    exact h
  rw [State.myLaunch, State.myLaunch, State.launchOf, State.launchOf, hcur, hcore]
  rfl

theorem State.walk_modMe (s : State) (f : Ctx → Ctx) (l : Launch) (va : Word) : (s.modMe f).walk l va = s.walk l va :=
  if_congr Iff.rfl rfl (walkFrom_congr rfl rfl rfl rfl rfl ..)

theorem State.mustPark_modMe (s : State) {f : Ctx → Ctx} (hpark : (f s.me).replayQ = s.me.replayQ) (w : Win) (ea : Word) (n : Nat) :
    (s.modMe f).mustPark w ea n = s.mustPark w ea n := by
  have hparked : (s.modMe f).me.parkedPage ea = s.me.parkedPage ea := by simp only [Ctx.parkedPage, State.me_modMe, hpark]
  have habsent : (s.modMe f).absentPage ea = s.absentPage ea := by
    rw [State.absentPage, State.absentPage, State.myLaunch_modMe, State.walk_modMe]
  have hlost : (s.modMe f).lostAt ea n = s.lostAt ea n := by
    rw [State.lostAt, State.lostAt, State.myLaunch_modMe, State.walk_modMe]
    rfl
  rw [State.mustPark, State.mustPark, hparked, habsent, hlost]

/-! ## Releases (R130, R179, R289, R391) -/

theorem State.tokens_eq_true {s : State} {sc : Scope} : s.tokens sc = true ↔ sc = .sys ∨ (sc = .pkg ∧ s.pm ≠ .pm8) := by
  simp [State.tokens]

theorem State.die_modMe (s : State) (f : Ctx → Ctx) (d : Nat) : (s.modMe f).die d = s.die d := rfl

theorem mem_addOnce {x y : Nat} {l : List Nat} : y ∈ addOnce x l ↔ y = x ∨ y ∈ l := by
  unfold addOnce
  split
  · rename_i hx
    exact ⟨.inr, fun h => h.elim (fun hy => hy ▸ List.contains_iff_mem.1 hx) id⟩
  · rw [List.mem_append, List.mem_singleton, or_comm]

section
variable {s : State} {sc : Scope}

theorem State.release_of_earlier (h : s.me.replayQ ≠ [] ∨ s.me.vq.any VOp.isMem = true) : s.release sc = wait := by
  have hearlier : (s.me.replayQ.isEmpty && !(s.me.vq.any VOp.isMem)) = false := by
    rcases h with h | h
    · rw [List.isEmpty_eq_false_iff.2 h, Bool.false_and]
    · rw [h, Bool.not_true, Bool.and_false]
  rw [State.release, hearlier]
  rfl

variable (hpark : s.me.replayQ = []) (hvq : s.me.vq.any VOp.isMem = false) (hfirst : s.me.firstRelease = false ∨ s.myCore.strays = [])
include hpark hvq hfirst

/-- A release with no earlier access to wait for. -/
theorem State.release_eq : s.release sc = if s.tokens sc then do
      waitFor ((addOnce s.cur.die.val s.me.wrote).all fun d => (s.die d).seq.isNone)
      waitFor (s.me.relWait == 0 && s.me.ncWait == 0)
      if s.me.wrote.isEmpty ∧ (if sc = .sys then s.me.ncWrote else []).isEmpty then .ok (released s)
      else .error (.touch ((released s).emitTokens s.me.wrote (if sc = .sys then s.me.ncWrote else [])))
    else .ok (released s) := by
  have hearlier : waitFor (s.me.replayQ.isEmpty && !(s.me.vq.any VOp.isMem)) = .ok () := by
    rw [waitFor_ok, hpark, hvq]
    rfl
  have hstray : waitFor (!s.me.firstRelease || s.myCore.strays.isEmpty) = .ok () := by
    rw [waitFor_ok]
    rcases hfirst with h | h <;> simp [h]
  rw [State.release, hearlier, except_ok_bind, hstray, except_ok_bind]
  rfl

theorem State.release_of_narrow (htok : s.tokens sc = false) : s.release sc = .ok (released s) := by
  rw [State.release_eq hpark hvq hfirst, htok, if_neg Bool.false_ne_true]

/-- A wide release past its first waits: it counts what it has written over. -/
theorem State.release_of_wide (htok : s.tokens sc = true) (hseq : ∀ d, d = s.cur.die.val ∨ d ∈ s.me.wrote → (s.die d).seq = none) :
    s.release sc = (do
      waitFor (s.me.relWait == 0 && s.me.ncWait == 0)
      if s.me.wrote.isEmpty ∧ (if sc = .sys then s.me.ncWrote else []).isEmpty then .ok (released s)
      else .error (.touch ((released s).emitTokens s.me.wrote (if sc = .sys then s.me.ncWrote else [])))) := by
  have hdrain : waitFor ((addOnce s.cur.die.val s.me.wrote).all fun d => (s.die d).seq.isNone) = .ok () := by
    rw [waitFor_ok, List.all_eq_true]
    exact fun d hd => Option.isNone_iff_eq_none.2 (hseq d (mem_addOnce.1 hd))
  rw [State.release_eq hpark hvq hfirst, if_pos htok, hdrain, except_ok_bind]

end

/-- A release that waits for nothing goes at once. -/
theorem State.release_of_free {s : State} {sc : Scope} (h : ReleaseFree s sc) : s.release sc = .ok (released s) := by
  obtain ⟨hpark, hvq, hfirst, hwide⟩ := h
  by_cases htok : s.tokens sc = true
  · obtain ⟨hseq, hrel, hnc, hwrote, hncWrote⟩ := hwide (State.tokens_eq_true.1 htok)
    have hports : (if sc = .sys then s.me.ncWrote else []) = [] := ite_eq_right_iff.2 hncWrote
    rw [State.release_of_wide hpark hvq hfirst htok (fun d hd => by simp only [hwrote, List.not_mem_nil, or_false] at hd; rw [hd, hseq]),
      hrel, hnc, hports, hwrote]
    rfl
  · exact State.release_of_narrow hpark hvq hfirst (Bool.eq_false_iff.2 htok)

/-- A release that goes at once has waited for nothing. -/
theorem State.releaseFree_of_ok {s t : State} {sc : Scope} (h : s.release sc = .ok t) : ReleaseFree s sc := by
  by_cases hearlier : s.me.replayQ ≠ [] ∨ s.me.vq.any VOp.isMem = true
  · rw [State.release_of_earlier hearlier] at h
    cases h
  · rw [not_or, not_not, Bool.not_eq_true] at hearlier
    obtain ⟨hpark, hvq⟩ := hearlier
    have hfirst : s.me.firstRelease = false ∨ s.myCore.strays = [] := by
      obtain ⟨_, -, h⟩ := res_bind_ok.1 h
      obtain ⟨_, hstray, -⟩ := res_bind_ok.1 h
      simpa using waitFor_ok.1 hstray
    refine ⟨hpark, hvq, hfirst, fun hwide => ?_⟩
    rw [State.release_eq hpark hvq hfirst, if_pos (State.tokens_eq_true.2 hwide)] at h
    obtain ⟨_, hdrain, h⟩ := res_bind_ok.1 h
    obtain ⟨_, hawait, h⟩ := res_bind_ok.1 h
    generalize hp : (if sc = .sys then s.me.ncWrote else []) = ports at h
    split at h
    · rename_i hnone
      obtain ⟨hwrote, hports⟩ := hnone
      have hseq := List.all_eq_true.1 (waitFor_ok.1 hdrain) _ (mem_addOnce.2 (.inl rfl))
      obtain ⟨hrel, hnc⟩ := Bool.and_eq_true_iff.1 (waitFor_ok.1 hawait)
      refine ⟨Option.isNone_iff_eq_none.1 hseq, beq_iff_eq.1 hrel, beq_iff_eq.1 hnc, List.isEmpty_iff.1 hwrote, fun hsys => ?_⟩
      rw [if_pos hsys] at hp
      rw [hp, List.isEmpty_iff.1 hports]
    · cases h

/-! ## Stores -/

theorem State.stOperands_of_values {s : State} {lit vv bv xv : Word} {v b x : Src} {imm : BitVec 24} (hb : s.me.src lit b = .value bv)
    (hx : s.me.src lit x = .value xv) (hv : s.me.src lit v = .value vv) :
    s.stOperands lit v b x imm = .ok (bv + xv + imm.signExtend 64, vv) := by
  rw [State.stOperands, State.use3_ok.2 ⟨hb, hx, hv⟩, except_ok_bind]
  rfl

theorem State.stOp_of_granted {s s1 : State} {maj fn n : Nat} {sc : Scope} {w : Win} {ea v : Word} {a : Acc}
    (hpark : s.mustPark w ea n = false) (h : s.storeAcc .store w ea n = .ok (s1, a)) :
    s.stOp maj fn n sc w ea v = .ok (s1.writeAcc a n (v.toNat % 2 ^ (8 * n))) := by
  obtain ⟨hgate, -, -⟩ := State.storeAcc_ok h
  rw [State.stOp, hgate, except_ok_bind, hpark, if_neg Bool.false_ne_true, h, except_ok_bind]

theorem State.stOp_of_absent {s : State} {maj fn n : Nat} {sc : Scope} {ea v : Word} (hgate : s.accessGate = .ok ())
    (halign : ea.toNat % n = 0) (habsent : s.absentPage ea = true) (hpage : s.me.parkedPage ea = false)
    (hroom : s.me.replayQ.length < 8) (hnear : s.me.vqNear ea n = false) :
    s.stOp maj fn n sc .glob ea v = .ok (({ s with out := .mapRequest s.myLaunch.id ea :: s.out } : State).modMe fun c => { c with
      replayQ := c.replayQ ++ [{ va := ea, data := v, cmp := 0, kind := .store, maj, fn, ty := none, bytes := n, sc, ord := .none,
                                 win := .glob, ref := none }] }) := by
  have hmust : s.mustPark .glob ea n = true := by simp [State.mustPark, halign, habsent]
  have hwait : waitFor (decide (s.me.replayQ.length < 8) && !s.me.vqNear ea n) = .ok () := by simp [hroom, hnear]
  rw [State.stOp, hgate, except_ok_bind, hmust, if_pos rfl, State.park]
  dsimp only
  rw [hwait, except_ok_bind, hpage]
  rfl

theorem exec_store {s : State} {i : Instr} {t : StTy} {w : Win} {imm : BitVec 24} {v b x : Src} {lit : Word} {len : Nat}
    (h : Store i t w imm v b x lit len) : exec i s = complete s (s.stAt t w imm v b x lit len) := by
  cases h <;> rfl

theorem exec_store_of_granted {s s1 : State} {i : Instr} {t : StTy} {w : Win} {imm : BitVec 24} {v b x : Src} {lit vv bv xv : Word}
    {len : Nat} {a : Acc} (hi : Store i t w imm v b x lit len) (hb : s.me.src lit b = .value bv) (hx : s.me.src lit x = .value xv)
    (hv : s.me.src lit v = .value vv) (hpark : s.mustPark w (bv + xv + imm.signExtend 64) t.bytes = false)
    (h : s.storeAcc .store w (bv + xv + imm.signExtend 64) t.bytes = .ok (s1, a)) :
    exec i s = .next ((s1.writeAcc a t.bytes (vv.toNat % 2 ^ (8 * t.bytes))).advance len) := by
  rw [exec_store hi, State.stAt, State.stOperands_of_values hb hx hv, except_ok_bind]
  dsimp only
  rw [State.stOp_of_granted hpark h, except_ok_bind, complete_ok]

theorem State.linked_of_cons {s : State} {a : Acc} {k : Nat} {rest : List Nat} (hkeys : a.keys = k :: rest) :
    s.linked a = decide ((s.cur.val, s.slot.val, k / 64) ∈ s.links) := by
  rw [State.linked, hkeys]
  exact List.contains_eq_mem ..

/-- Settles O33. -/
theorem storeResults : Obligations.StoreResults := by
  refine ⟨fun s s1 i t w imm v b x lit vv bv xv len a hi hb hx hv hpark h => exec_store_of_granted hi hb hx hv hpark h,
    fun s i t imm v b x lit vv bv xv len hi hb hx hv hgate halign habsent hpage hroom hnear => ?_,
    fun s s1 lit t sc w imm v b x vv bv xv a hb hx hv hrel hpark h => ?_,
    fun s s1 lit t w imm v b x d vv bv xv a k rest hb hx hv hpark h hkeys => ?_⟩
  · refine ⟨{ va := bv + xv + imm.signExtend 64, data := vv, cmp := 0, kind := .store, maj := 0x20, fn := 8 + t.code.toNat, ty := none,
              bytes := t.bytes, sc := .thr, ord := .none, win := .glob, ref := none }, rfl, rfl, rfl, rfl, rfl, rfl, ?_⟩
    rw [exec_store hi, State.stAt, State.stOperands_of_values hb hx hv, except_ok_bind]
    dsimp only
    rw [State.stOp_of_absent hgate halign habsent hpage hroom hnear, except_ok_bind, complete_ok]
  · have hparked : (released s).mustPark w (bv + xv + imm.signExtend 64) t.bytes = false := by
      rw [released, State.mustPark_modMe s rfl, hpark]
    show complete s (s.strelAt t sc w imm v b x (litVal lit) (litBytesX lit)) = _
    rw [State.strelAt, State.stOperands_of_values hb hx hv, except_ok_bind]
    dsimp only
    rw [State.release_of_free hrel, except_ok_bind, State.stOp_of_granted hparked h, except_ok_bind, litBytesX_eq_optBytes, complete_ok]
  · obtain ⟨hgate, hres, hacc⟩ := State.storeAcc_ok h
    show complete s (s.lstAt t w imm v b x d (litVal lit) (litBytesX lit)) = _
    rw [State.lstAt, State.stOperands_of_values hb hx hv, except_ok_bind]
    dsimp only
    rw [hgate, except_ok_bind, hpark, if_neg Bool.false_ne_true, hres, State.precise_of_ok, except_ok_bind, State.linked_of_cons hkeys,
      hacc, except_ok_bind, litBytesX_eq_optBytes]
    by_cases hlink : (s.cur.val, s.slot.val, k / 64) ∈ s.links
    · simp only [hlink, decide_true, if_true, complete_ok]
    · simp only [hlink, decide_false, if_false, Bool.false_eq_true, complete_ok]

/-! ## What a store leaves (R128) -/

namespace SameButCoherence
variable {s t : State} (h : SameButCoherence s t)
include h

theorem tags : t.tags = s.tags := by
  have htags := congrArg State.tags h.eq
  exact htags

theorem poison : t.poison = s.poison := by
  have hpoison := congrArg State.poison h.eq
  exact hpoison

theorem reg (r : RegName) : t.me.reg r = s.me.reg r := by rw [h.me]; cases r <;> rfl

theorem core_ne {c : CoreId} (hc : c ≠ s.cur) : t.core c = s.core c := by
  rw [h.eq]
  exact State.core_setCore_ne _ _ hc

theorem ctx_ne {k : SlotId} (hk : k ≠ s.slot) : t.ctx s.cur k = s.ctx s.cur k := by
  rw [h.eq]
  simp [State.setMe, State.setCtx, State.ctx, Core.ctx_setCtx_ne, hk]
  rfl

end SameButCoherence

theorem State.writeAcc_of_bytes {s : State} {a : Acc} (hctr : ∀ c, a.place ≠ .ctr c) (hhead : ∀ o, a.place ≠ .head o) (n v : Nat) :
    s.writeAcc a n v = s.write s.self a.keys (leBytes n v) := by
  unfold State.writeAcc
  split
  · exact absurd ‹_› (hctr _)
  · exact absurd ‹_› (hhead _)
  · rfl

section
variable (s : State) (self : Option (Nat × Nat)) (ks : List Nat) (bs : List Byte)

theorem State.write_tags : (s.write self ks bs).tags = s.tags := by
  have h := congrArg State.tags (s.write_frame self ks bs)
  exact h

theorem State.write_poison : (s.write self ks bs).poison = s.poison := by
  have h := congrArg State.poison (s.write_frame self ks bs)
  exact h

theorem State.write_cores : (s.write self ks bs).cores = s.cores := by
  have h := congrArg State.cores (s.write_frame self ks bs)
  exact h

theorem State.write_cur : (s.write self ks bs).cur = s.cur := by
  have h := congrArg State.cur (s.write_frame self ks bs)
  exact h

theorem State.write_slot : (s.write self ks bs).slot = s.slot := by
  have h := congrArg State.slot (s.write_frame self ks bs)
  exact h

theorem State.write_core (c : CoreId) : (s.write self ks bs).core c = s.core c := by
  rw [State.core, State.write_cores]
  rfl

theorem State.write_ctx (c : CoreId) (k : SlotId) : (s.write self ks bs).ctx c k = s.ctx c k := by
  rw [State.ctx, State.write_core]
  rfl

end

theorem State.advance_reg (s : State) (n : Nat) (r : RegName) : (s.advance n).me.reg r = s.me.reg r := by
  rw [State.advance_me]
  cases r <;> rfl

theorem State.finish_links (s : State) (d : Dst) (r : Reg) (evs : List Nat) (len : Nat) : (s.finish d r evs len).links = s.links := by
  unfold State.finish State.countAll
  split <;> rfl

theorem State.finish_tags (s : State) (d : Dst) (r : Reg) (evs : List Nat) (len : Nat) : (s.finish d r evs len).tags = s.tags := by
  unfold State.finish State.countAll
  split <;> rfl

theorem State.finish_poison (s : State) (d : Dst) (r : Reg) (evs : List Nat) (len : Nat) : (s.finish d r evs len).poison = s.poison := by
  unfold State.finish State.countAll
  split <;> rfl

/-- Settles O34. -/
theorem storesTouchOnlyTheirBytes : Obligations.StoresTouchOnlyTheirBytes := by
  refine ⟨fun s s1 i t w imm v b x lit vv bv xv len a hi hinv hb hx hv hpark h hctr hhead hnodup hlen => ?_,
    fun s s1 i t w imm d b x lit bv xv len a hi hb hx h => ?_⟩
  · obtain ⟨-, -, hacc⟩ := State.storeAcc_ok h
    obtain ⟨-, -, -, -, hreq, -⟩ := State.access_ok hacc
    have hcoh : SameButCoherence s s1 := State.request_eq hreq ▸ s.performAcc_sameButCoherence a .store
    have hwf : s1.mem.wf = true := by rw [hcoh.mem]; exact hinv
    refine ⟨_, exec_store_of_granted hi hb hx hv hpark h, ?_⟩
    rw [State.writeAcc_of_bytes hctr hhead]
    refine ⟨?_, fun c hc => ?_, ?_, ?_, fun r => ?_, fun k hk => ?_, fun c hc => ?_⟩
    · exact State.write_bytesAt s1.self hwf hnodup (by rw [hlen, length_leBytes])
    · rw [State.advance_mem, State.write_get_of_notMem s1.self _ hwf hc, hcoh.mem]
    · rw [State.advance_tags, State.write_tags, hcoh.tags]
    · rw [State.advance_poison, State.write_poison, hcoh.poison]
    · rw [State.advance_reg, State.write_me, hcoh.reg]
    · have hcur : s.cur = (s1.write s1.self a.keys (leBytes t.bytes (vv.toNat % 2 ^ (8 * t.bytes)))).cur := by rw [State.write_cur, hcoh.cur]
      rw [State.advance, hcur, State.ctx_modMe_ne _ _ (by rw [State.write_slot, hcoh.slot]; exact hk), State.write_ctx, ← hcur, hcoh.ctx_ne hk]
    · rw [State.advance, State.core_modMe_ne _ _ (by rw [State.write_cur, hcoh.cur]; exact hc), State.write_core, hcoh.core_ne hc]
  · have hcoh := State.loadAcc_sameButCoherence h
    have hframe := s1.tookAcc_frame a t.ty.bytes
    have htags : (s1.tookAcc a t.ty.bytes).tags = s1.tags := by
      have := congrArg State.tags hframe
      exact this
    have hpoison : (s1.tookAcc a t.ty.bytes).poison = s1.poison := by
      have := congrArg State.poison hframe
      exact this
    refine ⟨_, exec_load_of_granted hi hb hx h, ?_, ?_, ?_, ?_⟩
    · rw [State.result_eq_finish, State.finish_mem, State.tookAcc_mem, hcoh.mem]
    · rw [State.result_eq_finish, State.finish_tags, htags, hcoh.tags]
    · rw [State.result_eq_finish, State.finish_poison, hpoison, hcoh.poison]
    · rw [State.result_eq_finish, State.finish_links, State.tookAcc_links]
      exact hcoh.links

end Sys2Proof.Machine
end

section
/-! PROOF. Releases, acquires, fences and write then signal. -/

namespace Sys2Proof.Machine

open Stmt

/-! ## Tokens -/

theorem State.sendTokens_cores (s : State) (t : Releaser) (dies ports : List Nat) : (s.sendTokens t dies ports).cores = s.cores := by
  have hfold (l : List Nat) (u : State) :
      (l.foldl (fun v d => v.modDie d fun x => { x with relTokens := x.relTokens ++ [t] }) u).cores = u.cores := by
    induction l generalizing u with
    | nil => rfl
    | cons d l ih => exact ih _
  exact hfold dies s

theorem State.sendTokens_cur (s : State) (t : Releaser) (dies ports : List Nat) : (s.sendTokens t dies ports).cur = s.cur := by
  have hfold (l : List Nat) (u : State) :
      (l.foldl (fun v d => v.modDie d fun x => { x with relTokens := x.relTokens ++ [t] }) u).cur = u.cur := by
    induction l generalizing u with
    | nil => rfl
    | cons d l ih => exact ih _
  exact hfold dies s

theorem State.sendTokens_slot (s : State) (t : Releaser) (dies ports : List Nat) : (s.sendTokens t dies ports).slot = s.slot := by
  have hfold (l : List Nat) (u : State) :
      (l.foldl (fun v d => v.modDie d fun x => { x with relTokens := x.relTokens ++ [t] }) u).slot = u.slot := by
    induction l generalizing u with
    | nil => rfl
    | cons d l ih => exact ih _
  exact hfold dies s

theorem State.sendTokens_me (s : State) (t : Releaser) (dies ports : List Nat) : (s.sendTokens t dies ports).me = s.me := by
  simp only [State.me, State.ctx, State.core, State.sendTokens_cores, State.sendTokens_cur, State.sendTokens_slot]

theorem State.emitTokens_me (s : State) (dies ports : List Nat) :
    (s.emitTokens dies ports).me = { s.me with
      wrote := if dies.isEmpty then s.me.wrote else [], relWait := dies.length,
      ncWrote := if ports.isEmpty then s.me.ncWrote else [], ncWait := ports.length } := by
  rw [State.emitTokens, State.me_modMe, State.sendTokens_me]

theorem State.die_modDie (s : State) (d : Nat) (f : DieState → DieState) : (s.modDie d f).die d = f (s.die d) :=
  Vector.getElem_set_self ..

theorem State.acquired_of_tokens {s : State} {sc : Scope} (h : s.tokens sc = true) :
    s.acquired sc = (s.modDie s.cur.die.val fun x => { x with acqTokens := x.acqTokens ++ [(s.cur.val, s.slot.val)] }).modMe
      fun t => { t with acqWait := true } := if_pos h

theorem State.drainHolds_of_free {s : State} {sc : Scope} (h : AcquireFree s sc) : s.drainHolds s.cur sc = false := by
  by_cases htok : s.tokens sc = true
  · rw [State.drainHolds, h (State.tokens_eq_true.1 htok)]
    exact Bool.and_false _
  · rw [State.drainHolds, Bool.eq_false_iff.2 htok, Bool.false_and]

/-! ## Fences -/

theorem State.fenceOp_eq (s : State) (sc : Scope) (o : Ord) : s.fenceOp sc o =
    (if ordRel o then s.release sc else .ok s) >>= fun u => if ordAcq o then do
        u.accessGate
        u.acquireGate sc
        waitFor (!u.me.vLoads && !(u.me.replayQ.any fun p => match p.kind with | .atomic _ => true | _ => false))
        .ok ((u.advance 12).acquired sc)
      else .ok (u.advance 12) := by
  cases o <;> rfl

theorem State.fenceOp_of_free {s u : State} {sc : Scope} {o : Ord} (hrel : (if ordRel o then s.release sc else .ok s) = .ok u)
    (hacq : u.me.acqWait = false) (hfree : u.drainHolds u.cur sc = false) (hv : u.me.vLoads = false) (hpark : u.me.replayQ = []) :
    s.fenceOp sc o = .ok (if ordAcq o then (u.advance 12).acquired sc else u.advance 12) := by
  have hacquire : u.acquireGate sc = .ok () := by rw [State.acquireGate, hfree]; rfl
  rw [State.fenceOp_eq, hrel, except_ok_bind, State.accessGate_of_free hacq hpark, except_ok_bind, hacquire, except_ok_bind, hv, hpark]
  cases ordAcq o <;> rfl

theorem exec_fence_of_free {s : State} {sc : Scope} {o : Ord} (hrel : o ∈ [.rel, .ar] → ReleaseFree s sc) (hacq : s.me.acqWait = false)
    (hfree : AcquireFree s sc) (hv : s.me.vLoads = false) (hpark : s.me.replayQ = []) :
    exec (.fence sc o) s = .next (if o ∈ [.acq, .ar] then ((if o ∈ [.rel, .ar] then released s else s).advance 12).acquired sc
      else (if o ∈ [.rel, .ar] then released s else s).advance 12) := by
  have hdrain := State.drainHolds_of_free hfree
  show complete s (s.fenceOp sc o) = _
  cases o with
  | none | acq =>
    rw [State.fenceOp_of_free rfl hacq hdrain hv hpark]
    rfl
  | rel | ar =>
    have hreleased := State.release_of_free (hrel (by decide))
    have hme : (released s).me = { s.me with firstRelease := false } := s.me_modMe _
    have hfence {o : Ord} (ho : ordRel o = true) := State.fenceOp_of_free (u := released s) ((if_pos ho).trans hreleased) (by rw [hme, hacq]) hdrain
      (by rw [hme]; exact hv) (by rw [hme, hpark])
    rw [hfence rfl]
    rfl

/-! ## Write then signal (R136) -/

theorem except_bind_eq {ε α β : Type} {x : Except ε α} {a : α} {f : α → Except ε β} {y : Except ε β} (hx : x = .ok a) (hf : f a = y) :
    (x >>= f) = y := by
  rw [hx, except_ok_bind, hf]

theorem State.need_four_values (s : State) (a b c d : Word) : s.need [.value a, .value b, .value c, .value d] = .ok () :=
  s.need_values [a, b, c, d]

/-- Settles O37. -/
theorem orderingInstructions : Obligations.OrderingInstructions := by
  refine ⟨?_, fun s sc o hrel hacq hfree hv hpark => exec_fence_of_free hrel hacq hfree hv hpark, fun s => rfl,
    fun s sc => ⟨State.release_of_free, State.releaseFree_of_ok⟩, fun s sc => State.release_of_earlier,
    fun s sc hpark hvq hfirst => ⟨fun hnarrow => ?_, fun hwide hseq => ?_⟩, fun s sc hwide => ?_⟩
  · intro s s1 s2 lit sc w ty addf imm v b fl sg vv bv fv gv a c hb hfl hsg hv ea n s0 hfree hacq ha hc htouch htouch' hvq hpoison h1 h2
    show complete s (s.stsigAt sc w (sigBytes ty) addf imm v b fl sg (litVal lit) (litBytesX lit)) = _
    have hme : (released s).me = { s.me with firstRelease := false } := s.me_modMe _
    have hgate : (released s).accessGate = .ok () := State.accessGate_of_free (by rw [hme, hacq]) (by rw [hme]; exact hfree.1)
    simp only [State.stsigAt, hb, hfl, hsg, hv, State.need_four_values, except_ok_bind, State.release_of_free hfree, hgate, Reg.val,
      litBytesX_eq_optBytes]
    have hwait : waitFor (!(released s).me.vqTouches (a.keys ++ c.keys)) = .ok () := by rw [waitFor_ok, hvq]; rfl
    have hcheck : check (w == .glob || !addf || !(released s).poisoned c.keys) .poison fv = .ok () := by
      rw [check_ok]
      rcases hpoison with rfl | rfl | h
      · rfl
      · rw [Bool.not_false, Bool.or_true, Bool.true_or]
      · rw [h, Bool.not_false, Bool.or_true]
    rw [← complete_ok s]
    refine congrArg (complete s) (except_bind_eq (State.precise_ok.2 ha) ?_)
    refine except_bind_eq (State.precise_ok.2 hc) ?_
    refine except_bind_eq htouch (except_bind_eq htouch' (except_bind_eq hwait (except_bind_eq hcheck ?_)))
    refine except_bind_eq h1 ?_
    exact except_bind_eq h2 rfl
  · refine State.release_of_narrow hpark hvq hfirst (Bool.eq_false_iff.2 fun htok => ?_)
    have hwide := State.tokens_eq_true.1 htok
    rcases hnarrow with hsc | ⟨rfl, hpm⟩
    · rcases hwide with rfl | ⟨rfl, -⟩ <;> exact absurd hsc (by decide)
    · exact hwide.elim nofun fun h => h.2 hpm
  · rw [State.release_of_wide hpark hvq hfirst (State.tokens_eq_true.2 hwide) hseq]
    generalize hports : (if sc = .sys then s.me.ncWrote else []) = ports
    have hempty : ports = [] ↔ (sc = .sys → s.me.ncWrote = []) := by rw [← hports, ite_eq_right_iff]
    have hlength : ports.length = if sc = .sys then s.me.ncWrote.length else 0 := by rw [← hports, apply_ite List.length, List.length_nil]
    refine ⟨fun hawait => ?_, fun hrel hnc => ?_⟩
    · have hwait : (s.me.relWait == 0 && s.me.ncWait == 0) = false := by
        rw [Bool.and_eq_false_iff, beq_eq_false_iff_ne, beq_eq_false_iff_ne]
        exact hawait
      rw [hwait]
      rfl
    · rw [hrel, hnc]
      refine ⟨fun hwrote hnone => ?_, fun hsome => ?_⟩
      · rw [hwrote, hempty.2 hnone]
        rfl
      · have hnot : ¬(s.me.wrote.isEmpty ∧ ports.isEmpty) := by
          rw [List.isEmpty_iff, List.isEmpty_iff, hempty]
          rintro ⟨hwrote, hnone⟩
          exact hsome.elim (· hwrote) fun h => h.2 (hnone h.1)
        refine ⟨(released s).emitTokens s.me.wrote ports, if_neg hnot, ?_⟩
        rw [State.emitTokens_me]
        refine ⟨rfl, ?_, hlength, ?_⟩
        · have hme : (released s).me.wrote = s.me.wrote := by rw [released, State.me_modMe]
          dsimp only
          rw [hme]
          split
          · exact List.isEmpty_iff.1 ‹_›
          · rfl
        · rw [State.emitTokens, State.modMe_mem, State.sendTokens_mem]
          rfl
  · rw [State.acquired_of_tokens (State.tokens_eq_true.2 hwide)]
    have hme := State.me_modMe (s.modDie s.cur.die.val fun x => { x with acqTokens := x.acqTokens ++ [(s.cur.val, s.slot.val)] })
      fun t => { t with acqWait := true }
    refine ⟨by rw [hme], ?_, ?_⟩
    · rw [State.die_modMe, State.die_modDie]
    · rw [State.accessGate, hme]
      rfl

end Sys2Proof.Machine
end

section
/-! PROOF. Bounds-checked accesses and memory tags. -/

namespace Sys2Proof.Machine

open Stmt

theorem ea2_eq (b : Word) (imm : BitVec 24) : ea2 b imm = b + imm.signExtend 64 := rfl

/-! ## Buffer descriptors (R134, R369) -/

theorem State.descEa_of_beyond {s : State} {i off : Word} {n : Nat} (h : 1024 ≤ i.toNat) : s.descEa i off n = trap .bounds := by
  rw [State.descEa, check_bind_of_false (decide_eq_false (Nat.not_lt.2 h))]
  rfl

section
variable {s s0 : State} {i off : Word} {n : Nat} (hi : i.toNat < 1024) (hreq : s.request (s.descAcc s.myLaunch i.toNat) .read = .ok s0)
  (hpoison : s0.poisoned (s.descAcc s.myLaunch i.toNat).keys = false) (hquar : s0.quarantined (s.descAcc s.myLaunch i.toNat).keys = false)
include hi hreq hpoison hquar

/-- The address of a descriptor's access, and its bounds, once the descriptor is read. -/
theorem State.descEa_of_read :
    s.descEa i off n =
      let d := s0.desc s0.myLaunch i.toNat
      let ea := withTag (d.base + off) d.tag
      if ea.toNat % n = 0 then
        if off.toNat + n ≤ d.length then .ok (s0, d, ea) else trap .bounds ea
      else trap .align ea := by
  have hclean : (!s0.poisoned (s.descAcc s.myLaunch i.toNat).keys && !s0.quarantined (s.descAcc s.myLaunch i.toNat).keys) = true := by
    rw [hpoison, hquar]
    rfl
  rw [State.descEa, check_bind_of_true (decide_eq_true hi)]
  dsimp only
  rw [hreq, except_ok_bind, check_bind_of_true hclean]
  generalize s0.desc s0.myLaunch i.toNat = d
  generalize withTag (d.base + off) d.tag = ea
  by_cases halign : ea.toNat % n = 0
  · rw [if_pos halign, check_bind_of_true (beq_iff_eq.2 halign)]
    by_cases hin : off.toNat + n ≤ d.length
    · rw [if_pos hin, check_bind_of_true (by rw [Bool.and_eq_true, decide_eq_true_iff, decide_eq_true_iff]; omega)]
    · rw [if_neg hin, check_bind_of_false (by rw [Bool.and_eq_false_iff, decide_eq_false_iff_not, decide_eq_false_iff_not]; omega)]
      rfl
  · rw [if_neg halign, check_bind_of_false (beq_eq_false_iff_ne.2 halign)]
    rfl

end

theorem exec_bufLoad {s : State} {i : Instr} {t : LdTy} {imm : BitVec 24} {d : Dst} {b x : Src} {lit : Word} {len : Nat}
    (h : BufLoad i t imm d b x lit len) : exec i s = complete s (s.ldbAt t imm d b x lit len) := by
  cases h <;> rfl

theorem exec_bufStore {s : State} {i : Instr} {t : StTy} {imm : BitVec 24} {v b x : Src} {lit : Word} {len : Nat}
    (h : BufStore i t imm v b x lit len) : exec i s = complete s (s.stbAt t imm v b x lit len) := by
  cases h <;> rfl

theorem descPerm_of_ok {ea : Word} {a : Acc} : descPerm true ea (.ok a) = .ok a := rfl

/-- Settles O35. -/
theorem checkedBufferAccess : Obligations.CheckedBufferAccess := by
  refine ⟨fun s s0 s1 i t imm d b x lit bv xv len a hi hb hx hgate => ?_, fun s s0 s1 i t imm v b x lit vv bv xv len a hi hb hx hv hgate => ?_⟩
  · intro n off bd ks ea
    have hops : exec i s = complete s (do
        let (s, b, ea) ← s.descEa bv off n
        s.parkGate .glob ea n n
        let a ← s.precise (descPerm b.rd ea (s.resolve .load .glob ea n n))
        let s ← s.access .load .glob ea n .read a
        .ok ((s.tookAcc a n).result d (extend t.ty (s.valAcc a n)) [] len)) := by
      rw [exec_bufLoad hi, State.ldbAt, State.use2_ok.2 ⟨hb, hx⟩, except_ok_bind]
      dsimp only
      rw [hgate, except_ok_bind]
      rfl
    refine ⟨fun hbeyond => ?_, fun hlt hreq hpoison hquar => ?_⟩
    · rw [hops, State.descEa_of_beyond hbeyond]
      rfl
    · have hdesc := State.descEa_of_read (off := off) (n := n) hlt hreq hpoison hquar
      refine ⟨fun hmis => ?_, fun halign hout => ?_, fun halign hin hrd hparked hres hacc => ?_⟩
      · rw [hops, hdesc, if_neg hmis]
        rfl
      · rw [hops, hdesc, if_pos halign, if_neg (Nat.not_le.2 hout)]
        rfl
      · rw [hops, hdesc, if_pos halign, if_pos hin, except_ok_bind]
        dsimp only
        rw [State.parkGate_of_not_parked hparked, except_ok_bind, hrd, hres, descPerm_of_ok, State.precise_of_ok, except_ok_bind, hacc,
          except_ok_bind, extend_eq_loaded]
        rfl
  · intro off bd ks ea hlt hreq hpoison hquar halign
    have hdesc := State.descEa_of_read (off := off) (n := t.bytes) hlt hreq hpoison hquar
    refine ⟨fun hout => ?_, fun hin hwr hpark hres hacc => ?_⟩
    · rw [exec_bufStore hi, State.stbAt, State.use3_ok.2 ⟨hb, hx, hv⟩, except_ok_bind]
      dsimp only
      rw [hgate, except_ok_bind, ea2_eq, hdesc, if_pos halign, if_neg (Nat.not_le.2 hout)]
      rfl
    · rw [exec_bufStore hi, State.stbAt, State.use3_ok.2 ⟨hb, hx, hv⟩, except_ok_bind]
      dsimp only
      rw [hgate, except_ok_bind, ea2_eq, hdesc, if_pos halign, if_pos hin, except_ok_bind]
      dsimp only
      rw [hpark, if_neg Bool.false_ne_true, hwr, hres, descPerm_of_ok, State.precise_of_ok, except_ok_bind, hacc, except_ok_bind]
      rfl

/-! ## Tags (R135) -/

theorem exec_tagLoad {s : State} {i : Instr} {imm : BitVec 24} {d : Dst} {b : Src} {lit : Word} {len : Nat}
    (h : TagLoad i imm d b lit len) : exec i s = complete s (s.ldgAt imm d b lit len) := by
  cases h <;> rfl

theorem exec_tagStore {s : State} {i : Instr} {n : Nat} {imm : BitVec 24} {v b : Src} {lit : Word} {len : Nat}
    (h : TagStore i n imm v b lit len) : ∃ m, n = m + 1 ∧ exec i s = complete s (s.stgAt m imm v b lit len) := by
  cases h <;> exact ⟨_, rfl, rfl⟩

theorem Leaf.allows_load {f : Leaf} {mode : Mode} (h : f.ua = true) : f.allows .load mode = true := by
  rw [Leaf.allows, h]
  rfl

/-- The access to the tag of a granule. -/
def State.tagAcc (s : State) (f : Leaf) (k : Nat) : Acc :=
  { keys := [k], place := .dev k, mode := f.mode, part := s.myLaunch.part, walked := f.walked }

section
variable {s : State} {imm : BitVec 24} {d : Dst} {b : Src} {lit bv : Word} {f : Leaf} (hb : s.me.src lit b = .value bv)
  (hgate : s.accessGate = .ok ()) (hwalk : s.walk s.myLaunch (bv + imm.signExtend 64) = .ok f) (hua : f.ua = true) (len : Nat)
include hb hgate hwalk hua

theorem State.ldgAt_of_walk :
    s.ldgAt imm d b lit len =
      let k := devKey s.pm s.myLaunch.part (f.addr (bv + imm.signExtend 64))
      if f.tagged then do
        check (!s.quarantined [k]) .poison (bv + imm.signExtend 64)
        let s ← s.request (s.tagAcc f k) .read
        .ok (s.result d (word (s.tagAt k)) [] len)
      else .ok (s.result d 0 [] len) := by
  rw [State.ldgAt, State.use1_ok.2 hb, except_ok_bind, hgate, except_ok_bind]
  change (s.precise (s.walk s.myLaunch (bv + imm.signExtend 64)) >>= _) = _
  rw [hwalk, State.precise_of_ok, except_ok_bind, check_bind_of_true (Leaf.allows_load hua)]
  rfl

end

section
variable {s : State} {m : Nat} {imm : BitVec 24} {v b : Src} {lit bv vv : Word} (hb : s.me.src lit b = .value bv)
  (hv : s.me.src lit v = .value vv) (hgate : s.accessGate = .ok ()) (len : Nat)
include hb hv hgate

theorem State.stgAt_of_misaligned (hmis : (bv + imm.signExtend 64).toNat % 32 ≠ 0) :
    s.stgAt m imm v b lit len = trap .align (bv + imm.signExtend 64) := by
  rw [State.stgAt, State.use2_ok.2 ⟨hb, hv⟩, except_ok_bind]
  dsimp only
  rw [hgate, except_ok_bind, ea2_eq, check_bind_of_false (beq_eq_false_iff_ne.2 hmis)]
  rfl

variable {fs : Nat → Leaf} (halign : (bv + imm.signExtend 64).toNat % 32 = 0) (hpark : s.me.replayQ = [])
  (hwalk : ∀ j < m + 1, s.walk s.myLaunch (bv + imm.signExtend 64 + BitVec.ofNat 64 (32 * j)) = .ok (fs j))
include halign hpark hwalk

theorem State.stgAt_of_pages :
    s.stgAt m imm v b lit len =
      let va (j : Nat) : Word := bv + imm.signExtend 64 + BitVec.ofNat 64 (32 * j)
      let k (j : Nat) : Nat := devKey s.pm s.myLaunch.part ((fs j).addr (va j)) / 32 * 32
      let ks := (List.range (m + 1)).map k
      check ((List.range (m + 1)).all fun j => (fs j).tagged && (fs j).allows .store s.me.mode) .permission (bv + imm.signExtend 64) >>= fun _ =>
      check (!s.quarantined ks) .poison (bv + imm.signExtend 64) >>= fun _ =>
      s.requests ((List.range (m + 1)).map fun j => s.tagAcc (fs j) (k j)) .store >>= fun s1 =>
      .ok ((ks.foldl (fun q a => q.setTag (a / 32) (vv.toNat % 16)) (s1.keepCut ks)).advance len) := by
  have hpages : s.tagPages (bv + imm.signExtend 64) (m + 1) =
      .ok ((List.range (m + 1)).map fun j => (bv + imm.signExtend 64 + BitVec.ofNat 64 (32 * j), fs j)) := by
    refine mapM_ok _ fun j hj => ?_
    exact except_bind_eq (State.precise_ok.2 (hwalk j (List.mem_range.1 hj))) rfl
  have hwait : waitFor (!s.me.parkedOn (bv + imm.signExtend 64) (32 * (m + 1))) = .ok () := by
    rw [waitFor_ok, Ctx.parkedOn_of_nil hpark]
    rfl
  rw [State.stgAt, State.use2_ok.2 ⟨hb, hv⟩, except_ok_bind]
  dsimp only
  rw [hgate, except_ok_bind, ea2_eq, check_bind_of_true (beq_iff_eq.2 halign)]
  refine (except_bind_eq hwait ?_)
  refine (except_bind_eq hpages ?_)
  simp only [List.all_map, List.map_map, List.flatMap_map, Function.comp_def, ← List.map_eq_flatMap]
  rfl

end

/-- Settles O36. -/
theorem tagInstructions : Obligations.TagInstructions := by
  refine ⟨fun s s1 i imm d b lit bv len f hi hb hgate hwalk hua => ?_, fun s s1 i n imm v b lit vv bv len fs hi hb hv hgate => ?_⟩
  · rw [exec_tagLoad hi, State.ldgAt_of_walk hb hgate hwalk hua]
    refine ⟨fun htag hquar hreq => ?_, fun htag => ?_⟩
    · rw [if_pos htag]
      refine (congrArg (complete s) (check_bind_of_true (congrArg not hquar) ..)).trans ?_
      exact congrArg (complete s) (except_bind_eq hreq rfl)
    · rw [htag]
      rfl
  · obtain ⟨m, rfl, hexec⟩ := exec_tagStore (s := s) hi
    intro ea va k ks
    rw [hexec]
    refine ⟨fun hmis => ?_, fun halign hpark hwalk => ?_⟩
    · rw [State.stgAt_of_misaligned hb hv hgate len hmis]
      rfl
    · rw [State.stgAt_of_pages hb hv hgate len halign hpark hwalk]
      refine ⟨fun hbad => ?_, fun hgood hquar hreq => ?_⟩
      · rw [check_bind_of_false]
        · rfl
        · rw [List.all_eq_false]
          obtain ⟨j, hj, hbad⟩ := hbad
          refine ⟨j, List.mem_range.2 hj, ?_⟩
          rcases hbad with h | h <;> simp [h]
      · have hall : ((List.range (m + 1)).all fun j => (fs j).tagged && (fs j).allows .store s.me.mode) = true := by
          rw [List.all_eq_true]
          exact fun j hj => Bool.and_eq_true_iff.2 (hgood j (List.mem_range.1 hj))
        refine (congrArg (complete s) (check_bind_of_true hall ..)).trans ?_
        refine (congrArg (complete s) (check_bind_of_true (congrArg not hquar) ..)).trans ?_
        exact congrArg (complete s) (except_bind_eq hreq rfl)

end Sys2Proof.Machine
end

section
/-! PROOF. Atomics and reductions. -/

namespace Sys2Proof.Machine

open Stmt

/-! ## What an operation computes (R137) -/

theorem atomEval_eq_atomNew {op : AtomOp} (hop : isIntAtom op = true) (t : Ty) {n : Nat} (hn : 0 < n) (x v e : BitVec n) :
    atomEval op t n x.toNat v.toNat e.toNat = (atomNew op x v e).toNat := by
  cases op with
  | fadd | badd => cases hop
  | add => exact (BitVec.toNat_add ..).symm
  | and => exact (BitVec.toNat_and ..).symm
  | or => exact (BitVec.toNat_or ..).symm
  | xor => exact (BitVec.toNat_xor ..).symm
  | swap => rfl
  | min | max =>
    simp only [atomEval, atomNew, bitsInt_true hn, ← BitVec.sle_iff_toInt_le]
    rw [apply_ite BitVec.toNat]
  | minz | maxz =>
    simp only [atomEval, atomNew, ← BitVec.ule_iff_toNat_le]
    rw [apply_ite BitVec.toNat]
  | cas =>
    simp only [atomEval, atomNew, BitVec.toNat_inj]
    rw [apply_ite BitVec.toNat]

/-! ## Atomics that wait for nothing -/

/-- What an `atom` or `red` is once it has been performed. -/
def atomDone (x : AtomArgs) (len : Nat) (u : State) (old : Nat) : State :=
  let t := if x.isRed then u.advance len else u.result x.d (atomResult x.op x.ty old) [] len
  if ordAcq x.ord then t.acquired x.sc else t

theorem State.atomOp_eq (s : State) (x : AtomArgs) (len : Nat) : s.atomOp x len =
    (if ordRel x.ord then s.release x.sc else .ok s) >>= fun u =>
    (if ordAcq x.ord then u.acquireGate x.sc else .ok ()) >>= fun _ =>
    u.accessGate >>= fun _ =>
    if u.mustPark x.w x.ea (atomBytes x.op x.ty) then u.parkAtomic x len else u.atomNow x >>= fun p => .ok (atomDone x len p.1 p.2) := by
  obtain ⟨op, isRed, ty, sc, ord, w, ea, v, e, d⟩ := x
  cases ord <;> rfl

theorem State.atomOp_of_free {s s0 u : State} {x : AtomArgs} {old : Nat} {len : Nat}
    (hrel : (if ordRel x.ord then s.release x.sc else .ok s) = .ok s0) (hfree : ordAcq x.ord = true → s0.acquireGate x.sc = .ok ())
    (hgate : s0.accessGate = .ok ()) (hpark : s0.mustPark x.w x.ea (atomBytes x.op x.ty) = false) (hnow : s0.atomNow x = .ok (u, old)) :
    s.atomOp x len = .ok (atomDone x len u old) := by
  have hacq : (if ordAcq x.ord then s0.acquireGate x.sc else .ok ()) = .ok () := ite_eq_right_iff.2 hfree
  rw [State.atomOp_eq, hrel, except_ok_bind, hacq, except_ok_bind, hgate, except_ok_bind, hpark, if_neg Bool.false_ne_true, hnow,
    except_ok_bind]

/-- The state in which an atomic is performed: after its release, if ORD asks for one. -/
def afterRelease (s : State) (o : Ord) : State := if ordRel o then released s else s

section
variable {s : State} {o : Ord} {sc : Scope}

theorem State.release_afterRelease (hrel : ordRel o = true → ReleaseFree s sc) :
    (if ordRel o then s.release sc else .ok s) = .ok (afterRelease s o) := by
  unfold afterRelease
  split
  · exact State.release_of_free (hrel ‹_›)
  · rfl

theorem State.accessGate_afterRelease (hgate : s.accessGate = .ok ()) : (afterRelease s o).accessGate = .ok () := by
  unfold afterRelease
  split
  · rw [State.accessGate, released, State.me_modMe]
    exact hgate
  · exact hgate

theorem State.acquireGate_afterRelease (hfree : AcquireFree s sc) : (afterRelease s o).acquireGate sc = .ok () := by
  have hdrain : (afterRelease s o).drainHolds (afterRelease s o).cur sc = false := by
    unfold afterRelease
    split
    · exact State.drainHolds_of_free hfree
    · exact State.drainHolds_of_free hfree
  rw [State.acquireGate, hdrain]
  rfl

end

theorem atomBytes_of_ne {op : AtomOp} {ty : Option Ty} (hop : op ≠ .badd) : atomBytes op ty = (atomTy op ty).bytes := by
  cases op <;> trivial

theorem atomResult_of_ne {op : AtomOp} {ty : Option Ty} (hop : op ≠ .badd) (x : Nat) : atomResult op ty x = extend (atomTy op ty) x := by
  cases op <;> trivial

theorem State.atomNow_of_granted {s s1 : State} {x : AtomArgs} {a : Acc} (hop : x.op ≠ .badd)
    (hres : s.resolve .atomic x.w x.ea (atomTy x.op x.ty).bytes (atomTy x.op x.ty).bytes (atomAt x.op x.ty) = .ok a)
    (hacc : s.access .atomic x.w x.ea (atomTy x.op x.ty).bytes (atomReq x.isRed x.op (atomTy x.op x.ty).bytes) a = .ok s1) :
    s.atomNow x = .ok (s1.performAtomic x.op x.ty x.isRed a (part (atomTy x.op x.ty) x.v).toNat (part (atomTy x.op x.ty) x.e).toNat) := by
  obtain ⟨op, isRed, ty, sc, ord, w, ea, v, e, d⟩ := x
  rw [State.atomNow]
  dsimp only at hop hres hacc ⊢
  rw [atomBytes_of_ne hop, hres, State.precise_of_ok, except_ok_bind, ← toNat_part, ← toNat_part]
  cases op with
  | badd => exact absurd rfl hop
  | _ => exact except_bind_eq rfl (except_bind_eq hacc rfl)

theorem State.atomNow_badd {s s1 s2 : State} {x : AtomArgs} {a c : Acc} (hop : x.op = .badd)
    (hres : s.resolve .atomic x.w x.ea 16 16 (atomAt .badd x.ty) = .ok a) (hload : s.loadAcc x.w (x.ea + 16) 4 = .ok (s1, c))
    (hacc : s1.access .atomic x.w x.ea 16 (atomReq x.isRed .badd 16) a = .ok s2) :
    s.atomNow x =
      let p := baddValue (bitsInt true 32 (s1.valAcc c 4)) x.v
      let s3 := if p.2 then s2.countAll s2.cur [9] else s2
      .ok (s3.performAtomic .badd x.ty x.isRed a (intBits 128 p.1) (x.e.toNat % 2 ^ (8 * 16))) := by
  obtain ⟨op, isRed, ty, sc, ord, w, ea, v, e, d⟩ := x
  obtain rfl : op = .badd := hop
  have hoperand : s.baddOperand w ea v = .ok (s1, intBits 128 (baddValue (bitsInt true 32 (s1.valAcc c 4)) v).1,
      (baddValue (bitsInt true 32 (s1.valAcc c 4)) v).2) := by
    rw [State.baddOperand, hload, except_ok_bind]
  rw [State.atomNow]
  dsimp only
  refine except_bind_eq (State.precise_ok.2 hres) (except_bind_eq hoperand ?_)
  exact except_bind_eq hacc rfl

theorem State.atomAt'_of_values {s : State} {op : AtomOp} {isRed : Bool} {sc : Scope} {o : Ord} {w : Win} {ty : Option Ty}
    {imm : BitVec 24} {d : Dst} {b v e : Src} {lit bv vv ev : Word} {len : Nat} (hb : s.me.src lit b = .value bv)
    (hv : s.me.srcTy (atomTy op ty) lit v = .value vv) (he : op = .cas → s.me.src lit e = .value ev) :
    s.atomAt' op isRed sc o w ty imm d b v e lit len =
      s.atomOp { op, isRed, ty, sc, ord := o, w, ea := bv + imm.signExtend 64, v := vv, e := if op = .cas then ev else 0, d } len := by
  have hcmp : (if op = .cas then s.me.src lit e else .value 0) = .value (if op = .cas then ev else 0) := by
    split
    · exact he ‹_›
    · rfl
  rw [State.atomAt', hb, hv, hcmp, s.need_three_values, except_ok_bind]
  rfl

/-- The new value that an atomic other than `badd` writes. -/
theorem atomEval_of_ne {op : AtomOp} (hop : op ≠ .badd) {ty : Option Ty} {x : Nat} (hx : x < 2 ^ (8 * (atomTy op ty).bytes)) (vv ev : Word) :
    atomEval op (atomTy op ty) (8 * (atomTy op ty).bytes) x (part (atomTy op ty) vv).toNat (part (atomTy op ty) (if op = .cas then ev else 0)).toNat =
      if isIntAtom op then (atomNew op (BitVec.ofNat _ x) (part (atomTy op ty) vv) (part (atomTy op ty) ev)).toNat
      else ((Fmt.ofTy (atomTy op ty)).pack .rne false 0 ((tyVal (atomTy op ty) x).add .rne (tyVal (atomTy op ty) (part (atomTy op ty) vv).toNat))).1 := by
  have hold : (BitVec.ofNat (8 * (atomTy op ty).bytes) x).toNat = x := by rw [BitVec.toNat_ofNat, Nat.mod_eq_of_lt hx]
  by_cases hint : isIntAtom op = true
  · rw [if_pos hint]
    conv_lhs => rw [← hold, atomEval_eq_atomNew hint _ (tyBits_pos _)]
    cases op <;> rfl
  · rw [if_neg hint]
    cases op with
    | fadd => rfl
    | badd => exact absurd rfl hop
    | _ => exact absurd rfl hint

theorem exec_atom {s : State} {i : Instr} {op : AtomOp} {sc : Scope} {o : Ord} {w : Win} {ty : Option Ty} {imm : BitVec 24} {d : Dst}
    {b v e : Src} {lit : Word} {len : Nat} (h : Atom i op sc o w ty imm d b v e lit len) :
    exec i s = complete s (s.atomAt' op false sc o w ty imm d b v e lit len) := by
  cases h <;> rfl

theorem exec_red {s : State} {i : Instr} {op : RedOp} {sc : Scope} {o : Ord} {w : Win} {ty : Option Ty} {imm : BitVec 24}
    {b v : Src} {lit : Word} {len : Nat} (h : Red i op sc o w ty imm b v lit len) :
    exec i s = complete s (s.atomAt' op.atom true sc o w ty imm .zero b v (.w 0) lit len) := by
  cases h <;> rfl

theorem ordRel_iff {o : Ord} : ordRel o = true ↔ o ∈ [.rel, .ar] := by cases o <;> decide
theorem ordAcq_iff {o : Ord} : ordAcq o = true ↔ o ∈ [.acq, .ar] := by cases o <;> decide

theorem red_ord {i : Instr} {op : RedOp} {sc : Scope} {o : Ord} {w : Win} {ty : Option Ty} {imm : BitVec 24} {b v : Src} {lit : Word}
    {len : Nat} (h : Red i op sc o w ty imm b v lit len) : ordAcq o = false ∧ (ordRel o = true ↔ o = .rel) := by
  cases h with
  | red => decide
  | redX f op sc rel => cases rel <;> decide

theorem afterRelease_eq (s : State) (o : Ord) : afterRelease s o = if o ∈ [.rel, .ar] then released s else s :=
  if_congr ordRel_iff rfl rfl

/-- The new value of an atomic other than `badd`: integer arithmetic on bit patterns, or an FP sum rounded RNE. -/
def atomValue (op : AtomOp) (t : Ty) (x : Nat) (vv ev : Word) : Nat :=
  if isIntAtom op then (atomNew op (BitVec.ofNat (8 * t.bytes) x) (part t vv) (part t ev)).toNat
  else ((Fmt.ofTy t).pack .rne false 0 ((tyVal t x).add .rne (tyVal t (part t vv).toNat))).1

theorem State.performAtomic_of_ne {s : State} {op : AtomOp} (hop : op ≠ .badd) {ty : Option Ty} {isRed : Bool} {a : Acc} {vv ev : Word}
    (hx : s.valAcc a (atomTy op ty).bytes < 2 ^ (8 * (atomTy op ty).bytes)) :
    s.performAtomic op ty isRed a (part (atomTy op ty) vv).toNat (part (atomTy op ty) (if op = .cas then ev else 0)).toNat =
      ((s.addPartial a (atomReq isRed op (atomTy op ty).bytes) (atomTy op ty).bytes (part (atomTy op ty) vv).toNat).writeAcc a
        (atomTy op ty).bytes (atomValue op (atomTy op ty) (s.valAcc a (atomTy op ty).bytes) vv ev), s.valAcc a (atomTy op ty).bytes) := by
  rw [State.performAtomic, atomBytes_of_ne hop, atomEval_of_ne hop hx]
  rfl

section
variable {s s1 : State} {op : AtomOp} {isRed : Bool} {sc : Scope} {o : Ord} {w : Win} {ty : Option Ty} {imm : BitVec 24} {d : Dst}
  {b v e : Src} {lit bv vv ev : Word} {len : Nat} {a : Acc} (hb : s.me.src lit b = .value bv)
  (hv : s.me.srcTy (atomTy op ty) lit v = .value vv) (he : op = .cas → s.me.src lit e = .value ev)
  (hrel : ordRel o = true → ReleaseFree s sc) (hgate : s.accessGate = .ok ()) (hfree : ordAcq o = true → AcquireFree s sc)
include hb hv he hrel hgate hfree

theorem State.atomAt'_of_now {u : State} {old : Nat} (hpark : (afterRelease s o).mustPark w (bv + imm.signExtend 64) (atomBytes op ty) = false)
    (hnow : (afterRelease s o).atomNow
      { op, isRed, ty, sc, ord := o, w, ea := bv + imm.signExtend 64, v := vv, e := if op = .cas then ev else 0, d } = .ok (u, old)) :
    s.atomAt' op isRed sc o w ty imm d b v e lit len =
      .ok (atomDone { op, isRed, ty, sc, ord := o, w, ea := bv + imm.signExtend 64, v := vv, e := if op = .cas then ev else 0, d } len u old) := by
  rw [State.atomAt'_of_values hb hv he]
  exact State.atomOp_of_free (State.release_afterRelease hrel) (fun ho => State.acquireGate_afterRelease (hfree ho))
    (State.accessGate_afterRelease hgate) hpark hnow

theorem State.atomAt'_of_granted (hop : op ≠ .badd)
    (hpark : (afterRelease s o).mustPark w (bv + imm.signExtend 64) (atomTy op ty).bytes = false)
    (hres : (afterRelease s o).resolve .atomic w (bv + imm.signExtend 64) (atomTy op ty).bytes (atomTy op ty).bytes (atomAt op ty) = .ok a)
    (hacc : (afterRelease s o).access .atomic w (bv + imm.signExtend 64) (atomTy op ty).bytes (atomReq isRed op (atomTy op ty).bytes) a = .ok s1)
    (hx : s1.valAcc a (atomTy op ty).bytes < 2 ^ (8 * (atomTy op ty).bytes)) :
    s.atomAt' op isRed sc o w ty imm d b v e lit len =
      .ok (atomDone { op, isRed, ty, sc, ord := o, w, ea := bv + imm.signExtend 64, v := vv, e := if op = .cas then ev else 0, d } len
        ((s1.addPartial a (atomReq isRed op (atomTy op ty).bytes) (atomTy op ty).bytes (part (atomTy op ty) vv).toNat).writeAcc a
          (atomTy op ty).bytes (atomValue op (atomTy op ty) (s1.valAcc a (atomTy op ty).bytes) vv ev)) (s1.valAcc a (atomTy op ty).bytes)) := by
  refine State.atomAt'_of_now hb hv he hrel hgate hfree (by rw [atomBytes_of_ne hop]; exact hpark) ?_
  rw [State.atomNow_of_granted hop hres hacc, State.performAtomic_of_ne hop hx]

end

theorem atomDone_atom {op : AtomOp} {ty : Option Ty} {sc : Scope} {o : Ord} {w : Win} {ea v e : Word} {d : Dst} {len old : Nat} {u : State} :
    atomDone { op, isRed := false, ty, sc, ord := o, w, ea, v, e, d } len u old =
      if o ∈ [.acq, .ar] then (u.result d (atomResult op ty old) [] len).acquired sc else u.result d (atomResult op ty old) [] len :=
  if_congr ordAcq_iff rfl rfl

theorem atomDone_red {op : AtomOp} {ty : Option Ty} {sc : Scope} {o : Ord} {w : Win} {ea v e : Word} {d : Dst} {len old : Nat} {u : State}
    (ho : ordAcq o = false) : atomDone { op, isRed := true, ty, sc, ord := o, w, ea, v, e, d } len u old = u.advance len := by
  rw [atomDone, if_neg (by rw [ho]; exact Bool.false_ne_true), if_pos rfl]

/-- `badd` performed: the aligned value added to the cell. -/
theorem State.atomAt'_badd {s s1 s2 : State} {isRed : Bool} {sc : Scope} {o : Ord} {w : Win} {ty : Option Ty} {imm : BitVec 24} {d : Dst}
    {b v e : Src} {lit bv vv : Word} {len : Nat} {a c : Acc} (hb : s.me.src lit b = .value bv)
    (hv : s.me.srcTy (intTy ty) lit v = .value vv) (hrel : ordRel o = true → ReleaseFree s sc) (hgate : s.accessGate = .ok ())
    (hfree : ordAcq o = true → AcquireFree s sc) (hpark : (afterRelease s o).mustPark w (bv + imm.signExtend 64) 16 = false)
    (hres : (afterRelease s o).resolve .atomic w (bv + imm.signExtend 64) 16 16 (atomAt .badd ty) = .ok a)
    (hload : (afterRelease s o).loadAcc w (bv + imm.signExtend 64 + 16) 4 = .ok (s1, c))
    (hacc : s1.access .atomic w (bv + imm.signExtend 64) 16 (atomReq isRed .badd 16) a = .ok s2) :
    let p := baddValue (bitsInt true 32 (s1.valAcc c 4)) vv
    let s3 := if p.2 then s2.countAll s2.cur [9] else s2
    s.atomAt' .badd isRed sc o w ty imm d b v e lit len =
      .ok (atomDone { op := .badd, isRed, ty, sc, ord := o, w, ea := bv + imm.signExtend 64, v := vv, e := 0, d } len
        ((s3.addPartial a (atomReq isRed .badd 16) 16 (intBits 128 p.1)).writeAcc a 16 ((s3.valAcc a 16 + intBits 128 p.1) % 2 ^ 128))
        (s3.valAcc a 16)) :=
  State.atomAt'_of_now (op := .badd) (ev := 0) hb hv (fun h => nomatch h) hrel hgate hfree hpark (State.atomNow_badd rfl hres hload hacc)

theorem part_zero (t : Ty) : part t 0 = 0 := BitVec.setWidth_zero ..

/-- Settles O38. -/
theorem atomicResults : Obligations.AtomicResults := by
  refine ⟨?_, ?_, ?_, ?_⟩
  · intro s s1 i op sc o w ty imm d b v e lit bv vv ev len a hi hop hb hv he hrel hgate hfree s0 t n ea hpark hres hacc x new hx
    have hs0 : afterRelease s o = s0 := afterRelease_eq s o
    rw [← hs0] at hpark hres hacc
    rw [exec_atom hi, State.atomAt'_of_granted hb hv he (fun ho => hrel (ordRel_iff.1 ho)) hgate (fun ho => hfree (ordAcq_iff.1 ho)) hop
      hpark hres hacc hx, complete_ok, atomDone_atom, atomResult_of_ne hop]
    rfl
  · intro s s1 i op sc o w ty imm b v lit bv vv len a hi hop hb hv hrel hgate s0 t n ea hpark hres hacc x new hx
    obtain ⟨hacq, hord⟩ := red_ord hi
    have hs0 : afterRelease s o = s0 := if_congr hord rfl rfl
    have hcas : op.atom ≠ .cas := by cases op <;> decide
    rw [← hs0] at hpark hres hacc
    rw [exec_red hi, State.atomAt'_of_granted (ev := 0) hb hv (fun h => absurd h hcas) (fun ho => hrel (hord.1 ho)) hgate
      (fun ho => absurd ho (by rw [hacq]; exact Bool.false_ne_true)) hop hpark hres hacc hx, complete_ok, atomDone_red hacq, atomValue, part_zero]
  · intro s s1 s2 i sc o w ty imm d b v e lit bv vv len a c hi hb hv hrel hgate hfree s0 ea hpark hres hload hacc
    have hs0 : afterRelease s o = s0 := afterRelease_eq s o
    rw [← hs0] at hpark hres hload
    rw [exec_atom hi, State.atomAt'_badd hb hv (fun ho => hrel (ordRel_iff.1 ho)) hgate (fun ho => hfree (ordAcq_iff.1 ho))
      hpark hres hload hacc, complete_ok, atomDone_atom]
    rfl
  · intro s s1 s2 i sc o w ty imm b v lit bv vv len a c hi hb hv hrel hgate s0 ea hpark hres hload hacc
    obtain ⟨hacq, hord⟩ := red_ord hi
    have hs0 : afterRelease s o = s0 := if_congr hord rfl rfl
    rw [← hs0] at hpark hres hload
    have hred := State.atomAt'_badd (isRed := true) (d := .zero) (e := .w 0) (len := len) hb hv (fun ho => hrel (hord.1 ho)) hgate
      (fun ho => absurd ho (by rw [hacq]; exact Bool.false_ne_true)) hpark hres hload hacc
    exact (exec_red hi).trans ((congrArg (complete s) hred).trans (congrArg Host.Outcome.next (atomDone_red hacq)))

end Sys2Proof.Machine
end

section
/-! PROOF. Byte-count barriers. -/

namespace Sys2Proof.Machine

open Stmt

/-! ## The barrier word (R153, R154) -/

theorem intBits_lt (n : Nat) (i : Int) : intBits n i < 2 ^ n := by
  rw [intBits_eq]
  exact BitVec.isLt _

theorem bitsInt_intBits {p : Int} (hlow : -(2 ^ 31) ≤ p) (hhigh : p < 2 ^ 31) : bitsInt true 32 (intBits 32 p) = p := by
  rw [intBits_eq, bitsInt_true (by decide), BitVec.toInt_ofInt]
  exact Int.bmod_eq_of_le (by omega) (by omega)

theorem barWord_fields (p : Nat) (phase err : Bool) {expect left : Nat} (hexpect : expect < 2 ^ 15) (hleft : left < 2 ^ 15) :
    let v := p * 2 ^ 32 + (if phase then 2 ^ 31 else 0) + (if err then 2 ^ 30 else 0) + expect * 2 ^ 15 + left
    v / 2 ^ 32 = p ∧ (v / 2 ^ 31 % 2 == 1) = phase ∧ (v / 2 ^ 30 % 2 == 1) = err ∧ v / 2 ^ 15 % 2 ^ 15 = expect ∧ v % 2 ^ 15 = left := by
  have hbits (b : Bool) (n : Nat) : (n == 1) = b ↔ (n = 1 ↔ b = true) := by rw [Bool.eq_iff_iff, beq_iff_eq]
  simp only [hbits]
  cases phase <;> cases err <;> simp only [Bool.false_eq_true, if_true, if_false, iff_true, iff_false] <;> refine ⟨?_, ?_, ?_, ?_, ?_⟩ <;> omega

theorem Bar.ofNat_barWord {pend : Int} (phase err : Bool) {expect left : Nat} (hlow : -(2 ^ 31) ≤ pend) (hhigh : pend < 2 ^ 31)
    (hexpect : expect < 2 ^ 15) (hleft : left < 2 ^ 15) :
    Bar.ofNat (barWord pend phase err expect left) = { pend, phase, err, expect, left } := by
  obtain ⟨hp, hph, her, hex, hle⟩ := barWord_fields (intBits 32 pend) phase err hexpect hleft
  rw [Bar.ofNat, barWord, hp, hph, her, hex, hle, bitsInt_intBits hlow hhigh]

theorem Bar.test_eq (b : Bar) : b.test =
    if b.pend < 0 then ({ pend := 0, phase := !b.phase, err := true, expect := b.expect, left := b.expect }, true)
    else if b.left = 0 ∧ b.pend = 0 then ({ pend := 0, phase := !b.phase, err := false, expect := b.expect, left := b.expect }, false)
    else (b, false) := by
  obtain ⟨pend, phase, err, expect, left⟩ := b
  rw [Bar.test]
  by_cases hdone : left = 0 ∧ pend = 0
  · obtain ⟨rfl, rfl⟩ := hdone
    rfl
  · rw [if_neg hdone, if_neg hdone]

theorem State.putBar_of_lm {s : State} {a : Acc} {b : Bar} {o : CoreId} {w : Option Win} {off : Nat} (hplace : a.place = .lm o w off) :
    s.putBar a b =
      if b.test.2 then (s.write s.self a.keys (leBytes 8 b.test.1.toNat)).countAll o [11]
      else s.write s.self a.keys (leBytes 8 b.test.1.toNat) := by
  have howner (c : CoreId) : a.owner c = o := by rw [Acc.owner, hplace]
  have hwrite : s.writeAcc a 8 b.test.1.toNat = s.write s.self a.keys (leBytes 8 b.test.1.toNat) :=
    State.writeAcc_of_bytes (by simp [hplace]) (by simp [hplace]) ..
  rw [State.putBar]
  simp only [howner, hwrite]

/-! ## Reaching a barrier word -/

theorem State.core_launch_modMe (s : State) {f : Ctx → Ctx} (c : CoreId) : ((s.modMe f).core c).launch = (s.core c).launch := by
  by_cases hc : c = s.cur
  · subst hc
    have h := congrArg Core.launch (State.core_setCore s s.cur ((s.core s.cur).setCtx s.slot (f s.me)))
    exact h
  · rw [State.core_modMe_ne _ _ hc]

theorem State.touched_modMe (s : State) {f : Ctx → Ctx} (w : Win) (off n : Nat) :
    (s.modMe f).myCore.touched w off n = s.myCore.touched w off n := by
  have h := congrArg (fun x : Core => x.touched w off n) (State.core_setCore s s.cur ((s.core s.cur).setCtx s.slot (f s.me)))
  exact h

theorem reached_released {s : State} {k : AKind} {w : Win} {ea : Word} {n : Nat} {r : Req} {a : Acc} (h : Reached s k w ea n r a) :
    Reached (released s) k w ea n r a := by
  unfold Reached at h ⊢
  simp only [released, State.me_modMe, State.myLaunch_modMe, State.walk_modMe, State.core_launch_modMe, State.touched_modMe]
  exact h

theorem place_lm_of_reached {s : State} {k : AKind} {w : Win} {ea : Word} {n : Nat} {r : Req} {a : Acc} (hk : k ∈ [.barrier, .barrierRead])
    (h : Reached s k w ea n r a) : ∃ c v off, a.place = .lm c v off := by
  obtain ⟨-, -, -, -, -, -, -, -, ⟨-, -, -, -, rfl⟩ | ⟨-, -, f, -, -, -, ⟨c, v, off, -, -, -, -, -, rfl⟩ | ⟨hbar, -, -, rfl⟩⟩⟩ := h
  · exact ⟨_, _, _, rfl⟩
  · exact ⟨_, _, _, rfl⟩
  · exact absurd hk hbar

theorem State.barAcc_of_reached {s : State} {k : AKind} {w : Win} {ea : Word} {r : Req} {a : Acc} (hk : k ∈ [.barrier, .barrierRead])
    (hr : (if k.writes then .store else .read) = r) (h : Reached s k w ea 8 r a) : s.barAcc k w ea = .ok (performed s a r, a) := by
  subst hr
  obtain ⟨c, v, off, hplace⟩ := place_lm_of_reached hk h
  have hkinds : k ∈ [.load, .store, .barrier, .barrierRead] := by
    rcases List.mem_pair.1 hk with rfl | rfl <;> decide
  rw [State.barAcc, State.accessGate_of_reached h, except_ok_bind, State.resolve_of_reached hkinds (by decide) h, State.precise_of_ok,
    except_ok_bind, State.access_of_reached h, except_ok_bind, hplace]

theorem State.valAcc_of_lm {s : State} {a : Acc} {c : CoreId} {v : Option Win} {off : Nat} (hplace : a.place = .lm c v off) (n : Nat) :
    s.valAcc a n = leNat (s.bytesAt a.keys) := by
  rw [State.valAcc, State.readAcc, hplace]

theorem valAcc_performed_of_reached {s t : State} {k : AKind} {w : Win} {ea : Word} {n : Nat} {r : Req} {a : Acc} (hk : k ∈ [.barrier, .barrierRead])
    (h : Reached s k w ea n r a) (hmem : t.mem = s.mem) (q : Req) (m : Nat) : (performed t a q).valAcc a m = s.valAcc a m := by
  obtain ⟨c, v, off, hplace⟩ := place_lm_of_reached hk h
  have hperf : (performed t a q).mem = t.mem := (t.performAcc_sameButCoherence a q).mem
  rw [State.valAcc_of_lm hplace, State.valAcc_of_lm hplace, State.bytesAt_of_mem_eq (hperf.trans hmem)]

/-- The places that order 1 of R127 lets a barrier's access pass. -/
def BarInside (s : State) (w : Win) (ea : Word) : Prop := w = .glob ∨ (w = .G ∧ ea.toNat < s.myLaunch.split.size w)

theorem barInside_of_reached {s : State} {w : Win} {ea : Word} {r : Req} {a : Acc} (h : Reached s .barrier w ea 8 r a) : BarInside s w ea := by
  obtain ⟨-, -, -, -, -, -, -, -, ⟨hglob, hwin, hin, -⟩ | ⟨hglob, -⟩⟩ := h
  · refine .inr ⟨?_, by omega⟩
    cases w with
    | G => rfl
    | glob => exact absurd rfl hglob
    | W | A | C => cases hwin
  · exact .inl hglob

theorem State.barBounds_of_inside {s : State} {w : Win} {ea : Word} (h : BarInside s w ea) (ok : Bool) :
    s.barBounds w ea ok = check ok .bounds ea := by
  have hgate : s.windowGate .barrier w ea = .ok () := by
    rw [State.windowGate, check_ok]
    rcases h with rfl | ⟨rfl, hin⟩
    · rfl
    · rw [decide_eq_true hin]
      rfl
  rw [State.barBounds, hgate, except_ok_bind]

/-! ## The instructions -/

theorem exec_barinit {s : State} {i : Instr} {sc : Scope} {w : Win} {imm : BitVec 24} {b n : Src} {lit : Word} {len : Nat}
    (h : Barinit i sc w imm b n lit len) : exec i s = complete s (s.barinitOp sc w imm b n lit len) := by
  cases h <;> rfl

theorem exec_barexp {s : State} {i : Instr} {w : Win} {imm : BitVec 24} {b n : Src} {lit : Word} {len : Nat}
    (h : Barexp i w imm b n lit len) : exec i s = complete s (s.barexpOp w imm b n lit len) := by
  cases h <;> rfl

theorem exec_bararr {s : State} {i : Instr} {sc : Scope} {w : Win} {imm : BitVec 24} {d : Dst} {b n : Src} {lit : Word} {len : Nat}
    (h : Bararr i sc w imm d b n lit len) : exec i s = complete s (s.bararrOp sc w imm d b n lit len) := by
  cases h <;> rfl

theorem exec_barwait {s : State} {i : Instr} {sc : Scope} {w : Win} {chk : Bool} {imm : BitVec 24} {d : Dst} {b p : Src} {lit : Word}
    {len : Nat} (h : Barwait i sc w chk imm d b p lit len) : exec i s = complete s (s.barwaitOp sc w chk imm d b p lit len) := by
  cases h <;> rfl

section
variable {s s1 : State} {sc : Scope} {w : Win} {imm : BitVec 24} {d : Dst} {b n : Src} {lit bv nv : Word} (len : Nat) {a : Acc}
  (hb : s.me.src lit b = .value bv) (hn : s.me.src lit n = .value nv) (hin : BarInside s w (bv + imm.signExtend 64))
include hb hn hin

theorem State.barinitOp_of_bounds (h : nv.toNat = 0 ∨ 32767 < nv.toNat) :
    s.barinitOp sc w imm b n lit len = trap .bounds (bv + imm.signExtend 64) := by
  have hcount : (decide (1 ≤ nv.toNat) && decide (nv.toNat ≤ 32767)) = false := by
    rw [Bool.and_eq_false_iff, decide_eq_false_iff_not, decide_eq_false_iff_not]
    omega
  rw [State.barinitOp, State.use2_ok.2 ⟨hb, hn⟩, except_ok_bind]
  dsimp only
  rw [ea2_eq, State.barBounds_of_inside hin, hcount]
  rfl

theorem State.barinitOp_of_reached (hlow : 1 ≤ nv.toNat) (hhigh : nv.toNat ≤ 32767) (hrel : ReleaseFree s sc)
    (hacc : (released s).barAcc .barrier w (bv + imm.signExtend 64) = .ok (s1, a)) :
    s.barinitOp sc w imm b n lit len =
      .ok ((s1.putBar a { pend := 0, phase := false, err := false, expect := nv.toNat, left := nv.toNat }).advance len) := by
  have hcount : (decide (1 ≤ nv.toNat) && decide (nv.toNat ≤ 32767)) = true := by
    rw [Bool.and_eq_true, decide_eq_true_iff, decide_eq_true_iff]
    exact ⟨hlow, hhigh⟩
  rw [State.barinitOp, State.use2_ok.2 ⟨hb, hn⟩, except_ok_bind]
  dsimp only
  rw [ea2_eq, State.barBounds_of_inside hin, check_bind_of_true hcount, State.release_of_free hrel, except_ok_bind, hacc, except_ok_bind]

theorem State.barexpOp_of_bounds (h : 2 ^ 31 ≤ nv.toNat) : s.barexpOp w imm b n lit len = trap .bounds (bv + imm.signExtend 64) := by
  rw [State.barexpOp, State.use2_ok.2 ⟨hb, hn⟩, except_ok_bind]
  dsimp only
  rw [ea2_eq, State.barBounds_of_inside hin, check_bind_of_false (decide_eq_false (Nat.not_lt.2 h))]
  rfl

theorem State.barexpOp_of_reached (hnv : nv.toNat < 2 ^ 31) (hacc : s.barAcc .barrier w (bv + imm.signExtend 64) = .ok (s1, a))
    (hsum : (Bar.ofNat (s1.valAcc a 8)).pend + nv.toNat < 2 ^ 31) :
    s.barexpOp w imm b n lit len =
      .ok ((s1.putBar a { Bar.ofNat (s1.valAcc a 8) with pend := (Bar.ofNat (s1.valAcc a 8)).pend + nv.toNat }).advance len) := by
  rw [State.barexpOp, State.use2_ok.2 ⟨hb, hn⟩, except_ok_bind]
  dsimp only
  rw [ea2_eq, State.barBounds_of_inside hin, check_bind_of_true (decide_eq_true hnv), hacc, except_ok_bind]
  dsimp only
  rw [check_bind_of_true (decide_eq_true hsum)]

theorem State.bararrOp_of_bounds (h : 2 ^ 31 ≤ nv.toNat) : s.bararrOp sc w imm d b n lit len = trap .bounds (bv + imm.signExtend 64) := by
  rw [State.bararrOp, State.use2_ok.2 ⟨hb, hn⟩, except_ok_bind]
  dsimp only
  rw [ea2_eq, State.barBounds_of_inside hin, check_bind_of_false (decide_eq_false (Nat.not_lt.2 h))]
  rfl

theorem State.bararrOp_of_reached (hnv : nv.toNat < 2 ^ 31) (hrel : ReleaseFree s sc)
    (hacc : (released s).barAcc .barrier w (bv + imm.signExtend 64) = .ok (s1, a)) (hleft : (Bar.ofNat (s1.valAcc a 8)).left ≠ 0)
    (hsum : (Bar.ofNat (s1.valAcc a 8)).pend + nv.toNat < 2 ^ 31) :
    s.bararrOp sc w imm d b n lit len =
      .ok ((s1.putBar a { Bar.ofNat (s1.valAcc a 8) with
        pend := (Bar.ofNat (s1.valAcc a 8)).pend + nv.toNat, left := (Bar.ofNat (s1.valAcc a 8)).left - 1 }).result d
          (word (s1.valAcc a 8)) [] len) := by
  have hcheck : ((Bar.ofNat (s1.valAcc a 8)).left != 0 && decide ((Bar.ofNat (s1.valAcc a 8)).pend + nv.toNat < 2 ^ 31)) = true := by
    rw [decide_eq_true hsum, Bool.and_true]
    exact bne_iff_ne.2 hleft
  rw [State.bararrOp, State.use2_ok.2 ⟨hb, hn⟩, except_ok_bind]
  dsimp only
  rw [ea2_eq, State.barBounds_of_inside hin, check_bind_of_true (decide_eq_true hnv), State.release_of_free hrel, except_ok_bind, hacc,
    except_ok_bind]
  dsimp only
  rw [check_bind_of_true hcheck]

end

theorem phase_bit (p : Word) : (wbits p 0 1 == 1) = p.getLsbD 0 := by
  rw [BitVec.getLsbD, Nat.testBit_zero, wbits, Nat.pow_zero, Nat.div_one, Nat.pow_one]
  rfl

theorem State.barwaitOp_of_reached {s s1 : State} {sc : Scope} {w : Win} {chk : Bool} {imm : BitVec 24} {d : Dst} {b p : Src} {lit bv pv : Word}
    {len : Nat} {a : Acc} (hb : s.me.src lit b = .value bv) (hp : s.me.src lit p = .value pv) (hfree : AcquireFree s sc)
    (hacc : s.barAcc .barrierRead w (bv + imm.signExtend 64) = .ok (s1, a)) :
    s.barwaitOp sc w chk imm d b p lit len =
      let x := Bar.ofNat (s1.valAcc a 8)
      if x.phase = pv.getLsbD 0 then .error .sleep
      else if chk && x.err then trap .barrierOverrun (bv + imm.signExtend 64)
      else .ok ((s1.result d (word (s1.valAcc a 8)) [] len).acquired sc) := by
  have hgate : s.acquireGate sc = .ok () := by rw [State.acquireGate, State.drainHolds_of_free hfree]; rfl
  rw [State.barwaitOp, State.use2_ok.2 ⟨hb, hp⟩, except_ok_bind]
  dsimp only
  rw [hgate, except_ok_bind, ea2_eq, hacc, except_ok_bind]
  dsimp only
  rw [phase_bit]
  by_cases hphase : (Bar.ofNat (s1.valAcc a 8)).phase = pv.getLsbD 0
  · rw [if_pos (beq_iff_eq.2 hphase), if_pos hphase]
  · rw [if_neg (by rwa [beq_iff_eq]), if_neg hphase]
    cases chk && (Bar.ofNat (s1.valAcc a 8)).err <;> rfl

/-- Settles O39. -/
theorem barrierWords : Obligations.BarrierWords := by
  refine ⟨fun pend phase err expect left hlow hhigh hexpect hleft => ⟨Bar.ofNat_barWord phase err hlow hhigh hexpect hleft, rfl⟩, Bar.test_eq,
    fun s a b o w off hplace => State.putBar_of_lm hplace, ?_, ?_, ?_, ?_⟩
  · intro s s1 i sc w imm b n lit bv nv len a hi hb hn ea inside new
    rw [exec_barinit hi]
    refine ⟨fun hin hbad => ?_, fun hlow hhigh hrel => ⟨fun hin hacc => ?_, fun h => ?_⟩⟩
    · rw [State.barinitOp_of_bounds len hb hn hin hbad]
      rfl
    · rw [State.barinitOp_of_reached len hb hn hin hlow hhigh hrel hacc]
      rfl
    · rw [State.barinitOp_of_reached len hb hn (barInside_of_reached h) hlow hhigh hrel (State.barAcc_of_reached (by decide) rfl (reached_released h))]
      rfl
  · intro s s1 i w imm b n lit bv nv len a hi hb hn ea inside
    rw [exec_barexp hi]
    refine ⟨fun hin hbad => ?_, fun hnv => ⟨fun hin hacc hsum => ?_, fun h hsum => ?_⟩⟩
    · rw [State.barexpOp_of_bounds len hb hn hin hbad]
      rfl
    · rw [State.barexpOp_of_reached len hb hn hin hnv hacc hsum]
      rfl
    · have hval := valAcc_performed_of_reached (by decide) h (t := s) rfl .store 8
      have hacc : s.barAcc .barrier w ea = .ok (performed s a .store, a) := State.barAcc_of_reached (by decide) rfl h
      rw [State.barexpOp_of_reached len hb hn (barInside_of_reached h) hnv hacc (by rw [hval]; exact hsum), hval]
      rfl
  · intro s s1 i sc w imm d b n lit bv nv len a hi hb hn ea inside
    rw [exec_bararr hi]
    refine ⟨fun hin hbad => ?_, fun hnv hrel => ⟨fun hin hacc hleft hsum => ?_, fun h hleft hsum => ?_⟩⟩
    · rw [State.bararrOp_of_bounds len hb hn hin hbad]
      rfl
    · rw [State.bararrOp_of_reached len hb hn hin hnv hrel hacc hleft hsum]
      rfl
    · have hval := valAcc_performed_of_reached (by decide) h (t := released s) rfl .store 8
      have hacc : (released s).barAcc .barrier w ea = .ok (performed (released s) a .store, a) :=
        State.barAcc_of_reached (by decide) rfl (reached_released h)
      rw [State.bararrOp_of_reached len hb hn (barInside_of_reached h) hnv hrel hacc
        (by rw [hval]; exact hleft) (by rw [hval]; exact hsum), hval]
      rfl
  · intro s s1 i sc w chk imm d b p lit bv pv len a hi hb hp hfree ea
    rw [exec_barwait hi]
    refine ⟨fun hacc => ?_, fun h hphase herr => ?_⟩
    · rw [State.barwaitOp_of_reached hb hp hfree hacc]
      dsimp only
      split
      · rfl
      · split <;> rfl
    · have hval := valAcc_performed_of_reached (by decide) h (t := s) rfl .read 8
      have hacc : s.barAcc .barrierRead w ea = .ok (performed s a .read, a) := State.barAcc_of_reached (by decide) rfl h
      rw [State.barwaitOp_of_reached hb hp hfree hacc, hval, if_neg hphase, if_neg (by simpa using herr)]
      rfl

end Sys2Proof.Machine
end

section
/-! PROOF. Formats: rounding a value that a format holds. -/

namespace Sys2Proof.Machine

open Stmt

namespace Fmt
variable (f : Fmt)

/-! ## Encodings (R44, R45) -/

/-- The fields of an encoding put together again. -/
theorem enc_fields {b : Nat} (hb : b < 2 ^ f.width) :
    f.enc (b / 2 ^ (f.fb + f.xb) % 2 == 1) (b / 2 ^ f.fb % 2 ^ f.xb) (b % 2 ^ f.fb) = b := by
  have hsign : b / 2 ^ (f.fb + f.xb) < 2 := by
    rw [Nat.div_lt_iff_lt_mul (by positivity), ← Nat.pow_succ']
    exact hb.trans_le (Nat.pow_le_pow_right (by decide) (by rw [width]; omega))
  have hfields : 2 ^ (f.fb + f.xb) * (b / 2 ^ (f.fb + f.xb)) + (2 ^ f.fb * (b / 2 ^ f.fb % 2 ^ f.xb) + b % 2 ^ f.fb) = b := by
    rw [Nat.pow_add, ← Nat.div_div_eq_div_mul, Nat.mul_assoc, ← Nat.add_assoc, ← Nat.mul_add, Nat.add_comm (2 ^ f.xb * _) _,
      Nat.mod_add_div, Nat.div_add_mod]
  rw [enc, Nat.add_comm f.xb f.fb]
  rcases Nat.lt_succ_iff.1 hsign |>.eq_or_lt with h1 | h0
  · rw [h1] at hfields ⊢
    simp only [Nat.mul_one] at hfields
    simp only [Nat.reduceMod, BEq.rfl, if_true]
    rw [Nat.mul_comm _ (2 ^ f.fb), Nat.add_assoc, hfields]
  · rw [Nat.lt_one_iff.1 h0] at hfields ⊢
    simp only [Nat.mul_zero, Nat.zero_add] at hfields
    rw [Nat.mul_comm _ (2 ^ f.fb)]
    simpa using hfields

/-! ## Rounding an exact value to its own format (R46) -/

theorem pack_subnormal (mode : RMode) (ovf8 : Bool) (r : Nat) (neg : Bool) {fr : Nat} (hfr : fr < 2 ^ f.fb) :
    f.pack mode ovf8 r (.fin neg fr (1 - (f.bias : Int) - f.fb)) = (f.enc neg 0 fr, []) := by
  by_cases hzero : fr = 0
  · subst hzero
    rfl
  · have hlog : Nat.log2 fr < f.fb := (Nat.log2_lt hzero).2 hfr
    have hq : max ((Nat.log2 fr : Int) + (1 - (f.bias : Int) - f.fb)) (1 - (f.bias : Int)) - f.fb = 1 - (f.bias : Int) - f.fb := by
      rw [max_eq_right (by omega)]
    have hwide : ¬fr ≥ 2 ^ (f.fb + 1) := by rw [Nat.pow_succ]; omega
    simp only [pack, if_neg hzero, hq, le_refl, if_true, Int.sub_self, Int.toNat_zero, Nat.pow_zero, Nat.mul_one, if_neg hwide, if_pos hfr,
      Bool.false_eq_true, if_false]

theorem pack_normal (mode : RMode) (ovf8 : Bool) (r : Nat) (neg : Bool) {x fr : Nat} (hx : 0 < x) (hfr : fr < 2 ^ f.fb)
    (hfin : if f.hasInf then x < 2 ^ f.xb - 1 else x < 2 ^ f.xb ∧ ¬(x + 1 = 2 ^ f.xb ∧ fr = 2 ^ f.fb - 1)) :
    f.pack mode ovf8 r (.fin neg (2 ^ f.fb + fr) ((x : Int) - f.bias - f.fb)) = (f.enc neg x fr, []) := by
  have hpos : 0 < 2 ^ f.fb := by positivity
  have hnz : ¬2 ^ f.fb + fr = 0 := by omega
  have hwide : ¬2 ^ f.fb + fr ≥ 2 ^ (f.fb + 1) := by rw [Nat.pow_succ]; omega
  have hlog : Nat.log2 (2 ^ f.fb + fr) = f.fb := by
    rw [Nat.log2_eq_iff hnz]
    omega
  have hq : max ((f.fb : Int) + ((x : Int) - f.bias - f.fb)) (1 - (f.bias : Int)) - f.fb = (x : Int) - f.bias - f.fb := by
    rw [max_eq_left (by omega)]
    omega
  have hlow : ¬2 ^ f.fb + fr < 2 ^ f.fb := by omega
  have hexp : ((x : Int) - f.bias - f.fb + f.fb + f.bias).toNat = x := by omega
  simp only [pack, if_neg hnz, hlog, hq, le_refl, if_true, Int.sub_self, Int.toNat_zero, Nat.pow_zero, Nat.mul_one, if_neg hwide, if_neg hlow,
    hexp, Nat.add_sub_cancel_left]
  refine if_neg ?_
  cases hinf : f.hasInf with
  | true =>
    rw [hinf, if_pos rfl] at hfin
    simp
    omega
  | false =>
    rw [hinf, if_neg Bool.false_ne_true] at hfin
    obtain ⟨hlt, hnan⟩ := hfin
    simpa [Nat.not_le.2 hlt] using hnan

/-- Rounding the value of an encoding gives the encoding back. -/
theorem pack_val (mode : RMode) (ovf8 : Bool) (r : Nat) {b : Nat} (hb : b < 2 ^ f.width) (hnan : f.val b ≠ .nan) :
    f.pack mode ovf8 r (f.val b) = (b, []) := by
  have hfr : b % 2 ^ f.fb < 2 ^ f.fb := Nat.mod_lt _ (by positivity)
  have hxlt : b / 2 ^ f.fb % 2 ^ f.xb < 2 ^ f.xb := Nat.mod_lt _ (by positivity)
  have henc := f.enc_fields hb
  revert hnan
  rw [val]
  generalize b % 2 ^ f.fb = fr at hfr henc
  generalize b / 2 ^ f.fb % 2 ^ f.xb = x at hxlt henc
  generalize (b / 2 ^ (f.fb + f.xb) % 2 == 1) = neg at henc
  by_cases hinf : x = 2 ^ f.xb - 1 ∧ f.hasInf
  · rw [if_pos hinf]
    by_cases hzero : fr = 0
    · intro _
      rw [if_pos hzero, pack, if_pos hinf.2, inf, ← hinf.1, ← hzero, henc]
    · rw [if_neg hzero]
      exact fun h => absurd rfl h
  · rw [if_neg hinf]
    by_cases hlast : x = 2 ^ f.xb - 1 ∧ fr = 2 ^ f.fb - 1
    · rw [if_pos hlast]
      exact fun h => absurd rfl h
    · rw [if_neg hlast]
      intro _
      by_cases hx : x = 0
      · rw [if_pos hx, pack_subnormal f mode ovf8 r neg hfr, ← hx, henc]
      · rw [if_neg hx, pack_normal f mode ovf8 r neg (Nat.pos_of_ne_zero hx) hfr, henc]
        split
        · rename_i hhas
          rw [hhas] at hinf
          simp only [and_true] at hinf
          omega
        · refine ⟨hxlt, fun h => hlast ⟨by omega, h.2⟩⟩

end Fmt

theorem Fmt.ofTy_width {t : Ty} (ht : t.isFloat = true) : (Fmt.ofTy t).width = 8 * t.bytes := by
  cases t <;> trivial

/-- Settles O17. -/
theorem fpExactValuesRoundTrip : Obligations.FpExactValuesRoundTrip := by
  intro t mode draw b ht hb
  have hval : tyVal t b = (Fmt.ofTy t).val b := by rw [tyVal, if_pos ht, Nat.mod_eq_of_lt hb]
  rw [hval]
  split
  · rename_i hnan
    rw [hnan]
    rfl
  · exact Fmt.pack_val _ mode false draw (by rw [Fmt.ofTy_width ht]; exact hb) ‹_›

end Sys2Proof.Machine
end

section
/-! PROOF. Floating-point instructions: logs, affine forms and results. -/

namespace Sys2Proof.Machine

open Stmt

/-! ## One symbolic source among VALUEs -/

section
variable {r : Reg} (hr : r.symbolic = true)
include hr

theorem filter_insertIdx_value (ks : List Word) (p : Nat) (hp : p ≤ ks.length) :
    ((ks.map Reg.value).insertIdx p r).filter (fun q => !q.symbolic) = ks.map .value := by
  induction p generalizing ks with
  | zero =>
    have hvalues : (ks.map Reg.value).filter (fun q => !q.symbolic) = ks.map .value := by
      rw [List.filter_eq_self]
      intro q hq
      obtain ⟨v, -, rfl⟩ := List.mem_map.1 hq
      rfl
    rw [List.insertIdx_zero, List.filter_cons_of_neg (by simp [hr]), hvalues]
  | succ p ih =>
    cases ks with
    | nil => cases hp
    | cons k ks =>
      rw [List.map_cons, List.insertIdx_succ_cons, List.filter_cons_of_pos rfl, ih ks (Nat.le_of_succ_le_succ hp)]

theorem findIdx_insertIdx_value (ks : List Word) (p : Nat) (hp : p ≤ ks.length) :
    ((ks.map Reg.value).insertIdx p r).findIdx Reg.symbolic = p := by
  induction p generalizing ks with
  | zero => rw [List.insertIdx_zero, List.findIdx_cons, hr]; rfl
  | succ p ih =>
    cases ks with
    | nil => cases hp
    | cons k ks =>
      rw [List.map_cons, List.insertIdx_succ_cons, List.findIdx_cons, show (Reg.value k).symbolic = false from rfl, cond_false,
        ih ks (Nat.le_of_succ_le_succ hp)]

end

theorem getD_insertIdx_self {α : Type} (l : List α) (p : Nat) (r x : α) (hp : p ≤ l.length) : (l.insertIdx p r).getD p x = r := by
  rw [List.getD_eq_getElem _ _ (by rw [List.length_insertIdx_of_le_length hp]; omega), List.getElem_insertIdx_self]

theorem val_getD_map_value (ks : List Word) (i : Nat) : ((ks.map Reg.value).getD i (.value 0)).val = ks.getD i 0 := by
  rw [List.getD_map, Reg.val]

theorem exec_fpArith {s : State} {i : Instr} {fn : Nat} {t : Ty} {rnd : Rnd} {fa : Bool} {d : Dst} {rs : List Reg} {len : Nat}
    (h : FpArith s.me i fn t rnd fa d rs len) : ∃ ty, t = fpTy ty ∧ exec i s = complete s (s.fpLog fn ty rnd fa d rs len) := by
  cases h <;> exact ⟨_, rfl, rfl⟩

theorem foldFp_of_one_symbolic {fn : Nat} {fa : Bool} {t : Ty} {mode : RMode} {r : Reg} {ks : List Word} {p : Nat} (hr : r.symbolic = true)
    (hp : p ≤ ks.length) :
    foldFp fn fa t mode ((ks.map Reg.value).insertIdx p r) =
      if fa then r.aff'.map fun x =>
        .aff x.1 (affStep fn p x.2.1 x.2.2 (lo32 (ks.getD 0 0)) (lo32 (ks.getD 1 0))).1
          (affStep fn p x.2.1 x.2.2 (lo32 (ks.getD 0 0)) (lo32 (ks.getD 1 0))).2
      else r.logged.map fun x =>
        .log x.1 (x.2 ++ [{ fn := Fin.ofNat 4 fn, pos := Fin.ofNat 3 p, ty := t, rnd := mode, k1 := ks.getD 0 0, k2 := ks.getD 1 0 }]) := by
  have hlen : ((ks.map Reg.value).insertIdx p r).length = ks.length + 1 := by
    rw [List.length_insertIdx_of_le_length (by rwa [List.length_map]), List.length_map]
  rw [foldFp]
  simp only [filter_insertIdx_value hr ks p hp, findIdx_insertIdx_value hr ks p hp,
    getD_insertIdx_self (ks.map Reg.value) p r (.value 0) (by rwa [List.length_map]), val_getD_map_value, hlen, List.length_map, ne_eq, not_true,
    if_false]
  cases fa with
  | true => cases r.aff' <;> rfl
  | false => cases r.logged <;> rfl

theorem le_length_of_lt_insertIdx {ks : List Word} {p : Nat} {r : Reg} (hp : p < ((ks.map Reg.value).insertIdx p r).length) : p ≤ ks.length := by
  by_contra hlt
  rw [List.length_insertIdx_of_length_lt (by rw [List.length_map]; omega), List.length_map] at hp
  omega

/-- Settles O18. -/
theorem fpLogsAndAffineForms : Obligations.FpLogsAndAffineForms := by
  refine ⟨fun s i fn t rnd d rs len p r ks σ l h hfold hlog hp hrs hr => ?_, fun s i fn t rnd d rs len p r ks σ a b h hfold hlog hp hrs hr => ?_⟩
  · obtain ⟨ty, rfl, hexec⟩ := exec_fpArith h
    have hsym : r.symbolic = true := by rcases hr with ⟨rfl, -⟩ | ⟨rfl, -⟩ <;> rfl
    have hlogged : r.logged = some (σ, l) := by
      rcases hr with ⟨rfl, rfl⟩ | ⟨rfl, hlen⟩
      · rfl
      · exact if_pos hlen
    subst hrs
    rw [hexec, State.fpLog]
    simp only [hfold, hlog, foldFp_of_one_symbolic hsym (le_length_of_lt_insertIdx hp), hlogged, Bool.or_self, Bool.false_eq_true, if_false,
      Option.map_some, Fin.ofNat_eq_cast, Fin.cast_val_eq_self, complete_ok]
  · obtain ⟨ty, rfl, hexec⟩ := exec_fpArith h
    have hsym : r.symbolic = true := by rcases hr with ⟨rfl, -⟩ | rfl <;> rfl
    have haff : r.aff' = some (σ, a, b) := by
      rcases hr with ⟨rfl, rfl, rfl⟩ | rfl <;> rfl
    subst hrs
    rw [hexec, State.fpLog]
    simp only [hfold, hlog, foldFp_of_one_symbolic hsym (le_length_of_lt_insertIdx hp), haff, Bool.or_self, Bool.false_eq_true, if_false, if_true,
      Option.map_some, complete_ok]
    rfl

/-! ## Results on VALUEs (R89 to R92) -/

theorem foldFp_values (fn : Nat) (fa : Bool) (t : Ty) (mode : RMode) (vs : List Word) : foldFp fn fa t mode (vs.map .value) = none := by
  have hknown : (vs.map Reg.value).filter (fun q => !q.symbolic) = vs.map .value := by
    rw [List.filter_eq_self]
    intro q hq
    obtain ⟨v, -, rfl⟩ := List.mem_map.1 hq
    rfl
  rw [foldFp]
  simp only [hknown]
  exact if_pos (Nat.succ_ne_self _)

theorem State.fpLog_values (s : State) (fn : Nat) (ty : Option Ty) (rnd : Rnd) (fa : Bool) (d : Dst) (vs : List Word) (len : Nat) :
    s.fpLog fn ty rnd fa d (vs.map .value) len =
      let r := rounded (fpTy ty) (s.me.mode' rnd) (fpOp (s.me.mode' rnd) fn (tyVal (fpTy ty) (vs.getD 0 0).toNat)
        (tyVal (fpTy ty) (vs.getD 1 0).toNat) (tyVal (fpTy ty) (vs.getD 2 0).toNat))
      .ok (s.result d r.1 r.2 len) := by
  rw [State.fpLog]
  simp only [foldFp_values, ite_self, s.need_values, except_ok_bind, val_getD_map_value]
  rfl

theorem fpArith_shape {t : Ctx} {i : Instr} {fn : Nat} {ty : Ty} {rnd : Rnd} {fa : Bool} {d : Dst} {rs : List Reg} {len : Nat}
    (h : FpArith t i fn ty rnd fa d rs len) : (fn ∈ [0, 1, 2] ∧ rs.length = 2) ∨ (fn = 3 ∧ rs.length = 3) := by
  cases h with
  | fadd | faddX | fsub | fsubX | fmul | fmulX => exact .inl ⟨by decide, rfl⟩
  | fma | fmaL | fmaX | fmaXL => exact .inr ⟨rfl, rfl⟩

theorem fpOp_eq_exactFp {fn : Nat} {vs : List Word} (h : (fn ∈ [0, 1, 2] ∧ vs.length = 2) ∨ (fn = 3 ∧ vs.length = 3)) (mode : RMode)
    (g : Word → FpVal) : fpOp mode fn (g (vs.getD 0 0)) (g (vs.getD 1 0)) (g (vs.getD 2 0)) = exactFp mode fn (vs.map g) := by
  rcases h with ⟨hfn, hlen⟩ | ⟨rfl, hlen⟩
  · obtain ⟨a, b, rfl⟩ := List.length_eq_two.1 hlen
    fin_cases hfn <;> rfl
  · obtain ⟨a, b, c, rfl⟩ := List.length_eq_three.1 hlen
    rfl

theorem State.fpBlock_values (s : State) (ty : Option Ty) (rnd : Rnd) (op : RMode → List FpVal → FpVal) (d : Dst) (vs : List Word) (len : Nat) :
    s.fpBlock ty rnd op d (vs.map .value) len =
      let r := rounded (fpTy ty) (s.me.mode' rnd) (op (s.me.mode' rnd) (vs.map fun v => tyVal (fpTy ty) v.toNat))
      .ok (s.result d r.1 r.2 len) := by
  simp only [State.fpBlock, s.need_values, except_ok_bind, List.map_map]
  rfl

/-- An FP instruction that blocks is its operation on the values of its sources. -/
theorem exec_fpOther {s : State} {i : Instr} {op : FpVal → FpVal → FpVal} {t : Ty} {rnd : Rnd} {d : Dst} {rs : List Reg} {len : Nat}
    (h : FpOther s.me i op t rnd d rs len) : ∃ ty, t = fpTy ty ∧ ∃ f : RMode → List FpVal → FpVal,
      exec i s = complete s (s.fpBlock ty rnd f d rs len) ∧
      ∀ (mode : RMode) (g : Word → FpVal) (vs : List Word), vs.length = rs.length →
        f mode (vs.map g) = op (g (vs.getD 0 0)) (g (vs.getD 1 0)) := by
  have htwo {p : FpVal → FpVal → FpVal} {g : Word → FpVal} {vs : List Word} (hlen : vs.length = 2) :
      p ((vs.map g).getD 0 .nan) ((vs.map g).getD 1 .nan) = p (g (vs.getD 0 0)) (g (vs.getD 1 0)) := by
    obtain ⟨a, b, rfl⟩ := List.length_eq_two.1 hlen
    rfl
  have hone {p : FpVal → FpVal} {g : Word → FpVal} {vs : List Word} (hlen : vs.length = 1) :
      p ((vs.map g).getD 0 .nan) = p (g (vs.getD 0 0)) := by
    obtain ⟨a, rfl⟩ := List.length_eq_one_iff.1 hlen
    rfl
  cases h with
  | fdiv | fdivX => exact ⟨_, rfl, fpDivOp, rfl, fun _ _ _ hlen => htwo (p := FpVal.div) hlen⟩
  | fmin | fminX => exact ⟨_, rfl, fpMinOp, rfl, fun _ _ _ hlen => htwo (p := FpVal.min2) hlen⟩
  | fmax | fmaxX => exact ⟨_, rfl, fpMaxOp, rfl, fun _ _ _ hlen => htwo (p := FpVal.max2) hlen⟩
  | fsqrt | fsqrtX => exact ⟨_, rfl, fpSqrtOp, rfl, fun _ _ _ hlen => hone (p := FpVal.sqrt) hlen⟩
  | fabs | fabsX => exact ⟨_, rfl, fpAbsOp, rfl, fun _ _ _ hlen => hone (p := FpVal.abs) hlen⟩
  | fneg | fnegX => exact ⟨_, rfl, fpNegOp, rfl, fun _ _ _ hlen => hone (p := FpVal.neg) hlen⟩

theorem fcondEval_eq_fpRel (c : FCond) (a b : FpVal) : fcondEval c a b = fpRel c a b := by
  cases c <;> cases a <;> cases b <;> rfl

theorem State.fcmpOp_values (s : State) (c : FCond) (ty : Option Ty) (d : Dst) (a b : Word) (len : Nat) :
    s.fcmpOp c ty d [.value a, .value b] len =
      .ok (s.result d (if fpRel c (tyVal (fpTy ty) a.toNat) (tyVal (fpTy ty) b.toNat) then 1 else 0) [] len) := by
  rw [State.fcmpOp, s.need_two_values, except_ok_bind]
  simp only [fcondEval_eq_fpRel]
  rfl

theorem State.fclsOp_value {s : State} {ty : Option Ty} {x : Src} {lit a : Word} (hx : s.me.srcTy (fpTy ty) lit x = .value a) (d : Dst) (len : Nat) :
    s.fclsOp ty d x lit len =
      .ok (s.result d (BitVec.ofNat 64 ((Fmt.ofTy (fpTy ty)).cls (a.toNat % 2 ^ (Fmt.ofTy (fpTy ty)).width))) [] len) := by
  simp only [State.fclsOp, hx, s.need_one_value, except_ok_bind]
  rfl

theorem State.fcvtOp_value {s : State} {dst src : Ty} {x : Src} {lit a : Word} (hx : s.me.srcTy src lit x = .value a) (rnd : Rnd) (d : Dst)
    (len : Nat) :
    s.fcvtOp dst src rnd d x lit len =
      let mode := s.me.cvtMode dst rnd
      let r := convert mode s.me.ovf8 (s.me.draw 32) dst src a.toNat
      let s' := if mode = .sr then s.modMe fun t => t.stepGen 32 else s
      .ok (s'.result d (if dst.isFloat then BitVec.ofNat 64 r.1 else extend dst r.1) (r.2.map FpEvent.scalar) len) := by
  simp only [State.fcvtOp, hx, s.need_one_value, except_ok_bind]
  rfl

/-- Settles O19. -/
theorem fpResults : Obligations.FpResults := by
  refine ⟨fun s i fn t rnd fa d vs len h => ?_, fun s i op t rnd d vs len h => ?_, fun s c d x y a b hx hy => ?_,
    fun s f c ty d x y a b hx hy => ?_, fun s d x a hx => ?_, fun s f ty d x a hx => ?_, fun s lit dst src rnd d x a hx => ?_⟩
  · obtain ⟨ty, rfl, hexec⟩ := exec_fpArith h
    have hshape : (fn ∈ [0, 1, 2] ∧ vs.length = 2) ∨ (fn = 3 ∧ vs.length = 3) := by simpa using fpArith_shape h
    rw [hexec, State.fpLog_values, fpOp_eq_exactFp hshape _ fun v => tyVal (fpTy ty) v.toNat]
    rfl
  · obtain ⟨ty, rfl, f, hexec, hf⟩ := exec_fpOther h
    rw [hexec, State.fpBlock_values, hf _ (fun v => tyVal (fpTy ty) v.toNat) vs (by rw [List.length_map])]
    rfl
  · show complete s (s.fcmpOp c none d [s.me.srcTy .f32 0 x, s.me.srcTy .f32 0 y] 4) = _
    rw [hx, hy, State.fcmpOp_values]
    rfl
  · show complete s (s.fcmpOp c ty d [s.me.srcTy (fpTy ty) f.value x, s.me.srcTy (fpTy ty) f.value y] (formBytes f)) = _
    rw [hx, hy, State.fcmpOp_values]
    rfl
  · exact congrArg (complete s) (State.fclsOp_value (ty := none) hx d 4)
  · exact congrArg (complete s) (State.fclsOp_value hx d (formBytes f))
  · refine (congrArg (complete s) (State.fcvtOp_value hx rnd d (litBytesX lit))).trans ?_
    rw [litBytesX_eq_optBytes]
    rfl

end Sys2Proof.Machine
end

section
/-! PROOF. Vector elements, lanes and masks (R29, R165, R166, R171, R179), and O47. -/

namespace Sys2Proof.Machine
open Stmt

/-! ## Elements -/

theorem testBit_vget (v : BitVec 1024) (e i k : Nat) :
    (vget v e i).testBit k = (decide (k < 8 * e) && v.toNat.testBit (8 * e * i + k)) := by
  rw [vget, Nat.testBit_mod_two_pow, Nat.testBit_div_two_pow, Nat.add_comm k]

/-- A vector as the part above an element, the element and the part below it. -/
theorem toNat_split (v : BitVec 1024) (e i : Nat) :
    v.toNat = 2 ^ (8 * e * i) * (2 ^ (8 * e) * (v.toNat / 2 ^ (8 * e * i) / 2 ^ (8 * e)) + vget v e i) + v.toNat % 2 ^ (8 * e * i) := by
  rw [vget, Nat.div_add_mod, Nat.div_add_mod]

theorem toNat_vput {v : BitVec 1024} {e i : Nat} (h : 8 * e * (i + 1) ≤ 1024) (x : Nat) :
    (vput v e i x).toNat =
      2 ^ (8 * e * i) * (2 ^ (8 * e) * (v.toNat / 2 ^ (8 * e * i) / 2 ^ (8 * e)) + x % 2 ^ (8 * e)) + v.toNat % 2 ^ (8 * e * i) := by
  have hv := v.isLt
  have hx : x % 2 ^ (8 * e) < 2 ^ (8 * e) := Nat.mod_lt _ (Nat.two_pow_pos _)
  have hsplit := toNat_split v e i
  have hlo : v.toNat % 2 ^ (8 * e * i) < 2 ^ (8 * e * i) := Nat.mod_lt _ (Nat.two_pow_pos _)
  have hhi : v.toNat / 2 ^ (8 * e * i) / 2 ^ (8 * e) < 2 ^ (1024 - 8 * e * (i + 1)) := by
    rw [Nat.div_div_eq_div_mul, ← Nat.pow_add, ← Nat.mul_succ]
    refine Nat.div_lt_of_lt_mul ?_
    rwa [← Nat.pow_add, Nat.add_sub_cancel' h]
  rw [vput, BitVec.toNat_ofNat]
  have hpow : (2 : Nat) ^ 1024 = 2 ^ (8 * e * i) * (2 ^ (8 * e) * 2 ^ (1024 - 8 * e * (i + 1))) := by
    rw [← Nat.pow_add, ← Nat.pow_add, ← Nat.add_assoc, ← Nat.mul_succ, Nat.add_sub_cancel' h]
  rw [hpow]
  clear hpow hv h
  generalize v.toNat / 2 ^ (8 * e * i) / 2 ^ (8 * e) = hi at *
  generalize v.toNat % 2 ^ (8 * e * i) = lo at *
  generalize vget v e i = old at *
  generalize x % 2 ^ (8 * e) = new at *
  generalize 2 ^ (8 * e * i) = p at *
  generalize 2 ^ (8 * e) = w at *
  generalize 2 ^ (1024 - 8 * e * (i + 1)) = q at *
  have hmid : w * hi + new < w * q := calc
    w * hi + new < w * (hi + 1) := by rw [Nat.mul_succ]; omega
    _ ≤ w * q := Nat.mul_le_mul_left _ hhi
  have hall : p * (w * hi + new) + lo < p * (w * q) := calc
    p * (w * hi + new) + lo < p * (w * hi + new + 1) := by rw [Nat.mul_succ]; omega
    _ ≤ p * (w * q) := Nat.mul_le_mul_left _ hmid
  have hsum : v.toNat + new * p - old * p = p * (w * hi + new) + lo := by
    rw [hsplit, Nat.mul_add, Nat.mul_add, Nat.mul_comm new, Nat.mul_comm old]; omega
  rw [hsum, Nat.mod_eq_of_lt hall]

theorem testBit_vput {v : BitVec 1024} {e i : Nat} (h : 8 * e * (i + 1) ≤ 1024) (x k : Nat) :
    (vput v e i x).toNat.testBit k =
      if 8 * e * i ≤ k ∧ k < 8 * e * i + 8 * e then x.testBit (k - 8 * e * i) else v.toNat.testBit k := by
  have hlo : v.toNat % 2 ^ (8 * e * i) < 2 ^ (8 * e * i) := Nat.mod_lt _ (Nat.two_pow_pos _)
  have hx : x % 2 ^ (8 * e) < 2 ^ (8 * e) := Nat.mod_lt _ (Nat.two_pow_pos _)
  rw [toNat_vput h, Nat.testBit_two_pow_mul_add _ hlo]
  by_cases hbelow : k < 8 * e * i
  · rw [if_pos hbelow, if_neg (by omega), Nat.testBit_mod_two_pow, decide_eq_true hbelow, Bool.true_and]
  rw [if_neg hbelow, Nat.testBit_two_pow_mul_add _ hx]
  by_cases hin : k - 8 * e * i < 8 * e
  · rw [if_pos hin, if_pos (by omega), Nat.testBit_mod_two_pow, decide_eq_true hin, Bool.true_and]
  · rw [if_neg hin, if_neg (by omega), Nat.testBit_div_two_pow, Nat.testBit_div_two_pow]
    congr 1; omega

/-- Elements do not overlap: writing one changes that one alone (R29). -/
theorem vget_vput {v : BitVec 1024} {e i j : Nat} (hi : 8 * e * (i + 1) ≤ 1024) (x : Nat) :
    vget (vput v e i x) e j = if i = j then x % 2 ^ (8 * e) else vget v e j := by
  refine Nat.eq_of_testBit_eq fun k => ?_
  rw [testBit_vget, testBit_vput hi]
  by_cases hk : k < 8 * e
  · rw [decide_eq_true hk, Bool.true_and]
    by_cases hij : i = j
    · subst hij
      rw [if_pos (by omega), if_pos rfl, Nat.testBit_mod_two_pow, decide_eq_true hk, Bool.true_and, Nat.add_sub_cancel_left]
    · rw [if_neg hij, testBit_vget, decide_eq_true hk, Bool.true_and, if_neg]
      rintro ⟨hle, hlt⟩
      rcases Nat.lt_or_gt_of_ne hij with h | h
      · have := Nat.mul_le_mul_left (8 * e) (Nat.succ_le_of_lt h)
        rw [Nat.mul_succ] at this; omega
      · have := Nat.mul_le_mul_left (8 * e) (Nat.succ_le_of_lt h)
        rw [Nat.mul_succ] at this; omega
  · rw [decide_eq_false hk, Bool.false_and]
    split
    · rw [Nat.testBit_mod_two_pow, decide_eq_false hk, Bool.false_and]
    · rw [testBit_vget, decide_eq_false hk, Bool.false_and]

theorem elem_fits {e i : Nat} (h : i < 128 / e) : 8 * e * (i + 1) ≤ 1024 := by
  have h1 : e * (i + 1) ≤ e * (128 / e) := Nat.mul_le_mul_left e h
  have h2 : e * (128 / e) ≤ 128 := Nat.mul_div_le 128 e
  rw [Nat.mul_assoc]; omega

theorem vget_lt (v : BitVec 1024) (e i : Nat) : vget v e i < 2 ^ (8 * e) := Nat.mod_lt _ (Nat.two_pow_pos _)

/-! ## Lanes -/

/-- One turn of `lanes`. -/
theorem lanes_succ (n e : Nat) (f : Nat → Option (Nat × List Nat)) (v : BitVec 1024) :
    (lanes (n + 1) e f v).1 = match f n with | none => (lanes n e f v).1 | some r => vput (lanes n e f v).1 e n r.1 := by
  rw [lanes, List.range_succ, List.foldl_append, List.foldl_cons, List.foldl_nil, lanes]
  cases f n <;> rfl

theorem vget_lanes {n e i : Nat} (hn : n ≤ 128 / e) (f : Nat → Option (Nat × List Nat)) (v : BitVec 1024) :
    vget (lanes n e f v).1 e i = if i < n then (match f i with | none => vget v e i | some r => r.1 % 2 ^ (8 * e)) else vget v e i := by
  induction n with
  | zero => simp [lanes]
  | succ n ih =>
    have ih := ih (by omega)
    rw [lanes_succ]
    by_cases hi : i = n
    · subst hi
      rw [if_neg (by omega)] at ih
      rw [if_pos (by omega)]
      cases f i with
      | none => exact ih
      | some r => simp only; rw [vget_vput (elem_fits (by omega)), if_pos rfl]
    · have hlt : i < n + 1 ↔ i < n := by omega
      simp only [hlt]
      rw [← ih]
      cases f n with
      | none => rfl
      | some r => simp only; rw [vget_vput (elem_fits (by omega)), if_neg (Ne.symm hi)]

/-- What an operation that works lane by lane leaves (R166). -/
def lanesOf (t : Ctx) (o : VOp) (d : Fin 16) : BitVec 1024 × List Nat :=
  lanes (128 / o.ty.bytes) o.ty.bytes
    (fun i => if t.active o.mask o.ty.bytes i then some (o.elemResult t o.ty.bytes (128 / o.ty.bytes) i) else none) (t.v.get d)

theorem Ctx.vrun_lanewise {t : Ctx} {o : VOp} {d : Fin 16} (hop : lanewise o.op = true) (hd : o.dst = d.val) :
    t.vrun o = ({ t with v := t.v.set d.val (lanesOf t o d).1 d.isLt }, none, (lanesOf t o d).2) := by
  have hdst : Fin.ofNat 16 o.dst = d := by rw [hd]; exact Fin.ofNat_val_eq_self d
  subst hdst
  unfold Ctx.vrun
  generalize hq : o.op = op at hop
  cases op <;> first | rfl | cases hop

theorem vget_vrun_lanewise {t : Ctx} {o : VOp} {d : Fin 16} (hop : lanewise o.op = true) (hd : o.dst = d.val) {i : Nat}
    (hi : i < 128 / o.ty.bytes) :
    vget ((t.vrun o).1.v.get d) o.ty.bytes i =
      if t.active o.mask o.ty.bytes i then (o.elemResult t o.ty.bytes (128 / o.ty.bytes) i).1 % 2 ^ (8 * o.ty.bytes)
      else vget (t.v.get d) o.ty.bytes i := by
  rw [Ctx.vrun_lanewise hop hd, vector_get_set, if_pos rfl, lanesOf, vget_lanes le_rfl, if_pos hi]
  cases t.active o.mask o.ty.bytes i <;> rfl

/-! ## Integer elements -/

theorem VArg.elem_lt (t : Ctx) (a : VArg) (e i : Nat) : a.elem t e i < 2 ^ (8 * e) := by
  cases a with
  | reg n => exact vget_lt _ _ _
  | val w => exact Nat.mod_lt _ (Nat.two_pow_pos _)

/-- An integer element operation with a scalar counterpart gives that instruction's result. -/
theorem VecOp.int_eq {n : Nat} (hn : 0 < n) {vop : VecOp} {op : IntOp} (h : scalarTwin vop = some op) (sgn : Bool) (x y : BitVec n) (z : Nat) :
    vop.int sgn n x.toNat y.toNat z = (intResult op x y).toNat := by
  have hlt : y.toNat % n < n := Nat.mod_lt _ hn
  have hy := y.isLt
  cases vop <;> cases h
  case add => exact (BitVec.toNat_add x y).symm
  case sub =>
    rw [VecOp.int, intResult, BitVec.toNat_sub]
    congr 1; omega
  case mul => exact (BitVec.toNat_mul x y).symm
  case and => exact (BitVec.toNat_and x y).symm
  case or => exact (BitVec.toNat_or x y).symm
  case xor => exact (BitVec.toNat_xor x y).symm
  case shl => rw [VecOp.int, intResult, BitVec.toNat_shiftLeft, Nat.shiftLeft_eq]
  case shr => rw [VecOp.int, intResult, BitVec.toNat_ushiftRight, Nat.shiftRight_eq_div_pow]
  case sra => rw [VecOp.int, bitsInt_true hn, intBits_sshiftRight, intResult]

theorem elemResult_of_twin {t : Ctx} {o : VOp} {op : IntOp} (h : scalarTwin o.op = some op) (hty : o.ty.isFloat = false) (e c i : Nat) :
    (o.elemResult t e c i).1 = o.op.int o.ty.isSigned (8 * e) (o.x.elem t e i) (o.y.elem t e i) (o.z.elem t e i) := by
  unfold VOp.elemResult
  generalize o.op = vop at h
  rw [hty]
  cases vop <;> first | rfl | cases h

theorem tyBytes_pos (ty : Ty) : 0 < ty.bytes := by cases ty <;> decide

theorem elemResult_eq_scalar {t : Ctx} {o : VOp} {op : IntOp} (h : scalarTwin o.op = some op) (hty : o.ty.isFloat = false) (i : Nat) :
    (o.elemResult t o.ty.bytes (128 / o.ty.bytes) i).1 =
      (intResult op (BitVec.ofNat (8 * o.ty.bytes) (o.x.elem t o.ty.bytes i))
        (BitVec.ofNat (8 * o.ty.bytes) (o.y.elem t o.ty.bytes i))).toNat := by
  have hpos := tyBytes_pos o.ty
  rw [elemResult_of_twin h hty, ← VecOp.int_eq (by omega) h o.ty.isSigned _ _ (o.z.elem t o.ty.bytes i),
    BitVec.toNat_ofNat, BitVec.toNat_ofNat, Nat.mod_eq_of_lt (VArg.elem_lt _ _ _ _), Nat.mod_eq_of_lt (VArg.elem_lt _ _ _ _)]

/-! ## Masks -/

theorem mask_reg (t : Ctx) (x : Fin 8) (h : x.val < 16) : VArg.mask t (.reg ⟨x.val, h⟩) = t.m.get x :=
  congrArg t.m.get (Fin.ofNat_val_eq_self x)

/-- The bit pattern of E consecutive bits from place i E. -/
theorem getLsbD_maskBits (e i k : Nat) :
    (BitVec.ofNat 128 ((2 ^ e - 1) * 2 ^ (i * e))).getLsbD k = (decide (k < 128) && decide (i * e ≤ k ∧ k < i * e + e)) := by
  rw [BitVec.getLsbD_ofNat, Nat.testBit_mul_two_pow, Nat.testBit_two_pow_sub_one]
  congr 1
  rw [← Bool.decide_and]
  exact decide_eq_decide.2 (by omega)

theorem getLsbD_maskPut (m : BitVec 128) (e i : Nat) (b : Bool) {k : Nat} (hk : k < 128) :
    (maskPut m e i b).getLsbD k = if i * e ≤ k ∧ k < i * e + e then b else m.getLsbD k := by
  have hbits := getLsbD_maskBits e i k
  rw [decide_eq_true hk, Bool.true_and] at hbits
  unfold maskPut
  by_cases hin : i * e ≤ k ∧ k < i * e + e
  · rw [decide_eq_true hin] at hbits
    rw [if_pos hin]
    cases b
    · simp only [Bool.false_eq_true, if_false]
      rw [BitVec.getLsbD_and, BitVec.getLsbD_not, hbits, Bool.not_true, Bool.and_false, Bool.and_false]
    · rw [if_pos rfl, BitVec.getLsbD_or, hbits, Bool.or_true]
  · rw [decide_eq_false hin] at hbits
    rw [if_neg hin]
    cases b
    · simp only [Bool.false_eq_true, if_false]
      rw [BitVec.getLsbD_and, BitVec.getLsbD_not, hbits, decide_eq_true hk, Bool.not_false, Bool.and_true, Bool.and_true]
    · rw [if_pos rfl, BitVec.getLsbD_or, hbits, Bool.or_false]

/-- The comparison's fold over the first n elements. -/
def maskLanes (f : Nat → Option Bool) (e n : Nat) (m : BitVec 128) : BitVec 128 :=
  (List.range n).foldl (fun m i => match f i with | none => m | some b => maskPut m e i b) m

theorem getLsbD_maskLanes (f : Nat → Option Bool) {e n : Nat} (hn : n ≤ 128 / e) (m : BitVec 128) {i j : Nat} (hi : i < 128 / e) (hj : j < e) :
    (maskLanes f e n m).getLsbD (i * e + j) =
      if i < n then (match f i with | none => m.getLsbD (i * e + j) | some b => b) else m.getLsbD (i * e + j) := by
  have hk : i * e + j < 128 := by
    have h1 : e * (i + 1) ≤ e * (128 / e) := Nat.mul_le_mul_left e hi
    have h2 : e * (128 / e) ≤ 128 := Nat.mul_div_le 128 e
    rw [Nat.mul_succ, Nat.mul_comm] at h1; omega
  induction n with
  | zero => rfl
  | succ n ih =>
    have ih := ih (by omega)
    rw [maskLanes] at ih ⊢
    rw [List.range_succ, List.foldl_append, List.foldl_cons, List.foldl_nil]
    by_cases hin : i = n
    · subst hin
      rw [if_neg (by omega)] at ih
      rw [if_pos (by omega)]
      cases f i with
      | none => exact ih
      | some b => simp only; rw [getLsbD_maskPut _ _ _ _ hk, if_pos (by omega)]
    · have hlt : i < n + 1 ↔ i < n := by omega
      simp only [hlt]
      rw [← ih]
      cases f n with
      | none => rfl
      | some b =>
        simp only
        rw [getLsbD_maskPut _ _ _ _ hk, if_neg]
        rintro ⟨hle, hub⟩
        rcases Nat.lt_or_gt_of_ne hin with h | h
        · have := Nat.mul_le_mul_right e (Nat.succ_le_of_lt h)
          rw [Nat.succ_mul] at this; omega
        · have := Nat.mul_le_mul_right e (Nat.succ_le_of_lt h)
          rw [Nat.succ_mul] at this; omega

theorem Ctx.vrun_cmp {t : Ctx} {o : VOp} {c : VCond} {d : Fin 8} (hop : o.op = .cmp c) (hd : o.dst = d.val) :
    (t.vrun o).1.m.get d = maskLanes
      (fun i => if t.active o.mask o.ty.bytes i then some (vcond c o.ty (o.x.elem t o.ty.bytes i) (o.y.elem t o.ty.bytes i)) else none)
      o.ty.bytes (128 / o.ty.bytes) (t.m.get d) := by
  have hdst : Fin.ofNat 8 o.dst = d := by rw [hd]; exact Fin.ofNat_val_eq_self d
  subst hdst
  unfold Ctx.vrun maskLanes
  rw [hop]
  simp only
  rw [vector_get_set, if_pos rfl]
  congr 1
  funext m i
  cases t.active o.mask o.ty.bytes i <;> rfl

/-- Settles O47: elements by the bits they cover; lanes and masks by induction on the number of elements done. -/
theorem vectorLanes : Obligations.VectorLanes := by
  unfold Obligations.VectorLanes
  refine ⟨fun v e i j x _ hi _ => vget_vput (elem_fits hi) x, fun t o d hop hd => ⟨fun i hi => vget_vrun_lanewise hop hd hi, ?_, ?_, ?_⟩,
    fun t o op i h hty => elemResult_eq_scalar h hty i, fun t o d x y hd hx hy => ?_, fun t o c d hop hd i hi j hj => ?_⟩
  · intro k hk
    rw [Ctx.vrun_lanewise hop hd, vector_get_set, if_neg hk]
  · rw [Ctx.vrun_lanewise hop hd]
  · rw [Ctx.vrun_lanewise hop hd]
  · have hdst : Fin.ofNat 8 o.dst = d := by rw [hd]; exact Fin.ofNat_val_eq_self d
    subst hdst
    refine ⟨fun hop => ?_, fun hop => ?_, fun hop => ?_, fun hop => ?_⟩ <;>
      simp only [Ctx.vrun, hop, vector_get_set, if_true, hx, hy, mask_reg]
  · rw [Ctx.vrun_cmp hop hd, getLsbD_maskLanes _ le_rfl _ hi hj, if_pos hi]
    cases t.active o.mask o.ty.bytes i <;> rfl

end Sys2Proof.Machine
end

section
/-! PROOF. Control registers (R234 to R237), and O43. -/

namespace Sys2Proof.Machine
open Stmt

theorem cregReadable_iff (r : CReg) (mode : Mode) : cregReadable r mode = true ↔ mayRead mode r := by
  cases r <;> simp [cregReadable, mayRead]

theorem cregWritable_iff (r : CReg) (mode : Mode) : cregWritable r mode = true ↔ mayWrite mode r := by
  cases r <;> simp [cregWritable, mayWrite]

theorem wbits_one_beq (w : Word) (i : Nat) : (wbits w i 1 == 1) = w.getLsbD i := by
  rw [wbits, BitVec.getLsbD, Nat.testBit_eq_decide_div_mod_eq, Nat.pow_one]
  exact Bool.eq_iff_iff.2 (by simp)

theorem wbits_one_eq (w : Word) (i : Nat) : (wbits w i 1 = 1) = (w.getLsbD i = true) := by
  rw [← wbits_one_beq, beq_iff_eq]

theorem ofNat_wbits (w : Word) (i n : Nat) : BitVec.ofNat n (wbits w i n) = w.extractLsb' i n := by
  rw [wbits_eq_extractLsb', BitVec.ofNat_toNat, BitVec.setWidth_eq]

theorem ofCode_eq_modeNamed (old : RMode) (n : Nat) : old.ofCode n = modeNamed old n := by
  unfold RMode.ofCode modeNamed
  split <;> simp_all

/-! ## `crd` -/

/-- What `crd` leaves beside its result: DEADL is cleared by its read (R237). -/
def State.readClears (s : State) (r : CReg) : State :=
  if r = .deadl then s.modCore s.cur fun x => { x with deadl := 0 } else s

theorem State.crdOp_eq (s : State) (d : Dst) (r : CReg) :
    s.crdOp d r = (check (cregReadable r s.me.mode) .permission >>= fun _ => .ok ((s.readClears r).result d (s.creg r) [] 12)) := by
  cases r <;> rfl

theorem exec_crd {s : State} {d : Dst} {r : CReg} (h : mayRead s.me.mode r) :
    exec (.crd d r) s = .next ((s.readClears r).result d (s.creg r) [] 12) := by
  show complete s (s.crdOp d r) = _
  rw [State.crdOp_eq, check_bind_of_true ((cregReadable_iff r _).2 h), complete_ok]

theorem exec_crd_of_refused {s : State} {d : Dst} {r : CReg} (h : ¬ mayRead s.me.mode r) :
    exec (.crd d r) s = .next (s.takeTrap { cause := .permission }) := by
  show complete s (s.crdOp d r) = _
  rw [State.crdOp_eq, check_bind_of_false (by rwa [← Bool.not_eq_true, cregReadable_iff])]
  rfl

/-! ## `cwr` -/

theorem exec_cwr_of_refused {s : State} {lit : Option Word} {r : CReg} {x : Src} (h : ¬ mayWrite s.me.mode r) :
    exec (.cwr lit r x) s = .next (s.takeTrap { cause := .permission }) := by
  show complete s (s.cwrOp r x (litVal lit) (litBytesX lit)) = _
  rw [State.cwrOp, check_bind_of_false (by rwa [← Bool.not_eq_true, cregWritable_iff])]
  rfl

/-- Whether a write of FP.MODE must wait for the vector queue: it reseeds the generators (R49). -/
def reseeds (r : CReg) (v : Word) : Bool := r == .fpMode && v.getLsbD 31

theorem exec_cwr {s : State} {lit : Option Word} {r : CReg} {x : Src} {v : Word} (h : mayWrite s.me.mode r)
    (hx : s.me.src (litVal lit) x = .value v) :
    exec (.cwr lit r x) s = complete s (waitFor (!reseeds r v || s.me.vq.isEmpty) >>= fun _ =>
      .ok ((s.setCreg r v).advance (optBytes lit))) := by
  show complete s (s.cwrOp r x (litVal lit) (litBytesX lit)) = _
  rw [State.cwrOp, check_bind_of_true ((cregWritable_iff r _).2 h), State.use1_ok.mpr hx, except_ok_bind, wbits_one_beq,
    litBytesX_eq_optBytes]
  rfl

theorem exec_cwr_waits {s : State} {lit : Option Word} {x : Src} {v : Word} (h : mayWrite s.me.mode .fpMode)
    (hx : s.me.src (litVal lit) x = .value v) (hseed : v.getLsbD 31 = true) (hq : s.me.vq ≠ []) :
    exec (.cwr lit .fpMode x) s = .next (s.modMe fun t => { t with run := .blocked }) := by
  have hwait : (!reseeds .fpMode v || s.me.vq.isEmpty) = false := by
    rw [reseeds, hseed]; simpa using hq
  rw [exec_cwr h hx, hwait]
  rfl

theorem exec_cwr_writes {s : State} {lit : Option Word} {r : CReg} {x : Src} {v : Word} (h : mayWrite s.me.mode r)
    (hx : s.me.src (litVal lit) x = .value v) (hq : r = .fpMode → v.getLsbD 31 = true → s.me.vq = []) :
    exec (.cwr lit r x) s = .next ((s.setCreg r v).advance (optBytes lit)) := by
  have hgo : (!reseeds r v || s.me.vq.isEmpty) = true := by
    rw [Bool.or_eq_true, Bool.not_eq_true', List.isEmpty_iff, reseeds]
    by_cases hb : (r == .fpMode && v.getLsbD 31) = true
    · rw [Bool.and_eq_true, beq_iff_eq] at hb
      exact .inr (hq hb.1 hb.2)
    · exact .inl (Bool.not_eq_true _ ▸ hb)
  rw [exec_cwr h hx, hgo]
  rfl

/-! ## The content written -/

theorem Ctx.setFpMode_eq (t : Ctx) (v : Word) : t.setFpMode v = { t with
    seed := v.extractLsb' 32 32, ftz := v.getLsbD 6, ovf8 := v.getLsbD 5, rm := modeNamed t.rm (v.extractLsb' 0 3).toNat
    gens := if v.getLsbD 31 then (List.range 33).map (genSeed (v.extractLsb' 32 32)) else t.gens } := by
  unfold Ctx.setFpMode
  simp only [wbits_one_beq, wbits_one_eq, ofNat_wbits, ofCode_eq_modeNamed]
  rw [wbits_eq_extractLsb']

theorem State.setSymRes_of_failed {s : State} (v : Word)
    (h : (∃ a, s.myCore.syms.get s.me.selSym = .fault a) ∨ s.myCore.syms.get s.me.selSym = .cancelled) :
    s.setSymRes v = (s.modCore s.cur fun x => x.resolve s.me.selSym v).modMe fun t => { t with selErr := false } := by
  unfold State.setSymRes
  dsimp only
  rcases h with ⟨a, h⟩ | h <;> rw [h]

theorem State.setSymRes_of_other {s : State} (v : Word) (hf : ∀ a, s.myCore.syms.get s.me.selSym ≠ .fault a)
    (hc : s.myCore.syms.get s.me.selSym ≠ .cancelled) : s.setSymRes v = s.modMe fun t => { t with selErr := true } := by
  unfold State.setSymRes
  dsimp only
  cases h : s.myCore.syms.get s.me.selSym
  case fault a => exact absurd h (hf a)
  case cancelled => exact absurd h hc
  all_goals rfl

theorem Harrow.ssrFree_of_walked {h : Harrow} (hq : h.queue = []) (hr : ∀ q, h.running = some q → q.begun = true) : h.ssrFree = true := by
  unfold Harrow.ssrFree
  rw [hq]
  cases hrun : h.running with
  | none => rfl
  | some q => exact hr q hrun

theorem Harrow.ssrFree_of_pending {h : Harrow} (hp : h.queue ≠ [] ∨ ∃ q, h.running = some q ∧ q.begun = false) : h.ssrFree = false := by
  unfold Harrow.ssrFree
  rcases hp with hq | ⟨q, hrun, hb⟩
  · rw [List.isEmpty_eq_false_iff.2 hq, Bool.false_and]
  · rw [hrun]; simp [hb]

/-- Settles O43: a lemma for each mode's column, and one for the content of each register. -/
theorem controlRegisters : Obligations.ControlRegisters := by
  unfold Obligations.ControlRegisters
  refine ⟨fun s d r h => exec_crd_of_refused h, fun s d r h => ⟨exec_crd h, ?_⟩, fun s lit r x h => exec_cwr_of_refused h,
    fun s lit r x v h hx => ?_⟩
  · refine ⟨?_, ?_, fun hr => ?_, ?_, ?_, ?_, ?_, ?_, ?_, ?_, ?_, ?_, ?_⟩
    case refine_3 =>
      subst hr
      exact congrArg (BitVec.ofNat 64) (show s.cur.val % 128 / 8 = s.cur.val / 8 % 16 by omega)
    all_goals (intro hr; subst hr; rfl)
  · refine ⟨?_, exec_cwr_writes h hx, ?_, ?_, ?_, ?_, ?_, ?_, ?_, ?_, ?_, ?_, ?_⟩
    · rintro rfl hseed hq
      exact exec_cwr_waits h hx hseed hq
    · rintro rfl; rfl
    · rintro rfl
      simp only [State.setCreg, wbits_one_beq, ofNat_wbits]
    · rintro rfl
      simp only [State.setCreg, ofNat_wbits]
    · rintro rfl
      simp only [State.setCreg, ofNat_wbits]
    · rintro rfl; rfl
    · rintro rfl σ rfl hf hc
      exact State.setSymRes_of_other v hf hc
    · rintro rfl hfail
      exact State.setSymRes_of_failed v hfail
    · rintro rfl
      exact congrArg s.modMe (funext fun t => t.setFpMode_eq v)
    · rintro rfl
      simp only [State.setCreg, wbits_eq_extractLsb']
    · rintro rfl id hid
      unfold State.setCreg
      simp only [hid]
      rfl
    · rintro n rfl x rfl
      refine ⟨fun hq hr => ?_, fun hp => ?_⟩
      · have hfree := Harrow.ssrFree_of_walked hq hr
        show s.setCore s.cur (s.myCore.setSsr n v) = _
        rw [Core.setSsr, hfree, if_pos rfl]
      · have hfree := Harrow.ssrFree_of_pending hp
        show s.setCore s.cur (s.myCore.setSsr n v) = _
        simp only [Core.setSsr, hfree, Bool.false_eq_true, if_false]

end Sys2Proof.Machine
end

section
/-! PROOF. The 64 bytes that an instruction reads as a record (R127), counters and triggered entries (R228 to R230,
R309), and O50. -/

namespace Sys2Proof.Machine
open Stmt

/-! ## Records -/

theorem State.messageWindow_of_reached {s : State} {w : Win} {ea : Word} {a : Acc} (hw : w ∈ [.glob, .A, .G])
    (h : Reached s .load w ea 64 .read a) : s.messageWindow .load w ea = .ok () := by
  obtain ⟨-, -, -, -, -, hpairs, -, -, ⟨hglob, -, hin, -, -⟩ | ⟨rfl, -, f, hwalk, -, -, h⟩⟩ := h
  · have hwin : (w == .A || w == .G) = true := by fin_cases hw <;> simp at hglob ⊢
    have hmin : min 64 (s.myLaunch.split.size w - ea.toNat) = 64 := by omega
    rw [State.messageWindow, check_ok]
    simp only [hglob, if_false, hwin, hmin, State.windowKeys_of_no_pairs hpairs hin, Bool.true_and, Option.isSome_some, Bool.and_true,
      decide_eq_true_iff]
    omega
  · rw [State.messageWindow, check_ok]
    simp only [if_true, Bool.not_eq_true', State.apertureWindow, hwalk]
    rcases h with ⟨c, v, off, hplace, hcore, hpart, hwin, hin, -⟩ | ⟨-, hin, -, -⟩
    · simp only [hplace, State.apertureKeys_of_bound hcore hpart hwin hpairs hin]
    · simp only [placeOf, if_pos hin]

theorem place_of_reached {s : State} {k : AKind} {w : Win} {ea : Word} {n : Nat} {r : Req} {a : Acc} (h : Reached s k w ea n r a) :
    (∃ c v off, a.place = .lm c v off) ∨ ∃ d, a.place = .dev d := by
  obtain ⟨-, -, -, -, -, -, -, -, ⟨-, -, -, -, rfl⟩ | ⟨-, -, f, -, -, -, ⟨c, v, off, -, -, -, -, -, rfl⟩ | ⟨-, -, -, rfl⟩⟩⟩ := h
  · exact .inl ⟨_, _, _, rfl⟩
  · exact .inl ⟨_, _, _, rfl⟩
  · exact .inr ⟨_, rfl⟩

theorem State.readAcc_of_reached {s : State} {k : AKind} {w : Win} {ea : Word} {n : Nat} {r : Req} {a : Acc} (h : Reached s k w ea n r a)
    (t : State) (m : Nat) : t.readAcc a m = t.bytesAt a.keys := by
  unfold State.readAcc
  rcases place_of_reached h with ⟨c, v, off, hp⟩ | ⟨d, hp⟩ <;> rw [hp]

theorem State.performed_mem (s : State) (a : Acc) (r : Req) : (performed s a r).mem = s.mem := (s.performAcc_sameButCoherence a r).mem

theorem State.read64_of_reached {s : State} {w : Win} {ea : Word} {a : Acc} (hw : w ∈ [.glob, .A, .G])
    (h : Reached s .load w ea 64 .read a) : s.read64 w ea = .ok (performed s a .read, s.bytesAt a.keys) := by
  rw [State.read64, State.messageWindow_of_reached hw h, except_ok_bind, State.loadAcc_of_reached (by decide) h, except_ok_bind]
  dsimp only
  rw [State.readAcc_of_reached h, State.bytesAt_of_mem_eq (s.performed_mem a .read)]

theorem read64_of_recordRead {s s1 : State} {w : Win} {ea : Word} {b : List Byte} (h : RecordRead s w ea s1 b) :
    (released s).read64 w ea = .ok (s1, b) := by
  cases h with
  | reached a hw h => exact State.read64_of_reached hw (reached_released h)
  | loaded s1 b h => exact h

/-! ## Counters -/

section
variable {α : Type}

theorem assocGet_assocSet (l : List (Nat × α)) (j k : Nat) (v : α) :
    assocGet (assocSet l k v) j = if j = k then some v else assocGet l j := by
  induction l with
  | nil =>
    by_cases h : j = k
    · simp [assocSet, assocGet, h]
    · simp [assocSet, assocGet, h, Ne.symm h]
  | cons p rest ih =>
    obtain ⟨i, w⟩ := p
    unfold assocGet at ih ⊢
    unfold assocSet
    by_cases hik : i = k
    · subst hik
      by_cases hj : j = i
      · simp [hj]
      · simp [hj, Ne.symm hj]
    · rw [if_neg hik]
      by_cases hlt : k < i
      · rw [if_pos hlt]
        by_cases hj : j = k
        · simp [hj]
        · simp [hj, Ne.symm hj]
      · rw [if_neg hlt, List.find?_cons, List.find?_cons]
        by_cases hij : i = j
        · subst hij
          simp [hik]
        · rw [beq_false_of_ne hij]
          exact ih

theorem assocGet_assocDel (l : List (Nat × α)) (j k : Nat) :
    assocGet (assocDel l k) j = if j = k then none else assocGet l j := by
  unfold assocGet assocDel
  rw [List.find?_filter]
  by_cases hjk : j = k
  · subst hjk
    rw [if_pos rfl, List.find?_eq_none.2 (fun p _ => by simp)]
    rfl
  · rw [if_neg hjk]
    congr 2
    funext p
    by_cases hp : p.1 = j <;> simp [hp, hjk]

end

theorem State.raise_counters (s : State) (c : Nat) (v : Word) :
    (s.raise c v).sower.counters =
      if s.counter c + v = 0 then assocDel s.sower.counters c else assocSet s.sower.counters c (s.counter c + v) := rfl

theorem State.counter_raise (s : State) (c k : Nat) (v : Word) :
    (s.raise c v).counter k = if k = c then s.counter c + v else s.counter k := by
  rw [State.counter, State.raise_counters]
  by_cases hz : s.counter c + v = 0
  · rw [if_pos hz, assocGet_assocDel]
    by_cases hk : k = c
    · rw [if_pos hk, if_pos hk, hz]; rfl
    · rw [if_neg hk, if_neg hk]; rfl
  · rw [if_neg hz, assocGet_assocSet]
    by_cases hk : k = c
    · rw [if_pos hk, if_pos hk]; rfl
    · rw [if_neg hk, if_neg hk]; rfl

/-! ## The instructions -/

section
variable {s s1 : State} {i : Instr} {sc : Scope} {w : Win} {imm : BitVec 24} {d : Dst} {b k n : Src} {lit bv kv nv : Word} {len : Nat}
  {rec' : List Byte}

theorem exec_entryPost (h : EntryPost i w imm d b lit len) : exec i s = complete s (s.trgPostOp w imm d b lit len) := by cases h <;> rfl

theorem exec_counterRaise (h : CounterRaise i sc k n lit len) : exec i s = complete s (s.trgIncOp sc k n lit len) := by cases h <;> rfl

theorem exec_counterRead (h : CounterRead i sc d k lit len) : exec i s = complete s (s.trgRdOp sc d k lit len) := by cases h <;> rfl

theorem State.headlandGate_of_free (h : s.linkHeld s.cur.die.val = false) : s.headlandGate = .ok () := by
  rw [State.headlandGate, h]; rfl

/-- What posting a record that has been read answers, for what its checks and its entry are (R228). -/
def postAnswer (s : State) (d : Dst) (ea : Word) (len : Nat) : Option Cause → Option (State × Nat) → Res State
  | some c, _ => trap c ea
  | none, none => .ok (s.result d (BitVec.ofInt 64 (-1)) [] len)
  | none, some (t, h) => .ok (t.result d (word h) [] len)

theorem State.trgPostOp_of_read (hb : s.me.src lit b = .value bv) (hlink : s.linkHeld s.cur.die.val = false) (hrel : ReleaseFree s .pkg)
    (hread : RecordRead s w (bv + imm.signExtend 64) s1 rec') :
    s.trgPostOp w imm d b lit len =
      postAnswer s1 d (bv + imm.signExtend 64) len (s1.recordCause s1.myLaunch rec') (s1.postEntry s1.myLaunch rec') := by
  rw [State.trgPostOp, State.use1_ok.mpr hb, except_ok_bind]
  dsimp only [ea2_eq]
  rw [State.headlandGate_of_free hlink, except_ok_bind, State.release_of_free hrel, except_ok_bind, read64_of_recordRead hread, except_ok_bind]
  dsimp only
  generalize s1.recordCause s1.myLaunch rec' = c
  generalize s1.postEntry s1.myLaunch rec' = p
  rcases c with _ | c
  · rcases p with _ | ⟨t, h⟩ <;> rfl
  · rfl

theorem State.accessGate_released (hpark : s.me.replayQ = []) (hacq : s.me.acqWait = false) : (released s).accessGate = .ok () :=
  State.accessGate_of_free (by rw [released, State.me_modMe]; exact hacq) (by rw [released, State.me_modMe]; exact hpark)

theorem State.acquireGate_of_acquireFree (h : AcquireFree s sc) : s.acquireGate sc = .ok () := by
  rw [State.acquireGate, waitFor_ok, Bool.not_eq_true', State.drainHolds_of_free h]

theorem State.trgIncOp_of_free (hk : s.me.src lit k = .value kv) (hn : s.me.src lit n = .value nv) (hlt : kv.toNat < s.myLaunch.desc.tctr)
    (hlink : s.linkHeld s.cur.die.val = false) (hrel : ReleaseFree s sc) (hacq : s.me.acqWait = false) :
    s.trgIncOp sc k n lit len = .ok ((((released s).raise (s.myLaunch.ctrBase + kv.toNat) nv).modMe fun t =>
      { t with wrote := addOnce s.cur.die.val t.wrote }).advance len) := by
  have hlaunch : (released s).myLaunch = s.myLaunch := State.myLaunch_modMe ..
  rw [State.trgIncOp, State.use2_ok.mpr ⟨hk, hn⟩, except_ok_bind]
  dsimp only
  rw [check_bind_of_true (decide_eq_true hlt), State.headlandGate_of_free hlink, except_ok_bind, State.release_of_free hrel, except_ok_bind,
    State.accessGate_released hrel.1 hacq, except_ok_bind, hlaunch]
  rfl

theorem State.trgRdOp_of_free (hk : s.me.src lit k = .value kv) (hlt : kv.toNat < s.myLaunch.desc.tctr)
    (hlink : s.linkHeld s.cur.die.val = false) (hfree : AcquireFree s sc) (hgate : s.accessGate = .ok ()) :
    s.trgRdOp sc d k lit len = .ok ((s.result d (s.counter (s.myLaunch.ctrBase + kv.toNat)) [] len).acquired sc) := by
  rw [State.trgRdOp, State.use1_ok.mpr hk, except_ok_bind, check_bind_of_true (decide_eq_true hlt), State.headlandGate_of_free hlink,
    except_ok_bind, State.acquireGate_of_acquireFree hfree, except_ok_bind, hgate, except_ok_bind]

/-- Both counter instructions refuse a counter that the launch has not (R229). -/
theorem exec_counterRaise_of_bounds (h : CounterRaise i sc k n lit len) (hk : s.me.src lit k = .value kv) (hn : s.me.src lit n = .value nv)
    (hge : s.myLaunch.desc.tctr ≤ kv.toNat) : exec i s = .next (s.takeTrap { cause := .bounds }) := by
  rw [exec_counterRaise h, State.trgIncOp, State.use2_ok.mpr ⟨hk, hn⟩, except_ok_bind]
  dsimp only
  rw [check_bind_of_false (decide_eq_false (by omega))]
  rfl

theorem exec_counterRead_of_bounds (h : CounterRead i sc d k lit len) (hk : s.me.src lit k = .value kv)
    (hge : s.myLaunch.desc.tctr ≤ kv.toNat) : exec i s = .next (s.takeTrap { cause := .bounds }) := by
  rw [exec_counterRead h, State.trgRdOp, State.use1_ok.mpr hk, except_ok_bind, check_bind_of_false (decide_eq_false (by omega))]
  rfl

end

/-- What `trg.cancel` leaves for an answer (R230). -/
def cancelled (s : State) (d : Dst) (v : Word) (len a : Nat) : State :=
  (if a = 0 then s.modSower fun w => w.freeHandle v.toNat else s).result d (word a) [] len

theorem exec_trgCancel {s : State} {lit : Option Word} {d : Dst} {x : Src} {v : Word} (hx : s.me.src (litVal lit) x = .value v)
    (hlink : s.linkHeld s.cur.die.val = false) :
    exec (.trgCancel lit d x) s = .next (cancelled s d v (litBytes lit) (s.cancelAnswer s.myLaunch v)) := by
  show complete s (s.trgCancelOp d x (litVal lit) (litBytes lit)) = _
  rw [State.trgCancelOp, State.use1_ok.mpr hx, except_ok_bind, State.headlandGate_of_free hlink, except_ok_bind, complete_ok]
  rfl

/-- Settles O50: each instruction run along its path, and the counters by their association list. -/
theorem triggerInstructions : Obligations.TriggerInstructions := by
  unfold Obligations.TriggerInstructions
  refine ⟨fun s s1 i w imm d b lit bv len rec' hi hb hlink hrel => ?_, fun s l rec' hfull => if_pos hfull,
    fun s i sc k n lit kv nv len hi hk hn => ⟨exec_counterRaise_of_bounds hi hk hn, fun hlt hlink hrel hacq => ?_⟩,
    fun s c v => ⟨?_, rfl, rfl, fun k hk => ?_⟩,
    fun s i sc d k lit kv len hi hk => ⟨exec_counterRead_of_bounds hi hk, fun hlt hlink hfree hgate => ?_⟩,
    fun s lit d x v hx hlink => ?_⟩
  · intro ea hread
    have hexec : exec i s = complete s (postAnswer s1 d ea len (s1.recordCause s1.myLaunch rec') (s1.postEntry s1.myLaunch rec')) := by
      rw [exec_entryPost hi, State.trgPostOp_of_read hb hlink hrel hread]
    generalize s1.recordCause s1.myLaunch rec' = c at hexec ⊢
    generalize s1.postEntry s1.myLaunch rec' = p at hexec ⊢
    refine ⟨fun c hc => ?_, fun hc => ⟨fun hp => ?_, fun s2 h hp => ?_⟩⟩
    · subst hc; exact hexec
    · subst hc hp; exact hexec
    · subst hc hp; exact hexec
  · rw [exec_counterRaise hi, State.trgIncOp_of_free hk hn hlt hlink hrel hacq, complete_ok]
  · rw [State.counter_raise, if_pos rfl]
  · rw [State.counter_raise, if_neg hk]
  · rw [exec_counterRead hi, State.trgRdOp_of_free hk hlt hlink hfree hgate, complete_ok]
  · intro mine
    refine ⟨fun hnone => ?_, fun e he => ⟨fun hph hmet => ?_, fun hother => ?_⟩⟩
    · have ha : s.cancelAnswer s.myLaunch v = 2 := by rw [State.cancelAnswer, hnone]
      rw [exec_trgCancel hx hlink, ha]; rfl
    · have ha : s.cancelAnswer s.myLaunch v = 0 := by
        rw [State.cancelAnswer, he]
        simp only [hph, hmet]; rfl
      rw [exec_trgCancel hx hlink, ha]; rfl
    · have hno : (e.phase == .unfired && !s.entryMet e) = false := by
        rcases hother with h | h
        · rw [beq_false_of_ne h, Bool.false_and]
        · rw [h, Bool.not_true, Bool.and_false]
      have ha : s.cancelAnswer s.myLaunch v = 1 := by
        rw [State.cancelAnswer, he]
        simp only [hno]; rfl
      rw [exec_trgCancel hx hlink, ha]; rfl

end Sys2Proof.Machine
end

section
/-! PROOF. Torus words, hardware barriers and event counters (R225 to R227, R232, R233), and O52. -/

namespace Sys2Proof.Machine
open Stmt

/-! ## Hardware barriers -/

/-- A core leaves a barrier that its contexts have arrived at. -/
def State.leaveAt (s : State) (g : Nat) (c : CoreId) : State :=
  match (s.core c).arrived g with
  | some (k, _) => s.modCtx c k fun t => t.leaveBarrier (s.cycleOf c)
  | none => s

theorem State.barrierDone_of_missing {s : State} {cs : List CoreId} {g : Nat} (h : ∃ c ∈ cs, (s.core c).arrived g = none) :
    s.barrierDone cs g = s := by
  obtain ⟨c, hc, hnone⟩ := h
  refine if_neg fun hall => ?_
  have := List.all_eq_true.1 hall c hc
  rw [hnone] at this
  exact absurd this (by decide)

theorem State.barrierDone_of_all {s : State} {cs : List CoreId} {g : Nat} (h : ∀ c ∈ cs, ((s.core c).arrived g).isSome = true) :
    s.barrierDone cs g = cs.foldl (fun s c => s.leaveAt g c) s := if_pos (List.all_eq_true.2 h)

theorem State.leaveAt_core_ne {s : State} {g : Nat} {c d : CoreId} (h : d ≠ c) : (s.leaveAt g c).core d = s.core d := by
  unfold State.leaveAt
  split
  · rw [State.modCtx_eq_modCore, State.core_modCore_ne _ _ h]
  · rfl

theorem State.leaveAt_dies (s : State) (g : Nat) (c : CoreId) : (s.leaveAt g c).dies = s.dies := by
  unfold State.leaveAt
  split <;> rfl

theorem State.foldl_leaveAt_core {g : Nat} {d : CoreId} {cs : List CoreId} (h : d ∉ cs) (s : State) :
    (cs.foldl (fun s c => s.leaveAt g c) s).core d = s.core d := by
  induction cs generalizing s with
  | nil => rfl
  | cons c cs ih =>
    rw [List.mem_cons, not_or] at h
    exact (ih h.2 _).trans (State.leaveAt_core_ne h.1)

theorem State.foldl_leaveAt_dies {g : Nat} (cs : List CoreId) (s : State) :
    (cs.foldl (fun s c => s.leaveAt g c) s).dies = s.dies := by
  induction cs generalizing s with
  | nil => rfl
  | cons c cs ih => exact (ih _).trans (s.leaveAt_dies g c)

theorem State.leaveAt_core_congr {s t : State} {c : CoreId} (hcore : t.core c = s.core c) (hcycle : t.cycleOf c = s.cycleOf c) (g : Nat) :
    (t.leaveAt g c).core c = (s.leaveAt g c).core c := by
  unfold State.leaveAt
  rw [hcore, hcycle]
  split
  · rw [State.modCtx_eq_modCore, State.modCtx_eq_modCore, State.core_modCore, State.core_modCore, hcore]
  · exact hcore

/-- Each core of the group is as its own turn leaves it: the turns of the others do not touch it. -/
theorem State.foldl_leaveAt_of_mem {g : Nat} {cs : List CoreId} (hnodup : cs.Nodup) {c : CoreId} (hc : c ∈ cs) (s : State) :
    (cs.foldl (fun s c => s.leaveAt g c) s).core c = (s.leaveAt g c).core c := by
  induction cs generalizing s with
  | nil => cases hc
  | cons d cs ih =>
    obtain ⟨hd, hnodup⟩ := List.nodup_cons.1 hnodup
    rw [List.foldl_cons]
    by_cases hcd : c = d
    · subst hcd
      exact State.foldl_leaveAt_core hd _
    · rw [ih hnodup ((List.mem_cons.1 hc).resolve_left hcd)]
      exact State.leaveAt_core_congr (State.leaveAt_core_ne hcd) (by rw [State.cycleOf, State.leaveAt_dies]; rfl) g

/-- The context that leaves (R226). -/
theorem State.leaveAt_ctx {s : State} {g : Nat} {c : CoreId} {k : SlotId} {q : Nat} (h : (s.core c).arrived g = some (k, q)) :
    (s.leaveAt g c).ctx c k = (s.ctx c k).leaveBarrier (s.cycleOf c) := by
  rw [State.leaveAt, h]
  exact State.ctx_setCtx s c k _

theorem State.barrierDone_ctx {s : State} {cs : List CoreId} {g : Nat} {k : CoreId → SlotId} {q : CoreId → Nat} (hnodup : cs.Nodup)
    (h : ∀ c ∈ cs, (s.core c).arrived g = some (k c, q c)) {c : CoreId} (hc : c ∈ cs) :
    (s.barrierDone cs g).ctx c (k c) = (s.ctx c (k c)).leaveBarrier (s.cycleOf c) := by
  rw [State.barrierDone_of_all (fun c hc => by rw [h c hc]; rfl), ← State.leaveAt_ctx (h c hc), State.ctx, State.ctx,
    State.foldl_leaveAt_of_mem hnodup hc]

theorem Ctx.leaveBarrier_of_hbar {t : Ctx} {g : Nat} {xp : Bool} {next : Word} {n : Nat} (h : t.run = .hbar g xp next n) (cycle : Nat) :
    t.leaveBarrier cycle = { t with pc := next, phase := xp, run := .leaving cycle } := by
  rw [Ctx.leaveBarrier, h]

section
variable {s : State} {i : Instr} {xp : Bool} {g b : Src} {lit gv bv : Word} {len : Nat} {imm : BitVec 24}

theorem exec_groupBarrier (h : GroupBarrier i xp g lit len) : exec i s = complete s (s.hbarOp xp g lit len) := by cases h <;> rfl

/-- What the check of a group asks (R225). -/
theorem groupCheck_iff {cs : List CoreId} : (wbits gv 14 50 == 0 && cs.contains s.cur && cs.all fun c => s.boundTo c s.myLaunch) = true ↔
    gv.toNat / 2 ^ 14 = 0 ∧ s.cur ∈ cs ∧ ∀ c ∈ cs, s.boundTo c s.myLaunch = true := by
  have hlt : gv.toNat / 2 ^ 14 < 2 ^ 50 := Nat.div_lt_of_lt_mul gv.isLt
  have hbits : wbits gv 14 50 = gv.toNat / 2 ^ 14 := Nat.mod_eq_of_lt hlt
  rw [Bool.and_eq_true, Bool.and_eq_true, beq_iff_eq, hbits, List.contains_iff_mem, List.all_eq_true, and_assoc]

theorem exec_groupBarrier_of_bounds (h : GroupBarrier i xp g lit len) (hg : s.me.src lit g = .value gv)
    (hbad : ¬ (gv.toNat / 2 ^ 14 = 0 ∧ s.cur ∈ groupCores s.cur.die gv.toNat ∧
      ∀ c ∈ groupCores s.cur.die gv.toNat, s.boundTo c s.myLaunch = true)) :
    exec i s = .next (s.takeTrap { cause := .bounds }) := by
  rw [exec_groupBarrier h, State.hbarOp, State.use1_ok.mpr hg, except_ok_bind]
  dsimp only
  rw [check_bind_of_false (by rwa [← Bool.not_eq_true, groupCheck_iff])]
  rfl

theorem exec_groupBarrier_arrives (h : GroupBarrier i xp g lit len) (hg : s.me.src lit g = .value gv)
    (hgood : gv.toNat / 2 ^ 14 = 0 ∧ s.cur ∈ groupCores s.cur.die gv.toNat ∧
      ∀ c ∈ groupCores s.cur.die gv.toNat, s.boundTo c s.myLaunch = true) (hrel : ReleaseFree s .die) (hacq : s.me.acqWait = false) :
    exec i s = .next (({ (released s).modMe (fun t => { t with
        run := .hbar gv.toNat xp (s.me.pc + BitVec.ofNat 64 len) s.serial, phase := t.phase && xp }) with
      serial := s.serial + 1 } : State).barrierDone (groupCores s.cur.die gv.toNat).dedup gv.toNat) := by
  have hpc : (released s).me.pc = s.me.pc := by rw [released, State.me_modMe]
  rw [exec_groupBarrier h, State.hbarOp, State.use1_ok.mpr hg, except_ok_bind]
  dsimp only
  rw [check_bind_of_true (groupCheck_iff.2 hgood), State.release_of_free hrel, except_ok_bind, State.accessGate_released hrel.1 hacq,
    except_ok_bind, complete_ok, hpc]
  rfl

/-! ## The gather of event counters -/

theorem exec_gather (h : Gather i imm b lit len) : exec i s = complete s (s.evgathOp imm b lit len) := by cases h <;> rfl

theorem exec_gather_of_window (h : Gather i imm b lit len) (hb : s.me.src lit b = .value bv)
    (hout : s.myLaunch.split.size .G < (bv + imm.signExtend 64).toNat + 64) :
    exec i s = .next (s.takeTrap { cause := .window, addr := bv + imm.signExtend 64 }) := by
  rw [exec_gather h, State.evgathOp, State.use1_ok.mpr hb, except_ok_bind]
  dsimp only [ea2_eq]
  rw [check_bind_of_false (by rw [decide_eq_false (by omega), Bool.false_and])]
  rfl

theorem State.evgathOp_in_window (hb : s.me.src lit b = .value bv) (hin : (bv + imm.signExtend 64).toNat + 64 ≤ s.myLaunch.split.size .G)
    (hkeys : (s.windowKeys s.cur s.myLaunch .G (bv + imm.signExtend 64).toNat 64).isSome = true) :
    s.evgathOp imm b lit len = (check ((bv + imm.signExtend 64).toNat % 64 == 0) .align (bv + imm.signExtend 64) >>= fun _ =>
      .ok { s.modMe (fun t => { t with
        run := .gather (bv + imm.signExtend 64).toNat (s.me.pc + BitVec.ofNat 64 len) s.serial (s.myCore.ev.toList.map BitVec.toNat) }) with
          serial := s.serial + 1 }) := by
  rw [State.evgathOp, State.use1_ok.mpr hb, except_ok_bind]
  dsimp only [ea2_eq]
  rw [check_bind_of_true (by rw [decide_eq_true hin, hkeys]; rfl)]
  rfl

end

theorem Core.clearEv_get (x : Core) (k : Fin 17) (j : Fin 16) :
    (x.clearEv k).ev.get j = if k.val = 16 ∨ k.val = j.val then 0 else x.ev.get j := by
  unfold Core.clearEv
  by_cases hk : k.val < 16
  · rw [dif_pos hk]
    refine (vector_get_set x.ev ⟨k.val, hk⟩ j 0).trans ?_
    by_cases hj : j.val = k.val
    · rw [if_pos (Fin.ext hj), if_pos (.inr hj.symm)]
    · rw [if_neg (fun h => hj (congrArg Fin.val h)), if_neg (by omega)]
  · rw [dif_neg hk, if_pos (.inl (by omega))]
    simp [Vector.get_eq_getElem]

/-- Settles O52: each instruction along its path, and a barrier's end core by core. -/
theorem torusBarrierAndCountInstructions : Obligations.TorusBarrierAndCountInstructions := by
  unfold Obligations.TorusBarrierAndCountInstructions
  refine ⟨fun s x dir v hx => ?_, fun s d dir => rfl, fun s i xp g lit gv len hi hg => ?_,
    fun s cs g h => State.barrierDone_of_missing h, fun s cs g k q hnodup harr c hc g' xp next n hrun => ?_, fun s d k => rfl,
    fun s k hq => ?_, fun s k hq => ?_, fun s i imm b lit bv len hi hb => ?_⟩
  · show complete s (s.xmitOp x dir) = _
    rw [State.xmitOp, State.use1_ok.mpr hx, except_ok_bind, complete_ok]
    rfl
  · intro cs
    refine ⟨fun hbad => exec_groupBarrier_of_bounds hi hg fun ⟨hwide, hmem, hbound⟩ => ?_,
      fun hwide hmem hbound => exec_groupBarrier_arrives hi hg ⟨hwide, hmem, hbound⟩⟩
    rcases hbad with h | h | ⟨c, hc, h⟩
    · exact h hwide
    · exact h hmem
    · rw [hbound c hc] at h; cases h
  · rw [State.barrierDone_ctx hnodup harr hc, Ctx.leaveBarrier_of_hbar hrun]
    exact ⟨rfl, rfl, rfl⟩
  · have hwait : waitFor s.me.vq.isEmpty = wait := by
      rw [waitFor, List.isEmpty_eq_false_iff.2 hq]; rfl
    show complete s (waitFor s.me.vq.isEmpty >>= _) = _
    rw [hwait]
    rfl
  · have hgo : waitFor s.me.vq.isEmpty = .ok () := by rw [waitFor_ok, List.isEmpty_iff, hq]
    refine ⟨(s.modCore s.cur fun x => x.clearEv k).advance 4, ?_, rfl, ?_, fun j => ?_⟩
    · show complete s (waitFor s.me.vq.isEmpty >>= _) = _
      rw [hgo, except_ok_bind, complete_ok]
    · have hpc : (s.modCore s.cur fun x => x.clearEv k).me.pc = s.me.pc := by
        unfold State.me State.ctx
        rw [State.modCore_cur, State.core_modCore]
        unfold Core.clearEv
        split <;> rfl
      rw [State.advance_me]
      exact congrArg (· + BitVec.ofNat 64 4) hpc
    · rw [← Core.clearEv_get]
      show (((s.modCore s.cur fun x => x.clearEv k).advance 4).core s.cur).ev.get j = _
      rw [State.advance, State.modMe, State.setMe, State.setCtx, State.modCore_cur, State.core_setCore, State.core_modCore]
      rfl
  · intro ea
    refine ⟨exec_gather_of_window hi hb, fun hin hkeys => ⟨fun hmis => ?_, fun halign => ?_⟩⟩
    · rw [exec_gather hi, State.evgathOp_in_window hb hin hkeys, check_bind_of_false (beq_false_of_ne hmis)]
      rfl
    · rw [exec_gather hi, State.evgathOp_in_window hb hin hkeys, check_bind_of_true (beq_iff_eq.2 halign)]
      rfl

end Sys2Proof.Machine
end

section
/-! PROOF. How the matrix unit runs a command (R185, R189, R209), and the addresses and bytes of a core's windows that
its commands read and write. -/

namespace Sys2Proof.Machine
open Stmt

/-! ## A command's turn -/

section
variable {s s1 t u : State} {c : CoreId} {i : Instr} {op : Nat} {code : Launch → HCode} {k : HCode} {l : Launch} {q : HCmd}
  {rest : List HCmd} {h h1 : HRun}

theorem exec_harrowEvent (he : HarrowEvent c i op code) : exec i s = .next (s.hEvent c op code) := by cases he <;> rfl

theorem State.hSettle_done (s : State) (c : CoreId) (h : HRun) :
    s.hSettle c h true =
      s.modCore c fun x => { x with harrow := { x.harrow with running := none, retiring := x.harrow.retiring ++ [h] } } := rfl

theorem State.hSettle_running (s : State) (c : CoreId) {h : HRun} (hok : h.failed = none) :
    s.hSettle c h false = s.modCore c fun x => { x with harrow := { x.harrow with running := some h } } := by
  rw [State.hSettle, hok]
  rfl

theorem State.hRows_of_rowsDone (hd : RowsDone k s c h t) : s.hRows c k h = t := by
  obtain ⟨s2, h2, hloop, ⟨hlt, hok, rfl⟩ | ⟨hge, s3, h3, hends, rfl⟩⟩ := hd
  · rw [State.hRows]
    dsimp only
    rw [hloop]
    dsimp only
    rw [decide_eq_true hlt, if_pos (by rfl), State.hSettle_running _ _ hok]
  · rw [State.hRows]
    dsimp only
    rw [hloop]
    dsimp only
    rw [decide_eq_false (by omega), if_neg (by decide), hends]
    rfl

theorem State.hRun_begins (hnew : h.begun = false) (hb : k.begins s h = .ok (s1, h1)) :
    s.hRun c k h = (ssrSettled s1 c).hRows c k { h1 with begun := true } := by
  rw [State.hRun, if_neg (by rw [hnew]; decide), hb]
  rfl

theorem State.hEvent_head (hq : CommandAtHead s c l op q rest) :
    s.hEvent c op code = (begun s c q rest).hRun c (code l) { cmd := q, serial := s.serial } := by
  obtain ⟨hl, hlive, hstop, hfree, hmay, hrun, hqueue, hop⟩ := hq
  have hgo : (l.phase != .live || l.stopping || !(s.core c).harrow.free) = false := by rw [hlive, hstop, hfree]; rfl
  have hstart : ¬ (field q.record 0 1 ≠ op ∨ (s.core c).harrow.mayStart c = false) := by rw [hop, hmay]; simp
  rw [State.hEvent, hl]
  dsimp only
  rw [hgo, if_neg (by decide), hrun]
  dsimp only
  rw [hqueue]
  dsimp only
  rw [if_neg hstart]
  rfl

/-- The head of the queue begins, and its rows of that turn succeed (R189). -/
theorem exec_atHead (he : HarrowEvent c i op code) (hq : CommandAtHead s c l op q rest)
    (hb : (code l).begins (begun s c q rest) { cmd := q, serial := s.serial } = .ok (s1, h1))
    (hd : RowsDone (code l) (ssrSettled s1 c) c { h1 with begun := true } t) : exec i s = .next t := by
  rw [exec_harrowEvent he, State.hEvent_head hq, State.hRun_begins rfl hb, State.hRows_of_rowsDone hd]

/-- A command at work goes on from where it stands (R209). -/
theorem exec_atWork (he : HarrowEvent c i op code) (hl : s.launchOf c = some l) (hlive : l.phase = .live) (hstop : l.stopping = false)
    (hfree : (s.core c).harrow.free = true) (hrun : (s.core c).harrow.running = some h) (hop : field h.cmd.record 0 1 = op)
    (hbegun : h.begun = true) (hd : RowsDone (code l) (ssrSettled s c) c h t) : exec i s = .next t := by
  have hgo : (l.phase != .live || l.stopping || !(s.core c).harrow.free) = false := by rw [hlive, hstop, hfree]; rfl
  rw [exec_harrowEvent he, State.hEvent, hl]
  dsimp only
  rw [hgo, if_neg (by decide), hrun]
  dsimp only
  rw [if_pos hop, State.hRun, if_pos hbegun]
  exact congrArg Host.Outcome.next (State.hRows_of_rowsDone hd)

theorem exec_harrowEvent_idle (he : HarrowEvent c i op code)
    (hidle : s.launchOf c = none ∨ ((s.core c).harrow.running = none ∧ (s.core c).harrow.queue = [])) : exec i s = .next s := by
  rw [exec_harrowEvent he, State.hEvent]
  rcases hidle with hl | ⟨hrun, hqueue⟩
  · rw [hl]
  · cases s.launchOf c with
    | none => rfl
    | some l =>
      dsimp only
      rw [hrun]
      dsimp only
      rw [hqueue]
      exact congrArg Host.Outcome.next (ite_self s)

/-! ## Rows -/

theorem State.hLoop_of_done {step : State → HRun → HRes (State × HRun)} {done : HRun → Bool} (hd : done h = true) (fuel : Nat) :
    s.hLoop step fuel h done = (s, h, true) := by
  cases fuel with
  | zero => rw [State.hLoop, hd]
  | succ n => rw [State.hLoop, if_pos hd]

theorem State.hLoop_step {step : State → HRun → HRes (State × HRun)} {done : HRun → Bool} (hd : done h = false)
    (hs : step s h = .ok (s1, h1)) (fuel : Nat) : s.hLoop step (fuel + 1) h done = s1.hLoop step fuel h1 done := by
  rw [State.hLoop, hd, if_neg (by decide), hs]

/-- A command that retires with its last row (R185). -/
def retired (s : State) (c : CoreId) (h : HRun) : State :=
  s.modCore c fun x => { x with harrow := { x.harrow with running := none, retiring := x.harrow.retiring ++ [h] } }

/-- A command without rows ends in the turn in which it begins. -/
theorem rowsDone_of_noRows (hrows : k.rows h = 0) (hends : k.ends s h = .ok (s1, h1)) : RowsDone k s c h (retired s1 c h1) := by
  have hstop : min (k.rows h) (h.row / 16 * 16 + 16) = 0 := by omega
  refine ⟨s, h, ?_, .inr ⟨by omega, s1, h1, hends, rfl⟩⟩
  rw [hstop]
  exact State.hLoop_of_done (decide_eq_true (Nat.zero_le _)) _

/-- A command whose last row is its next one ends with it. -/
theorem rowsDone_of_lastRow {s2 : State} {h2 : HRun} (hrows : k.rows h = h.row + 1) (hstep : k.step s h = .ok (s1, h1))
    (hrow : h1.row = h.row + 1) (hends : k.ends s1 h1 = .ok (s2, h2)) : RowsDone k s c h (retired s2 c h2) := by
  have hstop : min (k.rows h) (h.row / 16 * 16 + 16) = h.row + 1 := by omega
  refine ⟨s1, h1, ?_, .inr ⟨by omega, s2, h2, hends, rfl⟩⟩
  rw [hstop, State.hLoop_step (decide_eq_false (by omega)) hstep]
  exact State.hLoop_of_done (decide_eq_true (by omega)) _

end

/-! ## What a turn's states keep -/

section
variable (s : State) (c : CoreId)

@[simp] theorem State.modHarrow_harrow (f : Harrow → Harrow) : ((s.modHarrow c f).core c).harrow = f (s.core c).harrow := by
  rw [State.modHarrow, State.core_modCore]; rfl

theorem State.modHarrow_core_ne {d : CoreId} (f : Harrow → Harrow) (h : d ≠ c) : (s.modHarrow c f).core d = s.core d :=
  State.core_modCore_ne s _ h

theorem begun_core (q : HCmd) (rest : List HCmd) : (begun s c q rest).core c = { s.core c with
    ssr := q.ssr.foldl (fun v p => v.set p.1.val p.2 p.1.isLt) (s.core c).ssr
    harrow := { (s.core c).harrow with queue := rest, running := some { cmd := q, serial := s.serial } } } :=
  State.core_modCore s c fun x => { x with
    ssr := q.ssr.foldl (fun v p => v.set p.1.val p.2 p.1.isLt) x.ssr
    harrow := { x.harrow with queue := rest, running := some { cmd := q, serial := s.serial } } }

theorem begun_core_ne (q : HCmd) (rest : List HCmd) {d : CoreId} (h : d ≠ c) : (begun s c q rest).core d = s.core d :=
  State.core_modCore_ne s (fun x => { x with
    ssr := q.ssr.foldl (fun v p => v.set p.1.val p.2 p.1.isLt) x.ssr
    harrow := { x.harrow with queue := rest, running := some { cmd := q, serial := s.serial } } }) h

@[simp] theorem begun_harrow (q : HCmd) (rest : List HCmd) : ((begun s c q rest).core c).harrow =
    { (s.core c).harrow with queue := rest, running := some { cmd := q, serial := s.serial } } := by
  rw [begun_core]

theorem Core.takeSsr_eq (x : Core) : ∃ v n, x.takeSsr = { x with ssr := v, ssrNext := n } := by
  unfold Core.takeSsr
  split
  · exact ⟨_, _, rfl⟩
  · exact ⟨_, _, rfl⟩

theorem ssrSettled_core : (ssrSettled s c).core c = (s.core c).takeSsr := State.core_modCore s c Core.takeSsr

@[simp] theorem ssrSettled_harrow : ((ssrSettled s c).core c).harrow = (s.core c).harrow := by
  obtain ⟨v, n, h⟩ := (s.core c).takeSsr_eq
  rw [ssrSettled_core, h]

theorem retired_core (h : HRun) : (retired s c h).core c =
    { s.core c with harrow := { (s.core c).harrow with running := none, retiring := (s.core c).harrow.retiring ++ [h] } } :=
  State.core_modCore s c fun x => { x with harrow := { x.harrow with running := none, retiring := x.harrow.retiring ++ [h] } }

@[simp] theorem retired_harrow (h : HRun) : ((retired s c h).core c).harrow =
    { (s.core c).harrow with running := none, retiring := (s.core c).harrow.retiring ++ [h] } :=
  congrArg Core.harrow (State.core_modCore s c _)

theorem retired_core_ne {d : CoreId} (h : HRun) (hd : d ≠ c) : (retired s c h).core d = s.core d := State.core_modCore_ne s _ hd

@[simp] theorem retired_mem (h : HRun) : (retired s c h).mem = s.mem := rfl

@[simp] theorem ssrSettled_mem : (ssrSettled s c).mem = s.mem := rfl

@[simp] theorem begun_mem (q : HCmd) (rest : List HCmd) : (begun s c q rest).mem = s.mem := rfl

@[simp] theorem State.hWrite_core (l : Launch) (w : Win) (off : Nat) (bs : List Byte) (d : CoreId) :
    (s.hWrite c l w off bs).core d = s.core d := by
  unfold State.hWrite
  split
  · exact State.write_core ..
  · rfl

end

/-! ## The bytes of a core's windows -/

/-- What the reads of a core's commands see: memory, poison, the core's bound ranges and the halves of its shadow pairs. -/
structure SameView (s t : State) (c : CoreId) : Prop where
  mem : t.mem = s.mem
  poison : t.poison = s.poison
  regions : (t.core c).regions = (s.core c).regions
  vis : (t.core c).vis = (s.core c).vis

section
variable {s t u : State} {c : CoreId} {l : Launch} {w : Win} {off n : Nat} {ks : List Nat} {bs : List Byte}

theorem SameView.trans (h : SameView s t c) (h' : SameView t u c) : SameView s u c :=
  ⟨h'.mem.trans h.mem, h'.poison.trans h.poison, h'.regions.trans h.regions, h'.vis.trans h.vis⟩

theorem sameView_modCore (s : State) (c : CoreId) {f : Core → Core} (hr : (f (s.core c)).regions = (s.core c).regions)
    (hv : (f (s.core c)).vis = (s.core c).vis) : SameView s (s.modCore c f) c :=
  ⟨rfl, rfl, by rw [State.core_modCore, hr], by rw [State.core_modCore, hv]⟩

theorem sameView_modHarrow (s : State) (c : CoreId) (f : Harrow → Harrow) : SameView s (s.modHarrow c f) c := sameView_modCore s c rfl rfl

theorem sameView_begun (s : State) (c : CoreId) (q : HCmd) (rest : List HCmd) : SameView s (begun s c q rest) c :=
  ⟨rfl, rfl, by rw [begun_core], by rw [begun_core]⟩

theorem sameView_ssrSettled (s : State) (c : CoreId) : SameView s (ssrSettled s c) c := by
  obtain ⟨v, n, h⟩ := (s.core c).takeSsr_eq
  exact ⟨rfl, rfl, by rw [ssrSettled_core, h], by rw [ssrSettled_core, h]⟩

theorem Core.touched_congr {x y : Core} (h : y.regions = x.regions) : y.touched w off n = x.touched w off n := by
  unfold Core.touched
  rw [h]

theorem State.windowKeys_congr (h : (t.core c).vis = (s.core c).vis) : t.windowKeys c l w off n = s.windowKeys c l w off n := by
  unfold State.windowKeys
  rw [h]

theorem State.firstPoison_congr (h : t.poison = s.poison) : t.firstPoison ks = s.firstPoison ks := by
  unfold State.firstPoison
  rw [h]

theorem readable_congr (hv : SameView s t c) (h : Readable s c l w off n ks) : Readable t c l w off n ks :=
  ⟨(Core.touched_congr hv.regions).trans h.1, (State.windowKeys_congr hv.vis).trans h.2.1, (State.firstPoison_congr hv.poison).trans h.2.2⟩

theorem State.hRead_of_readable (h : Readable s c l w off n ks) : s.hRead c l w off n = .ok (s.bytesAt ks) := by
  obtain ⟨htouch, hkeys, hpoison⟩ := h
  simp only [State.hRead, htouch, hkeys, hpoison]

theorem readable_of_hRead (h : s.hRead c l w off n = .ok bs) : ∃ ks, Readable s c l w off n ks ∧ bs = s.bytesAt ks := by
  unfold State.hRead at h
  cases htouch : (s.core c).touched w off n with
  | absent i => rw [htouch] at h; cases h
  | copying i => rw [htouch] at h; cases h
  | failed k a => rw [htouch] at h; cases h
  | clear =>
    rw [htouch] at h
    cases hkeys : s.windowKeys c l w off n with
    | none => simp only [hkeys] at h; cases h
    | some ks =>
      cases hpoison : s.firstPoison ks with
      | some i => simp only [hkeys, hpoison] at h; cases h
      | none =>
        simp only [hkeys, hpoison] at h
        exact ⟨ks, ⟨htouch, hkeys, hpoison⟩, (Except.ok.inj h).symm⟩

theorem State.hRead_congr (hv : SameView s t c) (h : s.hRead c l w off n = .ok bs) : t.hRead c l w off n = .ok bs := by
  obtain ⟨ks, hread, rfl⟩ := readable_of_hRead h
  rw [State.hRead_of_readable (readable_congr hv hread), State.bytesAt_of_mem_eq hv.mem]

theorem length_windowKeys (h : s.windowKeys c l w off n = some ks) : ks.length = n := by
  unfold State.windowKeys at h
  split at h
  · cases h
  · dsimp only at h
    split at h
    · cases h
    · rw [← Option.some.inj h, List.length_map, length_range]

theorem windowKeys_eq_range (hpairs : l.pairs = []) (h : s.windowKeys c l w off n = some ks) : ks = range (lmKey c w off) n := by
  have hin : off + n ≤ l.split.size w := by
    unfold State.windowKeys at h
    by_contra hout
    rw [if_pos (by omega)] at h
    cases h
  rw [State.windowKeys_of_no_pairs hpairs hin] at h
  exact (Option.some.inj h).symm

theorem State.hWrite_of_keys (h : s.windowKeys c l w off bs.length = some ks) : s.hWrite c l w off bs = s.write none ks bs := by
  simp only [State.hWrite, h]

/-- Bytes written to a window without shadow pairs read back. -/
theorem State.hWrite_bytesAt (hwf : s.mem.wf = true) (hpairs : l.pairs = []) (h : s.windowKeys c l w off n = some ks) (hlen : bs.length = n) :
    (s.hWrite c l w off bs).bytesAt ks = bs := by
  subst hlen
  have hks := windowKeys_eq_range hpairs h
  rw [State.hWrite_of_keys h]
  exact State.write_bytesAt none hwf (hks ▸ range_nodup _ _) (length_windowKeys h)

theorem State.hWrite_get_of_notMem (hwf : s.mem.wf = true) (h : s.windowKeys c l w off n = some ks) (hlen : bs.length = n) {a : Nat}
    (ha : a ∉ ks) : (s.hWrite c l w off bs).mem.get a = s.mem.get a := by
  subst hlen
  rw [State.hWrite_of_keys h]
  exact State.write_get_of_notMem none bs hwf ha

end

end Sys2Proof.Machine
end

section
/-! PROOF. The matrix unit's banks, zeroed rows and regions (R190 to R192, R204, R205, R207, R208), and the arithmetic of its
INT8 rows (R195). -/

namespace Sys2Proof.Machine
open Stmt

/-! ## MLDW and MSWAP -/

section
variable (y : Harrow) (b : Bank) (st : BankState)

theorem Harrow.setInactive_inactive : (y.setInactive b st).inactive = st := by unfold Harrow.setInactive; split <;> rfl

theorem Harrow.setInactive_active : (y.setInactive b st).active = y.active := by unfold Harrow.setInactive; split <;> rfl

theorem Harrow.setInactive_queue : (y.setInactive b st).queue = y.queue := by unfold Harrow.setInactive; split <;> rfl

theorem Harrow.setInactive_inactiveBank : (y.setInactive b st).inactiveBank = b := by
  cases h : y.active <;> simp [Harrow.setInactive, Harrow.inactiveBank, h]

theorem Harrow.setInactive_activeBank : (y.setInactive b st).activeBank = y.activeBank := by
  cases h : y.active <;> simp [Harrow.setInactive, Harrow.activeBank, h]

end

section
variable {s : State} {c : CoreId} {l : Launch} {q : HCmd} {rest : List HCmd}

/-- The state in which an MLDW has begun to fill its bank. -/
def fillingBank (s : State) (c : CoreId) (q : HCmd) (rest : List HCmd) : State :=
  ssrSettled ((begun s c q rest).modHarrow c fun y => { y with inactive := .filling }) c

theorem sameView_fillingBank (s : State) (c : CoreId) (q : HCmd) (rest : List HCmd) : SameView (begun s c q rest) (fillingBank s c q rest) c :=
  (sameView_modHarrow _ c _).trans (sameView_ssrSettled _ c)

/-- The bank that an MLDW reads. -/
def bankRead (f : Nat) (w sc : List Byte) : Bank :=
  { weights := w, scales := if f = 1 then [] else (words4 sc).map (BitVec.ofNat 32), fmt := tyCode f }

theorem mldwCode_ends {w sc : List Byte} {h : HRun}
    (hw : s.hRead c l .W (field h.cmd.record 8 4) (if field h.cmd.record 16 1 = 11 then 32768 else 16384) = .ok w)
    (hsc : field h.cmd.record 16 1 ≠ 1 → s.hRead c l .W (field h.cmd.record 12 4) 2048 = .ok sc) :
    (mldwCode c l).ends s h = .ok (s.modHarrow c fun y => y.setInactive (bankRead (field h.cmd.record 16 1) w sc) .loaded, h) := by
  unfold mldwCode
  dsimp only
  rw [hw, except_ok_bind]
  by_cases hf : field h.cmd.record 16 1 = 1
  · rw [if_pos hf, except_ok_bind, bankRead, if_pos hf]
    rfl
  · rw [if_neg hf, hsc hf, except_ok_bind, bankRead, if_neg hf]

theorem exec_mldw {w sc : List Byte} (hq : CommandAtHead s c l 1 q rest) (hfill : (s.core c).harrow.inactive ≠ .filling)
    (hdrain : (s.core c).harrow.inactive ≠ .draining)
    (hw : (begun s c q rest).hRead c l .W (field q.record 8 4) (if field q.record 16 1 = 11 then 32768 else 16384) = .ok w)
    (hsc : field q.record 16 1 ≠ 1 → (begun s c q rest).hRead c l .W (field q.record 12 4) 2048 = .ok sc) :
    exec (.mldw c) s = .next (retired ((fillingBank s c q rest).modHarrow c fun y => y.setInactive (bankRead (field q.record 16 1) w sc) .loaded) c
      { cmd := q, serial := s.serial, was := (s.core c).harrow.inactive, begun := true }) := by
  have hbegins : (mldwCode c l).begins (begun s c q rest) { cmd := q, serial := s.serial } =
      .ok ((begun s c q rest).modHarrow c fun y => { y with inactive := .filling },
        { cmd := q, serial := s.serial, was := (s.core c).harrow.inactive }) := by
    unfold mldwCode
    dsimp only
    rw [begun_harrow, if_neg (by simp [hfill, hdrain])]
  have hview := sameView_fillingBank s c q rest
  exact exec_atHead .mldw hq hbegins (rowsDone_of_noRows rfl
    (mldwCode_ends (State.hRead_congr hview hw) fun hf => State.hRead_congr hview (hsc hf)))

/-- The state in which the banks have been exchanged. -/
def swapped (s : State) (c : CoreId) (q : HCmd) (rest : List HCmd) : State :=
  let y := (s.core c).harrow
  (begun s c q rest).modHarrow c fun x => { x with
    active := !y.active
    inactive := if y.activeBank.fmt = none then .empty else if y.tagged y.active then .draining else .loaded }

theorem exec_mswap (hq : CommandAtHead s c l 2 q rest) (hfill : (s.core c).harrow.inactive ≠ .filling)
    (hself : (s.core c).harrow.selfRotation c = false) (hempty : (s.core c).harrow.inactive ≠ .empty) :
    exec (.mswap c) s = .next (retired (ssrSettled (swapped s c q rest) c) c { cmd := q, serial := s.serial, begun := true }) := by
  have hself' : ((begun s c q rest).core c).harrow.selfRotation c = false := by rw [begun_harrow]; exact hself
  have hbegins : (mswapCode c).begins (begun s c q rest) { cmd := q, serial := s.serial } =
      .ok (swapped s c q rest, { cmd := q, serial := s.serial }) := by
    unfold mswapCode HCode.single
    dsimp only
    rw [if_neg (by rw [hself', begun_harrow]; simp [hfill]), if_neg (by rw [begun_harrow]; exact hempty), begun_harrow]
    simp only [swapped, Option.isNone_iff_eq_none]
    rfl
  exact exec_atHead (code := fun _ => mswapCode c) .mswap hq hbegins (rowsDone_of_noRows rfl rfl)

/-! ## MRACC and MSYNC -/

theorem exec_mracc (hq : CommandAtHead s c l 8 q rest) :
    exec (.mracc c) s = .next (retired (ssrSettled (((begun s c q rest).hWrite c l .C (field q.record 8 4)
      (List.replicate (2048 * field q.record 12 2) 0)).modHarrow c fun y => y.setRegion (Fin.ofNat 4 (field q.record 14 1))
        { isOpen := true, roff := field q.record 8 4, rows := field q.record 12 2, exp := fieldInt q.record 16 4 }) c) c
      { cmd := q, serial := s.serial, row := field q.record 12 2, begun := true }) :=
  exec_atHead .mracc hq rfl (rowsDone_of_noRows rfl rfl)

theorem exec_msync (hq : CommandAtHead s c l 10 q rest) (hret : (s.core c).harrow.retiring = []) (hrot : fieldBit q.record 1 0 = false) :
    exec (.msync c) s = .next (retired (ssrSettled (begun s c q rest) c) c { cmd := q, serial := s.serial, begun := true }) := by
  have hbegins : (msyncCode c).begins (begun s c q rest) { cmd := q, serial := s.serial } =
      .ok (begun s c q rest, { cmd := q, serial := s.serial }) := by
    unfold msyncCode HCode.single
    dsimp only
    rw [begun_harrow, if_pos ⟨by simp [hret], .inl hrot⟩]
  exact exec_atHead (code := fun _ => msyncCode c) .msync hq hbegins (rowsDone_of_noRows rfl rfl)

/-! ## MZERO -/

/-- The same bytes written to consecutive rows. -/
def writeRows (c : CoreId) (l : Launch) (r : List Byte) (bs : List Byte) (a n : Nat) (s : State) : State :=
  match n with
  | 0 => s
  | n + 1 => writeRows c l r bs (a + 1) n (s.hWrite c l .C (field r 8 4 + a * field r 12 2) bs)

/-- A step that writes the same bytes to its row, and goes on to the next. -/
def WritesRow (step : State → HRun → HRes (State × HRun)) (c : CoreId) (l : Launch) (bs : List Byte) : Prop :=
  ∀ s h, step s h = .ok (s.hWrite c l .C (field h.cmd.record 8 4 + h.row * field h.cmd.record 12 2) bs, { h with row := h.row + 1 })

theorem writesRow_mzero (c : CoreId) (l : Launch) : WritesRow (mzeroCode c l).step c l (List.replicate 512 0) := fun _ _ => rfl

theorem hLoop_writesRow {step : State → HRun → HRes (State × HRun)} {bs : List Byte} (hstep : WritesRow step c l bs) {h : HRun}
    {stop fuel n : Nat} (hstop : stop = h.row + n) (hfuel : n ≤ fuel) :
    s.hLoop step fuel h (fun r => decide (stop ≤ r.row)) = (writeRows c l h.cmd.record bs h.row n s, { h with row := stop }, true) := by
  induction n generalizing s h fuel with
  | zero =>
    obtain rfl : stop = h.row := hstop
    exact State.hLoop_of_done (decide_eq_true le_rfl) _
  | succ n ih =>
    obtain ⟨fuel, rfl⟩ : ∃ m, fuel = m + 1 := ⟨fuel - 1, by omega⟩
    rw [State.hLoop_step (decide_eq_false (by omega)) (hstep s h), ih (h := { h with row := h.row + 1 }) (by dsimp only; omega) (by omega)]
    rfl

theorem writeRows_core (c d : CoreId) (l : Launch) (r bs : List Byte) (a n : Nat) (s : State) : (writeRows c l r bs a n s).core d = s.core d := by
  induction n generalizing a s with
  | zero => rfl
  | succ n ih => exact (ih ..).trans (State.hWrite_core ..)

theorem Memory.get_setAll_zero {m : Memory} {ks : List Nat} {n k : Nat} (hwf : m.wf = true) (h : Memory.get m k = 0 ∨ (k ∈ ks ∧ ks.length ≤ n)) :
    (m.setAll (ks.zip (List.replicate n 0))).get k = 0 := by
  induction ks generalizing m n with
  | nil => exact h.resolve_right (by simp)
  | cons a ks ih =>
    cases n with
    | zero => exact h.resolve_right (by simp)
    | succ n =>
      refine ih (m := m.set a 0) (n := n) (Memory.set_wf a 0 hwf) ?_
      by_cases hk : k = a
      · exact .inl (hk ▸ Memory.get_set_self a 0 hwf)
      · rw [Memory.get_set_ne 0 hwf hk]
        refine h.imp_right fun ⟨hmem, hlen⟩ => ⟨(List.mem_cons.1 hmem).resolve_left hk, ?_⟩
        rw [List.length_cons] at hlen; omega

theorem State.hWrite_zero {w : Win} {off n k : Nat} (hwf : s.mem.wf = true)
    (h : s.mem.get k = 0 ∨ ∃ ks, s.windowKeys c l w off n = some ks ∧ k ∈ ks) :
    (s.hWrite c l w off (List.replicate n 0)).mem.get k = 0 := by
  unfold State.hWrite
  rw [List.length_replicate]
  cases hks : s.windowKeys c l w off n with
  | none => exact h.resolve_right (by rw [hks]; simp)
  | some ks =>
    dsimp only
    rw [State.write_mem]
    refine Memory.get_setAll_zero hwf (h.imp_right fun ⟨ks', hks', hk⟩ => ?_)
    rw [hks] at hks'
    exact ⟨Option.some.inj hks' ▸ hk, (length_windowKeys hks).le⟩

/-- Each row written with zeros reads 0, whether or not rows overlap. -/
theorem writeRows_get {r : List Byte} {z a n k : Nat} (hwf : s.mem.wf = true)
    (h : s.mem.get k = 0 ∨ ∃ m ks, m < n ∧ s.windowKeys c l .C (field r 8 4 + (a + m) * field r 12 2) z = some ks ∧ k ∈ ks) :
    (writeRows c l r (List.replicate z 0) a n s).mem.get k = 0 := by
  induction n generalizing a s with
  | zero => exact h.resolve_right (by simp)
  | succ n ih =>
    refine ih (s := s.hWrite c l .C (field r 8 4 + a * field r 12 2) (List.replicate z 0)) (a := a + 1) (State.hWrite_wf hwf) ?_
    rcases h with h | ⟨m, ks, hm, hks, hk⟩
    · exact .inl (State.hWrite_zero hwf (.inl h))
    · cases m with
      | zero => exact .inl (State.hWrite_zero hwf (.inr ⟨ks, hks, hk⟩))
      | succ m =>
        refine .inr ⟨m, ks, by omega, ?_, hk⟩
        rw [State.windowKeys_congr (s := s) (by rw [State.hWrite_core]), Nat.add_assoc, Nat.add_comm 1 m]
        exact hks

/-- The first turn of a command that writes the same bytes to its rows: up to 16 rows; with the last one it retires. -/
theorem rowsDone_writesRow {k : HCode} {bs : List Byte} {h : HRun} {n : Nat} (hstep : WritesRow k.step c l bs)
    (hends : ∀ s h, k.ends s h = .ok (s, h)) (hn : k.rows h = n) (hrow : h.row = 0) (hok : h.failed = none) :
    RowsDone k s c h (if n ≤ 16 then retired (writeRows c l h.cmd.record bs 0 (min n 16) s) c { h with row := n }
      else (writeRows c l h.cmd.record bs 0 (min n 16) s).modHarrow c fun y => { y with running := some { h with row := 16 } }) := by
  have hstop : min (k.rows h) (h.row / 16 * 16 + 16) = min n 16 := by omega
  have hloop := hLoop_writesRow (s := s) hstep (h := h) (stop := min n 16) (n := min n 16) (fuel := 16 * (min n 16 - h.row) + 1)
    (by omega) (by omega)
  rw [RowsDone, hstop, hloop, hrow]
  refine ⟨_, _, rfl, ?_⟩
  rw [hn]
  by_cases hle : n ≤ 16
  · rw [if_pos hle, Nat.min_eq_left hle]
    exact .inr ⟨le_rfl, _, _, hends _ _, rfl⟩
  · rw [if_neg hle, Nat.min_eq_right (by omega)]
    exact .inl ⟨by dsimp only; omega, hok, rfl⟩

/-- An MZERO's rows after its first turn. -/
def zeroed (s : State) (c : CoreId) (l : Launch) (q : HCmd) (rest : List HCmd) : State :=
  writeRows c l q.record (List.replicate 512 0) 0 (min (field q.record 14 2) 16) (ssrSettled (begun s c q rest) c)

theorem exec_mzero (hq : CommandAtHead s c l 6 q rest) :
    exec (.mzero c) s = .next (if field q.record 14 2 ≤ 16 then
        retired (zeroed s c l q rest) c { cmd := q, serial := s.serial, begun := true, row := field q.record 14 2 }
      else (zeroed s c l q rest).modHarrow c fun y => { y with running := some { cmd := q, serial := s.serial, begun := true, row := 16 } }) :=
  exec_atHead .mzero hq rfl
    (rowsDone_writesRow (h := { cmd := q, serial := s.serial, begun := true }) (writesRow_mzero c l) (fun _ _ => rfl) rfl rfl rfl)

theorem zeroed_get {z : Nat} (hz : z = 512) (hwf : s.mem.wf = true) {r : Nat} (hr : r < min (field q.record 14 2) 16) {ks : List Nat}
    (hks : s.windowKeys c l .C (field q.record 8 4 + r * field q.record 12 2) z = some ks) {k : Nat} (hk : k ∈ ks) :
    (zeroed s c l q rest).mem.get k = 0 := by
  have hview := (sameView_begun s c q rest).trans (sameView_ssrSettled _ c)
  rw [zeroed, ← hz]
  refine writeRows_get (z := z) hwf (.inr ⟨r, ks, hr, ?_, hk⟩)
  rw [Nat.zero_add, State.windowKeys_congr hview.vis]
  exact hks

end

end Sys2Proof.Machine
end

section
/-! PROOF. A row of the matrix unit: its 128 elements, and INT8 columns with saturation (R194, R195). -/

namespace Sys2Proof.Machine
open Stmt

/-! ## INT8 columns -/

/-- The operands of one slab of a column in narrow formats. -/
def narrowSlab (rec' ws : Array Byte) (asof n : Nat) (scales : Array (BitVec 32)) (j p : Nat) : Slab :=
  { prods := (List.range 32).map fun k => (byteAt rec' (32 * p + k), byteAt ws ((32 * j + k) * 128 + n))
    sa := wordAt rec' (asof + 4 * p), sw := (scales.getD (128 * j + n) 0).toNat }

/-- One slab added to an INT8 accumulator and its counts (R58). -/
def int8Step (x : Nat × MCount) (sl : Slab) : Nat × MCount :=
  let sum := (sl.prods.map fun p => bitsInt true 8 p.1 * bitsInt true 8 p.2).sum
  let v := bitsInt true 32 x.1 + sum
  (intBits 32 (satInt 32 v), x.2.add { ovf := if satInt 32 v = v then 0 else 1 })

theorem column_int8 (a : Ty) (slabs : List Slab) (acc : Nat) : (column a .i8 slabs acc).1 = (slabs.foldl int8Step (acc, {})).1 := rfl

theorem bitsInt_byteAt (x : Array Byte) (i : Nat) : bitsInt true 8 (byteAt x i) = sbyte x i := bitsInt_true (by decide) _

theorem bitsInt_satInt (v : Int) : bitsInt true 32 (intBits 32 (satInt 32 v)) = satInt 32 v := by
  refine bitsInt_intBits ?_ ?_ <;> (unfold satInt; dsimp only; split <;> [skip; split]) <;> omega

theorem intBits_bitsInt {x : Nat} (hx : x < 2 ^ 32) : intBits 32 (bitsInt true 32 x) = x := by
  have h := bitsInt_true (n := 32) (by decide) (BitVec.ofNat 32 x)
  have hto : (BitVec.ofNat 32 x).toNat = x := by rw [BitVec.toNat_ofNat]; exact Nat.mod_eq_of_lt hx
  rw [hto] at h
  rw [h, intBits_eq, BitVec.ofInt_toInt, hto]

theorem int8_slabs (rec' ws : Array Byte) (asof n : Nat) (scales : Array (BitVec 32)) (slabs : List Nat) (j x : Nat) (cnt : MCount)
    (hx : x < 2 ^ 32) :
    (((List.range slabs.length).map fun i => narrowSlab rec' ws asof n scales (j + i) (slabs.getD i 0)).foldl int8Step (x, cnt)).1 =
      intBits 32 (int8Column rec' ws n slabs j (bitsInt true 32 x)) := by
  induction slabs generalizing j x cnt with
  | nil => exact (intBits_bitsInt hx).symm
  | cons p rest ih =>
    have hsum : ((narrowSlab rec' ws asof n scales j p).prods.map fun p => bitsInt true 8 p.1 * bitsInt true 8 p.2) =
        (List.range 32).map fun k => sbyte rec' (32 * p + k) * sbyte ws ((32 * j + k) * 128 + n) := by
      rw [narrowSlab, List.map_map]
      exact List.map_congr_left fun k _ => by simp only [Function.comp_apply, bitsInt_byteAt]
    have htail : ((List.range (rest.length + 1)).map fun i => narrowSlab rec' ws asof n scales (j + i) ((p :: rest).getD i 0)) =
        narrowSlab rec' ws asof n scales j p ::
          (List.range rest.length).map fun i => narrowSlab rec' ws asof n scales (j + 1 + i) (rest.getD i 0) := by
      rw [List.range_succ_eq_map, List.map_cons, List.map_map]
      refine congrArg (_ :: ·) (List.map_congr_left fun i _ => ?_)
      simp only [Function.comp_apply, List.getD_cons_succ, Nat.succ_eq_add_one]
      rw [Nat.add_assoc, Nat.add_comm 1 i]
    rw [List.length_cons, htail, List.foldl_cons, int8Step]
    dsimp only
    rw [ih _ _ _ (intBits_lt 32 _), bitsInt_satInt, hsum]
    rfl

/-! ## Rows -/

/-- The elements of a row and its counts come column by column. -/
theorem foldr_columns (f : Nat → Nat × MCount) (l : List Nat) :
    (l.foldr (fun n (out : List Nat × MCount) => ((f n).1 :: out.1, out.2.add (f n).2)) ([], {})).1 = l.map fun n => (f n).1 := by
  induction l with
  | nil => rfl
  | cons n l ih => exact congrArg (_ :: ·) ih

/-- One column of a row (R194). -/
def rowColumn (a : Ty) (b : Bank) (rec' : Array Byte) (slabs : List Nat) (asof : Nat) (start : List Nat) (n : Nat) : Nat × MCount :=
  column a (b.fmt.getD .i8) ((List.range slabs.length).map fun j =>
    { prods := (List.range 32).map fun k =>
        if (b.fmt.getD .i8) == .bf16 then
          (halfAt rec' (64 * slabs.getD j 0 + 2 * k), halfAt b.weights.toArray ((32 * j + k) * 256 + 2 * n))
        else (byteAt rec' (32 * slabs.getD j 0 + k), byteAt b.weights.toArray ((32 * j + k) * 128 + n))
      sa := wordAt rec' (asof + 4 * slabs.getD j 0), sw := (b.scales.toArray.getD (128 * j + n) 0).toNat }) (start.getD n 0)

theorem rowResult_fst (a : Ty) (b : Bank) (rec' : Array Byte) (slabs : List Nat) (asof : Nat) (start : List Nat) :
    (rowResult a b rec' slabs asof start).1 = (List.range 128).map fun n => (rowColumn a b rec' slabs asof start n).1 :=
  foldr_columns (rowColumn a b rec' slabs asof start) (List.range 128)

theorem length_rowResult (a : Ty) (b : Bank) (rec' : Array Byte) (slabs : List Nat) (asof : Nat) (start : List Nat) :
    (rowResult a b rec' slabs asof start).1.length = 128 := by
  rw [rowResult_fst, List.length_map, List.length_range]

theorem rowResult_int8 {b : Bank} (hb : b.fmt = some .i8) (rec' : Array Byte) (slabs : List Nat) (asof : Nat) {start : List Nat} {n : Nat}
    (hn : n < 128) (hstart : start.getD n 0 < 2 ^ 32) :
    (rowResult .i8 b rec' slabs asof start).1.getD n 0 =
      intBits 32 (int8Column rec' b.weights.toArray n slabs 0 (bitsInt true 32 (start.getD n 0))) := by
  have hcol : (rowColumn .i8 b rec' slabs asof start n).1 =
      (((List.range slabs.length).map fun i =>
        narrowSlab rec' b.weights.toArray asof n b.scales.toArray (0 + i) (slabs.getD i 0)).foldl int8Step (start.getD n 0, {})).1 := by
    simp only [rowColumn, hb, Option.getD_some, Nat.zero_add]
    rfl
  rw [rowResult_fst, List.getD_eq_getElem?_getD, List.getElem?_map, List.getElem?_range hn]
  exact hcol.trans (int8_slabs _ _ _ _ _ _ _ _ _ hstart)

theorem length_flatMap_bytes4 (l : List Nat) : (l.flatMap bytes4).length = 4 * l.length := by
  induction l with
  | nil => rfl
  | cons n l ih => rw [List.flatMap_cons, List.length_append, ih, bytes4, length_leBytes, List.length_cons]; omega

end Sys2Proof.Machine
end

section
/-! PROOF. Multiplication of one row, with and without rotation (R192 to R198). -/

namespace Sys2Proof.Machine
open Stmt

/-! ## Flag bits -/

theorem field_eight_mod (r : List Byte) (o : Nat) : field r o 8 % 256 = field r o 1 := by
  unfold field
  cases r.drop o with
  | nil => rfl
  | cons b rest =>
    have hb := b.isLt
    simp only [List.take_succ_cons, List.take_zero, leNat]
    omega

/-- A bit of a byte whose low bits are 0 is 0. -/
theorem fieldBit_of_mod {r : List Byte} {o : Nat} (m : Nat) {k : Nat} (h : field r o 1 % 2 ^ m = 0) (hk : k < m) (hm : m ≤ 8) :
    fieldBit r o k = false := by
  have hdvd8 : 2 ^ m ∣ 256 := Nat.pow_dvd_pow 2 hm
  have hzero : field r o 8 % 2 ^ m = 0 := by rw [← Nat.mod_mod_of_dvd _ hdvd8, field_eight_mod, h]
  have hdvd : 2 ^ (k + 1) ∣ field r o 8 := (Nat.pow_dvd_pow 2 hk).trans (Nat.dvd_of_mod_eq_zero hzero)
  obtain ⟨x, hx⟩ := hdvd
  have hhalf : field r o 8 / 2 ^ k = 2 * x := by
    rw [hx, Nat.pow_succ, Nat.mul_assoc, Nat.mul_div_cancel_left _ (Nat.two_pow_pos k)]
  rw [fieldBit, hhalf, Nat.mul_mod_right]
  rfl

/-! ## The turn's states -/

/-- The command at the head has left the queue, and none has retired since. -/
structure TakenFrom (s u : State) (c : CoreId) (rest : List HCmd) : Prop where
  queue : (u.core c).harrow.queue = rest
  retiring : (u.core c).harrow.retiring = (s.core c).harrow.retiring

theorem ranWhole_of_takenFrom {s u : State} {c : CoreId} {q : HCmd} {rest : List HCmd} {h : HRun} (ht : TakenFrom s u c rest) (hq : h.cmd = q) :
    RanWhole s (retired u c h) c q rest := by
  unfold RanWhole
  rw [retired_harrow]
  refine ⟨ht.queue, rfl, ?_⟩
  rw [ht.retiring, List.map_append, ← hq]
  rfl

theorem takenFrom_begun (s : State) (c : CoreId) (q : HCmd) (rest : List HCmd) : TakenFrom s (ssrSettled (begun s c q rest) c) c rest :=
  ⟨by rw [ssrSettled_harrow, begun_harrow], by rw [ssrSettled_harrow, begun_harrow]⟩

theorem TakenFrom.of_harrow {s u t : State} {c : CoreId} {rest : List HCmd} (ht : TakenFrom s u c rest)
    (hq : (t.core c).harrow.queue = (u.core c).harrow.queue) (hr : (t.core c).harrow.retiring = (u.core c).harrow.retiring) :
    TakenFrom s t c rest := ⟨hq.trans ht.queue, hr.trans ht.retiring⟩

theorem Core.count_eq (x : Core) (k n : Nat) : ∃ ev, x.count k n = { x with ev := ev } := by
  unfold Core.count
  split
  · exact ⟨_, rfl⟩
  · exact ⟨x.ev, rfl⟩

theorem Core.countAll_eq (x : Core) (ks : List Nat) : ∃ ev, x.countAll ks = { x with ev := ev } := by
  unfold Core.countAll
  induction ks generalizing x with
  | nil => exact ⟨x.ev, rfl⟩
  | cons k ks ih =>
    obtain ⟨ev, h⟩ := x.count_eq k 1
    obtain ⟨ev', h'⟩ := ih (x.count k 1)
    exact ⟨ev', by rw [List.foldl_cons, h', h]⟩

theorem State.countAll_core (s : State) (c : CoreId) (ks : List Nat) : ∃ ev, (s.countAll c ks).core c = { s.core c with ev := ev } := by
  unfold State.countAll
  split
  · exact ⟨_, rfl⟩
  · rw [State.core_modCore]
    exact Core.countAll_eq _ _

theorem State.pushFlight_core (s : State) (c dst : CoreId) (m : HFlight) :
    ∃ ib, (s.pushFlight c dst m).core c =
      { s.core c with harrow := { (s.core c).harrow with inbound := ib }, sent := (s.core c).sent + 1 } := by
  rw [State.pushFlight, State.core_modCore, State.modHarrow]
  by_cases hd : c = dst
  · subst hd
    rw [State.core_modCore]
    exact ⟨_, rfl⟩
  · rw [State.core_modCore_ne _ _ hd]
    exact ⟨_, rfl⟩

/-! ## One row -/

section
variable {s u : State} {c : CoreId} {l : Launch} {q : HCmd} {rest : List HCmd} {h : HRun} {as cs : List Nat}

/-- A record that walks no skip list, gathers no rows and reads no circular buffer or start values. -/
def PlainRecord (r : List Byte) : Prop := ∀ k < 4, fieldBit r 1 k = false

theorem plainRecord_of_mod {r : List Byte} (h : field r 1 1 % 16 = 0) : PlainRecord r := fun _ hk => fieldBit_of_mod 4 h hk (by decide)

theorem State.hSlabs_plain (hp : PlainRecord h.cmd.record) : s.hSlabs c l h = .ok (s, { h with slabs := [0, 1, 2, 3] }) := by
  simp only [State.hSlabs, hp 2 (by decide), Bool.not_false, if_true]

theorem begun_boundTo (s : State) (c : CoreId) (q : HCmd) (rest : List HCmd) (d : CoreId) (l : Launch) :
    (begun s c q rest).boundTo d l = s.boundTo d l := by
  have hlaunch : ((begun s c q rest).core d).launch = (s.core d).launch := by
    by_cases hd : d = c
    · subst hd
      rw [begun_core]
    · rw [begun_core_ne s c q rest hd]
  unfold State.boundTo
  rw [hlaunch]
  rfl

theorem State.mulBegin_plain {rot : Bool} (hp : PlainRecord h.cmd.record) (hfmt : (u.core c).harrow.activeBank.fmt.isNone = false)
    (hok : h.failed = none)
    (hbound : rot = true → u.boundTo (rotTargets c h.cmd.record).1 l = true ∧ u.boundTo (rotTargets c h.cmd.record).2 l = true) :
    u.mulBegin c l rot h = .ok (u, { h with slabs := [0, 1, 2, 3] }) := by
  rw [State.mulBegin]
  dsimp only
  rw [hfmt, if_neg (by decide), State.hSlabs_plain hp, except_ok_bind]
  dsimp only
  rw [hok]
  cases rot with
  | false => rfl
  | true =>
    obtain ⟨hnorth, hwest⟩ := hbound rfl
    rw [hnorth, hwest]
    rfl

theorem State.rowOffset_plain (hp : PlainRecord h.cmd.record) :
    u.rowOffset c l h = .ok (field h.cmd.record 8 4 + h.row * field h.cmd.record 12 2) := by
  simp only [State.rowOffset, hp 1 (by decide), hp 3 (by decide), Bool.false_eq_true, if_false]

/-- The elements of the row and its counts. -/
def rowOf (u : State) (c : CoreId) (r : List Byte) (as : List Nat) : List Nat × MCount :=
  rowResult ((Machine.tyCode (field r 18 1)).getD .i8) (u.core c).harrow.activeBank (u.bytesAt as).toArray [0, 1, 2, 3] (field r 14 2) []

/-- The state in which the row has been written and counted. -/
def rowWritten (u : State) (c : CoreId) (l : Launch) (r : List Byte) (row : Nat) (as : List Nat) : State :=
  (u.hWrite c l .C (field r 24 4 + row * field r 28 2) ((rowOf u c r as).1.flatMap bytes4)).modCore c fun x =>
    ((x.count 7 (rowOf u c r as).2.nan).count 8 (rowOf u c r as).2.ovf).count 14 (rowOf u c r as).2.placed

theorem State.mulRow_plain (hp : PlainRecord h.cmd.record) (hok : h.failed = none) (hslabs : h.slabs = [0, 1, 2, 3])
    (hfmt : formatOk (u.core c).harrow.activeBank.fmt (field h.cmd.record 18 1) = true) (hpoison : (u.core c).harrow.activeBank.poison = [])
    (hwidth : (if field h.cmd.record 18 1 = 11 then 256 else 128) ≤ field h.cmd.record 12 2)
    (hread : Readable u c l .A (field h.cmd.record 8 4 + h.row * field h.cmd.record 12 2) (field h.cmd.record 12 2) as) :
    u.mulRow c l h = .ok (rowWritten u c l h.cmd.record h.row as,
      { h with row := h.row + 1, bank := some (u.core c).harrow.active
               data := if field h.cmd.record 0 1 = 4 then h.data ++ u.bytesAt as else h.data }) := by
  have hneed : (h.slabs.map fun p => (if field h.cmd.record 18 1 = 11 then 64 else 32) * (p + 1)).foldl max (field h.cmd.record 12 2) =
      field h.cmd.record 12 2 := by
    rw [hslabs]
    simp only [List.map_cons, List.map_nil, List.foldl_cons, List.foldl_nil]
    split at hwidth <;> simp_all <;> omega
  have htail (off : Nat) : u.recordTail c l h off (field h.cmd.record 12 2) (field h.cmd.record 12 2) = .ok [] := by
    rw [State.recordTail, Nat.sub_self]; rfl
  rw [State.mulRow]
  dsimp only
  rw [hok]
  simp only [Option.isSome_none, Bool.false_eq_true, if_false, hfmt, hpoison, Bool.not_true, List.isEmpty_nil]
  rw [State.rowOffset_plain hp, except_ok_bind, State.hRead_of_readable hread, except_ok_bind, hneed, htail, except_ok_bind,
    hp 0 (by decide), hp 3 (by decide)]
  simp only [Bool.false_eq_true, if_false, except_ok_bind, List.append_nil, hslabs]
  rfl

theorem rowWritten_core (u : State) (c : CoreId) (l : Launch) (r : List Byte) (row : Nat) (as : List Nat) :
    ∃ ev, (rowWritten u c l r row as).core c = { u.core c with ev := ev } := by
  rw [rowWritten, State.core_modCore, State.hWrite_core]
  obtain ⟨ev, h⟩ := (u.core c).count_eq 7 (rowOf u c r as).2.nan
  obtain ⟨ev', h'⟩ := ((u.core c).count 7 (rowOf u c r as).2.nan).count_eq 8 (rowOf u c r as).2.ovf
  obtain ⟨ev'', h''⟩ := (((u.core c).count 7 (rowOf u c r as).2.nan).count 8 (rowOf u c r as).2.ovf).count_eq 14 (rowOf u c r as).2.placed
  exact ⟨ev'', by rw [h'', h', h]⟩

theorem length_rowOf (u : State) (c : CoreId) (r : List Byte) (as : List Nat) : ((rowOf u c r as).1.flatMap bytes4).length = 512 := by
  rw [length_flatMap_bytes4, rowOf, length_rowResult]

/-- The end of a multiplication: with rotation, its bank and its rows leave (R198). -/
theorem State.mulEnd_ok (u : State) (c : CoreId) (h : HRun) : ∃ t h2, u.mulEnd c h = .ok (t, h2) ∧ h2.cmd = h.cmd ∧ t.mem = u.mem ∧
    (t.core c).harrow.queue = (u.core c).harrow.queue ∧ (t.core c).harrow.retiring = (u.core c).harrow.retiring ∧
    (t.core c).sent = (u.core c).sent + (if field h.cmd.record 0 1 = 4 then 2 else 0) := by
  unfold State.mulEnd
  by_cases hop : field h.cmd.record 0 1 = 4
  · rw [if_pos hop, if_pos hop]
    dsimp only
    obtain ⟨ib, hib⟩ := u.pushFlight_core c (rotTargets c h.cmd.record).1 (.bank (u.core c).harrow.activeBank c.val h.serial false)
    obtain ⟨ib', hib'⟩ := (u.pushFlight c (rotTargets c h.cmd.record).1 (.bank (u.core c).harrow.activeBank c.val h.serial false)).pushFlight_core
      c (rotTargets c h.cmd.record).2 (.rows h.data (field h.cmd.record 40 4) c.val h.serial)
    refine ⟨_, _, rfl, rfl, rfl, ?_, ?_, ?_⟩
    · rw [hib', hib]
    · rw [hib', hib]
    · rw [hib', hib, BitVec.add_assoc]
      rfl
  · rw [if_neg hop, if_neg hop]
    exact ⟨u, h, rfl, rfl, rfl, rfl, rfl, (BitVec.add_zero _).symm⟩

theorem rowOf_congr {t : State} (hb : (t.core c).harrow.activeBank = (s.core c).harrow.activeBank) (hmem : t.mem = s.mem) (r : List Byte) :
    rowOf t c r as = rowOf s c r as := by
  rw [rowOf, rowOf, hb, State.bytesAt_of_mem_eq hmem]

/-- A multiplication of one row, run to its end in one turn. -/
theorem exec_mul {i : Instr} {op : Nat} {rot : Bool} (he : HarrowEvent c i op (mulCode c rot)) (hq : CommandAtHead s c l op q rest)
    (hwf : s.mem.wf = true) (hpairs : l.pairs = []) (hrow : OneRow s c l q as cs)
    (hbound : rot = true → s.boundTo (rotTargets c q.record).1 l = true ∧ s.boundTo (rotTargets c q.record).2 l = true) :
    ∃ t, exec i s = .next t ∧ RanWhole s t c q rest ∧ t.bytesAt cs = oneRow s c q as ∧
      (∀ a, a ∉ cs → t.mem.get a = s.mem.get a) ∧ (t.core c).sent = (s.core c).sent + (if op = 4 then 2 else 0) := by
  obtain ⟨hflags, hrows, hfmt, hpoison, hwidth, hread, hcs⟩ := hrow
  have hp := plainRecord_of_mod hflags
  have hsome : (s.core c).harrow.activeBank.fmt.isNone = false := by
    cases hf : (s.core c).harrow.activeBank.fmt with
    | none => rw [hf] at hfmt; cases hfmt
    | some t => rfl
  have hbank : ((begun s c q rest).core c).harrow.activeBank = (s.core c).harrow.activeBank := by rw [begun_harrow]; rfl
  have hbegins := State.mulBegin_plain (u := begun s c q rest) (c := c) (l := l) (rot := rot) (h := { cmd := q, serial := s.serial }) hp
    (by rw [hbank]; exact hsome) rfl (fun hr => by rw [begun_boundTo, begun_boundTo]; exact hbound hr)
  have hbank' : ((ssrSettled (begun s c q rest) c).core c).harrow.activeBank = (s.core c).harrow.activeBank := by
    rw [ssrSettled_harrow, hbank]
  have hview := (sameView_begun s c q rest).trans (sameView_ssrSettled _ c)
  have hstep := State.mulRow_plain (u := ssrSettled (begun s c q rest) c) (c := c) (l := l) (as := as)
    (h := { cmd := q, serial := s.serial, slabs := [0, 1, 2, 3], begun := true }) hp rfl rfl (by rw [hbank']; exact hfmt)
    (by rw [hbank']; exact hpoison) hwidth (by
      dsimp only
      rw [Nat.zero_mul, Nat.add_zero]
      exact readable_congr hview hread)
  obtain ⟨t, h2, hend, hcmd, hmem, hqueue, hret, hsent⟩ := (rowWritten (ssrSettled (begun s c q rest) c) c l q.record 0 as).mulEnd_ok c
    { cmd := q, serial := s.serial, slabs := [0, 1, 2, 3], begun := true, row := 0 + 1
      bank := some ((ssrSettled (begun s c q rest) c).core c).harrow.active
      data := if field q.record 0 1 = 4 then [] ++ (ssrSettled (begun s c q rest) c).bytesAt as else [] }
  obtain ⟨ev, hcore⟩ := rowWritten_core (ssrSettled (begun s c q rest) c) c l q.record 0 as
  have hdone : RowsDone (mulCode c rot l) (ssrSettled (begun s c q rest) c) c
      { cmd := q, serial := s.serial, slabs := [0, 1, 2, 3], begun := true } (retired t c h2) := rowsDone_of_lastRow hrows hstep rfl hend
  have hkeys : (ssrSettled (begun s c q rest) c).windowKeys c l .C (field q.record 24 4 + 0 * field q.record 28 2) 512 = some cs := by
    rw [Nat.zero_mul, Nat.add_zero, State.windowKeys_congr hview.vis, hcs]
  have hout : (rowOf (ssrSettled (begun s c q rest) c) c q.record as).1.flatMap bytes4 = oneRow s c q as := by
    rw [rowOf_congr hbank' hview.mem]; rfl
  refine ⟨_, exec_atHead he hq hbegins hdone, ranWhole_of_takenFrom ?_ hcmd, ?_, fun a ha => ?_, ?_⟩
  · exact (takenFrom_begun s c q rest).of_harrow (by rw [hqueue, hcore]) (by rw [hret, hcore])
  · rw [State.bytesAt_of_mem_eq (retired_mem t c h2), State.bytesAt_of_mem_eq hmem, ← hout]
    exact State.hWrite_bytesAt hwf hpairs hkeys (length_rowOf ..)
  · rw [retired_mem, hmem]
    exact State.hWrite_get_of_notMem (s := ssrSettled (begun s c q rest) c) hwf hkeys (length_rowOf ..) ha
  · have hop : field q.record 0 1 = op := hq.2.2.2.2.2.2.2
    rw [retired_core, hsent, hcore, ssrSettled_core]
    obtain ⟨v, n, hssr⟩ := ((begun s c q rest).core c).takeSsr_eq
    rw [hssr, begun_core, ← hop]

end

end Sys2Proof.Machine
end

section
/-! PROOF. Epilogue, reduction messages and the rows of a region (R201, R202, R206, R207), and O54. -/

namespace Sys2Proof.Machine
open Stmt

section
variable {s u : State} {c : CoreId} {l : Launch} {q : HCmd} {rest : List HCmd} {h : HRun} {as cs ks : List Nat}

/-! ## MEPI -/

theorem State.landRows_of_nil (hf : h.flight = []) : s.landRows c h = (s, h) := by
  cases h
  dsimp only at hf
  subst hf
  rfl

theorem apBase_le_lmKey (c : CoreId) (w : Win) (off : Nat) : apBase ≤ lmKey c w off := by
  unfold lmKey
  omega

/-- The access of an epilogue to its core's A window. -/
def lmAcc (c : CoreId) (w : Win) (off : Nat) (ks : List Nat) : Acc := { keys := ks, place := .lm c (some w) off }

/-- Writes of an engine to a core's window, none of it quarantined, are plain writes but for poison (R433). -/
theorem State.engineWrite_lm {w : Win} {off : Nat} {bs : List Byte} (hks : ks = range (lmKey c w off) bs.length)
    (hquar : s.quarantined ks = false) : (s.engineWrite ks bs []).mem = (s.write none ks bs).mem ∧
      (s.engineWrite ks bs []).cores = s.cores := by
  have hlen : ks.length = bs.length := by rw [hks, length_range]
  have hall : ((ks.zip bs).filter fun p =>
      !(decide (headBase ≤ p.1) && decide (p.1 < apBase)) && !(s.quarantined ks && s.quarantined [p.1])) = ks.zip bs := by
    refine List.filter_eq_self.2 fun p hp => ?_
    have hmem : p.1 ∈ ks := (List.of_mem_zip hp).1
    have hge : apBase ≤ p.1 := by
      rw [hks, mem_range] at hmem
      obtain ⟨i, -, hi⟩ := hmem
      have := apBase_le_lmKey c w off
      omega
    rw [hquar, Bool.false_and, decide_eq_false (Nat.not_lt.2 hge), Bool.and_false]
    rfl
  rw [State.engineWrite, hall, List.map_fst_zip hlen.le, List.map_snd_zip hlen.ge]
  exact ⟨rfl, s.write_cores none ks bs⟩

theorem coverGranules_same (part : Nat → Nat) (gs : List Nat) (p : State × List Covered) :
    (gs.foldl (fun p g => State.coverGranule p g (part g)) p).1.mem = p.1.mem ∧
      (gs.foldl (fun p g => State.coverGranule p g (part g)) p).1.cores = p.1.cores := by
  induction gs generalizing p with
  | nil => exact ⟨rfl, rfl⟩
  | cons g gs ih =>
    have hone : (State.coverGranule p g (part g)).1.mem = p.1.mem ∧ (State.coverGranule p g (part g)).1.cores = p.1.cores := by
      unfold State.coverGranule
      dsimp only
      split <;> exact ⟨rfl, rfl⟩
    exact ⟨(ih _).1.trans hone.1, (ih _).2.trans hone.2⟩

theorem State.partWrite_same (u : State) (cov : List Covered) (ks : List Nat) (bs : List Byte) (bad : List Bool) :
    (u.partWrite cov ks bs bad).1.mem = (u.engineWrite ks bs bad).mem ∧ (u.partWrite cov ks bs bad).1.cores = (u.engineWrite ks bs bad).cores :=
  coverGranules_same _ _ _

theorem State.epiPerform_lm {w : Win} {off : Nat} {bs : List Byte} (hks : ks = range (lmKey c w off) bs.length)
    (hquar : u.quarantined ks = false) : ∃ t h2, u.epiPerform c h [lmAcc c w off ks] bs = (t, h2) ∧ h2.cmd = h.cmd ∧ h2.row = h.row ∧
      h2.flight = h.flight ∧ t.mem = (u.write none ks bs).mem ∧ t.cores = u.cores := by
  have harrive : u.engineArrive (From.ofEngine c) [lmAcc c w off ks] .store = u := rfl
  have hkeys : [lmAcc c w off ks].flatMap (·.keys) = ks := by
    rw [List.flatMap_cons, List.flatMap_nil, List.append_nil]; rfl
  obtain ⟨hmem, hcores⟩ := State.engineWrite_lm (s := u) hks hquar
  obtain ⟨hmem', hcores'⟩ := u.partWrite_same h.covered ks bs []
  rw [State.epiPerform, harrive, hkeys]
  exact ⟨_, _, rfl, rfl, rfl, rfl, hmem'.trans hmem, hcores'.trans hcores⟩

theorem State.engineDemand_lm {w : Win} {off n : Nat} (hks : ks = range (lmKey c w off) n) (hcross : u.crossHeld (From.ofEngine c) ks = false) :
    u.engineDemand (From.ofEngine c) [lmAcc c w off ks] .store = none := by
  have hnone : u.demand (From.ofEngine c) (lmAcc c w off ks) .store = none :=
    State.demand_lm rfl hcross fun _ => by rw [lmAcc, hks]; exact u.reserveFull_lm c w off n
  rw [State.engineDemand, List.filter_cons, hnone]
  rfl

/-- A record of an epilogue to the A window without scale, bias, seed or flag. -/
def PlainEpilogue (r : List Byte) : Prop :=
  fieldBit r 1 0 = false ∧ fieldBit r 1 1 = false ∧ fieldBit r 19 1 = false ∧ fieldBit r 43 3 = false ∧ field r 42 1 = 0

/-- The bytes of an epilogue's row, the generators after it and the conversions it counts. -/
def epiOf (u : State) (c : CoreId) (q : HCmd) (cs : List Nat) : List Byte × List (BitVec 32) × Nat :=
  epiRow q.record q.rm [] [] (u.core c).harrow.gens (words4 (u.bytesAt cs))

theorem State.mepiData_plain (hp : PlainEpilogue h.cmd.record) (hrow : h.row = 0) (hread : Readable u c l .C (field h.cmd.record 8 4) 512 cs)
    (hks : u.windowKeys c l .A (field h.cmd.record 36 4) (epiOf u c h.cmd cs).1.length = some ks) :
    u.mepiData c l h = .ok ((epiOf u c h.cmd cs).1, (epiOf u c h.cmd cs).2.1, (epiOf u c h.cmd cs).2.2,
      [lmAcc c .A (field h.cmd.record 36 4) ks]) := by
  obtain ⟨hscale, hbias, -, -, hmode⟩ := hp
  have hplaces : u.epiPlaces c l h.cmd.record (field h.cmd.record 36 4 + 0 * field h.cmd.record 40 2) (epiOf u c h.cmd cs).1.length =
      .ok [lmAcc c .A (field h.cmd.record 36 4) ks] := by
    rw [Nat.zero_mul, Nat.add_zero, State.epiPlaces, hmode]
    simp only [State.windowRun, hks]
    rfl
  have hcs : u.hRead c l .C (field h.cmd.record 8 4 + 0 * field h.cmd.record 12 2) 512 = .ok (u.bytesAt cs) := by
    rw [Nat.zero_mul, Nat.add_zero, State.hRead_of_readable hread]
  rw [State.mepiData]
  dsimp only
  rw [hscale, hbias, hrow]
  simp only [Bool.false_eq_true, if_false, except_ok_bind]
  rw [hcs, except_ok_bind]
  exact except_bind_eq hplaces rfl

theorem State.mepiRow_plain (hp : PlainEpilogue h.cmd.record) (hflight : h.flight = []) (hrow : h.row = 0)
    (hread : Readable u c l .C (field h.cmd.record 8 4) 512 cs) (hpairs : l.pairs = [])
    (hks : u.windowKeys c l .A (field h.cmd.record 36 4) (epiOf u c h.cmd cs).1.length = some ks)
    (hcross : u.crossHeld (From.ofEngine c) ks = false) (hquar : u.quarantined ks = false) :
    ∃ t h2, u.mepiRow c l h = .ok (t, h2) ∧ h2.cmd = h.cmd ∧ h2.row = h.row + 1 ∧ h2.flight = [] ∧
      t.mem = (u.write none ks (epiOf u c h.cmd cs).1).mem ∧ (t.core c).harrow.queue = (u.core c).harrow.queue ∧
      (t.core c).harrow.retiring = (u.core c).harrow.retiring := by
  have hrange := windowKeys_eq_range hpairs hks
  obtain ⟨t, h2, hperf, hcmd, hrow2, hflight2, hmem, hcores⟩ := State.epiPerform_lm (h := h) hrange hquar
  have hcore (d : CoreId) : t.core d = u.core d := by rw [State.core, hcores]; rfl
  have hdesc : u.epiDesc l h.cmd.record = [] := by rw [State.epiDesc, hp.2.2.2.2]; rfl
  have harrive : u.engineArrive (From.ofEngine c) [] .read = u := rfl
  refine ⟨((t.modHarrow c fun y => { y with gens := (epiOf u c h.cmd cs).2.1 }).modCore c fun x => x.count 13 (epiOf u c h.cmd cs).2.2),
    { h2 with row := h2.row + 1 }, ?_, hcmd, congrArg (· + 1) hrow2, hflight2.trans hflight, hmem, ?_, ?_⟩
  · rw [State.mepiRow, State.landRows_of_nil hflight]
    dsimp only
    rw [hflight, if_neg (by decide), State.mepiData_plain hp hrow hread hks, except_ok_bind]
    dsimp only
    rw [State.engineDemand_lm hrange hcross]
    dsimp only
    rw [hdesc, harrive, hperf]
  all_goals
    rw [State.core_modCore]
    obtain ⟨ev, hev⟩ := ((t.modHarrow c fun y => { y with gens := (epiOf u c h.cmd cs).2.1 }).core c).count_eq 13 (epiOf u c h.cmd cs).2.2
    rw [hev]
    dsimp only
    rw [State.modHarrow_harrow, hcore]

theorem State.mepiSignal_plain (hp : PlainEpilogue h.cmd.record) (hflight : h.flight = []) : u.mepiSignal c l h = .ok (u, h) := by
  rw [State.mepiSignal, State.landRows_of_nil hflight]
  dsimp only
  rw [hflight, hp.2.2.2.1]
  rfl

/-- An epilogue of one row, run to its end in one turn. -/
theorem exec_mepi (hq : CommandAtHead s c l 5 q rest) (hwf : s.mem.wf = true) (hpairs : l.pairs = []) (hp : PlainEpilogue q.record)
    (hrows : field q.record 14 2 = 1) (hread : Readable s c l .C (field q.record 8 4) 512 cs)
    (hks : s.windowKeys c l .A (field q.record 36 4) (epiOf s c q cs).1.length = some ks)
    (hcross : s.crossHeld (From.ofEngine c) ks = false) (hquar : s.quarantined ks = false) :
    ∃ t, exec (.mepi c) s = .next t ∧ RanWhole s t c q rest ∧ t.bytesAt ks = (epiOf s c q cs).1 ∧ ∀ a, a ∉ ks → t.mem.get a = s.mem.get a := by
  have hview := (sameView_begun s c q rest).trans (sameView_ssrSettled _ c)
  have hout : epiOf (ssrSettled (begun s c q rest) c) c q cs = epiOf s c q cs := by
    rw [epiOf, epiOf, ssrSettled_harrow, begun_harrow, State.bytesAt_of_mem_eq hview.mem]
  have hbegins : (mepiCode c l).begins (begun s c q rest) { cmd := q, serial := s.serial } =
      .ok (begun s c q rest, { cmd := q, serial := s.serial }) := by
    unfold mepiCode
    dsimp only
    rw [hp.2.2.1]
    rfl
  obtain ⟨t, h2, hstep, hcmd, hrow, hflight, hmem, hqueue, hret⟩ := State.mepiRow_plain (u := ssrSettled (begun s c q rest) c) (c := c) (l := l)
    (h := { cmd := q, serial := s.serial, begun := true }) (cs := cs) (ks := ks) hp rfl rfl (readable_congr hview hread) hpairs
    (by rw [hout, State.windowKeys_congr hview.vis]; exact hks) hcross hquar
  dsimp only at hcmd hmem
  rw [hout] at hmem
  have hkeys : ks.length = (epiOf s c q cs).1.length := length_windowKeys hks
  have hdone : RowsDone (mepiCode c l) (ssrSettled (begun s c q rest) c) c { cmd := q, serial := s.serial, begun := true } (retired t c h2) :=
    rowsDone_of_lastRow hrows hstep hrow (State.mepiSignal_plain (hcmd ▸ hp) hflight)
  refine ⟨_, exec_atHead .mepi hq hbegins hdone,
    ranWhole_of_takenFrom ((takenFrom_begun s c q rest).of_harrow hqueue hret) hcmd, ?_, fun a ha => ?_⟩
  · rw [State.bytesAt_of_mem_eq (retired_mem t c h2), State.bytesAt_of_mem_eq hmem]
    exact State.write_bytesAt (s := ssrSettled (begun s c q rest) c) none hwf (windowKeys_eq_range hpairs hks ▸ range_nodup _ _) hkeys
  · rw [retired_mem, hmem]
    exact State.write_get_of_notMem (s := ssrSettled (begun s c q rest) c) none _ hwf ha

/-! ## MRED -/

theorem State.pushFlight_inbound {dst : CoreId} (hne : dst ≠ c) (m : HFlight) :
    ((u.pushFlight c dst m).core dst).harrow.inbound = (u.core dst).harrow.inbound ++ [m] := by
  rw [State.pushFlight, State.core_modCore_ne _ _ hne, State.modHarrow_harrow]

/-- What a command's 32 bytes are: kept from the even message of their block, or read now (R189). -/
def BlockRead (s : State) (c : CoreId) (l : Launch) (h : HRun) (cs : List Nat) (bs : List Byte) : Prop :=
  (h.data.length = 32 ∧ bs = h.data) ∨
    (h.data = [] ∧ Readable s c l .C (field h.cmd.record 8 4 + h.row * field h.cmd.record 12 2 + 480) 32 cs ∧ bs = s.bytesAt cs)

theorem State.mredRead_last {bs : List Byte} (hpart : h.part = 15) (hb : BlockRead u c l h cs bs) : u.mredRead c l h = .ok (bs, []) := by
  unfold State.mredRead
  dsimp only
  rcases hb with ⟨hlen, rfl⟩ | ⟨hnil, hread, rfl⟩
  · rw [if_pos ⟨by rw [hpart], hlen⟩]
  · rw [if_neg (by rw [hnil]; simp), hpart, State.hRead_of_readable hread, except_ok_bind]
    rfl

theorem State.mredStep_last {bs : List Byte} (hpart : h.part = 15) (hb : BlockRead u c l h cs bs)
    (hroom : (u.core (coreOf (l.cores.getD (field h.cmd.record 16 4) 0))).harrow.inbound = []) :
    u.mredStep c l h = .ok (u.pushFlight c (coreOf (l.cores.getD (field h.cmd.record 16 4) 0))
        (.mred (Fin.ofNat 4 (field h.cmd.record 20 1)) (field h.cmd.record 22 2 + h.row) 15 ((words4 bs).map blockOf) c.val h.serial),
      { h with data := [], pending := h.pending + 1, part := 0, row := h.row + 1 }) := by
  rw [State.mredStep]
  dsimp only
  rw [hroom, if_neg (by decide), State.mredRead_last hpart hb, except_ok_bind, hpart]
  rfl

/-- The last message of an MRED leaves, and the command retires. -/
theorem exec_mred {bs : List Byte} {dst : CoreId} (hl : s.launchOf c = some l) (hlive : l.phase = .live) (hstop : l.stopping = false)
    (hfree : (s.core c).harrow.free = true) (hrun : (s.core c).harrow.running = some h) (hop : field h.cmd.record 0 1 = 7)
    (hbegun : h.begun = true) (hpart : h.part = 15) (hrow : h.row + 1 = field h.cmd.record 14 2)
    (hdst : dst = coreOf (l.cores.getD (field h.cmd.record 16 4) 0)) (hin : (s.core dst).harrow.inbound = []) (hne : dst ≠ c)
    (hb : BlockRead s c l h cs bs) :
    ∃ t, exec (.mred c) s = .next t ∧ t.mem = s.mem ∧ (t.core c).harrow.running = none ∧
      (t.core c).harrow.retiring.map (·.cmd) = (s.core c).harrow.retiring.map (·.cmd) ++ [h.cmd] ∧
      (t.core dst).harrow.inbound = [.mred (Fin.ofNat 4 (field h.cmd.record 20 1)) (field h.cmd.record 22 2 + h.row) 15
        ((words4 bs).map blockOf) c.val h.serial] := by
  subst hdst
  have hview := sameView_ssrSettled s c
  have hin' : ((ssrSettled s c).core (coreOf (l.cores.getD (field h.cmd.record 16 4) 0))).harrow.inbound = [] := by
    rw [ssrSettled, State.core_modCore_ne _ _ hne, hin]
  have hb' : BlockRead (ssrSettled s c) c l h cs bs := hb.imp_right fun ⟨hnil, hread, hbs⟩ =>
    ⟨hnil, readable_congr hview hread, hbs.trans (State.bytesAt_of_mem_eq hview.mem cs).symm⟩
  have hdone := rowsDone_of_lastRow (c := c) (k := mredCode c l) hrow.symm (State.mredStep_last hpart hb' hin') rfl rfl
  obtain ⟨ib, hcore⟩ := (ssrSettled s c).pushFlight_core c (coreOf (l.cores.getD (field h.cmd.record 16 4) 0))
    (.mred (Fin.ofNat 4 (field h.cmd.record 20 1)) (field h.cmd.record 22 2 + h.row) 15 ((words4 bs).map blockOf) c.val h.serial)
  refine ⟨_, exec_atWork .mred hl hlive hstop hfree hrun hop hbegun hdone, rfl, by rw [retired_harrow], ?_, ?_⟩
  · rw [retired_harrow, hcore, ssrSettled_harrow, List.map_append]
    rfl
  · rw [retired_core_ne _ _ _ hne, State.pushFlight_inbound hne, hin']
    rfl

/-! ## MRFIN -/

/-- The region that an MRFIN names. -/
def finRegion (r : List Byte) : Fin 4 := Fin.ofNat 4 (field r 14 1)

theorem Harrow.setRegion_get (y : Harrow) (i : Fin 4) (g : HRegion) : (y.setRegion i g).regions.get i = g := by
  rw [Harrow.setRegion]
  exact (vector_get_set y.regions i i g).trans (if_pos rfl)

/-- The cells' results, in order. -/
def finRow (bs : List Byte) (e : Int) : List (Nat × List Nat) :=
  (List.range 128).map fun n => (Cell.ofBytes ((bs.drop (16 * n)).take 16)).result e

theorem State.mrfinRow_first (hrow : h.row = 0)
    (hread : Readable u c l .C ((u.core c).harrow.regions.get (finRegion h.cmd.record)).roff 2048 cs)
    (hok : l.rangeOk .C (field h.cmd.record 8 4) 512 = true) :
    u.mrfinRow c l h = .ok ((u.hWrite c l .C (field h.cmd.record 8 4)
        ((finRow (u.bytesAt cs) ((u.core c).harrow.regions.get (finRegion h.cmd.record)).exp).flatMap fun p => bytes4 p.1)).countAll c
        ((finRow (u.bytesAt cs) ((u.core c).harrow.regions.get (finRegion h.cmd.record)).exp).flatMap (·.2)),
      { h with row := h.row + 1 }) := by
  rw [State.mrfinRow]
  dsimp only
  rw [hrow, Nat.mul_zero, Nat.add_zero, Nat.zero_mul, Nat.add_zero]
  refine except_bind_eq (State.hRead_of_readable hread) ?_
  rw [hok]
  rfl

theorem length_finRow (bs : List Byte) (e : Int) : ((finRow bs e).flatMap fun p => bytes4 p.1).length = 512 := by
  have h := length_flatMap_bytes4 ((finRow bs e).map (·.1))
  rw [List.flatMap_map, List.length_map] at h
  rw [h, finRow, List.length_map, List.length_range]

/-- The region named closes at the end of an MRFIN. -/
def closedRegion (u : State) (c : CoreId) (i : Fin 4) : State :=
  u.modHarrow c fun y => y.setRegion i { y.regions.get i with isOpen := false, ended := false }

theorem exec_mrfin_closed (hq : CommandAtHead s c l 9 q rest)
    (hclosed : ((s.core c).harrow.regions.get (finRegion q.record)).isOpen = false) :
    ∃ t, exec (.mrfin c) s = .next t ∧ RanWhole s t c q rest ∧ t.mem = s.mem := by
  have hbegins : (mrfinCode c l).begins (begun s c q rest) { cmd := q, serial := s.serial } =
      .ok (begun s c q rest, { cmd := q, serial := s.serial, part := 0 }) := by
    unfold mrfinCode
    dsimp only
    rw [begun_harrow]
    exact if_neg (by rw [show Fin.ofNat 4 (field q.record 14 1) = finRegion q.record from rfl, hclosed]; decide)
  have hdone : RowsDone (mrfinCode c l) (ssrSettled (begun s c q rest) c) c { cmd := q, serial := s.serial, part := 0, begun := true }
      (retired (closedRegion (ssrSettled (begun s c q rest) c) c (finRegion q.record)) c
        { cmd := q, serial := s.serial, part := 0, begun := true }) := rowsDone_of_noRows rfl rfl
  refine ⟨_, exec_atHead .mrfin hq hbegins hdone, ranWhole_of_takenFrom ((takenFrom_begun s c q rest).of_harrow ?_ ?_) rfl, rfl⟩
  · rw [closedRegion, State.modHarrow_harrow]; rfl
  · rw [closedRegion, State.modHarrow_harrow]; rfl

theorem exec_mrfin_open (hq : CommandAtHead s c l 9 q rest) (hwf : s.mem.wf = true) (hpairs : l.pairs = [])
    (hopen : ((s.core c).harrow.regions.get (finRegion q.record)).isOpen = true)
    (hcount : field q.record 16 4 ≤ ((s.core c).harrow.regions.get (finRegion q.record)).received)
    (hrows : ((s.core c).harrow.regions.get (finRegion q.record)).rows = 1)
    (hread : Readable s c l .C ((s.core c).harrow.regions.get (finRegion q.record)).roff 2048 cs)
    (hok : l.rangeOk .C (field q.record 8 4) 512 = true) (hks : s.windowKeys c l .C (field q.record 8 4) 512 = some ks) :
    ∃ t, exec (.mrfin c) s = .next t ∧ RanWhole s t c q rest ∧ ((t.core c).harrow.regions.get (finRegion q.record)).isOpen = false ∧
      t.bytesAt ks = (finRow (s.bytesAt cs) ((s.core c).harrow.regions.get (finRegion q.record)).exp).flatMap fun p => bytes4 p.1 := by
  generalize hg : (s.core c).harrow.regions.get (finRegion q.record) = g at *
  have hbegins : (mrfinCode c l).begins (begun s c q rest) { cmd := q, serial := s.serial } =
      .ok ((begun s c q rest).modHarrow c fun y => y.setRegion (finRegion q.record) { g with ended := true },
        { cmd := q, serial := s.serial, part := g.rows }) := by
    unfold mrfinCode
    dsimp only
    rw [begun_harrow]
    dsimp only
    rw [show Fin.ofNat 4 (field q.record 14 1) = finRegion q.record from rfl, hg, if_pos hopen, if_pos hcount]
  have hview := ((sameView_begun s c q rest).trans (sameView_modHarrow _ c fun y => y.setRegion (finRegion q.record) { g with ended := true })).trans
    (sameView_ssrSettled _ c)
  generalize hu : ssrSettled ((begun s c q rest).modHarrow c fun y => y.setRegion (finRegion q.record) { g with ended := true }) c = u at hview
  have hharrow : (u.core c).harrow = Harrow.setRegion { (s.core c).harrow with queue := rest, running := some { cmd := q, serial := s.serial } }
      (finRegion q.record) { g with ended := true } := by
    rw [← hu, ssrSettled_harrow, State.modHarrow_harrow, begun_harrow]
  have hregion : (u.core c).harrow.regions.get (finRegion q.record) = { g with ended := true } := by
    rw [hharrow, Harrow.setRegion_get]
  have hstep := State.mrfinRow_first (u := u) (c := c) (l := l) (cs := cs) (h := { cmd := q, serial := s.serial, part := g.rows, begun := true }) rfl
    (by dsimp only; rw [hregion]; exact readable_congr hview hread) hok
  dsimp only at hstep
  rw [hregion, State.bytesAt_of_mem_eq hview.mem] at hstep
  dsimp only at hstep
  generalize hv : (u.hWrite c l .C (field q.record 8 4) ((finRow (s.bytesAt cs) g.exp).flatMap fun p => bytes4 p.1)).countAll c
    ((finRow (s.bytesAt cs) g.exp).flatMap (·.2)) = v at hstep
  obtain ⟨ev, hcore⟩ := (u.hWrite c l .C (field q.record 8 4) ((finRow (s.bytesAt cs) g.exp).flatMap fun p => bytes4 p.1)).countAll_core c
    ((finRow (s.bytesAt cs) g.exp).flatMap (·.2))
  rw [hv, State.hWrite_core] at hcore
  have hdone : RowsDone (mrfinCode c l) u c { cmd := q, serial := s.serial, part := g.rows, begun := true }
      (retired (closedRegion v c (finRegion q.record)) c { cmd := q, serial := s.serial, part := g.rows, begun := true, row := 0 + 1 }) :=
    rowsDone_of_lastRow (by rw [show (mrfinCode c l).rows _ = g.rows from rfl, hrows]) hstep rfl rfl
  refine ⟨_, exec_atHead .mrfin hq hbegins (hu ▸ hdone), ranWhole_of_takenFrom ⟨?_, ?_⟩ rfl, ?_, ?_⟩
  · rw [closedRegion, State.modHarrow_harrow, hcore]
    dsimp only
    rw [hharrow]; rfl
  · rw [closedRegion, State.modHarrow_harrow, hcore]
    dsimp only
    rw [hharrow]; rfl
  · rw [retired_harrow, closedRegion, State.modHarrow_harrow]
    dsimp only
    rw [Harrow.setRegion_get]
  · have hmem : v.mem = (u.hWrite c l .C (field q.record 8 4) ((finRow (s.bytesAt cs) g.exp).flatMap fun p => bytes4 p.1)).mem := by
      rw [← hv, State.countAll_mem]
    rw [State.bytesAt_of_mem_eq (retired_mem (closedRegion v c _) c _), State.bytesAt_of_mem_eq (t := closedRegion v c _) (s := v) rfl,
      State.bytesAt_of_mem_eq hmem]
    refine State.hWrite_bytesAt (hview.mem ▸ hwf) hpairs (n := 512) ?_ (length_finRow ..)
    rw [State.windowKeys_congr hview.vis, hks]

end

/-- Settles O54: the turn of a command in general, and each command's states along it. -/
theorem harrowCommands : Obligations.HarrowCommands := by
  unfold Obligations.HarrowCommands
  refine ⟨fun s s1 t c i op code l q rest h1 he hq hb hd => exec_atHead he hq hb hd,
    fun s t c i op code l h he hl hlive hstop hfree hrun hop hbegun hd => exec_atWork he hl hlive hstop hfree hrun hop hbegun hd,
    fun s c i op code he hidle => exec_harrowEvent_idle he hidle, fun s c l q rest w sc hq => ?mldw, fun s c l q rest hq => ?mswap,
    fun s c l q rest hq hwf => ?mzero, fun s c l q rest hq => ?mracc, fun s c l q rest hq hret hrot => ?msync,
    fun s c l q rest as cs i op hi hq hwf hpairs hrow hbound => ?mmul, fun s c l q rest cs ks hq hwf hpairs => ?mepi,
    fun s c l h cs bs hl hlive hstop hfree hrun hop hbegun hpart hrow => ?mred, fun s c l q rest hq => ?mrfin,
    fun b rec' slabs asof start n hb hn hstart => rowResult_int8 hb rec' slabs asof hn hstart⟩
  case mldw =>
    intro y f hfill hdrain hw hsc
    refine ⟨_, exec_mldw hq hfill hdrain hw hsc, rfl, ?_⟩
    rw [retired_harrow, State.modHarrow_harrow, fillingBank, ssrSettled_harrow, State.modHarrow_harrow, begun_harrow]
    refine ⟨Harrow.setInactive_queue .., Harrow.setInactive_active .., Harrow.setInactive_activeBank .., Harrow.setInactive_inactive ..,
      Harrow.setInactive_inactiveBank ..⟩
  case mswap =>
    intro y hfill hself hempty
    refine ⟨_, exec_mswap hq hfill hself hempty, rfl, ?_⟩
    rw [retired_harrow, ssrSettled_harrow, swapped, State.modHarrow_harrow, begun_harrow]
    refine ⟨rfl, rfl, ?_, ?_, rfl⟩
    · cases h : (s.core c).harrow.active <;> simp [Harrow.activeBank, Harrow.inactiveBank, y, h]
    · cases h : (s.core c).harrow.active <;> simp [Harrow.activeBank, Harrow.inactiveBank, y, h]
  case mzero =>
    intro n
    have hharrow : ((zeroed s c l q rest).core c).harrow = { (s.core c).harrow with queue := rest, running := some { cmd := q, serial := s.serial } } := by
      rw [zeroed, writeRows_core, ssrSettled_harrow, begun_harrow]
    refine ⟨_, exec_mzero hq, ?_, ?_, fun r hr ks hks k hk => ?_⟩
    · by_cases hn : n ≤ 16
      · rw [if_pos hn, retired_harrow, hharrow]
      · rw [if_neg hn, State.modHarrow_harrow, hharrow]
    · by_cases hn : n ≤ 16
      · rw [if_pos hn, if_pos hn, retired_harrow]; rfl
      · rw [if_neg hn, if_neg hn, State.modHarrow_harrow]; rfl
    · have hzero := zeroed_get (rest := rest) rfl hwf hr hks hk
      by_cases hn : n ≤ 16
      · rw [if_pos hn]; exact hzero
      · rw [if_neg hn]; exact hzero
  case mracc =>
    refine ⟨_, exec_mracc hq, ?_⟩
    rw [retired_harrow, ssrSettled_harrow, State.modHarrow_harrow, State.hWrite_core, begun_harrow]
    exact ⟨rfl, Harrow.setRegion_get ..⟩
  case msync =>
    refine ⟨_, exec_msync hq hret hrot, rfl, ?_⟩
    rw [retired_harrow, ssrSettled_harrow, begun_harrow, hret]
    exact ⟨rfl, rfl, rfl⟩
  case mmul =>
    rcases List.mem_pair.1 hi with heq | heq
    · obtain ⟨rfl, rfl⟩ := Prod.mk.inj heq
      exact exec_mul .mmul hq hwf hpairs hrow nofun
    · obtain ⟨rfl, rfl⟩ := Prod.mk.inj heq
      exact exec_mul .mrot hq hwf hpairs hrow fun _ => hbound rfl
  case mepi =>
    intro r out hflags hseed hflag hmode hrows hread hks hcross hquar
    exact exec_mepi hq hwf hpairs
      ⟨fieldBit_of_mod 2 hflags (by decide) (by decide), fieldBit_of_mod 2 hflags (by decide) (by decide), hseed, hflag, hmode⟩
      hrows hread hks hcross hquar
  case mred =>
    intro r dst hin hne hb
    exact exec_mred hl hlive hstop hfree hrun hop hbegun hpart hrow rfl hin hne hb
  case mrfin =>
    intro i g
    exact ⟨fun hclosed => exec_mrfin_closed hq hclosed, fun cs ks hopen hcount hrows hwf hpairs hread hok hks =>
      exec_mrfin_open hq hwf hpairs hopen hcount hrows hread hok hks⟩

end Sys2Proof.Machine
end

section
/-! PROOF. Completion and faults of the matrix unit's commands, and what arrives at a unit (R185, R186, R190, R198, R206), and O55. -/

namespace Sys2Proof.Machine
open Stmt

/-! ## Symbols -/

theorem Core.latchOwner_eq (x : Core) (k : Option SlotId) (bit : Nat) : ∃ ctxs, x.latchOwner k bit = { x with ctxs := ctxs } := by
  cases k with
  | none => exact ⟨x.ctxs, rfl⟩
  | some k =>
    unfold Core.latchOwner Core.latchBit
    dsimp only
    split
    · exact ⟨_, rfl⟩
    · exact ⟨x.ctxs, rfl⟩

/-- Resolving a symbol changes contexts, symbols and event counters of its core only. -/
theorem Core.resolve_eq (x : Core) (i : Sym) (v : Word) :
    ∃ ctxs syms ev, x.resolve i v = { x with ctxs := ctxs, syms := syms, ev := ev } := by
  unfold Core.resolve
  dsimp only
  obtain ⟨ev, h⟩ := (({ x with syms := x.syms.set i.val (.resolved v) i.isLt } : Core).mapCtx fun t => t.mapRegs fun r => (r.resolve i v).1).countAll_eq
    (x.ctxs.toList.flatMap fun t => t.regs.flatMap fun r => (r.resolve i v).2)
  exact ⟨_, _, ev, h⟩

theorem Core.deliver_eq (x : Core) (r : SymRef) (v : Word) :
    ∃ ctxs syms ev, x.deliver r v = { x with ctxs := ctxs, syms := syms, ev := ev } := by
  unfold Core.deliver
  split
  · split
    · obtain ⟨ctxs, syms, ev, h⟩ := x.resolve_eq r.s v
      obtain ⟨ctxs', h'⟩ := (x.resolve r.s v).latchOwner_eq ‹_› 1
      exact ⟨ctxs', syms, ev, by rw [h', h]⟩
    · exact ⟨_, _, _, rfl⟩
  · exact ⟨_, _, _, rfl⟩

theorem Core.faultSym_eq (x : Core) (r : SymRef) (a : Word) :
    ∃ ctxs syms, x.faultSym r a = { x with ctxs := ctxs, syms := syms } := by
  unfold Core.faultSym
  split
  · split
    · obtain ⟨ctxs, h⟩ := ({ x with syms := x.syms.set r.s.val (.fault a) r.s.isLt } : Core).latchOwner_eq ‹_› 1
      exact ⟨ctxs, _, h⟩
    · exact ⟨_, _, rfl⟩
  · exact ⟨_, _, rfl⟩

theorem Core.deliver_syms_of_pending {x : Core} {r : SymRef} {k : Option SlotId} (h : x.syms.get r.s = .pending r.serial k) (v : Word) :
    (x.deliver r v).syms.get r.s = .resolved v := by
  rw [Core.deliver_of_pending h, Core.latchOwner_syms, Core.resolve_syms]
  exact (vector_get_set ..).trans (if_pos rfl)

theorem Core.faultSym_syms_of_pending {x : Core} {r : SymRef} {k : Option SlotId} (h : x.syms.get r.s = .pending r.serial k) (a : Word) :
    (x.faultSym r a).syms.get r.s = .fault a := by
  simp only [Core.faultSym, h, if_true]
  rw [Core.latchOwner_syms]
  exact (vector_get_set ..).trans (if_pos rfl)

/-- A symbol that has failed keeps its fault whatever others fail. -/
theorem Core.faultSym_syms_of_fault {x : Core} {i : Sym} {a : Word} (h : x.syms.get i = .fault a) (r : SymRef) (b : Word) :
    (x.faultSym r b).syms.get i = .fault a := by
  unfold Core.faultSym
  split
  next n k hp =>
    split
    · rw [Core.latchOwner_syms]
      have hne : i ≠ r.s := by
        rintro rfl
        rw [h] at hp
        cases hp
      exact (vector_get_set ..).trans ((if_neg hne).trans h)
    · exact h
  · exact h

/-- The symbols of discarded commands fail with address 0 (R186). -/
def faultAll (s : State) (c : CoreId) (qs : List HCmd) : State := qs.foldl (fun s q => s.faultSym c q.ref 0) s

theorem faultAll_core (s : State) (c : CoreId) (qs : List HCmd) :
    ∃ ctxs syms, (faultAll s c qs).core c = { s.core c with ctxs := ctxs, syms := syms } := by
  induction qs generalizing s with
  | nil => exact ⟨_, _, rfl⟩
  | cons q qs ih =>
    obtain ⟨ctxs, syms, h⟩ := ih (s.faultSym c q.ref 0)
    obtain ⟨ctxs', syms', h'⟩ := (s.core c).faultSym_eq q.ref 0
    refine ⟨ctxs, syms, h.trans ?_⟩
    rw [State.faultSym, State.core_modCore, h']

theorem faultAll_mem (s : State) (c : CoreId) (qs : List HCmd) : (faultAll s c qs).mem = s.mem := by
  induction qs generalizing s with
  | nil => rfl
  | cons q qs ih => exact (ih _).trans (State.faultSym_mem ..)

theorem faultAll_syms_of_fault {s : State} {c : CoreId} {i : Sym} {a : Word} (h : (s.core c).syms.get i = .fault a) (qs : List HCmd) :
    ((faultAll s c qs).core c).syms.get i = .fault a := by
  induction qs generalizing s with
  | nil => exact h
  | cons q qs ih =>
    refine ih (s := s.faultSym c q.ref 0) ?_
    rw [State.faultSym, State.core_modCore]
    exact Core.faultSym_syms_of_fault h _ _

section
variable {s : State} {c : CoreId} {l : Launch} {r : HRun} {rest : List HFlight}

/-! ## Completion -/

/-- The unit after a command has completed (R185, R187). -/
def afterComplete (y : Harrow) (r : HRun) : Harrow :=
  let y := { y with retiring := y.retiring.erase r, lastTag := BitVec.ofNat 32 r.cmd.tag, cursor := BitVec.ofNat 32 r.row }
  if y.tagged (!y.active) then y else y.drained

theorem Harrow.drained_eq (y : Harrow) : ∃ i rs, y.drained = { y with inactive := i, retiring := rs } := by
  unfold Harrow.drained
  split
  · exact ⟨_, _, rfl⟩
  · exact ⟨_, _, rfl⟩

theorem afterComplete_eq (y : Harrow) (r : HRun) :
    ∃ i rs, afterComplete y r = { y with inactive := i, retiring := rs, lastTag := BitVec.ofNat 32 r.cmd.tag, cursor := BitVec.ofNat 32 r.row } := by
  unfold afterComplete
  dsimp only
  split
  · exact ⟨_, _, rfl⟩
  · obtain ⟨i, rs, h⟩ := ({ y with retiring := y.retiring.erase r, lastTag := BitVec.ofNat 32 r.cmd.tag, cursor := BitVec.ofNat 32 r.row } : Harrow).drained_eq
    exact ⟨i, rs, h⟩

theorem State.harrowComplete_eq (h : (s.core c).harrow.completing = some r) :
    s.harrowComplete c = (s.modHarrow c fun y => afterComplete y r).deliver c r.cmd.ref (word (r.cmd.tag * 2 ^ 32 + r.row)) := by
  rw [State.harrowComplete, h]
  rfl

theorem Harrow.completing_of_nil {y : Harrow} (h : y.retiring = []) : y.completing = none := by
  unfold Harrow.completing
  rw [h]
  rfl

/-! ## Faults -/

/-- The core once a fault has been taken: what is queued or at work is discarded, and HALT is set (R186). -/
def haltedBy (x : Core) (r : HRun) (k : Nat) : Core :=
  let y := x.harrow
  { x with
    ssr := (y.queue.flatMap (·.ssr) ++ x.ssrNext).foldl (fun v p => v.set p.1.val p.2 p.1.isLt) x.ssr, ssrNext := []
    harrow := { x.harrow with
      retiring := x.harrow.retiring.erase r, running := none, queue := []
      haltStatus := some (x.harrow.haltStatus.getD k)
      haltTag := if x.harrow.haltStatus.isSome then x.harrow.haltTag else BitVec.ofNat 32 r.cmd.tag
      inactive := ((y.running.toList ++ [r]).foldl Harrow.unfill y).inactive } }

/-- The commands that a halt discards. -/
def discarded (y : Harrow) : List HCmd := (y.running.map (·.cmd)).toList ++ y.queue

theorem State.harrowFault_eq {k : Nat} {a : Word} (hfind : (s.core c).harrow.retiring.find? (fun r => r.failed.isSome) = some r)
    (hfail : r.failed = some (k, a)) (hflight : r.flight = []) :
    s.harrowFault c = faultAll ((s.modCore c fun x => haltedBy x r k).faultSym c r.cmd.ref a) c (discarded (s.core c).harrow) := by
  rw [State.harrowFault]
  dsimp only
  rw [hfind]
  dsimp only
  rw [State.landRows_of_nil hflight]
  dsimp only
  rw [hflight, hfail, if_neg (by decide)]
  have hmod : (s.modCore c fun x => haltedBy x r k) = s.setCore c (haltedBy (s.core c) r k) := rfl
  rw [hmod]
  rfl

theorem haltedCore {k : Nat} {a : Word} : ∃ ctxs syms,
    (faultAll ((s.modCore c fun x => haltedBy x r k).faultSym c r.cmd.ref a) c (discarded (s.core c).harrow)).core c =
      { haltedBy (s.core c) r k with ctxs := ctxs, syms := syms } := by
  obtain ⟨ctxs, syms, h⟩ := faultAll_core ((s.modCore c fun x => haltedBy x r k).faultSym c r.cmd.ref a) c (discarded (s.core c).harrow)
  obtain ⟨ctxs', syms', h'⟩ := (haltedBy (s.core c) r k).faultSym_eq r.cmd.ref a
  refine ⟨ctxs, syms, h.trans ?_⟩
  rw [State.faultSym, State.core_modCore, State.core_modCore, h']

/-! ## Arrivals -/

/-- A landing tells the sender's unit, and nothing else of any core changes. -/
theorem State.landed_core (s : State) (d c : CoreId) (serial : Nat) : ∃ run rs,
    (s.modHarrow d fun y => y.landed serial).core c =
      { s.core c with harrow := { (s.core c).harrow with running := run, retiring := rs } } := by
  by_cases h : c = d
  · subst h
    rw [State.modHarrow, State.core_modCore]
    exact ⟨_, _, rfl⟩
  · rw [State.modHarrow_core_ne _ _ _ h]
    exact ⟨_, _, rfl⟩

/-- The state after an accepted bank has landed (R190, R198, R431). -/
def bankLanded (s : State) (c : CoreId) (b : Bank) (src serial : Nat) (bad : Bool) : State :=
  ((s.modHarrow c fun y => { (y.setInactive (if bad then b.spoil else b) .arrived) with
      rotin := y.rotin + 1, inbound := y.inbound.erase (.bank b src serial true) }).modCore c fun x => { x with rcvd := x.rcvd + 1 }).modHarrow
    (coreOf src) fun y => y.landed serial

theorem State.bankArrives_taken {b : Bank} {src serial : Nat} (hl : s.launchOf c = some l) (hlive : l.phase = .live)
    (hin : (s.core c).harrow.inbound = .bank b src serial true :: rest) (bad : Bool) : s.bankArrives c bad = bankLanded s c b src serial bad := by
  simp only [State.bankArrives, hl, hin, List.find?_cons, hlive]
  rfl

theorem State.bankArrives_accepted {b : Bank} {src serial : Nat} (hl : s.launchOf c = some l) (hlive : l.phase = .live)
    (hin : (s.core c).harrow.inbound = .bank b src serial false :: rest) (hstop : l.stopping = false)
    (hfree : (s.core c).harrow.inactive = .empty ∨ (s.core c).harrow.inactive = .loaded) (hfirst : (s.core c).harrow.mldwFirst c = false)
    (bad : Bool) : s.bankArrives c bad = s.modHarrow c fun y => { y with
      inactive := .filling
      inbound := y.inbound.map fun m => if m = .bank b src serial false then .bank b src serial true else m } := by
  simp only [State.bankArrives, hl, hin, List.find?_cons, hlive, hstop, hfree, hfirst]
  rfl

theorem State.spoilRange_core (s : State) (c d : CoreId) (l : Launch) (w : Win) (off n : Nat) : (s.spoilRange c l w off n).core d = s.core d := by
  unfold State.spoilRange
  split <;> rfl

/-- Rows written, poisoned where their check fails. -/
def rowsPut (s : State) (c : CoreId) (l : Launch) (w : Win) (off : Nat) (data : List Byte) (bad : Bool) : State :=
  if bad then (s.hWrite c l w off data).spoilRange c l w off data.length else s.hWrite c l w off data

theorem State.rowsLand_eq {data : List Byte} {off src serial : Nat} (hl : s.launchOf c = some l) (hlive : l.phase = .live)
    (hin : (s.core c).harrow.inbound = .rows data off src serial :: rest) (bad : Bool) : s.rowsLand c bad =
      (((rowsPut s c l .A off data bad).modHarrow c fun y =>
        { y with rotin := y.rotin + 1, inbound := y.inbound.erase (.rows data off src serial) }).modCore c fun x =>
          { x with rcvd := x.rcvd + 1 }).modHarrow (coreOf src) fun y => y.landed serial := by
  simp only [State.rowsLand, hl, hin, List.find?_cons, hlive]
  rfl

theorem rowsPut_mem (s : State) (c : CoreId) (l : Launch) (w : Win) (off : Nat) (data : List Byte) (bad : Bool) :
    (rowsPut s c l w off data bad).mem = (s.hWrite c l w off data).mem := by
  unfold rowsPut
  split
  · exact State.spoilRange_mem ..
  · rfl

theorem rowsPut_core (s : State) (c d : CoreId) (l : Launch) (w : Win) (off : Nat) (data : List Byte) (bad : Bool) :
    (rowsPut s c l w off data bad).core d = s.core d := by
  unfold rowsPut
  split
  · exact (State.spoilRange_core ..).trans (State.hWrite_core ..)
  · exact State.hWrite_core ..

/-! ## Reduction messages -/

/-- The state once a reduction message has been taken from those inbound, and its sender told. -/
def mredTaken (s : State) (c : CoreId) (m : HFlight) (src serial : Nat) : State :=
  ((s.modHarrow c fun y => { y with inbound := y.inbound.erase m }).modCore c fun x => { x with rcvd := x.rcvd + 1 }).modHarrow
    (coreOf src) fun y => y.landed serial

theorem mredTaken_core (s : State) (c : CoreId) (m : HFlight) (src serial : Nat) : ∃ run rs,
    (mredTaken s c m src serial).core c = { s.core c with
      rcvd := (s.core c).rcvd + 1
      harrow := { (s.core c).harrow with inbound := (s.core c).harrow.inbound.erase m, running := run, retiring := rs } } := by
  obtain ⟨run, rs, h⟩ := State.landed_core ((s.modHarrow c fun y => { y with inbound := y.inbound.erase m }).modCore c fun x =>
    { x with rcvd := x.rcvd + 1 }) (coreOf src) c serial
  refine ⟨run, rs, h.trans ?_⟩
  rw [State.core_modCore, State.modHarrow, State.core_modCore]
  rfl

/-- Whether the cells of a message lie in a poisoned granule (R432). -/
def cellsPoisoned (s : State) (c : CoreId) (l : Launch) (off : Nat) : Bool :=
  match s.windowKeys c l .C off 128 with
  | some ks => s.poisoned ks
  | none => false

/-- A message for a row that the region takes (R206). -/
def mredAdded (s : State) (c : CoreId) (l : Launch) (i : Fin 4) (g : HRegion) (row part : Nat) (ps : List (BitVec 32 × BitVec 32))
    (bad : Bool) : State :=
  let off := g.roff + 2048 * row + 128 * part
  let s := s.addPairs c l g.exp off ps
  let s := if bad then s.spoilRange c l .C off 128 else s
  if part = 15 then s.modHarrow c fun y => y.setRegion i { g with received := g.received + 1 } else s

/-- The sender's command faults at a message that is refused (R222). -/
def refuseRun (y : Harrow) (serial : Nat) : Harrow :=
  let f (r : HRun) : HRun := if r.serial = serial ∧ r.failed.isNone then { r with failed := some (7, 0) } else r
  match y.running with
  | some r => if r.serial = serial then { y with running := none, retiring := y.retiring ++ [f r] } else { y with retiring := y.retiring.map f }
  | none => { y with retiring := y.retiring.map f }

/-- A message for a row that no region takes is a dead letter (R206, R222). -/
def mredRefused (s : State) (c : CoreId) (src serial : Nat) : State :=
  ((s.modCore c fun x => { x with deadl := satAdd32 x.deadl 1, sent := x.sent + 1 }).modCore (coreOf src) fun x =>
    { x with rcvd := x.rcvd + 1 }).modHarrow (coreOf src) fun y => refuseRun y serial

theorem State.mredArrives_eq {i : Fin 4} {row part src serial : Nat} {ps : List (BitVec 32 × BitVec 32)} (hl : s.launchOf c = some l)
    (hlive : l.phase = .live) (hin : (s.core c).harrow.inbound = .mred i row part ps src serial :: rest) (bad : Bool) :
    s.mredArrives c bad =
      (let u := mredTaken s c (.mred i row part ps src serial) src serial
       let g := (u.core c).harrow.regions.get i
       if g.isOpen ∧ g.ended = false ∧ row < g.rows then
         if cellsPoisoned u c l (g.roff + 2048 * row + 128 * part) then u.harrowHalt c 8 else mredAdded u c l i g row part ps bad
       else mredRefused u c src serial) := by
  simp only [State.mredArrives, hl, hin, List.find?_cons, hlive]
  rfl

/-- One pair of a message added to its cell (R64, R205). -/
def addPair (c : CoreId) (l : Launch) (E : Int) (off : Nat) (ps : List (BitVec 32 × BitVec 32)) (s : State) (i : Nat) : State :=
  match s.windowKeys c l .C (off + 16 * i) 16 with
  | none => s
  | some ks =>
    let r := (Cell.ofBytes (s.bytesAt ks)).arrive E (ps.getD i (0, 0)).1 (ps.getD i (0, 0)).2
    if r.2 then (s.write none ks r.1.bytes).countAll c [9] else s.write none ks r.1.bytes

/-- The first pairs of a message added. -/
def addFirst (c : CoreId) (l : Launch) (E : Int) (off : Nat) (ps : List (BitVec 32 × BitVec 32)) (s : State) (n : Nat) : State :=
  (List.range n).foldl (addPair c l E off ps) s

theorem State.addPairs_eq (s : State) (c : CoreId) (l : Launch) (E : Int) (off : Nat) (ps : List (BitVec 32 × BitVec 32)) :
    s.addPairs c l E off ps = addFirst c l E off ps s ps.length := rfl

section
variable {E : Int} {off j n : Nat} {ps : List (BitVec 32 × BitVec 32)}

theorem addFirst_succ (s : State) : addFirst c l E off ps s (n + 1) = addPair c l E off ps (addFirst c l E off ps s n) n := by
  rw [addFirst, List.range_succ, List.foldl_append]
  rfl

theorem addPair_core (s : State) (i : Nat) : ∃ ev, (addPair c l E off ps s i).core c = { s.core c with ev := ev } := by
  unfold addPair
  split
  · exact ⟨_, rfl⟩
  · dsimp only
    split
    · obtain ⟨ev, h⟩ := (s.write none ‹_› ((Cell.ofBytes (s.bytesAt ‹_›)).arrive E (ps.getD i (0, 0)).1 (ps.getD i (0, 0)).2).1.bytes).countAll_core c [9]
      exact ⟨ev, by rw [h, State.write_core]⟩
    · exact ⟨(s.core c).ev, State.write_core ..⟩

theorem addFirst_core (s : State) : ∃ ev, (addFirst c l E off ps s n).core c = { s.core c with ev := ev } := by
  induction n with
  | zero => exact ⟨_, rfl⟩
  | succ n ih =>
    obtain ⟨ev, h⟩ := ih
    obtain ⟨ev', h'⟩ := addPair_core (c := c) (l := l) (E := E) (off := off) (ps := ps) (addFirst c l E off ps s n) n
    exact ⟨ev', by rw [addFirst_succ, h', h]⟩

theorem addPair_mem {ks : List Nat} {i : Nat} (h : s.windowKeys c l .C (off + 16 * i) 16 = some ks) : (addPair c l E off ps s i).mem =
    (s.write none ks ((Cell.ofBytes (s.bytesAt ks)).arrive E (ps.getD i (0, 0)).1 (ps.getD i (0, 0)).2).1.bytes).mem := by
  simp only [addPair, h]
  split
  · exact State.countAll_mem ..
  · rfl

theorem addPair_get {i a : Nat} (hwf : s.mem.wf = true) (h : ∀ ks, s.windowKeys c l .C (off + 16 * i) 16 = some ks → a ∉ ks) :
    (addPair c l E off ps s i).mem.get a = s.mem.get a := by
  cases hks : s.windowKeys c l .C (off + 16 * i) 16 with
  | none => simp only [addPair, hks]
  | some ks => rw [addPair_mem hks, State.write_get_of_notMem none _ hwf (h ks hks)]

theorem addPair_wf {i : Nat} (hwf : s.mem.wf = true) : (addPair c l E off ps s i).mem.wf = true := by
  cases hks : s.windowKeys c l .C (off + 16 * i) 16 with
  | none => simp only [addPair, hks]; exact hwf
  | some ks => rw [addPair_mem hks]; exact State.write_wf none _ _ hwf

theorem addFirst_wf (hwf : s.mem.wf = true) : (addFirst c l E off ps s n).mem.wf = true := by
  induction n with
  | zero => exact hwf
  | succ n ih => rw [addFirst_succ]; exact addPair_wf ih

theorem windowKeys_addFirst (s : State) (w : Win) (o m : Nat) : (addFirst c l E off ps s n).windowKeys c l w o m = s.windowKeys c l w o m := by
  obtain ⟨ev, h⟩ := addFirst_core (c := c) (l := l) (E := E) (off := off) (ps := ps) (n := n) s
  exact State.windowKeys_congr (by rw [h])

theorem addFirst_get {a : Nat} (hwf : s.mem.wf = true) (h : ∀ i < n, ∀ ks, s.windowKeys c l .C (off + 16 * i) 16 = some ks → a ∉ ks) :
    (addFirst c l E off ps s n).mem.get a = s.mem.get a := by
  induction n with
  | zero => rfl
  | succ n ih =>
    rw [addFirst_succ, addPair_get (addFirst_wf hwf) (fun ks hks => h n (by omega) ks (windowKeys_addFirst s .C _ _ ▸ hks))]
    exact ih fun i hi => h i (by omega)

theorem Cell.length_bytes (x : Cell) : x.bytes.length = 16 := by
  simp [Cell.bytes, length_leBytes]

/-- The addresses of a region's cell. -/
def cellKeys (c : CoreId) (off i : Nat) : List Nat := range (lmKey c .C (off + 16 * i)) 16

theorem notMem_cellKeys {i a : Nat} (hne : i ≠ j) (ha : a ∈ cellKeys c off j) : a ∉ cellKeys c off i := by
  intro ha'
  obtain ⟨x, hx, rfl⟩ := mem_range.1 ha
  obtain ⟨y, hy, h⟩ := mem_range.1 ha'
  rw [lmKey_add, lmKey_add] at h
  unfold lmKey at h
  omega

theorem windowKeys_cell (hpairs : l.pairs = []) (hin : off + 16 * ps.length ≤ l.split.size .C) {i : Nat} (hi : i < ps.length) (s : State) :
    s.windowKeys c l .C (off + 16 * i) 16 = some (cellKeys c off i) := State.windowKeys_of_no_pairs hpairs (by omega)

theorem State.bytesAt_congr {t : State} {ks : List Nat} (h : ∀ a ∈ ks, t.mem.get a = s.mem.get a) : t.bytesAt ks = s.bytesAt ks :=
  List.map_congr_left h

/-- Each cell takes its own pair, whatever the other pairs do. -/
theorem addFirst_cell (hwf : s.mem.wf = true) (hpairs : l.pairs = []) (hin : off + 16 * ps.length ≤ l.split.size .C) (hn : n ≤ ps.length)
    (hj : j < ps.length) : (addFirst c l E off ps s n).bytesAt (cellKeys c off j) =
      if j < n then ((Cell.ofBytes (s.bytesAt (cellKeys c off j))).arrive E ps[j].1 ps[j].2).1.bytes else s.bytesAt (cellKeys c off j) := by
  induction n with
  | zero => rfl
  | succ n ih =>
    have ih := ih (by omega)
    have hkeys : (addFirst c l E off ps s n).windowKeys c l .C (off + 16 * n) 16 = some (cellKeys c off n) :=
      windowKeys_cell hpairs hin (by omega) _
    rw [addFirst_succ]
    by_cases hjn : j = n
    · subst hjn
      rw [if_neg (by omega)] at ih
      rw [if_pos (by omega), State.bytesAt_of_mem_eq (addPair_mem hkeys), ih,
        State.write_bytesAt (ks := cellKeys c off j) none (addFirst_wf hwf) (range_nodup _ _) (by rw [Cell.length_bytes, cellKeys, length_range]),
        List.getD_eq_getElem?_getD, List.getElem?_eq_getElem hj]
      rfl
    · have hlt : j < n + 1 ↔ j < n := by omega
      simp only [hlt]
      rw [← ih]
      refine State.bytesAt_congr fun a ha => addPair_get (addFirst_wf hwf) fun ks hks => ?_
      rw [hkeys] at hks
      exact Option.some.inj hks ▸ notMem_cellKeys (Ne.symm hjn) ha

end

/-! ## The messages' three ends -/

theorem mredTaken_sameView (s : State) (c : CoreId) (m : HFlight) (src serial : Nat) : SameView s (mredTaken s c m src serial) c := by
  obtain ⟨run, rs, h⟩ := mredTaken_core s c m src serial
  exact ⟨rfl, rfl, by rw [h], by rw [h]⟩

/-- The region of an added message, and what else of its core the message leaves. -/
theorem mredAdded_core (u : State) (c : CoreId) (l : Launch) {i : Fin 4} {g : HRegion} (hg : (u.core c).harrow.regions.get i = g)
    (row part : Nat) (ps : List (BitVec 32 × BitVec 32)) (bad : Bool) :
    let t := mredAdded u c l i g row part ps bad
    (t.core c).harrow.inbound = (u.core c).harrow.inbound ∧ (t.core c).rcvd = (u.core c).rcvd ∧
      ((t.core c).harrow.regions.get i).received = g.received + (if part = 15 then 1 else 0) := by
  obtain ⟨ev, h⟩ := addFirst_core (c := c) (l := l) (E := g.exp) (off := g.roff + 2048 * row + 128 * part) (ps := ps) (n := ps.length) u
  have hput : (if bad then (u.addPairs c l g.exp (g.roff + 2048 * row + 128 * part) ps).spoilRange c l .C (g.roff + 2048 * row + 128 * part) 128
      else u.addPairs c l g.exp (g.roff + 2048 * row + 128 * part) ps).core c = { u.core c with ev := ev } := by
    rw [State.addPairs_eq]
    split
    · rw [State.spoilRange_core, h]
    · exact h
  simp only [mredAdded]
  by_cases hpart : part = 15
  · rw [if_pos hpart, if_pos hpart, State.modHarrow_harrow, hput]
    refine ⟨rfl, ?_, by rw [Harrow.setRegion_get]⟩
    rw [State.modHarrow, State.core_modCore, hput]
    rfl
  · rw [if_neg hpart, if_neg hpart, hput]
    exact ⟨rfl, rfl, by rw [hg]; rfl⟩

theorem mredAdded_mem (u : State) (c : CoreId) (l : Launch) (i : Fin 4) (g : HRegion) (row part : Nat) (ps : List (BitVec 32 × BitVec 32))
    (bad : Bool) :
    (mredAdded u c l i g row part ps bad).mem = (addFirst c l g.exp (g.roff + 2048 * row + 128 * part) ps u ps.length).mem := by
  have hput : (if bad then (u.addPairs c l g.exp (g.roff + 2048 * row + 128 * part) ps).spoilRange c l .C (g.roff + 2048 * row + 128 * part) 128
      else u.addPairs c l g.exp (g.roff + 2048 * row + 128 * part) ps).mem =
        (addFirst c l g.exp (g.roff + 2048 * row + 128 * part) ps u ps.length).mem := by
    split
    · exact State.spoilRange_mem ..
    · rfl
  simp only [mredAdded]
  split
  · exact hput
  · exact hput

theorem State.harrowHalt_facts (u : State) (c : CoreId) (status : Nat) : (u.harrowHalt c status).mem = u.mem ∧
    ((u.harrowHalt c status).core c).harrow.queue = [] ∧ ((u.harrowHalt c status).core c).harrow.running = none ∧
    ((u.harrowHalt c status).core c).harrow.haltStatus = some ((u.core c).harrow.haltStatus.getD status) := by
  unfold State.harrowHalt
  dsimp only
  refine ⟨faultAll_mem .., ?_⟩
  obtain ⟨ctxs, syms, h⟩ := faultAll_core (u.modCore c _) c (discarded (u.core c).harrow)
  rw [State.core_modCore] at h
  have hall := congrArg Core.harrow h
  exact ⟨congrArg Harrow.queue hall, congrArg Harrow.running hall, congrArg Harrow.haltStatus hall⟩

theorem refuseRun_eq (y : Harrow) (serial : Nat) : ∃ run rs, refuseRun y serial = { y with running := run, retiring := rs } := by
  unfold refuseRun
  dsimp only
  split
  · split
    · exact ⟨_, _, rfl⟩
    · exact ⟨_, _, rfl⟩
  · exact ⟨_, _, rfl⟩

theorem mredRefused_core (u : State) (c : CoreId) (src serial : Nat) : ∃ sent rcvd run rs, (mredRefused u c src serial).core c =
    { u.core c with deadl := satAdd32 (u.core c).deadl 1, sent := sent, rcvd := rcvd
                    harrow := { (u.core c).harrow with running := run, retiring := rs } } := by
  unfold mredRefused
  by_cases hc : c = coreOf src
  · subst hc
    rw [State.modHarrow, State.core_modCore, State.core_modCore, State.core_modCore]
    obtain ⟨run, rs, h⟩ := refuseRun_eq (u.core (coreOf src)).harrow serial
    refine ⟨(u.core (coreOf src)).sent + 1, (u.core (coreOf src)).rcvd + 1, run, rs, ?_⟩
    rw [← h]
    rfl
  · rw [State.modHarrow_core_ne _ _ _ hc, State.core_modCore_ne _ _ hc, State.core_modCore]
    exact ⟨_, _, _, _, rfl⟩

end

/-- Settles O55: the state of each event, and what it keeps of the core's record. -/
theorem harrowTransfersAndCompletion : Obligations.HarrowTransfersAndCompletion := by
  unfold Obligations.HarrowTransfersAndCompletion
  refine ⟨fun s c r h => ?complete, fun s c h => ?nothing, fun s c r k a hfind hfail hflight => ?fault, fun s c => ?drained,
    fun s c l b src serial taken bad rest hl hlive hin => ?bank, fun s c l data off src serial bad rest hl hlive hin => ?rows,
    fun s c l i row part src serial ps bad rest hl hlive hin => ?mred, fun s c bad hin => ?none⟩
  case complete =>
    refine ⟨_, congrArg Host.Outcome.next (State.harrowComplete_eq h), rfl, ?_⟩
    obtain ⟨ctxs, syms, ev, hd⟩ := ((s.core c).modHarrow fun y => afterComplete y r).deliver_eq r.cmd.ref (word (r.cmd.tag * 2 ^ 32 + r.row))
    obtain ⟨i, rs, hy⟩ := afterComplete_eq (s.core c).harrow r
    rw [State.deliver, State.core_modCore, State.modHarrow, State.core_modCore]
    refine ⟨?_, ?_, fun k hk => Core.deliver_syms_of_pending (x := (s.core c).modHarrow fun y => afterComplete y r) hk _⟩
    · rw [hd, Core.modHarrow, hy]
    · rw [hd, Core.modHarrow, hy]
  case nothing =>
    constructor
    · show Host.Outcome.next (s.harrowComplete c) = _
      rw [State.harrowComplete, Harrow.completing_of_nil h]
    · show Host.Outcome.next (s.harrowFault c) = _
      rw [State.harrowFault]
      dsimp only
      rw [h]
      rfl
  case fault =>
    refine ⟨_, congrArg Host.Outcome.next (State.harrowFault_eq hfind hfail hflight), (faultAll_mem ..).trans (State.faultSym_mem ..), ?_⟩
    obtain ⟨ctxs, syms, hcore⟩ := haltedCore (s := s) (c := c) (r := r) (k := k) (a := a)
    refine ⟨by rw [hcore]; rfl, by rw [hcore]; rfl, fun hhalt => ?_, fun j hj => faultAll_syms_of_fault ?_ _⟩
    · rw [hcore]
      simp [haltedBy, hhalt]
    · rw [State.faultSym, State.core_modCore, State.core_modCore]
      exact Core.faultSym_syms_of_pending (x := haltedBy (s.core c) r k) hj a
  case drained =>
    refine ⟨_, rfl, rfl, ?_⟩
    rw [State.modHarrow_harrow, Harrow.drained]
    split <;> simp_all
  case bank =>
    refine ⟨fun htaken hstop hfree hfirst => ?_, fun htaken => ?_⟩
    · subst htaken
      refine ⟨_, congrArg Host.Outcome.next (State.bankArrives_accepted hl hlive hin hstop hfree hfirst bad), ?_⟩
      rw [State.modHarrow_harrow]
      refine ⟨rfl, ?_, rfl⟩
      dsimp only
      rw [hin, List.map_cons, if_pos rfl]
      rfl
    · subst htaken
      refine ⟨_, congrArg Host.Outcome.next (State.bankArrives_taken hl hlive hin bad), ?_⟩
      obtain ⟨run, rs, h⟩ := State.landed_core ((s.modHarrow c fun y => { (y.setInactive (if bad then b.spoil else b) .arrived) with
        rotin := y.rotin + 1, inbound := y.inbound.erase (.bank b src serial true) }).modCore c fun x => { x with rcvd := x.rcvd + 1 })
        (coreOf src) c serial
      rw [State.core_modCore] at h
      rw [bankLanded, h]
      dsimp only
      rw [State.modHarrow_harrow]
      exact ⟨Harrow.setInactive_inactive .., Harrow.setInactive_inactiveBank .., by rw [hin, List.erase_cons_head], rfl⟩
  case rows =>
    refine ⟨_, congrArg Host.Outcome.next (State.rowsLand_eq hl hlive hin bad), rowsPut_mem .., ?_⟩
    obtain ⟨run, rs, h⟩ := State.landed_core (((rowsPut s c l .A off data bad).modHarrow c fun y =>
      { y with rotin := y.rotin + 1, inbound := y.inbound.erase (.rows data off src serial) }).modCore c fun x =>
        { x with rcvd := x.rcvd + 1 }) (coreOf src) c serial
    rw [State.core_modCore] at h
    rw [h]
    dsimp only
    rw [State.modHarrow_harrow, rowsPut_core]
    exact ⟨by rw [hin, List.erase_cons_head], rfl⟩
  case mred =>
    intro g off cell
    have hexec : exec (.mredArrival { core := c, bad }) s = .next (s.mredArrives c bad) := rfl
    rw [hexec, State.mredArrives_eq hl hlive hin]
    obtain ⟨run, rs, hcore⟩ := mredTaken_core s c (.mred i row part ps src serial) src serial
    have hview := mredTaken_sameView s c (.mred i row part ps src serial) src serial
    generalize mredTaken s c (.mred i row part ps src serial) src serial = u at hcore hview
    have hg : (u.core c).harrow.regions.get i = g := by rw [hcore]
    have hinbound : (u.core c).harrow.inbound = rest := by rw [hcore]; dsimp only; rw [hin, List.erase_cons_head]
    have hpoisoned (ks : List Nat) : u.poisoned ks = s.poisoned ks := by rw [State.poisoned, hview.poison]; rfl
    dsimp only
    rw [hg]
    refine ⟨fun hopen hended hrow hwf hclean => ?_, fun hopen hended hrow hbad => ?_, fun hrefused => ?_⟩
    · have hcells : cellsPoisoned u c l (g.roff + 2048 * row + 128 * part) = false := by
        unfold cellsPoisoned
        rw [State.windowKeys_congr hview.vis]
        split
        · rw [hpoisoned]; exact hclean _ ‹_›
        · rfl
      rw [if_pos ⟨hopen, hended, hrow⟩, hcells, if_neg (by decide)]
      obtain ⟨hin', hrcvd, hreceived⟩ := mredAdded_core u c l hg row part ps bad
      have hmem := mredAdded_mem u c l i g row part ps bad
      have hwf' : u.mem.wf = true := hview.mem ▸ hwf
      refine ⟨_, rfl, hin'.trans hinbound, by rw [hrcvd, hcore], hreceived, fun hpairs hfit j hj => ?_, fun a ha => ?_⟩
      · rw [State.bytesAt_of_mem_eq hmem]
        refine (addFirst_cell hwf' hpairs hfit le_rfl hj).trans ?_
        rw [if_pos hj, State.bytesAt_of_mem_eq hview.mem]
        rfl
      · rw [hmem, addFirst_get hwf' (fun j hj ks hks => ha j hj ks (State.windowKeys_congr hview.vis ▸ hks)), hview.mem]
    · obtain ⟨ks, hks, hpois⟩ := hbad
      have hcells : cellsPoisoned u c l (g.roff + 2048 * row + 128 * part) = true := by
        unfold cellsPoisoned
        rw [State.windowKeys_congr hview.vis, hks]
        exact (hpoisoned ks).trans hpois
      rw [if_pos ⟨hopen, hended, hrow⟩, hcells, if_pos rfl]
      obtain ⟨hmem, hqueue, hrunning, hstatus⟩ := u.harrowHalt_facts c 8
      exact ⟨_, rfl, hmem.trans hview.mem, hqueue, hrunning, by rw [hstatus, hcore]⟩
    · have hno : ¬ (g.isOpen = true ∧ g.ended = false ∧ row < g.rows) := by
        rintro ⟨hopen, hended, hrow⟩
        rcases hrefused with h | h | h
        · rw [hopen] at h; cases h
        · rw [hended] at h; cases h
        · omega
      rw [if_neg hno]
      obtain ⟨sent, rcvd, run', rs', hcore'⟩ := mredRefused_core u c src serial
      exact ⟨_, rfl, hview.mem, by rw [hcore', hcore], by rw [hcore', hcore]⟩
  case none =>
    refine ⟨?_, ?_, ?_⟩
    · show Host.Outcome.next (s.bankArrives c bad) = _
      simp only [State.bankArrives, hin, List.find?_nil]
      cases s.launchOf c <;> rfl
    · show Host.Outcome.next (s.rowsLand c bad) = _
      simp only [State.rowsLand, hin, List.find?_nil]
      cases s.launchOf c <;> rfl
    · show Host.Outcome.next (s.mredArrives c bad) = _
      simp only [State.mredArrives, hin, List.find?_nil]
      cases s.launchOf c <;> rfl

end Sys2Proof.Machine
end

section
/-! PROOF. A host's answer to a snoop at a home that is dead (R304, R435), and O57. -/

namespace Sys2Proof.Machine
open Stmt

/-- A state in which the host holds line 0 modified and owes the answer to a snoop for it, while every die is dead: its lines are
quarantined. -/
def deadHome : State :=
  { State.reset with
    dies := Vector.replicate 8 { dead := true }
    dir := { lines := [(0, { st := .ho, host := true })], snoops := [{ line := 0, inval := true, port := 0 }] } }

/-- The bytes of the host's answer. -/
def dirtyLine : List Byte := List.replicate 64 1

/-- A quarantined line takes none of the bytes that the host returns. -/
theorem bytesAt_snoopAnswer_deadHome : (deadHome.snoopAnswer 0 (some dirtyLine)).bytesAt (range 0 64) ≠ dirtyLine := by decide

/-- Refutes O57: the host's answer to a snoop for a line that it holds modified is not stored where the line's home die is dead, since
an engine's write leaves out the bytes of a quarantined line, and the clause on BISNP_RESPONSE does not exclude one. -/
theorem not_homeEvents : ¬ Obligations.HomeEvents := by
  unfold Obligations.HomeEvents
  intro h
  obtain ⟨-, -, -, -, -, -, -, -, -, -, hsnoop, -⟩ := h
  obtain ⟨hfound, -⟩ := hsnoop deadHome 0 { line := 0, inval := true, port := 0 } (some dirtyLine)
  obtain ⟨t, hexec, -, -, -, hbytes⟩ := hfound rfl
  obtain rfl : deadHome.snoopAnswer 0 (some dirtyLine) = t := by injection hexec
  exact bytesAt_snoopAnswer_deadHome (hbytes dirtyLine rfl rfl rfl rfl (by decide))

end Sys2Proof.Machine
end

section
/-! PROOF. Starting, cutting and streaming a checkpoint (R439 to R441). -/

namespace Sys2Proof.Machine
open Stmt

/-! ## GO and the cut -/

theorem State.ckptGo_unprivileged {s : State} {mode : Mode} (pmask : Byte) (h : mode = .u ∨ mode = .h) : s.ckptGo mode pmask = s := by
  rcases h with rfl | rfl <;> rfl

/-- What GO refuses (R439). -/
def State.ckptRefuses (s : State) (pmask : Byte) : Prop :=
  s.ckpt.busy = true ∨ pmask = 0 ∨ 2 ^ partCount s.pm ≤ pmask.toNat ∨ wbits s.ckpt.dst 52 12 * 2 ^ 30 < ckptNeed s.pm pmask

theorem State.ckptGo_privileged {s : State} {mode : Mode} (pmask : Byte) (h : mode = .s ∨ mode = .m) :
    (s.ckptRefuses pmask → s.ckptGo mode pmask = { s with ckpt := { s.ckpt with pmask, err := true } }) ∧
    (¬ s.ckptRefuses pmask → s.ckptGo mode pmask = { s with ckpt := { s.ckpt with
      pmask, parts := pmask, busy := true, status := 0, cut := false, next := 0, sent := 0, off := 0, shadow := [], held := [] } }) := by
  have hpriv : privileged mode = true := by rcases h with rfl | rfl <;> rfl
  have hbad : (s.ckpt.busy || pmask == 0 || decide (2 ^ partCount s.pm ≤ pmask.toNat)
      || decide (wbits s.ckpt.dst 52 12 * 2 ^ 30 < ckptNeed s.pm pmask)) = true ↔ s.ckptRefuses pmask := by
    simp only [Bool.or_eq_true, beq_iff_eq, decide_eq_true_eq, or_assoc, State.ckptRefuses]
  unfold State.ckptGo
  rw [hpriv]
  dsimp only [Bool.not_true, Bool.false_eq_true, if_false]
  exact ⟨fun hr => by rw [if_neg (by simp), if_pos (hbad.2 hr)], fun hr => by rw [if_neg (by simp), if_neg fun hb => hr (hbad.1 hb)]⟩

theorem State.ckptCut_idle {s : State} (h : s.ckpt.busy = false ∨ s.ckpt.status ≠ 0) : s.ckptCut = s := by
  refine if_pos ?_
  rcases h with h | h
  · exact .inl (by rw [h]; rfl)
  · exact .inr (.inl h)

theorem State.ckptCut_due {s : State} (hbusy : s.ckpt.busy = true) (hstatus : s.ckpt.status = 0)
    (hlive : ∀ l ∈ s.launches, l.phase = .live → s.ckpt.parts.getLsbD l.part = false)
    (hheld : ∀ d < 8, s.ckptDie d = true → s.linkHeld d = false) :
    s.ckptCut = if !s.hostHas.isEmpty then s.sendSnoops s.hostHas false
      else { s.writeBack with ckpt := { s.writeBack.ckpt with status := 1, cut := true, cutTime := s.writeBack.stime, next := 0 } } := by
  refine if_neg ?_
  have hno : s.launches.any (fun l => l.phase == .live && s.ckpt.parts.getLsbD l.part) = false := by
    refine List.any_eq_false.2 fun l hl => ?_
    by_cases hp : l.phase = .live
    · rw [hlive l hl hp, Bool.and_false]; simp
    · simp [hp]
  have hfree : (List.range 8).any (fun d => s.ckptDie d && s.linkHeld d) = false := by
    refine List.any_eq_false.2 fun d hd => ?_
    cases hc : s.ckptDie d with
    | false => simp
    | true => simp [hheld d (List.mem_range.1 hd) hc]
  rw [hbusy, hno, hfree]
  simp [hstatus]

/-! ## The streamer -/

section
variable {s : State}

theorem State.streamPage_failed (hbusy : s.ckpt.busy = true) (hstatus : s.ckpt.status ≠ 0) :
    s.streamPage false = { s with ckpt := s.ckpt.failed } := by
  rw [State.streamPage, if_neg (by simp [hbusy, hstatus])]
  rfl

theorem State.streamPage_ok (hbusy : s.ckpt.busy = true) (hstatus : s.ckpt.status ≠ 0) : s.streamPage true = s.streamNext := by
  rw [State.streamPage, if_neg (by simp [hbusy, hstatus])]
  rfl

/-- The page's record leaves from the state in which its lines have been read. -/
theorem State.streamNext_page {pg : Nat} (hpg : s.nextPage = some pg) (hwait : s.pageWait pg = none) :
    s.streamNext = (s.pageTaken pg).sendRecord (s.pageRecord pg).1 (s.pageRecord pg).2 fun k =>
      { k with status := 2, next := pg + 1, sent := k.sent + 1, off := k.off + (s.pageRecord pg).1.length,
               shadow := k.shadow.filter fun e => e.1 != pg } := by
  rw [State.streamNext, hpg]
  dsimp only
  rw [hwait]

theorem State.streamNext_wait {pg : Nat} {t : State} (hpg : s.nextPage = some pg) (hwait : s.pageWait pg = some t) :
    s.streamNext = t := by
  rw [State.streamNext, hpg]
  dsimp only
  rw [hwait]

theorem State.streamNext_last (hpg : s.nextPage = none) :
    s.streamNext = s.sendRecord (padTo 64 (leBytes 8 s.ckpt.sent ++ leBytes 8 s.ckpt.cutTime)) [] fun k =>
      { k with busy := false, status := 3, cut := false, shadow := [] } := by
  rw [State.streamNext, hpg]

theorem State.pageTaken_ckpt (s : State) (pg : Nat) : (s.pageTaken pg).ckpt = s.ckpt := by
  unfold State.pageTaken
  split <;> rfl

section
variable {bs : List Byte} {bad : List Bool} {after : Ckpt → Ckpt}

theorem State.sendRecord_dead (h : s.dstDead (s.ckpt.lines bs.length) = true) : s.sendRecord bs bad after = { s with ckpt := s.ckpt.failed } :=
  if_pos h

theorem State.sendRecord_wait {t : State} (h : s.dstDead (s.ckpt.lines bs.length) = false) (hw : s.dstWait (s.ckpt.lines bs.length) = some t) :
    s.sendRecord bs bad after = t := by
  rw [State.sendRecord]
  dsimp only
  rw [h, hw]
  rfl

/-- A first write to a CUT page fills the shadow reserve alone (R440). -/
theorem State.keepCut_ckpt (s : State) (ks : List Nat) : ∃ shadow, (s.keepCut ks).ckpt = { s.ckpt with shadow } := by
  have hfold : ∀ (l : List Nat) (t : State), (∃ shadow, t.ckpt = { s.ckpt with shadow }) → ∃ shadow, (l.foldl (fun s pg =>
      if s.cutPage pg then
        { s with ckpt := { s.ckpt with shadow := s.ckpt.shadow ++
          [(pg, s.mem.slice (pg * 65536) 65536, s.tags.filter (fun t => t.1 / 2048 == pg),
            s.poison.filter (fun g => g / 2048 == pg))] } }
      else s) t).ckpt = { s.ckpt with shadow } := by
    intro l
    induction l with
    | nil => exact fun t ht => ht
    | cons pg rest ih =>
      rintro t ⟨shadow, ht⟩
      refine ih _ ?_
      dsimp only
      split
      · exact ⟨_, by rw [ht]⟩
      · exact ⟨shadow, ht⟩
  unfold State.keepCut
  split
  · exact hfold _ s ⟨_, rfl⟩
  · exact ⟨_, rfl⟩

theorem State.engineWrite_ckpt (s : State) (ks : List Nat) (bs : List Byte) (bad : List Bool) :
    ∃ shadow, (s.engineWrite ks bs bad).ckpt = { s.ckpt with shadow } := by
  obtain ⟨ls, cs, ps, -, h⟩ := s.engineWrite_eq ks bs bad
  rw [h]
  exact s.keepCut_ckpt ls

theorem State.dstWrite_ckpt (s : State) (ns : List Nat) (bs : List Byte) (bad : List Bool) :
    ∃ shadow, (s.dstWrite ns bs bad).ckpt = { s.ckpt with shadow } :=
  State.engineWrite_ckpt _ _ bs bad

theorem State.sendRecord_sent (h : s.dstDead (s.ckpt.lines bs.length) = false) (hw : s.dstWait (s.ckpt.lines bs.length) = none) :
    ∃ shadow, (s.sendRecord bs bad after).ckpt = after { s.ckpt with shadow } := by
  obtain ⟨shadow, hshadow⟩ := s.dstWrite_ckpt (s.ckpt.lines bs.length) bs bad
  refine ⟨shadow, ?_⟩
  rw [State.sendRecord]
  dsimp only
  rw [h, hw, ← hshadow]
  rfl

end

end

end Sys2Proof.Machine
end

section
/-! PROOF. Images, bring-up and the root firmware's registers (R442 to R448). -/

namespace Sys2Proof.Machine
open Stmt

/-! ## Memory across a cold reset -/

theorem Memory.get_of_above {m : Memory} {a : Nat} (h : ∀ p ∈ m, a < p.1) : Memory.get m a = 0 := by
  cases m with
  | nil => rfl
  | cons p rest =>
    obtain ⟨k, b⟩ := p
    have hk : a < k := h (k, b) List.mem_cons_self
    rw [Memory.get, if_neg (by omega), if_pos hk]

/-- An address whose entries a filter by address keeps reads as before. -/
theorem Memory.get_filter {m : Memory} {lo a : Nat} (keep : Nat → Bool) (hm : m.wfFrom lo = true) (ha : keep a = true) :
    Memory.get (m.filter fun p => keep p.1) a = Memory.get m a := by
  induction m generalizing lo with
  | nil => rfl
  | cons p rest ih =>
    obtain ⟨k, b⟩ := p
    obtain ⟨-, hrest⟩ := Memory.wfFrom_cons.1 hm
    have hih := ih hrest
    by_cases hk : k = a
    · subst hk
      simp [ha, Memory.get]
    · rw [List.filter_cons]
      by_cases hlt : a < k
      · have hzero : Memory.get rest a = 0 := Memory.get_below hrest (by omega)
        rw [hzero] at hih
        split <;> simp [Memory.get, hk, hlt, hih]
      · split <;> simp [Memory.get, hk, hlt, hih]

/-- Device memory reads zero after a cold reset (R446). -/
theorem State.cold_bytesAt_device (s : State) {k : Nat} (hk : k < 768 * 2 ^ 30) : s.cold.bytesAt [k] = [0] := by
  have habove : ∀ p ∈ s.cold.mem, k < p.1 := by
    intro p hp
    obtain ⟨-, hhost⟩ := List.mem_filter.1 hp
    rw [Bool.and_eq_true, decide_eq_true_eq, decide_eq_true_eq] at hhost
    have hbase : hostBase = 0x8000000000000 := rfl
    omega
  exact congrArg (fun b => [b]) (Memory.get_of_above habove)

/-- Host memory reads as before a cold reset (R446). -/
theorem State.cold_bytesAt_host {s : State} {k : Nat} (hwf : s.inv = true) (hlo : hostBase ≤ k) (hhi : k < headBase) :
    s.cold.bytesAt [k] = s.bytesAt [k] := by
  have hkeep : (decide (hostBase ≤ k) && decide (k < headBase)) = true := by
    rw [decide_eq_true hlo, decide_eq_true hhi]; rfl
  exact congrArg (fun b => [b]) (Memory.get_filter (fun k => decide (hostBase ≤ k) && decide (k < headBase)) hwf hkeep)

/-! ## Images -/

section
variable {f : Firmware} {i : FwImage}

theorem Firmware.boot_of_accepts (h : f.accepts i = true) : f.boot i =
    { (f.measure 0 i.root).measure 1 i.sched with image := some i, version := i.version.toNat, recovery := false, stopped := false } := by
  rw [Firmware.boot, if_pos h, Firmware.loadScheduler]
  exact if_pos h

theorem Firmware.boot_of_refused (h : f.accepts i = false) : f.boot i = f.recover := by
  rw [Firmware.boot, if_neg (by rw [h]; exact Bool.false_ne_true)]

theorem Firmware.loadScheduler_of_accepts (h : f.accepts i = true) : f.loadScheduler i =
    { f.measure 1 i.sched with image := some i, version := i.version.toNat, recovery := false, stopped := false } := if_pos h

theorem Firmware.loadScheduler_of_refused (h : f.accepts i = false) : f.loadScheduler i = f.recover :=
  if_neg (by rw [h]; exact Bool.false_ne_true)

theorem Firmware.loadScheduler_recovery (f : Firmware) (i : FwImage) : (f.loadScheduler i).recovery = false ↔ f.accepts i = true := by
  cases h : f.accepts i with
  | true => rw [Firmware.loadScheduler_of_accepts h]; simp
  | false => rw [Firmware.loadScheduler_of_refused h]; simp [Firmware.recover]

theorem Firmware.boot_recovery (f : Firmware) (i : FwImage) : (f.boot i).recovery = false ↔ f.accepts i = true := by
  cases h : f.accepts i with
  | true => rw [Firmware.boot_of_accepts h]; simp
  | false => rw [Firmware.boot_of_refused h]; simp [Firmware.recover]

/-- An extended measurement register, and the others. -/
theorem Firmware.measure_meas (f : Firmware) (k : Fin 4) (bs : List Byte) (j : Fin 4) :
    (f.measure k bs).meas[j] = if j = k then extended f.meas[k] (Sha.digest bs) else f.meas[j] := by
  rw [Firmware.measure]
  by_cases h : j = k
  · subst h
    rw [if_pos rfl]
    exact Vector.getElem_set_self ..
  · rw [if_neg h]
    exact Vector.getElem_set_ne k.isLt j.isLt fun hjk => h (Fin.ext hjk.symm)

theorem Firmware.boot_keeps (f : Firmware) (i : FwImage) :
    (f.boot i).fusedMin = f.fusedMin ∧ (f.boot i).repair = f.repair ∧ (f.boot i).meas[2] = f.meas[2] := by
  cases h : f.accepts i with
  | false => rw [Firmware.boot_of_refused h]; exact ⟨rfl, rfl, rfl⟩
  | true =>
    rw [Firmware.boot_of_accepts h]
    exact ⟨rfl, rfl, ((f.measure 0 i.root).measure_meas 1 i.sched 2).trans (f.measure_meas 0 i.root 2)⟩

theorem Firmware.accepts_of_ge (h : f.fusedMin ≤ i.version.toNat) :
    f.accepts i = Config.signatureOk (Sha.bytes (Sha.digest (headerOf i ++ i.root ++ i.sched))) i.sig := by
  rw [Firmware.accepts, decide_eq_true h, Bool.and_true]

theorem Firmware.accepts_of_lt (h : i.version.toNat < f.fusedMin) : f.accepts i = false := by
  rw [Firmware.accepts, decide_eq_false (Nat.not_le.2 h), Bool.and_false]

end

/-! ## Bring-up -/

theorem State.bringUp_frame (s : State) (img : Option FwImage) :
    s.bringUp img = { s.cold.measureConfig with firmware := (s.bringUp img).firmware } := by
  cases img <;> rfl

theorem State.bringUp_keeps (s : State) (img : Option FwImage) :
    (s.bringUp img).firmware.fusedMin = s.firmware.fusedMin ∧ (s.bringUp img).firmware.repair = s.firmware.repair ∧
      (s.bringUp img).firmware.meas[2] = s.cold.measureConfig.firmware.meas[2] := by
  cases img with
  | none => exact ⟨rfl, rfl, rfl⟩
  | some i => exact s.cold.measureConfig.firmware.boot_keeps i

theorem State.bringUp_meas (s : State) (img : Option FwImage) : (s.bringUp img).firmware.meas[2] = extended 0
    (Sha.digest (Config.configBytes (modeNumber (s.bringUp img).pm) (s.bringUp img).retiredCores (s.bringUp img).firmware.repair
      (s.bringUp img).firmware.fusedMin)) := by
  obtain ⟨hmin, hrepair, hmeas⟩ := s.bringUp_keeps img
  rw [hmeas, hmin, hrepair, s.bringUp_frame img]
  exact s.cold.firmware.measure_meas 2 _ 2

theorem State.bringUp_core (s : State) (img : Option FwImage) (c : CoreId) :
    (s.bringUp img).core c = { retired := (s.core c).retired } := by
  rw [s.bringUp_frame img]
  exact Vector.getElem_map ..

end Sys2Proof.Machine
end

section
/-! PROOF. What the end of a launch does to the list of launches and to the firmware (R447). -/

namespace Sys2Proof.Machine
open Stmt

/-! ## What a core's own work leaves alone -/

/-- The names and phases of the launches, and the firmware but for its count of refused writes. -/
def State.book (s : State) : List (Nat × Nat × LaunchPhase) × Firmware :=
  (s.launches.map fun l => (l.id, l.part, l.phase), { s.firmware with refused := 0 })

theorem foldl_book {α : Type} {f : State → α → State} (hf : ∀ s a, (f s a).book = s.book) (l : List α) (s : State) :
    (l.foldl f s).book = s.book := by
  induction l generalizing s with
  | nil => rfl
  | cons a l ih => rw [List.foldl_cons, ih, hf]

theorem State.book_of_eq {s t : State} (hl : t.launches = s.launches) (hf : t.firmware = s.firmware) : t.book = s.book := by
  rw [State.book, State.book, hl, hf]

theorem State.arrive_book (s : State) (f : From) (a : Acc) (r : Req) : (s.arrive f a r).book = s.book := by
  exact (congrArg State.book (s.arrive_frame f a r) :)

theorem State.demand_book {s t : State} {f : From} {a : Acc} {r : Req} (h : s.demand f a r = some t) : t.book = s.book :=
  (congrArg State.book (State.demand_frame h) :)

theorem State.write_book (s : State) (self : Option (Nat × Nat)) (ks : List Nat) (bs : List Byte) :
    (s.write self ks bs).book = s.book :=
  (congrArg State.book (s.write_frame self ks bs) :)

theorem State.modLaunch_book {s : State} {part id : Nat} {f : Launch → Launch}
    (hf : ∀ l, ((f l).id, (f l).part, (f l).phase) = (l.id, l.part, l.phase)) : (s.modLaunch part id f).book = s.book := by
  refine congrArg (·, _) ?_
  rw [State.modLaunch, List.map_map]
  refine List.map_congr_left fun l _ => ?_
  rw [Function.comp]
  split
  · exact hf l
  · rfl

theorem State.deadLetter_book (s : State) (c : CoreId) (m : Message) : (s.deadLetter c m).book = s.book := by
  have h : (s.freeSlot m).book = s.book := by
    unfold State.freeSlot
    dsimp only
    split <;> rfl
  exact h

theorem State.dropInbox_book (s : State) (c : CoreId) (k : SlotId) : (s.dropInbox c k).book = s.book := by
  have hstep (u : State) (p : Fin 16 × Message) : (u.deadLetter c p.2).book = u.book := u.deadLetter_book c p.2
  have hall := foldl_book hstep
  unfold State.dropInbox
  dsimp only
  generalize (s.core c).inbox.partition (fun p => p.2.slot == k) = p
  have hkept : (s.modCore c fun x => { x with inbox := p.2 }).book = s.book := rfl
  generalize (s.modCore c fun x => { x with inbox := p.2 }) = u at hkept ⊢
  exact (hall p.1 u).trans hkept

theorem State.endCtx_book (s : State) (c : CoreId) (k : SlotId) : (s.endCtx c k).book = s.book := by
  rw [State.endCtx_eq]
  exact s.dropInbox_book c k

theorem State.putRecord_book (s : State) (a : Acc) (r : List Byte) : (s.putRecord a r).book = s.book :=
  (State.write_book _ none a.keys r).trans (s.arrive_book ..)

theorem State.fatalCounted_book (s : State) : s.fatalCounted.book = s.book := by
  unfold State.fatalCounted
  split
  · exact State.modLaunch_book fun _ => rfl
  · rfl

theorem State.recorded_book (s : State) (r : List Byte) (block : Option Acc) : (s.recorded r block).book = s.book :=
  (congrArg State.book (s.recorded_frame r block) :)

theorem State.fatalTrap_book (s : State) (t : TrapInfo) (pc : Word) (block : Option Acc) :
    (s.fatalTrap t pc block).book = s.book := by
  rw [State.fatalTrap_eq]
  dsimp only
  rw [State.endCtx_book, State.fatalCounted_book]
  exact s.recorded_book _ block

theorem State.unhandled_book (s : State) (t : TrapInfo) (pc : Word) (block : Option Acc) : (s.unhandled t pc block).book = s.book := by
  unfold State.unhandled
  split
  · rfl
  · exact s.fatalTrap_book t pc block

theorem State.enterHandler_book (s : State) (t : TrapInfo) (pc : Word) (a : Acc) : (s.enterHandler t pc a).book = s.book :=
  s.putRecord_book a (trapRecord s t false pc)

theorem State.takeTrap_book (s : State) (t : TrapInfo) : (s.takeTrap t).book = s.book := by
  unfold State.takeTrap
  dsimp only
  split
  · rfl
  · exact s.unhandled_book ..
  · split
    case _ s' hd => exact (show (s'.holdTrap t).book = s'.book from rfl).trans (State.demand_book hd)
    · split
      · exact s.unhandled_book ..
      · exact s.enterHandler_book ..

/-! ## The vector queues of a launch that ends -/

theorem State.headTaken_book (s : State) (r : HeadReg) : (s.headTaken r).book = s.book := by
  cases r <;> rfl

theorem State.writeCkptCtl_book (s : State) (mode : Mode) (v : Word) : (s.writeCkptCtl mode v).book = s.book := by
  unfold State.writeCkptCtl
  dsimp only
  split
  · unfold State.ckptGo
    split <;> rfl
  · rfl

theorem State.writeCkptDst_book (s : State) (mode : Mode) (v : Word) : (s.writeCkptDst mode v).book = s.book := by
  cases mode <;> rfl

theorem State.headPut_book (s : State) (r : HeadReg) (mode : Mode) (v : Word) : (s.headPut r mode v).book = s.book := by
  cases r with
  | freq d => rfl
  | link d => rfl
  | ras d => rfl
  | ckptCtl => exact s.writeCkptCtl_book mode v
  | ckptDst => exact s.writeCkptDst_book mode v

theorem State.writeAcc_book (s : State) (a : Acc) (n v : Nat) : (s.writeAcc a n v).book = s.book := by
  unfold State.writeAcc
  split
  · rfl
  · split
    · exact s.headPut_book ..
    · rfl
  · exact s.write_book ..

theorem State.tookAcc_book (s : State) (a : Acc) (n : Nat) : (s.tookAcc a n).book = s.book := by
  unfold State.tookAcc
  split
  · exact s.headTaken_book _
  · rfl

theorem State.vtransfer_book (s : State) (o : VOp) (p : VPlace) : (s.vtransfer o p).book = s.book := by
  have harrive := s.arrive_book (From.ofCore s.cur) p.acc o.op.req
  unfold State.vtransfer
  dsimp only
  split
  · exact (State.writeAcc_book ..).trans harrive
  · exact (State.tookAcc_book ..).trans harrive

theorem State.vmemory_book (s : State) (o : VOp) (rest : List VOp) : (s.vmemory o rest).book = s.book := by
  unfold State.vmemory
  dsimp only
  split
  · refine foldl_book (fun t p => ?_) _ _
    cases hd : t.demand (From.ofCore t.cur) p.acc o.op.req with
    | none => rfl
    | some u => exact State.demand_book hd
  · split
    · exact (State.takeTrap_book ..).trans (foldl_book (fun t p => t.arrive_book ..) _ _)
    · exact (foldl_book (fun t p => t.vtransfer_book o p) _ _)

theorem State.countAll_book (s : State) (c : CoreId) (ks : List Nat) : (s.countAll c ks).book = s.book := by
  unfold State.countAll
  split <;> rfl

theorem State.vserve_book (s : State) : s.vserve.book = s.book := by
  unfold State.vserve
  split
  · rfl
  · split
    · exact s.vmemory_book ..
    · dsimp only
      split
      · exact State.countAll_book ..
      · exact State.countAll_book ..

theorem State.endVectors_book (s : State) (fuel : Nat) : (s.endVectors fuel).book = s.book := by
  induction fuel generalizing s with
  | zero => rfl
  | succ fuel ih =>
    unfold State.endVectors
    split
    · rfl
    · split
      · exact ih _
      · exact (ih _).trans s.vserve_book

theorem State.endIssued_book (s : State) (cores : List Nat) : (s.endIssued cores).book = s.book := by
  refine foldl_book (fun t c => ?_) cores s
  generalize hu : List.foldl _ t (List.finRange 11) = u
  have hbook : u.book = t.book := by
    rw [← hu]
    refine foldl_book (fun t k => ?_) (List.finRange 11) t
    exact (t.focus (coreOf c) k).endVectors_book _
  exact hbook

/-! ## The end of a launch -/

theorem State.flushAsyncs_book (s : State) (part id : Nat) : (s.flushAsyncs part id).book = s.book := by
  refine foldl_book (fun t a => ?_) _ _
  split <;> rfl

theorem State.demoteTiles_book (s : State) (l : Launch) : (s.demoteTiles l).book = s.book := rfl

theorem State.dropLinks_book (s : State) (cores : List Nat) : (s.dropLinks cores).book = s.book := rfl

theorem State.refreshDue_book (s : State) : s.refreshDue.book = s.book := by
  refine congrArg (·, _) ?_
  rw [State.refreshDue, List.map_map]
  refine List.map_congr_left fun l _ => ?_
  rw [Function.comp]
  split <;> rfl

theorem State.report_book (s : State) (q : Nat) (r : CqRec) : (s.report q r).book = s.book := by
  unfold State.report State.modQueue
  split <;> rfl

/-- A launch that ends leaves the list, and the firmware keeps its count at most. -/
theorem State.endLaunch_book (s : State) (l : Launch) (status : Nat) :
    (s.endLaunch l status).book = (s.book.1.filter fun x => !(x.1 == l.id && x.2.1 == l.part), s.book.2) := by
  unfold State.endLaunch
  rw [State.refreshDue_book, State.report_book]
  generalize hu : List.foldl _ _ _ = u
  have hbook : u.book = s.book := by
    rw [← hu]
    refine (foldl_book ?_ _ _).trans ?_
    · exact fun t c => rfl
    rw [State.demoteTiles_book, State.dropLinks_book, State.endIssued_book, State.flushAsyncs_book]
  rw [← hbook]
  exact congrArg (·, _) (List.filter_map (l := u.launches) (f := fun l => (l.id, l.part, l.phase))
    (p := fun x => !(x.1 == l.id && x.2.1 == l.part))).symm

theorem State.endLaunches_book (ls : List Launch) (status : Nat) (s : State) :
    (ls.foldl (fun s l => s.endLaunch l status) s).book =
      (s.book.1.filter fun x => ls.all fun l => !(x.1 == l.id && x.2.1 == l.part), s.book.2) := by
  induction ls generalizing s with
  | nil => rw [List.foldl_nil]; simp
  | cons l ls ih =>
    rw [List.foldl_cons, ih, State.endLaunch_book]
    simp [List.filter_filter, Bool.and_comm]

/-! ## Mode S traps (R447) -/

/-- The launches that have been bound. -/
def State.boundLaunches (s : State) : List Launch := s.launches.filter fun l => l.phase != .due

theorem State.modeSTrap_stopped {s : State} (img : FwImage) (h : s.firmware.stopped = true ∨ s.firmware.recovery = true) :
    s.modeSTrap img = s := by
  refine if_pos ?_
  rw [Bool.or_eq_true]
  exact h

/-- Whether an image is accepted depends on the fused minimum alone. -/
theorem Firmware.accepts_congr {f g : Firmware} (h : f.fusedMin = g.fusedMin) (i : FwImage) : f.accepts i = g.accepts i := by
  rw [Firmware.accepts, Firmware.accepts, h]

/-- The state of a trap of mode S: every bound launch has ended, and the scheduler part is loaded again. -/
theorem State.modeSTrap_running {s : State} (img : FwImage) (hstop : s.firmware.stopped = false) (hrec : s.firmware.recovery = false) :
    ∃ u : State, u.book = (s.boundLaunches.foldl (fun s l => s.endLaunch l 3) s).book ∧
      s.modeSTrap img = { u with firmware := { u.firmware with stopped := true }.loadScheduler (s.firmware.image.getD img) } := by
  refine ⟨_, rfl, ?_⟩
  have hstored : s.firmware.stored = s.firmware.image := by rw [Firmware.stored, if_neg (by rw [hrec]; exact Bool.false_ne_true)]
  rw [State.modeSTrap, hstop, hrec, hstored]
  rfl

/-- Only launches that are not bound outlive the end of those that are. -/
theorem State.phase_of_endLaunches {s u : State} {status : Nat}
    (h : u.book = (s.boundLaunches.foldl (fun s l => s.endLaunch l status) s).book) : ∀ l ∈ u.launches, l.phase = .due := by
  rw [State.endLaunches_book] at h
  have hnames : u.launches.map (fun l => (l.id, l.part, l.phase)) =
      (s.launches.map fun l => (l.id, l.part, l.phase)).filter fun x => s.boundLaunches.all fun l => !(x.1 == l.id && x.2.1 == l.part) :=
    congrArg Prod.fst h
  intro l hl
  have hmem : (l.id, l.part, l.phase) ∈ u.launches.map fun l => (l.id, l.part, l.phase) := List.mem_map_of_mem hl
  rw [hnames, List.mem_filter] at hmem
  obtain ⟨hold, hkept⟩ := hmem
  obtain ⟨l0, hl0, heq⟩ := List.mem_map.1 hold
  obtain ⟨hid, hpart, hphase⟩ : l0.id = l.id ∧ l0.part = l.part ∧ l0.phase = l.phase := by simpa using heq
  by_contra hne
  have hbound : l0 ∈ s.boundLaunches := List.mem_filter.2 ⟨hl0, by rw [hphase]; simpa using hne⟩
  have := List.all_eq_true.1 hkept l0 hbound
  simp [hid, hpart] at this

theorem State.firmware_of_endLaunches {s u : State} {status : Nat}
    (h : u.book = (s.boundLaunches.foldl (fun s l => s.endLaunch l status) s).book) :
    u.firmware.fusedMin = s.firmware.fusedMin ∧ u.firmware.meas = s.firmware.meas := by
  rw [State.endLaunches_book] at h
  have hfirm : ({ u.firmware with refused := 0 } : Firmware) = { s.firmware with refused := 0 } := congrArg Prod.snd h
  have hmin := congrArg Firmware.fusedMin hfirm
  have hmeas := congrArg Firmware.meas hfirm
  exact ⟨hmin, hmeas⟩

theorem State.modeSTrap_spec {s : State} (img : FwImage) (hstop : s.firmware.stopped = false) (hrec : s.firmware.recovery = false) :
    (∀ l ∈ (s.modeSTrap img).launches, l.phase = .due) ∧
      ((s.modeSTrap img).firmware.stopped = true ↔ s.firmware.accepts (s.firmware.image.getD img) = false) ∧
      (s.firmware.accepts (s.firmware.image.getD img) = true → (s.modeSTrap img).firmware.meas[1] =
        extended s.firmware.meas[1] (Sha.digest (s.firmware.image.getD img).sched)) := by
  obtain ⟨u, hu, heq⟩ := State.modeSTrap_running img hstop hrec
  obtain ⟨hmin, hmeas⟩ := State.firmware_of_endLaunches hu
  have hacc := Firmware.accepts_congr (f := { u.firmware with stopped := true }) (g := s.firmware) hmin (s.firmware.image.getD img)
  have hphase := State.phase_of_endLaunches hu
  rw [heq]
  refine ⟨hphase, ?_, fun ha => ?_⟩
  · dsimp only
    cases ha : s.firmware.accepts (s.firmware.image.getD img) with
    | true => rw [Firmware.loadScheduler_of_accepts (hacc.trans ha)]; simp
    | false => rw [Firmware.loadScheduler_of_refused (hacc.trans ha)]; simp [Firmware.recover]
  · dsimp only
    rw [Firmware.loadScheduler_of_accepts (hacc.trans ha), ← hmeas]
    exact Firmware.measure_meas _ 1 _ 1

end Sys2Proof.Machine
end

section
/-! PROOF. The root firmware's registers and the module (R352, R438, R442 to R445, R448), and O60. -/

namespace Sys2Proof.Machine
open Stmt

/-- MEAS.2 takes the configuration, and nothing else changes. -/
theorem State.measureConfig_meas (s : State) : s.measureConfig.firmware.meas[2] = extended s.firmware.meas[2]
    (Sha.digest (Config.configBytes (modeNumber s.pm) s.retiredCores s.firmware.repair s.firmware.fusedMin)) :=
  s.firmware.measure_meas 2 _ 2

/-! ## Translation roots -/

section
variable {s : State} {space p root : Nat}

theorem State.setRoot_of_aligned (hroot : root % 131072 = 0) (hp : p < partCount s.pm) (hfit : root + 131072 ≤ partSize s.pm) :
    s.setRoot space p root = if s.rootLocked space p then
        { s with firmware := { s.firmware with refused := s.firmware.refused + 1 } }
      else { s with firmware := { s.firmware.measure 3 (Config.rootBytes space p root) with
        roots := (space, p, root) :: s.firmware.roots.filter fun r => !(r.1 == space && r.2.1 == p) } } :=
  if_neg (by rintro (h | h | h) <;> omega)

theorem State.rootLocked_iff : s.rootLocked space p = true ↔ ∃ l ∈ s.launches, l.space = space ∧ l.part = p ∧ l.phase ≠ .due := by
  simp [State.rootLocked, and_assoc]

/-- The root of a space in a table whose head is a space's new root. -/
theorem find_root (roots : List (Nat × Nat × Nat)) (space' p' : Nat) :
    (((space, p, root) :: roots.filter fun r => !(r.1 == space && r.2.1 == p)).find? fun r => r.1 == space' && r.2.1 == p') =
      if (space', p') = (space, p) then some (space, p, root) else roots.find? fun r => r.1 == space' && r.2.1 == p' := by
  by_cases h : (space', p') = (space, p)
  · obtain ⟨rfl, rfl⟩ := Prod.mk.inj h
    simp
  · rw [if_neg h]
    have hhead : (space == space' && p == p') = false := by
      rw [Bool.eq_false_iff]
      intro hb
      obtain ⟨h1, h2⟩ := Bool.and_eq_true_iff.1 hb
      exact h (Prod.ext (beq_iff_eq.1 h1).symm (beq_iff_eq.1 h2).symm)
    rw [List.find?_cons, hhead, List.find?_filter]
    refine congrArg (roots.find? ·) (funext fun r => ?_)
    by_cases hr : (r.1 == space' && r.2.1 == p') = true
    · obtain ⟨h1, h2⟩ := Bool.and_eq_true_iff.1 hr
      obtain rfl := beq_iff_eq.1 h1
      obtain rfl := beq_iff_eq.1 h2
      have : (r.1 == space && r.2.1 == p) = false := by
        rw [Bool.eq_false_iff]
        intro hb
        obtain ⟨h1, h2⟩ := Bool.and_eq_true_iff.1 hb
        exact h (Prod.ext (beq_iff_eq.1 h1) (beq_iff_eq.1 h2))
      simp [this]
    · rw [Bool.not_eq_true] at hr
      simp [hr]

theorem State.setRoot_unlocked (hroot : root % 131072 = 0) (hp : p < partCount s.pm) (hfit : root + 131072 ≤ partSize s.pm)
    (hdue : ∀ l ∈ s.launches, l.space = space → l.part = p → l.phase = .due) :
    (s.setRoot space p root).rootOf space p = some root ∧ (s.setRoot space p root).mem = s.mem ∧
      (s.setRoot space p root).firmware.meas[3] = extended s.firmware.meas[3] (Sha.digest (Config.rootBytes space p root)) ∧
      ∀ space' p', (space', p') ≠ (space, p) → (s.setRoot space p root).rootOf space' p' = s.rootOf space' p' := by
  have hfree : ¬ s.rootLocked space p = true := by
    rw [State.rootLocked_iff]
    rintro ⟨l, hl, hspace, hpart, hphase⟩
    exact hphase (hdue l hl hspace hpart)
  rw [State.setRoot_of_aligned hroot hp hfit, if_neg hfree]
  refine ⟨?_, rfl, s.firmware.measure_meas 3 _ 3, fun space' p' hne => ?_⟩
  · rw [State.rootOf]
    dsimp only
    rw [find_root, if_pos rfl]
    rfl
  · rw [State.rootOf]
    dsimp only
    rw [find_root, if_neg hne]
    rfl

end

/-! ## Cores, the partition mode, heat -/

theorem State.retireCore_spec (s : State) (c : CoreId) :
    let t := (s.modCore c fun x => { x with retired := true }).measureConfig
    (t.core c).retired = true ∧ (∀ c', c' ≠ c → t.core c' = s.core c') ∧
      t.firmware.meas[2] = extended s.firmware.meas[2] (Sha.digest (Config.configBytes (modeNumber s.pm) t.retiredCores
        s.firmware.repair s.firmware.fusedMin)) := by
  intro t
  refine ⟨?_, fun c' hc => s.core_modCore_ne (fun x => { x with retired := true }) hc, (s.modCore c fun x => { x with retired := true }).measureConfig_meas⟩
  exact congrArg Core.retired (s.core_modCore c fun x => { x with retired := true })

/-- A host line that returns leaves the cores, the partition mode and the firmware. -/
theorem State.returnHosts_frame (l : List (Nat × HostSt)) (s : State) :
    let t := l.foldl (fun s p => s.returnHost p.1) s
    t.mem = s.mem ∧ t.cores = s.cores ∧ t.firmware = s.firmware := by
  induction l generalizing s with
  | nil => exact ⟨rfl, rfl, rfl⟩
  | cons p l ih =>
    have hone : (s.returnHost p.1).mem = s.mem ∧ (s.returnHost p.1).cores = s.cores ∧ (s.returnHost p.1).firmware = s.firmware := by
      unfold State.returnHost State.snoopData
      split
      · exact ⟨rfl, rfl, rfl⟩
      · split <;> exact ⟨rfl, rfl, rfl⟩
    obtain ⟨hm, hc, hf⟩ := hone
    obtain ⟨hm', hc', hf'⟩ := ih (s.returnHost p.1)
    exact ⟨hm'.trans hm, hc'.trans hc, hf'.trans hf⟩

theorem State.retiredCores_congr {s t : State} (h : t.cores = s.cores) : t.retiredCores = s.retiredCores := by
  rw [State.retiredCores, h]; rfl

theorem State.setMode_idle {s : State} (pm : PartMode) (h : ∀ l ∈ s.launches, l.phase ≠ .live) :
    (s.setMode pm).pm = pm ∧ (s.setMode pm).dir = {} ∧ (s.setMode pm).sower = {} ∧ (s.setMode pm).mem = s.mem ∧
      (s.setMode pm).firmware.meas[2] = extended s.firmware.meas[2] (Sha.digest (Config.configBytes (modeNumber pm) s.retiredCores
        s.firmware.repair s.firmware.fusedMin)) := by
  obtain ⟨hmem, hcores, hfirm⟩ := State.returnHosts_frame s.dir.hosts s
  have hall : s.launches.all (·.phase != .live) = true := List.all_eq_true.2 fun l hl => by simpa using h l hl
  rw [State.setMode, if_pos hall]
  generalize s.dir.hosts.foldl (fun s p => s.returnHost p.1) s = u at hmem hcores hfirm
  refine ⟨rfl, rfl, rfl, hmem, ?_⟩
  rw [State.measureConfig_meas, ← hfirm, ← State.retiredCores_congr hcores]
  rfl

theorem DieState.throttle_cool_tgt (x : DieState) :
    (x.throttle false).tgt = if x.tgt < x.wantTgt then min x.wantTgt (x.tgt + 5) else x.tgt := by
  rw [DieState.throttle, if_neg Bool.false_ne_true]
  split <;> rfl

/-- The checkpoint's GO. -/
theorem exec_ckptGo (s : State) (mode : Mode) (pmask : Byte) :
    (mode = .u ∨ mode = .h → exec (.ckptGo mode pmask) s = .next s) ∧
    (mode = .s ∨ mode = .m → ∃ t, exec (.ckptGo mode pmask) s = .next t ∧ t.mem = s.mem ∧
      ((s.ckpt.busy = false ∧ pmask ≠ 0 ∧ pmask.toNat < 2 ^ partCount s.pm ∧
          ckptNeed s.pm pmask ≤ wbits s.ckpt.dst 52 12 * 2 ^ 30) →
        t.ckpt.busy = true ∧ t.ckpt.pmask = pmask ∧ t.ckpt.parts = pmask ∧ t.ckpt.status = 0 ∧ t.ckpt.cut = false ∧ t.ckpt.err = s.ckpt.err) ∧
      (s.ckptRefuses pmask →
        t.ckpt.err = true ∧ t.ckpt.busy = s.ckpt.busy ∧ t.ckpt.pmask = pmask ∧ t.ckpt.parts = s.ckpt.parts)) := by
  refine ⟨fun h => congrArg Host.Outcome.next (State.ckptGo_unprivileged pmask h), fun h => ⟨_, rfl, ?_⟩⟩
  obtain ⟨hrefused, htaken⟩ := State.ckptGo_privileged (s := s) pmask h
  by_cases hr : s.ckptRefuses pmask
  · rw [hrefused hr]
    refine ⟨rfl, fun ⟨hbusy, hmask, hparts, hfit⟩ => ?_, fun _ => ⟨rfl, rfl, rfl, rfl⟩⟩
    rcases hr with hr | hr | hr | hr
    · rw [hbusy] at hr; cases hr
    · exact absurd hr hmask
    · exact absurd hparts (Nat.not_lt.2 hr)
    · exact absurd hfit (Nat.not_le.2 hr)
  · rw [htaken hr]
    exact ⟨rfl, fun _ => ⟨rfl, rfl, rfl, rfl, rfl, rfl⟩, fun h => absurd h hr⟩

theorem exec_streamPage (s : State) (hbusy : s.ckpt.busy = true) (hstatus : s.ckpt.status ≠ 0) :
    (∃ t, exec (.streamPage false) s = .next t ∧ t.ckpt.busy = false ∧ t.ckpt.err = true ∧ t.mem = s.mem) ∧
    (∀ pg, s.nextPage = some pg →
      (∀ t, s.pageWait pg = some t → exec (.streamPage true) s = .next t) ∧
      (s.pageWait pg = none →
        let ns := s.ckpt.lines (s.pageRecord pg).1.length
        let u := s.pageTaken pg
        (u.dstDead ns = true → ∃ t, exec (.streamPage true) s = .next t ∧ t.ckpt.busy = false ∧ t.ckpt.err = true ∧ t.mem = s.mem) ∧
        (u.dstDead ns = false → (∀ t, u.dstWait ns = some t → exec (.streamPage true) s = .next t) ∧
          (u.dstWait ns = none → ∃ t, exec (.streamPage true) s = .next t ∧ t.ckpt.next = pg + 1 ∧
            t.ckpt.sent = s.ckpt.sent + 1 ∧ t.ckpt.off = s.ckpt.off + (s.pageRecord pg).1.length ∧ t.ckpt.busy = true)))) ∧
    (s.nextPage = none →
      let ns := s.ckpt.lines (padTo 64 (leBytes 8 s.ckpt.sent ++ leBytes 8 s.ckpt.cutTime)).length
      s.dstDead ns = false → s.dstWait ns = none →
        ∃ t, exec (.streamPage true) s = .next t ∧ t.ckpt.busy = false ∧ t.ckpt.status = 3 ∧ t.ckpt.cut = false) := by
  have hok : exec (.streamPage true) s = .next s.streamNext := congrArg Host.Outcome.next (State.streamPage_ok hbusy hstatus)
  have hfail : exec (.streamPage false) s = .next { s with ckpt := s.ckpt.failed } := congrArg Host.Outcome.next (State.streamPage_failed hbusy hstatus)
  rw [hok]
  refine ⟨⟨_, hfail, rfl, rfl, rfl⟩, fun pg hpg => ⟨fun t hwait => congrArg Host.Outcome.next (State.streamNext_wait hpg hwait), fun hwait => ?_⟩,
    fun hlast => ?_⟩
  · intro ns u
    have hns : u.ckpt.lines (s.pageRecord pg).1.length = ns := by rw [s.pageTaken_ckpt pg]
    rw [State.streamNext_page hpg hwait]
    refine ⟨fun hdead => ⟨_, rfl, ?_⟩, fun hdead => ⟨fun t hw => congrArg Host.Outcome.next (State.sendRecord_wait (hns ▸ hdead) (hns ▸ hw)),
      fun hw => ⟨_, rfl, ?_⟩⟩⟩
    · rw [State.sendRecord_dead (hns ▸ hdead)]
      exact ⟨rfl, rfl, s.pageTaken_mem pg⟩
    · obtain ⟨shadow, hshadow⟩ := State.sendRecord_sent (bad := (s.pageRecord pg).2) (after := fun k =>
        { k with status := 2, next := pg + 1, sent := k.sent + 1, off := k.off + (s.pageRecord pg).1.length,
                 shadow := k.shadow.filter fun e => e.1 != pg }) (hns ▸ hdead) (hns ▸ hw)
      rw [hshadow, s.pageTaken_ckpt pg]
      exact ⟨rfl, rfl, rfl, hbusy⟩
  · intro ns hdead hw
    rw [State.streamNext_last hlast]
    obtain ⟨shadow, hshadow⟩ := State.sendRecord_sent (bad := []) (after := fun k =>
      { k with busy := false, status := 3, cut := false, shadow := [] }) hdead hw
    refine ⟨_, rfl, ?_⟩
    rw [hshadow]
    exact ⟨rfl, rfl, rfl⟩

/-- What bring-up leaves, from whatever image (R443, R446). -/
theorem bringUp_spec (s : State) (img : Option FwImage) :
    (s.bringUp img).powered = true ∧ (s.bringUp img).launches = [] ∧ (s.bringUp img).firmware.fusedMin = s.firmware.fusedMin ∧
    (∀ c, ((s.bringUp img).core c).retired = (s.core c).retired ∧ ((s.bringUp img).core c).launch = none) ∧
    (∀ k, k < 768 * 2 ^ 30 → (s.bringUp img).bytesAt [k] = [0]) ∧
    (s.inv = true → ∀ k, hostBase ≤ k → k < headBase → (s.bringUp img).bytesAt [k] = s.bytesAt [k]) := by
  have hmem : (s.bringUp img).mem = s.cold.mem := by rw [s.bringUp_frame img]; rfl
  refine ⟨by rw [s.bringUp_frame img]; rfl, by rw [s.bringUp_frame img]; rfl, (s.bringUp_keeps img).1, fun c => ?_, fun k hk => ?_,
    fun hwf k hlo hhi => ?_⟩
  · rw [s.bringUp_core img c]
    exact ⟨rfl, rfl⟩
  · rw [State.bytesAt_of_mem_eq hmem]
    exact s.cold_bytesAt_device hk
  · rw [State.bytesAt_of_mem_eq hmem]
    exact State.cold_bytesAt_host hwf hlo hhi

/-- What an image leaves that bring-up has met (R443, R444). -/
theorem bringUp_image (s : State) (i : FwImage) (hmin : s.firmware.fusedMin ≤ i.version.toNat) :
    let t := s.bringUp (some i)
    let ok := Config.signatureOk (Sha.bytes (Sha.digest (headerOf i ++ i.root ++ i.sched))) i.sig
    (ok = true → t.firmware.meas[0] = extended 0 (Sha.digest i.root) ∧ t.firmware.meas[1] = extended 0 (Sha.digest i.sched)) ∧
      t.firmware.recovery = !ok ∧ t.firmware.stopped = !ok ∧ t.firmware.image = (if ok = true then some i else none) ∧
      t.firmware.version = if ok = true then i.version.toNat else 0 := by
  intro t ok
  let f := s.cold.measureConfig.firmware
  have hacc : f.accepts i = ok := Firmware.accepts_of_ge hmin
  have ht : t.firmware = f.boot i := rfl
  rw [ht]
  cases hok : ok with
  | false =>
    rw [Firmware.boot_of_refused (hacc.trans hok)]
    exact ⟨fun h => absurd h Bool.false_ne_true, rfl, rfl, rfl, rfl⟩
  | true =>
    have hmeas (k : Fin 4) (hk : k ≠ 2) : f.meas[k] = 0 := by
      refine (s.cold.firmware.measure_meas 2 _ k).trans ((if_neg hk).trans ?_)
      exact Vector.getElem_replicate ..
    rw [Firmware.boot_of_accepts (hacc.trans hok)]
    refine ⟨fun _ => ⟨?_, ?_⟩, rfl, rfl, rfl, rfl⟩
    · refine ((f.measure 0 i.root).measure_meas 1 i.sched 0).trans ((f.measure_meas 0 i.root 0).trans ?_)
      rw [if_pos rfl, hmeas 0 (by decide)]
    · refine ((f.measure 0 i.root).measure_meas 1 i.sched 1).trans ?_
      rw [if_pos rfl, f.measure_meas 0 i.root 1, if_neg (by decide), hmeas 1 (by decide)]

/-- An image supplied in recovery. -/
theorem exec_imageSupply {s : State} (img : FwImage) (hrec : s.firmware.recovery = true) :
    (s.firmware.image = none → exec (.imageSupply img) s = exec (.powerGood (some img)) s) ∧
      ∃ t, exec (.imageSupply img) s = .next t ∧ (t.firmware.recovery = false ↔ s.firmware.accepts img = true) ∧
        (s.firmware.image.isSome → t.launches = s.launches ∧ t.mem = s.mem) := by
  have hsupply : s.supplyImage img = if s.firmware.image.isNone then s.bringUp (some img)
      else { s with firmware := s.firmware.loadScheduler img } := if_neg (by rw [hrec]; exact Bool.false_ne_true)
  cases himg : s.firmware.image with
  | none =>
    have hboot : s.supplyImage img = s.bringUp (some img) := hsupply.trans (if_pos (by rw [himg]; rfl))
    refine ⟨fun _ => congrArg Host.Outcome.next hboot, _, rfl, ?_, fun h => absurd h Bool.false_ne_true⟩
    rw [hboot]
    exact Firmware.boot_recovery _ img
  | some i =>
    have hload : s.supplyImage img = { s with firmware := s.firmware.loadScheduler img } :=
      hsupply.trans (if_neg (by rw [himg]; exact Bool.false_ne_true))
    refine ⟨fun h => absurd h (Option.some_ne_none i), _, rfl, ?_, fun _ => ?_⟩
    · rw [hload]
      exact Firmware.loadScheduler_recovery _ img
    · rw [hload]
      exact ⟨rfl, rfl⟩

/-- Settles O60: the checkpoint's steps, bring-up and its images, and the registers of the root firmware, one after another. -/
theorem checkpointAndFirmwareEvents : Obligations.CheckpointAndFirmwareEvents := by
  unfold Obligations.CheckpointAndFirmwareEvents
  refine ⟨exec_ckptGo, fun s => ⟨fun hbusy hstatus hlive hheld => ?cut, fun h => congrArg Host.Outcome.next (State.ckptCut_idle h)⟩,
    exec_streamPage, fun s img => ?power, fun s img => ⟨fun h => congrArg Host.Outcome.next (State.modeSTrap_stopped img h),
      fun hstop hrec => ⟨_, rfl, State.modeSTrap_spec img hstop hrec⟩⟩,
    fun s img => ⟨fun h => congrArg Host.Outcome.next (if_pos (by rw [h]; rfl)), exec_imageSupply img⟩, fun s => ⟨fun h => ?keep, fun h => ?raise⟩,
    fun s nonce => ⟨fun h => congrArg Host.Outcome.next (if_pos (.inl h)), fun h hrun => congrArg Host.Outcome.next (if_neg ?attest)⟩,
    fun s space p root hroot hp hfit => ⟨fun h => ?locked, fun h => ⟨_, rfl, State.setRoot_unlocked hroot hp hfit h⟩⟩,
    fun s c => ⟨_, rfl, rfl, s.retireCore_spec c⟩, fun s pm => ⟨fun h => ?live, fun h => ⟨_, rfl, State.setMode_idle pm h⟩⟩,
    fun s d => ⟨_, _, rfl, rfl, ?hot, ?cool⟩, fun s => rfl⟩
  case cut =>
    have hcut := State.ckptCut_due hbusy hstatus hlive hheld
    refine ⟨fun hhas => ?_, fun hhas => ⟨_, rfl, ?_⟩⟩
    · exact congrArg Host.Outcome.next (hcut.trans (if_pos (by simpa using hhas)))
    · rw [hcut, if_neg (by rw [hhas]; simp)]
      exact ⟨rfl, rfl, rfl, rfl⟩
  case power =>
    obtain ⟨hpow, hlaunches, hmin, hcores, hdev, hhost⟩ := bringUp_spec s (match img with | some i => some i | none => s.firmware.stored)
    refine ⟨_, rfl, hpow, hlaunches, hmin, hcores, fun h => by subst h; rfl, fun i hi hle => ?_, fun i hi hlt => ?_,
      State.bringUp_meas s _, hdev, hhost⟩
    · subst hi
      exact bringUp_image s i hle
    · subst hi
      have hboot : (s.bringUp (some i)).firmware = s.cold.measureConfig.firmware.recover :=
        Firmware.boot_of_refused (Firmware.accepts_of_lt (f := s.cold.measureConfig.firmware) hlt)
      dsimp only
      rw [hboot]
      exact ⟨rfl, rfl⟩
  case keep => exact congrArg Host.Outcome.next (if_neg (Nat.not_lt.2 h))
  case raise =>
    have hraise : s.raiseMinimum = { s with firmware := { s.firmware with fusedMin := s.firmware.version } : State }.measureConfig := if_pos h
    refine ⟨_, rfl, ?_⟩
    rw [hraise]
    exact ⟨rfl, rfl, State.measureConfig_meas { s with firmware := { s.firmware with fusedMin := s.firmware.version } }⟩
  case attest =>
    rintro (hlen | ⟨hrec, hnone⟩)
    · exact hlen h
    · rcases hrun with hrun | hrun
      · rw [hrun] at hrec; cases hrec
      · rw [Option.isNone_iff_eq_none] at hnone
        rw [hnone] at hrun; cases hrun
  case locked =>
    exact congrArg Host.Outcome.next ((State.setRoot_of_aligned hroot hp hfit).trans (if_pos (State.rootLocked_iff.2 h)))
  case live =>
    obtain ⟨l, hl, hlive⟩ := h
    refine congrArg Host.Outcome.next (if_neg fun hall => ?_)
    have := List.all_eq_true.1 hall l hl
    rw [hlive] at this
    exact absurd this (by decide)
  case hot => rw [State.die_modDie]; rfl
  case cool => rw [State.die_modDie, DieState.throttle_cool_tgt]

end Sys2Proof.Machine
end

section
/-! PROOF. A parity error whose trap record waits at its home (R304, R376, R431), and O59. -/

namespace Sys2Proof.Machine
open Stmt

/-- A trap whose record waits for the host's copy of a table's line is held. -/
theorem State.takeTrap_of_snoop {s : State} {n : Nat} (t : TrapInfo) (hblock : s.trapBlock = .error (.snoop n)) :
    s.takeTrap t = (s.sendSnoops [n] false).holdTrap t := by
  simp only [State.takeTrap, hblock]

/-- A parity error of a context whose record waits so leaves the context live. -/
theorem State.parity_live_of_snoop {s : State} {c : CoreId} {k : SlotId} {n : Nat} (hlive : (s.ctx c k).live = true)
    (hblock : (s.focus c k).trapBlock = .error (.snoop n)) : ((s.parity c k).ctx c k).live = true := by
  have hcores : (s.parity c k).cores = (((s.focus c k).sendSnoops [n] false).holdTrap { cause := .poison, fatal := true }).cores := by
    simp only [State.parity, hlive, Bool.not_true, Bool.false_eq_true, if_false, State.within, State.takeTrap_of_snoop _ hblock]
    rfl
  have hme : (((s.focus c k).sendSnoops [n] false).holdTrap { cause := .poison, fatal := true }).me.live = true := by
    rw [State.holdTrap, State.me_modMe]
    exact hlive
  rw [State.ctx, State.core, hcores]
  exact hme

/-- The launch of the waiting state: its control context's trap block lies at address 0. -/
def heldLaunch : Launch := { id := 1, spillVa := 64 }

/-- A state in which context 0 of core 0 is live, and the host holds the line of the root table. -/
def heldRecord : State :=
  { State.reset with launches := [heldLaunch], dir := { lines := [(0, { st := .ho })] } }.modCore 0 fun x =>
    { x.setCtx 0 { live := true } with launch := some 1 }

theorem heldRecord_core : heldRecord.core 0 = { (State.reset.core 0).setCtx 0 { live := true } with launch := some 1 } :=
  State.core_modCore _ _ _

theorem trapBlock_heldRecord : (heldRecord.focus 0 0).trapBlock = .error (.snoop 0) := by
  have hlaunch : (heldRecord.focus 0 0).myLaunch = heldLaunch := by
    show (heldRecord.launchOf 0).getD _ = _
    simp only [State.launchOf, heldRecord_core]
    rfl
  have hva : (heldRecord.focus 0 0).trapVa = 0 := by
    rw [State.trapVa, hlaunch]
    show heldLaunch.spillArea (heldRecord.core 0).rank 0 - 64 = 0
    rw [heldRecord_core]
    decide
  simp only [State.trapBlock, hlaunch, hva]
  rfl

/-- Refutes O59: a parity error does not end its context at once where the record of its trap waits at its home for the host's
copy of a table's line; the trap is held, and the context stays live. -/
theorem not_linkRasAndTimeEvents : ¬ Obligations.LinkRasAndTimeEvents := by
  unfold Obligations.LinkRasAndTimeEvents
  intro h
  obtain ⟨-, -, -, -, -, -, -, -, -, -, -, hparity, -⟩ := h
  obtain ⟨-, hends⟩ := hparity heldRecord 0 0
  have hlive : (heldRecord.ctx 0 0).live = true := by
    rw [State.ctx, heldRecord_core]
    exact congrArg Ctx.live (Core.ctx_setCtx _ 0 _)
  obtain ⟨t, hexec, hdead⟩ := hends hlive
  obtain rfl : heldRecord.parity 0 0 = t := by injection hexec
  rw [State.parity_live_of_snoop hlive trapBlock_heldRecord] at hdead
  cases hdead

end Sys2Proof.Machine
end

section
/-! PROOF. Requests at the homes quarantine no line, and an engine's write of a range that is not quarantined stores its bytes
(R294, R433, R435). -/

namespace Sys2Proof.Machine
open Stmt

/-! ## Lines in Q -/

theorem mem_of_mem_assocSet {α : Type} {l : List (Nat × α)} {k : Nat} {v : α} {p : Nat × α} (h : p ∈ assocSet l k v) :
    p = (k, v) ∨ p ∈ l := by
  induction l with
  | nil => exact .inl (List.mem_singleton.1 h)
  | cons q rest ih =>
    unfold assocSet at h
    split at h
    · exact (List.mem_cons.1 h).imp_right fun h => List.mem_cons_of_mem _ h
    split at h
    · exact List.mem_cons.1 h
    · obtain rfl | h := List.mem_cons.1 h
      · exact .inr List.mem_cons_self
      · exact (ih h).imp_right fun h => List.mem_cons_of_mem _ h

/-- Every line that a directory lists in Q is one that another lists in Q. -/
def Dir.QWithin (d d' : Dir) : Prop := ∀ p ∈ d.lines, p.2.st = .q → ∃ q ∈ d'.lines, q.1 = p.1 ∧ q.2.st = .q

theorem Dir.QWithin.refl (d : Dir) : d.QWithin d := fun p hp hq => ⟨p, hp, rfl, hq⟩

theorem Dir.QWithin.trans {d e f : Dir} (h : d.QWithin e) (h' : e.QWithin f) : d.QWithin f := by
  intro p hp hq
  obtain ⟨q, hmem, hkey, hst⟩ := h p hp hq
  obtain ⟨r, hmem', hkey', hst'⟩ := h' q hmem hst
  exact ⟨r, hmem', hkey'.trans hkey, hst'⟩

theorem Dir.qWithin_of_lines {d e : Dir} (h : d.lines = e.lines) : d.QWithin e :=
  fun p hp hq => ⟨p, h ▸ hp, rfl, hq⟩

theorem Dir.setLine_qWithin (d : Dir) (n : Nat) {x : Line} (hx : x.st ≠ .q) : (d.setLine n x).QWithin d := by
  intro p hp hq
  unfold Dir.setLine at hp
  dsimp only at hp
  split at hp
  · exact ⟨p, (List.mem_filter.1 hp).1, rfl, hq⟩
  · obtain rfl | hmem := mem_of_mem_assocSet hp
    · exact absurd hq hx
    · exact ⟨p, hmem, rfl, hq⟩

theorem foldl_qWithin {α : Type} {f : Dir → α → Dir} (hf : ∀ d a, (f d a).QWithin d) (l : List α) (d : Dir) :
    (l.foldl f d).QWithin d := by
  induction l generalizing d with
  | nil => exact .refl d
  | cons a l ih => exact (ih _).trans (hf d a)

theorem Tile.demoted_st (t : Tile) : t.demoted.st ≠ .q := by
  unfold Tile.demoted
  split <;> exact nofun

theorem Dir.demote_qWithin (d : Dir) (t : Tile) : (d.demote t).QWithin d :=
  (foldl_qWithin (fun d n => d.setLine_qWithin n t.demoted_st) _ _).trans (Dir.qWithin_of_lines rfl)

/-- A request for a line moves no line to Q (R294). -/
theorem Dir.lineRequest_qWithin (d : Dir) (home : Nat) (f : From) (r : Req) (repl : Bool) (n : Nat) :
    (d.lineRequest home f r repl n).QWithin d := by
  have hset (x : Line) (hx : x.st ≠ .q) : ((d.merge n).setLine n x).QWithin d :=
    ((d.merge n).setLine_qWithin n hx).trans (Dir.qWithin_of_lines rfl)
  unfold Dir.lineRequest
  dsimp only
  split
  · exact .refl d
  cases r with
  | read =>
    dsimp only
    split
    · exact .refl d
    split
    · split
      all_goals
        split
        · exact hset _ nofun
        · exact d.setLine_qWithin n nofun
    split
    · exact hset _ nofun
    split
    all_goals
      split
      · exact hset _ nofun
      · exact d.setLine_qWithin n nofun
  | store =>
    dsimp only
    split <;> exact hset _ nofun
  | perform => exact hset _ nofun
  | red k =>
    dsimp only
    split
    · exact .refl d
    · exact hset _ nofun
  | hostRead =>
    dsimp only
    split
    · exact .refl d
    · exact hset _ nofun
  | hostWrite => exact hset _ nofun

theorem Dir.request_qWithin (d : Dir) (home : Nat) (f : From) (r : Req) (repl : Bool) (n : Nat) :
    (d.request home f r repl n).QWithin d := by
  unfold Dir.request
  split
  · split
    · split <;> exact Dir.qWithin_of_lines rfl
    · exact (Dir.lineRequest_qWithin _ _ _ _ _ _).trans (d.demote_qWithin _)
  · exact d.lineRequest_qWithin _ _ _ _ _

theorem Dir.dropReplicas_qWithin (d : Dir) (page : Nat) : (d.dropReplicas page).QWithin d := by
  intro p hp hq
  obtain ⟨q, hmem, rfl⟩ := List.mem_map.1 (List.mem_filter.1 hp).1
  refine ⟨q, hmem, ?_⟩
  split at hq
  · split at hq
    · cases hq
    · rename_i hpage hfree
      rw [if_pos hpage, if_neg hfree]
      exact ⟨rfl, hq⟩
  · rename_i hpage
    rw [if_neg hpage]
    exact ⟨rfl, hq⟩

theorem Dir.countPage_qWithin (d : Dir) (home : Nat) (f : From) (r : Req) (page : Nat) : (d.countPage home f r page).QWithin d := by
  unfold Dir.countPage
  dsimp only
  generalize (ite (r.writes = true) _ _ : PageCtr) = p
  split
  · exact Dir.qWithin_of_lines rfl
  split
  · exact (Dir.dropReplicas_qWithin _ page).trans (Dir.qWithin_of_lines rfl)
  · exact Dir.qWithin_of_lines rfl

theorem State.homeLine_qWithin (s : State) (f : From) (r : Req) (mode : Nat) (d : Dir) (n : Nat) :
    (s.homeLine f r mode d n).QWithin d := by
  unfold State.homeLine
  dsimp only
  refine (Dir.request_qWithin _ _ _ _ _ _).trans ?_
  split
  · exact (Dir.countPage_qWithin _ _ _ _ _).trans (Dir.qWithin_of_lines rfl)
  · exact Dir.qWithin_of_lines rfl

theorem State.toHome_qWithin (s : State) (f : From) (r : Req) (mode : Nat) (lines : List Nat) :
    (s.toHome f r mode lines).dir.QWithin s.dir :=
  foldl_qWithin (fun d n => s.homeLine_qWithin f r mode d n) lines s.dir

theorem State.arrive_qWithin (s : State) (f : From) (a : Acc) (r : Req) : (s.arrive f a r).dir.QWithin s.dir := by
  have hwalk : (s.walked f a).dir.QWithin s.dir := by
    unfold State.walked
    split
    · exact .refl _
    · exact s.toHome_qWithin _ _ _ _
  unfold State.arrive
  generalize s.walked f a = u at hwalk
  dsimp only
  split
  · exact (u.toHome_qWithin _ _ _ _).trans hwalk
  · split
    · exact (Dir.qWithin_of_lines rfl : Dir.QWithin _ u.dir).trans hwalk
    split
    · exact hwalk
    · exact (Dir.qWithin_of_lines rfl : Dir.QWithin _ u.dir).trans hwalk
  · exact hwalk

theorem State.engineArrive_qWithin (s : State) (f : From) (as : List Acc) (r : Req) : (s.engineArrive f as r).dir.QWithin s.dir := by
  have hall (as : List Acc) (s : State) : (as.foldl (fun s a => s.arrive f a r) s).dir.QWithin s.dir := by
    induction as generalizing s with
    | nil => exact .refl _
    | cons a as ih => exact (ih _).trans (s.arrive_qWithin f a r)
  unfold State.engineArrive
  dsimp only
  split
  · exact (Dir.qWithin_of_lines rfl : Dir.QWithin _ (as.foldl (fun s a => s.arrive f a r) s).dir).trans (hall as s)
  · exact hall as s

/-- What a directory with no further line in Q leaves free stays free (R435). -/
theorem State.quarantined_of_qWithin {s t : State} (hdir : t.dir.QWithin s.dir) (hdies : t.dies = s.dies) (hpm : t.pm = s.pm)
    {ks : List Nat} (h : s.quarantined ks = false) : t.quarantined ks = false := by
  have hdead (d : Nat) : t.die d = s.die d := by simp only [State.die, hdies]
  simp only [State.quarantined, hdies, hpm, hdead, Bool.or_eq_false_iff] at h ⊢
  refine ⟨?_, h.2⟩
  rw [List.any_eq_false]
  intro p hp hlost
  obtain ⟨hst, hkeys⟩ := Bool.and_eq_true _ _ ▸ hlost
  obtain ⟨q, hq, hkey, hst'⟩ := hdir p hp (beq_iff_eq.1 hst)
  refine List.any_eq_false.1 h.1 q hq ?_
  rw [hst', hkey, hkeys]
  rfl

end Sys2Proof.Machine
end

section
/-! PROOF. The registers of work queues, the reading of their entries and the writing of their records (R342, R343, R396, R397). -/

namespace Sys2Proof.Machine
open Stmt

/-! ## Registers -/

theorem State.queue_modQueue (s : State) {q : Nat} (f : WQueue → WQueue) (hq : q < 65536) :
    (s.modQueue q f).queue q = f (s.queue q) := by
  rw [State.modQueue, if_pos hq, State.queue, assocGet_assocSet, if_pos rfl]
  rfl

theorem exec_doorbell {s : State} {q : Nat} (tail : BitVec 32) (hq : q < 65536) (hactive : s.memActive = true) :
    ∃ t, exec (.doorbell q tail) s = .next t ∧ t.mem = s.mem ∧
      t.queue q = if 2 ^ (s.queue q).sqLog < (tail - (s.queue q).sqHead).toNat
        then { s.queue q with sqTail := tail, err := true, en := false } else { s.queue q with sqTail := tail } := by
  refine ⟨_, rfl, State.doorbell_mem .., ?_⟩
  rw [State.doorbell, hactive, Bool.not_true, if_neg Bool.false_ne_true, State.queue_modQueue _ _ hq]
  rfl

theorem exec_queue_inactive {s : State} {q : Nat} (tail : BitVec 32) (v : Word) (hactive : s.memActive = false) :
    exec (.doorbell q tail) s = .next s ∧ exec (.qCtlWrite q v) s = .next s := by
  constructor
  · refine congrArg Host.Outcome.next ?_
    rw [State.doorbell, hactive]
    rfl
  · refine congrArg Host.Outcome.next ?_
    rw [State.qCtlWrite, hactive]
    rfl

/-- What a write of Q.CTL leaves in the queue (R342, R396). -/
def WQueue.ctlWritten (x : WQueue) (v : Word) : WQueue :=
  if (x.setCtl v).en && !x.en then
    { x.setCtl v with sqTail := 0, sqHead := 0, cqTail := 0, cqHead := 0, epoch := (x.setCtl v).epoch + 1 }
  else x.setCtl v

theorem WQueue.setCtl_fields (x : WQueue) (v : Word) :
    (x.setCtl v).vec = wbits v 16 16 ∧ (x.setCtl v).ien = v.getLsbD 2 ∧ (x.setCtl v).err = (x.err && !v.getLsbD 1) ∧
      (x.setCtl v).en = (v.getLsbD 0 && !(x.setCtl v).err) := by
  have hzero : (wbits v 1 1 == 0) = !v.getLsbD 1 := by
    rw [← wbits_one_beq]
    have : wbits v 1 1 < 2 := Nat.mod_lt _ (by decide)
    generalize wbits v 1 1 = n at this
    interval_cases n <;> rfl
  refine ⟨rfl, wbits_one_beq .., ?_, ?_⟩
  · exact congrArg (x.err && ·) hzero
  · exact congrArg (· && !(x.setCtl v).err) (wbits_one_beq ..)

theorem WQueue.ctlWritten_spec (x : WQueue) (v : Word) :
    (x.ctlWritten v).vec = wbits v 16 16 ∧ (x.ctlWritten v).ien = v.getLsbD 2 ∧ (x.ctlWritten v).err = (x.err && !v.getLsbD 1) ∧
      (x.ctlWritten v).en = (v.getLsbD 0 && !(x.ctlWritten v).err) ∧
      (x.en = false → (x.ctlWritten v).en = true → (x.ctlWritten v).sqTail = 0 ∧ (x.ctlWritten v).sqHead = 0 ∧
        (x.ctlWritten v).cqTail = 0 ∧ (x.ctlWritten v).cqHead = 0) ∧
      (x.en = true ∨ (x.ctlWritten v).en = false → (x.ctlWritten v).sqTail = x.sqTail ∧ (x.ctlWritten v).sqHead = x.sqHead ∧
        (x.ctlWritten v).cqTail = x.cqTail ∧ (x.ctlWritten v).cqHead = x.cqHead) := by
  obtain ⟨hvec, hien, herr, hen⟩ := x.setCtl_fields v
  by_cases h : ((x.setCtl v).en && !x.en) = true
  · rw [WQueue.ctlWritten, if_pos h]
    obtain ⟨hon, hoff⟩ := Bool.and_eq_true _ _ ▸ h
    refine ⟨hvec, hien, herr, hen, fun _ _ => ⟨rfl, rfl, rfl, rfl⟩, ?_⟩
    rintro (hx | hy)
    · rw [hx] at hoff
      cases hoff
    · exact absurd (hon.symm.trans hy) (by decide)
  · rw [WQueue.ctlWritten, if_neg h]
    refine ⟨hvec, hien, herr, hen, fun hx hy => ?_, fun _ => ⟨rfl, rfl, rfl, rfl⟩⟩
    rw [hx, hy] at h
    exact absurd rfl h

theorem exec_qCtlWrite {s : State} {q : Nat} (v : Word) (hq : q < 65536) (hactive : s.memActive = true) :
    ∃ t, exec (.qCtlWrite q v) s = .next t ∧ t.mem = s.mem ∧ t.queue q = (s.queue q).ctlWritten v := by
  refine ⟨_, rfl, State.qCtlWrite_mem .., ?_⟩
  rw [State.qCtlWrite, hactive, Bool.not_true, if_neg Bool.false_ne_true, State.queue_modQueue _ _ hq]
  rfl

/-! ## Entries -/

section
variable {s s1 : State} {q : Nat} {b : List Byte}

/-- Before its descriptor is looked at, a LAUNCH entry's process must have a root (R342, R361). -/
theorem State.launchEntry_no_root (hrun : s.firmware.stopped = false) (hread : s.readEntry q = some (.bytes s1 b)) (hop : field b 0 1 = 1)
    (hlow : zeros b 1 3 = true) (hhigh : zeros b 16 48 = true) (hroot : s.rootOf (s.queue q).space (queuePart s.pm q) = none) :
    s.launchEntry q = (s1.passEntry q).report q (refused .translation (BitVec.ofNat 32 (field b 4 4))) := by
  simp only [State.launchEntry, hrun, hread, hop, hlow, hhigh, hroot]
  rfl

/-- The launch that an entry asks for (R342, R344). -/
def State.entryLaunch (s : State) (q root : Nat) (b : List Byte) : Launch :=
  { id := s.nextLaunch.getD (queuePart s.pm q) 1, part := queuePart s.pm q, queue := q, entry := (s.queue q).sqHead.toNat,
    epoch := (s.queue q).epoch, tag := BitVec.ofNat 32 (field b 4 4), space := (s.queue q).space, root }

theorem State.launchEntry_refused {root : Nat} {c : Cause} {a : Word} (hrun : s.firmware.stopped = false)
    (hread : s.readEntry q = some (.bytes s1 b)) (hop : field b 0 1 = 1)
    (hlow : zeros b 1 3 = true) (hhigh : zeros b 16 48 = true) (hroot : s.rootOf (s.queue q).space (queuePart s.pm q) = some root)
    (hcheck : s1.checkLaunch (s.entryLaunch q root b) (word (field b 8 8)) = .error (.fail c a)) :
    s.launchEntry q = (s1.passEntry q).report q (refused c (BitVec.ofNat 32 (field b 4 4))) := by
  unfold State.entryLaunch at hcheck
  simp only [State.launchEntry, hrun, hread, hop, hlow, hhigh, hroot, hcheck]
  rfl

theorem State.launchEntry_joins {root : Nat} {s2 : State} {l : Launch} (hrun : s.firmware.stopped = false)
    (hread : s.readEntry q = some (.bytes s1 b)) (hop : field b 0 1 = 1)
    (hlow : zeros b 1 3 = true) (hhigh : zeros b 16 48 = true) (hroot : s.rootOf (s.queue q).space (queuePart s.pm q) = some root)
    (hcheck : s1.checkLaunch (s.entryLaunch q root b) (word (field b 8 8)) = .ok (s2, l)) :
    s.launchEntry q = ({ s2.passEntry q with
      launches := (s2.passEntry q).launches ++ [l]
      nextLaunch := (s2.passEntry q).nextLaunch.set (queuePart s.pm q) (s.nextLaunch.getD (queuePart s.pm q) 1 + 1) } : State).refreshDue := by
  unfold State.entryLaunch at hcheck
  simp only [State.launchEntry, hrun, hread, hop, hlow, hhigh, hroot, hcheck]
  rfl

theorem State.cancelEntry_of_read (hrun : s.firmware.stopped = false) (hread : s.readEntry q = some (.bytes s1 b)) (hop : field b 0 1 = 2) :
    s.cancelEntry q = match (s1.passEntry q).cancelTarget q b with
      | some l => (s1.passEntry q).stopLaunch l 3
      | none => s1.passEntry q := by
  simp only [State.cancelEntry, hrun, hread, hop]
  rfl

/-- A queue that is not enabled or has no entry is not read (R397). -/
theorem State.readEntry_none (h : (s.queue q).en = false ∨ (s.queue q).sqHead = (s.queue q).sqTail) : s.readEntry q = none := by
  unfold State.readEntry
  dsimp only
  rw [if_pos]
  obtain h | h := h
  · rw [h]
    rfl
  · rw [h, beq_self_eq_true, Bool.or_true]

theorem exec_no_entry (h : (s.queue q).en = false ∨ (s.queue q).sqHead = (s.queue q).sqTail) :
    exec (.launch q) s = .next s ∧ exec (.cancel q) s = .next s := by
  constructor
  · refine congrArg Host.Outcome.next ?_
    rw [State.launchEntry, State.readEntry_none h]
    exact ite_self _
  · refine congrArg Host.Outcome.next ?_
    rw [State.cancelEntry, State.readEntry_none h]
    exact ite_self _

end

/-! ## Records -/

theorem CqRec.length_bytes (r : CqRec) (stamp : Nat) : (r.bytes stamp).length = 32 := by
  simp only [CqRec.bytes, List.length_append, length_leBytes]

theorem queuePart_lt {pm : PartMode} {q : Nat} (hq : q < 65536) : queuePart pm q < partCount pm := by
  unfold queuePart
  have : 0 < partCount pm := by cases pm <;> decide
  rw [Nat.div_lt_iff_lt_mul (by decide)]
  nlinarith

/-- The addresses of partitions' device memory lie below those of the host. -/
theorem devKey_lt_hostBase {pm : PartMode} {p a : Nat} (hp : p < partCount pm) (ha : a < partSize pm) : devKey pm p a < hostBase := by
  unfold devKey hostBase
  cases pm
  all_goals
    simp only [partCount, partSize] at hp ha ⊢
    omega

/-- A ring's slot is a range of bytes outside headland space and the aperture (R396). -/
theorem State.slotAcc_keys {s : State} {q : Nat} {base : Word} {off n : Nat} {a : Acc} (hq : q < 65536)
    (h : s.slotAcc q base off n = some a) : (∃ k, a.keys = range k n) ∧ ∀ k ∈ a.keys, k < headBase := by
  unfold State.slotAcc at h
  dsimp only at h
  split at h
  · split at h
    · rename_i hfit
      obtain rfl := Option.some.inj h
      refine ⟨⟨_, rfl⟩, fun k hk => ?_⟩
      obtain ⟨i, hi, rfl⟩ := mem_range.1 hk
      have hlt : devKey s.pm (queuePart s.pm q) (wbits base 6 46 * 64 + off + i) < hostBase :=
        devKey_lt_hostBase (queuePart_lt hq) (by omega)
      have : hostBase < headBase := by decide
      unfold devKey at hlt ⊢
      omega
    · cases h
  · split at h
    · rename_i hfit
      obtain rfl := Option.some.inj h
      refine ⟨⟨_, rfl⟩, fun k hk => ?_⟩
      obtain ⟨i, hi, rfl⟩ := mem_range.1 hk
      omega
    · cases h

/-- An engine's write below headland space, none of it quarantined, is a plain write but for poison (R433, R435). -/
theorem State.engineWrite_below {s : State} {ks : List Nat} {bs : List Byte} (hlen : ks.length = bs.length)
    (hbelow : ∀ k ∈ ks, k < headBase) (hquar : s.quarantined ks = false) : (s.engineWrite ks bs []).mem = (s.write none ks bs).mem := by
  have hall : ((ks.zip bs).filter fun p =>
      !(decide (headBase ≤ p.1) && decide (p.1 < apBase)) && !(s.quarantined ks && s.quarantined [p.1])) = ks.zip bs := by
    refine List.filter_eq_self.2 fun p hp => ?_
    have := hbelow p.1 (List.of_mem_zip hp).1
    rw [hquar, Bool.false_and, decide_eq_false (Nat.not_le.2 this), Bool.false_and]
    rfl
  rw [State.engineWrite, hall, List.map_fst_zip hlen.le, List.map_snd_zip hlen.ge]
  rfl

theorem State.engineArrive_sameButDir (s : State) (f : From) (as : List Acc) (r : Req) : SameButDir s (s.engineArrive f as r) := by
  have hall (as : List Acc) (s : State) : SameButDir s (as.foldl (fun s a => s.arrive f a r) s) := by
    induction as generalizing s with
    | nil => exact .refl s
    | cons a as ih => exact (s.arrive_sameButDir f a r).trans (ih _)
  unfold State.engineArrive
  dsimp only
  split
  · exact (hall as s).trans ⟨rfl, fun _ h => h⟩
  · exact hall as s

/-- Where its slot is not quarantined, the oldest record is written to it, and the tail advances (R343, R397). -/
theorem exec_cqRecordWrite {s : State} {q : Nat} {r : CqRec} {rest : List CqRec} {a : Acc} (hq : q < 65536) (hs : s.mem.wf = true)
    (hrun : s.firmware.stopped = false) (hrecs : (s.queue q).records = r :: rest)
    (hroom : ((s.queue q).cqTail - (s.queue q).cqHead).toNat ≠ 2 ^ (s.queue q).cqLog)
    (hslot : s.slotAcc q (s.queue q).cqBase (32 * ((s.queue q).cqTail.toNat % 2 ^ (s.queue q).cqLog)) 32 = some a)
    (hdemand : s.engineDemand .ofHeadland [a] .store = none) (hquar : s.quarantined a.keys = false) :
    ∃ t, exec (.cqRecordWrite q) s = .next t ∧ t.bytesAt a.keys = r.bytes s.stime ∧
      t.queue q = { s.queue q with records := rest, cqTail := (s.queue q).cqTail + 1 } ∧
      t.out = if (s.queue q).ien = true ∧ (s.queue q).vec < 2048 then .msix q (s.queue q).vec :: s.out else s.out := by
  obtain ⟨⟨k, hkeys⟩, hbelow⟩ := State.slotAcc_keys hq hslot
  have hexec : s.writeRecord q =
      (let t := ((s.engineArrive .ofHeadland [a] .store).engineWrite a.keys (r.bytes s.stime) []).modQueue q fun x =>
        { x with records := rest, cqTail := x.cqTail + 1 }
      if (s.queue q).ien && decide ((s.queue q).vec < 2048) then { t with out := .msix q (s.queue q).vec :: t.out } else t) := by
    simp only [State.writeRecord, hrun, Bool.false_eq_true, if_false, hrecs, hroom, hslot, hdemand]
  have hlen : a.keys.length = (r.bytes s.stime).length := by rw [hkeys, length_range, CqRec.length_bytes]
  have harrive := s.engineArrive_sameButDir .ofHeadland [a] .store
  have hmem : (s.engineArrive .ofHeadland [a] .store).mem = s.mem := s.engineArrive_mem ..
  have hfree : (s.engineArrive .ofHeadland [a] .store).quarantined a.keys = false :=
    State.quarantined_of_qWithin (s.engineArrive_qWithin .ofHeadland [a] .store) (congrArg State.dies harrive.eq :) (congrArg State.pm harrive.eq :) hquar
  have hqueues : (s.engineArrive .ofHeadland [a] .store).queues = s.queues := (congrArg State.queues harrive.eq :)
  have hout : (s.engineArrive .ofHeadland [a] .store).out = s.out := (congrArg State.out harrive.eq :)
  generalize s.engineArrive .ofHeadland [a] .store = u at *
  have hwrite := State.engineWrite_frame u a.keys (r.bytes s.stime) []
  have hbytes : (u.engineWrite a.keys (r.bytes s.stime) []).bytesAt a.keys = r.bytes s.stime := by
    rw [State.bytesAt_of_mem_eq (State.engineWrite_below hlen hbelow hfree)]
    exact State.write_bytesAt none (hmem ▸ hs) (hkeys ▸ range_nodup ..) hlen
  have hqueue' : (u.engineWrite a.keys (r.bytes s.stime) []).queues = s.queues := (congrArg State.queues hwrite :).trans hqueues
  have hout' : (u.engineWrite a.keys (r.bytes s.stime) []).out = s.out := (congrArg State.out hwrite :).trans hout
  generalize u.engineWrite a.keys (r.bytes s.stime) [] = v at *
  have hsame : v.queue q = s.queue q := by rw [State.queue, hqueue', State.queue]
  have hdone := v.queue_modQueue (fun x => { x with records := rest, cqTail := x.cqTail + 1 }) hq
  rw [hsame] at hdone
  have hbytes' : (v.modQueue q fun x => { x with records := rest, cqTail := x.cqTail + 1 }).bytesAt a.keys = r.bytes s.stime :=
    (State.bytesAt_of_mem_eq (v.modQueue_mem q _) _).trans hbytes
  have hout'' : (v.modQueue q fun x => { x with records := rest, cqTail := x.cqTail + 1 }).out = s.out := by
    rw [State.modQueue, if_pos hq]
    exact hout'
  generalize (v.modQueue q fun x => { x with records := rest, cqTail := x.cqTail + 1 }) = w at *
  refine ⟨_, rfl, ?_⟩
  rw [hexec]
  by_cases hvec : (s.queue q).ien = true ∧ (s.queue q).vec < 2048
  · rw [if_pos hvec]
    have hsend : ((s.queue q).ien && decide ((s.queue q).vec < 2048)) = true := by rwa [Bool.and_eq_true, decide_eq_true_eq]
    simp only [hsend, if_true]
    exact ⟨hbytes', hdone, congrArg _ hout''⟩
  · rw [if_neg hvec, if_neg (by rwa [Bool.and_eq_true, decide_eq_true_eq])]
    exact ⟨hbytes', hdone, hout''⟩

theorem State.writeRecord_full {s : State} {q : Nat} (h : ((s.queue q).cqTail - (s.queue q).cqHead).toNat = 2 ^ (s.queue q).cqLog) :
    s.writeRecord q = s := by
  unfold State.writeRecord
  dsimp only
  split
  · rfl
  split
  · rfl
  · rfl

end Sys2Proof.Machine
end

section
/-! PROOF. A launch's end out of order, its sweeps and time limit, its grant and the start of its control contexts (R342, R345,
R351, R354 to R357). -/

namespace Sys2Proof.Machine
open Stmt

/-! ## Ends -/

theorem State.stopLaunch_not_live {s : State} {l : Launch} (status : Nat) (h : l.phase ≠ .live) :
    s.stopLaunch l status = s.endLaunch l (l.ending.getD status) := if_pos h

/-- A live launch marked to end with a status (R357). -/
def State.markEnding (s : State) (l : Launch) (status : Nat) : State :=
  s.modLaunch l.part l.id fun x => { x with ending := some (l.ending.getD status), stopping := true, saving := l.stopping && l.saving }

theorem State.stopLaunch_live {s : State} {l : Launch} (status : Nat) (h : l.phase = .live) :
    s.stopLaunch l status =
      if l.stopping then s.markEnding l status else (s.markEnding l status).endStopped l (l.ending.getD status) :=
  if_neg (not_not_intro h)

theorem State.endStopped_unsettled {s : State} {l : Launch} {status : Nat}
    (h : ∃ c ∈ l.cores, ((l.cores.foldl (fun s c => s.settleUnit (coreOf c) l) s).core (coreOf c)).harrow.settled = false) :
    s.endStopped l status = l.cores.foldl (fun s c => s.settleUnit (coreOf c) l) s := by
  obtain ⟨c, hc, hopen⟩ := h
  refine if_neg fun hall => ?_
  exact absurd (hopen.symm.trans (List.all_eq_true.1 hall c hc)) (by decide)

theorem State.endStopped_settled {s : State} {l l' : Launch} {status : Nat}
    (h : ∀ c ∈ l.cores, ((l.cores.foldl (fun s c => s.settleUnit (coreOf c) l) s).core (coreOf c)).harrow.settled = true)
    (hfind : (l.cores.foldl (fun s c => s.settleUnit (coreOf c) l) s).findLaunch l.part l.id = some l') :
    s.endStopped l status = (l.cores.foldl (fun s c => s.settleUnit (coreOf c) l) s).endLaunch l' status := by
  refine (if_pos (List.all_eq_true.2 h)).trans ?_
  rw [hfind]

/-- A launch that ends is no longer among the launches (R356). -/
theorem State.not_mem_endLaunch (s : State) (l : Launch) (status : Nat) :
    ∀ x ∈ (s.endLaunch l status).launches, ¬ (x.id = l.id ∧ x.part = l.part) := by
  intro x hx
  have hmem : (x.id, x.part, x.phase) ∈ (s.endLaunch l status).book.1 := List.mem_map.2 ⟨x, hx, rfl⟩
  rw [State.endLaunch_book] at hmem
  have hkept := (List.mem_filter.1 hmem).2
  rintro ⟨hid, hpart⟩
  rw [hid, hpart] at hkept
  simp at hkept

/-! ## Sweeps and limits -/

section
variable {s : State} {k : Nat} {l : Launch}

theorem State.sweep_live (hat : s.launchAt k = some l) (hlive : l.phase = .live) (hrun : l.stopping = false) :
    s.sweep k = if (s.sweepOf l).idle = true ∧ (s.sweepOf l).sent = (s.sweepOf l).rcvd ∧ l.lastSweep = some (s.sweepOf l)
      then s.endLaunch l 0 else s.modLaunch l.part l.id fun x => { x with lastSweep := some (s.sweepOf l) } := by
  have hgo : (l.phase != .live || l.stopping) = false := by rw [hlive, hrun]; rfl
  simp only [State.sweep, hat, hgo, Bool.false_eq_true, if_false, Bool.and_eq_true, beq_iff_eq, and_assoc]

theorem State.sweep_idle (hat : s.launchAt k = some l) (h : l.phase ≠ .live ∨ l.stopping = true) : s.sweep k = s := by
  have hno : (l.phase != .live || l.stopping) = true := by
    obtain h | h := h
    · rw [bne_iff_ne.2 h, Bool.true_or]
    · rw [h, Bool.or_true]
  simp only [State.sweep, hat, hno, if_true]

theorem State.limit_bound {t : Nat} (hat : s.launchAt k = some l) (hbound : l.boundAt = some t) :
    s.limit k = if l.desc.tlimit ≠ 0 ∧ t + l.desc.tlimit * 16000 ≤ s.stime then s.stopLaunch l 2 else s := by
  simp only [State.limit, hat, hbound]

/-! ## Grants -/

theorem State.grant_not_due (p : BindPlan) (hat : s.launchAt k = some l) (h : l.phase ≠ .due ∨ s.granted l = false) : s.grant k p = s := by
  have hno : (l.phase != .due || !s.granted l) = true := by
    obtain h | h := h
    · rw [bne_iff_ne.2 h, Bool.true_or]
    · rw [h, Bool.not_false, Bool.or_true]
  simp only [State.grant, hat, hno, if_true]

/-- Where a grant's request begins on a die (R345). -/
def Launch.originOf (l : Launch) (p : BindPlan) : Nat × Nat × Nat :=
  match coreReq l.desc.creq with
  | .shape _ _ d x y => if l.desc.place then (d, x, y) else (p.die, p.x0, p.y0)
  | .count _ => (0, 0, 0)

theorem State.grant_cores {p : BindPlan} {cores : List Nat} (hat : s.launchAt k = some l) (hdue : l.phase = .due) (hgrant : s.granted l = true)
    (hcores : chooseCores (s.openCores l.part 0) (coreReq l.desc.creq) (l.originOf p) = some cores) :
    s.grant k p = s.bind l cores p := by
  have hgo : (l.phase != .due || !s.granted l) = false := by rw [hdue, hgrant]; rfl
  unfold Launch.originOf at hcores
  simp only [State.grant, hat, hgo, Bool.false_eq_true, if_false]
  split
  · rename_i h
    exact absurd (hcores.symm.trans h) (by simp)
  · rename_i cs h
    rw [Option.some.inj (hcores.symm.trans h)]

end

/-- A control context starts at the launch's entry with the arguments' address in g0 (R243). -/
theorem State.startControl_ctx (s : State) (l : Launch) (c : Nat) :
    ((s.startControl l c).ctx (coreOf c) 0).live = true ∧ ((s.startControl l c).ctx (coreOf c) 0).pc = l.entryVa ∧
      ((s.startControl l c).ctx (coreOf c) 0).g.get 0 = .value l.desc.args := by
  have hctx : (s.startControl l c).ctx (coreOf c) 0 =
      { ((s.core (coreOf c)).start l 0 l.entryVa).ctx 0 with
        g := (((s.core (coreOf c)).start l 0 l.entryVa).ctx 0).g.set 0 (.value l.desc.args) } := by
    rw [State.startControl, State.modCtx, State.ctx_setCtx, State.ctx, State.core_modCore]
  rw [hctx, Core.start, Core.ctx_setCtx]
  exact ⟨rfl, rfl, rfl⟩

end Sys2Proof.Machine
end

section
/-! PROOF. Which launch a core is bound to, and at which rank: what leaves them alone, the save of a launch and its resumption
(R381 to R384). -/

namespace Sys2Proof.Machine
open Stmt

/-! ## What leaves the binding of every core alone -/

/-- The launch that a core is bound to, and its rank. -/
def Core.seat (x : Core) : Option Nat × Nat := (x.launch, x.rank)

/-- The bindings of the cores. -/
def State.seats (s : State) (c : CoreId) : Option Nat × Nat := (s.core c).seat

theorem State.seats_modCore (s : State) (c : CoreId) {f : Core → Core} (hf : ∀ x, (f x).seat = x.seat) :
    (s.modCore c f).seats = s.seats := by
  funext d
  unfold State.seats
  by_cases h : d = c
  · rw [h, State.core_modCore, hf]
  · rw [State.core_modCore_ne s f h]

theorem State.seats_of_cores {s t : State} (h : t.cores = s.cores) : t.seats = s.seats := by
  funext c
  rw [State.seats, State.seats, State.core, State.core, h]

theorem State.seats_modCtx (s : State) (c : CoreId) (k : SlotId) (f : Ctx → Ctx) : (s.modCtx c k f).seats = s.seats := by
  rw [State.modCtx_eq_modCore]
  exact s.seats_modCore c fun _ => rfl

theorem foldl_seats {α : Type} {f : State → α → State} (hf : ∀ s a, (f s a).seats = s.seats) (l : List α) (s : State) :
    (l.foldl f s).seats = s.seats := by
  induction l generalizing s with
  | nil => rfl
  | cons a l ih => rw [List.foldl_cons, ih, hf]

theorem State.modMe_seats (s : State) (f : Ctx → Ctx) : (s.modMe f).seats = s.seats := s.seats_modCtx s.cur s.slot f

theorem Core.settle_eq (x : Core) : ∃ syms, x.settle = { x with syms := syms } := by
  unfold Core.settle
  split
  · exact ⟨_, rfl⟩
  · exact ⟨x.syms, rfl⟩

theorem Core.settle_seat (x : Core) : x.settle.seat = x.seat := by
  obtain ⟨syms, h⟩ := x.settle_eq
  rw [h]
  rfl

theorem State.deadLetter_seats (s : State) (c : CoreId) (m : Message) : (s.deadLetter c m).seats = s.seats := by
  have hslot : (s.freeSlot m).seats = s.seats := by
    unfold State.freeSlot
    dsimp only
    split
    · exact s.seats_modCore _ fun _ => rfl
    · rfl
  have hcount := (s.freeSlot m).seats_modCore c (f := fun x => { x with deadl := satAdd32 x.deadl 1, sent := x.sent + 1 }) fun _ => rfl
  exact (State.seats_of_cores rfl).trans (hcount.trans hslot)

theorem State.dropInbox_seats (s : State) (c : CoreId) (k : SlotId) : (s.dropInbox c k).seats = s.seats := by
  have hstep (u : State) (p : Fin 16 × Message) : (u.deadLetter c p.2).seats = u.seats := u.deadLetter_seats c p.2
  have hall := foldl_seats hstep
  unfold State.dropInbox
  dsimp only
  generalize (s.core c).inbox.partition (fun p => p.2.slot == k) = p
  have hkept : (s.modCore c fun x => { x with inbox := p.2 }).seats = s.seats := s.seats_modCore c fun _ => rfl
  generalize (s.modCore c fun x => { x with inbox := p.2 }) = u at hkept ⊢
  exact (hall p.1 u).trans hkept

theorem State.endCtx_seats (s : State) (c : CoreId) (k : SlotId) : (s.endCtx c k).seats = s.seats := by
  rw [State.endCtx_eq]
  refine (State.seats_modCore _ c Core.settle_seat).trans ?_
  have hended := (s.dropInbox c k).seats_modCore c (f := fun x => x.slotEnded k) fun _ => rfl
  exact (State.seats_of_cores rfl).trans (hended.trans (s.dropInbox_seats c k))

theorem State.fatalTrap_seats (s : State) (t : TrapInfo) (pc : Word) (block : Option Acc) :
    (s.fatalTrap t pc block).seats = s.seats := by
  have hcount (u : State) : u.fatalCounted.cores = u.cores := by
    unfold State.fatalCounted
    split <;> rfl
  rw [State.fatalTrap_eq]
  dsimp only
  rw [State.endCtx_seats, State.seats_of_cores (hcount _)]
  exact State.seats_of_cores (congrArg State.cores (s.recorded_frame _ block) :)

theorem State.unhandled_seats (s : State) (t : TrapInfo) (pc : Word) (block : Option Acc) :
    (s.unhandled t pc block).seats = s.seats := by
  unfold State.unhandled
  split
  · exact (State.seats_of_cores rfl).trans (s.modMe_seats fun c => match c.run with | .trapping _ => { c with run := .ready } | _ => c)
  · exact s.fatalTrap_seats t pc block

theorem State.enterHandler_seats (s : State) (t : TrapInfo) (pc : Word) (a : Acc) : (s.enterHandler t pc a).seats = s.seats := by
  have hput : (s.putRecord a (trapRecord s t false pc)).seats = s.seats :=
    State.seats_of_cores (congrArg State.cores (s.putRecord_frame a (trapRecord s t false pc)) :)
  unfold State.enterHandler
  dsimp only
  generalize s.putRecord a (trapRecord s t false pc) = u at hput
  have hdir (v : State) : (((v.unlink v.cur v.slot).unclaim v.cur v.slot).ungrant (some v.cur.val)).seats = v.seats := rfl
  exact (hdir (u.modMe _)).trans ((u.modMe_seats _).trans hput)

theorem State.takeTrap_seats (s : State) (t : TrapInfo) : (s.takeTrap t).seats = s.seats := by
  unfold State.takeTrap
  dsimp only
  split
  · exact State.modMe_seats _ _
  · exact s.unhandled_seats ..
  · split
    case _ s' hd => exact (s'.modMe_seats _).trans (State.seats_of_cores (congrArg State.cores (State.demand_frame hd) :))
    · split
      · exact s.unhandled_seats ..
      · exact s.enterHandler_seats ..

theorem Core.faultSym_seat (x : Core) (r : SymRef) (a : Word) : (x.faultSym r a).seat = x.seat := by
  obtain ⟨ctxs, syms, h⟩ := x.faultSym_eq r a
  rw [h]
  rfl

theorem State.mappingRejected_seats (s : State) (va : Word) : (s.mappingRejected va).seats = s.seats := by
  unfold State.mappingRejected
  split
  · unfold State.rejectPage
    dsimp only
    generalize s.me.replayQ.partition _ = p
    refine (State.takeTrap_seats _ _).trans ((foldl_seats (fun u q => ?_) _ _).trans (s.modMe_seats _))
    split
    · exact u.seats_modCore _ fun x => x.faultSym_seat _ _
    · rfl
  · rfl

theorem State.takeRejected_seats (s : State) (c : CoreId) : (s.takeRejected c).seats = s.seats := by
  refine foldl_seats (fun u k => ?_) _ s
  dsimp only
  split
  · rfl
  · have hall := foldl_seats (fun (v : State) va => v.mappingRejected_seats va) (u.ctx c k).rejected
      ((u.modCtx c k fun t => { t with rejected := [] }).focus c k)
    have hclear := u.seats_modCtx c k fun t => { t with rejected := [] }
    exact (State.seats_of_cores rfl).trans (hall.trans ((State.seats_of_cores rfl).trans hclear))

theorem State.modHarrow_seats (s : State) (c : CoreId) (f : Harrow → Harrow) : (s.modHarrow c f).seats = s.seats :=
  s.seats_modCore c fun _ => rfl

theorem State.resendBanks_seats (s : State) (c : CoreId) : (s.resendBanks c).seats = s.seats := by
  refine foldl_seats (fun u r => ?_) _ s
  split
  · exact (State.modHarrow_seats _ _ _).trans (u.modHarrow_seats _ _)
  · rfl

/-! ## Memory of a save -/

theorem State.engineWrite_cores (s : State) (ks : List Nat) (bs : List Byte) (bad : List Bool) :
    (s.engineWrite ks bs bad).cores = s.cores :=
  (congrArg State.cores (s.engineWrite_frame ks bs bad) :)

theorem State.writeRows_cores (s : State) (dst : Nat) (bs : List Byte) (n : Nat) : (s.writeRows dst bs n).cores = s.cores := by
  induction n generalizing s dst bs with
  | zero => rfl
  | succ n ih => exact (ih _ _ _).trans (s.engineWrite_cores _ _ _)

theorem State.copyRows_cores (s : State) (src dst n : Nat) : (s.copyRows src dst n).cores = s.cores := by
  induction n generalizing s src dst with
  | zero => rfl
  | succ n ih => exact (ih _ _ _).trans (s.engineWrite_cores _ _ _)

theorem foldl_cores {α : Type} {f : State → α → State} (hf : ∀ s a, (f s a).cores = s.cores) (l : List α) (s : State) :
    (l.foldl f s).cores = s.cores := by
  induction l generalizing s with
  | nil => rfl
  | cons a l ih => rw [List.foldl_cons, ih, hf]

theorem State.saveLm_cores (s : State) (c : CoreId) (p : Split) (dst : Nat) : (s.saveLm c p dst).cores = s.cores :=
  (foldl_cores (fun u _ => u.copyRows_cores _ _ _) (lmImage p) _).trans rfl

theorem State.restoreLm_cores (s : State) (c : CoreId) (p : Split) (src : Nat) : (s.restoreLm c p src).cores = s.cores :=
  (foldl_cores (fun u _ => u.copyRows_cores _ _ _) (lmImage p) _).trans rfl

/-! ## The save -/

/-- A core without a launch and without a live context. -/
def Core.Free (x : Core) : Prop := x.launch = none ∧ ∀ j, (x.ctx j).live = false

theorem Core.freed_free (x : Core) : x.freed.Free := by
  refine ⟨rfl, fun j => ?_⟩
  simp [Core.freed, Core.ctx, Vector.get_eq_getElem]

theorem State.saveCore_core (s : State) (l : Launch) (p : Nat × Nat) (c : CoreId) :
    (s.saveCore l p).core c = if c = coreOf p.1 then (s.core c).freed else s.core c := by
  have hwritten : (s.writeSave l p.2 (s.core (coreOf p.1))).cores = s.cores := (State.writeRows_cores _ _ _ _).trans rfl
  unfold State.saveCore
  dsimp only
  generalize s.writeSave l p.2 (s.core (coreOf p.1)) = v at hwritten
  have hcore (d : CoreId) : (v.saveLm (coreOf p.1) l.split (l.saveKey v.pm p.2)).core d = s.core d :=
    congrArg (fun v => v.get d) ((State.saveLm_cores _ _ _ _).trans hwritten)
  generalize v.saveLm (coreOf p.1) l.split (l.saveKey v.pm p.2) = u at hcore
  show (u.modCore (coreOf p.1) Core.freed).core c = _
  by_cases h : c = coreOf p.1
  · rw [if_pos h, h, State.core_modCore, hcore]
  · rw [if_neg h, State.core_modCore_ne u _ h, hcore]

/-- Every core that is saved is free once all have been. -/
theorem State.saveCores_free (l : Launch) (ps : List (Nat × Nat)) (c : CoreId) (s : State)
    (h : (s.core c).Free ∨ ∃ p ∈ ps, coreOf p.1 = c) : ((ps.foldl (fun s p => s.saveCore l p) s).core c).Free := by
  induction ps generalizing s with
  | nil =>
    obtain h | ⟨p, hp, -⟩ := h
    · exact h
    · cases hp
  | cons q ps ih =>
    refine ih _ ?_
    rw [State.saveCore_core]
    by_cases hq : c = coreOf q.1
    · rw [if_pos hq]
      exact .inl (Core.freed_free _)
    · rw [if_neg hq]
      obtain h | ⟨p, hp, hc⟩ := h
      · exact .inl h
      · obtain rfl | hp := List.mem_cons.1 hp
        · exact absurd hc.symm hq
        · exact .inr ⟨p, hp, hc⟩

/-- The cores of a launch that has been saved are free (R385). -/
theorem State.saveLaunch_free (s : State) (l : Launch) {c : Nat} (hc : c ∈ l.cores) : ((s.saveLaunch l).core (coreOf c)).Free := by
  obtain ⟨i, hi, rfl⟩ := List.mem_iff_getElem.1 hc
  have hpair : (l.cores[i], i) ∈ l.cores.zipIdx := List.mem_zipIdx_iff_getElem?.2 (List.getElem?_eq_getElem hi)
  exact State.saveCores_free l l.cores.zipIdx (coreOf l.cores[i]) _ (.inr ⟨_, hpair, rfl⟩)

end Sys2Proof.Machine
end

section
/-! PROOF. The steps of a pre-emption, the resumption on its cores, and epilogues that back-pressure holds (R381 to R384, R390, R391). -/

namespace Sys2Proof.Machine
open Stmt

/-! ## Pre-emption -/

section
variable {s : State} {k : Nat} {l : Launch}

theorem State.preempt_none (hat : s.launchAt k = some l) (h : l.phase ≠ .live ∨ (s.mayPreempt l = false ∧ l.stopping = false)) :
    s.preempt k = s := by
  have hno : (l.phase != .live || !(l.stopping || s.mayPreempt l)) = true := by
    obtain h | ⟨hmay, hstop⟩ := h
    · rw [bne_iff_ne.2 h, Bool.true_or]
    · rw [hmay, hstop, Bool.or_false, Bool.not_false, Bool.or_true]
  simp only [State.preempt, hat, hno, if_true]

theorem State.preempt_ending (hat : s.launchAt k = some l) (hlive : l.phase = .live) (hstop : l.stopping = true) (hsave : l.saving = false) :
    s.preempt k = s.endStopped l (l.ending.getD 3) := by
  have hgo : (l.phase != .live || !(l.stopping || s.mayPreempt l)) = false := by rw [hlive, hstop, Bool.true_or]; rfl
  have hend : (l.stopping && !l.saving) = true := by rw [hstop, hsave]; rfl
  simp only [State.preempt, hat, hgo, hend, Bool.false_eq_true, if_false, if_true]

/-- The state in which the cores of a launch that is to be saved have gone on to their pre-emption points (R381). -/
def State.settledFor (s : State) (l : Launch) : State :=
  l.cores.foldl (fun s c => s.settleCore (coreOf c)) (if l.stopping then s else s.beginStop l)

/-- Whether every core of a launch stands at its points, and no change sequence of its dies is under way. -/
def State.standing (s : State) (l : Launch) : Bool :=
  l.cores.all fun c => (s.core (coreOf c)).settled && (s.die (c / 128)).seq.isNone

theorem State.standing_iff (s : State) (l : Launch) :
    s.standing l = true ↔ ∀ c ∈ l.cores, (s.core (coreOf c)).settled = true ∧ (s.die (c / 128)).seq = none := by
  simp only [State.standing, List.all_eq_true, Bool.and_eq_true, Option.isNone_iff_eq_none]

theorem State.preempt_saving (hat : s.launchAt k = some l) (hlive : l.phase = .live)
    (h : (l.stopping = true ∧ l.saving = true) ∨ (l.stopping = false ∧ s.mayPreempt l = true)) :
    s.preempt k = if (s.settledFor l).standing l then
      match (s.settledFor l).launchAt k with
      | some l1 =>
        match (s.settledFor l).saveWaits l1 l1.cores.length .store with
        | some s' => s'
        | none => ((s.settledFor l).saveLaunch l1).endSaved l1
      | none => s.settledFor l
    else s.settledFor l := by
  have hgo : (l.phase != .live || !(l.stopping || s.mayPreempt l)) = false := by
    obtain ⟨h, -⟩ | ⟨-, h⟩ := h
    · rw [hlive, h, Bool.true_or]; rfl
    · rw [hlive, h, Bool.or_true]; rfl
  have hend : (l.stopping && !l.saving) = false := by
    obtain ⟨-, h⟩ | ⟨h, -⟩ := h
    · rw [h, Bool.not_true, Bool.and_false]
    · rw [h, Bool.false_and]
  simp only [State.preempt, hat, hgo, hend, Bool.false_eq_true, if_false]
  rfl

theorem State.launchAt_beginStop (hat : s.launchAt k = some l) : ∃ l1, (s.beginStop l).launchAt k = some l1 ∧ l1.stopping = true := by
  unfold State.launchAt State.findLaunch at hat ⊢
  have hl := List.find?_some hat
  have hsame (f : Launch → Launch) (hf : ∀ x, (f x).id = x.id ∧ (f x).part = x.part) (ls : List Launch)
      (h : ls.find? (fun x => x.id == k / 8 && x.part == k % 8) = some l) :
      (ls.map fun x => if x.id == l.id && x.part == l.part then f x else x).find? (fun x => x.id == k / 8 && x.part == k % 8) = some (f l) := by
    rw [List.find?_map]
    have hpred : ((fun x : Launch => x.id == k / 8 && x.part == k % 8) ∘ fun x => if x.id == l.id && x.part == l.part then f x else x) =
        fun x => x.id == k / 8 && x.part == k % 8 := by
      funext x
      dsimp only [Function.comp]
      split
      · rw [(hf x).1, (hf x).2]
      · rfl
    rw [hpred, h]
    simp
  exact ⟨_, hsame (fun x => { x with stopping := true, saving := true, stoppedAt := (l.cores.map fun c => s.timeAt (coreOf c)).foldl max 0 })
    (fun _ => ⟨rfl, rfl⟩) s.launches hat, rfl⟩

end

theorem State.endSaved_found {s : State} {l x : Launch} (h : s.findLaunch l.part l.id = some x) :
    (x.ending = none → s.endSaved l = s) ∧ ∀ status, x.ending = some status → s.endSaved l = s.endLaunch x status := by
  refine ⟨fun hend => ?_, fun status hend => ?_⟩ <;> simp only [State.endSaved, h, hend]

/-! ## Resumption -/

theorem Core.resolve_seat (x : Core) (i : Sym) (v : Word) : (x.resolve i v).seat = x.seat := by
  obtain ⟨ctxs, syms, ev, h⟩ := x.resolve_eq i v
  rw [h]
  rfl

theorem Core.resolveAll_seat (x : Core) : x.resolveAll.seat = x.seat := by
  have hall (is : List Sym) (x : Core) :
      (is.foldl (fun x i => match x.syms.get i with | .resolved v => x.resolve i v | _ => x) x).seat = x.seat := by
    induction is generalizing x with
    | nil => rfl
    | cons i is ih =>
      refine (ih _).trans ?_
      dsimp only
      split
      · exact x.resolve_seat i _
      · rfl
  exact hall _ x

theorem Core.restored_seat (x y : Core) (id rank : Nat) : (x.restored y id rank).seat = (some id, rank) := by
  have hsettled (z : Core) : z.resolveAll.settle.seat = z.seat := (Core.settle_seat _).trans z.resolveAll_seat
  exact hsettled _

/-- A restored core is bound to its launch at its rank, and the others stay as they are (R384). -/
theorem State.restoreCore_seats (s : State) (l : Launch) (f : Nat → Nat) (c : CoreId) (rank : Nat) (x : Core) (d : CoreId) :
    (s.restoreCore l f c rank x).seats d = if d = c then (some l.id, rank) else s.seats d := by
  have hcores : ((s.clearLm c).restoreLm c l.split (l.saveKey s.pm rank)).cores = s.cores := State.restoreLm_cores _ _ _ _
  have hkey (u : State) (hu : u.cores = s.cores) :
      ((u.modCore c fun y => (x.remap f).restored y l.id rank).timeFrom c l.stoppedAt).seats d = if d = c then (some l.id, rank) else s.seats d := by
    show (u.modCore c fun y => (x.remap f).restored y l.id rank).seats d = _
    by_cases h : d = c
    · rw [if_pos h, h, State.seats, State.core_modCore, Core.restored_seat]
    · rw [if_neg h, State.seats, State.core_modCore_ne u _ h]
      exact congrFun (State.seats_of_cores hu) d
  exact hkey _ hcores

theorem State.restoreCores_seats {l : Launch} {f : Nat → Nat} {ps : List ((Nat × Nat) × Core)}
    (hnodup : (ps.map fun p => coreOf p.1.1).Nodup) (s : State) :
    (∀ p ∈ ps, (ps.foldl (fun s x => s.restoreCore l f (coreOf x.1.1) x.1.2 x.2) s).seats (coreOf p.1.1) = (some l.id, p.1.2)) ∧
      ∀ d, d ∉ ps.map (fun p => coreOf p.1.1) →
        (ps.foldl (fun s x => s.restoreCore l f (coreOf x.1.1) x.1.2 x.2) s).seats d = s.seats d := by
  induction ps generalizing s with
  | nil => exact ⟨fun p hp => absurd hp List.not_mem_nil, fun _ _ => rfl⟩
  | cons q ps ih =>
    obtain ⟨hq, hps⟩ := List.nodup_cons.1 hnodup
    obtain ⟨hin, hout⟩ := ih hps (s.restoreCore l f (coreOf q.1.1) q.1.2 q.2)
    refine ⟨fun p hp => ?_, fun d hd => ?_⟩
    · obtain rfl | hp := List.mem_cons.1 hp
      · rw [List.foldl_cons, hout _ hq, State.restoreCore_seats, if_pos rfl]
      · exact hin p hp
    · rw [List.map_cons, List.mem_cons, not_or] at hd
      rw [List.foldl_cons, hout d hd.2, State.restoreCore_seats, if_neg hd.1]

section
variable {s : State} {k : Nat} {l : Launch} {plan : BindPlan}

theorem State.resume_none (hat : s.launchAt k = some l) (h : l.phase ≠ .preempted ∨ s.granted l = false) : s.resume k plan = s := by
  have hno : (l.phase != .preempted || !s.granted l || !s.ctrFree l plan.ctrBase) = true := by
    obtain h | h := h
    · rw [bne_iff_ne.2 h, Bool.true_or, Bool.true_or]
    · rw [h, Bool.not_false, Bool.or_true, Bool.true_or]
  simp only [State.resume, hat, hno, if_true]

/-- The launch as it goes on (R384). -/
def State.resumed (s : State) (l : Launch) (root : Nat) (cores : List Nat) (plan : BindPlan) : Launch :=
  { l with phase := .live, root := root, cores := cores, ctrAt := plan.ctrBase, boundSeq := s.serial, lastSweep := none }

/-- The cores of a launch that resumes are bound to it at the ranks of their places (R384). -/
theorem State.resume_seats {root : Nat} {cores : List Nat} {e : Nat × Nat × List Core} (hat : s.launchAt k = some l)
    (hphase : l.phase = .preempted) (hgrant : s.granted l = true) (hctr : s.ctrFree l plan.ctrBase = true)
    (hcores : s.resumeCores l = some cores) (hsaved : s.saves.find? (fun e => e.1 == l.part && e.2.1 == l.id) = some e)
    (hnodup : (cores.map coreOf).Nodup) (hlen : e.2.2.length = cores.length) (hroot : s.rootOf l.space l.part = some root)
    (hentries : s.entriesWait l.part plan.tables = none) (hwaits : s.saveWaits l cores.length .read = none)
    (hgranted : ∀ e ∈ plan.tables, s.entryGranted l.part l.space plan.grants e.1 = true)
    (hmaps : (plan.tables.foldl (fun s e => s.writeEntry l.part e) s).rankMaps (s.resumed l root cores plan) = true)
    (honly : (plan.tables.foldl (fun s e => s.writeEntry l.part e) s).onlyRanks (s.resumed l root cores plan) = true) {i c : Nat}
    (hi : cores[i]? = some c) : (s.resume k plan).seats (coreOf c) = (some l.id, i) := by
  obtain ⟨part, id, saved⟩ := e
  have hgo : (l.phase != .preempted || !s.granted l || !s.ctrFree l plan.ctrBase) = false := by rw [hphase, hgrant, hctr]; rfl
  have htables : (plan.tables.any fun e => !s.entryGranted l.part l.space plan.grants e.1) = false := by
    rw [List.any_eq_false]
    intro e he
    rw [hgranted e he]
    decide
  unfold State.resumed at hmaps honly
  simp only [State.resume, hat, hgo, hcores, hsaved, hroot, hentries, hwaits, htables, hmaps, honly, Bool.false_eq_true, if_false,
    Bool.and_self, Bool.not_true]
  generalize plan.tables.foldl (fun s e => s.writeEntry l.part e) s = t0
  have hlen' : i < saved.length := hlen.symm ▸ (List.getElem?_eq_some_iff.1 hi).1
  obtain ⟨hi', rfl⟩ := List.getElem?_eq_some_iff.1 hi
  have hmem : ((cores[i], i), saved[i]) ∈ cores.zipIdx.zip saved := by
    refine List.mem_iff_getElem.2 ⟨i, by simp [hi', hlen'], ?_⟩
    simp
  have hplaces : ((cores.zipIdx.zip saved).map fun p => coreOf p.1.1) = cores.map coreOf := by
    have hfst : (cores.zipIdx.zip saved).map Prod.fst = cores.zipIdx := List.map_fst_zip (by simp [← hlen])
    have hcoreNos : cores.zipIdx.map Prod.fst = cores := List.zipIdx_map_fst 0 cores
    calc (cores.zipIdx.zip saved).map (fun p => coreOf p.1.1)
      _ = (((cores.zipIdx.zip saved).map Prod.fst).map Prod.fst).map coreOf := by rw [List.map_map, List.map_map]; rfl
      _ = cores.map coreOf := by rw [hfst, hcoreNos]
  generalize hv : List.foldl _ t0 (cores.zipIdx.zip saved) = v
  have hseat : v.seats (coreOf cores[i]) = (some l.id, i) := by
    rw [← hv]
    exact (State.restoreCores_seats (l := s.resumed l root cores plan) (hplaces.symm ▸ hnodup) t0).1 _ hmem
  refine Eq.trans (congrFun ?_ _) hseat
  refine (State.seats_of_cores rfl).trans ((foldl_seats (fun u c => ?_) _ _).trans (State.seats_of_cores rfl))
  exact (State.takeRejected_seats _ _).trans (u.resendBanks_seats _)

end

/-! ## Back-pressure -/

section
variable {s : State} {c : CoreId} {l : Launch} {r : HRun}

theorem State.stallEpilogue_held (hlaunch : s.launchOf c = some l) (hepi : (s.core c).harrow.epilogue = some r) (hstop : l.stopping = true)
    (hrun : r.stalled = false)
    (hheld : (s.landRows c r).2.flight ≠ [] ∨ ((s.landRows c r).2.row < field (s.landRows c r).2.cmd.record 14 2 ∧
      (s.landRows c r).2.row % 16 ≠ 0 ∧ ∃ w, (s.landRows c r).1.mepiData c l (s.landRows c r).2 = .error (.wait w))) :
    s.stallEpilogue c = (s.landRows c r).1.modCore c (s.landRows c r).2.stall := by
  have hgo : (!l.stopping || r.stalled) = false := by rw [hstop, hrun]; rfl
  simp only [State.stallEpilogue, hlaunch, hepi, hgo, Bool.false_eq_true, if_false]
  refine if_pos ?_
  obtain hflight | ⟨hrow, hstep, w, hdata⟩ := hheld
  · rw [List.isEmpty_eq_false_iff.2 hflight]
    rfl
  · rw [hdata, decide_eq_true hrow, bne_iff_ne.2 hstep]
    exact Bool.or_true _

theorem State.stallEpilogue_free (hlaunch : s.launchOf c = some l) (hepi : (s.core c).harrow.epilogue = some r) (hstop : l.stopping = true)
    (hrun : r.stalled = false) (hflight : (s.landRows c r).2.flight = []) (hstep : (s.landRows c r).2.row % 16 = 0) :
    s.stallEpilogue c = s := by
  have hgo : (!l.stopping || r.stalled) = false := by rw [hstop, hrun]; rfl
  simp only [State.stallEpilogue, hlaunch, hepi, hgo, Bool.false_eq_true, if_false, hflight, hstep, List.isEmpty_nil, Bool.not_true,
    bne_self_eq_false, Bool.and_false, Bool.false_and, Bool.or_self]

theorem HRun.stall_cons {x : Core} {f : RowFlight} {rest : List RowFlight} (h : r.flight = f :: rest) :
    (r.stall x).strays = x.strays ++ r.flight.flatMap (·.packets) ∧ (r.stall x).harrow.gens = f.gens ∧
      (r.stall x).harrow.running = some { r with row := f.row, flight := [], stalled := true } := by
  unfold HRun.stall
  rw [h]
  exact ⟨rfl, rfl, rfl⟩

theorem State.stallEpilogue_none (h : (s.core c).harrow.epilogue = none) : s.stallEpilogue c = s := by
  unfold State.stallEpilogue
  rw [h]
  split
  · rename_i hr
    cases hr
  · rfl

theorem State.performStray_nil (h : (s.core c).strays = []) : s.performStray c = s := by
  unfold State.performStray
  rw [h]

theorem State.performStray_cons {p : Stray} {rest : List Stray} (h : (s.core c).strays = p :: rest)
    (hdemand : s.engineDemand (From.ofEngine c) [p.acc] .store = none) :
    s.performStray c = ((s.engineArrive (From.ofEngine c) [p.acc] .store).engineWrite p.acc.keys p.data []).modCore c fun x =>
      { x with strays := rest } := by
  simp only [State.performStray, h, hdemand]

end

end Sys2Proof.Machine
end

section
/-! PROOF. O58: queues and launches. -/

namespace Sys2Proof.Machine
open Stmt

/-- Settles O58: the registers, entries and records of queues (exec_doorbell to exec_cqRecordWrite), and each step of a launch from its
grant to its end, its pre-emption and its resumption, from the lemma about that step. -/
theorem queueAndLaunchEvents : Obligations.QueueAndLaunchEvents := by
  unfold Obligations.QueueAndLaunchEvents
  refine ⟨fun s q tail hq hactive => exec_doorbell tail hq hactive, fun s q tail v hactive => exec_queue_inactive tail v hactive, ?qctl,
    ?cqhead, ?launch, ?cancel, ?stop, fun s q h => exec_no_entry h, ?record, ?sweep, fun s l status => s.not_mem_endLaunch l status, ?grant,
    fun s l c => s.startControl_ctx l c, ?preempt, fun s l x h => State.endSaved_found h, ?save, fun s l k h => State.launchAt_beginStop h,
    ?resume, ?stall, fun r x f rest h => HRun.stall_cons h, fun s c h => congrArg Host.Outcome.next (State.stallEpilogue_none h), ?stray⟩
  case qctl =>
    intro s q v hq hactive
    obtain ⟨t, hexec, hmem, hqueue⟩ := exec_qCtlWrite v hq hactive
    refine ⟨t, hexec, hmem, ?_⟩
    rw [hqueue]
    exact (s.queue q).ctlWritten_spec v
  case cqhead =>
    intro s q head hq
    exact ⟨_, rfl, s.modQueue_mem q _, s.queue_modQueue _ hq⟩
  case launch =>
    intro s s1 q root b hrun hread hop hlow hhigh
    refine ⟨fun hroot => congrArg Host.Outcome.next (State.launchEntry_no_root hrun hread hop hlow hhigh hroot), fun hroot => ⟨?_, ?_⟩⟩
    · intro c a hcheck
      exact congrArg Host.Outcome.next (State.launchEntry_refused hrun hread hop hlow hhigh hroot hcheck)
    · intro s2 l' hcheck
      exact congrArg Host.Outcome.next (State.launchEntry_joins hrun hread hop hlow hhigh hroot hcheck)
  case cancel =>
    intro s s1 q b hrun hread hop
    refine ⟨fun hnone => congrArg Host.Outcome.next ?_, fun l hl => congrArg Host.Outcome.next ?_⟩
    · rw [State.cancelEntry_of_read hrun hread hop, hnone]
    · rw [State.cancelEntry_of_read hrun hread hop, hl]
  case stop =>
    intro s l status
    refine ⟨State.stopLaunch_not_live status, fun hlive => ⟨fun hstop => ?_, fun hgo hopen => ?_, fun hgo hall l1 hfind => ?_⟩⟩
    · rw [State.stopLaunch_live status hlive, if_pos hstop]
      rfl
    · exact (State.stopLaunch_live status hlive).trans ((if_neg (hgo ▸ Bool.false_ne_true)).trans (State.endStopped_unsettled hopen))
    · exact (State.stopLaunch_live status hlive).trans ((if_neg (hgo ▸ Bool.false_ne_true)).trans (State.endStopped_settled hall hfind))
  case record =>
    intro s q r rest a hq hinv hrun x hrecs
    refine ⟨fun hfull => congrArg Host.Outcome.next (State.writeRecord_full hfull), fun hroom hslot hdemand hquar => ?_⟩
    exact exec_cqRecordWrite hq hinv hrun hrecs hroom hslot hdemand hquar
  case sweep =>
    intro s k l hat
    exact ⟨fun hlive hrun => congrArg Host.Outcome.next (State.sweep_live hat hlive hrun),
      fun h => congrArg Host.Outcome.next (State.sweep_idle hat h), fun t hbound => congrArg Host.Outcome.next (State.limit_bound hat hbound)⟩
  case grant =>
    intro s k l plan hat
    exact ⟨fun h => congrArg Host.Outcome.next (State.grant_not_due plan hat h),
      fun cores hdue hgrant hcores => congrArg Host.Outcome.next (State.grant_cores hat hdue hgrant hcores)⟩
  case preempt =>
    intro s k l hat
    refine ⟨fun h => congrArg Host.Outcome.next (State.preempt_none hat h),
      fun hlive hstop hsave => congrArg Host.Outcome.next (State.preempt_ending hat hlive hstop hsave), fun hlive hsave => ?_⟩
    refine ⟨fun hopen => congrArg Host.Outcome.next ?_, fun l1 hat1 hstand => ⟨fun s2 hwait => congrArg Host.Outcome.next ?_,
      fun hwait => congrArg Host.Outcome.next ?_⟩⟩
    · rw [State.preempt_saving hat hlive hsave, if_neg fun h => hopen ((State.standing_iff (s.settledFor l) l).1 h)]
      rfl
    · have hat1' : (s.settledFor l).launchAt k = some l1 := hat1
      have hwait' : (s.settledFor l).saveWaits l1 l1.cores.length .store = some s2 := hwait
      rw [State.preempt_saving hat hlive hsave, if_pos ((State.standing_iff (s.settledFor l) l).2 hstand)]
      simp only [hat1', hwait']
    · have hat1' : (s.settledFor l).launchAt k = some l1 := hat1
      have hwait' : (s.settledFor l).saveWaits l1 l1.cores.length .store = none := hwait
      rw [State.preempt_saving hat hlive hsave, if_pos ((State.standing_iff (s.settledFor l) l).2 hstand)]
      simp only [hat1', hwait']
      rfl
  case save =>
    intro s l c hc
    exact s.saveLaunch_free l hc
  case resume =>
    intro s k root l plan cores e hat
    refine ⟨fun h => congrArg Host.Outcome.next (State.resume_none hat h), ?_⟩
    intro hphase hgrant hctr hcores hsaved hnodup hlen hroot hentries hwaits hgranted t0 l1 hmaps honly
    refine ⟨_, rfl, fun i c hi => ?_⟩
    have hseat := State.resume_seats hat hphase hgrant hctr hcores hsaved hnodup hlen hroot hentries hwaits hgranted hmaps honly hi
    exact ⟨congrArg Prod.fst hseat, congrArg Prod.snd hseat⟩
  case stall =>
    intro s c l r hlaunch hepi hstop hrun
    exact ⟨fun hheld => congrArg Host.Outcome.next (State.stallEpilogue_held hlaunch hepi hstop hrun hheld),
      fun hflight hstep => congrArg Host.Outcome.next (State.stallEpilogue_free hlaunch hepi hstop hrun hflight hstep)⟩
  case stray =>
    intro s c p rest
    exact ⟨fun h => congrArg Host.Outcome.next (State.performStray_nil h),
      fun h hdemand => congrArg Host.Outcome.next (State.performStray_cons h hdemand)⟩

end Sys2Proof.Machine
end

section
/-! PROOF. Firing, starting and completing entries of the sower, and programs (R309 to R311, R313, R322 to R324). -/

namespace Sys2Proof.Machine
open Stmt

/-! ## Firing -/

section
variable {s : State} {h : Nat} {e : Entry}

theorem State.fire_met {o : Nat} (he : s.sower.entry h = some e) (hphase : e.phase = .met o)
    (hfirst : ∀ x ∈ s.sower.entries, ∀ p, x.phase = .met p → o ≤ p) :
    s.fire h = s.modSower fun w => w.modEntry h fun e => { e with phase := .fired o } := by
  simp only [State.fire, he, hphase]
  refine if_pos (List.all_eq_true.2 fun x hx => ?_)
  split
  · rename_i p hp
    exact decide_eq_true (hfirst x hx p hp)
  · rfl

theorem State.fire_time (he : s.sower.entry h = some e) (hphase : e.phase = .unfired) (hmet : e.timeMet (word s.stime) = true) :
    s.fire h = s.fireMet := by
  simp only [State.fire, he, hphase, hmet, if_true]

theorem Entry.timeMet_iff (e : Entry) (now : Word) :
    e.timeMet now = true ↔ e.phase = .unfired ∧ e.ctr = none ∧ thresholdMet now e.rec_.thresh = true := by
  simp only [Entry.timeMet, Bool.and_eq_true, beq_iff_eq, Option.isNone_iff_eq_none, and_assoc]

/-- An entry that has taken its place in the firing order waits for STIME no more. -/
theorem Entry.timeMet_met (e : Entry) (now : Word) (o : Nat) : ({ e with phase := .met o } : Entry).timeMet now = false := rfl

/-- Of two entries on STIME the one met in the earlier cycle is met first, and of one cycle the lower handle (R310). -/
theorem meetTimes_pair {now : Word} {o : Nat} {e f : Entry} (hlt : e.handle < f.handle) (he : e.timeMet now = true) (hf : f.timeMet now = true) :
    (meetTimes now 2 o [e, f]).1 = if f.metCycle now < e.metCycle now
      then [{ e with phase := .met (o + 1) }, { f with phase := .met o }] else [{ e with phase := .met o }, { f with phase := .met (o + 1) }] := by
  have hself (x : Entry) : x.timeBefore now x = false := by simp [Entry.timeBefore]
  have hne : ¬ e.handle = f.handle := by omega
  by_cases hcyc : f.metCycle now < e.metCycle now
  · have hfe : f.timeBefore now e = true := by simp [Entry.timeBefore, hcyc]
    have hef : e.timeBefore now f = false := by
      simp only [Entry.timeBefore, Bool.or_eq_false_iff, Bool.and_eq_false_iff, decide_eq_false_iff_not, beq_eq_false_iff_ne]
      omega
    rw [if_pos hcyc]
    simp [meetTimes, he, hf, hself, hfe, hef, hne, Ne.symm hne, Entry.timeMet_met]
  · have hfe : f.timeBefore now e = false := by
      simp only [Entry.timeBefore, Bool.or_eq_false_iff, Bool.and_eq_false_iff, decide_eq_false_iff_not, beq_eq_false_iff_ne]
      omega
    rw [if_neg hcyc]
    simp [meetTimes, he, hf, hself, hfe, hne, Ne.symm hne, Entry.timeMet_met]

theorem State.fireMet_pair {f : Entry} (hentries : s.sower.entries = [e, f]) (hlt : e.handle < f.handle)
    (he : e.timeMet (word s.stime) = true) (hf : f.timeMet (word s.stime) = true) :
    s.fireMet.sower.entries = if f.metCycle (word s.stime) < e.metCycle (word s.stime)
      then [{ e with phase := .fired (s.sower.order + 1) }, { f with phase := .fired s.sower.order }]
      else [{ e with phase := .fired s.sower.order }, { f with phase := .fired (s.sower.order + 1) }] := by
  have hmet := meetTimes_pair (o := s.sower.order) hlt he hf
  have hclock : s.meetClock.sower.entries = (meetTimes (word s.stime) 2 s.sower.order [e, f]).1 := by
    show (meetTimes (word s.stime) s.sower.entries.length s.sower.order s.sower.entries).1 = _
    rw [hentries]
    rfl
  unfold State.fireMet State.modSower
  dsimp only
  rw [hclock, hmet]
  split <;> rfl

end

/-! ## Starting -/

section
variable {s : State} {h op : Nat} {mk : ERec → Comm → Xfer} {e : Entry} {c : Comm}

theorem State.beginEntry_startable (hs : s.sower.startable h op = some (e, c)) : s.beginEntry h op mk = started s h (mk e.rec_ c) := by
  simp only [State.beginEntry, hs]
  rfl

theorem Sower.startable_none (hnone : s.sower.entry h = none) : s.sower.startable h op = none := by
  simp only [Sower.startable, hnone]

theorem Sower.startable_some {w : Sower} (hs : w.startable h op = some (e, c)) : w.entry h = some e ∧ w.entryComm e = some c := by
  unfold Sower.startable at hs
  split at hs
  · cases hs
  · rename_i x hx
    split at hs
    · rename_i o d hphase hcomm
      dsimp only at hs
      split at hs
      · obtain ⟨rfl, rfl⟩ := Prod.mk.inj (Option.some.inj hs)
        exact ⟨hx, hcomm⟩
      · cases hs
    · cases hs

theorem Sower.entry_modEntry {w : Sower} (f : Entry → Entry) (hf : ∀ e, (f e).handle = e.handle) (he : w.entry h = some e) :
    (w.modEntry h f).entry h = some (f e) := by
  unfold Sower.entry Sower.modEntry at *
  rw [List.find?_map]
  have hpred : ((fun e : Entry => e.handle == h) ∘ fun e => if e.handle = h then f e else e) = fun e => e.handle == h := by
    funext x
    dsimp only [Function.comp]
    split
    · rw [hf]
    · rfl
  rw [hpred, he]
  have hh : e.handle = h := beq_iff_eq.1 (List.find?_some (p := fun e : Entry => e.handle == h) he)
  simp [hh]

/-- The transfer of a started entry, which has no other, is found by its handle, and its communicator is the entry's. -/
theorem State.started_found (x : Xfer) (hfwd : x.fwd = none) (he : s.sower.entry h = some e) (hc : s.sower.entryComm e = some c)
    (hnone : ∀ x ∈ s.sower.xfers, x.handle ≠ h) :
    ∃ y, ((started s h x).sower.xfers.find? fun x => x.handle == h) = some y ∧ y.peer = x.peer ∧
      (started s h x).sower.xferComm y = some c := by
  have hfresh (y : Xfer) : y.fresh.handle = y.handle ∧ y.fresh.peer = y.peer ∧ y.fresh.fwd = y.fwd := by
    unfold Xfer.fresh
    split <;> exact ⟨rfl, rfl, rfl⟩
  obtain ⟨hhandle, hpeer, hfwd'⟩ := hfresh { x with id := s.sower.nextXfer, handle := h }
  refine ⟨_, ?_, hpeer, ?_⟩
  · show (s.sower.xfers ++ [_]).find? _ = _
    rw [List.find?_append, List.find?_eq_none.2 fun y hy => by simpa using hnone y hy, Option.none_or, List.find?_singleton]
    exact if_pos (beq_iff_eq.2 hhandle)
  · unfold Sower.xferComm
    rw [hfwd'.trans hfwd]
    show ((started s h x).sower.entry _).bind _ = _
    rw [hhandle]
    show ((s.sower.modEntry h fun e => { e with phase := .running }).entry h).bind _ = _
    rw [Sower.entry_modEntry (fun e => { e with phase := .running }) (fun _ => rfl) he]
    exact hc

theorem State.beginOrRetry_startable (hs : s.sower.startable h op = some (e, c)) (hfwd : (mk e.rec_ c).fwd = none)
    (hnone : ∀ x ∈ s.sower.xfers, x.handle ≠ h) :
    s.beginOrRetry h op mk = (started s h (mk e.rec_ c)).drainComm c (mk e.rec_ c).peer := by
  obtain ⟨he, hc⟩ := Sower.startable_some hs
  obtain ⟨y, hfound, hpeer, hcomm⟩ := State.started_found (mk e.rec_ c) hfwd he hc hnone
  have hfirst : (s.sower.xfers.find? fun x => x.handle == h) = none := List.find?_eq_none.2 fun y hy => by simpa using hnone y hy
  simp only [State.beginOrRetry, hfirst, State.beginEntry_startable hs, hfound, hcomm, hpeer]

theorem State.beginOrRetry_none (he : s.sower.entry h = none) (hnone : ∀ x ∈ s.sower.xfers, x.handle ≠ h) :
    s.beginEntry h op mk = s ∧ s.beginOrRetry h op mk = s := by
  have hbegin : s.beginEntry h op mk = s := by simp only [State.beginEntry, Sower.startable_none he]
  have hfirst : (s.sower.xfers.find? fun x => x.handle == h) = none := List.find?_eq_none.2 fun y hy => by simpa using hnone y hy
  refine ⟨hbegin, ?_⟩
  simp only [State.beginOrRetry, hfirst, hbegin]

end

theorem exec_entryStart {i : Fin 16384 → Instr} {op : Nat} {mk : ERec → Comm → Xfer} (hi : EntryStart i op mk) (h : Fin 16384) (s : State) :
    exec (i h) s = .next (s.beginEntry h.val op mk) := by
  cases hi <;> rfl

theorem exec_entryReceive {i : Fin 16384 → Instr} {op : Nat} {mk : ERec → Comm → Xfer} (hi : EntryReceive i op mk) (h : Fin 16384)
    (s : State) : exec (i h) s = .next (s.beginOrRetry h.val op mk) := by
  cases hi <;> rfl

theorem EntryReceive.fwd_none {i : Fin 16384 → Instr} {op : Nat} {mk : ERec → Comm → Xfer} (hi : EntryReceive i op mk) (r : ERec) (c : Comm) :
    (mk r c).fwd = none := by
  cases hi <;> rfl

/-! ## Completion -/

theorem State.waitEntry_startable {s : State} {h : Nat} {e : Entry} {c : Comm} (hs : s.sower.startable h 5 = some (e, c)) :
    s.waitEntry h = s.finishEntry e c := by
  simp only [State.waitEntry, hs]

theorem State.entryCompletes_done {s : State} {h : Nat} {e : Entry} {x : Xfer} {c : Comm} (he : s.sower.entry h = some e)
    (hx : s.sower.xfers.find? (fun x => x.handle == h) = some x) (hc : s.sower.entryComm e = some c) (hrun : e.phase = .running)
    (hprog : e.prog = none) (hactive : c.active = true) (hdone : s.xferDone x = true) (hout : s.sower.putsOut x = false) :
    s.entryCompletes h = s.finishEntry e c := by
  have hack : s.acknowledgePut h = s := by
    simp only [State.acknowledgePut, hx, hout, Bool.false_and, Bool.false_eq_true, if_false]
  simp only [State.entryCompletes, hack, he, hx, hc, hrun, hprog, hactive, hdone]
  rfl

/-! ## What raises leave of the entries -/

theorem handles_meetTimes (now : Word) (fuel o : Nat) (l : List Entry) : (meetTimes now fuel o l).1.map (·.handle) = l.map (·.handle) := by
  induction fuel generalizing o l with
  | zero => rfl
  | succ fuel ih =>
    unfold meetTimes
    split
    · rfl
    · rw [ih, List.map_map]
      refine List.map_congr_left fun x _ => ?_
      dsimp only [Function.comp]
      split <;> rfl

theorem handles_meetEntries (c : Nat) (v : Word) (o : Nat) (l : List Entry) :
    (meetEntries c v o l).1.map (·.handle) = l.map (·.handle) := by
  induction l generalizing o with
  | nil => rfl
  | cons e l ih =>
    unfold meetEntries
    dsimp only
    rw [List.map_cons, List.map_cons, ih]
    congr 1
    split <;> rfl

/-- The handles of the sower's entries. -/
def State.handles (s : State) : List Nat := s.sower.entries.map (·.handle)

theorem State.raise_handles (s : State) (k : Nat) (v : Word) : (s.raise k v).handles = s.handles :=
  (handles_meetEntries k _ _ _).trans (handles_meetTimes _ _ _ _)

theorem State.raiseFor_handles (s : State) (c : Comm) (k : Option Nat) (n : Nat) : (s.raiseFor c k n).handles = s.handles := by
  unfold State.raiseFor
  split
  · rfl
  · split
    · exact s.raise_handles _ _
    · rfl

/-- An entry that completes frees its handle (R311). -/
theorem State.finishEntry_free (s : State) (e : Entry) (c : Comm) : ∀ x ∈ (s.finishEntry e c).sower.entries, x.handle ≠ e.handle := by
  intro x hx
  have hmem : x.handle ∈ (s.finishEntry e c).handles := List.mem_map.2 ⟨x, hx, rfl⟩
  unfold State.finishEntry at hmem
  dsimp only at hmem
  rw [State.raiseFor_handles, State.raiseFor_handles] at hmem
  obtain ⟨y, hy, hxy⟩ := List.mem_map.1 hmem
  have hkept := (List.mem_filter.1 hy).2
  rw [← hxy]
  exact bne_iff_ne.1 hkept

/-! ## Programs -/

section
variable {s : State} {h : Nat} {e : Entry} {c : Comm}

theorem State.beginProg_steps {s1 : State} {steps : List PStep} (hs : s.sower.startable h 8 = some (e, c))
    (hread : s.readSteps (s.commLaunch c) c (field e.rec_.body 4 4) (word (field e.rec_.body 8 8)) (word (field e.rec_.body 8 8)) 256 [] =
      .ok (s1, steps)) (hloops : ∀ p ∈ steps, p.kind = 6 ∨ p.kind = 7 → p.peer ≤ steps.length) :
    s.beginProg h = s1.modSower fun w => w.modEntry h fun e => { e with phase := .running, prog := some { steps } } := by
  have hfind : (steps.findIdx? fun p => (p.kind == 6 || p.kind == 7) && decide (steps.length < p.peer)) = none := by
    rw [List.findIdx?_eq_none_iff]
    intro p hp
    by_cases hk : p.kind = 6 ∨ p.kind = 7
    · rw [decide_eq_false (Nat.not_lt.2 (hloops p hp hk)), Bool.and_false]
    · rw [not_or] at hk
      rw [beq_false_of_ne hk.1, beq_false_of_ne hk.2]
      rfl
  simp only [State.beginProg, hs, hread, hfind]

/-- A read of the sower of a range whose accesses go on and that holds no poison (R314, R432). -/
theorem State.sowerRead_ok {l : Launch} {va : Word} {n : Nat} {as : List Acc} (haccs : s.sowerAccs l .sread va n = .ok as)
    (hdemand : s.engineDemand .ofHeadland as .read = none) (consumes : Bool)
    (hclean : consumes = true → ∀ k ∈ as.flatMap (·.keys), s.poison.contains (k / 32) = false) :
    s.sowerRead l va n consumes = .ok (s.engineArrive .ofHeadland as .read, s.bytesAt (as.flatMap (·.keys)),
      (as.flatMap (·.keys)).map fun k => s.poison.contains (k / 32)) := by
  unfold State.sowerRead
  refine except_bind_eq haccs ?_
  have hgo : s.sowerDemand as .read = .ok () := by simp only [State.sowerDemand, hdemand]
  refine except_bind_eq hgo ?_
  dsimp only
  have hidx : (if consumes = true then ((as.flatMap (·.keys)).map fun k => s.poison.contains (k / 32)).findIdx? id else none) = none := by
    split
    · rename_i hc
      rw [List.findIdx?_eq_none_iff]
      intro b hb
      obtain ⟨k, hk, rfl⟩ := List.mem_map.1 hb
      exact hclean hc k hk
    · rfl
  rw [hidx]

theorem State.beginProg_end {as : List Acc} (hs : s.sower.startable h 8 = some (e, c))
    (haccs : s.sowerAccs (s.commLaunch c) .sread (word (field e.rec_.body 8 8)) 32 = .ok as)
    (hdemand : s.engineDemand .ofHeadland as .read = none)
    (hclean : ∀ k ∈ as.flatMap (·.keys), s.poison.contains (k / 32) = false) (hend : field (s.bytesAt (as.flatMap (·.keys))) 0 1 = 0)
    (hstep : stepCause c (field e.rec_.body 4 4) (s.bytesAt (as.flatMap (·.keys))) = none) :
    s.beginProg h = (s.engineArrive .ofHeadland as .read).modSower fun w => w.modEntry h fun e =>
      { e with phase := .running, prog := some { steps := [] } } := by
  refine State.beginProg_steps hs ?_ fun p hp => absurd hp List.not_mem_nil
  unfold State.readSteps
  refine except_bind_eq (State.sowerRead_ok haccs hdemand true fun _ => hclean) ?_
  dsimp only
  rw [hstep]
  exact if_pos hend

/-- What the runner of a program does that has no step under way (R324). -/
def State.progMove (s : State) (h : Nat) (e : Entry) (c : Comm) (p : Prog) (t : PStep) : State :=
  if t.kind = 6 then s.modSower fun w => w.modEntry h fun f => f.atStep { p with
      i0 := p.i0 + 1, next := if p.i0 + 1 < field f.rec_.body 0 2 then t.peer else p.next + 1 }
  else if t.kind = 7 then s.modSower fun w => w.modEntry h fun f => f.atStep { p with
      i1 := p.i1 + 1, i0 := 0, next := if p.i1 + 1 < field f.rec_.body 2 2 then t.peer else p.next + 1 }
  else
    let s' := (s.startXfer h (s.stepXfer e c p t)).modSower fun w => w.modEntry h fun f => f.atStep { p with next := p.next + 1 }
    if t.kind = 2 ∨ t.kind = 3 then s'.drainComm c (s.stepXfer e c p t).peer else s'

theorem State.progStep_free {p : Prog} (he : s.sower.entry h = some e) (hc : s.sower.entryComm e = some c) (hprog : e.prog = some p)
    (hactive : c.active = true) (hfree : ∀ x ∈ s.sower.xfers, x.handle ≠ h) :
    s.progStep h = match p.steps[p.next]? with
      | none => s.finishEntry e c
      | some t => s.progMove h e c p t := by
  have hnone : s.sower.xfers.filter (fun x => x.handle == h && s.xferDone x) = [] := by
    rw [List.filter_eq_nil_iff]
    intro x hx
    rw [beq_false_of_ne (hfree x hx)]
    exact Bool.false_ne_true
  have hsame : (s.modSower fun w => { w with xfers := w.xfers.filter fun x => !([] : List Nat).contains x.id }) = s := by
    have : s.sower.xfers.filter (fun x => !([] : List Nat).contains x.id) = s.sower.xfers := List.filter_eq_self.2 fun _ _ => rfl
    unfold State.modSower
    dsimp only
    rw [this]
  have hbusy : (s.sower.xfers.countP fun x => x.handle == h) = 0 := by
    rw [List.countP_eq_zero]
    intro x hx
    rw [beq_false_of_ne (hfree x hx)]
    exact Bool.false_ne_true
  cases hstep : p.steps[p.next]? with
  | none =>
    simp only [State.progStep, he, hc, hprog, hactive, Bool.not_true, Bool.false_eq_true, if_false, hnone, List.map_nil, hsame, hbusy, hstep,
      if_true]
  | some t =>
    have hgo : (!t.overlap && (0 : Nat) != 0 || decide (64 ≤ 0)) = false := by simp
    simp only [State.progStep, he, hc, hprog, hactive, Bool.not_true, Bool.false_eq_true, if_false, hnone, List.map_nil, hsame, hbusy, hstep,
      hgo, State.progMove]

end

end Sys2Proof.Machine
end

section
/-! PROOF. Chunks of the sower: staging slots, arbitration, arrivals, puts and blocks that are passed on (R313 to R316, R321, R325,
R402). -/

namespace Sys2Proof.Machine
open Stmt

/-! ## Grants and outputs -/

theorem State.grantSlot_due {s : State} {n : Nat} {x : Xfer} {c : Comm} (hx : s.sower.xfers.find? (fun x => x.id == n) = some x)
    (hc : s.sower.xferComm x = some c) (hfree : x.granted = false) (hop : x.op ≠ .copy) (hdue : s.chunkDue x c = true)
    (hslot : c.inside (x.target c) = true → ∃ p, s.sower.member c (x.target c) = some p ∧ s.sower.slotsUsed p c < 2) :
    s.grantSlot n = s.modSower fun w => { w with xfers := w.xfers.map fun y => if y.id = n then { y with granted := true } else y } := by
  have hactive : c.active = true := by
    by_contra hno
    rw [Bool.not_eq_true] at hno
    rw [State.chunkDue, hno] at hdue
    simp at hdue
  have hgo : (x.granted || x.op == .copy || !c.active || !s.chunkDue x c) = false := by
    rw [hfree, beq_false_of_ne hop, hactive, hdue]
    rfl
  cases hin : c.inside (x.target c) with
  | false => simp only [State.grantSlot, hx, hc, hgo, hin, Bool.false_eq_true, if_false, Bool.not_true, Bool.or_self]
  | true =>
    obtain ⟨p, hp, hused⟩ := hslot hin
    simp only [State.grantSlot, hx, hc, hgo, hin, hp, hused, decide_true, if_true, Bool.false_eq_true, if_false, Bool.not_true, Bool.or_self]

section
variable {s : State} {out : Nat} {x : Xfer} {c : Comm}

/-- No chunk that is ready at an output has lost its last path (R402). -/
def State.NoneLost (s : State) (out : Nat) : Prop :=
  ∀ y ∈ s.sower.xfers, ∀ d, s.sower.xferComm y = some d → s.chunkDue y d = true → y.granted = true → s.pathTo d (y.target d) ≠ .lost out

theorem State.startChunk_of_noneLost (h : s.NoneLost out) :
    s.startChunk out = s.serve out (s.readyChunks out) (s.readyChunks out).length := by
  have hnone : (s.sower.xfers.find? fun x =>
      match s.sower.xferComm x with
      | some c => s.chunkDue x c && x.granted && s.pathTo c (x.target c) == .lost out
      | none => false) = none := by
    refine List.find?_eq_none.2 fun y hy hlost => ?_
    split at hlost
    · rename_i d hd
      rw [Bool.and_eq_true, Bool.and_eq_true, beq_iff_eq] at hlost
      obtain ⟨⟨hdue, hgranted⟩, hpath⟩ := hlost
      exact h y hy d hd hdue hgranted hpath
    · cases hlost
  unfold State.startChunk
  dsimp only
  split
  · rename_i y hy
    exact absurd (hnone.symm.trans hy) (by simp)
  · rfl

/-- The arbiter chooses among chunks, so there is one where it chooses. -/
theorem State.arbitrate_ne_nil {l : List (Xfer × Comm)} (h : s.arbitrate out l = some (x, c)) : l ≠ [] := by
  rintro rfl
  cases h

theorem State.startChunk_moves {s1 : State} (hlost : s.NoneLost out) (harb : s.arbitrate out (s.readyChunks out) = some (x, c))
    (hmove : s.moveOut x c out = .ok s1) : s.startChunk out = s1.served ((s.readyChunks out).map (·.1.id)) out x c := by
  rw [State.startChunk_of_noneLost hlost]
  generalize s.readyChunks out = l at *
  obtain ⟨n, hn⟩ : ∃ n, l.length = n + 1 := Nat.exists_eq_succ_of_ne_zero (List.length_pos_iff.2 (State.arbitrate_ne_nil harb)).ne'
  rw [hn]
  simp only [State.serve, harb, hmove]

/-- The state in which a SEND's next chunk has left (R313). -/
def State.chunkSent (s : State) (x : Xfer) (c : Comm) (out : Nat) (as : List Acc) : State :=
  let n := min x.chunk (x.len - x.out)
  let ks := as.flatMap (·.keys)
  (((s.engineArrive .ofHeadland as .read).modSower fun w => w.setXfer { x with
      out := x.out + n, outDone := decide (x.len ≤ x.out + n), granted := false, passed := 0 }).sendTo c x x.peer out
    (.chunk { total := x.len, off := x.out, data := s.bytesAt ks, bad := ks.map fun k => s.poison.contains (k / 32), rank := c.rank })).raiseChunk x c

theorem State.moveOut_send {as : List Acc} (hop : x.op = .send)
    (haccs : s.sowerAccs (s.commLaunch c) .sread (x.src + word x.out) (min x.chunk (x.len - x.out)) = .ok as)
    (hdemand : s.engineDemand .ofHeadland as .read = none) : s.moveOut x c out = .ok (s.chunkSent x c out as) := by
  unfold State.moveOut
  dsimp only
  rw [hop]
  exact except_bind_eq (State.sowerRead_ok haccs hdemand false fun h => absurd h (by decide)) (by rw [State.chunkSent, hop])

theorem State.startChunk_nil (h : s.sower.xfers = []) : s.startChunk out = s := by
  have hready : s.readyChunks out = [] := by rw [State.readyChunks, h]; rfl
  have hlost : s.NoneLost out := fun y hy => absurd hy (h ▸ List.not_mem_nil)
  rw [State.startChunk_of_noneLost hlost, hready]
  rfl

end

/-! ## Arrivals -/

section
variable {s : State} {cm src : Nat} {c : Comm}

theorem State.chunkArrives_flight {f : SFlight} {m : ChunkMsg} (hc : s.sower.comms[cm]? = some c) (hf : c.nextFlight src = some f)
    (hm : f.msg = .chunk m) (ext : Option ChunkMsg) :
    s.chunkArrives cm src ext = (s.modSower fun w => w.modComm c.serial fun c =>
      { c with flight := c.flight.erase f, staged := c.staged ++ [(src, m)] }).drainComm c src := by
  simp only [State.chunkArrives, hc, hf, hm]

theorem State.chunkArrives_outside (hc : s.sower.comms[cm]? = some c) (hf : c.nextFlight src = none) (m : ChunkMsg) :
    s.chunkArrives cm src (some m) = (s.chunkFrom c src m).drainComm c src := by
  simp only [State.chunkArrives, hc, hf]

/-- A chunk from outside that its communicator can stage goes by the rank that it names and by its place in the sequence (R316, R402). -/
theorem State.chunkFrom_slot {m : ChunkMsg} (hin : c.inside src = false) (hsrc : src < c.n) (hlen : m.data.length ≤ m.total - m.off)
    (hslot : s.sower.hasSlot c src = true) :
    s.chunkFrom c src m = match m.dest.filter (· != c.rank) with
      | some d => s.passOn c src d m.data.length (.chunk { m with dest := none })
      | none =>
        match c.inTurn src m.seq with
        | .lt => s
        | .gt => s.comeAgain
        | .eq => s.modSower fun w => (w.hear c src).modComm c.serial fun c => { c with staged := c.staged ++ [(src, m)] } := by
  have hgo : (c.inside src || decide (c.n ≤ src) || decide (m.total - m.off < m.data.length) || !s.sower.hasSlot c src) = false := by
    rw [hin, decide_eq_false (Nat.not_le.2 hsrc), decide_eq_false (Nat.not_lt.2 hlen), hslot]
    rfl
  unfold State.chunkFrom
  rw [hgo]
  rfl

theorem State.passOn_active (d n : Nat) (m : SMsg) (h : c.active = true) :
    s.passOn c src d n m = s.startXfer 16384
      { id := 0, handle := 0, op := .relay, peer := d, len := n, chunk := n, fwd := some { serial := c.serial, src, dst := d, msg := m } } :=
  if_pos h

theorem State.passOn_failed (d n : Nat) (m : SMsg) (h : c.active = false) : s.passOn c src d n m = s.abandon :=
  if_neg (by rw [h]; exact Bool.false_ne_true)

theorem filter_ne_self {d r : Nat} (h : d ≠ r) : (some d).filter (· != r) = some d := by
  simp [Option.filter, h]

theorem State.putArrives_flight {s1 : State} {f : SFlight} {m : PutMsg} (hc : s.sower.comms[cm]? = some c) (hf : c.nextFlight src = some f)
    (hm : f.msg = .put m)
    (hput : s.performPut c src (((s.sower.xfers.find? fun x => x.id == f.xfer).map (·.handle)).getD 0) m = .ok s1) (ext : Option PutMsg) :
    s.putArrives cm src ext =
      ((s1.modSower fun w => w.modComm c.serial fun c => { c with flight := c.flight.erase f }).putDone f.xfer m.data.length m.last).abandon := by
  simp only [State.putArrives, hc, hf, hm, hput]

/-- What a PUT that writes leaves at the peer (R313, R433). -/
def State.putWritten (s : State) (c : Comm) (src : Nat) (m : PutMsg) (as : List Acc) : State :=
  let r := (s.engineArrive .ofHeadland as .store).partWrite ((assocGet c.covered src).getD []) (as.flatMap (·.keys)) m.data m.bad
  r.1.modSower fun w => w.modComm c.serial fun c =>
    { c with covered := if m.last ∨ r.2.isEmpty then assocDel c.covered src else assocSet c.covered src r.2 }

theorem State.performPut_write {m : PutMsg} {as : List Acc} (h : Nat) (hput : m.atomic = false) (hctr : m.last = false ∨ m.pctr = none)
    (haccs : s.sowerAccs (s.commLaunch c) .swrite m.dst m.data.length = .ok as) (hdemand : s.engineDemand .ofHeadland as .store = none) :
    s.performPut c src h m = .ok (s.putWritten c src m as) := by
  have hgo : s.sowerDemand as .store = .ok () := by simp only [State.sowerDemand, hdemand]
  have hpart : s.sowerPart (s.commLaunch c) m.dst m.data m.bad ((assocGet c.covered src).getD []) =
      .ok ((s.engineArrive .ofHeadland as .store).partWrite ((assocGet c.covered src).getD []) (as.flatMap (·.keys)) m.data m.bad) := by
    unfold State.sowerPart
    exact except_bind_eq haccs (except_bind_eq hgo rfl)
  have hdata : s.putData c src m = .ok (s.putWritten c src m as) := by
    unfold State.putData
    exact except_bind_eq hpart rfl
  have hnoctr : (if m.last = true then m.pctr else none) = none := by
    obtain h | h := hctr
    · rw [h]
      rfl
    · rw [h]
      exact ite_self _
  unfold State.performPut
  dsimp only
  rw [hput]
  refine except_bind_eq (a := s.putWritten c src m as) ?_ ?_
  · simpa using hdata
  · rw [hnoctr]

theorem State.putArrives_outside (hc : s.sower.comms[cm]? = some c) (hf : c.nextFlight src = none) (m : PutMsg) :
    s.putArrives cm src (some m) = s.putFrom c src m := by
  simp only [State.putArrives, hc, hf]

/-- A PUT from outside that is for this rank goes by its place in the sequence (R314, R402). -/
theorem State.putFrom_here {m : PutMsg} (hin : c.inside src = false) (hsrc : src < c.n) (hdest : m.dest = none) :
    s.putFrom c src m = match c.inTurn src m.seq with
      | .lt => s
      | .gt => s.comeAgain
      | .eq =>
        match s.performPut c src 0 m with
        | .ok s' => s'.modSower fun w => w.hear c src
        | .error (.wait s') => s'.comeAgain
        | .error e => (s.sowerStop c 0 e).modSower fun w => w.hear c src := by
  have hgo : (c.inside src || decide (c.n ≤ src)) = false := by
    rw [hin, decide_eq_false (Nat.not_le.2 hsrc)]
    rfl
  unfold State.putFrom
  rw [hgo, hdest]
  rfl

/-- A block in flight for another rank leaves the flight and is set to be passed on (R325). -/
theorem State.forwardBlock_flight {f : SFlight} {dst d : Nat} {m msg : ChunkMsg} (hc : s.sower.comms[cm]? = some c)
    (hf : c.nextFlight src = some f) (hm : f.msg = .block d m) (hd : d ≠ c.rank) :
    s.forwardBlock cm src dst msg = (s.modSower fun w => w.modComm c.serial fun c => { c with flight := c.flight.erase f }).passOn c src d
      m.data.length (.block d m) := by
  have hfrom : s.blockFrom c src dst msg = some (some f, d, m) := by
    simp only [State.blockFrom, hf, hm, if_neg hd]
  simp only [State.forwardBlock, hc, hfrom, if_neg hd]

end

/-! ## Sequences -/

theorem Comm.inTurn_next (c : Comm) (src : Nat) : c.inTurn src ((assocGet c.heard src).getD 0) = .eq := Nat.compare_eq_eq.2 rfl

theorem Sower.hear_found {w : Sower} {c d : Comm} {src : Nat} (hc : (w.comms.find? fun d => d.serial == c.serial) = some c)
    (hd : ((w.hear c src).comms.find? fun d => d.serial == c.serial) = some d) :
    assocGet d.heard src = some ((assocGet c.heard src).getD 0 + 1) := by
  have hpred : ((fun d : Comm => d.serial == c.serial) ∘ fun d : Comm =>
      if d.serial = c.serial then { d with heard := assocSet d.heard src ((assocGet d.heard src).getD 0 + 1) } else d) =
        fun d => d.serial == c.serial := by
    funext d
    dsimp only [Function.comp]
    split <;> rfl
  rw [Sower.hear, Sower.modComm, List.find?_map, hpred, hc, Option.map_some, if_pos rfl] at hd
  obtain rfl := Option.some.inj hd
  rw [assocGet_assocSet, if_pos rfl]

end Sys2Proof.Machine
end

section
/-! PROOF. Communicators that fail or are created, and the links that chunks leave by (R318, R319, R402), and O56. -/

namespace Sys2Proof.Machine
open Stmt

/-! ## Failures -/

/-- A communicator that has FAILED. -/
def Comm.failedWith (c : Comm) (f : Nat × Nat × Word) : Comm := { c with failed := some f, fault := none, notice := none }

theorem State.failComm_comms (s : State) (c : Comm) (f : Nat × Nat × Word) :
    (s.failComm c f).sower.comms = s.sower.comms.map fun d => if d.serial = c.serial then d.failedWith f else d := by
  unfold State.failComm
  dsimp only
  split <;> rfl

/-- An unfired entry of a communicator that fails is freed (R318). -/
theorem State.failComm_entries (s : State) (c : Comm) (f : Nat × Nat × Word) : ∀ e ∈ (s.failComm c f).sower.entries,
    e.part = c.part → e.launch = c.launch → e.rec_.comm = c.comm → e.phase ≠ .unfired := by
  intro e he hpart hlaunch hcomm hphase
  have hkept : e ∈ s.sower.entries.filter fun e => !(e.part == c.part && e.launch == c.launch && e.rec_.comm == c.comm &&
      (match e.phase with | .unfired => true | .met _ => true | _ => false)) := by
    unfold State.failComm at he
    dsimp only at he
    split at he <;> exact (List.mem_filter.1 he).1
  have := (List.mem_filter.1 hkept).2
  rw [hpart, hlaunch, hcomm, hphase] at this
  simp at this

section
variable {s : State} {cm : Nat} {c : Comm} {f : Nat × Nat × Word}

/-- The state in which a communicator has failed and the other members have their notices (R318). -/
def State.failNotified (s : State) (c : Comm) (f : Nat × Nat × Word) : State :=
  let s := (s.failComm c f).modSower fun w => { w with comms := w.comms.map fun d =>
      if d.gid = c.gid ∧ d.n = c.n ∧ d.serial ≠ c.serial ∧ d.failed = none then { d with notice := some f.1 } else d }
  { s with out := .notice c.comm f.1 :: s.out }

theorem State.commFails_fault (hc : s.sower.comms[cm]? = some c) (hf : c.fault = some f) : s.commFails cm = s.failNotified c f := by
  simp only [State.commFails, hc, hf]
  rfl

theorem State.failNotified_comm {n : Nat} {d : Comm} (hd : s.sower.comms[n]? = some d) :
    (s.failNotified c f).sower.comms[n]? =
      some (let d := if d.serial = c.serial then d.failedWith f else d
        if d.gid = c.gid ∧ d.n = c.n ∧ d.serial ≠ c.serial ∧ d.failed = none then { d with notice := some f.1 } else d) := by
  show ((s.failComm c f).sower.comms.map _)[n]? = _
  rw [State.failComm_comms, List.getElem?_map, List.getElem?_map, hd]
  rfl

theorem exec_communicatorFail (hc : s.sower.comms[cm]? = some c) (hf : c.fault = some f) :
    ∃ t, exec (.communicatorFail cm) s = .next t ∧ t.mem = s.mem ∧
      (∃ d : Comm, t.sower.comms[cm]? = some d ∧ d.failed = some f ∧ d.fault = none) ∧
      (∀ (n : Nat) (d : Comm), s.sower.comms[n]? = some d → d.gid = c.gid → d.n = c.n → d.serial ≠ c.serial → d.failed = none →
        ∃ d' : Comm, t.sower.comms[n]? = some d' ∧ d'.notice = some f.1) ∧
      ∀ e ∈ t.sower.entries, e.part = c.part → e.launch = c.launch → e.rec_.comm = c.comm → e.phase ≠ .unfired := by
  refine ⟨_, congrArg Host.Outcome.next (State.commFails_fault hc hf), s.failComm_mem c f, ?_, ?_, s.failComm_entries c f⟩
  · refine ⟨c.failedWith f, ?_, rfl, rfl⟩
    rw [State.failNotified_comm hc, if_pos rfl]
    exact congrArg some (if_neg fun h => h.2.2.1 rfl)
  · intro n d hd hgid hn hserial hfree
    refine ⟨{ d with notice := some f.1 }, ?_, rfl⟩
    rw [State.failNotified_comm hd, if_neg hserial]
    exact congrArg some (if_pos ⟨hgid, hn, hserial, hfree⟩)

theorem exec_failureNotice {k : Nat} (cause : Byte) (hc : s.sower.comms[cm]? = some c) (hk : c.notice = some k)
    (hcause : (Cause.ofCode k).isSome) (hfree : c.failed = none) :
    ∃ t, exec (.failureNotice cm cause) s = .next t ∧ t.mem = s.mem ∧ ∃ d : Comm, t.sower.comms[cm]? = some d ∧ d.failed = some (k, 0, 0) := by
  have hstep : s.noticeArrives cm cause.toNat = s.failComm c (k, 0, 0) := by
    obtain ⟨x, hx⟩ := Option.isSome_iff_exists.1 hcause
    simp only [State.noticeArrives, hc, hk, hfree, Option.getD_some, hx, Option.isSome_none, Option.isNone_some, Bool.or_self,
      Bool.false_eq_true, if_false]
  refine ⟨_, congrArg Host.Outcome.next hstep, s.failComm_mem c _, c.failedWith (k, 0, 0), ?_, rfl⟩
  rw [State.failComm_comms, List.getElem?_map, hc, Option.map_some, if_pos rfl]

end

/-! ## Creation -/

theorem exec_communicatorCreate {s : State} {p : CommSpec} {l : Launch} (hl : s.launchAt p.launch = some l) :
    (s.commOk l p = true → ∃ t c, exec (.communicatorCreate p) s = .next t ∧ t.sower.comms = s.sower.comms ++ [c] ∧ c.comm = p.comm ∧
      c.n = p.n ∧ c.rank = p.rank ∧ c.vc = p.vc ∧ c.cbase = p.cbase ∧ c.ccnt = p.ccnt ∧ c.routes = p.routes ∧ c.launch = l.id ∧
      t.serial = s.serial + 1) ∧
    (s.commOk l p = false → exec (.communicatorCreate p) s = .next s) := by
  refine ⟨fun hok => ?_, fun hno => congrArg Host.Outcome.next ?_⟩
  · have hstep : s.createComm p = { s.modSower (fun w => { w with comms := w.comms ++ [
        { serial := s.serial, gid := p.gid, part := l.part, launch := l.id, comm := p.comm, n := p.n, rank := p.rank, vc := p.vc,
          cbase := p.cbase, ccnt := p.ccnt, routes := p.routes, node := p.node, loc := p.loc }] }) with serial := s.serial + 1 } := by
      simp only [State.createComm, hl, hok]
      rfl
    exact ⟨_, _, congrArg Host.Outcome.next hstep, rfl, rfl, rfl, rfl, rfl, rfl, rfl, rfl, rfl, rfl⟩
  · simp only [State.createComm, hl, hno, Bool.not_false, if_true]

/-! ## Links -/

theorem foldl_chunkLost_ports (lost : List (Nat × Nat)) (s : State) :
    (lost.foldl (fun s e => s.chunkLost e.1 e.2) s).ongeozDown = s.ongeozDown := by
  induction lost generalizing s with
  | nil => rfl
  | cons e lost ih =>
    refine (ih _).trans ?_
    unfold State.chunkLost
    dsimp only
    split <;> rfl

theorem exec_ongeozPort (s : State) (p : Fin 16) (lost : List (Nat × Nat)) : ∃ t u, exec (.ongeozPortDown (.port p lost)) s = .next t ∧
    exec (.ongeozPortUp (.port p)) s = .next u ∧ t.portUp p.val = false ∧ u.portUp p.val = true ∧
    (∀ q, q ≠ p.val → t.portUp q = s.portUp q ∧ u.portUp q = s.portUp q) := by
  have hdown (q : Nat) : (s.ongeozPortDown p.val lost).portUp q = !(addOnce p.val s.ongeozDown).contains q := by
    rw [State.portUp, State.ongeozPortDown, foldl_chunkLost_ports]
  have hmem (q : Nat) : q ∈ addOnce p.val s.ongeozDown ↔ q = p.val ∨ q ∈ s.ongeozDown := mem_addOnce ..
  refine ⟨_, _, rfl, rfl, ?_, ?_, fun q hq => ⟨?_, ?_⟩⟩
  · refine (hdown p.val).trans ?_
    simp [hmem]
  · simp [State.portUp]
  · refine (hdown q).trans ?_
    rw [State.portUp]
    congr 1
    rw [Bool.eq_iff_iff, List.contains_iff_mem, List.contains_iff_mem, hmem]
    simp [hq]
  · rw [State.portUp, State.portUp]
    congr 1
    rw [Bool.eq_iff_iff, List.contains_iff_mem, List.contains_iff_mem, List.mem_filter]
    simp [hq]

theorem exec_ongeozBetween (s : State) (a b : Fin 8) : ∃ t u, exec (.ongeozPortDown (.between a b)) s = .next t ∧
    exec (.ongeozPortUp (.between a b)) s = .next u ∧ t.farUp a.val b.val = false ∧ t.farUp b.val a.val = false ∧
    u.farUp a.val b.val = true ∧ t.mem = s.mem ∧ u.mem = s.mem := by
  have hdown : (min a.val b.val, max a.val b.val) ∈
      if s.farDown.contains (min a.val b.val, max a.val b.val) then s.farDown else s.farDown ++ [(min a.val b.val, max a.val b.val)] := by
    split
    · rename_i h
      exact List.contains_iff_mem.1 h
    · exact List.mem_append_right _ List.mem_cons_self
  refine ⟨_, _, rfl, rfl, ?_, ?_, ?_, rfl, rfl⟩
  · rw [State.farUp]
    exact congrArg (!·) (List.contains_iff_mem.2 hdown)
  · rw [State.farUp, min_comm, max_comm]
    exact congrArg (!·) (List.contains_iff_mem.2 hdown)
  · simp [State.farUp]

theorem exec_chunkLost {s : State} {cm : Nat} {c : Comm} (h : Nat) (hc : s.sower.comms[cm]? = some c) :
    exec (.ongeozPortDown (.chunk cm h)) s = .next (s.commFault c .poison h 0) := by
  refine congrArg Host.Outcome.next ?_
  show s.chunkLost cm h = _
  rw [State.chunkLost, hc]

/-- Settles O56: each event of the sower, from the lemma about its step. -/
theorem sowerEvents : Obligations.SowerEvents := by
  unfold Obligations.SowerEvents
  refine ⟨?fire, fun s e f hentries hlt => fun he hf => State.fireMet_pair hentries hlt he hf, fun e now => e.timeMet_iff now, ?start,
    ?idle, fun s h e c hs => congrArg Host.Outcome.next (State.waitEntry_startable hs), ?prog, ?progEnd, ?step, ?grant, ?chunk, ?send,
    fun s out hnone => congrArg Host.Outcome.next (State.startChunk_nil hnone), ?arrive, ?put, ?putWrite, ?outside, ?putOutside, ?turn, ?block,
    ?complete, fun s e c => s.finishEntry_free e c, fun s cm c f hc hf => exec_communicatorFail hc hf,
    fun s cm k c cause hc hk hcause hfree => exec_failureNotice cause hc hk hcause hfree, fun s p l hl => exec_communicatorCreate hl,
    exec_ongeozPort, exec_ongeozBetween, fun s cm h c hc => exec_chunkLost h hc⟩
  case fire =>
    intro s h e he
    exact ⟨fun o hphase hfirst => congrArg Host.Outcome.next (State.fire_met he hphase hfirst),
      fun hphase hmet => congrArg Host.Outcome.next (State.fire_time he hphase hmet)⟩
  case start =>
    intro s h i op mk e c hs
    refine ⟨fun hi => ?_, fun hi hnone => ?_⟩
    · rw [exec_entryStart hi, State.beginEntry_startable hs]
    · rw [exec_entryReceive hi, State.beginOrRetry_startable hs (EntryReceive.fwd_none hi e.rec_ c) hnone]
  case idle =>
    intro s h i op mk hi he hnone
    obtain ⟨hbegin, hretry⟩ := State.beginOrRetry_none (op := op) (mk := mk) he hnone
    obtain hi | hi := hi
    · rw [exec_entryStart hi, hbegin]
    · rw [exec_entryReceive hi, hretry]
  case prog =>
    intro s s1 h e c steps hs va hread hloops
    exact congrArg Host.Outcome.next (State.beginProg_steps hs hread hloops)
  case progEnd =>
    intro s h e c as hs haccs hdemand ks hclean hend hstep
    exact congrArg Host.Outcome.next (State.beginProg_end hs haccs hdemand hclean hend hstep)
  case step =>
    intro s h e c p he hc hprog hactive hfree
    have hexec : exec (.progStepStart h) s = .next (match p.steps[p.next]? with
        | none => s.finishEntry e c
        | some t => s.progMove h.val e c p t) := congrArg Host.Outcome.next (State.progStep_free he hc hprog hactive hfree)
    refine ⟨fun hnone => by rw [hexec, hnone], fun t ht => ?_⟩
    rw [hexec, ht]
    refine ⟨fun hk => ?_, fun hk => ?_, fun hk => ?_, fun hk => ?_⟩
    · exact congrArg Host.Outcome.next (if_pos hk)
    · exact congrArg Host.Outcome.next ((if_neg (by omega)).trans (if_pos hk))
    · simp only [List.mem_cons, List.not_mem_nil, or_false] at hk
      exact congrArg Host.Outcome.next ((if_neg (by omega)).trans ((if_neg (by omega)).trans (if_neg (by omega))))
    · simp only [List.mem_cons, List.not_mem_nil, or_false] at hk
      exact congrArg Host.Outcome.next ((if_neg (by omega)).trans ((if_neg (by omega)).trans (if_pos hk)))
  case grant =>
    intro s n x c hx hc hfree hop hdue hslot
    exact congrArg Host.Outcome.next (State.grantSlot_due hx hc hfree hop hdue hslot)
  case chunk =>
    intro s s1 out x c hlost harb hmove
    exact congrArg Host.Outcome.next (State.startChunk_moves hlost harb hmove)
  case send =>
    intro s out x c as hlost harb hop n haccs hdemand
    exact congrArg Host.Outcome.next (State.startChunk_moves hlost harb (State.moveOut_send hop haccs hdemand))
  case arrive =>
    intro s cm src c f m hc hf hm
    exact congrArg Host.Outcome.next (State.chunkArrives_flight hc hf hm none)
  case put =>
    intro s s1 cm src c f m hc hf hm hput
    exact congrArg Host.Outcome.next (State.putArrives_flight hc hf hm hput none)
  case putWrite =>
    intro s cm src c f m as hc hf hm hatomic hctr haccs hdemand
    exact congrArg Host.Outcome.next (State.putArrives_flight hc hf hm (State.performPut_write _ hatomic hctr haccs hdemand) none)
  case outside =>
    intro s cm src c m hc hf hin hsrc hlen hslot
    have hexec : exec (.chunkArrival cm src (some m)) s = .next ((s.chunkFrom c src m).drainComm c src) :=
      congrArg Host.Outcome.next (State.chunkArrives_outside hc hf m)
    rw [hexec, State.chunkFrom_slot hin hsrc hlen hslot]
    refine ⟨fun hdest hturn => ?_, fun hdest hturn => ?_, fun d hdest hne hactive => ?_⟩
    · rw [hdest]
      simp only [Option.filter_none, hturn]
    · rw [hdest]
      simp only [Option.filter_none, hturn]
    · rw [hdest, filter_ne_self hne]
      exact congrArg (fun t => Host.Outcome.next (State.drainComm t c src)) (State.passOn_active d _ _ hactive)
  case putOutside =>
    intro s cm src c m hc hf hin hsrc hdest
    have hexec : exec (.putArrival cm src (some m)) s = .next (s.putFrom c src m) :=
      congrArg Host.Outcome.next (State.putArrives_outside hc hf m)
    rw [hexec, State.putFrom_here hin hsrc hdest]
    refine ⟨fun hturn => by rw [hturn], fun hturn => by rw [hturn], fun hturn => ⟨fun s1 hput => ?_, fun s1 hput => ?_⟩⟩
    · rw [hturn, hput]
    · rw [hturn, hput]
  case turn =>
    intro s c src hc
    exact ⟨c.inTurn_next src, fun d hd => Sower.hear_found hc hd⟩
  case block =>
    intro s cm src dst d c f m msg hc hf hm hd
    have hstep := State.forwardBlock_flight (dst := dst) (msg := msg) hc hf hm hd
    exact ⟨fun hactive => congrArg Host.Outcome.next (hstep.trans (State.passOn_active d _ _ hactive)),
      fun hfailed => congrArg Host.Outcome.next (hstep.trans (State.passOn_failed d _ _ hfailed))⟩
  case complete =>
    intro s h e x c he hx hc hrun hprog hactive hdone hout
    exact congrArg Host.Outcome.next (State.entryCompletes_done he hx hc hrun hprog hactive hdone hout)

end Sys2Proof.Machine
end

section
/-! PROOF. Continuation records that are taken, steals, and the ends of sleeps and stalls (R114, R120, R247 to R252), and O42. -/

namespace Sys2Proof.Machine
open Stmt

/-! ## Records -/

theorem wbits_eq_zero {w : Word} {lo n : Nat} (h : ∀ i < n, w.getLsbD (lo + i) = false) : wbits w lo n = 0 := by
  refine Nat.eq_of_testBit_eq fun i => ?_
  rw [wbits, Nat.testBit_mod_two_pow, Nat.testBit_div_two_pow, Nat.zero_testBit]
  by_cases hi : i < n
  · rw [decide_eq_true hi, Bool.true_and]
    exact Nat.add_comm i lo ▸ h i hi
  · rw [decide_eq_false hi, Bool.false_and]

/-- FLAGS without a reserved bit set pops without a trap (R247). -/
theorem flags_good {w : Word} (h : w &&& 0xFFF3 = 0) : (wbits w 0 2 != 0 || wbits w 4 12 != 0) = false := by
  have hbit (i : Nat) (hm : (0xFFF3 : Word).getLsbD i = true) : w.getLsbD i = false := by
    have := congrArg (fun v : Word => v.getLsbD i) h
    rw [BitVec.getLsbD_and, hm, Bool.and_true] at this
    exact this.trans BitVec.getLsbD_zero
  have hlow : wbits w 0 2 = 0 := wbits_eq_zero fun i hi => hbit _ (by interval_cases i <;> decide)
  have hhigh : wbits w 4 12 = 0 := wbits_eq_zero fun i hi => hbit _ (by interval_cases i <;> decide)
  rw [hlow, hhigh]
  rfl

/-- A core's queue set keeps what the core is set to, and without a change of its extension no byte changes (R248). -/
theorem State.setQueue_core (s : State) (c : CoreId) (x : Core) : (s.setQueue c x).core c = x := by
  unfold State.setQueue
  split
  · exact (congrArg (fun v : Vector Core 1024 => v.get c) rfl).trans (State.core_setCore s c x)
  · rename_i a r _
    rw [State.core, State.write_cores]
    exact State.core_setCore _ c x

theorem State.setQueue_focus (s : State) (c : CoreId) (x : Core) : (s.setQueue c x).cur = s.cur ∧ (s.setQueue c x).slot = s.slot := by
  unfold State.setQueue
  split
  · exact ⟨rfl, rfl⟩
  · rename_i a r _
    have harrive := s.arrive_frame (.ofCore c) a r
    rw [State.write_cur, State.write_slot]
    exact ⟨(congrArg State.cur harrive :), (congrArg State.slot harrive :)⟩

theorem State.setQueue_same {s : State} {c : CoreId} {x : Core} (h : x.ext = (s.core c).ext) : s.setQueue c x = s.setCore c x := by
  have : s.extAcc c x = none := if_pos h
  rw [State.setQueue, this]

/-- A context whose record has given it its first three registers (R249). -/
def Ctx.given (t : Ctx) (r : Record) : Ctx :=
  { t with stack := ((t.stack.set 0 (.value r.frame)).set 1 (.value r.join)).set 2 (.value r.flags) }

section
variable {s : State} {c : CoreId} {l : Launch} {k : SlotId} {r : Record} {q : List Record}

/-- The state in which a record has been taken and its helper holds its registers. -/
def State.popped (s : State) (c : CoreId) (l : Launch) (k : SlotId) (r : Record) (q : List Record) : State :=
  (s.setQueue c (({ s.core c with queue := q } : Core).refill.start l k r.code)).modCtx c k fun t => t.given r

theorem State.popRecord_newest (hl : s.launchOf c = some l) (hlive : l.phase = .live) (hfree : (s.core c).freeHelper l.desc.hl = some k)
    (hqueue : (s.core c).queue = q ++ [r]) (hflags : r.flags &&& 0xFFF3 = 0) (hdrain : s.drainHolds c .pkg = false)
    (hwait : s.queueWait c ({ s.core c with queue := q } : Core).refill = none) :
    s.popRecord c = (s.popped c l k r q).within c k fun s => s.acquired .pkg := by
  have hgo : (l.phase != .live || s.drainHolds c .pkg) = false := by rw [hlive, hdrain]; rfl
  have hslot : (helperSlots l.desc.hl).find? (fun k => !((s.core c).ctx k).live && true) = some k := by
    simp only [Bool.and_true]
    exact hfree
  simp only [State.popRecord, hl, hgo, Bool.false_eq_true, if_false, hslot, hqueue, List.getLast?_concat, List.dropLast_concat, hwait,
    flags_good hflags]
  rfl

theorem Core.start_ctx (x : Core) (l : Launch) (k : SlotId) (pc : Word) :
    ((x.start l k pc).ctx k).live = true ∧ ((x.start l k pc).ctx k).pc = pc ∧ ((x.start l k pc).ctx k).mode = .u ∧
      ((x.start l k pc).ctx k).gen = (x.ctx k).gen + 1 := by
  rw [Core.start, Core.ctx_setCtx]
  exact ⟨rfl, rfl, rfl, rfl⟩

theorem Core.refill_ctxs (x : Core) : x.refill.ctxs = x.ctxs := by
  unfold Core.refill
  split <;> rfl

theorem Ctx.given_stack (t : Ctx) (r : Record) :
    (t.given r).stack.get 0 = .value r.frame ∧ (t.given r).stack.get 1 = .value r.join ∧ (t.given r).stack.get 2 = .value r.flags := by
  refine ⟨?_, ?_, ?_⟩ <;> simp [Ctx.given, Vector.get_eq_getElem]

/-- An acquire that goes at once marks its context and nothing else of it (R289). -/
theorem State.acquired_ctx (s : State) (sc : Scope) : ∃ b, (s.acquired sc).ctx s.cur s.slot = { s.me with acqWait := b } := by
  unfold State.acquired
  split
  · refine ⟨true, ?_⟩
    exact State.ctx_setCtx (s.modDie s.cur.die.val _) s.cur s.slot _
  · exact ⟨s.me.acqWait, rfl⟩

theorem State.acquired_focus (s : State) (sc : Scope) : (s.acquired sc).cur = s.cur ∧ (s.acquired sc).slot = s.slot := by
  unfold State.acquired
  split <;> exact ⟨rfl, rfl⟩

theorem State.acquired_queue (s : State) (sc : Scope) (c : CoreId) : ((s.acquired sc).core c).queue = (s.core c).queue := by
  have hme (u : State) (f : Ctx → Ctx) : ((u.modMe f).core c).queue = (u.core c).queue := by
    by_cases h : c = u.cur
    · subst h
      exact (congrArg Core.queue (State.core_setCore u u.cur (u.myCore.setCtx u.slot (f u.me))) :).trans rfl
    · exact congrArg Core.queue (State.core_setCore_ne u (u.myCore.setCtx u.slot (f u.me)) h)
  unfold State.acquired
  split
  · exact hme (s.modDie s.cur.die.val _) _
  · rfl

theorem exec_recordPop (hl : s.launchOf c = some l) (hlive : l.phase = .live) (hfree : (s.core c).freeHelper l.desc.hl = some k)
    (hqueue : (s.core c).queue = q ++ [r]) (hflags : r.flags &&& 0xFFF3 = 0) (hdrain : s.drainHolds c .pkg = false)
    (hwait : s.queueWait c ({ s.core c with queue := q } : Core).refill = none) :
    ∃ t, exec (.recordPop c) s = .next t ∧ (t.ctx c k).live = true ∧ (t.ctx c k).pc = r.code ∧ (t.ctx c k).mode = .u ∧
      (t.ctx c k).stack.get 0 = .value r.frame ∧ (t.ctx c k).stack.get 1 = .value r.join ∧
      (t.ctx c k).stack.get 2 = .value r.flags ∧ (t.ctx c k).gen = (s.ctx c k).gen + 1 ∧
      ((s.core c).ext = [] → t.mem = s.mem ∧ (t.core c).queue = q) ∧ t.cur = s.cur ∧ t.slot = s.slot := by
  refine ⟨_, congrArg Host.Outcome.next (State.popRecord_newest hl hlive hfree hqueue hflags hdrain hwait), ?_⟩
  have hpopped : (s.popped c l k r q).ctx c k =
      ((({ s.core c with queue := q } : Core).refill.start l k r.code).ctx k).given r := by
    rw [State.popped, State.modCtx, State.ctx_setCtx, State.ctx, State.setQueue_core]
  obtain ⟨hlive', hpc, hmode, hgen⟩ := Core.start_ctx ({ s.core c with queue := q } : Core).refill l k r.code
  obtain ⟨hframe, hjoin, hflags'⟩ := Ctx.given_stack ((({ s.core c with queue := q } : Core).refill.start l k r.code).ctx k) r
  have hrefill : ({ s.core c with queue := q } : Core).refill.ctx k = (s.core c).ctx k := by
    rw [Core.ctx, Core.refill_ctxs, Core.ctx]
  obtain ⟨hcur, hslot⟩ := s.setQueue_focus c (({ s.core c with queue := q } : Core).refill.start l k r.code)
  have hfocus : (s.popped c l k r q).cur = s.cur ∧ (s.popped c l k r q).slot = s.slot := ⟨hcur, hslot⟩
  have hsame : (s.core c).ext = [] → (s.popped c l k r q).mem = s.mem ∧ ((s.popped c l k r q).core c).queue = q := by
    intro hext
    have hidle : ({ s.core c with queue := q } : Core).refill = { s.core c with queue := q } := by
      refine if_neg fun h => ?_
      rw [show ({ s.core c with queue := q } : Core).ext = [] from hext] at h
      exact absurd h.2 (by decide)
    have hset := State.setQueue_same (s := s) (c := c) (x := ({ s.core c with queue := q } : Core).refill.start l k r.code) (by rw [hidle]; rfl)
    rw [State.popped, hset]
    refine ⟨rfl, ?_⟩
    rw [State.modCtx_eq_modCore, State.core_modCore, State.core_setCore, hidle]
    rfl
  obtain ⟨b, hacq⟩ := ((s.popped c l k r q).focus c k).acquired_ctx .pkg
  have hmem := ((s.popped c l k r q).focus c k).acquired_mem .pkg
  have hqueue' := ((s.popped c l k r q).focus c k).acquired_queue .pkg c
  generalize s.popped c l k r q = u at *
  have hctx : ((u.within c k fun s => s.acquired .pkg).ctx c k) = { u.ctx c k with acqWait := b } := hacq
  rw [hctx, hpopped]
  exact ⟨hlive', hpc, hmode, hframe, hjoin, hflags', hgen.trans (congrArg (fun t : Ctx => t.gen + 1) hrefill),
    fun hext => ⟨hmem.trans (hsame hext).1, hqueue'.trans (hsame hext).2⟩, hfocus.1, hfocus.2⟩

end

theorem State.popRecord_nothing {s : State} {c : CoreId} (h : (s.launchOf c).isNone ∨ (s.core c).queue = []) : s.popRecord c = s := by
  unfold State.popRecord
  cases hl : s.launchOf c with
  | none => rfl
  | some l =>
    have hqueue : (s.core c).queue = [] := by
      obtain h | h := h
      · rw [hl] at h
        cases h
      · exact h
    dsimp only
    rw [hqueue]
    split
    · rfl
    · split
      · rename_i h
        cases h
      · rfl

/-! ## Steals -/

theorem State.stealSweep_due {s : State} {c : CoreId} {l : Launch} (hl : s.launchOf c = some l) (hlive : l.phase = .live)
    (hrun : l.stopping = false) (hmay : l.desc.nosteal = false) (hqueue : (s.core c).queue = []) (hext : (s.core c).ext = [])
    (hfree : ((s.core c).freeHelper l.desc.hl).isSome) (hdue : ∀ n, (s.core c).stealAt = some n → n ≤ s.cycleOf c) :
    s.stealSweep c = match (victims c l.desc.xsteal).find? fun v =>
        s.boundTo v l && ((s.core v).ext ++ (s.core v).queue).any fun r => r.takeable c with
      | some v => s.steal c v
      | none => s.modCore c fun x => { x with stealAt := some (s.cycleOf c + 512) } := by
  have hsweep : s.sweepDue c = true := by
    unfold State.sweepDue
    split
    · rename_i n hn
      exact decide_eq_true (hdue n hn)
    · rfl
  have hgo : (l.phase != .live || l.stopping || l.desc.nosteal || !(s.core c).queue.isEmpty || !(s.core c).ext.isEmpty ||
      ((s.core c).freeHelper l.desc.hl).isNone || !s.sweepDue c) = false := by
    rw [hlive, hrun, hmay, hqueue, hext, hsweep, Option.isNone_eq_false_iff.2 hfree]
    rfl
  unfold State.stealSweep
  rw [hl]
  exact if_neg (by rw [hgo]; exact Bool.false_ne_true)

theorem State.stealSweep_early {s : State} {c : CoreId} {n : Nat} (hat : (s.core c).stealAt = some n) (hearly : s.cycleOf c < n) :
    s.stealSweep c = s := by
  have hsweep : s.sweepDue c = false := by
    rw [State.sweepDue, hat]
    exact decide_eq_false (Nat.not_le.2 hearly)
  unfold State.stealSweep
  split
  · rfl
  · rw [hsweep]
    exact if_pos (by rw [Bool.not_false, Bool.or_true])

/-! ## Sleeps and stalls -/

section
variable {s : State} {c : CoreId} {k : SlotId}

theorem State.modCtx_of_eq {f : Ctx → Ctx} (h : f (s.ctx c k) = s.ctx c k) : s.modCtx c k f = s := by
  rw [State.modCtx, h, State.setCtx, State.ctx, Core.setCtx_ctx, State.setCore_core]

theorem Ctx.wake_of_sleep {t : Ctx} (h : t.run ∈ [.asleep, .listening]) : t.wake = { t with run := .ready } := by
  simp only [List.mem_cons, List.not_mem_nil, or_false] at h
  obtain h | h := h <;> simp only [Ctx.wake, h]

theorem Ctx.wake_of_awake {t : Ctx} (h : t.run ∉ [.asleep, .listening]) : t.wake = t := by
  unfold Ctx.wake
  split
  · rename_i hr
    exact absurd (by rw [hr]; decide) h
  · rename_i hr
    exact absurd (by rw [hr]; decide) h
  · rfl

theorem State.modCtx_congr {f g : Ctx → Ctx} (h : f (s.ctx c k) = g (s.ctx c k)) : s.modCtx c k f = s.modCtx c k g := by
  rw [State.modCtx, State.modCtx, h]

theorem exec_sleepWake (h : (s.ctx c k).run ∈ [.asleep, .listening]) :
    exec (.sleepWake c k) s = .next (s.modCtx c k fun t => { t with run := .ready }) :=
  congrArg Host.Outcome.next (State.modCtx_congr (Ctx.wake_of_sleep h))

theorem exec_timeouts_frozen (h : s.frozen c = true) :
    exec (.waitTimeout c k) s = .next s ∧ exec (.realignTimeout c k) s = .next s :=
  ⟨congrArg Host.Outcome.next (if_pos h), congrArg Host.Outcome.next (if_pos h)⟩

theorem exec_waitTimeout_asleep (hrun : (s.ctx c k).run = .asleep) (h : s.frozen c = false) :
    exec (.waitTimeout c k) s = .next (s.modCtx c k fun t => { t with run := .ready }) := by
  have hstep : exec (.waitTimeout c k) s = .next (s.modCtx c k Ctx.wake) := by
    refine congrArg Host.Outcome.next ((if_neg (by rw [h]; exact Bool.false_ne_true)).trans ?_)
    rw [hrun]
  exact hstep.trans (congrArg Host.Outcome.next (State.modCtx_congr (Ctx.wake_of_sleep (by rw [hrun]; decide))))

theorem Core.latchBit_run (x : Core) (k : SlotId) (bit : Nat) : ((x.latchBit k bit).ctx k).run = (x.ctx k).run := by
  unfold Core.latchBit
  dsimp only
  split
  · rw [Core.ctx_setCtx]
  · rfl

theorem exec_waitTimeout_listening (hrun : (s.ctx c k).run = .listening) (h : s.frozen c = false) :
    exec (.waitTimeout c k) s = .next ((s.modCore c fun x => x.latchBit k 3).modCtx c k fun t => { t with run := .ready }) := by
  have hstep : exec (.waitTimeout c k) s = .next ((s.modCore c fun x => x.latchBit k 3).modCtx c k Ctx.wake) := by
    refine congrArg Host.Outcome.next ((if_neg (by rw [h]; exact Bool.false_ne_true)).trans ?_)
    rw [hrun]
  have hlatched : ((s.modCore c fun x => x.latchBit k 3).ctx c k).run = .listening := by
    rw [State.ctx, State.core_modCore, Core.latchBit_run]
    exact hrun
  exact hstep.trans (congrArg Host.Outcome.next (State.modCtx_congr (Ctx.wake_of_sleep (by rw [hlatched]; decide))))

theorem exec_awake (h : (s.ctx c k).run ∉ [.asleep, .listening]) :
    exec (.sleepWake c k) s = .next s ∧ exec (.waitTimeout c k) s = .next s := by
  refine ⟨congrArg Host.Outcome.next (State.modCtx_of_eq (Ctx.wake_of_awake h)), congrArg Host.Outcome.next ?_⟩
  split
  · rfl
  · split
    · rename_i hr
      exact absurd (by rw [hr]; decide) h
    · rename_i hr
      exact absurd (by rw [hr]; decide) h
    · rfl

theorem exec_realignTimeout {next : Word} (hrun : (s.ctx c k).run = .realign next) (h : s.frozen c = false) :
    exec (.realignTimeout c k) s = .next (s.modCtx c k fun t => { t with pc := next, run := .ready }) := by
  refine congrArg Host.Outcome.next ((if_neg (by rw [h]; exact Bool.false_ne_true)).trans ?_)
  rw [hrun]

theorem exec_realignTimeout_none (h : ∀ next, (s.ctx c k).run ≠ .realign next) : exec (.realignTimeout c k) s = .next s := by
  refine congrArg Host.Outcome.next ?_
  split
  · rfl
  · split
    · rename_i next hr
      exact absurd hr (h next)
    · rfl

end

/-- Settles O42: records and steals, and the steps that end sleeps and stalls. -/
theorem workQueueEvents : Obligations.WorkQueueEvents := by
  unfold Obligations.WorkQueueEvents
  refine ⟨fun s c l k r q hl hlive hfree hqueue hflags hdrain hwait => exec_recordPop hl hlive hfree hqueue hflags hdrain hwait,
    fun s c h => congrArg Host.Outcome.next (State.popRecord_nothing h), ?_,
    fun s c n hat hearly => congrArg Host.Outcome.next (State.stealSweep_early hat hearly), fun s c k => ?_⟩
  · intro s c l hl hlive hrun hmay hqueue hext hfree hdue
    exact congrArg Host.Outcome.next (State.stealSweep_due hl hlive hrun hmay hqueue hext hfree hdue)
  · exact ⟨exec_sleepWake, exec_timeouts_frozen, exec_waitTimeout_asleep, exec_waitTimeout_listening, exec_awake,
      fun next => exec_realignTimeout, exec_realignTimeout_none⟩

end Sys2Proof.Machine
end

section
/-! PROOF. O41: contexts that start and end, joins and waits (R116 to R120, R246, R249, R250). -/

namespace Sys2Proof.Machine
open Stmt

/-! ## What a scalar result leaves of the contexts -/

theorem State.me_finish (s : State) (d : Dst) (r : Reg) (evs : List Nat) (len : Nat) :
    (s.finish d r evs len).me = { s.me.put d r with pc := s.me.pc + BitVec.ofNat 64 len, run := .ready } := by
  rw [State.finish_eq]
  simp [State.me, State.ctx]

theorem State.ctx_finish_ne (s : State) (d : Dst) (r : Reg) (evs : List Nat) (len : Nat) {k : SlotId} (h : k ≠ s.slot) :
    (s.finish d r evs len).ctx s.cur k = s.ctx s.cur k := by
  rw [State.finish_eq]
  simp [State.ctx, Core.ctx_setCtx_ne, h, State.myCore]

/-! ## start -/

theorem mem_helperSlots {hl : Nat} {k : SlotId} : k ∈ helperSlots hl ↔ 1 ≤ k.val ∧ k.val ≤ hl := by
  rw [helperSlots, List.mem_filter, Bool.and_eq_true, decide_eq_true_eq, decide_eq_true_eq]
  exact and_iff_right (List.mem_finRange k)

theorem helperSlots_sorted (hl : Nat) : (helperSlots hl).Pairwise (· < ·) :=
  (List.pairwise_lt_finRange 11).filter _

/-- The lowest free helper slot that the limit allows is the one that is found (R116). -/
theorem freeHelper_of_lowest {s : State} {k : SlotId} (h : LowestFreeHelper s k) : s.myCore.freeHelper s.myLaunch.desc.hl = some k := by
  obtain ⟨hpos, hlimit, hfree, hlower⟩ := h
  rw [Core.freeHelper, List.find?_eq_some_iff_append]
  obtain ⟨as, bs, hsplit⟩ := List.append_of_mem (mem_helperSlots.2 ⟨hpos, hlimit⟩)
  refine ⟨congrArg (!·) hfree, as, bs, hsplit, fun j hj => ?_⟩
  have hlt : j < k := by
    have hsorted := helperSlots_sorted s.myLaunch.desc.hl
    rw [hsplit, List.pairwise_append] at hsorted
    exact hsorted.2.2 j hj k List.mem_cons_self
  have hmem : j ∈ helperSlots s.myLaunch.desc.hl := hsplit ▸ List.mem_append_left _ hj
  rw [Bool.not_not]
  exact hlower j (mem_helperSlots.1 hmem).1 hlt

theorem freeHelper_none {s : State} (h : ∀ k, ¬ LowestFreeHelper s k) : s.myCore.freeHelper s.myLaunch.desc.hl = none := by
  cases hfree : s.myCore.freeHelper s.myLaunch.desc.hl with
  | none => rfl
  | some k =>
    obtain ⟨hk, as, bs, hsplit, hbefore⟩ := List.find?_eq_some_iff_append.1 hfree
    have hmem : k ∈ helperSlots s.myLaunch.desc.hl := hsplit ▸ List.mem_append_right _ List.mem_cons_self
    obtain ⟨hpos, hlimit⟩ := mem_helperSlots.1 hmem
    refine absurd ⟨hpos, hlimit, (show (s.myCore.ctx k).live = false by simpa using hk), fun j hj hlt => ?_⟩ (h k)
    have hj' : j ∈ helperSlots s.myLaunch.desc.hl := mem_helperSlots.2 ⟨hj, Nat.le_trans (Fin.lt_def.1 hlt).le hlimit⟩
    rw [hsplit, List.mem_append] at hj'
    have hsorted := helperSlots_sorted s.myLaunch.desc.hl
    rw [hsplit, List.pairwise_append] at hsorted
    obtain hj' | hj' := hj'
    · exact (show (s.myCore.ctx j).live = true by simpa using hbefore j hj')
    · obtain rfl | hj' := List.mem_cons.1 hj'
      · exact absurd hlt (lt_irrefl _)
      · exact absurd hlt (not_lt_of_gt ((List.pairwise_cons.1 hsorted.2.1).1 j hj'))

/-- The state in which a helper has started, before the starter's result (R116). -/
def State.helperStarted (s : State) (k : SlotId) (imm : BitVec 24) : State :=
  (s.modCore s.cur fun x => x.start s.myLaunch k (target s.me.pc (sext24 imm))).modCtx s.cur k fun t =>
    { t with stack := Vector.ofFn fun i => if h : i.val < 8 then s.me.o.get ⟨i.val, h⟩ else .value 0, g := s.me.g }

theorem State.startOp_free {s : State} {k : SlotId} (d : Dst) (imm : BitVec 24) (h : LowestFreeHelper s k) :
    s.startOp d imm = .ok ((s.helperStarted k imm).result d (word k.val) [] 12) := by
  simp only [State.startOp, freeHelper_of_lowest h]
  rfl

theorem exec_start {s : State} {k : SlotId} (d : Dst) (imm : BitVec 24) (h : LowestFreeHelper s k) (hk : k ≠ s.slot) :
    ∃ t, exec (.start d imm) s = .next t ∧
      (t.ctx s.cur k).live = true ∧ (t.ctx s.cur k).mode = .u ∧ (t.ctx s.cur k).pc = branchTo s (imm.signExtend 64) ∧
      (t.ctx s.cur k).gen = (s.ctx s.cur k).gen + 1 ∧ (t.ctx s.cur k).g = s.me.g ∧ (t.ctx s.cur k).pos = 0 ∧
      (∀ j : Fin 8, (t.ctx s.cur k).stack.get ⟨j.val, by omega⟩ = s.me.o.get j) ∧
      t.me.reg .lat = .value (BitVec.ofNat 64 k.val) ∧ t.me.pc = s.me.pc + 12 ∧ t.mem = s.mem := by
  refine ⟨(s.helperStarted k imm).result d (word k.val) [] 12, ?_, ?_⟩
  · show complete s (s.startOp d imm) = _
    rw [State.startOp_free d imm h, complete_ok]
  have hhelper : ((s.helperStarted k imm).result d (word k.val) [] 12).ctx s.cur k = (s.helperStarted k imm).ctx s.cur k :=
    State.ctx_finish_ne (s.helperStarted k imm) d (.value (word k.val)) [] 12 hk
  have hstarted : (s.helperStarted k imm).ctx s.cur k =
      { (s.myCore.start s.myLaunch k (target s.me.pc (sext24 imm))).ctx k with
        stack := Vector.ofFn fun i => if h : i.val < 8 then s.me.o.get ⟨i.val, h⟩ else .value 0, g := s.me.g } := by
    rw [State.helperStarted, State.modCtx, State.ctx_setCtx, State.ctx, State.core_modCore, State.myCore]
  have hself : (s.helperStarted k imm).me = s.me := by
    have hne : s.slot ≠ k := hk.symm
    rw [State.helperStarted, State.modCtx_eq_modCore]
    show (State.core _ s.cur).ctx s.slot = s.me
    rw [State.core_modCore, State.core_modCore, Core.ctx_setCtx_ne _ _ hne, Core.start, Core.ctx_setCtx_ne _ _ hne]
    rfl
  have hme := State.me_finish (s.helperStarted k imm) d (.value (word k.val)) [] 12
  have hmem : (s.helperStarted k imm).mem = s.mem := rfl
  obtain ⟨hlive, hpc, hmode, hgen⟩ := Core.start_ctx s.myCore s.myLaunch k (target s.me.pc (sext24 imm))
  have hpos : ((s.myCore.start s.myLaunch k (target s.me.pc (sext24 imm))).ctx k).pos = 0 := by rw [Core.start, Core.ctx_setCtx]
  rw [hhelper, hstarted]
  refine ⟨hlive, hmode, hpc.trans (target_me_pc s _), hgen, rfl, hpos, fun j => ?_, ?_, ?_, (State.finish_mem ..).trans hmem⟩
  · simp [Vector.get_eq_getElem]
  · rw [State.result_eq_finish, hme]
    exact ((s.helperStarted k imm).me.put_reg d _ .lat).trans (if_pos (.inl rfl))
  · rw [State.result_eq_finish, hme, hself]
    rfl

/-! ## fin -/

theorem exec_fin {s : State} (hvq : s.me.vq = []) (hreplay : s.me.replayQ = []) (hfirst : s.me.firstFin = false ∨ s.myCore.strays = []) :
    exec .fin s = .next (s.endCtx s.cur s.slot) := by
  have hgo : (s.me.vq.isEmpty && s.me.replayQ.isEmpty && (!s.me.firstFin || s.myCore.strays.isEmpty)) = true := by
    rw [hvq, hreplay]
    obtain h | h := hfirst
    · rw [h]
      rfl
    · rw [h]
      exact Bool.or_true _
  show complete s s.finOp = _
  simp only [State.finOp, hgo]
  rfl

theorem exec_fin_blocked {s : State} (h : s.me.vq ≠ [] ∨ s.me.replayQ ≠ []) :
    exec .fin s = .next (s.modMe fun t => { t with run := .blocked }) := by
  have hwait : (s.me.vq.isEmpty && s.me.replayQ.isEmpty && (!s.me.firstFin || s.myCore.strays.isEmpty)) = false := by
    obtain h | h := h
    · rw [List.isEmpty_eq_false_iff.2 h, Bool.false_and, Bool.false_and]
    · rw [List.isEmpty_eq_false_iff.2 h, Bool.and_false, Bool.false_and]
  show complete s s.finOp = _
  simp only [State.finOp, hwait]
  rfl

/-! ## join -/

section
variable {s s1 : State} {d : Dst} {b : Src} {imm : BitVec 24} {lit bv : Word} {len : Nat} {a : Acc}

theorem State.released_accessGate (s : State) : (released s).accessGate = .ok () ↔ s.accessGate = .ok () := by
  have : (released s).accessGate = s.accessGate := by rw [State.accessGate, released, State.me_modMe, State.accessGate]
  rw [this]

theorem State.joinOp_misaligned (hb : s.me.src lit b = .value bv) (h : (bv + imm.signExtend 64).toNat % 16 ≠ 0) :
    s.joinOp d b imm lit len = trap .align (bv + imm.signExtend 64) := by
  unfold State.joinOp
  refine except_bind_eq (State.use1_ok.2 hb) ?_
  dsimp only
  rw [ea2_eq, check_bind_of_false (beq_false_of_ne h)]
  rfl

/-- What a join does from the state in which its count has been read (R118). -/
def State.joinCounted (s1 : State) (d : Dst) (j : Word) (len : Nat) (a : Acc) : Res State := do
  let n := BitVec.ofNat 64 (s1.valAcc a 8) - 1
  if n ≠ 0 then .ok (((s1.writeAcc a 8 n.toNat).result d n [] len).acquired .pkg)
  else
    (s1.joinReady j).pause
    let s := s1.writeAcc a 8 n.toNat
    let counted := (s.putV d n).acquired .pkg
    match s.joinRecord j with
    | .error (.trap t) => .error (.trapAt t counted)
    | .error (.trapAt t s) => .error (.trapAt t ((s.putV d n).acquired .pkg))
    | .error e => .error e
    | .ok (s, at_, r) =>
      match s.myCore.push s.myLaunch.desc.qx r with
      | none => .error (.trapAt { cause := .bounds, addr := at_ } ((s.putV d n).acquired .pkg))
      | some x => .ok (((s.setQueue s.cur x).result d n [] len).acquired .pkg)

theorem State.joinOp_access (hb : s.me.src lit b = .value bv) (halign : (bv + imm.signExtend 64).toNat % 16 = 0) (hrel : ReleaseFree s .pkg)
    (hgate : s.accessGate = .ok ()) (hres : (released s).resolve .atomic .glob (bv + imm.signExtend 64) 8 8 (atomAt .add none) = .ok a)
    (hacc : (released s).access .atomic .glob (bv + imm.signExtend 64) 8 .perform a = .ok s1) :
    s.joinOp d b imm lit len = s1.joinCounted d (bv + imm.signExtend 64) len a := by
  unfold State.joinOp
  refine except_bind_eq (State.use1_ok.2 hb) ?_
  dsimp only
  rw [ea2_eq, check_bind_of_true (beq_iff_eq.2 halign)]
  refine except_bind_eq (State.release_of_free hrel) ?_
  refine except_bind_eq ((State.released_accessGate s).2 hgate) ?_
  refine except_bind_eq (a := a) ?_ (except_bind_eq hacc rfl)
  exact (congrArg (State.precise _) hres).trans (State.precise_of_ok _ a)

theorem State.joinCounted_more {j : Word} (h : BitVec.ofNat 64 (s1.valAcc a 8) - 1 ≠ 0) :
    s1.joinCounted d j len a = .ok (((s1.writeAcc a 8 (BitVec.ofNat 64 (s1.valAcc a 8) - 1).toNat).result d
      (BitVec.ofNat 64 (s1.valAcc a 8) - 1) [] len).acquired .pkg) := if_pos h

/-- A join whose count reaches 0 writes 0 and goes by what the load of its record answers (R118, R246). -/
theorem State.joinCounted_last {j : Word} (h : BitVec.ofNat 64 (s1.valAcc a 8) - 1 = 0) (hready : (s1.joinReady j).pause = .ok ()) :
    s1.joinCounted d j len a = match (s1.writeAcc a 8 0).joinRecord j with
      | .error (.trap t) => .error (.trapAt t (((s1.writeAcc a 8 0).putV d 0).acquired .pkg))
      | .error (.trapAt t s) => .error (.trapAt t ((s.putV d 0).acquired .pkg))
      | .error e => .error e
      | .ok (s, at_, r) =>
        match s.myCore.push s.myLaunch.desc.qx r with
        | none => .error (.trapAt { cause := .bounds, addr := at_ } ((s.putV d 0).acquired .pkg))
        | some x => .ok (((s.setQueue s.cur x).result d 0 [] len).acquired .pkg) := by
  unfold State.joinCounted
  dsimp only
  rw [if_neg (not_not_intro h), h]
  exact except_bind_eq hready rfl

end

theorem exec_join {i : Instr} {d : Dst} {b : Src} {imm : BitVec 24} {lit : Word} {len : Nat} (h : Join i d b imm lit len) (s : State) :
    exec i s = complete s (s.joinOp d b imm lit len) := by
  cases h <;> rfl

/-! ## wait -/

theorem exec_wait {s s1 : State} {i : Instr} {sc : Scope} {w : Win} {ty : Option Ty} {d : Dst} {b v : Src} {imm : BitVec 24}
    {lit bv vv : Word} {len : Nat} {a : Acc} (h : Wait i sc w ty d b v imm lit len) (hb : s.me.src lit b = .value bv)
    (hv : s.me.src lit v = .value vv) (hfree : AcquireFree s sc)
    (hacc : s.loadAcc w (bv + imm.signExtend 64) (intTy ty).bytes = .ok (s1, a)) :
    exec i s = .next (if s1.valAcc a (intTy ty).bytes = (part (intTy ty) vv).toNat
      then (s1.tookAcc a (intTy ty).bytes).modMe fun t => { t with run := .asleep }
      else ((s1.tookAcc a (intTy ty).bytes).result d (loaded s1 a (intTy ty).bytes (intTy ty)) [] len).acquired sc) := by
  have hexec : exec i s = complete s (s.waitOp sc w ty d b v imm lit len) := by cases h <;> rfl
  have hop : s.waitOp sc w ty d b v imm lit len =
      if s1.valAcc a (intTy ty).bytes = vv.toNat % 2 ^ (8 * (intTy ty).bytes) then .error (.hold (s1.tookAcc a (intTy ty).bytes) .asleep)
      else .ok (((s1.tookAcc a (intTy ty).bytes).result d (extend (intTy ty) (s1.valAcc a (intTy ty).bytes)) [] len).acquired sc) := by
    unfold State.waitOp
    refine except_bind_eq (State.use2_ok.2 ⟨hb, hv⟩) ?_
    exact except_bind_eq (State.acquireGate_of_acquireFree hfree) (except_bind_eq hacc rfl)
  rw [hexec, hop, toNat_part]
  split
  · rfl
  · rw [complete_ok, extend_eq_loaded]

/-! ## O41 -/

/-- Settles O41: each instruction is computed from the rule of what it does first, and the last join is its record's load. -/
theorem contextInstructions : Obligations.ContextInstructions := by
  unfold Obligations.ContextInstructions
  refine ⟨fun s d imm => ⟨fun hnone => ?_, fun k hk hne => exec_start d imm hk hne⟩, fun s hvq hreplay hfirst => ?_,
    fun s h => exec_fin_blocked h, fun s => rfl, fun s s1 i d b imm lit bv len a hi hb => ?_,
    fun s s1 i sc w ty d b v imm lit bv vv len a hi hb hv hfree hacc => exec_wait hi hb hv hfree hacc⟩
  · show complete s (s.startOp d imm) = _
    simp only [State.startOp, freeHelper_none hnone]
    rfl
  · have hsame := State.endCtx_sameCtxs s s.cur s.slot
    have hme : (s.endCtx s.cur s.slot).me = s.me.ended := by
      rw [hsame.me]
      exact State.ctx_setCtx ..
    refine ⟨s.endCtx s.cur s.slot, exec_fin hvq hreplay hfirst, hme, ?_, ?_, fun r v hr => ?_, State.endCtx_mem .., fun c k hne => ?_⟩
    · rw [hme]
      rfl
    · rw [hme]
      rfl
    · rw [hme]
      exact Ctx.ended_reg_of_value hr
    · rw [hsame.ctx]
      exact State.ctx_modCtx_ne _ _ hne
  · refine ⟨fun halign => ?_, fun halign hrel hgate hres hacc => ?_⟩
    · rw [exec_join hi, State.joinOp_misaligned hb halign]
      rfl
    have hjoin := (exec_join hi s).trans (congrArg (complete s) (State.joinOp_access (len := len) (d := d) hb halign hrel hgate hres hacc))
    refine ⟨fun hmore => ?_, fun hlast hready => ?_⟩
    · rw [hjoin, State.joinCounted_more hmore]
      rfl
    rw [State.joinCounted_last hlast hready] at hjoin
    refine ⟨fun e he => ?_, fun s3 at_ r hr => ⟨fun x hx => ?_, fun hx => ?_⟩⟩
    · rw [hjoin, he]
      rfl
    · rw [hjoin, hr]
      simp only [hx]
      rfl
    · rw [hjoin, hr]
      simp only [hx]
      rfl

end Sys2Proof.Machine
end

section
/-! PROOF. O44: time, service calls, breakpoints and waits (R231, R238 to R240). -/

namespace Sys2Proof.Machine
open Stmt

/-! ## Time -/

theorem le_foldl_max {α : Type} (f : α → Nat) (l : List α) (m : Nat) :
    m ≤ l.foldl (fun m x => max m (f x)) m ∧ ∀ x ∈ l, f x ≤ l.foldl (fun m x => max m (f x)) m := by
  induction l generalizing m with
  | nil => exact ⟨le_rfl, fun x hx => absurd hx List.not_mem_nil⟩
  | cons y l ih =>
    obtain ⟨hm, hl⟩ := ih (max m (f y))
    refine ⟨(le_max_left ..).trans hm, fun x hx => ?_⟩
    obtain rfl | hx := List.mem_cons.1 hx
    · exact (le_max_right ..).trans hm
    · exact hl x hx

theorem State.packageBound_bounds (s : State) : 32 ≤ s.packageBound ∧ ∀ i : Fin 8, (s.dies.get i).skew.natAbs ≤ s.packageBound := by
  obtain ⟨hm, hl⟩ := le_foldl_max (fun d : DieState => d.skew.natAbs) s.dies.toList 32
  exact ⟨hm, fun i => hl _ (Vector.mem_toList_iff.2 (Vector.getElem_mem i.isLt))⟩

/-! ## Service calls -/

theorem exec_trap {s : State} {lit : Option Word} {x : Src} {a : Word} (d : Dst) (svc : BitVec 12)
    (hx : s.me.src (litVal lit) x = .value a) (hrel : ReleaseFree s .pkg) :
    exec (.trap lit d svc x) s = .next { (released s).modMe (fun t => { t with
      run := .service d (s.me.pc + BitVec.ofNat 64 (optBytes lit)) }) with
      out := (if s.me.mode ∈ [.s, .m] then .rootService s.cur.val s.slot.val svc.toNat a
        else .service s.cur.val s.slot.val svc.toNat a) :: s.out } := by
  have hop : s.trapOp d svc x (litVal lit) (litBytesX lit) = .ok { (released s).modMe (fun t => { t with
      run := .service d ((released s).me.pc + word (litBytesX lit)) }) with
      out := (if privileged (released s).me.mode then OutMsg.rootService else .service) s.cur.val s.slot.val svc.toNat a :: s.out } := by
    unfold State.trapOp
    exact except_bind_eq (State.use1_ok.2 hx) (except_bind_eq (State.release_of_free hrel) rfl)
  show complete s (s.trapOp d svc x (litVal lit) (litBytesX lit)) = _
  rw [hop, complete_ok, released, State.me_modMe, litBytesX_eq_optBytes]
  cases s.me.mode <;> rfl

/-- Setting a granule's tag leaves everything but the tags, and the granule has it (R370). -/
theorem State.tagAt_setTag (s : State) (k tag : Nat) : (s.setTag (k / 32) tag).tagAt k = tag % 16 := by
  have htag (u : State) : u.tagAt k = (assocGet u.tags (k / 32)).getD 0 := rfl
  rw [htag]
  show (assocGet (if tag % 16 = 0 then assocDel s.tags (k / 32) else assocSet s.tags (k / 32) (tag % 16)) (k / 32)).getD 0 = _
  split
  · next h => rw [assocGet_assocDel, if_pos rfl, h]; rfl
  · rw [assocGet_assocSet, if_pos rfl]; rfl

theorem State.serviceTags_frame (s : State) (part : Nat) (tags : List (Nat × Nat)) :
    { s.serviceTags part tags with ckpt := s.ckpt, tags := s.tags } = s := by
  have hstep (u : State) (p : Nat × Nat) (hu : { u with ckpt := s.ckpt, tags := s.tags } = s) :
      { (if p.1 < partSize u.pm then (u.keepCut [devKey u.pm part p.1]).setTag (devKey u.pm part p.1 / 32) p.2 else u) with
        ckpt := s.ckpt, tags := s.tags } = s := by
    split
    · exact (congrArg (fun v : State => { v with ckpt := s.ckpt, tags := s.tags }) (u.keepCut_frame _)).trans hu
    · exact hu
  unfold State.serviceTags
  suffices ∀ (l : List (Nat × Nat)) (u : State), { u with ckpt := s.ckpt, tags := s.tags } = s →
      { l.foldl (fun s t => if t.1 < partSize s.pm then (s.keepCut [devKey s.pm part t.1]).setTag (devKey s.pm part t.1 / 32) t.2 else s) u
        with ckpt := s.ckpt, tags := s.tags } = s from this tags s rfl
  intro l
  induction l with
  | nil => exact fun u hu => hu
  | cons p l ih => exact fun u hu => ih _ (hstep u p hu)

theorem State.serviceTags_one {s : State} {part pa g : Nat} (h : pa < partSize s.pm) :
    (s.serviceTags part [(pa, g)]).tagAt (devKey s.pm part pa) = g % 16 := by
  show State.tagAt (if pa < partSize s.pm then (s.keepCut [devKey s.pm part pa]).setTag (devKey s.pm part pa / 32) g else s) _ = _
  rw [if_pos h, State.tagAt_setTag]

theorem State.acquired_tags (s : State) (sc : Scope) : (s.acquired sc).tags = s.tags := by
  unfold State.acquired
  split <;> rfl

/-- A reply whose answer waits for nothing: the tags, then the value in the waiting context (R238, R370). -/
theorem exec_serviceReply {s : State} {c : CoreId} {k : SlotId} {v : Word} {tags : List (Nat × Nat)}
    (hcalls : (s.core c).calls k = true) (hready : s.answerWaits c k { value := v, tags := tags } = none) :
    exec (.serviceReply c k { value := v, tags := tags }) s =
      .next ((((s.serviceTags (s.partOf c) tags).modCtx c k fun t => t.reply v).settle c).within c k fun u => u.acquired .pkg) := by
  have hdescs : serviceDescs s (s.caller c k) [] = [] := by cases s.caller c k <;> rfl
  have hcores : (s.serviceTags (s.partOf c) tags).cores = s.cores := (congrArg State.cores (s.serviceTags_frame (s.partOf c) tags) :)
  have hcalls' : ((s.serviceTags (s.partOf c) tags).core c).calls k = true := by
    rw [State.core, hcores]
    exact hcalls
  show Host.Outcome.next (match s.answerWaits c k { value := v, tags := tags } with
    | some s' => s'.comeAgain
    | none => ((s.serviceTags (s.partOf c) tags).putDescs (serviceDescs s (s.caller c k) [])).serviceReply c k v) = _
  rw [hready, hdescs]
  exact congrArg Host.Outcome.next (if_pos hcalls')

theorem serviceReply_clause {s : State} {c : CoreId} {k : SlotId} {v next : Word} {d : Dst} {tags : List (Nat × Nat)}
    (hlive : (s.ctx c k).live = true) (hrun : (s.ctx c k).run = .service d next)
    (hready : s.answerWaits c k { value := v, tags := tags } = none) :
    ∃ t, exec (.serviceReply c k { value := v, tags := tags }) s = .next t ∧ (t.ctx c k).reg .lat = .value v ∧ (t.ctx c k).pc = next ∧
      (t.ctx c k).run = .ready ∧ (∀ n, dstName d = some n → (t.ctx c k).reg n = .value v) ∧ t.mem = s.mem ∧
      t.cur = s.cur ∧ t.slot = s.slot ∧ (tags = [] → t.tags = s.tags) ∧
      ∀ pa g, tags = [(pa, g)] → pa < partSize s.pm → t.tagAt (devKey s.pm (s.partOf c) pa) = g % 16 := by
  have hcalls : (s.core c).calls k = true := by
    show ((s.ctx c k).live && (s.ctx c k).awaitsReply) = true
    rw [hlive, Ctx.awaitsReply, hrun]
    rfl
  refine ⟨_, exec_serviceReply hcalls hready, ?_⟩
  have hframe := s.serviceTags_frame (s.partOf c) tags
  have hone (pa g : Nat) (h : tags = [(pa, g)]) (hpa : pa < partSize s.pm) :
      (s.serviceTags (s.partOf c) tags).tagAt (devKey s.pm (s.partOf c) pa) = g % 16 := h ▸ State.serviceTags_one hpa
  have hnil (h : tags = []) : (s.serviceTags (s.partOf c) tags).tags = s.tags := h ▸ rfl
  have hmem0 := (congrArg State.mem hframe :)
  have hcur0 := (congrArg State.cur hframe :)
  have hslot0 := (congrArg State.slot hframe :)
  have hctx := (congrArg (fun x : State => x.ctx c k) hframe :)
  generalize s.serviceTags (s.partOf c) tags = u at hframe hone hnil hmem0 hcur0 hslot0 hctx ⊢
  have hreply : ((u.modCtx c k fun t => t.reply v).settle c).ctx c k = { (s.ctx c k).put d (.value v) with pc := next, run := .ready } := by
    rw [(State.settle_sameCtxs _ c).ctx]
    refine (State.ctx_setCtx ..).trans ?_
    show (u.ctx c k).reply v = _
    rw [(show u.ctx c k = s.ctx c k from hctx), Ctx.reply, hrun]
  obtain ⟨b, hb⟩ := (((u.modCtx c k fun t => t.reply v).settle c).focus c k).acquired_ctx .pkg
  have hmem := (((u.modCtx c k fun t => t.reply v).settle c).focus c k).acquired_mem .pkg
  have htags := (((u.modCtx c k fun t => t.reply v).settle c).focus c k).acquired_tags .pkg
  have hfinal : ((((u.modCtx c k fun t => t.reply v).settle c).within c k fun u => u.acquired .pkg).ctx c k) =
      { (s.ctx c k).put d (.value v) with pc := next, run := .ready, acqWait := b } := by
    refine (show _ = _ from hb).trans ?_
    exact congrArg (fun t : Ctx => { t with acqWait := b }) hreply
  rw [hfinal]
  have hputs (n : RegName) (hn : n = .lat ∨ dstName d = some n) : ((s.ctx c k).put d (.value v)).reg n = .value v :=
    ((s.ctx c k).put_reg d _ n).trans (if_pos hn)
  refine ⟨hputs _ (.inl rfl), rfl, rfl, fun n hn => hputs n (.inr hn), hmem.trans hmem0, hcur0, hslot0, fun h => htags.trans (hnil h), fun pa g h hpa => ?_⟩
  rw [← hone pa g h hpa]
  exact congrArg (fun l => ((l.find? fun p : Nat × Nat => p.1 == devKey s.pm (s.partOf c) pa / 32).map (·.2)).getD 0) htags

/-! ## O44 -/

/-- Settles O44: a reply sets its tags first, so the context that waits is still the one that called. -/
theorem systemInstructions : Obligations.SystemInstructions := by
  unfold Obligations.SystemInstructions
  refine ⟨fun s d => rfl, fun s d => ⟨rfl, s.packageBound_bounds⟩, fun s lit d svc x a hx hrel => exec_trap d svc hx hrel,
    fun s c k v next d tags hlive hrun hready => serviceReply_clause hlive hrun hready, fun s code => ⟨fun h => ?_, fun h => ?_⟩,
    fun s c k next h => ⟨?_, ?_⟩, fun s d => ?_⟩
  · show complete s (.ok (if s.myLaunch.desc.dbg then _ else s.advance 4)) = _
    rw [h]
    rfl
  · show complete s (.ok (if s.myLaunch.desc.dbg then _ else s.advance 4)) = _
    rw [h]
    rfl
  · show Host.Outcome.next (s.debuggerResume c k false) = _
    rw [State.debuggerResume, h]
    rfl
  · show Host.Outcome.next (s.debuggerResume c k true) = _
    rw [State.debuggerResume, h]
    rfl
  · show complete s (s.wfeOp d) = _
    unfold State.wfeOp
    dsimp only
    split <;> rfl

end Sys2Proof.Machine
end

section
/-! PROOF. O48: the vector unit's turn and the replay of logs (R76, R158, R160, R177, R178). -/

namespace Sys2Proof.Machine
open Stmt

/-! ## The turn -/

/-- The state in which the vector unit serves slot k of core c (R158). -/
def State.servedAt (s : State) (c : CoreId) (k : SlotId) : State := (s.modCore c fun x => { x with lastVec := k }).focus c k

theorem State.servedAt_eq (s : State) (c : CoreId) (k : SlotId) : ∃ cores, s.servedAt c k = { s with cores := cores, cur := c, slot := k } :=
  ⟨_, rfl⟩

theorem State.servedAt_core (s : State) (c : CoreId) (k : SlotId) : (s.servedAt c k).core c = { s.core c with lastVec := k } :=
  (State.core_modCore s c fun x => { x with lastVec := k } :)

theorem State.servedAt_me (s : State) (c : CoreId) (k : SlotId) : (s.servedAt c k).me = s.ctx c k := by
  show ((s.servedAt c k).core c).ctx k = _
  rw [s.servedAt_core]
  rfl

theorem exec_vectorIssue {s : State} {c : CoreId} {k : SlotId} {o : VOp} {rest : List VOp}
    (hnext : (s.core c).vnext (s.issues c) = some k) (hvq : (s.ctx c k).vq = o :: rest) :
    exec (.vectorIssue c) s = .next ((s.servedAt c k).vserve.focus s.cur s.slot) := by
  show Host.Outcome.next (s.vectorIssue c) = _
  have hbusy : ¬ (s.ctx c k).vq.isEmpty = true := by simp [hvq]
  unfold State.vectorIssue
  rw [hnext]
  exact congrArg Host.Outcome.next (if_neg hbusy)

theorem exec_vectorIssue_idle {s : State} {c : CoreId} (h : ∀ k, (s.ctx c k).vq = []) : exec (.vectorIssue c) s = .next s := by
  show Host.Outcome.next (s.vectorIssue c) = _
  unfold State.vectorIssue
  split
  · rfl
  · rw [h]
    rfl

/-- What an access needs of the host depends on what holds it, the ports and the directory alone (R304). -/
theorem State.demand_none_congr {s t : State} {f : From} {a : Acc} {r : Req} (hcross : t.crossHeld f a.keys = s.crossHeld f a.keys)
    (hhead : t.headHeld f a = s.headHeld f a) (hreserve : t.reserveFull (a.keys.map pageOf) = s.reserveFull (a.keys.map pageOf))
    (hports : ∀ b, t.anyPort b = s.anyPort b) (hdir : t.dir = s.dir) (h : s.demand f a r = none) : t.demand f a r = none := by
  unfold State.demand at h ⊢
  rw [hcross, hhead, hreserve, hdir, hports]
  split at h
  · cases h
  · next hheld =>
    refine (if_neg hheld).trans ?_
    cases hplace : a.place <;> simp only [hplace] at h ⊢
    · split at h
      · next hneed => exact if_pos hneed
      · cases h
    · split at h
      · cases h
      · next hport =>
        refine (if_neg hport).trans ?_
        by_cases hcoh : a.coh = true
        · rw [if_pos hcoh] at h ⊢
          split at h
          · next hneed => exact if_pos hneed
          · cases h
        · rw [if_neg hcoh] at h ⊢
          by_cases hwrites : r.writes = true
          · exact if_pos hwrites
          · rw [if_neg hwrites] at h ⊢
            split at h
            · next hneed => exact if_pos hneed
            · cases h

theorem State.demand_of_cores {s : State} {f : From} {a : Acc} {r : Req} (h : s.demand f a r = none) (cores : Vector Core 1024)
    (c : CoreId) (k : SlotId) : ({ s with cores := cores, cur := c, slot := k } : State).demand f a r = none :=
  State.demand_none_congr (s := s) rfl rfl rfl (fun _ => rfl) rfl h

/-! ## Instructions without memory access -/

/-- An instruction without memory access changes the vector and mask registers and the generators alone (R166 to R176). -/
theorem Ctx.vrun_frame (t : Ctx) (o : VOp) : { (t.vrun o).1 with v := t.v, m := t.m, gens := t.gens } = t := by
  unfold Ctx.vrun Ctx.vconvert
  dsimp only
  split <;> first | rfl | (split <;> rfl)

theorem State.countAll_cur (s : State) (c : CoreId) (evs : List Nat) : (s.countAll c evs).cur = s.cur := by
  unfold State.countAll
  split <;> rfl

theorem State.vserve_plain {u : State} {o : VOp} {rest : List VOp} (hvq : u.me.vq = o :: rest) (hmem : o.isMem = false) (href : o.ref = none) :
    ∃ evs, u.vserve = (u.setMe (({ u.me with vq := rest } : Ctx).vrun o).1).countAll u.cur evs := by
  refine ⟨(({ u.me with vq := rest } : Ctx).vrun o).2.2, ?_⟩
  unfold State.vserve
  rw [hvq]
  refine (if_neg (by rw [hmem]; exact Bool.false_ne_true)).trans ?_
  obtain ⟨t, x, evs⟩ := ({ u.me with vq := rest } : Ctx).vrun o
  cases x <;> simp only [href]

theorem State.vserve_result {u : State} {o : VOp} {rest : List VOp} {r : SymRef} {v : Word} (hvq : u.me.vq = o :: rest) (hmem : o.isMem = false)
    (href : o.ref = some r) (hv : (({ u.me with vq := rest } : Ctx).vrun o).2.1 = some v) :
    ∃ evs, u.vserve = ((u.setMe (({ u.me with vq := rest } : Ctx).vrun o).1).countAll u.cur evs).deliver u.cur r v := by
  refine ⟨(({ u.me with vq := rest } : Ctx).vrun o).2.2, ?_⟩
  unfold State.vserve
  rw [hvq]
  refine (if_neg (by rw [hmem]; exact Bool.false_ne_true)).trans ?_
  generalize ({ u.me with vq := rest } : Ctx).vrun o = q at hv
  obtain ⟨t, x, evs⟩ := q
  cases hv
  simp only [href]
  rw [State.countAll_cur]
  rfl

theorem Core.resolve_vq (x : Core) (i : Sym) (v : Word) (k : SlotId) : ((x.resolve i v).ctx k).vq = (x.ctx k).vq := by
  rw [Core.resolve_ctx]
  rfl

theorem Core.latchOwner_vq (x : Core) (j : Option SlotId) (bit : Nat) (k : SlotId) : ((x.latchOwner j bit).ctx k).vq = (x.ctx k).vq := by
  cases j with
  | none => rfl
  | some j =>
    unfold Core.latchOwner Core.latchBit
    dsimp only
    split
    · by_cases h : k = j
      · subst h
        rw [Core.ctx_setCtx]
      · rw [Core.ctx_setCtx_ne _ _ h]
    · rfl

theorem Core.deliver_vq (x : Core) (r : SymRef) (v : Word) (k : SlotId) : ((x.deliver r v).ctx k).vq = (x.ctx k).vq := by
  unfold Core.deliver
  split
  · split
    · rw [Core.latchOwner_vq, Core.resolve_vq]
    · rfl
  · rfl

theorem vectorIssue_plain {s : State} {c : CoreId} {k : SlotId} {o : VOp} {rest : List VOp}
    (hnext : (s.core c).vnext (s.issues c) = some k) (hvq : (s.ctx c k).vq = o :: rest) (hmem : o.isMem = false) (href : o.ref = none) :
    ∃ t, exec (.vectorIssue c) s = .next t ∧
      t.ctx c k = (({ s.ctx c k with vq := rest } : Ctx).vrun o).1 ∧ t.mem = s.mem ∧ (t.core c).lastVec = k := by
  refine ⟨_, exec_vectorIssue hnext hvq, ?_⟩
  have hme := s.servedAt_me c k
  obtain ⟨evs, hserve⟩ := State.vserve_plain (by rw [hme]; exact hvq) hmem href
  rw [hserve, hme]
  generalize (({ s.ctx c k with vq := rest } : Ctx).vrun o).1 = t
  have hcore : ∃ ev, (((s.servedAt c k).setMe t).countAll c evs).core c = { (s.servedAt c k).myCore.setCtx k t with ev := ev } := by
    obtain ⟨ev, hev⟩ := ((s.servedAt c k).setMe t).countAll_core c evs
    exact ⟨ev, hev.trans (congrArg (fun x : Core => { x with ev := ev }) (State.core_setCore (s.servedAt c k) c _))⟩
  obtain ⟨ev, hev⟩ := hcore
  refine ⟨?_, State.countAll_mem _ c evs, ?_⟩
  · refine (congrArg (fun x : Core => x.ctx k) hev).trans ?_
    exact Core.ctx_setCtx _ k t
  · refine (congrArg Core.lastVec hev).trans ?_
    exact congrArg Core.lastVec (s.servedAt_core c k)

theorem vectorIssue_result {s : State} {c : CoreId} {k : SlotId} {o : VOp} {rest : List VOp} {r : SymRef} {v : Word} {n : Option SlotId}
    (hnext : (s.core c).vnext (s.issues c) = some k) (hvq : (s.ctx c k).vq = o :: rest) (hmem : o.isMem = false) (href : o.ref = some r)
    (hv : (({ s.ctx c k with vq := rest } : Ctx).vrun o).2.1 = some v) (hsym : (s.core c).syms.get r.s = .pending r.serial n) :
    ∃ t, exec (.vectorIssue c) s = .next t ∧ (t.core c).syms.get r.s = .resolved v ∧ (t.ctx c k).vq = rest ∧ t.mem = s.mem := by
  refine ⟨_, exec_vectorIssue hnext hvq, ?_⟩
  have hme := s.servedAt_me c k
  obtain ⟨evs, hserve⟩ := State.vserve_result (u := s.servedAt c k) (by rw [hme]; exact hvq) hmem href (by rw [hme]; exact hv)
  have hframe := ({ s.ctx c k with vq := rest } : Ctx).vrun_frame o
  rw [hserve, hme]
  generalize (({ s.ctx c k with vq := rest } : Ctx).vrun o).1 = t at hframe
  have hcore : ∃ ev, (((s.servedAt c k).setMe t).countAll c evs).core c = { (s.servedAt c k).myCore.setCtx k t with ev := ev } := by
    obtain ⟨ev, hev⟩ := ((s.servedAt c k).setMe t).countAll_core c evs
    exact ⟨ev, hev.trans (congrArg (fun x : Core => { x with ev := ev }) (State.core_setCore (s.servedAt c k) c _))⟩
  obtain ⟨ev, hev⟩ := hcore
  have hdeliver : ((((s.servedAt c k).setMe t).countAll c evs).deliver c r v).core c =
      ((((s.servedAt c k).setMe t).countAll c evs).core c).deliver r v := State.core_modCore ..
  refine ⟨?_, ?_, State.countAll_mem _ c evs⟩
  · refine (congrArg (fun x : Core => x.syms.get r.s) hdeliver).trans ?_
    refine Core.deliver_syms_of_pending (k := n) ?_ v
    rw [hev]
    show ((s.servedAt c k).core c).syms.get r.s = _
    rw [s.servedAt_core]
    exact hsym
  · refine (congrArg (fun x : Core => (x.ctx k).vq) hdeliver).trans ?_
    rw [Core.deliver_vq, hev]
    show (((s.servedAt c k).myCore.setCtx k t).ctx k).vq = rest
    rw [Core.ctx_setCtx]
    exact (congrArg Ctx.vq hframe :)

/-! ## Transfers -/

/-- The state in which the transfers of the instruction at the head of the queue begin. -/
def State.transferring (s : State) (c : CoreId) (k : SlotId) (rest : List VOp) : State := (s.servedAt c k).modMe fun t => { t with vq := rest }

theorem State.transferring_me (s : State) (c : CoreId) (k : SlotId) (rest : List VOp) :
    (s.transferring c k rest).me = { s.ctx c k with vq := rest } := by
  rw [State.transferring, State.me_modMe, State.servedAt_me]

theorem State.vmemory_of_ready {s : State} {c : CoreId} {k : SlotId} {o : VOp} {rest : List VOp} (hvq : (s.ctx c k).vq = o :: rest)
    (hmem : o.isMem = true) (hdemand : ∀ p ∈ o.places, s.demand (From.ofCore c) p.acc o.op.req = none)
    (hgood : ∀ p ∈ o.places, (o.op.stores = true ∨ s.poisoned p.acc.keys = false) ∧ s.quarantined p.acc.keys = false) :
    (s.servedAt c k).vserve = o.places.foldl (fun s p => s.vtransfer o p) (s.transferring c k rest) := by
  obtain ⟨cores, hcores⟩ := s.servedAt_eq c k
  have hneed : o.places.filter (fun p => ((s.servedAt c k).demand (From.ofCore (s.servedAt c k).cur) p.acc o.op.req).isSome) = [] := by
    refine List.filter_eq_nil_iff.2 fun p hp => ?_
    have hp' : (s.servedAt c k).demand (From.ofCore c) p.acc o.op.req = none := hcores ▸ State.demand_of_cores (hdemand p hp) cores c k
    rw [show (s.servedAt c k).cur = c from rfl, hp']
    exact Bool.false_ne_true
  have hbad : o.places.find? (fun p => (!o.op.stores && (s.servedAt c k).poisoned p.acc.keys) || (s.servedAt c k).quarantined p.acc.keys) = none := by
    refine List.find?_eq_none.2 fun p hp => ?_
    obtain ⟨hpoison, hquar⟩ := hgood p hp
    have hquar' : (s.servedAt c k).quarantined p.acc.keys = false := hquar
    rw [hquar', Bool.or_false]
    obtain h | h := hpoison
    · rw [h]
      exact Bool.false_ne_true
    · rw [show (s.servedAt c k).poisoned p.acc.keys = false from h, Bool.and_false]
      exact Bool.false_ne_true
  unfold State.vserve
  rw [s.servedAt_me c k, hvq]
  refine (if_pos hmem).trans ?_
  unfold State.vmemory
  dsimp only
  rw [hneed, hbad]
  rfl

/-! ## Loads -/

/-- What a place reads depends on memory and the sower's counters alone (R128). -/
theorem State.valAcc_congr {s t : State} {a : Acc} (hmem : t.mem = s.mem) (hsower : t.sower = s.sower) (hhead : ∀ h, a.place ≠ .head h)
    (n : Nat) : t.valAcc a n = s.valAcc a n := by
  unfold State.valAcc State.readAcc
  split
  · rw [State.counter, State.counter, hsower]
  · exact absurd ‹_› (hhead _)
  · rw [State.bytesAt_of_mem_eq hmem]

theorem State.tookAcc_of_not_head {s : State} {a : Acc} (hhead : ∀ h, a.place ≠ .head h) (n : Nat) : s.tookAcc a n = s := by
  have hreg : s.accReg a n = none := by
    unfold State.accReg
    split
    · exact absurd ‹_› (hhead _)
    · rfl
  unfold State.tookAcc
  rw [hreg]

/-- The elements of a register that places fill, each with its own value. -/
def vfill (e : Nat) (val : VPlace → Nat) (l : List VPlace) (v : BitVec 1024) : BitVec 1024 := l.foldl (fun v p => vput v e p.elem (val p)) v

theorem vget_vfill {e : Nat} (val : VPlace → Nat) (l : List VPlace) (v : BitVec 1024) (hfit : ∀ p ∈ l, 8 * e * (p.elem + 1) ≤ 1024)
    (hnodup : (l.map (·.elem)).Nodup) (j : Nat) :
    (∀ p ∈ l, p.elem = j → vget (vfill e val l v) e j = val p % 2 ^ (8 * e)) ∧
    ((∀ p ∈ l, p.elem ≠ j) → vget (vfill e val l v) e j = vget v e j) := by
  induction l generalizing v with
  | nil => exact ⟨fun p hp => absurd hp List.not_mem_nil, fun _ => rfl⟩
  | cons q l ih =>
    obtain ⟨hq, hl⟩ := List.nodup_cons.1 hnodup
    obtain ⟨hin, hout⟩ := ih (vput v e q.elem (val q)) (fun p hp => hfit p (List.mem_cons_of_mem _ hp)) hl
    have hput := vget_vput (v := v) (j := j) (hfit q List.mem_cons_self) (val q)
    refine ⟨fun p hp hj => ?_, fun hne => ?_⟩
    · obtain rfl | hp := List.mem_cons.1 hp
      · have hrest : ∀ r ∈ l, r.elem ≠ j := fun r hr h => hq (List.mem_map.2 ⟨r, hr, h.trans hj.symm⟩)
        exact (hout hrest).trans (hput.trans (if_pos hj))
      · exact hin p hp hj
    · exact (hout fun p hp => hne p (List.mem_cons_of_mem _ hp)).trans (hput.trans (if_neg (hne q List.mem_cons_self)))

/-- The destination register of a queued instruction. -/
def VOp.dstReg (o : VOp) : Fin 16 := Fin.ofNat 16 o.dst

/-- What loading transfers leave: the destination register filled, and nothing else of the context, memory or the sower (R177). -/
structure Filled (o : VOp) (l : List VPlace) (u t : State) : Prop where
  cur : t.cur = u.cur
  slot : t.slot = u.slot
  mem : t.mem = u.mem
  sower : t.sower = u.sower
  vq : t.me.vq = u.me.vq
  dst : t.me.v.get o.dstReg = vfill o.ty.bytes (fun p => u.valAcc p.acc o.ty.bytes) l (u.me.v.get o.dstReg)
  others (d : Fin 16) (h : d ≠ o.dstReg) : t.me.v.get d = u.me.v.get d

theorem State.vtransfer_filled {u : State} {o : VOp} {p : VPlace} (hop : o.op.stores = false) (hhead : ∀ h, p.acc.place ≠ .head h) :
    Filled o [p] u (u.vtransfer o p) := by
  have hval : (u.arrive (From.ofCore u.cur) p.acc o.op.req).valAcc p.acc o.ty.bytes = u.valAcc p.acc o.ty.bytes :=
    State.valAcc_congr (State.arrive_mem ..) (congrArg State.sower (u.arrive_frame _ p.acc _) :) hhead _
  have hcur := (congrArg State.cur (u.arrive_frame (From.ofCore u.cur) p.acc o.op.req) :)
  have hslot := (congrArg State.slot (u.arrive_frame (From.ofCore u.cur) p.acc o.op.req) :)
  have hsower := (congrArg State.sower (u.arrive_frame (From.ofCore u.cur) p.acc o.op.req) :)
  have hme := u.arrive_me (From.ofCore u.cur) p.acc o.op.req
  have hmem := u.arrive_mem (From.ofCore u.cur) p.acc o.op.req
  unfold State.vtransfer
  dsimp only
  rw [hop, State.tookAcc_of_not_head hhead, hval]
  generalize u.arrive (From.ofCore u.cur) p.acc o.op.req = w at hcur hslot hsower hme hmem
  rw [if_neg Bool.false_ne_true]
  refine ⟨hcur, hslot, hmem, hsower, ?_, ?_, fun d hd => ?_⟩
  · rw [State.me_modMe, hme]
  · rw [State.me_modMe, hme]
    exact (vector_get_set ..).trans (if_pos rfl)
  · rw [State.me_modMe, hme]
    exact (vector_get_set ..).trans (if_neg hd)

theorem Filled.cons {o : VOp} {p : VPlace} {l : List VPlace} {u w t : State} (h : Filled o [p] u w) (h' : Filled o l w t)
    (hhead : ∀ p ∈ l, ∀ h, p.acc.place ≠ .head h) : Filled o (p :: l) u t where
  cur := h'.cur.trans h.cur
  slot := h'.slot.trans h.slot
  mem := h'.mem.trans h.mem
  sower := h'.sower.trans h.sower
  vq := h'.vq.trans h.vq
  others d hd := (h'.others d hd).trans (h.others d hd)
  dst := by
    rw [h'.dst, h.dst]
    exact List.foldl_ext _ _ _ fun v q hq => congrArg (vput v o.ty.bytes q.elem) (State.valAcc_congr h.mem h.sower (hhead q hq) _)

theorem State.vtransfer_loads {o : VOp} (hop : o.op.stores = false) (l : List VPlace) (u : State)
    (hhead : ∀ p ∈ l, ∀ h, p.acc.place ≠ .head h) : Filled o l u (l.foldl (fun s p => s.vtransfer o p) u) := by
  induction l generalizing u with
  | nil => exact ⟨rfl, rfl, rfl, rfl, rfl, rfl, fun _ _ => rfl⟩
  | cons p l ih =>
    have hl : ∀ p ∈ l, ∀ h, p.acc.place ≠ .head h := fun q hq => hhead q (List.mem_cons_of_mem _ hq)
    exact (State.vtransfer_filled hop (hhead p List.mem_cons_self)).cons (ih _ hl) hl

theorem vectorIssue_load {s : State} {c : CoreId} {k : SlotId} {o : VOp} {rest : List VOp}
    (hnext : (s.core c).vnext (s.issues c) = some k) (hvq : (s.ctx c k).vq = o :: rest) (hop : o.op = .ld ∨ o.op = .gth)
    (hdemand : ∀ p ∈ o.places, s.demand (From.ofCore c) p.acc .read = none)
    (hgood : ∀ p ∈ o.places, s.poisoned p.acc.keys = false ∧ s.quarantined p.acc.keys = false ∧ ∀ h, p.acc.place ≠ .head h)
    (hnodup : (o.places.map (·.elem)).Nodup) (hfit : ∀ p ∈ o.places, p.elem < 128 / o.ty.bytes) :
    ∃ t, exec (.vectorIssue c) s = .next t ∧ (t.ctx c k).vq = rest ∧ t.mem = s.mem ∧
      ∀ d : Fin 16, (d.val ≠ o.dst % 16 → (t.ctx c k).v.get d = (s.ctx c k).v.get d) ∧
        (d.val = o.dst % 16 → ∀ j < 128 / o.ty.bytes,
          (∀ p ∈ o.places, p.elem = j →
            vget ((t.ctx c k).v.get d) o.ty.bytes j = s.valAcc p.acc o.ty.bytes % 2 ^ (8 * o.ty.bytes)) ∧
          ((∀ p ∈ o.places, p.elem ≠ j) →
            vget ((t.ctx c k).v.get d) o.ty.bytes j = vget ((s.ctx c k).v.get d) o.ty.bytes j)) := by
  have hmem : o.isMem = true := by
    unfold VOp.isMem
    obtain h | h := hop <;> rw [h]
  have hreads : o.op.stores = false := by obtain h | h := hop <;> rw [h] <;> rfl
  have hreq : o.op.req = .read := by rw [VecOp.req, hreads]; rfl
  refine ⟨_, exec_vectorIssue hnext hvq, ?_⟩
  rw [State.vmemory_of_ready hvq hmem (fun p hp => hreq ▸ hdemand p hp) fun p hp => ⟨.inr (hgood p hp).1, (hgood p hp).2.1⟩]
  have hfill := State.vtransfer_loads hreads o.places (s.transferring c k rest) fun p hp => (hgood p hp).2.2
  generalize o.places.foldl (fun s p => s.vtransfer o p) (s.transferring c k rest) = t at hfill
  obtain ⟨hcur, hslot, hmem', -, hvq', hdst, hothers⟩ := hfill
  have hctx : (t.focus s.cur s.slot).ctx c k = t.me := by
    show t.ctx c k = t.ctx t.cur t.slot
    rw [hcur, hslot]
    rfl
  have hval (v : BitVec 1024) : vfill o.ty.bytes (fun p => (s.transferring c k rest).valAcc p.acc o.ty.bytes) o.places v =
      vfill o.ty.bytes (fun p => s.valAcc p.acc o.ty.bytes) o.places v :=
    List.foldl_ext _ _ _ fun v q hq => congrArg (vput v o.ty.bytes q.elem) (State.valAcc_congr (s := s) (t := s.transferring c k rest) rfl rfl (hgood q hq).2.2 _)
  have hme := s.transferring_me c k rest
  rw [hctx]
  refine ⟨hvq'.trans (congrArg Ctx.vq hme), hmem', fun d => ⟨fun hd => ?_, fun hd j _ => ?_⟩⟩
  · exact (hothers d fun h => hd (congrArg Fin.val h)).trans (congrArg (fun t : Ctx => t.v.get d) hme :)
  · obtain rfl : d = o.dstReg := Fin.ext hd
    rw [hdst, hval, hme]
    exact vget_vfill _ _ _ (fun p hp => elem_fits (hfit p hp)) hnodup j

/-! ## Stores -/

theorem VArg.elem_congr {t u : Ctx} (h : t.v = u.v) (a : VArg) (e i : Nat) : a.elem t e i = a.elem u e i := by
  unfold VArg.elem
  rw [h]

/-- A headland register that is written leaves every core and the executing slot. -/
theorem State.headPut_cores (s : State) (r : HeadReg) (mode : Mode) (v : Word) :
    (s.headPut r mode v).cores = s.cores ∧ (s.headPut r mode v).cur = s.cur ∧ (s.headPut r mode v).slot = s.slot := by
  have hgo (u : State) (md : Mode) (b : Byte) :
      (u.ckptGo md b).cores = u.cores ∧ (u.ckptGo md b).cur = u.cur ∧ (u.ckptGo md b).slot = u.slot := by
    unfold State.ckptGo
    split <;> exact ⟨rfl, rfl, rfl⟩
  cases r with
  | ckptCtl =>
    unfold State.headPut State.writeCkptCtl
    dsimp only
    split
    · exact hgo _ _ _
    · exact ⟨rfl, rfl, rfl⟩
  | ckptDst => cases mode <;> exact ⟨rfl, rfl, rfl⟩
  | _ => exact ⟨rfl, rfl, rfl⟩

/-- What a store leaves of the contexts: all of them (R128). -/
theorem State.writeAcc_cores (s : State) (a : Acc) (n v : Nat) :
    (s.writeAcc a n v).cores = s.cores ∧ (s.writeAcc a n v).cur = s.cur ∧ (s.writeAcc a n v).slot = s.slot := by
  unfold State.writeAcc
  split
  · exact ⟨rfl, rfl, rfl⟩
  · split
    · exact s.headPut_cores ..
    · exact ⟨rfl, rfl, rfl⟩
  · exact ⟨State.write_cores .., State.write_cur .., State.write_slot ..⟩

theorem State.writeAcc_get {s : State} {a : Acc} (hwf : s.mem.wf = true) (n v : Nat) {x : Nat} (hx : x ∉ a.keys) :
    (s.writeAcc a n v).mem.get x = s.mem.get x := by
  unfold State.writeAcc
  split
  · rfl
  · split
    · rw [State.headPut_mem]
    · rfl
  · exact State.write_get_of_notMem _ _ hwf hx

/-- What storing transfers leave: every context's registers and queue, and every byte at no place's keys (R177). -/
structure Stored (l : List VPlace) (u t : State) : Prop where
  cur : t.cur = u.cur
  slot : t.slot = u.slot
  vq : t.me.vq = u.me.vq
  v : t.me.v = u.me.v
  wf : t.mem.wf = true
  get (a : Nat) (h : ∀ p ∈ l, a ∉ p.acc.keys) : t.mem.get a = u.mem.get a

/-- One element of a store is a write of its bytes in a state that differs in the directory and the links written over (R177). -/
theorem State.vtransfer_stores {u : State} {o : VOp} (p : VPlace) (hop : o.op.stores = true) :
    ∃ w : State, w.cur = u.cur ∧ w.slot = u.slot ∧ w.me.vq = u.me.vq ∧ w.me.v = u.me.v ∧ w.mem = u.mem ∧
      u.vtransfer o p = w.writeAcc p.acc o.ty.bytes (o.x.elem u.me o.ty.bytes p.elem) := by
  have hcur := (congrArg State.cur (u.arrive_frame (From.ofCore u.cur) p.acc o.op.req) :)
  have hslot := (congrArg State.slot (u.arrive_frame (From.ofCore u.cur) p.acc o.op.req) :)
  have hme := u.arrive_me (From.ofCore u.cur) p.acc o.op.req
  have hmem := u.arrive_mem (From.ofCore u.cur) p.acc o.op.req
  unfold State.vtransfer
  dsimp only
  rw [hop]
  generalize u.arrive (From.ofCore u.cur) p.acc o.op.req = w at hcur hslot hme hmem
  have hnote : (w.noteWrite p.acc).me.vq = u.me.vq ∧ (w.noteWrite p.acc).me.v = u.me.v := by
    unfold State.noteWrite
    rw [State.me_modMe, hme]
    exact ⟨rfl, rfl⟩
  obtain ⟨hvq, hv⟩ := hnote
  refine ⟨w.noteWrite p.acc, hcur, hslot, hvq, hv, hmem, (if_pos rfl).trans ?_⟩
  rw [VArg.elem_congr hv]

theorem State.vtransfer_stored {u : State} {o : VOp} (p : VPlace) (hop : o.op.stores = true) (hwf : u.mem.wf = true) :
    Stored [p] u (u.vtransfer o p) := by
  obtain ⟨w, hcur, hslot, hvq, hv, hmem, heq⟩ := u.vtransfer_stores p hop
  rw [heq]
  have hw : w.mem.wf = true := hmem ▸ hwf
  obtain ⟨hcores, hcur', hslot'⟩ := w.writeAcc_cores p.acc o.ty.bytes (o.x.elem u.me o.ty.bytes p.elem)
  have hme : (w.writeAcc p.acc o.ty.bytes (o.x.elem u.me o.ty.bytes p.elem)).me = w.me := by
    rw [State.me, State.ctx, State.core, hcores, hcur', hslot']
    rfl
  refine ⟨hcur'.trans hcur, hslot'.trans hslot, hme ▸ hvq, hme ▸ hv, State.writeAcc_wf _ _ _ hw, fun a ha => ?_⟩
  rw [State.writeAcc_get hw _ _ (ha p List.mem_cons_self), hmem]

theorem Stored.cons {p : VPlace} {l : List VPlace} {u w t : State} (h : Stored [p] u w) (h' : Stored l w t) : Stored (p :: l) u t where
  cur := h'.cur.trans h.cur
  slot := h'.slot.trans h.slot
  vq := h'.vq.trans h.vq
  v := h'.v.trans h.v
  wf := h'.wf
  get a ha := (h'.get a fun q hq => ha q (List.mem_cons_of_mem _ hq)).trans (h.get a fun q hq => by
    obtain rfl := List.mem_singleton.1 hq
    exact ha q List.mem_cons_self)

theorem State.foldl_vtransfer_stored {o : VOp} (hop : o.op.stores = true) (l : List VPlace) (u : State) (hwf : u.mem.wf = true) :
    Stored l u (l.foldl (fun s p => s.vtransfer o p) u) := by
  induction l generalizing u with
  | nil => exact ⟨rfl, rfl, rfl, rfl, hwf, fun _ _ => rfl⟩
  | cons p l ih =>
    have h := State.vtransfer_stored p hop hwf
    exact h.cons (ih _ h.wf)

/-- Where the places are disjoint, each has its own element's bytes in the end (R177). -/
theorem State.bytesAt_foldl_vtransfer {o : VOp} (hop : o.op.stores = true) (l : List VPlace) (u : State) (hwf : u.mem.wf = true)
    (hnodup : (l.flatMap (·.acc.keys)).Nodup)
    (hplain : ∀ p ∈ l, p.acc.keys.length = o.ty.bytes ∧ (∀ n, p.acc.place ≠ .ctr n) ∧ ∀ h, p.acc.place ≠ .head h) :
    ∀ p ∈ l, (l.foldl (fun s p => s.vtransfer o p) u).bytesAt p.acc.keys = leBytes o.ty.bytes (o.x.elem u.me o.ty.bytes p.elem) := by
  induction l generalizing u with
  | nil => exact fun p hp => absurd hp List.not_mem_nil
  | cons q l ih =>
    rw [List.flatMap_cons, List.nodup_append] at hnodup
    obtain ⟨hq, hl, hdisjoint⟩ := hnodup
    have hstored := State.vtransfer_stored q hop hwf
    intro p hp
    obtain rfl | hp := List.mem_cons.1 hp
    · obtain ⟨hlen, hctr, hhead⟩ := hplain p List.mem_cons_self
      obtain ⟨w, -, -, -, -, hmem, heq⟩ := u.vtransfer_stores p hop
      have hrest : ((p :: l).foldl (fun s p => s.vtransfer o p) u).bytesAt p.acc.keys = (u.vtransfer o p).bytesAt p.acc.keys :=
        State.bytesAt_congr fun a ha => (State.foldl_vtransfer_stored hop l _ hstored.wf).get a fun r hr har =>
          hdisjoint a ha a (List.mem_flatMap.2 ⟨r, hr, har⟩) rfl
      rw [hrest, heq, State.writeAcc_of_bytes hctr hhead]
      exact State.write_bytesAt _ (hmem ▸ hwf) hq (by rw [hlen, length_leBytes])
    · refine (ih _ hstored.wf hl (fun r hr => hplain r (List.mem_cons_of_mem _ hr)) p hp).trans ?_
      rw [VArg.elem_congr hstored.v]

theorem vectorIssue_store {s : State} {c : CoreId} {k : SlotId} {o : VOp} {rest : List VOp}
    (hnext : (s.core c).vnext (s.issues c) = some k) (hvq : (s.ctx c k).vq = o :: rest) (hinv : s.inv = true) (hop : o.op = .st ∨ o.op = .sct)
    (hdemand : ∀ p ∈ o.places, s.demand (From.ofCore c) p.acc .store = none)
    (hquar : ∀ p ∈ o.places, s.quarantined p.acc.keys = false) :
    ∃ t, exec (.vectorIssue c) s = .next t ∧ (t.ctx c k).vq = rest ∧ (t.ctx c k).v = (s.ctx c k).v ∧
      (∀ a, (∀ p ∈ o.places, a ∉ p.acc.keys) → t.mem.get a = s.mem.get a) ∧
      ((o.places.flatMap (·.acc.keys)).Nodup →
        (∀ p ∈ o.places, p.acc.keys.length = o.ty.bytes ∧ (∀ n, p.acc.place ≠ .ctr n) ∧ ∀ h, p.acc.place ≠ .head h) →
        ∀ p ∈ o.places, t.bytesAt p.acc.keys = leBytes o.ty.bytes (o.x.elem (s.ctx c k) o.ty.bytes p.elem)) := by
  have hmem : o.isMem = true := by
    unfold VOp.isMem
    obtain h | h := hop <;> rw [h]
  have hstores : o.op.stores = true := by obtain h | h := hop <;> rw [h] <;> rfl
  have hreq : o.op.req = .store := by rw [VecOp.req, hstores]; rfl
  refine ⟨_, exec_vectorIssue hnext hvq, ?_⟩
  rw [State.vmemory_of_ready hvq hmem (fun p hp => hreq ▸ hdemand p hp) fun p hp => ⟨.inl hstores, hquar p hp⟩]
  have hwf : (s.transferring c k rest).mem.wf = true := hinv
  have hstored := State.foldl_vtransfer_stored hstores o.places (s.transferring c k rest) hwf
  have hbytes := State.bytesAt_foldl_vtransfer hstores o.places (s.transferring c k rest) hwf
  generalize o.places.foldl (fun s p => s.vtransfer o p) (s.transferring c k rest) = t at hstored hbytes
  obtain ⟨hcur, hslot, hvq', hv, -, hget⟩ := hstored
  have hctx : (t.focus s.cur s.slot).ctx c k = t.me := by
    show t.ctx c k = t.ctx t.cur t.slot
    rw [hcur, hslot]
    rfl
  have hme := s.transferring_me c k rest
  rw [hctx]
  have hmev : (s.transferring c k rest).me.v = (s.ctx c k).v := (congrArg Ctx.v hme :)
  refine ⟨hvq'.trans (congrArg Ctx.vq hme), hv.trans hmev, hget, fun hnodup hplain p hp => ?_⟩
  refine (hbytes hnodup hplain p hp).trans ?_
  rw [VArg.elem_congr hmev]

/-! ## Replays -/

theorem Reg.replayed_eq (r : Reg) : r.replayed.1 = afterReplay r := by
  cases r <;> rfl

theorem logReplay_clause (s : State) (c : CoreId) (k : SlotId) : ∃ t, exec (.logReplay c k) s = .next t ∧ t.mem = s.mem ∧
    (∀ n : Fin 136, (t.ctx c k).stack.get n = afterReplay ((s.ctx c k).stack.get n)) ∧
    (∀ n : Fin 8, (t.ctx c k).g.get n = afterReplay ((s.ctx c k).g.get n) ∧
      (t.ctx c k).o.get n = afterReplay ((s.ctx c k).o.get n)) ∧
    (t.ctx c k).lat = afterReplay (s.ctx c k).lat ∧
    (∀ n : Fin 24, (t.ctx c k).hw.get n = afterReplay ((s.ctx c k).hw.get n)) ∧
    (t.ctx c k).hlat = afterReplay (s.ctx c k).hlat ∧ (t.ctx c k).v = (s.ctx c k).v := by
  refine ⟨_, rfl, State.countAll_mem .., ?_⟩
  generalize ((s.ctx c k).regs.flatMap fun r => r.replayed.2) = evs
  have hctx : ((s.setCtx c k ((s.ctx c k).mapRegs fun r => r.replayed.1)).countAll c evs).ctx c k = (s.ctx c k).mapRegs fun r => r.replayed.1 := by
    obtain ⟨ev, hev⟩ := (s.setCtx c k ((s.ctx c k).mapRegs fun r => r.replayed.1)).countAll_core c evs
    exact (congrArg (fun x : Core => x.ctx k) hev).trans (State.ctx_setCtx ..)
  rw [hctx, funext Reg.replayed_eq]
  have hmap {n : Nat} (v : Vector Reg n) (i : Fin n) : (v.map afterReplay).get i = afterReplay (v.get i) := Vector.getElem_map _ i.isLt
  exact ⟨fun n => hmap _ n, fun n => ⟨hmap _ n, hmap _ n⟩, rfl, fun n => hmap _ n, rfl, rfl⟩

/-! ## O48 -/

/-- Settles O48: the unit serves the head of the queue in the slot that its rotation chooses, each transfer on its own. -/
theorem vectorUnitEvents : Obligations.VectorUnitEvents := by
  unfold Obligations.VectorUnitEvents
  refine ⟨fun s c h => exec_vectorIssue_idle h, fun s c k o rest hnext hvq => ⟨fun hmem href => vectorIssue_plain hnext hvq hmem href,
    fun hmem r v n href hv hsym => vectorIssue_result hnext hvq hmem href hv hsym,
    fun hop hdemand hgood hnodup hfit => vectorIssue_load hnext hvq hop hdemand hgood hnodup hfit,
    fun hinv hop hdemand hquar => vectorIssue_store hnext hvq hinv hop hdemand hquar⟩, logReplay_clause⟩

end Sys2Proof.Machine
end

section
/-! PROOF. O40: circular buffers, publish, tiles, hints and retention (R145, R147 to R152). -/

namespace Sys2Proof.Machine
open Stmt

theorem litBytes_eq_shortBytes (lit : Option Word) : litBytes lit = shortBytes lit := by
  cases lit <;> rfl

/-! ## Circular buffers -/

section
variable {s : State} {full : Bool} {d : Dst} {h : Fin 8} {n : Src} {lit k : Word} {len : Nat} {c : CbDecl}

theorem State.cbDecl_of_some (hc : s.myLaunch.cbDecl h = some c) : s.cbDecl h = .ok c := by
  rw [State.cbDecl, hc]

theorem State.cbDecl_of_none (hc : s.myLaunch.cbDecl h = none) : s.cbDecl h = trap .cbError := by
  rw [State.cbDecl, hc]

/-- The slots that `cbwait` and `cbadv` count: the filled ones, or the free ones (R145). -/
def CbDecl.there (c : CbDecl) (full : Bool) (b : CbState) : Nat := if full then b.filled else c.slots - b.filled

theorem State.cbWait_undeclared (hn : s.me.src lit n = .value k) (hc : s.myLaunch.cbDecl h = none) :
    s.cbWait full d h n lit len = trap .cbError := by
  unfold State.cbWait
  refine except_bind_eq (State.use1_ok.2 hn) ?_
  rw [State.cbDecl_of_none hc]
  rfl

theorem State.cbWait_beyond (hn : s.me.src lit n = .value k) (hc : s.myLaunch.cbDecl h = some c) (hk : c.slots < k.toNat) :
    s.cbWait full d h n lit len = trap .cbError := by
  unfold State.cbWait
  refine except_bind_eq (State.use1_ok.2 hn) (except_bind_eq (State.cbDecl_of_some hc) ?_)
  rw [check_bind_of_false (decide_eq_false (not_le_of_gt hk))]
  rfl

theorem State.cbWait_declared (hn : s.me.src lit n = .value k) (hc : s.myLaunch.cbDecl h = some c) (hk : k.toNat ≤ c.slots)
    (hgate : s.accessGate = .ok ()) :
    s.cbWait full d h n lit len = if k.toNat ≤ c.there full (s.myCore.cbs.get h)
      then .ok (s.result d (word (c.slotAt (if full then (s.myCore.cbs.get h).head else (s.myCore.cbs.get h).tail))) [] len)
      else .error .sleep := by
  unfold State.cbWait
  refine except_bind_eq (State.use1_ok.2 hn) (except_bind_eq (State.cbDecl_of_some hc) ?_)
  rw [check_bind_of_true (decide_eq_true hk)]
  refine except_bind_eq hgate ?_
  exact ite_congr (decide_eq_true_eq) (fun _ => rfl) fun _ => rfl

theorem State.cbAdvance_undeclared (hn : s.me.src lit n = .value k) (hc : s.myLaunch.cbDecl h = none) :
    s.cbAdvance full h n lit len = trap .cbError := by
  unfold State.cbAdvance
  refine except_bind_eq (State.use1_ok.2 hn) ?_
  rw [State.cbDecl_of_none hc]
  rfl

theorem State.cbAdvance_zero (hn : s.me.src lit n = .value 0) (hc : s.myLaunch.cbDecl h = some c) :
    s.cbAdvance full h n lit len = .ok (s.advance len) := by
  unfold State.cbAdvance
  exact except_bind_eq (State.use1_ok.2 hn) (except_bind_eq (State.cbDecl_of_some hc) (if_pos rfl))

theorem State.cbAdvance_beyond (hn : s.me.src lit n = .value k) (hc : s.myLaunch.cbDecl h = some c) (hk : k ≠ 0)
    (hless : c.there full (s.myCore.cbs.get h) < k.toNat) : s.cbAdvance full h n lit len = trap .cbError := by
  unfold State.cbAdvance
  refine except_bind_eq (State.use1_ok.2 hn) (except_bind_eq (State.cbDecl_of_some hc) ((if_neg hk).trans ?_))
  exact check_bind_of_false (decide_eq_false (not_le_of_gt hless)) ..

theorem State.cbAdvance_there (hn : s.me.src lit n = .value k) (hc : s.myLaunch.cbDecl h = some c) (hk : k ≠ 0)
    (hle : k.toNat ≤ c.there full (s.myCore.cbs.get h)) (hacq : s.me.acqWait = false) (hrel : ReleaseFree s .core) :
    s.cbAdvance full h n lit len = .ok (((released s).modCore s.cur fun x => x.setCb h
      (if full then { s.myCore.cbs.get h with head := (s.myCore.cbs.get h).head + k.setWidth 32 }
        else { s.myCore.cbs.get h with tail := (s.myCore.cbs.get h).tail + k.setWidth 32 })).advance len) := by
  unfold State.cbAdvance
  refine except_bind_eq (State.use1_ok.2 hn) (except_bind_eq (State.cbDecl_of_some hc) ((if_neg hk).trans ?_))
  refine (check_bind_of_true (decide_eq_true hle) ..).trans ?_
  exact except_bind_eq (State.accessGate_of_free hacq hrel.1) (except_bind_eq (State.release_of_free hrel) rfl)

end

/-! ## Publish -/

section
variable {s : State} {sc : Scope} {pair : Bool} {x : Src} {lit i : Word} {len : Nat}

theorem State.heldPubl_of_ok {t : State} {mark : Nat} {r : Res State} (h : r = .ok t) : s.heldPubl mark r = .ok t := by
  rw [h]
  rfl

theorem State.publOp_refused (hx : s.me.src lit x = .value i)
    (hbad : (if pair then decide (i.toNat < 16) && (s.myLaunch.pair i.toNat).isSome else decide (i.toNat < 1024)) = false) :
    s.publOp sc pair x lit len = trap .bounds := by
  unfold State.publOp
  refine except_bind_eq (State.use1_ok.2 hx) ?_
  cases pair <;> exact check_bind_of_false hbad ..

theorem shadowBusy_released (s : State) (mark : Nat) (pair : Bool) (i : Nat) :
    (released s).myCore.shadowBusy mark pair i = s.myCore.shadowBusy mark pair i := by
  rw [released, State.modMe, State.setMe, State.myCore]
  show ((State.setCore s s.cur _).core s.cur).shadowBusy mark pair i = _
  rw [State.core_setCore]
  rfl

theorem State.publOp_pair (hx : s.me.src lit x = .value i) (hi : i.toNat < 16) (hpair : (s.myLaunch.pair i.toNat).isSome = true)
    (hacq : s.me.acqWait = false) (hrel : ReleaseFree s sc) (hidle : s.myCore.shadowBusy s.publMark true i.toNat = false) :
    s.publOp sc true x lit len = .ok (((released s).modCore s.cur fun c => c.flip i.toNat).advance len) := by
  unfold State.publOp
  refine except_bind_eq (State.use1_ok.2 hx) ?_
  refine (check_bind_of_true (by rw [decide_eq_true hi, hpair]; rfl) ..).trans ?_
  refine State.heldPubl_of_ok ?_
  refine except_bind_eq (State.accessGate_of_free hacq hrel.1) (except_bind_eq (State.release_of_free hrel) ?_)
  exact except_bind_eq (a := ()) (waitFor_ok.2 (by rw [shadowBusy_released, hidle]; rfl)) rfl

theorem State.myLaunch_performed (s : State) (a : Acc) (r : Req) : (performed s a r).myLaunch = s.myLaunch := by
  rw [(show SameButCoherence s (performed s a r) from s.performAcc_sameButCoherence a r).eq]
  exact (State.myLaunch_modMe ({ s with dir := (performed s a r).dir, links := (performed s a r).links } : State) fun _ => _).trans rfl

theorem State.publOp_descriptor (hx : s.me.src lit x = .value i) (hi : i.toNat < 1024) (hacq : s.me.acqWait = false) (hrel : ReleaseFree s sc)
    (hidle : s.myCore.shadowBusy s.publMark false i.toNat = false)
    (hdemand : s.demand (.ofCore s.cur) (s.descAcc s.myLaunch i.toNat) .perform = none) :
    s.publOp sc false x lit len =
      .ok (((performed (released s) (s.descAcc s.myLaunch i.toNat) .perform).swapDesc s.myLaunch i.toNat).advance len) := by
  unfold State.publOp
  refine except_bind_eq (State.use1_ok.2 hx) ?_
  refine (check_bind_of_true (decide_eq_true hi) ..).trans (State.heldPubl_of_ok ?_)
  refine except_bind_eq (State.accessGate_of_free hacq hrel.1) (except_bind_eq (State.release_of_free hrel) ?_)
  refine except_bind_eq (a := ()) (waitFor_ok.2 (by rw [shadowBusy_released, hidle]; rfl)) ?_
  have hl : (released s).myLaunch = s.myLaunch := s.myLaunch_modMe _
  have hdemand' : (released s).demand (.ofCore s.cur) (s.descAcc s.myLaunch i.toNat) .perform = none :=
    State.demand_of_cores hdemand _ s.cur s.slot
  have hrequest : (released s).request ((released s).descAcc (released s).myLaunch i.toNat) .perform =
      .ok (performed (released s) (s.descAcc s.myLaunch i.toNat) .perform) := by
    rw [hl]
    show (match (released s).demand (.ofCore s.cur) (s.descAcc s.myLaunch i.toNat) .perform with
      | some s' => (released s).await s'
      | none => .ok ((released s).performAcc (s.descAcc s.myLaunch i.toNat) .perform)) = _
    rw [hdemand']
    rfl
  refine except_bind_eq hrequest ?_
  rw [State.myLaunch_performed, hl]

end

/-! ## Tiles -/

theorem mapM_ok_of_getElem {ε α β : Type} {f : α → Except ε β} {l : List α} {ps : List β} (hlen : ps.length = l.length)
    (h : ∀ j (hj : j < l.length) (hj' : j < ps.length), f l[j] = .ok ps[j]) : l.mapM f = .ok ps := by
  induction l generalizing ps with
  | nil =>
    obtain rfl := List.length_eq_zero_iff.1 hlen
    rfl
  | cons a l ih =>
    obtain ⟨p, ps, rfl⟩ := List.exists_cons_of_length_eq_add_one hlen
    have htail : l.mapM f = .ok ps := ih (Nat.succ.inj hlen) fun j hj hj' => h (j + 1) (Nat.succ_lt_succ hj) (Nat.succ_lt_succ hj')
    have hhead : f a = .ok p := h 0 (Nat.zero_lt_succ _) (Nat.zero_lt_succ _)
    rw [List.mapM_cons, hhead, htail]
    rfl

/-- The shape's reserved bits are the fields that `tdecl` finds zero (R148). -/
theorem shape_good {sh : Word} (h : sh &&& 0xFFFF000000C000FF = 0) : wbits sh 48 16 = 0 ∧ wbits sh 22 2 = 0 ∧ wbits sh 0 8 = 0 := by
  have hbit (i : Nat) (hm : (0xFFFF000000C000FF : Word).getLsbD i = true) : sh.getLsbD i = false := by
    have := congrArg (fun v : Word => v.getLsbD i) h
    rw [BitVec.getLsbD_and, hm, Bool.and_true] at this
    exact this.trans BitVec.getLsbD_zero
  exact ⟨wbits_eq_zero fun i hi => hbit _ (by interval_cases i <;> decide), wbits_eq_zero fun i hi => hbit _ (by interval_cases i <;> decide),
    wbits_eq_zero fun i hi => hbit _ (by interval_cases i <;> decide)⟩

theorem State.tileLine_of_page {s : State} {va : Word} {f : Leaf} (hwalk : s.walk s.myLaunch va = .ok f)
    (hallows : f.allows .store s.me.mode = true) (hpa : f.addr va < partSize s.pm) :
    s.tileLine va = .ok (devKey s.pm s.myLaunch.part (f.addr va) / 64, f.walked) := by
  unfold State.tileLine
  refine except_bind_eq (a := f) ?_ ?_
  · rw [hwalk]
    rfl
  · rw [placeOf_of_lt hpa]
    exact if_pos hallows

section
variable {s : State} {imm : BitVec 24} {b x r : Src} {lit bv sh rv : Word} {len : Nat} {ps : List (Nat × List Nat)}

/-- The places of a shape's lines, in lines from EA (R148). -/
def tileSteps (rows cols pitch : Nat) : List Nat := (List.range rows).flatMap fun r => (List.range cols).map fun c => r * pitch + c

/-- The lines of a declaration as its request names them (R148). -/
def State.tileAcc (s : State) (ps : List (Nat × List Nat)) : Acc :=
  { keys := (ps.map (·.1)).map (· * 64), place := .dev ((ps.map (·.1)).headD 0 * 64), part := s.myLaunch.part,
    walked := (ps.flatMap (·.2)).dedup }

/-- What a declaration does once the lines of its shape are known (R148, R298). -/
def State.declaring (s : State) (ea : Word) (ps : List (Nat × List Nat)) (len : Nat) : Res State :=
  let lines := ps.map (·.1)
  if lines.any s.lineClaimed then .error (.trapAt { cause := .tileOverlap, addr := ea } (s.unclaim s.cur s.slot)) else do
  check (!s.quarantined (lines.map (· * 64))) .poison ea
  match s.demand (.ofCore s.cur) (s.tileAcc ps) .store with
  | some s' => .error (.touch (s'.claim lines))
  | none => .ok ((((s.unclaim s.cur s.slot).walked (.ofCore s.cur) (s.tileAcc ps)).declareTile ea lines).advance len)

theorem State.tdeclOp_shaped (hb : s.me.src lit b = .value bv) (hx : s.me.src lit x = .value sh) (hgate : s.accessGate = .ok ())
    (hshape : sh &&& 0xFFFF000000C000FF = 0)
    (hcols : (sh.extractLsb' 8 8).toNat + 1 = 1 ∨ (sh.extractLsb' 16 6).toNat + 1 ≤ (sh.extractLsb' 24 24).toNat)
    (hsize : ((sh.extractLsb' 8 8).toNat + 1) * ((sh.extractLsb' 16 6).toNat + 1) ≤ 1024)
    (halign : (bv + imm.signExtend 64).toNat % 64 = 0)
    (hps : (tileSteps ((sh.extractLsb' 8 8).toNat + 1) ((sh.extractLsb' 16 6).toNat + 1) (sh.extractLsb' 24 24).toNat).mapM
      (fun i => s.tileLine (bv + imm.signExtend 64 + word (64 * i))) = .ok ps) :
    s.tdeclOp imm b x lit len = s.declaring (bv + imm.signExtend 64) ps len := by
  obtain ⟨hhigh, hmid, hlow⟩ := shape_good hshape
  rw [← wbits_eq_extractLsb'] at hcols hsize hps
  rw [← wbits_eq_extractLsb' sh 16 6] at hcols hsize hps
  rw [← wbits_eq_extractLsb' sh 24 24] at hcols hps
  have hfields : (wbits sh 48 16 == 0 && wbits sh 22 2 == 0 && wbits sh 0 8 == 0 &&
      (wbits sh 8 8 + 1 == 1 || decide (wbits sh 16 6 + 1 ≤ wbits sh 24 24)) &&
      decide ((wbits sh 8 8 + 1) * (wbits sh 16 6 + 1) ≤ 1024)) = true := by
    have hcols' : (wbits sh 8 8 + 1 == 1 || decide (wbits sh 16 6 + 1 ≤ wbits sh 24 24)) = true := by
      obtain h | h := hcols
      · rw [beq_iff_eq.2 h, Bool.true_or]
      · rw [decide_eq_true h, Bool.or_true]
    rw [hhigh, hmid, hlow, hcols', decide_eq_true hsize]
    rfl
  unfold State.tdeclOp
  refine except_bind_eq (State.use2_ok.2 ⟨hb, hx⟩) ?_
  dsimp only
  rw [ea2_eq]
  refine except_bind_eq hgate ?_
  refine (check_bind_of_true hfields ..).trans ((check_bind_of_true (beq_iff_eq.2 halign) ..).trans ?_)
  exact except_bind_eq hps rfl

theorem State.declaring_overlap {ea : Word} (h : ∃ n ∈ ps.map (·.1), (s.dir.tileOf n).isSome) :
    s.declaring ea ps len = .error (.trapAt { cause := .tileOverlap, addr := ea } (s.unclaim s.cur s.slot)) := by
  obtain ⟨n, hn, htile⟩ := h
  refine if_pos (List.any_eq_true.2 ⟨n, hn, ?_⟩)
  rw [State.lineClaimed, htile, Bool.true_or]

theorem State.declaring_free {ea : Word} (htiles : ∀ n ∈ ps.map (·.1), s.dir.tileOf n = none)
    (hclaims : ∀ p ∈ s.dir.claims, (p.1 = s.cur.val ∧ p.2.1 = s.slot.val) ∨ ∀ n ∈ ps.map (·.1), n ∉ p.2.2)
    (hquar : s.quarantined ((ps.map (·.1)).map (· * 64)) = false)
    (hdemand : s.demand (.ofCore s.cur) (s.tileAcc ps) .store = none) :
    s.declaring ea ps len =
      .ok ((((s.unclaim s.cur s.slot).walked (.ofCore s.cur) (s.tileAcc ps)).declareTile ea (ps.map (·.1))).advance len) := by
  have hunclaimed : ¬ (ps.map (·.1)).any s.lineClaimed = true := by
    rw [List.any_eq_true]
    rintro ⟨n, hn, h⟩
    rw [State.lineClaimed, htiles n hn, Option.isSome_none, Bool.false_or, List.any_eq_true] at h
    obtain ⟨p, hp, h⟩ := h
    obtain ⟨hother, hin⟩ := Bool.and_eq_true_iff.1 h
    obtain ⟨hc, hk⟩ | hnot := hclaims p hp
    · rw [hc, hk, beq_self_eq_true, beq_self_eq_true] at hother
      cases hother
    · exact hnot n hn (List.contains_iff_mem.1 hin)
  unfold State.declaring
  refine (if_neg hunclaimed).trans ((check_bind_of_true (by rw [hquar]; rfl) ..).trans ?_)
  rw [hdemand]

/-- A tile that is dissolved, or an address that begins none (R150). -/
theorem State.tfreeOp_page {f : Leaf} {k : Nat} (hb : s.me.src lit b = .value bv) (hgate : s.accessGate = .ok ())
    (hwalk : s.walk s.myLaunch (bv + imm.signExtend 64) = .ok f) (hua : f.ua = true)
    (hplace : placeOf s.pm s.myLaunch.part (f.addr (bv + imm.signExtend 64)) = .dev k) {s1 : State}
    (hs1 : s1 = s.walked (.ofCore s.cur) { keys := [k], place := .dev k, part := s.myLaunch.part, walked := f.walked }) :
    s.tfreeOp imm b lit len = .ok (match s1.tileAt (bv + imm.signExtend 64) (k / 64) with
      | some t => (s1.setDir (s1.dir.demote t)).advance len
      | none => s1.advance len) := by
  subst hs1
  have hallows : f.allows .load s.me.mode = true := by rw [Leaf.allows, hua]; rfl
  unfold State.tfreeOp
  refine except_bind_eq (State.use1_ok.2 hb) ?_
  dsimp only
  rw [ea2_eq]
  refine except_bind_eq hgate (except_bind_eq (a := f) (by rw [hwalk]; rfl) ((check_bind_of_true hallows ..).trans ?_))
  rw [hplace]
  dsimp only
  cases (s.walked (.ofCore s.cur) { keys := [k], place := .dev k, part := s.myLaunch.part, walked := f.walked }).tileAt
    (bv + imm.signExtend 64) (k / 64) <;> rfl

theorem State.tfwdOp_no_rank (hb : s.me.src lit b = .value bv) (hr : s.me.src lit r = .value rv) (h : s.myLaunch.cores.length ≤ rv.toNat) :
    s.tfwdOp imm b r lit len = trap .bounds (bv + imm.signExtend 64) := by
  unfold State.tfwdOp
  refine except_bind_eq (State.use2_ok.2 ⟨hb, hr⟩) ?_
  dsimp only
  rw [ea2_eq]
  exact check_bind_of_false (decide_eq_false (not_lt_of_ge h)) ..

/-- A push of the tile that begins at EA, or of the line that holds it (R150). -/
theorem State.tfwdOp_page {f : Leaf} {k : Nat} (hb : s.me.src lit b = .value bv) (hr : s.me.src lit r = .value rv) (hgate : s.accessGate = .ok ())
    (hrank : rv.toNat < s.myLaunch.cores.length)
    (hwalk : s.walk s.myLaunch (bv + imm.signExtend 64) = .ok f) (hua : f.ua = true)
    (hplace : placeOf s.pm s.myLaunch.part (f.addr (bv + imm.signExtend 64)) = .dev k)
    (hdemand : s.demand (.ofCore s.cur) { keys := [k], place := .dev k, part := s.myLaunch.part, walked := f.walked } .read = none) :
    s.tfwdOp imm b r lit len = .ok (((s.walked (.ofCore s.cur) { keys := [k], place := .dev k, part := s.myLaunch.part, walked := f.walked }).pushAt
      (bv + imm.signExtend 64) k (s.myLaunch.dieOf rv.toNat)).advance len) := by
  have hallows : f.allows .load s.me.mode = true := by rw [Leaf.allows, hua]; rfl
  unfold State.tfwdOp
  refine except_bind_eq (State.use2_ok.2 ⟨hb, hr⟩) ?_
  dsimp only
  rw [ea2_eq]
  refine (check_bind_of_true (decide_eq_true hrank) ..).trans (except_bind_eq hgate ?_)
  rw [hwalk]
  dsimp only
  rw [hallows, hplace]
  dsimp only
  rw [hdemand]
  rfl

end

/-! ## Lines pushed and written back -/

theorem Dir.line_setLine (d : Dir) (n : Nat) (x : Line) : (d.setLine n x).line n = x := by
  show (assocGet (if x = {} then assocDel d.lines n else assocSet d.lines n x) n).getD {} = x
  split
  · next h => rw [assocGet_assocDel, if_pos rfl, h]; rfl
  · rw [assocGet_assocSet, if_pos rfl]; rfl

theorem Dir.push_other {d : Dir} {home die n : Nat} (hq : (d.line n).st ≠ .q) (hdie : die ≠ home) :
    die ∈ ((d.push home die n).line n).dies ∧ ((d.push home die n).line n).st = .s := by
  unfold Dir.push
  dsimp only
  split
  · exact absurd ‹_› hq
  · rw [if_neg hdie, Dir.line_setLine]
    exact ⟨List.mem_cons_self, rfl⟩
  · rw [if_neg hdie, Dir.line_setLine]
    exact ⟨mem_addOnce.2 (.inl rfl), rfl⟩

theorem Dir.push_merges {d : Dir} {n : Nat} {r : RedClass} (home die : Nat) (h : (d.line n).st = .c r) : ∀ p ∈ (d.push home die n).partials, p.line ≠ n := by
  unfold Dir.push
  dsimp only
  rw [h]
  intro p hp
  exact bne_iff_ne.1 (List.mem_filter.1 hp).2

theorem Dir.clean_line {d : Dir} {c n : Nat} (htile : d.tileOf n = none) (hst : (d.line n).st = .m) (hc : (d.line n).clusters = [c]) :
    ((d.clean c n).line n).st = .e := by
  unfold Dir.clean
  rw [htile]
  dsimp only
  rw [if_pos ⟨hst, hc⟩, Dir.line_setLine]

/-! ## Hints -/

/-- What a hint leaves: memory, every core and every tag (R151). -/
structure HintFrame (s t : State) : Prop where
  mem : t.mem = s.mem
  cores : t.cores = s.cores
  tags : t.tags = s.tags

theorem HintFrame.trans {s t u : State} (h : HintFrame s t) (h' : HintFrame t u) : HintFrame s u :=
  ⟨h'.mem.trans h.mem, h'.cores.trans h.cores, h'.tags.trans h.tags⟩

theorem State.arrive_hintFrame (s : State) (f : From) (a : Acc) (r : Req) : HintFrame s (s.arrive f a r) where
  mem := (congrArg State.mem (s.arrive_frame f a r) :)
  cores := (congrArg State.cores (s.arrive_frame f a r) :)
  tags := (congrArg State.tags (s.arrive_frame f a r) :)

theorem State.walked_hintFrame (s : State) (f : From) (a : Acc) : HintFrame s (s.walked f a) where
  mem := (congrArg State.mem (s.walked_frame f a) :)
  cores := (congrArg State.cores (s.walked_frame f a) :)
  tags := (congrArg State.tags (s.walked_frame f a) :)

theorem State.demand_hintFrame {s t : State} {f : From} {a : Acc} {r : Req} (h : s.demand f a r = some t) : HintFrame s t where
  mem := (congrArg State.mem (State.demand_frame h) :)
  cores := (congrArg State.cores (State.demand_frame h) :)
  tags := (congrArg State.tags (State.demand_frame h) :)

theorem State.prefetch_hintFrame (l2 : Bool) (s : State) (a : Acc) : HintFrame s (s.prefetch l2 a) := by
  unfold State.prefetch
  split
  · split
    · exact ⟨rfl, rfl, rfl⟩
    · exact s.arrive_hintFrame ..
  · exact ⟨rfl, rfl, rfl⟩

theorem State.writeLineBack_hintFrame (s : State) (a : Acc) : HintFrame s (s.writeLineBack a) := by
  have hreturn (k : Nat) : HintFrame s (s.returnHost k) := by
    unfold State.returnHost State.snoopData
    split
    · exact ⟨rfl, rfl, rfl⟩
    · split <;> exact ⟨rfl, rfl, rfl⟩
  unfold State.writeLineBack
  split
  · exact ⟨rfl, rfl, rfl⟩
  · dsimp only
    split
    · exact hreturn _
    · exact ⟨rfl, rfl, rfl⟩
  · exact ⟨rfl, rfl, rfl⟩

theorem State.hinted_frame {s : State} {act : State → Acc → State} (hact : ∀ u a, HintFrame u (act u a)) (ea : Word) :
    HintFrame s (s.hinted ea act) := by
  unfold State.hinted
  split
  · exact ⟨rfl, rfl, rfl⟩
  · split
    · exact State.demand_hintFrame ‹_›
    · exact (s.walked_hintFrame ..).trans (hact _ _)

/-- The act of a hint: what `evict` or `pref` does at the line (R151). -/
def hintAct (evict l2 : Bool) : State → Acc → State := if evict then State.writeLineBack else State.prefetch l2

theorem hintAct_frame (evict l2 : Bool) (u : State) (a : Acc) : HintFrame u (hintAct evict l2 u a) := by
  cases evict
  · exact u.prefetch_hintFrame l2 a
  · exact u.writeLineBack_hintFrame a

theorem hintAct_dev (evict l2 : Bool) (u : State) {a : Acc} {k : Nat} (h : a.place = .dev k) :
    hintAct evict l2 u a = if evict then u.setDir (u.dir.clean u.cur.cluster (k / 64))
      else if l2 = true ∧ homeDie u.pm k = u.cur.die.val then u else u.arrive (.ofCore u.cur) { a with walked := [] } .read := by
  cases evict
  · show State.prefetch l2 u a = if l2 = true ∧ homeDie u.pm k = u.cur.die.val then u else u.arrive (.ofCore u.cur) { a with walked := [] } .read
    unfold State.prefetch
    rw [h]
    refine ite_congr ?_ (fun _ => rfl) fun _ => rfl
    rw [Bool.and_eq_true, beq_iff_eq]
  · show State.writeLineBack u a = _
    unfold State.writeLineBack
    rw [h]
    rfl

theorem exec_hint {s : State} {i : Instr} {evict l2 : Bool} {imm : BitVec 24} {b x : Src} {lit bv xv : Word} {len : Nat}
    (h : Hint i evict l2 imm b x lit len) (hb : s.me.src lit b = .value bv) (hx : s.me.src lit x = .value xv) :
    exec i s = .next ((s.hinted (bv + xv + imm.signExtend 64) (hintAct evict l2)).advance len) := by
  have hexec : exec i s = complete s (s.hintOp (hintAct evict l2) b x imm lit len) := by cases h <;> rfl
  have hop : s.hintOp (hintAct evict l2) b x imm lit len = .ok ((s.hinted (bv + xv + imm.signExtend 64) (hintAct evict l2)).advance len) := by
    unfold State.hintOp
    exact except_bind_eq (State.ea3_of_values hb hx) rfl
  rw [hexec, hop, complete_ok]

/-! ## Retention -/

section
variable {s : State} {ways : BitVec 4} {b n : Src} {lit bv nv : Word} (d : Dst) (len : Nat)

/-- The lowest free retention entry of a die. -/
def DieState.freeEntry (die : DieState) : Option (Fin 4) := (List.finRange 4).find? fun i => (die.retained.get i).isNone

theorem DieState.freeEntry_of_lowest {die : DieState} {i : Fin 4} (hi : die.retained.get i = none)
    (hlower : ∀ j < i, (die.retained.get j).isSome) : die.freeEntry = some i := by
  rw [DieState.freeEntry, List.find?_eq_some_iff_append]
  obtain ⟨as, bs, hsplit⟩ := List.append_of_mem (List.mem_finRange i)
  refine ⟨by rw [hi]; rfl, as, bs, hsplit, fun j hj => ?_⟩
  have hsorted := List.pairwise_lt_finRange 4
  rw [hsplit, List.pairwise_append] at hsorted
  rw [Option.not_isNone]
  exact hlower j (hsorted.2.2 j hj i List.mem_cons_self)

theorem DieState.freeEntry_none {die : DieState} (h : ∀ i : Fin 4, (die.retained.get i).isSome) : die.freeEntry = none :=
  List.find?_eq_none.2 fun i _ => by rw [Option.isNone_iff_eq_none]; exact Option.isSome_iff_ne_none.1 (h i)

theorem State.pinOp_checked (hb : s.me.src lit b = .value bv) (hn : s.me.src lit n = .value nv) (hways : 1 ≤ ways.toNat) (hways' : ways.toNat ≤ 8)
    (hnv : nv ≠ 0) (hlen : nv.toNat % 65536 = 0) (hbase : bv.toNat % 65536 = 0) :
    s.pinOp ways d b n lit len = match (s.die s.cur.die.val).freeEntry with
      | some i =>
        if s.myLaunch.desc.retmax ≤ (s.die s.cur.die.val).retained.toList.countP (heldBy s.myLaunch) then
          .ok (s.result d (BitVec.ofInt 64 (-1)) [] len)
        else .ok ((s.modDie s.cur.die.val fun x => { x with retained := x.retained.set i.val (some
          { launch := s.myLaunch.id, part := s.myLaunch.part, base := bv, len := nv.toNat, ways := ways.toNat }) i.isLt }).result d (word i.val) [] len)
      | none => .ok (s.result d (BitVec.ofInt 64 (-1)) [] len) := by
  have hgood : (decide (1 ≤ ways.toNat) && decide (ways.toNat ≤ 8) && nv != 0 && nv.toNat % 65536 == 0) = true := by
    rw [decide_eq_true hways, decide_eq_true hways', bne_iff_ne.2 hnv, beq_iff_eq.2 hlen]
    rfl
  unfold State.pinOp
  refine except_bind_eq (State.use2_ok.2 ⟨hb, hn⟩) ?_
  refine (check_bind_of_true hgood ..).trans ((check_bind_of_true (beq_iff_eq.2 hbase) ..).trans ?_)
  rfl

end

theorem State.unpinOp_value {s : State} {x : Src} {lit i : Word} (len : Nat) (hx : s.me.src lit x = .value i) :
    s.unpinOp x lit len = .ok ((s.modDie s.cur.die.val fun y => { y with
      retained := Vector.ofFn fun j => if j.val = i.toNat ∧ heldBy s.myLaunch (y.retained.get j) = true then none else y.retained.get j }).advance len) := by
  have hfree (y : DieState) : (fun j : Fin 4 => if (j.val == i.toNat && heldBy s.myLaunch (y.retained.get j)) = true then none else y.retained.get j) =
      fun j => if j.val = i.toNat ∧ heldBy s.myLaunch (y.retained.get j) = true then none else y.retained.get j :=
    funext fun j => ite_congr (by rw [Bool.and_eq_true, beq_iff_eq]) (fun _ => rfl) fun _ => rfl
  unfold State.unpinOp
  refine except_bind_eq (State.use1_ok.2 hx) ?_
  dsimp only
  simp only [hfree]

/-! ## O40 -/

theorem bufferClause (s : State) (lit : Option Word) (d : Dst) (h : Fin 8) (n : Src) (k : Word) (hn : s.me.src (litVal lit) n = .value k) :
    (s.myLaunch.cbDecl h = none →
      exec (.cbwaitF lit d h n) s = .next (s.takeTrap { cause := .cbError }) ∧
      exec (.cbwaitE lit d h n) s = .next (s.takeTrap { cause := .cbError }) ∧
      exec (.cbadvF lit h n) s = .next (s.takeTrap { cause := .cbError }) ∧
      exec (.cbadvE lit h n) s = .next (s.takeTrap { cause := .cbError })) ∧
    ∀ c, s.myLaunch.cbDecl h = some c →
      let b := s.myCore.cbs.get h
      let filled := (b.tail - b.head).toNat
      let addr (x : BitVec 32) : Word := BitVec.ofNat 64 (c.base + x.toNat % c.slots * c.size)
      (c.slots < k.toNat → exec (.cbwaitF lit d h n) s = .next (s.takeTrap { cause := .cbError }) ∧
        exec (.cbwaitE lit d h n) s = .next (s.takeTrap { cause := .cbError })) ∧
      (k.toNat ≤ c.slots → s.accessGate = .ok () →
        exec (.cbwaitF lit d h n) s = .next (if k.toNat ≤ filled then s.result d (addr b.head) [] (shortBytes lit)
          else s.modMe fun t => { t with run := .asleep }) ∧
        exec (.cbwaitE lit d h n) s = .next (if k.toNat ≤ c.slots - filled then s.result d (addr b.tail) [] (shortBytes lit)
          else s.modMe fun t => { t with run := .asleep })) ∧
      (k = 0 → exec (.cbadvF lit h n) s = .next (s.advance (shortBytes lit)) ∧ exec (.cbadvE lit h n) s = .next (s.advance (shortBytes lit))) ∧
      (k ≠ 0 → filled < k.toNat → exec (.cbadvF lit h n) s = .next (s.takeTrap { cause := .cbError })) ∧
      (k ≠ 0 → c.slots - filled < k.toNat → exec (.cbadvE lit h n) s = .next (s.takeTrap { cause := .cbError })) ∧
      (s.me.acqWait = false → ReleaseFree s .core →
        (k ≠ 0 → k.toNat ≤ filled → exec (.cbadvF lit h n) s =
          .next (((released s).modCore s.cur fun x => x.setCb h { b with head := b.head + k.setWidth 32 }).advance (shortBytes lit))) ∧
        (k ≠ 0 → k.toNat ≤ c.slots - filled → exec (.cbadvE lit h n) s =
          .next (((released s).modCore s.cur fun x => x.setCb h { b with tail := b.tail + k.setWidth 32 }).advance (shortBytes lit)))) := by
  have hwait (full : Bool) (r : Res State) (hr : s.cbWait full d h n (litVal lit) (shortBytes lit) = r) :
      complete s (s.cbWait full d h n (litVal lit) (litBytes lit)) = complete s r := by rw [litBytes_eq_shortBytes, hr]
  have hadvance (full : Bool) (r : Res State) (hr : s.cbAdvance full h n (litVal lit) (shortBytes lit) = r) :
      complete s (s.cbAdvance full h n (litVal lit) (litBytes lit)) = complete s r := by rw [litBytes_eq_shortBytes, hr]
  refine ⟨fun hc => ⟨hwait true _ (State.cbWait_undeclared hn hc), hwait false _ (State.cbWait_undeclared hn hc),
    hadvance true _ (State.cbAdvance_undeclared hn hc), hadvance false _ (State.cbAdvance_undeclared hn hc)⟩, fun c hc => ?_⟩
  intro b filled addr
  refine ⟨fun hk => ⟨hwait true _ (State.cbWait_beyond hn hc hk), hwait false _ (State.cbWait_beyond hn hc hk)⟩,
    fun hk hgate => ⟨?_, ?_⟩, fun hk => ?_, fun hk hless => hadvance true _ (State.cbAdvance_beyond hn hc hk hless),
    fun hk hless => hadvance false _ (State.cbAdvance_beyond hn hc hk hless),
    fun hacq hrel => ⟨fun hk hle => hadvance true _ (State.cbAdvance_there hn hc hk hle hacq hrel),
      fun hk hle => hadvance false _ (State.cbAdvance_there hn hc hk hle hacq hrel)⟩⟩
  · refine (hwait true _ (State.cbWait_declared hn hc hk hgate)).trans ?_
    show complete s (if k.toNat ≤ filled then _ else _) = _
    split <;> rfl
  · refine (hwait false _ (State.cbWait_declared hn hc hk hgate)).trans ?_
    show complete s (if k.toNat ≤ c.slots - filled then _ else _) = _
    split <;> rfl
  · subst hk
    exact ⟨hadvance true _ (State.cbAdvance_zero hn hc), hadvance false _ (State.cbAdvance_zero hn hc)⟩

/-- Settles O40: each instruction's checks in their order, then the one update that it makes. -/
theorem bufferTileAndRetentionInstructions : Obligations.BufferTileAndRetentionInstructions := by
  unfold Obligations.BufferTileAndRetentionInstructions
  refine ⟨bufferClause, fun s lit sc x i hx => ⟨fun h => ?_, fun h => ?_, fun hacq hrel hi hpair hidle => ?_, fun hacq hrel hi hidle => ?_⟩,
    fun s h => ?_, fun s i imm b x lit bv sh len ps hi hb hx hgate => ?_, fun s i imm b lit bv len f k hi hb hgate => ?_,
    fun s i imm b r lit bv rv len f k hi hb hr hgate => ?_,
    fun d home die n hq => ⟨fun hdie => Dir.push_other hq hdie, fun r h => Dir.push_merges home die h⟩,
    fun s i evict l2 imm b x lit bv xv len hi hb hx => ?_, fun d c n htile hst hc => Dir.clean_line htile hst hc,
    fun s lit ways d b n bv nv hb hn hways hways' hnv hlen hbase => ⟨fun h => ?_, fun hfull i hi hlower => ?_⟩, fun s lit x i hx => ?_⟩
  · have hbad : (decide (i.toNat < 16) && (s.myLaunch.pair i.toNat).isSome) = false := by
      obtain h | h := h
      · rw [decide_eq_false (not_lt_of_ge h), Bool.false_and]
      · rw [h, Option.isSome_none, Bool.and_false]
    exact congrArg (complete s) (State.publOp_refused (pair := true) hx hbad)
  · exact congrArg (complete s) (State.publOp_refused (pair := false) hx (decide_eq_false (not_lt_of_ge h)))
  · rw [← litBytesX_eq_optBytes]
    exact congrArg (complete s) (State.publOp_pair hx hi hpair hacq hrel hidle)
  · intro a hdemand
    rw [← litBytesX_eq_optBytes]
    exact congrArg (complete s) (State.publOp_descriptor hx hi hacq hrel hidle hdemand)
  · unfold State.publMark
    split
    · exact absurd ‹_› (h _)
    · rfl
  · intro ea rows cols pitch hshape hcols hsize halign hps lines
    have hexec : exec i s = complete s (s.tdeclOp imm b x lit len) := by cases hi <;> rfl
    obtain ⟨hlen, hlines⟩ := hps
    have hmap : (tileSteps rows cols pitch).mapM (fun i => s.tileLine (ea + word (64 * i))) = .ok ps := by
      refine mapM_ok_of_getElem hlen fun j hj hj' => ?_
      obtain ⟨f, hwalk, hallows, hpa, hp⟩ := hlines j hj hj'
      rw [hp]
      exact State.tileLine_of_page hwalk hallows hpa
    have hop := hexec.trans (congrArg (complete s) (State.tdeclOp_shaped (len := len) hb hx hgate hshape hcols hsize halign hmap))
    refine ⟨fun h => ?_, fun htiles hclaims hquar => ?_⟩
    · rw [hop, State.declaring_overlap h]
      rfl
    · intro a hdemand
      rw [hop, State.declaring_free htiles hclaims hquar hdemand]
      rfl
  · intro ea hwalk hua hplace s1
    have hexec : exec i s = complete s (s.tfreeOp imm b lit len) := by cases hi <;> rfl
    rw [hexec, State.tfreeOp_page hb hgate hwalk hua hplace (s1 := s1) rfl]
    rfl
  · intro ea
    have hexec : exec i s = complete s (s.tfwdOp imm b r lit len) := by cases hi <;> rfl
    refine ⟨fun h => ?_, fun hrank hwalk hua hplace => ?_⟩
    · rw [hexec, State.tfwdOp_no_rank hb hr h]
      rfl
    · intro a s1 die hdemand
      have hpm : s1.pm = s.pm := (congrArg State.pm (s.walked_frame (.ofCore s.cur) a) :)
      rw [hexec, State.tfwdOp_page hb hr hgate hrank hwalk hua hplace hdemand]
      show Host.Outcome.next ((s1.pushAt ea k die).advance len) = _
      unfold State.pushAt
      rw [hpm]
      cases (s1.tileAt ea (k / 64)).orElse fun _ => s1.dir.tileOf (k / 64) <;> rfl
  · intro ea
    have hframe := State.hinted_frame (s := s) (hintAct_frame evict l2) ea
    refine ⟨_, exec_hint hi hb hx, hframe.mem, hframe.cores, hframe.tags, fun e he => ?_, fun a k ha hk hdemand => ?_⟩
    · unfold State.hinted
      rw [he]
    · intro s1
      have hcur := (congrArg State.cur (s.walked_frame (.ofCore s.cur) a) :)
      have hpm := (congrArg State.pm (s.walked_frame (.ofCore s.cur) a) :)
      have hhint : s.hinted ea (hintAct evict l2) = hintAct evict l2 s1 a := by
        unfold State.hinted
        rw [ha]
        dsimp only
        rw [hdemand]
      rw [hhint, hintAct_dev evict l2 s1 hk, (show s1.cur = s.cur from hcur), (show s1.pm = s.pm from hpm)]
  · have hop := State.pinOp_checked d (optBytes lit) hb hn hways hways' hnv hlen hbase
    show complete s (s.pinOp ways d b n (litVal lit) (litBytesX lit)) = _
    rw [litBytesX_eq_optBytes, hop]
    obtain h | h := h
    · simp only [if_pos h]
      split <;> rfl
    · rw [DieState.freeEntry_none h]
      rfl
  · have hop := State.pinOp_checked d (optBytes lit) hb hn hways hways' hnv hlen hbase
    show complete s (s.pinOp ways d b n (litVal lit) (litBytesX lit)) = _
    rw [litBytesX_eq_optBytes, hop, DieState.freeEntry_of_lowest hi hlower]
    dsimp only
    rw [if_neg hfull]
    rfl
  · rw [← litBytes_eq_shortBytes]
    exact congrArg (complete s) (State.unpinOp_value _ hx)

end Sys2Proof.Machine
end

section
/-! PROOF. O46: vector instructions as they queue (R157, R160, R161, R177, R178). -/

namespace Sys2Proof.Machine
open Stmt

/-! ## Entries without a scalar result -/

theorem fin_ofNat_of_lt (x : Fin 8) : Fin.ofNat 16 x.val = (⟨x.val, by omega⟩ : Fin 16) :=
  Fin.ext (Nat.mod_eq_of_lt (by omega))

/-- A vector instruction without a scalar result is what its row queues (R157). -/
theorem exec_vecRow {s : State} {i : Instr} {o : VOp} {rs : List Reg} {len : Nat} (h : VecRow s i o rs len) :
    exec i s = complete s (s.venq o rs len) := by
  cases h
  case mand d x y => rw [← fin_ofNat_of_lt x, ← fin_ofNat_of_lt y]; rfl
  case mor d x y => rw [← fin_ofNat_of_lt x, ← fin_ofNat_of_lt y]; rfl
  case mxor d x y => rw [← fin_ofNat_of_lt x, ← fin_ofNat_of_lt y]; rfl
  case mnot d x => rw [← fin_ofNat_of_lt x]; rfl
  case vcvt lit _ _ _ _ _ _ _ => cases lit <;> rfl
  all_goals rfl

theorem State.need_of_values {s : State} {rs : List Reg} (h : ∀ r ∈ rs, ∃ v, r = .value v) : s.need rs = .ok () := by
  have hmap : ∃ ws : List Word, rs = ws.map .value := by
    induction rs with
    | nil => exact ⟨[], rfl⟩
    | cons r rs ih =>
      obtain ⟨v, rfl⟩ := h r List.mem_cons_self
      obtain ⟨ws, rfl⟩ := ih fun r hr => h r (List.mem_cons_of_mem _ hr)
      exact ⟨v :: ws, rfl⟩
  obtain ⟨ws, rfl⟩ := hmap
  exact s.need_values ws

theorem State.venq_of_room {s : State} (o : VOp) {rs : List Reg} (len : Nat) (h : ∀ r ∈ rs, ∃ v, r = .value v) (hroom : s.me.vq.length < 16) :
    s.venq o rs len = .ok ((s.modMe fun t => { t with vq := t.vq ++ [{ o with ftz := t.ftz, ovf8 := t.ovf8, pc := t.pc }] }).advance len) := by
  unfold State.venq
  exact except_bind_eq (State.need_of_values h) (except_bind_eq (a := ()) (waitFor_ok.2 (decide_eq_true hroom)) rfl)

theorem State.venq_of_full {s : State} (o : VOp) {rs : List Reg} (len : Nat) (h : ∀ r ∈ rs, ∃ v, r = .value v) (hfull : ¬ s.me.vq.length < 16) :
    s.venq o rs len = wait := by
  unfold State.venq
  refine except_bind_eq (State.need_of_values h) ?_
  dsimp only
  rw [decide_eq_false hfull]
  rfl

/-! ## Entries with a scalar result -/

theorem exec_vecSymRow {s : State} {i : Instr} {o : VOp} {rs : List Reg} {d : Dst} {len : Nat} (h : VecSymRow s i o rs d len) :
    exec i s = complete s (s.venqSym o rs d len) := by
  cases h
  case mpop x => rw [← fin_ofNat_of_lt x]; rfl
  case mpopX ty x => rw [← fin_ofNat_of_lt x]; rfl
  all_goals rfl

theorem Ctx.vq_put (t : Ctx) (d : Dst) (x : Reg) : (t.put d x).vq = t.vq := by
  have hset (u : Ctx) (n : RegName) : (u.setReg n x).vq = u.vq := by
    cases n with
    | g n => rfl
    | o n => rfl
    | _ =>
      unfold Ctx.setReg
      dsimp only
      split <;> rfl
  cases d with
  | zero => exact hset ..
  | _ => exact (hset ..).trans (hset ..)

theorem State.venqSym_of_room {s s1 : State} {o : VOp} {rs : List Reg} {r : SymRef} (d : Dst) (len : Nat) (h : ∀ q ∈ rs, ∃ v, q = .value v)
    (hroom : s.me.vq.length < 16) (hroom' : s1.me.vq.length < 16) (halloc : s.alloc = .ok (s1, r)) :
    s.venqSym o rs d len = .ok (((s1.put d (.int r.s 1 0)).modMe fun t => { t with
      vq := t.vq ++ [{ o with ref := some r, ftz := t.ftz, ovf8 := t.ovf8, pc := t.pc }] }).advance len) := by
  unfold State.venqSym
  refine except_bind_eq (State.need_of_values h) (except_bind_eq (a := ()) (waitFor_ok.2 (decide_eq_true hroom)) (except_bind_eq halloc ?_))
  refine State.venq_of_room _ len (fun q hq => absurd hq List.not_mem_nil) ?_
  rw [State.put, State.me_modMe, Ctx.vq_put]
  exact hroom'

/-! ## Memory -/

theorem foldlM_append {ε α β : Type} {f : α → Except ε Unit} {g : α → Except ε β} {l : List α} {ps : List β} (hlen : ps.length = l.length)
    (h : ∀ j (hj : j < l.length) (hj' : j < ps.length), f l[j] = .ok () ∧ g l[j] = .ok ps[j]) (acc : List β) :
    l.foldlM (fun acc i => do f i; let p ← g i; .ok (acc ++ [p])) acc = .ok (acc ++ ps) := by
  induction l generalizing ps acc with
  | nil =>
    obtain rfl := List.length_eq_zero_iff.1 hlen
    rw [List.append_nil]
    rfl
  | cons a l ih =>
    obtain ⟨p, ps, rfl⟩ := List.exists_cons_of_length_eq_add_one hlen
    obtain ⟨hf, hg⟩ : f a = .ok () ∧ g a = .ok p := h 0 (Nat.zero_lt_succ _) (Nat.zero_lt_succ _)
    have htail := ih (Nat.succ.inj hlen) (fun j hj hj' => h (j + 1) (Nat.succ_lt_succ hj) (Nat.succ_lt_succ hj')) (acc ++ [p])
    rw [List.foldlM_cons, hf, hg]
    exact htail.trans (by rw [List.append_assoc]; rfl)

/-- A vector memory instruction is `vmem` at its type (R177, R178). -/
theorem exec_vecMem {i : Instr} {op : VecOp} {w : Win} {ty : Ty} {mk : MaskSel} {d : Fin 16} {b x : VScal} {vx : Option (Fin 16)} {sh : Nat}
    {imm : BitVec 24} {lit : Word} {len : Nat} (h : VecMem i op w ty mk d b x vx sh imm lit len) (s : State) :
    ∃ ty', bitsTy ty' = ty ∧ exec i s = complete s (s.vmem op w ty' mk d b x vx sh imm lit len) := by
  cases h <;> exact ⟨_, rfl, rfl⟩

theorem State.vpark_of_vgate {s : State} {k : AKind} {w : Win} {e : Nat} {ps : List VPlace} (h : s.vgate w e ps = .ok ()) {p : VPlace}
    (hp : p ∈ ps) : s.vpark k w e p.addr = .ok () := by
  obtain ⟨_, -, hwait⟩ := res_bind_ok.1 h
  have hfree : (w == .glob && ps.any fun p => s.me.parkedOn p.addr e) = false :=
    (Bool.not_eq_true' _).mp (waitFor_ok.1 hwait)
  have hone : (w == .glob && p.addr.toNat % e == 0 && s.me.parkedOn p.addr e) = false := by
    refine Bool.eq_false_iff.2 fun htrue => ?_
    obtain ⟨hleft, hparked⟩ := Bool.and_eq_true_iff.1 htrue
    obtain ⟨hw, -⟩ := Bool.and_eq_true_iff.1 hleft
    rw [hw, Bool.true_and, List.any_eq_false] at hfree
    exact hfree p hp hparked
  unfold State.vpark
  split
  · exact waitFor_ok.2 (by rw [hone]; rfl)
  · rfl

section
variable {s : State} {op : VecOp} {w : Win} {ty : Option Ty} {mk : MaskSel} {d : Fin 16} {b x : VScal} {vx : Option (Fin 16)} {sh : Nat}
  {imm : BitVec 24} {lit bv xv : Word} {len : Nat} {ps : List VPlace}

/-- A vector memory instruction whose active elements pass their checks starts with their places (R161). -/
theorem State.vmem_checked (hb : s.me.vscal lit b = .value bv) (hx : s.me.vscal lit x = .value xv) (hgate : s.accessGate = .ok ())
    (hvq : s.me.vq = []) {on : List Nat} (hon : on = (List.range (128 / (bitsTy ty).bytes)).filter fun j => s.me.active mk (bitsTy ty).bytes j)
    (hlen : ps.length = on.length)
    (hps : ∀ j (h : j < on.length) (h' : j < ps.length), ps[j].elem = on[j] ∧
      ps[j].addr = s.vaddr (bv + xv + imm.signExtend 64) vx (bitsTy ty) sh on[j] ∧
      s.resolve (if op.stores then .vstore else .vload) w ps[j].addr (bitsTy ty).bytes (bitsTy ty).bytes = .ok ps[j].acc)
    (hvgate : s.vgate w (bitsTy ty).bytes ps = .ok ()) :
    s.vmem op w ty mk d b x vx sh imm lit len =
      s.vstart { op, ty := bitsTy ty, mask := mk, dst := d.val, x := .reg d, places := ps } len := by
  unfold State.vmem
  dsimp only
  rw [hb, hx]
  refine except_bind_eq (s.need_two_values bv xv) (except_bind_eq hgate (except_bind_eq (a := ()) (waitFor_ok.2 (by rw [hvq]; rfl)) ?_))
  refine except_bind_eq (a := ps) ?_ (except_bind_eq hvgate rfl)
  rw [← hon]
  refine (foldlM_append hlen (fun j hj hj' => ?_) []).trans rfl
  obtain ⟨helem, haddr, hres⟩ := hps j hj hj'
  have haddr' : s.vaddr (Machine.ea3 bv xv imm) vx (bitsTy ty) sh on[j] = ps[j].addr := haddr.symm
  show s.vpark _ w _ (s.vaddr (Machine.ea3 bv xv imm) vx (bitsTy ty) sh on[j]) = .ok () ∧
    s.vcheck _ w _ on[j] (s.vaddr (Machine.ea3 bv xv imm) vx (bitsTy ty) sh on[j]) = .ok ps[j]
  rw [haddr']
  refine ⟨State.vpark_of_vgate hvgate (List.getElem_mem hj'), ?_⟩
  unfold State.vcheck
  refine except_bind_eq (a := ps[j].acc) (by rw [hres]; rfl) ?_
  rw [← helem]

theorem State.vstart_plain {o : VOp} (h : ∀ p ∈ o.places, p.acc.tagged = false) : s.vstart o len = s.venq o [] len := by
  have hnone : ¬ (o.places.any fun p => p.acc.tagged) = true := by simpa using h
  exact if_neg hnone

theorem State.vstart_tagged {o : VOp} (h : ∃ p ∈ o.places, p.acc.tagged = true) (hdemand : ∀ p ∈ o.places, s.demand (.ofCore s.cur) p.acc o.op.req = none) :
    s.vstart o len = if s.myCore.vturn s.slot then
        (s.venq o [] len).map fun t => (t.modCore t.cur fun x => { x with lastVec := t.slot }).vserve
      else .error (.hold s .vturn) := by
  have hsome : (o.places.any fun p => p.acc.tagged) = true := by simpa using h
  have hneed : (o.places.findSome? fun p => s.demand (.ofCore s.cur) p.acc o.op.req) = none := List.findSome?_eq_none_iff.2 hdemand
  unfold State.vstart
  rw [if_pos hsome, hneed]

end

/-! ## O46 -/

/-- Settles O46: what each row queues is computed; a transfer waits for the checks of its active elements alone. -/
theorem vectorInstructionsQueue : Obligations.VectorInstructionsQueue := by
  unfold Obligations.VectorInstructionsQueue
  refine ⟨fun s i o rs len hi hrs => ?_, fun s s1 i o rs d len r hi hrs hroom hroom' halloc => ?_,
    fun s i op w ty mk d b x vx sh imm lit bv xv len ps hi hb hx hgate hvq => ?_⟩
  · rw [exec_vecRow hi]
    by_cases hroom : s.me.vq.length < 16
    · rw [if_pos hroom, State.venq_of_room o len hrs hroom]
      rfl
    · rw [if_neg hroom, State.venq_of_full o len hrs hroom]
      rfl
  · rw [exec_vecSymRow hi, State.venqSym_of_room d len hrs hroom hroom' halloc]
    rfl
  · intro e ea on hps hvgate queued
    obtain ⟨ty', rfl, hexec⟩ := exec_vecMem hi s
    obtain ⟨hlen, hplaces⟩ := hps
    have haddr : ∀ j (h : j < on.length) (h' : j < ps.length), ps[j].addr = s.vaddr ea vx (bitsTy ty') sh on[j] := by
      intro j hj hj'
      refine (hplaces j hj hj').2.1.trans ?_
      cases vx <;> rfl
    have hvmem := State.vmem_checked (d := d) (len := len) (imm := imm) (vx := vx) (sh := sh) hb hx hgate hvq rfl hlen (fun j hj hj' =>
      have ⟨helem, _, hres⟩ := hplaces j hj hj'
      ⟨helem, haddr j hj hj', hres⟩) hvgate
    rw [hexec, hvmem]
    have henq := State.venq_of_room { op, ty := bitsTy ty', mask := mk, dst := d.val, x := .reg d, places := ps } (rs := []) len
      (fun r hr => absurd hr List.not_mem_nil) (show s.me.vq.length < 16 by rw [hvq]; exact Nat.zero_lt_succ _)
    refine ⟨fun hplain => ?_, fun htagged hdemand => ⟨fun hturn => ?_, fun hturn => ?_⟩⟩
    · rw [State.vstart_plain hplain, henq]
      rfl
    · rw [State.vstart_tagged htagged hdemand, if_pos hturn, henq]
      rfl
    · rw [State.vstart_tagged htagged hdemand, hturn]
      rfl

end Sys2Proof.Machine
end

section
/-! PROOF. O49: matrix commands, drill jobs and regions (R184, R187, R215 to R218). -/

namespace Sys2Proof.Machine
open Stmt

/-- The lowest index that a test accepts is the one that is found. -/
theorem find?_finRange_of_lowest {n : Nat} {p : Fin n → Bool} {i : Fin n} (hi : p i = true) (hlower : ∀ j < i, p j = false) :
    (List.finRange n).find? p = some i := by
  rw [List.find?_eq_some_iff_append]
  obtain ⟨as, bs, hsplit⟩ := List.append_of_mem (List.mem_finRange i)
  refine ⟨hi, as, bs, hsplit, fun j hj => ?_⟩
  have hsorted := List.pairwise_lt_finRange n
  rw [hsplit, List.pairwise_append] at hsorted
  rw [hlower j (hsorted.2.2 j hj i List.mem_cons_self)]
  rfl

/-- What is found is the lowest index that the test accepts. -/
theorem lowest_of_find?_finRange {n : Nat} {p : Fin n → Bool} {i : Fin n} (h : (List.finRange n).find? p = some i) :
    p i = true ∧ ∀ j < i, p j = false := by
  obtain ⟨hi, as, bs, hsplit, hbefore⟩ := List.find?_eq_some_iff_append.1 h
  refine ⟨hi, fun j hj => ?_⟩
  have hmem : j ∈ as ++ i :: bs := hsplit ▸ List.mem_finRange j
  have hsorted := List.pairwise_lt_finRange n
  rw [hsplit, List.pairwise_append] at hsorted
  obtain hj' | hj' := List.mem_append.1 hmem
  · exact (Bool.not_eq_true' _).mp (hbefore j hj')
  · obtain rfl | hj' := List.mem_cons.1 hj'
    · exact absurd hj (lt_irrefl _)
    · exact absurd hj (not_lt_of_gt ((List.pairwise_cons.1 hsorted.2.1).1 j hj'))

/-! ## Symbols after a record's load -/

theorem Core.freeSym_congr {x y : Core} {k : SlotId} (hsyms : x.syms = y.syms) (hquota : (x.ctx k).quota = (y.ctx k).quota) :
    x.freeSym k = y.freeSym k := by
  unfold Core.freeSym Core.pendingOf Core.findSym
  rw [hsyms, hquota]

theorem State.setMe_syms (s : State) (t : Ctx) : (s.setMe t).myCore.syms = s.myCore.syms :=
  (congrArg Core.syms (State.core_setCore s s.cur (s.myCore.setCtx s.slot t)) :)

/-- A record's load leaves the symbols and the context's quota (R127). -/
theorem freeSym_of_recordRead {s s1 : State} {w : Win} {ea : Word} {b : List Byte} (h : RecordRead s w ea s1 b) :
    s1.myCore.freeSym s1.slot = s.myCore.freeSym s.slot := by
  obtain ⟨_, -, hrest⟩ := res_bind_ok.1 (read64_of_recordRead h)
  obtain ⟨⟨t, a⟩, hload, heq⟩ := res_bind_ok.1 hrest
  obtain rfl : t = s1 := congrArg Prod.fst (Except.ok.inj heq)
  have hcoh := State.loadAcc_sameButCoherence hload
  have hquota : t.me.quota = s.me.quota := by rw [hcoh.me, released, State.me_modMe]
  have hsyms : t.myCore.syms = s.myCore.syms := by
    refine (congrArg (fun v : State => v.myCore.syms) hcoh.eq :).trans ?_
    exact (State.setMe_syms _ _).trans (State.setMe_syms s _)
  rw [hcoh.slot]
  refine Core.freeSym_congr hsyms ?_
  have hcur : t.cur = s.cur := hcoh.cur
  have hslot : t.slot = s.slot := hcoh.slot
  rw [State.me, State.ctx, hslot] at hquota
  exact hquota

/-- A free symbol is still to be had after a record's load (R69). -/
theorem alloc_of_recordRead {s s1 : State} {w : Win} {ea : Word} {b : List Byte} (h : RecordRead s w ea s1 b)
    (hfree : (s.myCore.freeSym s.slot).isSome) : ∃ (s2 : State) (r : SymRef), s1.alloc = .ok (s2, r) := by
  obtain ⟨i, hi⟩ := Option.isSome_iff_exists.1 hfree
  unfold State.alloc
  rw [freeSym_of_recordRead h, hi]
  exact ⟨_, _, rfl⟩

theorem State.symGate_of_free {s : State} (hfree : (s.myCore.freeSym s.slot).isSome) : s.symGate = .ok () := by
  obtain ⟨i, hi⟩ := Option.isSome_iff_exists.1 hfree
  unfold State.symGate
  rw [hi]

theorem State.symGate_of_exhausted {s : State} (hnone : s.myCore.freeSym s.slot = none) (hpending : s.myCore.anyPending = false) :
    s.symGate = trap .symExhausted := by
  unfold State.symGate
  rw [hnone, hpending]
  rfl

/-! ## Matrix commands -/

section
variable {s s1 : State} {w : Win} {imm : BitVec 24} {d : Dst} {b x : Src} {lit bv xv rv : Word} {len : Nat} {rec' : List Byte}

theorem exec_matrixCommand {i : Instr} (h : MatrixCommand i w imm d b x lit len) (s : State) :
    exec i s = complete s (s.mcmdOp w imm d b x lit len) := by
  cases h <;> rfl

theorem State.mcmdOp_exhausted (hb : s.me.src lit b = .value bv) (hx : s.me.src lit x = .value xv) (hroom : s.myCore.harrow.entries < 16)
    (hnone : s.myCore.freeSym s.slot = none) (hpending : s.myCore.anyPending = false) :
    s.mcmdOp w imm d b x lit len = trap .symExhausted := by
  unfold State.mcmdOp
  refine except_bind_eq (State.ea3_of_values hb hx) (except_bind_eq (a := ()) (waitFor_ok.2 (decide_eq_true hroom)) ?_)
  rw [State.symGate_of_exhausted hnone hpending]
  rfl

/-- A matrix command whose record has been read stands before its check (R184, R210). -/
theorem State.mcmdOp_read (hb : s.me.src lit b = .value bv) (hx : s.me.src lit x = .value xv) (hroom : s.myCore.harrow.entries < 16)
    (hfree : (s.myCore.freeSym s.slot).isSome) (hrel : ReleaseFree s .core) (hread : RecordRead s w (bv + xv + imm.signExtend 64) s1 rec') :
    s.mcmdOp w imm d b x lit len = (check (s1.mcmdOk s1.cur s1.myLaunch rec') .matrixCmd (bv + xv + imm.signExtend 64) >>= fun _ =>
      s1.alloc >>= fun p => .ok ((if (p.1.put d p.2.pure).myCore.harrow.haltStatus.isSome then
        (p.1.put d p.2.pure).faultSym (p.1.put d p.2.pure).cur p.2 0
        else (p.1.put d p.2.pure).modCore (p.1.put d p.2.pure).cur fun c =>
          c.queueCmd { record := rec', ref := p.2, rm := (p.1.put d p.2.pure).me.rm }).advance len)) := by
  unfold State.mcmdOp
  refine except_bind_eq (State.ea3_of_values hb hx) (except_bind_eq (a := ()) (waitFor_ok.2 (decide_eq_true hroom)) ?_)
  refine except_bind_eq (State.symGate_of_free hfree) (except_bind_eq (State.release_of_free hrel) ?_)
  exact except_bind_eq (read64_of_recordRead hread) rfl

/-! ## The unit's words -/

theorem State.mqryOp_value {k : Word} (hx : s.me.src lit x = .value k) (hk : k.toNat < 8) :
    s.mqryOp d x lit len = .ok ((if k = 3 ∧ s.myCore.harrow.haltStatus.isSome ∧ s.myCore.harrow.queue.isEmpty then
      s.modCore s.cur fun c => { c with harrow := { c.harrow with haltStatus := none, haltTag := 0 } } else s).result d
        (BitVec.ofNat 64 (s.myCore.harrow.query k.toNat)) [] len) := by
  unfold State.mqryOp
  exact except_bind_eq (State.use1_ok.2 hx) (check_bind_of_true (decide_eq_true hk) ..)

theorem State.mqryOp_beyond {k : Word} (hx : s.me.src lit x = .value k) (hk : 8 ≤ k.toNat) : s.mqryOp d x lit len = trap .bounds := by
  unfold State.mqryOp
  exact except_bind_eq (State.use1_ok.2 hx) (check_bind_of_false (decide_eq_false (not_lt_of_ge hk)) ..)

theorem Harrow.query_region (h : Harrow) (j : Fin 4) :
    h.query (4 + j.val) = (h.regions.get j).received + if (h.regions.get j).isOpen then 2 ^ 32 else 0 := by
  have hreg (n : Nat) (hn : Fin.ofNat 4 n = j) (hsel : h.query n =
      (h.regions.get (Fin.ofNat 4 n)).received + if (h.regions.get (Fin.ofNat 4 n)).isOpen then 2 ^ 32 else 0) :
      h.query n = (h.regions.get j).received + if (h.regions.get j).isOpen then 2 ^ 32 else 0 := hn ▸ hsel
  fin_cases j
  · exact hreg 4 rfl rfl
  · exact hreg 5 rfl rfl
  · exact hreg 6 rfl rfl
  · exact hreg 7 rfl rfl

theorem Harrow.query_halted {h : Harrow} {st : Nat} (hst : h.haltStatus = some st) : h.query 3 = st + 2 ^ 8 + h.haltTag.toNat * 2 ^ 32 := by
  unfold Harrow.query
  rw [hst]
  rfl

/-! ## Drill jobs -/

theorem exec_drillJob {i : Instr} (h : DrillJob i w imm d b lit len) (s : State) : exec i s = complete s (s.djobOp w imm d b lit len) := by
  cases h <;> rfl

theorem State.djobOp_read (hb : s.me.src lit b = .value bv) (hroom : s.myCore.jobs.length < 32) (hfree : (s.myCore.freeSym s.slot).isSome)
    (hrel : ReleaseFree s .clu) (hread : RecordRead s w (bv + imm.signExtend 64) s1 rec') :
    s.djobOp w imm d b lit len = (check (s1.layoutOk s1.cur s1.myLaunch rec') .bounds (bv + imm.signExtend 64) >>= fun _ =>
      s1.alloc >>= fun p => .ok (((p.1.acceptJob p.1.cur rec' (some p.1.slot) (some p.2) none).put d p.2.pure).advance len)) := by
  unfold State.djobOp
  refine except_bind_eq (State.use1_ok.2 hb) ?_
  dsimp only
  rw [ea2_eq]
  refine except_bind_eq (a := ()) (waitFor_ok.2 (decide_eq_true hroom)) ?_
  refine except_bind_eq (State.symGate_of_free hfree) (except_bind_eq (State.release_of_free hrel) ?_)
  exact except_bind_eq (read64_of_recordRead hread) rfl

/-! ## Regions -/

theorem exec_regionBind {i : Instr} (h : RegionBind i w imm d b x lit len) (s : State) : exec i s = complete s (s.rbindOp w imm d b x lit len) := by
  cases h <;> rfl

theorem Core.regionOverlap_of_clear {c : Core} {win : Win} {off n : Nat} (h : ∀ i : Fin 16, (c.regions.get i).phase = .free ∨
      (c.regions.get i).win ≠ win ∨ (c.regions.get i).off + (c.regions.get i).len ≤ off ∨ off + n ≤ (c.regions.get i).off) :
    c.regionOverlap win off n = false := by
  refine List.any_eq_false.2 fun r hr => ?_
  obtain ⟨i, hi, rfl⟩ := Vector.mem_iff_getElem.1 (Vector.mem_toList_iff.1 hr)
  have hcase := h ⟨i, hi⟩
  simp only [Vector.get_eq_getElem] at hcase
  simp only [Bool.and_eq_true, bne_iff_ne, ne_eq, beq_iff_eq, decide_eq_true_eq, not_and, not_lt]
  rintro ⟨⟨hphase, hwin⟩, hlt⟩
  obtain h | h | h | h := hcase
  · exact absurd h hphase
  · exact absurd hwin h
  · exact absurd hlt (not_lt_of_ge h)
  · exact h

/-- `rbind` of a good range and record fills the region register that is found (R217). -/
theorem State.rbindOp_good (hb : s.me.src lit b = .value bv) (hx : s.me.src lit x = .value rv) (hrange : GoodRange s rv)
    (hrel : ReleaseFree s .clu) (hread : RecordRead s w (bv + imm.signExtend 64) s1 rec')
    (hlayout : s1.layoutOk s1.cur s1.myLaunch rec' = true) :
    s.rbindOp w imm d b x lit len = match (List.finRange 16).find? fun i => (s1.myCore.regions.get i).phase == .free with
      | none => .ok (s1.result d (BitVec.ofInt 64 (-1)) [] len)
      | some i => .ok ((s1.modCore s1.cur fun c => c.modRegion i fun _ =>
          { phase := .absent, win := winOf (wbits rv 20 3), off := wbits rv 0 20, len := wbits rv 24 20, record := rec' }).result d
            (word i.val) [] len) := by
  obtain ⟨hhigh, hmid, hn, hn64, hoff, hglob, hC, hin, hclear⟩ := hrange
  have hfields : (wbits rv 44 20 == 0 && wbits rv 23 1 == 0 && wbits rv 24 20 != 0 && wbits rv 24 20 % 64 == 0 && wbits rv 0 20 % 64 == 0 &&
      winOf (wbits rv 20 3) != .glob) = true := by
    rw [hhigh, hmid, bne_iff_ne.2 hn, hn64, hoff, bne_iff_ne.2 hglob]
    rfl
  have hwindow : (winOf (wbits rv 20 3) != .C && decide (wbits rv 0 20 + wbits rv 24 20 ≤ s.myLaunch.split.size (winOf (wbits rv 20 3)))) = true := by
    rw [bne_iff_ne.2 hC, decide_eq_true hin]
    rfl
  unfold State.rbindOp
  refine except_bind_eq (State.use2_ok.2 ⟨hb, hx⟩) ?_
  dsimp only
  rw [ea2_eq]
  refine (check_bind_of_true hfields ..).trans ((check_bind_of_true hwindow ..).trans ((check_bind_of_true ?_ ..).trans ?_))
  · rw [Core.regionOverlap_of_clear hclear]
    rfl
  refine except_bind_eq (State.release_of_free hrel) (except_bind_eq (read64_of_recordRead hread) ?_)
  exact check_bind_of_true hlayout ..

theorem Region.released_eq (r : Region) : r.released = if r.phase = .copying then { r with freeAfter := true } else {} := by
  unfold Region.released
  cases r.phase <;> rfl

theorem State.rfreeOp_register {j : Fin 16} (hx : s.me.src lit x = .value xv) (hj : xv.toNat = j.val) :
    s.rfreeOp x lit len = .ok ((s.modCore s.cur fun c => c.modRegion j fun r =>
      if r.phase = .copying then { r with freeAfter := true } else {}).advance len) := by
  have hlt : xv.toNat < 16 := hj ▸ j.isLt
  have hjv : (⟨xv.toNat, hlt⟩ : Fin 16) = j := Fin.ext hj
  unfold State.rfreeOp
  refine except_bind_eq (State.use1_ok.2 hx) ((dif_pos hlt).trans ?_)
  rw [hjv, funext Region.released_eq]

theorem State.rfreeOp_beyond (hx : s.me.src lit x = .value xv) (h : 16 ≤ xv.toNat) : s.rfreeOp x lit len = trap .bounds := by
  unfold State.rfreeOp
  exact except_bind_eq (State.use1_ok.2 hx) (dif_neg (not_lt_of_ge h))

end

/-! ## O49 -/

/-- Settles O49: a record's load leaves the symbols, so that one found free before it is had after it. -/
theorem matrixAndDrillInstructions : Obligations.MatrixAndDrillInstructions := by
  unfold Obligations.MatrixAndDrillInstructions
  refine ⟨fun s s1 i w imm d b x lit bv xv len rec' hi hb hx hroom hfree hrel => ?_,
    fun s i w imm d b x lit bv xv len hi hb hx hroom hnone hpending => ?_, fun s w ea a hw h => State.read64_of_reached hw h, fun x q => ⟨rfl, rfl⟩,
    fun s lit d x k hx => ⟨fun hk => ?_, fun hk => ?_⟩, fun h => ⟨rfl, h.query_region, fun st hst => Harrow.query_halted hst⟩,
    fun s s1 i w imm d b lit bv len rec' hi hb hroom hfree hrel => ?_,
    fun s s1 i w imm d b x lit bv rv len rec' hi hb hx hrange hrel hread hlayout => ?_, fun s lit x v hx => ⟨fun hv => ?_, fun j hj => ?_⟩⟩
  · intro ea hread
    rw [exec_matrixCommand hi, State.mcmdOp_read hb hx hroom hfree hrel hread]
    refine ⟨fun hbad => ?_, fun hgood => ?_⟩
    · rw [check_bind_of_false hbad]
      rfl
    · obtain ⟨s2, r, halloc⟩ := alloc_of_recordRead hread hfree
      refine ⟨s2, r, halloc, ?_⟩
      rw [check_bind_of_true hgood, halloc]
      rfl
  · rw [exec_matrixCommand hi, State.mcmdOp_exhausted hb hx hroom hnone hpending]
    rfl
  · exact congrArg (complete s) (State.mqryOp_beyond hx hk)
  · exact congrArg (complete s) (State.mqryOp_value hx hk)
  · intro ea hread
    rw [exec_drillJob hi, State.djobOp_read hb hroom hfree hrel hread]
    refine ⟨fun hbad => ?_, fun hgood => ?_⟩
    · rw [check_bind_of_false hbad]
      rfl
    · obtain ⟨s2, r, halloc⟩ := alloc_of_recordRead hread hfree
      refine ⟨s2, r, halloc, ?_⟩
      rw [check_bind_of_true hgood, halloc]
      rfl
  · rw [exec_regionBind hi, State.rbindOp_good hb hx hrange hrel hread hlayout]
    refine ⟨fun hnone => ?_, fun j hj => ?_⟩
    · cases hfind : (List.finRange 16).find? fun i => (s1.myCore.regions.get i).phase == .free with
      | none => rfl
      | some i =>
        obtain ⟨hfree, hlower⟩ := lowest_of_find?_finRange hfind
        exact absurd ⟨beq_iff_eq.1 hfree, fun j hj => beq_eq_false_iff_ne.1 (hlower j hj)⟩ (hnone i)
    · obtain ⟨hfree, hlower⟩ := hj
      have hfind : ((List.finRange 16).find? fun i => (s1.myCore.regions.get i).phase == .free) = some j :=
        find?_finRange_of_lowest (beq_iff_eq.2 hfree) fun j hj => beq_false_of_ne (hlower j hj)
      rw [hfind]
      rfl
  · exact congrArg (complete s) (State.rfreeOp_beyond hx hv)
  · exact congrArg (complete s) (State.rfreeOp_register hx hj)

end Sys2Proof.Machine
end

section
/-! PROOF. O51: messages as a core sends and receives them (R219 to R224). -/

namespace Sys2Proof.Machine
open Stmt

/-! ## The place of a payload -/

/-- Order 1 of R127 passes exactly where a message may stand. -/
theorem State.messageWindow_ok {s : State} {k : AKind} {w : Win} {ea : Word} : s.messageWindow k w ea = .ok () ↔ MessagePlace s k w ea := by
  unfold State.messageWindow MessagePlace
  rw [check_ok]
  by_cases hw : w = .glob
  · subst hw
    simp
  · rw [if_neg hw]
    simp [hw, and_assoc]

theorem State.messageWindow_refused {s : State} {k : AKind} {w : Win} {ea : Word} (h : ¬ MessagePlace s k w ea) :
    s.messageWindow k w ea = trap .window ea := by
  have hok := mt State.messageWindow_ok.1 h
  unfold State.messageWindow at hok ⊢
  have hrefuse (ok : Bool) (hnot : ¬ check ok .window ea = .ok ()) : check ok .window ea = trap .window ea := by
    cases ok
    · rfl
    · exact absurd rfl hnot
  exact hrefuse _ hok

/-! ## Sending -/

section
variable {s : State} {sc : Scope} {w : Win} {imm : BitVec 24} {chk : Bool} {b : Src} {ch : Fin 16} {lit bv : Word} {len : Nat}

theorem exec_messageSend {i : Instr} (h : MessageSend i sc w imm chk b ch lit len) (s : State) :
    exec i s = complete s (s.msendOp sc w imm chk b ch lit len) := by
  cases h <;> rfl

theorem State.msendOp_refused (hb : s.me.src lit b = .value bv) (h : ¬ MessagePlace s .load w (bv + imm.signExtend 64)) :
    s.msendOp sc w imm chk b ch lit len = trap .window (bv + imm.signExtend 64) := by
  unfold State.msendOp
  refine except_bind_eq (State.use1_ok.2 hb) ?_
  dsimp only
  rw [ea2_eq, State.messageWindow_refused h]
  rfl

theorem State.msendOp_undeclared (hb : s.me.src lit b = .value bv) (h : MessagePlace s .load w (bv + imm.signExtend 64))
    (hch : s.myLaunch.chan ch = none) : s.msendOp sc w imm chk b ch lit len = trap .bounds (bv + imm.signExtend 64) := by
  unfold State.msendOp
  refine except_bind_eq (State.use1_ok.2 hb) ?_
  dsimp only
  rw [ea2_eq]
  refine except_bind_eq (State.messageWindow_ok.2 h) ?_
  rw [hch]

theorem State.msendOp_nak {dcl : ChanDecl} (hb : s.me.src lit b = .value bv) (h : MessagePlace s .load w (bv + imm.signExtend 64))
    (hch : s.myLaunch.chan ch = some dcl) (hchk : chk = true) (hnak : (s.myCore.chans.get ch).nak = true) :
    s.msendOp sc w imm chk b ch lit len =
      .error (.trapAt { cause := .deadLetter } (s.modCore s.cur fun x => x.modChan ch fun h => { h with nak := false })) := by
  unfold State.msendOp
  refine except_bind_eq (State.use1_ok.2 hb) ?_
  dsimp only
  rw [ea2_eq]
  refine except_bind_eq (State.messageWindow_ok.2 h) ?_
  rw [hch]
  exact if_pos (by rw [hchk, hnak]; rfl)

/-- A record's load leaves the executing slot, and the core's rank and launch (R127). -/
theorem sender_of_recordRead {s1 : State} {ea : Word} {data : List Byte} (h : RecordRead s w ea s1 data) :
    s1.cur = s.cur ∧ s1.slot = s.slot ∧ s1.myCore.rank = s.myCore.rank ∧ s1.myCore.launch = s.myCore.launch := by
  obtain ⟨_, -, hrest⟩ := res_bind_ok.1 (read64_of_recordRead h)
  obtain ⟨⟨t, a⟩, hload, heq⟩ := res_bind_ok.1 hrest
  obtain rfl : t = s1 := congrArg Prod.fst (Except.ok.inj heq)
  have hcoh := State.loadAcc_sameButCoherence hload
  have hset (u : State) (x : Ctx) : (u.setMe x).myCore.rank = u.myCore.rank ∧ (u.setMe x).myCore.launch = u.myCore.launch :=
    have hcore := State.core_setCore u u.cur (u.myCore.setCtx u.slot x)
    ⟨(congrArg Core.rank hcore :), (congrArg Core.launch hcore :)⟩
  refine ⟨hcoh.cur, hcoh.slot, ?_, ?_⟩
  · refine (congrArg (fun v : State => v.myCore.rank) hcoh.eq :).trans ?_
    exact (hset _ _).1.trans (hset s _).1
  · refine (congrArg (fun v : State => v.myCore.launch) hcoh.eq :).trans ?_
    exact (hset _ _).2.trans (hset s _).2

theorem State.msendOp_sent {dcl : ChanDecl} {s1 : State} {data : List Byte} (hb : s.me.src lit b = .value bv)
    (h : MessagePlace s .load w (bv + imm.signExtend 64)) (hch : s.myLaunch.chan ch = some dcl)
    (hnak : chk = false ∨ (s.myCore.chans.get ch).nak = false) (hroom : (s.myCore.chans.get ch).buffer.length < 4) (hrel : ReleaseFree s sc)
    (hread : RecordRead s w (bv + imm.signExtend 64) s1 data) :
    s.msendOp sc w imm chk b ch lit len = .ok ((s1.modCore s.cur fun x => x.modChan ch fun h => { h with buffer := h.buffer ++
      [{ payload := data, src := s.cur.val, srcCh := ch, lcore := s.myCore.rank, srcSlot := s.slot,
         launch := s.myCore.launch.getD 0, slot := dcl.slot, gen := 0 }] }).advance len) := by
  have hgo : ¬ (chk && (s.myCore.chans.get ch).nak) = true := by
    obtain h | h := hnak <;> simp [h]
  obtain ⟨hcur, hslot, hrank, hlaunch⟩ := sender_of_recordRead hread
  unfold State.msendOp
  refine except_bind_eq (State.use1_ok.2 hb) ?_
  dsimp only
  rw [ea2_eq]
  refine except_bind_eq (State.messageWindow_ok.2 h) ?_
  rw [hch]
  refine (if_neg hgo).trans (except_bind_eq (a := ()) (waitFor_ok.2 (decide_eq_true hroom)) ?_)
  refine except_bind_eq (State.release_of_free hrel) (except_bind_eq (read64_of_recordRead hread) ?_)
  dsimp only
  rw [hcur, hslot, hrank, hlaunch]

end

/-! ## Receiving -/

section
variable {s : State} {sc : Scope} {w : Win} {imm : BitVec 24} {dv : Bool} {d : Dst} {b : Src} {ch : Fin 16} {lit bv : Word} {len : Nat} {ea : Word}

theorem exec_messageReceive {i : Instr} (h : MessageReceive i sc w imm dv d b ch lit len) (s : State) :
    exec i s = complete s (s.mrecvOp sc w imm dv d b ch lit len) := by
  cases h <;> rfl

theorem State.recvCheck_refused (h : ¬ MessagePlace s .store w ea) : s.recvCheck w ea ch = trap .window ea := by
  unfold State.recvCheck
  rw [State.messageWindow_refused h]
  rfl

theorem State.recvCheck_not_inbound (h : MessagePlace s .store w ea) (hin : s.myLaunch.inbound ch s.myCore.rank = false) :
    s.recvCheck w ea ch = trap .bounds ea := by
  unfold State.recvCheck
  refine except_bind_eq (State.messageWindow_ok.2 h) ?_
  exact check_bind_of_false hin ..

theorem State.recvCheck_misaligned (h : MessagePlace s .store .glob ea) (hin : s.myLaunch.inbound ch s.myCore.rank = true)
    (halign : ea.toNat % 64 ≠ 0) : s.recvCheck .glob ea ch = trap .align ea := by
  unfold State.recvCheck
  refine except_bind_eq (State.messageWindow_ok.2 h) ((check_bind_of_true hin ..).trans ?_)
  exact check_error.2 ⟨beq_false_of_ne halign, rfl⟩

theorem State.size_of_windowKeys {c : CoreId} {l : Launch} {off n : Nat} (h : (s.windowKeys c l w off n).isSome) : off + n ≤ l.split.size w := by
  unfold State.windowKeys at h
  split at h
  · cases h
  · omega

theorem State.recvCheck_good (h : MessagePlace s .store w ea) (hin : s.myLaunch.inbound ch s.myCore.rank = true)
    (halign : ea.toNat % 64 = 0) (hkeys : w = .glob ∨ (s.windowKeys s.cur s.myLaunch w ea.toNat 64).isSome) : s.recvCheck w ea ch = .ok () := by
  have hplace := h
  unfold State.recvCheck
  refine except_bind_eq (State.messageWindow_ok.2 h) ((check_bind_of_true hin ..).trans ?_)
  split
  · exact check_ok.2 (beq_iff_eq.2 halign)
  · next hglob =>
    obtain ⟨hw, -⟩ | ⟨hw, hlt, hsome⟩ := hplace
    · exact absurd hw hglob
    have hkeys := hkeys.resolve_left hglob
    obtain ⟨ks, hks⟩ := Option.isSome_iff_exists.1 hkeys
    have hwin : AKind.window .store w = true := by fin_cases hw <;> rfl
    have hown : s.ownWindow s.myLaunch .store w ea 64 64 = .ok { keys := ks, place := .lm s.cur (some w) ea.toNat } := by
      unfold State.ownWindow
      dsimp only
      rw [if_neg (by simpa [hwin] using hlt), if_neg (by rw [← Option.not_isSome, hsome]; exact Bool.false_ne_true), if_neg (not_not_intro halign), hks]
    rw [hown]
    rfl

theorem State.mrecvOp_stopped {e : Stop} (hb : s.me.src lit b = .value bv) (h : s.recvCheck w (bv + imm.signExtend 64) ch = .error e) :
    s.mrecvOp sc w imm dv d b ch lit len = .error e := by
  unfold State.mrecvOp
  refine except_bind_eq (State.use1_ok.2 hb) ?_
  dsimp only
  rw [ea2_eq, h]
  rfl

theorem State.mrecvOp_deferred {s1 : State} {r : SymRef} (hb : s.me.src lit b = .value bv) (h : s.recvCheck w (bv + imm.signExtend 64) ch = .ok ())
    (halloc : s.alloc = .ok (s1, r)) : s.mrecvOp sc w imm true d b ch lit len =
      .ok (((s1.modMe fun t => { t with drecvs := t.drecvs ++ [{ ref := r, ch, sc, win := w, ea := bv + imm.signExtend 64 }] }).put d r.pure).advance len) := by
  unfold State.mrecvOp
  refine except_bind_eq (State.use1_ok.2 hb) ?_
  dsimp only
  rw [ea2_eq]
  exact except_bind_eq h (except_bind_eq halloc rfl)

/-- A plain receive that passes its checks sleeps behind an earlier one, or takes the oldest message (R223). -/
theorem State.mrecvOp_plain (hb : s.me.src lit b = .value bv) (h : s.recvCheck w (bv + imm.signExtend 64) ch = .ok ()) (hfree : AcquireFree s sc) :
    s.mrecvOp sc w imm false d b ch lit len = if !s.me.drecvs.isEmpty then .error .sleep else
      match s.myCore.nextMessage ch s.slot with
      | none => .error .sleep
      | some p => s.storeMessage w (bv + imm.signExtend 64) p >>= fun t => .ok ((t.result d p.2.sender [] len).acquired sc) := by
  unfold State.mrecvOp
  refine except_bind_eq (State.use1_ok.2 hb) ?_
  dsimp only
  rw [ea2_eq]
  exact except_bind_eq h (except_bind_eq (State.acquireGate_of_acquireFree hfree) rfl)

/-- A payload whose store is reached is written where it stands (R223, R431). -/
theorem State.storeMessage_of_reached {a : Acc} (h : Reached s .store w ea 64 .store a) (p : Fin 16 × Message) :
    s.storeMessage w ea p = .ok (((if p.2.bad then
        ((performed s a .store).write s.self a.keys p.2.payload).poisonGranules (a.keys.map (· / 32)).dedup
      else (performed s a .store).write s.self a.keys p.2.payload).takeMessage s.cur p)) := by
  have hcoh : SameButCoherence s (performed s a .store) := s.performAcc_sameButCoherence a .store
  have hself : (performed s a .store).self = s.self := by rw [State.self, State.self, hcoh.cur, hcoh.slot]
  have hput : (performed s a .store).putPayload a p.2 = if p.2.bad then
        ((performed s a .store).write s.self a.keys p.2.payload).poisonGranules (a.keys.map (· / 32)).dedup
      else (performed s a .store).write s.self a.keys p.2.payload := by
    rw [State.putPayload, hself]
  unfold State.storeMessage
  refine except_bind_eq (State.storeAcc_of_reached (by decide) (by decide) h) ?_
  dsimp only
  rw [hcoh.cur]
  obtain ⟨c, v, off, hplace⟩ | ⟨k, hplace⟩ := place_of_reached h
  · rw [hplace]
    exact congrArg (fun t : State => (Except.ok (t.takeMessage s.cur p) : Res State)) hput
  · rw [hplace]
    exact congrArg (fun t : State => (Except.ok (t.takeMessage s.cur p) : Res State)) hput

end

/-! ## O51 -/

/-- Settles O51: the place of a message is checked first, then its channel, then its alignment. -/
theorem messageInstructions : Obligations.MessageInstructions := by
  unfold Obligations.MessageInstructions
  refine ⟨fun s i sc w imm chk b ch lit bv len hi hb => ?_, fun s i sc w imm dv d b ch lit bv len hi hb => ?_, fun s d ch => ⟨fun h => ?_, fun h => ?_⟩⟩
  · intro ea
    rw [exec_messageSend hi]
    refine ⟨fun h => ?_, fun h hch => ?_, fun dcl h hch => ⟨fun hchk hnak => ?_, fun hnak hroom hrel => ?_⟩⟩
    · rw [State.msendOp_refused hb h]
      rfl
    · rw [State.msendOp_undeclared hb h hch]
      rfl
    · rw [State.msendOp_nak hb h hch hchk hnak]
      rfl
    · intro sent s1 data hread
      rw [State.msendOp_sent hb h hch hnak hroom hrel hread]
      rfl
  · intro ea
    rw [exec_messageReceive hi]
    refine ⟨fun h => ?_, fun h hin => ?_, fun h hin => ⟨fun halign hw => ?_, fun halign hkeys => ?_⟩⟩
    · rw [State.mrecvOp_stopped hb (State.recvCheck_refused h)]
      rfl
    · rw [State.mrecvOp_stopped hb (State.recvCheck_not_inbound h hin)]
      rfl
    · subst hw
      rw [State.mrecvOp_stopped hb (State.recvCheck_misaligned h hin halign)]
      rfl
    have hcheck := State.recvCheck_good h hin halign hkeys
    refine ⟨fun hdv s1 r halloc => ?_, fun hdv hfree hwaits => ?_, fun hdv hfree hnone => ⟨fun hnext => ?_, fun p hnext => ?_⟩⟩
    · subst hdv
      rw [State.mrecvOp_deferred hb hcheck halloc]
      rfl
    · subst hdv
      rw [State.mrecvOp_plain hb hcheck hfree, List.isEmpty_eq_false_iff.2 hwaits]
      rfl
    · subst hdv
      rw [State.mrecvOp_plain hb hcheck hfree, hnone, hnext]
      rfl
    · subst hdv
      intro sender
      rw [State.mrecvOp_plain hb hcheck hfree, hnone, hnext]
      refine ⟨fun s1 hstore => ?_, fun a hreached => ?_⟩
      · dsimp only
        rw [hstore]
        rfl
      · intro u
        dsimp only
        rw [State.storeMessage_of_reached hreached]
        rfl
  · show complete s (s.mprobeOp d ch) = _
    unfold State.mprobeOp
    rw [check_bind_of_false h]
    rfl
  · show complete s (s.mprobeOp d ch) = _
    unfold State.mprobeOp
    rw [check_bind_of_true h]
    rfl

end Sys2Proof.Machine
end

section
/-! PROOF. O53: messages on their way, deferred receives and parked accesses (R130, R221 to R223). -/

namespace Sys2Proof.Machine
open Stmt

/-! ## Messages leave and arrive -/

section
variable {s : State} {c dst : CoreId} {ch : Fin 16} {dcl : ChanDecl} {m : Message} {rest : List Message}

theorem exec_sendEvent (hdst : s.chanDst c ch = some (dst, dcl)) (hbuf : ((s.core c).chans.get ch).buffer = m :: rest)
    (hslot : ((s.core c).chans.get ch).inUse < dcl.slots) (hpath : s.pathHeld c dst = false) :
    exec (.messageSend c ch) s = .next (s.modCore c fun x => { x.modChan ch (fun h => { h with
      buffer := rest, flight := h.flight ++ [{ m with gen := (s.ctx dst dcl.slot).gen }], inUse := h.inUse + 1 }) with
        sent := x.sent + 1 }) := by
  show Host.Outcome.next (s.sendMessage c ch) = _
  unfold State.sendMessage
  dsimp only
  rw [hdst, hbuf]
  exact congrArg Host.Outcome.next (if_pos ⟨hslot, hpath⟩)

theorem exec_sendEvent_empty (hbuf : ((s.core c).chans.get ch).buffer = []) : exec (.messageSend c ch) s = .next s := by
  show Host.Outcome.next (s.sendMessage c ch) = _
  unfold State.sendMessage
  dsimp only
  rw [hbuf]
  cases s.chanDst c ch <;> rfl

theorem exec_messageArrival_none {bad : Bool} (h : s.chanDst c ch = none ∨ ((s.core c).chans.get ch).flight = []) :
    exec (.messageArrival { core := c, bad } ch) s = .next s := by
  show Host.Outcome.next (s.arriveMessage c ch bad) = _
  unfold State.arriveMessage
  dsimp only
  obtain h | h := h
  · rw [h]
  · rw [h]
    cases s.chanDst c ch <;> rfl

/-- The state in which a message has left its flight and is counted at its destination (R221). -/
def State.landedAt (s : State) (c : CoreId) (ch : Fin 16) (dst : CoreId) (rest : List Message) : State :=
  (s.modCore c fun x => x.modChan ch fun h => { h with flight := rest }).modCore dst fun x => { x with rcvd := x.rcvd + 1 }

theorem exec_messageArrival (bad : Bool) (hdst : s.chanDst c ch = some (dst, dcl)) (hflight : ((s.core c).chans.get ch).flight = m :: rest) :
    exec (.messageArrival { core := c, bad } ch) s = .next (
      if ((s.landedAt c ch dst rest).core dst |>.ctx m.slot).live && ((s.landedAt c ch dst rest).core dst |>.ctx m.slot).gen == m.gen &&
        ((s.landedAt c ch dst rest).core dst).launch == some m.launch
      then (s.landedAt c ch dst rest).modCore dst fun x =>
        ({ x with inbox := x.inbox ++ [(ch, { m with bad := m.bad || bad })] }).latchBit m.slot 0
      else (s.landedAt c ch dst rest).deadLetter dst m) := by
  show Host.Outcome.next (s.arriveMessage c ch bad) = _
  unfold State.arriveMessage
  dsimp only
  rw [hdst, hflight]
  rfl

/-- What a landing leaves of the destination core: all but a channel's flight and the count of messages. -/
theorem State.landedAt_core (s : State) (c : CoreId) (ch : Fin 16) (dst : CoreId) (rest : List Message) :
    ∃ chans, (s.landedAt c ch dst rest).core dst = { s.core dst with chans := chans, rcvd := (s.core dst).rcvd + 1 } := by
  have hcore : (s.landedAt c ch dst rest).core dst =
      { (s.modCore c fun x => x.modChan ch fun h => { h with flight := rest }).core dst with
        rcvd := ((s.modCore c fun x => x.modChan ch fun h => { h with flight := rest }).core dst).rcvd + 1 } := State.core_modCore ..
  by_cases h : dst = c
  · subst h
    rw [State.core_modCore] at hcore
    exact ⟨_, hcore⟩
  · rw [State.core_modCore_ne _ _ h] at hcore
    exact ⟨_, hcore⟩

theorem messageArrival_taken (bad : Bool) (hdst : s.chanDst c ch = some (dst, dcl)) (hflight : ((s.core c).chans.get ch).flight = m :: rest)
    (hlive : (s.ctx dst m.slot).live = true) (hgen : (s.ctx dst m.slot).gen = m.gen) (hlaunch : (s.core dst).launch = some m.launch) :
    ∃ t, exec (.messageArrival { core := c, bad } ch) s = .next t ∧ (t.core dst).inbox = (s.core dst).inbox ++ [(ch, { m with bad := m.bad || bad })] ∧
      (t.ctx dst m.slot).latch = (s.ctx dst m.slot).latch ||| 1 ∧ (t.core dst).rcvd = (s.core dst).rcvd + 1 ∧ t.mem = s.mem := by
  obtain ⟨chans, hcore⟩ := s.landedAt_core c ch dst rest
  have hctx : ((s.landedAt c ch dst rest).core dst).ctx m.slot = s.ctx dst m.slot := by
    rw [hcore]
    rfl
  have hlaunch' : ((s.landedAt c ch dst rest).core dst).launch = some m.launch := by
    rw [hcore]
    exact hlaunch
  have hexec := exec_messageArrival bad hdst hflight
  rw [hctx, hlive, hgen, hlaunch', beq_self_eq_true, beq_self_eq_true] at hexec
  refine ⟨_, hexec.trans (congrArg Host.Outcome.next (if_pos rfl)), ?_⟩
  have hlatched : ((s.landedAt c ch dst rest).modCore dst fun x =>
      ({ x with inbox := x.inbox ++ [(ch, { m with bad := m.bad || bad })] }).latchBit m.slot 0).core dst =
      ({ (s.landedAt c ch dst rest).core dst with inbox := ((s.landedAt c ch dst rest).core dst).inbox ++ [(ch, { m with bad := m.bad || bad })] } : Core).setCtx
        m.slot { s.ctx dst m.slot with latch := (s.ctx dst m.slot).latch ||| 1 } := by
    refine (State.core_modCore ..).trans ?_
    unfold Core.latchBit
    dsimp only
    rw [show ({ (s.landedAt c ch dst rest).core dst with inbox := ((s.landedAt c ch dst rest).core dst).inbox ++
      [(ch, { m with bad := m.bad || bad })] } : Core).ctx m.slot = s.ctx dst m.slot from hctx, hlive]
    rfl
  refine ⟨?_, ?_, ?_, rfl⟩
  · rw [hlatched, hcore]
    rfl
  · rw [State.ctx, hlatched, Core.ctx_setCtx]
  · rw [hlatched, hcore]
    rfl

theorem messageArrival_dead (bad : Bool) (hdst : s.chanDst c ch = some (dst, dcl)) (hflight : ((s.core c).chans.get ch).flight = m :: rest)
    (hdead : (s.ctx dst m.slot).live = false ∨ (s.ctx dst m.slot).gen ≠ m.gen ∨ (s.core dst).launch ≠ some m.launch) :
    ∃ t, exec (.messageArrival { core := c, bad } ch) s = .next t ∧ t.naks = s.naks ++ [{ dst := m.src, ch := m.srcCh, launch := m.launch }] ∧
      (t.core dst).inbox = (s.core dst).inbox ∧ (t.core dst).deadl = satAdd32 (s.core dst).deadl 1 := by
  obtain ⟨chans, hcore⟩ := s.landedAt_core c ch dst rest
  have hctx : ((s.landedAt c ch dst rest).core dst).ctx m.slot = s.ctx dst m.slot := by
    rw [hcore]
    rfl
  have hlaunch : ((s.landedAt c ch dst rest).core dst).launch = (s.core dst).launch := by rw [hcore]
  have hexec := exec_messageArrival bad hdst hflight
  rw [hctx, hlaunch] at hexec
  have hrefused : ((s.ctx dst m.slot).live && (s.ctx dst m.slot).gen == m.gen && (s.core dst).launch == some m.launch) = false := by
    obtain h | h | h := hdead
    · rw [h, Bool.false_and, Bool.false_and]
    · rw [beq_false_of_ne h, Bool.and_false, Bool.false_and]
    · rw [beq_false_of_ne h, Bool.and_false]
  rw [hrefused] at hexec
  refine ⟨_, hexec.trans (congrArg Host.Outcome.next (if_neg Bool.false_ne_true)), ?_⟩
  have hnaks : (s.landedAt c ch dst rest).naks = s.naks := rfl
  generalize s.landedAt c ch dst rest = u at hcore hnaks
  have hfree : ∃ chans, (u.freeSlot m).core dst = { u.core dst with chans := chans } := by
    unfold State.freeSlot
    dsimp only
    split
    · by_cases h : dst = coreOf m.src
      · rw [← h, State.core_modCore]
        exact ⟨_, rfl⟩
      · rw [State.core_modCore_ne _ _ h]
        exact ⟨_, rfl⟩
    · exact ⟨_, rfl⟩
  obtain ⟨chans', hfree⟩ := hfree
  have hdeadcore : (u.deadLetter dst m).core dst = { u.core dst with chans := chans', deadl := satAdd32 (u.core dst).deadl 1, sent := (u.core dst).sent + 1 } := by
    refine (State.core_modCore (u.freeSlot m) dst fun x => { x with deadl := satAdd32 x.deadl 1, sent := x.sent + 1 } :).trans ?_
    rw [hfree]
  refine ⟨?_, ?_, ?_⟩
  · show (u.freeSlot m).naks ++ _ = _
    rw [← hnaks]
    unfold State.freeSlot
    dsimp only
    split <;> rfl
  · rw [hdeadcore, hcore]
  · rw [hdeadcore, hcore]

theorem exec_nakArrival_none (h : ∀ n ∈ s.naks, n.dst ≠ c.val ∨ n.ch ≠ ch) : exec (.nakArrival c ch) s = .next s := by
  show Host.Outcome.next (s.arriveNak c ch) = _
  unfold State.arriveNak
  dsimp only
  split
  next => rfl
  next n hfind =>
    have hmatch := List.find?_some hfind
    rw [Bool.and_eq_true, Bool.and_eq_true, beq_iff_eq, beq_iff_eq] at hmatch
    obtain ⟨⟨hdst, hch⟩, -⟩ := hmatch
    exact ((h n (List.mem_of_find?_eq_some hfind)).elim (· hdst) (· hch)).elim

theorem nakArrival_taken {n : Nak} (hnaks : s.naks = [n]) (hdst : n.dst = c.val) (hch : n.ch = ch) (hlaunch : (s.core c).launch = some n.launch)
    (hlive : ∀ l ∈ s.launches, l.phase = .live) (hring : wbits (s.core c).msgRing 63 1 = 0) :
    ∃ t, exec (.nakArrival c ch) s = .next t ∧ t.naks = [] ∧ ((t.core c).chans.get ch).nak = true ∧
      (t.core c).rcvd = (s.core c).rcvd + 1 ∧ t.mem = s.mem := by
  have hhere : ((s.findLaunch (s.partOf c) n.launch).any (·.phase == .preempted)) = false := by
    cases hfind : s.findLaunch (s.partOf c) n.launch with
    | none => rfl
    | some l =>
      show (l.phase == .preempted) = false
      rw [hlive l (List.mem_of_find?_eq_some hfind)]
      rfl
  have hfind : s.naks.find? (fun n => n.dst == c.val && n.ch == ch && !(s.findLaunch (s.partOf c) n.launch).any (·.phase == .preempted)) = some n := by
    rw [hnaks]
    refine List.find?_cons_of_pos ?_
    rw [hhere, hdst, hch, beq_self_eq_true, beq_self_eq_true]
    rfl
  let u : State := ({ s with naks := s.naks.erase n } : State).modCore c fun x => { x.modChan ch (fun h => { h with nak := true }) with rcvd := x.rcvd + 1 }
  have hcore : u.core c = { (s.core c).modChan ch (fun h => { h with nak := true }) with rcvd := (s.core c).rcvd + 1 } :=
    State.core_modCore ..
  have hexec : exec (.nakArrival c ch) s = .next u := by
    show Host.Outcome.next (s.arriveNak c ch) = _
    unfold State.arriveNak
    dsimp only
    rw [hfind]
    dsimp only
    refine congrArg Host.Outcome.next ((if_neg (not_not_intro hlaunch)).trans (if_neg ?_))
    rw [State.core_modCore]
    refine fun h => absurd (h.symm.trans hring) ?_
    decide
  refine ⟨u, hexec, ?_, ?_, ?_, rfl⟩
  · show s.naks.erase n = []
    rw [hnaks, List.erase_cons_head]
  · rw [hcore]
    show (((s.core c).chans.set ch.val _ ch.isLt).get ch).nak = true
    rw [vector_get_set, if_pos rfl]
  · rw [hcore]

end

/-! ## Deferred receives -/

section
variable {s s1 : State} {c : CoreId} {k : SlotId} {r : DRecv} {rest : List DRecv} {p : Fin 16 × Message}

theorem exec_deferredReceive_none (h : (s.ctx c k).drecvs = []) : exec (.deferredReceive c k) s = .next s := by
  show Host.Outcome.next (s.within c k State.deferredReceive) = _
  unfold State.within State.deferredReceive
  rw [show (s.focus c k).me.drecvs = [] from h]
  rfl

theorem exec_deferredReceive (hrecv : (s.ctx c k).drecvs = r :: rest) (hmsg : (s.core c).nextMessage r.ch k = some p)
    (hacq : AcquireFree (s.focus c k) r.sc) (hstore : (s.focus c k).storeMessage r.win r.ea p = .ok s1) :
    exec (.deferredReceive c k) s = .next ((((s1.modMe fun t => { t with drecvs := t.drecvs.erase r }).deliver s1.cur r.ref
      (BitVec.ofNat 64 (p.2.lcore * 256 + p.2.srcSlot.val))).acquired r.sc).focus s.cur s.slot) := by
  have hdo : (do (s.focus c k).acquireGate r.sc; (s.focus c k).storeMessage r.win r.ea p : Res State) = .ok s1 :=
    except_bind_eq (State.acquireGate_of_acquireFree hacq) hstore
  show Host.Outcome.next (s.within c k State.deferredReceive) = _
  unfold State.within State.deferredReceive
  rw [show (s.focus c k).me.drecvs = r :: rest from hrecv]
  dsimp only
  rw [show (s.focus c k).myCore.nextMessage r.ch (s.focus c k).slot = some p from hmsg]
  dsimp only
  rw [hdo]
  rfl

theorem exec_deferredReceive_of_reached {a : Acc} (hrecv : (s.ctx c k).drecvs = r :: rest) (hmsg : (s.core c).nextMessage r.ch k = some p)
    (hacq : AcquireFree (s.focus c k) r.sc) (hreach : Reached (s.focus c k) .store r.win r.ea 64 .store a) :
    let f := s.focus c k
    let u := (performed f a .store).write f.self a.keys p.2.payload
    let s1 := (if p.2.bad then u.poisonGranules (a.keys.map (· / 32)).dedup else u).takeMessage f.cur p
    exec (.deferredReceive c k) s = .next ((((s1.modMe fun t => { t with drecvs := t.drecvs.erase r }).deliver s1.cur r.ref
      (BitVec.ofNat 64 (p.2.lcore * 256 + p.2.srcSlot.val))).acquired r.sc).focus s.cur s.slot) :=
  exec_deferredReceive hrecv hmsg hacq (State.storeMessage_of_reached hreach p)

end

/-! ## Parked accesses -/

section
variable {s : State} {c : CoreId} {k : SlotId} {p : Parked} {rest : List Parked}

theorem exec_parkedReplay_none (h : (s.ctx c k).replayQ = []) : exec (.parkedReplay c k) s = .next s := by
  show Host.Outcome.next (s.within c k State.replayOldest) = _
  unfold State.within State.replayOldest
  rw [show (s.focus c k).me.replayQ = [] from h]
  rfl

theorem exec_parkedReplay_store {a : Acc} (hq : (s.ctx c k).replayQ = p :: rest) (hkind : p.kind = .store)
    (hres : (s.focus c k).resolve .store p.win p.va p.bytes p.bytes = .ok a) (hvq : (s.ctx c k).vqTouches a.keys = false)
    (hfree : (s.focus c k).demand (.ofCore c) a .store = none) :
    let s1 := performed (s.focus c k) a .store
    exec (.parkedReplay c k) s = .next (((s1.modMe fun t => { t with replayQ := rest }).writeAcc a p.bytes
      (p.data.toNat % 2 ^ (8 * p.bytes))).focus s.cur s.slot) := by
  intro s1
  have hreq : (s.focus c k).request a .store = .ok s1 := by
    unfold State.request
    rw [show (s.focus c k).demand (.ofCore (s.focus c k).cur) a .store = none from hfree]
    rfl
  have hstore : p.acquires = false := by
    unfold Parked.acquires
    rw [hkind]
  have hwait : waitFor (!(s.focus c k).me.vqTouches a.keys) = .ok () := by
    rw [waitFor_ok, show (s.focus c k).me.vqTouches a.keys = false from hvq]
    rfl
  have hdo (f : State → State) : (do waitFor (!(s.focus c k).me.vqTouches a.keys); let s ← (s.focus c k).request a .store; .ok (f s) : Res State) =
      .ok (f s1) := except_bind_eq (a := ()) hwait (except_bind_eq hreq rfl)
  show Host.Outcome.next (s.within c k State.replayOldest) = _
  unfold State.within State.replayOldest
  rw [show (s.focus c k).me.replayQ = p :: rest from hq]
  dsimp only
  rw [hstore, Bool.false_and, if_neg Bool.false_ne_true, hkind]
  dsimp only
  rw [hres]
  dsimp only
  rw [hdo fun s => (s.modMe fun t => { t with replayQ := rest }).writeAcc a p.bytes (p.data.toNat % 2 ^ (8 * p.bytes))]

/-- With no launch saved, nothing answers for a core whose launch is away. -/
theorem State.modSaved_of_no_saves {q : Core → Bool} {f : Core → Core} {outside : Bool} (h : s.saves = []) :
    s.modSaved c q f outside = s := by
  have hsaved : s.savedAt c q = none := by
    unfold State.savedAt
    rw [h, List.findSome?_nil]
  fun_cases State.modSaved s c q f outside with
  | case1 => rfl
  | case2 l n x hsome => exact absurd (hsome.symm.trans hsaved) (Option.some_ne_none _)
  | case3 l n x hsome => exact absurd (hsome.symm.trans hsaved) (Option.some_ne_none _)
  | case4 l n x hsome => exact absurd (hsome.symm.trans hsaved) (Option.some_ne_none _)

theorem exec_mappingRejected_none {va : Word} (h : ∀ p ∈ (s.ctx c k).replayQ, vaPage p.va ≠ vaPage va) (hsaves : s.saves = []) :
    exec (.mappingRejected c k va) s = .next s := by
  have hparked : (s.core c).parkedAt k va = false :=
    List.any_eq_false.2 fun p hp => by
      rw [beq_iff_eq]
      exact h p hp
  show Host.Outcome.next (s.rejectMapping c k va) = _
  unfold State.rejectMapping
  rw [hparked, if_neg Bool.false_ne_true, State.modSaved_of_no_saves hsaves]

theorem exec_mappingRejected {va : Word} (hq : (s.ctx c k).replayQ = p :: rest) (hpage : vaPage p.va = vaPage va) :
    exec (.mappingRejected c k va) s = .next (((s.focus c k).rejectPage .translation p.va).focus s.cur s.slot) := by
  have hparked : (s.core c).parkedAt k va = true := by
    unfold Core.parkedAt
    rw [show ((s.core c).ctx k).replayQ = p :: rest from hq, List.any_cons, hpage, beq_self_eq_true, Bool.true_or]
  have hfind : (s.focus c k).me.replayQ.find? (fun p => vaPage p.va == vaPage va) = some p := by
    rw [show (s.focus c k).me.replayQ = p :: rest from hq]
    exact List.find?_cons_of_pos (beq_iff_eq.2 hpage)
  show Host.Outcome.next (s.rejectMapping c k va) = _
  unfold State.rejectMapping State.within State.mappingRejected
  rw [hparked, if_pos rfl]
  dsimp only
  rw [hfind]

end

end Sys2Proof.Machine
end

section
/-! PROOF. O53: torus words, gathers and the fetch port (R227, R233, R259, R260). -/

namespace Sys2Proof.Machine
open Stmt

/-! ## The torus -/

section
variable {s : State} {c : CoreId} {dir : Sys2Proof.Dir} {w : TorusWord} {rest : List TorusWord}

theorem exec_torusWordLand_early (hwires : (s.core c).wires = w :: rest) (hearly : s.cycleOf c < w.lands) (hrest : rest = []) :
    exec (.torusWordLand c dir) s = .next s := by
  have hfind : (s.core c).wires.find? (fun w => w.dir == dir && decide (w.lands ≤ s.cycleOf c)) = none := by
    rw [hwires, hrest, List.find?_cons_of_neg, List.find?_nil]
    rw [decide_eq_false (Nat.not_le_of_lt hearly), Bool.and_false]
    exact Bool.false_ne_true
  show Host.Outcome.next (s.landTorus c dir) = _
  unfold State.landTorus
  rw [hfind]

theorem torusWordLand_due (hwires : (s.core c).wires = w :: rest) (hdir : w.dir = dir) (hdue : w.lands ≤ s.cycleOf c) :
    ∃ t, exec (.torusWordLand c dir) s = .next t ∧ (t.core c).wires = rest ∧ t.mem = s.mem ∧
      (w.launch = (s.core c).launch → (t.core c).latches.get dir.opposite = w.v) ∧
      (w.launch ≠ (s.core c).launch → (t.core c).latches = (s.core c).latches) := by
  have hfind : (s.core c).wires.find? (fun w => w.dir == dir && decide (w.lands ≤ s.cycleOf c)) = some w := by
    rw [hwires, List.find?_cons_of_pos]
    rw [hdir, beq_self_eq_true, decide_eq_true hdue]
    rfl
  have hexec : exec (.torusWordLand c dir) s = .next (s.modCore c fun x => x.land w) := by
    show Host.Outcome.next (s.landTorus c dir) = _
    unfold State.landTorus
    rw [hfind]
  have hcore : (s.modCore c fun x => x.land w).core c = (s.core c).land w := State.core_modCore ..
  have hwires' : (s.core c).wires.erase w = rest := by rw [hwires, List.erase_cons_head]
  refine ⟨_, hexec, ?_, rfl, fun h => ?_, fun h => ?_⟩
  · rw [hcore]
    unfold Core.land
    dsimp only
    split <;> exact hwires'
  · rw [hcore]
    unfold Core.land
    dsimp only
    rw [if_pos h]
    exact (vector_get_set ..).trans (if_pos (congrArg Dir.opposite hdir).symm)
  · rw [hcore]
    unfold Core.land
    dsimp only
    rw [if_neg h]

end

/-! ## Gathers -/

/-- What the end of a gather does on one core (R233). -/
def State.gatherOn (l : Launch) (rec' : List Byte) (s : State) (p : CoreId × Option (SlotId × Nat × Nat × Word × List Nat)) : State :=
  match p.2 with
  | none => s
  | some (k, _, off, next, _) =>
    (match s.windowKeys p.1 l .G off 64 with
      | some ks => s.write none ks rec'
      | none => s).modCtx p.1 k fun t => { t with pc := next, run := .ready }

section
variable {s : State} {l : Launch} {rec' : List Byte}

theorem State.gatherOn_core_ne {p : CoreId × Option (SlotId × Nat × Nat × Word × List Nat)} {c : CoreId} (h : c ≠ p.1) :
    (s.gatherOn l rec' p).core c = s.core c := by
  unfold State.gatherOn
  split
  next => rfl
  next k _ off next _ _ =>
    rw [State.modCtx_eq_modCore, State.core_modCore_ne _ _ h]
    split
    next => exact State.write_core _ _ _ _ c
    next => rfl

theorem State.gatherOn_ctx (c : CoreId) (k : SlotId) (seq off : Nat) (next : Word) (cs : List Nat) :
    ((s.gatherOn l rec' (c, some (k, seq, off, next, cs))).ctx c k).pc = next ∧
      ((s.gatherOn l rec' (c, some (k, seq, off, next, cs))).ctx c k).run = .ready := by
  unfold State.gatherOn
  dsimp only
  rw [State.ctx, State.modCtx_eq_modCore, State.core_modCore, Core.ctx_setCtx]
  exact ⟨rfl, rfl⟩

/-- A core's place in a gather is left as the step on that core leaves it. -/
theorem State.foldl_gatherOn_ctx (c : CoreId) (k : SlotId) (seq off : Nat) (next : Word) (cs : List Nat) :
    ∀ (ps : List (CoreId × Option (SlotId × Nat × Nat × Word × List Nat))) (s : State), (ps.map Prod.fst).Nodup →
      (c, some (k, seq, off, next, cs)) ∈ ps →
      ((ps.foldl (State.gatherOn l rec') s).ctx c k).pc = next ∧ ((ps.foldl (State.gatherOn l rec') s).ctx c k).run = .ready := by
  have hrest (ps : List (CoreId × Option (SlotId × Nat × Nat × Word × List Nat))) :
      ∀ s : State, c ∉ ps.map Prod.fst → (ps.foldl (State.gatherOn l rec') s).core c = s.core c := by
    induction ps with
    | nil => exact fun _ _ => rfl
    | cons p ps ih =>
      intro s h
      rw [List.map_cons, List.mem_cons, not_or] at h
      exact (ih _ h.2).trans (State.gatherOn_core_ne h.1)
  intro ps
  induction ps with
  | nil => exact fun _ _ h => absurd h List.not_mem_nil
  | cons p ps ih =>
    intro s hnodup hmem
    rw [List.map_cons, List.nodup_cons] at hnodup
    obtain ⟨hfst, hnodup⟩ := hnodup
    obtain rfl | hmem := List.mem_cons.1 hmem
    · rw [List.foldl_cons, State.ctx, hrest ps _ hfst]
      exact State.gatherOn_ctx c k seq off next cs
    · exact ih _ hnodup hmem

theorem exec_gatherComplete {n : Nat} (hl : s.launchAt n = some l) (hlive : l.phase = .live) (hall : ∀ k ∈ l.cores, ((s.core (coreOf k)).gathering).isSome) :
    ∃ rec', exec (.gatherComplete n) s =
      .next ((l.cores.map fun n => (coreOf n, (s.core (coreOf n)).gathering)).foldl (State.gatherOn l rec') s) := by
  refine ⟨gatherRecord ((l.cores.map fun n => (coreOf n, (s.core (coreOf n)).gathering)).filterMap fun p => p.2.map fun g => g.2.2.2.2), ?_⟩
  have hjoined : (l.cores.map fun n => (coreOf n, (s.core (coreOf n)).gathering)).any (fun p => p.2.isNone) = false := by
    rw [List.any_eq_false]
    intro p hp
    obtain ⟨k, hk, rfl⟩ := List.mem_map.1 hp
    rw [Option.isNone_iff_eq_none, ← Option.not_isSome_iff_eq_none, not_not]
    exact hall k hk
  show Host.Outcome.next (s.gatherComplete n) = _
  unfold State.gatherComplete
  rw [hl]
  dsimp only
  rw [hlive, hjoined]
  rfl

theorem exec_gatherComplete_waits {n : Nat} (hl : s.launchAt n = some l) (hmissing : ∃ k ∈ l.cores, (s.core (coreOf k)).gathering = none) :
    exec (.gatherComplete n) s = .next s := by
  obtain ⟨k, hk, hnone⟩ := hmissing
  have hjoined : (l.cores.map fun n => (coreOf n, (s.core (coreOf n)).gathering)).any (fun p => p.2.isNone) = true := by
    rw [List.any_eq_true]
    exact ⟨_, List.mem_map.2 ⟨k, hk, rfl⟩, Option.isNone_iff_eq_none.2 hnone⟩
  show Host.Outcome.next (s.gatherComplete n) = _
  unfold State.gatherComplete
  rw [hl]
  dsimp only
  rw [hjoined, Bool.or_true, if_pos rfl]

theorem gatherComplete_goes {n : Nat} (hl : s.launchAt n = some l) (hlive : l.phase = .live) (hnodup : (l.cores.map coreOf).Nodup)
    (hall : ∀ k ∈ l.cores, ((s.core (coreOf k)).gathering).isSome) :
    ∃ t, exec (.gatherComplete n) s = .next t ∧ ∀ k ∈ l.cores, ∀ sl seq off next cs,
      (s.core (coreOf k)).gathering = some (sl, seq, off, next, cs) → (t.ctx (coreOf k) sl).pc = next ∧ (t.ctx (coreOf k) sl).run = .ready := by
  obtain ⟨rec', hexec⟩ := exec_gatherComplete hl hlive hall
  refine ⟨_, hexec, fun k hk sl seq off next cs hg => ?_⟩
  refine State.foldl_gatherOn_ctx (coreOf k) sl seq off next cs _ s ?_ (List.mem_map.2 ⟨k, hk, by rw [hg]⟩)
  rwa [List.map_map]

end

/-! ## The fetch port -/

/-- A core that a delivery of the fetch port has served: it holds the block and asks for none. -/
def Core.Served (x : Core) (b : FetchBlock) : Prop := b ∈ x.fetched ∧ x.fetched.length ≤ 2 ∧ x.fetching = none

section
variable {s : State} {c : CoreId} {b : FetchBlock}

theorem Core.buffer_served (x : Core) (h : x.fetching = none) : (x.buffer b).Served b := by
  refine ⟨?_, ?_, h⟩
  · show b ∈ (b :: _).take 2
    rw [List.take_succ_cons]
    exact List.mem_cons_self
  · exact List.length_take_le 2 _

theorem State.portDone_served : ∀ (cs : List CoreId) (s : State), (s.core c).Served b ∨ c ∈ cs → ((s.portDone cs (some b)).core c).Served b := by
  intro cs
  induction cs with
  | nil => exact fun s h => h.elim id fun h => absurd h List.not_mem_nil
  | cons k ks ih =>
    intro s h
    refine ih (s.modCore k fun x => ({ x with fetching := none } : Core).buffer b) ?_
    by_cases hk : c = k
    · left
      rw [hk, State.core_modCore]
      exact Core.buffer_served _ rfl
    · rw [State.core_modCore_ne _ _ hk]
      exact h.imp_right fun hmem => (List.mem_cons.1 hmem).resolve_left hk

theorem mem_portShare (s : State) (c : CoreId) (va : Word) (a : Acc) : c ∈ s.portShare c va a := by
  unfold State.portShare
  dsimp only
  rw [List.mem_filter, beq_self_eq_true, Bool.true_or]
  refine ⟨List.mem_map.2 ⟨c.val % 8, List.mem_range.2 (Nat.mod_lt _ (by decide)), ?_⟩, rfl⟩
  rw [Nat.div_add_mod']
  exact Fin.ext (Nat.mod_eq_of_lt c.isLt)

theorem exec_fetchPortServe_other {va : Word} (h : s.portChoice (c.val / 8) ≠ some (c, BitVec.ofNat 64 (va.toNat / 32 * 32))) :
    exec (.fetchPortServe c va) s = .next s := congrArg Host.Outcome.next (if_neg h)

theorem fetchPortServe_served {va : Word} {a : Acc} :
    let w := BitVec.ofNat 64 (va.toNat / 32 * 32)
    s.portChoice (c.val / 8) = some (c, w) → s.fetchAcc c w 32 = .ok a → s.demand (.ofCore c) a .read = none →
      ∃ t b, exec (.fetchPortServe c va) s = .next t ∧ b ∈ (t.core c).fetched ∧ b.va = w.toNat ∧
        b.words = (List.range 8).map (fun i => BitVec.ofNat 32 (leNat (((s.bytesAt a.keys).drop (4 * i)).take 4))) ∧
        (t.core c).fetched.length ≤ 2 ∧ (t.core c).fetching = none ∧ t.mem = s.mem := by
  intro w hchoice hacc hfree
  let u := s.portPassed c.cluster c
  let v := u.arrive (.ofCore c) a .read
  let b : FetchBlock := { va := w.toNat, words := (List.range 8).map fun i => BitVec.ofNat 32 (field (v.bytesAt a.keys) (4 * i) 4),
                          bad := v.poisoned a.keys || v.quarantined a.keys }
  have hmem : v.mem = s.mem := State.arrive_mem u (.ofCore c) a .read
  have hexec : exec (.fetchPortServe c va) s = .next (v.portDone (u.portShare c w a) (some b)) := by
    refine congrArg Host.Outcome.next ((if_pos hchoice).trans ?_)
    unfold State.fetchServe
    rw [show s.portChoice c.cluster = some (c, w) from hchoice]
    dsimp only
    rw [show (s.portPassed c.cluster c).fetchAcc c w 32 = .ok a from hacc]
    dsimp only
    have hpassed : (s.portPassed c.cluster c).demand (.ofCore c) a .read = none :=
      State.demand_none_congr (s := s) rfl rfl rfl (fun _ => rfl) rfl hfree
    rw [hpassed]
  obtain ⟨hblock, hlen, hask⟩ := State.portDone_served (c := c) (b := b) (u.portShare c w a) v (.inr (mem_portShare ..))
  refine ⟨_, b, hexec, hblock, rfl, ?_, hlen, hask, (State.portDone_mem v _ _).trans hmem⟩
  show (List.range 8).map (fun i => BitVec.ofNat 32 (field (v.bytesAt a.keys) (4 * i) 4)) = _
  rw [State.bytesAt, hmem]
  rfl

end

end Sys2Proof.Machine
end

section
/-! PROOF. O53: asynchronous traps at a context's boundary and to the runtime alone (R376, R378). -/

namespace Sys2Proof.Machine
open Stmt

theorem exec_asyncTrap_none {s : State} (h : s.asyncs = []) : exec .asyncTrap s = .next s := by
  show Host.Outcome.next s.asyncTrap = _
  unfold State.asyncTrap
  rw [h, List.find?_nil]

section
variable {s : State} {a : AsyncRep} {rest : List AsyncRep} {l : Launch}

/-- The context that an asynchronous trap is for does not take it. -/
def State.AsyncUntaken (s : State) (a : AsyncRep) (l : Launch) : Prop :=
  let t := s.ctx (coreOf (l.cores.getD a.rank 0)) a.slot
  t.live = false ∨ t.gen ≠ a.gen ∨ t.mode = .h ∨ l.trapVec = 0

theorem State.untaken_iff (s : State) (a : AsyncRep) (l : Launch) :
    s.AsyncUntaken a l ↔ (let t := s.ctx (coreOf (l.cores.getD a.rank 0)) a.slot
      (!t.live || t.gen != a.gen || t.mode == .h || l.trapVec == 0) = true) := by
  unfold State.AsyncUntaken
  dsimp only
  rw [Bool.or_eq_true, Bool.or_eq_true, Bool.or_eq_true, Bool.not_eq_true', bne_iff_ne, beq_iff_eq, beq_iff_eq, or_assoc, or_assoc]

theorem State.asyncHeld_eq_false (hfind : s.findLaunch a.part a.launch = some l) (hlive : l.phase = .live)
    (h : s.AsyncUntaken a l ∨ (s.ctx (coreOf (l.cores.getD a.rank 0)) a.slot).atBoundary = true) : s.asyncHeld a = false := by
  have hphase : (l.phase != .live) = false := by
    rw [hlive]
    rfl
  unfold State.asyncHeld
  rw [hfind]
  dsimp only
  rw [hphase, Bool.false_or]
  obtain h | h := h
  · have huntaken := (s.untaken_iff a l).1 h
    dsimp only at huntaken
    generalize s.ctx (coreOf (l.cores.getD a.rank 0)) a.slot = t at huntaken
    rw [← Bool.not_eq_true', Bool.not_and, Bool.not_and, Bool.not_and, Bool.not_and, bne, bne, Bool.not_not, Bool.not_not, ← bne, huntaken, Bool.true_or]
  · rw [h, Bool.not_true, Bool.and_false]

theorem exec_asyncTrap (hasyncs : s.asyncs = a :: rest) (hfind : s.findLaunch a.part a.launch = some l) (hlive : l.phase = .live)
    (h : s.AsyncUntaken a l ∨ (s.ctx (coreOf (l.cores.getD a.rank 0)) a.slot).atBoundary = true) :
    exec .asyncTrap s = .next (({ s with asyncs := rest } : State).deliverAsync a) := by
  have hfirst : s.asyncs.find? (fun a => !s.asyncHeld a) = some a := by
    rw [hasyncs, List.find?_cons_of_pos]
    rw [State.asyncHeld_eq_false hfind hlive h]
    rfl
  have herase : s.asyncs.erase a = rest := by rw [hasyncs, List.erase_cons_head]
  show Host.Outcome.next s.asyncTrap = _
  unfold State.asyncTrap
  rw [hfirst]
  dsimp only
  rw [herase]

theorem asyncTrap_taken (hasyncs : s.asyncs = a :: rest) (hfind : s.findLaunch a.part a.launch = some l) (hphase : l.phase = .live) :
    let c := coreOf (l.cores.getD a.rank 0)
    let s0 : State := { s with asyncs := rest }
    let s1 := (s0.modCtx c a.slot Ctx.endStall).focus c a.slot
    (s.ctx c a.slot).live = true → (s.ctx c a.slot).gen = a.gen → (s.ctx c a.slot).mode ≠ .h → (s.ctx c a.slot).atBoundary = true →
      l.trapVec ≠ 0 → exec .asyncTrap s = .next ((s1.takeTrap a.info).focus s.cur s.slot) := by
  intro c s0 s1 hlive hgen hmode hboundary hvec
  have huntaken : ¬s.AsyncUntaken a l := by
    rintro (h | h | h | h)
    · exact Bool.false_ne_true (h.symm.trans hlive)
    · exact h hgen
    · exact hmode h
    · exact hvec h
  refine (exec_asyncTrap hasyncs hfind hphase (.inr hboundary)).trans (congrArg Host.Outcome.next ?_)
  unfold State.deliverAsync
  rw [show s0.findLaunch a.part a.launch = some l from hfind]
  exact if_neg (mt (s.untaken_iff a l).2 huntaken)

theorem asyncRecord_eq (s : State) (a : AsyncRep) (c : CoreId) (x : Core) :
    ∃ (u : State) (b : Bool) (pc : Word), s.asyncRecord a c x = trapRecord u { a.info with noWord := b } false pc ∧
      u.slot = a.slot ∧ u.myCore.launch = some a.launch := by
  refine ⟨_, _, _, rfl, rfl, ?_⟩
  exact congrArg Core.launch (State.core_setCore ..)

/-- One byte of a record, from the field of one byte that stands there. -/
theorem getD_of_slice {r : List Byte} {i v : Nat} (h : (r.drop i).take 1 = leBytes 1 v) : r.getD i 0 = BitVec.ofNat 8 v := by
  have hhead : (r.drop i).head? = some (BitVec.ofNat 8 v) := by
    rw [show leBytes 1 v = [BitVec.ofNat 8 v] from rfl] at h
    rw [← List.take_append_drop 1 (r.drop i), h]
    rfl
  rw [List.getD_eq_getElem?_getD, ← List.head?_drop, hhead, Option.getD_some]

theorem trapRecord_slices (s : State) (t : TrapInfo) (fatal : Bool) (pc : Word) :
    let r := trapRecord s t fatal pc
    r.length = 64 ∧ r.getD 0 0 = BitVec.ofNat 8 t.cause.code ∧ r.getD 2 0 = BitVec.ofNat 8 s.slot.val ∧
      (r.drop 16).take 8 = leBytes 8 (s.myCore.launch.getD 0) ∧ (r.drop 32).take 8 = leBytes 8 t.addr.toNat ∧
      (r.drop 44).take 4 = leBytes 4 (t.async.getD 0) := by
  intro r
  have hslice (k off n v : Nat) (hk : (trapFields s t fatal pc)[k]? = some (n, v)) (hoff : (trapWidths.take k).sum = off) :
      (r.drop off).take n = leBytes n v := by
    show ((trapRecord s t fatal pc).drop off).take n = leBytes n v
    rw [trapRecord_eq]
    refine fieldBytes_slice _ hk ?_
    rw [List.map_take, map_fst_trapFields, hoff]
  exact ⟨length_trapRecord s t fatal pc, getD_of_slice (hslice 0 0 1 _ rfl rfl), getD_of_slice (hslice 2 2 1 _ rfl rfl),
    hslice 10 16 8 _ rfl rfl, hslice 12 32 8 _ rfl rfl, hslice 14 44 4 _ rfl rfl⟩

theorem asyncTrap_toRuntime (hasyncs : s.asyncs = a :: rest) (hfind : s.findLaunch a.part a.launch = some l) (hphase : l.phase = .live) :
    let c := coreOf (l.cores.getD a.rank 0)
    let s0 : State := { s with asyncs := rest }
    (s.ctx c a.slot).live = false ∨ (s.ctx c a.slot).gen ≠ a.gen ∨ (s.ctx c a.slot).mode = .h ∨ l.trapVec = 0 →
      ∃ rec' : List Byte, exec .asyncTrap s = .next { s0 with out := .trap rec' :: s.out } ∧ rec'.length = 64 ∧
        rec'.getD 0 0 = BitVec.ofNat 8 a.cause.code ∧ rec'.getD 2 0 = BitVec.ofNat 8 a.slot.val ∧
        (rec'.drop 16).take 8 = leBytes 8 a.launch ∧ (rec'.drop 32).take 8 = leBytes 8 a.addr.toNat ∧
        (rec'.drop 44).take 4 = leBytes 4 a.handle := by
  intro c s0 huntaken
  have huntaken : s.AsyncUntaken a l := huntaken
  have hdeliver : s0.deliverAsync a = s0.toRuntime a c (s0.core c) := by
    unfold State.deliverAsync
    rw [show s0.findLaunch a.part a.launch = some l from hfind]
    exact if_pos ((s.untaken_iff a l).1 huntaken)
  obtain ⟨u, b, pc, hrecord, hslot, hlaunch⟩ := asyncRecord_eq s0 a c (s0.core c)
  obtain ⟨hlen, hcode, hslotByte, hlaunchBytes, haddr, hhandle⟩ := trapRecord_slices u { a.info with noWord := b } false pc
  rw [hslot] at hslotByte
  rw [hlaunch] at hlaunchBytes
  refine ⟨s0.asyncRecord a c (s0.core c),
    ((exec_asyncTrap hasyncs hfind hphase (.inl huntaken)).trans (congrArg Host.Outcome.next hdeliver)), ?_⟩
  rw [hrecord]
  exact ⟨hlen, hcode, hslotByte, hlaunchBytes, haddr, hhandle⟩

end

end Sys2Proof.Machine
end

section
/-! PROOF. O53: the drill's jobs (R268 to R278, R354), and the assembly of the statement. -/

namespace Sys2Proof.Machine
open Stmt

/-! ## Jobs start, move and end -/

section
variable {s : State} {c : CoreId} {l : Launch} {j : Job} {rest : List Job}

theorem State.modCore_congr {f g : Core → Core} (h : f (s.core c) = g (s.core c)) : s.modCore c f = s.modCore c g :=
  congrArg (s.setCore c) h

theorem State.modCore_self {f : Core → Core} (h : f (s.core c) = s.core c) : s.modCore c f = s := by
  have hset : s.cores.set c.val (s.core c) c.isLt = s.cores := Vector.set_getElem_self ..
  rw [State.modCore, h, State.setCore, hset]

theorem exec_drill_none (bad : Bool) (h : (s.core c).jobs = []) : exec (.drillJobStart c) s = .next s ∧
    exec (.drillJobComplete c) s = .next s ∧ exec (.drillJobFault c) s = .next s ∧
    (s.drillNext (Fin.ofNat 128 c.cluster) = none → exec (.drillChunk { core := c, bad }) s = .next s) := by
  refine ⟨congrArg Host.Outcome.next ?_, congrArg Host.Outcome.next ?_, congrArg Host.Outcome.next ?_, fun hnone =>
    congrArg Host.Outcome.next ?_⟩
  · unfold State.jobStart
    rw [h]
  · unfold State.jobComplete
    rw [h]
  · unfold State.jobFault
    rw [h]
  · unfold State.drillChunk
    dsimp only
    rw [hnone]

theorem exec_drillJobStart (hjobs : (s.core c).jobs = j :: rest) (hl : s.launchOf c = some l) (hqueued : j.phase = .queued)
    (hlive : l.phase = .live) (hcbp : j.layout.cbp = false) (hcbc : j.layout.cbc = false) :
    exec (.drillJobStart c) s = .next (s.modCore c fun x => { x with jobs := { j with phase := .running 0 } :: rest }) := by
  refine congrArg Host.Outcome.next ?_
  unfold State.jobStart
  rw [hjobs, hl]
  dsimp only
  rw [hqueued, hlive, hcbp, hcbc, if_neg (by decide), Bool.or_false, if_neg Bool.false_ne_true]
  refine State.modCore_congr ?_
  unfold Core.modJob
  rw [hjobs]

theorem exec_drillChunk {i : Nat} (bad : Bool) (hjobs : (s.core c).jobs = j :: rest) (hl : s.launchOf c = some l)
    (hrunning : j.phase = .running i) (hnext : s.drillNext (Fin.ofNat 128 c.cluster) = some c) :
    let served := s.drillLast.set (Fin.ofNat 128 c.cluster).val (Fin.ofNat 8 c.val) (Fin.ofNat 128 c.cluster).isLt
    exec (.drillChunk { core := c, bad }) s = .next (({ s with drillLast := served } : State).moveChunk c l j i bad) := by
  intro served
  let u : State := { s with drillLast := served }
  have hjobs' : (u.core c).jobs = j :: rest := hjobs
  have hl' : u.launchOf c = some l := hl
  refine congrArg Host.Outcome.next ?_
  unfold State.drillChunk
  dsimp only
  rw [hnext]
  dsimp only
  rw [hjobs', hl']
  dsimp only
  rw [hrunning]

/-- The end of a job that no region waits for (R274, R354). -/
theorem State.endJob_of_no_region {status cause : Nat} {failed : Option (Cause × Word)} {r : SymRef} (hregion : j.region = none)
    (href : j.ref = some r) :
    s.endJob c l j status cause failed =
      (let t := (s.ringAdd c j.layout.ring (completionRecord status cause j.id.toNat
          (match j.slot with | some k => k.val | none => 255) j.bytes ((failed.map (·.2)).getD 0) (s.timeAt c))).modCore c fun x =>
        { x with jobs := x.jobs.tail, rcvd := x.rcvd + 1 }
      match failed with
      | some (_, a) => t.faultSym c r a
      | none => t.deliver c r (word (j.id.toNat * 2 ^ 48 + j.bytes % 2 ^ 48))) := by
  unfold State.endJob
  rw [hregion, href] <;> rfl

theorem exec_drillJobComplete {r : SymRef} (hjobs : (s.core c).jobs = j :: rest) (hl : s.launchOf c = some l) (hcopied : j.phase = .copied)
    (hbar : j.layout.bar = false) (hsig : j.layout.sig = false) (hcbp : j.layout.cbp = false) (hcbc : j.layout.cbc = false)
    (hregion : j.region = none) (href : j.ref = some r) :
    let t := s.ringAdd c j.layout.ring (completionRecord 0 (if j.poisoned then 0x17 else 0) j.id.toNat
      (match j.slot with | some k => k.val | none => 255) j.bytes 0 (s.timeAt c))
    exec (.drillJobComplete c) s = .next ((t.modCore c fun x => { x with jobs := x.jobs.tail, rcvd := x.rcvd + 1 }).deliver c r
      (BitVec.ofNat 64 (j.id.toNat * 2 ^ 48 + j.bytes % 2 ^ 48))) := by
  intro t
  have htokens : s.jobTokens c j = none := by
    unfold State.jobTokens
    rw [hsig]
    rfl
  have hsignal : s.jobSignal c l j.layout = .ok s := by
    unfold State.jobSignal
    rw [hsig]
    rfl
  refine congrArg Host.Outcome.next ?_
  unfold State.jobComplete
  rw [hjobs, hl]
  dsimp only
  rw [hcopied, htokens, hbar]
  dsimp only
  rw [if_neg Bool.false_ne_true]
  dsimp only
  rw [hsignal, hcbp, hcbc]
  dsimp only
  rw [State.modCore_self rfl, State.endJob_of_no_region hregion href]
  rfl

theorem exec_drillJobFault {r : SymRef} {cause : Cause} {a : Word} (hjobs : (s.core c).jobs = j :: rest) (hl : s.launchOf c = some l)
    (hfaulted : j.phase = .faulted cause a) (hregion : j.region = none) (href : j.ref = some r) :
    let t := s.ringAdd c j.layout.ring (completionRecord 2 cause.code j.id.toNat
      (match j.slot with | some k => k.val | none => 255) j.bytes a (s.timeAt c))
    exec (.drillJobFault c) s = .next ((t.modCore c fun x => { x with jobs := x.jobs.tail, rcvd := x.rcvd + 1 }).faultSym c r a) := by
  intro t
  refine congrArg Host.Outcome.next ?_
  unfold State.jobFault
  rw [hjobs, hl]
  dsimp only
  rw [hfaulted]
  dsimp only
  rw [State.endJob_of_no_region hregion href]
  rfl

end

/-! ## A copy from a window to a window -/

section
variable {s : State} {c : CoreId} {l : Launch} {j : Job} {w : Win} {off n : Nat}

theorem State.windowRun_of_no_pairs (hpairs : l.pairs = []) (hin : off + n ≤ l.split.size w) :
    s.windowRun l c w off n = .ok [lmAcc c w off (range (lmKey c w off) n)] := by
  rw [State.windowRun, State.windowKeys_of_no_pairs hpairs hin]
  rfl

/-- A layout of one row is one run. -/
theorem Layout.segs_of_row {x : Layout} (hn : 1 ≤ n) (hrlen : x.rlen = n) : x.segs n 0 n = [{ at_ := 0, row := 0, col := 0, n }] := by
  obtain ⟨m, rfl⟩ : ∃ m, n = m + 1 := ⟨n - 1, by omega⟩
  have hrest (lo : Nat) : x.segs m lo 0 = [] := by
    cases m <;> rfl
  unfold Layout.segs
  dsimp only
  rw [if_neg (Nat.succ_ne_zero m), hrlen, Nat.zero_mod, Nat.zero_div, Nat.sub_zero, Nat.min_self, Nat.sub_self, hrest]

theorem State.srcRuns_of_window (hcbc : j.layout.cbc = false) (hsp : j.layout.srcSp ≠ 0) (hpairs : l.pairs = [])
    (hin : j.layout.src.toNat + n ≤ l.split.size (winOf j.layout.srcSp)) :
    s.srcRuns l c j { at_ := 0, row := 0, col := 0, n } =
      .ok [lmAcc c (winOf j.layout.srcSp) j.layout.src.toNat (range (lmKey c (winOf j.layout.srcSp) j.layout.src.toNat) n)] := by
  unfold State.srcRuns
  dsimp only
  rw [hcbc, if_neg Bool.false_ne_true, if_neg hsp, Nat.zero_mul, Nat.add_zero]
  exact State.windowRun_of_no_pairs hpairs hin

theorem State.dstRuns_of_window (hdist : j.layout.dist = false) (hmcast : j.layout.mcast = false) (hcbp : j.layout.cbp = false)
    (hsp : j.layout.dstSp ∉ [0, 5, 6]) (hpairs : l.pairs = []) (hin : j.layout.dst.toNat + n ≤ l.split.size (winOf j.layout.dstSp)) :
    s.dstRuns l c j { at_ := 0, row := 0, col := 0, n } =
      .ok [(0, [lmAcc c (winOf j.layout.dstSp) j.layout.dst.toNat (range (lmKey c (winOf j.layout.dstSp) j.layout.dst.toNat) n)])] := by
  unfold State.dstRuns
  dsimp only
  rw [hdist, if_neg Bool.false_ne_true, hmcast, if_neg Bool.false_ne_true, hcbp, if_neg Bool.false_ne_true, Nat.zero_mul, Nat.add_zero,
    Nat.add_zero]
  split
  next h => exact absurd (h ▸ List.mem_cons_self) hsp
  next h => exact absurd (h ▸ List.mem_cons_of_mem _ List.mem_cons_self) hsp
  next h => exact absurd (h ▸ List.mem_cons_of_mem _ (List.mem_cons_of_mem _ List.mem_cons_self)) hsp
  next =>
    rw [State.windowRun_of_no_pairs hpairs hin]
    rfl

/-- What a write leaves in memory does not depend on the poison that comes with it. -/
theorem State.engineWrite_mem_poison (s : State) (ks : List Nat) (bs : List Byte) (bad : List Bool) :
    (s.engineWrite ks bs bad).mem = (s.engineWrite ks bs []).mem := by
  unfold State.engineWrite
  dsimp only
  rw [State.poisonGranules_mem, State.poisonGranules_mem]

theorem State.copyChunk_lm_mem {w1 w2 : Win} {a b : Nat} (next : JobPhase) (hdesc : j.layout.dstSp ≠ 6)
    (hquar : s.quarantined (range (lmKey c w2 b) n) = false) :
    (s.copyChunk c l j [[lmAcc c w1 a (range (lmKey c w1 a) n)]] [[(0, [lmAcc c w2 b (range (lmKey c w2 b) n)])]] next).mem =
      (s.write none (range (lmKey c w2 b) n) (s.bytesAt (range (lmKey c w1 a) n))).mem := by
  have hjob : s.jobDesc l j.layout = [] := if_neg hdesc
  let ks := range (lmKey c w2 b) n
  let bs := s.bytesAt (range (lmKey c w1 a) n)
  have hlen : bs.length = n := (List.length_map _).trans (length_range ..)
  have hbytes : (bs.drop 0).take ks.length = bs := by
    rw [List.drop_zero, length_range]
    exact List.take_of_length_le hlen.le
  have hwrite (bad : List Bool) : (s.engineWrite ks bs bad).mem = (s.write none ks bs).mem :=
    (s.engineWrite_mem_poison ks bs bad).trans (State.engineWrite_lm (by rw [hlen]) hquar).1
  have hread : s.engineArrive (From.ofEngine c) [lmAcc c w1 a (range (lmKey c w1 a) n)] .read = s := rfl
  have hwritten : s.engineArrive (From.ofEngine c) [lmAcc c w2 b ks] .store = s := rfl
  unfold State.copyChunk
  rw [hjob]
  simp only [List.flatMap_cons, List.flatMap_nil, List.append_nil, List.map_cons, List.map_nil, List.zip_cons_cons, List.zip_nil_left,
    List.nil_append, List.flatten_cons, List.flatten_nil]
  rw [State.modCore_mem, hread, hwritten, (State.partWrite_same ..).1]
  exact (congrArg (fun data => (s.engineWrite ks data _).mem) hbytes).trans (hwrite _)

/-- Bytes copied from a window to a window are read there as they stood in the source. -/
theorem State.write_copy_get {w1 w2 : Win} {a b lo : Nat} (hinv : s.inv = true) (hlo : lo < n) :
    (s.write none (range (lmKey c w2 b) n) (s.bytesAt (range (lmKey c w1 a) n))).mem.get (lmKey c w2 (b + lo)) =
      s.mem.get (lmKey c w1 (a + lo)) := by
  have hlen : (range (lmKey c w2 b) n).length = (s.bytesAt (range (lmKey c w1 a) n)).length := by
    rw [State.bytesAt, List.length_map, length_range, length_range]
  have hbytes := congrArg (·[lo]?) (State.write_bytesAt none hinv (range_nodup (lmKey c w2 b) n) hlen)
  have hat (k : Nat) : (range k n)[lo]? = some (k + lo) := by
    rw [range, List.getElem?_map, List.getElem?_range hlo]
    rfl
  rw [State.bytesAt, State.bytesAt, List.getElem?_map, List.getElem?_map, hat, hat, lmKey_add, lmKey_add] at hbytes
  exact Option.some.inj hbytes

theorem mapM_singleton_ok {ε α β : Type} {f : α → Except ε β} {a : α} {b : β} (h : f a = .ok b) : [a].mapM f = .ok [b] := by
  rw [List.mapM_cons, h]
  rfl

theorem moveChunk_copies {s : State} {lo : Nat} (w1 w2 : Win) :
    let x := j.layout
    s.inv = true → x.rows = 1 → x.rlen = n → 1 ≤ n → n ≤ 4096 → x.dist = false → x.mcast = false → x.cbp = false → x.cbc = false →
    x.srcSp ≠ 0 → w1 = winOf x.srcSp → x.dstSp ∉ [0, 5, 6] → w2 = winOf x.dstSp → l.pairs = [] →
    x.src.toNat + n ≤ l.split.size w1 → x.dst.toNat + n ≤ l.split.size w2 →
    (∀ (as : List Acc) (r : Req), (∀ a ∈ as, ∃ w off, a.place = .lm c w off) → s.engineDemand (From.ofEngine c) as r = none) →
    s.quarantined ((List.range n).map fun o => lmKey c w2 (x.dst.toNat + o)) = false → lo < n →
    (s.moveChunk c l j 0).mem.get (lmKey c w2 (x.dst.toNat + lo)) = s.mem.get (lmKey c w1 (x.src.toNat + lo)) := by
  intro x hinv hrows hrlen hn hmax hdist hmcast hcbp hcbc hsrc hw1 hdst hw2 hpairs hsrcIn hdstIn hfree hquar hlo
  subst hw1 hw2
  have htotal : min 4096 (j.layout.total - 4096 * 0) = n := by
    show min 4096 (x.rows * x.rlen - 0) = n
    rw [hrows, hrlen, Nat.one_mul, Nat.sub_zero, Nat.min_eq_right hmax]
  have hdesc : x.dstSp ≠ 6 := fun h => hdst (by rw [h]; decide)
  have hjob : s.jobDesc l j.layout = [] := if_neg hdesc
  have hlm (w : Win) (off : Nat) (ks : List Nat) (r : Req) : s.engineDemand (From.ofEngine c) [lmAcc c w off ks] r = none :=
    hfree _ r fun a ha => ⟨some w, off, (List.mem_singleton.1 ha) ▸ rfl⟩
  have hnone : s.engineDemand (From.ofEngine c) [] .read = none := rfl
  have hrange : (List.range n).map (fun o => lmKey c (winOf x.dstSp) (x.dst.toNat + o)) = range (lmKey c (winOf x.dstSp) x.dst.toNat) n :=
    List.map_congr_left fun o _ => (lmKey_add ..).symm
  unfold State.moveChunk
  dsimp only
  rw [hjob, hnone, htotal, Nat.mul_zero, Layout.segs_of_row hn hrlen]
  dsimp only
  rw [mapM_singleton_ok (State.srcRuns_of_window hcbc hsrc hpairs hsrcIn),
    mapM_singleton_ok (State.dstRuns_of_window hdist hmcast hcbp hdst hpairs hdstIn)]
  simp only [List.flatten_cons, List.flatten_nil, List.flatMap_cons, List.flatMap_nil, List.append_nil]
  rw [hlm, hlm]
  dsimp only
  rw [State.copyChunk_lm_mem _ hdesc (hrange ▸ hquar)]
  exact State.write_copy_get hinv hlo

end

/-- Settles O53: each event by its own lemma; a message, a gather and a fetch by what they leave of the cores, a report by the record's
fields, a chunk by the bytes that its one run copies. -/
theorem messageAndDrillEvents : Obligations.MessageAndDrillEvents := by
  unfold Obligations.MessageAndDrillEvents
  refine ⟨fun s c ch dst dcl m rest => exec_sendEvent, fun s c ch => exec_sendEvent_empty, fun s c ch bad => exec_messageArrival_none,
    fun s c ch => exec_nakArrival_none, fun s c k va => exec_mappingRejected_none, fun s c bad => exec_drill_none bad,
    fun s c ch dst dcl m rest bad => messageArrival_taken bad, fun s c ch dst dcl m rest bad => messageArrival_dead bad,
    fun s c ch n => nakArrival_taken, fun s s1 c k r rest p => exec_deferredReceive,
    fun s c k r rest p a => exec_deferredReceive_of_reached, fun s c k => exec_deferredReceive_none, ?torus,
    fun s n l => gatherComplete_goes, fun s n l => exec_gatherComplete_waits, ?fetch,
    fun s c k p rest a => exec_parkedReplay_store, fun s c k => exec_parkedReplay_none, fun s c k va p rest => exec_mappingRejected,
    ?async, fun s => exec_asyncTrap_none, ?drill, ?copy⟩
  case torus =>
    exact fun s c dir w rest hwires hdir => ⟨exec_torusWordLand_early hwires, torusWordLand_due hwires hdir⟩
  case fetch =>
    exact fun s c va => ⟨exec_fetchPortServe_other, fun a => fetchPortServe_served⟩
  case async =>
    exact fun s a rest l hasyncs hfind hlive => ⟨asyncTrap_taken hasyncs hfind hlive, asyncTrap_toRuntime hasyncs hfind hlive⟩
  case drill =>
    intro s c l j rest hjobs hl
    exact ⟨exec_drillJobStart hjobs hl, fun i bad hrunning _ hnext => exec_drillChunk bad hjobs hl hrunning hnext,
      fun r => exec_drillJobComplete hjobs hl, fun r cause a => exec_drillJobFault hjobs hl⟩
  case copy =>
    exact fun s c l j lo n w1 w2 => moveChunk_copies w1 w2

end Sys2Proof.Machine
end
